-- ==== Sys2Proof/Word.lean ====
section
/-!
DEFINITION. The word types of the XC96: bytes, registers (R11), device addresses (R9) and line time.
Nothing here computes; every helper over words lies under Machine/.
-/
namespace Sys2Proof

/-- One byte of memory or of a frame. -/
abbrev Byte := BitVec 8
/-- A half word: tags, fabric IDs, tensor numbers (Table 0-4). -/
abbrev W16 := BitVec 16
/-- A register (R11). -/
abbrev W32 := BitVec 32
/-- A 64-bit word: tokens' widths, step number, line time in nanoseconds. -/
abbrev W64 := BitVec 64
/-- A 128-bit record: a reply, an event, a descriptor word. -/
abbrev W128 := BitVec 128
/-- A 64-byte record: a command packet, a task descriptor. -/
abbrev W512 := BitVec 512

end Sys2Proof
end

