-- ==== Sys2Proof/Syntax.lean ====
section
/-!
DEFINITION. The commands of the XC96: one constructor of `Instr` for each row of the command table. A Kolelm command
carries its packet header and its parameters (Tables 15-7 to 15-16); a command with PB = 1 carries its parameter
block in the header; an event carries what reaches the module from outside with it.
-/
namespace Sys2Proof

/-- A host buffer: address and length (R443, "BUF at o"). -/
structure Buf where
  addr : W64
  len  : W32
  deriving DecidableEq, Repr

/-- The header of a command packet (Table 15-3), with the queue it came through, the contents of its parameter
block, and what host memory returns to the command's own host reads. -/
structure CmdHdr where
  queue     : BitVec 6
  /-- the packet came as a vendor-defined MCTP message (R456) -/
  mctp      : Bool
  tag       : W16
  notBefore : W64
  fence     : Bool
  quiet     : Bool
  pbDev     : Bool
  pbAddr    : W64
  /-- the parameter block, PB_LEN × 64 bytes -/
  pb        : List Byte
  hostData  : List Byte
  deriving DecidableEq, Repr

/-- The requesters of register accesses: the host register window and control cores 0 to 4 (R469). -/
inductive Requester where
  | host
  | core (n : BitVec 3)
  deriving DecidableEq, Repr

/-- The engines of a tile (R91). -/
inductive Engine where
  | matrix | vector | move | send
  deriving DecidableEq, Repr

/-- A piece of one row of a contribution, from a scale-block boundary: its row scale, its element count, and the bytes
of its metadata, E8M0 scales and elements (R46, R49, R99). -/
structure RowPiece where
  scale : W32
  count : W16
  metas : List Byte
  e8m0  : List Byte
  data  : List Byte
  deriving DecidableEq, Repr

/-- The part of one member's contribution that falls within one reduction block (R244). -/
inductive Contribution where
  /-- elements in a format and scheme of Tables 2-1 and 2-3 -/
  | plain (fmt : BitVec 4) (scheme : BitVec 2) (pieces : List RowPiece)
  /-- exponent-coded blocks with their code tables (R155, R158); `last` is the element count of the last block -/
  | coded (fmt : BitVec 4) (scheme : BitVec 2) (scale : W32) (e8m0 : List Byte) (tables : List (List Byte))
      (count : W16) (data : List Byte)
  /-- rows of a VQ segment: its header (Table 6-5), payload, and the elements to skip (R164, R165) -/
  | vq (header : BitVec 256) (payload : List Byte) (skip : W32) (count : W16)
  /-- rows for a sparse table (R260): row index and elements, in a format and scheme of Tables 2-1 and 2-3 -/
  | rows (fmt : BitVec 4) (scheme : BitVec 2) (rows : List (W32 × RowPiece))
  deriving DecidableEq, Repr

/-- An exact accumulator as another module sends it: NF and the 640-bit integer (R241). -/
structure ExactWord where
  nf  : Bool
  val : BitVec 640
  deriving DecidableEq, Repr

/-- The other modules' parts of a group's all-reduced sums (R258, R259): U2, W2, the Adafactor column sums and the
sum of its row factors. -/
structure GroupSums where
  u2   : ExactWord
  w2   : ExactWord
  kc   : List ExactWord
  rs   : ExactWord
  /-- rows of the group that other modules hold -/
  rows : W32
  deriving DecidableEq, Repr

/-- What the commit collective brings from the other members (Table 10-5). -/
structure CommitItems where
  /-- per-tensor amax, and contribution amax of gradient tensors: tensor, value -/
  amax     : List (W16 × W32)
  contrib  : List (W16 × W32)
  /-- per-row amax: tensor, row, value -/
  rowAmax  : List (W16 × W32 × W32)
  /-- D and W of other members of the replica group: group, D, W -/
  ratio    : List (W16 × ExactWord × ExactWord)
  /-- shards some member flags for re-base: stack and shard -/
  rebase   : List (BitVec 3 × BitVec 11)
  /-- shard fingerprints of the other members of the replica set: replica, stack, shard, fingerprint -/
  prints   : List (W16 × BitVec 3 × BitVec 11 × W64)
  /-- members whose shards are torn or invalid: replica, stack, shard -/
  unsound  : List (W16 × BitVec 3 × BitVec 11)
  /-- some member's plumb digest differs -/
  plumb    : Bool
  deriving DecidableEq, Repr

/-- What a repair copies of one 1 MiB block, in its order (R418): moments or factors, second moments, pieces of the
compute copy with their addresses, weights, and block records. -/
structure RepairData where
  moments : List Byte
  second  : List Byte
  copy    : List (BitVec 48 × List Byte)
  weights : List Byte
  records : List Byte
  deriving DecidableEq, Repr

/-- The block fingerprint table and ECC mark of a shard at another member of the replica set (R417). -/
structure MemberTable where
  replica : W16
  mark    : Bool
  prints  : List W64
  deriving DecidableEq, Repr

/-- What a training or a retrain measures of one lane: eye width in 1/256 UI and eye height in mV (R185). -/
structure LaneEye where
  lane   : BitVec 5
  width  : Byte
  height : Byte
  deriving DecidableEq, Repr


/-- Bit errors that a memory takes: the device address of the 64-byte line, whether it is the copy that a plinth pool
holds, and the wrong bits, 512 of data and 64 of check symbols or check bytes (R176, R121, R235). -/
structure Upset where
  addr   : BitVec 48
  pooled : Bool
  bits   : BitVec 576
  deriving DecidableEq, Repr

/-- A tile and the bit errors that its memory has taken since it was last named (R121). -/
structure TileVisit where
  tile   : BitVec 7
  upsets : List Upset
  deriving DecidableEq, Repr

/-- A Treim channel and the bit errors that its cells have taken since it was last named (R176, R182). -/
structure ChannelVisit where
  channel : BitVec 10
  upsets  : List Upset
  deriving DecidableEq, Repr

/-- A pier and the bit errors that its SRAM has taken since it was last named (R235). -/
structure PierVisit where
  pier   : BitVec 2
  upsets : List Upset
  deriving DecidableEq, Repr

/-- What the end of a power-up or of a wake reports: of each channel its lanes and failed TSV paths (R184, R185), and the
tiles whose self-test failed, with those of the control cores above them (R116, Table 18-5). -/
structure TrainingReport where
  channels : List (BitVec 10 × List LaneEye × List (BitVec 5))
  selfTest : BitVec 101
  deriving DecidableEq, Repr

/-- The cause of a tile's fault (Table 4-20), and for a message with wrong parity which one in flight it was (R121). -/
structure TileCause where
  code : BitVec 4
  msg  : Option (BitVec 16)
  deriving DecidableEq, Repr

/-- The first failing member that a check result names (Table 10-3), and the members absent from its contributor lane
(R363). -/
structure CheckLane where
  first  : W16
  absent : List W16
  deriving DecidableEq, Repr

/-- The bytes of a CONTRIB frame, and what its payload encodes where that is not plain elements (log 70). -/
structure ContribFrame where
  bytes : List Byte
  form  : Option Contribution
  deriving DecidableEq, Repr

/-- A handle whose run starts, with the token rows that a ragged all-to-all sends and the expert of each (R302). -/
structure RunStart where
  handle : W16
  routed : List (W16 × List Byte)
  deriving DecidableEq, Repr

/-- The commands. -/
inductive Instr where
  -- Table 15-7, management
  | identify (h : CmdHdr) (buf : Buf)
  | queueCreate (h : CmdHdr) (qid vector coalN coalUs log2Depth : Byte) (sq cq : W64)
  | queueDelete (h : CmdHdr) (qid : Byte)
  | jobStatus (h : CmdHdr) (buf : Buf)
  | eventRingSet (h : CmdHdr) (ring : W64) (log2Depth vector : Byte)
  | jobSeedSet (h : CmdHdr) (seed : W64)
  | moduleReset (h : CmdHdr) (confirm : W32)
  | moduleBedEnter (h : CmdHdr)
  | moduleBedLeave (h : CmdHdr)
  | fwUpdate (h : CmdHdr)
  -- Table 15-8, memory and moves
  | memToHost (h : CmdHdr) (dev host len : W64)
  | memFromHost (h : CmdHdr) (host dev len : W64)
  | memCopy (h : CmdHdr) (src dst len : W64)
  | memFill (h : CmdHdr) (dst len pattern : W64)
  | treimMapApplyJobStart (h : CmdHdr)
  | treimMapApplyRestore (h : CmdHdr)
  | treimMapApplyResume (h : CmdHdr)
  | treimRetrain (h : CmdHdr) (channel : W16)
  | plinthApply (h : CmdHdr) (pierMask : Byte)
  | plinthAlloc (h : CmdHdr) (pier domain pages shared : Byte)
  | plinthFree (h : CmdHdr) (pier region first pages : Byte)
  | plinthQuota (h : CmdHdr) (pierMask domain : Byte) (quota : W16)
  | corbelLoad (h : CmdHdr)
  | corbelGroupSet (h : CmdHdr)
  | corbelResume (h : CmdHdr)
  | corbelUnfreeze (h : CmdHdr)
  -- Table 15-9, tiles and programs
  | programLoad (h : CmdHdr)
  | tileFence (h : CmdHdr) (mask : BitVec 96)
  | tileUnfence (h : CmdHdr) (mask : BitVec 96)
  | tileQuery (h : CmdHdr) (mask : BitVec 96) (buf : Buf)
  -- Table 15-11, step control
  | stepBegin (h : CmdHdr) (step : W64) (salt : W32) (gen : Byte) (tCheck tCommit deadline : W64)
  | stepAbort (h : CmdHdr) (step : W64)
  | stepQuery (h : CmdHdr) (buf : Buf)
  | tensorScale (h : CmdHdr) (tid : W16) (margin hostScale : W32) (depth flags : Byte)
  | stepResume (h : CmdHdr) (step : W64)
  | jobGroups (h : CmdHdr)
  | queueLoad (h : CmdHdr)
  | expertTableLoad (h : CmdHdr)
  -- Table 15-12, fabric and collectives
  | fabricConfig (h : CmdHdr)
  | fabricRouteLoad (h : CmdHdr)
  | collSetup (h : CmdHdr)
  | collFree (h : CmdHdr) (handle : W16)
  | collRun (h : CmdHdr) (handle : W16)
  | fabricQuery (h : CmdHdr) (buf : Buf)
  | collQuery (h : CmdHdr) (handle : W16) (buf : Buf)
  -- Table 15-13, exchange
  | exchConfig (h : CmdHdr)
  | exchPartners (h : CmdHdr)
  | exchWeights (h : CmdHdr)
  | exchJoin (h : CmdHdr)
  | exchQuery (h : CmdHdr) (buf : Buf)
  | exchFetch (h : CmdHdr)
  -- Table 15-14, checkpoints
  | ckptConfig (h : CmdHdr)
  | ckptQuery (h : CmdHdr) (buf : Buf)
  | ckptRestore (h : CmdHdr) (outer : W32)
  | replicaRepairNameSource (h : CmdHdr)
  | replicaRepairCatchUp (h : CmdHdr)
  -- Table 15-15, time and budgets
  | timeEpoch (h : CmdHdr) (epoch ppsSecond : W64)
  | timeQuery (h : CmdHdr) (buf : Buf)
  | budgetSet (h : CmdHdr)
  | timeTimer (h : CmdHdr) (timer : Byte) (ctl : W32) (expiry : W64)
  | timePathSet (h : CmdHdr)
  -- Table 15-16, security and telemetry
  | secIdentity (h : CmdHdr) (buf : Buf)
  | secAttest (h : CmdHdr) (buf : Buf) (nonce : BitVec 256)
  | secKeyLoad (h : CmdHdr)
  | secKeyClear (h : CmdHdr) (slot : Byte)
  | secOwnerEnrol (h : CmdHdr)
  | secRollbackSet (h : CmdHdr)
  | countersRead (h : CmdHdr) (block : Byte) (inst : W16) (buf : Buf)
  | slogRead (h : CmdHdr) (clear : Byte) (buf : Buf)
  | tensorRead (h : CmdHdr) (first n : W16) (buf : Buf)
  | queueStats (h : CmdHdr) (first n : W16) (buf : Buf)
  | sensorsRead (h : CmdHdr) (buf : Buf)
  | diagRun (h : CmdHdr) (test : W16) (param : W64)
  -- the host interface (chapter 15)
  | commandFetch (queue : BitVec 6) (packet : W512) (pb hostData : List Byte)
  | commandNotBeforeDue (queue : BitVec 6)
  | sqTailDoorbell (queue : BitVec 6) (value : W32)
  | cqHeadDoorbell (queue : BitVec 6) (value : W32)
  | evHeadDoorbell (value : W32)
  | hifAqCfgWrite (value : W32)
  | msixCoalesceTimeout (queue : BitVec 6)
  | hostIfReset
  | flr
  | surpriseRemoval
  | hostLinkUp (speed : BitVec 2) (width : BitVec 5) (flit : Bool)
  | apertureAccess (offset : BitVec 30) (write : Bool) (len : BitVec 7) (data : List Byte)
  | regWindowBadAccess (offset : BitVec 26) (write : Bool) (len : Byte)
  | pciPmD3hot
  | pciPmD0
  | d3hotBedStart
  -- registers (chapter 16)
  | regWrite (req : Requester) (addr : BitVec 26) (value : W32)
  | regAliasSet (req : Requester) (addr : BitVec 26) (value : W32)
  | regAliasClear (req : Requester) (addr : BitVec 26) (value : W32)
  | regAliasToggle (req : Requester) (addr : BitVec 26) (value : W32)
  | counterLowRead (req : Requester) (addr : BitVec 26)
  | counterLowPeek (req : Requester) (addr : BitVec 26)
  | latchedLowRead (req : Requester) (addr : BitVec 26)
  | rcEventRead (req : Requester) (addr : BitVec 26)
  | topSnapGo (req : Requester) (value : W32)
  | snapshotComplete
  | cfgRefWrite (req : Requester) (hi : Bool) (value : W32)
  | cfgCommitCompare (req : Requester)
  | cfgCommitAdopt (req : Requester)
  | cfgCrcPassStart
  | cfgCrcPassEnd
  | secExtGo (req : Requester) (value : W32)
  | cipCfgWrite (req : Requester) (value : W32)
  | cipRqTailWrite (req : Requester) (value : W32)
  | hifJobctlWrite (req : Requester) (value : W32)
  | hifLockWrite (req : Requester) (value : W32)
  | fabLockWrite (req : Requester) (value : W32)
  | pwrLockWrite (req : Requester) (value : W32)
  | pwrLimitWrite (req : Requester) (value : W32)
  -- resets, power and management (chapters 18 and 19, R456)
  | auxPowerOn (straps : BitVec 9)
  | coldRstLAssert
  | mrstLAssert
  | perstAssert
  | pwrEnLAssert
  | pwrEnLDeassert
  | prsntLAssert
  | prsntLDeassert
  | mainInputLow
  | auxSupplyLow
  | mainPowerRamp
  | railsGood
  | islandBootComplete (puf : Bool) (bits : W16)
  | treimTrainingComplete (report : TrainingReport)
  | selfRefreshEntry (stack : BitVec 3)
  | locateLChange (asserted : Bool)
  | powerSample (watts : W16) (volt : Byte)
  | dieTempSample (die : BitVec 5) (temp : W16)
  | stackTempReport (stack : BitVec 3) (die : BitVec 4) (temp : W16)
  | stackStopComplete (stack : BitVec 3)
  | smbusTransaction (bytes : List Byte)
  | mctpControlMessage (msg : List Byte)
  | pldmMonitoringMessage (msg : List Byte)
  | pldmFruMessage (msg : List Byte)
  | pldmFwUpdateMessage (msg image : List Byte)
  | mctpVendorCommand (vendor : W16) (packet : W512)
  | smbusAlertResponse
  | ppsInEdge
  | ppsEdgeMissing
  | ppsOutPulse
  | ref10mChange (present : Bool)
  -- tiles and tokens (chapter 4)
  | tokenArrival (token : W64)
  | creditArrival (src : Byte) (credit : W32)
  | taskStart (visit : TileVisit)
  | matrixTaskComplete (tile : BitVec 7)
  | vectorPassComplete (tile : BitVec 7)
  | moveTaskComplete (tile : BitVec 7)
  | sendTaskComplete (tile : BitVec 7)
  | stepBeginToken (token : W64)
  | abortToken (token : W64)
  | taskStop (tile : BitVec 7) (engine : Engine) (done : W32)
  | fenceToken (token : W64)
  | tileFaultDetect (tile : BitVec 7) (cause : TileCause) (task : BitVec 13)
  | taskLimitExpiry (tile : BitVec 7) (engine : Engine)
  | nonfiniteSlotToken (token : W64)
  | programDoneToken (token : W64)
  | taskFaultToken (token : W64)
  | fencedToken (token : W64)
  | gatherAcquire (token : W64)
  | gatherRelease (token : W64)
  | gatherFillComplete (pier : BitVec 2) (slot : BitVec 6) (data : List Byte)
  | queueEntryArrival (handle : W16) (offset len : W32) (gen : Bool) (data : List Byte)
  | queueCreditReturn (src : Byte) (credit : W32)
  -- the step (chapters 1, 9 and 10)
  | checkWordReady
  | tCheckInstant
  | checkDecision (s f hard a : Bool) (lane : CheckLane) (normNf : Bool) (norm : BitVec 640)
  | deadlineExpiry
  | updateStart
  | weightBlockStart (stack : BitVec 3) (shard : BitVec 11) (block : W32)
  | writeGroupComplete (stack : BitVec 3) (shard : BitVec 11) (block : W32)
  | groupSumsComplete (group : BitVec 10) (sums : GroupSums)
  | updateComplete
  | tCommitInstant
  | commitCollectiveComplete (items : CommitItems)
  | deltaFormationComplete
  | deltaEncodeComplete
  -- memory-side operations (Table 9-1)
  | gridAdd (stack : BitVec 3) (shard : BitVec 11) (block : W32) (gen : Bool) (contrib : Contribution)
  | addI64 (addr : BitVec 48) (operand : W64)
  | addF32 (addr : BitVec 48) (operand : W32)
  | maxF32 (addr : BitVec 48) (operand : W32)
  | minF32 (addr : BitVec 48) (operand : W32)
  | or64 (addr : BitVec 48) (operand : W64)
  | swap64 (addr : BitVec 48) (operand : W64)
  | cas64 (addr : BitVec 48) (compare swap : W64)
  | sqAdd (addr : BitVec 48) (operand : W32)
  | linAdd (addr : BitVec 48) (operand : W32)
  | partComplete (handle : W16)
  -- Treim and the pool (chapters 7 and 8)
  | calibrationInterval (channel : BitVec 10) (eyeW eyeH : Byte)
  | quietSlot (channel : BitVec 10) (eyeW eyeH : Byte)
  | retrainStart (channel : BitVec 10)
  | retrainComplete (channel : BitVec 10) (lanes : List LaneEye) (tsvFailed : List (BitVec 5))
  | lostChannelRebuild (channel : BitVec 10)
  | refreshPeriod (visit : ChannelVisit)
  | patrolScrub (stack : BitVec 3) (error : List Byte)
  | poolAgeRelease (visit : PierVisit)
  -- line time and budgets (chapter 11)
  | timeExchangeSend (path : BitVec 5)
  | timeFrameReceive (port : BitVec 4) (frame : List Byte)
  | backupRootTakeover
  | ptpMessageReceive (port : BitVec 4) (domain : Byte) (ptp : BitVec 96)
  | ptpMasterLoss
  | lineTimerExpiry (timer : BitVec 3)
  | budgetPeriodBoundary
  -- the fabric and collectives (chapter 12)
  | writeFrameReceive (port : BitVec 4) (frame : List Byte)
  | contribFrameReceive (port : BitVec 4) (frame : ContribFrame)
  | resultFrameReceive (port : BitVec 4) (frame : List Byte)
  | creditFrameReceive (port : BitVec 4) (frame : List Byte)
  | ackFrameReceive (port : BitVec 4) (frame : List Byte)
  | nackFrameReceive (port : BitVec 4) (frame : List Byte)
  | ctrlExcludeSelf (port : BitVec 4) (frame : List Byte)
  | ctrlSlow (port : BitVec 4) (frame : List Byte)
  | ctrlPartLost (port : BitVec 4) (frame : List Byte)
  | ctrlFlowClose (port : BitVec 4) (frame : List Byte)
  | ctrlBuddyCheck (port : BitVec 4) (frame : List Byte)
  | pauseFrameReceive (port : BitVec 4) (enable : Byte) (times : List W16)
  | pauseWatchdogExpiry (port : BitVec 4) (prio : BitVec 3)
  | laneFail (port : BitVec 4) (lane : BitVec 2)
  | portTrainingComplete (port : BitVec 4) (lanes : BitVec 4) (credits : Bool) (peer : W16)
  | linkCreditTimeout (port : BitVec 4)
  | retransmitTimeout (dst : W16) (prio : BitVec 3)
  | flowIdleTimeout (dst : W16) (prio : BitVec 3)
  | ackTimer (src : W16) (prio : BitVec 3)
  | unreachableProbe (dst : W16)
  | collectiveStart (start : RunStart)
  | waitMaxExpiry (handle : W16) (member : W16)
  | smallCollWaitExpiry (handle : BitVec 2) (missing : List W16)
  | coordinatorTakeover (handle : BitVec 2)
  | collectiveComplete (handle : W16)
  -- the exchange (chapter 13)
  | windowOpen
  | windowClose
  | publicationSend
  | deltaResend
  | deltaFragmentReceive (port : BitVec 4) (src : BitVec 128) (udp : List Byte)
  | pubFragmentReceive (port : BitVec 4) (src : BitVec 128) (udp : List Byte)
  | baseFragmentReceive (port : BitVec 4) (src : BitVec 128) (udp : List Byte)
  | codebookFragmentReceive (port : BitVec 4) (src : BitVec 128) (udp : List Byte)
  | npxStatusReceive (port : BitVec 4) (src : BitVec 128) (udp : List Byte)
  | npxFetchReceive (port : BitVec 4) (src : BitVec 128) (udp : List Byte)
  | npxRebaseReceive (port : BitVec 4) (src : BitVec 128) (udp : List Byte)
  | npxCandidateReceive (port : BitVec 4) (src : BitVec 128) (udp : List Byte)
  | npxVoteReceive (port : BitVec 4) (src : BitVec 128) (udp : List Byte)
  | npxNewhomeReceive (port : BitVec 4) (src : BitVec 128) (udp : List Byte)
  | npxAliveReceive (port : BitVec 4) (src : BitVec 128) (udp : List Byte)
  | npxTimeReceive (port : BitVec 4) (src : BitVec 128) (udp : List Byte)
  | objectHoldExpiry
  | candidacyTimeout
  | exchBroadcastReceive (kind : BitVec 4) (data : List Byte)
  | neighborDiscovery (port : BitVec 4) (src : BitVec 128) (icmp : List Byte)
  | codebookRetrain (family : BitVec 4)
  -- checkpoints and faults (chapter 14)
  | ckptCopyComplete
  | ckptPauseRetry
  | ckptAbandon
  | repairComplete (stack : BitVec 3) (shard : BitVec 11) (block : W16) (tables : List MemberTable) (data : RepairData)
  | coreWatchdogTimeout (core : BitVec 3)
  | coreEccFault (core : BitVec 3)
  | stickyLogMirror
  -- the cipher engine (chapter 17)
  | cipXtsEncrypt
  | cipXtsDecrypt
  | cipGcmSeal
  | cipGcmOpen
  | cipCtxSaveClear
  | cipCtxSaveWrapped
  | cipCtxRestore
  | cipRequestDone (index : BitVec 12)
  -- further events of power, management and pause frames
  | perstDeassert
  | mainInputReturn
  | pldmBaseMessage (msg : List Byte)
  | pauseTimeExpiry (port : BitVec 4) (prio : BitVec 3)
  deriving DecidableEq, Repr

end Sys2Proof
end

