-- ==== Sys2Proof/Decode.lean ====
section
/-!
DEFINITION. Commands that a table word spells: the command table of this block gives no row any bits, so no word spells
one. The packets of chapter 15, which have an encoding, are read by `commandAt` in Machine/Kolelm.lean.
-/
namespace Sys2Proof

/-- The command that a word of the command table spells: none, as the table gives its rows no bits. -/
def decodeTableWord (_nbits _w : Nat) : Option Instr := none

end Sys2Proof
end

