-- ==== Sys2Proof/Machine/Bits.lean ====
section
/-!
DEFINITION. Bit fields, byte order and saturation over natural numbers: the helpers every record of the
manual is read and written with (R6, R8: bit 0 is the least significant, records are little-endian).
-/
namespace Sys2Proof.Machine

/-- Field `[hi:lo]` of a record (R6). -/
def field (x hi lo : Nat) : Nat := (x >>> lo) % 2 ^ (hi + 1 - lo)

/-- One bit of a record as a flag. -/
def flag (x i : Nat) : Bool := x.testBit i

/-- A flag as a bit. -/
def bit (b : Bool) : Nat := if b then 1 else 0

/-- `x` with field `[hi:lo]` replaced by `v`. -/
def putField (x hi lo v : Nat) : Nat :=
  x - (field x hi lo <<< lo) + ((v % 2 ^ (hi + 1 - lo)) <<< lo)

/-- The two's complement value of the low `w` bits of `x`. -/
def signed (w x : Nat) : Int :=
  let v := x % 2 ^ w
  if v < 2 ^ (w - 1) then (v : Int) else (v : Int) - 2 ^ w

/-- The low `w` bits of an integer in two's complement. -/
def unsigned (w : Nat) (i : Int) : Nat := (i % (2 ^ w : Int)).toNat

/-- `n` little-endian bytes of `x` (R8). -/
def leBytes : Nat → Nat → List Byte
  | 0, _ => []
  | n + 1, x => BitVec.ofNat 8 x :: leBytes n (x / 256)

/-- `n` big-endian bytes of `x` (R8, network order). -/
def beBytes (n x : Nat) : List Byte := (leBytes n x).reverse

/-- The little-endian value of a byte string. -/
def leNat : List Byte → Nat
  | [] => 0
  | b :: bs => b.toNat + 256 * leNat bs

/-- The big-endian value of a byte string. -/
def beNat (bs : List Byte) : Nat := leNat bs.reverse

/-- `n` bytes of a byte string from offset `o`, missing bytes read as 0. -/
def slice (bs : List Byte) (o n : Nat) : List Byte :=
  let t := (bs.drop o).take n
  t ++ List.replicate (n - t.length) 0

/-- The little-endian field of `n` bytes at offset `o` of a byte string. -/
def leAt (bs : List Byte) (o n : Nat) : Nat := leNat (slice bs o n)

/-- The big-endian field of `n` bytes at offset `o` of a byte string. -/
def beAt (bs : List Byte) (o n : Nat) : Nat := beNat (slice bs o n)

/-- `bs` with the bytes from offset `o` replaced by `v`; bytes past the end are dropped. -/
def patch (bs : List Byte) (o : Nat) (v : List Byte) : List Byte :=
  (bs.take o ++ v ++ bs.drop (o + v.length)).take bs.length

/-- The sum of two counts, saturating at `2^w - 1`. -/
def satAdd (w a b : Nat) : Nat := min (a + b) (2 ^ w - 1)

/-- Cut a byte string into rows of `n` bytes; the fuel is the length. -/
def chunksAux (n : Nat) : Nat → List Byte → List (List Byte)
  | 0, _ => []
  | _ + 1, [] => []
  | f + 1, bs => bs.take n :: chunksAux n f (bs.drop n)

/-- Cut a byte string into rows of `n` bytes. -/
def chunks (n : Nat) (bs : List Byte) : List (List Byte) :=
  if n = 0 then [] else chunksAux n bs.length bs

/-- The positions of the 1 bits of a mask below `n`, ascending. -/
def maskBits (n m : Nat) : List Nat := (List.range n).filter (fun i => m.testBit i)

/-- The ceiling of `a / b`. -/
def ceilDiv (a b : Nat) : Nat := if b = 0 then 0 else (a + b - 1) / b

/-- The bitwise XOR of two byte strings, to the shorter length. -/
def xorBytes (a b : List Byte) : List Byte := List.zipWith (· ^^^ ·) a b

end Sys2Proof.Machine
end

