-- ==== Sys2Proof/Machine/LineCode.lean ====
section
/-!
DEFINITION. The line code of Treim (R176 to R179): Reed-Solomon over GF(2^8), decoded from an error pattern alone,
since the code is linear.
-/
namespace Sys2Proof.Machine

/-- One step of the product in GF(2^8): add `a` where bit 0 of `b` is set, double `a`. -/
def gfMulAux : Nat → Nat → Nat → Nat → Nat
  | 0, _, _, r => r
  | n + 1, a, b, r =>
    let d := 2 * a
    gfMulAux n (if d < 256 then d else d ^^^ 0x11D) (b / 2) (if b % 2 = 1 then r ^^^ a else r)

/-- Product in GF(2^8) with field polynomial x^8 + x^4 + x^3 + x^2 + 1 (R177). -/
def gfMul (a b : Nat) : Nat := gfMulAux 8 a b 0

/-- Power in GF(2^8). -/
def gfPow (a : Nat) : Nat → Nat
  | 0 => 1
  | n + 1 => gfMul a (gfPow a n)

/-- Inverse in GF(2^8). -/
def gfInv (a : Nat) : Nat := gfPow a 254

/-- α^i. -/
def gfAlpha (i : Nat) : Nat := gfPow 2 (i % 255)

/-- Symbols of a word of the code in codeword order: check symbols 0 to 7 are the coefficients of x^0 to x^7, data
byte i that of x^(i + 8). A pattern is 64 data bytes and 8 check bytes. -/
def codeSymbols (e : List Byte) : List Nat :=
  let s := (slice e 0 72).map (·.toNat)
  s.drop 64 ++ s.take 64

/-- Syndromes S_0 to S_7. -/
def syndromes (sym : List Nat) : List Nat :=
  let live := (List.zip (List.range 72) sym).filter (fun p => p.2 ≠ 0)
  (List.range 8).map (fun k => live.foldl (fun a p => a ^^^ gfMul p.2 (gfAlpha (p.1 * k))) 0)

/-- The coefficients of Π (x − X) over a list of roots, lowest first. -/
def rootPoly : List Nat → List Nat
  | [] => [1]
  | x :: xs =>
    let p := rootPoly xs
    List.zipWith (· ^^^ ·) (0 :: p) (p.map (gfMul x) ++ [0])

/-- The value of the error at each position that explains the first syndromes (Lagrange), or `none` if the remaining
syndromes disagree. -/
def solveAt (positions : List Nat) (syn : List Nat) : Option (List (Nat × Nat)) :=
  let vals := positions.map (fun p =>
    let x := gfAlpha p
    let others := (positions.filter (· ≠ p)).map gfAlpha
    let num := (List.zip (rootPoly others) syn).foldl (fun a q => a ^^^ gfMul q.1 q.2) 0
    let den := others.foldl (fun a y => gfMul a (x ^^^ y)) 1
    (p, gfMul num (gfInv den)))
  let ok := (List.zip (List.range 8) syn).all (fun q =>
    vals.foldl (fun a v => a ^^^ gfMul v.2 (gfAlpha (v.1 * q.1))) 0 = q.2)
  if ok then some vals else none

/-- Codeword positions of a lane's four symbols: data lanes 0 to 15, check lanes 16 and 17 (R176). -/
def laneSymbols (lane : Nat) : List Nat :=
  if lane < 16 then (List.range 4).map (fun i => 8 + 4 * lane + i) else (List.range 4).map (fun i => 4 * (lane - 16) + i)

/-- Steps 1 to 3 of R178: the correction found, if any; `erased` is 31 when no lane is erased. -/
def decodeStrict (erased : Nat) (syn : List Nat) : Option (List (Nat × Nat)) :=
  if syn.all (· = 0) then some []
  else if erased ≠ 31 then
    let e := laneSymbols erased
    match solveAt e syn with
    | some v => some v
    | none => ((List.range 72).filter (fun p => !e.contains p)).findSome? (fun p => solveAt (p :: e) syn)
  else
    match (List.range 72).findSome? (fun p => solveAt [p] syn) with
    | some v => some v
    | none => (List.range 72).findSome? (fun p => (List.range p).findSome? (fun q => solveAt [p, q] syn))

/-- The result of decoding a line (Table 7-2). -/
inductive LineResult where
  | good
  /-- the data bytes after correction differ from the stored ones by this pattern -/
  | corrected (diff : List Byte)
  | uncorrectable
  | poison
  deriving DecidableEq, Repr

/-- The poison pattern P (R179). -/
def poisonPattern : List Byte := [0x5A, 0xA5, 0x3C, 0xC3, 0x96, 0x69, 0x0F, 0xF0]

/-- The data difference left after a correction is applied to an error pattern. -/
def afterCorrection (sym : List Nat) (fix : List (Nat × Nat)) : List Byte :=
  ((List.zip (List.range 72) sym).map (fun p =>
    BitVec.ofNat 8 (p.2 ^^^ ((fix.filter (fun v => v.1 = p.1)).foldl (fun a v => a ^^^ v.2) 0)))).drop 8

/-- Decode a read whose word differs from its stored codeword by `error`; a poisoned line's stored word differs from
one by P in its check symbols (R178, R179). -/
def decodeLine (erased : Nat) (poisoned : Bool) (error : List Byte) : LineResult :=
  let e := slice error 0 72
  let word := if poisoned then xorBytes e (List.replicate 64 0 ++ poisonPattern) else e
  let sym := codeSymbols word
  let syn := syndromes sym
  match decodeStrict erased syn with
  | some fix => if syn.all (· = 0) then .good else .corrected (afterCorrection sym fix)
  | none =>
    let lanes := if erased ≠ 31 then [] else (List.range 18).filterMap (fun l => solveAt (laneSymbols l) syn)
    match lanes with
    | [fix] => .corrected (afterCorrection sym fix)
    | _ =>
      let bare := codeSymbols (xorBytes word (List.replicate 64 0 ++ poisonPattern))
      if (decodeStrict erased (syndromes bare)).isSome then .poison else .uncorrectable

end Sys2Proof.Machine
end

