-- ==== Sys2Proof/Machine/Num.lean ====
section
/-!
DEFINITION. Element formats, exact values, rounding and conversion: chapter 2 of the manual (R41 to R69), and the
IEEE binary32 operations the tiles, the corbel units and the update unit use.
-/
namespace Sys2Proof.Machine

/-- The ten element formats of Table 2-1. -/
inductive Fmt where
  | fp32 | bf16 | fp16 | e5m2 | e4m3 | e3m2 | e2m3 | e2m1 | int8 | int4
  deriving DecidableEq, Repr

/-- The exact value of an element: a NaN with its sign, an infinity, or `±m × 2^e` (zero has `m = 0`). -/
inductive FVal where
  | nan (neg : Bool)
  | inf (neg : Bool)
  | fin (neg : Bool) (m : Nat) (e : Int)
  deriving DecidableEq, Repr

/-- Storage width of a format in bits (Table 2-1). -/
def Fmt.width : Fmt → Nat
  | .fp32 => 32 | .bf16 => 16 | .fp16 => 16 | .e5m2 => 8 | .e4m3 => 8
  | .e3m2 => 6 | .e2m3 => 6 | .e2m1 => 4 | .int8 => 8 | .int4 => 4

/-- Width of the exponent field (Table 2-1); 0 for the integers. -/
def Fmt.expBits : Fmt → Nat
  | .fp32 => 8 | .bf16 => 8 | .fp16 => 5 | .e5m2 => 5 | .e4m3 => 4
  | .e3m2 => 3 | .e2m3 => 2 | .e2m1 => 2 | .int8 => 0 | .int4 => 0

/-- Width of the trailing significand (Table 2-1). -/
def Fmt.sigBits : Fmt → Nat
  | .fp32 => 23 | .bf16 => 7 | .fp16 => 10 | .e5m2 => 2 | .e4m3 => 3
  | .e3m2 => 2 | .e2m3 => 3 | .e2m1 => 1 | .int8 => 7 | .int4 => 3

/-- Exponent bias (Table 2-1). -/
def Fmt.bias : Fmt → Nat
  | .fp32 => 127 | .bf16 => 127 | .fp16 => 15 | .e5m2 => 15 | .e4m3 => 7
  | .e3m2 => 3 | .e2m3 => 1 | .e2m1 => 1 | .int8 => 0 | .int4 => 0

/-- The integer formats INT8 and INT4. -/
def Fmt.isInt : Fmt → Bool
  | .int8 => true | .int4 => true | _ => false

/-- The format has an infinity (Table 2-1). -/
def Fmt.hasInf : Fmt → Bool
  | .fp32 => true | .bf16 => true | .fp16 => true | .e5m2 => true | _ => false

/-- The format has a NaN encoding (Table 2-1). -/
def Fmt.hasNan (f : Fmt) : Bool := f.hasInf || f = .e4m3

/-- An 8-bit or narrower format carries block metadata (R49). -/
def Fmt.narrow (f : Fmt) : Bool := decide (f.width ≤ 8)

/-- Positive encoding of the largest finite magnitude M (Table 2-2). -/
def Fmt.maxCode : Fmt → Nat
  | .fp32 => 0x7F7FFFFF | .bf16 => 0x7F7F | .fp16 => 0x7BFF | .e5m2 => 0x7B | .e4m3 => 0x7E
  | .e3m2 => 0x1F | .e2m3 => 0x1F | .e2m1 => 0x7 | .int8 => 0x7F | .int4 => 0x7

/-- Positive canonical NaN (Table 2-2); 0 where the format has none. -/
def Fmt.nanCode : Fmt → Nat
  | .fp32 => 0x7FC00000 | .bf16 => 0x7FC0 | .fp16 => 0x7E00 | .e5m2 => 0x7E | .e4m3 => 0x7F | _ => 0

/-- Positive infinity (Table 2-2); 0 where the format has none. -/
def Fmt.infCode : Fmt → Nat
  | .fp32 => 0x7F800000 | .bf16 => 0x7F80 | .fp16 => 0x7C00 | .e5m2 => 0x7C | _ => 0

/-- Exponent of the spacing of the subnormals: the smallest quantum of the format. -/
def Fmt.quantum (f : Fmt) : Int :=
  if f.isInt then 0 else 1 - (f.bias : Int) - (f.sigBits : Int)

/-- The sign bit of a code. -/
def Fmt.signOf (f : Fmt) (q : Nat) : Bool := q.testBit (f.width - 1)

/-- A code with its sign bit set or clear. -/
def Fmt.withSign (f : Fmt) (neg : Bool) (q : Nat) : Nat := if neg then q + 2 ^ (f.width - 1) else q

/-- The value of a code read as in Table 2-1 (R41, R42, R45). -/
def Fmt.decode (f : Fmt) (q0 : Nat) : FVal :=
  let q := q0 % 2 ^ f.width
  if f.isInt then
    let i := signed f.width q
    .fin (decide (i < 0)) i.natAbs 0
  else
    let neg := f.signOf q
    let ef := field q (f.width - 2) f.sigBits
    let sf := q % 2 ^ f.sigBits
    if f.hasInf && decide (ef = 2 ^ f.expBits - 1) then
      if sf = 0 then .inf neg else .nan neg
    else if f = .e4m3 && decide (q % 128 = 127) then .nan neg
    else if ef = 0 then .fin neg sf f.quantum
    else .fin neg (sf + 2 ^ f.sigBits) (f.quantum + (ef : Int) - 1)

/-- The sign of a value. -/
def FVal.neg : FVal → Bool
  | .nan n => n | .inf n => n | .fin n _ _ => n

/-- The value is a NaN. -/
def FVal.isNan : FVal → Bool | .nan _ => true | _ => false
/-- The value is an infinity. -/
def FVal.isInf : FVal → Bool | .inf _ => true | _ => false
/-- The value is finite. -/
def FVal.isFin : FVal → Bool | .fin _ _ _ => true | _ => false
/-- The value is ±0. -/
def FVal.isZero : FVal → Bool | .fin _ m _ => decide (m = 0) | _ => false

/-- The value with another sign. -/
def FVal.setNeg (n : Bool) : FVal → FVal
  | .nan _ => .nan n | .inf _ => .inf n | .fin _ m e => .fin n m e

/-- The value of opposite sign. -/
def FVal.negate (x : FVal) : FVal := x.setNeg (!x.neg)

/-- `+0`. -/
def FVal.zero : FVal := .fin false 0 0
/-- `1`. -/
def FVal.one : FVal := .fin false 1 0
/-- The positive canonical NaN of an invalid operation (R43). -/
def FVal.qnan : FVal := .nan false
/-- The value of a natural number. -/
def FVal.ofNat (n : Nat) : FVal := .fin false n 0

/-- Two integers brought to one exponent: `(i, j, e)` with `x = i·2^e` and `y = j·2^e`. -/
def alignInts (i : Int) (ei : Int) (j : Int) (ej : Int) : Int × Int × Int :=
  let e := min ei ej
  (i * 2 ^ (ei - e).toNat, j * 2 ^ (ej - e).toNat, e)

/-- The signed significand of a finite value, 0 for the others. -/
def FVal.int : FVal → Int
  | .fin n m _ => if n then -(m : Int) else (m : Int)
  | _ => 0

/-- The exponent of a finite value, 0 for the others. -/
def FVal.exp : FVal → Int
  | .fin _ _ e => e
  | _ => 0

/-- `x < y` of two finite or infinite values; false when either is a NaN. -/
def FVal.lt : FVal → FVal → Bool
  | .nan _, _ => false
  | _, .nan _ => false
  | .inf a, .inf b => a && !b
  | .inf a, .fin _ _ _ => a
  | .fin _ _ _, .inf b => !b
  | x, y => let (i, j, _) := alignInts x.int x.exp y.int y.exp; decide (i < j)

/-- `x = y` in value (+0 equals −0); false when either is a NaN. -/
def FVal.feq (x y : FVal) : Bool := !x.isNan && !y.isNan && !x.lt y && !y.lt x

/-- `x ≤ y`; false when either is a NaN. -/
def FVal.le (x y : FVal) : Bool := x.lt y || x.feq y

/-- The magnitude. -/
def FVal.abs (x : FVal) : FVal := x.setNeg false

/-- The rounding of an operation: nearest-even (R62), or stochastic with its 32-bit word (R63). -/
inductive Round where
  | rne
  | sr (u : Nat)
  deriving DecidableEq, Repr

/-- `floor (log2 (num/den))` of a positive quotient. -/
def leadOf (num den : Nat) : Int :=
  let l : Int := (Nat.log2 num : Int) - (Nat.log2 den : Int)
  -- `l` is the answer or one above it
  let ge : Bool := if 0 ≤ l then decide (den * 2 ^ l.toNat ≤ num) else decide (den ≤ num * 2 ^ (-l).toNat)
  if ge then l else l - 1

/-- Round `num/den × 2^e` once, to `p` significant bits with no quantum below `2^qmin` and no upper bound
(R62, R63): answers `(m, q)` standing for `m × 2^q`. -/
def roundQuot (r : Round) (p : Nat) (qmin : Int) (num den : Nat) (e : Int) : Nat × Int :=
  if num = 0 ∨ den = 0 then (0, qmin)
  else
    let q := max (leadOf num den + e - (p : Int) + 1) qmin
    let sh := e - q
    let n := if 0 ≤ sh then num * 2 ^ sh.toNat else num
    let d := if 0 ≤ sh then den else den * 2 ^ (-sh).toNat
    let t := n / d
    let rem := n % d
    let up : Bool := match r with
      | .rne => decide (2 * rem > d) || (decide (2 * rem = d) && decide (t % 2 = 1))
      | .sr u => decide (u < rem * 2 ^ 32 / d)
    (if up then t + 1 else t, q)

/-- The largest finite magnitude M of a format. -/
def Fmt.maxVal (f : Fmt) : FVal := f.decode f.maxCode

/-- The code of a positive finite value exactly representable in the format. -/
def Fmt.codeOf (f : Fmt) (m : Nat) (e : Int) : Nat :=
  if m = 0 then 0
  else if f.isInt then m * 2 ^ e.toNat
  else
    let lead := (Nat.log2 m : Int) + e
    let lo : Int := 1 - (f.bias : Int)
    if lead < lo then (m * 2 ^ (e - f.quantum).toNat) / 2 ^ (f.quantum - e).toNat
    else
      let q := lead - (f.sigBits : Int)
      let s := (m * 2 ^ (e - q).toNat) / 2 ^ (q - e).toNat
      (lead + (f.bias : Int)).toNat * 2 ^ f.sigBits + (s - 2 ^ f.sigBits)

/-- The result of converting one element (Table 2-7): its code and what the row counts. -/
structure Conv where
  code   : Nat
  /-- row 3, saturated: counts in the saturation counter -/
  sat    : Bool
  /-- row 3 in strict mode, column A: counts in the overflow counter -/
  ovf    : Bool
  /-- rows 1 and 2 where marked counted -/
  nf     : Bool
  /-- the block is to be marked POISON -/
  poison : Bool
  /-- row 4: a nonzero element written as zero -/
  crush  : Bool
  deriving DecidableEq, Repr

/-- A conversion that counts nothing. -/
def Conv.plain (c : Nat) : Conv :=
  { code := c, sat := false, ovf := false, nf := false, poison := false, crush := false }

/-- Convert one exact value, divided by the positive scale `ms × 2^es`, to a format (R62 to R65, R68, Table 2-7).
`strict` selects R68. -/
def Fmt.convert (f : Fmt) (strict : Bool) (r : Round) (x : FVal) (ms : Nat) (es : Int) : Conv :=
  match x with
  | .nan n =>
    if f.hasNan then Conv.plain (f.withSign n f.nanCode)
    else { Conv.plain f.maxCode with nf := true, poison := true }
  | .inf n =>
    if f.hasInf then Conv.plain (f.withSign n f.infCode)
    else if f.hasNan then { Conv.plain (f.withSign n f.nanCode) with nf := true }
    else
      let c := if f.isInt && n then unsigned f.width (-(f.maxCode : Int)) else f.withSign (n && !f.isInt) f.maxCode
      { Conv.plain c with nf := true, poison := true }
  | .fin n m e =>
    if m = 0 then Conv.plain (if f.isInt then 0 else f.withSign n 0)
    else
      let (rm, re) := roundQuot r (if f.isInt then 4096 else f.sigBits + 1) f.quantum m ms (e - es)
      let tooBig := (f.maxVal).lt (.fin false rm re)
      let wide : Bool := f = .fp32 || f = .bf16 || f = .fp16
      if tooBig then
        if strict && wide then { Conv.plain (f.withSign n f.infCode) with ovf := true }
        else
          let c := if f.isInt && n then unsigned f.width (-(f.maxCode : Int)) else f.withSign (n && !f.isInt) f.maxCode
          { Conv.plain c with sat := true }
      else if rm = 0 then
        { Conv.plain (if f.isInt then 0 else f.withSign n 0) with crush := true }
      else
        let c := f.codeOf rm re
        Conv.plain (if f.isInt then (if n then unsigned f.width (-(c : Int)) else c) else f.withSign n c)

/-- Convert without a scale. -/
def Fmt.encode (f : Fmt) (x : FVal) : Nat := (f.convert false .rne x 1 0).code

/-! IEEE binary32 operations, round to nearest even, overflow to infinity (R68, R88), NaNs by R43. -/

/-- The value of a binary32 word. -/
def f32 (w : Nat) : FVal := Fmt.fp32.decode w

/-- Round `num/den × 2^e` to binary32, overflow to infinity. -/
def round32 (neg : Bool) (num den : Nat) (e : Int) : FVal :=
  let (m, q) := roundQuot .rne 24 (-149) num den e
  if Fmt.fp32.maxVal.lt (.fin false m q) then .inf neg else .fin neg m q

/-- The binary32 word of a value; a finite value is rounded, overflow gives infinity. -/
def to32 (x : FVal) : Nat :=
  match x with
  | .fin n m e => Fmt.fp32.encode (round32 n m 1 e)
  | v => Fmt.fp32.encode v

/-- The first NaN of an operand list, in the written order (R43). -/
def firstNan : List FVal → Option FVal
  | [] => none
  | x :: xs => if x.isNan then some x else firstNan xs

/-- The exact sum of two finite values; an exact zero of operands that differ in sign is `+0`. -/
def exactAdd (x y : FVal) : FVal :=
  let (i, j, e) := alignInts x.int x.exp y.int y.exp
  let s := i + j
  if s = 0 then .fin (x.neg && y.neg) 0 0 else .fin (decide (s < 0)) s.natAbs e

/-- Exact sum of any two values. -/
def fadd (x y : FVal) : FVal :=
  match firstNan [x, y] with
  | some v => v
  | none =>
    match x, y with
    | .inf a, .inf b => if a = b then .inf a else .qnan
    | .inf a, _ => .inf a
    | _, .inf b => .inf b
    | x, y => exactAdd x y

/-- Exact product of any two values. -/
def fmul (x y : FVal) : FVal :=
  match firstNan [x, y] with
  | some v => v
  | none =>
    let n := x.neg != y.neg
    match x, y with
    | .fin _ m e, .fin _ k d => .fin n (m * k) (e + d)
    | _, _ => if x.isZero || y.isZero then .qnan else .inf n

/-- Round a value to binary32. -/
def rnd32 (x : FVal) : FVal :=
  match x with
  | .fin n m e => round32 n m 1 e
  | v => v

/-- Rounding an exact value to binary32 overflows: R68's event in an operation of strict mode (R88). -/
def ovf32 (x : FVal) : Bool := x.isFin && (rnd32 x).isInf

/-- `add32(a, b)`. -/
def add32 (a b : FVal) : FVal := rnd32 (fadd a b)
/-- `sub32(a, b)`: a NaN operand keeps its own sign. -/
def sub32 (a b : FVal) : FVal :=
  match firstNan [a, b] with
  | some v => v
  | none => rnd32 (fadd a b.negate)
/-- `mul32(a, b)`. -/
def mul32 (a b : FVal) : FVal := rnd32 (fmul a b)

/-- `div32(a, b)`. -/
def div32 (a b : FVal) : FVal :=
  match firstNan [a, b] with
  | some v => v
  | none =>
    let n := a.neg != b.neg
    match a, b with
    | .inf _, .inf _ => .qnan
    | .inf _, _ => .inf n
    | _, .inf _ => .fin n 0 0
    | .fin _ m e, .fin _ k d =>
      if k = 0 then (if m = 0 then .qnan else .inf n)
      else round32 n m k (e - d)
    | _, _ => .qnan

/-- `fma32(a, b, c)`: one rounding of the exact `a × b + c`. -/
def fma32 (a b c : FVal) : FVal :=
  match firstNan [a, b, c] with
  | some v => v
  | none => rnd32 (fadd (fmul a b) c)

/-- `sqrt32(a)`: the correctly rounded square root; below −0 it is NaN. -/
def sqrt32 (a : FVal) : FVal :=
  match a with
  | .nan n => .nan n
  | .inf n => if n then .qnan else .inf false
  | .fin n m e =>
    if m = 0 then .fin n 0 0
    else if n then .qnan
    else
      -- scale to an even exponent with at least 60 significant bits, then round the root with a sticky bit
      let sh := 64 + (e % 2).toNat
      let big := m * 2 ^ (2 * (sh / 2) + 64 + (e % 2).toNat)
      let e2 := e - ((2 * (sh / 2) + 64 + (e % 2).toNat : Nat) : Int)
      let root := Nat.sqrt big
      let sticky := if root * root = big then 0 else 1
      round32 false (2 * root + sticky) 1 (e2 / 2 - 1)

/-- Maximum by R69: a NaN operand wins, +0 above −0. -/
def fmax (a b : FVal) : FVal :=
  match firstNan [a, b] with
  | some v => v
  | none =>
    if a.lt b then b else if b.lt a then a
    else if a.isZero && b.isZero then .fin (a.neg && b.neg) 0 0 else a

/-- Minimum by R69. -/
def fmin (a b : FVal) : FVal :=
  match firstNan [a, b] with
  | some v => v
  | none =>
    if a.lt b then a else if b.lt a then b
    else if a.isZero && b.isZero then .fin (a.neg || b.neg) 0 0 else a

/-- `floor (log2 |x|)` of a finite nonzero value. -/
def FVal.lead : FVal → Int
  | .fin _ m e => (Nat.log2 m : Int) + e
  | _ => 0

/-- `ceil (log2 x)` of a finite positive value. -/
def FVal.ceilLog2 (x : FVal) : Int :=
  match x with
  | .fin _ m e => if m = 2 ^ Nat.log2 m then (Nat.log2 m : Int) + e else (Nat.log2 m : Int) + e + 1
  | _ => 0

/-- `2^k` as a value. -/
def FVal.pow2 (k : Int) : FVal := .fin false 1 k

/-- A positive normal binary32 value (R52). -/
def posNormal (w : Nat) : Bool :=
  decide (w < 2 ^ 31) && decide (0 < field w 30 23) && decide (field w 30 23 < 255)

/-! Scale blocks (R47 to R54, R553). -/

/-- The metadata byte of a block (Table 2-4). -/
def metaByte (poison zero : Bool) (e : Int) : Nat :=
  (bit poison) * 128 + (bit zero) * 64 + unsigned 4 e

/-- Decode one element by R50 to R52. `s` is the row scale word (schemes 1 and 2), `x` the E8M0 byte. A zero block
with E8M0 byte 0xFF decodes to +0: R51 says so "whatever its codes and scales" and R52 says NaN. DESIGN CHOICE
(log 64), unsafe. -/
def decodeElem (f : Fmt) (scheme : Nat) (s x md q : Nat) : FVal :=
  let bad := (scheme = 1 ∨ scheme = 2) ∧ posNormal s = false
  if f.narrow && md.testBit 7 then .qnan
  else if f.narrow && md.testBit 6 then (if bad then .qnan else .zero)
  else
    let v := f.decode q
    if bad then .qnan
    else if scheme = 3 ∧ x = 255 then .qnan
    else match v with
      | .fin n m e =>
        if scheme = 1 then fmul (.fin n m e) (f32 s)
        else if scheme = 2 then fmul (.fin n m (e + signed 4 md)) (f32 s)
        else if scheme = 3 then .fin n m (e + (x : Int) - 127 - (if f = .int8 then 6 else 0))
        else .fin n m e
      | w => w

/-- The result of converting one scale block. -/
structure BlockConv where
  codes : List Nat
  md    : Nat
  e8m0  : Nat
  sat   : Nat
  ovf   : Nat
  nf    : Nat
  crush : Nat
  deriving DecidableEq, Repr

/-- The largest magnitude of the finite elements of a block, 0 when there is none (R53). -/
def blockMax (vs : List FVal) : FVal :=
  vs.foldl (fun a v => if v.isFin && a.lt v.abs then v.abs else a) .zero

/-- The sub-exponent of R53: the smallest e in −8 to 7 with `a ≤ M × s × 2^e`, else 7. -/
def subExp (f : Fmt) (s : Nat) (a : FVal) : Int :=
  let fits (e : Int) : Bool := a.le (fmul (fmul f.maxVal (f32 s)) (.pow2 e))
  match (List.range 16).find? (fun (i : Nat) => fits ((i : Int) - 8)) with
  | some i => (i : Int) - 8
  | none => 7

/-- The exponent E of the largest normal power of two of an element format (R54). -/
def mxExp : Fmt → Int
  | .e5m2 => 15 | .e4m3 => 8 | .e3m2 => 4 | .e2m3 => 2 | .e2m1 => 2 | _ => 0

/-- The E8M0 byte of R54. -/
def mxScale (f : Fmt) (a : FVal) : Nat :=
  if a.isZero then 0 else (max 0 (min 254 (a.lead - mxExp f + 127))).toNat

/-- Convert one scale block to a format and scheme (R53, R54, R62 to R66, R553). `rs` gives each element's rounding. -/
def convertBlock (f : Fmt) (scheme : Nat) (s : Nat) (strict : Bool) (rs : List Round) (vs : List FVal) : BlockConv :=
  let zero := f.narrow && vs.all FVal.isZero
  let a := blockMax vs
  let e : Int := if scheme = 2 then (if a.isZero then -8 else subExp f s a) else 0
  let x := if scheme = 3 then mxScale f a else 0
  if zero then
    { codes := vs.map (fun _ => 0), md := metaByte false true e, e8m0 := 0, sat := 0, ovf := 0, nf := 0, crush := 0 }
  else
    let (ms, es) : Nat × Int :=
      if scheme = 1 ∨ scheme = 2 then
        match f32 s with
        | .fin _ m es => (m, es + e)
        | _ => (1, 0)
      else if scheme = 3 then (1, (x : Int) - 127 - (if f = .int8 then 6 else 0))
      else (1, 0)
    let cs := List.zipWith (fun v r => f.convert strict r v ms es) vs (rs ++ List.replicate vs.length .rne)
    let n (p : Conv → Bool) := (cs.filter p).length
    { codes := cs.map Conv.code
      md := if f.narrow then metaByte (cs.any Conv.poison) false e else 0
      e8m0 := x
      sat := n Conv.sat, ovf := n Conv.ovf, nf := n Conv.nf
      crush := if scheme ≠ 0 ∧ cs.any Conv.crush then 1 else 0 }

/-! Packing (R46). -/

/-- Bytes of a packed row of `n` elements (R46): whole bytes, or whole three-byte words for the 6-bit formats. -/
def Fmt.rowBytes (f : Fmt) (n : Nat) : Nat :=
  if f.width = 6 then ceilDiv n 4 * 3 else ceilDiv (n * f.width) 8

/-- Pack a row of codes, element 0 lowest, padded with zero codes (R46). -/
def Fmt.pack (f : Fmt) (codes : List Nat) : List Byte :=
  leBytes (f.rowBytes codes.length) (codes.foldr (fun q acc => q % 2 ^ f.width + acc * 2 ^ f.width) 0)

/-- Element `i` of a packed row (R46). -/
def Fmt.elemAt (f : Fmt) (row : List Byte) (i : Nat) : Nat :=
  leAt row (i * f.width / 8) 5 / 2 ^ (i * f.width % 8) % 2 ^ f.width

/-! Delayed scales (R57). -/

/-- The computed delayed scale of R57 from the largest history entry `h`, as a binary32 word. -/
def delayedScale (f : Fmt) (pow2 : Bool) (margin : Nat) (h : FVal) : Nat :=
  let s : FVal :=
    if h.isZero then .one
    else
      let t := div32 (mul32 h (f32 margin)) f.maxVal
      if pow2 && t.isFin then .pow2 t.ceilLog2 else t
  let s := if s.lt (.pow2 (-126)) then .pow2 (-126) else s
  let s := if (FVal.pow2 127).lt s then .pow2 127 else s
  to32 s

end Sys2Proof.Machine
end

