-- ==== Sys2Proof/Machine/Dot.lean ====
section
/-!
DEFINITION. The reference algorithm of a matrix product: groups, superblocks, the combining tree, PSUM64 words and
strict mode (chapter 3, R71 to R90).
-/
namespace Sys2Proof.Machine

/-- The terms of one group: operand values without their row scales, by position. -/
abbrev Terms := List (FVal × FVal)

/-- The product of one position is NaN (R82). -/
def termNan (t : FVal × FVal) : Bool :=
  t.1.isNan || t.2.isNan || (t.1.isInf && t.2.isZero) || (t.1.isZero && t.2.isInf)

/-- The product of one position is an infinity; answers its sign. -/
def termInf (t : FVal × FVal) : Option Bool :=
  if termNan t then none
  else if t.1.isInf || t.2.isInf then some (t.1.neg != t.2.neg) else none

/-- The position is in the set P of R73: both operands finite and nonzero. -/
def termLive (t : FVal × FVal) : Bool := t.1.isFin && t.2.isFin && !t.1.isZero && !t.2.isZero

/-- Floor of `i × 2^k`. -/
def shiftInt (i k : Int) : Int := if 0 ≤ k then i * 2 ^ k.toNat else i >>> (-k).toNat

/-- The group exponent and group sum of R73; `none` when the group is not live. -/
def groupSum (ts : Terms) : Option (Int × Int) :=
  let live := ts.filter termLive
  match live with
  | [] => none
  | t :: rest =>
    let cand (p : FVal × FVal) : Int := p.1.lead + p.2.lead + 2
    let emax := rest.foldl (fun a p => max a (cand p)) (cand t)
    let g := live.foldl (fun a p => a + shiftInt (p.1.int * p.2.int) (p.1.exp + p.2.exp - (emax - 48))) 0
    some (emax, g)

/-- Round a value to the 36-bit significand of PSUM64 (R77, R78); an exact zero gives +0. -/
def round36 (i : Int) (e : Int) : FVal :=
  if i = 0 then .zero
  else
    let (m, q) := roundQuot .rne 36 (-100000) i.natAbs 1 e
    .fin (decide (i < 0)) m q

/-- The value of one superblock (R76, R77, R82). -/
def superblock (groups : List Terms) : FVal :=
  let all := groups.flatten
  let infs := all.filterMap termInf
  if all.any termNan || (infs.contains true && infs.contains false) then .qnan
  else match infs with
    | n :: _ => .inf n
    | [] =>
      let gs := groups.filterMap groupSum
      match gs with
      | [] => .zero
      | g :: rest =>
        let emax := rest.foldl (fun a p => max a p.1) g.1
        let acc := gs.foldl (fun a p => a + shiftInt p.2 (p.1 - emax + 3)) 0
        round36 acc (emax - 51)

/-- `add36`: the addition of the combining tree (R78, R79). -/
def add36 (x y : FVal) : FVal :=
  if x.isNan || y.isNan then .qnan
  else match x, y with
    | .inf a, .inf b => if a = b then .inf a else .qnan
    | .inf a, _ => .inf a
    | _, .inf b => .inf b
    | x, y => let (i, j, e) := alignInts x.int x.exp y.int y.exp; round36 (i + j) e

/-- One level of the combining tree of R78: pairs are added, an odd last element passes up. -/
def treeLevel {α : Type} (add : α → α → α) : List α → List α
  | a :: b :: rest => add a b :: treeLevel add rest
  | l => l

/-- The combining tree of R78; the fuel is the number of leaves. -/
def treeFold {α : Type} (add : α → α → α) : Nat → List α → List α
  | 0, l => l
  | _ + 1, [] => []
  | _ + 1, [a] => [a]
  | f + 1, l => treeFold add f (treeLevel add l)

/-- The root of the combining tree, `d` when there is no leaf (a K of zero, R81). -/
def tree {α : Type} (add : α → α → α) (d : α) (l : List α) : α := (treeFold add l.length l).headD d

/-- The PSUM64 word of a value (Table 3-2). -/
def psumEncode : FVal → Nat
  | .nan _ => 0xFFF * 2 ^ 51 + 2 ^ 34 * 2 ^ 16
  | .inf n => bit n * 2 ^ 63 + 0xFFF * 2 ^ 51
  | .fin n m e =>
    if m = 0 then 0
    else
      let (m36, q) := roundQuot .rne 36 (-100000) m 1 e
      let l : Int := (Nat.log2 m36 : Int) + q
      bit n * 2 ^ 63 + (l + 2047).toNat * 2 ^ 51 + (m36 * 2 ^ (35 - Nat.log2 m36) - 2 ^ 35) % 2 ^ 35 * 2 ^ 16

/-- The value of a PSUM64 word (R79): the encodings it does not define read as NaN. -/
def psumDecode (w : Nat) : FVal :=
  let e := field w 62 51
  let f := field w 50 16
  let n := flag w 63
  if e = 0 then (if f = 0 ∧ n = false then .zero else .qnan)
  else if e = 0xFFF then (if f = 0 then .inf n else .qnan)
  else .fin n (f + 2 ^ 35) ((e : Int) - 2047 - 35)

/-- Cut a list into runs of `n`; the fuel is its length. -/
def runsOf {α : Type} (n : Nat) : Nat → List α → List (List α)
  | 0, _ => []
  | _ + 1, [] => []
  | f + 1, l => l.take n :: runsOf n f (l.drop n)

/-- The superblock values of a range of K (R72): groups of 32, superblocks of 128 groups. -/
def superblocks (ts : Terms) : List FVal :=
  (runsOf 128 ts.length (runsOf 32 ts.length ts)).map superblock

/-- The tree result of an output element in fast mode (R71 to R79). -/
def dotFast (ts : Terms) : FVal := tree add36 .zero (superblocks ts)

/-- The reference value before conversion (R80): the exact product with the row scales. -/
def scaleResult (t sa sb : FVal) : FVal :=
  if t.isNan then .qnan else fmul (fmul t sa) sb

/-- A partial result of strict mode: its value, and whether an operation that formed it overflowed (R68, R88). -/
abbrev Traced := FVal × Bool

/-- `add32` on partial results. -/
def addTraced (x y : Traced) : Traced := (add32 x.1 y.1, x.2 || y.2 || ovf32 (fadd x.1 y.1))

/-- One step of the chain of R88: `fma32(a, b, acc)`. -/
def fmaTraced (acc : Traced) (p : FVal × FVal) : Traced :=
  (fma32 p.1 p.2 acc.1, acc.2 || ovf32 (fadd (fmul p.1 p.2) acc.1))

/-- `mul32` of a partial result by a row scale. -/
def mulTraced (x : Traced) (sc : FVal) : Traced := (mul32 x.1 sc, x.2 || ovf32 (fmul x.1 sc))

/-- The tree root of an output element in strict mode (R88). -/
def dotStrict (ts : Terms) : Traced :=
  let gsum (g : Terms) : Traced := g.foldl fmaTraced (.fin true 0 0, false)
  let sb (gs : List Terms) : Traced := tree addTraced (.zero, false) (gs.map gsum)
  let t := tree addTraced (.zero, false) ((runsOf 128 ts.length (runsOf 32 ts.length ts)).map sb)
  (if t.1.isNan then .qnan else t.1, t.2)

/-- The round at which a node over `c` leaves was formed, which is the root's for the whole tree (R78, R100). -/
def nodeRound (c : Nat) : Nat := if c ≤ 1 then 0 else Nat.log2 (c - 1) + 1

/-- The nodes of the combining tree over `n` leaves whose whole subtree lies in `[lo, hi)` and which no larger such
node contains, the root among them: what a tile holding that range sends (R84, R100). Each is `(level, index)`. -/
def maxNodes (n lo hi : Nat) : List (Nat × Nat) :=
  let top := nodeRound n
  let covers (l j : Nat) : Bool :=
    decide (l ≤ top) && decide (j * 2 ^ l < n) && decide (lo ≤ j * 2 ^ l) && decide (min ((j + 1) * 2 ^ l) n ≤ hi)
  let nodes := (List.range (top + 1)).flatMap (fun l =>
    ((List.range (ceilDiv n (2 ^ l))).filter (covers l)).map (fun j => (l, j)))
  nodes.filter (fun p => !covers (p.1 + 1) (p.2 / 2))

/-- The value of the tree node `(l, j)` over the leaves of the whole tree (R78, R84). -/
def nodeValue {α : Type} (add : α → α → α) (d : α) (leaves : List α) (p : Nat × Nat) : α :=
  tree add d ((leaves.drop (p.2 * 2 ^ p.1)).take (2 ^ p.1))

end Sys2Proof.Machine
end

