-- ==== Sys2Proof/Machine/Expand.lean ====
section
/-!
DEFINITION. CRC-64, exponent-coded blocks and code tables (chapter 6, R144 to R160, and the CRC of R166 and R270).
-/
namespace Sys2Proof.Machine

/-- One byte into the CRC-64 of the ECMA-182 polynomial, most significant bit first. -/
def crc64Byte (c : Nat) (b : Byte) : Nat :=
  (List.range 8).foldl (fun c _ =>
    let s := c * 2 % 2 ^ 64
    if c / 2 ^ 63 % 2 = 1 then s ^^^ 0x42F0E1EBA9EA3693 else s) (c ^^^ (b.toNat * 2 ^ 56))

/-- CRC-64 of a byte string (R270: initial value 0, no final XOR). -/
def crc64 (bs : List Byte) : Nat := bs.foldl crc64Byte 0

/-- CRC-64 continued from a value. -/
def crc64From (c : Nat) (bs : List Byte) : Nat := bs.foldl crc64Byte c

/-- CRC-32C of a byte string (reflected Castagnoli polynomial). -/
def crc32c (bs : List Byte) : Nat :=
  (bs.foldl (fun c b =>
    (List.range 8).foldl (fun c _ => if c % 2 = 1 then c / 2 ^^^ 0x82F63B78 else c / 2) (c ^^^ b.toNat))
    0xFFFFFFFF) ^^^ 0xFFFFFFFF

/-- The element format of a descriptor code (Table 4-10). -/
def fmtOfCode : Nat → Option Fmt
  | 0 => some .fp32 | 1 => some .bf16 | 2 => some .fp16 | 3 => some .e5m2 | 4 => some .e4m3
  | 5 => some .e3m2 | 6 => some .e2m3 | 7 => some .e2m1 | 8 => some .int8 | 9 => some .int4
  | _ => none

/-- The descriptor code of a format (Table 4-10). -/
def fmtCode : Fmt → Nat
  | .fp32 => 0 | .bf16 => 1 | .fp16 => 2 | .e5m2 => 3 | .e4m3 => 4
  | .e3m2 => 5 | .e2m3 => 6 | .e2m1 => 7 | .int8 => 8 | .int4 => 9

/-- A code table (Table 6-2): counts of lengths 1 to 8 and the symbols in canonical order. -/
structure CodeTable where
  counts : List Nat
  nsym   : Nat
  fmt    : Nat
  syms   : List Nat
  deriving DecidableEq, Repr

/-- Read a code table from its 544 bytes (Table 6-2). -/
def readTable (bs : List Byte) : CodeTable :=
  { counts := (List.range 8).map (fun i => leAt bs (2 * i) 2)
    nsym := leAt bs 16 2
    fmt := leAt bs 18 2
    syms := (List.range 256).map (fun i => leAt bs (32 + 2 * i) 2) }

/-- A codeword: symbol, length, code. -/
abbrev Codeword := Nat × Nat × Nat

/-- The codewords of R150 and the final value of `code`, which is 256 exactly when the code is complete. -/
def codewords (t : CodeTable) : List Codeword × Nat :=
  let r := (List.range 8).foldl (fun (acc : List Codeword × Nat × Nat) i =>
    let (ws, code, n) := acc
    let k := t.counts.getD i 0
    let new := (List.range k).map (fun j => (t.syms.getD (n + j) 0, i + 1, code + j))
    let code' := code + k
    (ws ++ new, if i < 7 then code' * 2 else code', n + k)) ([], 0, 0)
  (r.1, r.2.1)

/-- The escape symbol. -/
def escapeSym : Nat := 0x100

/-- The checks of R150 on a code table for a format. -/
def tableValid (f : Fmt) (t : CodeTable) : Bool :=
  let used := t.syms.take t.nsym
  decide (t.counts.foldl (· + ·) 0 = t.nsym) && decide (2 ≤ t.nsym) && decide (t.nsym ≤ 256)
    && decide used.Nodup && decide ((used.filter (· = escapeSym)).length = 1)
    && used.all (fun x => x = escapeSym || decide (x < 2 ^ f.expBits))
    && (t.syms.drop t.nsym).all (· = 0)
    && decide (t.fmt = fmtCode f) && decide ((codewords t).2 = 256)

/-- Bit `b` of a payload (R153). -/
def streamBit (bs : List Byte) (b : Nat) : Nat := (bs.getD (b / 8) 0).toNat / 2 ^ (b % 8) % 2

/-- `n` stream bits from `b`, least significant first. -/
def streamLsb (bs : List Byte) (b n : Nat) : Nat :=
  (List.range n).foldl (fun a i => a + streamBit bs (b + i) * 2 ^ i) 0

/-- `n` stream bits from `b`, most significant first. -/
def streamMsb (bs : List Byte) (b n : Nat) : Nat :=
  (List.range n).foldl (fun a i => a * 2 + streamBit bs (b + i)) 0

/-- The symbol whose codeword stands at stream bit `b`, with its length, if it ends by bit `lim`. -/
def nextSym (ws : List Codeword) (bs : List Byte) (b lim : Nat) : Option (Nat × Nat) :=
  (ws.find? (fun w => decide (b + w.2.1 ≤ lim) && streamMsb bs b w.2.1 = w.2.2)).map (fun w => (w.1, w.2.1))

/-- The exponent fields of `m` elements from stream bit `b`, and the first unread bit; elements whose code does not
end by `lim` give none (R153, R158). -/
def readExps (w : Nat) (ws : List Codeword) (bs : List Byte) (lim : Nat) : Nat → Nat → List (Option Nat) × Nat
  | 0, b => ([], b)
  | m + 1, b =>
    match nextSym ws bs b lim with
    | none => (List.replicate (m + 1) none, lim + 1)
    | some (sym, l) =>
      if sym = escapeSym then
        if b + l + w ≤ lim then
          let (r, e) := readExps w ws bs lim m (b + l + w)
          (some (streamLsb bs (b + l) w) :: r, e)
        else (List.replicate (m + 1) none, lim + 1)
      else
        let (r, e) := readExps w ws bs lim m (b + l)
        (some sym :: r, e)

/-- Width of the fixed field of an element: sign and trailing significand (Table 6-4). -/
def fixedBits (f : Fmt) : Nat := f.sigBits + 1

/-- The outcome of decoding a block (R158, R159). -/
inductive Decoded where
  | exact | long | short | badHeader
  deriving DecidableEq, Repr

/-- Decode one sub-block of `m` elements in the range `[lo, hi)` (R153, R158). -/
def decodeSub (f : Fmt) (ws : List Codeword) (bs : List Byte) (m lo hi : Nat) : List Nat × Decoded :=
  let fx := fixedBits f
  let lim := min hi (lo + 16 * (fx + 8 + f.expBits))
  let (exps, stop) := readExps f.expBits ws bs lim m (lo + m * fx)
  let elems := (List.range m).map (fun i =>
    if lo + (i + 1) * fx ≤ lim then
      match exps.getD i none with
      | some e =>
        let v := streamLsb bs (lo + i * fx) fx
        v / 2 ^ f.sigBits * 2 ^ (f.width - 1) + e * 2 ^ f.sigBits + v % 2 ^ f.sigBits
      | none => 0
    else 0)
  let shortM := exps.any (· = none) || decide (lim < lo + m * fx)
  (elems, if m = 0 then (if hi > lo then .long else .exact)
          else if shortM then .short else if stop < hi then .long else .exact)

/-- A block header's fields (Table 6-3): kind, table, END, offsets 0 to 8, metadata bytes. -/
structure BlockHeader where
  kind  : Nat
  table : Nat
  fin   : Nat
  offs  : List Nat
  metas : List Nat
  rsvd  : Nat
  deriving DecidableEq, Repr

/-- Read a block header (Table 6-3). -/
def readHeader (bs : List Byte) : BlockHeader :=
  let w := leAt bs 0 16
  let fin := field w 120 109
  { kind := field w 127 126, table := field w 125 124, fin := fin, rsvd := field w 123 121
    offs := 0 :: (List.range 7).map (fun i => field w (42 + 11 * i) (32 + 11 * i)) ++ [fin]
    metas := (List.range 4).map (fun i => field w (8 * i + 7) (8 * i)) }

/-- Raw width of an element in a rubble block. -/
def rawBits (f : Fmt) : Nat := f.width

/-- A header keeps Table 6-4 for a block of `n` elements. -/
def headerOk (f : Fmt) (ntab n : Nat) (h : BlockHeader) : Bool :=
  let rising := (List.range 8).all (fun i => decide (h.offs.getD i 0 ≤ h.offs.getD (i + 1) 0))
  let zeros := ((h.offs.drop 1).take 7).all (· = 0)
  match h.kind with
  | 0 => rising && decide (h.fin ≤ n * rawBits f) && decide (h.table < ntab)
  | 1 => decide (h.table = 0) && zeros && decide (h.fin = n * rawBits f)
  | 2 => decide (h.table = 0) && zeros && decide (h.fin = 0)
         && (!f.narrow || (h.metas.take (ceilDiv n 32)).all (fun m => m.testBit 6))
  | _ => false

/-- The stored size of a block (Table 6-4); a malformed header counts as END = 0 (R158). -/
def blockSize (ok : Bool) (h : BlockHeader) : Nat := if ok then 16 + 8 * ceilDiv h.fin 64 else 16

/-- A decoded block. -/
structure BlockOut where
  elems   : List Nat
  metas   : List Nat
  outcome : Decoded
  kind    : Nat
  size    : Nat
  deriving DecidableEq, Repr

/-- Decode a block of `n` elements at the start of a byte string (R151 to R155, R158). -/
def decodeBlock (f : Fmt) (tables : List CodeTable) (n : Nat) (bs : List Byte) : BlockOut :=
  let h := readHeader bs
  let ok := headerOk f tables.length n h
  let size := blockSize ok h
  let body := (bs.drop 16).take (size - 16)
  if !ok then { elems := List.replicate n 0, metas := h.metas, outcome := .badHeader, kind := h.kind, size := size }
  else match h.kind with
    | 0 =>
      let ws := match tables[h.table]? with
        | some t => (codewords t).1
        | none => []
      let subs := (List.range 8).map (fun i =>
        decodeSub f ws body (min 16 (n - 16 * i)) (h.offs.getD i 0) (h.offs.getD (i + 1) 0))
      let out := if subs.any (fun p => p.2 = .short) then Decoded.short
        else if subs.any (fun p => p.2 = .long) then .long else .exact
      { elems := (subs.map Prod.fst).flatten, metas := h.metas, outcome := out, kind := 0, size := size }
    | 1 =>
      { elems := (List.range n).map (fun i => leAt body (i * f.width / 8) (f.width / 8)), metas := h.metas
        outcome := .exact, kind := 1, size := size }
    | _ => { elems := List.replicate n 0, metas := h.metas, outcome := .exact, kind := 2, size := size }

/-- Bits of a value, least significant first. -/
def bitsLsb (n v : Nat) : List Bool := (List.range n).map (fun i => v.testBit i)

/-- Bits of a value, most significant first. -/
def bitsMsb (n v : Nat) : List Bool := (bitsLsb n v).reverse

/-- Pack stream bits into bytes (R153). -/
def packBits (bs : List Bool) : List Byte :=
  (runsOf 8 bs.length bs).map (fun b => BitVec.ofNat 8 (b.foldr (fun x a => bit x + 2 * a) 0))

/-- The coded bits of one sub-block (R153). -/
def encodeSub (f : Fmt) (ws : List Codeword) (es : List Nat) : List Bool :=
  let fixed := es.flatMap (fun q =>
    bitsLsb (fixedBits f) (q / 2 ^ (f.width - 1) % 2 * 2 ^ f.sigBits + q % 2 ^ f.sigBits))
  let codes := es.flatMap (fun q =>
    let e := q / 2 ^ f.sigBits % 2 ^ f.expBits
    match ws.find? (fun w => w.1 = e) with
    | some w => bitsMsb w.2.1 w.2.2
    | none =>
      match ws.find? (fun w => w.1 = escapeSym) with
      | some w => bitsMsb w.2.1 w.2.2 ++ bitsLsb f.expBits e
      | none => [])
  fixed ++ codes

/-- A 16-byte block header (Table 6-3). -/
def headerBytes (kind table fin : Nat) (offs metas : List Nat) : List Byte :=
  let ow := (List.range 7).foldl (fun a i => a + offs.getD i 0 * 2 ^ (32 + 11 * i)) 0
  let mw := (List.range 4).foldl (fun a i => a + metas.getD i 0 * 2 ^ (8 * i)) 0
  leBytes 16 (kind * 2 ^ 126 + table * 2 ^ 124 + fin * 2 ^ 109 + ow + mw)

/-- Pad a payload to 8 bytes. -/
def pad8Bytes (bs : List Byte) : List Byte := bs ++ List.replicate ((8 - bs.length % 8) % 8) 0

/-- Write one block (R154): zero, the shortest coding with the lowest table, or rubble. -/
def encodeBlock (f : Fmt) (tables : List CodeTable) (elems metas : List Nat) : List Byte :=
  let n := elems.length
  let zero := if f.narrow then (metas.take (ceilDiv n 32)).all (fun m => m.testBit 6) else elems.all (· = 0)
  if zero then headerBytes 2 0 0 [] metas
  else
    let code (t : CodeTable) : List (List Bool) :=
      (List.range 8).map (fun i => encodeSub f (codewords t).1 ((elems.drop (16 * i)).take 16))
    let all := (List.zip (List.range tables.length) tables).map (fun p => (p.1, code p.2))
    let len (c : List (List Bool)) : Nat := c.foldl (fun a b => a + b.length) 0
    let best := all.foldl (fun (acc : Option (Nat × List (List Bool))) p =>
      match acc with
      | none => some p
      | some q => if len p.2 < len q.2 then some p else some q) none
    let rubble := headerBytes 1 0 (n * f.width) [] metas
      ++ pad8Bytes (elems.flatMap (fun q => leBytes (f.width / 8) q))
    match best with
    | none => rubble
    | some (t, c) =>
      let l := len c
      if 8 * ceilDiv l 64 > 8 * ceilDiv (n * f.width) 64 ∨ l > n * f.width then rubble
      else
        let offs := (List.range 7).map (fun i => len (c.take (i + 1)))
        headerBytes 0 t l offs metas ++ pad8Bytes (packBits c.flatten)

/-- A compressed tensor's header fields (Table 6-1). -/
structure CompHeader where
  version  : Nat
  fmt      : Nat
  ntab     : Nat
  rows     : Nat
  rowlen   : Nat
  indexOff : Nat
  dataOff  : Nat
  dataLen  : Nat
  deriving DecidableEq, Repr

/-- Read a compressed tensor's header (Table 6-1). -/
def readCompHeader (bs : List Byte) : CompHeader :=
  let w := leAt bs 0 64
  { version := field w 511 504, fmt := field w 503 500, ntab := field w 499 498 + 1, rows := field w 479 448
    rowlen := field w 447 428, indexOff := field w 415 384, dataOff := field w 383 352, dataLen := field w 351 320 }

/-- The bytes of a compressed tensor's header (Table 6-1). -/
def compHeaderBytes (h : CompHeader) : List Byte :=
  leBytes 64 (h.version * 2 ^ 504 + h.fmt * 2 ^ 500 + (h.ntab - 1) * 2 ^ 498 + h.rows * 2 ^ 448
    + h.rowlen * 2 ^ 428 + h.indexOff * 2 ^ 384 + h.dataOff * 2 ^ 352 + h.dataLen * 2 ^ 320)

/-- The blocks of a row of a compressed tensor that hold elements from `k0` to `k1`, decoded from the tensor's
bytes; a row is found through the superblock index (R147). Answers the blocks with their index in the row. -/
def decodeRow (f : Fmt) (h : CompHeader) (tables : List CodeTable) (rd : Nat → Nat → List Byte)
    (row sb0 nsb : Nat) : List (Nat × BlockOut) :=
  let perRow := ceilDiv h.rowlen 4096
  (List.range nsb).flatMap (fun d =>
    let j := sb0 + d
    let start := leNat (rd (h.indexOff + 4 * (row * perRow + j)) 4) * 8
    let nblk := ceilDiv (min 4096 (h.rowlen - 4096 * j)) 128
    ((List.range nblk).foldl (fun (acc : List (Nat × BlockOut) × Nat) b =>
      let n := min 128 (h.rowlen - (4096 * j + 128 * b))
      let out := decodeBlock f tables n (rd (h.dataOff + acc.2) 288)
      (acc.1 ++ [(32 * j + b, out)], acc.2 + out.size)) ([], start)).1)

/-- Encode a whole tensor (R146, R147, R154): header, tables, index and blocks. `rows` gives each row's codes and
metadata bytes. -/
def encodeTensor (f : Fmt) (rowlen : Nat) (tabBytes : List (List Byte)) (rows : List (List Nat × List Nat)) :
    List Byte :=
  let tables := tabBytes.map readTable
  let indexOff := 64 + 544 * tables.length
  let blocksOf (r : List Nat × List Nat) : List (List (List Byte)) :=
    (runsOf 32 r.1.length (List.zip (List.range (ceilDiv rowlen 128)) (runsOf 128 r.1.length r.1))).map
      (fun sb => sb.map (fun p => encodeBlock f tables p.2 ((r.2.drop (4 * p.1)).take 4)))
  let sbs := rows.flatMap blocksOf
  let (index, data) := sbs.foldl (fun (acc : List Nat × List Byte) sb =>
    (acc.1 ++ [acc.2.length / 8], acc.2 ++ sb.flatten)) ([], [])
  let indexBytes := index.flatMap (leBytes 4)
  let dataOff := (indexOff + indexBytes.length + 7) / 8 * 8
  compHeaderBytes { version := 1, fmt := fmtCode f, ntab := tables.length, rows := rows.length, rowlen := rowlen,
                    indexOff := indexOff, dataOff := dataOff, dataLen := data.length }
    ++ tabBytes.flatten ++ indexBytes ++ List.replicate (dataOff - indexOff - indexBytes.length) 0 ++ data

end Sys2Proof.Machine
end

