-- ==== Sys2Proof/Config.lean ====
section
/-!
DEFINITION. What an implementation fixes and the manual leaves open: free values. Each constant here is opaque,
so no proof can see a value of it and a claim holds whatever it is (assumption log 1).
-/
namespace Sys2Proof

/-- A fresh unconstrained 8-bit value for each number (log 1). -/
opaque Config.free8 : Nat → BitVec 8
/-- A fresh unconstrained 32-bit value for each number (log 1). -/
opaque Config.free32 : Nat → BitVec 32
/-- A fresh unconstrained 64-bit value for each number (log 1). -/
opaque Config.free64 : Nat → BitVec 64
/-- A fresh unconstrained 256-bit value for each number (log 1). -/
opaque Config.free256 : Nat → BitVec 256

/-- The function stages 0x0B to 0x12 on ordinary operands: R126 fixes one function of the FP32 input per code and
bounds its error, and does not give its bits (log 2). -/
opaque Config.chainFn : Nat → W32 → W32

/-- rn32(1 − B^t) of a B that is not finite, for which the manual states no value; the first argument is 0 (log 1). -/
opaque Config.updateFn : Nat → W32 → W32 → W32

/-- The module was supplied as XC96-512-LE and not as XC96-512-LO (R2). -/
opaque Config.variantLE : Bool

/-- The module's serial number (R3, R546). -/
opaque Config.serial : BitVec 128
/-- The running Kolelm release as three u16, little-endian: 1.4.0 or later (R3, R4). -/
opaque Config.kolelmRelease : BitVec 48

/-- ML-DSA-44 signature over a message by the key of a role; the manual cites the standard and gives no bits
(log 3). -/
opaque Config.sign : Nat → List Byte → List Byte
/-- Whether an ML-DSA-44 signature verifies under a public-key digest (log 3). -/
opaque Config.verify : List Byte → List Byte → List Byte → Bool
/-- SHA3-256 of PLYNONE_PK as island ROM holds it (R486). -/
opaque Config.plynoneHash : BitVec 256
/-- SHA3-256 of island ROM (0) and of components 0x1 to 0x4 of the image the module shipped with (R487, log 37). -/
opaque Config.shippedDigest : Nat → BitVec 256
/-- The DER certificates of R483: manufacturing CA, DIK, and FIK and KTK over what they carry (log 3). -/
opaque Config.certificate : Nat → List Byte → List Byte
/-- The shared secret an ML-KEM-768 decapsulation gives for a ciphertext (log 3). -/
opaque Config.decapsulate : List Byte → List Byte
/-- A key the security island derives inside itself, by label and context (log 3). -/
opaque Config.deriveKey : Nat → List Byte → BitVec 256

end Sys2Proof
end

