-- ==== Sys2Proof/Machine/Regs.lean ====
section
/-!
DEFINITION. The register map as data (Table 16-1 and each chapter's register tables): where every register lies, its
class, its RW fields, its reset value, who may write it and whether the configuration CRC covers it.
-/
namespace Sys2Proof.Machine

/-- A register's class (Table 0-5); `ctr` is a 48-bit counter of two words (R13), `latched` a word of a latched
group (R469). -/
inductive RegCls where
  | rw | ro | rs | rc | wo | ctr
  deriving DecidableEq, Repr

/-- A row of a register table: `pages` pages of stride 0x4000, and in each `count` registers of stride `step`. -/
structure RegDef where
  base  : Nat
  pages : Nat
  step  : Nat
  count : Nat
  cls   : RegCls
  /-- mask of the RW bits -/
  rw    : Nat
  reset : Nat
  host  : Bool
  cores : Bool
  crc   : Bool
  deriving DecidableEq, Repr

/-- A read-write row covered by the configuration CRC. -/
def rwCrc (base pages step count rw reset : Nat) : RegDef :=
  { base := base, pages := pages, step := step, count := count, cls := .rw, rw := rw, reset := reset
    host := false, cores := false, crc := true }

/-- A read-write row outside the configuration CRC. -/
def rwPlain (base pages step count rw reset : Nat) : RegDef := { rwCrc base pages step count rw reset with crc := false }

/-- A read-write row that only the host writes. -/
def rwHost (base pages step count rw reset : Nat) : RegDef :=
  { rwCrc base pages step count rw reset with crc := false, host := true }

/-- A read-write row that only the control cores write. -/
def rwCores (base pages step count rw reset : Nat) : RegDef :=
  { rwCrc base pages step count rw reset with crc := false, cores := true }

/-- A row of another class. -/
def rowOf (cls : RegCls) (base pages step count reset : Nat) : RegDef :=
  { base := base, pages := pages, step := step, count := count, cls := cls, rw := 0, reset := reset
    host := false, cores := false, crc := false }

/-- Counters: `n` of 8 bytes each from `base`. -/
def ctrs (base pages n : Nat) : RegDef := rowOf .ctr base pages 8 n 0

/-- Table 16-1: the blocks' window offsets. -/
def topBase : Nat := 0x0000000
def ltuBase : Nat := 0x0040000
def bgtBase : Nat := 0x0050000
def tilBase : Nat := 0x0100000
def plnBase : Nat := 0x0300000
def trmBase : Nat := 0x0340000
def cblBase : Nat := 0x0380000
def fabBase : Nat := 0x0400000
def colBase : Nat := 0x0440000
def npxBase : Nat := 0x0450000
def hifBase : Nat := 0x0460000
def secBase : Nat := 0x0480000
def cipBase : Nat := 0x04C0000
def pwrBase : Nat := 0x0500000
def mgtBase : Nat := 0x0540000

/-- Code, base and pages of each block (Table 16-1). -/
def regBlocks : List (Nat × Nat × Nat) :=
  [(0, topBase, 3), (1, ltuBase, 1), (2, bgtBase, 1), (3, tilBase, 96), (4, plnBase, 4), (5, trmBase, 10),
   (6, cblBase, 9), (7, fabBase, 15), (8, colBase, 1), (9, npxBase, 1), (10, hifBase, 1), (11, secBase, 4),
   (12, cipBase, 4), (13, pwrBase, 4), (14, mgtBase, 2)]

/-- Table 16-5. -/
def topRegs : List RegDef :=
  [rowOf .ro topBase 1 4 1 (if Config.variantLE then 0xB1200000 else 0xB1100000), rowOf .rs (topBase + 4) 1 4 2 0, rowOf .ro (topBase + 0xC) 1 4 2 0,
   rwHost (topBase + 0x20) 1 4 2 0xFFFFFFFF 0, { rowOf .wo (topBase + 0x28) 1 4 1 0 with host := true },
   rowOf .rs (topBase + 0x2C) 1 4 1 0, rowOf .ro (topBase + 0x30) 1 4 2 0, rwCores (topBase + 0x40) 1 4 1 0x80000FFF 0,
   ctrs (topBase + 0x100) 1 4, ctrs (topBase + 0x180) 1 15, ctrs (topBase + 0x200) 1 15,
   rowOf .ro (topBase + 0x4000) 1 4 1024 0, rowOf .ro (topBase + 0x8000) 1 4 30 0]

/-- Table 11-10. -/
def ltuRegs : List RegDef :=
  [rwCrc ltuBase 1 4 1 0xFFFFFFFC 0x02021428, rwCrc (ltuBase + 4) 1 4 1 0xFFFFF000 0x00FFF000,
   rwCrc (ltuBase + 8) 1 4 2 0xFFFFFFFF 0, rowOf .ro (ltuBase + 0x10) 1 4 3 0, rowOf .rs (ltuBase + 0x1C) 1 4 2 0,
   rwPlain (ltuBase + 0x24) 1 4 1 0x1F 0, rowOf .rs (ltuBase + 0x28) 1 4 3 0,
   rwPlain (ltuBase + 0x40) 1 16 8 0xFFFE0000 0, rwPlain (ltuBase + 0x44) 1 16 8 0xFFFFFFFF 0,
   rwPlain (ltuBase + 0x48) 1 16 8 0xFFFFFFFF 0, ctrs (ltuBase + 0x100) 1 7]

/-- A share register: GUAR and CEIL (Table 11-14). -/
def share (g c : Nat) : Nat := g * 2 ^ 24 + c * 2 ^ 15

/-- Table 11-6 by column: channel, corbel, plinth, fabric profiles 0 to 3. -/
def defaultShares : List (List (Nat × Nat)) :=
  let chan := [(160, 256)] ++ List.replicate 7 (0, 256)
    ++ [(32, 256), (8, 128), (8, 64), (4, 32), (4, 256), (2, 64), (21, 32), (11, 16)]
  let corb := List.replicate 8 (0, 0) ++ [(48, 256), (64, 256), (4, 32), (4, 32), (0, 0), (2, 32), (4, 32), (0, 0)]
  let plin := [(160, 256)] ++ List.replicate 7 (0, 256)
    ++ [(48, 256), (0, 32), (8, 64), (8, 64), (8, 256), (8, 64), (0, 32), (0, 0)]
  let fab0 := [(96, 256)] ++ List.replicate 7 (0, 256)
    ++ [(128, 256), (0, 0), (16, 128), (0, 0), (0, 0), (2, 16), (0, 0), (0, 0)]
  let fab1 := List.replicate 8 (0, 64) ++ [(0, 64), (0, 0), (0, 0), (192, 256), (0, 0), (8, 32), (0, 0), (0, 0)]
  let fab2 := List.replicate 8 (0, 256) ++ [(0, 256), (0, 0), (0, 128), (0, 256), (0, 0), (2, 16), (0, 0), (0, 0)]
  [chan, corb, plin, fab0, fab1, fab2, fab2]

/-- The reset value of the share register at page offset `o` (Table 11-6). -/
def shareReset (col c : Nat) : Nat :=
  let p := (defaultShares.getD col []).getD c (0, 0)
  share p.1 p.2

/-- Window offsets of the share registers by resource column: channel, corbel, plinth, fabric profiles (Table 11-13). -/
def shareAddr (col c : Nat) : Nat :=
  bgtBase + (if col < 3 then 0x40 * col else 0x100 + 0x40 * (col - 3)) + 4 * c

/-- Table 11-13. -/
def bgtRegs : List RegDef :=
  (List.range 7).flatMap (fun col => (List.range 16).map (fun c => rowOf .ro (shareAddr col c) 1 4 1 (shareReset col c)))
    ++ [rowOf .ro (bgtBase + 0x200) 1 4 1 0, rowOf .rs (bgtBase + 0x204) 1 4 1 0, ctrs (bgtBase + 0x400) 1 32,
        ctrs (bgtBase + 0x500) 1 2]

/-- Tables 4-17 and 6-8. -/
def tilRegs : List RegDef :=
  [rwCrc tilBase 96 4 1 0xFFFF0001 1, rowOf .rs (tilBase + 4) 96 4 1 0, rowOf .ro (tilBase + 8) 96 4 1 0,
   rwPlain (tilBase + 0xC) 96 4 1 0x1F3F 0, rowOf .rs (tilBase + 0x10) 96 4 2 0, ctrs (tilBase + 0x100) 96 14,
   ctrs (tilBase + 0x180) 96 7, rowOf .rc (tilBase + 0x1C0) 96 4 1 0]

/-- Table 8-6. -/
def plnRegs : List RegDef :=
  [rwCrc plnBase 4 4 40 0xC0000000 0, rwCrc (plnBase + 0xA0) 4 4 7 0xC0000000 0x80000000,
   rowOf .ro (plnBase + 0xBC) 4 4 1 0x40000000, rwCrc (plnBase + 0xC0) 4 4 1 0xFFFF0000 0x04200000,
   rwPlain (plnBase + 0x100) 4 4 15 0xFFF 3072, rowOf .ro (plnBase + 0x13C) 4 4 1 64,
   rowOf .rs (plnBase + 0x140) 4 4 16 0, rowOf .rs (plnBase + 0x180) 4 4 1 0, rowOf .rs (plnBase + 0x200) 4 4 48 0,
   ctrs (plnBase + 0x300) 4 11]

/-- Table 7-12. -/
def trmRegs : List RegDef :=
  [rwCrc trmBase 1 4 504 0xFE000000 0]
    ++ (List.range 8).map (fun s => rowOf .ro (trmBase + 4 * (504 + s)) 1 4 1 (0x84000000 + s * 2 ^ 27))
    ++ [rwCrc (trmBase + 0x4000) 1 4 1 0xFFFFFFFF 0x100A4018, rwCrc (trmBase + 0x4010) 1 4 8 0xFFFFF 0,
        rowOf .rs (trmBase + 0x8000) 8 4 1 0, ctrs (trmBase + 0x8100) 8 18, rowOf .rs (trmBase + 0x8200) 8 4 128 0,
        rowOf .ro (trmBase + 0x8400) 8 4 4 0, rowOf .ro (trmBase + 0x8410) 8 4 4 0,
        rowOf .ro (trmBase + 0x8420) 8 4 1 0, rowOf .ro (trmBase + 0x8800) 8 4 512 0]

/-- Table 9-13. -/
def cblRegs : List RegDef :=
  [rwCrc cblBase 1 4 1 0xFFC00000 0x36000000, rwCrc (cblBase + 4) 1 4 1 0xFFFFFFFF 0, rowOf .rs (cblBase + 8) 1 4 2 0,
   rowOf .rs (cblBase + 0x4000) 8 4 1 0, rowOf .rc (cblBase + 0x4004) 8 4 1 0, ctrs (cblBase + 0x4100) 8 18]

/-- Table 15-21. Windows 12 to 15 would lie on the counters' offsets and have no address (log 10). -/
def hifRegs : List RegDef :=
  [rowOf .rs hifBase 1 4 1 0, rwHost (hifBase + 4) 1 4 1 0xC0000000 0, rwHost (hifBase + 8) 1 4 1 0xFFFFFFF8 0,
   rwHost (hifBase + 0x10) 1 8 2 0xFFFFFFC0 0, rwHost (hifBase + 0x14) 1 8 2 0xFFFFFFFF 0,
   rwHost (hifBase + 0x20) 1 4 1 1 0, rwHost (hifBase + 0x40) 1 16 12 0xFFFFF001 0,
   rwHost (hifBase + 0x44) 1 16 12 0xFFFFFFFF 0, rwHost (hifBase + 0x48) 1 16 12 0xFFFFF000 0,
   rwHost (hifBase + 0x4C) 1 16 12 0xFFFFFFFF 0, ctrs (hifBase + 0x100) 1 11]

/-- Tables 12-11 to 12-14; FAB_PORT_CFG.MODE as with every strap open. -/
def fabRegs : List RegDef :=
  [rwCrc fabBase 1 4 1 0xFFFFFFF0 0xFFFF10C0, rwCrc (fabBase + 4) 1 4 1 0xFFFF 0x88B5,
   rwCrc (fabBase + 8) 1 4 1 0xFFFFFFFF 0, rwCrc (fabBase + 0xC) 1 4 1 0xFFFFFFFF 0xFFFFFFFF,
   rwCrc (fabBase + 0x10) 1 4 1 0xFFFFE000 0, rwHost (fabBase + 0x14) 1 4 1 1 0, rowOf .rs (fabBase + 0x18) 1 4 3 0,
   rowOf .rc (fabBase + 0x24) 1 4 1 0, rowOf .rs (fabBase + 0x28) 1 4 1 0, ctrs (fabBase + 0x100) 1 3,
   rwHost (fabBase + 0x4000) 2 4 1024 0xFFFFFFFF 0, rwCrc (fabBase + 0xC000) 12 4 1 0xEFFFFFFF 0xE0007C04,
   rwHost (fabBase + 0xC004) 12 4 1 0xFF800000 0x80000000, rowOf .rs (fabBase + 0xC008) 12 4 1 0,
   ctrs (fabBase + 0xC100) 12 16]

/-- Tables 12-15 to 12-17. -/
def colRegs : List RegDef :=
  [rwCrc colBase 1 4 1 0xFFFFFF00 0x00640A00, rowOf .rs (colBase + 4) 1 4 1 0, rowOf .rc (colBase + 8) 1 4 2 0,
   ctrs (colBase + 0x100) 1 8]

/-- Tables 13-9 to 13-12. -/
def npxRegs : List RegDef :=
  [rwCrc npxBase 1 4 1 0xFFFFFFFC 0xB3D07D20, rwCrc (npxBase + 4) 1 4 1 0xFFFFFFFF 0x0302080A,
   rwCrc (npxBase + 8) 1 4 1 0xFFFFFC00 0, rwCrc (npxBase + 0xC) 1 4 1 0x3FFF 9000,
   rwCrc (npxBase + 0x10) 1 4 2 0xFFFFFFFF 0, rwCrc (npxBase + 0x18) 1 4 1 0xFFFF0000 0,
   rwCrc (npxBase + 0x1C) 1 4 11 0xFFFFFFFF 0, rowOf .ro (npxBase + 0x48) 1 4 1 0, rowOf .rs (npxBase + 0x80) 1 4 4 0,
   rowOf .rc (npxBase + 0x90) 1 4 1 0, ctrs (npxBase + 0x100) 1 22]

/-- Tables 17-12 and 17-13. -/
def secRegs : List RegDef :=
  [rowOf .rs secBase 1 4 1 0, rowOf .ro (secBase + 4) 1 4 1 0, rowOf .rs (secBase + 0x10) 1 4 4 0,
   { rowOf .wo (secBase + 0x40) 1 4 8 0 with cores := true }, rwCores (secBase + 0x60) 1 4 1 0x80000000 0,
   ctrs (secBase + 0x100) 1 4, rowOf .ro (secBase + 0x4000) 1 4 64 0]

/-- Tables 17-14 to 17-16. -/
def cipRegs : List RegDef :=
  [{ rwCrc cipBase 1 4 1 0xF8000000 0 with cores := true }, { rwCrc (cipBase + 4) 1 4 1 0xFFFFFFC0 0 with cores := true },
   { rwCrc (cipBase + 8) 1 4 1 0xFFFF 0 with cores := true }, rwCores (cipBase + 0xC) 1 4 1 0xFFF 0,
   rowOf .rs (cipBase + 0x10) 1 4 2 0, ctrs (cipBase + 0x100) 1 5]

/-- Tables 18-10 to 18-12, PWR_. -/
def pwrRegs : List RegDef :=
  [rowOf .rs pwrBase 1 4 1 0, rowOf .ro (pwrBase + 4) 1 4 1 0, rwCrc (pwrBase + 8) 1 4 1 0x80000000 0x80000000,
   rwHost (pwrBase + 0xC) 1 4 1 0xFFF00000 0x96000000, rwHost (pwrBase + 0x10) 1 4 1 1 0,
   rowOf .rs (pwrBase + 0x14) 1 4 2 0, rowOf .rs (pwrBase + 0x4000) 1 4 21 0, ctrs (pwrBase + 0xC100) 1 7]

/-- Tables 18-10 to 18-12, MGT_. -/
def mgtRegs : List RegDef :=
  [rowOf .rs mgtBase 1 4 1 0, rowOf .ro (mgtBase + 4) 1 4 1 0, ctrs (mgtBase + 0x100) 1 4]

/-- Every register of the module. -/
def regTable : List RegDef :=
  topRegs ++ ltuRegs ++ bgtRegs ++ tilRegs ++ plnRegs ++ trmRegs ++ cblRegs ++ hifRegs ++ fabRegs ++ colRegs ++ npxRegs
    ++ secRegs ++ cipRegs ++ pwrRegs ++ mgtRegs

/-- The register's row covers window offset `a`; a counter covers its two words. -/
def RegDef.covers (d : RegDef) (a : Nat) : Bool :=
  if a < d.base then false
  else
    let o := a - d.base
    let w := o % 0x4000
    decide (o / 0x4000 < d.pages) && decide (w / d.step < d.count)
      && (if d.cls = .ctr then decide (w % d.step < 8) else decide (w % d.step = 0)) && decide (a % 4 = 0)

/-- The row of the register at a window offset (page address, not an alias). -/
def regAt (a : Nat) : Option RegDef := regTable.find? (fun d => d.covers a)

/-- A window offset with its alias bits removed: the page address of the same register (R460). -/
def pageAddr (a : Nat) : Nat := a / 0x4000 * 0x4000 + a % 0x1000

/-- Which path a window offset uses: 0 the page, 1 to 3 the set, clear and toggle aliases (R460). -/
def aliasOf (a : Nat) : Nat := a / 0x1000 % 4

/-- The reset value of the register at a page address; 0 where none lies. -/
def regReset (a : Nat) : Nat :=
  match regAt a with
  | some d => d.reset
  | none => 0

/-- The block code of a window offset (Table 16-1). -/
def blockOf (a : Nat) : Nat :=
  match (regBlocks.filter (fun b => decide (b.2.1 ≤ a))).getLast? with
  | some b => b.1
  | none => 0

/-- Every configuration register of a block, in ascending address (R473). -/
def crcAddrs (block : Nat) : List Nat :=
  let one (d : RegDef) : List Nat :=
    (List.range d.pages).flatMap (fun p => (List.range d.count).map (fun i => d.base + p * 0x4000 + i * d.step))
  let all := ((regTable.filter (fun d => d.crc && decide (blockOf d.base = block))).flatMap one)
  all.mergeSort

/-- The low word of the counter that covers a page address. -/
def ctrLow (a : Nat) : Nat :=
  match regAt a with
  | some d => if d.cls = .ctr then a - (a - d.base) % 0x4000 % d.step % 8 else a
  | none => a

end Sys2Proof.Machine
end

