-- ==== Sys2Proof/Machine/Crypto.lean ====
section
/-!
DEFINITION. The ciphers and the hash the manual names by standard: AES-256 (FIPS 197), XTS-AES-256 (IEEE 1619),
AES-256-GCM (SP 800-38D) and SHA3-256 (FIPS 202). Their bits are the standards', not the manual's (log 34, PRESUMED).
-/
namespace Sys2Proof.Machine

/-! ## AES-256 -/

/-- Multiplication by x in GF(2^8) of AES. -/
def xtime (b : Byte) : Byte := (b <<< 1) ^^^ (if b.getLsbD 7 then 0x1B else 0)

/-- Multiplication in GF(2^8) of AES. -/
def gmul (a b : Byte) : Byte :=
  ((List.range 8).foldl (fun (p : Byte × Byte) i => (if b.getLsbD i then p.1 ^^^ p.2 else p.1, xtime p.2)) (0, a)).1

/-- The inverse in GF(2^8), `0` of `0`: the 254th power. -/
def ginv (a : Byte) : Byte :=
  let a2 := gmul a a
  let a4 := gmul a2 a2
  let a8 := gmul a4 a4
  let a16 := gmul a8 a8
  let a32 := gmul a16 a16
  let a64 := gmul a32 a32
  let a128 := gmul a64 a64
  gmul a128 (gmul a64 (gmul a32 (gmul a16 (gmul a8 (gmul a4 a2)))))

/-- The S-box. -/
def sbox (a : Byte) : Byte :=
  let b := ginv a
  b ^^^ b.rotateLeft 1 ^^^ b.rotateLeft 2 ^^^ b.rotateLeft 3 ^^^ b.rotateLeft 4 ^^^ 0x63

/-- The inverse S-box. -/
def sboxInv (a : Byte) : Byte := ginv (a.rotateLeft 1 ^^^ a.rotateLeft 3 ^^^ a.rotateLeft 6 ^^^ 0x05)

/-- The next word of the key schedule of AES-256 from the words so far, newest first. -/
def nextKeyWord (i : Nat) (ws : List (List Byte)) (rcon : Byte) : List Byte :=
  let t := ws.getD 0 []
  let t := if i % 8 = 0 then
      match t with
      | a :: r => xorBytes ((r ++ [a]).map sbox) [rcon, 0, 0, 0]
      | [] => []
    else if i % 8 = 4 then t.map sbox else t
  xorBytes (ws.getD 7 []) t

/-- The 15 round keys of a 32-byte key. -/
def roundKeys (key : List Byte) : List (List Byte) :=
  let w0 := (chunks 4 (slice key 0 32)).reverse
  let (ws, _) := (List.range 52).foldl (fun (p : List (List Byte) × Byte) j =>
    let i := j + 8
    (nextKeyWord i p.1 p.2 :: p.1, if i % 8 = 0 then xtime p.2 else p.2)) (w0, 1)
  chunks 16 (ws.reverse.flatten)

/-- Byte positions after ShiftRows, and after its inverse. -/
def shiftRows (s : List Byte) : List Byte := (List.range 16).map (fun i => s.getD ((i + 4 * (i % 4)) % 16) 0)
def shiftRowsInv (s : List Byte) : List Byte := (List.range 16).map (fun i => s.getD ((i + 12 * (i % 4)) % 16) 0)

/-- MixColumns by the coefficients of its first row. -/
def mixColumns (c0 c1 c2 c3 : Byte) (s : List Byte) : List Byte :=
  (List.range 16).map (fun i =>
    let col := i / 4 * 4
    let g (k : Nat) : Byte := s.getD (col + (i + k) % 4) 0
    gmul c0 (g 0) ^^^ gmul c1 (g 1) ^^^ gmul c2 (g 2) ^^^ gmul c3 (g 3))

/-- Encrypt one block. -/
def aesEncrypt (key block : List Byte) : List Byte :=
  match roundKeys key with
  | [] => block
  | k0 :: ks =>
    let mid := ks.take 13
    let s := mid.foldl (fun s k => xorBytes (mixColumns 2 3 1 1 (shiftRows (s.map sbox))) k) (xorBytes (slice block 0 16) k0)
    xorBytes (shiftRows (s.map sbox)) (ks.getD 13 [])

/-- Decrypt one block. -/
def aesDecrypt (key block : List Byte) : List Byte :=
  match (roundKeys key).reverse with
  | [] => block
  | kl :: ks =>
    let s := (ks.take 13).foldl (fun s k => mixColumns 14 11 13 9 (xorBytes ((shiftRowsInv s).map sboxInv) k))
      (xorBytes (slice block 0 16) kl)
    xorBytes ((shiftRowsInv s).map sboxInv) (ks.getD 13 [])

/-! ## XTS-AES-256 -/

/-- Multiplication of an XTS tweak by x: the tweak is a little-endian number. -/
def xtsNext (t : Nat) : Nat := if t.testBit 127 then (2 * t) % 2 ^ 128 ^^^ 0x87 else 2 * t

/-- One sector of whole blocks under a 64-byte key (data key, then tweak key) and a 128-bit tweak. -/
def xtsSector (encrypt : Bool) (key : List Byte) (tweak : Nat) (data : List Byte) : List Byte :=
  let k1 := slice key 0 32
  let t0 := leNat (aesEncrypt (slice key 32 32) (leBytes 16 (tweak % 2 ^ 128)))
  ((chunks 16 data).foldl (fun (p : List (List Byte) × Nat) b =>
    let t := leBytes 16 p.2
    let x := xorBytes (slice b 0 16) t
    let y := if encrypt then aesEncrypt k1 x else aesDecrypt k1 x
    (p.1 ++ [xorBytes y t], xtsNext p.2)) ([], t0)).1.flatten

/-! ## AES-256-GCM -/

/-- Multiplication in GF(2^128) of GCM on big-endian 128-bit numbers. -/
def ghashMul (x y : Nat) : Nat :=
  ((List.range 128).foldl (fun (p : Nat × Nat) i =>
    let z := if x.testBit (127 - i) then p.1 ^^^ p.2 else p.1
    (z, if p.2 % 2 = 1 then p.2 / 2 ^^^ (0xE1 * 2 ^ 120) else p.2 / 2)) (0, y)).1

/-- Absorb whole blocks, the last one padded with zeros. -/
def ghashBlocks (h : Nat) (acc : Nat) (bs : List Byte) : Nat :=
  (chunks 16 bs).foldl (fun a b => ghashMul (a ^^^ beNat (slice b 0 16)) h) acc

/-- The hash key of GCM. -/
def gcmH (key : List Byte) : Nat := beNat (aesEncrypt key (List.replicate 16 0))

/-- Counter-mode keystream applied to data; the block counter starts at `ctr` after the 96-bit nonce. -/
def gcmStream (key : List Byte) (nonce ctr : Nat) (data : List Byte) : List Byte :=
  let cs := chunks 16 data
  (List.zip (List.range cs.length) cs).flatMap (fun p =>
    xorBytes p.2 (aesEncrypt key (beBytes 12 nonce ++ beBytes 4 ((ctr + p.1) % 2 ^ 32))))

/-- The tag from the hash of the data and the lengths. -/
def gcmTag (key : List Byte) (nonce acc alen dlen : Nat) : List Byte :=
  let h := gcmH key
  let s := ghashMul (acc ^^^ ((8 * alen) % 2 ^ 64 * 2 ^ 64 + (8 * dlen) % 2 ^ 64)) h
  xorBytes (beBytes 16 s) (aesEncrypt key (beBytes 12 nonce ++ beBytes 4 1))

/-- Seal: ciphertext and tag. -/
def gcmSeal (key : List Byte) (nonce : Nat) (aad data : List Byte) : List Byte × List Byte :=
  let h := gcmH key
  let c := gcmStream key nonce 2 data
  (c, gcmTag key nonce (ghashBlocks h (ghashBlocks h 0 aad) c) aad.length data.length)

/-- Open: the plaintext, if the tag matches. -/
def gcmOpen (key : List Byte) (nonce : Nat) (aad data tag : List Byte) : Option (List Byte) :=
  let h := gcmH key
  let t := gcmTag key nonce (ghashBlocks h (ghashBlocks h 0 aad) data) aad.length data.length
  if t = tag then some (gcmStream key nonce 2 data) else none

/-! ## SHA3-256 -/

/-- Rotation offsets and the lane order of the rho and pi steps, along the orbit that starts at lane 1. -/
def keccakRho : List Nat := [1, 3, 6, 10, 15, 21, 28, 36, 45, 55, 2, 14, 27, 41, 56, 8, 25, 43, 62, 18, 39, 61, 20, 44]
def keccakPi : List Nat := [10, 7, 11, 17, 18, 3, 5, 16, 8, 21, 24, 4, 15, 23, 19, 13, 12, 2, 20, 14, 22, 9, 6, 1]

/-- Round constants of Keccak-f[1600]. -/
def keccakRc : List Nat :=
  [0x1, 0x8082, 0x800000000000808A, 0x8000000080008000, 0x808B, 0x80000001, 0x8000000080008081, 0x8000000000008009,
   0x8A, 0x88, 0x80008009, 0x8000000A] ++
  [0x8000808B, 0x800000000000008B, 0x8000000000008089, 0x8000000000008003, 0x8000000000008002, 0x8000000000000080,
   0x800A, 0x800000008000000A, 0x8000000080008081, 0x8000000000008080, 0x80000001, 0x8000000080008008]

/-- Rotate a 64-bit lane left. -/
def rotl64 (x n : Nat) : Nat := (x * 2 ^ n) % 2 ^ 64 + x / 2 ^ (64 - n)

/-- One round on 25 lanes. -/
def keccakRound (a : List Nat) (rc : Nat) : List Nat :=
  let g (l : List Nat) (i : Nat) : Nat := l.getD i 0
  let c := (List.range 5).map (fun x => g a x ^^^ g a (x + 5) ^^^ g a (x + 10) ^^^ g a (x + 15) ^^^ g a (x + 20))
  let a := (List.range 25).map (fun i => g a i ^^^ g c ((i + 4) % 5) ^^^ rotl64 (g c ((i % 5 + 1) % 5)) 1)
  let b := ((List.zip keccakPi keccakRho).foldl (fun (p : List Nat × Nat) q =>
    (p.1.set q.1 (rotl64 p.2 q.2), g a q.1)) (a, g a 1)).1
  let d := (List.range 25).map (fun i =>
    let y := i / 5 * 5
    g b i ^^^ ((2 ^ 64 - 1 - g b (y + (i + 1) % 5)) &&& g b (y + (i % 5 + 2) % 5)))
  d.set 0 (g d 0 ^^^ rc)

/-- Absorb one 136-byte block. -/
def keccakAbsorb (a : List Nat) (b : List Byte) : List Nat :=
  keccakRc.foldl keccakRound ((List.range 25).map (fun i => a.getD i 0 ^^^ (if i < 17 then leAt b (8 * i) 8 else 0)))

/-- SHA3-256. -/
def sha3 (bs : List Byte) : List Byte :=
  let n := 136 - bs.length % 136
  let pad := if n = 1 then [(0x86 : Byte)] else (0x06 : Byte) :: List.replicate (n - 2) 0 ++ [0x80]
  let a := (chunks 136 (bs ++ pad)).foldl keccakAbsorb (List.replicate 25 0)
  (a.take 4).flatMap (leBytes 8)

/-! ## Measurement registers (R487) -/

/-- Extend a measurement register with data whose SHA3-256 is given. -/
def mrExtend (mr digest : List Byte) : List Byte := sha3 (mr ++ digest)

/-- MR0 to MR7 after boot: ROM, the four components, the owner record, the straps; MR7 is zero. -/
def measureBoot (rom : List Byte) (comps : List (List Byte)) (owner straps : List Byte) : List (List Byte) :=
  let zero : List Byte := List.replicate 32 0
  [mrExtend zero rom] ++ (List.range 4).map (fun i => mrExtend zero (comps.getD i []))
    ++ [mrExtend zero (sha3 owner), mrExtend zero (sha3 straps), zero]

end Sys2Proof.Machine
end

