-- ==== Sys2Proof/Machine/Sparse.lean ====
section
/-!
DEFINITION. Sparse maps in one canonical form: a list of (key, value) pairs with strictly rising keys and no
entry equal to the value an unlisted key has. Device memory, registers, tiles, slots and every other numbered
collection of the machine is one of these, so that equal collections are equal data.
-/
namespace Sys2Proof.Machine

/-- A sparse map from numbers to `α`. -/
abbrev Sparse (α : Type) := List (Nat × α)

/-- The value at key `a`; an unlisted key has the value `d`. -/
def sget {α : Type} (d : α) : Sparse α → Nat → α
  | [], _ => d
  | (k, v) :: m, a => if k = a then v else sget d m a

/-- `m` without any entry at key `a`. -/
def serase {α : Type} (m : Sparse α) (a : Nat) : Sparse α := m.filter (fun p => p.1 != a)

/-- `m` with the entry `(a, v)` put before the first larger key. -/
def sinsert {α : Type} (m : Sparse α) (a : Nat) (v : α) : Sparse α :=
  match m with
  | [] => [(a, v)]
  | (k, w) :: r => if a < k then (a, v) :: (k, w) :: r else (k, w) :: sinsert r a v

/-- Write `v` at key `a`: writing the unlisted value `d` removes the entry. -/
def sput {α : Type} [DecidableEq α] (d : α) (m : Sparse α) (a : Nat) (v : α) : Sparse α :=
  if v = d then serase m a else sinsert (serase m a) a v

/-- The entry at key `a`, if one is listed. -/
def sget? {α : Type} : Sparse α → Nat → Option α
  | [], _ => none
  | (k, v) :: m, a => if k = a then some v else sget? m a

/-- Replace the value at key `a` by a function of it. -/
def smod {α : Type} [DecidableEq α] (d : α) (m : Sparse α) (a : Nat) (f : α → α) : Sparse α :=
  sput d m a (f (sget d m a))

/-- Keep the entries whose key satisfies `p`. -/
def sfilter {α : Type} (m : Sparse α) (p : Nat → Bool) : Sparse α := m.filter (fun e => p e.1)

/-- Keys rise strictly from above `lo`, and no entry equals `d`. -/
def swfFrom {α : Type} [DecidableEq α] (d : α) : Nat → Sparse α → Bool
  | _, [] => true
  | lo, (k, v) :: m => decide (lo ≤ k) && decide (v ≠ d) && swfFrom d (k + 1) m

/-- The canonical form of a sparse map. -/
def swf {α : Type} [DecidableEq α] (d : α) (m : Sparse α) : Bool := swfFrom d 0 m

end Sys2Proof.Machine
end

