-- ==== Sys2Proof/Machine/State.lean ====
section
/-!
DEFINITION. The state of one XC96 module as plain data: every register, memory, queue, record and mode the manual
gives it, the commands waiting in front of it, and the record of what has left it. Numbered collections are sparse
maps (Machine/Sparse.lean); device memory keeps their canonical form.
-/
namespace Sys2Proof.Machine

/-- No command of this block ends in a fault: the manual gives every event an effect or a counted discard. -/
inductive Fault where
  /-- raised by nothing; safe -/
  | stuck
  deriving DecidableEq, Repr

/-- Why a command has no meaning. -/
inductive Refusal where
  /-- an arm of `exec` that has no meaning yet; safe -/
  | notModelled (mnemonic : String)
  deriving DecidableEq, Repr

/-- What a message on the course network is: a token (Table 4-11), or a credit with its source (Table 4-13). -/
inductive Msg where
  | token (w : W64)
  | credit (src : Byte) (w : W32)
  deriving DecidableEq, Repr

/-- A message in flight, and the tensors whose seeded scale is in force for the task that sent it (R58). -/
structure Flying where
  msg  : Msg
  know : List Nat
  deriving DecidableEq, Repr

/-- What leaves the module: the model's own record of it. -/
inductive Output where
  /-- bytes written to host memory -/
  | hostWrite (addr : Nat) (data : List Byte)
  /-- an MSI-X message -/
  | msix (vector : Nat)
  /-- the value a register read returns to its requester -/
  | readValue (req : Requester) (addr value : Nat)
  /-- the bytes a read through the aperture returns -/
  | apertureRead (data : List Byte) (poison : Bool)
  /-- a reply or result on the management path -/
  | mctp (data : List Byte)
  /-- a native fabric frame handed to a port -/
  | frame (port : Nat) (data : List Byte)
  /-- an Ethernet or IPv6 packet of the exchange handed to a port -/
  | packet (port : Nat) (data : List Byte)
  /-- a time message handed to a path or port -/
  | timeMsg (path : Nat) (data : List Byte)
  /-- the old value a memory-side operation returns -/
  | opReturn (addr value : Nat)
  /-- a contact of the connector driven to a level -/
  | pin (name : Nat) (level : Bool)
  /-- bytes answered on SMBus -/
  | smbus (data : List Byte)
  /-- a collective of the named handle started toward its members -/
  | collective (handle : Nat) (data : List Byte)
  deriving DecidableEq, Repr

/-! ## The host side (chapters 15 and 16) -/

/-- Where a command's reply goes: its queue as it was created, or the management path. -/
structure ReplyTo where
  queue  : Nat
  /-- the creation of the queue the command came through; a later queue of the same number is another one -/
  life   : Nat
  tag    : Nat
  opcode : Nat
  quiet  : Bool
  mctp   : Bool
  /-- line time of a late begin, which the reply carries in place of that of its completion (R33) -/
  begun  : Option Nat
  deriving DecidableEq, Repr

/-- One queue pair (R439 to R441). -/
structure Queue where
  enabled  : Bool
  /-- QSTAT.ERR: stopped by a doorbell error -/
  err      : Bool
  life     : Nat
  log2     : Nat
  vector   : Nat
  coalN    : Nat
  coalUs   : Nat
  sq       : Nat
  cq       : Nat
  sqTail   : Nat
  sqHead   : Nat
  cqHead   : Nat
  /-- index of the next reply entry the module writes -/
  cqPut    : Nat
  phase    : Bool
  /-- replies posted and not yet released by CQ_HEAD -/
  used     : Nat
  /-- fetched commands whose replies are unposted -/
  unposted : Nat
  /-- deferred commands not yet answered -/
  deferred : Nat
  /-- fetched commands that have not begun, first in, first out -/
  waiting  : List Instr
  /-- replies posted since the last interrupt message, and the line time of the oldest of them, ns (R438) -/
  unsignalled : Nat
  since    : Nat
  deriving DecidableEq, Repr

/-- A queue number nothing has been created on. -/
def Queue.none : Queue :=
  { enabled := false, err := false, life := 0, log2 := 0, vector := 0, coalN := 0, coalUs := 0, sq := 0, cq := 0
    sqTail := 0, sqHead := 0, cqHead := 0, cqPut := 0, phase := true, used := 0, unposted := 0, deferred := 0, waiting := []
    unsignalled := 0, since := 0 }

/-- The host event ring (R446). -/
structure EventRing where
  set    : Bool
  addr   : Nat
  log2   : Nat
  vector : Nat
  head   : Nat
  put    : Nat
  phase  : Bool
  /-- records written and not yet released by EV_HEAD -/
  used   : Nat
  /-- events lost since the ring last had space -/
  lost   : Nat
  deriving DecidableEq, Repr

/-- The host interface. -/
structure HostIf where
  queues    : Sparse Queue
  /-- fetched commands that waited on a queue that a host-interface reset has since removed (R452) -/
  orphans   : List Instr
  /-- creations so far, which number the queues' lives -/
  lives     : Nat
  ring      : EventRing
  /-- MSI-X table: 128 entries of 128 bits -/
  msixTable : Sparse Nat
  /-- MSI-X pending bits -/
  msixPba   : Nat
  /-- discarded-reply log, newest last: (reply, queue, opcode) (R452) -/
  dropLog   : List (Nat × Nat × Nat)
  attachGen : Nat
  linkUp    : Bool
  training  : Bool
  speed     : Nat
  width     : Nat
  flit      : Bool
  /-- D3hot: fetching, DMA and MSI-X stopped (R517) -/
  d3hot     : Bool
  /-- bedding waits for IDLE (R517) -/
  bedWait   : Bool
  /-- replies that wait in D3hot: reply, status, detail -/
  held      : List (ReplyTo × Nat × Nat)
  /-- events that wait in D3hot, at most 256: code, detail, source -/
  heldEvents : List (Nat × Nat × Nat)
  jobSeed   : Nat
  /-- stage results recorded by the page snapshot: page, words by offset -/
  snap      : Sparse Nat
  snapBusy  : Bool
  snapDone  : Bool
  /-- command processing has stopped (R413) -/
  fatal     : Bool
  /-- running FW_UPDATE (Table 15-20) -/
  fwBusy    : Bool
  deriving DecidableEq, Repr

/-- The configuration CRC (R473 to R478). -/
structure CfgCrc where
  committed   : Bool
  mismatch    : Bool
  seen        : Bool
  adopt       : Bool
  /-- the pass in progress is dirty -/
  dirty       : Bool
  /-- a pass is in progress -/
  running     : Bool
  /-- passes begun before the commit in force are not compared -/
  beganAfter  : Bool
  passSeq     : Nat
  crc         : Nat
  bcrc        : List Nat
  deriving DecidableEq, Repr

/-! ## Tiles and tensors (chapters 2, 4, 5 and 6) -/

/-- A loaded program (R97, R127): where its image lies, its size, its domain, and the chain store's copies keyed by
`CHAIN_OFF × 64 + CHAIN_LEN`. -/
structure Program where
  off    : Nat
  ntasks : Nat
  domain : Nat
  chain  : Sparse (List Nat)
  deriving DecidableEq, Repr

/-- A running task: its index, whether it stops for an abort, and the tensors whose seeded scale is in force for it
(R58). -/
structure Running where
  task     : Nat
  stopping : Bool
  know     : List Nat
  /-- line time of its start, ns -/
  since    : Nat
  deriving DecidableEq, Repr

/-- STATE of TIL_STATUS, without the stalled state, which is computed (Table 4-19). -/
inductive TileMode where
  | idle | running | aborting | fenced
  deriving DecidableEq, Repr

/-- One tile (R91 to R121). -/
structure Tile where
  prog     : Option Program
  slots    : Sparse Nat
  pools    : Sparse Nat
  mainCur  : Nat
  deferCur : Nat
  /-- generation of the last step-begin token; none while no step has begun with the tile's program (R109) -/
  gen      : Option Bool
  /-- tensors whose seeded scale a token chain has brought to a slot (0 to 63) or a pool (64 to 95) (R58) -/
  know     : Sparse (List Nat)
  mode     : TileMode
  matrix   : Option Running
  vector   : Option Running
  move     : Option Running
  send     : Option Running
  cause    : Nat
  faultTask : Nat
  /-- program done has been reported in this step -/
  reported : Bool
  /-- the amax log: records of Table 5-6, oldest first -/
  amaxLog  : List Nat
  deriving DecidableEq, Repr

/-- A tile at reset. -/
def Tile.init : Tile :=
  { prog := none, slots := [], pools := [], mainCur := 0, deferCur := 0, gen := none, know := [], mode := .idle, matrix := none
    vector := none, move := none, send := none, cause := 0, faultTask := 0, reported := false, amaxLog := [] }

/-- A tensor's scale record, history and statistics (Table 2-6, R56 to R61, R67). -/
structure Tensor where
  margin      : Nat
  hostScale   : Nat
  scale       : Nat
  /-- H − 1 in force, and as the host last wrote it -/
  depth       : Nat
  src         : Nat
  hostLock    : Bool
  pow2        : Bool
  perRow      : Bool
  seedPending : Bool
  /-- RW fields written by TENSOR_SCALE, in force at the next step begin: margin, host scale, depth, flags -/
  next        : Option (Nat × Nat × Nat × Nat)
  /-- history entries, newest first, each with its seed mark -/
  hist        : List (Nat × Bool)
  /-- histories of per-row scale groups by row -/
  rowHist     : Sparse (List (Nat × Bool))
  /-- per-row scales in force -/
  rowScale    : Sparse Nat
  /-- the provisional entry of a seeding step (R58) -/
  seedAmax    : Option Nat
  /-- SCALE and SRC before the step in progress, which a step that does not commit leaves unchanged (R285) -/
  prev        : Option (Nat × Nat)
  /-- format declared by a loaded program or shard: descriptor code plus 1, 0 for none -/
  fmt         : Nat
  satCnt      : Nat
  nfCnt       : Nat
  crushCnt    : Nat
  deriving DecidableEq, Repr

/-- A tensor's record at its reset values (Table 2-6). -/
def Tensor.init : Tensor :=
  { margin := 0x3F800000, hostScale := 0, scale := 0, depth := 15, src := 0, hostLock := false, pow2 := true
    perRow := false, seedPending := false, next := none, hist := [], rowHist := [], rowScale := [], seedAmax := none, prev := none
    fmt := 0, satCnt := 0, nfCnt := 0, crushCnt := 0 }

/-! ## Treim (chapter 7) -/

/-- One Treim channel (Tables 7-3, 7-4 and 7-17). -/
structure Channel where
  /-- lane the spare carries, 31 for none -/
  spareFor   : Nat
  /-- erased lane, 31 for none -/
  erased     : Nat
  tsv        : Nat
  weak       : Bool
  /-- eyes measured, by lane (18 the spare): 2^16 + width × 256 + height -/
  eyes       : Sparse Nat
  retraining : Bool
  /-- a retrain is due, not before this line time -/
  due        : Option Nat
  /-- corrected lines in the current millisecond, and which millisecond -/
  ce         : Nat
  ceMs       : Nat
  /-- next lane of the calibration order, 18 for the spare itself -/
  calLane    : Nat
  /-- next of the 32 sweep points of that lane (R189) -/
  calPoint   : Nat
  /-- calibration interval last used, plus 1 (R188) -/
  calIvl     : Nat
  /-- the free spare lane failed a training (Table 7-3, step 5) -/
  spareBad   : Bool
  /-- a due retrain has been counted as waiting -/
  waited     : Bool
  /-- after its loss, every braced granule has been rebuilt into the reserve (R204) -/
  rebuilt    : Bool
  /-- refresh commands deferred by a retrain -/
  refDefer   : Nat
  /-- 1 plus the budget period whose refresh commands went out last (R208) -/
  refPer     : Nat
  deriving DecidableEq, Repr

/-- A channel at reset. -/
def Channel.init : Channel :=
  { spareFor := 31, erased := 31, tsv := 0, weak := false, eyes := [], retraining := false, due := none
    ce := 0, ceMs := 0, calLane := 0, calPoint := 0, calIvl := 0, spareBad := false, waited := false, rebuilt := false, refDefer := 0, refPer := 0 }

/-- One Treim stack (Tables 7-9, 7-15, 7-16 and 7-18). -/
structure Stack where
  level       : Nat
  stopped     : Bool
  contentLost : Bool
  selfRefresh : Bool
  applied     : Bool
  /-- critical level entered, self-refresh not yet reached -/
  stopping    : Bool
  temp        : Nat
  /-- temperatures of the 16 dies, 1/16 °C, as last reported -/
  dieTemp     : Sparse Nat
  lost        : Nat
  mapx        : Nat
  /-- RSV_ROWS in force -/
  rsv         : Nat
  /-- BASE_ROW plus 1 of each placed region -/
  base        : Sparse Nat
  /-- repair list: DRAM rows as channel × 2^19 + bank × 2^14 + row -/
  repair      : List Nat
  /-- lines of a DRAM row with corrected errors in this scrub period, keyed like `repair` -/
  ceRows      : Sparse (List Nat)
  /-- spare rows used, by channel × 32 + bank -/
  spares      : Sparse Nat
  /-- next line patrol scrub reads, as region × 2^24 + line -/
  scrub       : Nat
  deriving DecidableEq, Repr

/-- A stack at reset. -/
def Stack.init : Stack :=
  { level := 0, stopped := false, contentLost := false, selfRefresh := false, applied := false, stopping := false
    temp := 0, dieTemp := [], lost := 0, mapx := 0, rsv := 0, base := [], repair := [], ceRows := [], spares := []
    scrub := 0 }

/-! ## Plinth (chapter 8) -/

/-- The life of a gather entry (R232). -/
inductive GatherSt where
  | absent | waiting | filling | present
  deriving DecidableEq, Repr

/-- A bound gather slot and its entry. -/
structure Gather where
  /-- the descriptor (Table 15-10) -/
  desc    : Nat
  /-- tile whose program bound it -/
  tile    : Nat
  st      : GatherSt
  pins    : Nat
  /-- first page held, as region × 64 + page -/
  page    : Nat
  /-- order of filling, for oldest-first eviction -/
  stamp   : Nat
  evicted : Bool
  /-- acquires waiting for the fill -/
  owed    : Nat
  deriving DecidableEq, Repr

/-- A granule held in a write-combining pool: its bytes are already in `mem`, the entry keeps the mask. -/
structure PoolEntry where
  granule : Nat
  /-- byte-valid mask, 512 bits -/
  mask    : Nat
  /-- line time of its oldest byte -/
  since   : Nat
  cls     : Nat
  /-- absorbed for a held channel (R231) -/
  absorbed : Bool
  /-- its stripe has gone to the brace engine, which holds the granule in the reserve until release (Table 8-5) -/
  engine   : Bool
  /-- bit errors of the pool's SRAM by word of the granule, 72 bits each (R235) -/
  errs     : Sparse Nat
  deriving DecidableEq, Repr

/-- One pier's plinth. -/
structure Pier where
  /-- modes in force of regions 0 to 47: 0 cache, 1 scratchpad, 2 pool -/
  modes  : List Nat
  /-- allocated pages by region × 64 + page: holder domain plus 1, and SHARED -/
  pages  : Sparse (Nat × Bool)
  pool   : List PoolEntry
  /-- cached Treim lines by line number: 1 plus the bit errors of the cached copy (R220, R221, R235) -/
  cache  : Sparse Nat
  gather : Sparse (Option Gather)
  stamp  : Nat
  deriving DecidableEq, Repr

/-- A pier at reset (Table 8-7). -/
def Pier.init : Pier :=
  { modes := List.replicate 40 0 ++ List.replicate 7 2 ++ [1], pages := [], pool := [], cache := [], gather := []
    stamp := 0 }

/-! ## Corbel units (chapter 9) -/

/-- An exact accumulator (R241). -/
structure Exact where
  nf  : Bool
  val : Nat
  deriving DecidableEq, Repr

/-- The zero accumulator. -/
def Exact.zero : Exact := { nf := false, val := 0 }

/-- A loaded shard: its descriptor (Table 9-5) and what is known of it. -/
structure Shard where
  desc       : Nat
  torn       : Bool
  invalid    : Bool
  /-- a read of the shard returned a result other than good since it last agreed (R417) -/
  eccMark    : Bool
  sparseFull : Bool
  /-- reduction blocks whose norm contribution has been taken in this step -/
  reduced    : Sparse Bool
  /-- weight blocks done in this update -/
  updated    : Sparse Bool
  deriving DecidableEq, Repr

/-- A group record (Table 9-6) as one stack holds it. -/
structure GroupRec where
  raw      : Nat
  /-- RW fields in force at the next step begin -/
  next     : Option Nat
  unfreeze : Bool
  deriving DecidableEq, Repr

/-- A weight block in flight (R264): the journal slot it uses and the write group last completed. -/
structure Flight where
  stack : Nat
  unit  : Nat
  slot  : Nat
  shard : Nat
  block : Nat
  /-- 1 journal written, 2 moments written, 3 weights written -/
  phase : Nat
  deriving DecidableEq, Repr

/-- What the outer step keeps for a shard (R35, R38): the outer base, the boundary weights wb, the residual, the staged
delta and a staged new base, as FP32 words in element order. No descriptor gives their stack-local addresses, so the
model keeps them here and not in `mem` (log 77); an empty list reads as +0. -/
structure OuterShard where
  base   : List Nat
  wb     : List Nat
  efr    : List Nat
  stage  : List Nat
  /-- a staged new base not yet applied, with its outer version -/
  staged : Option (List Nat × Nat)
  /-- version of the base in force -/
  version : Nat
  deriving DecidableEq, Repr

/-- Nothing kept yet: before any publication the base and the boundary weights are +0 and the version is 0 (log 77). -/
def OuterShard.init : OuterShard := { base := [], wb := [], efr := [], stage := [], staged := none, version := 0 }

/-- A held codebook (Table 6-6): its 64-byte header as a number and its entries as stored. -/
structure Book where
  header  : Nat
  entries : List Byte
  deriving DecidableEq, Repr

/-- The corbel units of the module. -/
structure Corbel where
  /-- the last apply since the last module reset: 0 none, 1 JOB_START, 2 RESTORE, 3 RESUME (R267) -/
  placed   : Nat
  /-- loaded shards, by stack × 2048 + index -/
  shards   : Sparse (Option Shard)
  /-- group records, by stack × 1024 + group -/
  groups   : Sparse (Option GroupRec)
  flight   : List Flight
  norm     : Exact
  /-- global norm of the last check, as a binary32 word -/
  normWord : Nat
  chkF     : Bool
  chkOver  : Bool
  chkOut   : Nat
  /-- contribution amax by gradient tensor (R247) -/
  contrib  : Sparse Nat
  /-- compute-copy amax by tensor (R262) -/
  copyAmax : Sparse Nat
  /-- D and W per group (R263) -/
  ratio    : Sparse (Exact × Exact)
  /-- this module's LAMB sums U2 and W2 per group (R258) -/
  lamb     : Sparse (Exact × Exact)
  /-- this module's Adafactor column sums by group × 2^20 + column (R259) -/
  adaCol   : Sparse Exact
  /-- this module's sum of an Adafactor group's row factors, once they are formed (R259) -/
  adaRow   : Sparse (Option Exact)
  /-- groups whose sweep A sums are complete in this step -/
  sums     : Sparse Bool
  /-- group check table: BC1, BC2, TR, RM (R253) -/
  table    : Sparse (Nat × Nat × Nat × Nat)
  /-- outer-step state by stack × 2048 + shard -/
  outer    : Sparse OuterShard
  /-- held codebooks, first received first (R167) -/
  books    : List Book
  /-- exponent histograms by shard key × 256 + exponent (R262) -/
  histo    : Sparse Nat
  deriving DecidableEq, Repr

/-! ## Step control (chapter 10) -/

/-- The step record (Table 10-6). -/
structure StepRec where
  step     : Nat
  seq      : Nat
  state    : Nat
  gen      : Bool
  staged   : Bool
  outcome  : Nat
  salt     : Nat
  outer    : Nat
  c        : Nat
  tBegin   : Nat
  tEnd     : Nat
  decision : Nat
  deriving DecidableEq, Repr

/-- The step record after cold reset. -/
def StepRec.zero : StepRec :=
  { step := 0, seq := 0, state := 0, gen := false, staged := false, outcome := 0, salt := 0, outer := 0, c := 0
    tBegin := 0, tEnd := 0, decision := 0 }

/-- A check word (Table 10-3). -/
structure CheckWord where
  s     : Bool
  f     : Bool
  /-- F comes from a POISON block or a full sparse table, on which the exclude policy still skips (Table 9-4) -/
  hard  : Bool
  a     : Bool
  first : Nat
  norm  : Exact
  deriving DecidableEq, Repr

/-- A stage queue (Table 10-10, R295, R299). -/
structure StageQueue where
  desc  : Nat
  occ   : Nat
  high  : Nat
  fills : Nat
  deriving DecidableEq, Repr

/-- Step control. -/
structure StepCtl where
  rc       : StepRec
  tCheck   : Nat
  tCommit  : Nat
  deadline : Nat
  reply    : Option ReplyTo
  resumeReply : Option ReplyTo
  late     : Bool
  seeded   : Bool
  rebased  : Bool
  boundary : Bool
  resumed  : Bool
  localS   : Bool
  /-- the non-finite slot 0x01 of endpoint 0x6D (R282) -/
  nfSlot   : Nat
  /-- tiles that have reported program done, by tile -/
  done     : Sparse Bool
  /-- the module aborts its step (R286, R287) -/
  aborted  : Bool
  own      : Option CheckWord
  comb     : Option CheckWord
  /-- step-group indices absent from the contributor lane of the check result (R363) -/
  absent   : List Nat
  /-- shards, by stack and index, that this module flagged for re-base in its commit items (R38) -/
  flagged  : List (Nat × Nat)
  /-- per-row amax words that this module contributed to the commit collective: tensor, row, word (R139) -/
  rowsSent : List (Nat × Nat × Nat)
  /-- the check collective has started -/
  chkRun   : Bool
  updRun   : Bool
  updDone  : Bool
  comRun   : Bool
  waitedDelta  : Bool
  waitedCkpt   : Bool
  waitedRepair : Bool
  /-- delta formation of the last boundary is due (R36) -/
  deltaDue : Bool
  /-- the last step-end word (Table 10-7) -/
  endWord  : Nat
  /-- job groups: R, Q, own index, members; R = 0 before JOB_GROUPS -/
  r        : Nat
  q        : Nat
  own_     : Nat
  members  : List Nat
  queues   : Sparse (Option StageQueue)
  expert   : List Nat
  deriving DecidableEq, Repr
/-! ## The module -/

/-- One time path: native ports 0 to 11, Nipen paths 16 to 23 (R310 to R313, Table 11-12). Times are in 2^-16 ns. -/
structure TimePath where
  /-- 0 unused, 1 measuring, 2 valid, 3 path holdover, 4 failed -/
  state    : Nat
  stratum  : Nat
  exch     : Nat
  accepted : Nat
  /-- (delay, offset) of the last accepted exchanges, newest first -/
  window   : List (Int × Int)
  dref     : Int
  /-- dref has been set -/
  hasRef   : Bool
  asym     : Int
  preload  : Int
  lost     : Nat
  rejects  : Nat
  /-- exchanges of the re-measurement done -/
  remeas   : Nat
  updates  : Nat
  use      : Int
  /-- t1 of the exchange that awaits its response -/
  sent     : Option Nat
  /-- line time of the next exchange, ns (R311) -/
  due      : Nat
  /-- Nipen partner: enabled, site, fabric ID, IPv6 address -/
  partner  : Bool × Nat × Nat × Nat
  deriving DecidableEq, Repr

/-- An unused path. -/
def TimePath.init : TimePath :=
  { state := 0, stratum := 0, exch := 0, accepted := 0, window := [], dref := 0, hasRef := false, asym := 0, preload := 0
    lost := 0, rejects := 0, remeas := 0, updates := 0, use := 0, sent := none, due := 0, partner := (false, 0, 0, 0) }

/-- Line time and the line-time unit (chapter 11). -/
structure TimeSt where
  /-- line time in units of 2^-16 ns: whole nanoseconds in bits [79:16], the fraction in [15:0] -/
  now     : Nat
  /-- 0 FREE, 1 ACQUIRING, 2 LOCKED, 3 HOLDOVER -/
  state   : Nat
  stratum : Nat
  /-- 0x1F none -/
  parent  : Nat
  srcOk   : Bool
  ref10m  : Bool
  /-- HOLD_S as last kept, and line time of the holdover entry while in HOLDOVER -/
  holdS   : Nat
  holdAt  : Option Nat
  /-- correction still to be steered in, 2^-16 ns -/
  steer   : Int
  offset  : Int
  paths   : Sparse TimePath
  /-- TAI second of the next 1PPS edge, not before a line time (R316) -/
  ppsName : Option (Nat × Nat)
  /-- line time of the next expected 1PPS edge -/
  ppsNext : Option Nat
  ppsMiss : Nat
  /-- TAI second of the last accepted edge -/
  ppsSec  : Nat
  /-- the backup root advertises stratum 0 -/
  backup0 : Bool
  /-- line times at which a stratum-0 advertisement (R309) and a PTP master (R315) were last seen, ns -/
  zeroAt  : Nat
  ptpAt   : Nat
  deriving DecidableEq, Repr

/-- The unit after a cold reset: FREE at the job epoch. -/
def TimeSt.init : TimeSt :=
  { now := 0, state := 0, stratum := 31, parent := 0x1F, srcOk := false, ref10m := false, holdS := 0, holdAt := none
    steer := 0, offset := 0, paths := [], ppsName := none, ppsNext := none, ppsMiss := 0, ppsSec := 0, backup0 := false, zeroAt := 0, ptpAt := 0 }

/-! ## The fabric and collectives (chapter 12) -/

/-- A transmit flow context (R340, R344, R345). -/
structure TxFlow where
  port     : Nat
  seq      : Nat
  /-- unacknowledged frames, oldest first: SEQ, the class charged, and the native part -/
  unacked  : List (Nat × Nat × List Byte)
  /-- line time at which the oldest of them was last sent, or the flow last used, ns -/
  at'      : Nat
  /-- consecutive timeouts, on this port and in all -/
  touts    : Nat
  allTouts : Nat
  /-- ports excluded for this flow -/
  bad      : List Nat
  closing  : Bool
  deriving DecidableEq, Repr

/-- A receive flow context. -/
structure RxFlow where
  expect : Nat
  unackd : Nat
  /-- line time of the last NACK, ns plus 1 -/
  nacked : Nat
  deriving DecidableEq, Repr

/-- A fabric port (Table 12-13, R334, R347, R348, R350). -/
structure Port where
  /-- 0 down, 1 training, 2 up, 3 up on two lanes, 4 disabled, 5 pause fault -/
  state  : Nat
  lanes  : Nat
  native : Bool
  peer   : Nat
  /-- paused priorities -/
  paused : Nat
  /-- line times at which the pause of a priority began and ends, ns -/
  pause  : Sparse (Nat × Nat)
  /-- left service for good until it trains anew by a mode change or a module reset (R334) -/
  dead   : Bool
  /-- line time at which a direct port trained and began its credit exchange, ns (R347) -/
  since  : Nat
  /-- credit units held by frames in flight, by priority -/
  credit : Sparse Nat
  /-- fabric-byte units sent in this period, owed by an earlier frame, and whether the ceiling was reached -/
  used   : Nat
  owed   : Nat
  capped : Bool
  /-- frames waiting for the ceiling, credits or a pause to end: priority, class, bytes -/
  queue  : List (Nat × Nat × List Byte)
  deriving DecidableEq, Repr

/-- A port before training. -/
def Port.init : Port :=
  { state := 0, lanes := 0, native := false, peer := 0xFFFF, paused := 0, pause := [], dead := false, since := 0, credit := [], used := 0, owed := 0
    capped := false, queue := [] }

/-- A run of a collective at this module (R355 to R361). -/
structure Run where
  /-- named instant, line time in ns -/
  at'      : Nat
  started  : Bool
  /-- members whose LAST this owner holds -/
  last     : List Nat
  excluded : List Nat
  slow     : List Nat
  plumb    : List Nat
  /-- parts known lost -/
  lost     : List Nat
  /-- parts whose combined or gathered data this member holds -/
  got      : List Nat
  /-- this owner's part is complete -/
  own      : Bool
  /-- received all-to-all bytes by source -/
  rcvd     : Sparse Nat
  /-- contributions waiting for the named instant: buffer offset, bytes, and which elements a conversion marked POISON
  (none where the list is empty) -/
  held     : List (Nat × List Byte × List Bool)
  /-- bytes sent by part -/
  sent     : Sparse Nat
  /-- node maps received in a PSUM tree, by source × 2^16 + superblock: the round plus 1 (R365) -/
  maps     : Sparse Nat
  reply    : Option ReplyTo
  deriving DecidableEq, Repr

/-- A handle set up by COLL_SETUP (R352, R353, Table 12-7). -/
structure Handle where
  header  : Nat
  list    : List Nat
  lens    : List Nat
  layout  : List (List Nat)
  extents : List Nat
  run     : Option Run
  /-- contributions of a COLL_RUN handle that wait for its run, as in `Run.held` (R32, R355) -/
  early   : List (Nat × List Byte × List Bool)
  /-- contributor bitmap, excluded, slow and mismatched fabric IDs of the last run -/
  lane    : Nat
  excl    : List Nat
  slow    : List Nat
  mism    : List Nat
  deriving DecidableEq, Repr

/-- The fabric. -/
structure Fabric where
  route   : Sparse Nat
  tx      : Sparse (Option TxFlow)
  rx      : Sparse (Option RxFlow)
  ports   : Sparse Port
  unreach : List Nat
  /-- line time of the next probe of an unreachable destination, ns (R345) -/
  probe   : Sparse Nat
  handles : Sparse (Option Handle)
  /-- small collectives: attempt by handle − 0xFFF0 -/
  attempt : Sparse Nat
  /-- line time at which this module joined that attempt, ns -/
  since   : Sparse Nat
  /-- CKPT_TO pairing confirmed: 0 unknown, 1 confirmed, 2 refused, 3 not ready -/
  buddy   : Nat
  /-- first region and size in bytes of the holder's checkpoint area, as its answer reports -/
  areaAt  : Nat
  area    : Nat
  deriving DecidableEq, Repr

/-! ## The exchange (chapter 13) -/

/-- A partner (R376). -/
structure Partner where
  site    : Nat
  replica : Nat
  fid     : Nat
  addr    : Nat
  deriving DecidableEq, Repr

/-- A received object in the making (R383, R385). -/
structure Obj where
  typ    : Nat
  site   : Nat
  fid    : Nat
  outer  : Nat
  nd     : Nat
  npar   : Nat
  flen   : Nat
  /-- window its first fragment arrived in -/
  window : Nat
  /-- fragments held: group × 64 + index, bytes -/
  frags  : Sparse (Option (List Byte))
  /-- header and body once complete -/
  done   : Option (List Byte)
  deriving DecidableEq, Repr

/-- A complete delta held at the home (R390). -/
structure HeldDelta where
  /-- line time of its completion, ns -/
  at'   : Nat
  site  : Nat
  epoch : Nat
  base  : Nat
  outer : Nat
  body  : List Byte
  deriving DecidableEq, Repr

/-- The module's own delta object (R377, R378), and whether it sent it as agent. -/
structure OwnDelta where
  base  : Nat
  outer : Nat
  bytes : List Byte
  sent  : Bool
  /-- line time of its last sending, ns -/
  at'   : Nat
  /-- it no longer awaits its home (R378) -/
  settled : Bool
  deriving DecidableEq, Repr

/-- A publication held in staging (R395, R396): version, contributor entries as 128-bit words, decoded values by shard
key. -/
structure Pub where
  base    : Nat
  ver     : Nat
  epoch   : Nat
  contrib : List Nat
  vals    : Sparse (List Nat)
  /-- a full base and not a difference -/
  full    : Bool
  deriving DecidableEq, Repr

/-- A lineage entry: epoch, home, first version, closing version (none for the last). -/
structure Line where
  epoch : Nat
  home  : Nat
  first : Nat
  last  : Option Nat
  deriving DecidableEq, Repr

/-- The exchange state of the module's shard group. -/
structure Npx where
  configured : Bool
  /-- N, E_o -/
  nLocal   : Nat
  epoch0   : Nat
  replicas : List Nat
  /-- home orders, NSITES entries per group -/
  orders   : List Nat
  groups   : List Nat
  partners : List Partner
  weights  : List Nat
  /-- 0 follower, 1 candidate, 2 home, 3 suspended, 4 joining -/
  state    : Nat
  epoch    : Nat
  version  : Nat
  home     : Nat
  lineage  : List Line
  voted    : Nat
  votes    : List Nat
  /-- windows since a PUB or ALIVE of the home -/
  silent   : Nat
  /-- window each site was last heard in, plus 1 -/
  heard    : Sparse Nat
  /-- window last opened, plus 1; 0 before the first -/
  window   : Nat
  isOpen   : Bool
  lease    : Bool
  /-- minimum slack of the last window in ms, and of the open one so far (R389) -/
  slack    : Int
  slackNow : Option Int
  /-- line time of the last candidacy, ns -/
  candAt   : Nat
  /-- codebooks in use when the encoding of the staged delta began, one for each family (R167) -/
  encBooks : List Book
  /-- delta object of the current outer step -/
  delta    : Option OwnDelta
  objs     : List Obj
  /-- complete deltas at the home -/
  deltas   : List HeldDelta
  merged   : List (Nat × Nat)
  retained : List (Nat × List Byte)
  /-- publication formed and not yet sent -/
  pubOut   : Option (List Byte)
  staged   : List Pub
  /-- version failures (R398) -/
  failed   : List Nat
  /-- the re-base flag of the next commit -/
  flagged  : Bool
  fullNext : Bool
  outerN   : Nat
  om       : Sparse (List Nat)
  ov       : Sparse (List Nat)
  rout     : Sparse (List Nat)
  joinReply : Option ReplyTo
  /-- packet counter low words by key slot -/
  txCtr    : Sparse Nat
  /-- link address of the default router once resolved, and packets that wait for it by port (R376) -/
  router   : Option Nat
  waitNd   : List (Nat × List Byte)
  deriving DecidableEq, Repr

/-- The exchange before EXCH_CONFIG; N = 0 while unset. -/
def Npx.init : Npx :=
  { configured := false, nLocal := 0, epoch0 := 0, replicas := [], orders := [], groups := [], partners := []
    weights := [], state := 0, epoch := 0, version := 0, home := 0, lineage := [], voted := 0, votes := []
    silent := 0, heard := [], window := 0, isOpen := false, lease := false, slack := 0, slackNow := none, candAt := 0, encBooks := [], delta := none
    objs := [], deltas := [], merged := [], retained := [], pubOut := none, staged := [], failed := [], flagged := false
    fullNext := false, outerN := 0, om := [], ov := [], rout := [], joinReply := none, txCtr := [], router := none, waitNd := [] }

/-! ## Checkpoints and repair (chapter 14) -/

/-- A checkpoint copy in progress (R424, R425). -/
structure Copy where
  start  : Nat
  outer  : Nat
  step   : Nat
  no     : Nat
  slot   : Nat
  /-- 0: nothing sent yet; 1: sent, and waiting for its acknowledgement -/
  stage  : Nat
  paused : Bool
  /-- line time of the last check of the holder while it is paused, ns -/
  check  : Nat
  deriving DecidableEq, Repr

/-- Checkpoints, repair and the control cores. -/
structure Ckpt where
  /-- item entries with FIRST assigned (Table 14-6) -/
  items   : List Nat
  holdS   : Nat
  copy    : Option Copy
  /-- complete copies at the holder by slot: OUTER, STEP, COPY_NO -/
  there   : Sparse (Option (Nat × Nat × Nat))
  copyNo  : Nat
  /-- blocks to repair before the next update: stack, shard -/
  repair  : List (Nat × Nat)
  /-- blocks marked suspect: stack, shard, 1 MiB block (Table 14-4) -/
  suspect : List (Nat × Nat × Nat)
  /-- source replica named for a shard (R417) -/
  named   : Sparse (Option Nat)
  /-- control cores failed: bits 0 to 3 the active cores, bit 4 the spare -/
  failed  : Nat
  /-- the spare core serves the queues of this core plus 1 -/
  spare   : Nat
  deriving DecidableEq, Repr

/-! ## Security (chapter 17) -/

/-- A key slot (R493). -/
structure KeySlot where
  kind : Nat
  key  : List Byte
  deriving DecidableEq, Repr

/-- A cipher context (R502): slot, kind of run, counter or tweak, GHASH, lengths, authenticated length. -/
structure CipCtx where
  slot  : Nat
  xts   : Bool
  iv    : Nat
  block : Nat
  ghash : Nat
  dlen  : Nat
  alen  : Nat
  deriving DecidableEq, Repr

/-- The security island and the cipher queue. -/
structure Sec where
  /-- image slots A and B as written in flash -/
  slotA   : List Byte
  slotB   : List Byte
  /-- RPA: boot slot index, minimum SVN, owner record, write counter -/
  bootIdx : Nat
  minSvn  : Nat
  owner   : Option (List Byte)
  rpaCnt  : Nat
  seqMax  : Sparse Nat
  use     : Sparse Nat
  useCk   : Nat
  /-- running: boot slot, SVN, owner in force, recovery, DS held -/
  booted  : Nat
  curSvn  : Nat
  inForce : Option (List Byte)
  recovery : Bool
  pufOk   : Bool
  activate : Bool
  slots   : Sparse (Option KeySlot)
  loads   : Sparse Nat
  mr      : List (List Byte)
  extBusy : Bool
  ctxs    : Sparse (Option CipCtx)
  /-- requests executed and not yet reported: index, status -/
  inflight : List (Nat × Nat)
  /-- key under which contexts are wrapped, numbered by module reset -/
  cwk     : Nat
  deriving DecidableEq, Repr

/-! ## Power and management (chapters 18 and 19) -/

/-- Power, thermal limits, pins and the management controller. -/
structure Pwr where
  /-- 0 running, 1 entering bedded, 2 bedded, 3 leaving bedded -/
  state    : Nat
  /-- 0 off, 1 auxiliary only, 2 ramp, 3 rails good, 4 island booted, 5 running -/
  stage    : Nat
  /-- a module reset or a bed leave trains Treim: what TREIM_TRAINING_COMPLETE ends -/
  training : Nat
  cause    : Nat
  k        : Nat
  /-- k as the limiter alone set it -/
  limiter  : Nat
  /-- input power samples, newest first, at most 1,000, W -/
  samples  : List Nat
  /-- samples since the last change of k -/
  sinceUp  : Nat
  volt     : Nat
  /-- temperature and level of PWR_TEMP_d -/
  temps    : Sparse (Nat × Nat)
  straps   : Nat
  prsnt    : Bool
  pwrEn    : Bool
  perst    : Bool
  auxOk    : Bool
  /-- line times since which the auxiliary supply is good and PRSNT_L and PWR_EN_L are asserted, ns (R513) -/
  auxAt    : Nat
  prsntAt  : Nat
  enAt     : Nat
  mainOk   : Bool
  locate   : Bool
  fault    : Bool
  alert    : Bool
  /-- main power was last lost by a trip, until the next power-up completes -/
  tripped  : Bool
  last     : Nat
  lastDie  : Nat
  eid      : Nat
  /-- PLDM terminus ID -/
  tid      : Nat
  /-- PLDM firmware update: 0 idle, 1 learning components, 2 ready for a transfer -/
  fwPhase  : Nat
  /-- slot of the image written by this update, once it has been verified -/
  fwSlot   : Option Nat
  /-- bytes of an MCTP message so far received in packets -/
  assembly : List Byte
  fenced   : Bool
  deriving DecidableEq, Repr

/-- Activity budgets (R320 to R327): tokens taken from a class's bucket and from the pool in the current period, by
resource instance and class, the pending share set, and its reply. -/
structure Budget where
  /-- units used in this period by instance × 16 + class -/
  use     : Sparse Nat
  /-- units borrowed in this period by instance -/
  lent    : Sparse Nat
  /-- BUDGET_SET waiting for its boundary: share words in column and class order, PORTPROF, NOT_BEFORE, reply -/
  pending : Option (List Nat × Nat × Nat × ReplyTo)
  /-- PERIOD_K in force, and one committed and not yet in force (R320) -/
  periodK : Nat
  nextK   : Option Nat
  deriving DecidableEq, Repr

/-- The sticky log (R415): the first 64 records, and the ring of later ones, oldest first. -/
structure StickyLog where
  first : List Nat
  ring  : List Nat
  /-- line time of the last mirror, ns -/
  mirrored : Nat
  deriving DecidableEq, Repr

/-- The whole state of the module. -/
structure State where
  /-- commands waiting in front of the block, first in, first out -/
  pending : List Instr
  /-- device memory by device address; an unlisted byte reads 0 -/
  mem     : List Host.Cell
  /-- poisoned Treim lines, by line address -/
  poison  : Sparse Bool
  /-- bit errors that the medium holds, by 64-byte line: 512 data bits and 64 check bits (R178, R121, R235) -/
  upset   : Sparse Nat
  /-- output scale blocks of which tasks have so far written a part, by row and block: the values written (R71) -/
  openBlk : Sparse (List (Nat × FVal))
  /-- registers by window offset, each stored XOR its reset value -/
  regs    : Sparse Nat
  /-- counters by window offset of their low word -/
  ctr     : Sparse Nat
  /-- clear and peek latches of counters (R469) -/
  latch   : Sparse Nat
  /-- latches of the other latched groups (R469) -/
  glatch  : Sparse Nat
  /-- messages in flight on the course network, oldest first -/
  course  : List Flying
  /-- what has left the module, newest first -/
  out     : List Output
  /-- the model's own counter: how many free values have been taken -/
  free    : Nat
  slog    : StickyLog
  host    : HostIf
  cfg     : CfgCrc
  tiles   : Sparse Tile
  tensors : Sparse Tensor
  chans   : Sparse Channel
  stackTab  : Sparse Stack
  piers   : Sparse Pier
  /-- region descriptors in force since the last apply, by region (R200) -/
  rmap    : Sparse Nat
  /-- budgeted use in the current period (R323), by class and resource -/
  bud     : Budget
  cbl     : Corbel
  stp     : StepCtl
  tm      : TimeSt
  fab     : Fabric
  npx     : Npx
  ck      : Ckpt
  sec     : Sec
  pwr     : Pwr
  deriving DecidableEq, Repr


/-! ## Reset -/

/-- The canonical form of device memory: addresses strictly rising, and no byte listed that an unlisted address reads
as. -/
def Memory.wf (m : List Host.Cell) : Bool := swf (0 : Byte) m

/-- The host interface at reset. -/
def HostIf.init : HostIf :=
  { queues := [], orphans := [], lives := 0
    ring := { set := false, addr := 0, log2 := 0, vector := 0, head := 0, put := 0, phase := true, used := 0, lost := 0 }
    msixTable := [], msixPba := 0, dropLog := [], attachGen := 0, linkUp := false, training := false, speed := 0
    width := 0, flit := false, d3hot := false, bedWait := false, held := [], heldEvents := [], jobSeed := 0, snap := []
    snapBusy := false, snapDone := false, fatal := false, fwBusy := false }

/-- The configuration CRC at reset (Table 16-5). -/
def CfgCrc.init : CfgCrc :=
  { committed := false, mismatch := false, seen := false, adopt := false, dirty := false, running := false
    beganAfter := false, passSeq := 0, crc := 0, bcrc := [] }

/-- The corbel units at reset. -/
def Corbel.init : Corbel :=
  { placed := 0, shards := [], groups := [], flight := [], norm := Exact.zero, normWord := 0, chkF := false
    chkOver := false, chkOut := 0, contrib := [], copyAmax := [], ratio := [], lamb := [], adaCol := [], adaRow := []
    sums := [], table := [], outer := [], books := [], histo := [] }

/-- Step control at reset: IDLE with step number 0. -/
def StepCtl.init : StepCtl :=
  { rc := StepRec.zero, tCheck := 0, tCommit := 0, deadline := 0, reply := none, resumeReply := none, late := false
    seeded := false, rebased := false, boundary := false, resumed := false, localS := false, nfSlot := 0, done := []
    aborted := false, own := none, comb := none, absent := [], flagged := [], rowsSent := [], chkRun := false, updRun := false, updDone := false, comRun := false
    waitedDelta := false, waitedCkpt := false, waitedRepair := false, deltaDue := false, endWord := 0, r := 0, q := 0
    own_ := 0, members := [], queues := [], expert := [] }

/-- The fabric at reset: every port down. -/
def Fabric.init : Fabric :=
  { route := [], tx := [], rx := [], ports := [], unreach := [], probe := [], handles := [], attempt := [], since := [], buddy := 0, areaAt := 0
    area := 0 }

/-- Checkpoints and control cores at reset. -/
def Ckpt.init : Ckpt :=
  { items := [], holdS := 0, copy := none, there := [], copyNo := 0, repair := [], suspect := [], named := [], failed := 0, spare := 0 }

/-- The strap word with every strap contact open (R539). -/
def strapsOpen : Nat := 0xFCF

/-- The security island of a module new from stock, unowned, after it has booted the image it shipped with (R487,
R488, R492, log 37). -/
def Sec.init : Sec :=
  { slotA := [], slotB := [], bootIdx := 0, minSvn := 1, owner := none, rpaCnt := 0, seqMax := [], use := [], useCk := 0
    booted := 0, curSvn := 1, inForce := none, recovery := false, pufOk := true, activate := false, slots := []
    loads := []
    mr := measureBoot (leBytes 32 (Config.shippedDigest 0).toNat)
      ((List.range 4).map (fun i => leBytes 32 (Config.shippedDigest (i + 1)).toNat)) [] (leBytes 4 strapsOpen)
    extBusy := false, ctxs := [], inflight := [], cwk := 0 }

/-- Power after a cold reset whose power-up has completed: PWR_CAUSE 0x1, supplies good (R514, Table 18-6). -/
def Pwr.init : Pwr :=
  { state := 0, stage := 5, training := 0, cause := 1, k := 0, limiter := 0, samples := [], sinceUp := 0, volt := 0
    temps := [], straps := strapsOpen, prsnt := true, pwrEn := true, perst := false, auxOk := true, auxAt := 0, prsntAt := 0, enAt := 0, mainOk := true
    locate := false, fault := false, alert := false, tripped := false, last := 0, lastDie := 0, eid := 0, tid := 0
    fwPhase := 0, fwSlot := none, assembly := [], fenced := false }

/-- The module after a cold reset and its power-up (R506, R514, Table 18-3). -/
def State.reset : State :=
  { pending := [], mem := [], poison := [], upset := [], openBlk := [], regs := [], ctr := [], latch := [], glatch := [], course := [], out := []
    free := 0, slog := { first := [], ring := [], mirrored := 0 }, host := HostIf.init, cfg := CfgCrc.init, tiles := []
    tensors := []
    chans := [], stackTab := [], piers := [], rmap := []
    bud := { use := [], lent := [], pending := none, periodK := 2, nextK := none }
    cbl := Corbel.init, stp := StepCtl.init, tm := TimeSt.init, fab := Fabric.init, npx := Npx.init, ck := Ckpt.init
    sec := Sec.init, pwr := Pwr.init }

end Sys2Proof.Machine
end

