-- ==== Sys2Proof/Machine/Ops.lean ====
section
/-!
DEFINITION. The named operations every command is written with: registers and counters, line time, free values,
the sticky log, events and replies to the host, and messages on the course network.
-/
namespace Sys2Proof.Machine

/-! ## Registers and counters -/

/-- The stored value of a register at a page address (R460). -/
def getReg (s : State) (a : Nat) : Nat := sget 0 s.regs a ^^^ regReset a

/-- Store a register's value. -/
def setReg (s : State) (a v : Nat) : State := { s with regs := sput 0 s.regs a (v ^^^ regReset a) }

/-- Set field `[hi:lo]` of a register. -/
def setRegField (s : State) (a hi lo v : Nat) : State := setReg s a (putField (getReg s a) hi lo v)

/-- The value of a counter. -/
def counter (s : State) (a : Nat) : Nat := sget 0 s.ctr a

/-- Count `n` events in a counter; it saturates at 2^48 − 1 (R13). -/
def bumpN (s : State) (a n : Nat) : State := { s with ctr := sput 0 s.ctr a (satAdd 48 (counter s a) n) }

/-- Count one event. -/
def bump (s : State) (a : Nat) : State := bumpN s a 1

/-- Counters by name (offsets of the chapters' counter tables). -/
def cUnmapped : Nat := topBase + 0x100
def cWriteIgn : Nat := topBase + 0x108
def cCfgMismatch : Nat := topBase + 0x110
def cCfgDirty : Nat := topBase + 0x118
/-- Row `i` of Table 10-13. -/
def cStep (i : Nat) : Nat := topBase + 0x180 + 8 * i
/-- Row `i` of Table 14-10. -/
def cFault (i : Nat) : Nat := topBase + 0x200 + 8 * i
/-- A counter of a tile's page (Tables 4-17 and 6-8). -/
def cTil (t o : Nat) : Nat := tilBase + 0x4000 * t + o
/-- A counter of a pier's page (Table 8-12). -/
def cPln (p o : Nat) : Nat := plnBase + 0x4000 * p + o
/-- A counter of a Treim stack's page (Table 7-19). -/
def cTrm (st o : Nat) : Nat := trmBase + 0x8000 + 0x4000 * st + o
/-- A counter of a corbel stack's page (Table 9-16). -/
def cCbl (st o : Nat) : Nat := cblBase + 0x4000 + 0x4000 * st + o
/-- A counter of the host interface (Table 15-24). -/
def cHif (o : Nat) : Nat := hifBase + o
/-- A counter of the line-time unit (Table 11-10). -/
def cLtu (o : Nat) : Nat := ltuBase + o

/-! ## Line time and free values -/

/-- Line time in whole nanoseconds (Table 11-1). -/
def nsOf (s : State) : Nat := s.tm.now / 2 ^ 16

/-- The next free 32-bit value, with the counter advanced (log 1). -/
def free32 (s : State) : Nat × State := ((Config.free32 s.free).toNat, { s with free := s.free + 1 })
/-- The next free 64-bit value. -/
def free64 (s : State) : Nat × State := ((Config.free64 s.free).toNat, { s with free := s.free + 1 })
/-- The next free 256-bit value. -/
def free256 (s : State) : Nat × State := ((Config.free256 s.free).toNat, { s with free := s.free + 1 })

/-- `n` fresh free bytes. -/
def freeBytes (s : State) (n : Nat) : List Byte × State :=
  ((List.range n).map (fun i => Config.free8 (s.free * 65536 + i)), { s with free := s.free + 1 })

/-- Record something that leaves the module. -/
def emit (o : Output) (s : State) : State := { s with out := o :: s.out }

/-! ## The sticky log (R415, Table 14-3) -/

/-- A sticky log record. -/
def slogRecord (ns blk inst off addr fid task detail : Nat) : Nat :=
  (ns % 2 ^ 64) * 2 ^ 192 + (blk % 16) * 2 ^ 188 + (inst % 128) * 2 ^ 181 + (off % 4096) * 2 ^ 169
    + (addr % 2 ^ 48) * 2 ^ 112 + (fid % 2 ^ 16) * 2 ^ 96 + (task % 2 ^ 16) * 2 ^ 80 + detail % 2 ^ 80

/-- TOP_SLOG_OVWR_CNT, row 1 in Table 14-10. -/
def cSlogOvwr : Nat := cFault 1

/-- Add a record: the first 64 are kept, later ones fill a ring of 1,984 (R415). -/
def slogPut (r : Nat) (s : State) : State :=
  if s.slog.first.length < 64 then { s with slog := { s.slog with first := s.slog.first ++ [r] } }
  else if s.slog.ring.length < 1984 then { s with slog := { s.slog with ring := s.slog.ring ++ [r] } }
  else bump { s with slog := { s.slog with ring := s.slog.ring.drop 1 ++ [r] } } cSlogOvwr

/-- Log an event of block `blk`, instance `inst`, counted at page offset `off`. -/
def slogAdd (blk inst off addr fid task detail : Nat) (s : State) : State :=
  slogPut (slogRecord (nsOf s) blk inst off addr fid task detail) s

/-- Log an event that concerns no fabric ID. -/
def slog (blk inst off addr task detail : Nat) (s : State) : State := slogAdd blk inst off addr 0xFFFF task detail s

/-- Count a row of Table 14-10 and enter it in the sticky log (R415). -/
def faultEvent (i inst task detail : Nat) (s : State) : State :=
  slog 0 inst (0x200 + 8 * i) 0 task detail (bump s (cFault i))

/-- FAB_BUDDY.CKPT_TO, the holder of this module's checkpoint. -/
def ckptTo (s : State) : Nat := field (getReg s (fabBase + 0xC)) 31 16

/-- A copy pauses: counted (R425). One whose frames are discarded, or not yet sent, starts again from its first stage. -/
def pauseCopy (lost : Bool) (s : State) : State :=
  match s.ck.copy with
  | some c => if c.paused then s else
      faultEvent 10 0 0 0 { s with ck := { s.ck with
        copy := some { c with paused := true, check := nsOf s, stage := if lost then 0 else c.stage } } }
  | none => s

/-! ## Host memory and interrupts (R437, R438) -/

/-- Base, limit and enable of DMA window `n` (Table 15-23). -/
def dmaWindow (s : State) (n : Nat) : Nat × Nat × Bool :=
  let r (o : Nat) := getReg s (hifBase + 0x40 + 16 * n + o)
  (r 4 * 2 ^ 32 + r 0 / 4096 * 4096, r 12 * 2 ^ 32 + r 8 / 4096 * 4096 + 4095, (r 0).testBit 0)

/-- A host range lies wholly inside one enabled window (R437). -/
def dmaOk (s : State) (addr len : Nat) : Bool :=
  (List.range 12).any (fun n =>
    let (b, l, en) := dmaWindow s n
    en && decide (b ≤ addr) && decide (addr + len ≤ l + 1))

/-- Write bytes to host memory. -/
def hostWrite (addr : Nat) (data : List Byte) (s : State) : State := emit (.hostWrite addr data) s

/-- Send an interrupt message, or set its pending bit while the vector is masked. -/
def signal (v : Nat) (s : State) : State :=
  if (sget 0 s.host.msixTable v).testBit 96 then
    { s with host := { s.host with msixPba := s.host.msixPba ||| 2 ^ v } }
  else emit (.msix v) s

/-- The queue pair `q`. -/
def queueOf (s : State) (q : Nat) : Queue := sget Queue.none s.host.queues q

/-- Replace queue pair `q`. -/
def setQueue (s : State) (q : Nat) (v : Queue) : State :=
  { s with host := { s.host with queues := sput Queue.none s.host.queues q v } }

/-! ## Events (R446) -/

/-- A record of the layout of Table 15-4. -/
def replyWord (phase : Bool) (ns detail status tag : Nat) : Nat :=
  bit phase * 2 ^ 127 + (ns % 2 ^ 63) * 2 ^ 64 + (detail % 2 ^ 32) * 2 ^ 32 + (status % 2 ^ 16) * 2 ^ 16 + tag % 2 ^ 16

/-- Write one event record to the ring. -/
def eventWrite (code detail source : Nat) (s : State) : State :=
  let r := s.host.ring
  let s := hostWrite (r.addr + 16 * r.put) (leBytes 16 (replyWord r.phase (nsOf s) detail code source)) s
  let wrap := r.put + 1 = 2 ^ r.log2
  signal r.vector { s with host := { s.host with ring := { r with put := if wrap then 0 else r.put + 1
                                                                  phase := if wrap then !r.phase else r.phase
                                                                  used := r.used + 1 } } }

/-- Post an event: counted and not kept when the ring is full (R446); in D3hot up to 256 wait, and further ones are
counted (R517). -/
def postEvent (code detail source : Nat) (s : State) : State :=
  let r := s.host.ring
  if !r.set then s
  else if s.host.d3hot then
    if s.host.heldEvents.length < 256 then
      { s with host := { s.host with heldEvents := s.host.heldEvents ++ [(code, detail, source)] } }
    else bump s (cHif 0x138)
  else if r.used < 2 ^ r.log2 ∧ dmaOk s (r.addr + 16 * r.put) 16 then eventWrite code detail source s
  else
    let s := bump s (cHif 0x138)
    { s with host := { s.host with ring := { r with lost := satAdd 32 r.lost 1 } } }

/-- Post the record of lost events once space returns (R446, event 0x0010). -/
def eventSpace (s : State) : State :=
  let r := s.host.ring
  if r.set ∧ !s.host.d3hot ∧ 0 < r.lost ∧ r.used < 2 ^ r.log2 then
    let s := eventWrite 0x0010 r.lost (0xA * 0x1000) s
    { s with host := { s.host with ring := { s.host.ring with lost := 0 } } }
  else s

/-! ## Replies (R444, R452) -/

/-- The line time a reply carries: that of its completion, or of a late begin (R33, R444). -/
def replyNs (s : State) (r : ReplyTo) : Nat := r.begun.getD (nsOf s)

/-- Enter a reply in the discarded-reply log, which keeps the newest 256 (R452). -/
def dropReply (r : ReplyTo) (status detail : Nat) (s : State) : State :=
  let w := replyWord false (replyNs s r) detail status r.tag
  let log := s.host.dropLog
  let s := bump s (cHif 0x110)
  let s := if log.length < 256 then s else bump s (cHif 0x110)
  let s := { s with host := { s.host with
    dropLog := (if log.length < 256 then log else log.drop 1) ++ [(w, r.queue, r.opcode)] } }
  postEvent 0x0011 (r.tag * 2 ^ 16 + status) r.queue s

/-- The reply's queue still exists as the command left it. -/
def replyLive (s : State) (r : ReplyTo) : Bool :=
  let q := queueOf s r.queue
  q.enabled && decide (q.life = r.life)

/-- Write a reply to its completion ring, and signal it (R438, R444). -/
def writeReply (r : ReplyTo) (status detail : Nat) (s : State) : State :=
  let q := queueOf s r.queue
  let addr := q.cq + 16 * q.cqPut
  if !dmaOk s addr 16 then dropReply r status detail (bump s (cHif 0x118))
  else
    let s := hostWrite addr (leBytes 16 (replyWord q.phase (replyNs s r) detail status r.tag)) s
    let wrap := q.cqPut + 1 = 2 ^ q.log2
    let n := q.unsignalled + 1
    let fire := decide (q.coalN = 0) || decide (q.coalN ≤ n)
    let s := setQueue s r.queue { q with cqPut := if wrap then 0 else q.cqPut + 1
                                         phase := if wrap then !q.phase else q.phase
                                         used := q.used + 1, unsignalled := if fire then 0 else n
                                         since := if q.unsignalled = 0 then nsOf s else q.since }
    if fire then signal q.vector s else s

/-- A fetched command of the queue has been answered. -/
def answered (r : ReplyTo) (deferred : Bool) (s : State) : State :=
  if replyLive s r then
    let q := queueOf s r.queue
    setQueue s r.queue { q with unposted := q.unposted - 1
                                deferred := if deferred then q.deferred - 1 else q.deferred }
  else s

/-- Complete a command: count it, and post, send or drop its reply (R440, R444, R452, R456, R459). -/
def postReply (r : ReplyTo) (deferred : Bool) (status detail : Nat) (s : State) : State :=
  let s := answered r deferred (bump s (cHif 0x100))
  if r.mctp then emit (.mctp (leBytes 16 (replyWord false (replyNs s r) detail status r.tag))) s
  else if r.quiet ∧ status = 0 then s
  else if !replyLive s r then dropReply r status detail s
  else if s.host.d3hot then { s with host := { s.host with held := s.host.held ++ [(r, status, detail)] } }
  else writeReply r status detail s

/-! ## Pins of the management controller (R538, R541) and the thermal fence (R429, R522) -/

/-- ALERT_L is asserted until the bus owner has read the address (R541); contact S20. -/
def raiseAlert (s : State) : State :=
  if s.pwr.alert then s else emit (.pin 20 false) { s with pwr := { s.pwr with alert := true } }

/-- FAULT_L is asserted (R538). -/
def faultNow (s : State) : Bool := s.host.fatal || s.pwr.fenced || s.sec.recovery || s.pwr.tripped

/-- Drive FAULT_L, contact S19; a change is a platform event (R541). -/
def updateFault (s : State) : State :=
  if faultNow s = s.pwr.fault then s
  else raiseAlert (emit (.pin 19 (!faultNow s)) { s with pwr := { s.pwr with fault := faultNow s } })

/-- What keeps the module thermally fenced: a stack stopped, stopping or with its content lost, or a die at its
critical level. -/
def fenceHolds (s : State) : Bool :=
  (List.range 8).any (fun k =>
      let st := sget Stack.init s.stackTab k
      decide (st.level = 3) || st.stopped || st.stopping || st.contentLost)
    || (List.range 9).any (fun d => decide ((sget (0, 0) s.pwr.temps d).2 = 3))

/-- Lift the fence once nothing holds it, with event 0x000A. -/
def liftFence (mask : Nat) (s : State) : State :=
  if s.pwr.fenced && !fenceHolds s then
    updateFault (postEvent 0x000A mask 0 { s with pwr := { s.pwr with fenced := false } })
  else s

/-! ## The course network (R102 to R112) -/

/-- A token (Table 4-11). -/
def tokenWord (dest slot kind src : Nat) (gen : Bool) (value : Nat) : W64 :=
  BitVec.ofNat 64 ((dest % 256) * 2 ^ 56 + (slot % 64) * 2 ^ 50 + (kind % 4) * 2 ^ 48 + (src % 256) * 2 ^ 40
    + bit gen * 2 ^ 32 + value % 2 ^ 32)

/-- A credit message (Table 4-13). -/
def creditWord (dest pool : Nat) (gen : Bool) (count : Nat) : W32 :=
  BitVec.ofNat 32 ((dest % 256) * 2 ^ 24 + (pool % 32) * 2 ^ 19 + bit gen * 2 ^ 18 + count % 2 ^ 16)

/-- Fields of a token. -/
def tokDest (w : W64) : Nat := field w.toNat 63 56
def tokSlot (w : W64) : Nat := field w.toNat 55 50
def tokKind (w : W64) : Nat := field w.toNat 49 48
def tokSrc (w : W64) : Nat := field w.toNat 47 40
def tokGen (w : W64) : Bool := flag w.toNat 32
def tokValue (w : W64) : Nat := field w.toNat 31 0

/-- Source and destination of a message. -/
def Msg.ends : Msg → Nat × Nat
  | .token w => (tokSrc w, tokDest w)
  | .credit src w => (src.toNat, field w.toNat 31 24)

/-- Put a message on the course network, from a task for which the seeded scales of `know` are in force. -/
def sendKnow (know : List Nat) (m : Msg) (s : State) : State := { s with course := s.course ++ [{ msg := m, know := know }] }

/-- Put a message on the course network. -/
def send (m : Msg) (s : State) : State := sendKnow [] m s

/-- Send a token. -/
def sendToken (dest slot kind src : Nat) (gen : Bool) (value : Nat) (s : State) : State :=
  send (.token (tokenWord dest slot kind src gen value)) s

/-- The messages before the first occurrence of `m`, what that one carries, and those after it. -/
def splitAt (m : Msg) : List Flying → Option (List Flying × List Nat × List Flying)
  | [] => none
  | x :: xs => if x.msg = m then some ([], x.know, xs) else (splitAt m xs).map (fun p => (x :: p.1, p.2))

/-- Messages in flight to an endpoint. -/
def inFlight (s : State) (dest : Nat) : Nat := (s.course.filter (fun x => x.msg.ends.2 = dest)).length

/-- What a message that reaches its destination finds: the state without it, what it carries, and how many others were
on their way to that destination. -/
structure Arrived where
  s    : State
  know : List Nat
  near : Nat
  deriving DecidableEq, Repr

/-- A message reaches its destination: it leaves the network, unless an earlier message of the same source to the
same destination is still in flight (R111), in which case it has not arrived yet. A message the model did not send
is taken as sent by the unit it names. -/
def arriveFrom (m : Msg) (s : State) : Option Arrived :=
  match splitAt m s.course with
  | none => some { s := s, know := [], near := inFlight s m.ends.2 }
  | some (before, know, after) =>
    if before.any (fun x => x.msg.ends = m.ends) then none
    else some { s := { s with course := before ++ after }, know := know, near := inFlight s m.ends.2 - 1 }

/-- The state once a message has reached a destination that needs no more of it. -/
def arrive (m : Msg) (s : State) : Option State := (arriveFrom m s).map Arrived.s

/-- The tile `t`. -/
def tileOf (s : State) (t : Nat) : Tile := sget Tile.init s.tiles t

/-- Replace tile `t`. -/
def setTile (s : State) (t : Nat) (v : Tile) : State := { s with tiles := sput Tile.init s.tiles t v }

/-- The tensor record of `tid` (R59). -/
def tensorOf (s : State) (tid : Nat) : Tensor := sget Tensor.init s.tensors tid

/-- Replace the tensor record of `tid`. -/
def setTensor (s : State) (tid : Nat) (v : Tensor) : State := { s with tensors := sput Tensor.init s.tensors tid v }

/-- Count into a tensor's statistics record (R67). -/
def statTensor (tid sat nf crush : Nat) (s : State) : State :=
  let t := tensorOf s tid
  setTensor s tid { t with satCnt := satAdd 48 t.satCnt sat, nfCnt := satAdd 48 t.nfCnt nf
                           crushCnt := satAdd 48 t.crushCnt crush }

/-- The stack `k`. -/
def stackOf (s : State) (k : Nat) : Stack := sget Stack.init s.stackTab k
/-- Replace stack `k`. -/
def setStack (s : State) (k : Nat) (v : Stack) : State := { s with stackTab := sput Stack.init s.stackTab k v }
/-- The global channel `g`. -/
def chanOf (s : State) (g : Nat) : Channel := sget Channel.init s.chans g
/-- Replace global channel `g`. -/
def setChan (s : State) (g : Nat) (v : Channel) : State := { s with chans := sput Channel.init s.chans g v }
/-- The pier `p`. -/
def pierOf (s : State) (p : Nat) : Pier := sget Pier.init s.piers p
/-- Replace pier `p`. -/
def setPier (s : State) (p : Nat) (v : Pier) : State := { s with piers := sput Pier.init s.piers p v }

/-- The module's current generation (R243). -/
def genOf (s : State) : Bool := s.stp.rc.gen

/-- The generation a tile sends with: that of its step-begin token, or the module's before the first one. -/
def tileGen (s : State) (t : Nat) : Bool := (tileOf s t).gen.getD (genOf s)

/-- A control token from a tile to the control complex (Table 4-14). -/
def tileControl (t slot v : Nat) (s : State) : State := sendToken 0x6D slot 2 t (tileGen s t) v s

/-- The tile is fenced. -/
def Tile.isFenced (t : Tile) : Bool := t.mode = .fenced

/-- Fence a tile: engines stop, unwritten data is discarded, the cause and task are recorded and the control complex
is told (R114). A fenced tile keeps its first cause. -/
def fenceTile (t cause task : Nat) (s : State) : State :=
  let ti := tileOf s t
  if ti.isFenced then s
  else
    let task := if cause = 4 ∨ cause = 6 then 0 else task
    let s := setTile s t { ti with mode := .fenced, cause := cause, faultTask := task, matrix := none, vector := none
                                   move := none, send := none }
    tileControl t 0 0x12 (slog 3 t 0 0 0 (cause * 2 ^ 13 + task) s)

/-- The task index running on a tile when a fault is detected: the lowest engine's first. -/
def runningTask (ti : Tile) : Nat :=
  match ti.matrix, ti.vector, ti.move, ti.send with
  | some r, _, _, _ => r.task
  | none, some r, _, _ => r.task
  | none, none, some r, _ => r.task
  | none, none, none, some r => r.task
  | none, none, none, none => 0

/-- Fields of a gather descriptor (Table 15-10). -/
def gdHandle (w : Nat) : Nat := field w 111 96
def gdPages (w : Nat) : Nat := field w 95 88
def gdSlot (w : Nat) : Nat := field w 87 82
def gdKeep (w : Nat) : Bool := flag w 81
def gdEp (w : Nat) : Nat := field w 80 73
def gdReply (w : Nat) : Nat := field w 72 67

/-- A step is active: begun and not ended (Table 10-1). -/
def stepActive (s : State) : Bool := decide (1 ≤ s.stp.rc.state ∧ s.stp.rc.state ≤ 5)

/-- A resumption is pending (R267). -/
def resumePending (s : State) : Bool := decide (s.stp.rc.state = 6 ∨ s.stp.rc.state = 7)

/-- Raise the step's non-finite slot from endpoint `src` (R282). -/
def raiseNonfinite (src : Nat) (s : State) : State := sendToken 0x6D 1 0 src (genOf s) 1 s

end Sys2Proof.Machine
end

