-- ==== Sys2Proof/Machine/Mem.lean ====
section
/-!
DEFINITION. Device memory: the address map (R21 to R29), Treim placement (R193 to R204), what reads as poison, who may
access what, and the activity budgets accesses are charged to. Machine/Access.lean holds the accesses themselves.
-/
namespace Sys2Proof.Machine

/-! ## Plain bytes -/

/-- The byte of device memory at an address. -/
def byteAt (s : State) (a : Nat) : Byte := sget (0 : Byte) s.mem a

/-- `n` bytes from an address. -/
def bytesAt (s : State) (a n : Nat) : List Byte := (List.range n).map (fun i => byteAt s (a + i))

/-- Write one byte. -/
def putByte (m : List Host.Cell) (a : Nat) (b : Byte) : List Host.Cell := sput (0 : Byte) m a b

/-- Write bytes from an address, lowest first. -/
def putBytesAt (m : List Host.Cell) (a : Nat) : List Byte → List Host.Cell
  | [] => m
  | b :: bs => putBytesAt (putByte m a b) (a + 1) bs

/-- Store bytes in device memory, with no check. -/
def storeBytes (s : State) (a : Nat) (bs : List Byte) : State := { s with mem := putBytesAt s.mem a bs }

/-- The little-endian value of `n` bytes of memory. -/
def loadLe (s : State) (a n : Nat) : Nat := leNat (bytesAt s a n)

/-! ## The address map -/

/-- Where an address lies (R21). -/
inductive Place where
  | treim (region : Nat)
  | plinth (pier region page : Nat)
  | tileMem (tile off : Nat)
  | register (off : Nat)
  | unmapped
  deriving DecidableEq, Repr

/-- The decode of R21. -/
def classify (a : Nat) : Place :=
  if a < 0x008000000000 then .treim (a / 2 ^ 30)
  else if a < 0x008040000000 then
    let off := a % 0x10000000
    if off ≥ 0x0C000000 then .unmapped
    else .plinth (a / 0x10000000 % 4) (off / 0x400000) (off / 0x10000 % 64)
  else if 0x009000000000 ≤ a ∧ a < 0x009018000000 then
    let off := a % 0x400000
    if off < 0x380000 then .tileMem ((a - 0x009000000000) / 0x400000) off else .unmapped
  else if 0x00A000000000 ≤ a ∧ a < 0x00A004000000 then .register (a - 0x00A000000000)
  else .unmapped

/-- Device address of byte `off` of tile `t`'s slot (R27). -/
def tileAddr (t off : Nat) : Nat := 0x009000000000 + t * 0x400000 + off

/-- Device address of a plinth page (R26). -/
def pageAddrOf (pier region page : Nat) : Nat := 0x008000000000 + pier * 0x10000000 + region * 0x400000 + page * 0x10000

/-- Device address of byte `off` of stack `k`'s firmware region (R25). -/
def fwAddr (k off : Nat) : Nat := 0x007E00000000 + k * 0x40000000 + off

/-! ## Treim regions and placement -/

/-- The descriptor in force of a region (Table 7-13): mode, stack, braced, fabric-writable. -/
def regionOf (s : State) (n : Nat) : Nat :=
  if 504 ≤ n then (if (stackOf s (n - 504)).applied then 0x84000000 + (n - 504) * 2 ^ 27 else 0)
  else sget 0 s.rmap n

/-- Mode of a region in force: 0 unused, 1 global, 2 stack-local. -/
def regionMode (s : State) (n : Nat) : Nat := field (regionOf s n) 31 30
/-- Stack of a stack-local region. -/
def regionStack (s : State) (n : Nat) : Nat := field (regionOf s n) 29 27
/-- The region is braced. -/
def regionBraced (s : State) (n : Nat) : Bool := flag (regionOf s n) 26
/-- The region is fabric-writable. -/
def regionFabw (s : State) (n : Nat) : Bool := flag (regionOf s n) 25

/-- Channels of a stack in the map. -/
def mapChans (s : State) (k : Nat) : List Nat := (List.range 128).filter (fun c => !(stackOf s k).mapx.testBit c)

/-- Map channels of brace group `b` of stack `k` (R193). -/
def groupChans (s : State) (k b : Nat) : List Nat := (mapChans s k).filter (fun c => c / 16 = b)

/-- The stacks a region spans. -/
def regionStacks (s : State) (n : Nat) : List Nat :=
  match regionMode s n with
  | 1 => List.range 8
  | 2 => [regionStack s n]
  | _ => []

/-- An entry of a slot list (R196): a channel, or the `j`-th data channel of a brace group. -/
inductive SlotEntry where
  | chan (stack c : Nat)
  | brace (stack b j : Nat)
  deriving DecidableEq, Repr

/-- The slot list of a descriptor (R196). -/
def slotList (s : State) (mode stack : Nat) (braced : Bool) : List SlotEntry :=
  let stackTab := if mode = 1 then List.range 8 else [stack]
  if braced then
    (List.range 15).flatMap (fun j => (List.range 8).flatMap (fun b => stackTab.filterMap (fun k =>
      if j + 2 ≤ (groupChans s k b).length then some (.brace k b j) else none)))
  else
    (List.range 128).flatMap (fun c => stackTab.filterMap (fun k =>
      if (stackOf s k).mapx.testBit c then none else some (.chan k c)))

/-- Stripe rows of a region over `n` slots (R198). -/
def regionRows (n : Nat) : Nat := ceilDiv (2 ^ 21) n

/-- Where a Treim line lies: stack, channel and granule index q (R197). -/
def placeOf (s : State) (a : Nat) : Option (Nat × Nat × Nat) :=
  let rg := a / 2 ^ 30
  let g := a % 2 ^ 30 / 512
  let l : List SlotEntry := slotList s (regionMode s rg) (regionStack s rg) (regionBraced s rg)
  let n := l.length
  if n = 0 ∨ regionMode s rg = 0 then none
  else
    let r := g / n
    let slot := (g % n + (r * 0x9E3779B1) % 2 ^ 32 % n) % n
    match (l[slot]? : Option SlotEntry) with
    | some (.chan k c) => some (k, c, sget 0 (stackOf s k).base rg - 1 + r)
    | some (.brace k b j) =>
      let cs := groupChans s k b
      let p := (r + b) % cs.length
      (((cs.take p) ++ (cs.drop (p + 1)))[j]?).map (fun c => (k, c, sget 0 (stackOf s k).base rg - 1 + r))
    | none => none

/-- The other channels of a braced line's stripe: its brace group but for its own channel (R193, R199). -/
def stripeMates (s : State) (k c : Nat) : List Nat := (groupChans s k (c / 16)).filter (· ≠ c)

/-- A channel is lost (R203). -/
def chanLost (s : State) (k c : Nat) : Bool := (stackOf s k).lost.testBit c

/-- Braced data granules of stack `k`'s channel `c` below granule index `q` (R204): rows of each braced region that do
not hold the channel's parity. -/
def bracedBelow (s : State) (k c q : Nat) : Nat :=
  let cs := groupChans s k (c / 16)
  let m := cs.length
  let off := (cs.findIdx (· = c) + m - c / 16 % m) % m
  ((504 + k) :: (s.rmap.map Prod.fst)).foldl (fun a n =>
    if regionBraced s n && (regionStacks s n).contains k then
      let b := sget 0 (stackOf s k).base n
      let rows := min (regionRows (slotList s (regionMode s n) (regionStack s n) true).length) (q - (b - 1))
      if b = 0 then a else a + (rows - (rows + m - 1 - off) / m)
    else a) 0

/-- The channel whose reserve holds a rebuilt granule (R204). -/
def reserveChan (s : State) (k c q : Nat) : Nat :=
  let mates := stripeMates s k c
  mates.getD (bracedBelow s k c q % mates.length) c

/-- The granule index of a rebuilt granule in that reserve (R204). -/
def reserveRow (s : State) (k c q : Nat) : Nat :=
  2 ^ 20 - (stackOf s k).rsv + bracedBelow s k c q / (stripeMates s k c).length

/-- The braced data of a lost channel has been rebuilt into the reserve (R204). -/
def chanRebuilt (s : State) (k c : Nat) : Bool := chanLost s k c && (chanOf s (k * 128 + c)).rebuilt

/-- Where a Treim line is read and written: its own channel, or the reserve once its lost channel has been rebuilt
(R197, R204). -/
def servedBy (s : State) (a : Nat) : Option (Nat × Nat × Nat) :=
  (placeOf s a).map (fun p =>
    if regionBraced s (a / 2 ^ 30) && chanRebuilt s p.1 p.2.1 then
      (p.1, reserveChan s p.1 p.2.1 p.2.2, reserveRow s p.1 p.2.1 p.2.2)
    else p)

/-- Addresses of the data granules of the stripe that a braced address lies in (R193, R197). -/
def stripeGranules (s : State) (a : Nat) : List Nat :=
  let rg := a / 2 ^ 30
  let l : List SlotEntry := slotList s (regionMode s rg) (regionStack s rg) (regionBraced s rg)
  let n := l.length
  let r := a % 2 ^ 30 / 512 / n
  let rot := (r * 0x9E3779B1) % 2 ^ 32 % n
  let granule (slot : Nat) : Nat := r * n + (slot + n - rot) % n
  match placeOf s a with
  | none => []
  | some (k, c, _) =>
    ((List.range n).filter (fun i => match (l[i]? : Option SlotEntry) with
        | some (.brace k' b _) => decide (k' = k) && decide (b = c / 16)
        | _ => false)).filterMap (fun i =>
      if granule i < 2 ^ 21 then some (rg * 2 ^ 30 + granule i * 512) else none)

/-- Nothing can be read from or written to a line placed at (k, c, q): its stack's contents are lost (R209), its unbraced
channel is lost (R205), or its braced channel is lost and a channel that would stand in for it is lost too (Table 7-11). -/
def lineGone (s : State) (a k c q : Nat) : Bool :=
  (stackOf s k).contentLost ||
  (chanLost s k c &&
    (if !regionBraced s (a / 2 ^ 30) then true
     else if chanRebuilt s k c then chanLost s k (reserveChan s k c q)
     else (stripeMates s k c).any (chanLost s k)))

/-- A line reads poison: it was poisoned, or it is gone. -/
def linePoison (s : State) (a : Nat) : Bool :=
  sget false s.poison (a / 64) || (placeOf s a).any (fun p => lineGone s a p.1 p.2.1 p.2.2)

/-- Mark or clear a line's poison. -/
def setPoison (s : State) (a : Nat) (p : Bool) : State := { s with poison := sput false s.poison (a / 64) p }

/-! ## Who may access what (R22 to R29, R224, R234) -/

/-- The agents that access device memory. -/
inductive Agent where
  /-- a tile task, with its program's domain -/
  | tile (t dom : Nat)
  | corbel (stack : Nat)
  | host
  | fabric
  /-- the lintel die on behalf of firmware, a collective or an agent -/
  | lintel
  deriving DecidableEq, Repr

/-- Holder domain plus 1, and SHARED, of a plinth page; (0, false) when it is free. -/
def pageHolder (s : State) (p r g : Nat) : Nat × Bool := sget (0, false) (pierOf s p).pages (r * 64 + g)

/-- The plinth region is in scratchpad mode. -/
def isScratch (s : State) (p r : Nat) : Bool := (pierOf s p).modes.getD r 0 = 1

/-- The agent may reach the address; any other access is unmapped (R22). -/
def mayAccess (s : State) (ag : Agent) (a : Nat) : Bool :=
  match classify a with
  | .treim n =>
    if regionMode s n = 0 then false
    else match ag with
      | .tile _ _ => decide (n < 504)
      | .corbel k => regionMode s n = 2 && regionStack s n = k
      | .host => decide (n < 504)
      | .fabric => decide (n < 504) && regionFabw s n
      | .lintel => true
  | .plinth p r g =>
    let (h, sh) := pageHolder s p r g
    if !isScratch s p r then false
    else match ag with
      | .tile _ d => decide (r ≠ 47) && (decide (h = d + 1) || (sh && decide (1 ≤ h) && decide (h ≤ 12)))
      | .corbel _ => false
      | .host => decide (r ≠ 47) && decide (1 ≤ h) && decide (h ≤ 12)
      | .fabric => decide (r ≠ 47) && decide (1 ≤ h) && decide (h ≤ 12)
      | .lintel => decide (r = 47) || decide (1 ≤ h)
  | .tileMem _ _ =>
    match ag with
    | .corbel _ => false
    | .fabric => false
    | _ => true
  | .register _ => false
  | .unmapped => false

/-- The 64-byte lines a range touches. -/
def linesOf (a n : Nat) : List Nat :=
  if n = 0 then [] else (List.range ((a + n - 1) / 64 - a / 64 + 1)).map (fun i => (a / 64 + i) * 64)

/-- Every line of a range is reachable. -/
def rangeMapped (s : State) (ag : Agent) (a n : Nat) : Bool := (linesOf a n).all (mayAccess s ag)

/-! ## Budgets (R320 to R326) -/

/-- The budget period in force, ns (R320). -/
def periodNs (s : State) : Nat := 2 ^ (11 + s.bud.periodK)

/-- The budgeted resources (Table 11-5). -/
inductive Resource where
  | channel (g : Nat)
  | corbel (g : Nat)
  | plinth (p : Nat)
  | fabric (port : Nat)
  deriving DecidableEq, Repr

/-- The instance number of a resource's buckets. -/
def Resource.inst : Resource → Nat
  | .channel g => g
  | .corbel g => 1024 + g
  | .plinth p => 2048 + p
  | .fabric p => 2064 + p

/-- The share column of a resource: channel, corbel, plinth, or a port's fabric profile (R323). -/
def Resource.column (s : State) : Resource → Nat
  | .channel _ => 0
  | .corbel _ => 1
  | .plinth _ => 2
  | .fabric p => 3 + getReg s (bgtBase + 0x200) / 4 ^ p % 4

/-- Capacity S of a resource in one period of `p` ns (Table 11-5). -/
def Resource.capacity (p : Nat) : Resource → Nat
  | .channel _ => p * 2 / 5
  | .corbel _ => p * 4 / 5
  | .plinth _ => 48 * (p * 7 / 4)
  | .fabric _ => p * 100 / 64

/-- A stack is served as at the hot level: it is at it, or its base die is hot (R325, Table 18-7). -/
def stackHot (s : State) (k : Nat) : Bool :=
  (stackOf s k).level = 2 || decide (2 ≤ (sget (0, 0) s.pwr.temps (4 + k / 2)).2)

/-- The resource is capped: its stack is hot (R325). -/
def Resource.hot (s : State) : Resource → Bool
  | .channel g => stackHot s (g / 128)
  | .corbel g => stackHot s (g / 128)
  | _ => false

/-- GUAR and CEIL of a class on a resource. -/
def shareOf (s : State) (r : Resource) (c : Nat) : Nat × Nat :=
  let w := getReg s (shareAddr (r.column s) c)
  (field w 31 24, field w 23 15)

/-- The class is withdrawn from the resource (R326). -/
def withdrawn (s : State) (r : Resource) (c : Nat) : Bool := shareOf s r c = (0, 0)

/-- Tokens a class's bucket starts a period with, and its limit (R323, R325). -/
def bucketOf (s : State) (r : Resource) (c : Nat) : Nat × Nat :=
  let (g, l) := shareOf s r c
  let cap := r.capacity (periodNs s)
  let half (x : Nat) : Nat := if r.hot s && decide (c < 14) then x / 2 else x
  (half (g * cap / 256), half (l * cap / 256))

/-- The unreserved pool of a resource (R323, R325). -/
def unreserved (s : State) (r : Resource) : Nat :=
  let cap := r.capacity (periodNs s)
  let sum := (List.range 16).foldl (fun a c => a + (shareOf s r c).1 * cap / 256) 0
  if r.hot s then (cap - sum) / 2 else cap - sum

/-- Charge `n` units to a class: from its bucket, then from the unreserved pool up to its limit; what finds no token
waits for the next boundary and is counted once (R323). The data effect of the access is not delayed (log 20). -/
def charge (c : Nat) (r : Resource) (n : Nat) (s : State) : State :=
  if n = 0 then s
  else
    let key := r.inst * 16 + c
    let used := sget 0 s.bud.use key
    let lent := sget 0 s.bud.lent r.inst
    let (g, l) := bucketOf s r c
    let own := min n (g - used)
    let lend := min (n - own) (min (l - (used + own)) (unreserved s r - lent))
    let s := { s with bud := { s.bud with use := sput 0 s.bud.use key (used + own + lend)
                                          lent := sput 0 s.bud.lent r.inst (lent + lend) } }
    let s := if lend = 0 then s else bumpN s (bgtBase + 0x408 + 16 * c) lend
    if own + lend < n then bump s (bgtBase + 0x400 + 16 * c) else s

/-- The channel resource of an access: a corbel unit takes corbel slots (Table 11-5). -/
def chanRes (corbel : Bool) (k c : Nat) : Resource := if corbel then .corbel (k * 128 + c) else .channel (k * 128 + c)

/-- Charge one line's access to its Treim channel. -/
def chargeLine (c : Nat) (corbel : Bool) (l n : Nat) (s : State) : State :=
  match servedBy s l with
  | some (k, ch, _) => charge c (chanRes corbel k ch) n s
  | none => s

/-- The pier whose plinth an access passes: that of a plinth page, and the home pier of a global Treim line (R220). -/
def plinthOf (s : State) (l : Nat) : Option Nat :=
  match classify l with
  | .plinth p _ _ => some p
  | .treim rg => if regionMode s rg = 1 then (placeOf s l).map (fun q => q.1 / 2) else none
  | _ => none

/-- Charge the plinth bandwidth of a range, in units of 128 bytes (R219). -/
def chargePlinth (c a n : Nat) (s : State) : State :=
  ((linesOf a n).filter (fun l => decide (l % 128 = 0) || decide (l = a / 64 * 64))).foldl (fun s l =>
    match plinthOf s l with
    | some p => charge c (.plinth p) 1 s
    | none => s) s

/-- Charge a range of memory whose lines are each accessed once: channel slots (corbel slots for a corbel unit) and
plinth bandwidth. -/
def chargeRange (c : Nat) (corbel : Bool) (a n : Nat) (s : State) : State :=
  (linesOf a n).foldl (fun s l => chargeLine c corbel l 1 s) (if corbel then s else chargePlinth c a n s)

/-- A range touches a resource its class is withdrawn from (R326). -/
def rangeWithdrawn (s : State) (c a n : Nat) : Bool :=
  (linesOf a n).any (fun l => (servedBy s l).any (fun p => withdrawn s (.channel (p.1 * 128 + p.2.1)) c)
    || (plinthOf s l).any (fun p => withdrawn s (.plinth p) c))

/-- Count an unmapped access and record its address (R22). -/
def countUnmapped (a : Nat) (s : State) : State := slog 0 0 0x100 a 0 0 (bump s cUnmapped)

end Sys2Proof.Machine
end

