-- ==== Sys2Proof/Machine/Ecc.lean ====
section
/-!
DEFINITION. Reads of Treim lines through the line code (R178 to R183, R192, R199): what the medium's bit errors make of
a line, its rebuilding from its stripe, its write-back or poisoning, and what is counted, logged and charged.
-/
namespace Sys2Proof.Machine

/-! ## Marks and repair lists -/

/-- The shard on stack `k` that holds an address of its weights, moments, block records or reduction buffer (R417). -/
def shardHolds (sh : Shard) (a : Nat) : Bool :=
  let n := field sh.desc 175 144
  let inside (b len : Nat) : Bool := decide (b ≠ 0) && decide (b ≤ a) && decide (a < b + len)
  inside (field sh.desc 511 464) (4 * n) || inside (field sh.desc 463 416) (4 * n)
    || inside (field sh.desc 415 368) (4 * n) || inside (field sh.desc 367 320) (8 * n + 16 * ceilDiv n 1024)
    || inside (field sh.desc 271 224) (8 * ceilDiv n 1024)

/-- A read returned a decode result other than good: set the ECC mark of the shards that hold the line (R417). -/
def markEcc (a : Nat) (s : State) : State :=
  { s with cbl := { s.cbl with shards := s.cbl.shards.map (fun p =>
      (p.1, p.2.map (fun sh => if shardHolds sh a then { sh with eccMark := true } else sh))) } }

/-- The DRAM row of a granule, as the repair list names it (R175). -/
def dramRow (c q : Nat) : Nat := c * 2 ^ 19 + q % 32 * 2 ^ 14 + q / 64

/-- Enter a row in a stack's repair list; the list holds 256 (R183). -/
def repairAdd (k row : Nat) (s : State) : State :=
  let st := stackOf s k
  if st.repair.contains row then s
  else if st.repair.length < 256 then setStack s k { st with repair := st.repair ++ [row] }
  else bump s (cTrm k 0x180)

/-- Make a retrain of a channel due not before a line time; an earlier request stands. -/
def requestRetrain (g ns : Nat) (s : State) : State :=
  let c := chanOf s g
  setChan s g { c with weak := true, due := some (match c.due with
    | some d => min d ns
    | none => ns) }

/-- A corrected line: counted, its row tracked for repair, and its channel for a retrain (R183, R190). -/
def correctedLine (k c q a : Nat) (s : State) : State :=
  let s := bump s (cTrm k 0x100)
  let st := stackOf s k
  let row := dramRow c q
  let ls := sget [] st.ceRows row
  let ls := if ls.contains (a / 64) then ls else ls ++ [a / 64]
  let s := setStack s k { st with ceRows := sput [] st.ceRows row ls }
  let s := if 4 ≤ ls.length then repairAdd k row s else s
  let g := k * 128 + c
  let ch := chanOf s g
  let ms := nsOf s / 1000000
  let n := if ch.ceMs = ms then ch.ce + 1 else 1
  let s := setChan s g { ch with ce := n, ceMs := ms }
  let lim := field (getReg s (trmBase + 0x4000)) 15 8
  if 0 < lim ∧ lim < n ∧ !ch.retraining then requestRetrain g (nsOf s) s else s

/-! ## What the medium holds -/

/-- The line at an address has no bit errors any more. -/
def clearUpset (a : Nat) (s : State) : State := { s with upset := sput 0 s.upset (a / 64) 0 }

/-- Bit errors arrive at a line. -/
def addUpset (a bits : Nat) (s : State) : State := { s with upset := smod 0 s.upset (a / 64) (· ^^^ bits) }

/-- Decode a Treim line that channel `c` of stack `k` holds (Table 7-2). -/
def decodeAt (s : State) (k c a : Nat) : LineResult :=
  let e := sget 0 s.upset (a / 64)
  let pois := sget false s.poison (a / 64)
  if e = 0 then (if pois then .poison else .good)
  else decodeLine (chanOf s (k * 128 + c)).erased pois (leBytes 72 e)

/-- A line becomes poisoned: its bytes are zeros, and it is counted (R180, Table 7-2). -/
def poisonLine (k a : Nat) (s : State) : State :=
  storeBytes (bump (setPoison (clearUpset a s) a true) (cTrm k 0x118)) (a / 64 * 64) (List.replicate 64 0)

/-! ## Rebuilding from the stripe (R199) -/

/-- The stripe of channel `c`'s line has parity: it is braced, and no lost channel of its group has been rebuilt into
the reserve (R204). -/
def hasParity (s : State) (k c a : Nat) : Bool :=
  regionBraced s (a / 2 ^ 30) && !(groupChans s k (c / 16)).any (chanRebuilt s k)

/-- Another line of the stripe is uncorrectable; a poisoned one still holds the bytes its parity was formed over (R199,
R235, log 65). -/
def mateBad (s : State) (k c a : Nat) : Bool :=
  if s.upset.isEmpty then false
  else (stripeGranules s a).any (fun g =>
    let m := g + a % 512 / 64 * 64
    m != a / 64 * 64 && decide (sget 0 s.upset (m / 64) ≠ 0) && match placeOf s m with
      | some (_, c', _) => decide (c' ≠ c) && decide (decodeAt s k c' m = .uncorrectable)
      | none => false)

/-- The stripe's other lines are all there to rebuild channel `c`'s line from, once no channel is held. -/
def rebuildable (s : State) (k c a : Nat) : Bool :=
  !(stripeMates s k c).any (chanLost s k) && !mateBad s k c a

/-- Some other channel of the stripe is held by a retrain. -/
def mateHeld (s : State) (k c : Nat) : Bool := (stripeMates s k c).any (fun x => (chanOf s (k * 128 + x)).retraining)

/-- A line is rebuilt: counted, and one slot of each other channel of the stripe is charged to the access (R192). -/
def countRebuild (cls : Nat) (corbel : Bool) (k c : Nat) (s : State) : State :=
  (stripeMates s k c).foldl (fun s x => charge cls (chanRes corbel k x) 1 s) (bump s (cTrm k 0x110))

/-- What a read of a Treim line gets. -/
inductive Fetched where
  | good | rebuilt | poison
  deriving DecidableEq, Repr

/-- Rebuild a lost or uncorrectable line (R199): the read waits while another channel of the stripe is held and is then
retried; it fails when a line is missing for good. -/
def rebuildLine (cls : Nat) (corbel : Bool) (k c a : Nat) (s : State) : Fetched × State :=
  let s := if mateHeld s k c then bump s (cTrm k 0x140) else s
  if rebuildable s k c a then (.rebuilt, countRebuild cls corbel k c s) else (.poison, poisonLine k a s)

/-- Treat a line that has been read from channel `c` by the result of decoding it (Table 7-2). -/
def treatLine (cls : Nat) (corbel : Bool) (k c q a : Nat) (r : LineResult) (s : State) : Fetched × State :=
  match r with
  | .good => (.good, s)
  | .corrected diff =>
    let l := a / 64 * 64
    let s := charge 14 (chanRes corbel k c) 1 (correctedLine k c q l s)
    (.good, markEcc l (storeBytes (clearUpset l s) l (xorBytes (bytesAt s l 64) diff)))
  | .poison => (.poison, markEcc a (bump s (cTrm k 0x120)))
  | .uncorrectable =>
    let s := markEcc a (repairAdd k (dramRow c q) (bump s (cTrm k 0x108)))
    if hasParity s k c a then
      let (f, s) := rebuildLine cls corbel k c a s
      (f, if f = .rebuilt then charge 14 (chanRes corbel k c) 1 (clearUpset a s) else s)
    else (.poison, poisonLine k a s)

/-- Read a line from the channel that holds it, and treat it. -/
def readLine (cls : Nat) (corbel : Bool) (k c q a : Nat) (s : State) : Fetched × State :=
  treatLine cls corbel k c q a (decodeAt s k c a) (charge cls (chanRes corbel k c) 1 s)

/-- A read that finds its line poisoned without reading the array. -/
def readPoison (k a : Nat) (s : State) : Fetched × State := (.poison, markEcc a (bump s (cTrm k 0x120)))

/-- Fetch the line at `a`, placed at (k, c, q), from Treim (R182, R192, R199, R204, R205, R209). A read that waits for a
retrain is counted and gets what it finds at the release. -/
def fetchLine (cls : Nat) (corbel : Bool) (a k c q : Nat) (s : State) : Fetched × State :=
  let braced := regionBraced s (a / 2 ^ 30)
  if (stackOf s k).contentLost then readPoison k a s
  else if chanLost s k c then
    if !braced then readPoison k a s
    else if chanRebuilt s k c then
      let r := reserveChan s k c q
      if chanLost s k r then readPoison k a s else readLine cls corbel k r (reserveRow s k c q) a s
    else if sget false s.poison (a / 64) || (stripeMates s k c).any (chanLost s k) then readPoison k a s
    else rebuildLine cls corbel k c a s
  else if (chanOf s (k * 128 + c)).retraining then
    if hasParity s k c a && rebuildable s k c a && !mateHeld s k c && !sget false s.poison (a / 64) then
      (.rebuilt, countRebuild cls corbel k c s)
    else readLine cls corbel k c q a (bump s (cTrm k 0x140))
  else readLine cls corbel k c q a s

end Sys2Proof.Machine
end

