-- ==== Sys2Proof/Machine/Access.lean ====
section
/-!
DEFINITION. Accesses to device memory: SRAM words under SECDED (R121, R235), the piers' caches (R220 to R222) and
write-combining pools (R228 to R231), and the reads and writes of every agent, with what they are charged to.
-/
namespace Sys2Proof.Machine

/-! ## SRAM words (R121, R235) -/

/-- The 1 bits among the low `n` bits of a number. -/
def weight : Nat → Nat → Nat
  | 0, _ => 0
  | n + 1, x => x % 2 + weight n (x / 2)

/-- The bit errors of 64-bit word `w` of a line, with those of its check byte above them. -/
def wordErr (e w : Nat) : Nat := (e >>> (64 * w)) % 2 ^ 64 + (e >>> (512 + 8 * w)) % 256 * 2 ^ 64

/-- A line's bit errors without those of word `w`. -/
def clearWord (e w : Nat) : Nat := e ^^^ ((wordErr e w % 2 ^ 64) * 2 ^ (64 * w) + wordErr e w / 2 ^ 64 * 2 ^ (512 + 8 * w))

/-- The words of a line that `n` bytes from `a` touch. -/
def wordsOf (a n : Nat) : List Nat := (List.range 8).filter (fun w => decide (a % 64 < 8 * w + 8) && decide (8 * w < a % 64 + n))

/-- The words of a line that `n` bytes from `a` cover whole. -/
def wordsIn (a n : Nat) : List Nat := (List.range 8).filter (fun w => decide (a % 64 ≤ 8 * w) && decide (8 * w + 8 ≤ a % 64 + n))

/-- What SECDED makes of some words of a line: corrected and uncorrectable words, and the bit errors left once the
corrected ones are written back. One wrong bit is corrected and any more are not (log 66). -/
def secded (e : Nat) (ws : List Nat) : Nat × Nat × Nat :=
  if e = 0 then (0, 0, 0)
  else ws.foldl (fun r w =>
    match weight 72 (wordErr e w) with
    | 0 => r
    | 1 => (r.1 + 1, r.2.1, clearWord r.2.2 w)
    | _ => (r.1, r.2.1 + 1, r.2.2)) (0, 0, e)

/-- Count a pier's corrected and uncorrectable words; the latter are logged (R235). -/
def countPlnEcc (p a ce ue : Nat) (s : State) : State :=
  let s := if ce = 0 then s else bumpN s (cPln p 0x348) ce
  if ue = 0 then s else slog 4 p 0x350 a 0 0 (bumpN s (cPln p 0x350) ue)

/-- The gather entry whose pages hold an address is invalidated, and its pages are freed (Table 8-5). -/
def gatherDrop (p r g : Nat) (s : State) : State :=
  let pr := pierOf s p
  let key := r * 64 + g
  match pr.gather.find? (fun e => e.2.any (fun x => x.st = .present && decide (x.page ≤ key) && decide (key < x.page + gdPages x.desc))) with
  | some (slot, some x) =>
    setPier s p { pr with
      gather := sput none pr.gather slot (some { x with st := .absent, page := 0 })
      pages := sfilter pr.pages (fun i => decide (i < x.page) || decide (x.page + gdPages x.desc ≤ i)) }
  | _ => s

/-- Read words of a scratchpad page; answers whether they are sound (R235). -/
def readScratch (p r g a n : Nat) (s : State) : Bool × State :=
  let (ce, ue, left) := secded (sget 0 s.upset (a / 64)) (wordsOf a n)
  if ce + ue = 0 then (true, s)
  else
    let s := countPlnEcc p a ce ue { s with upset := sput 0 s.upset (a / 64) left }
    if ue = 0 then (true, s) else (false, gatherDrop p r g s)

/-- Read words of a tile's memory; an uncorrectable one fences the tile (R121). -/
def readTileMem (t off a n : Nat) (s : State) : Bool × State :=
  let (ce, ue, left) := secded (sget 0 s.upset (a / 64)) (wordsOf a n)
  if ce + ue = 0 then (true, s)
  else
    let s := { s with upset := sput 0 s.upset (a / 64) left }
    let s := if ce = 0 then s else bumpN s (cTil t 0x160) ce
    if ue = 0 then (true, s)
    else (false, fenceTile t (if off < 0x300000 then 1 else 2) (runningTask (tileOf s t)) s)

/-- A write to SRAM leaves no bit errors in the words it covers. -/
def writeSram (a n : Nat) (s : State) : State :=
  let e := sget 0 s.upset (a / 64)
  if e = 0 then s else { s with upset := sput 0 s.upset (a / 64) ((wordsIn a n).foldl clearWord e) }

/-! ## The write-combining pool (R228 to R231, R194, R195) -/

/-- Every byte of the granule is valid. -/
def PoolEntry.full (e : PoolEntry) : Bool := e.mask = 2 ^ 512 - 1

/-- The brace stripe of a granule: stack, group and granule index (R193, R229). -/
def stripeOf (s : State) (g : Nat) : Option (Nat × Nat × Nat) :=
  if regionBraced s (g / 2 ^ 21) then (placeOf s (g * 512)).map (fun p => (p.1, p.2.1 / 16, p.2.2)) else none

/-- Granules a pier's pool can hold, and those of its retrain reserve (R218, R231). -/
def poolSpace (s : State) (p : Nat) : Nat × Nat :=
  (((pierOf s p).modes.filter (· = 2)).length * 8192, field (getReg s (plnBase + 0x4000 * p + 0xC0)) 23 16 * 128)

/-- The entry of a granule. -/
def poolEntry (s : State) (p g : Nat) : Option PoolEntry := (pierOf s p).pool.find? (fun e => e.granule = g)

/-- Replace or remove the entry of a granule. -/
def poolSet (p g : Nat) (e : Option PoolEntry) (s : State) : State :=
  let pr := pierOf s p
  setPier s p { pr with pool := pr.pool.filterMap (fun x => if x.granule = g then e else some x) }

/-- The pool holds every one of `n` bytes from `a`. -/
def poolCovers (s : State) (p a n : Nat) : Bool :=
  if (pierOf s p).pool.isEmpty then false
  else (poolEntry s p (a / 512)).any (fun e => decide ((e.mask >>> (a % 512)) % 2 ^ n = 2 ^ n - 1))

/-- Look through a held granule's words: corrected ones are counted; each line that holds an uncorrectable one is
written to Treim poisoned and leaves the pool (R235). -/
def poolCheck (p g : Nat) (s : State) : State :=
  match poolEntry s p g with
  | none => s
  | some e =>
    if e.errs.isEmpty then s
    else
      let bad := (e.errs.filter (fun x => decide (1 < weight 72 x.2))).map Prod.fst
      let s := countPlnEcc p (512 * g) (e.errs.length - bad.length) bad.length s
      let lines := (bad.map (· / 8)).eraseDups
      let mask := lines.foldl (fun m i => m - (m >>> (64 * i)) % 2 ^ 64 * 2 ^ (64 * i)) e.mask
      let s := lines.foldl (fun s i => match placeOf s (512 * g) with
        | some (k, _, _) => poisonLine k (512 * g + 64 * i) s
        | none => s) s
      poolSet p g (if mask = 0 then none else some { e with mask := mask, errs := [] }) s

/-- The channel that holds the parity of a granule's stripe (R193). -/
def parityChan (s : State) (a k c q : Nat) : Nat :=
  let cs := groupChans s k (c / 16)
  cs.getD ((q + 1 - sget 0 (stackOf s k).base (a / 2 ^ 30) + c / 16) % cs.length) c

/-- The bytes of a line whose mask bits are set, as they stand in memory, over those of another one. -/
def mergeLine (m : Nat) (new old : List Byte) : List Byte :=
  (List.zip (List.range 64) (List.zip new old)).map (fun p => if m.testBit p.1 then p.2.1 else p.2.2)

/-- The bytes of a line that the mask `m` names reach Treim at (k, c, q): a whole line clears poison and every bit error;
a part is merged with what a read of the line gives, and discarded where that is poison; a line that is gone takes
nothing (R180, R181, R205). `held` says the write has waited for a retrain to end. -/
def settleLine (cls : Nat) (corbel held : Bool) (a m k c q : Nat) (s : State) : State :=
  if lineGone s a k c q then bump s (cTrm k 0x118)
  else
    let (k', c', q') := if chanRebuilt s k c && regionBraced s (a / 2 ^ 30)
      then (k, reserveChan s k c q, reserveRow s k c q) else (k, c, q)
    let parity (s : State) : State :=
      if corbel && hasParity s k c a then
        charge cls (chanRes true k (parityChan s a k c q)) 2 (if m = 2 ^ 64 - 1 then charge cls (chanRes true k' c') 1 s else s)
      else s
    if m = 2 ^ 64 - 1 then
      let s := if sget false s.poison (a / 64) then bump (setPoison s a false) (cTrm k 0x188) else s
      parity (charge cls (chanRes corbel k' c') 1 (clearUpset a s))
    else if sget false s.poison (a / 64) then bump s (cTrm k 0x118)
    else
      let new := bytesAt s a 64
      let (f, s) := if held then readLine cls corbel k' c' q' a s else fetchLine cls corbel a k c q s
      if f = .poison then s
      else
        let now := bytesAt s a 64
        let s := if now = new then s else storeBytes s a (mergeLine m new now)
        parity (charge cls (chanRes corbel k' c') 1 (clearUpset a s))

/-- Write one entry's bytes to Treim. -/
def settleEntry (e : PoolEntry) (s : State) : State :=
  match placeOf s (e.granule * 512) with
  | none => s
  | some (k, c, q) => (List.range 8).foldl (fun s i =>
      let m := (e.mask >>> (64 * i)) % 2 ^ 64
      if m = 0 then s else settleLine e.cls false false (e.granule * 512 + 64 * i) m k c q s) s

/-- Take one entry out of the pool and write it; what goes to a channel that a retrain holds stays in the reserve until
the release (Table 8-5). -/
def releaseOne (p g : Nat) (s : State) : State :=
  let s := poolCheck p g s
  match poolEntry s p g with
  | none => s
  | some e =>
    if (placeOf s (g * 512)).any (fun x => (chanOf s (x.1 * 128 + x.2.1)).retraining) then
      poolSet p g (some { e with absorbed := true, engine := true }) s
    else settleEntry e (poolSet p g none s)

/-- Release a granule with its whole stripe, full or by reconstruction; each is counted once, and the other channels'
and the parity's accesses are charged to the class of its oldest write (R194, R229). -/
def poolRelease (p g : Nat) (s : State) : State :=
  match poolEntry s p g with
  | none => s
  | some e =>
    match if e.engine then none else stripeOf s g with
    | none => releaseOne p g s
    | some (k, b, q) =>
      let es := (pierOf s p).pool.filter (fun x => !x.engine && decide (stripeOf s x.granule = some (k, b, q)))
      let held := es.map (fun x => ((placeOf s (x.granule * 512)).map (fun y => y.2.1)).getD 128)
      let full := decide (es.length + 1 = (groupChans s k b).length) && es.all PoolEntry.full
      let s := if full then bump s (cPln p 0x310) else bump (bump s (cPln p 0x318)) (cTrm k 0x150)
      let s := ((groupChans s k b).filter (fun c => !held.contains c)).foldl (fun s c =>
        charge e.cls (.channel (k * 128 + c)) 8 s) s
      es.foldl (fun s x => releaseOne p x.granule s) s

/-- Release a stripe once all its data granules are fully valid (R194, R229). -/
def poolFullStripe (p g : Nat) (s : State) : State :=
  match stripeOf s g with
  | none => s
  | some key =>
    let es := (pierOf s p).pool.filter (fun x => !x.engine && decide (stripeOf s x.granule = some key))
    if es.length + 1 = (groupChans s key.1 key.2.1).length ∧ es.all PoolEntry.full then poolRelease p g s else s

/-- More than 7/8 full, or with too little left for the reserve: the oldest entries that are not absorbed go first; the
fuel is the pool's length (R229, R231). -/
def poolShed (p : Nat) : Nat → State → State
  | 0, s => s
  | f + 1, s =>
    let pl := (pierOf s p).pool
    let (cap, rsv) := poolSpace s p
    if pl.length * 8 ≤ cap * 7 ∧ (pl.filter (fun e => !e.absorbed)).length ≤ cap - rsv then s
    else match pl.find? (fun e => !e.absorbed) with
      | some e => poolShed p f (poolRelease p e.granule s)
      | none => s

/-- Put a write of `n` bytes at `a`, placed at (k, c, q), into its home pier's pool. A write for a held channel is
absorbed in the reserve and its granule counted, or waits where the reserve is full (R228 to R231, Table 7-5); the
entry keeps the valid mask, and the bytes are in `mem`. -/
def poolPut (cls a n k c q : Nat) (s : State) : State :=
  let p := k / 2
  let g := a / 512
  let held := (chanOf s (k * 128 + c)).retraining
  let mask := (2 ^ n - 1) * 2 ^ (a % 512)
  let room := decide (((pierOf s p).pool.filter (·.absorbed)).length < (poolSpace s p).2)
  let after (s : State) : State := poolShed p ((pierOf s p).pool.length + 1) (poolFullStripe p g s)
  match poolEntry s p g with
  | some e =>
    let fresh := held && !e.absorbed
    let s := if fresh then (if room then bump s (cTrm k 0x148) else bump s (cPln p 0x320)) else s
    after (poolSet p g (some { e with mask := e.mask ||| mask, absorbed := e.absorbed || (fresh && room) }) s)
  | none =>
    if held && !room then
      settleLine cls false true (a / 64 * 64) (((2 ^ n - 1) * 2 ^ (a % 64)) % 2 ^ 64) k c q (bump s (cPln p 0x320))
    else
      let s := if held then bump s (cTrm k 0x148) else s
      let pr := pierOf s p
      after (setPier s p { pr with pool := pr.pool ++ [{ granule := g, mask := mask, since := nsOf s, cls := cls, absorbed := held
                                                         engine := false, errs := [] }] })

/-- Drain every entry of a pier's pool that `sel` picks, in order of arrival. -/
def poolDrain (p : Nat) (sel : PoolEntry → Bool) (s : State) : State :=
  ((pierOf s p).pool.filter sel).foldl (fun s e => poolRelease p e.granule s) s

/-- Drain what a stack's pool holds before it enters self-refresh (R195). -/
def poolDrainStack (k : Nat) (s : State) : State :=
  poolDrain (k / 2) (fun e => (placeOf s (e.granule * 512)).any (fun q => q.1 = k)) s

/-! ## The cache (R220 to R222) -/

/-- Sets of a pier's cache: its cache regions as 16 ways of 64-byte lines. -/
def cacheSets (s : State) (p : Nat) : Nat := ((pierOf s p).modes.filter (· = 0)).length * 4096

/-- Enter a line. A full set loses the line that a free value names: the manual gives pseudo-LRU and no more, and which
set a line maps to is the model's choice (log 21). -/
def cacheFill (p l : Nat) (s : State) : State :=
  let n := cacheSets s p
  let pr := pierOf s p
  let same := (pr.cache.filter (fun e => e.1 % n = l % n)).map Prod.fst
  if same.length < 16 then setPier s p { pr with cache := sput 0 pr.cache l 1 }
  else
    let (f, s) := free32 s
    setPier s p { pr with cache := sput 0 (serase pr.cache (same.getD (f % same.length) l)) l 1 }

/-- Remove a line from a pier's cache. -/
def cacheDrop (p l : Nat) (s : State) : State :=
  let pr := pierOf s p
  setPier s p { pr with cache := serase pr.cache l }

/-- Invalidate the whole cache of a pier (R222). -/
def cacheClear (p : Nat) (s : State) : State :=
  let pr := pierOf s p
  if pr.cache.isEmpty then s else setPier s p { pr with cache := [] }

/-- A write updates a cached copy (R221). -/
def cacheWrite (p a n : Nat) (s : State) : State :=
  let pr := pierOf s p
  match sget 0 pr.cache (a / 64) with
  | 0 => s
  | e + 1 => if e = 0 then s else setPier s p { pr with cache := sput 0 pr.cache (a / 64) (1 + (wordsIn a n).foldl clearWord e) }

/-- Fetch a line from Treim, and allocate it in the pier's cache if it came back good (R221, R222). -/
def cacheFetch (p cls a k c q : Nat) (s : State) : Bool × State :=
  let (f, s) := fetchLine cls false a k c q s
  (decide (f ≠ .poison), if f = .good then cacheFill p (a / 64) s else s)

/-- Read a global line through its home pier's cache: a hit, a miss that allocates, or a cached copy with an
uncorrectable word, which is refetched (R220, R221, R235). -/
def cacheRead (p cls a n k c q : Nat) (s : State) : Bool × State :=
  if cacheSets s p = 0 then
    let (f, s) := fetchLine cls false a k c q s
    (decide (f ≠ .poison), s)
  else
    match sget 0 (pierOf s p).cache (a / 64) with
    | 0 => cacheFetch p cls a k c q (bump s (cPln p 0x308))
    | e + 1 =>
      let (ce, ue, left) := secded e (wordsOf a n)
      let s := countPlnEcc p a ce ue (bump s (cPln p 0x300))
      if ue = 0 then
        (true, if ce = 0 then s else
          let pr := pierOf s p
          setPier s p { pr with cache := sput 0 pr.cache (a / 64) (1 + left) })
      else cacheFetch p cls a k c q (cacheDrop p (a / 64) s)

/-! ## Reads -/

/-- The agent works inside its stack. -/
def Agent.isCorbel : Agent → Bool
  | .corbel _ => true
  | _ => false

/-- Read `n` bytes of the line at `a`, which the agent may access; answers whether they are sound. `unit` says the
access opens a unit of 128 bytes of plinth bandwidth (R219). -/
def readPiece (corbel : Bool) (cls a n : Nat) (unit : Bool) (s : State) : Bool × State :=
  match classify a with
  | .treim rg =>
    match placeOf s a with
    | none => (true, s)
    | some (k, c, q) =>
      if corbel then
        let (f, s) := fetchLine cls true a k c q s
        (decide (f ≠ .poison), s)
      else
        let p := k / 2
        let glob := decide (regionMode s rg = 1)
        let s := poolCheck p (a / 512) s
        let inPool := poolCovers s p a n
        let s := if unit && (glob || inPool) then charge cls (.plinth p) 1 s else s
        if inPool then (true, s)
        else if glob then cacheRead p cls a n k c q s
        else
          let (f, s) := fetchLine cls false a k c q s
          (decide (f ≠ .poison), s)
  | .plinth p r g => readScratch p r g a n (if unit then charge cls (.plinth p) 1 s else s)
  | .tileMem t off => readTileMem t off a n s
  | _ => (true, s)

/-- What a read of a range found. -/
structure ReadOut where
  data   : List Byte
  /-- some line was unmapped for the reader -/
  bad    : Bool
  /-- lines that returned poison, or SRAM words that were uncorrectable -/
  poison : Nat
  deriving DecidableEq, Repr

/-- The parts of a range by line: address and length. -/
def rangePieces (a n : Nat) : List (Nat × Nat) := (linesOf a n).map (fun l => (max l a, min (l + 64) (a + n) - max l a))

/-- Read every part of a range that the agent may access: the lines that are not sound, and the state after. -/
def readPieces (ag : Agent) (cls a n : Nat) (s : State) : List Nat × State :=
  (rangePieces a n).foldl (fun r p =>
    if !mayAccess r.2 ag p.1 then r
    else
      let (ok, s) := readPiece ag.isCorbel cls p.1 p.2 (decide (p.1 = a) || decide (p.1 % 128 = 0)) r.2
      (if ok then r.1 else r.1 ++ [p.1 / 64 * 64], s)) ([], s)

/-- Read `n` bytes for an agent under a class: unmapped, poisoned and unsound lines deliver zeros (R22, R180, R235). -/
def readDev (ag : Agent) (cls a n : Nat) (s : State) : ReadOut × State :=
  let bad := (linesOf a n).filter (fun l => !mayAccess s ag l)
  let (pois, s) := readPieces ag cls a n s
  let data := if bad.isEmpty && pois.isEmpty then bytesAt s a n
    else (List.range n).map (fun i =>
      let l := (a + i) / 64 * 64
      if bad.contains l || pois.contains l then 0 else byteAt s (a + i))
  ({ data := data, bad := !bad.isEmpty, poison := pois.length },
    match bad with
    | [] => s
    | l :: _ => countUnmapped l s)

/-- The agent's view of a line is good: it may access it, and the pool or Treim has its bytes. -/
def viewOk (s : State) (ag : Agent) (l : Nat) : Bool :=
  mayAccess s ag l && match classify l with
    | .treim _ => !linePoison s l || (placeOf s l).any (fun p => poolCovers s (p.1 / 2) l 64)
    | _ => true

/-- The bytes that a read by an agent returns, zeros where a line is not good for it; the read itself, with all it
counts, is `readDev`. -/
def viewBytes (s : State) (ag : Agent) (a n : Nat) : List Byte :=
  if (linesOf a n).all (viewOk s ag) then bytesAt s a n
  else (List.range n).map (fun i => if viewOk s ag ((a + i) / 64 * 64) then byteAt s (a + i) else 0)

/-- The little-endian value of a range as an agent reads it. -/
def viewLe (s : State) (ag : Agent) (a n : Nat) : Nat := leNat (viewBytes s ag a n)

/-- One byte as an agent reads it. -/
def viewByte (s : State) (ag : Agent) (a : Nat) : Nat := if viewOk s ag (a / 64 * 64) then (byteAt s a).toNat else 0

/-! ## Writes -/

/-- Write the part of a range that lies in one line the agent may access. Writes of a corbel unit stay in its stack;
others go to the pool when their region is braced, their line is not whole or its channel is held (R194, R228). -/
def writePiece (corbel : Bool) (cls a : Nat) (bs : List Byte) (unit : Bool) (s : State) : State :=
  let s := storeBytes s a bs
  match classify a with
  | .treim rg =>
    match placeOf s a with
    | none => s
    | some (k, c, q) =>
      let m := ((2 ^ bs.length - 1) * 2 ^ (a % 64)) % 2 ^ 64
      if corbel then settleLine cls true (chanOf s (k * 128 + c)).retraining (a / 64 * 64) m k c q s
      else
        let p := k / 2
        let glob := decide (regionMode s rg = 1)
        let pooled := regionBraced s rg || decide (bs.length ≠ 64) || (chanOf s (k * 128 + c)).retraining
        let s := if unit && (glob || pooled) then charge cls (.plinth p) 1 s else s
        let s := if glob then cacheWrite p a bs.length s else s
        if pooled then poolPut cls a bs.length k c q s else settleLine cls false false a m k c q s
  | .plinth p _ _ => writeSram a bs.length (if unit then charge cls (.plinth p) 1 s else s)
  | .tileMem _ _ => writeSram a bs.length s
  | _ => s

/-- Cut a write at line boundaries: (address, bytes) of each piece. -/
def linePieces (a : Nat) (bs : List Byte) : List (Nat × List Byte) :=
  let first := 64 - a % 64
  let rest := chunks 64 (bs.drop first)
  (if bs.isEmpty then [] else [(a, bs.take first)])
    ++ (List.zip (List.range rest.length) rest).map (fun p => (a + first + 64 * p.1, p.2))

/-- Write bytes for an agent under a class: lines it may not reach take nothing, and the access is counted once (R22).
Answers whether any line was unmapped. -/
def writeDev (ag : Agent) (cls a : Nat) (bs : List Byte) (s : State) : Bool × State :=
  let ps := linePieces a bs
  let bad := ps.filter (fun p => !mayAccess s ag p.1)
  let s := (ps.filter (fun p => mayAccess s ag p.1)).foldl (fun s p =>
    writePiece ag.isCorbel cls p.1 p.2 (decide (p.1 = a) || decide (p.1 % 128 = 0)) s) s
  match bad with
  | [] => (false, s)
  | p :: _ => (true, countUnmapped p.1 s)

/-- Write for an agent that the caller has checked. -/
def writeTo (ag : Agent) (cls a : Nat) (bs : List Byte) (s : State) : State := (writeDev ag cls a bs s).2

/-- Write a record of the firmware area of stack `k` (R25). Between a module reset and the next apply its region is not
placed, and the record is kept as the area keeps its bytes. -/
def fwWrite (k off : Nat) (bs : List Byte) (s : State) : State :=
  if (stackOf s k).applied then writeTo .lintel 13 (fwAddr k off) bs s else storeBytes s (fwAddr k off) bs

/-- Read a range for its effects alone; answers whether some line was unmapped or not sound. -/
def touch (ag : Agent) (cls a n : Nat) (s : State) : Bool × State :=
  let (r, s) := readDev ag cls a n s
  (r.bad || decide (r.poison ≠ 0), s)

end Sys2Proof.Machine
end

