-- ==== Sys2Proof/Machine/Records.lean ====
section
/-!
DEFINITION. The firmware area as it is read (R25, R30, R59, R166): group records, scale records with their amax histories, and codebooks,
which change in state fields of their own and are seen in the regions of the firmware area.
-/
namespace Sys2Proof.Machine

/-- The group record in force on a stack. -/
def groupOn (s : State) (k g : Nat) : Option GroupRec := sget none s.cbl.groups (k * 1024 + g)

/-- A group's record from any stack that holds one; every copy is alike (R255). -/
def groupOf (s : State) (g : Nat) : Option GroupRec := (List.range 8).findSome? (fun k => groupOn s k g)

/-- The raw record of a group, 0 if none is loaded. -/
def groupRaw (s : State) (g : Nat) : Nat := match groupOf s g with
  | some r => r.raw
  | none => 0

/-- A held codebook's fields (Table 6-6). -/
def Book.version (b : Book) : Nat := field b.header 511 496
def Book.family (b : Book) : Nat := field b.header 495 492
def Book.wide (b : Book) : Bool := flag b.header 491
def Book.effective (b : Book) : Nat := field b.header 479 448
def Book.crc (b : Book) : Nat := field b.header 383 320
/-- Entries as vectors of binary32 values. -/
def Book.vectors (b : Book) : List (List FVal) :=
  (chunks 32 b.entries).map (fun e => (List.range 8).map (fun i => f32 (leAt e (4 * i) 4)))

/-- The book a sender encodes family `fam` with at outer step `u` (R167): the largest EFFECTIVE not above it. -/
def senderBook (s : State) (fam u : Nat) : Option Book :=
  (s.cbl.books.filter (fun b => decide (b.family = fam) && decide (b.effective ≤ u))).foldl
    (fun (a : Option Book) b => match a with
      | none => some b
      | some c => if c.effective < b.effective then some b else some c) none

/-- The family deltas are coded with, in one stage: the lowest family held (log 42). -/
def deltaFamily (s : State) : Nat := s.cbl.books.foldl (fun a b => min a b.family) 15

/-- The books that an encoding which starts at outer step `u` uses, one of each family held (R167). -/
def booksFrom (s : State) (u : Nat) : List Book :=
  ((s.cbl.books.map Book.family).eraseDups).filterMap (fun fam => senderBook s fam u)

/-! ## What the firmware area shows (log 35)

The manual places the step record, the group check table and the journals, and gives no place or layout for the group
records, scale records, histories and codebooks, which live in the firmware area too. The model keeps these as fields
of the state and shows them to whoever reads stack 0's firmware region, at offsets and in layouts of its own. -/

/-- Firmware offset at which the records are read (log 35). -/
def fwRecordOff : Nat := 0x02000000

/-- One scale record with its histories. -/
def tensorImage (e : Nat × Tensor) : List Byte :=
  let t := e.2
  let hist (h : List (Nat × Bool)) : List Byte := leBytes 1 h.length ++ h.flatMap (fun x => leBytes 4 x.1 ++ leBytes 1 (bit x.2))
  leBytes 2 e.1 ++ leBytes 4 t.margin ++ leBytes 4 t.hostScale ++ leBytes 4 t.scale ++ leBytes 1 t.depth
    ++ leBytes 1 (bit t.hostLock + 2 * bit t.pow2 + 4 * bit t.perRow + 16 * t.src) ++ hist t.hist
    ++ leBytes 4 t.rowHist.length ++ t.rowHist.flatMap (fun r => leBytes 4 r.1 ++ hist r.2)

/-- The group records that some stack holds, once each. -/
def groupImages (s : State) : List (Nat × Nat) :=
  ((s.cbl.groups.map (fun e => e.1 % 1024)).eraseDups).map (fun g => (g, groupRaw s g))

/-- Group records, scale records and histories as bytes. -/
def fwRecords (s : State) : List Byte :=
  let gs := groupImages s
  leBytes 4 gs.length ++ gs.flatMap (fun g => leBytes 2 g.1 ++ leBytes 64 g.2) ++ leBytes 4 s.tensors.length
    ++ s.tensors.flatMap tensorImage

/-- Firmware offset at which the codebooks are read (log 35). -/
def fwBookOff : Nat := 0x04000000

/-- The held codebooks as bytes: how many, then each one's header and entries (Table 6-6). -/
def fwBooks (s : State) : List Byte :=
  leBytes 4 s.cbl.books.length ++ s.cbl.books.flatMap (fun b => leBytes 64 b.header ++ b.entries)

/-- Bytes read from address `a` with `rec` laid over them from address `base`. -/
def layOver (a base : Nat) (rec' : List Byte) (raw : List Byte) : List Byte :=
  if a + raw.length ≤ base ∨ base + rec'.length ≤ a then raw
  else (List.zip (List.range raw.length) raw).map (fun p =>
    if base ≤ a + p.1 ∧ a + p.1 < base + rec'.length then rec'.getD (a + p.1 - base) 0 else p.2)

/-- Bytes read from the firmware area, with the records and codebooks laid over them. -/
def fwShown (s : State) (a : Nat) (raw : List Byte) : List Byte :=
  if a + raw.length ≤ fwAddr 0 fwRecordOff ∨ fwAddr 1 0 ≤ a then raw
  else layOver a (fwAddr 0 fwBookOff) (fwBooks s) (layOver a (fwAddr 0 fwRecordOff) (fwRecords s) raw)

end Sys2Proof.Machine
end

