-- ==== Sys2Proof/Machine/Func.lean ====
section
/-!
DEFINITION. The function stages of the vector chain engine (R126, Table 5-4): their special values, the exact function
to far more bits than binary32 holds, and the results within the stated error among which a free value chooses.
-/
namespace Sys2Proof.Machine

/-- Fraction bits of the fixed-point numbers below. -/
def fnBits : Nat := 320

/-- `floor (ln 2 × 2^320)`. -/
def ln2Fix : Int :=
  0xB17217F7D1CF79ABC9E3B39803F2F6AF40F343267298B62D8A0D175B8BAAFA2BE7B876206DEBAC98

/-- A finite value as a fixed-point number, toward minus infinity. -/
def fixOf (x : FVal) : Int := shiftInt x.int (x.exp + (fnBits : Int))

/-- The terms of the exponential series from the `k`-th on, added to `acc`; the first argument is how many. -/
def expSeries : Nat → Int → Int → Nat → Int → Int
  | 0, _, _, _, acc => acc
  | n + 1, r, term, k, acc => expSeries n r (shiftInt (term * r) (-(fnBits : Int)) / (k : Int)) (k + 1) (acc + term)

/-- `e^x` of a fixed-point number as a fixed-point number times `2^n`. -/
def expFix (x : Int) : Nat × Int :=
  let n := x / ln2Fix
  ((expSeries 80 (x - n * ln2Fix) (2 ^ fnBits) 1 0).toNat, n)

/-- The terms of the inverse hyperbolic tangent series `z + z³/3 + …`, `sq` being `z²`. -/
def atanhSeries : Nat → Int → Int → Nat → Int → Int
  | 0, _, _, _, acc => acc
  | n + 1, sq, term, k, acc =>
    atanhSeries n sq (shiftInt (term * sq) (-(fnBits : Int))) (k + 2) (acc + term / (k : Int))

/-- A nonnegative fixed-point number with extra exponent as a value. -/
def unfix (neg : Bool) (m : Nat) (e : Int) : FVal := .fin neg m (e - (fnBits : Int))

/-- `e^x / (1 + e^x)` of a fixed-point number, as a fixed-point number. -/
def logisticFix (x : Int) : Nat :=
  let (m, n) := expFix x
  if 0 ≤ n then m * 2 ^ n.toNat * 2 ^ fnBits / (2 ^ fnBits + m * 2 ^ n.toNat)
  else m * 2 ^ fnBits / (2 ^ (fnBits + (-n).toNat) + m)

/-- `1/√x` of a positive value. -/
def rsqrtNear (x : FVal) : FVal :=
  match x with
  | .fin _ m e =>
    let odd := (e % 2).toNat
    .fin false (Nat.sqrt (2 ^ (2 * fnBits) / (m * 2 ^ odd))) (-(fnBits : Int) - (e - (odd : Int)) / 2)
  | v => v

/-- `1/x` of a value that is not zero. -/
def recipNear (x : FVal) : FVal :=
  match x with
  | .fin n m e => .fin n (2 ^ fnBits / m) (-(fnBits : Int) - e)
  | v => v

/-- `ln x` of a positive value. -/
def lnNear (x : FVal) : FVal :=
  match x with
  | .fin _ m _ =>
    let k := Nat.log2 m
    let z : Int := ((m : Int) - 2 ^ k) * 2 ^ fnBits / ((m : Int) + 2 ^ k)
    let l := x.lead * ln2Fix + 2 * atanhSeries 110 (shiftInt (z * z) (-(fnBits : Int))) z 1 0
    unfix (decide (l < 0)) l.natAbs 0
  | v => v

/-- `tanh x`. -/
def tanhNear (x : FVal) : FVal :=
  if (FVal.ofNat 64).le x.abs then .fin x.neg 1 0
  else
    let (m, n) := expFix (2 * fixOf x.abs)
    let v := m * 2 ^ n.toNat
    unfix x.neg ((v - 2 ^ fnBits) * 2 ^ fnBits / (v + 2 ^ fnBits)) 0

/-- `x / (1 + e^−u)` for a fixed-point `u`; `none` where the result is far below every normal number. -/
def gateNear (x : FVal) (u : Int) : Option FVal :=
  if 256 * 2 ^ fnBits ≤ u then some x
  else if u ≤ -(256 * 2 ^ fnBits) then none
  else some (fmul x (unfix false (logisticFix u) 0))

/-- Twice the argument of the hyperbolic tangent of code 0x11: `2 × 0.797885 (x + 0.044715 x³)`. -/
def geluArg (x : FVal) : Int :=
  let cube := shiftInt (x.int * x.int * x.int) (3 * x.exp + (fnBits : Int))
  2 * 797885 * (1000000 * fixOf x + 44715 * cube) / 10 ^ 12

/-- The exact function of Table 5-4 on an ordinary operand, to some 300 bits; `none` where its result is not a normal
number. -/
def exactFunction (code : Nat) (a : FVal) : Option FVal :=
  let y : Option FVal :=
    match code with
    | 0x0B => some (rsqrtNear a)
    | 0x0C => some (recipNear a)
    | 0x0D => if a.abs.lt (.ofNat 256) then (let (m, n) := expFix (fixOf a); some (unfix false m n)) else none
    | 0x0E => some (lnNear a)
    | 0x0F => some (tanhNear a)
    | 0x10 => gateNear .one (if a.abs.lt (.ofNat 256) then fixOf a else if a.neg then -(256 * 2 ^ fnBits) else 256 * 2 ^ fnBits)
    | 0x11 => gateNear a (geluArg a)
    | _ => gateNear a (if a.abs.lt (.ofNat 256) then fixOf a else if a.neg then -(256 * 2 ^ fnBits) else 256 * 2 ^ fnBits)
  y.bind (fun v => if v.isZero || decide (v.lead < -126) then none else some v)

/-- Error bound of a function stage in units in the last place (Table 5-4). -/
def ulpBound (code : Nat) : Nat := if code ≤ 0x0C then 1 else if code ≤ 0x10 then 2 else 4

/-- The binary32 values within `k` units in the last place of a normal value. -/
def withinUlps (k : Nat) (y : FVal) : List FVal :=
  match y with
  | .fin n m e =>
    let (t, q) := roundQuot (.sr 0xFFFFFFFF) 24 (-149) m 1 e
    let w := to32 (.fin false t q)
    let near (v : FVal) : Bool :=
      v.isFin && (exactAdd v (.fin true m e)).abs.le (.fin false (k * (2 ^ 40 + 1)) (q - 40))
    (((List.range (3 * k + 2)).map (fun i => f32 (w + i - 2 * k))).filter near).map (FVal.setNeg n)
  | v => [v]

/-- The result of a function stage on an ordinary operand: one of the values within its error bound, chosen by the
free function of the stepping; unbounded where the result is not normal (R126, log 2). -/
def ordinaryFunction (code : Nat) (a : FVal) : FVal :=
  let raw := (Config.chainFn code (BitVec.ofNat 32 (to32 a))).toNat
  match exactFunction code a with
  | none => f32 raw
  | some y =>
    let c := withinUlps (ulpBound code) y
    c.getD (raw % c.length) y

/-- A function stage of Table 5-4: its special values, and otherwise the fixed function of the stepping (R126). -/
def chainFunction (code : Nat) (a : FVal) : FVal :=
  match a with
  | .nan n => .nan n
  | .inf n =>
    match code with
    | 0x0B => if n then .qnan else .zero
    | 0x0C => .fin n 0 0
    | 0x0D => if n then .zero else .inf false
    | 0x0E => if n then .qnan else .inf false
    | 0x0F => .fin n 1 0
    | 0x10 => if n then .zero else .one
    | _ => if n then .fin true 0 0 else .inf false
  | .fin n m _ =>
    if m = 0 then
      match code with
      | 0x0B => .inf n
      | 0x0C => .inf n
      | 0x0E => .inf true
      | 0x0F => .fin n 0 0
      | 0x11 => .fin n 0 0
      | 0x12 => .fin n 0 0
      | _ => ordinaryFunction code a
    else match code with
      | 0x0B => if n then .qnan else ordinaryFunction code a
      | 0x0C => if (rnd32 (recipNear a)).isInf then .inf n else ordinaryFunction code a
      | 0x0D => if (f32 0x42B17217).lt a then .inf false else ordinaryFunction code a
      | 0x0E => if n then .qnan else ordinaryFunction code a
      | _ => ordinaryFunction code a

end Sys2Proof.Machine
end

