-- ==== Sys2Proof/Machine/Chain.lean ====
section
/-!
DEFINITION. The vector chain engine on one row: Philox words, the stage catalogue, reductions and the VQ stage
(chapter 5, R122 to R143).
-/
namespace Sys2Proof.Machine

/-- One Philox4x32 round. -/
def philoxRound (k : Nat × Nat) (c : Nat × Nat × Nat × Nat) : Nat × Nat × Nat × Nat :=
  let (c0, c1, c2, c3) := c
  let p0 := 0xD2511F53 * c0
  let p1 := 0xCD9E8D57 * c2
  ((p1 / 2 ^ 32) ^^^ c1 ^^^ k.1, p1 % 2 ^ 32, (p0 / 2 ^ 32) ^^^ c3 ^^^ k.2, p0 % 2 ^ 32)

/-- Philox4x32 with the standard multipliers and key increments, `n` rounds (R132). -/
def philox : Nat → Nat × Nat → Nat × Nat × Nat × Nat → Nat × Nat × Nat × Nat
  | 0, _, c => c
  | n + 1, k, c =>
    philox n ((k.1 + 0x9E3779B9) % 2 ^ 32, (k.2 + 0xBB67AE85) % 2 ^ 32) (philoxRound k c)

/-- The job and step fields every random word is keyed with (Table 5-5). -/
structure RandKey where
  seed : Nat
  salt : Nat
  step : Nat
  deriving DecidableEq, Repr

/-- The 32-bit word u of the element at position `p` of stream `st` (R132, Table 5-5). -/
def randWord (k : RandKey) (use st layer tid p : Nat) : Nat :=
  let key := ((k.seed % 2 ^ 32) ^^^ (k.salt % 2 ^ 32), (k.seed / 2 ^ 32 % 2 ^ 32) ^^^ (k.step / 2 ^ 32 % 2 ^ 32))
  let q := p / 4
  let c1 := use * 2 ^ 30 + (st % 2 ^ 16) * 64 + q / 2 ^ 32 % 64
  let (o0, o1, o2, o3) :=
    philox 10 key (q % 2 ^ 32, c1, k.step % 2 ^ 32, layer % 2 ^ 16 * 2 ^ 16 + tid % 2 ^ 16)
  match p % 4 with
  | 0 => o0 | 1 => o1 | 2 => o2 | _ => o3

/-- A configuration word's fields (Table 5-1). -/
structure ChainWord where
  stage : Nat
  sa    : Nat
  sb    : Nat
  qsel  : Nat
  f     : Bool
  cvec  : Nat
  imm   : Nat
  deriving DecidableEq, Repr

/-- Read a configuration word (Table 5-1). -/
def chainWord (w : Nat) : ChainWord :=
  { stage := field w 63 58, sa := field w 57 55, sb := field w 54 52, qsel := field w 51 49
    f := flag w 48, cvec := field w 44 32, imm := field w 31 0 }

/-- What a pass works with beside its row: the operand cache, and the keys of its random words. -/
structure PassEnv where
  /-- the u32 at a byte offset of the vector operand cache -/
  cache   : Nat → Nat
  key     : RandKey
  layer   : Nat
  outTid  : Nat
  rowlen  : Nat

/-- One row on its way through the chain. -/
structure RowState where
  xs     : List FVal
  ys     : List FVal
  q      : List FVal
  keyTid : Nat
  stream : Nat
  /-- a non-finite value was detected (R140) -/
  nf     : Bool
  /-- VQ row records: (index output offset, scale word, indices) -/
  recs   : List (Nat × Nat × List Nat)
  deriving DecidableEq, Repr

/-- The operand at a source of Table 5-2 for one column. -/
def chainOperand (env : PassEnv) (st : RowState) (w : ChainWord) (src col : Nat) : FVal :=
  match src with
  | 0 => st.xs.getD col .zero
  | 1 => st.ys.getD col .zero
  | 2 => f32 (env.cache (w.cvec * 64 + 4 * col))
  | 3 => st.q.getD w.qsel .zero
  | _ => f32 w.imm

/-- The reduction tree over a row: beats of 128 lanes, then the beats (R130). -/
def rowReduce (op : FVal → FVal → FVal) (l : List FVal) : FVal :=
  tree op .zero ((runsOf 128 l.length l).map (tree op .zero))

/-- The score of one codebook entry and its residual lanes (R141). -/
def vqScore (s : FVal) (c x : List FVal) : FVal × List FVal :=
  let t := List.zipWith (fun ci xi => fma32 s.negate ci xi) c x
  let sq (i : Nat) : FVal := let v := t.getD i .zero; mul32 v v
  (add32 (add32 (add32 (sq 0) (sq 1)) (add32 (sq 2) (sq 3)))
    (add32 (add32 (sq 4) (sq 5)) (add32 (sq 6) (sq 7))), t)

/-- The codebook entry with the smallest score, the lowest index on a tie. -/
def vqBest (s : FVal) (book : List (List FVal)) (x : List FVal) : Nat × List FVal :=
  let r := (List.zip (List.range book.length) book).foldl
    (fun (acc : Option (Nat × FVal × List FVal)) e =>
      let (d, t) := vqScore s e.2 x
      match acc with
      | none => some (e.1, d, t)
      | some (j, d0, t0) => if d.lt d0 then some (e.1, d, t) else some (j, d0, t0)) none
  match r with
  | some (j, _, t) => (j, t)
  | none => (0, x)

/-- A vector extended with +0 to 8 lanes. -/
def pad8 (v : List FVal) : List FVal := v ++ List.replicate (8 - v.length) .zero

/-- VQ of one row (R141, R142): indices, residual row, and whether R140 detects. -/
def vqRow (s : FVal) (book : List (List FVal)) (xs : List FVal) : List Nat × List FVal × Bool :=
  let vecs := runsOf 8 xs.length xs
  let unusable := s.neg || !posNormal (to32 s) && !s.isZero
  if s.isZero && !s.neg then
    let bad := xs.any (fun v => !v.isFin)
    (vecs.map (fun _ => 0),
      (vecs.map (fun v => if v.any (fun e => !e.isFin) then v.map (fun _ => FVal.zero) else v)).flatten, bad)
  else if unusable then (vecs.map (fun _ => 0), xs.map (fun _ => .zero), true)
  else
    let out := vecs.map (fun v =>
      let bad := v.any (fun e => !e.isFin)
      let clean := (pad8 v).map (fun e => if e.isFin then e else .zero)
      let (j, t) := vqBest s book clean
      (j, if bad then v.map (fun _ => FVal.zero) else t.take v.length))
    (out.map Prod.fst, (out.map Prod.snd).flatten, xs.any (fun v => !v.isFin))

/-- The FP32 entries of a codebook of `n` entries in the operand cache. -/
def cacheBook (env : PassEnv) (off n : Nat) : List (List FVal) :=
  (List.range n).map (fun j => (List.range 8).map (fun i => f32 (env.cache (off + 32 * j + 4 * i))))

/-- One stage on one row (Table 5-3). `row` is the row index within the tensor. -/
def chainStage (env : PassEnv) (row : Nat) (st : RowState) (w : ChainWord) : RowState :=
  let n := st.xs.length
  let a (c : Nat) := chainOperand env st w w.sa c
  let b (c : Nat) := chainOperand env st w w.sb c
  let each (g : Nat → FVal) : RowState := { st with xs := (List.range n).map g }
  let setQ (v : FVal) : RowState := { st with q := st.q.set w.qsel v }
  let as := (List.range n).map a
  match w.stage with
  | 0x01 => each (fun c => add32 (a c) (b c))
  | 0x02 => each (fun c => sub32 (a c) (b c))
  | 0x03 => each (fun c => mul32 (a c) (b c))
  | 0x04 => each (fun c => div32 (a c) (b c))
  | 0x05 => each (fun c => fma32 (a c) (b c) (st.xs.getD c .zero))
  | 0x06 => each (fun c => fmax (a c) (b c))
  | 0x07 => each (fun c => fmin (a c) (b c))
  | 0x08 => each (fun c => let v := a c; if v.isNan then v else v.abs)
  | 0x09 => each (fun c => fmin (fmax (a c) (b c)) (f32 w.imm))
  | 0x0A => each (fun c => sqrt32 (a c))
  | 0x20 => setQ (rowReduce add32 as)
  | 0x21 => setQ (rowReduce fmax as)
  | 0x22 => setQ (rowReduce add32 (as.map (fun v => mul32 v v)))
  | 0x28 =>
    let s := st.q.getD w.qsel .zero
    let (idx, xs, bad) := vqRow s (cacheBook env (w.cvec * 64) (if w.f then 4096 else 256)) st.xs
    let sw := if s.neg || !posNormal (to32 s) then 0 else to32 s
    { st with xs := xs, nf := st.nf || bad, recs := st.recs ++ [(w.imm % 2 ^ 22, sw, idx)] }
  | 0x29 =>
    let sd := div32 (.ofNat (2 ^ 32)) (.ofNat (2 ^ 32 - w.imm))
    let u (c : Nat) := randWord env.key 0 st.stream env.layer st.keyTid (row * env.rowlen + c)
    { each (fun c => if u c < w.imm then .zero else mul32 (a c) sd) with
      nf := st.nf || as.any (fun v => !v.isFin) }
  | 0x31 => { st with keyTid := if w.f then w.imm % 2 ^ 16 else env.outTid, stream := w.imm / 2 ^ 16 }
  | 0x30 => st
  | 0x3F => st
  | _ => if 0x0B ≤ w.stage ∧ w.stage ≤ 0x12 then each (fun c => chainFunction w.stage (a c)) else st

/-- A row through the whole chain; the row scalars start at +0 (R128). -/
def chainRow (env : PassEnv) (words : List ChainWord) (row : Nat) (xs ys : List FVal) : RowState :=
  words.foldl (chainStage env row)
    { xs := xs, ys := ys, q := List.replicate 8 .zero, keyTid := env.outTid, stream := 0, nf := false, recs := [] }

/-- The amax measurement (R137): the largest finite magnitude, rounded up to binary32, saturated at the largest
finite value. -/
def amaxWord (vs : List FVal) : Nat :=
  match blockMax vs with
  | .fin _ m e =>
    if m = 0 then 0
    else
      let (t, q) := roundQuot (.sr 0xFFFFFFFF) 24 (-149) m 1 e
      let lo := FVal.fin false t q
      let v := if lo.lt (.fin false m e) then FVal.fin false (t + 1) q else lo
      if Fmt.fp32.maxVal.lt v then 0x7F7FFFFF else to32 v
  | _ => 0

/-- The bytes of a VQ row record (R161): scale, indices, padding to 4 bytes. -/
def vqRecord (wide : Bool) (scale : Nat) (idx : List Nat) : List Byte :=
  let body : List Byte :=
    if wide then ((runsOf 2 idx.length idx).map (fun p => leBytes 3 (p.getD 0 0 + 4096 * p.getD 1 0))).flatten
    else idx.map (BitVec.ofNat 8)
  let pad := (4 - body.length % 4) % 4
  leBytes 4 scale ++ body ++ List.replicate pad 0

/-- Length of a VQ row record for `v` vectors (R161). -/
def vqRecordLen (wide : Bool) (v : Nat) : Nat :=
  if wide then 4 + 4 * ceilDiv (3 * ceilDiv v 2) 4 else 4 + 4 * ceilDiv v 4

/-- Index `k` of a VQ row record. -/
def vqIndex (wide : Bool) (rec : List Byte) (k : Nat) : Nat :=
  if wide then (leAt rec (4 + 3 * (k / 2)) 3) / 4096 ^ (k % 2) % 4096 else leAt rec (4 + k) 1

/-- Decode one VQ row of one or two stages (R164). -/
def vqDecodeRow (rowlen : Nat) (r1 : List Byte) (w1 : Bool) (c1 : List (List FVal))
    (second : Option (List Byte × Bool × List (List FVal))) : List FVal :=
  (List.range rowlen).map (fun i =>
    let x := mul32 (f32 (leAt r1 0 4)) ((c1.getD (vqIndex w1 r1 (i / 8)) []).getD (i % 8) .zero)
    match second with
    | none => x
    | some (r2, w2, c2) => fma32 (f32 (leAt r2 0 4)) ((c2.getD (vqIndex w2 r2 (i / 8)) []).getD (i % 8) .zero) x)

/-! Codebook retraining (R168). -/

/-- One pass of k-means over the samples: the new centres. -/
def kmeansPass (c : List (List FVal)) (zs : List (List FVal)) : List (List FVal) :=
  let init : List (List FVal × Nat) := c.map (fun _ => (List.replicate 8 .zero, 0))
  let acc := zs.foldl (fun (acc : List (List FVal × Nat)) z =>
    let (j, _) := vqBest .one c z
    let (sm, n) := acc.getD j ([], 0)
    acc.set j (List.zipWith add32 sm z, n + 1)) init
  List.zipWith (fun old p => if p.2 = 0 then old else p.1.map (fun v => div32 v (.ofNat p.2))) c acc

/-- `ITER` passes of k-means (R168). -/
def kmeans : Nat → List (List FVal) → List (List FVal) → List (List FVal)
  | 0, c, _ => c
  | n + 1, c, zs => kmeans n (kmeansPass c zs) zs

end Sys2Proof.Machine
end

