-- ==== Sys2Proof/Machine/Operands.lean ====
section
/-!
DEFINITION. The operands of tile tasks: task descriptors (Tables 4-5 to 4-9), tensor descriptors (Table 4-10), their
rows as exact values, plain or through the expander, and the writing of output rows with their side arrays.
-/
namespace Sys2Proof.Machine

/-! ## Descriptors -/

/-- A loaded program of the tile, or an empty one. -/
def progOf (s : State) (t : Nat) : Program :=
  (tileOf s t).prog.getD { off := 0, ntasks := 0, domain := 0, chain := [] }

/-- Task descriptor `i` of tile `t`'s program (R97, R98). -/
def taskOf (s : State) (t i : Nat) : Nat := loadLe s (tileAddr t ((progOf s t).off + 384 + 64 * i)) 64

/-- A tensor descriptor (Table 4-10). -/
structure TensorDesc where
  base   : Nat
  rows   : Nat
  rowlen : Nat
  fmt    : Nat
  scheme : Nat
  comp   : Bool
  seed   : Bool
  tid    : Nat
  metaAt : Nat
  scaleAt : Nat
  stride : Nat
  deriving DecidableEq, Repr

/-- Read a tensor descriptor word (Table 4-10). -/
def tensorDesc (w : Nat) : TensorDesc :=
  { base := field w 255 208, rows := field w 207 176, rowlen := field w 175 156, fmt := field w 155 152
    scheme := field w 151 150, comp := flag w 149, seed := flag w 148, tid := field w 147 132
    metaAt := field w 131 84, scaleAt := field w 83 36, stride := field w 35 0 }

/-- The tensor descriptor at 32-byte offset `td` of tile `t`'s slot (R97). -/
def descOf (s : State) (t td : Nat) : TensorDesc := tensorDesc (loadLe s (tileAddr t (32 * td)) 32)

/-- The format, scheme and compression a descriptor is read and written with: BF16 without scale while it names the
first occurrence of a seeding tensor (R58). -/
def effective (s : State) (d : TensorDesc) : Fmt × Nat × Bool :=
  if d.seed && (tensorOf s d.tid).seedPending then (.bf16, 0, false)
  else ((fmtOfCode d.fmt).getD .fp32, d.scheme, d.comp)

/-- A descriptor with SEED = 0 of a seeding tensor, used by a task that knows no seeded scale of it: no token chain has
brought it one (R58). -/
def seedFault (s : State) (know : List Nat) (d : TensorDesc) : Bool :=
  (tensorOf s d.tid).seedPending && !d.seed && !know.contains d.tid

/-- The row scale word in force for a row of a descriptor (R55, R99). -/
def rowScaleOf (s : State) (ag : Agent) (d : TensorDesc) (row : Nat) : Nat :=
  let t := tensorOf s d.tid
  if t.perRow then viewLe s ag (d.scaleAt + 4 * row) 4 else t.scale

/-- The scheme takes a row scale. -/
def rowScaled (scheme : Nat) : Bool := decide (scheme = 1) || decide (scheme = 2)

/-! ## Rows of operands -/

/-- An expander event: block index in its row and outcome. -/
abbrev XpEvent := Nat × Decoded

/-- One row as an operand: exact values without the row scale, the row scale, whether it is invalid (R52), and what
the expander met. -/
structure OperandRow where
  vals   : List FVal
  scale  : FVal
  bad    : Bool
  blocks : List BlockOut
  events : List XpEvent
  deriving DecidableEq, Repr

/-- The header and tables of a compressed operand (R146). -/
def compHeader (s : State) (ag : Agent) (d : TensorDesc) : CompHeader × List CodeTable :=
  let h := readCompHeader (viewBytes s ag d.base 64)
  (h, (List.range h.ntab).map (fun i => readTable (viewBytes s ag (d.base + 64 + 544 * i) 544)))

/-- The index word of superblock `j` of row `r` of a compressed operand: where its blocks begin, in units of 8 bytes. -/
def compIndex (s : State) (ag : Agent) (d : TensorDesc) (h : CompHeader) (r j : Nat) : Nat :=
  viewLe s ag (d.base + h.indexOff + 4 * (r * ceilDiv h.rowlen 4096 + j)) 4

/-- The checks of R148 on a compressed operand for the rows and superblocks a task reads. -/
def compOk (s : State) (ag : Agent) (d : TensorDesc) (row0 nrows sb0 nsb : Nat) : Bool :=
  let (h, ts) := compHeader s ag d
  let f := (fmtOfCode d.fmt).getD .fp32
  decide (h.version = 1) && decide (h.fmt = d.fmt) && decide (h.rows = d.rows) && decide (h.rowlen = d.rowlen)
    && decide (h.indexOff = 64 + 544 * h.ntab) && ts.all (tableValid f)
    && (List.range nrows).all (fun r => (List.range nsb).all (fun j =>
      decide (compIndex s ag d h (row0 + r) (sb0 + j) * 8 ≤ h.dataLen)))

/-- The row `row` of a descriptor as exact values from element `k0`, `n` of them, without the row scale (R50 to R52,
R72), as the agent reads it. Poisoned and zero blocks decode by their metadata. -/
def operandRow (s : State) (ag : Agent) (d : TensorDesc) (row k0 n : Nat) : OperandRow :=
  let (f, sch, comp) := effective s d
  let sw := rowScaleOf s ag d row
  let bad := rowScaled sch && !posNormal sw
  let sc := if rowScaled sch && !bad then f32 sw else FVal.one
  let one := 0x3F800000
  let per := ceilDiv d.rowlen 32
  let fix (v : FVal) : FVal := if bad then .qnan else v
  let x (b : Nat) : Nat := if sch = 3 then viewByte s ag (d.scaleAt + row * per + b) else 127
  if comp then
    let (h, ts) := compHeader s ag d
    let bl := decodeRow f h ts (fun o m => viewBytes s ag (d.base + o) m) row (k0 / 4096) (ceilDiv n 4096)
    let vals := bl.flatMap (fun p => (List.zip (List.range p.2.elems.length) p.2.elems).map (fun e =>
      let blk := (128 * p.1 + e.1) / 32
      fix (decodeElem f sch one (x blk) (p.2.metas.getD (e.1 / 32) 0) e.2)))
    { vals := vals.take n, scale := sc, bad := bad, blocks := bl.map Prod.snd
      events := (bl.filter (fun p => p.2.outcome ≠ .exact)).map (fun p => (p.1, p.2.outcome)) }
  else
    let raw := viewBytes s ag (d.base + row * d.stride) (f.rowBytes d.rowlen)
    let md (b : Nat) : Nat := if f.narrow then viewByte s ag (d.metaAt + row * per + b) else 0
    { vals := (List.range n).map (fun i =>
        let k := k0 + i
        if k < d.rowlen then fix (decodeElem f sch one (x (k / 32)) (md (k / 32)) (f.elemAt raw k)) else .zero)
      scale := sc, bad := bad, blocks := [], events := [] }

/-- Access a range for a task: a withdrawn class makes no access; answers whether the task faults for it (R107, R326). -/
def taskTouch (ag : Agent) (cls a n : Nat) (s : State) : Bool × State :=
  if n = 0 then (false, s)
  else if rangeWithdrawn s cls a n then (true, s)
  else touch ag cls a n s

/-- Access a list of ranges. -/
def taskTouches (ag : Agent) (cls : Nat) (l : List (Nat × Nat)) (s : State) : Bool × State :=
  l.foldl (fun r p =>
    let (bad, s) := taskTouch ag cls p.1 p.2 r.2
    (r.1 || bad, s)) (false, s)

/-- The ranges a task reads for rows `row0 …` of a descriptor, superblocks `sb0 …` of each: the rows or compressed
blocks, and their side arrays (R99, R146). -/
def operandRanges (s : State) (ag : Agent) (d : TensorDesc) (row0 nrows sb0 nsb : Nat) : List (Nat × Nat) :=
  let (f, sch, comp) := effective s d
  let per := ceilDiv d.rowlen 32
  let data := if comp then
      let h := (compHeader s ag d).1
      let n := ceilDiv h.rowlen 4096
      let lo := compIndex s ag d h row0 sb0 * 8
      let last := (row0 + nrows - 1) * n + sb0 + nsb
      let hi := if last < h.rows * n then viewLe s ag (d.base + h.indexOff + 4 * last) 4 * 8 else h.dataLen
      [(d.base, 64 + 544 * h.ntab), (d.base + h.indexOff + 4 * (row0 * n), 4 * (nrows * n)), (d.base + h.dataOff + lo, hi - lo)]
    else (List.range nrows).map (fun r => (d.base + (row0 + r) * d.stride, f.rowBytes d.rowlen))
  data ++ (if f.narrow && !comp then [(d.metaAt + row0 * per, nrows * per)] else [])
    ++ (if sch = 3 then [(d.scaleAt + row0 * per, nrows * per)] else [])
    ++ (if rowScaled sch && (tensorOf s d.tid).perRow then [(d.scaleAt + 4 * row0, 4 * nrows)] else [])

/-- The whole row with its scale applied: the exact decoded values (R50). -/
def decodedRow (s : State) (ag : Agent) (d : TensorDesc) (row : Nat) : OperandRow :=
  let r := operandRow s ag d row 0 d.rowlen
  let (_, sch, _) := effective s d
  if rowScaled sch then { r with vals := r.vals.map (fun v => fmul v r.scale) } else r

/-! ## Writing output rows -/

/-- What a conversion counted. -/
structure Tally where
  sat   : Nat
  ovf   : Nat
  nf    : Nat
  crush : Nat
  deriving DecidableEq, Repr

/-- Nothing counted. -/
def Tally.zero : Tally := { sat := 0, ovf := 0, nf := 0, crush := 0 }

/-- The sum of two tallies. -/
def Tally.add (a b : Tally) : Tally :=
  { sat := a.sat + b.sat, ovf := a.ovf + b.ovf, nf := a.nf + b.nf, crush := a.crush + b.crush }

/-- Replace the elements from column `c0` of a stored row by codes (R46). -/
def spliceRow (f : Fmt) (rowlen : Nat) (raw : List Byte) (c0 : Nat) (codes : List Nat) : List Byte :=
  f.pack ((List.range rowlen).map (fun i =>
    if c0 ≤ i ∧ i < c0 + codes.length then codes.getD (i - c0) 0 else f.elemAt raw i))

/-- What one tally counts beyond another. -/
def Tally.sub (a b : Tally) : Tally :=
  { sat := a.sat - b.sat, ovf := a.ovf - b.ovf, nf := a.nf - b.nf, crush := a.crush - b.crush }

/-- What a block's conversion counts. -/
def BlockConv.tally (b : BlockConv) : Tally := { sat := b.sat, ovf := b.ovf, nf := b.nf, crush := b.crush }

/-- Blocks of a format and scheme share a metadata or E8M0 byte. -/
def blockShared (f : Fmt) (sch : Nat) : Bool := f.narrow || decide (sch = 3)

/-- The key of an open output block: its row's address and its index in the row. -/
def openKey (d : TensorDesc) (row b : Nat) : Nat := (d.base + row * d.stride) * 2 ^ 15 + b

/-- Write a range for a task; answers whether it faults: an unmapped access or a withdrawn class. -/
def taskWrite (ag : Agent) (cls a : Nat) (bs : List Byte) (s : State) : Bool × State :=
  if bs.isEmpty then (false, s)
  else if rangeWithdrawn s cls a bs.length then (true, s)
  else writeDev ag cls a bs s

/-- One output block: its index, its columns and their codes, metadata byte and E8M0 byte, what it newly counts, and
the values of it that are known so far in this step. -/
structure OutBlock where
  blk   : Nat
  cols  : List Nat
  conv  : BlockConv
  tally : Tally
  known : List (Nat × FVal)
  deriving DecidableEq, Repr

/-- Convert the part of block `b` that a task writes. Where the block shares a byte and other tasks of the step have
written parts of it, the block is converted from the exact values of all of them, so that the parts together give what
one task would have written; columns nobody has written yet take no part (R53, R54, R71, log 67). -/
def partBlock (s : State) (d : TensorDesc) (f : Fmt) (sch sw : Nat) (strict : Bool) (row b c0 : Nat) (vals : List FVal)
    (rs : List Round) : OutBlock :=
  let idx := (List.range vals.length).filter (fun i => (c0 + i) / 32 = b)
  let new := idx.map (fun i => (c0 + i, vals.getD i .zero))
  let old := if blockShared f sch then (sget [] s.openBlk (openKey d row b)).filter (fun p => !(new.map Prod.fst).contains p.1)
    else []
  let conv (l : List (Nat × FVal)) (r : List Round) : BlockConv := convertBlock f sch sw strict r (l.map Prod.snd)
  let c := conv (new ++ old) (idx.map (fun i => rs.getD i .rne))
  { blk := b, cols := (new ++ old).map Prod.fst, conv := c
    tally := if old.isEmpty then c.tally else c.tally.sub (conv old []).tally, known := new ++ old }

/-- Write values into columns `c0 …` of a row of a descriptor: each scale block is converted on its own (R53 to R66), its
codes, metadata byte and E8M0 byte are stored. Answers whether the task faults, what is counted, and the state. -/
def writeRowValues (ag : Agent) (cls : Nat) (d : TensorDesc) (strict : Bool) (row c0 : Nat) (vals : List FVal)
    (rs : List Round) (s : State) : Bool × Tally × State :=
  let (f, sch, _) := effective s d
  let sw := rowScaleOf s ag d row
  let per := ceilDiv d.rowlen 32
  let blks := ((List.range vals.length).map (fun i => (c0 + i) / 32)).eraseDups
  let out := blks.map (fun b => partBlock s d f sch sw strict row b c0 vals rs)
  let at' := d.base + row * d.stride
  let cells := out.flatMap (fun o => List.zip o.cols o.conv.codes)
  let first := cells.foldl (fun a p => min a p.1) c0
  let last := cells.foldl (fun a p => max a p.1) c0
  let raw := viewBytes s ag at' (f.rowBytes d.rowlen)
  let codes := (List.range (last + 1 - first)).map (fun i =>
    match cells.find? (fun p => p.1 = first + i) with
    | some p => p.2
    | none => f.elemAt raw (first + i))
  let lo := first * f.width / 8
  let bytes := ((spliceRow f d.rowlen raw first codes).drop lo).take (ceilDiv ((last + 1) * f.width) 8 - lo)
  let (bad, s) := taskWrite ag cls (at' + lo) bytes s
  let side (b : Bool) (a : Nat) (v : OutBlock → Nat) (r : Bool × State) : Bool × State :=
    if b then out.foldl (fun r o =>
      let (bad, s) := taskWrite ag cls (a + row * per + o.blk) [BitVec.ofNat 8 (v o)] r.2
      (r.1 || bad, s)) r else r
  let (bad, s) := side (sch = 3) d.scaleAt (fun o => o.conv.e8m0) (side f.narrow d.metaAt (fun o => o.conv.md) (bad, s))
  let s := if blockShared f sch then out.foldl (fun s o =>
      let whole := min 32 (d.rowlen - 32 * o.blk)
      { s with openBlk := sput [] s.openBlk (openKey d row o.blk) (if o.known.length = whole then [] else o.known) }) s else s
  (bad, out.foldl (fun t o => t.add o.tally) Tally.zero, s)

/-- Count a tally on a tile and in the target tensor's statistics record (R64, R66 to R68). -/
def tallyTile (t tid : Nat) (y : Tally) (s : State) : State :=
  let s := bumpN s (cTil t 0x100) y.sat
  let s := bumpN s (cTil t 0x108) y.nf
  let s := bumpN s (cTil t 0x110) y.ovf
  statTensor tid (y.sat + y.ovf) y.nf y.crush s

end Sys2Proof.Machine
end

