-- ==== Sys2Proof/Machine/Tile.lean ====
section
/-!
DEFINITION. Tiles: tokens and credits, the sequencer, matrix products, vector chain passes and moves, aborts, fences
and faults (chapters 4, 5 and 6).
-/
namespace Sys2Proof.Machine

/-! ## Task descriptor fields (Table 4-5) -/

def tkOp (w : Nat) : Nat := field w 63 60
def tkStrict (w : Nat) : Bool := flag w 59
def tkDefer (w : Nat) : Bool := flag w 58
def tkSr (w : Nat) : Bool := flag w 57
def tkClass (w : Nat) : Nat := field w 55 52
def tkId (w : Nat) : Nat := field w 51 36

/-- The engine an operation runs on; a no-op uses none. -/
def opEngine : Nat → Option Engine
  | 1 => some .matrix
  | 2 => some .vector
  | 3 => some .move
  | 4 => some .send
  | _ => none

/-- The task an engine of a tile runs. -/
def Tile.engine (t : Tile) : Engine → Option Running
  | .matrix => t.matrix
  | .vector => t.vector
  | .move => t.move
  | .send => t.send

/-- Set the task an engine runs. -/
def Tile.setEngine (t : Tile) (e : Engine) (r : Option Running) : Tile :=
  match e with
  | .matrix => { t with matrix := r }
  | .vector => { t with vector := r }
  | .move => { t with move := r }
  | .send => { t with send := r }

/-- No engine of the tile runs a task. -/
def Tile.allIdle (t : Tile) : Bool := t.matrix.isNone && t.vector.isNone && t.move.isNone && t.send.isNone

/-! ## Slots and pools (R103, R109) -/

/-- Tensors whose seeded scale a slot (0 to 63) or a pool (64 to 95) of a tile knows, and those a message brings (R58). -/
def Tile.learn (ti : Tile) (key : Nat) (know : List Nat) : Tile :=
  if know.isEmpty then ti else { ti with know := sput [] ti.know key ((sget [] ti.know key ++ know).eraseDups) }

/-- A token applied to a slot: ADD saturates and is then counted, SET replaces (R103). -/
def applySlot (t slot : Nat) (set : Bool) (v : Nat) (know : List Nat) (s : State) : State :=
  let ti := tileOf s t
  let old := sget 0 ti.slots slot
  let new := if set then v else satAdd 32 old v
  let s := setTile s t ({ ti with slots := sput 0 ti.slots slot new }.learn slot know)
  if !set && decide (2 ^ 32 ≤ old + v) then bump s (cTil t 0x128) else s

/-- A credit message applied to a pool (R103). -/
def applyCredit (t pool n : Nat) (know : List Nat) (s : State) : State :=
  let ti := tileOf s t
  let old := sget 0 ti.pools pool
  let s := setTile s t ({ ti with pools := sput 0 ti.pools pool (satAdd 16 old n) }.learn (64 + pool) know)
  if 2 ^ 16 ≤ old + n then bump s (cTil t 0x128) else s

/-- A message of a generation that is not the tile's is stale once a step has begun there (R109). -/
def Tile.stale (ti : Tile) (gen : Bool) : Bool := ti.gen.any (fun g => g ≠ gen)

/-! ## Completion and program done (R106 to R108) -/

/-- Both cursors are past the last task. -/
def cursorsDone (s : State) (t : Nat) : Bool :=
  let ti := tileOf s t
  let n := (progOf s t).ntasks
  decide (n ≤ ti.mainCur) && decide (n ≤ ti.deferCur)

/-- The first task of a cursor at or after `i`: those with DEFER equal to `d` (R105); the fuel is the number of
tasks left. -/
def cursorFrom (s : State) (t : Nat) (d : Bool) : Nat → Nat → Nat
  | 0, i => i
  | f + 1, i =>
    if (progOf s t).ntasks ≤ i then i
    else if tkDefer (taskOf s t i) = d then i else cursorFrom s t d f (i + 1)

/-- DEFER_EN of the tile. -/
def deferEn (s : State) (t : Nat) : Bool := (getReg s (tilBase + 0x4000 * t)).testBit 0

/-- Move both cursors onto tasks of their own: with DEFER_EN = 0 the main cursor takes every task (R105). -/
def settleCursors (t : Nat) (s : State) : State :=
  let ti := tileOf s t
  let n := (progOf s t).ntasks
  if deferEn s t then
    setTile s t { ti with mainCur := cursorFrom s t false (n - ti.mainCur) ti.mainCur
                          deferCur := cursorFrom s t true (n - ti.deferCur) ti.deferCur }
  else setTile s t { ti with deferCur := n }

/-- Report program done once both cursors are past the last task, or the tile stopped for an abort, and every engine
is idle (R108, R113). -/
def reportDone (t : Nat) (s : State) : State :=
  let ti := tileOf s t
  if ti.isFenced || ti.reported || !ti.allIdle || ti.prog.isNone then s
  else if ti.mode = .aborting || (ti.mode = .running && cursorsDone s t) then
    tileControl t 0 0x10 (setTile s t { ti with reported := true, mode := .idle })
  else s

/-- Emit one of a task's two tokens, which carry what seeded scales the task knows (R58). -/
def emitToken (t w : Nat) (hi : Nat) (know : List Nat) (s : State) : State :=
  if flag w hi then
    sendKnow know (.token (tokenWord (field w (hi - 1) (hi - 8)) (field w (hi - 9) (hi - 14)) (bit (flag w (hi - 15))) t
      (tileGen s t) (field w (hi - 16) (hi - 31)))) s
  else s

/-- Return a task's credits. -/
def returnCredits (t w : Nat) (know : List Nat) (s : State) : State :=
  if flag w 255 then
    sendKnow know (.credit (BitVec.ofNat 8 t) (creditWord (field w 254 247) (field w 246 242) (tileGen s t) (field w 241 230))) s
  else s

/-- What a task that completes knows: what it knew, and each seeding tensor that it wrote through a SEED = 1 descriptor
(R58). -/
def taskKnow (s : State) (t w : Nat) (know : List Nat) : List Nat :=
  let writes : Bool := match tkOp w with
    | 1 => decide (field w 343 342 ≠ 1)
    | 2 => true
    | _ => false
  if writes then
    let d := descOf s t (field w 477 461)
    if d.seed && (tensorOf s d.tid).seedPending && !know.contains d.tid then know ++ [d.tid] else know
  else know

/-- A task completes: fault status is counted, logged and told to the control complex; tokens and credits go out in
every case (R106, R107). -/
def finishTask (t i : Nat) (e : Option Engine) (fault : Bool) (addr : Nat) (know : List Nat) (s : State) : State :=
  let w := taskOf s t i
  let ti := tileOf s t
  let s := match e with
    | some en => setTile s t (ti.setEngine en none)
    | none => s
  let s := bump s (cTil t 0x168)
  let s := if fault then
      tileControl t (tkId w % 64) 0x11 (slog 3 t 0x140 addr (tkId w) 0 (bump s (cTil t 0x140)))
    else s
  let know := if fault then know else taskKnow s t w know
  reportDone t (returnCredits t w know (emitToken t w 159 know (emitToken t w 191 know s)))

/-! ## The sequencer (R104, R105) -/

/-- Every wait and credit condition of a task holds (R104). -/
def conditionsHold (ti : Tile) (w : Nat) : Bool :=
  (!flag w 127 || decide (field w 120 105 ≤ sget 0 ti.slots (field w 126 121)))
    && (!flag w 104 || decide (field w 97 82 ≤ sget 0 ti.slots (field w 103 98)))
    && (!flag w 81 || decide (field w 75 64 ≤ sget 0 ti.pools (field w 80 76)))

/-- The task's engine is idle. -/
def engineFree (ti : Tile) (w : Nat) : Bool :=
  match opEngine (tkOp w) with
  | some e => (ti.engine e).isNone
  | none => true

/-- Task `i` of tile `t` can start in this cycle. -/
def startable (s : State) (t i : Nat) : Bool :=
  let ti := tileOf s t
  let w := taskOf s t i
  decide (i < (progOf s t).ntasks) && conditionsHold ti w && engineFree ti w

/-- The seeded scales that the messages a task waited for brought (R58). -/
def waitKnow (ti : Tile) (w : Nat) : List Nat :=
  ((if flag w 127 then sget [] ti.know (field w 126 121) else []) ++ (if flag w 104 then sget [] ti.know (field w 103 98) else [])
    ++ (if flag w 81 then sget [] ti.know (64 + field w 80 76) else [])).eraseDups

/-- Reduce a slot by a wait count. -/
def takeSlot (ti : Tile) (en : Bool) (slot n : Nat) : Tile :=
  if en then { ti with slots := sput 0 ti.slots slot (sget 0 ti.slots slot - n) } else ti

/-- Start task `i`: its waits and credits are taken and its cursor advances; a no-op completes at once. -/
def startTask (t i : Nat) (main : Bool) (s : State) : State :=
  let w := taskOf s t i
  let ti := tileOf s t
  let know := waitKnow ti w
  let ti := takeSlot ti (flag w 127) (field w 126 121) (field w 120 105)
  let ti := takeSlot ti (flag w 104) (field w 103 98) (field w 97 82)
  let ti := if flag w 81 then
      { ti with pools := sput 0 ti.pools (field w 80 76) (sget 0 ti.pools (field w 80 76) - field w 75 64) } else ti
  let ti := if main then { ti with mainCur := i + 1 } else { ti with deferCur := i + 1 }
  let ti := match opEngine (tkOp w) with
    | some e => ti.setEngine e (some { task := i, stopping := false, know := know, since := nsOf s })
    | none => ti
  let s := settleCursors t (setTile s t ti)
  match opEngine (tkOp w) with
  | some _ => s
  | none => finishTask t i none false 0 know s

/-- One evaluation of the sequencer (R105): the main task if it is startable, else the deferred one; with neither and
no engine busy the tile stalls (R298). -/
def sequencer (t : Nat) (s : State) : State :=
  let s := settleCursors t s
  let ti := tileOf s t
  if ti.mode ≠ .running ∨ ti.prog.isNone then s
  else if startable s t ti.mainCur then startTask t ti.mainCur true s
  else if deferEn s t && startable s t ti.deferCur then startTask t ti.deferCur false (bump s (cTil t 0x148))
  else if ti.allIdle && !cursorsDone s t then bump s (cTil t 0x150)
  else reportDone t s

/-! ## Matrix products (R91 to R95, R100, chapter 3) -/

/-- The output block and positions per cycle of a task's class (R92, Table 4-2). -/
def matrixShape (strict : Bool) (fa fb : Fmt) : Nat × Nat × Nat :=
  let four (f : Fmt) : Bool := f = .e3m2 || f = .e2m3 || f = .e2m1 || f = .int4
  let sixteen (f : Fmt) : Bool := f = .bf16 || f = .fp16
  if strict then (16, 16, 1)
  else if four fa && four fb then (128, 128, 2)
  else if sixteen fa || sixteen fb then (128, 64, 1)
  else (128, 128, 1)

/-- Fields of a matrix product body (Table 4-6). -/
structure MatrixBody where
  a     : TensorDesc
  b     : TensorDesc
  c     : TensorDesc
  aRow  : Nat
  m     : Nat
  bRow  : Nat
  n     : Nat
  sb0   : Nat
  nsb   : Nat
  k     : Nat
  mode  : Nat
  peer  : Nat
  poff  : Nat
  amax  : Nat
  deriving DecidableEq, Repr

/-- Read a matrix product body. -/
def matrixBody (s : State) (t w : Nat) : MatrixBody :=
  { a := descOf s t (field w 511 495), b := descOf s t (field w 494 478), c := descOf s t (field w 477 461)
    aRow := field w 460 441, m := field w 440 425 + 1, bRow := field w 424 405, n := field w 404 389 + 1
    sb0 := field w 388 378, nsb := field w 377 367, k := field w 366 344, mode := field w 343 342
    peer := field w 341 334, poff := field w 333 312, amax := field w 311 290 }

/-- The K positions a task covers: first and count. -/
def MatrixBody.range (b : MatrixBody) : Nat × Nat := (4096 * b.sb0, min (4096 * b.nsb) (b.k - 4096 * b.sb0))

/-- The leaf values of a task's own range for one output element: superblock values, or strict superblock sums. -/
def ownLeaves (strict : Bool) (ts : Terms) : List Traced :=
  if strict then (runsOf 4096 ts.length ts).map dotStrict else (superblocks ts).map (fun v => (v, false))

/-- The addition of the combining tree in a mode. -/
def treeAdd (strict : Bool) (x y : Traced) : Traced := if strict then addTraced x y else (add36 x.1 y.1, false)

/-- Bytes of a partial-node area's map (R100). -/
def nodeMapLen (b : MatrixBody) : Nat := ceilDiv (ceilDiv b.k 4096) 64 * 64

/-- The byte offset of the slot of output element `e` and superblock `j` in a partial-node area (R100). -/
def nodeSlot (b : MatrixBody) (e j : Nat) : Nat := b.poff + nodeMapLen b + 8 * (e * ceilDiv b.k 4096 + j)

/-- The walk of R100 from a position at round `l` starting at superblock `j`: own nodes are computed, received nodes
are read, and other positions descend; `none` where a node was never sent (Table 3-4). The fuel is the round plus 1. -/
def walkTree (s : State) (t : Nat) (b : MatrixBody) (strict : Bool) (e : Nat) (leaves : List Traced) :
    Nat → Nat → Nat → Option Traced
  | 0, _, _ => none
  | f + 1, l, j =>
    let nsb := ceilDiv b.k 4096
    let hi := min (j + 2 ^ l) nsb
    if b.sb0 ≤ j ∧ hi ≤ b.sb0 + b.nsb then
      some (tree (treeAdd strict) (.zero, false) ((leaves.drop (j - b.sb0)).take (hi - j)))
    else if (byteAt s (tileAddr t (b.poff + j))).toNat = l then
      let w := loadLe s (tileAddr t (nodeSlot b e j)) 8
      some (if strict then f32 (w % 2 ^ 32) else psumDecode w, false)
    else match l with
      | 0 => none
      | l' + 1 =>
        if j + 2 ^ l' < nsb then
          match walkTree s t b strict e leaves f l' j, walkTree s t b strict e leaves f l' (j + 2 ^ l') with
          | some x, some y => some (treeAdd strict x y)
          | _, _ => none
        else walkTree s t b strict e leaves f l' j

/-- The index of the output block that element `(i, j)` lies in, A blocks outer (R94). -/
def outBlock (shape : Nat × Nat × Nat) (n i j : Nat) : Nat := i / shape.1 * ceilDiv n shape.2.1 + j / shape.2.1

/-- What the rows of one operand met in the expander, counted once per task (R159, Table 6-9). -/
def countExpander (t : Nat) (task : Nat) (port : Nat) (rows : List OperandRow) (s : State) : State :=
  let bl := rows.flatMap (fun r => r.blocks)
  let cnt (p : BlockOut → Bool) : Nat := (bl.filter p).length
  let s := bumpN s (cTil t 0x180) bl.length
  let s := bumpN s (cTil t 0x188) (cnt (fun b => b.kind = 1))
  let s := bumpN s (cTil t 0x190) (cnt (fun b => b.kind = 2))
  let s := bumpN s (cTil t 0x198) (cnt (fun b => b.outcome = .long))
  let s := bumpN s (cTil t 0x1A0) (cnt (fun b => b.outcome = .short))
  let s := bumpN s (cTil t 0x1A8) (cnt (fun b => b.outcome = .badHeader))
  match rows.flatMap (fun r => r.events) with
  | [] => s
  | (blk, o) :: _ =>
    let a := tilBase + 0x4000 * t + 0x1C0
    if flag (getReg s a) 31 then s
    else
      let ev := match o with
        | .long => 1
        | .short => 2
        | _ => 3
      setReg s a (2 ^ 31 + port * 2 ^ 30 + ev * 2 ^ 28 + blk % 2 ^ 15 * 2 ^ 13 + task % 2 ^ 13)

/-- Append an amax record (R137, Table 5-6), except for a grid record's tensor, whose measurements are discarded where
they are combined (R554). -/
def logAmax (t tid : Nat) (nf : Bool) (amax : Nat) (s : State) : State :=
  let ti := tileOf s t
  setTile s t { ti with amaxLog := ti.amaxLog ++ [tid * 2 ^ 48 + bit nf * 2 ^ 33 + 2 ^ 32 + amax] }

/-- Descriptor offsets a task references (R97, Tables 4-6 and 4-7); the output of a partial-node task is unused. -/
def taskDescs (w : Nat) : List Nat :=
  match tkOp w with
  | 1 => [field w 511 495, field w 494 478] ++ (if field w 343 342 = 1 then [] else [field w 477 461])
  | 2 => [field w 511 495] ++ (if field w 494 478 = 0 then [] else [field w 494 478]) ++ [field w 477 461]
  | _ => []

/-- Every tensor descriptor that a loaded program's tasks reference. -/
def loadedDescs (s : State) : List TensorDesc :=
  (List.range 96).flatMap (fun t => match (tileOf s t).prog with
    | none => []
    | some p => (((List.range p.ntasks).flatMap (fun i => taskDescs (taskOf s t i))).eraseDups).map (descOf s t))

/-- Write the scale of row `r` of a per-row tensor where every loaded descriptor of it reads row scales (R99). -/
def storeRowScale (tid r w : Nat) (s : State) : State :=
  ((loadedDescs s).filter (fun d => decide (d.tid = tid) && decide (r < d.rows)
      && (decide (d.scheme = 1) || decide (d.scheme = 2)))).foldl (fun s d =>
    writeTo .lintel 13 (d.scaleAt + 4 * r) (leBytes 4 w) s) s

/-- The provisional entry of a seeding tensor grows with the measurement, and the seeded scale comes into force
(R57, R58). -/
def seedMeasure (d : TensorDesc) (rows : List (Nat × Nat)) (amax : Nat) (s : State) : State :=
  let tn := tensorOf s d.tid
  if d.seed && tn.seedPending then
    let h := match tn.seedAmax with
      | none => f32 amax
      | some a => fmax (f32 a) (f32 amax)
    let f := (fmtOfCode d.fmt).getD .fp32
    let sc (x : FVal) : Nat := delayedScale f tn.pow2 tn.margin x
    let s := setTensor s d.tid { tn with seedAmax := some (to32 h), scale := if tn.perRow then 0 else sc h, src := 1 }
    if tn.perRow then rows.foldl (fun s p => storeRowScale d.tid p.1 (sc (f32 p.2)) s) s else s
  else s

/-- A measuring task records its output's amax: one record, or a per-row array word (R137, R139). -/
def measure (ag : Agent) (cls t : Nat) (d : TensorDesc) (rowOff : Nat) (rows : List (Nat × Nat)) (nf : Bool) (s : State) : State :=
  let narrow := ((fmtOfCode d.fmt).getD .fp32).narrow
  if !narrow then s
  else
    let all := to32 (rows.foldl (fun a p => fmax a (f32 p.2)) .zero)
    if (tensorOf s d.tid).perRow then
      let s := rows.foldl (fun s p =>
        let a := tileAddr t (rowOff + 4 * p.1)
        writeTo ag cls a (leBytes 4 (to32 (fmax (f32 (viewLe s ag a 4)) (f32 p.2)))) s) s
      seedMeasure d (rows.map (fun p => (p.1, viewLe s ag (tileAddr t (rowOff + 4 * p.1)) 4))) all s
    else logAmax t d.tid nf all (seedMeasure d rows all s)

/-- What a matrix task works on: its operand rows and which of them its output blocks below a limit use (R94). -/
structure MatrixWork where
  b     : MatrixBody
  strict : Bool
  shape : Nat × Nat × Nat
  /-- superblocks of the whole K -/
  nsb   : Nat
  limit : Nat
  rowsA : List (Nat × OperandRow)
  rowsB : List (Nat × OperandRow)
  deriving DecidableEq, Repr

/-- The leaves of one output element. -/
def MatrixWork.leaves (m : MatrixWork) (x y : OperandRow) : List Traced := ownLeaves m.strict (List.zip x.vals y.vals)

/-- Read a matrix task's operand rows: A and B rows of the blocks run, A blocks outer. -/
def matrixWork (s : State) (ag : Agent) (b : MatrixBody) (strict : Bool) (limit : Nat) : MatrixWork :=
  let shape := matrixShape strict (effective s b.a).1 (effective s b.b).1
  let (k0, nk) := b.range
  { b := b, strict := strict, shape := shape, nsb := ceilDiv b.k 4096, limit := limit
    rowsA := ((List.range b.m).filter (fun i => outBlock shape b.n i 0 < limit)).map (fun r =>
      (r, operandRow s ag b.a (b.aRow + r) k0 nk))
    rowsB := ((List.range b.n).filter (fun j => outBlock shape b.n 0 j < limit)).map (fun r =>
      (r, operandRow s ag b.b (b.bRow + r) k0 nk)) }

/-- What the operands of a matrix task count: expander events with one token to the step's non-finite slot, and rows
with an invalid row scale (R159, R52). -/
def countOperands (t i : Nat) (m : MatrixWork) (ca cb : Bool) (s : State) : State :=
  let (ra, rb) := (m.rowsA.map Prod.snd, m.rowsB.map Prod.snd)
  let s := countExpander t i 1 (if cb then rb else []) (countExpander t i 0 (if ca then ra else []) s)
  let s := if (ra ++ rb).any (fun r => !r.events.isEmpty) then sendToken 0x6D 1 0 t (tileGen s t) 1 s else s
  bumpN s (cTil t 0x120) ((ra ++ rb).filter (fun r => r.bad)).length

/-- One more write of a task, which faults if an earlier one did or this one does. -/
def writeMore (ag : Agent) (cls a : Nat) (bs : List Byte) (r : Bool × State) : Bool × State :=
  let w := taskWrite ag cls a bs r.2
  (r.1 || w.1, w.2)

/-- Send the tree nodes of a partial-node task to the output tile: the node map and, for each output element, each
node's slot (R84, R100). An overflow of strict mode is counted where it happens (R68). -/
def sendNodes (t : Nat) (ag : Agent) (cls : Nat) (m : MatrixWork) (s : State) : Bool × State :=
  let b := m.b
  let nodes := maxNodes m.nsb b.sb0 (b.sb0 + b.nsb)
  let start (p : Nat × Nat) : Nat := p.2 * 2 ^ p.1
  let count (p : Nat × Nat) : Nat := min ((p.2 + 1) * 2 ^ p.1) m.nsb - start p
  let r := nodes.foldl (fun r p =>
    writeMore ag cls (tileAddr b.peer (b.poff + start p)) [BitVec.ofNat 8 (nodeRound (count p))] r) (false, s)
  m.rowsA.foldl (fun r ra => m.rowsB.foldl (fun r rb =>
    if outBlock m.shape b.n ra.1 rb.1 < m.limit then
      let ls := m.leaves ra.2 rb.2
      nodes.foldl (fun r p =>
        let v := tree (treeAdd m.strict) (.zero, false) ((ls.drop (start p - b.sb0)).take (count p))
        let r := writeMore ag cls (tileAddr b.peer (nodeSlot b (ra.1 * b.n + rb.1) (start p)))
          (leBytes 8 (if m.strict then to32 v.1 else psumEncode v.1)) r
        (r.1, if v.2 then bump r.2 (cTil t 0x110) else r.2)) r
    else r) r) r

/-- An output element: its column, the root of its tree, and the value that is converted, with whether an operation of
strict mode overflowed on the way (R80, R88). -/
structure OutElem where
  col  : Nat
  root : FVal
  val  : FVal
  ovf  : Bool
  deriving DecidableEq, Repr

/-- Apply the row scales to a tree root. -/
def outElem (strict scaled : Bool) (col : Nat) (tv : Traced) (sa sb : FVal) : OutElem :=
  if strict then
    if scaled then
      let r := mulTraced (mulTraced tv sa) sb
      { col := col, root := tv.1, val := if r.1.isNan then .qnan else r.1, ovf := r.2 }
    else { col := col, root := tv.1, val := tv.1, ovf := tv.2 }
  else { col := col, root := tv.1, val := scaleResult tv.1 sa sb, ovf := false }

/-- The output rows of a task; `none` when a tree node that it needs was never sent. -/
def outRows (s : State) (t : Nat) (m : MatrixWork) : Option (List (Nat × List OutElem)) :=
  let b := m.b
  let scaled := rowScaled (effective s b.a).2.1 || rowScaled (effective s b.b).2.1
  let root (e : Nat) (ls : List Traced) : Option Traced :=
    if b.mode = 2 then
      let top := nodeRound m.nsb
      walkTree s t b m.strict e ls (top + 1) top 0
    else some (tree (treeAdd m.strict) (.zero, false) ls)
  m.rowsA.mapM (fun ra => do
    let l ← (m.rowsB.filter (fun rb => outBlock m.shape b.n ra.1 rb.1 < m.limit)).mapM (fun rb => do
      let tv ← root (ra.1 * b.n + rb.1) (m.leaves ra.2 rb.2)
      pure (outElem m.strict scaled rb.1 tv ra.2.scale rb.2.scale))
    pure (ra.1, l))

/-- Write a matrix task's output rows, count what they count, and record amax if `full` (R80 to R83, R137). -/
def writeOutput (t : Nat) (ag : Agent) (cls : Nat) (m : MatrixWork) (rows : List (Nat × List OutElem)) (full : Bool)
    (s : State) : Bool × State :=
  let b := m.b
  let all := rows.flatMap Prod.snd
  let s := bumpN s (cTil t 0x118) (all.filter (fun p => !p.root.isFin)).length
  let (bad, y, s) := rows.foldl (fun (acc : Bool × Tally × State) r =>
    match r.2 with
    | [] => acc
    | p :: _ =>
      let (bad, y, s) := writeRowValues ag cls b.c m.strict (b.aRow + r.1) (b.bRow + p.col) (r.2.map OutElem.val) [] acc.2.2
      (acc.1 || bad, acc.2.1.add y, s)) (false, Tally.zero, s)
  let s := tallyTile t b.c.tid { y with ovf := y.ovf + (all.filter OutElem.ovf).length } s
  let am := rows.map (fun r => (b.aRow + r.1, amaxWord (r.2.map OutElem.val)))
  (bad, if full then measure ag cls t b.c b.amax am (all.any (fun p => !p.val.isFin)) s else s)

/-- Run a matrix task's output blocks below `limit`, and record amax if `full`. Answers whether the task faults: a
seeding tensor used too early, a compressed operand that fails its checks, an access, or a tree node never sent. -/
def matrixRun (t i limit : Nat) (full : Bool) (know : List Nat) (s : State) : Bool × State :=
  let w := taskOf s t i
  let b := matrixBody s t w
  let ag := Agent.tile t (progOf s t).domain
  let cls := tkClass w
  let (_, _, ca) := effective s b.a
  let (_, _, cb) := effective s b.b
  if seedFault s know b.a || seedFault s know b.b || (b.mode ≠ 1 && seedFault s know b.c) then (true, s)
  else if (ca && !compOk s ag b.a b.aRow b.m b.sb0 b.nsb) || (cb && !compOk s ag b.b b.bRow b.n b.sb0 b.nsb) then
    (true, bump s (cTil t 0x1B0))
  else
    let m0 := matrixWork s ag b (tkStrict w) limit
    let (bad, s) := taskTouches ag cls (operandRanges s ag b.a b.aRow m0.rowsA.length b.sb0 b.nsb
      ++ operandRanges s ag b.b b.bRow m0.rowsB.length b.sb0 b.nsb
      ++ (if b.mode = 2 then [(tileAddr t b.poff, nodeMapLen b + 8 * (b.m * b.n * m0.nsb))] else [])) s
    if (tileOf s t).isFenced then (bad, s)
    else
      let m := matrixWork s ag b (tkStrict w) limit
      let s := countOperands t i m ca cb s
      if b.mode = 1 then
        let (bad', s) := sendNodes t ag cls m s
        (bad || bad', s)
      else match outRows s t m with
        | none => (true, s)
        | some rows =>
          let (bad', s) := writeOutput t ag cls m rows full s
          (bad || bad', s)

/-! ## Vector chain passes (chapter 5) -/

/-- Fields of a pass body (Table 4-7). -/
structure PassBody where
  in0   : TensorDesc
  in1   : Option TensorDesc
  out   : TensorDesc
  off   : Nat
  len   : Nat
  row0  : Nat
  nrows : Nat
  layer : Nat
  deriving DecidableEq, Repr

/-- Read a pass body. -/
def passBody (s : State) (t w : Nat) : PassBody :=
  { in0 := descOf s t (field w 511 495)
    in1 := if field w 494 478 = 0 then none else some (descOf s t (field w 494 478))
    out := descOf s t (field w 477 461), off := field w 460 442, len := field w 441 436
    row0 := field w 435 404, nrows := field w 403 372, layer := field w 371 356 }

/-- The keys of the module's random words (R132). -/
def randKey (s : State) : RandKey := { seed := s.host.jobSeed, salt := s.stp.rc.salt, step := s.stp.rc.step }

/-- One input row at the lanes: decoded and converted once to binary32, saturations counted (R122). -/
def lanesOf (s : State) (ag : Agent) (d : TensorDesc) (row : Nat) : List FVal × Nat × Bool :=
  let r := decodedRow s ag d row
  let cs := r.vals.map (fun v => Fmt.fp32.convert false .rne v 1 0)
  (cs.map (fun c => f32 c.code), (cs.filter (fun c => c.sat)).length, r.bad)

/-- One row of a pass once the chain has run: its index, its row, the chain's result, saturations and invalid scales. -/
structure PassRow where
  idx : Nat
  row : Nat
  out : RowState
  sat : Nat
  bad : Nat
  deriving DecidableEq, Repr

/-- Run the chain over the first `limit` rows of a pass. -/
def passRows (s : State) (t : Nat) (ag : Agent) (b : PassBody) (words : List ChainWord) (limit : Nat) : List PassRow :=
  let env : PassEnv :=
    { cache := fun o => loadLe s (tileAddr t (0x300000 + o)) 4, key := randKey s, layer := b.layer
      outTid := b.out.tid, rowlen := b.out.rowlen }
  (List.range (min b.nrows limit)).map (fun r =>
    let row := b.row0 + r
    let (xs, n0, b0) := lanesOf s ag b.in0 row
    let (ys, n1, b1) := match b.in1 with
      | some d => lanesOf s ag d row
      | none => ([], 0, false)
    { idx := r, row := row, out := chainRow env words row xs ys, sat := n0 + n1, bad := bit b0 + bit b1 })

/-- Write one row of a pass: its output and the records of its VQ stages (R142). -/
def writePassRow (t : Nat) (ag : Agent) (cls : Nat) (b : PassBody) (words : List ChainWord) (sr : Bool) (r : PassRow) (s : State) :
    Bool × Tally × State :=
  let rs := if sr then (List.range r.out.xs.length).map (fun c =>
      Round.sr (randWord (randKey s) 1 0 b.layer b.out.tid (r.row * b.out.rowlen + c))) else []
  let v := writeRowValues ag cls b.out false r.row 0 r.out.xs rs s
  let w := (List.zip (List.range r.out.recs.length) r.out.recs).foldl (fun a q =>
    let wide := ((words.filter (fun x => x.stage = 0x28)).map (fun x => x.f)).getD q.1 false
    let len := vqRecordLen wide (ceilDiv b.out.rowlen 8)
    writeMore ag cls (tileAddr t (q.2.1 + r.idx * len)) (vqRecord wide q.2.2.1 q.2.2.2) a) (v.1, v.2.2)
  (w.1, v.2.1, w.2)

/-- Run the first `limit` rows of a pass, recording amax if `full`. Answers whether the task faults. -/
def passRun (t i limit : Nat) (full : Bool) (know : List Nat) (s : State) : Bool × State :=
  let w := taskOf s t i
  let b := passBody s t w
  let ag := Agent.tile t (progOf s t).domain
  let cls := tkClass w
  let words := (sget [] (progOf s t).chain (b.off * 64 + b.len)).map chainWord
  if seedFault s know b.in0 || seedFault s know b.out || b.in1.any (seedFault s know) then (true, s)
  else
    let n := min b.nrows limit
    let (bad, s) := taskTouches ag cls (operandRanges s ag b.in0 b.row0 n 0 (ceilDiv b.in0.rowlen 4096)
      ++ (b.in1.map (fun d => operandRanges s ag d b.row0 n 0 (ceilDiv d.rowlen 4096))).getD []) s
    if (tileOf s t).isFenced then (bad, s)
    else
      let last := words.getLastD (chainWord 0)
      let rows := passRows s t ag b words limit
      let (bad, y, s) := rows.foldl (fun (acc : Bool × Tally × State) r =>
        let (bad, y, s) := writePassRow t ag cls b words (tkSr w) r acc.2.2
        (acc.1 || bad, acc.2.1.add y, s)) (bad, Tally.zero, s)
      let s := tallyTile t b.out.tid y s
      let s := bumpN s (cTil t 0x100) (rows.foldl (fun a r => a + r.sat) 0)
      let s := bumpN s (cTil t 0x120) (rows.foldl (fun a r => a + r.bad) 0)
      let nf := rows.any (fun r => r.out.nf || r.out.xs.any (fun v => !v.isFin))
      let s := if nf && last.f then sendToken 0x6D 1 0 t (tileGen s t) 1 s else s
      let am := rows.map (fun r => (r.row, amaxWord r.out.xs))
      (bad, if full then measure ag cls t b.out (last.imm % 2 ^ 22) am nf s else s)

/-! ## Moves -/

/-- Run the first `limit` bytes of a move, row after row. Answers whether the task faults: an unmapped access, a
poisoned line, or a withdrawn class (R107, R180, R326). -/
def moveRun (t i limit : Nat) (s : State) : Bool × State :=
  let w := taskOf s t i
  let src := field w 511 464
  let dst := field w 463 416
  let len := field w 415 384
  let cls := tkClass w
  let ag := Agent.tile t (progOf s t).domain
  (List.range (field w 383 368 + 1)).foldl (fun (acc : Bool × State) r =>
    let n := min len (limit - r * len)
    if n = 0 ∨ (tileOf acc.2 t).isFenced then acc
    else
      let a := src + r * field w 367 336
      let d := dst + r * field w 335 304
      if rangeWithdrawn acc.2 cls a n || rangeWithdrawn acc.2 cls d n then (true, acc.2)
      else
        let (o, s) := readDev ag cls a n acc.2
        if (tileOf s t).isFenced then (true, s)
        else
          let (bad, s) := writeDev ag cls d o.data s
          (acc.1 || o.bad || bad || decide (0 < o.poison), s)) (false, s)

/-! ## Fences and aborts (R113 to R116) -/

/-- A tile takes an abort: it starts no further task, and its running tasks stop at their boundaries (R113). -/
def abortTile (t : Nat) (s : State) : State :=
  let ti := tileOf s t
  let stop (r : Option Running) : Option Running := r.map (fun x => { x with stopping := true })
  if ti.isFenced || ti.prog.isNone || ti.mode = .idle then s
  else
    reportDone t (setTile s t { ti with mode := .aborting, matrix := stop ti.matrix, vector := stop ti.vector
                                        move := stop ti.move, send := stop ti.send })

/-- A tile takes a step-begin token (R109): slots and pools from the program's tables, cursors at the start, the
token's generation, and it begins issuing. -/
def beginTile (t : Nat) (gen : Bool) (s : State) : State :=
  let ti := tileOf s t
  match ti.prog with
  | none => s
  | some p =>
    let sl := (List.range 64).foldl (fun m i => sput 0 m i (loadLe s (tileAddr t (p.off + 64 + 4 * i)) 4)) []
    let pl := (List.range 32).foldl (fun m i => sput 0 m i (loadLe s (tileAddr t (p.off + 320 + 2 * i)) 2)) []
    settleCursors t (setTile s t { ti with slots := sl, pools := pl, know := [], mainCur := 0, deferCur := 0, gen := some gen
                                           mode := .running, reported := false, matrix := none, vector := none
                                           move := none, send := none })

/-! ## Messages at a tile (R103, R104, R108 to R110, R115) -/

/-- A control token at a tile (Table 4-14): a reserved code is discarded and counted; a step-begin token sets the
generation that the others are held to. -/
def controlMessage (t : Nat) (w : W64) (s : State) : State :=
  if tokValue w = 1 then beginTile t (tokGen w) s
  else if (tileOf s t).stale (tokGen w) then bump s (cTil t 0x130)
  else if tokValue w = 2 then abortTile t s
  else if tokValue w = 3 then fenceTile t 6 0 s
  else bump s (cTil t 0x130)

/-- A message at a tile's ejection port: dropped while the tile is fenced, discarded when stale or reserved, and
otherwise applied (R103, R108, R109, R115). -/
def tileMessage (t : Nat) (know : List Nat) (m : Msg) (s : State) : State :=
  let ti := tileOf s t
  if ti.isFenced then bump s (cTil t 0x138)
  else match m with
    | .credit _ w =>
      if ti.stale (flag w.toNat 18) then bump s (cTil t 0x130)
      else applyCredit t (field w.toNat 23 19) (field w.toNat 15 0) know s
    | .token w =>
      if tokKind w = 2 then controlMessage t w s
      else if ti.stale (tokGen w) ∨ tokKind w = 3 then bump s (cTil t 0x130)
      else applySlot t (tokSlot w) (tokKind w = 1) (tokValue w) know s

/-- Waiting at a tile's ejection port (R110): the port applies 4 messages a cycle and a message waits one cycle per 4
ahead of it. How many of those on their way reach the port before it in its cycles is below the model's time, so a free
value says how long it waited (log 68). -/
def ejectWait (t near : Nat) (s : State) : State :=
  if near < 4 then s
  else
    let (f, s) := free32 s
    bumpN s (cTil t 0x158) (f % (near / 4 + 1))

/-- A message reaches a tile. -/
def tileArrival (m : Msg) (s : State) : State :=
  match arriveFrom m s with
  | none => s
  | some a => if m.ends.2 < 96 then tileMessage m.ends.2 a.know m (ejectWait m.ends.2 a.near a.s) else a.s

/-- The register image TIL_STATUS (Table 4-19). -/
def tilStatus (s : State) (t : Nat) : Nat :=
  let ti := tileOf s t
  let stalled := ti.mode = .running && ti.allIdle && !startable s t ti.mainCur
    && !(deferEn s t && startable s t ti.deferCur)
  let st := match ti.mode with
    | .idle => 0
    | .running => if stalled then 2 else 1
    | .aborting => 3
    | .fenced => 4
  st * 2 ^ 29 + ti.mainCur % 2 ^ 13 * 2 ^ 16 + ti.deferCur % 2 ^ 13 * 2 ^ 3 + bit ti.matrix.isSome * 4
    + bit ti.vector.isSome * 2 + bit ti.move.isSome

/-- The register image TIL_FAULT (Table 4-20). -/
def tilFault (s : State) (t : Nat) : Nat := (tileOf s t).cause * 2 ^ 28 + (tileOf s t).faultTask % 2 ^ 13

/-! ## The commands -/

/-- TOKEN_ARRIVAL (R103, R104, R109, R115): an ADD or SET token reaches a tile. -/
def execTokenArrival (token : W64) (s : State) : Host.Outcome State Fault Refusal :=
  .next (tileArrival (.token token) s)

/-- CREDIT_ARRIVAL (R103). -/
def execCreditArrival (src : Byte) (credit : W32) (s : State) : Host.Outcome State Fault Refusal :=
  .next (tileArrival (.credit src credit) s)

/-- Bit errors arrive in the memory of a tile (R121). -/
def tileUpsets (t : Nat) (us : List Upset) (s : State) : State :=
  us.foldl (fun s u => match classify u.addr.toNat with
    | .tileMem t' _ => if t' = t then addUpset u.addr.toNat u.bits.toNat s else s
    | _ => s) s

/-- TASK_START (R104, R105): one evaluation of a tile's sequencer; `upsets` are the bit errors that its memory has taken
since the last one. -/
def execTaskStart (visit : TileVisit) (s : State) : Host.Outcome State Fault Refusal :=
  .next (
    let t := visit.tile.toNat
    if t < 96 then sequencer t (tileUpsets t visit.upsets s) else s)

/-- A task of an engine completes by `run`, if one is running and not stopping for an abort; a tile that its own reads
fence discards what the task had not written (R114). -/
def completeTask (t : Nat) (e : Engine) (run : Nat → List Nat → State → Bool × State) (addr : Nat → Nat) (s : State) : State :=
  match (tileOf s t).engine e with
  | some r =>
    if r.stopping then s
    else
      let (fault, s') := run r.task r.know s
      if (tileOf s' t).isFenced then s' else finishTask t r.task (some e) fault (addr r.task) r.know s'
  | none => s

/-- More output blocks, rows or bytes than any task has. -/
def noLimit : Nat := 2 ^ 60

/-- MATRIX_TASK_COMPLETE (R94, R106). -/
def execMatrixTaskComplete (tile : BitVec 7) (s : State) : Host.Outcome State Fault Refusal :=
  .next (completeTask tile.toNat .matrix (fun i know s => matrixRun tile.toNat i noLimit true know s) (fun _ => 0) s)

/-- VECTOR_PASS_COMPLETE (R122 to R143, R106). -/
def execVectorPassComplete (tile : BitVec 7) (s : State) : Host.Outcome State Fault Refusal :=
  .next (completeTask tile.toNat .vector (fun i know s => passRun tile.toNat i noLimit true know s) (fun _ => 0) s)

/-- MOVE_TASK_COMPLETE (R106). -/
def execMoveTaskComplete (tile : BitVec 7) (s : State) : Host.Outcome State Fault Refusal :=
  .next (completeTask tile.toNat .move (fun i _ s => moveRun tile.toNat i noLimit s)
    (fun i => field (taskOf s tile.toNat i) 511 464) s)

/-- STEP_BEGIN_TOKEN (R109). -/
def execStepBeginToken (token : W64) (s : State) : Host.Outcome State Fault Refusal :=
  .next (tileArrival (.token token) s)

/-- ABORT_TOKEN (R113). -/
def execAbortToken (token : W64) (s : State) : Host.Outcome State Fault Refusal :=
  .next (tileArrival (.token token) s)

/-- FENCE_TOKEN (R108, R114): the control complex fences a tile, cause 0x6. -/
def execFenceToken (token : W64) (s : State) : Host.Outcome State Fault Refusal :=
  .next (tileArrival (.token token) s)

/-- The course network discards the `n`th message in flight (R111, R121). -/
def dropMessage (n : Option (BitVec 16)) (s : State) : State :=
  match n with
  | none => s
  | some i => { s with course := s.course.eraseIdx i.toNat }

/-- TILE_FAULT_DETECT (R114, R121, Table 4-20): a fault of the tile's memory, router or engines fences it; a router that
finds wrong parity discards the message, `msg` counted from the oldest in flight. -/
def execTileFaultDetect (tile : BitVec 7) (cause : TileCause) (task : BitVec 13) (s : State) :
    Host.Outcome State Fault Refusal :=
  .next (
    let c := cause.code.toNat
    if tile.toNat < 96 ∧ 1 ≤ c ∧ c ≤ 5 then
      fenceTile tile.toNat c task.toNat (if c = 4 then dropMessage cause.msg s else s)
    else s)

/-- TASK_LIMIT_EXPIRY (R114, Table 4-18): the task of an engine has run longer than TASK_LIMIT × 65,536 cycles, which last
4 / 7 ns each at the fastest tile clock (R519) and more at a slower one; a task that is
stopping for an abort is left to stop (Table 4-16). -/
def execTaskLimitExpiry (tile : BitVec 7) (engine : Engine) (s : State) : Host.Outcome State Fault Refusal :=
  .next (
    let t := tile.toNat
    match (tileOf s t).engine engine with
    | some r =>
      let limit := field (getReg s (tilBase + 0x4000 * t)) 31 16
      if r.stopping || limit = 0 || decide (7 * (nsOf s - r.since) < 4 * 65536 * limit) then s else fenceTile t 3 r.task s
    | none => s)

end Sys2Proof.Machine
end

