-- ==== Sys2Proof/Machine/Host.lean ====
section
/-!
DEFINITION. The host interface: queues and doorbells, resets of the link, the aperture, and the management and
memory-move commands (chapter 15).
-/
namespace Sys2Proof.Machine

/-! ## Results of commands -/

/-- What a command's own part answers: the state, its status and detail (Table 15-5), and whether the reply is
deferred to a later event (R441). -/
structure KRes where
  s        : State
  status   : Nat
  detail   : Nat
  deferred : Bool
  deriving DecidableEq, Repr

/-- SUCCESS with a detail. -/
def kOk (detail : Nat) (s : State) : KRes := { s := s, status := 0, detail := detail, deferred := false }
/-- A refusal: the state is unchanged (R443). -/
def kFail (status detail : Nat) (s : State) : KRes := { s := s, status := status, detail := detail, deferred := false }
/-- Accepted, with the reply deferred. -/
def kDefer (s : State) : KRes := { s := s, status := 0, detail := 0, deferred := true }

/-- Status codes (Table 15-5). -/
def stParameter : Nat := 1
def stOpcode : Nat := 2
def stVersion : Nat := 3
def stBusy : Nat := 4
def stActive : Nat := 5
def stStepMismatch : Nat := 6
def stGenMismatch : Nat := 7
def stResumePending : Nat := 8
def stLate : Nat := 9
def stConfiguration : Nat := 0xA
def stFault : Nat := 0xB
def stThermal : Nat := 0xC
def stQuota : Nat := 0xD
def stSpace : Nat := 0xE
def stPlacement : Nat := 0xF
def stIntegrity : Nat := 0x10
def stPoison : Nat := 0x11
def stRejected : Nat := 0x12
def stDma : Nat := 0x13
def stLocked : Nat := 0x14
def stAborted : Nat := 0x15
def stFatal : Nat := 0x16
def stSecurity : Nat := 0x17
def stJobAborted : Nat := 0x18

/-- Count a transfer the DMA windows refuse (R437). -/
def dmaRefuse (s : State) : KRes := kFail stDma 0 (bump s (cHif 0x118))

/-- A command with a host buffer: the range is checked first (R443 step 6). -/
def withBuf (h : CmdHdr) (buf : Buf) (s : State) (k : KRes) : KRes :=
  if h.mctp || dmaOk s buf.addr.toNat buf.len.toNat then k else dmaRefuse s

/-- Write a result to a command's buffer, and then apply what the command clears; a result longer than the buffer is
not written and clears nothing (R443). On the management path the bytes follow the reply (R456). -/
def deliver (h : CmdHdr) (buf : Buf) (data : List Byte) (clear : State → State) (detail : Nat) (s : State) : KRes :=
  if h.mctp then kOk detail (clear (emit (.mctp data) s))
  else if buf.len.toNat < data.length then kFail stParameter data.length s
  else kOk detail (clear (hostWrite buf.addr.toNat data s))

/-! ## Doorbells and queues (R439, R440, R446) -/

/-- Stop a queue whose doorbell value is not below the depth (R439). -/
def queueError (q : Nat) (s : State) : State :=
  postEvent 0x0012 q (0xA * 4096 + q) (bump (setQueue s q { queueOf s q with err := true }) (cHif 0x148))

/-- SQ_TAIL_DOORBELL (R439): commands up to the new tail become fetchable. -/
def execSqTailDoorbell (queue : BitVec 6) (value : W32) (s : State) : Host.Outcome State Fault Refusal :=
  .next (
    let q := queueOf s queue.toNat
    if !q.enabled || q.err then s
    else if 2 ^ q.log2 ≤ value.toNat then queueError queue.toNat s
    else setQueue s queue.toNat { q with sqTail := value.toNat })

/-- CQ_HEAD_DOORBELL (R440): replies before the new head are released, and wait for no message any more (R438). -/
def execCqHeadDoorbell (queue : BitVec 6) (value : W32) (s : State) : Host.Outcome State Fault Refusal :=
  .next (
    let q := queueOf s queue.toNat
    if !q.enabled || q.err then s
    else
      let rel := (value.toNat + 2 ^ q.log2 - q.cqHead) % 2 ^ q.log2
      if 2 ^ q.log2 ≤ value.toNat ∨ q.used < rel then queueError queue.toNat s
      else setQueue s queue.toNat { q with
        cqHead := value.toNat, used := q.used - rel, unsignalled := min q.unsignalled (q.used - rel) })

/-- EV_HEAD_DOORBELL (R446): events before the new head are released, and the record of lost events goes first. -/
def execEvHeadDoorbell (value : W32) (s : State) : Host.Outcome State Fault Refusal :=
  .next (
    let r := s.host.ring
    if !r.set || decide (2 ^ r.log2 ≤ value.toNat) then s
    else
      let rel := (value.toNat + 2 ^ r.log2 - r.head) % 2 ^ r.log2
      eventSpace { s with host := { s.host with ring := { r with head := value.toNat, used := r.used - rel } } })

/-- A write of HIF_AQ_CFG (R439, Table 15-23): EN = 1 enables queue 0 with its indices at 0, EN = 0 disables it. -/
def aqCfgWrite (v : Nat) (s : State) : State :=
  let s := setReg s (hifBase + 8) v
  let ring (lo : Nat) : Nat := getReg s (hifBase + lo + 4) * 2 ^ 32 + getReg s (hifBase + lo) / 64 * 64
  let n := field v 23 19
  if flag v 31 && decide (1 ≤ n ∧ n ≤ 16) then
    setQueue { s with host := { s.host with lives := s.host.lives + 1 } } 0
      { Queue.none with enabled := true, life := s.host.lives + 1, log2 := n, vector := field v 30 24
                        coalN := field v 18 11, coalUs := field v 10 3, sq := ring 0x10, cq := ring 0x18 }
  else setQueue s 0 Queue.none

/-- MSIX_COALESCE_TIMEOUT (R438): the oldest pending reply has waited U µs. -/
def execMsixCoalesceTimeout (queue : BitVec 6) (s : State) : Host.Outcome State Fault Refusal :=
  .next (
    let q := queueOf s queue.toNat
    if q.enabled && !s.host.d3hot && decide (0 < q.unsignalled) && decide (q.since + q.coalUs * 1000 ≤ nsOf s) then
      signal q.vector (setQueue s queue.toNat { q with unsignalled := 0 })
    else s)

/-! ## Resets of the host interface (R451 to R455) -/

/-- A register of the host interface that a host-interface reset returns to its reset value: every HIF_ register but
HIF_JOBCTL (R437, R451). -/
def hifCleared (a : Nat) : Bool := decide (hifBase ≤ a) && decide (a < hifBase + 0x1000) && decide (a ≠ hifBase + 4)

/-- Discard the replies that wait in D3hot for queues that go (R452). -/
def dropHeld (s : State) : State :=
  s.host.held.foldl (fun s e => dropReply e.1 e.2.1 e.2.2 s) { s with host := { s.host with held := [], heldEvents := [] } }

/-- Reset queues, event ring, MSI-X, DMA windows, lock and HIF_ registers; fetched commands go on without their
queues (R451, R452). -/
def hostInterfaceReset (linkDown : Bool) (s : State) : State :=
  let wait := s.host.queues.flatMap (fun p => p.2.waiting)
  let s := bump (dropHeld s) (cHif 0x128)
  { s with
    regs := sfilter s.regs (fun a => !hifCleared a)
    host := { s.host with
      queues := [], orphans := s.host.orphans ++ wait
      ring := { set := false, addr := 0, log2 := 0, vector := 0, head := 0, put := 0, phase := true, used := 0, lost := 0 }
      msixTable := [], msixPba := 0, attachGen := satAdd 32 s.host.attachGen 1, held := [], heldEvents := []
      linkUp := if linkDown then false else s.host.linkUp, training := linkDown, d3hot := false } }

/-- HOST_IF_RESET (R451): a hot reset or a link-down; the link trains anew. -/
def execHostIfReset (s : State) : Host.Outcome State Fault Refusal := .next (hostInterfaceReset true s)

/-- SURPRISE_REMOVAL (R455): treated as a link-down. -/
def execSurpriseRemoval (s : State) : Host.Outcome State Fault Refusal :=
  .next (let s := hostInterfaceReset true s
         { s with host := { s.host with training := false } })

/-- HOST_LINK_UP (R433, R514, R535): the link has trained, with main power good and PERST# deasserted; x16 needs the
PCIE_FULL strap. Codes the link does not support change nothing. -/
def execHostLinkUp (speed : BitVec 2) (width : BitVec 5) (flit : Bool) (s : State) : Host.Outcome State Fault Refusal :=
  .next (if speed.toNat = 3 ∨ (width.toNat ≠ 8 ∧ (width.toNat ≠ 16 ∨ ¬ s.pwr.straps.testBit 11)) ∨ s.pwr.stage < 3 ∨ s.pwr.perst then s
    else { s with host := { s.host with linkUp := true, training := false, speed := speed.toNat
                                        width := width.toNat, flit := flit || decide (speed.toNat = 2) } })

/-! ## Windows (R434, R435) -/

/-- APERTURE_ACCESS (R435, R234): a read or write of 1 to 64 bytes within one 64-byte line of the scratchpad window;
charged to class 12. -/
def execApertureAccess (offset : BitVec 30) (write : Bool) (len : BitVec 7) (data : List Byte) (s : State) :
    Host.Outcome State Fault Refusal :=
  .next (
    let o := offset.toNat
    let n := len.toNat
    let a := 0x008000000000 + o
    if n = 0 ∨ 64 < n ∨ o / 64 ≠ (o + n - 1) / 64 then
      (if write then s else emit (.apertureRead (List.replicate n 0) false) s)
    else if write then writeTo .host 12 a (slice data 0 n) s
    else
      let (r, s) := readDev .host 12 a n s
      emit (.apertureRead r.data (decide (0 < r.poison))) s)

/-- REG_WINDOW_BAD_ACCESS (R434): a read returns 0, a write is discarded, and the access is counted. -/
def execRegWindowBadAccess (offset : BitVec 26) (write : Bool) (_len : Byte) (s : State) :
    Host.Outcome State Fault Refusal :=
  .next (let s := bump s (cHif 0x120)
         if write then s else emit (.readValue .host offset.toNat 0) s)

/-! ## Management commands (Table 15-7) -/

/-- ASCII bytes of a string. -/
def asciiBytes (x : String) : List Byte := x.toList.map (fun c => BitVec.ofNat 8 c.toNat)

/-- IDENTIFY's 4 KiB of identity data (R447). `mgt` is the strapped management address. -/
def identityData (mgt : Nat) : List Byte :=
  slice (asciiBytes (if Config.variantLE then "XC96-512-LE" else "XC96-512-LO")) 0 16 ++ [0xB1, 0]
    ++ leBytes 6 Config.kolelmRelease.toNat ++ List.replicate 8 0 ++ leBytes 16 Config.serial.toNat
    ++ leBytes 2 mgt ++ List.replicate (4096 - 50) 0

/-- QUEUE_CREATE (R447): BUSY for a QID in use. -/
def kQueueCreate (_h : CmdHdr) (qid vector coalN coalUs log2Depth : Byte) (sq cq : W64) (s : State) : KRes :=
  let n := log2Depth.toNat
  if n = 0 ∨ 16 < n then kFail stParameter 4 s
  else if !dmaOk s sq.toNat (64 * 2 ^ n) || !dmaOk s cq.toNat (16 * 2 ^ n) then dmaRefuse s
  else if qid.toNat = 0 ∨ 63 < qid.toNat then kFail stParameter 0 s
  else if 127 < vector.toNat then kFail stParameter 1 s
  else if sq.toNat % 64 ≠ 0 then kFail stParameter 8 s
  else if cq.toNat % 16 ≠ 0 then kFail stParameter 16 s
  else if (queueOf s qid.toNat).enabled then kFail stBusy 0 s
  else kOk 0 (setQueue { s with host := { s.host with lives := s.host.lives + 1 } } qid.toNat
    { Queue.none with enabled := true, life := s.host.lives + 1, log2 := n, vector := vector.toNat
                      coalN := coalN.toNat, coalUs := coalUs.toNat, sq := sq.toNat, cq := cq.toNat })

/-- EVENT_RING_SET (R446, R454): the ring is placed anew; every reply discarded from then on is posted as event 0x0011
(R454). -/
def kEventRingSet (_h : CmdHdr) (ring : W64) (log2Depth vector : Byte) (s : State) : KRes :=
  let n := log2Depth.toNat
  if n = 0 ∨ 16 < n then kFail stParameter 8 s
  else if !dmaOk s ring.toNat (16 * 2 ^ n) then dmaRefuse s
  else if 127 < vector.toNat then kFail stParameter 9 s
  else if ring.toNat % 16 ≠ 0 then kFail stParameter 0 s
  else
    kOk 0 { s with host := { s.host with ring :=
      { set := true, addr := ring.toNat, log2 := n, vector := vector.toNat, head := 0, put := 0, phase := true
        used := 0, lost := 0 } } }

/-- JOB_SEED_SET (R447): refused with ACTIVE during a step. -/
def kJobSeedSet (_h : CmdHdr) (seed : W64) (s : State) : KRes :=
  if stepActive s then kFail stActive 0 s
  else kOk 0 { s with host := { s.host with jobSeed := seed.toNat } }

/-- HIF_JOBCTL.ABORTED (Table 15-22). -/
def jobAborted (s : State) : Bool := flag (getReg s (hifBase + 4)) 30

/-- LTU_STATUS as the job status record copies it; the line-time chapter gives its fields. -/
def jobStatusRecord (ltu : Nat) (s : State) : List Byte :=
  let r := s.stp.rc
  leBytes 64 (r.step % 2 ^ 64 * 2 ^ 448 + r.state % 16 * 2 ^ 444 + bit r.gen * 2 ^ 443 + r.outcome % 16 * 2 ^ 439
    + bit (jobAborted s) * 2 ^ 438 + bit s.host.fatal * 2 ^ 437 + s.host.attachGen % 2 ^ 32 * 2 ^ 400
    + s.host.dropLog.length % 2 ^ 16 * 2 ^ 384 + r.outer % 2 ^ 32 * 2 ^ 352 + ltu % 2 ^ 32 * 2 ^ 320
    + nsOf s % 2 ^ 64 * 2 ^ 256)

/-- The discarded-reply log as bytes: 32 per entry (R452). -/
def dropLogBytes (s : State) : List Byte :=
  s.host.dropLog.flatMap (fun e =>
    leBytes 16 e.1 ++ [BitVec.ofNat 8 e.2.1, 0] ++ leBytes 2 e.2.2 ++ List.replicate 12 0)

/-! ## Memory moves (R448) -/

/-- The addresses, one in each 64 KiB page, that a range touches; every boundary of the map is 64 KiB aligned. -/
def pagesOf (a n : Nat) : List Nat :=
  if n = 0 then []
  else (List.range ((a + n - 1) / 0x10000 - a / 0x10000 + 1)).map (fun i => if i = 0 then a else (a / 0x10000 + i) * 0x10000)

/-- A device range a move may use: configured Treim (the firmware area only as a source), allocated pages of domains
0 to 11, tile memory (R448). -/
def moveRangeOk (s : State) (src : Bool) (a n : Nat) : Bool :=
  (pagesOf a n).all (fun p =>
    match classify p with
    | .treim r => if 504 ≤ r then src && decide (regionMode s r ≠ 0) else decide (regionMode s r ≠ 0)
    | .unmapped => false
    | .register _ => false
    | _ => mayAccess s .host p)

/-- A range touches a stack-local region. -/
def touchesStackLocal (s : State) (a n : Nat) : Bool :=
  (pagesOf a n).any (fun p => match classify p with
    | .treim r => regionMode s r = 2
    | _ => false)

/-- The length of a move is a multiple of 64 from 64 bytes to 16 GiB. -/
def moveLenOk (n : Nat) : Bool := decide (n % 64 = 0) && decide (64 ≤ n) && decide (n ≤ 2 ^ 34)

/-- The agent that reads the source of a move: the firmware area is open to it. -/
def moveReader (a n : Nat) : Agent := if 0x007E00000000 < a + n ∧ a < 0x008000000000 then .lintel else .host

/-- Read the source of a move; the firmware area shows its records (R25, R30). -/
def moveRead (a n : Nat) (s : State) : ReadOut × State :=
  let (r, s') := readDev (moveReader a n) 12 a n s
  ({ r with data := if moveReader a n = .lintel then fwShown s a r.data else r.data }, s')

/-- The end of a move: SUCCESS, or POISON with the number of poisoned lines (R448). -/
def moveDone (poison : Nat) (s : State) : KRes :=
  if poison = 0 then kOk 0 s else kFail stPoison poison s

/-- MEM_TO_HOST. -/
def kMemToHost (_h : CmdHdr) (dev host len : W64) (s : State) : KRes :=
  let n := len.toNat
  if !dmaOk s host.toNat n then dmaRefuse s
  else if !moveLenOk n then kFail stParameter 16 s
  else if !moveRangeOk s true dev.toNat n then kFail stParameter 0 s
  else
    let (r, s) := moveRead dev.toNat n s
    moveDone r.poison (hostWrite host.toNat r.data s)

/-- MEM_FROM_HOST; the host's bytes come with the command. -/
def kMemFromHost (h : CmdHdr) (host dev len : W64) (s : State) : KRes :=
  let n := len.toNat
  if !dmaOk s host.toNat n then dmaRefuse s
  else if !moveLenOk n then kFail stParameter 16 s
  else if !moveRangeOk s false dev.toNat n then kFail stParameter 8 s
  else if stepActive s && touchesStackLocal s dev.toNat n then kFail stActive 0 s
  else kOk 0 (writeTo .host 12 dev.toNat (slice h.hostData 0 n) s)

/-- MEM_COPY. -/
def kMemCopy (_h : CmdHdr) (src dst len : W64) (s : State) : KRes :=
  let n := len.toNat
  if !moveLenOk n then kFail stParameter 16 s
  else if !moveRangeOk s true src.toNat n then kFail stParameter 0 s
  else if !moveRangeOk s false dst.toNat n then kFail stParameter 8 s
  else if stepActive s && touchesStackLocal s dst.toNat n then kFail stActive 0 s
  else
    let (r, s) := moveRead src.toNat n s
    moveDone r.poison (writeTo .host 12 dst.toNat r.data s)

/-- MEM_FILL. -/
def kMemFill (_h : CmdHdr) (dst len pattern : W64) (s : State) : KRes :=
  let n := len.toNat
  if !moveLenOk n then kFail stParameter 8 s
  else if !moveRangeOk s false dst.toNat n then kFail stParameter 0 s
  else if stepActive s && touchesStackLocal s dst.toNat n then kFail stActive 0 s
  else
    let bs := (List.replicate (n / 8) (leBytes 8 pattern.toNat)).flatten
    kOk 0 (writeTo .host 12 dst.toNat bs s)

end Sys2Proof.Machine
end

