-- ==== Sys2Proof/Machine/Program.lean ====
section
/-!
DEFINITION. Loading tile programs (R97 to R101, R127, R144, R449, R450) and the tile commands of group 0x03xx (R117).
-/
namespace Sys2Proof.Machine

/-! ## Chain words (R123 to R128) -/

/-- A stage code of Table 5-3 that computes a lane value from operands. -/
def stageArith (c : Nat) : Bool := decide (1 ≤ c ∧ c ≤ 0x12)

/-- A stage that takes operand b. -/
def stageTwo (c : Nat) : Bool := decide (1 ≤ c ∧ c ≤ 7) || decide (c = 9)

/-- A reduction stage. -/
def stageReduce (c : Nat) : Bool := decide (0x20 ≤ c ∧ c ≤ 0x22)

/-- One configuration word uses only codes and fields its stage has (R124, R125). `yes` is whether IN1 exists. -/
def chainWordOk (yes : Bool) (w : Nat) : Bool :=
  let c := chainWord w
  let st := c.stage
  let known := stageArith st || stageReduce st || [0x28, 0x29, 0x30, 0x31, 0x3F].contains st
  let useA := stageArith st || stageReduce st || decide (st = 0x29)
  let useB := stageTwo st
  let srcOk (x : Nat) : Bool := decide (x ≤ 4) && (yes || decide (x ≠ 1))
  let uses (n : Nat) : Bool := (useA && decide (c.sa = n)) || (useB && decide (c.sb = n))
  let useImm := (stageArith st && uses 4) || decide (st = 9)
  let immOk :=
    if useImm ∨ st = 0x29 then true
    else if st = 0x28 ∨ st = 0x3F then decide (c.imm < 2 ^ 22)
    else if st = 0x31 then c.f || decide (c.imm % 2 ^ 16 = 0)
    else decide (c.imm = 0)
  known && decide (field w 47 45 = 0) && (if useA then srcOk c.sa else decide (c.sa = 0))
    && (if useB then srcOk c.sb else decide (c.sb = 0))
    && (uses 3 || stageReduce st || decide (st = 0x28) || decide (c.qsel = 0))
    && (uses 2 || decide (st = 0x28) || decide (c.cvec = 0))
    && (decide (st = 0x28) || decide (st = 0x31) || decide (st = 0x3F) || !c.f)
    && immOk && !(stageReduce st && decide (c.sa = 3))

/-- Row scalars of a chain: every read comes from a scalar written in an earlier segment and not in its own (R127,
R128). Each word is paired with its segment. -/
def scalarsOk (ws : List (Nat × ChainWord)) : Bool :=
  let writes (q : Nat) : List Nat := (ws.filter (fun p => stageReduce p.2.stage && decide (p.2.qsel = q))).map Prod.fst
  let reads (c : ChainWord) : Bool :=
    decide (c.stage = 0x28) || ((stageArith c.stage || decide (c.stage = 0x29)) && decide (c.sa = 3))
      || (stageTwo c.stage && decide (c.sb = 3))
  ws.all (fun p => !reads p.2 || ((writes p.2.qsel).any (· < p.1) && !(writes p.2.qsel).contains p.1))

/-- Number each word with its segment: a HOLD ends one (R128). -/
def segments : Nat → List ChainWord → List (Nat × ChainWord)
  | _, [] => []
  | g, c :: cs => (g, c) :: segments (if c.stage = 0x30 then g + 1 else g) cs

/-- A DROP comes only after a KEY (R127). -/
def dropKeyed : Bool → List ChainWord → Bool
  | _, [] => true
  | seen, c :: cs => (decide (c.stage ≠ 0x29) || seen) && dropKeyed (seen || decide (c.stage = 0x31)) cs

/-- A chain is accepted at load (R123, R127). -/
def chainOk (yes : Bool) (rowlen : Nat) (ws : List Nat) : Bool :=
  let cs := ws.map chainWord
  let cnt (c : Nat) : Nat := (cs.filter (fun x => x.stage = c)).length
  let vec (c : ChainWord) : Bool :=
    let cv := ((stageArith c.stage || stageReduce c.stage || decide (c.stage = 0x29)) && decide (c.sa = 2))
      || (stageTwo c.stage && decide (c.sb = 2))
    (!cv || decide (c.cvec * 64 + 4 * rowlen ≤ 0x80000))
      && (decide (c.stage ≠ 0x28) || decide (c.cvec * 64 + 32 * (if c.f then 4096 else 256) ≤ 0x80000))
  !ws.isEmpty && ws.all (chainWordOk yes) && decide ((cs.getLastD (chainWord 0)).stage = 0x3F) && decide (cnt 0x3F = 1)
    && decide (cnt 0x30 ≤ 2) && decide (cnt 0x28 ≤ 2) && (decide (cnt 0x30 = 0) || decide (rowlen ≤ 16384))
    && cs.all vec && dropKeyed false cs && scalarsOk (segments 0 cs)

/-! ## Descriptors (R48, R58, R87, R101, R144, R554) -/

/-- A scheme is permitted for a format (Table 2-3). -/
def schemeOk (f : Fmt) (scheme : Nat) : Bool :=
  match scheme with
  | 0 => true
  | 1 => true
  | 2 => f.narrow
  | _ => f.narrow && f ≠ .int4

/-- A tensor ID that a loaded shard names as GRAD_TID (R554). -/
def isGridRecord (s : State) (tid : Nat) : Bool :=
  s.cbl.shards.any (fun p => p.2.any (fun sh => field sh.desc 107 92 = tid))

/-- Reserved fields of a task descriptor are zero (Tables 4-5 to 4-9). -/
def taskReservedOk (w : Nat) : Bool :=
  decide (field w 229 192 = 0) && !flag w 56 && decide (field w 35 0 = 0) &&
  match tkOp w with
  | 1 => decide (field w 289 256 = 0)
  | 2 => decide (field w 355 256 = 0)
  | 3 => decide (field w 303 256 = 0)
  | 4 => decide (field w 295 256 = 0)
  | _ => true

/-- A device address the map has (R21). -/
def inMap (a : Nat) : Bool := classify a ≠ .unmapped

/-- The whole of a descriptor's rows lies in a part of the tile's slot (R99, R122). -/
def descIn (t limit : Nat) (d : TensorDesc) : Bool :=
  let f := (fmtOfCode d.fmt).getD .fp32
  let e := d.base + (if d.comp then 64 else (d.rows - 1) * d.stride + f.rowBytes d.rowlen)
  decide (tileAddr t 0 ≤ d.base) && decide (e ≤ tileAddr t limit)

/-- The first and last addresses of a descriptor's rows and side arrays (R99); `perRow` says its record has a scale for
each row. -/
def descAddrs (perRow : Bool) (d : TensorDesc) : List Nat :=
  let f := (fmtOfCode d.fmt).getD .fp32
  let per := ceilDiv d.rowlen 32
  let ends (a n : Nat) : List Nat := if n = 0 then [a] else [a, a + n - 1]
  ends d.base (if d.comp then 64 else if d.rows = 0 then 0 else (d.rows - 1) * d.stride + f.rowBytes d.rowlen)
    ++ (if f.narrow && !d.comp then ends d.metaAt (d.rows * per) else [])
    ++ (if d.scheme = 3 && !d.comp then ends d.scaleAt (d.rows * per) else [])
    ++ (if perRow && rowScaled d.scheme then ends d.scaleAt (4 * d.rows) else [])

/-- A destination endpoint of Table 4-12. -/
def endpointOk (ep : Nat) : Bool := decide (ep < 0x6F)

/-- The REASON codes of Table 15-17 that a task descriptor breaks on a tile, none for a good one: the lowest counts. A
task with PSUM_MODE 0b00 ("whole K here") and a part of K is given the K range's reason. DEDUCED (log 48), safe. -/
def taskReasons (s : State) (t w : Nat) (chain : List Nat) : List Nat :=
  let op := tkOp w
  let tds := taskDescs w
  let ds := tds.map (descOf s t)
  let b := matrixBody s t w
  let p := passBody s t w
  let fm (d : TensorDesc) : Fmt := (fmtOfCode d.fmt).getD .fp32
  let when (c : Bool) (n : Nat) : List Nat := if c then [n] else []
  let strictFmt (d : TensorDesc) : Bool := [Fmt.fp32, .bf16, .fp16].contains (fm d) && decide (d.scheme ≤ 1)
  let outs : List TensorDesc := if op = 1 then (if b.mode = 1 then [] else [b.c]) else if op = 2 then [p.out] else []
  let addrs : List Nat :=
    if op = 3 then
      [field w 511 464, field w 511 464 + field w 383 368 * field w 367 336 + field w 415 384 - 1, field w 463 416,
       field w 463 416 + field w 383 368 * field w 335 304 + field w 415 384 - 1]
    else if op = 4 then
      [field w 447 400, field w 447 400 + field w 399 368 - 1]
        ++ (if field w 367 352 = 0 then [field w 495 448, field w 495 448 + field w 399 368 - 1] else [])
    else ds.flatMap (fun d => descAddrs (tensorOf s d.tid).perRow d)
  let rowArray (d : TensorDesc) (off rows : Nat) : Bool := (tensorOf s d.tid).perRow && decide (0x380000 < off + 4 * rows)
  when (decide (4 < op) || (decide (op = 1) && decide (b.mode = 3)) || ds.any (fun d => decide (9 < d.fmt))
      || (decide (op = 4) && (decide (9 < field w 319 316) || decide (9 < field w 315 312)))) 0x01
  ++ when (!taskReservedOk w) 0x02
  ++ when (ds.any (fun d => !schemeOk (fm d) d.scheme || (d.seed && !(fm d).narrow)
      || ((decide (d.scheme = 1) || decide (d.scheme = 2)) && isGridRecord s d.tid))) 0x03
  ++ when (tkStrict w && (decide (op ≠ 1) || ds.any (fun d => !strictFmt d))) 0x04
  ++ when (tkSr w && !(decide (op = 2) || (decide (op = 4) && decide (field w 367 352 ≠ 0)
      && decide (((fmtOfCode (field w 319 316)).getD .fp32).width < ((fmtOfCode (field w 315 312)).getD .fp32).width)))) 0x05
  ++ when (decide (op = 1) && !tkStrict w && (fm b.a = .fp32 || fm b.b = .fp32)) 0x06
  ++ when (decide (op = 1) && (decide (b.nsb = 0) || decide (2047 < b.nsb) || decide (ceilDiv b.k 4096 < b.sb0 + b.nsb)
      || (decide (b.mode = 0) && (decide (b.sb0 ≠ 0) || decide (b.nsb ≠ ceilDiv b.k 4096)))
      || decide (b.a.rowlen ≠ b.k) || decide (b.b.rowlen ≠ b.k))) 0x07
  ++ when (addrs.any (fun a => !inMap a) || tds.any (fun d => decide (0x380000 < 32 * d + 32))
      || (flag w 191 && !endpointOk (field w 190 183)) || (flag w 159 && !endpointOk (field w 158 151))
      || (flag w 255 && !endpointOk (field w 254 247))
      || (decide (op = 1) && decide (b.mode = 1) && decide (96 ≤ b.peer))
      || (decide (op = 1) && (decide (b.mode = 1) || decide (b.mode = 2))
          && decide (0x380000 < b.poff + nodeMapLen b + 8 * (b.m * b.n * ceilDiv b.k 4096)))
      || (decide (op = 1) && !(descIn t 0x300000 b.a && descIn t 0x300000 b.b && (b.mode = 1 || descIn t 0x380000 b.c)))
      || (decide (op = 1) && decide (b.mode ≠ 1) && rowArray b.c b.amax (b.aRow + b.m))
      || (decide (op = 2) && rowArray p.out ((chainWord (chain.getLastD 0)).imm % 2 ^ 22) (p.row0 + p.nrows))
      || (decide (op = 3) && (decide (field w 415 384 < 64) || decide (field w 415 384 % 64 ≠ 0)))
      || (decide (op = 4) && (decide (field w 399 368 = 0) || decide (field w 399 368 % 64 ≠ 0)))) 0x08
  ++ when (decide (op = 2) && (!(([p.in0, p.out] ++ p.in1.toList).all (descIn t 0x380000))
      || decide (p.in0.rowlen ≠ p.out.rowlen) || p.in1.any (fun d => decide (d.rowlen ≠ p.out.rowlen))
      || decide (p.off % 8 ≠ 0) || decide (0x80000 < p.off + 8 * p.len)
      || !chainOk p.in1.isSome p.out.rowlen chain)) 0x09
  ++ when (ds.any (fun d => d.comp && (decide (d.fmt = 0) || decide (4 < d.fmt) || decide (d.stride ≠ 0) || d.seed))
      || (decide (op = 2) && ds.any (fun d => d.comp)) || outs.any (fun d => d.comp)) 0x0A
  ++ when (decide (12 ≤ tkClass w)) 0x0B

/-! ## PROGRAM_LOAD -/

/-- One tile's part of a load: the tile, its image bytes, tasks, and chains read. -/
structure LoadPart where
  tile  : Nat
  image : List Byte
  tasks : List Nat
  deriving DecidableEq, Repr

/-- Fields of an image header (Table 4-4). -/
def imageHeader (h : Nat) : Nat × Nat × Nat := (field h 39 32, field h 31 16, field h 15 0)

/-- An IMAGE range lies wholly in configured Treim or in allocated plinth scratchpad (Table 4-15). -/
def imageRangeOk (s : State) (a n : Nat) : Bool :=
  (pagesOf a n).all (fun p =>
    match classify p with
    | .treim r => decide (regionMode s r ≠ 0)
    | .plinth _ _ _ => mayAccess s .lintel p
    | _ => false)

/-- Chain words of a pass as the operand cache holds them. -/
def chainWordsAt (s : State) (t w : Nat) : List Nat :=
  (List.range (field w 441 436)).map (fun i => loadLe s (tileAddr t (0x300000 + field w 460 442 + 8 * i)) 8)

/-- Key of a chain copy: CHAIN_OFF × 64 + CHAIN_LEN. -/
def chainKey (w : Nat) : Nat := field w 460 442 * 64 + field w 441 436

/-- The detail of a rejection (Table 15-17). -/
def loadDetail (tile reason task : Nat) : Nat := tile * 2 ^ 24 + reason * 2 ^ 16 + task % 2 ^ 13

/-- Read one tile's image: either a failure (status, detail) or its part, and the state after the reads. -/
def loadImage (t l a : Nat) (s : State) : ((Nat × Nat) ⊕ LoadPart) × State :=
  if !imageRangeOk s a 64 then (.inl (stRejected, loadDetail t 0x08 0), s)
  else
    let (h, s) := readDev .lintel 13 a 64 s
    let (v, _, n) := imageHeader (leNat h.data)
    let len := 384 + 64 * n
    if 0 < h.poison then (.inl (stPoison, h.poison), s)
    else if v ≠ 1 ∨ n = 0 ∨ 8192 < n then (.inl (stRejected, loadDetail t 0x0D 0), s)
    else if !imageRangeOk s a len || decide (0x380000 < l + len) then (.inl (stRejected, loadDetail t 0x08 0), s)
    else
      let (r, s) := readDev .lintel 13 (a + 64) (len - 64) s
      if 0 < r.poison then (.inl (stPoison, r.poison), s)
      else
        let im := h.data ++ r.data
        (.inr { tile := t, image := im, tasks := (List.range n).map (fun i => leAt im (384 + 64 * i) 64) }, s)

/-- Words of the chain store that a list of tasks fills: each distinct chain once (R123). -/
def chainStoreWords (tasks : List Nat) : Nat :=
  ((((tasks.filter (fun w => tkOp w = 2)).map chainKey).eraseDups).map (· % 64)).foldl (· + ·) 0

/-- The first task whose chain no longer fits the chain store. -/
def chainStoreFull (tasks : List Nat) : Option Nat :=
  if chainStoreWords tasks ≤ 4096 then none
  else (List.range tasks.length).find? (fun i => decide (4096 < chainStoreWords (tasks.take (i + 1))))

/-- Validate one part with its image in place: the detail of the first failing task, with its lowest reason (R101,
R450). -/
def partFailure (s : State) (p : LoadPart) : Option Nat :=
  let full := chainStoreFull p.tasks
  let bad := (List.zip (List.range p.tasks.length) p.tasks).findSome? (fun iw =>
    let rs := taskReasons s p.tile iw.2 (if tkOp iw.2 = 2 then chainWordsAt s p.tile iw.2 else [])
    ((if full = some iw.1 then 0x09 :: rs else rs).min?).map (fun r => loadDetail p.tile r iw.1))
  match bad with
  | some d => some d
  | none =>
    let ntd := ((p.tasks.flatMap taskDescs).eraseDups).length
    if ntd ≠ (imageHeader (leAt p.image 0 64)).2.1 then some (loadDetail p.tile 0x0D 0)
    else none

/-- Put images in place. -/
def placeImages (l : Nat) (parts : List LoadPart) (s : State) : State :=
  parts.foldl (fun s p => writeTo .lintel 13 (tileAddr p.tile l) p.image s) s

/-- Read and validate the images tile by tile: the first failure of the first failing tile, or all parts (R101). -/
def loadImages (l : Nat) : List (Nat × Nat) → State → ((Nat × Nat) ⊕ List LoadPart) × State
  | [], s => (.inr [], s)
  | (t, a) :: r, s =>
    match loadImage t l a s with
    | (.inl e, s) => (.inl e, s)
    | (.inr p, s) =>
      match partFailure (placeImages l [p] s) p with
      | some d => (.inl (stRejected, d), s)
      | none =>
        match loadImages l r s with
        | (.inl e, s) => (.inl e, s)
        | (.inr ps, s) => (.inr (p :: ps), s)

/-- Put one validated part in force: the program, its chain copies, and the formats its descriptors declare. -/
def loadPart (dom l : Nat) (s : State) (p : LoadPart) : State :=
  let passes := p.tasks.filter (fun w => tkOp w = 2)
  let chain := passes.foldl (fun m w => sput [] m (chainKey w) (chainWordsAt s p.tile w)) []
  let s := ((p.tasks.flatMap taskDescs).eraseDups).foldl (fun s td =>
    let d := descOf s p.tile td
    if d.scheme = 1 ∨ d.scheme = 2 then setTensor s d.tid { tensorOf s d.tid with fmt := d.fmt + 1 } else s) s
  setTile s p.tile { tileOf s p.tile with
    prog := some { off := l, ntasks := p.tasks.length, domain := dom, chain := chain }, mainCur := 0, deferCur := 0, gen := none, know := [] }

/-- Gather descriptors a load may bind: at most 64, well formed, on slots that no other loaded program binds (R449). -/
def gatherOk (s : State) (pier tile : Nat) (gs : List Nat) : Bool :=
  decide (gs.length ≤ 64) && gs.all (fun g => decide (1 ≤ gdPages g ∧ gdPages g ≤ 64) && decide (field g 66 0 = 0)
      && decide (gdEp g < 96)
      && (match sget none (pierOf s pier).gather (gdSlot g) with
          | some e => e.tile = tile
          | none => true))
    && decide ((gs.map gdSlot).eraseDups.length = gs.length)

/-- Unbind what a tile's replaced or unloaded program had bound. -/
def unbindTile (tile : Nat) (s : State) : State :=
  { s with piers := s.piers.map (fun p =>
      (p.1, { p.2 with gather := p.2.gather.filter (fun e => !e.2.any (fun g => g.tile = tile)) })) }

/-- The tiles of PROGRAM_LOAD with the addresses of their images. -/
def loadList (pb : List Byte) : List (Nat × Nat) :=
  let tiles := maskBits 96 (leAt pb 0 12)
  (List.zip (List.range tiles.length) tiles).map (fun p => (p.2, leAt pb (64 + 8 * p.1) 8))

/-- The gather descriptors of PROGRAM_LOAD. -/
def loadGathers (pb : List Byte) : List Nat :=
  (List.range (leAt pb 20 1)).map (fun i => leAt pb (64 + 8 * (maskBits 96 (leAt pb 0 12)).length + 16 * i) 16)

/-- A validated load put in force: the programs, and the gather descriptors bound to the lowest tile. -/
def programInstall (dom l : Nat) (tiles : List Nat) (parts : List LoadPart) (gs : List Nat) (t0 : Nat) (s : State) : State :=
  let s := tiles.foldl (fun s t => unbindTile t s) (parts.foldl (loadPart dom l) s)
  let pr := pierOf s (t0 / 24)
  setPier s (t0 / 24) { pr with gather := gs.foldl (fun m g =>
    sput none m (gdSlot g) (some { desc := g, tile := t0, st := .absent, pins := 0, page := 0, stamp := 0
                                   evicted := false, owed := 0 })) pr.gather }

/-- PROGRAM_LOAD (R101, R127, R449, R450): all or nothing over the tile mask. -/
def kProgramLoad (h : CmdHdr) (s : State) : KRes :=
  let dom := leAt h.pb 12 1
  let l := leAt h.pb 16 4
  let tiles := maskBits 96 (leAt h.pb 0 12)
  if stepActive s then kFail stActive 0 s
  else if 11 < dom then kFail stParameter 12 s
  else if l % 64 ≠ 0 then kFail stParameter 16 s
  else match tiles with
  | [] => kOk 0 s
  | t0 :: _ =>
    match loadImages l (loadList h.pb) s with
    | (.inl (st, d), s) => kFail st d s
    | (.inr parts, s) =>
      if !gatherOk s (t0 / 24) t0 (loadGathers h.pb) then kFail stRejected (loadDetail t0 0x0C 0) s
      else kOk 0 (programInstall dom l tiles parts (loadGathers h.pb) t0 (placeImages l parts s))

/-- TILE_FENCE: a fence token to each tile of the mask (R108). -/
def kTileFence (_h : CmdHdr) (mask : BitVec 96) (s : State) : KRes :=
  kOk 0 ((maskBits 96 mask.toNat).foldl (fun s t => sendToken t 0 2 0x6D (genOf s) 3 s) s)

/-- A tile's memory reads zero and its program is unloaded. -/
def clearTile (t : Nat) (s : State) : State :=
  let out (a : Nat) : Bool := decide (a < tileAddr t 0) || decide (tileAddr t 0x400000 ≤ a)
  let s := { s with mem := sfilter s.mem out, upset := sfilter s.upset (fun l => out (64 * l)) }
  setTile (unbindTile t s) t Tile.init

/-- Run one tile's self-test; its outcome is the silicon's (log 1). A tile that passes is unfenced. Answers whether it
failed. -/
def unfenceTile (t : Nat) (s : State) : Bool × State :=
  if !(tileOf s t).isFenced then (false, s)
  else
    let (f, s) := free32 s
    if f % 2 = 1 then (true, s) else (false, clearTile t s)

/-- TILE_UNFENCE: the detail counts the tiles that failed their self-test. -/
def kTileUnfence (_h : CmdHdr) (mask : BitVec 96) (s : State) : KRes :=
  if stepActive s then kFail stActive 0 s
  else
    let (n, s) := (maskBits 96 mask.toNat).foldl (fun (acc : Nat × State) t =>
      let (bad, s) := unfenceTile t acc.2
      (acc.1 + bit bad, s)) (0, s)
    kOk n s

/-- TILE_QUERY: 8 bytes per masked tile, ascending. -/
def kTileQuery (h : CmdHdr) (mask : BitVec 96) (buf : Buf) (s : State) : KRes :=
  let ts := maskBits 96 mask.toNat
  let data := ts.flatMap (fun t => leBytes 4 (tilStatus s t) ++ leBytes 4 (tilFault s t))
  withBuf h buf s (deliver h buf data id data.length s)

end Sys2Proof.Machine
end

