-- ==== Sys2Proof/Machine/Plinth.lean ====
section
/-!
DEFINITION. Plinth memory: region modes, pages and quotas, and the age of pool entries (chapter 8). The gather cache is in
Machine/Gather.lean.
-/
namespace Sys2Proof.Machine

/-! ## Pages (R223 to R227) -/

/-- Pages a domain holds on a pier. -/
def pageUse (s : State) (p d : Nat) : Nat := ((pierOf s p).pages.filter (fun e => e.2.1 = d + 1)).length

/-- The use that PLN_USE_d shows: domain 15 holds region 47. -/
def shownUse (s : State) (p d : Nat) : Nat := if d = 15 then 64 else pageUse s p d

/-- A domain's quota on a pier. -/
def quotaOf (s : State) (p d : Nat) : Nat := field (getReg s (plnBase + 0x4000 * p + 0x100 + 4 * d)) 11 0

/-- Every free run of `n` pages on a pier, as region × 64 + first page; region 47 is the firmware's. -/
def freeRuns (s : State) (p n : Nat) : List Nat :=
  let pr := pierOf s p
  ((List.range 47).filter (fun r => pr.modes.getD r 0 = 1)).flatMap (fun r =>
    ((List.range (65 - n)).filter (fun g => (List.range n).all (fun i =>
      decide (sget (0, false) pr.pages (r * 64 + g + i) = (0, false))))).map (fun g => r * 64 + g))

/-- A run of pages is zeroed: its bytes read as zeros and hold no bit errors (R225). -/
def zeroPages (p first n : Nat) (s : State) : State :=
  let lo := pageAddrOf p (first / 64) (first % 64)
  { s with mem := sfilter s.mem (fun a => decide (a < lo) || decide (lo + 0x10000 * n ≤ a))
           upset := sfilter s.upset (fun l => decide (64 * l < lo) || decide (lo + 0x10000 * n ≤ 64 * l)) }

/-- Give a run of pages to a domain. -/
def takePages (p first n d : Nat) (shared : Bool) (s : State) : State :=
  let s := zeroPages p first n s
  let pr := pierOf s p
  setPier s p { pr with pages := (List.range n).foldl (fun m i => sput (0, false) m (first + i) (d + 1, shared)) pr.pages }

/-- Free a run of pages. -/
def freePages (p first n : Nat) (s : State) : State :=
  let pr := pierOf s p
  setPier s p { pr with pages := sfilter pr.pages (fun k => decide (k < first) || decide (first + n ≤ k)) }

/-- Choose a free run: the manual does not say which, so a free value does (log 1). -/
def pickRun (runs : List Nat) (s : State) : Nat × State :=
  let (f, s) := free32 s
  (runs.getD (f % runs.length) 0, s)

/-- The areas of the stage queues whose consumer is this module, as (first address, bytes) (R294). -/
def queueAreas (s : State) : List (Nat × Nat) :=
  s.stp.queues.filterMap (fun e => e.2.bind (fun q =>
    if field q.desc 215 200 = field (getReg s fabBase) 31 16 then
      some (field q.desc 159 112, field q.desc 111 80 * (field q.desc 79 72 + 1))
    else none))

/-- A run of pages that a loaded program binds as a gather area or a queue (Table 8-4). -/
def runBound (s : State) (p first n : Nat) : Bool :=
  let lo := pageAddrOf p (first / 64) (first % 64)
  let hi := lo + 0x10000 * n
  (queueAreas s).any (fun q => decide (q.1 < hi) && decide (lo < q.1 + q.2))
    || (pierOf s p).gather.any (fun e => e.2.any (fun g =>
      (g.st = .filling || g.st = .present) && decide (g.page < first + n) && decide (first < g.page + gdPages g.desc)))

/-- PLINTH_ALLOC (R225): QUOTA, then SPACE, then the run; the detail gives region and first page. -/
def kPlinthAlloc (_h : CmdHdr) (pier domain pages shared : Byte) (s : State) : KRes :=
  let (p, d, n) := (pier.toNat, domain.toNat, pages.toNat)
  if 3 < p then kFail stParameter 0 s
  else if 11 < d then kFail stParameter 1 s
  else if n = 0 ∨ 64 < n then kFail stParameter 2 s
  else if 1 < shared.toNat then kFail stParameter 3 s
  else if quotaOf s p d < pageUse s p d + n then
    kFail stQuota 0 (bump s (cPln p 0x328))
  else
    let runs := freeRuns s p n
    if runs.isEmpty then kFail stSpace 0 s
    else
      let (first, s) := pickRun runs s
      kOk (first / 64 * 2 ^ 8 + first % 64) (takePages p first n d (shared.toNat = 1) s)

/-- PLINTH_FREE (R227): every page of the run is held by one of domains 0 to 11 and no loaded program binds it. -/
def kPlinthFree (_h : CmdHdr) (pier region first pages : Byte) (s : State) : KRes :=
  let (p, r, g, n) := (pier.toNat, region.toNat, first.toNat, pages.toNat)
  if 3 < p then kFail stParameter 0 s
  else if 46 < r then kFail stParameter 1 s
  else if 63 < g then kFail stParameter 2 s
  else if n = 0 ∨ 64 < g + n then kFail stParameter 3 s
  else if !(List.range n).all (fun i =>
      let h := (pageHolder s p r (g + i)).1
      decide (1 ≤ h ∧ h ≤ 12)) then kFail stParameter 2 s
  else if runBound s p (r * 64 + g) n then kFail stBusy 0 s
  else kOk 0 (freePages p (r * 64 + g) n s)

/-- PLINTH_QUOTA (R226): takes effect at once. -/
def kPlinthQuota (_h : CmdHdr) (pierMask domain : Byte) (quota : W16) (s : State) : KRes :=
  if 15 < pierMask.toNat then kFail stParameter 0 s
  else if 14 < domain.toNat then kFail stParameter 1 s
  else if 3072 < quota.toNat then kFail stParameter 2 s
  else kOk 0 ((maskBits 4 pierMask.toNat).foldl (fun s p =>
    setReg s (plnBase + 0x4000 * p + 0x100 + 4 * domain.toNat) quota.toNat) s)

/-! ## Modes (R218) -/

/-- Requested mode of region `r` of pier `p`; the reserved code keeps the mode in force. -/
def requestedMode (s : State) (p r : Nat) : Nat :=
  if r = 47 then 1
  else
    let m := field (getReg s (plnBase + 0x4000 * p + 4 * r)) 31 30
    if m = 3 then (pierOf s p).modes.getD r 0 else m

/-- Modes a pier would have after an apply. -/
def requestedModes (s : State) (p : Nat) : List Nat := (List.range 48).map (requestedMode s p)

/-- A pier refuses an apply (R218). -/
def applyRefused (s : State) (p : Nat) : Bool :=
  let pr := pierOf s p
  let new := requestedModes s p
  let pool := (new.filter (· = 2)).length
  (List.range 48).any (fun r => decide (pr.modes.getD r 0 = 1) && decide (new.getD r 0 ≠ 1)
      && pr.pages.any (fun e => decide (e.1 / 64 = r)))
    || decide (pool = 0)
    || decide (pool * 4194304 < field (getReg s (plnBase + 0x4000 * p + 0xC0)) 23 16 * 65536 + 1048576)

/-- The pool region that holds an entry: the manual does not place entries, and the model spreads them by granule over
the pool regions in order (log 71). -/
def poolRegionOf (s : State) (p : Nat) (e : PoolEntry) : Nat :=
  let rs := (List.range 48).filter (fun r => decide ((pierOf s p).modes.getD r 0 = 2))
  rs.getD (e.granule % rs.length) 48

/-- Put a pier's requested modes in force: what the pool regions that leave hold is drained, and the cache is invalidated
(R218, R222). -/
def applyModes (p : Nat) (s : State) : State :=
  let new := requestedModes s p
  let s := poolDrain p (fun e => decide (new.getD (poolRegionOf s p e) 0 ≠ 2)) s
  let s := cacheClear p s
  setPier s p { pierOf s p with modes := new }

/-- PLINTH_APPLY: all or nothing across the pier mask. It begins once no retrain runs (Table 8-5, `applyHeld`). -/
def kPlinthApply (_h : CmdHdr) (pierMask : Byte) (s : State) : KRes :=
  let ps := maskBits 4 pierMask.toNat
  if 15 < pierMask.toNat then kFail stParameter 0 s
  else if stepActive s then kFail stActive 0 s
  else if ps.any (applyRefused s) then kFail stParameter 0 s
  else kOk 0 (ps.foldl (fun s p => applyModes p s) s)

/-- Some channel is retraining. -/
def anyRetrain (s : State) : Bool := s.chans.any (fun e => e.2.retraining)

/-- An opcode whose command waits for running retrains to end: TREIM_MAP_APPLY and PLINTH_APPLY (R213, Table 8-5). -/
def applyHeld (s : State) (op : Nat) : Bool := (op = 0x0210 || op = 0x0220) && anyRetrain s

/-- A PLINTH_APPLY over a pier waits at the head of a queue for a retrain to end: it is in progress (Tables 8-10 and
8-11, log 71). -/
def applying (s : State) (p : Nat) : Bool :=
  anyRetrain s && s.host.queues.any (fun e => match e.2.waiting with
    | .plinthApply h m :: _ => m.toNat.testBit p && decide (h.notBefore.toNat ≤ nsOf s)
    | _ => false)

/-! ## Staging pages of the agents (R223) -/

/-- An agent allocates a run of pages of its domain on the first pier that has it within quota and space; answers pier
and first page (log 71). -/
def stageTake (d n : Nat) (shared : Bool) (s : State) : Option (Nat × Nat) × State :=
  match (List.range 4).find? (fun p => decide (pageUse s p d + n ≤ quotaOf s p d) && !(freeRuns s p n).isEmpty) with
  | none => (none, s)
  | some p =>
    let (first, s) := pickRun (freeRuns s p n) s
    (some (p, first), takePages p first n d shared s)

/-- An agent frees the pages of its domain. -/
def stageFree (d : Nat) (s : State) : State :=
  (List.range 4).foldl (fun s p =>
    let pr := pierOf s p
    setPier s p { pr with pages := pr.pages.filter (fun e => e.2.1 ≠ d + 1) }) s

/-! ## Pool age (R229) -/

/-- WC_AGE in nanoseconds. -/
def poolAgeNs (s : State) (p : Nat) : Nat :=
  let a := field (getReg s (plnBase + 0x4000 * p + 0xC0)) 31 24
  (if a = 0 then 4 else a) * 1000

/-- Bit errors that a pier's SRAM takes: in a granule of the pool, in a cached copy, or in a page (R235). -/
def plinthUpset (p : Nat) (u : Upset) (s : State) : State :=
  let a := u.addr.toNat / 64 * 64
  if u.pooled then
    match poolEntry s p (a / 512) with
    | none => s
    | some e =>
      poolSet p (a / 512) (some { e with errs := (List.range 8).foldl (fun m w =>
        smod 0 m (a % 512 / 64 * 8 + w) (· ^^^ wordErr u.bits.toNat w)) e.errs }) s
  else match classify a with
    | .plinth q _ _ => if q = p then addUpset a u.bits.toNat s else s
    | .treim _ =>
      let pr := pierOf s p
      (match sget 0 pr.cache (a / 64) with
      | 0 => s
      | e + 1 => setPier s p { pr with cache := sput 0 pr.cache (a / 64) (1 + (e ^^^ u.bits.toNat)) })
    | _ => s

/-- POOL_AGE_RELEASE (R229): entries older than WC_AGE leave; what a retrain holds stays. The bit errors that the pier's
SRAM has taken come with it (log 72). -/
def execPoolAgeRelease (visit : PierVisit) (s : State) : Host.Outcome State Fault Refusal :=
  .next (
    let p := visit.pier.toNat
    let s := visit.upsets.foldl (fun s u => plinthUpset p u s) s
    poolDrain p (fun e => !e.absorbed && decide (e.since + poolAgeNs s p < nsOf s)) s)

end Sys2Proof.Machine
end

