-- ==== Sys2Proof/Machine/Treim.lean ====
section
/-!
DEFINITION. Treim: placement, training and retraining, calibration, refresh, scrub and lost channels (chapter 7).
-/
namespace Sys2Proof.Machine

/-! ## TREIM_MAP_APPLY (R196 to R202, R206, R212, R213) -/

/-- The register TRM_RGN_n. -/
def rgnReg (s : State) (n : Nat) : Nat := getReg s (trmBase + 4 * n)

/-- RSV_ROWS of stack `k`. -/
def rsvReg (s : State) (k : Nat) : Nat := field (getReg s (trmBase + 0x4010 + 4 * k)) 19 0

/-- A state whose map excludes the lost channels (R206). -/
def dropLost (s : State) : State :=
  { s with stackTab := s.stackTab.map (fun p => (p.1, { p.2 with mapx := p.2.lost }))
           chans := s.chans.map (fun p => (p.1, { p.2 with rebuilt := false })) }

/-- A region as it asks to be placed: mode, stack and braced. -/
structure PlaceAsk where
  n      : Nat
  mode   : Nat
  stack  : Nat
  braced : Bool
  deriving DecidableEq, Repr

/-- The regions of an apply in the order of R200: the firmware regions, then 0 to 503 ascending. -/
def placeAsks (s : State) : List PlaceAsk :=
  (List.range 8).map (fun k => { n := 504 + k, mode := 2, stack := k, braced := true })
    ++ (List.range 504).filterMap (fun n =>
      let w := rgnReg s n
      if field w 31 30 = 0 then none
      else some { n := n, mode := field w 31 30, stack := field w 29 27, braced := flag w 26 })

/-- Where an apply has got to: cursors, bases (region, stack, first row), braced rows, and the first failure. -/
structure Placing where
  cursor : List Nat
  bases  : List (Nat × Nat × Nat)
  braced : List Nat
  fail   : Option (Nat × Nat)
  deriving DecidableEq, Repr

/-- The stacks a placement spans. -/
def PlaceAsk.onStacks (a : PlaceAsk) : List Nat := if a.mode = 1 then List.range 8 else [a.stack]

/-- Place one region (R200): it fails on the first stack whose rows and reserve exceed 2^20 (R201). -/
def placeOne (s : State) (p : Placing) (a : PlaceAsk) : Placing :=
  let rows := regionRows (slotList s a.mode a.stack a.braced).length
  let tooBig := a.onStacks.find? (fun k => decide (2 ^ 20 < p.cursor.getD k 0 + rows + rsvReg s k))
  let add (l : List Nat) : List Nat := (List.zip (List.range 8) l).map (fun e => if a.onStacks.contains e.1 then e.2 + rows else e.2)
  { cursor := add p.cursor, bases := p.bases ++ a.onStacks.map (fun k => (a.n, k, p.cursor.getD k 0))
    braced := if a.braced then add p.braced else p.braced
    fail := match p.fail with
      | some f => some f
      | none =>
        if a.mode = 1 ∧ a.stack ≠ 0 then some (a.stack, a.n)
        else tooBig.map (fun k => (k, a.n)) }

/-- Channels of the smallest brace group of a stack. -/
def minGroup (s : State) (k : Nat) : Nat :=
  (List.range 8).foldl (fun a b => min a (groupChans s k b).length) 16

/-- The placement of the requested regions, or the CONFIGURATION detail of the first failure (R201, R213). -/
def placement (s : State) : Nat ⊕ Placing :=
  let p := (placeAsks s).foldl (placeOne s)
    { cursor := List.replicate 8 0, bases := [], braced := List.replicate 8 0, fail := none }
  match p.fail with
  | some (k, n) => .inl (k * 2 ^ 28 + n)
  | none =>
    match (List.range 8).find? (fun k => decide (rsvReg s k < ceilDiv (p.braced.getD k 0) (minGroup s k))) with
    | some k => .inl (k * 2 ^ 28 + 0x1FF)
    | none => .inr p

/-- The CRC-64 over TRM_RGN_0 to TRM_RGN_503 and the TRM_MAPX words (R213). -/
def placementCrc (s : State) : Nat :=
  crc64 ((List.range 504).flatMap (fun n => leBytes 4 (rgnReg s n))
    ++ (List.range 8).flatMap (fun k => leBytes 16 (stackOf s k).mapx))

/-- Put a placement in force, invalidate the caches (R222) and write its CRC to each firmware region. -/
def installPlacement (p : Placing) (s : State) : State :=
  let crc := placementCrc s
  let s := (List.range 4).foldl (fun s q => cacheClear q s) { s with rmap := (List.range 504).foldl (fun m n => sput 0 m n (rgnReg s n)) [] }
  let s := (List.range 8).foldl (fun s k =>
    let bases := p.bases.foldl (fun m b => if b.2.1 = k then sput 0 m b.1 (b.2.2 + 1) else m) []
    setStack s k { stackOf s k with applied := true, rsv := rsvReg s k, base := bases }) s
  (List.range 8).foldl (fun s k => fwWrite k 0 (leBytes 8 crc) s) s

/-- Zero every configured region, firmware area included, and with it the journals, the step record, the scale records
and histories, the check table, the codebooks and what the outer step keeps (R25, R212, R267). -/
def zeroTreim (s : State) : State :=
  { s with
    mem := sfilter s.mem (fun a => decide (0x008000000000 ≤ a)), poison := [], openBlk := []
    upset := sfilter s.upset (fun l => decide (0x008000000000 ≤ 64 * l))
    piers := s.piers.map (fun p => (p.1, { p.2 with pool := [] }))
    tensors := (s.tensors.map (fun e => (e.1, { Tensor.init with fmt := e.2.fmt, satCnt := e.2.satCnt, nfCnt := e.2.nfCnt
                                                                 crushCnt := e.2.crushCnt }))).filter (fun e => decide (e.2 ≠ Tensor.init))
    cbl := { s.cbl with flight := [], table := [], outer := [], books := [] }
    npx := { s.npx with om := [], ov := [], rout := [] }
    stp := { s.stp with rc := StepRec.zero } }

/-- An apply in mode JOB_START (`restore` false) or RESTORE. Applies begin once no retrain runs (R213, `applyHeld`). -/
def applyFresh (restore : Bool) (s0 : State) : KRes :=
  if stepActive s0 then kFail stActive 0 s0
  else
    let s := dropLost s0
    match placement s with
    | .inl d => kFail stConfiguration d s0
    | .inr p =>
      let s := installPlacement p (zeroTreim s)
      let s := if restore then
          let lost := (List.range 8).foldl (fun a k => a + (if (stackOf s k).contentLost then 2 ^ k else 0)) 0
          liftFence lost { s with stackTab := s.stackTab.map (fun q => (q.1, { q.2 with contentLost := false })) } else s
      kOk 0 { s with cbl := { s.cbl with placed := if restore then 2 else 1 } }

/-- TREIM_MAP_APPLY, JOB_START. -/
def kTreimMapApplyJobStart (_h : CmdHdr) (s : State) : KRes := applyFresh false s
/-- TREIM_MAP_APPLY, RESTORE. -/
def kTreimMapApplyRestore (_h : CmdHdr) (s : State) : KRes := applyFresh true s

/-- TREIM_MAP_APPLY, RESUME (R213): map and contents are kept, if the stored placement CRC agrees on every stack. -/
def kTreimMapApplyResume (_h : CmdHdr) (s : State) : KRes :=
  if stepActive s then kFail stActive 0 s
  else match placement s with
    | .inl d => kFail stConfiguration d s
    | .inr p =>
      if (List.range 8).any (fun k => (stackOf s k).contentLost || decide (loadLe s (fwAddr k 0) 8 ≠ placementCrc s)) then
        kFail stPlacement 0 s
      else
        let s := installPlacement p s
        kOk 0 { s with cbl := { s.cbl with placed := 3 } }

/-! ## Retraining (R190 to R192, Table 7-3) -/

/-- A channel that takes no part in traffic: lost, or its stack in self-refresh. -/
def chanIdle (s : State) (g : Nat) : Bool :=
  chanLost s (g / 128) (g % 128) || (stackOf s (g / 128)).selfRefresh || (stackOf s (g / 128)).stopped

/-- TREIM_RETRAIN (R190): a lost channel is a failed unit. -/
def kTreimRetrain (h : CmdHdr) (channel : W16) (s : State) : KRes :=
  let g := channel.toNat
  if 1023 < g then kFail stParameter 0 s
  else if chanLost s (g / 128) (g % 128) then kFail stFault 0 s
  else kOk 0 (requestRetrain g (max (nsOf s) h.notBefore.toNat) s)

/-- RETRAIN_START (R190): at a budget period boundary a due retrain starts, unless another channel of its brace group is
retraining, which it then waits for and counts once. -/
def execRetrainStart (channel : BitVec 10) (s : State) : Host.Outcome State Fault Refusal :=
  .next (
    let g := channel.toNat
    let k := g / 128
    let c := chanOf s g
    match c.due with
    | none => s
    | some d =>
      if nsOf s % periodNs s ≠ 0 ∨ nsOf s < d ∨ c.retraining ∨ chanIdle s g then s
      else if (List.range 16).any (fun i => (chanOf s (g / 16 * 16 + i)).retraining) then
        if c.waited then s else bump (setChan s g { c with waited := true }) (cTrm k 0x130)
      else bump (setChan s g { c with retraining := true, due := none, weak := false, waited := false }) (cTrm k 0x128))

/-- A retrain ends unfinished: the channel is as before it, with the retrain still due, and the refresh it deferred is
issued (Table 7-11). -/
def stopRetrain (g : Nat) (s : State) : State :=
  let c := chanOf s g
  if c.retraining then
    charge 15 (.channel g) (2 * c.refDefer) (setChan s g { c with retraining := false, due := some (nsOf s), weak := true, refDefer := 0 })
  else s

/-- The retrains of a stack end unfinished. -/
def stopRetrains (k : Nat) (s : State) : State :=
  (List.range 128).foldl (fun s c => stopRetrain (k * 128 + c) s) s

/-- A lane accepted at training has an eye of at least 0.40 UI and 40 mV (Table 7-4). -/
def eyeAccepted (w h : Nat) : Bool := decide (103 ≤ w) && decide (40 ≤ h)
/-- A lane is weak below 0.35 UI or 35 mV. -/
def eyeWeak (w h : Nat) : Bool := decide (w ≤ 89) || decide (h < 35)

/-- Record a lane's eye. -/
def recordEye (c : Channel) (lane w h : Nat) : Channel :=
  { c with eyes := sput 0 c.eyes lane (2 ^ 16 + w * 256 + h) }

/-- Place one failed lane (Table 7-3, step 5): the spare unless it has failed itself, then the erased lane; `none` when the
channel is lost. A lane that has been replaced needs nothing more; a failed spare that carries a lane fails that lane. -/
def placeLane (c : Channel) (lane : Nat) : Option Channel :=
  let l := if lane = 18 then c.spareFor else lane
  if lane = 18 ∧ c.spareFor = 31 then some { c with spareBad := true }
  else if l = c.erased ∨ (lane ≠ 18 ∧ l = c.spareFor) then some c
  else if c.spareFor = 31 ∧ !c.spareBad then some { c with spareFor := l }
  else if c.erased = 31 then some { c with erased := l }
  else none

/-- The failed lanes of a training, placed one after another; answers the channel, the assignments made, and whether
it is lost. -/
def placeLanes : List Nat → Channel → Nat → Channel × Nat × Bool
  | [], c, n => (c, n, false)
  | l :: ls, c, n =>
    match placeLane c l with
    | none => (c, n, true)
    | some c' => placeLanes ls c' (if c'.spareFor = c.spareFor ∧ c'.erased = c.erased then n else n + 1)

/-- A training or retrain measures a channel's lanes and TSV paths and assigns spares (Table 7-3). `tsv` names the lane
of each failed path: two are steered to spare paths, and any more fail their lanes. The spare lane is judged first. -/
def trainChannel (g : Nat) (lanes : List LaneEye) (tsv : List (BitVec 5)) (s : State) : Bool × State :=
  let c := chanOf s g
  let paths := min tsv.length (2 - c.tsv)
  let cut := (tsv.drop (2 - c.tsv)).map BitVec.toNat
  let c := lanes.foldl (fun c e => recordEye c e.lane.toNat e.width.toNat e.height.toNat) { c with tsv := c.tsv + paths }
  let bad := (lanes.filter (fun e => decide (e.lane.toNat ≤ 18) && !eyeAccepted e.width.toNat e.height.toNat)).map (fun e => e.lane.toNat)
  let failed := (cut.filter (· ≤ 18) ++ bad).eraseDups
  let (c, n, lost) := placeLanes (failed.filter (· = 18) ++ failed.filter (· ≠ 18)) c 0
  (lost, bumpN (setChan s g c) (cTrm (g / 128) 0x138) (paths + n))

/-- Lines of a map channel of stack `k` that nothing can be read from: all unbraced ones of a lost channel, and those
braced ones that neither its group nor the reserve can serve (R199, R205, Table 7-11). -/
def goneLines (s : State) (k c : Nat) : Nat :=
  if !chanLost s k c then 0
  else
    let mates := stripeMates s k c
    let dead := (mates.filter (chanLost s k)).length
    let n := bracedBelow s k c (2 ^ 20)
    let plain := (s.rmap.map Prod.fst).foldl (fun a r =>
      if !regionBraced s r && (regionStacks s r).contains k then a + regionRows (slotList s (regionMode s r) (regionStack s r) false).length
      else a) 0
    let braced := if chanRebuilt s k c then
        (List.range mates.length).foldl (fun a j => if chanLost s k (mates.getD j c) then a + (n + mates.length - 1 - j) / mates.length else a) 0
      else if dead = 0 then 0 else n
    8 * (plain + braced)

/-- The lines that a brace group has lost for good. -/
def groupGone (s : State) (k b : Nat) : Nat := (groupChans s k b).foldl (fun a c => a + goneLines s k c) 0

/-- A channel is lost (R203): its bit is set, the host is told, the lines that are gone with it are counted as poisoned,
and what the pool holds for it goes to the reserve if braced and is discarded and counted if not. -/
def loseChannel (g : Nat) (s : State) : State :=
  let k := g / 128
  let was := groupGone s k (g % 128 / 16)
  let st := stackOf s k
  let s := setStack s k { st with lost := st.lost ||| 2 ^ (g % 128) }
  let s := bumpN s (cTrm k 0x118) (groupGone s k (g % 128 / 16) - was)
  let s := postEvent 0x0003 g (5 * 4096 + k) s
  ((pierOf s (k / 2)).pool.filter (fun e => (placeOf s (e.granule * 512)).any (fun q => q.1 * 128 + q.2.1 = g))).foldl
    (fun s e => settleEntry e (poolSet (k / 2) e.granule none s)) s

/-- RETRAIN_COMPLETE (R191, R192): the lanes measured are placed, and the channel is released or lost; deferred refresh is
issued first, and absorbed granules drain in their order of arrival. -/
def execRetrainComplete (channel : BitVec 10) (lanes : List LaneEye) (tsvFailed : List (BitVec 5)) (s : State) :
    Host.Outcome State Fault Refusal :=
  .next (
    let g := channel.toNat
    let k := g / 128
    let c := chanOf s g
    if !c.retraining then s
    else
      let (lost, s) := trainChannel g lanes tsvFailed s
      let c' := chanOf s g
      let s := setChan s g { c' with retraining := false, refDefer := 0 }
      if lost then loseChannel g s
      else
        let s := if c.erased = 31 ∧ c'.erased ≠ 31 then postEvent 0x0002 g (5 * 4096 + k) s else s
        let s := charge 15 (.channel g) (2 * c.refDefer) s
        poolDrain (k / 2) (fun e =>
          e.absorbed && (placeOf s (e.granule * 512)).any (fun q => q.1 * 128 + q.2.1 = g)) s)

/-! ## Live calibration (R188, R189) -/

/-- Act on an eye that live calibration found: a weak or failed lane makes a retrain due. -/
def eyeFound (g lane w h : Nat) (s : State) : State :=
  let s := setChan s g (recordEye (chanOf s g) lane w h)
  if eyeWeak w h then requestRetrain g (nsOf s) s else s

/-- The calibration interval that a line time lies in: CAL_INTERVAL × 100 µs, 0 treated as 10. -/
def calInterval (s : State) : Nat :=
  let v := field (getReg s (trmBase + 0x4000)) 23 16
  nsOf s / ((if v = 0 then 10 else v) * 100000)

/-- CALIBRATION_INTERVAL (R188): while the spare is free, one lane in each interval is swept, in the order 0 to 17 and then
the spare. -/
def execCalibrationInterval (channel : BitVec 10) (eyeW eyeH : Byte) (s : State) : Host.Outcome State Fault Refusal :=
  .next (
    let g := channel.toNat
    let c := chanOf s g
    if c.spareFor ≠ 31 ∨ c.retraining ∨ chanIdle s g ∨ c.calIvl = calInterval s + 1 then s
    else eyeFound g c.calLane eyeW.toNat eyeH.toNat (setChan s g { c with calLane := (c.calLane + 1) % 19, calIvl := calInterval s + 1 }))

/-- The lane after `l` in the order of R188, the erased lane excepted. -/
def nextLane (erased l : Nat) : Nat :=
  let n := (l + 1) % 18
  if n = erased then (n + 1) % 18 else n

/-- QUIET_EVERY in force. -/
def quietEvery (s : State) : Nat :=
  let q := field (getReg s (trmBase + 0x4000)) 31 24
  if q = 0 then 16 else q

/-- QUIET_SLOT (R189): in a channel's quiet period, one of the 32 sweep points of one lane is measured; the 64 slots
are charged to class 14. The lane's eye is known once its last point is. -/
def execQuietSlot (channel : BitVec 10) (eyeW eyeH : Byte) (s : State) : Host.Outcome State Fault Refusal :=
  .next (
    let g := channel.toNat
    let c := chanOf s g
    if c.spareFor = 31 ∨ c.retraining ∨ chanIdle s g then s
    else if (nsOf s / periodNs s + g) % quietEvery s ≠ 0 then s
    else
      let s := charge 14 (.channel g) 64 s
      let lane := if c.calLane ≥ 18 ∨ c.calLane = c.erased then nextLane c.erased 17 else c.calLane
      if c.calPoint < 31 then setChan s g { c with calLane := lane, calPoint := c.calPoint + 1 }
      else
        eyeFound g lane eyeW.toNat eyeH.toNat
          (setChan s g { c with calLane := nextLane c.erased lane, calPoint := 0 }))

/-! ## Lost channels, refresh and scrub (R204, R208, R211) -/

/-- Lines of a channel that cannot be rebuilt because another line of their stripe is uncorrectable (R199). -/
def brokenLines (s : State) (k c : Nat) : List Nat :=
  s.upset.flatMap (fun u =>
    let m := 64 * u.1
    match (if regionBraced s (m / 2 ^ 30) then placeOf s m else none) with
    | some (k', c', _) =>
      if k' = k ∧ c' ≠ c ∧ c' / 16 = c / 16 ∧ decodeAt s k c' m = .uncorrectable then
        ((stripeGranules s m).filter (fun g => (placeOf s g).any (fun p => p.2.1 = c))).map (fun g => g + m % 512 / 64 * 64)
      else []
    | none => [])

/-- LOST_CHANNEL_REBUILD (R204): the lost channel's braced granules are all in the reserve. Each line has been rebuilt from
the other channels of the group and written to the reserve in the calibration class; one with an uncorrectable line in
its stripe is poisoned. -/
def execLostChannelRebuild (channel : BitVec 10) (s : State) : Host.Outcome State Fault Refusal :=
  .next (
    let g := channel.toNat
    let (k, c) := (g / 128, g % 128)
    let mates := stripeMates s k c
    if !chanLost s k c || (stackOf s k).mapx.testBit c || (chanOf s g).rebuilt || mates.any (chanLost s k) || mateHeld s k c 
        || (stackOf s k).selfRefresh || (stackOf s k).stopped then s
    else
      let n := bracedBelow s k c (2 ^ 20)
      let s := (List.zip (List.range mates.length) mates).foldl (fun s m =>
        charge 14 (.channel (k * 128 + m.2)) (8 * (n + (n + mates.length - 1 - m.1) / mates.length)) s) s
      let s := (brokenLines s k c).foldl (fun s a => poisonLine k a s) s
      setChan (bumpN s (cTrm k 0x110) (8 * n)) g { chanOf s g with rebuilt := true })

/-- Refresh commands a channel issues per period at a stack's level (R208). -/
def refreshCount (s : State) (k : Nat) : Nat :=
  ceilDiv (131072 * periodNs s) (if (stackOf s k).level = 0 then 32000000 else 16000000)

/-- Bit errors that a channel's lines take. -/
def treimUpset (k c : Nat) (u : Upset) (s : State) : State :=
  let a := u.addr.toNat
  if !u.pooled && decide (a < 0x008000000000) && (servedBy s a).any (fun p => p.1 = k && p.2.1 = c) then addUpset a u.bits.toNat s else s

/-- REFRESH_PERIOD (R208, R192): the period's refresh commands, 2 channel slots each in class 15; a retrain defers them. The
bit errors that the channel's cells have taken come with it (log 72). -/
def execRefreshPeriod (visit : ChannelVisit) (s : State) : Host.Outcome State Fault Refusal :=
  .next (
    let g := visit.channel.toNat
    let k := g / 128
    let s := visit.upsets.foldl (fun s u => treimUpset k (g % 128) u s) s
    let c := chanOf s g
    let n := refreshCount s k
    let per := nsOf s / periodNs s + 1
    if (stackOf s k).selfRefresh || c.refPer = per then s
    else
      let c := { c with refPer := per }
      if c.retraining then bumpN (setChan s g { c with refDefer := c.refDefer + n }) (cTrm k 0x158) n
      else charge 15 (.channel g) (2 * n) (setChan s g c))

/-- Line addresses are visited in ascending order; the search for the next line on a stack looks at most through one
region's granules at a time. -/
def scrubFind (s : State) (k : Nat) : Nat → Nat → Option Nat
  | 0, _ => none
  | f + 1, a =>
    if 0x008000000000 ≤ a then scrubFind s k f 0
    else if !(regionStacks s (a / 2 ^ 30)).contains k then scrubFind s k f ((a / 2 ^ 30 + 1) * 2 ^ 30)
    else if (placeOf s a).any (fun p => p.1 = k) then some a
    else scrubFind s k f ((a / 512 + 1) * 512)

/-- PATROL_SCRUB (R211): the next line of a configured region on the stack, with the bit errors that the channel which
holds it shows beside those already there, is read in the calibration class and treated by Table 7-2. -/
def execPatrolScrub (stack : BitVec 3) (error : List Byte) (s : State) : Host.Outcome State Fault Refusal :=
  .next (
    let k := stack.toNat
    let st := stackOf s k
    if field (getReg s (trmBase + 0x4000)) 7 0 = 0 ∨ !st.applied ∨ st.selfRefresh ∨ st.stopped then s
    else match scrubFind s k 4096 (st.scrub * 64) with
      | none => s
      | some a =>
        match placeOf s a, servedBy s a with
        | some (_, c, q), some (_, r, _) =>
          let st := if a < st.scrub * 64 then { st with ceRows := [] } else st
          let s := bump (setStack s k { st with scrub := a / 64 + 1 }) (cTrm k 0x170)
          let s := if chanLost s k r then s else addUpset a (leAt (slice error 0 72) 0 72) s
          (fetchLine 14 false a k c q s).2
        | _, _ => s)

/-! ## Row repair (R187) -/

/-- Spare rows left in the fullest-used bank. -/
def spareMin (st : Stack) : Nat := st.spares.foldl (fun a p => min a (16 - p.2)) 16

/-- The rows of a stack's repair list that are remapped to a spare row of their bank, and the spares used after it. -/
def remapRows (st : Stack) : List Nat × Sparse Nat :=
  st.repair.foldl (fun r row =>
    let used := sget 0 r.2 (row / 2 ^ 14)
    if used < 16 then (r.1 ++ [row], sput 0 r.2 (row / 2 ^ 14) (used + 1)) else r) ([], st.spares)

/-- One line of a remapped row is copied: corrected, rebuilt, or poisoned (R187). -/
def copyLine (k c a : Nat) (s : State) : State :=
  match decodeAt s k c a with
  | .corrected diff => storeBytes (clearUpset a s) a (xorBytes (bytesAt s a 64) diff)
  | .uncorrectable => if hasParity s k c a && rebuildable s k c a then clearUpset a s else poisonLine k a s
  | .good => clearUpset a s
  | .poison => clearUpset a s

/-- Copy the contents of the rows that are about to be remapped, as far as they hold bit errors. -/
def copyRows (k : Nat) (s : State) : State :=
  let rows := (remapRows (stackOf s k)).1
  if rows.isEmpty then s
  else s.upset.foldl (fun s u => match placeOf s (64 * u.1) with
    | some (k', c, q) => if k' = k && rows.contains (dramRow c q) then copyLine k c (64 * u.1) s else s
    | none => s) s

/-- At power-up and module reset each row of the repair list is remapped to a spare row of its bank, if one is left. -/
def repairRows (k : Nat) (s : State) : State :=
  let st := stackOf s k
  let (done, spares) := remapRows st
  bumpN (bumpN (setStack s k { st with repair := [], spares := spares }) (cTrm k 0x178) done.length)
    (cTrm k 0x180) (st.repair.length - done.length)

/-- The register TRM_STK_STATUS (Table 7-16). -/
def stkStatus (s : State) (k : Nat) : Nat :=
  let st := stackOf s k
  let rt := ((List.range 128).filter (fun c => (chanOf s (k * 128 + c)).retraining)).length
  st.level * 2 ^ 30 + bit st.stopped * 2 ^ 29 + bit st.contentLost * 2 ^ 28 + rt % 16 * 2 ^ 24 + bit st.applied * 2 ^ 23
    + st.temp % 2 ^ 16

/-- The register TRM_CH_STAT_c (Table 7-17). -/
def chStat (s : State) (k c : Nat) : Nat :=
  let ch := chanOf s (k * 128 + c)
  let code :=
    if chanLost s k c then (if (stackOf s k).mapx.testBit c then 5 else 4)
    else if (stackOf s k).mapx.testBit c then 5
    else if ch.retraining then 3
    else if ch.erased ≠ 31 then 2
    else if ch.spareFor ≠ 31 then 1
    else 0
  let eyes := ch.eyes.map Prod.snd
  let w := eyes.foldl (fun a e => min a (e / 256 % 256)) 255
  let h := eyes.foldl (fun a e => min a (e % 256)) 255
  code * 2 ^ 29 + ch.spareFor * 2 ^ 24 + ch.erased * 2 ^ 19 + ch.tsv * 2 ^ 17 + bit ch.weak * 2 ^ 16
    + (if eyes.isEmpty then 0 else w) * 2 ^ 8 + (if eyes.isEmpty then 0 else h)

/-- The register TRM_REPAIR (Table 7-18). -/
def trmRepair (s : State) (k : Nat) : Nat := spareMin (stackOf s k) * 2 ^ 16 + (stackOf s k).repair.length

end Sys2Proof.Machine
end

