-- ==== Sys2Proof/Machine/Corbel.lean ====
section
/-!
DEFINITION. Corbel units: exact accumulators, memory-side operations, reduction buffers, gradients and shards
(chapter 9, R239 to R255).
-/
namespace Sys2Proof.Machine

/-! ## Exact accumulators (R241) -/

/-- `m × 2^e` in units of 2^-298. -/
def exactUnits (m : Nat) (e : Int) : Nat := m * 2 ^ (e + 298).toNat

/-- SQ_ADD of a value. -/
def Exact.sqAdd (a : Exact) (x : FVal) : Exact :=
  match x with
  | .fin _ m e => { a with val := (a.val + exactUnits (m * m) (2 * e)) % 2 ^ 640 }
  | _ => { a with nf := true }

/-- LIN_ADD of a value: a non-finite or negative one only sets NF. -/
def Exact.linAdd (a : Exact) (x : FVal) : Exact :=
  match x with
  | .fin n m e => if n ∧ 0 < m then { a with nf := true } else { a with val := (a.val + exactUnits m e) % 2 ^ 640 }
  | _ => { a with nf := true }

/-- Two accumulators combine. -/
def Exact.add (a b : Exact) : Exact := { nf := a.nf || b.nf, val := (a.val + b.val) % 2 ^ 640 }

/-- The binary32 value of an accumulator; above the range it reads +∞. -/
def Exact.read (a : Exact) : FVal := round32 false a.val 1 (-298)

/-- The binary32 square root of `num / den`, correctly rounded. -/
def sqrtRatio (num den : Nat) : FVal :=
  if num = 0 then .zero
  else
    let big := num * 2 ^ 1400
    let r := Nat.sqrt (big / den)
    round32 false (2 * r + (if r * r * den = big then 0 else 1)) 1 (-701)

/-- The binary32 square root of an accumulator. -/
def Exact.readSqrt (a : Exact) : FVal := sqrtRatio a.val (2 ^ 298)

/-- An accumulator another module sent. -/
def ofExactWord (w : ExactWord) : Exact := { nf := w.nf, val := w.val.toNat }

/-- An accumulator as it lies in memory: an 8-byte header and 640 bits. -/
def Exact.word (a : Exact) : Nat := bit a.nf + a.val * 2 ^ 64

/-- The accumulator that 88 bytes hold. -/
def exactOf (w : Nat) : Exact := { nf := w % 2 = 1, val := w / 2 ^ 64 % 2 ^ 640 }

/-! ## Memory-side operations (R240, Table 9-1) -/

/-- The stack a corbel operation acts in: the word is 8-byte aligned and lies in a stack-local region. -/
def corbelStack (s : State) (a : Nat) : Option Nat :=
  match classify a with
  | .treim r => if regionMode s r = 2 ∧ a % 8 = 0 then some (regionStack s r) else none
  | _ => none

/-- Run an operation on the `n` bytes at an address, or count an unmapped access; class 8, collective. -/
def memOp (a n : Nat) (f : Nat → Nat → State → State) (s : State) : State :=
  match corbelStack s a with
  | none => countUnmapped a s
  | some k =>
    let (r, s) := readDev (.corbel k) 8 a n s
    f k (leNat r.data) s

/-- Store a word for a corbel unit. -/
def corbelStore (k a n v : Nat) (s : State) : State := writeTo (.corbel k) 8 a (leBytes n v) s

/-- The binary32 value in the low half of a stored word. -/
def lowF32 (w : Nat) : FVal := f32 (w % 2 ^ 32)

/-- Store the FP32 value of a word: its high 4 bytes stay. -/
def storeF32 (k a : Nat) (v : FVal) (s : State) : State := corbelStore k a 4 (to32 v) s

/-- ADD_I64 on the word `w` at `a`: a saturating sum. -/
def addI64 (k a w x : Nat) (s : State) : State :=
  let v := signed 64 w + signed 64 x
  let lim : Int := 2 ^ 63 - 1
  let c := if lim < v then lim else if v < -lim then -lim else v
  corbelStore k a 8 (unsigned 64 c) (if c = v then s else bump s (cCbl k 0x150))

/-- ADD_F32 on the word `w` at `a`: an overflow to infinity is counted. -/
def addF32 (k a w x : Nat) (s : State) : State :=
  let (u, y) := (lowF32 w, lowF32 x)
  let v := add32 u y
  storeF32 k a v (if u.isFin && y.isFin && v.isInf then bump s (cCbl k 0x150) else s)

/-- CAS_64 on the word `w` at `a`: replaced if equal to the compare value; the old value is returned. -/
def casWord (k a w c x : Nat) (s : State) : State := emit (.opReturn a w) (if w = c then corbelStore k a 8 x s else s)

/-- ADD_I64. -/
def execAddI64 (addr : BitVec 48) (operand : W64) (s : State) : Host.Outcome State Fault Refusal :=
  .next (memOp addr.toNat 8 (fun k w s => addI64 k addr.toNat w operand.toNat s) s)

/-- ADD_F32. -/
def execAddF32 (addr : BitVec 48) (operand : W32) (s : State) : Host.Outcome State Fault Refusal :=
  .next (memOp addr.toNat 8 (fun k w s => addF32 k addr.toNat w operand.toNat s) s)

/-- MAX_F32: the stored value is the first operand. -/
def execMaxF32 (addr : BitVec 48) (operand : W32) (s : State) : Host.Outcome State Fault Refusal :=
  .next (memOp addr.toNat 8 (fun k w s => storeF32 k addr.toNat (fmax (lowF32 w) (f32 operand.toNat)) s) s)

/-- MIN_F32. -/
def execMinF32 (addr : BitVec 48) (operand : W32) (s : State) : Host.Outcome State Fault Refusal :=
  .next (memOp addr.toNat 8 (fun k w s => storeF32 k addr.toNat (fmin (lowF32 w) (f32 operand.toNat)) s) s)

/-- OR_64. -/
def execOr64 (addr : BitVec 48) (operand : W64) (s : State) : Host.Outcome State Fault Refusal :=
  .next (memOp addr.toNat 8 (fun k w s => corbelStore k addr.toNat 8 (w ||| operand.toNat) s) s)

/-- SWAP_64: the old value is returned. -/
def execSwap64 (addr : BitVec 48) (operand : W64) (s : State) : Host.Outcome State Fault Refusal :=
  .next (memOp addr.toNat 8 (fun k w s => emit (.opReturn addr.toNat w) (corbelStore k addr.toNat 8 operand.toNat s)) s)

/-- CAS_64. -/
def execCas64 (addr : BitVec 48) (compare swap : W64) (s : State) : Host.Outcome State Fault Refusal :=
  .next (memOp addr.toNat 8 (fun k w s => casWord k addr.toNat w compare.toNat swap.toNat s) s)

/-- SQ_ADD (R241). -/
def execSqAdd (addr : BitVec 48) (operand : W32) (s : State) : Host.Outcome State Fault Refusal :=
  .next (memOp addr.toNat 88 (fun k w s =>
    corbelStore k addr.toNat 88 ((exactOf w).sqAdd (f32 operand.toNat)).word s) s)

/-- LIN_ADD (R241). -/
def execLinAdd (addr : BitVec 48) (operand : W32) (s : State) : Host.Outcome State Fault Refusal :=
  .next (memOp addr.toNat 88 (fun k w s =>
    corbelStore k addr.toNat 88 ((exactOf w).linAdd (f32 operand.toNat)).word s) s)

/-- An operation of Table 9-1 on the word at `a` with an operand `x` that a collective brings; for CAS_64, `x` holds the
compare value and above it the swap value (log 74). -/
def collWord (op a x : Nat) (s : State) : State :=
  let f32s (g : FVal → FVal → FVal) : State := memOp a 8 (fun k w s => storeF32 k a (g (lowF32 w) (lowF32 x)) s) s
  match op with
  | 0 => memOp a 8 (fun k _ s => let (v, s) := free64 s; corbelStore k a 8 v s) s
  | 1 => memOp a 8 (fun k w s => addI64 k a w x s) s
  | 2 => memOp a 8 (fun k w s => addF32 k a w x s) s
  | 3 => f32s fmax
  | 4 => f32s fmin
  | 5 => memOp a 8 (fun k w s => corbelStore k a 8 (w ||| x % 2 ^ 64) s) s
  | 6 => memOp a 8 (fun k w s => emit (.opReturn a w) (corbelStore k a 8 (x % 2 ^ 64) s)) s
  | 7 => memOp a 8 (fun k w s => casWord k a w (x % 2 ^ 64) (x / 2 ^ 64) s) s
  | 8 => memOp a 88 (fun k w s => corbelStore k a 88 ((exactOf w).sqAdd (lowF32 x)).word s) s
  | 9 => memOp a 88 (fun k w s => corbelStore k a 88 ((exactOf w).linAdd (lowF32 x)).word s) s
  | _ => s

/-! ## Shard descriptors and group records (Tables 9-5, 9-6) -/

def sdW (d : Nat) : Nat := field d 511 464
def sdM (d : Nat) : Nat := field d 463 416
def sdV (d : Nat) : Nat := field d 415 368
def sdRb (d : Nat) : Nat := field d 367 320
def sdCopy (d : Nat) : Nat := field d 319 272
def sdStamp (d : Nat) : Nat := field d 271 224
def sdFp (d : Nat) : Nat := field d 223 176
def sdN (d : Nat) : Nat := field d 175 144
def sdRowlen (d : Nat) : Nat := field d 143 124
def sdGroup (d : Nat) : Nat := field d 123 108
def sdGrad (d : Nat) : Nat := field d 107 92
def sdCopyTid (d : Nat) : Nat := field d 91 76
def sdOpt (d : Nat) : Nat := field d 75 72
def sdCopyFmt (d : Nat) : Nat := field d 71 68
def sdCopyCmp (d : Nat) : Bool := flag d 67
def sdCap (d : Nat) : Nat := 2 ^ field d 66 62
def sdCopySch (d : Nat) : Nat := field d 61 60
def sdCopyRow (d : Nat) : Nat := field d 59 40

/-- Weight blocks of a shard (R239). -/
def sdBlocks (d : Nat) : Nat := ceilDiv (sdN d) 1024
/-- Elements of weight block `b`. -/
def blockLen (d b : Nat) : Nat := min 1024 (sdN d - 1024 * b)

def grLr (g : Nat) : FVal := f32 (field g 511 480)
def grB1 (g : Nat) : FVal := f32 (field g 479 448)
def grC1 (g : Nat) : FVal := f32 (field g 447 416)
def grB2 (g : Nat) : FVal := f32 (field g 415 384)
def grC2 (g : Nat) : FVal := f32 (field g 383 352)
def grEps (g : Nat) : FVal := f32 (field g 351 320)
def grEps2 (g : Nat) : FVal := f32 (field g 319 288)
def grWd (g : Nat) : FVal := f32 (field g 287 256)
def grMu (g : Nat) : FVal := f32 (field g 255 224)
def grGmul (g : Nat) : FVal := f32 (field g 223 192)
def grWarn (g : Nat) : Nat := field g 191 160
def grFreeze (g : Nat) : Nat := field g 159 128
def grUpdates (g : Nat) : Nat := field g 127 96
def grFrozen (g : Nat) : Bool := flag g 95
def grFirstMom (g : Nat) : Bool := flag g 94

/-- Key of a shard: stack × 2048 + index. -/
def shardKey (k i : Nat) : Nat := k * 2048 + i

/-- The loaded shard `i` of stack `k`. -/
def shardOf (s : State) (k i : Nat) : Option Shard := sget none s.cbl.shards (shardKey k i)

/-- Replace a shard's record. -/
def setShard (k i : Nat) (sh : Shard) (s : State) : State :=
  { s with cbl := { s.cbl with shards := sput none s.cbl.shards (shardKey k i) (some sh) } }

/-- Every loaded shard: stack, index and record. -/
def allShards (s : State) : List (Nat × Nat × Shard) :=
  s.cbl.shards.filterMap (fun e => e.2.map (fun sh => (e.1 / 2048, e.1 % 2048, sh)))

/-- Change every copy of a group's record. -/
def modGroup (g : Nat) (f : GroupRec → GroupRec) (s : State) : State :=
  { s with cbl := { s.cbl with groups := s.cbl.groups.map (fun e =>
      if e.1 % 1024 = g then (e.1, e.2.map f) else e) } }

/-- Record the first event since CBL_EVENT was last read (Table 9-15). -/
def cblEvent (k ev shard group : Nat) (s : State) : State :=
  let a := cblBase + 0x4000 + 0x4000 * k + 4
  if flag (getReg s a) 31 then s
  else setReg s a (2 ^ 31 + ev % 16 * 2 ^ 27 + shard % 2 ^ 11 * 2 ^ 16 + group % 2 ^ 10)

/-- A stack and shard as an event names them (Table 15-6). -/
def shardDetail (k i : Nat) : Nat := k * 2 ^ 28 + i

/-- Mark a shard torn (R268): counted, and the host is told. -/
def markTorn (k i : Nat) (s : State) : State :=
  match shardOf s k i with
  | none => bump s (cCbl k 0x170)
  | some sh =>
    let s := setShard k i { sh with torn := true } (bump s (cCbl k 0x170))
    cblEvent k 1 i (sdGroup sh.desc) (postEvent 0x0004 (shardDetail k i) (6 * 4096 + k) s)

/-- Mark a shard invalid (R269). -/
def markInvalid (k i : Nat) (s : State) : State :=
  match shardOf s k i with
  | none => s
  | some sh =>
    let s := setShard k i { sh with invalid := true } (bump s (cCbl k 0x158))
    cblEvent k 2 i (sdGroup sh.desc) (postEvent 0x0005 (shardDetail k i) (6 * 4096 + k) s)

/-! ## Grid exponents (R246) -/

/-- The row of a shard's gradient tensor an element lies in, where the tensor has a grid per row. -/
def gradRow (d e : Nat) : Nat :=
  let r := if sdRowlen d = 0 then sdCopyRow d else sdRowlen d
  if r = 0 then 0 else e / r

/-- The grid exponent in force for an element: that of the power of two its grid record's scale reads (R246). -/
def gridOf (s : State) (d e : Nat) : Int :=
  let t := tensorOf s (sdGrad d)
  let w := if t.perRow then sget t.scale t.rowScale (gradRow d e) else t.scale
  (field w 30 23 : Int) - 127

/-- The grid exponent of one scale group, and its source code (R246). `g0` is CBL_POLICY.G_INIT. -/
def gridExponent (t : Tensor) (hist : List (Nat × Bool)) (g0 : Int) : Int × Nat :=
  let clamp (g : Int) : Int := min (max g (-126)) 80
  if t.hostLock then (clamp (f32 t.hostScale).lead, 2)
  else match hist.take (t.depth + 1) with
    | [] => (clamp g0, 1)
    | es =>
      let h := es.foldl (fun a e => fmax a (f32 e.1)) .zero
      if h.isZero then (clamp g0, 0)
      else
        let p := mul32 h (f32 t.margin)
        (if p.isInf then 80 else if p.isZero then -126 else clamp (p.lead - 46), 0)

/-- CBL_POLICY.G_INIT. -/
def gInit (s : State) : Int := signed 8 (field (getReg s cblBase) 29 22)

/-- The binary32 word of 2^G. -/
def pow2Word (g : Int) : Nat := to32 (.pow2 g)

/-- Fix a grid record's exponents at step begin: SCALE reads 2^G, SRC its source (R246, R554). With a grid per row, each
row has its own exponent by its own history; the record's one SCALE is that of a row without history and its one SRC is
row 0's (log 79). -/
def fixGrid (tid : Nat) (s : State) : State :=
  let t := tensorOf s tid
  if t.perRow then
    setTensor s tid { t with
      scale := pow2Word (gridExponent t [] (gInit s)).1, src := (gridExponent t (sget [] t.rowHist 0) (gInit s)).2
      rowScale := t.rowHist.map (fun e => (e.1, pow2Word (gridExponent t e.2 (gInit s)).1)) }
  else
    let (g, src) := gridExponent t t.hist (gInit s)
    setTensor s tid { t with scale := pow2Word g, src := src, rowScale := [] }

/-! ## Contributions (R242 to R249, R260) -/

/-- The address of reduction block `b`'s header. -/
def rbHeader (d b : Nat) : Nat := sdRb d + 8192 * sdBlocks d + 8 * b

/-- A header as it reads in the current generation (R243): NF, POISON and COUNT. -/
structure RbHead where
  fresh  : Bool
  nf     : Bool
  poison : Bool
  count  : Nat
  deriving DecidableEq, Repr

/-- Read a Table 9-2 header; one whose line is poisoned stands for a POISON block (log 75). -/
def readHead (s : State) (a : Nat) : RbHead :=
  let w := loadLe s a 8
  if linePoison s (a / 64 * 64) then { fresh := true, nf := false, poison := true, count := 0 }
  else if flag w 63 = genOf s then { fresh := true, nf := flag w 62, poison := flag w 61, count := field w 16 0 }
  else { fresh := false, nf := false, poison := false, count := 0 }

/-- The word of a header in the current generation. -/
def headWord (s : State) (h : RbHead) : Nat :=
  bit (genOf s) * 2 ^ 63 + bit h.nf * 2 ^ 62 + bit h.poison * 2 ^ 61 + h.count

/-- What a contribution decodes to. -/
inductive Decode where
  | drop
  | values (vs : List FVal) (badRows : Nat)
  deriving DecidableEq, Repr

/-- Elements of one row piece. -/
def pieceValues (f : Fmt) (scheme : Nat) (p : RowPiece) : List FVal :=
  (List.range p.count.toNat).map (fun i =>
    decodeElem f scheme p.scale.toNat (p.e8m0.getD (i / 32) 0).toNat (p.metas.getD (i / 32) 0).toNat (f.elemAt p.data i))

/-- A row scale of a scheme that takes one is invalid (R52). -/
def badScale (scheme w : Nat) : Bool := rowScaled scheme && !posNormal w

/-- Decode consecutive exponent-coded blocks of 128 elements (R160). -/
def codedBlocks (f : Fmt) (ts : List CodeTable) : Nat → Nat → List Byte → List BlockOut
  | 0, _, _ => []
  | fuel + 1, n, bs =>
    if n = 0 then []
    else
      let o := decodeBlock f ts (min 128 n) bs
      o :: codedBlocks f ts fuel (n - min 128 n) (bs.drop o.size)

/-- The held codebook of a family and version whose CRC has the given low bits (R165). -/
def findBook (s : State) (fam ver chk : Nat) : Option Book :=
  s.cbl.books.find? (fun b => decide (b.family = fam) && decide (b.version = ver) && decide (b.crc % 2 ^ 32 = chk))

/-- Decode a VQ segment (R162 to R165): `none` when it is dropped. -/
def vqSegment (s : State) (hdr : Nat) (payload : List Byte) : Option (List FVal) :=
  let stages := field hdr 207 206
  let (w1, w2) := (flag hdr 205, flag hdr 204)
  let nrows := field hdr 159 128
  let rowlen := field hdr 127 96
  let v := ceilDiv rowlen 8
  let l1 := vqRecordLen w1 v
  let l2 := if stages = 2 then vqRecordLen w2 v else 0
  let one := findBook s (field hdr 203 200) (field hdr 239 224) (field hdr 63 32)
  let two := findBook s (field hdr 199 196) (field hdr 223 208) (field hdr 31 0)
  if stages = 0 ∨ stages = 3 ∨ field hdr 95 64 ≠ nrows * (l1 + l2) then none
  else match one with
    | none => none
    | some b1 =>
      if b1.wide ≠ w1 ∨ (stages = 2 ∧ !(two.any (fun b => b.wide = w2))) then none
      else
        some ((List.range nrows).flatMap (fun r =>
          let r1 := slice payload (r * l1) l1
          let second := two.bind (fun b2 =>
            if stages = 2 then some (slice payload (nrows * l1 + r * l2) l2, w2, b2.vectors) else none)
          vqDecodeRow rowlen r1 w1 b1.vectors second))

/-- Decode a contribution to `n` elements (R244, R160, R165). -/
def decodeContribution (s : State) (n : Nat) (c : Contribution) : Decode :=
  match c with
  | .plain fmt scheme ps =>
    match fmtOfCode fmt.toNat with
    | none => .drop
    | some f =>
      let vs := ps.flatMap (pieceValues f scheme.toNat)
      if vs.length ≠ n then .drop
      else .values vs ((ps.filter (fun p => badScale scheme.toNat p.scale.toNat)).length)
  | .coded fmt scheme scale e8m0 tables count data =>
    match fmtOfCode fmt.toNat with
    | none => .drop
    | some f =>
      let ts := tables.map readTable
      let bl := codedBlocks f ts (count.toNat + 1) count.toNat data
      if bl.any (fun b => b.outcome ≠ .exact) then .drop
      else
        let vs := (List.zip (List.range bl.length) bl).flatMap (fun b =>
          (List.zip (List.range b.2.elems.length) b.2.elems).map (fun e =>
            decodeElem f scheme.toNat scale.toNat (e8m0.getD (4 * b.1 + e.1 / 32) 0).toNat
              (b.2.metas.getD (e.1 / 32) 0) e.2))
        if vs.length ≠ n then .drop else .values vs (bit (badScale scheme.toNat scale.toNat))
  | .vq header payload skip count =>
    match vqSegment s header.toNat payload with
    | none => .drop
    | some vs =>
      let part := (vs.drop skip.toNat).take count.toNat
      if part.length ≠ n then .drop else .values part 0
  | .rows _ _ _ => .drop

/-- One element on the grid (R244): its integer and whether it clipped. -/
def gridInt (g : Int) (v : FVal) : Int × Bool :=
  match v with
  | .fin n m e =>
    let (q, k) := roundQuot .rne 100000 0 m 1 (e - g)
    let q : Int := (q * 2 ^ k.toNat : Nat)
    let lim : Int := 2 ^ 47 - 1
    let c := min q lim
    (if n then -c else c, decide (lim < q))
  | _ => (0, false)

/-- Key of a scale group's contribution amax: the tensor, and its row plus 1 where each row is a group. -/
def contribKey (s : State) (d e : Nat) : Nat :=
  sdGrad d * 2 ^ 17 + (if (tensorOf s (sdGrad d)).perRow then gradRow d e + 1 else 0)

/-- A contribution amax takes the largest finite magnitude of some values. -/
def measureKey (key : Nat) (vs : List FVal) (s : State) : State :=
  let old := sget 0 s.cbl.contrib key
  { s with cbl := { s.cbl with contrib := sput 0 s.cbl.contrib key (to32 (fmax (f32 old) (f32 (amaxWord vs)))) } }

/-- Measure contribution elements before rounding (R247). -/
def measureContrib (d e0 : Nat) (vs : List FVal) (s : State) : State :=
  if (tensorOf s (sdGrad d)).perRow then
    (List.zip (List.range vs.length) vs).foldl (fun s p => measureKey (contribKey s d (e0 + p.1)) [p.2] s) s
  else measureKey (contribKey s d e0) vs s

/-- Add finite values to accumulators from an address; old accumulators read zero unless `fresh`. -/
def addAccs (k : Nat) (d e0 addr : Nat) (fresh : Bool) (vs : List FVal) (s : State) : State :=
  let bs := if fresh then bytesAt s addr (8 * vs.length) else []
  let rs := (List.zip (List.range vs.length) vs).map (fun p =>
    let (q, clip) := gridInt (gridOf s d (e0 + p.1)) p.2
    (leBytes 8 (unsigned 64 (signed 64 (leAt bs (8 * p.1) 8) + q)), clip))
  writeTo (.corbel k) 8 addr (rs.flatMap Prod.fst) (bumpN s (cCbl k 0x108) (rs.filter Prod.snd).length)

/-- Enter one contribution's values in a block or sparse slot whose header and accumulators are given (R243 to
R249). -/
def enterValues (k shard : Nat) (d e0 head accs : Nat) (vs : List FVal) (s : State) : State :=
  let (_, s) := touch (.corbel k) 8 head 8 s
  let h := readHead s head
  if h.poison then bump s (cCbl k 0x158)
  else
    let (bad, s) := if h.fresh then touch (.corbel k) 8 accs (8 * vs.length) s else (false, s)
    if bad then corbelStore k head 8 (headWord s { h with poison := true }) (bump s (cCbl k 0x158))
    else if 65536 ≤ h.count then cblEvent k 3 shard (sdGroup d) (bump s (cCbl k 0x128))
    else if vs.any (fun v => !v.isFin) then
      let s := if h.fresh then s else writeTo (.corbel k) 8 accs (List.replicate (8 * vs.length) 0) s
      corbelStore k head 8 (headWord s { h with nf := true }) (bump s (cCbl k 0x110))
    else
      let s := addAccs k d e0 accs h.fresh vs s
      let s := measureContrib d e0 vs s
      corbelStore k head 8 (headWord s { h with count := h.count + 1 }) (bump s (cCbl k 0x100))

/-- Bytes of a slot of a sparse table (R260). -/
def sparseSlot (d : Nat) : Nat := 16 + 8 * sdRowlen d

/-- Address of slot `i` of a sparse table. -/
def slotAddr (d i : Nat) : Nat := sdRb d + sparseSlot d * i

/-- The header of slot `i`; a slot whose key is not readable stands for a POISON block (log 75). -/
def slotHead (s : State) (d i : Nat) : RbHead :=
  if linePoison s (slotAddr d i / 64 * 64) then { fresh := true, nf := false, poison := true, count := 0 }
  else readHead s (slotAddr d i + 8)

/-- A slot is empty: its key is 0 or its generation is old. -/
def slotEmpty (s : State) (d i : Nat) : Bool :=
  let h := slotHead s d i
  !h.poison && (decide (loadLe s (slotAddr d i) 8 = 0) || !h.fresh)

/-- Keys present in a sparse table. -/
def sparseKeys (s : State) (d : Nat) : Nat := ((List.range (sdCap d)).filter (fun i => !slotEmpty s d i)).length

/-- Probe for a row from slot `i`: its slot, or the first empty one (R260). -/
def sparseProbe (s : State) (d row : Nat) : Nat → Nat → Option Nat
  | 0, _ => none
  | f + 1, i =>
    if slotEmpty s d i || decide (loadLe s (slotAddr d i) 8 = row + 1) then some i
    else sparseProbe s d row f ((i + 1) % sdCap d)

/-- Enter one row of a sparse contribution. -/
def sparseRow (k i : Nat) (sh : Shard) (row : Nat) (vs : List FVal) (s : State) : State :=
  let d := sh.desc
  match sparseProbe s d row (sdCap d) (row * 0x9E3779B1 % 2 ^ 32 % sdCap d) with
  | none => s
  | some j =>
    if slotEmpty s d j then
      if 7 * sdCap d / 8 ≤ sparseKeys s d then
        let s := match shardOf s k i with
          | some x => setShard k i { x with sparseFull := true } s
          | none => s
        cblEvent k 4 i (sdGroup d) (bump s (cCbl k 0x178))
      else
        let s := corbelStore k (slotAddr d j) 8 (row + 1) s
        enterValues k i d (row * sdRowlen d) (slotAddr d j + 8) (slotAddr d j + 16) vs s
    else enterValues k i d (row * sdRowlen d) (slotAddr d j + 8) (slotAddr d j + 16) vs s

/-- A contribution is dropped by a decode check (R244, R248). -/
def dropContrib (k i d : Nat) (s : State) : State := cblEvent k 3 i (sdGroup d) (bump s (cCbl k 0x118))

/-- Rows for a sparse table: a row that is outside the shard or not whole is dropped (R260). -/
def sparseRows (k i : Nat) (sh : Shard) (fmt scheme : Nat) (rs : List (W32 × RowPiece)) (s : State) : State :=
  let d := sh.desc
  rs.foldl (fun s r =>
    match fmtOfCode fmt with
    | some f =>
      if (r.1.toNat + 1) * sdRowlen d ≤ sdN d ∧ r.2.count.toNat = sdRowlen d then
        sparseRow k i sh r.1.toNat (pieceValues f scheme r.2) (bumpN s (cCbl k 0x148) (bit (badScale scheme r.2.scale.toNat)))
      else dropContrib k i d s
    | none => dropContrib k i d s) s

/-- The part of one member's contribution within one reduction block enters it (R244, Table 9-1 code 0x0). For a sparse
table, elements of a weight block enter the rows they make up (R260, log 74). -/
def gridAdd (k i b : Nat) (gen : Bool) (c : Contribution) (s : State) : State :=
  match shardOf s k i with
  | none => s
  | some sh =>
    let d := sh.desc
    if gen ≠ genOf s then bump s (cCbl k 0x120)
    else match c with
    | .rows fmt scheme rs =>
      if sdOpt d = 8 then sparseRows k i sh fmt.toNat scheme.toNat rs s else dropContrib k i d s
    | _ =>
      if sdBlocks d ≤ b then s
      else match decodeContribution s (blockLen d b) c with
        | .drop => dropContrib k i d s
        | .values vs bad =>
          let s := bumpN s (cCbl k 0x148) bad
          if sdOpt d = 8 then
            (List.range (ceilDiv vs.length (sdRowlen d))).foldl (fun s r =>
              let v := (vs.drop (r * sdRowlen d)).take (sdRowlen d)
              if v.length = sdRowlen d then sparseRow k i sh (1024 * b / sdRowlen d + r) v s else dropContrib k i d s) s
          else enterValues k i d (1024 * b) (rbHeader d b) (sdRb d + 8192 * b) vs s

/-- GRID_ADD (R244): charged to class 8. -/
def execGridAdd (stack : BitVec 3) (shard : BitVec 11) (block : W32) (gen : Bool) (contrib : Contribution) (s : State) :
    Host.Outcome State Fault Refusal :=
  .next (gridAdd stack.toNat shard.toNat block.toNat gen contrib s)

/-! ## Gradients and the norm (R250, R251) -/

/-- The accumulators that consecutive gradients of a weight block come from: the first element, how many, and the
addresses of the header and of the accumulators; none for a row absent from a sparse table. -/
structure GradPart where
  elem : Nat
  len  : Nat
  src  : Option (Nat × Nat)
  deriving DecidableEq, Repr

/-- The slot of a row present in a sparse table. -/
def sparseFind (s : State) (d row : Nat) : Option Nat :=
  match sparseProbe s d row (sdCap d) (row * 0x9E3779B1 % 2 ^ 32 % sdCap d) with
  | some j => if slotEmpty s d j then none else some j
  | none => none

/-- The parts of a weight block: its reduction block, or its rows of a sparse table. -/
def gradParts (s : State) (d b : Nat) : List GradPart :=
  if sdOpt d = 8 then
    let per := if sdRowlen d = 0 then 0 else ceilDiv (blockLen d b) (sdRowlen d)
    (List.range per).map (fun r =>
      { elem := 1024 * b + r * sdRowlen d, len := min (sdRowlen d) (blockLen d b - r * sdRowlen d)
        src := (sparseFind s d (1024 * b / sdRowlen d + r)).map (fun j => (slotAddr d j + 8, slotAddr d j + 16)) })
  else [{ elem := 1024 * b, len := blockLen d b, src := some (rbHeader d b, sdRb d + 8192 * b) }]

/-- The conversion of an accumulator to binary32 (R250). -/
def accConv (s : State) (d e : Nat) (acc : Int) : Conv :=
  Fmt.fp32.convert false .rne (.fin (decide (acc < 0)) acc.natAbs (gridOf s d e)) 1 0

/-- The accumulators of a part with the elements they are of; none where its COUNT is 0. -/
def partAccs (s : State) (p : GradPart) : List (Nat × Int) :=
  match p.src with
  | none => []
  | some (head, accs) =>
    if (readHead s head).count = 0 then []
    else
      let bs := viewBytes s .lintel accs (8 * p.len)
      (List.range p.len).map (fun i => (p.elem + i, signed 64 (leAt bs (8 * i) 8)))

/-- Gradients of a part, before clipping (R250). -/
def partGrads (s : State) (d : Nat) (p : GradPart) : List (Option FVal) :=
  match p.src with
  | none => List.replicate p.len none
  | some (head, _) =>
    let n := (readHead s head).count
    if n = 0 then List.replicate p.len (some .zero)
    else
      let f := div32 (grGmul (groupRaw s (sdGroup d))) (rnd32 (.ofNat n))
      (partAccs s p).map (fun a => some (mul32 (f32 (accConv s d a.1 a.2).code) f))

/-- Gradients of the elements of a weight block; an absent sparse row gives `none` for its elements. -/
def elemGrads (s : State) (d b : Nat) : List (Option FVal) := (gradParts s d b).flatMap (partGrads s d)

/-- Read a part's accumulators; where a line is not readable its block becomes a POISON block (R249). -/
def readAccs (k cls : Nat) (p : GradPart) (s : State) : State :=
  match p.src with
  | none => s
  | some (head, accs) =>
    let h := readHead s head
    if h.poison || decide (h.count = 0) then s
    else
      let (bad, s) := touch (.corbel k) cls accs (8 * p.len) s
      if bad then corbelStore k head 8 (headWord s { h with poison := true }) (bump s (cCbl k 0x158)) else s

/-- The reduction of a block is complete: its gradients enter the norm once per step (R251). -/
def reduceBlock (k i b : Nat) (s : State) : State :=
  match shardOf s k i with
  | none => s
  | some sh =>
    if sget false sh.reduced b || decide (sdBlocks sh.desc ≤ b) then s
    else
      let s := (gradParts s sh.desc b).foldl (fun s p => readAccs k 8 p s) s
      let norm := (elemGrads s sh.desc b).foldl (fun a g => match g with
        | some v => a.sqAdd v
        | none => a) s.cbl.norm
      setShard k i { sh with reduced := sput false sh.reduced b true } { s with cbl := { s.cbl with norm := norm } }

/-- Every reduction block of every loaded shard is reduced. -/
def allReduced (s : State) : Bool :=
  (allShards s).all (fun p => (List.range (sdBlocks p.2.2.desc)).all (fun b => sget false p.2.2.reduced b))

/-- A shard has an NF block; for a sparse table, a slot. -/
def shardNf (s : State) (sh : Shard) : Bool :=
  if sdOpt sh.desc = 8 then (List.range (sdCap sh.desc)).any (fun i => (slotHead s sh.desc i).nf)
  else (List.range (sdBlocks sh.desc)).any (fun b => (readHead s (rbHeader sh.desc b)).nf)

/-- A shard has a POISON block or a full sparse table: what the exclude policy still skips on. -/
def shardHard (s : State) (sh : Shard) : Bool :=
  sh.sparseFull ||
  (if sdOpt sh.desc = 8 then (List.range (sdCap sh.desc)).any (fun i => (slotHead s sh.desc i).poison)
   else (List.range (sdBlocks sh.desc)).any (fun b => (readHead s (rbHeader sh.desc b)).poison))

/-- Input F of R252 over the module's shards. -/
def checkF (s : State) : Bool := (allShards s).any (fun p => shardNf s p.2.2 || shardHard s p.2.2)

/-! ## Fingerprints (R270, R271) -/

/-- Recompute the fingerprint of 1 MiB block `m` of a shard from its weights as stored. -/
def printBlock (k d m : Nat) (s : State) : State :=
  let n := min 262144 (sdN d - 262144 * m)
  corbelStore k (sdFp d + 8 * m) 8 (crc64 (bytesAt s (sdW d + 1048576 * m) (4 * n))) s

/-- 1 MiB blocks of a shard. -/
def sdPrints (d : Nat) : Nat := ceilDiv (sdN d) 262144

/-- A shard's fingerprint: the CRC-64 over its table. -/
def shardPrint (s : State) (d : Nat) : Nat := crc64 (bytesAt s (sdFp d) (8 * sdPrints d))

end Sys2Proof.Machine
end

