-- ==== Sys2Proof/Machine/Update.lean ====
section
/-!
DEFINITION. The update unit: the update menu, the compute copy, the keystone journal, resumption, and the corbel
commands (chapter 9, R253 to R272).
-/
namespace Sys2Proof.Machine

/-- A small collective starts: its first attempt goes to the member of index 0 (R362). -/
def startSmall (h : Nat) (data : List Byte) (s : State) : State :=
  emit (.collective (0xFFF0 + h) data) { s with fab := { s.fab with
    attempt := sput 0 s.fab.attempt h 0, since := sput 0 s.fab.since h (nsOf s) } }

/-! ## Bias corrections and the group check table (R253) -/

/-- rn32(1 − B^t), the exact real value rounded; no value is stated for a non-finite B (log 1). -/
def biasCorrection (b : FVal) (t : Nat) : FVal :=
  match b with
  | .fin n m e => rnd32 (fadd .one (.fin (!(n && decide (t % 2 = 1))) (m ^ t) (e * t)))
  | v => f32 (Config.updateFn 0 (BitVec.ofNat 32 (to32 v)) (BitVec.ofNat 32 t)).toNat

/-- A group's entry of the check table: BC1, BC2, TR, RM. -/
def tableOf (s : State) (g : Nat) : Nat × Nat × Nat × Nat := sget (0, 0, 0, 0) s.cbl.table g

/-- Write a group's entry, and its image in every firmware region (R290). -/
def setTable (g : Nat) (e : Nat × Nat × Nat × Nat) (s : State) : State :=
  let s := { s with cbl := { s.cbl with table := sput (0, 0, 0, 0) s.cbl.table g e } }
  let bs := leBytes 4 e.1 ++ leBytes 4 e.2.1 ++ leBytes 4 e.2.2.1 ++ leBytes 4 e.2.2.2
  (List.range 8).foldl (fun s k => fwWrite k (0x8000 + 16 * g) bs s) s

/-- Groups that some stack holds a record of. -/
def loadedGroups (s : State) : List Nat :=
  ((s.cbl.groups.filter (fun e => e.2.isSome)).map (fun e => e.1 % 1024)).eraseDups

/-- At an update decision every group's corrections are written, with TR and RM +0 (R253). -/
def writeTables (s : State) : State :=
  (loadedGroups s).foldl (fun s g =>
    let r := groupRaw s g
    let t := grUpdates r + 1
    setTable g (to32 (biasCorrection (grB1 r) t), to32 (biasCorrection (grB2 r) t), 0, 0) s) s

/-! ## The step record in memory (R290) -/

/-- The 64-byte image of a step record (Table 10-6). -/
def stepRecordImage (r : StepRec) : List Byte :=
  let w := r.step % 2 ^ 64 * 2 ^ 448 + r.seq % 2 ^ 32 * 2 ^ 416 + r.state % 16 * 2 ^ 412 + bit r.gen * 2 ^ 411
    + bit r.staged * 2 ^ 410 + r.outcome % 16 * 2 ^ 406 + r.salt % 2 ^ 32 * 2 ^ 368 + r.outer % 2 ^ 32 * 2 ^ 336
    + r.c % 2 ^ 32 * 2 ^ 304 + r.tBegin % 2 ^ 64 * 2 ^ 240 + r.tEnd % 2 ^ 64 * 2 ^ 176 + r.decision % 16 * 2 ^ 172
  leBytes 64 (w + crc64 (leBytes 56 (w / 2 ^ 64)))

/-- Write the step record: the control complex's copy and one image per firmware region. -/
def writeRecord (r : StepRec) (s : State) : State :=
  let s := { s with stp := { s.stp with rc := r } }
  (List.range 8).foldl (fun s k => fwWrite k 0x1000 (stepRecordImage r) s) s

/-- Read a record image; `none` when its CRC fails. -/
def readRecord (bs : List Byte) : Option StepRec :=
  let w := leNat bs
  if w % 2 ^ 64 ≠ crc64 (leBytes 56 (w / 2 ^ 64)) then none
  else some { step := field w 511 448, seq := field w 447 416, state := field w 415 412, gen := flag w 411
              staged := flag w 410, outcome := field w 409 406, salt := field w 399 368, outer := field w 367 336
              c := field w 335 304, tBegin := field w 303 240, tEnd := field w 239 176, decision := field w 175 172 }

/-! ## The update menu (R256 to R260) -/

/-- sgn (R256). -/
def sgn (x : FVal) : FVal :=
  match x with
  | .nan n => .nan n
  | v => if v.isZero then .zero else FVal.one.setNeg v.neg

/-- What an element's update reads beside w, m, v and g. -/
structure UpdateEnv where
  raw : Nat
  bc1 : FVal
  bc2 : FVal
  tr  : FVal
  rm  : FVal
  deriving DecidableEq, Repr

/-- Adam moments and quotient (R257). -/
def adamStep (u : UpdateEnv) (m v g : FVal) : FVal × FVal × FVal :=
  let r := u.raw
  let m := add32 (mul32 (grB1 r) m) (mul32 (grC1 r) g)
  let v := add32 (mul32 (grB2 r) v) (mul32 (grC2 r) (mul32 g g))
  (m, v, div32 (div32 m u.bc1) (add32 (sqrt32 (div32 v u.bc2)) (grEps r)))

/-- One element's update: new w, m and v (R257 to R259). `rc` is the product r[i] × c[j] of Adafactor. -/
def updateElem (opt : Nat) (u : UpdateEnv) (w m v g rc : FVal) : FVal × FVal × FVal :=
  let r := u.raw
  let lr := grLr r
  let decay := mul32 (grWd r) w
  match opt with
  | 1 =>
    let gd := add32 g decay
    let m := add32 (mul32 (grMu r) m) gd
    (sub32 w (mul32 lr m), m, v)
  | 2 =>
    let gd := add32 g decay
    let m := add32 (mul32 (grMu r) m) gd
    (sub32 w (mul32 lr (add32 gd (mul32 (grMu r) m))), m, v)
  | 4 =>
    let (m, v, q) := adamStep u m v g
    (sub32 w (mul32 lr (add32 q decay)), m, v)
  | 5 =>
    let q := div32 g (add32 (sqrt32 (div32 rc u.rm)) (grEps r))
    if grFirstMom r then
      let m := add32 (mul32 (grB1 r) m) (mul32 (grC1 r) q)
      (sub32 w (mul32 lr (add32 m decay)), m, v)
    else (sub32 w (mul32 lr (add32 q decay)), m, v)
  | 6 =>
    let (m, v, q) := adamStep u m v g
    (sub32 w (mul32 (mul32 lr u.tr) (add32 q decay)), m, v)
  | 7 =>
    let k := add32 (mul32 (grB1 r) m) (mul32 (grC1 r) g)
    (sub32 w (mul32 lr (add32 (sgn k) decay)), add32 (mul32 (grB2 r) m) (mul32 (grC2 r) g), v)
  | _ =>
    let (m, v, q) := adamStep u m v g
    (sub32 w (mul32 lr q), m, v)

/-- An optimiser's entry of the menu needs a first moment; Adafactor's as its group says. -/
def needsM (opt raw : Nat) : Bool := if opt = 5 then grFirstMom raw else true
/-- It needs a second-moment address. -/
def needsV (opt : Nat) : Bool := [3, 4, 5, 6, 8].contains opt
/-- It stores a second moment per element, which the journal saves. -/
def elemV (opt : Nat) : Bool := [3, 4, 6, 8].contains opt

/-! ## Adafactor's factor copies (R259) -/

/-- Round up to 4 KiB. -/
def up4k (n : Nat) : Nat := ceilDiv n 4096 * 4096

/-- Rows of an Adafactor shard. -/
def adaRows (d : Nat) : Nat := if sdRowlen d = 0 then 0 else sdN d / sdRowlen d

/-- Address of row factor copy `c` and column factor copy `c`. -/
def rowCopy (d c : Nat) : Nat := sdV d + c * up4k (4 * adaRows d)
def colCopy (d c : Nat) : Nat := sdV d + 2 * up4k (4 * adaRows d) + c * up4k (4 * sdRowlen d)

/-- Binary32 words from memory. -/
def f32At (s : State) (a : Nat) : FVal := f32 (loadLe s a 4)

/-- The environment a shard's group is updated with. -/
def updateEnv (s : State) (g : Nat) : UpdateEnv :=
  let t := tableOf s g
  { raw := groupRaw s g, bc1 := f32 t.1, bc2 := f32 t.2.1, tr := f32 t.2.2.1, rm := f32 t.2.2.2 }

/-- The clip factor applied to gradients: 1 unless the decision is clipped (R253). -/
def clipGrad (s : State) (g : FVal) : FVal := if s.stp.rc.decision = 2 then mul32 g (f32 s.stp.rc.c) else g

/-- New w, m and v words of a weight block, from old words of w, m and v (R257 to R260). Absent sparse rows keep
theirs. -/
def blockUpdate (s : State) (d b : Nat) (ms vs : Nat → Nat) : List (Nat × Nat × Nat) :=
  let u := updateEnv s (sdGroup d)
  let t := grUpdates u.raw + 1
  (List.zip (List.range (blockLen d b)) (elemGrads s d b)).map (fun p =>
    let e := 1024 * b + p.1
    let w := loadLe s (sdW d + 4 * e) 4
    match p.2 with
    | none => (w, ms p.1, vs p.1)
    | some g =>
      let rc := if sdOpt d = 5 then
          mul32 (f32At s (rowCopy d (t % 2) + 4 * (e / sdRowlen d))) (f32At s (colCopy d (t % 2) + 4 * (e % sdRowlen d)))
        else .zero
      let (w', m', v') := updateElem (sdOpt d) u (f32 w) (f32 (ms p.1)) (f32 (vs p.1)) (clipGrad s g) rc
      (to32 w', to32 m', to32 v'))

/-! ## The compute copy (R262) -/

/-- Parts of a compute copy: addresses of the E8M0 bytes, metadata and elements. -/
def copyParts (d : Nat) : Nat × Nat × Nat :=
  let rl := sdCopyRow d
  let rows := if rl = 0 then 0 else sdN d / rl
  let n := rows * ceilDiv rl 32
  let f := (fmtOfCode (sdCopyFmt d)).getD .fp32
  let up (a : Nat) : Nat := ceilDiv a 64 * 64
  let x := sdCopy d
  let md := up (if sdCopySch d = 3 then x + n else x)
  let el := up (if !sdCopyCmp d && f.narrow then md + n else md)
  (x, md, el)

/-- The copy as a tensor descriptor. -/
def copyDesc (d : Nat) : TensorDesc :=
  let (x, md, el) := copyParts d
  let f := (fmtOfCode (sdCopyFmt d)).getD .fp32
  { base := el, rows := if sdCopyRow d = 0 then 0 else sdN d / sdCopyRow d, rowlen := sdCopyRow d, fmt := sdCopyFmt d
    scheme := sdCopySch d, comp := false, seed := false, tid := sdCopyTid d, metaAt := md, scaleAt := x
    stride := f.rowBytes (sdCopyRow d) }

/-- Count conversions on the stack and in the copy's statistics record. -/
def tallyCopy (k d : Nat) (y : Tally) (s : State) : State :=
  statTensor (sdCopyTid d) (y.sat + y.ovf) y.nf y.crush
    (bumpN (bumpN s (cCbl k 0x138) (y.sat + y.ovf)) (cCbl k 0x140) y.nf)

/-- Write the uncompressed copy of the scale blocks that a weight block's elements lie in; each is counted with the weight
block of its last element (log 67). -/
def writeCopyBlock (k d b : Nat) (s : State) : State :=
  let rl := sdCopyRow d
  let td := copyDesc d
  let lo := 1024 * b
  let hi := lo + blockLen d b - 1
  (List.range (hi / rl - lo / rl + 1)).foldl (fun s j =>
    let row := lo / rl + j
    let c0 := (if j = 0 then lo % rl else 0) / 32
    let c1 := (if row = hi / rl then hi % rl else rl - 1) / 32
    (List.range (c1 + 1 - c0)).foldl (fun s i =>
      let col := 32 * (c0 + i)
      let n := min 32 (rl - col)
      let vals := (List.range n).map (fun x => f32At s (sdW d + 4 * (row * rl + col + x)))
      let (_, y, s) := writeRowValues (.corbel k) 9 td false row col vals [] s
      if row * rl + col + n ≤ hi + 1 then tallyCopy k d y s else s) s) s

/-- Add each exponent field of written codes to the shard's histogram (R262). -/
def addHisto (key : Nat) (f : Fmt) (codes : List Nat) (s : State) : State :=
  codes.foldl (fun s c =>
    let e := c / 2 ^ f.sigBits % 2 ^ f.expBits
    let h := sput 0 s.cbl.histo (key * 256 + e) (satAdd 32 (sget 0 s.cbl.histo (key * 256 + e)) 1)
    { s with cbl := { s.cbl with histo := h } }) s

/-- Write a shard's exponent-coded copy whole, with the code tables it was installed with; each scale block is counted
with the weight block of its last element (R154, R262, log 67). -/
def writeCopyCoded (k i d b : Nat) (s : State) : State :=
  let td := copyDesc d
  let f := (fmtOfCode (sdCopyFmt d)).getD .bf16
  let h := readCompHeader (bytesAt s td.base 64)
  let tabs := (List.range h.ntab).map (fun j => bytesAt s (td.base + 64 + 544 * j) 544)
  let sw := rowScaleOf s (.corbel k) td
  let blocks (row : Nat) : List BlockConv :=
    (runsOf 32 td.rowlen (List.range td.rowlen)).map (fun cols =>
      convertBlock f td.scheme (sw row) false [] (cols.map (fun c => f32At s (sdW d + 4 * (row * td.rowlen + c)))))
  let rows := (List.range td.rows).map blocks
  let image := encodeTensor f td.rowlen tabs (rows.map (fun bl => (bl.flatMap BlockConv.codes, bl.map BlockConv.md)))
  let s := writeTo (.corbel k) 9 td.base image s
  let s := if td.scheme = 3 then
      writeTo (.corbel k) 9 td.scaleAt ((rows.flatten).map (fun b => BitVec.ofNat 8 b.e8m0)) s else s
  let lo := 1024 * b
  let mine := (List.zip (List.range rows.length) rows).flatMap (fun r =>
    ((List.zip (List.range r.2.length) r.2).filter (fun p =>
      let last := r.1 * td.rowlen + min (32 * p.1 + 31) (td.rowlen - 1)
      decide (lo ≤ last) && decide (last < lo + blockLen d b))).map Prod.snd)
  let y := mine.foldl (fun (t : Tally) p => t.add p.tally) Tally.zero
  addHisto (shardKey k i) f (mine.flatMap BlockConv.codes) (tallyCopy k d y s)

/-- Measure the values entering the copy's conversion (R262). -/
def measureCopy (d : Nat) (ws : List Nat) (s : State) : State :=
  let old := sget 0 s.cbl.copyAmax (sdCopyTid d)
  let v := to32 (fmax (f32 old) (f32 (amaxWord (ws.map f32))))
  { s with cbl := { s.cbl with copyAmax := sput 0 s.cbl.copyAmax (sdCopyTid d) v } }

/-- The weight block's part of the copy. -/
def writeCopy (k i d b : Nat) (s : State) : State :=
  if sdCopy d = 0 ∨ sdCopyRow d = 0 then s
  else
    let s := measureCopy d ((List.range (blockLen d b)).map (fun e => loadLe s (sdW d + 4 * (1024 * b + e)) 4)) s
    if sdCopyCmp d then writeCopyCoded k i d b s else writeCopyBlock k d b s

/-! ## The keystone journal (R264 to R269) -/

/-- Address of a journal slot (R266). -/
def journalAddr (k u j : Nat) : Nat := fwAddr k (0x00100000 + u * 0x00020000 + j * 0x4000)

/-- The header of a journal entry without its CRC (Table 9-8). -/
def journalHead (kind addr step oldM oldW shard : Nat) : Nat :=
  kind % 256 * 2 ^ 504 + addr % 2 ^ 48 * 2 ^ 448 + step % 2 ^ 64 * 2 ^ 384 + oldM % 2 ^ 32 * 2 ^ 352
    + oldW % 2 ^ 32 * 2 ^ 320 + shard % 2 ^ 11 * 2 ^ 309

/-- The CRC of an entry: area 1, area 2, then header bytes 32 to 63 (R266). -/
def journalCrc (a1 a2 : List Byte) (head : Nat) : Nat := crc64 (a1 ++ a2 ++ leBytes 32 (head / 2 ^ 256))

/-- Write a corbel unit's own memory, in class 9. -/
def unitStore (k a : Nat) (bs : List Byte) (s : State) : State := writeTo (.corbel k) 9 a bs s

/-- Write one entry in one write group. -/
def writeEntry (k u j head : Nat) (a1 a2 : List Byte) (s : State) : State :=
  let at' := journalAddr k u j
  let a1 := slice a1 0 4096
  let a2 := slice a2 0 4096
  unitStore k at' (leBytes 64 (head + journalCrc a1 a2 head * 2 ^ 192))
    (unitStore k (at' + 0x2000) a2 (unitStore k (at' + 0x1000) a1 s))

/-- Retire an entry: KIND := 0x00. -/
def retireEntry (k u j : Nat) (s : State) : State := unitStore k (journalAddr k u j + 63) [0] s

/-- A live entry's header as stored, if its KIND is 0x01 or 0x02. -/
def liveEntry (s : State) (k u j : Nat) : Option Nat :=
  let w := loadLe s (journalAddr k u j) 64
  if field w 511 504 = 1 ∨ field w 511 504 = 2 then some w else none

/-- A live entry is sound: no poisoned line, and its CRC passes. -/
def entrySound (s : State) (k u j w : Nat) : Bool :=
  let a := journalAddr k u j
  !((linesOf a 0x3000).any (linePoison s))
    && decide (field w 255 192 = journalCrc (bytesAt s (a + 0x1000) 4096) (bytesAt s (a + 0x2000) 4096) w)

/-- Free journal slots of a unit. -/
def freeSlots (s : State) (k u : Nat) : List Nat := (List.range 8).filter (fun j => (liveEntry s k u j).isNone)

/-- Live entries of a stack. -/
def liveCount (s : State) (k : Nat) : Nat :=
  ((List.range 16).map (fun u => 8 - (freeSlots s k u).length)).foldl (· + ·) 0

/-- Address of a block's record (R265). -/
def recordAddr (d b : Nat) : Nat := sdStamp d + 8 * b
def mstamp (s : State) (d b : Nat) : Nat := loadLe s (recordAddr d b + 4) 4
def wstamp (s : State) (d b : Nat) : Nat := loadLe s (recordAddr d b) 4

/-- Binary32 words as bytes. -/
def wordBytes (ws : List Nat) : List Byte := ws.flatMap (leBytes 4)

/-- The saved moments of a flight's entry. -/
def savedM (s : State) (k u j i : Nat) : Nat := loadLe s (journalAddr k u j + 0x1000 + 4 * i) 4
def savedV (s : State) (k u j i : Nat) : Nat := loadLe s (journalAddr k u j + 0x2000 + 4 * i) 4

/-- Elements of a block whose accumulator saturates as it is converted (R64, R250). -/
def gradSat (s : State) (d b : Nat) : Nat :=
  ((gradParts s d b).map (fun p => ((partAccs s p).filter (fun a => (accConv s d a.1 a.2).sat)).length)).foldl (· + ·) 0

/-- A block is updated with COUNT 0 (R250); for a sparse table, one of its present rows. -/
def zeroCount (s : State) (d b : Nat) : Bool :=
  (gradParts s d b).any (fun p => p.src.any (fun h => decide ((readHead s h.1).count = 0)))

/-- Count what forming a block's gradients meets: COUNT 0, and saturations (R250). -/
def countGrads (k d b : Nat) (s : State) : State :=
  bumpN (bumpN s (cCbl k 0x130) (bit (zeroCount s d b))) (cCbl k 0x138) (gradSat s d b)

/-- Write group M: the new moments and MSTAMP := n (R264 step 2). -/
def groupM (k i d b u j : Nat) (s : State) : State :=
  match shardOf s k i with
  | none => s
  | some _ =>
    let out := blockUpdate s d b (savedM s k u j) (savedV s k u j)
    let s := countGrads k d b s
    let s := if sdM d ≠ 0 then unitStore k (sdM d + 4096 * b) (wordBytes (out.map (fun o => o.2.1))) s else s
    let s := if elemV (sdOpt d) then unitStore k (sdV d + 4096 * b) (wordBytes (out.map (fun o => o.2.2))) s else s
    unitStore k (recordAddr d b + 4) (leBytes 4 s.stp.rc.step) s

/-- Add an update's change to the watched ratio (R263). -/
def watchRatio (g : Nat) (old new : List Nat) (s : State) : State :=
  let (dd, ww) := sget (Exact.zero, Exact.zero) s.cbl.ratio g
  let dd := (List.zip old new).foldl (fun a p => a.sqAdd (sub32 (f32 p.2) (f32 p.1))) dd
  let ww := old.foldl (fun a w => a.sqAdd (f32 w)) ww
  { s with cbl := { s.cbl with ratio := sput (Exact.zero, Exact.zero) s.cbl.ratio g (dd, ww) } }

/-- Write group W: the new weights, the copy's bytes and WSTAMP := n (R264 step 3). The fingerprint of the block's
1 MiB follows the weights (R270). -/
def groupW (k i d b u j : Nat) (s : State) : State :=
  let old := (List.range (blockLen d b)).map (fun e => loadLe s (sdW d + 4 * (1024 * b + e)) 4)
  let new := (blockUpdate s d b (savedM s k u j) (savedV s k u j)).map Prod.fst
  let s := unitStore k (sdW d + 4096 * b) (wordBytes new) s
  let s := writeCopy k i d b s
  let s := unitStore k (recordAddr d b) (leBytes 4 s.stp.rc.step) s
  printBlock k d (b / 256) (watchRatio (sdGroup d) old new s)

/-- Read what the update of a block reads: its weights, its moments unless they are in its journal entry, Adafactor's
factors, and the accumulators of its gradients (R249, R269). Answers whether all of it could be read. -/
def readBlock (k d b : Nat) (moments : Bool) (s : State) : Bool × State :=
  let n := 4 * blockLen d b
  let look (use : Bool) (a len : Nat) (r : Bool × State) : Bool × State :=
    if use then
      let (bad, s) := touch (.corbel k) 9 a len r.2
      (r.1 && !bad, s)
    else r
  let t := (grUpdates (groupRaw s (sdGroup d)) + 1) % 2
  let row := 1024 * b / sdRowlen d
  let rows := (1024 * b + blockLen d b - 1) / sdRowlen d + 1 - row
  let r := look true (sdW d + 4096 * b) n (true, s)
  let r := look (moments && decide (sdM d ≠ 0)) (sdM d + 4096 * b) n r
  let r := look (moments && elemV (sdOpt d)) (sdV d + 4096 * b) n r
  let r := look (sdOpt d = 5 && !moments) (rowCopy d t + 4 * row) (4 * rows) r
  let r := look (sdOpt d = 5 && !moments) (colCopy d t) (4 * sdRowlen d) r
  let s := (gradParts r.2 d b).foldl (fun s p => readAccs k 9 p s) r.2
  (r.1 && !(gradParts s d b).any (fun p => p.src.any (fun h => (readHead s h.1).poison)), s)

/-- Mark a block done in this update. -/
def markUpdated (k i b : Nat) (s : State) : State :=
  match shardOf s k i with
  | some sh => setShard k i { sh with updated := sput false sh.updated b true } s
  | none => s

/-- A block this update must write: its group is not frozen, and a sparse block holds a present row (R256, R260). -/
def blockDue (s : State) (d b : Nat) : Bool :=
  !grFrozen (groupRaw s (sdGroup d)) && (decide (sdOpt d ≠ 8) || (elemGrads s d b).any Option.isSome)

/-- The group's exact sums, which sweep B needs, are formed (R258, R259). -/
def sumsReady (s : State) (d : Nat) : Bool :=
  if sdOpt d = 5 ∨ sdOpt d = 6 then sget false s.cbl.sums (sdGroup d) else true

/-- The journal's step 1 for a block: the old moments and stamps, in a free slot (R264). -/
def journalBlock (k i : Nat) (d b j : Nat) (s : State) : State :=
  let u := b % 16
  let n := 4 * blockLen d b
  let a1 := if sdM d ≠ 0 then bytesAt s (sdM d + 4096 * b) n else []
  let a2 := if elemV (sdOpt d) then bytesAt s (sdV d + 4096 * b) n else []
  writeEntry k u j (journalHead 1 (sdW d + 4096 * b) s.stp.rc.step (mstamp s d b) (wstamp s d b) i) a1 a2 s

/-- Blocks of the shard's own corbel unit below `b` have started. -/
def lowerStarted (s : State) (k i : Nat) (sh : Shard) (b : Nat) : Bool :=
  b < 16 || sget false sh.updated (b - 16)
    || s.cbl.flight.any (fun f => decide (f.stack = k) && decide (f.shard = i) && decide (f.block = b - 16))

/-- A block is left as it is in this update: its weights still enter its group's W (R263). -/
def leaveBlock (k i d b : Nat) (s : State) : State :=
  let ws := (List.range (blockLen d b)).map (fun e => viewLe s .lintel (sdW d + 4 * (1024 * b + e)) 4)
  markUpdated k i b (watchRatio (sdGroup d) ws ws s)

/-- Journal a block in a free slot of its unit: step 1 of its update, now in flight (R264). -/
def startFlight (k i d b : Nat) (s : State) : State :=
  let u := b % 16
  let slots := freeSlots s k u
  if slots.isEmpty then s
  else
    let (x, s) := free32 s
    let j := slots.getD (x % slots.length) 0
    let s := journalBlock k i d b j s
    { s with cbl := { s.cbl with flight := s.cbl.flight ++
        [{ stack := k, unit := u, slot := j, shard := i, block := b, phase := 1 }] } }

/-- WEIGHT_BLOCK_START (R264, R269): the corbel unit journals its next block; a block that reads poison is left
wholly unchanged and its shard marked invalid. -/
def execWeightBlockStart (stack : BitVec 3) (shard : BitVec 11) (block : W32) (s : State) :
    Host.Outcome State Fault Refusal :=
  .next (
    let (k, i, b) := (stack.toNat, shard.toNat, block.toNat)
    match shardOf s k i with
    | none => s
    | some sh =>
      let d := sh.desc
      let u := b % 16
      let flying := (s.cbl.flight.filter (fun f => decide (f.stack = k) && decide (f.unit = u))).length
      if !s.stp.updRun || decide (s.stp.rc.state ≠ 3) || decide (sdBlocks d ≤ b) || sget false sh.updated b
          || s.cbl.flight.any (fun f => decide (f.stack = k) && decide (f.shard = i) && decide (f.block = b))
          || decide (8 ≤ flying) || !sumsReady s d || !lowerStarted s k i sh b || (stackOf s k).stopped then s
      else if sh.torn then markUpdated k i b s
      else if !blockDue s d b then leaveBlock k i d b s
      else
        let r := readBlock k d b true s
        if r.1 then startFlight k i d b r.2 else leaveBlock k i d b (markInvalid k i r.2))

/-- Put a block's old moments and MSTAMP back from its journal entry (R269, Table 9-9). -/
def restoreMoments (k d b u j : Nat) (s : State) : State :=
  let n := 4 * blockLen d b
  let a1 := bytesAt s (journalAddr k u j + 0x1000) n
  let a2 := bytesAt s (journalAddr k u j + 0x2000) n
  let old := field (loadLe s (journalAddr k u j) 64) 383 352
  let s := if sdM d ≠ 0 then unitStore k (sdM d + 4096 * b) a1 s else s
  let s := if elemV (sdOpt d) then unitStore k (sdV d + 4096 * b) a2 s else s
  unitStore k (recordAddr d b + 4) (leBytes 4 old) s

/-- WRITE_GROUP_COMPLETE (R264): the step of a block in flight has completed in the stack and the next begins; an
aborted update stops here with its entry live (R267). A block whose inputs cannot be read any more is left as it was, its
entry retired and its shard invalid (R269). -/
def execWriteGroupComplete (stack : BitVec 3) (shard : BitVec 11) (block : W32) (s : State) :
    Host.Outcome State Fault Refusal :=
  .next (
    let (k, i, b) := (stack.toNat, shard.toNat, block.toNat)
    match s.cbl.flight.find? (fun f => decide (f.stack = k) && decide (f.shard = i) && decide (f.block = b)), shardOf s k i with
    | some f, some sh =>
      let d := sh.desc
      let set (p : Nat) (s : State) : State :=
        { s with cbl := { s.cbl with flight := s.cbl.flight.map (fun x => if x = f then { x with phase := p } else x) } }
      let rest (s : State) : State := { s with cbl := { s.cbl with flight := s.cbl.flight.filter (· ≠ f) } }
      let leave (s : State) : State := rest (leaveBlock k i d b (markInvalid k i (retireEntry k f.unit f.slot s)))
      if s.stp.rc.state ≠ 3 then rest s
      else if f.phase = 3 then rest (markUpdated k i b (bump (retireEntry k f.unit f.slot s) (cCbl k 0x160)))
      else
        let r := readBlock k d b false s
        if f.phase = 1 then (if r.1 then set 2 (groupM k i d b f.unit f.slot r.2) else leave r.2)
        else if r.1 then set 3 (groupW k i d b f.unit f.slot r.2)
        else leave (restoreMoments k d b f.unit f.slot r.2)
    | _, _ => s)

/-- Every block of every loaded shard has been updated or left, and none is in flight. -/
def updateFinished (s : State) : Bool :=
  s.cbl.flight.isEmpty && (allShards s).all (fun p =>
    grFrozen (groupRaw s (sdGroup p.2.2.desc))
      || (List.range (sdBlocks p.2.2.desc)).all (fun b => sget false p.2.2.updated b))

/-! ## Group sums (R258, R259) -/

/-- The module's shards of a group. -/
def groupShards (s : State) (g : Nat) : List (Nat × Nat × Shard) :=
  (allShards s).filter (fun p => decide (sdGroup p.2.2.desc = g))

/-- The entry of the update menu that a group's shards name. -/
def groupOpt (s : State) (g : Nat) : Nat := match groupShards s g with
  | p :: _ => sdOpt p.2.2.desc
  | [] => 0

/-- The sums of LAMB's sweep A over one block (R258). -/
def lambBlock (s : State) (d b : Nat) (acc : Exact × Exact) : Exact × Exact :=
  let u := updateEnv s (sdGroup d)
  (List.zip (List.range (blockLen d b)) (elemGrads s d b)).foldl (fun acc p =>
    let e := 1024 * b + p.1
    let w := f32At s (sdW d + 4 * e)
    let (_, _, q) := adamStep u (f32At s (sdM d + 4 * e)) (f32At s (sdV d + 4 * e)) (clipGrad s (p.2.getD .zero))
    (acc.1.sqAdd (add32 q (mul32 (grWd u.raw) w)), acc.2.sqAdd w)) acc

/-- Read every block of a group's shards for a sweep A; a torn shard's blocks and those that read poison take no part,
and the latter leave their shard invalid (R268, R269, log 75). -/
def sweepA {α : Type} (g : Nat) (f : State → Nat → Nat → α → α) (a : α) (s : State) : α × State :=
  (groupShards s g).foldl (fun r p =>
    let d := p.2.2.desc
    (List.range (sdBlocks d)).foldl (fun (r : α × State) b =>
      if p.2.2.torn || sget false p.2.2.updated b then r
      else
        let x := readBlock p.1 d b true r.2
        if x.1 then (f x.2 d b r.1, x.2) else (r.1, leaveBlock p.1 p.2.1 d b (markInvalid p.1 p.2.1 x.2))) r) (a, s)

/-- A LAMB group's trust ratio from the combined sums. -/
def trustRatio (u2 w2 : Exact) : FVal :=
  if u2.val = 0 ∨ w2.val = 0 then .one else div32 w2.readSqrt u2.readSqrt

/-- Column sums Kc of an Adafactor group, by column. -/
abbrev ColSums := Sparse Exact

/-- The sums of Adafactor's sweep A over the columns of one block. -/
def adaBlock (s : State) (d b : Nat) (kc : ColSums) : ColSums :=
  (List.zip (List.range (blockLen d b)) (elemGrads s d b)).foldl (fun kc p =>
    smod Exact.zero kc ((1024 * b + p.1) % sdRowlen d) (fun a => a.sqAdd (clipGrad s (p.2.getD .zero)))) kc

/-- An exact accumulator as it travels in a collective. -/
def exactBytes (a : Exact) : List Byte := leBytes 88 a.word

/-- Sweep A of a LAMB or Adafactor group begins: the module's own sums are formed, and go into the group's all-reduce
over handle 0xFFF2 (R258, R259). -/
def startSums (g : Nat) (s : State) : State :=
  if grFrozen (groupRaw s g) || sget false s.cbl.sums g then s
  else if groupOpt s g = 6 then
    let (a, s) := sweepA g lambBlock (Exact.zero, Exact.zero) s
    startSmall 2 (leBytes 2 g ++ exactBytes a.1 ++ exactBytes a.2)
      { s with cbl := { s.cbl with lamb := sput (Exact.zero, Exact.zero) s.cbl.lamb g a } }
  else if groupOpt s g = 5 then
    let (kc, s) := sweepA g adaBlock ([] : ColSums) s
    let cols := (groupShards s g).foldl (fun a p => max a (sdRowlen p.2.2.desc)) 0
    let s := { s with cbl := { s.cbl with
      adaCol := (List.range cols).foldl (fun m c => sput Exact.zero m (g * 2 ^ 20 + c) (sget Exact.zero kc c)) s.cbl.adaCol } }
    startSmall 2 (leBytes 2 g ++ (List.range cols).flatMap (fun c => exactBytes (sget Exact.zero kc c))) s
  else s

/-- One factor: B2 × old + C2 × (sum / n + EPS2). -/
def adaFactor (raw : Nat) (old : FVal) (sum : Exact) (n : Nat) : FVal :=
  add32 (mul32 (grB2 raw) old) (mul32 (grC2 raw) (add32 (div32 sum.read (rnd32 (.ofNat n))) (grEps2 raw)))

/-- Rows of an Adafactor group: this module's and the other modules'. -/
def adaGroupRows (s : State) (g : Nat) (others : Nat) : Nat :=
  ((groupShards s g).map (fun p => adaRows p.2.2.desc)).foldl (· + ·) others

/-- Clipped gradients of one row of an Adafactor shard, each column's block by block. -/
def rowSum (s : State) (d r : Nat) (blocks : Sparse (List (Option FVal))) : Exact :=
  (List.range (sdRowlen d)).foldl (fun (x : Exact) c =>
    let e := r * sdRowlen d + c
    x.sqAdd (clipGrad s (((sget [] blocks (e / 1024)).getD (e % 1024) none).getD .zero))) Exact.zero

/-- The factors of an Adafactor shard, written in copy t mod 2; answers the row factors added to `rs`. -/
def adaFactors (p : Nat × Nat × Shard) (kc : ColSums) (rows : Nat) (a : Exact × State) : Exact × State :=
  let d := p.2.2.desc
  let s := a.2
  let raw := groupRaw s (sdGroup d)
  let t := grUpdates raw + 1
  let blocks : Sparse (List (Option FVal)) := (List.range (sdBlocks d)).map (fun b => (b, elemGrads s d b))
  let rf := (List.range (adaRows d)).map (fun r =>
    adaFactor raw (f32At s (rowCopy d ((t - 1) % 2) + 4 * r)) (rowSum s d r blocks) (sdRowlen d))
  let cf := (List.range (sdRowlen d)).map (fun c =>
    adaFactor raw (f32At s (colCopy d ((t - 1) % 2) + 4 * c)) (sget Exact.zero kc c) rows)
  (rf.foldl (fun (x : Exact) f => x.linAdd f) a.1,
    unitStore p.1 (colCopy d (t % 2)) (wordBytes (cf.map to32)) (unitStore p.1 (rowCopy d (t % 2)) (wordBytes (rf.map to32)) s))

/-- Kc has been combined: the factors are formed, and the sum of the row factors goes into its own all-reduce (R259). -/
def adaForm (g : Nat) (sums : GroupSums) (s : State) : State :=
  let cols := (groupShards s g).foldl (fun a p => max a (sdRowlen p.2.2.desc)) 0
  let kc : ColSums := (List.range cols).foldl (fun m c => sput Exact.zero m c
    ((sget Exact.zero s.cbl.adaCol (g * 2 ^ 20 + c)).add ((sums.kc.map ofExactWord).getD c Exact.zero))) []
  let (rs, s) := (groupShards s g).foldl (fun a p => adaFactors p kc (adaGroupRows s g sums.rows.toNat) a) (Exact.zero, s)
  startSmall 2 (leBytes 2 g ++ exactBytes rs) { s with cbl := { s.cbl with adaRow := sput none s.cbl.adaRow g (some rs) } }

/-- A group's trust ratio or mean is recorded, and sweep B may begin (R253). -/
def sumsFormed (g : Nat) (tr rm : FVal) (s : State) : State :=
  let tb := tableOf s g
  setTable g (tb.1, tb.2.1, to32 tr, to32 rm) { s with cbl := { s.cbl with sums := sput false s.cbl.sums g true } }

/-- A group's all-reduce is complete, with the other modules' sums: the trust ratio of a LAMB group; the factors of an
Adafactor group, and at its second all-reduce the mean (R258, R259, log 80). -/
def takeSums (g : Nat) (sums : GroupSums) (s : State) : State :=
  if groupOpt s g = 6 then
    let own := sget (Exact.zero, Exact.zero) s.cbl.lamb g
    sumsFormed g (trustRatio (own.1.add (ofExactWord sums.u2)) (own.2.add (ofExactWord sums.w2))) .zero s
  else if groupOpt s g = 5 then
    match sget none s.cbl.adaRow g with
    | none => adaForm g sums s
    | some rs => sumsFormed g .zero (div32 (rs.add (ofExactWord sums.rs)).read (rnd32 (.ofNat (adaGroupRows s g sums.rows.toNat)))) s
  else s

/-! ## Re-base (R38) -/

/-- The outer-step state of a shard. -/
def outerOf (s : State) (k i : Nat) : OuterShard := sget OuterShard.init s.cbl.outer (shardKey k i)
def setOuter (k i : Nat) (o : OuterShard) (s : State) : State :=
  { s with cbl := { s.cbl with outer := sput OuterShard.init s.cbl.outer (shardKey k i) o } }

/-- New weight words of a block under a re-base: base_new + (w − wb). -/
def rebaseWords (s : State) (d b : Nat) (new wb : List Nat) (ws : Nat → Nat) : List Nat :=
  let _ := s
  (List.range (blockLen d b)).map (fun e =>
    let i := 1024 * b + e
    to32 (add32 (f32 (new.getD i 0)) (sub32 (f32 (ws e)) (f32 (wb.getD i 0)))))

/-- Re-base one block under a KIND 0x02 entry: journal, weights and copy, retire. Stamps do not change. -/
def rebaseBlock (k i : Nat) (d b : Nat) (new wb : List Nat) (s : State) : State :=
  let u := b % 16
  let n := 4 * blockLen d b
  let slots := freeSlots s k u
  let (x, s) := free32 s
  let j := slots.getD (x % slots.length) 0
  let old := bytesAt s (sdW d + 4096 * b) n
  let s := writeEntry k u j (journalHead 2 (sdW d + 4096 * b) s.stp.rc.step (mstamp s d b) (wstamp s d b) i) old [] s
  let s := unitStore k (sdW d + 4096 * b) (wordBytes (rebaseWords s d b new wb (fun e => leAt old (4 * e) 4))) s
  printBlock k d (b / 256) (retireEntry k u j (writeCopy k i d b s))

/-- Re-base a whole shard to its staged base (R38). -/
def rebaseShard (k i : Nat) (s : State) : State :=
  match shardOf s k i, (outerOf s k i).staged with
  | some sh, some (new, v) =>
    let o := outerOf s k i
    let s := (List.range (sdBlocks sh.desc)).foldl (fun s b => rebaseBlock k i sh.desc b new o.wb s) s
    setOuter k i { o with base := new, staged := none, version := v } s
  | _, _ => s

/-- Delta formation of a shard (R35). -/
def formDelta (k i : Nat) (s : State) : State :=
  match shardOf s k i with
  | none => s
  | some sh =>
    let o := outerOf s k i
    let ws := (List.range (sdN sh.desc)).map (fun e => loadLe s (sdW sh.desc + 4 * e) 4)
    let ds := (List.zip (List.range ws.length) ws).map (fun p =>
      to32 (add32 (sub32 (f32 p.2) (f32 (o.base.getD p.1 0))) (f32 (o.efr.getD p.1 0))))
    setOuter k i { o with stage := ds, wb := ws } s

/-! ## CORBEL_LOAD (R254, R255, R265) -/

/-- A range lies in stack-local regions of a stack (R24); the firmware area is none of them. -/
def inStack (s : State) (k a n : Nat) : Bool :=
  (pagesOf a n).all (fun p => match classify p with
    | .treim r => decide (r < 504) && decide (regionMode s r = 2) && decide (regionStack s r = k)
    | _ => false)

/-- The stack of the region that holds an address. -/
def stackAt (s : State) (a : Nat) : Option Nat :=
  match classify a with
  | .treim r => if r < 504 ∧ regionMode s r = 2 then some (regionStack s r) else none
  | _ => none

/-- A loaded program's descriptors of scheme 1 or 2 name a tensor (R554). -/
def programNames (s : State) (tid : Nat) : Bool :=
  (List.range 96).any (fun t =>
    match (tileOf s t).prog with
    | none => false
    | some p => (List.range p.ntasks).any (fun i => (taskDescs (taskOf s t i)).any (fun td =>
        let d := descOf s t td
        decide (d.tid = tid) && (decide (d.scheme = 1) || decide (d.scheme = 2)))))

/-- Bytes of a compute copy from COPY_ADDR: an exponent-coded one with every block at the size at which it is stored
raw, which no coding exceeds (R146, R154, R262). -/
def copyLen (s : State) (d : Nat) : Nat :=
  let rl := sdCopyRow d
  let rows := if rl = 0 then 0 else sdN d / rl
  let f := (fmtOfCode (sdCopyFmt d)).getD .fp32
  let el := (copyParts d).2.2
  let raw (n : Nat) : Nat := 16 + 8 * ceilDiv (n * f.width) 64
  el - sdCopy d + (if sdCopyCmp d then
      64 + 544 * (readCompHeader (bytesAt s el 64)).ntab + ceilDiv (4 * rows * ceilDiv rl 4096) 8 * 8
        + rows * (rl / 128 * raw 128 + (if rl % 128 = 0 then 0 else raw (rl % 128)))
    else rows * f.rowBytes rl)

/-- A shard descriptor passes the checks of R254 on stack `k`, with its group's record `raw`. -/
def shardOk (s : State) (k d raw : Nat) : Bool :=
  let n := sdN d
  let f := (fmtOfCode (sdCopyFmt d)).getD .fp32
  let opt := sdOpt d
  let rl := sdCopyRow d
  let rbLen := if opt = 8 then sdCap d * sparseSlot d else 8200 * sdBlocks d
  decide (n ≠ 0) && decide (1 ≤ opt ∧ opt ≤ 8) && inStack s k (sdW d) (4 * n)
    && decide (sdW d % 4096 = 0) && decide (sdM d % 4096 = 0) && decide (sdV d % 4096 = 0) && decide (sdRb d % 8192 = 0)
    && (decide (sdM d ≠ 0) == needsM opt raw) && (decide (sdV d ≠ 0) == needsV opt)
    && (decide (sdM d = 0) || inStack s k (sdM d) (4 * n))
    && (decide (sdV d = 0) || inStack s k (sdV d) (if opt = 5 then 2 * up4k (4 * adaRows d) + up4k (4 * sdRowlen d) + 4 * sdRowlen d else 4 * n))
    && inStack s k (sdRb d) rbLen && inStack s k (sdStamp d) (8 * sdBlocks d) && inStack s k (sdFp d) (8 * sdPrints d)
    && (decide (opt ≠ 5) || (decide (2 ≤ sdRowlen d) && decide (n % sdRowlen d = 0)))
    && (decide (opt ≠ 8) || (decide (sdRowlen d ≠ 0) && decide (1024 % sdRowlen d = 0)
        && decide (10 ≤ field d 66 62 ∧ field d 66 62 ≤ 24)))
    && (!sdCopyCmp d || decide (1 ≤ sdCopyFmt d ∧ sdCopyFmt d ≤ 4))
    && decide (sdCopyFmt d ≤ 9) && schemeOk f (sdCopySch d)
    && (decide (sdCopy d = 0) ||
        (decide (rl ≠ 0) && decide (n % rl = 0) && inStack s k (sdCopy d) (copyLen s d) && !(tensorOf s (sdCopyTid d)).perRow))
    && !programNames s (sdGrad d)

/-- The layout of a CORBEL_LOAD block: group numbers, records and descriptors, each with its byte offset. -/
def loadGroups (pb : List Byte) : List (Nat × Nat × Nat) :=
  let ng := leAt pb 2 2
  let base := 64 + ceilDiv (2 * ng) 64 * 64
  (List.range ng).map (fun i => (leAt pb (64 + 2 * i) 2, base + 64 * i, leAt pb (base + 64 * i) 64))

def loadShards (pb : List Byte) : List (Nat × Nat) :=
  let ng := leAt pb 2 2
  let base := 64 + ceilDiv (2 * ng) 64 * 64 + 64 * ng
  (List.range (leAt pb 4 4)).map (fun i => (base + 64 * i, leAt pb (base + 64 * i) 64))

/-- Stamp every block of a shard as the step before the next and compute its fingerprints (R265). -/
def initShard (k d : Nat) (s : State) : State :=
  let n := (s.stp.rc.step + 2 ^ 64 - 1) % 2 ^ 32
  let s := (List.range (sdBlocks d)).foldl (fun s b => corbelStore k (recordAddr d b) 8 (n * 2 ^ 32 + n) s) s
  (List.range (sdPrints d)).foldl (fun s m => printBlock k d m s) s

/-- The first group record or descriptor that fails: its byte offset. -/
def corbelLoadFail (s : State) (mask : Nat) (gs : List (Nat × Nat × Nat)) (ds : List (Nat × Nat)) : Option Nat :=
  let badGroup := gs.find? (fun g => decide (1024 ≤ g.1) ||
    (List.range 8).any (fun k => !mask.testBit k && (groupOn s k g.1).any (fun r => decide (r.raw ≠ g.2.2))))
  match badGroup with
  | some g => some g.2.1
  | none =>
    (List.zip (List.range ds.length) ds).findSome? (fun p =>
      let d := p.2.2
      let raw := (gs.find? (fun g => g.1 = sdGroup d)).map (fun g => g.2.2)
      match stackAt s (sdW d), raw with
      | some k, some r =>
        let before := ((ds.take p.1).filter (fun q => stackAt s (sdW q.2) = some k)).length
        if mask.testBit k && decide (before < 2048) && shardOk s k d r then none else some p.2.1
      | _, _ => some p.2.1)

/-- The stacks of the mask emptied of descriptors and group records, and given the group records of the load. What the
outer step keeps for a shard is no part of its descriptor and stays (R169, R170). -/
def corbelClear (mask : Nat) (gs : List (Nat × Nat × Nat)) (s : State) : State :=
  let c := s.cbl
  let c := { c with
    shards := sfilter c.shards (fun key => !mask.testBit (key / 2048))
    groups := sfilter c.groups (fun key => !mask.testBit (key / 1024)) }
  { s with cbl := (maskBits 8 mask).foldl (fun (c : Corbel) k => { c with
      groups := gs.foldl (fun m g => sput none m (k * 1024 + g.1)
        (some { raw := g.2.2, next := none, unfreeze := false })) c.groups }) c }

/-- One descriptor put in place: the shard takes the next index of its stack, its copy's format is declared, and with
INIT = 1 its records and fingerprints are written (R265). -/
def shardInstall (init : Nat) (d : Nat) (s : State) : State :=
  let k := (stackAt s (sdW d)).getD 0
  let i := ((allShards s).filter (fun q => q.1 = k)).length
  let s := setShard k i { desc := d, torn := false, invalid := false, eccMark := false, sparseFull := false
                          reduced := [], updated := [] } s
  let s := if sdCopy d ≠ 0 ∧ (sdCopySch d = 1 ∨ sdCopySch d = 2) then
      setTensor s (sdCopyTid d) { tensorOf s (sdCopyTid d) with fmt := sdCopyFmt d + 1 } else s
  if init = 1 then initShard k d s else s

/-- CORBEL_LOAD: all or nothing over the stack mask. Table 9-11 rejects it while resumption is pending, and R267 has the
descriptors loaded before resumption after a module reset: a load with INIT = 0 is let through then. DEDUCED (log 47),
unsafe. -/
def kCorbelLoad (h : CmdHdr) (s : State) : KRes :=
  let mask := leAt h.pb 0 1
  let init := leAt h.pb 1 1
  if stepActive s then kFail stActive 0 s
  else if 1 < init then kFail stParameter 1 s
  else if init = 1 ∧ resumePending s then kFail stResumePending 0 s
  else match corbelLoadFail s mask (loadGroups h.pb) (loadShards h.pb) with
    | some off => kFail stParameter off s
    | none => kOk 0 ((loadShards h.pb).foldl (fun s p => shardInstall init p.2 s) (corbelClear mask (loadGroups h.pb) s))

/-- A record with the RO fields of another (Table 9-6). -/
def keepRo (old new : Nat) : Nat := putField (putField new 127 96 (grUpdates old)) 95 95 (bit (grFrozen old))

/-- CORBEL_GROUP_SET (R255): the RW fields change in every copy at the next step begin. -/
def kCorbelGroupSet (h : CmdHdr) (s : State) : KRes :=
  let gs := loadGroups h.pb
  if leAt h.pb 0 1 ≠ 0 then kFail stParameter 0 s
  else if leAt h.pb 1 1 ≠ 0 then kFail stParameter 1 s
  else if leAt h.pb 4 4 ≠ 0 then kFail stParameter 4 s
  else match gs.find? (fun g => (groupOf s (g.1 % 1024)).isNone || decide (1024 ≤ g.1)) with
    | some g => kFail stParameter g.2.1 s
    | none => kOk 0 (gs.foldl (fun s g => modGroup g.1 (fun r => { r with next := some g.2.2 }) s) s)

/-- CORBEL_UNFREEZE (R263): FROZEN clears at the next step begin. -/
def kCorbelUnfreeze (h : CmdHdr) (s : State) : KRes :=
  let gs := (List.range (leAt h.pb 0 4)).map (fun i => leAt h.pb (64 + 2 * i) 2)
  match (List.zip (List.range gs.length) gs).find? (fun g => decide (1024 ≤ g.2) || (groupOf s g.2).isNone) with
  | some g => kFail stParameter (64 + 2 * g.1) s
  | none => kOk 0 (gs.foldl (fun s g => modGroup g (fun r => { r with unfreeze := true }) s) s)

/-- At step begin, group records take the fields set for them and groups are unfrozen. -/
def groupsAtBegin (s : State) : State :=
  { s with cbl := { s.cbl with groups := s.cbl.groups.map (fun e => (e.1, e.2.map (fun r =>
      let raw := match r.next with
        | some n => keepRo r.raw n
        | none => r.raw
      { raw := if r.unfreeze then putField raw 95 95 0 else raw, next := none, unfreeze := false }))) } }

/-! ## Resumption (R267, R268, R292) -/

/-- Every journal slot: stack, unit, slot. -/
def journalSlots : List (Nat × Nat × Nat) :=
  (List.range 8).flatMap (fun k => (List.range 16).flatMap (fun u => (List.range 8).map (fun j => (k, u, j))))

/-- The shard of stack `k` that holds a weight-block address, with the block. -/
def shardHolding (s : State) (k a : Nat) : Option (Nat × Nat × Nat) :=
  (allShards s).findSome? (fun p =>
    let d := p.2.2.desc
    if p.1 = k ∧ sdW d ≤ a ∧ a < sdW d + 4 * sdN d ∧ (a - sdW d) % 4096 = 0 then some (p.2.1, d, (a - sdW d) / 4096) else none)

/-- A sound entry that names no loaded block, or the wrong shard (R267). -/
def entryStray (s : State) (e : Nat × Nat × Nat) : Bool :=
  match liveEntry s e.1 e.2.1 e.2.2 with
  | none => false
  | some w =>
    entrySound s e.1 e.2.1 e.2.2 w &&
    match shardHolding s e.1 (field w 495 448) with
    | none => true
    | some (i, _, _) => decide (i ≠ field w 319 309)

/-- Treat one live entry by Table 9-9; answers whether a block was rerun, the shards newly torn, and the state. -/
def resumeEntry (e : Nat × Nat × Nat) (s : State) : Nat × Nat × State :=
  let (k, u, j) := e
  match liveEntry s k u j with
  | none => (0, 0, s)
  | some w =>
    if !entrySound s k u j w then (0, 1, retireEntry k u j (markTorn k (field w 319 309) s))
    else match shardHolding s k (field w 495 448) with
      | none => (0, 0, s)
      | some (i, d, b) =>
        if field w 511 504 = 2 then
          let a1 := bytesAt s (journalAddr k u j + 0x1000) (4 * blockLen d b)
          let o := outerOf s k i
          let s := unitStore k (sdW d + 4096 * b) a1 s
          let new := (o.staged.map Prod.fst).getD o.base
          let s := unitStore k (sdW d + 4096 * b) (wordBytes (rebaseWords s d b new o.wb (fun e => leAt a1 (4 * e) 4))) s
          (1, 0, bump (printBlock k d (b / 256) (retireEntry k u j (writeCopy k i d b s))) (cCbl k 0x168))
        else if wstamp s d b = field w 415 384 then
          (0, 0, bump (printBlock k d (b / 256) (markUpdated k i b (retireEntry k u j s))) (cCbl k 0x160))
        else
          let r := readBlock k d b false (restoreMoments k d b u j s)
          if r.1 then
            let s := groupW k i d b u j (groupM k i d b u j r.2)
            (1, 0, bump (bump (markUpdated k i b (retireEntry k u j s)) (cCbl k 0x168)) (cCbl k 0x160))
          else (0, 0, leaveBlock k i d b (markInvalid k i (retireEntry k u j r.2)))

/-- The shard is torn: its weights and moments are not used (R268). -/
def shardTorn (s : State) (k i : Nat) : Bool :=
  match shardOf s k i with
  | some sh => sh.torn
  | none => false

/-- Finish a block that the interruption had not reached; a torn shard is not updated further (R268). -/
def finishBlock (k i : Nat) (d b : Nat) (s : State) : State :=
  if shardTorn s k i then markUpdated k i b s
  else if !blockDue s d b then leaveBlock k i d b s
  else
    let r := readBlock k d b true s
    if !r.1 then leaveBlock k i d b (markInvalid k i r.2)
    else
      let u := b % 16
      let slots := freeSlots r.2 k u
      let (x, s) := free32 r.2
      let j := slots.getD (x % slots.length) 0
      let s := groupW k i d b u j (groupM k i d b u j (journalBlock k i d b j s))
      markUpdated k i b (bump (retireEntry k u j s) (cCbl k 0x160))

/-- A shard's records with MSTAMP ≠ WSTAMP and no live entry: each is an event, and the shard is torn (R268). -/
def sweepShard (p : Nat × Nat × Shard) (s : State) : Nat × State :=
  let d := p.2.2.desc
  let bad := ((List.range (sdBlocks d)).filter (fun b => decide (mstamp s d b ≠ wstamp s d b))).length
  if bad = 0 then (0, s)
  else if shardTorn s p.1 p.2.1 then (0, bumpN s (cCbl p.1 0x170) bad)
  else (1, markTorn p.1 p.2.1 (bumpN s (cCbl p.1 0x170) (bad - 1)))

/-- The group's trust ratio or mean stands in the step's records. -/
def groupFormed (s : State) (g : Nat) : Bool :=
  sget false s.cbl.sums g || decide ((tableOf s g).2.2.1 ≠ 0) || decide ((tableOf s g).2.2.2 ≠ 0)

/-- Groups of an interrupted update whose exact sums must be formed again with the other modules (R273). -/
def unformedGroups (s : State) : List Nat :=
  (loadedGroups s).filter (fun g => (decide (groupOpt s g = 5) || decide (groupOpt s g = 6)) && !grFrozen (groupRaw s g)
    && !groupFormed s g)

/-- Blocks of some groups that still carry an older WSTAMP are finished. -/
def finishShards (groups : List Nat) (s : State) : State :=
  (allShards s).foldl (fun s p =>
    let d := p.2.2.desc
    if !groups.contains (sdGroup d) then s
    else (List.range (sdBlocks d)).foldl (fun s b =>
      if wstamp s d b = s.stp.rc.step % 2 ^ 32 then markUpdated p.1 p.2.1 b s
      else finishBlock p.1 p.2.1 d b s) s) s

/-- Treat every live entry of the journal: blocks rerun, entries that tore a shard, and the state. -/
def resumeEntries (s : State) : Nat × Nat × State :=
  journalSlots.foldl (fun (acc : Nat × Nat × State) e =>
    let (a, b, s) := resumeEntry e acc.2.2
    (acc.1 + a, acc.2.1 + b, s)) (0, 0, s)

/-- Sweep the records of every shard: shards newly torn, and the state. -/
def sweepShards (s : State) : Nat × State :=
  (allShards s).foldl (fun (acc : Nat × State) p =>
    let (n, s) := sweepShard p acc.2
    (acc.1 + n, s)) (0, s)

/-- The remaining blocks of an interrupted update are finished; a staged commit has none. A LAMB or Adafactor group whose
sums were not formed starts again at sweep A, and its blocks follow once they are (R273). -/
def resumeFinish (s : State) : State :=
  if s.stp.rc.state = 6 ∧ !s.stp.rc.staged ∧ s.stp.rc.decision ≠ 0 then
    let un := unformedGroups s
    un.foldl (fun s g => startSums g s) (finishShards ((loadedGroups s).filter (fun g => !un.contains g)) s)
  else s

/-- What CORBEL_RESUME does to memory: blocks rerun, shards torn, and the state. -/
def resumeMemory (s : State) : Nat × Nat × State :=
  let e := resumeEntries s
  let w := sweepShards e.2.2
  (e.1, e.2.1 + w.1, resumeFinish w.2)

/-- A resumption that waits for the sums of a group goes on with it, and ends with the last one: the step is UPDATED. -/
def resumeGroup (g : Nat) (s : State) : State :=
  if s.stp.rc.state ≠ 6 || !groupFormed s g then s
  else
    let s := finishShards [g] s
    if (unformedGroups s).isEmpty then
      writeRecord { s.stp.rc with state := 7 } { s with stp := { s.stp with updRun := false } }
    else s

/-- GROUP_SUMS_COMPLETE (R258, R259, R253): a group's all-reduce is complete, in the update or in its resumption. -/
def execGroupSumsComplete (group : BitVec 10) (sums : GroupSums) (s : State) : Host.Outcome State Fault Refusal :=
  .next (
    let g := group.toNat
    if !s.stp.updRun || decide (s.stp.rc.state ≠ 3 ∧ s.stp.rc.state ≠ 6) || sget false s.cbl.sums g
        || grFrozen (groupRaw s g) then s
    else resumeGroup g (takeSums g sums s))

/-- The prerequisite of CORBEL_RESUME that is missing, as a CONFIGURATION detail (R267). -/
def resumeMissing (s : State) : Option Nat :=
  if !s.cfg.committed || decide (s.cbl.placed ≠ 3) then some 0
  else (journalSlots.find? (entryStray s)).map (fun e => e.1 * 2 ^ 28 + e.2.1 * 2 ^ 24 + e.2.2 * 2 ^ 21)

/-- The register CBL_CHECK (Table 9-15). -/
def cblCheck (s : State) : Nat :=
  s.cbl.chkOut % 4 * 2 ^ 30 + bit s.cbl.chkF * 2 ^ 29 + bit s.cbl.chkOver * 2 ^ 28 + bit (genOf s) * 2 ^ 27

/-- The register CBL_STATUS (Table 9-15). -/
def cblStatus (s : State) (k : Nat) : Nat :=
  let phase := match s.stp.rc.state with
    | 1 => 1
    | 2 => 2
    | 3 => if s.stp.updRun then 3 else 0
    | 6 => if s.stp.updRun then 5 else 4
    | _ => 0
  let mine := (allShards s).filter (fun p => p.1 = k)
  phase * 2 ^ 29 + bit (mine.any (fun p => p.2.2.torn)) * 2 ^ 28 + bit (mine.any (fun p => p.2.2.invalid)) * 2 ^ 27
    + liveCount s k % 256 * 2 ^ 19

end Sys2Proof.Machine
end

