-- ==== Sys2Proof/Machine/Fabric.lean ====
section
/-!
DEFINITION. The site fabric: ports, native frames, flows and reliable delivery, the destination filter and the rate
ceiling, and the plumb digest (chapter 12, R332 to R351, R366 to R368).
-/
namespace Sys2Proof.Machine

/-! ## Ports and registers -/

/-- A counter of port `p` (Table 12-14). -/
def cFab (p o : Nat) : Nat := fabBase + 0xC000 + 0x4000 * p + o
/-- FAB_FILTER_CNT, FAB_UNREACH_CNT and FAB_CKPTREF_CNT. -/
def cFabFilter : Nat := fabBase + 0x100
def cFabUnreach : Nat := fabBase + 0x108
def cFabCkptRef : Nat := fabBase + 0x110
/-- A counter of the COL_ page (Table 12-17). -/
def cCol (o : Nat) : Nat := colBase + o

/-- Port `p`. -/
def portOf (s : State) (p : Nat) : Port := sget Port.init s.fab.ports p
/-- Replace port `p`. -/
def setPort (s : State) (p : Nat) (v : Port) : State := { s with fab := { s.fab with ports := sput Port.init s.fab.ports p v } }

/-- FAB_PORT_CFG of port `p`. -/
def portCfg (s : State) (p : Nat) : Nat := getReg s (fabBase + 0xC000 + 0x4000 * p)
/-- Mode of a port (Table 12-1). -/
def portMode (s : State) (p : Nat) : Nat := field (portCfg s p) 31 30
/-- The port is in one of the native modes. -/
def portNative (s : State) (p : Nat) : Bool := portMode s p = 1 || portMode s p = 2
/-- The port is in service: up, on four lanes or two. -/
def inService (s : State) (p : Nat) : Bool := (portOf s p).state = 2 || (portOf s p).state = 3
/-- The module's fabric ID. -/
def ownFid (s : State) : Nat := field (getReg s fabBase) 31 16
/-- FAB_JOB_ID. -/
def jobId (s : State) : Nat := getReg s (fabBase + 8)

/-- FAB_PORT_STATUS (Table 12-13). -/
def fabPortStatus (s : State) (p : Nat) : Nat :=
  let o := portOf s p
  o.state % 8 * 2 ^ 29 + o.lanes % 16 * 2 ^ 25 + bit o.native * 2 ^ 24 + o.peer % 2 ^ 16

/-- The destination filter allows a fabric ID (R349). -/
def filterAllows (s : State) (fid : Nat) : Bool :=
  let w := fid / 32
  (getReg s (fabBase + 0x4000 + w / 1024 * 0x4000 + w % 1024 * 4)).testBit (fid % 32)

/-! ## The plumb digest (R366, R477) -/

/-- The job digest JD (R366). -/
def jobDigest (s : State) : Nat :=
  crc64 (leBytes 4 (jobId s) ++ leBytes 8 s.host.jobSeed ++ leBytes 4 s.stp.r ++ leBytes 4 s.stp.q
    ++ s.stp.members.flatMap (leBytes 2) ++ leBytes 4 (getReg s cblBase) ++ leBytes 4 (getReg s (cblBase + 4))
    ++ leBytes 1 (field (getReg s ltuBase) 26 24) ++ leBytes 4 s.stp.expert.length ++ s.stp.expert.flatMap (leBytes 4))

/-- fold(x) := x[63:32] XOR x[31:0]. -/
def fold32 (x : Nat) : Nat := x / 2 ^ 32 % 2 ^ 32 ^^^ x % 2 ^ 32

/-- The configuration reference as the digest takes it: 0 while not committed (R477). -/
def cfgRef (s : State) : Nat :=
  if s.cfg.committed then getReg s (topBase + 0x24) * 2 ^ 32 + getReg s (topBase + 0x20) else 0

/-- The plumb digest (R366). -/
def plumb (s : State) : Nat := fold32 (jobDigest s) ^^^ fold32 (s.cfg.crc ^^^ cfgRef s)

/-! ## Native frames (R335, Table 12-3) -/

/-- The Ethernet CRC-32, reflected. -/
def crc32 (bs : List Byte) : Nat :=
  (bs.foldl (fun c b =>
    (List.range 8).foldl (fun c _ => if c % 2 = 1 then c / 2 ^^^ 0xEDB88320 else c / 2) (c ^^^ b.toNat))
    0xFFFFFFFF) ^^^ 0xFFFFFFFF

/-- Some stack is at the hot level: SLOW (R361). -/
def slowMark (s : State) : Bool := (List.range 8).any (fun k => decide ((stackOf s k).level = 2))

/-- What a sender puts into a native header. -/
structure Head where
  kind   : Nat
  prio   : Nat
  last   : Bool
  dst    : Nat
  handle : Nat
  addr   : Nat
  seq    : Nat
  fmt    : Nat
  idx    : Nat
  deriving DecidableEq, Repr

/-- A native header of 256 bits. -/
def headBits (s : State) (h : Head) (len : Nat) : Nat :=
  2 ^ 252 + h.kind % 16 * 2 ^ 248 + h.prio % 8 * 2 ^ 245 + bit (genOf s) * 2 ^ 244
    + bit ((h.kind = 2 || h.kind = 3) && slowMark s) * 2 ^ 243 + bit h.last * 2 ^ 242 + h.dst % 2 ^ 16 * 2 ^ 224
    + ownFid s % 2 ^ 16 * 2 ^ 208 + jobId s % 2 ^ 32 * 2 ^ 176 + plumb s % 2 ^ 32 * 2 ^ 144 + h.handle % 2 ^ 16 * 2 ^ 128
    + h.addr % 2 ^ 48 * 2 ^ 80 + len % 2 ^ 16 * 2 ^ 64 + h.seq % 2 ^ 32 * 2 ^ 32 + field (getReg s fabBase) 14 10 * 2 ^ 24
    + h.fmt % 16 * 2 ^ 20 + h.idx % 2 ^ 16

/-- The end-to-end check: CRC-32C with HOP taken as zero. -/
def e2eCheck (hdr : Nat) (payload : List Byte) : Nat := crc32c (beBytes 32 (putField hdr 31 24 0) ++ payload)

/-- The native part of a frame: header, payload, end-to-end check, the last in the byte order of the header (log 78). -/
def nativePart (hdr : Nat) (payload : List Byte) : List Byte :=
  beBytes 32 hdr ++ payload ++ beBytes 4 (e2eCheck hdr payload)

/-- MAC address of a fabric ID. -/
def macOf (fid : Nat) : List Byte :=
  if fid = 0xFFFF then List.replicate 6 0xFF else [0x02, 0x50, 0x4C, 0x00] ++ beBytes 2 fid

/-- The Ethernet frame of a native part on port `p`. -/
def etherFrame (s : State) (p prio dst : Nat) (body : List Byte) : List Byte :=
  let tag := if portMode s p = 2 then [0x81, 0x00] ++ beBytes 2 (prio % 8 * 2 ^ 13 + field (portCfg s p) 27 16) else []
  let f := macOf dst ++ macOf (ownFid s) ++ tag ++ beBytes 2 (getReg s (fabBase + 4)) ++ body
  f ++ leBytes 4 (crc32 f)

/-! ## Ceiling, pause, credits (R337, R347, R348, R350) -/

/-- Fabric-byte units of a port in one period: half with two lanes (R334). -/
def portUnits (s : State) (p : Nat) : Nat :=
  if (portOf s p).state = 3 then periodNs s * 50 / 64 else periodNs s * 100 / 64

/-- The lintel die is hot: port ceilings are halved (Table 18-7). -/
def lintelHot (s : State) : Bool := decide (2 ≤ (sget (0, 0) s.pwr.temps 8).2)

/-- The rate ceiling of a port in units (R350). -/
def ceilUnits (s : State) (p : Nat) : Nat :=
  let c := field (getReg s (fabBase + 0xC004 + 0x4000 * p)) 31 23 * portUnits s p / 256
  if lintelHot s then c / 2 else c

/-- Credit units a direct port grants a priority of its own, and the rest of its 512 KiB buffer, which all share
(R347). -/
def creditLimit (prio : Nat) : Nat := if prio = 7 then 512 else if 2 ≤ prio then 1024 else 0
def creditShared : Nat := 2560

/-- A priority of a direct port holds the credits of `u` more units: within its own grant, or with what the others leave
of the shared rest. One frame of a priority that holds none in flight always may go. -/
def hasCredits (o : Port) (prio u : Nat) : Bool :=
  let extra (q n : Nat) : Nat := n - creditLimit q
  let held (q : Nat) : Nat := sget 0 o.credit q
  let others := ((List.range 8).filter (· ≠ prio)).foldl (fun a q => a + extra q (held q)) 0
  decide (others + extra prio (held prio + u) ≤ creditShared) || decide (held prio = 0)

/-- Put a frame on the wire: charged to its class, but for priority 7 and relayed frames (class 16) (R337, R341). -/
def putOnWire (p prio cls : Nat) (frame : List Byte) (s : State) : State :=
  let u := ceilDiv frame.length 64
  let o := portOf s p
  let c := ceilUnits s p
  let o := { o with used := o.used + u, owed := if c < u then u - c else o.owed
                    credit := if portMode s p = 1 then sput 0 o.credit prio (sget 0 o.credit prio + u) else o.credit }
  let s := bump (setPort s p o) (cFab p 0x100)
  let s := if prio = 7 || decide (16 ≤ cls) then s else charge cls (.fabric p) u s
  emit (.frame p frame) s

/-- A frame may go out now. -/
def mayTransmit (s : State) (p prio n : Nat) : Bool :=
  let o := portOf s p
  let u := ceilDiv n 64
  let c := ceilUnits s p
  let fits := decide (o.used + u ≤ c) || (decide (o.used = 0) && decide (0 < c))
  fits && decide (o.owed = 0) && !(decide (prio ≠ 7) && o.paused.testBit prio)
    && !(portMode s p = 1 && !hasCredits o prio u)

/-- Count that the ceiling is reached in this period. -/
def ceilReached (s : State) (p n : Nat) : State :=
  let o := portOf s p
  if !o.capped && decide (ceilUnits s p < o.used + ceilDiv n 64) then
    bump (setPort s p { o with capped := true }) (cFab p 0x160)
  else s

/-- Send a frame on a port, or let it wait behind earlier ones of its priority. -/
def transmit (p prio cls : Nat) (frame : List Byte) (s : State) : State :=
  let o := portOf s p
  if o.queue.all (fun q => q.1 ≠ prio) && mayTransmit s p prio frame.length then putOnWire p prio cls frame s
  else
    let s := ceilReached s p frame.length
    let o := portOf s p
    setPort s p { o with queue := o.queue ++ [(prio, cls, frame)] }

/-- Send what waits on a port, in order; a frame that must still wait keeps those of its priority behind it. -/
def pumpPort (p : Nat) (s : State) : State :=
  let q := (portOf s p).queue
  let s := setPort s p { portOf s p with queue := [] }
  q.foldl (fun s f => transmit p f.1 f.2.1 f.2.2 s) s

/-- A budget period begins on a port: the ceiling is whole again but for what is owed (R350). -/
def portPeriod (p : Nat) (s : State) : State :=
  let o := portOf s p
  let c := ceilUnits s p
  pumpPort p (setPort s p { o with used := if 0 < o.owed then c else 0, owed := o.owed - c, capped := false })

/-! ## Flows (R339, R340, R344, R345) -/

/-- Key of a flow: the other end and the priority. -/
def flowKey (fid prio : Nat) : Nat := fid * 8 + prio
def txFlow (s : State) (dst prio : Nat) : Option TxFlow := sget none s.fab.tx (flowKey dst prio)
def setTx (s : State) (dst prio : Nat) (f : Option TxFlow) : State :=
  { s with fab := { s.fab with tx := sput none s.fab.tx (flowKey dst prio) f } }
def rxFlow (s : State) (src prio : Nat) : Option RxFlow := sget none s.fab.rx (flowKey src prio)
def setRx (s : State) (src prio : Nat) (f : Option RxFlow) : State :=
  { s with fab := { s.fab with rx := sput none s.fab.rx (flowKey src prio) f } }

/-- Native ports in service of a route entry (R339). -/
def eligible (s : State) (dst : Nat) : List Nat :=
  (maskBits 12 (sget 0 s.fab.route dst)).filter (fun p => inService s p && portNative s p)

/-- The port a flow is pinned to (R340). -/
def pinPort (s : State) (dst prio : Nat) (bad : List Nat) : Option Nat :=
  let ps := (eligible s dst).filter (fun p => !bad.contains p)
  let n := ps.length
  if n = 0 then none
  else ps[((ownFid s * 2 ^ 16 + dst) * 0x9E3779B1 + prio) % 2 ^ 32 % n]?

/-- Sticky log record of a loss to a fabric ID. -/
def lossLog (off fid : Nat) (s : State) : State := slogAdd 7 0 off 0 fid 0 0 s

/-- A destination becomes unreachable: the flow frames to it are discarded (R345), and a checkpoint copy to it waits
(R425). -/
def makeUnreachable (dst : Nat) (s : State) : State :=
  if s.fab.unreach.contains dst then s
  else
    let lost := s.fab.tx.foldl (fun a e => if e.1 / 8 = dst then a + (e.2.map (fun f => f.unacked.length)).getD 0 else a) 0
    let writes := s.fab.tx.any (fun e => e.1 / 8 = dst && e.1 % 8 = 3 && e.2.any (fun f => !f.unacked.isEmpty))
    let s := bumpN s cFabUnreach lost
    let s := { s with fab := { s.fab with unreach := s.fab.unreach ++ [dst], tx := sfilter s.fab.tx (fun k => k / 8 ≠ dst) } }
    let s := if writes then lossLog 0x108 dst (raiseNonfinite 0x6C s) else s
    if dst = ckptTo s then pauseCopy true s else s

/-- Send a frame outside any flow: ACK and NACK, which the filter lets through, but not without a fabric ID (R338). -/
def sendLoose (kind dst seq : Nat) (last : Bool) (idx : Nat) (payload : List Byte) (s : State) : State :=
  if ownFid s = 0xFFFF then bump s cFabFilter
  else match pinPort s dst 7 [] with
  | none => s
  | some p =>
    let h : Head := { kind := kind, prio := 7, last := last, dst := dst, handle := 0, addr := 0, seq := seq, fmt := 0, idx := idx }
    transmit p 7 0 (etherFrame s p 7 dst (nativePart (headBits s h payload.length) payload)) s

/-- Acknowledge a flow up to a sequence number; SRC_IDX names the flow's priority (log 30). -/
def sendAck (dst prio seq : Nat) (s : State) : State := sendLoose 5 dst seq false prio [] s
/-- Ask for a resend, or with LAST for a restart. -/
def sendNack (dst prio seq : Nat) (restart : Bool) (s : State) : State := sendLoose 6 dst seq restart prio [] s

/-- A frame originated by the module is withheld: no fabric ID, or the filter (R338, R349). -/
def withheld (s : State) (dst : Nat) : Bool := decide (ownFid s = 0xFFFF) || !filterAllows s dst

/-- Append a frame to its flow and send it on the flow's port. -/
def sendFlow (h : Head) (cls : Nat) (payload : List Byte) (s : State) : Bool × State :=
  let f? : Option TxFlow := match txFlow s h.dst h.prio with
    | some f => some f
    | none => (pinPort s h.dst h.prio []).map (fun p =>
        { port := p, seq := 0, unacked := [], at' := 0, touts := 0, allTouts := 0, bad := [], closing := false })
  match f? with
  | none => (false, bump (makeUnreachable h.dst s) cFabUnreach)
  | some f =>
    let body := nativePart (headBits s { h with seq := f.seq } payload.length) payload
    let s := setTx s h.dst h.prio (some { f with
      seq := (f.seq + 1) % 2 ^ 32, unacked := f.unacked ++ [(f.seq, cls, body)], closing := false
      at' := if f.unacked.isEmpty then nsOf s else f.at' })
    (true, transmit f.port h.prio cls (etherFrame s f.port h.prio h.dst body) s)

/-- Send a native frame; answers whether it left (R338, R345, R349). A broadcast goes out on every native port in
service (R342). -/
def sendFrame (h : Head) (cls : Nat) (payload : List Byte) (s : State) : Bool × State :=
  if withheld s h.dst then (false, lossLog 0x100 h.dst (bump s cFabFilter))
  else if h.dst = 0xFFFF then
    (true, (List.range 12).foldl (fun s p =>
      if inService s p && portNative s p then
        transmit p h.prio cls (etherFrame s p h.prio h.dst (nativePart (headBits s h payload.length) payload)) s
      else s) s)
  else if s.fab.unreach.contains h.dst then (false, bump s cFabUnreach)
  else sendFlow h cls payload s

/-- Send a CTRL frame: code byte and parameters, padded to 4 bytes. -/
def sendCtrl (dst handle code idx : Nat) (params : List Byte) (s : State) : State :=
  let n := ceilDiv (1 + params.length) 4 * 4
  (sendFrame { kind := 7, prio := 7, last := false, dst := dst, handle := handle, addr := 0, seq := 0, fmt := 0, idx := idx } 0
    (slice (BitVec.ofNat 8 code :: params) 0 n) s).2

/-- Resend a flow's unacknowledged frames from a sequence number, each charged to its class again (R337, R344). -/
def resendFrom (dst prio seq : Nat) (s : State) : State :=
  match txFlow s dst prio with
  | none => s
  | some f =>
    let later := f.unacked.filter (fun u => (u.1 + 2 ^ 32 - seq) % 2 ^ 32 < 2 ^ 31)
    later.foldl (fun s u =>
      transmit f.port prio u.2.1 (etherFrame s f.port prio dst u.2.2) (bump s (cFab f.port 0x140)))
      (setTx s dst prio (some { f with at' := nsOf s }))

/-- Restart a flow at SEQ 0 from its oldest unacknowledged frame (R344). -/
def restartFlow (dst prio : Nat) (s : State) : State :=
  match txFlow s dst prio with
  | none => s
  | some f =>
    let renum := (List.zip (List.range f.unacked.length) f.unacked).map (fun u =>
      let b := u.2.2.2
      (u.1, u.2.2.1, nativePart (putField (beNat (b.take 32)) 63 32 u.1) ((b.drop 32).take (b.length - 36))))
    resendFrom dst prio 0 (setTx s dst prio (some { f with seq := f.unacked.length, unacked := renum }))

/-- Pin a flow anew, and resend on the new port; without one its destination becomes unreachable (R340, R345). -/
def repinFlow (dst prio : Nat) (s : State) : State :=
  match txFlow s dst prio with
  | none => s
  | some f =>
    match pinPort s dst prio f.bad with
    | none => makeUnreachable dst s
    | some p =>
      let s := setTx s dst prio (some { f with port := p, touts := 0 })
      match f.unacked with
      | [] => s
      | u :: _ => resendFrom dst prio u.1 s

/-- Move every flow off a port that leaves service, and forgive the port to flows that had excluded it (R340). -/
def movePortFlows (p : Nat) (s : State) : State :=
  s.fab.tx.foldl (fun s e => match e.2 with
    | some f => if f.port = p then repinFlow (e.1 / 8) (e.1 % 8) s else s
    | none => s) s

/-- A port returns to service: flows no longer exclude it. -/
def forgivePort (p : Nat) (s : State) : State :=
  { s with fab := { s.fab with tx := s.fab.tx.map (fun e => (e.1, e.2.map (fun f => { f with bad := f.bad.filter (· ≠ p) }))) } }

/-- A port leaves service (R334, R348). -/
def portDown (p st : Nat) (s : State) : State :=
  let o := portOf s p
  let was := inService s p
  let s := setPort s p { o with state := st, queue := [], native := false, credit := [], paused := 0, pause := [] }
  if was then movePortFlows p (bump s (cFab p 0x170)) else s

/-- Write FAB_PORT_CFG: a changed mode takes the port out of service, disabled or to train anew (R332). -/
def portCfgSet (p v : Nat) (s : State) : State :=
  let old := portMode s p
  let s := setReg s (fabBase + 0xC000 + 0x4000 * p) (v &&& 0xEFFFFFFF)
  if portMode s p = old then s
  else
    let s := portDown p (if portMode s p = 0 then 4 else 1) s
    setPort s p { portOf s p with lanes := 0, peer := 0xFFFF, dead := false }

/-- Write FAB_BUDDY: a changed pairing is confirmed anew (R368). -/
def buddySet (v : Nat) (s : State) : State :=
  let s1 := setReg s (fabBase + 0xC) v
  if v = getReg s (fabBase + 0xC) then s1 else { s1 with fab := { s1.fab with buddy := 0, areaAt := 0, area := 0 } }

/-- Frames acknowledged below a sequence number leave the flow's replay buffer (R344). -/
def ackFlow (dst prio seq : Nat) (s : State) : State :=
  let s := { s with fab := { s.fab with unreach := s.fab.unreach.filter (· ≠ dst) } }
  match txFlow s dst prio with
  | none => s
  | some f =>
    let gone := f.unacked.filter (fun u => (seq + 2 ^ 32 - u.1 - 1) % 2 ^ 32 < 2 ^ 31)
    let keep := f.unacked.filter (fun u => !gone.contains u)
    let units := gone.foldl (fun a u => a + ceilDiv (etherFrame s f.port prio dst u.2.2).length 64) 0
    let s := setTx s dst prio (if f.closing && keep.isEmpty then none
      else some { f with unacked := keep, at' := nsOf s, touts := 0, allTouts := 0 })
    let o := portOf s f.port
    pumpPort f.port (setPort s f.port { o with credit := sput 0 o.credit prio (sget 0 o.credit prio - units) })

/-! ## Members (R276, R353) -/

/-- The members of a scope: step group, replica group, replica set or an explicit list. -/
def scopeMembers (s : State) (scope : Nat) (list : List Nat) : List Nat :=
  let q := s.stp.q
  let own := s.stp.own_
  match scope with
  | 0 => s.stp.members
  | 1 => (s.stp.members.drop (own / q * q)).take q
  | 2 => (List.range s.stp.r).map (fun i => s.stp.members.getD (i * q + own % q) 0xFFFF)
  | _ => list

/-- A module index in a list. -/
def memberIndex (ms : List Nat) (fid : Nat) : Option Nat := ms.findIdx? (· = fid)

end Sys2Proof.Machine
end

