-- ==== Sys2Proof/Machine/Coll.lean ====
section
/-!
DEFINITION. The collective engine: handles, parts and extents, contributions and results, exclusion, and stage queues
(chapter 12, R352 to R365, and chapter 10, R294 to R299).
-/
namespace Sys2Proof.Machine

/-! ## Handles (Table 12-7) -/

def hdHandle (h : Nat) : Nat := field h 511 496
def hdOp (h : Nat) : Nat := field h 495 492
def hdRagged (h : Nat) : Bool := flag h 491
def hdCombine (h : Nat) : Nat := field h 490 487
def hdScope (h : Nat) : Nat := field h 486 485
def hdFmt (h : Nat) : Nat := field h 484 481
def hdDest (h : Nat) : Bool := flag h 480
def hdNext (h : Nat) : Nat := field h 479 476
def hdLocal (h : Nat) : Nat := field h 459 412
def hdTotal (h : Nat) : Nat := field h 411 364
def hdTOff (h : Nat) : Nat := field h 363 332
def hdWaitMax (h : Nat) : Nat := field h 331 316
def hdCap (h : Nat) : Nat := field h 315 300 * 64
def hdDoneEp (h : Nat) : Nat := field h 299 292
def hdDoneSlot (h : Nat) : Nat := field h 291 286

/-- The handle of a number. -/
def handleOf (s : State) (n : Nat) : Option Handle := sget none s.fab.handles n
/-- Replace a handle. -/
def setHandle (n : Nat) (h : Option Handle) (s : State) : State :=
  { s with fab := { s.fab with handles := sput none s.fab.handles n h } }
/-- Replace a handle's run. -/
def setRun (n : Nat) (r : Option Run) (s : State) : State :=
  match handleOf s n with
  | some h => setHandle n (some { h with run := r }) s
  | none => s

/-- Members of a handle's scope. -/
def handleMembers (s : State) (h : Handle) : List Nat := scopeMembers s (hdScope h.header) h.list
/-- The module's own index in a handle's scope. -/
def ownIndex (s : State) (h : Handle) : Nat := (memberIndex (handleMembers s h) (ownFid s)).getD 0xFFFF

/-- Elements of part `j` of `n` (R354). -/
def partLen (h : Handle) (n j : Nat) : Nat :=
  if hdRagged h.header then h.lens.getD j 0
  else hdTotal h.header / n + bit (decide (j < hdTotal h.header % n))

/-- First element of part `j`. -/
def partOff (h : Handle) (n j : Nat) : Nat := (List.range j).foldl (fun a i => a + partLen h n i) 0

/-- Bytes of `e` elements of a handle's format. -/
def elemBytes (h : Handle) (e : Nat) : Nat := ((fmtOfCode (hdFmt h.header)).getD .fp32).rowBytes e

/-- Elements that `n` bytes of a handle's format hold. -/
def elemsOf (h : Handle) (n : Nat) : Nat := n * 8 / ((fmtOfCode (hdFmt h.header)).getD .fp32).width

/-- The part that holds element `e`, and the element's place in it. -/
def partAt (h : Handle) (n : Nat) : Nat → Nat → Nat → Option (Nat × Nat)
  | 0, _, _ => none
  | f + 1, j, e =>
    if n ≤ j then none
    else if e < partLen h n j then some (j, e) else partAt h n f (j + 1) (e - partLen h n j)

/-- A broadcast and a PSUM tree treat the whole buffer as one part, of member 0 (R354, R365). -/
def wholeBuffer (h : Handle) : Bool := decide (hdOp h.header = 5) || decide (hdOp h.header = 6)

/-- Elements of what a sender's LAST for part `j` ends. -/
def sendLen (h : Handle) (n j : Nat) : Nat := if wholeBuffer h then hdTotal h.header else partLen h n j

/-- Sizes of the blocks of part `j` from its layout row: a contribution never crosses one (R353, R356). -/
def blockCuts (h : Handle) (n j : Nat) : List Nat :=
  if hdDest h.header then
    (h.layout.getD j []).flatMap (fun c => (List.range (ceilDiv c 1024)).map (fun b => min 1024 (c - 1024 * b)))
  else
    let l := sendLen h n j
    let per := elemsOf h 4096
    (List.range (ceilDiv l per)).map (fun b => min per (l - per * b))

/-- The extent of the module's own part that holds element `e`: stack, shard, block, place in the block. -/
def extentAt : List Nat → Nat → Option (Nat × Nat × Nat × Nat)
  | [], _ => none
  | x :: xs, e =>
    let c := field x 31 0
    if e < c then some (field x 63 61, field x 58 48, e / 1024, e % 1024) else extentAt xs (e - c)

/-- Record a collective event; the first since the last read is kept (Table 12-16). -/
def colEvent (ev handle fid : Nat) (s : State) : State :=
  if flag (getReg s (colBase + 8)) 31 then s
  else setReg (setReg s (colBase + 8) (2 ^ 31 + ev * 2 ^ 27 + handle % 2 ^ 16)) (colBase + 0xC) (fid % 2 ^ 16)

/-- A fresh run. -/
def Run.begin (at' : Nat) (reply : Option ReplyTo) : Run :=
  { at' := at', started := false, last := [], excluded := [], slow := [], plumb := [], lost := [], got := [], own := false
    rcvd := [], held := [], sent := [], maps := [], reply := reply }

/-! ## Stage queues (R294 to R299) -/

/-- The queue of a handle. -/
def queueDesc (s : State) (h : Nat) : Option StageQueue := sget none s.stp.queues h
/-- The queue of a handle whose entries lie on this module (R294). -/
def consumerQueue (s : State) (h : Nat) : Option StageQueue :=
  (queueDesc s h).filter (fun q => decide (field q.desc 215 200 = ownFid s))
/-- Replace a queue. -/
def setStageQueue (h : Nat) (q : StageQueue) (s : State) : State :=
  { s with stp := { s.stp with queues := sput none s.stp.queues h (some q) } }

def sqBytes (d : Nat) : Nat := field d 111 80
def sqNent (d : Nat) : Nat := field d 79 72 + 1
def sqBase (d : Nat) : Nat := field d 159 112

/-- Bytes of a stage queue entry arrive at the consumer's module (R295, R297): a piece outside the queue, or one that
would fill it beyond NENT, is dropped and raises the non-finite slot; the last piece of an entry counts it. -/
def queueArrive (h off : Nat) (gen : Bool) (data : List Byte) (s : State) : State :=
  match consumerQueue s h with
  | none => s
  | some q =>
    let d := q.desc
    let e := sqBytes d
    if gen ≠ genOf s then bump s (cStep 12)
    else if e = 0 ∨ sqNent d * e < off + data.length ∨ off / e ≠ (off + data.length - 1) / e ∨ sqNent d ≤ q.occ then
      raiseNonfinite 0x6C (bump s (cStep 13))
    else
      let s := writeTo .lintel 8 (sqBase d + off) data s
      if (off + data.length) % e ≠ 0 then s
      else
        let occ := q.occ + 1
        let s := setStageQueue h { q with occ := occ, high := max q.high occ, fills := if occ = sqNent d then satAdd 48 q.fills 1 else q.fills } s
        sendToken (field d 181 174) (field d 173 168) 0 0x6C (genOf s) 1 s

/-- QUEUE_ENTRY_ARRIVAL (R295, R297): a whole entry arrives; its offset must be a multiple of ENTRY_BYTES. -/
def execQueueEntryArrival (handle : W16) (offset len : W32) (gen : Bool) (data : List Byte) (s : State) :
    Host.Outcome State Fault Refusal :=
  .next (
    let bad := (consumerQueue s handle.toNat).any (fun q => decide (gen = genOf s)
      && (decide (sqBytes q.desc = 0) || decide (offset.toNat % sqBytes q.desc ≠ 0)))
    if bad then raiseNonfinite 0x6C (bump s (cStep 13))
    else queueArrive handle.toNat offset.toNat gen (slice data 0 len.toNat) s)

/-- QUEUE_CREDIT_RETURN (R295): a credit for endpoint 0x6C frees an entry of the queue of its route and goes on to the
producer's pool, over the fabric when the producer is on another module. -/
def execQueueCreditReturn (src : Byte) (credit : W32) (s : State) : Host.Outcome State Fault Refusal :=
  .next (match arrive (.credit src credit) s with
    | none => s
    | some s =>
      let w := credit.toNat
      if field w 31 24 ≠ 0x6C then s
      else if flag w 18 ≠ genOf s then bump s (cStep 12)
      else
        let route := field w 23 19
        let own := ownFid s
        match s.stp.queues.find? (fun e => e.2.any (fun q => field q.desc 167 163 = route && field q.desc 215 200 = own)) with
        | some (h, some q) =>
          let d := q.desc
          let n := field w 15 0
          let s := setStageQueue h { q with occ := q.occ - n } s
          let m := creditWord (field d 199 192) (field d 191 187) (flag w 18) n
          if field d 231 216 = own then send (.credit 0x6C m) s
          else (sendFrame { kind := 4, prio := 7, last := false, dst := field d 231 216, handle := h, addr := 0, seq := 0
                            fmt := 0, idx := s.stp.own_ } 0 (leBytes 4 m.toNat) s).2
        | _ => s)

/-! ## Combining at an owner (R356, R357, R364, R365) -/

/-- Bytes of a combined buffer at LOCAL_ADDR that `n` bytes of contributions combine into: an exact accumulator is 88 bytes
for each word contributed, and a compare and a swap value make one word (R240, R241, log 74). -/
def combineAt (op n : Nat) : Nat := match op with
  | 7 => n / 2
  | 8 => 11 * n
  | 9 => 11 * n
  | _ => n

/-- Combine a contribution's bytes, from byte `off` of the buffer, into the words at LOCAL_ADDR `l` by a Table 9-1
operation (DEST = 0): 8-byte words in a stack-local region, whose low 4 bytes an FP32 operation takes (R240, log 74). -/
def combineMem (op l off : Nat) (data : List Byte) (s : State) : State :=
  let n := if op = 7 then 16 else 8
  if (corbelStack s (l + combineAt op off)).isNone then countUnmapped (l + combineAt op off) s
  else (List.range (data.length / n)).foldl (fun s i =>
    collWord op (l + combineAt op (off + n * i)) (leAt data (n * i) n) s) s

/-- A PSUM tree carries the bytes of the node area of a product: the one whose combining task a loaded program holds and
whose area has the buffer's size. Answers its superblocks, 0 where there is none (R100, R365, log 81). -/
def nodeCount (s : State) (h : Handle) : Nat :=
  ((List.range 96).findSome? (fun t => (List.range (progOf s t).ntasks).findSome? (fun i =>
    let w := taskOf s t i
    let b := matrixBody s t w
    if tkOp w = 1 ∧ b.mode = 2 ∧ nodeMapLen b + 8 * (b.m * b.n * ceilDiv b.k 4096) = elemBytes h (hdTotal h.header) then
      some (ceilDiv b.k 4096) else none))).getD 0

/-- Merge a piece of member `i`'s partial-node area (R365): the map bytes that name a node, and the slots of the nodes that
this member's map has named. -/
def mergeNodes (hn : Nat) (h : Handle) (i off : Nat) (data : List Byte) (s : State) : State :=
  let nb := nodeCount s h
  let mapLen := ceilDiv nb 64 * 64
  let named := (List.zip (List.range data.length) data).filter (fun p => decide (off + p.1 < nb) && decide (p.2 ≠ 0xFF))
  let s := match (handleOf s hn).bind Handle.run with
    | some r => setRun hn (some { r with maps := named.foldl (fun m p => sput 0 m (i * 2 ^ 16 + off + p.1) (p.2.toNat + 1)) r.maps }) s
    | none => s
  let maps := (((handleOf s hn).bind Handle.run).map Run.maps).getD []
  (List.zip (List.range data.length) data).foldl (fun s p =>
    let o := off + p.1
    let keep := if nb = 0 then true
      else if o < mapLen then decide (o < nb) && decide (p.2 ≠ 0xFF)
      else decide (sget 0 maps (i * 2 ^ 16 + (o - mapLen) / 8 % nb) ≠ 0)
    if keep then writeTo .lintel 8 (hdLocal h.header + o) [p.2] s else s) s

/-- Elements of a handle's format as a plain contribution; `marks` names those that a conversion marked POISON. -/
def plainForm (h : Handle) (data : List Byte) (marks : List Bool) : Contribution :=
  let n := elemsOf h data.length
  .plain (BitVec.ofNat 4 (hdFmt h.header)) 0
    [{ scale := 0, count := BitVec.ofNat 16 n, e8m0 := [], data := data
       metas := (List.range (ceilDiv n 32)).map (fun b => if ((marks.drop (32 * b)).take 32).any id then 0x80 else 0) }]

/-- A contribution of member `i` at element `e` of the module's own part enters its destination. `form` is what its bytes
encode where they are to enter a reduction block. -/
def ownerAdd (hn : Nat) (h : Handle) (i e : Nat) (gen : Bool) (form : Contribution) (data : List Byte) (s : State) : State :=
  let hd := h.header
  match hdOp hd with
  | 4 =>
    let r := (h.run.map (fun r => sget 0 r.rcvd i)).getD 0
    let room := hdCap hd - r
    let s := writeTo .lintel 8 (hdLocal hd + i * hdCap hd + r) (data.take room) s
    let s := setRun hn (h.run.map (fun x => { x with rcvd := sput 0 x.rcvd i (r + (data.take room).length) })) s
    if room < data.length then raiseNonfinite 0x6C (colEvent 7 hn ((handleMembers s h).getD i 0xFFFF) (bumpN s (cCol 0x130) (data.length - room))) else s
  | 6 => mergeNodes hn h i (elemBytes h e) data s
  | _ =>
    if hdDest hd then
      match extentAt h.extents e with
      | some (k, sh, b, _) => gridAdd k sh b gen form s
      | none => s
    else
      let off := elemBytes h (partOff h (handleMembers s h).length (ownIndex s h) + e)
      if hdOp hd = 1 ∨ hdOp hd = 3 ∨ hdOp hd = 7 then combineMem (hdCombine hd) (hdLocal hd) off data s
      else writeTo .lintel 8 (hdLocal hd + off) data s

/-- The owner holds LAST of member `i`. -/
def noteLast (hn i : Nat) (s : State) : State :=
  match (handleOf s hn).bind Handle.run with
  | some r => if r.last.contains i then s else setRun hn (some { r with last := r.last ++ [i] }) s
  | none => s

/-! ## Sending a contribution (R98, R349, R356) -/

/-- One piece of a contribution: within one part and one block. `last` marks the last frame for the part. -/
def sendPiece (hn : Nat) (h : Handle) (j e : Nat) (last : Bool) (data : List Byte) (marks : List Bool) (s : State) : State :=
  let ms := handleMembers s h
  let me := ownIndex s h
  let n := ms.length
  let off := elemBytes h (partOff h n j + e)
  let frame (dst kind : Nat) (s : State) : State :=
    (sendFrame { kind := kind, prio := 4, last := last, dst := dst, handle := hn, addr := off, seq := 0
                 fmt := hdFmt h.header, idx := me } 8 data s).2
  let all (kind : Nat) (s : State) : State :=
    (List.range n).foldl (fun s i => if i = me then s else frame (ms.getD i 0xFFFF) kind s) s
  match hdOp h.header with
  | 2 => all 3 (writeTo .lintel 8 (hdLocal h.header + off) data s)
  | 5 => all 3 s
  | _ =>
    if j = me then
      let s := ownerAdd hn h me e (genOf s) (plainForm h data marks) data s
      if last then noteLast hn me s else s
    else frame (ms.getD j 0xFFFF) 2 s

/-- Cut bytes at part and block boundaries and send them; the fuel is the number of bytes. -/
def sendPieces (hn : Nat) (h : Handle) : Nat → Nat → List Byte → List Bool → State → State
  | 0, _, _, _, s => s
  | f + 1, off, data, marks, s =>
    if data.isEmpty then s
    else
      let n := (handleMembers s h).length
      match if wholeBuffer h then some (0, elemsOf h off) else partAt h n (n + 1) 0 (elemsOf h off) with
      | none => s
      | some (j, e) =>
        let rec room : List Nat → Nat → Nat
          | [], _ => 0
          | c :: cs, e => if e < c then c - e else room cs (e - c)
        let m := min (elemBytes h (max 1 (room (blockCuts h n j) e))) data.length
        let done := ((handleOf s hn).bind Handle.run).map (fun r => sget 0 r.sent j + m)
        let last := done = some (elemBytes h (sendLen h n j)) || (hdOp h.header = 4 && decide (m = data.length))
        let s := match (handleOf s hn).bind Handle.run with
          | some r => setRun hn (some { r with sent := sput 0 r.sent j (sget 0 r.sent j + m) }) s
          | none => s
        sendPieces hn h f (off + m) (data.drop m) (marks.drop (elemsOf h m)) (sendPiece hn h j e last (data.take m) marks s)

/-- Token rows that a ragged all-to-all routes by the expert table at its start (R302): each goes, in order, to the module
of its expert's entry; one at or beyond NEXPERT is not sent, is counted, and raises the non-finite slot (R282). The manual
does not say where the router leaves the expert IDs: they come with the command (log 82). -/
def routeRows (hn : Nat) (h : Handle) (rows : List (W16 × List Byte)) (s : State) : State :=
  if hdOp h.header ≠ 4 || !hdRagged h.header then s
  else
    let ms := handleMembers s h
    let miss := rows.filter (fun r => decide (s.stp.expert.length ≤ r.1.toNat))
    let s := miss.foldl (fun s _ => raiseNonfinite 0x6C (bump s (cStep 14))) s
    (List.range ms.length).foldl (fun s j =>
      let mine := rows.filter (fun r => decide (r.1.toNat < s.stp.expert.length)
        && decide (field (s.stp.expert.getD r.1.toNat 0) 31 16 = ms.getD j 0xFFFF))
      sendPieces hn h ((mine.flatMap Prod.snd).length + 1) (elemBytes h (partOff h ms.length j)) (mine.flatMap Prod.snd) [] s) s

/-- Bytes of a send task enter a collective: they wait for the named instant, and for a run (R32, R355). A thermally fenced module
contributes nothing (R429). -/
def contribute (hn off : Nat) (data : List Byte) (marks : List Bool) (s : State) : State :=
  match handleOf s hn with
  | none => s
  | some h =>
    match h.run with
    | none =>
      if s.pwr.fenced || hdTOff h.header ≠ 0xFFFFFFFF then s
      else setHandle hn (some { h with early := h.early ++ [(off, data, marks)] }) s
    | some r =>
      if s.pwr.fenced then s
      else if r.started then sendPieces hn h (data.length + 1) off data marks s
      else setRun hn (some { r with held := r.held ++ [(off, data, marks)] }) s

/-! ## Exclusion, slow members and lost parts (R359 to R361) -/

/-- Exclude a member from the module's part of a run, once. -/
def excludeMember (hn i ev : Nat) (s : State) : State :=
  match handleOf s hn with
  | some h =>
    match h.run with
    | some r =>
      if r.excluded.contains i then s
      else colEvent ev hn ((handleMembers s h).getD i 0xFFFF)
        (bump (setRun hn (some { r with excluded := r.excluded ++ [i] }) s) (cCol 0x108))
    | none => s
  | none => s

/-- Poison the reduction blocks a list of extents fills, in the shards that are loaded (R360). -/
def poisonExtents (xs : List Nat) (s : State) : State :=
  xs.foldl (fun s x =>
    let (k, i) := (field x 63 61, field x 58 48)
    match shardOf s k i with
    | none => s
    | some sh =>
      (List.range (min (ceilDiv (field x 31 0) 1024) (sdBlocks sh.desc))).foldl (fun s b =>
        let a := rbHeader sh.desc b
        corbelStore k a 8 (headWord s { readHead s a with poison := true }) s) s) s

/-- Part `j` of a run is lost: the reduction blocks of that part which this member would have received in an all-reduce, and
which the owner names by its extents (log 31), are poisoned (R360). -/
def partLost (hn j : Nat) (xs : List Nat) (s : State) : State :=
  match handleOf s hn with
  | some h =>
    match h.run with
    | some r =>
      if r.lost.contains j then s
      else
        let s := setRun hn (some { r with lost := r.lost ++ [j], got := r.got ++ [j] }) s
        let s := colEvent 5 hn ((handleMembers s h).getD j 0xFFFF) s
        if hdDest h.header && decide (hdOp h.header = 3) then poisonExtents xs s else s
    | none => s
  | none => s

/-- The module cannot complete its own part: it says so to every member, with the part's extents (R360). -/
def loseOwn (hn : Nat) (h : Handle) (s : State) : State :=
  let me := ownIndex s h
  if !((handleOf s hn).bind Handle.run).any (fun r => !r.own && !r.lost.contains me) then s
  else
    let xs := if hdDest h.header then h.extents.flatMap (leBytes 8) else []
    (handleMembers s h).foldl (fun s fid => if fid = ownFid s then s else sendCtrl fid hn 3 me xs s) (partLost hn me [] s)

/-- Handles with a run in progress. -/
def running (s : State) : List (Nat × Handle) :=
  s.fab.handles.filterMap (fun e => match e.2 with
    | some h => if h.run.isSome then some (e.1, h) else none
    | none => none)

/-- A handle runs in every step, and not by COLL_RUN. -/
def stepBound (h : Handle) : Bool := decide (hdTOff h.header ≠ 0xFFFFFFFF)

/-- Withdraw from one run: CTRL "exclude self" to every other member, once (R359); an owner so excluded loses the part it
combines (R360). -/
def withdrawRun (hn : Nat) (h : Handle) (s : State) : State :=
  let me := ownIndex s h
  let out := ((handleOf s hn).bind Handle.run).any (fun r => r.excluded.contains me)
  let s := match (handleOf s hn).bind Handle.run with
    | some r => setRun hn (some { r with held := [], excluded := if r.excluded.contains me then r.excluded else r.excluded ++ [me] }) s
    | none => s
  if out then s
  else
    let s := (handleMembers s h).foldl (fun s fid => if fid = ownFid s then s else sendCtrl fid hn 1 me [] s) s
    if hdOp h.header = 1 ∨ hdOp h.header = 3 ∨ (hdOp h.header = 6 ∧ me = 0) then loseOwn hn h s else s

/-- Withdraw from the step's collectives not yet completed: from the gradient collectives at an abort (R287), from
every one at a critical stack (R428). -/
def withdraw (gradient : Bool) (s : State) : State :=
  (running s).foldl (fun s e =>
    if stepBound e.2 && (!gradient || hdDest e.2.header) then withdrawRun e.1 e.2 s else s) s

/-- Each part that the module owns and whose destination lies in a stopped stack is lost (R360, R428). -/
def loseOwnParts (k : Nat) (s : State) : State :=
  (running s).foldl (fun s e =>
    let h := e.2
    let hit := if hdDest h.header then h.extents.any (fun x => field x 63 61 = k) else corbelStack s (hdLocal h.header) = some k
    if !hit || h.run.any (fun r => r.got.contains (ownIndex s h)) then s else loseOwn e.1 h s) s

/-- A destination that became unreachable is excluded from every collective it is a member of (R345, R359). -/
def excludeUnreachable (fid : Nat) (s : State) : State :=
  (running s).foldl (fun s e => match memberIndex (handleMembers s e.2) fid with
    | some i => excludeMember e.1 i 4 s
    | none => s) s

/-- Exclude every unreachable destination from the runs in progress. -/
def excludeAllUnreachable (s : State) : State := s.fab.unreach.foldl (fun s fid => excludeUnreachable fid s) s

/-! ## Runs (R355, R357, R358) -/

/-- Step-bound handles start a run at step begin, named `nb + T_OFF` (R355). -/
def beginRuns (nb : Nat) (s : State) : State :=
  { s with fab := { s.fab with handles := s.fab.handles.map (fun e => (e.1, e.2.map (fun h =>
      if hdTOff h.header = 0xFFFFFFFF then { h with early := [] } else { h with run := some (Run.begin (nb + hdTOff h.header) none) }))) } }

/-- COLLECTIVE_START (R355, R361, R302): the named instant has come and the run starts; waiting contributions and routed token rows go out,
a hot module says it is slow. -/
def execCollectiveStart (start : RunStart) (s : State) : Host.Outcome State Fault Refusal :=
  .next (
    let hn := start.handle.toNat
    match handleOf s hn with
    | none => s
    | some h =>
      match h.run with
      | none => s
      | some r =>
        if r.started || decide (nsOf s < r.at') then s
        else
          let s := setRun hn (some { r with started := true, at' := nsOf s, held := [] }) s
          let me := ownIndex s h
          if s.pwr.fenced then withdrawRun hn h s else
          let s := if slowMark s then
              (handleMembers s h).foldl (fun s fid => if fid = ownFid s then s else sendCtrl fid hn 2 me [] s) s
            else s
          routeRows hn h start.routed (r.held.foldl (fun s c => sendPieces hn h (c.2.1.length + 1) c.1 c.2.1 c.2.2 s) s))

/-- Members an owner still waits for. -/
def waitsFor (s : State) (h : Handle) (r : Run) : List Nat :=
  (List.range (handleMembers s h).length).filter (fun i => !r.last.contains i && !r.excluded.contains i)

/-- ADDR of a RESULT frame that carries accumulators or block headers: headers, stack, shard and element. A receiver
has no other way to know the owner's shard positions (log 31). -/
def shardPos (heads k i e : Nat) : Nat := heads * 2 ^ 47 + k % 8 * 2 ^ 44 + i % 2048 * 2 ^ 33 + e % 2 ^ 33

/-- Blocks of the module's own part in extent order, cut into runs of at most 512 that stay in one extent: the headers
of a run go in one frame. -/
def blockRuns (bs : List (Nat × Nat)) (key : Nat → Option (Nat × Nat)) : List (List (Nat × Nat)) :=
  bs.foldl (fun acc b => match acc.getLast? with
    | some g => if g.length < 512 && key ((g.headD (0, 0)).1) = key b.1 then acc.dropLast ++ [g ++ [b]] else acc ++ [[b]]
    | none => [[b]]) []

/-- A block header as it goes into a RESULT frame; one that reads as POISON goes as such (R249, R357). -/
def headBytes (s : State) (a : Nat) : List Byte :=
  let h := readHead s a
  if h.poison then leBytes 8 (headWord s h) else bytesAt s a 8

/-- The accumulators and headers of the module's own part as RESULT frames to one member (R357). -/
def sendResults (hn : Nat) (h : Handle) (dst : Nat) (s : State) : State :=
  let me := ownIndex s h
  let n := (handleMembers s h).length
  let off0 := partOff h n me
  let frame (addr : Nat) (last : Bool) (data : List Byte) (s : State) : State :=
    (sendFrame { kind := 3, prio := 4, last := last, dst := dst, handle := hn, addr := addr, seq := 0
                 fmt := hdFmt h.header, idx := me } 8 data s).2
  let len := partLen h n me
  let cuts := blockCuts h n me
  if hdDest h.header then
    let blocks := cuts.foldl (fun (a : List (Nat × Nat) × Nat) c => (a.1 ++ [(a.2, c)], a.2 + c)) ([], 0)
    (blockRuns blocks.1 (fun e => (extentAt h.extents e).map (fun x => (x.1, x.2.1)))).foldl (fun s grp =>
      let s := grp.foldl (fun s b =>
        match extentAt h.extents b.1 with
        | some (k, i, blk, _) => match shardOf s k i with
          | some sh =>
            let accs := sdRb sh.desc + 8192 * blk
            let s := readAccs k 8 { elem := 1024 * blk, len := b.2, src := some (rbHeader sh.desc blk, accs) } s
            (List.range (ceilDiv b.2 512)).foldl (fun s q =>
              let m := min 512 (b.2 - 512 * q)
              frame (shardPos 0 k i (1024 * blk + 512 * q)) false (viewBytes s .lintel (accs + 4096 * q) (8 * m)) s) s
          | none => s
        | none => s) s
      let heads := grp.flatMap (fun b => match extentAt h.extents b.1 with
        | some (k, i, blk, _) => (match shardOf s k i with
          | some sh => headBytes s (rbHeader sh.desc blk)
          | none => List.replicate 8 0)
        | none => List.replicate 8 0)
      let fin := (grp.getLast?).any (fun b => b.1 + b.2 = len)
      let at' := match extentAt h.extents (grp.headD (0, 0)).1 with
        | some (k, i, blk, _) => shardPos 1 k i (1024 * blk)
        | none => 0
      frame at' fin heads s) s
  else
    let (o, s) := readDev .lintel 8 (hdLocal h.header + elemBytes h off0) (elemBytes h len) s
    (chunks 4096 o.data).foldl
      (fun (a : Nat × State) c =>
        (a.1 + c.length, frame (elemBytes h off0 + a.1) (decide (a.1 + c.length = elemBytes h len)) c a.2)) (0, s) |>.2

/-- PART_COMPLETE (R357): the owner holds LAST from every member not excluded. -/
def execPartComplete (handle : W16) (s0 : State) : Host.Outcome State Fault Refusal :=
  .next (
    let s := excludeAllUnreachable s0
    let hn := handle.toNat
    match handleOf s hn with
    | none => s
    | some h =>
      match h.run with
      | none => s
      | some r =>
        let me := ownIndex s h
        if r.own || !r.started || decide (me = 0xFFFF) || !(waitsFor s h r).isEmpty then s
        else
          let s := setRun hn (some { r with own := true, got := r.got ++ [me] }) s
          if hdOp h.header = 3 then
            (handleMembers s h).foldl (fun s fid => if fid = ownFid s then s else sendResults hn h fid s) s
          else s)

/-- A member's result of a run is complete. -/
def resultComplete (s : State) (h : Handle) (r : Run) : Bool :=
  let n := (handleMembers s h).length
  let me := ownIndex s h
  let all := (List.range n).all (fun j => r.got.contains j || r.lost.contains j || r.excluded.contains j)
  match hdOp h.header with
  | 1 => r.own
  | 2 => (List.range n).all (fun j => decide (j = me) || r.got.contains j || r.excluded.contains j)
      && decide (elemBytes h (partLen h n me) ≤ sget 0 r.sent me)
  | 3 => all
  | 4 => (waitsFor s h r).isEmpty
  | 5 => decide (me = 0) || r.got.contains 0 || r.excluded.contains 0
  | 6 => decide (me ≠ 0) || (waitsFor s h r).isEmpty
  | _ => r.own

/-- COLLECTIVE_COMPLETE (R355, R358): the completion token goes out, the lanes are kept and a COLL_RUN is answered. Over
handle 0xFFF3 every member has confirmed, and the agent raises the re-base flag (R395). -/
def execCollectiveComplete (handle : W16) (s0 : State) : Host.Outcome State Fault Refusal :=
  .next (
    if handle.toNat = 0xFFF3 then
      (if s0.npx.staged.isEmpty then s0 else { s0 with npx := { s0.npx with flagged := true } })
    else
    let s := excludeAllUnreachable s0
    let hn := handle.toNat
    match handleOf s hn with
    | none => s
    | some h =>
      match h.run with
      | none => s
      | some r =>
        if !r.started || !resultComplete s h r then s
        else
          let ms := handleMembers s h
          let fids (l : List Nat) : List Nat := l.map (fun i => ms.getD i 0xFFFF)
          let entered := (List.range ms.length).filter (fun i => !r.excluded.contains i)
          let s := if hdOp h.header = 4 then
              (List.range ms.length).foldl (fun s i =>
                writeTo .lintel 8 (hdLocal h.header + ms.length * hdCap h.header + 4 * i) (leBytes 4 (sget 0 r.rcvd i)) s) s
            else s
          let s := setHandle hn (some { h with
            run := none, lane := entered.foldl (fun a i => a + 2 ^ i) 0
            excl := fids r.excluded, slow := fids r.slow, mism := fids r.plumb }) s
          let s := sendToken (hdDoneEp h.header) (hdDoneSlot h.header) 0 0x6C (genOf s) 1 (bump s (cCol 0x100))
          match r.reply with
          | some w => postReply w true 0 entered.length s
          | none => s)

/-- WAIT_MAX_EXPIRY (R359, R361): the owner excludes a member whose LAST it lacks. -/
def execWaitMaxExpiry (handle : W16) (member : W16) (s : State) : Host.Outcome State Fault Refusal :=
  .next (
    match handleOf s handle.toNat with
    | none => s
    | some h =>
      match h.run with
      | none => s
      | some r =>
        let i := member.toNat
        let wait := hdWaitMax h.header * 10000 * (if r.slow.contains i then 4 else 1)
        if hdWaitMax h.header = 0 || r.own || !r.started || r.last.contains i || decide (nsOf s < r.at' + wait)
            || decide ((handleMembers s h).length ≤ i) then s
        else excludeMember handle.toNat i 1 s)

/-! ## Commands (Table 12-9) -/

/-- The lists that follow a COLL_SETUP header, each from a 64-byte boundary: members, lengths, layout, extents. -/
def collLists (s : State) (hd : Nat) (pb : List Byte) : Handle :=
  let up (a : Nat) : Nat := ceilDiv a 64 * 64
  let nl := if hdScope hd = 3 then field hd 475 460 + 1 else 0
  let list := (List.range nl).map (fun i => leAt pb (64 + 2 * i) 2)
  let n := (scopeMembers s (hdScope hd) list).length
  let o1 := 64 + up (2 * nl)
  let lens := if hdRagged hd then (List.range n).map (fun i => leAt pb (o1 + 8 * i) 8) else []
  let o2 := o1 + up (8 * lens.length)
  let nx := if hdDest hd then hdNext hd else 0
  let layout := if hdDest hd then (List.range n).map (fun j => (List.range nx).map (fun x => leAt pb (o2 + 4 * (j * nx + x)) 4)) else []
  let o3 := o2 + up (4 * n * nx)
  let ext := (List.range nx).map (fun x => leAt pb (o3 + 8 * x) 8)
  { header := hd, list := list, lens := lens, layout := layout, extents := ext, run := none, early := [], lane := 0, excl := [], slow := [], mism := [] }

/-- A handle's buffer lies in configured Treim outside the firmware area, or in allocated pages of domains 0 to 14. -/
def bufferOk (s : State) (a n : Nat) : Bool :=
  (pagesOf a n).all (fun p => match classify p with
    | .treim r => decide (r < 504) && decide (regionMode s r ≠ 0)
    | .plinth q r g => isScratch s q r && decide (r ≠ 47) && decide (1 ≤ (pageHolder s q r g).1) && decide ((pageHolder s q r g).1 ≤ 15)
    | _ => false)

/-- The checks of R240, R353, R354 and R356: the byte offset of the field of the first that fails (R445). -/
def collFault (s : State) (h : Handle) : Option Nat :=
  let hd := h.header
  let n := (handleMembers s h).length
  let me := ownIndex s h
  let sum (l : List Nat) : Nat := l.foldl (· + ·) 0
  let f := (fmtOfCode (hdFmt hd)).getD .fp32
  if hdOp hd = 0 ∨ 7 < hdOp hd then some 61
  else if 9 < hdFmt hd ∨ 9 < hdCombine hd then some 60
  else if n = 0 ∨ me = 0xFFFF then some 60
  else if 8 < hdNext hd then some 59
  else if hdRagged hd && hdOp hd ≠ 4 && sum h.lens ≠ hdTotal hd then some 64
  else if hdDest hd then
    if hdCombine hd ≠ 0 ∨ 4096 < f.rowBytes 1024 then some 60
    else if !(List.range n).all (fun j => decide (sum (h.layout.getD j []) = partLen h n j))
        || decide (h.extents.map (fun x => field x 31 0) ≠ h.layout.getD me []) then some 59
    else none
  else if !bufferOk s (hdLocal hd) (if hdOp hd = 4 then n * hdCap hd + 4 * n
      else if hdOp hd = 1 ∨ hdOp hd = 3 then combineAt (hdCombine hd) (elemBytes h (hdTotal hd))
      else elemBytes h (hdTotal hd)) then some 51
  else if hdOp hd = 4 && !hdRagged hd && decide (hdCap hd < elemBytes h (ceilDiv (hdTotal hd) n)) then some 37
  else none

/-- COLL_SETUP (R352, R353). -/
def kCollSetup (h : CmdHdr) (s : State) : KRes :=
  let hd := leAt h.pb 0 64
  let hn := hdHandle hd
  let c := collLists s hd h.pb
  if hn = 0 ∨ 0xFFF0 ≤ hn then kFail stParameter 62 s
  else if stepActive s ∧ hdTOff hd ≠ 0xFFFFFFFF then kFail stActive 0 s
  else if (handleOf s hn).isSome || (queueDesc s hn).isSome then kFail stBusy 0 s
  else match collFault s c with
    | some o => kFail stParameter o s
    | none =>
      if 4096 ≤ s.fab.handles.length + s.stp.queues.length then kFail stSpace 0 s
      else kOk 0 (setHandle hn (some c) s)

/-- COLL_FREE: refused while the handle runs. -/
def kCollFree (_h : CmdHdr) (handle : W16) (s : State) : KRes :=
  match handleOf s handle.toNat with
  | none => kFail stParameter 0 s
  | some c => if c.run.isSome then kFail stBusy 0 s else kOk 0 (setHandle handle.toNat none s)

/-- A reply's destination for a command as it begins; the management path has no queue. -/
def replyTo (h : CmdHdr) (op : Nat) (s : State) : ReplyTo :=
  { queue := h.queue.toNat, life := if h.mctp then 0 else (queueOf s h.queue.toNat).life, tag := h.tag.toNat, opcode := op, quiet := h.quiet, mctp := h.mctp, begun := none }

/-- COLL_RUN (R355): one run at the named instant; answered at completion. -/
def kCollRun (h : CmdHdr) (handle : W16) (s : State) : KRes :=
  match handleOf s handle.toNat with
  | none => kFail stParameter 0 s
  | some c =>
    if hdTOff c.header ≠ 0xFFFFFFFF then kFail stParameter 0 s
    else if c.run.isSome then kFail stBusy 0 s
    else
      let r := Run.begin h.notBefore.toNat (some (replyTo h 0x0505 s))
      kDefer (setHandle handle.toNat (some { c with
        run := some { r with held := c.early }, early := [] }) s)

/-- The bytes COLL_QUERY writes; the manual names the contents and no layout (log 32). -/
def collRecord (c : Handle) : List Byte :=
  let fids (l : List Nat) : List Byte := leBytes 4 l.length ++ l.flatMap (leBytes 2)
  leBytes 4 (match c.run with | none => 0 | some r => if r.started then 2 else 1) ++ leBytes 4 0
    ++ leBytes 8192 c.lane ++ fids c.excl ++ fids c.slow ++ fids c.mism

/-- COLL_QUERY. -/
def kCollQuery (h : CmdHdr) (handle : W16) (buf : Buf) (s : State) : KRes :=
  withBuf h buf s (match handleOf s handle.toNat with
    | none => kFail stParameter 0 s
    | some c => let d := collRecord c; deliver h buf d id d.length s)

/-- The descriptors of QUEUE_LOAD with their offsets in the parameter block. -/
def queueDescs (pb : List Byte) : List (Nat × Nat) :=
  (List.range (leAt pb 0 4)).map (fun i => (64 + 32 * i, leAt pb (64 + 32 * i) 32))

/-- A descriptor QUEUE_LOAD refuses (R294, R296). -/
def queueDescBad (s : State) (ds : List (Nat × Nat)) (p : Nat × Nat) : Bool :=
  let own := ownFid s
  let d := p.2
  let hn := field d 255 240
  decide (hn = 0) || decide (0xFFF0 ≤ hn) || (handleOf s hn).isSome || decide (sqBytes d % 64 ≠ 0) || decide (sqBytes d = 0)
    || decide (95 < field d 199 192) || decide (95 < field d 181 174)
    || decide (1 < (ds.filter (fun q => field q.2 255 240 = hn)).length)
    || ds.any (fun q => flag q.2 239 ≠ flag d 239 &&
        ((field q.2 231 216 = field d 231 216 && field q.2 199 192 = field d 199 192 && field q.2 191 187 = field d 191 187)
          || (field q.2 215 200 = field d 215 200 && field q.2 167 163 = field d 167 163)))
    || (decide (field d 215 200 = own) && !(pagesOf (sqBase d) (sqBytes d * sqNent d)).all (fun a => match classify a with
        | .plinth p r g => (pageHolder s p r g).2
        | _ => false))

/-- The queues this module receives from are at most 32, each with a slot of its own (R294). -/
def queueSlotsOk (s : State) (ds : List (Nat × Nat)) : Bool :=
  let mine := (ds.map Prod.snd).filter (fun d => field d 215 200 = ownFid s)
  decide (mine.length ≤ 32) && decide (mine.length ≤ (mine.map (fun d => field d 167 163)).eraseDups.length)

/-- QUEUE_LOAD (R294, R296). -/
def kQueueLoad (h : CmdHdr) (s : State) : KRes :=
  let ds := queueDescs h.pb
  if stepActive s then kFail stActive 0 s
  else match ds.find? (queueDescBad s ds) with
    | some p => kFail stParameter p.1 s
    | none =>
      if !queueSlotsOk s ds then kFail stParameter 0 s
      else kOk 0 { s with stp := { s.stp with queues := ds.foldl (fun m p =>
        sput none m (field p.2 255 240) (some { desc := p.2, occ := 0, high := 0, fills := 0 })) [] } }

/-- QUEUE_STATS (R299): 16 bytes per queue in handle order, from the FIRST-th: handle, high-water mark, fills; the
values are cleared (log 32). -/
def kQueueStats (h : CmdHdr) (first n : W16) (buf : Buf) (s : State) : KRes :=
  let qs := (s.stp.queues.filter (fun e => decide (first.toNat ≤ e.1) && decide (e.1 < first.toNat + n.toNat)))
  let data := qs.flatMap (fun e => match e.2 with
    | some q => leBytes 2 e.1 ++ leBytes 6 q.high ++ leBytes 8 q.fills
    | none => [])
  withBuf h buf s (deliver h buf data (fun s =>
    qs.foldl (fun s e => match e.2 with
      | some q => setStageQueue e.1 { q with high := 0, fills := 0 } s
      | none => s) s) data.length s)

/-- EXPERT_TABLE_LOAD (R302). -/
def kExpertTableLoad (h : CmdHdr) (s : State) : KRes :=
  let n := leAt h.pb 0 4
  let es := (List.range n).map (fun i => leAt h.pb (64 + 4 * i) 4)
  let bad (e : Nat) : Bool :=
    decide (field e 31 16 = 0xFFFF) || !s.stp.members.contains (field e 31 16) || decide (field e 15 12 ≠ 0)
      || decide (1 < (es.filter (· = e)).length)
  if stepActive s then kFail stActive 0 s
  else if n = 0 ∨ 4096 < n then kFail stParameter 0 s
  else match es.findIdx? bad with
    | some i => kFail stParameter (64 + 4 * i) s
    | none => kOk 0 { s with stp := { s.stp with expert := es } }

/-- JOB_GROUPS (R276): the groups of the step, and the built-in handles. -/
def kJobGroups (h : CmdHdr) (s : State) : KRes :=
  let r := leAt h.pb 0 4
  let q := leAt h.pb 4 4
  let own := leAt h.pb 8 4
  let ms := (List.range (r * q)).map (fun i => leAt h.pb (64 + 2 * i) 2)
  if stepActive s then kFail stActive 0 s
  else if r = 0 ∨ 65535 < r * q then kFail stParameter 0 s
  else if q = 0 then kFail stParameter 4 s
  else if r * q ≤ own ∨ ms.getD own 0xFFFF ≠ ownFid s then kFail stParameter 8 s
  else match ms.findIdx? (fun m => decide (m = 0xFFFF) || decide (1 < (ms.filter (· = m)).length)) with
    | some i => kFail stParameter (64 + 2 * i) s
    | none => kOk 0 { s with stp := { s.stp with r := r, q := q, own_ := own, members := ms } }

end Sys2Proof.Machine
end

