-- ==== Sys2Proof/Machine/Send.lean ====
section
/-!
DEFINITION. The send unit of a tile, and how running tasks stop at an abort (R96, R98, R113, R349, R356).
-/
namespace Sys2Proof.Machine

/-- Fields of a send body (Table 4-9). -/
structure SendBody where
  fid  : Nat
  dst  : Nat
  src  : Nat
  len  : Nat
  coll : Nat
  off  : Nat
  dest   : Fmt
  frm  : Fmt
  tid  : Nat
  deriving DecidableEq, Repr

/-- Read a send body. -/
def sendBody (w : Nat) : SendBody :=
  let f (c : Nat) : Fmt := (fmtOfCode c).getD .fp32
  { fid := field w 511 496, dst := field w 495 448, src := field w 447 400, len := field w 399 368
    coll := field w 367 352, off := field w 351 320, dest := f (field w 319 316), frm := f (field w 315 312)
    tid := field w 311 296 }

/-- Bytes of a send as they go on the wire: copied where the formats agree, else converted without a scale, with
stochastic rounding under the use code of a send, keyed by the element's place in the collective's buffer (R64, R66, R133).
With them go the elements that are stand-ins for an infinity or a NaN, whose block is to be marked POISON (R65); the frames
of Table 12-3 have no place for the mark (log 70). -/
def sendConvert (s : State) (b : SendBody) (sr : Bool) (data : List Byte) : Tally × List Byte × List Bool :=
  if b.dest = b.frm then (Tally.zero, data, [])
  else
    let n := data.length * 8 / b.frm.width
    let p0 := b.off * 8 / b.dest.width
    let cs := (List.range n).map (fun i =>
      let r := if sr then Round.sr (randWord (randKey s) 2 0 0 b.tid (p0 + i)) else .rne
      b.dest.convert false r (b.frm.decode (b.frm.elemAt data i)) 1 0)
    let y := cs.foldl (fun (y : Tally) c => y.add { sat := bit c.sat, ovf := bit c.ovf, nf := bit c.nf, crush := 0 }) Tally.zero
    (y, b.dest.pack (cs.map (fun c => c.code)), cs.map Conv.poison)

/-- Cut bytes at multiples of 4,096 of their offset, and of `per` where it is not 0. -/
def cutPieces (per : Nat) : Nat → Nat → List Byte → List (Nat × List Byte)
  | 0, _, _ => []
  | f + 1, off, data =>
    if data.isEmpty then []
    else
      let room := if per = 0 then 4096 else min 4096 (per - off % per)
      (off, data.take room) :: cutPieces per f (off + room) (data.drop room)

/-- The port that a flow's next frame goes to: its own, or the one a new flow would be pinned to. -/
def flowPort (s : State) (dst prio : Nat) : Option Nat := match txFlow s dst prio with
  | some f => some f.port
  | none => pinPort s dst prio []

/-- The class is withdrawn from the port that a frame would take (R107, R326). -/
def portWithdrawn (s : State) (prio cls dst : Nat) : Bool := (flowPort s dst prio).any (fun p => withdrawn s (.fabric p) cls)

/-- A native frame to a destination would fail the filter or the reachability (R345, R349). -/
def blocked (s : State) (dst : Nat) : Bool := withheld s dst || s.fab.unreach.contains dst

/-- The other members that bytes at an offset of a collective's buffer go to (R353, R356). -/
def contribDests (s : State) (h : Handle) (off n : Nat) : List Nat :=
  let ms := handleMembers s h
  let me := ownIndex s h
  let (e0, e1) := (elemsOf h off, elemsOf h (off + n))
  let js := match hdOp h.header with
    | 2 => List.range ms.length
    | 5 => List.range ms.length
    | 6 => [0]
    | _ => (List.range ms.length).filter (fun j => decide (partOff h ms.length j < e1)
        && decide (e0 < partOff h ms.length j + partLen h ms.length j))
  (js.filter (· ≠ me)).map (fun j => ms.getD j 0xFFFF)

/-- Bytes of a stage queue entry go to the consumer (R294, R295): written on this module, or as CONTRIB frames in the
queue's priority. Answers whether a frame was refused. -/
def sendQueue (q : StageQueue) (b : SendBody) (cls : Nat) (data : List Byte) (s : State) : Bool × State :=
  let d := q.desc
  let pieces := cutPieces (sqBytes d) (data.length + 1) b.off data
  let dst := field d 215 200
  if dst = ownFid s then (false, pieces.foldl (fun s p => queueArrive b.coll p.1 (genOf s) p.2 s) s)
  else if portWithdrawn s (if flag d 239 then 6 else 5) cls dst then (true, s)
  else
    pieces.foldl (fun (a : Bool × State) p =>
      let last := sqBytes d ≠ 0 && decide ((p.1 + p.2.length) % sqBytes d = 0)
      let (ok, s) := sendFrame { kind := 2, prio := if flag d 239 then 6 else 5, last := last, dst := dst, handle := b.coll
                                 addr := p.1, seq := 0, fmt := fmtCode b.dest, idx := s.stp.own_ } cls p.2 a.2
      (a.1 || !ok, s)) (false, s)

/-- Bytes of a WRITE to another module (R29). -/
def sendWrite (b : SendBody) (cls : Nat) (data : List Byte) (s : State) : Bool × State :=
  if portWithdrawn s 3 cls b.fid then (true, s)
  else (cutPieces 0 (data.length + 1) 0 data).foldl (fun (a : Bool × State) p =>
    let (ok, s) := sendFrame { kind := 1, prio := 3, last := false, dst := b.fid, handle := 0, addr := b.dst + p.1, seq := 0
                               fmt := 0, idx := s.stp.own_ } cls p.2 a.2
    (a.1 || !ok, s)) (false, s)

/-- The lintel die takes a send's bytes: destination filter and reachability are checked, and they go to a stage queue,
a collective or another module. Answers whether the task faults. -/
def sendTake (b : SendBody) (cls : Nat) (data : List Byte) (marks : List Bool) (s : State) : Bool × State :=
  if b.coll = 0 then sendWrite b cls data s
  else match queueDesc s b.coll, handleOf s b.coll with
    | some q, _ => sendQueue q b cls data s
    | none, some h =>
      if fmtCode b.dest ≠ hdFmt h.header then (true, s)
      else
        let dests := contribDests s h b.off data.length
        if dests.any (portWithdrawn s 4 8) then (true, s)
        else (dests.any (blocked s), contribute b.coll b.off data marks s)
    | none, none => (true, s)

/-- Run the first `limit` source bytes of a send. Answers whether the task faults (R107, R180, R326, R349). -/
def sendRun (t i limit : Nat) (s : State) : Bool × State :=
  let w := taskOf s t i
  let b := sendBody w
  let cls := tkClass w
  let n := min b.len limit
  if n = 0 then (false, s)
  else if rangeWithdrawn s cls b.src n then (true, s)
  else
    let (o, s) := readDev (.tile t (progOf s t).domain) cls b.src n s
    let fault := o.bad || decide (0 < o.poison)
    if (tileOf s t).isFenced then (fault, s)
    else
      let (y, data, marks) := sendConvert s b (tkSr w) o.data
      let (bad, s) := sendTake b cls data marks (tallyTile t b.tid y s)
      (fault || bad, s)

/-- SEND_TASK_COMPLETE (R106, R107, R349). -/
def execSendTaskComplete (tile : BitVec 7) (s : State) : Host.Outcome State Fault Refusal :=
  .next (completeTask tile.toNat .send (fun i _ s => sendRun tile.toNat i noLimit s)
    (fun i => (sendBody (taskOf s tile.toNat i)).src) s)

/-- TASK_STOP (R113): a running task of a tile that takes an abort stops at its boundary, with `done` output blocks,
rows or bytes carried out; it emits no tokens and returns no credits. -/
def execTaskStop (tile : BitVec 7) (engine : Engine) (done : W32) (s : State) : Host.Outcome State Fault Refusal :=
  .next (
    let t := tile.toNat
    match (tileOf s t).engine engine with
    | none => s
    | some r =>
      if !r.stopping then s
      else
        let s1 := (match engine with
          | .matrix => matrixRun t r.task done.toNat false r.know s
          | .vector => passRun t r.task done.toNat false r.know s
          | .move => moveRun t r.task (done.toNat / 64 * 64) s
          | .send => sendRun t r.task (done.toNat / 64 * 64) s).2
        reportDone t (setTile s1 t ((tileOf s1 t).setEngine engine none)))

end Sys2Proof.Machine
end

