-- ==== Sys2Proof/Machine/Gather.lean ====
section
/-!
DEFINITION. The gather cache (R232, R233): acquires and releases of bound entries, eviction, and the collectives that fill
them.
-/
namespace Sys2Proof.Machine

/-- The entry bound to a slot of a pier. -/
def gatherOf (s : State) (p slot : Nat) : Option Gather := sget none (pierOf s p).gather slot

/-- Replace the entry bound to a slot. -/
def setGather (p slot : Nat) (g : Gather) (s : State) : State :=
  setPier s p { pierOf s p with gather := sput none (pierOf s p).gather slot (some g) }

/-- Domain 14 can take `n` more pages. -/
def gatherFits (s : State) (p n : Nat) : Bool :=
  decide (pageUse s p 14 + n ≤ quotaOf s p 14) && !(freeRuns s p n).isEmpty

/-- The unpinned entry to evict next: without the keep hint before with it, the oldest first. -/
def evictNext (s : State) (p : Nat) : Option (Nat × Gather) :=
  let es := (pierOf s p).gather.filterMap (fun e => e.2.map (fun g => (e.1, g)))
  let cand (keep : Bool) := es.filter (fun e => e.2.st = .present && decide (e.2.pins = 0) && gdKeep e.2.desc = keep)
  let oldest (l : List (Nat × Gather)) : Option (Nat × Gather) :=
    l.foldl (fun a e => match a with
      | none => some e
      | some b => if e.2.stamp < b.2.stamp then some e else some b) none
  match oldest (cand false) with
  | some e => some e
  | none => oldest (cand true)

/-- Evict until `n` pages fit or nothing is left to evict; the fuel is the number of slots. -/
def gatherEvict (p n : Nat) : Nat → State → State
  | 0, s => s
  | f + 1, s =>
    if gatherFits s p n then s
    else match evictNext s p with
      | none => s
      | some (slot, g) =>
        let s := freePages p g.page (gdPages g.desc) s
        gatherEvict p n f (bump (setGather p slot { g with st := .absent, evicted := true } s) (cPln p 0x330))

/-- A fill starts a run of its handle at once, where that is a COLL_RUN handle with no run in progress; what the module has
contributed to it so far goes with it (R232, R355, log 76). -/
def gatherRun (hn : Nat) (s : State) : State :=
  let s := emit (.collective hn []) s
  match handleOf s hn with
  | none => s
  | some h =>
    if stepBound h || h.run.isSome then s
    else setHandle hn (some { h with run := some { Run.begin (nsOf s) none with held := h.early }, early := [] }) s

/-- Try to start filling an absent or waiting entry: pages, then its collective. -/
def gatherStart (p slot : Nat) (s : State) : State :=
  match gatherOf s p slot with
  | none => s
  | some g =>
    let n := gdPages g.desc
    let s := gatherEvict p n 64 s
    if gatherFits s p n then
      let (first, s) := pickRun (freeRuns s p n) s
      let s := takePages p first n 14 false s
      let s := setGather p slot { g with st := .filling, page := first } s
      let s := if g.evicted then bump s (cPln p 0x338) else s
      gatherRun (gdHandle g.desc) s
    else if g.st = .waiting then s
    else bump (setGather p slot { g with st := .waiting } s) (cPln p 0x340)

/-- An ADD token of 1 to an entry's reply slot. -/
def gatherReply (p : Nat) (g : Gather) (s : State) : State :=
  sendToken (gdEp g.desc) (gdReply g.desc) 0 (0x60 + p) (genOf s) 1 s

/-- GATHER_ACQUIRE (R232). -/
def execGatherAcquire (token : W64) (s : State) : Host.Outcome State Fault Refusal :=
  .next (
    let d := tokDest token
    match arrive (.token token) s with
    | none => s
    | some s =>
      if d < 0x60 ∨ 0x63 < d ∨ tokKind token ≠ 0 then s
      else
        let p := d - 0x60
        match gatherOf s p (tokSlot token) with
        | none => s
        | some g =>
          match g.st with
          | .present => gatherReply p g (setGather p (tokSlot token) { g with pins := g.pins + 1 } s)
          | .absent =>
            gatherStart p (tokSlot token) (setGather p (tokSlot token) { g with pins := g.pins + 1, owed := g.owed + 1 } s)
          | st =>
            let s := setGather p (tokSlot token) { g with pins := g.pins + 1, owed := g.owed + 1 } s
            if st = .waiting then bump s (cPln p 0x340) else s)

/-- Let waiting acquires proceed, in slot order. -/
def gatherRetry (p : Nat) (s : State) : State :=
  (List.range 64).foldl (fun s slot =>
    match gatherOf s p slot with
    | some g => if g.st = .waiting then gatherStart p slot s else s
    | none => s) s

/-- GATHER_RELEASE (R232): a SET token of 0 releases one pin. -/
def execGatherRelease (token : W64) (s : State) : Host.Outcome State Fault Refusal :=
  .next (
    let d := tokDest token
    match arrive (.token token) s with
    | none => s
    | some s =>
      if d < 0x60 ∨ 0x63 < d ∨ tokKind token ≠ 1 ∨ tokValue token ≠ 0 then s
      else
        let p := d - 0x60
        match gatherOf s p (tokSlot token) with
        | none => s
        | some g => gatherRetry p (setGather p (tokSlot token) { g with pins := g.pins - 1 } s))

/-- GATHER_FILL_COMPLETE (R232): the collective has written the entry, with the bytes that the command brings; each waiting
acquire gets its token (log 76). -/
def execGatherFillComplete (pier : BitVec 2) (slot : BitVec 6) (data : List Byte) (s : State) :
    Host.Outcome State Fault Refusal :=
  .next (
    let p := pier.toNat
    match gatherOf s p slot.toNat with
    | none => s
    | some g =>
      if g.st ≠ .filling then s
      else
        let s := writeTo .lintel 8 (pageAddrOf p (g.page / 64) (g.page % 64)) (data.take (0x10000 * gdPages g.desc)) s
        let pr := pierOf s p
        let s := setPier s p { pr with stamp := pr.stamp + 1 }
        let s := setGather p slot.toNat { g with st := .present, stamp := pr.stamp + 1, evicted := false, owed := 0 } s
        (List.range g.owed).foldl (fun s _ => gatherReply p g s) s)

/-- Step begin invalidates and frees every gather entry (R232). -/
def gatherReset (s : State) : State :=
  (List.range 4).foldl (fun s p =>
    let pr := pierOf s p
    setPier s p { pr with
      pages := pr.pages.filter (fun e => e.2.1 ≠ 15)
      gather := pr.gather.map (fun e => (e.1, e.2.map (fun g =>
        { g with st := .absent, pins := 0, page := 0, evicted := false, owed := 0 }))) }) s

end Sys2Proof.Machine
end

