-- ==== Sys2Proof/Machine/Ckpt.lean ====
section
/-!
DEFINITION. Checkpoints to the buddy, restore, and the repair of shards from their replicas (chapter 14, R416 to R427).
-/
namespace Sys2Proof.Machine

/-! ## Items and layout of a slot (R422, Tables 14-5 and 14-6) -/

def ciKind (e : Nat) : Nat := field e 127 124
def ciStack (e : Nat) : Nat := field e 123 121
def ciAddr (e : Nat) : Nat := field e 111 64
def ciSect (e : Nat) : Nat := field e 63 32
def ciFirst (e : Nat) : Nat := field e 31 0

/-- FAB_BUDDY.CKPT_FROM, the module whose checkpoint this module holds. -/
def ckptFrom (s : State) : Nat := field (getReg s (fabBase + 0xC)) 15 0
/-- The module's own site (NPX_SITE.SITE). -/
def siteId (s : State) : Nat := field (getReg s (npxBase + 8)) 31 26

/-- A counter of Table 13-12. -/
def cNpx (o : Nat) : Nat := npxBase + o

/-- Record an exchange event; the first since the last read is kept (Table 13-11). -/
def npxEvent (ev site : Nat) (s : State) : State :=
  let a := npxBase + 0x90
  if flag (getReg s a) 31 then s else setReg s a (2 ^ 31 + ev % 16 * 2 ^ 27 + site % 64 * 2 ^ 21)

/-- Sectors of the CRC table: one CRC-64 for each 1 MiB of each item. -/
def crcSectors (items : List Nat) : Nat :=
  ceilDiv ((items.map (fun e => ceilDiv (ciSect e) 256)).foldl (· + ·) 0 * 8) 4096

/-- Items with FIRST assigned in order after the CRC table. -/
def assignFirst (items : List Nat) : List Nat :=
  (items.foldl (fun (a : List Nat × Nat) e => (a.1 ++ [putField e 31 0 a.2], a.2 + ciSect e)) ([], 1 + crcSectors items)).1

/-- Sectors that a copy of these items needs. -/
def slotSectors (items : List Nat) : Nat := 1 + crcSectors items + (items.map ciSect).foldl (· + ·) 0

/-! ## Firmware records of a restore (log 35) -/

/-- Read a history and what follows it. -/
def readHist (bs : List Byte) : List (Nat × Bool) × List Byte :=
  let n := leAt bs 0 1
  ((List.range n).map (fun i => (leAt bs (1 + 5 * i) 4, decide (leAt bs (5 + 5 * i) 1 = 1))), bs.drop (1 + 5 * n))

/-- Read one tensor's image and what follows it; a record keeps the fields that are no part of a checkpoint. -/
def readTensor (s : State) (bs : List Byte) : (Nat × Tensor) × List Byte :=
  let tid := leAt bs 0 2
  let old := tensorOf s tid
  let fl := leAt bs 15 1
  let (h, r) := readHist (bs.drop 16)
  let (rows, r) := (List.range (leAt r 0 4)).foldl (fun (a : Sparse (List (Nat × Bool)) × List Byte) _ =>
    let row := leAt a.2 0 4
    let (x, rest) := readHist (a.2.drop 4)
    (sput [] a.1 row x, rest)) (([] : Sparse (List (Nat × Bool))), r.drop 4)
  ((tid, { old with margin := leAt bs 2 4, hostScale := leAt bs 6 4, scale := leAt bs 10 4, depth := leAt bs 14 1
                    hostLock := flag fl 0, pow2 := flag fl 1, perRow := flag fl 2, src := fl / 16 % 4
                    seedPending := false, seedAmax := none, next := none, hist := h, rowHist := rows }), r)

/-- Make restored firmware records current (R426). -/
def applyFwRecords (bs : List Byte) (s : State) : State :=
  let ng := leAt bs 0 4
  let s := (List.range ng).foldl (fun s i =>
    modGroup (leAt bs (4 + 66 * i) 2) (fun r => { r with raw := leAt bs (6 + 66 * i) 64, next := none, unfreeze := false }) s) s
  let r := bs.drop (4 + 66 * ng)
  ((List.range (leAt r 0 4)).foldl (fun (a : State × List Byte) _ =>
    let (t, rest) := readTensor a.1 a.2
    (setTensor a.1 t.1 t.2, rest)) (s, r.drop 4)).1

/-- A restore without the firmware records empties every history, so that the next step seeds (R61). -/
def dropHistories (s : State) : State :=
  { s with tensors := s.tensors.map (fun e => (e.1, { e.2 with hist := [], rowHist := [], seedAmax := none, seedPending := false })) }

/-! ## Making a copy (R423, R424) -/

/-- Read an item's plaintext in class 10; the firmware records and histories lie in the firmware area (R25, R61). -/
def readItem (e : Nat) (s : State) : List Byte × State :=
  let (r, s') := readDev .lintel 10 (ciAddr e) (4096 * ciSect e) s
  (fwShown s (ciAddr e) r.data, s')

/-- Read the plaintext of every item, in item order. -/
def readItems (items : List Nat) (s : State) : List (List Byte) × State :=
  items.foldl (fun a e =>
    let (d, s) := readItem e a.2
    (a.1 ++ [d], s)) ([], s)

/-- The CRC of each 1 MiB of an item's plaintext. -/
def itemCrcs (data : List Byte) : List Byte := (chunks 1048576 data).flatMap (fun c => leBytes 8 (crc64 c))

/-- The tweak of a sector (R423). -/
def sectorTweak (src useCk no site k : Nat) : Nat :=
  src % 2 ^ 16 * 2 ^ 112 + useCk % 2 ^ 32 * 2 ^ 80 + no % 2 ^ 32 * 2 ^ 48 + site % 64 * 2 ^ 42 + k % 2 ^ 42

/-- The nonce of sector 0. -/
def manifestNonce (src useCk no site : Nat) : Nat :=
  src % 2 ^ 16 * 2 ^ 80 + useCk % 2 ^ 32 * 2 ^ 48 + no % 2 ^ 32 * 2 ^ 16 + site % 64 * 2 ^ 10

/-- The key in a slot. -/
def slotKey (s : State) (n : Nat) : Option (List Byte) := (sget none s.sec.slots n).map KeySlot.key

/-- The manifest header of a copy (Table 14-5). -/
def manifestHeader (s : State) (c : Copy) : Nat :=
  let items := s.ck.items
  2 ^ 504 + ownFid s * 2 ^ 480 + jobId s % 2 ^ 32 * 2 ^ 448 + c.outer % 2 ^ 32 * 2 ^ 416 + c.step % 2 ^ 64 * 2 ^ 352
    + c.no % 2 ^ 32 * 2 ^ 320 + items.length % 2 ^ 16 * 2 ^ 304 + crcSectors items % 2 ^ 32 * 2 ^ 272
    + (items.map ciSect).foldl (· + ·) 0 % 2 ^ 32 * 2 ^ 240 + s.sec.useCk % 2 ^ 32 * 2 ^ 208 + siteId s % 64 * 2 ^ 202

/-- Sector 0 of a copy: the header in clear, the sealed item table, the tag. -/
def manifestSector (s : State) (c : Copy) : List Byte :=
  let hd := leBytes 64 (manifestHeader s c)
  let table := slice (s.ck.items.flatMap (leBytes 16)) 0 4016
  let key := (slotKey s 17).getD []
  let (ct, tag) := gcmSeal (slice key 0 32) (manifestNonce (ownFid s) s.sec.useCk c.no (siteId s)) hd table
  hd ++ ct ++ tag

/-- First address of a slot at the holder (R421). -/
def slotBase (s : State) (j : Nat) : Nat := s.fab.areaAt * 2 ^ 30 + j * (s.fab.area / 2)

/-- Send a sector to the holder as a WRITE frame of the copy's flow. -/
def sendSector (j k : Nat) (data : List Byte) (s : State) : State :=
  (sendFrame { kind := 1, prio := 2, last := false, dst := ckptTo s, handle := 0, addr := slotBase s j + 4096 * k, seq := 0
               fmt := 0, idx := 0 } 10 data s).2

/-- The sectors of a copy after sector 0: the CRC table and the items' data, encrypted. -/
def copySectors (s : State) (c : Copy) (datas : List (List Byte)) : List (Nat × List Byte) :=
  let crcs := slice (datas.flatMap itemCrcs) 0 (4096 * crcSectors s.ck.items)
  let plain := chunks 4096 (crcs ++ datas.flatten)
  let key := (slotKey s 16).getD []
  (List.zip (List.range plain.length) plain).map (fun p =>
    (p.1 + 1, xtsSector true key (sectorTweak (ownFid s) s.sec.useCk c.no (siteId s) (p.1 + 1)) p.2))

/-- The holder can be copied to now: the pairing stands, it is reachable, no stack of the module is stopped, and the
keys are loaded (R368, R425, R495). -/
def holderReady (s : State) : Bool :=
  decide (ckptTo s ≠ 0xFFFF) && decide (s.fab.buddy = 1) && !s.fab.unreach.contains (ckptTo s)
    && (List.range 8).all (fun k => !(stackOf s k).stopped) && decide (s.pwr.state = 0)
    && (slotKey s 16).isSome && (slotKey s 17).isSome && !s.ck.items.isEmpty

/-- Ask the holder to confirm the pairing (R368); the request names the two ends (log 32). -/
def askBuddy (s : State) : State :=
  if ckptTo s = 0xFFFF then s else sendCtrl (ckptTo s) 0 5 0 ([0] ++ leBytes 2 (ckptTo s) ++ leBytes 2 (ownFid s)) s

/-- Send steps 1 and 2 of a copy: sector 0 zeroed, then the CRC table and the items (R424). Each copy takes the next
copy number, and what its slot held is gone. -/
def sendCopy (c : Copy) (s : State) : State :=
  let c := { c with no := s.ck.copyNo, stage := 1, paused := false }
  let s := { s with ck := { s.ck with copy := some c, copyNo := s.ck.copyNo + 1, there := sput none s.ck.there c.slot none } }
  let (datas, s) := readItems s.ck.items s
  let secs := copySectors s c datas
  let s := sendSector c.slot 0 (List.replicate 4096 0) s
  secs.foldl (fun s p => sendSector c.slot p.1 p.2 s) s

/-- The slot that does not hold the newest complete copy. -/
def nextSlot (s : State) : Nat :=
  let step (j : Nat) : Option Nat := (sget none s.ck.there j).map (fun c => c.2.1)
  match step 0, step 1 with
  | none, _ => 0
  | _, none => 1
  | some a, some b => if a < b then 0 else 1

/-- At an outer-step boundary the copy of the module's state starts (R37, R424). -/
def startCopy (outer step : Nat) (s : State) : State :=
  if s.ck.items.isEmpty || decide (ckptTo s = 0xFFFF) then s
  else
    let c : Copy := { start := nsOf s, outer := outer, step := step, no := 0, slot := nextSlot s, stage := 0, paused := false, check := 0 }
    let s := { s with ck := { s.ck with copy := some c } }
    if holderReady s then sendCopy c s else pauseCopy true (askBuddy s)

/-- CKPT_COPY_COMPLETE (R424): every frame is acknowledged, sector 0 is written last, and a waiting update may
begin. -/
def execCkptCopyComplete (s : State) : Host.Outcome State Fault Refusal :=
  .next (match s.ck.copy with
    | none => s
    | some c =>
      let acked := (txFlow s (ckptTo s) 2).all (fun f => f.unacked.isEmpty)
      if c.stage ≠ 1 || c.paused || !acked || s.fab.unreach.contains (ckptTo s) then s
      else
        let s := sendSector c.slot 0 (manifestSector s c) s
        faultEvent 9 0 0 c.outer { s with ck := { s.ck with
          copy := none, there := sput none s.ck.there c.slot (some (c.outer, c.step, c.no)) } })

/-- CKPT_PAUSE_RETRY (R425): a paused copy checks its holder again every 1 ms; one that runs pauses where its holder is no
longer ready. -/
def execCkptPauseRetry (s : State) : Host.Outcome State Fault Refusal :=
  .next (match s.ck.copy with
    | none => s
    | some c =>
      if !c.paused then (if holderReady s then s else pauseCopy false s)
      else if nsOf s < c.check + 1000000 then s
      else if !holderReady s then askBuddy { s with ck := { s.ck with copy := some { c with check := nsOf s } } }
      else if c.stage = 0 then sendCopy c s
      else { s with ck := { s.ck with copy := some { c with paused := false } } })

/-- CKPT_ABANDON (R425): a copy not complete HOLD_S seconds after its boundary is abandoned. -/
def execCkptAbandon (s : State) : Host.Outcome State Fault Refusal :=
  .next (match s.ck.copy with
    | none => s
    | some c =>
      let hold := if s.ck.holdS = 0 then 60 else s.ck.holdS
      if nsOf s < c.start + hold * 1000000000 then s
      else postEvent 0x0013 c.outer 0 (faultEvent 14 0 0 c.outer { s with ck := { s.ck with copy := none } }))

/-! ## Commands (Table 14-8) -/

/-- A range lies in an item of a kind and stack. -/
def covered (items : List Nat) (kind k a n : Nat) : Bool :=
  decide (n = 0) || items.any (fun e => decide (ciKind e = kind) && decide (ciStack e = k) && decide (ciAddr e ≤ a)
    && decide (a + n ≤ ciAddr e + 4096 * ciSect e))

/-- Bytes of a shard's second moments, or Adafactor factors. -/
def secondLen (d : Nat) : Nat :=
  if sdOpt d = 5 then 2 * up4k (4 * adaRows d) + 2 * up4k (4 * sdRowlen d) else 4 * sdN d

/-- The items cover a shard (R422). -/
def shardCovered (items : List Nat) (k d : Nat) : Bool :=
  covered items 1 k (sdW d) (4 * sdN d) && (decide (sdM d = 0) || covered items 2 k (sdM d) (4 * sdN d))
    && (decide (sdV d = 0) || covered items 2 k (sdV d) (secondLen d))
    && covered items 3 k (sdStamp d) (8 * sdBlocks d) && covered items 3 k (sdFp d) (8 * sdPrints d)

/-- Bytes that the group records, scale records and full histories of every tensor known take where they are read (log
35). -/
def fwRecordRoom (s : State) : Nat :=
  8 + 66 * (groupImages s).length + (s.tensors.map (fun e => 341 + 325 * e.2.rowHist.length)).foldl (· + ·) 0

/-- The items cover the firmware records: the step record and group check table of some stack, and the group records, scale
records and histories (R61, R422). -/
def fwCovered (s : State) (items : List Nat) : Bool :=
  (List.range 8).any (fun k => covered items 5 k (fwAddr k 0x1000) 64 && covered items 5 k (fwAddr k 0x8000) 16384)
    && covered items 5 0 (fwAddr 0 fwRecordOff) (fwRecordRoom s)

/-- CKPT_CONFIG (R422). -/
def kCkptConfig (h : CmdHdr) (s : State) : KRes :=
  let n := leAt h.pb 0 2
  let hold := leAt h.pb 2 2
  let items := (List.range n).map (fun i => leAt h.pb (64 + 16 * i) 16)
  if stepActive s then kFail stActive 0 s
  else if n = 0 ∨ 251 < n then kFail stParameter 0 s
  else if 3600 < hold then kFail stParameter 2 s
  else match items.findIdx? (fun e => decide (ciKind e = 0) || decide (5 < ciKind e) || decide (ciSect e = 0)) with
    | some i => kFail stParameter (64 + 16 * i) s
    | none =>
      if !(allShards s).all (fun p => shardCovered items p.1 p.2.2.desc) || !fwCovered s items then kFail stParameter 64 s
      else if s.fab.buddy ≠ 1 then kFail stConfiguration 0 s
      else if s.fab.area / 2 < 4096 * slotSectors items then kFail stSpace (slotSectors items) s
      else kOk (slotSectors items) { s with ck := { s.ck with items := assignFirst items, holdS := hold } }

/-- What is complete in a slot this module holds for CKPT_FROM: OUTER, STEP and COPY_NO (R424). -/
def heldSlot (s : State) (j : Nat) : Option (Nat × Nat × Nat) :=
  let r := getReg s (fabBase + 0x10)
  if !flag r 31 then none
  else
    let size := (field r 21 13 + 1 - field r 30 22) * 2 ^ 30
    let w := viewLe s .lintel (field r 30 22 * 2 ^ 30 + j * (size / 2)) 64
    if field w 511 504 = 1 ∧ field w 479 448 = jobId s ∧ field w 495 480 = ckptFrom s then
      some (field w 447 416, field w 415 352, field w 351 320)
    else none

/-- What CKPT_QUERY writes: 24 bytes for each slot (valid, OUTER, STEP, COPY_NO), the holder's two and this module's two,
then the copy state (log 32). -/
def ckptRecord (s : State) : List Byte :=
  let slot (c : Option (Nat × Nat × Nat)) : List Byte := match c with
    | none => List.replicate 24 0
    | some (o, st, no) => leBytes 4 1 ++ leBytes 4 o ++ leBytes 8 st ++ leBytes 4 no ++ leBytes 4 0
  slot (sget none s.ck.there 0) ++ slot (sget none s.ck.there 1) ++ slot (heldSlot s 0) ++ slot (heldSlot s 1)
    ++ (match s.ck.copy with
      | none => leBytes 4 0
      | some c => leBytes 4 (1 + c.stage + 4 * bit c.paused))

/-- CKPT_QUERY. -/
def kCkptQuery (h : CmdHdr) (buf : Buf) (s : State) : KRes :=
  withBuf h buf s (let d := ckptRecord s; deliver h buf d id d.length s)

/-- Mark every loaded shard invalid after a failed restore (R426). -/
def restoreFailed (s : State) : KRes :=
  let s := (allShards s).foldl (fun s p => match shardOf s p.1 p.2.1 with
    | some sh => setShard p.1 p.2.1 { sh with invalid := true } s
    | none => s) s
  kFail stIntegrity 0 (faultEvent 12 0 0 0 s)

/-- Decrypt and check a slot's image: its header, and its items with their data. -/
def openSlot (s : State) (image : List Byte) : Option (List (Nat × List Byte)) :=
  let w := leAt image 0 64
  let (src, use, no, site) := (field w 495 480, field w 239 208, field w 351 320, field w 207 202)
  match slotKey s 16, slotKey s 17 with
  | some k16, some k17 =>
    match gcmOpen (slice k17 0 32) (manifestNonce src use no site) (slice image 0 64) (slice image 64 4016) (slice image 4080 16) with
    | none => none
    | some table =>
      let items := (List.range (field w 319 304)).map (fun i => leAt table (16 * i) 16)
      let sect (k : Nat) : List Byte := xtsSector false k16 (sectorTweak src use no site k) (slice image (4096 * k) 4096)
      let crcs := (List.range (field w 303 272)).flatMap (fun i => sect (1 + i))
      let datas := items.map (fun e => (e, (List.range (ciSect e)).flatMap (fun i => sect (ciFirst e + i))))
      if datas.flatMap (fun p => itemCrcs p.2) = slice crcs 0 ((datas.flatMap (fun p => itemCrcs p.2)).length) then some datas else none
  | _, _ => none

/-- The copies of a slot newer than the target are voided at the holder (R427). -/
def voidNewer (step : Nat) (s : State) : State :=
  [0, 1].foldl (fun s j => match sget none s.ck.there j with
    | some c => if step < c.2.1 then
        sendSector j 0 (List.replicate 4096 0) { s with ck := { s.ck with there := sput none s.ck.there j none } }
      else s
    | none => s) s

/-- Write restored items in place: memory, and the firmware records where an item carries them (R61, R426). -/
def writeItems (datas : List (Nat × List Byte)) (s : State) : State :=
  let base := fwAddr 0 fwRecordOff
  let s := datas.foldl (fun s p => writeTo .lintel 10 (ciAddr p.1) p.2 s) s
  match datas.find? (fun p => decide (ciKind p.1 = 5) && decide (ciAddr p.1 ≤ base) && decide (base < ciAddr p.1 + 4096 * ciSect p.1)) with
  | some p => applyFwRecords (p.2.drop (base - ciAddr p.1)) s
  | none => dropHistories s

/-- Restored weights become the boundary weights, residuals are +0, and the marks clear (R170, R426). -/
def settleShards (s : State) : State :=
  (allShards s).foldl (fun s p =>
    let d := p.2.2.desc
    let ws := (List.range (sdN d)).map (fun e => loadLe s (sdW d + 4 * e) 4)
    let s := setOuter p.1 p.2.1 { outerOf s p.1 p.2.1 with wb := ws, efr := [], stage := [] } s
    match shardOf s p.1 p.2.1 with
    | some sh => setShard p.1 p.2.1 { sh with torn := false, invalid := false, eccMark := false } s
    | none => s) s

/-- The contents of a slot put back, with the journal retired. -/
def slotRestored (datas : List (Nat × List Byte)) (s : State) : State :=
  journalSlots.foldl (fun s e => if (liveEntry s e.1 e.2.1 e.2.2).isSome then retireEntry e.1 e.2.1 e.2.2 s else s)
    (writeItems datas s)

/-- Every fingerprint of the restored shards is that of their weights (R427). -/
def printsGood (s : State) : Bool :=
  (allShards s).all (fun p =>
    let d := p.2.2.desc
    (List.range (sdPrints d)).all (fun m =>
      decide (loadLe s (sdFp d + 8 * m) 8 = crc64 (bytesAt s (sdW d + 1048576 * m) (4 * min 262144 (sdN d - 262144 * m))))))

/-- The step control of a module after a restore from a manifest: idle at the copy's step. -/
def restoreEnded (w : Nat) (s : State) : State :=
  let r := s.stp.rc
  let s := writeRecord { r with step := field w 415 352, seq := (r.seq + 1) % 2 ^ 32, state := 0, staged := false
                                decision := 0, outer := field w 447 416 } (settleShards s)
  let s := stageFree 12 { s with stp := { s.stp with deltaDue := false }, ck := { s.ck with repair := [] } }
  faultEvent 11 0 0 (field w 447 416) (voidNewer (field w 415 352) s)

/-- CKPT_RESTORE (R426, R427); what the holder's slot holds comes with the command. -/
def kCkptRestore (h : CmdHdr) (outer : W32) (s : State) : KRes :=
  let w := leAt h.hostData 0 64
  if stepActive s then kFail stActive 0 s
  else if s.pwr.fenced then kFail stThermal 0 s
  else if field w 511 504 ≠ 1 ∨ field w 479 448 ≠ jobId s ∨ field w 495 480 ≠ ownFid s ∨ field w 447 416 ≠ outer.toNat then
    kFail stParameter 0 s
  else match openSlot s h.hostData with
    | none => restoreFailed s
    | some datas =>
      if printsGood (slotRestored datas s) then kOk 0 (restoreEnded w (slotRestored datas s))
      else restoreFailed (slotRestored datas s)

/-- The shards a REPLICA_REPAIR names: stack and index. -/
def repairList (h : CmdHdr) : List (Nat × Nat) :=
  (List.range (leAt h.pb 4 4)).map (fun i => (field (leAt h.pb (64 + 2 * i) 2) 13 11, field (leAt h.pb (64 + 2 * i) 2) 10 0))

/-- REPLICA_REPAIR, ACTION 0: names the source replica for suspect blocks before the next begin (Table 14-4). -/
def kReplicaRepairNameSource (h : CmdHdr) (s : State) : KRes :=
  let rep := leAt h.pb 2 2
  let l := repairList h
  if stepActive s then kFail stLate 0 s
  else if s.stp.r ≤ rep then kFail stParameter 2 s
  else match l.findIdx? (fun p => (shardOf s p.1 p.2).isNone) with
    | some i => kFail stParameter (64 + 2 * i) s
    | none => kOk 0 { s with ck := { s.ck with
        named := l.foldl (fun m p => sput none m (shardKey p.1 p.2) (some rep)) s.ck.named } }

/-- Adopt one shard of a catch-up from its bytes: moments, weights, records; the copy and fingerprints follow. -/
def adoptShard (k i : Nat) (bs : List Byte) (s : State) : List Byte × State :=
  match shardOf s k i with
  | none => (bs, s)
  | some sh =>
    let d := sh.desc
    let take (a n : Nat) (p : List Byte × State) : List Byte × State :=
      if a = 0 then p else (p.1.drop n, unitStore k a (slice p.1 0 n) p.2)
    let p := take (sdM d) (4 * sdN d) (bs, s)
    let p := take (sdV d) (secondLen d) p
    let p := take (sdW d) (4 * sdN d) p
    let p := take (sdStamp d) (8 * sdBlocks d) p
    let s := (List.range (sdPrints d)).foldl (fun s m => printBlock k d m s) p.2
    (p.1, setShard k i { sh with torn := false, invalid := false, eccMark := false } (faultEvent 7 k i 0 s))

/-- The shards listed taken over from the source's bytes; what follows them is left. -/
def catchUpShards (l : List (Nat × Nat)) (data : List Byte) (s : State) : List Byte × State :=
  l.foldl (fun (a : List Byte × State) p => adoptShard p.1 p.2 a.1 a.2) (data, s)

/-- The step record and the firmware records taken over, and the copies written again. -/
def catchUpRecords (l : List (Nat × Nat)) (r : StepRec) (fw : List Byte) (s : State) : State :=
  let s := applyFwRecords fw (writeRecord { r with state := 0, staged := false } s)
  l.foldl (fun s p => match shardOf s p.1 p.2 with
    | some sh => (List.range (sdBlocks sh.desc)).foldl (fun s b => writeCopy p.1 p.2 sh.desc b s) s
    | none => s) s

/-- REPLICA_REPAIR, ACTION 1: the catch-up of a module whose step ended with outcome 0x7 (R419). The source's shards, in
the order listed, its step record and its firmware records come with the command. -/
def kReplicaRepairCatchUp (h : CmdHdr) (s : State) : KRes :=
  let l := repairList h
  if stepActive s then kFail stActive 0 s
  else if s.stp.rc.outcome ≠ 7 then kFail stConfiguration 0 s
  else match l.findIdx? (fun p => (shardOf s p.1 p.2).isNone) with
    | some i => kFail stParameter (64 + 2 * i) s
    | none =>
      let blocks := (l.map (fun p => ((shardOf s p.1 p.2).map (fun sh => sdPrints sh.desc)).getD 0)).foldl (· + ·) 0
      let a := catchUpShards l h.hostData s
      match readRecord (slice a.1 0 64) with
      | none => kFail stIntegrity 0 s
      | some r => kOk blocks (bumpN (catchUpRecords l r (a.1.drop 64) a.2) (cFault 7) (blocks - l.length))

/-- The source of a differing block by Table 14-4: replica, the counter's row, and whether it is suspect. Members are
(replica, mark, fingerprint) in ascending replica order. -/
def blockSource (ms : List (Nat × Bool × Nat)) (named : Option Nat) : Nat × Nat × Bool :=
  let count (f : Nat) : Nat := (ms.filter (fun m => m.2.2 = f)).length
  let best := ms.foldl (fun a m => max a (count m.2.2)) 0
  let top := ms.filter (fun m => count m.2.2 = best)
  let lowest (l : List (Nat × Bool × Nat)) : Nat := ((l.map (fun m => m.1)).foldl (fun (a : Option Nat) r => match a with
    | some x => some (min x r)
    | none => some r) none).getD 0
  let suspect := match named with
    | some r => if top.any (fun m => m.1 = r) then r else lowest top
    | none => lowest top
  if ms.length < 3 then
    match ms.filter (fun m => m.2.1) with
    | [_] => (lowest (ms.filter (fun m => !m.2.1)), 5, false)
    | _ => (suspect, 6, true)
  else if ms.length < 2 * best then (lowest top, 4, false)
  else (suspect, 6, true)

/-- Write a repaired block in the order of R418, and adopt the source's fingerprint. -/
def copyBlock (k i d m print : Nat) (data : RepairData) (s : State) : State :=
  let n := 4 * min 262144 (sdN d - 262144 * m)
  let s := if sdM d ≠ 0 then unitStore k (sdM d + 1048576 * m) (slice data.moments 0 n) s else s
  let s := if sdOpt d = 5 then unitStore k (sdV d) (slice data.second 0 (secondLen d)) s
    else if elemV (sdOpt d) then unitStore k (sdV d + 1048576 * m) (slice data.second 0 n) s else s
  let s := data.copy.foldl (fun s p => if inStack s k p.1.toNat p.2.length then unitStore k p.1.toNat p.2 s else s) s
  let s := unitStore k (sdW d + 1048576 * m) (slice data.weights 0 n) s
  let s := unitStore k (recordAddr d (256 * m)) (slice data.records 0 (8 * ceilDiv n 4096)) s
  let s := corbelStore k (sdFp d + 8 * m) 8 print s
  faultEvent 7 k i m s

/-- A shard's repair is over; with the last one the checkpoint agent frees its staging pages (R223, R418, log 71). -/
def repairDone (k i : Nat) (s : State) : State :=
  let left := s.ck.repair.filter (· ≠ (k, i))
  let s := { s with ck := { s.ck with
    repair := left, named := sput none s.ck.named (shardKey k i) none
    suspect := s.ck.suspect.filter (fun b => decide ((b.1, b.2.1) ≠ (k, i))) } }
  if left.isEmpty then stageFree 12 s else s

/-- A shard is to be repaired; with the first one the checkpoint agent takes SHARED staging pages of domain 12 (R223, R418,
log 71). -/
def repairDue (k i : Nat) (s : State) : State :=
  if s.ck.repair.contains (k, i) then s
  else
    let s := if s.ck.repair.isEmpty then (stageTake 12 64 true s).2 else s
    { s with ck := { s.ck with repair := s.ck.repair ++ [(k, i)] } }

/-- A block is marked suspect, and the host learns of it (Table 14-4). -/
def markSuspect (k i m : Nat) (s : State) : State :=
  if s.ck.suspect.contains (k, i, m) then s
  else postEvent 0x0008 (shardDetail k i + m % 4096 * 2 ^ 16) (6 * 4096 + k)
    (faultEvent 6 k i m { s with ck := { s.ck with suspect := s.ck.suspect ++ [(k, i, m)] } })

/-- REPAIR_COMPLETE (R417, R418): the tables of the replica set name each differing block's source; a member that does
not hold the source's fingerprint takes the block. A suspect block waits for the begin instant of the next step unless the
host has named its source. The shard's repair is over once every block agrees; a torn or invalid shard takes no part
(R420). -/
def execRepairComplete (stack : BitVec 3) (shard : BitVec 11) (block : W16) (tables : List MemberTable) (data : RepairData)
    (s : State) : Host.Outcome State Fault Refusal :=
  .next (
    let (k, i, m) := (stack.toNat, shard.toNat, block.toNat)
    match shardOf s k i with
    | none => s
    | some sh =>
      let d := sh.desc
      if !s.ck.repair.contains (k, i) || sh.torn || sh.invalid || decide (sdPrints d ≤ m) || decide (s.stp.q = 0) then s
      else
        let me := s.stp.own_ / s.stp.q
        let own (s : State) (b : Nat) : Nat := loadLe s (sdFp d + 8 * b) 8
        let members (s : State) (b : Nat) : List (Nat × Bool × Nat) :=
          (me, sh.eccMark, own s b) :: tables.map (fun t => (t.replica.toNat, t.mark, (t.prints.getD b 0).toNat))
        let named := sget none s.ck.named (shardKey k i)
        let ms := members s m
        let differs := ms.any (fun x => x.2.2 ≠ own s m)
        let (src, row, suspect) := blockSource ms named
        let print := ((ms.find? (fun x => x.1 = src)).map (fun x => x.2.2)).getD (own s m)
        let s := if !differs then s else if suspect then markSuspect k i m s else faultEvent row k i m s
        let waits (sus : Bool) : Bool := sus && named.isNone && !stepActive s
        let s := if differs && !waits suspect && decide (print ≠ own s m) then copyBlock k i d m print data s else s
        let agreed := (List.range (sdPrints d)).all (fun b =>
          let ms := members s b
          let (src, _, sus) := blockSource ms named
          ms.all (fun x => x.2.2 = own s b)
            || (!waits sus && (ms.find? (fun x => x.1 = src)).all (fun x => x.2.2 = own s b)))
        if agreed then repairDone k i s else s)

end Sys2Proof.Machine
end

