-- ==== Sys2Proof/Machine/StepCtl.lean ====
section
/-!
DEFINITION. Step control: beginning a step, the check, the abort, the update and the commit (chapter 10, with R31 to
R39, R56 to R61, R252, R263 and R416).
-/
namespace Sys2Proof.Machine

/-! ## Counters and events of a step -/

/-- Replace the step control state. -/
def setStp (f : StepCtl → StepCtl) (s : State) : State := { s with stp := f s.stp }

/-- Tiles that hold a program. -/
def programTiles (s : State) : List Nat := (List.range 96).filter (fun t => (tileOf s t).prog.isSome)

/-- The step-end word (Table 10-7). -/
def stepEndWord (s : State) (outcome : Nat) : Nat :=
  let p := s.stp
  let c := p.comb
  outcome % 16 * 2 ^ 28 + bit (c.any CheckWord.s) * 2 ^ 27 + bit (c.any CheckWord.f) * 2 ^ 26
    + bit (c.any CheckWord.a) * 2 ^ 25 + bit s.cbl.chkOver * 2 ^ 24 + bit p.late * 2 ^ 23 + bit p.seeded * 2 ^ 22
    + bit p.rebased * 2 ^ 21 + bit p.boundary * 2 ^ 20 + bit p.resumed * 2 ^ 19 + bit p.localS * 2 ^ 18
    + ((c.map CheckWord.first).getD 0xFFFF) % 2 ^ 16

/-- Post the replies that wait for the step's end (R285, R289 step 4, R292). -/
def postStepEnd (outcome : Nat) (s : State) : State :=
  let w := stepEndWord s outcome
  let s1 := match s.stp.reply with
    | some r => postReply r true 0 w s
    | none => s
  let s2 := match s.stp.resumeReply with
    | some r => postReply r false 0 w s1
    | none => s1
  setStp (fun p => { p with endWord := w, reply := none, resumeReply := none }) s2

/-! ## Scales at step begin (R57 to R60, R246) -/

/-- The delayed scale of one history (R57): scale and source, none where the group must seed. -/
def groupScale (t : Tensor) (hist : List (Nat × Bool)) : Option (Nat × Nat) :=
  if t.hostLock then some (t.hostScale, 2)
  else match hist.take (t.depth + 1) with
    | [] => none
    | es =>
      let h := es.foldl (fun a e => fmax a (f32 e.1)) FVal.zero
      some (delayedScale ((fmtOfCode (t.fmt - 1)).getD .fp32) t.pow2 t.margin h, if es.all Prod.snd then 1 else 0)

/-- Rows of a per-row tensor: the most that a loaded descriptor of it declares. -/
def tensorRows (s : State) (tid : Nat) : Nat :=
  ((loadedDescs s).filter (fun d => d.tid = tid)).foldl (fun a d => max a d.rows) 0

/-- Compute a tensor's scales at step begin. A PER_ROW record has one SRC for all its rows: the model takes row 0's, and the
seed code while any row lacks a history; and it gives a tensor of more than 65,536 rows a group for every row all the same.
DESIGN CHOICE (log 79), unsafe. -/
def scaleTensor (tid : Nat) (s : State) : State :=
  let t := tensorOf s tid
  if t.perRow then
    let rows := List.range (tensorRows s tid)
    let sc (r : Nat) : Option (Nat × Nat) := groupScale t (sget [] t.rowHist r)
    let missing := rows.any (fun r => (sc r).isNone)
    let src := if missing then 1 else (((List.range 1).filterMap sc).map Prod.snd).headD t.src
    let s := setTensor s tid { t with scale := 0, seedPending := missing, src := src }
    rows.foldl (fun s r => match sc r with
      | some w => storeRowScale tid r w.1 s
      | none => s) s
  else match groupScale t t.hist with
    | some (w, src) => setTensor s tid { t with scale := w, src := src }
    | none => setTensor s tid { t with seedPending := true }

/-- A tensor's record at step begin: the RW fields last written come into force but for DEPTH, and its scale or grid
is fixed (R56, R57, R59, R246). -/
def beginTensor (tid : Nat) (s : State) : State :=
  let t := tensorOf s tid
  let t := match t.next with
    | some (m, h, _, fl) =>
      { t with margin := m, hostScale := h, hostLock := flag fl 0, pow2 := flag fl 1, perRow := flag fl 2 }
    | none => t
  let s := setTensor s tid { t with seedPending := false, seedAmax := none, prev := some (t.scale, t.src) }
  if isGridRecord s tid then fixGrid tid s
  else if t.fmt = 0 then s
  else scaleTensor tid s

/-- Tensors with a record that a step begin treats: those listed and the loaded shards' gradient tensors. -/
def stepTensors (s : State) : List Nat :=
  (s.tensors.map Prod.fst ++ (allShards s).map (fun p => sdGrad p.2.2.desc)).eraseDups

/-- Scale groups of a tensor that seed in this step (R58). -/
def seedGroups (s : State) (tid : Nat) : Nat :=
  let t := tensorOf s tid
  if !t.seedPending then 0
  else if t.perRow then ((List.range (tensorRows s tid)).filter (fun r => (groupScale t (sget [] t.rowHist r)).isNone)).length
  else 1

/-- Every delayed scale and grid exponent, with the groups that seed counted (R280 step 3). -/
def beginScales (s : State) : State :=
  let ids := stepTensors s
  let s := ids.foldl (fun s i => beginTensor i s) s
  let n := (ids.map (seedGroups s)).foldl (· + ·) 0
  setStp (fun p => { p with seeded := decide (0 < n) }) (bumpN s (cStep 8) n)

/-! ## STEP_BEGIN (R279, R280) -/

/-- Clear what the corbel units and tiles keep per step (R138, R243, R247, R251, R262). -/
def clearStep (s : State) : State :=
  { s with
    openBlk := []
    tiles := s.tiles.map (fun e => (e.1, { e.2 with amaxLog := [] }))
    cbl := { s.cbl with
      norm := Exact.zero, contrib := [], copyAmax := [], ratio := [], lamb := [], adaCol := [], adaRow := [], sums := []
      histo := [], chkF := false, chkOver := false, chkOut := 0
      shards := s.cbl.shards.map (fun e => (e.1, e.2.map (fun sh =>
        { sh with sparseFull := false, reduced := [], updated := [] }))) }
    stp := { s.stp with
      nfSlot := 0, done := [], aborted := false, own := none, comb := none, absent := [], flagged := [], rowsSent := [], chkRun := false, updRun := false
      updDone := false, comRun := false, waitedDelta := false, waitedCkpt := false, waitedRepair := false
      late := false, seeded := false, rebased := false, boundary := false, resumed := false, localS := false
      queues := s.stp.queues.map (fun e => (e.1, e.2.map (fun q => { q with occ := 0 }))) } }

/-- The refusal of a STEP_BEGIN, if there is one: status and detail (R279, R429, R453, R495). -/
def stepBeginRefusal (s : State) (nb step gen tCheck tCommit deadline : Nat) : Option (Nat × Nat) :=
  let r := s.stp.rc
  if jobAborted s then some (stJobAborted, 0)
  else if s.pwr.fenced then some (stThermal, 0)
  else if resumePending s then some (stResumePending, 0)
  else if r.state ≠ 0 then some (stBusy, 0)
  else if step ≠ r.step then some (stStepMismatch, 0)
  else if flag gen 0 = r.gen then some (stGenMismatch, 0)
  else if (programTiles s).any (fun t => (tileOf s t).isFenced) then some (stFault, 0)
  else if s.stp.r = 0 || !s.cfg.committed then some (stConfiguration, 0)
  else if !s.ck.items.isEmpty && ((slotKey s 16).isNone || (slotKey s 17).isNone) then some (stConfiguration, 0)
  else if 0 < tCheck ∧ tCheck ≤ nb then some (stParameter, 16)
  else if 0 < tCommit ∧ tCommit ≤ nb then some (stParameter, 24)
  else if 0 < deadline ∧ deadline ≤ tCheck then some (stParameter, 32)
  else none

/-- The actions of R280 in their order. A late begin's reply carries the line time of the begin (R33). -/
def stepBegun (h : CmdHdr) (salt : W32) (gen : Byte) (tCheck tCommit deadline : W64) (s : State) : State :=
  let now := nsOf s
  let nb := h.notBefore.toNat
  let late := decide (0 < nb) && decide (nb < now)
  let s := groupsAtBegin (clearStep s)
  let s := writeRecord { s.stp.rc with state := 1, gen := flag gen.toNat 0, salt := salt.toNat, tBegin := now, decision := 0 } s
  let s := gatherReset (beginScales s)
  let s := beginRuns (if nb = 0 then now else nb) s
  let s := if late then bump s (cStep 7) else s
  let s := setStp (fun p => { p with
    tCheck := tCheck.toNat, tCommit := tCommit.toNat, deadline := deadline.toNat, late := late
    reply := some { replyTo h 0x0401 s with begun := if late then some now else none } }) s
  (programTiles s).foldl (fun s t => sendToken t 0 2 0x6D (flag gen.toNat 0) 1 s) s

/-- STEP_BEGIN (R279, R280). -/
def kStepBegin (h : CmdHdr) (step : W64) (salt : W32) (gen : Byte) (tCheck tCommit deadline : W64) (s : State) : KRes :=
  match stepBeginRefusal s h.notBefore.toNat step.toNat gen.toNat tCheck.toNat tCommit.toNat deadline.toNat with
  | some (st, d) => kFail st d s
  | none => kDefer (stepBegun h salt gen tCheck tCommit deadline s)

/-- A scale record after a step that did not commit: as it was before the step (R285). -/
def Tensor.unbegun (t : Tensor) : Tensor :=
  let (scale, src) := t.prev.getD (t.scale, t.src)
  { t with seedPending := false, seedAmax := none, scale := scale, src := src, prev := none }

/-- Discard the provisional seeds, the scales in force and the amax logs of a step that ends without commit. -/
def discardSeeds (s : State) : State :=
  { s with
    tensors := s.tensors.map (fun e => (e.1, e.2.unbegun))
    tiles := s.tiles.map (fun e => (e.1, { e.2 with amaxLog := [] }))
    cbl := { s.cbl with norm := Exact.zero } }

/-- Tiles still running or stopping. -/
def activeTiles (s : State) : List Nat :=
  (programTiles s).filter (fun t => !(tileOf s t).reported && !(tileOf s t).isFenced)

/-- Abort tokens to tiles still running (R113). -/
def sendAborts (s : State) : State :=
  (activeTiles s).foldl (fun s t => sendToken t 0 2 0x6D (genOf s) 2 s) s

/-- The counter of an outcome that is no commit (Table 10-13). -/
def outcomeCounter (outcome : Nat) : Nat := match outcome with
  | 3 => cStep 2
  | 7 => cStep 11
  | _ => cStep 3

/-- End the step without a commit (R285): the step record goes IDLE with the outcome, and the replies are posted. -/
def endStep (outcome : Nat) (s : State) : State :=
  let s := discardSeeds (sendAborts s)
  let s := writeRecord { s.stp.rc with state := 0, outcome := outcome, tEnd := nsOf s, decision := 0 } s
  let s := setStp (fun p => { p with chkRun := false, updRun := false, comRun := false, own := none }) s
  postStepEnd outcome (bump s (outcomeCounter outcome))

/-- What a fence, a critical stack or an abort command does to the step, by state (Table 10-4). `stopUpdate` tells a
fence or critical stack, which stops an update, from a host's abort. -/
def abortStep (stopUpdate : Bool) (s : State) : State :=
  match s.stp.rc.state with
  | 1 =>
    let s := sendAborts (withdraw true s)
    writeRecord { s.stp.rc with state := 5 } (setStp (fun p => { p with aborted := true }) s)
  | 2 =>
    if s.stp.chkRun then setStp (fun p => { p with aborted := true }) s
    else setStp (fun p => { p with aborted := true, own := p.own.map (fun c =>
      { c with a := true, first := p.own_, norm := Exact.zero }) }) s
  | 3 => if stopUpdate then writeRecord { s.stp.rc with state := 6 } (setStp (fun p => { p with updRun := false }) s) else s
  | 4 => if stopUpdate then writeRecord { s.stp.rc with state := 6 } (setStp (fun p => { p with comRun := false }) s) else s
  | _ => s

/-- STEP_ABORT (R286): late after the decision, a mismatch for another step. -/
def kStepAbort (_h : CmdHdr) (step : W64) (s : State) : KRes :=
  let r := s.stp.rc
  let late : KRes := kFail stLate 0 (bump s (cStep 6))
  if r.state = 0 then
    let ended := if r.outcome = 1 ∨ r.outcome = 2 then r.step = step.toNat + 1 else r.outcome ≠ 0 ∧ r.step = step.toNat
    if ended then late else kFail stStepMismatch 0 s
  else if step.toNat ≠ r.step then kFail stStepMismatch 0 s
  else if r.state = 1 ∨ r.state = 2 ∨ r.state = 5 then kOk 0 (abortStep false s)
  else late

/-- TOP_STEP_STATE (Table 16-5): the state and the last step-end outcome are mirrored from the step record (R277). -/
def topStepState (s : State) : Nat :=
  let r := s.stp.rc
  r.state % 16 * 2 ^ 28 + bit r.gen * 2 ^ 27 + bit r.staged * 2 ^ 26 + r.outcome % 16 * 2 ^ 22

/-- STEP_QUERY (R278): the step record, TOP_STEP_STATE and the last step-end word. -/
def kStepQuery (h : CmdHdr) (buf : Buf) (s : State) : KRes :=
  let data := stepRecordImage s.stp.rc ++ leBytes 4 (topStepState s) ++ leBytes 4 s.stp.endWord
  withBuf h buf s (deliver h buf data id data.length s)

/-! ## TENSOR_SCALE and TENSOR_READ (R59, R60, R67) -/

/-- MARGIN lies in 1.0 to 65,536.0. -/
def marginOk (w : Nat) : Bool := FVal.one.le (f32 w) && (f32 w).le (.pow2 16)

/-- TENSOR_SCALE: the RW fields take effect at the next step begin. -/
def kTensorScale (_h : CmdHdr) (tid : W16) (margin hostScale : W32) (depth flags : Byte) (s : State) : KRes :=
  if !marginOk margin.toNat then kFail stParameter 4 s
  else if flag flags.toNat 0 && !posNormal hostScale.toNat then kFail stParameter 8 s
  else if 63 < depth.toNat then kFail stParameter 12 s
  else kOk 0 (setTensor s tid.toNat { tensorOf s tid.toNat with
    next := some (margin.toNat, hostScale.toNat, depth.toNat, flags.toNat % 8) })

/-- A scale record as the host reads it (Table 2-6). A PER_ROW record has one FILL for all its histories: the model shows
the largest. DESIGN CHOICE (log 79), unsafe. -/
def scaleRecord (t : Tensor) : Nat :=
  let (m, h, d, fl) := t.next.getD (t.margin, t.hostScale, t.depth, bit t.hostLock + 2 * bit t.pow2 + 4 * bit t.perRow)
  let fill := if t.perRow then t.rowHist.foldl (fun a e => max a e.2.length) 0 else t.hist.length
  m % 2 ^ 32 * 2 ^ 96 + h % 2 ^ 32 * 2 ^ 64 + (if flag fl 2 then 0 else t.scale % 2 ^ 32) * 2 ^ 32 + d % 64 * 2 ^ 26
    + t.src % 4 * 2 ^ 24 + bit (flag fl 0) * 2 ^ 23 + bit (flag fl 1) * 2 ^ 22 + bit (flag fl 2) * 2 ^ 21
    + bit t.seedPending * 2 ^ 20 + fill % 128 * 2 ^ 13

/-- TENSOR_READ: the scale record and the three counts of each tensor; the counts are cleared (log 32). -/
def kTensorRead (h : CmdHdr) (first n : W16) (buf : Buf) (s : State) : KRes :=
  let ids := ((List.range n.toNat).map (fun i => first.toNat + i)).filter (· < 65536)
  let data := ids.flatMap (fun i =>
    let t := tensorOf s i
    leBytes 16 (scaleRecord t) ++ leBytes 8 t.satCnt ++ leBytes 8 t.nfCnt ++ leBytes 8 t.crushCnt)
  withBuf h buf s (deliver h buf data (fun s =>
    ids.foldl (fun s i => setTensor s i { tensorOf s i with satCnt := 0, nfCnt := 0, crushCnt := 0 }) s) data.length s)

/-! ## Tokens to the control complex (R106, R114, R282, R283) -/

/-- A module that must abort its step on a fence (R286, R303). -/
def fenceAborts (s : State) : State := abortStep true s

/-- NONFINITE_SLOT_TOKEN (R282): an ADD token to slot 0x01 of endpoint 0x6D. -/
def execNonfiniteSlotToken (token : W64) (s : State) : Host.Outcome State Fault Refusal :=
  .next (match arrive (.token token) s with
    | some s =>
      if tokDest token ≠ 0x6D ∨ tokSlot token ≠ 1 ∨ tokKind token ≠ 0 ∨ tokGen token ≠ genOf s then s
      else setStp (fun p => { p with nfSlot := satAdd 32 p.nfSlot (tokValue token) }) s
    | none => s)

/-- A control token from a tile reaches the control complex with the code expected and the current generation. -/
def tileReport (token : W64) (code : Nat) (s : State) : Bool :=
  decide (tokDest token = 0x6D) && decide (tokKind token = 2) && decide (tokValue token = code)
    && decide (tokGen token = genOf s)

/-- PROGRAM_DONE_TOKEN (R112, R283). -/
def execProgramDoneToken (token : W64) (s : State) : Host.Outcome State Fault Refusal :=
  .next (match arrive (.token token) s with
    | some s => if tileReport token 0x10 s then setStp (fun p => { p with done := sput false p.done (tokSrc token) true }) s else s
    | none => s)

/-- TASK_FAULT_TOKEN (R107, R282): a task that completed with fault status raises the non-finite slot. -/
def execTaskFaultToken (token : W64) (s : State) : Host.Outcome State Fault Refusal :=
  .next (match arrive (.token token) s with
    | some s => if tileReport token 0x11 s then setStp (fun p => { p with nfSlot := satAdd 32 p.nfSlot 1 }) s else s
    | none => s)

/-- FENCED_TOKEN (R114, R286): a fence aborts the step. It counts whatever its generation. -/
def execFencedToken (token : W64) (s : State) : Host.Outcome State Fault Refusal :=
  .next (match arrive (.token token) s with
    | some s =>
      if tokDest token = 0x6D ∧ tokKind token = 2 ∧ tokValue token = 0x12 then
        fenceAborts (setStp (fun p => { p with done := sput false p.done (tokSrc token) true }) s)
      else s
    | none => s)

/-! ## The check (R282 to R285) -/

/-- Every tile holding a program has reported program done or is fenced. -/
def tilesDone (s : State) : Bool :=
  (programTiles s).all (fun t => sget false s.stp.done t || (tileOf s t).isFenced)

/-- No collective that reduces into the module's shards is still running. -/
def reductionsDone (s : State) : Bool := (running s).all (fun e => !hdDest e.2.header)

/-- The bytes of the word set a module contributes to a small collective; the manual gives no wire layout
(log 33). -/
def checkBytes (c : CheckWord) : List Byte :=
  leBytes 4 (bit c.s + 2 * bit c.f + 4 * bit c.a + 8 * bit c.hard) ++ leBytes 4 c.first ++ leBytes 8 (bit c.norm.nf)
    ++ leBytes 80 c.norm.val

/-- The check collective starts at the later of T_CHECK and readiness (R32, R283). -/
def tryCheck (s : State) : State :=
  match s.stp.own with
  | some c =>
    if s.stp.rc.state = 2 && !s.stp.chkRun && decide (s.stp.tCheck ≤ nsOf s) then
      startSmall 0 (checkBytes c) (setStp (fun p => { p with chkRun := true }) s)
    else s
  | none => s

/-- The norm over every reduction block of the module (R251). -/
def reduceAll (s : State) : State :=
  (allShards s).foldl (fun s p =>
    (List.range (sdBlocks p.2.2.desc)).foldl (fun s b => reduceBlock p.1 p.2.1 b s) s) s

/-- CHECK_WORD_READY (R283, R287): the check word is formed, and the non-finite slot read once. -/
def execCheckWordReady (s : State) : Host.Outcome State Fault Refusal :=
  .next (
    let st := s.stp.rc.state
    if (st ≠ 1 ∧ st ≠ 5) || !tilesDone s || (!s.stp.aborted && !reductionsDone s) then s
    else
      let a := s.stp.aborted
      let s := if a then s else reduceAll s
      let nf := decide (s.stp.nfSlot ≠ 0)
      let w : CheckWord := {
        s := nf, f := checkF s, hard := (allShards s).any (fun p => shardHard s p.2.2), a := a
        first := if nf || a then s.stp.own_ else 0xFFFF, norm := if a then Exact.zero else s.cbl.norm }
      let s := if nf then bump s (cStep 4) else s
      let s := writeRecord { s.stp.rc with state := 2 } s
      tryCheck (setStp (fun p => { p with own := some w, localS := nf }) s))

/-- T_CHECK_INSTANT (R32, R283). -/
def execTCheckInstant (s : State) : Host.Outcome State Fault Refusal := .next (tryCheck s)

/-- Table 9-4: the outcome code 1, 2 or 3 from the policy, F, a hard F, N and the limit L. -/
def checkOutcome (policy : Nat) (f hard : Bool) (n l : FVal) : Nat :=
  let tooBig := !l.isZero && l.lt n
  match policy with
  | 1 => if hard then 3 else if f then 1 else if tooBig then 3 else 1
  | 2 => if f then 3 else if tooBig then (if n.isInf then 3 else 2) else 1
  | _ => if f || tooBig then 3 else 1

/-- The control complex takes an update decision: record and check tables are written (R253). -/
def decideUpdate (outcome : Nat) (c : FVal) (s : State) : State :=
  writeTables (writeRecord { s.stp.rc with state := 3, decision := outcome, c := to32 c } s)

/-- CHECK_DECISION (R284, R363): the other members' combined word joins the module's own, and the outcome follows; the
members that the result's contributor lane lacks take no part in the commit. -/
def execCheckDecision (f1 f2 hard a : Bool) (lane : CheckLane) (normNf : Bool) (norm : BitVec 640) (s : State) :
    Host.Outcome State Fault Refusal :=
  .next (match s.stp.own with
    | none => s
    | some w =>
      if s.stp.rc.state ≠ 2 || !s.stp.chkRun then s
      else
        let c : CheckWord := {
          s := w.s || f1, f := w.f || f2, hard := w.hard || hard, a := w.a || a, first := min w.first lane.first.toNat
          norm := w.norm.add (ofExactWord { nf := normNf, val := norm }) }
        let n := c.norm.readSqrt
        let l := f32 (getReg s (cblBase + 4))
        let tooBig := !l.isZero && l.lt n
        let out := checkOutcome (field (getReg s cblBase) 31 30) c.f c.hard n l
        let s := setStp (fun p => { p with comb := some c, chkRun := false, absent := lane.absent.map BitVec.toNat }) s
        let s := { s with cbl := { s.cbl with normWord := to32 n, chkF := c.f, chkOver := tooBig } }
        if c.a then endStep 6 s
        else if c.s then endStep 5 s
        else
          let s := { s with cbl := { s.cbl with chkOut := out } }
          if out = 3 then endStep 3 s
          else decideUpdate out (if out = 2 then div32 l n else .one) s)

/-- DEADLINE_EXPIRY (R286, R303): the deadline applies until the check word is formed. -/
def execDeadlineExpiry (s : State) : Host.Outcome State Fault Refusal :=
  .next (
    let d := s.stp.deadline
    if s.stp.rc.state = 1 && decide (0 < d) && decide (d ≤ nsOf s) then abortStep false (bump s (cStep 5)) else s)

/-! ## The update (R36, R37, R288, R416) -/

/-- What the update waits for: delta staging, the checkpoint copy, replica repair. -/
def updateWaits (s : State) : Bool × Bool × Bool :=
  (s.stp.deltaDue, s.ck.copy.isSome, !s.ck.repair.isEmpty)

/-- UPDATE_START: the update begins once its waits have ended, with sweep A of the groups that need one (R258, R259); each
wait is counted once. -/
def execUpdateStart (s : State) : Host.Outcome State Fault Refusal :=
  .next (
    if s.stp.rc.state ≠ 3 || s.stp.updRun || s.stp.updDone then s
    else
      let (d, c, r) := updateWaits s
      let once (w seen : Bool) (f : State → State) (s : State) : State := if w && !seen then f s else s
      let s := once d s.stp.waitedDelta (fun s => setStp (fun p => { p with waitedDelta := true }) (bump s (cStep 9))) s
      let s := once c s.stp.waitedCkpt (fun s => setStp (fun p => { p with waitedCkpt := true }) (bump s (cStep 10))) s
      let s := once r s.stp.waitedRepair (fun s => setStp (fun p => { p with waitedRepair := true }) (faultEvent 8 0 0 0 s)) s
      if d || c || r then s
      else (loadedGroups s).foldl (fun s g => startSums g s) (setStp (fun p => { p with updRun := true }) s))

/-- A shard whose one-MiB fingerprints an update forms by reading: sparse-row Adam (R270). Those of a frozen group stand
(R271). -/
def printSparse (s : State) : State :=
  (allShards s).foldl (fun s p =>
    let d := p.2.2.desc
    if sdOpt d = 8 ∧ !grFrozen (groupRaw s (sdGroup d)) then (List.range (sdPrints d)).foldl (fun s m => printBlock p.1 d m s) s else s) s

/-! ## What a module contributes to the commit collective (R288, Table 10-5) -/

/-- The module's own amax of a tensor, if it was measured: its tiles' logs, and its compute copies (R138, R262). -/
def ownAmax (s : State) (tid : Nat) : Option Nat :=
  let logs := s.tiles.flatMap (fun e => (e.2.amaxLog.filter (fun r => decide (field r 63 48 = tid))).map (fun r => field r 31 0))
  let copy := s.cbl.copyAmax.filterMap (fun e => if e.1 = tid then some e.2 else none)
  match logs ++ copy with
  | [] => none
  | l => some (to32 (l.foldl (fun a w => fmax a (f32 w)) FVal.zero))

/-- Where loaded tasks keep a per-row tensor's array: tile, offset and rows (R139). -/
def rowArrays (s : State) (tid : Nat) : List (Nat × Nat × Nat) :=
  (programTiles s).flatMap (fun t =>
    ((List.range (progOf s t).ntasks).filterMap (fun i =>
      let w := taskOf s t i
      let arr (d : TensorDesc) (off : Nat) : Option (Nat × Nat × Nat) :=
        if d.tid = tid && ((fmtOfCode d.fmt).getD .fp32).narrow then some (t, off, d.rows) else none
      match tkOp w with
      | 1 => if (matrixBody s t w).mode = 1 then none else arr (matrixBody s t w).c (matrixBody s t w).amax
      | 2 =>
        let b := passBody s t w
        ((sget [] (progOf s t).chain (b.off * 64 + b.len)).getLast?).bind (fun c => arr b.out ((chainWord c).imm % 2 ^ 22))
      | _ => none)).eraseDups)

/-- The control complex collects the arrays of the per-row tensors: tensor, row, word (R139). -/
def collectRows (s : State) : List (Nat × Nat × Nat) × State :=
  (((s.tensors.filter (fun e => e.2.perRow && !isGridRecord s e.1)).map Prod.fst).flatMap (fun tid =>
    (rowArrays s tid).map (fun a => (tid, a)))).foldl (fun r a =>
      let (o, s) := readDev .lintel 13 (tileAddr a.2.1 a.2.2.1) (4 * a.2.2.2) r.2
      (r.1 ++ (List.range a.2.2.2).map (fun row => (a.1, row, leAt o.data (4 * row) 4)), s)) ([], s)

/-- Tensors that this module has measured. -/
def measuredTensors (s : State) : List Nat :=
  (s.tiles.flatMap (fun e => e.2.amaxLog.map (fun r => field r 63 48)) ++ s.cbl.copyAmax.map Prod.fst).eraseDups

/-- The module's own items of the commit collective (Table 10-5), as it contributes them: for each shard its state, its
re-base flag and its fingerprint; the amax of tensors, rows and contributions; D and W; and the plumb digest (log 33). -/
def commitBytes (s : State) : List Byte :=
  (allShards s).flatMap (fun p =>
    leBytes 2 (p.1 * 2048 + p.2.1)
      ++ leBytes 1 (bit p.2.2.torn + 2 * bit p.2.2.invalid + 4 * bit (s.stp.flagged.contains (p.1, p.2.1)))
      ++ leBytes 8 (shardPrint s p.2.2.desc))
    ++ (measuredTensors s).flatMap (fun t => leBytes 2 t ++ leBytes 4 ((ownAmax s t).getD 0))
    ++ s.stp.rowsSent.flatMap (fun r => leBytes 2 r.1 ++ leBytes 4 r.2.1 ++ leBytes 4 r.2.2)
    ++ s.cbl.contrib.flatMap (fun e => leBytes 6 e.1 ++ leBytes 4 e.2)
    ++ s.cbl.ratio.flatMap (fun e => leBytes 2 e.1 ++ exactBytes e.2.1 ++ exactBytes e.2.2)
    ++ leBytes 4 (plumb s)

/-- What the module contributes is fixed as it joins the collective: the shards it flags for re-base, and its per-row
words. A flag raised later is for a later commit (R38). -/
def fixItems (s : State) : State :=
  let (rows, s) := collectRows s
  setStp (fun p => { p with
    rowsSent := rows
    flagged := if s.npx.flagged then ((allShards s).filter (fun x => (outerOf s x.1 x.2.1).staged.isSome)).map (fun x => (x.1, x.2.1))
      else [] }) s

/-- The commit coordinator excludes the members that the check result lacks, and does not wait for them (R363). -/
def excludeAbsent (s : State) : State :=
  s.stp.absent.eraseDups.foldl (fun s i =>
    if i = s.stp.own_ || decide (s.stp.members.length ≤ i) then s
    else colEvent 1 0xFFF1 (s.stp.members.getD i 0xFFFF) (bump s (cCol 0x108))) s

/-- The module joins the commit collective. One that the check result itself lacks is excluded from it, and leaves with
outcome 0x7 (R292, R363, log 82). -/
def joinCommit (s : State) : State :=
  if s.stp.absent.contains s.stp.own_ then endStep 7 s
  else
    let s := fixItems (setStp (fun p => { p with comRun := true }) s)
    startSmall 1 (commitBytes s) (if s.stp.own_ = 0 then excludeAbsent s else s)

/-- The commit collective starts at the later of T_COMMIT and the end of the update (R288). -/
def tryCommit (s : State) : State :=
  if s.stp.rc.state = 4 && !s.stp.comRun && decide (s.stp.tCommit ≤ nsOf s) then joinCommit s else s

/-- UPDATE_COMPLETE (R288): every block has been updated or left, and the module may join the commit. -/
def execUpdateComplete (s : State) : Host.Outcome State Fault Refusal :=
  .next (
    if s.stp.rc.state ≠ 3 || !s.stp.updRun || !updateFinished s then s
    else
      let s := setStp (fun p => { p with updRun := false, updDone := true }) (printSparse s)
      tryCommit (writeRecord { s.stp.rc with state := 4 } s))

/-- T_COMMIT_INSTANT (R32, R288). -/
def execTCommitInstant (s : State) : Host.Outcome State Fault Refusal := .next (tryCommit s)

/-! ## The commit (R289) -/

/-- The combined amax of a tensor. -/
def combinedAmax (s : State) (items : List (W16 × W32)) (tid : Nat) : Option Nat :=
  let other := items.filterMap (fun e => if e.1.toNat = tid then some e.2.toNat else none)
  match (ownAmax s tid).toList ++ other with
  | [] => none
  | l => some (to32 (l.foldl (fun a w => fmax a (f32 w)) FVal.zero))

/-- The combined amax of each row of a per-row tensor; a row that nothing measured has +0 (R56, log 83). -/
def combinedRows (s : State) (items : List (W16 × W32 × W32)) (tid : Nat) : List (Nat × Nat) :=
  let own := s.stp.rowsSent.filterMap (fun e => if e.1 = tid then some e.2 else none)
  let other := items.filterMap (fun e => if e.1.toNat = tid then some (e.2.1.toNat, e.2.2.toNat) else none)
  let all := own ++ other
  ((List.range (tensorRows s tid) ++ all.map Prod.fst).eraseDups).map (fun r =>
    (r, to32 ((all.filter (fun e => e.1 = r)).foldl (fun a e => fmax a (f32 e.2)) FVal.zero)))

/-- The combined contribution amax of a grid record's scale group: row plus 1, or 0 for the whole tensor (R247). -/
def combinedContrib (s : State) (items : CommitItems) (tid row : Nat) : Nat :=
  let own := sget 0 s.cbl.contrib (tid * 2 ^ 17 + row)
  let other := if row = 0 then items.contrib.filterMap (fun e => if e.1.toNat = tid then some e.2.toNat else none)
    else items.rowAmax.filterMap (fun e => if e.1.toNat = tid ∧ e.2.1.toNat + 1 = row then some e.2.2.toNat else none)
  to32 (other.foldl (fun a w => fmax a (f32 w)) (f32 own))

/-- Rows of a grid record with a grid per row. -/
def gridRows (s : State) (tid : Nat) : Nat :=
  (allShards s).foldl (fun a p =>
    let d := p.2.2.desc
    if sdGrad d = tid then max a (gradRow d (sdN d - 1) + 1) else a) 0

/-- A tensor's record at commit: DEPTH comes into force and its history gains the combined entry, which is +0 where nothing
of a declared tensor was measured (R56, R58, R247, log 83). -/
def commitTensor (items : CommitItems) (tid : Nat) (s : State) : State :=
  let t := tensorOf s tid
  let depth := (t.next.map (fun n => n.2.2.1)).getD t.depth
  let push (e : Nat) (h : List (Nat × Bool)) : List (Nat × Bool) := ((e, t.seedPending) :: h).take (depth + 1)
  let rows : List (Nat × Nat) :=
    if !t.perRow then []
    else if isGridRecord s tid then (List.range (gridRows s tid)).map (fun r => (r, combinedContrib s items tid (r + 1)))
    else combinedRows s items.rowAmax tid
  let t' := { t with depth := depth, seedPending := false, seedAmax := none, prev := none }
  let t' := if t.perRow then
      { t' with rowHist := rows.foldl (fun m e => sput [] m e.1 (push e.2 (sget [] t.rowHist e.1))) t.rowHist }
    else if isGridRecord s tid then { t' with hist := push (combinedContrib s items tid 0) t.hist }
    else match combinedAmax s items.amax tid with
      | some e => { t' with hist := push e t.hist }
      | none => { t' with hist := if t.fmt = 0 then t.hist.take (depth + 1) else push 0 t.hist }
  setTensor s tid t'

/-- Tensors that a commit treats. -/
def commitTensors (s : State) (items : CommitItems) : List Nat :=
  (stepTensors s ++ measuredTensors s ++ items.amax.map (fun e => e.1.toNat)
    ++ items.rowAmax.map (fun e => e.1.toNat)).eraseDups

/-- The watched ratio of a group from its combined sums (R263). -/
def watchedRatio (d w : Exact) : FVal :=
  if w.val ≠ 0 then sqrtRatio d.val w.val else if d.val ≠ 0 then .inf false else .zero

/-- A stack that holds a shard of a group, which counts the group's events. -/
def groupStack (s : State) (g : Nat) : Nat × Nat :=
  match groupShards s g with
  | p :: _ => (p.1, p.2.1)
  | [] => (0, 0)

/-- Warn and freeze by a group's watched ratio (R263). -/
def watchGroup (items : CommitItems) (g : Nat) (s : State) : State :=
  let raw := groupRaw s g
  if grFrozen raw then s
  else
    let own := sget (Exact.zero, Exact.zero) s.cbl.ratio g
    let sum := (items.ratio.filter (fun e => e.1.toNat = g)).foldl (fun (a : Exact × Exact) e =>
      (a.1.add (ofExactWord e.2.1), a.2.add (ofExactWord e.2.2))) own
    let q := watchedRatio sum.1 sum.2
    let above (t : Nat) : Bool := !(f32 t).isZero && (f32 t).lt q
    let (k, i) := groupStack s g
    let s := modGroup g (fun r => { r with raw := putField r.raw 127 96 (grUpdates r.raw + 1) }) s
    let s := if above (grWarn raw) then
        cblEvent k 5 i g (postEvent 0x0006 g (6 * 4096 + k) (bump s (cCbl k 0x180))) else s
    if above (grFreeze raw) then
      modGroup g (fun r => { r with raw := putField r.raw 95 95 1 })
        (cblEvent k 6 i g (postEvent 0x0007 g (6 * 4096 + k) (bump s (cCbl k 0x188))))
    else s

/-- The items without those of replica-set members that the check result lacks (R363). -/
def presentItems (s : State) (items : CommitItems) : CommitItems :=
  let here (r : W16) : Bool := !s.stp.absent.contains (r.toNat * s.stp.q + s.stp.own_ % s.stp.q)
  { items with prints := items.prints.filter (fun e => here e.1), unsound := items.unsound.filter (fun e => here e.1) }

/-- Members of the replica set whose shard is torn or invalid take no part in its comparison (R420). -/
def soundPrints (items : CommitItems) (k i : Nat) : List Nat :=
  (items.prints.filter (fun e => decide (e.2.1.toNat = k) && decide (e.2.2.1.toNat = i)
    && !items.unsound.any (fun u => decide (u.1 = e.1) && decide (u.2.1.toNat = k) && decide (u.2.2.toNat = i)))).map
      (fun e => e.2.2.2.toNat)

/-- Compare a shard's fingerprint over the replica set (R416, R417): a mismatch is scheduled for repair; agreement
clears the ECC mark. -/
def comparePrint (items : CommitItems) (p : Nat × Nat × Shard) (s : State) : State :=
  let (k, i, sh) := p
  if sh.torn || sh.invalid || (soundPrints items k i).isEmpty then s
  else
    let s := faultEvent 2 k i 0 s
    if (soundPrints items k i).all (· = shardPrint s sh.desc) then
      match shardOf s k i with
      | some x => setShard k i { x with eccMark := false } s
      | none => s
    else
      repairDue k i (faultEvent 3 k i 0 s)

/-- Shards that some member, or this one, flagged for re-base in this collective and that hold a staged base (R38, R288). -/
def rebaseShards (items : CommitItems) (s : State) : List (Nat × Nat) :=
  ((allShards s).filter (fun p =>
    (s.stp.flagged.contains (p.1, p.2.1) || items.rebase.any (fun r => decide (r.1.toNat = p.1) && decide (r.2.toNat = p.2.1)))
      && (outerOf s p.1 p.2.1).staged.isSome)).map (fun p => (p.1, p.2.1))

/-- This commit ends an outer step (R35). -/
def endsOuter (s : State) (next : Nat) : Bool :=
  decide (0 < s.npx.nLocal) && decide (s.npx.epoch0 ≤ next) && decide ((next - s.npx.epoch0) % s.npx.nLocal = 0)

/-- Contributor entries of the publications up to version `v` (R393). -/
def appliedContribs (s : State) (v : Nat) : List Nat :=
  ((s.npx.staged.filter (fun p => decide (p.ver ≤ v))).map Pub.contrib).flatten

/-- A member of the commit collective that re-based holds the version it applied and clears the flag (R395). Its
residual stays only where a publication applied lists a delta of its site against the base replaced (R379), and the
outer steps between the latest merged delta and the latest boundary are counted as lost (R397). -/
def adoptStaged (done : List (Nat × Nat)) (s : State) : State :=
  if done.isEmpty then s
  else
    let old := s.npx.version
    let v := done.foldl (fun a p => max a (outerOf s p.1 p.2).version) old
    let own := (appliedContribs s v).filter (fun e => decide (field e 127 120 = siteId s))
    let full := s.npx.staged.any (fun p => p.full && decide (p.ver ≤ v))
    let keep := !full && own.any (fun e => decide (field e 95 64 = old))
    let lost := if own.isEmpty then 0 else s.stp.rc.outer - own.foldl (fun a e => max a (field e 63 32)) 0
    let s := if keep then s else done.foldl (fun s p => setOuter p.1 p.2 { outerOf s p.1 p.2 with efr := [] } s) s
    let s := if lost = 0 then s else npxEvent 6 (siteId s) (bumpN s (cNpx 0x178) lost)
    { s with npx := { s.npx with
      version := v, flagged := false, fullNext := s.npx.fullNext && !full
      staged := s.npx.staged.filter (fun p => decide (v < p.ver)) } }

/-- R289 steps 3 to 5: the step number advances, and at an outer-step boundary delta formation begins. -/
def finishCommit (s : State) : State :=
  let r := s.stp.rc
  let out := if r.decision = 2 then 2 else 1
  let next := (r.step + 1) % 2 ^ 64
  let b := endsOuter s next
  let s := writeRecord { r with
    step := next, seq := (r.seq + 1) % 2 ^ 32, staged := false, state := 0, outcome := out, tEnd := nsOf s
    decision := 0, outer := if b then (r.outer + 1) % 2 ^ 32 else r.outer } s
  let s := setStp (fun p => { p with
    boundary := b, deltaDue := b || p.deltaDue, updRun := false, updDone := false, comRun := false, own := none }) s
  let s := bump s (cStep 0)
  let s := if out = 2 then bump s (cStep 1) else s
  let s := if b then startCopy s.stp.rc.outer next ((allShards s).foldl (fun s p => formDelta p.1 p.2.1 s) s) else s
  postStepEnd out s

/-- COMMIT_COLLECTIVE_COMPLETE (R288, R289): the module stages and commits step n. -/
def execCommitCollectiveComplete (sent : CommitItems) (s : State) : Host.Outcome State Fault Refusal :=
  .next (
    if s.stp.rc.state ≠ 4 || !s.stp.comRun then s
    else
      let items := presentItems s sent
      let s := if items.plumb then colEvent 2 0xFFF1 0xFFFF (bump s (cCol 0x120)) else s
      let s := (allShards s).foldl (fun s p => comparePrint items p s) s
      let s := (commitTensors s items).foldl (fun s i => commitTensor items i s) s
      let s := (loadedGroups s).foldl (fun s g => watchGroup items g s) s
      let s := writeRecord { s.stp.rc with staged := true } s
      let todo := rebaseShards items s
      let s := todo.foldl (fun s p => rebaseShard p.1 p.2 s) s
      let s := adoptStaged todo (setStp (fun p => { p with rebased := !todo.isEmpty }) s)
      finishCommit s)

/-- DELTA_FORMATION_COMPLETE (R36, R167): the delta of the last boundary is staged, and its encoding starts, with the
codebooks held now. -/
def execDeltaFormationComplete (s : State) : Host.Outcome State Fault Refusal :=
  .next (if !s.stp.deltaDue then s
    else setStp (fun p => { p with deltaDue := false })
      { s with npx := { s.npx with encBooks := booksFrom s s.stp.rc.outer } })

/-! ## Resumption (R267, R292) -/

/-- The end of a resumption whose journal has been treated, with the blocks rerun and the shards torn: the step goes to
UPDATED, or is committed where it was staged. Where groups wait for their sums, it goes to UPDATED after the last of them
(log 80). -/
def resumeAnswer (e : Nat × Nat × State) : KRes :=
  let s := setStp (fun p => { p with resumed := true }) e.2.2
  let d := min e.1 0xFFFF * 2 ^ 16 + min e.2.1 0xFFFF
  if s.stp.rc.state ≠ 6 then kOk d s
  else if s.stp.rc.staged then kOk d (finishCommit s)
  else if (unformedGroups s).isEmpty || decide (s.stp.rc.decision = 0) then kOk d (writeRecord { s.stp.rc with state := 7 } s)
  else kOk d (setStp (fun p => { p with updRun := true }) s)

/-- CORBEL_RESUME: the journal is treated, the update finished, and the step goes to UPDATED, or is committed where it
was staged. The detail counts the blocks rerun and the shards torn. -/
def kCorbelResume (_h : CmdHdr) (s : State) : KRes :=
  if s.pwr.fenced then kFail stThermal 0 s
  else if s.stp.rc.state = 7 then kFail stResumePending 0 s
  else if stepActive s then kFail stActive 0 s
  else match resumeMissing s with
    | some d => kFail stConfiguration d s
    | none => resumeAnswer (resumeMemory s)

/-- STEP_RESUME (R292): the module joins the commit collective of its step, and the reply comes with its end. -/
def kStepResume (h : CmdHdr) (step : W64) (s : State) : KRes :=
  if jobAborted s then kFail stJobAborted 0 s
  else if s.stp.rc.state = 6 then kFail stResumePending 0 s
  else if s.stp.rc.state ≠ 7 then kFail stBusy 0 s
  else if step.toNat ≠ s.stp.rc.step then kFail stStepMismatch 0 s
  else if s.stp.r = 0 then kFail stConfiguration 0 s
  else
    let s := setStp (fun p => { p with resumeReply := some (replyTo h 0x0405 s), resumed := true, tCommit := 0 }) s
    kDefer (joinCommit (writeRecord { s.stp.rc with state := 4 } s))

end Sys2Proof.Machine
end

