-- ==== Sys2Proof/Machine/Time.lean ====
section
/-!
DEFINITION. Line time and activity budgets (chapter 11): time paths and exchanges, the time tree, holdover, external
references, timers and budget periods.
-/
namespace Sys2Proof.Machine

/-- A write to a configuration register, or a re-verification change, makes a pass in progress dirty (R474). -/
def touchCfg (s : State) : State := { s with cfg := { s.cfg with dirty := s.cfg.dirty || s.cfg.running } }

/-! ## Registers of the unit (Tables 11-11 and 11-12) -/

def ltuCfg (s : State) : Nat := getReg s ltuBase
def timeRole (s : State) : Nat := field (ltuCfg s) 31 30
def timeSource (s : State) : Nat := field (ltuCfg s) 29 28
/-- STEP_THR in 2^-16 ns. -/
def stepThr (s : State) : Int := (let t := field (ltuCfg s) 23 16; ((if t = 0 then 2 else t) * 1000 * 65536 : Nat))
/-- ASYM_JUMP in 2^-16 ns. -/
def asymJump (s : State) : Int := (let t := field (ltuCfg s) 15 8; ((if t = 0 then 20 else t) * 10 * 65536 : Nat))

/-- A time path. -/
def pathOf (s : State) (p : Nat) : TimePath := sget TimePath.init s.tm.paths p
/-- Replace a time path. -/
def setPath (p : Nat) (v : TimePath) (s : State) : State :=
  { s with tm := { s.tm with paths := sput TimePath.init s.tm.paths p v } }

/-- HOLD_S: whole seconds in holdover, saturating at 17 bits. -/
def holdSeconds (s : State) : Nat :=
  match s.tm.holdAt with
  | some t => min (2 ^ 17 - 1) ((nsOf s - t) / 1000000000)
  | none => s.tm.holdS

/-- LTU_STATUS. -/
def ltuStatus (s : State) : Nat :=
  s.tm.state % 8 * 2 ^ 29 + s.tm.stratum % 32 * 2 ^ 24 + s.tm.parent % 32 * 2 ^ 19 + bit s.tm.srcOk * 2 ^ 18
    + bit s.tm.ref10m * 2 ^ 17 + holdSeconds s

/-- LTU_OFFSET: from the parent, in units of 2^-8 ns. -/
def ltuOffset (s : State) : Nat := unsigned 32 (s.tm.offset / 256)

/-- LTU_PATH_STAT, LTU_PATH_DELAY and LTU_PATH_ASYM of a path. -/
def pathStat (s : State) (p : Nat) : Nat :=
  let v := pathOf s p
  v.state % 8 * 2 ^ 29 + v.stratum % 32 * 2 ^ 24 + min 255 v.exch * 2 ^ 16
def pathDelay (s : State) (p : Nat) : Nat := unsigned 32 ((pathOf s p).dref / 65536)
def pathAsym (s : State) (p : Nat) : Nat := unsigned 32 ((pathOf s p).asym / 4096)

/-! ## State of the unit (R307, R314) -/

/-- Enter HOLDOVER: counted, with event 0x000F naming the parent lost. -/
def enterHoldover (s : State) : State :=
  if s.tm.state = 2 then
    let lost := s.tm.parent
    postEvent 0x000F lost (13 * 4096) (bump { s with tm := { s.tm with
      state := 3, holdAt := some (nsOf s), steer := 0 } } (cLtu 0x108))
  else s

/-- A correction of line time by `off`: a step in FREE or ACQUIRING, which enters LOCKED; else a change of rate, and
nothing above 100 µs (R307). A step moves the reading of every path with it, and the unit's own waits (log 40). -/
def correct (off : Int) (s : State) : State :=
  if s.tm.state ≤ 1 then
    let later (t : Nat) : Nat := ((t : Int) + off / 65536).toNat
    let shift (v : TimePath) : TimePath :=
      { v with window := v.window.map (fun e => (e.1, e.2 - off)), use := v.use - off, due := later v.due }
    { s with tm := { s.tm with now := ((s.tm.now : Int) + off).toNat, state := 2, steer := 0, offset := 0
                               zeroAt := later s.tm.zeroAt, ptpAt := later s.tm.ptpAt
                               paths := s.tm.paths.map (fun e => (e.1, shift e.2)) } }
  else if s.tm.state = 2 && decide (100000 * 65536 < off.natAbs) then s
  else
    let hold := if s.tm.state = 3 then holdSeconds s else s.tm.holdS
    { s with tm := { s.tm with state := 2, holdS := hold, holdAt := none, steer := off, offset := off } }

/-- One nanosecond of the module's own clock passes: line time runs on, and a correction is steered in at no more than
200 ppm (R307). Without its supply the unit stands still. -/
def tick (s : State) : State :=
  if s.pwr.stage = 0 then s else
  let adj : Int := max (-13) (min 13 s.tm.steer)
  { s with tm := { s.tm with now := (((s.tm.now : Int) + 65536 + adj).toNat) % 2 ^ 80, steer := s.tm.steer - adj } }

/-! ## The time tree (R309) -/

/-- Paths that may be a parent, in the order ties go. -/
def parentPaths (s : State) : List Nat :=
  ((List.range 12).filter (fun p => (getReg s (ltuBase + 4)).testBit (12 + p)) ++ (List.range 8).map (· + 16)).filter
    (fun p => (pathOf s p).state = 2)

/-- The path with the lowest stratum, the first of equals. -/
def bestParent (s : State) : Option Nat :=
  (parentPaths s).foldl (fun b p => match b with
    | none => some p
    | some q => if (pathOf s p).stratum < (pathOf s q).stratum then some p else b) none

/-- Choose the parent and the stratum anew: a root and a backup root that has taken over have none; a unit left without
a valid path holds over (R309, R314). -/
def timeTree (s : State) : State :=
  if timeRole s = 1 then
    let s := if s.tm.parent = 0x1F then s else bump s (cLtu 0x110)
    { s with tm := { s.tm with stratum := 0, parent := 0x1F, backup0 := false } }
  else if s.tm.backup0 && decide (timeRole s = 2) then { s with tm := { s.tm with stratum := 0, parent := 0x1F } }
  else match bestParent s with
    | none =>
      let s := enterHoldover s
      if s.tm.parent = 0x1F then s
      else bump { s with tm := { s.tm with parent := 0x1F } } (cLtu 0x110)
    | some p =>
      let s := if s.tm.parent = p then s else bump s (cLtu 0x110)
      { s with tm := { s.tm with parent := p, backup0 := false, stratum := min 31 ((pathOf s p).stratum + 1) } }

/-- Follow the parent's reading. -/
def followParent (s : State) : State :=
  let s := timeTree s
  if s.tm.parent = 0x1F then s else correct (pathOf s s.tm.parent).use s

/-! ## Exchanges (R310 to R313) -/

/-- The offset of the window entry with the smallest delay, the newest of equals. -/
def windowUse (w : List (Int × Int)) : Int :=
  match w with
  | [] => 0
  | e :: r => (r.foldl (fun b x => if x.1 < b.1 then x else b) e).2

/-- The smallest delay of a window. -/
def windowMin (w : List (Int × Int)) : Int :=
  match w with
  | [] => 0
  | e :: r => r.foldl (fun b x => min b x.1) e.1

/-- Valid paths other than `p`, native and Nipen. -/
def validOthers (s : State) (p : Nat) : List Nat :=
  (List.range 12 ++ (List.range 8).map (· + 16)).filter (fun q => decide (q ≠ p) && decide ((pathOf s q).state = 2))

/-- Valid Nipen paths other than `p`. -/
def otherPaths (s : State) (p : Nat) : List Nat := ((List.range 8).map (· + 16)).filter (fun q => decide (q ≠ p) && decide ((pathOf s q).state = 2))

/-- Mean of what a list of paths uses. -/
def meanUse (s : State) (qs : List Nat) : Int :=
  if qs.isEmpty then 0 else qs.foldl (fun a q => a + (pathOf s q).use) 0 / qs.length

/-- A path step (R313): the path leaves the estimate and is measured anew over 64 exchanges. -/
def pathStep (p : Nat) (s : State) : State :=
  setPath p { pathOf s p with state := 3, window := [], hasRef := false, rejects := 0, remeas := 0 } s

/-- One exchange of a re-measurement (R313): what the other valid paths imply is their mean, and holdover implies no
offset. -/
def remeasure (p : Nat) (d raw : Int) (s : State) : State :=
  let v := pathOf s p
  let w := ((d, raw - v.asym) :: v.window).take 16
  let ref := if v.hasRef then min v.dref d else d
  let v := { v with window := w, dref := ref, hasRef := true, remeas := v.remeas + 1, use := windowUse w, lost := 0 }
  if v.remeas < 64 then setPath p v s
  else
    let o := meanUse s (validOthers s p)
    let da := if p < 12 then 0 else v.use - o
    bump (setPath p { v with asym := v.asym + da, state := 2, remeas := 0, updates := 0
                             window := w.map (fun e => (e.1, e.2 - da)), use := v.use - da } s) (cLtu 0x100)

/-- The asymmetry estimate after an accepted exchange on a Nipen path (R312). -/
def calibrate (p : Nat) (raw : Int) (s : State) : State :=
  let qs := otherPaths s p
  if p < 12 || decide (qs.length < 2) then s
  else
    let v := pathOf s p
    let da := (raw - meanUse s qs - v.asym) / 256
    let s := setPath p { v with asym := v.asym + da, updates := v.updates + 1 } s
    if asymJump s < da.natAbs then pathStep p s else s

/-- An exchange on a path has four timestamps (R310). -/
def evalExchange (p stratum : Nat) (t1 t2 t3 t4 : Int) (s : State) : State :=
  let v0 := pathOf s p
  let fwd := t2 - t1
  let rev := t4 - t3
  let d := (fwd + rev) / 2
  let raw := (fwd - rev) / 2
  let v0 := { v0 with stratum := stratum, exch := min 255 (v0.exch + 1), sent := none }
  let v := if v0.state = 4 && decide (32 ≤ v0.lost) then
      { TimePath.init with state := 1, stratum := stratum, exch := 1, preload := v0.preload, asym := v0.asym, partner := v0.partner }
    else v0
  let s := setPath p v s
  if v.state = 0 || v.state = 4 then s
  else
    let s := { s with tm := { s.tm with state := if s.tm.state = 0 then 1 else s.tm.state } }
    if v.state = 3 then followParent (remeasure p d raw s)
    else if v.hasRef && decide (stepThr s < (d - v.dref).natAbs) then
      if v.rejects + 1 < 4 then setPath p { v with rejects := v.rejects + 1, lost := 0 } s
      else followParent (pathStep p s)
    else
      let off := raw - v.asym
      if s.tm.state = 2 && decide (100000 * 65536 < off.natAbs) then
        followParent (bump (setPath p { v with state := 4, lost := 0 } s) (cLtu 0x100))
      else
        let w := ((d, off) :: v.window).take 16
        let n := v.accepted + 1
        let first := n = 16
        let s := setPath p { v with window := w, use := windowUse w, accepted := n, rejects := 0, lost := 0
                                    state := if first then 2 else v.state, updates := if first then 0 else v.updates
                                    dref := if first then windowMin w else v.dref, hasRef := v.hasRef || first } s
        followParent (calibrate p raw s)

/-- Nanoseconds between the exchanges of a path (R311). -/
def exchangeEvery (s : State) (p : Nat) : Nat :=
  if p < 12 then 125000 else (let n := field (ltuCfg s) 7 4; (if n = 0 then 2 else n) * 5000000)

/-- An exchange goes out on a path: the one before it, if unanswered, is lost; 32 lost in a row fail the path (R311). -/
def beginExchange (p : Nat) (s : State) : State :=
  let v := pathOf s p
  let lost := if v.sent.isSome then v.lost + 1 else v.lost
  let v := { v with sent := some s.tm.now, lost := lost, state := if v.state = 0 then 1 else v.state
                    due := nsOf s + exchangeEvery s p }
  if lost = 32 && v.state ≠ 4 then followParent (setPath p { v with state := 4 } s) else setPath p v s

/-- The 48 bytes of a TIME body (Table 12-4); in a Nipen packet its fields are big-endian (R8). -/
def timeBody (nipen : Bool) (stratum : Nat) (response : Bool) (t1 t2 t3 : Nat) : List Byte :=
  let f (t : Nat) : List Byte := if nipen then beBytes 10 t else leBytes 10 t
  slice (leBytes 1 stratum ++ leBytes 1 (bit response) ++ List.replicate 6 0 ++ f t1 ++ f t2 ++ f t3) 0 48

/-- Send a TIME frame on a port, outside every flow and budget (R311, R338). -/
def sendTimeFrame (p dst : Nat) (body : List Byte) (s : State) : State :=
  let h : Head := { kind := 8, prio := 7, last := false, dst := dst, handle := 0, addr := 0, seq := 0, fmt := 0, idx := 0 }
  transmit p 7 0 (etherFrame s p 7 dst (nativePart (headBits s h 48) body)) s

/-- A stratum-0 advertisement returns a backup root to stratum 1 (R309). -/
def seeStratum (stratum : Nat) (s : State) : State :=
  if stratum ≠ 0 then s
  else { s with tm := { s.tm with zeroAt := nsOf s, backup0 := false, stratum := if s.tm.backup0 then 1 else s.tm.stratum } }

/-- A TIME body arrives on a path: a request is answered by `reply`, a response is evaluated (R310). -/
def timeMessage (nipen : Bool) (p : Nat) (body : List Byte) (reply : List Byte → State → State) (s : State) : State :=
  let st := leAt body 0 1 % 32
  let f (o : Nat) : Nat := if nipen then beAt body o 10 else leAt body o 10
  let t1 := f 8
  let s := seeStratum st s
  if leAt body 1 1 % 2 = 0 then reply (timeBody nipen s.tm.stratum true t1 s.tm.now s.tm.now) s
  else if (pathOf s p).sent = some t1 then evalExchange p st t1 (f 18) (f 28) s.tm.now s
  else s

/-- BACKUP_ROOT_TAKEOVER (R309): no stratum-0 advertisement has been seen for 1 s. -/
def execBackupRootTakeover (s : State) : Host.Outcome State Fault Refusal :=
  .next (
    if timeRole s ≠ 2 || s.tm.backup0 || decide (nsOf s < s.tm.zeroAt + 1000000000) || (List.range 24).any (fun p => decide ((pathOf s p).state = 2) && decide ((pathOf s p).stratum = 0)) then s
    else
      let s := enterHoldover s
      timeTree { s with tm := { s.tm with backup0 := true } })

/-! ## External references (R315 to R317) -/

/-- The job epoch in TAI nanoseconds. -/
def epochNs (s : State) : Nat := getReg s (ltuBase + 0xC) * 2 ^ 32 + getReg s (ltuBase + 8)

/-- PTP_MESSAGE_RECEIVE (R315): the slave clock's exchange with its master gives the PTP time of this instant, in
2^-16 ns; the messages themselves are IEEE 1588's (log 41). -/
def execPtpMessageReceive (port : BitVec 4) (domain : Byte) (ptp : BitVec 96) (s : State) : Host.Outcome State Fault Refusal :=
  .next (
    let want := if flag (ltuCfg s) 27 then 6 else 0
    if timeRole s ≠ 1 || timeSource s ≠ 1 || port.toNat ≠ want || portMode s want ≠ 3 || !inService s want
        || domain.toNat ≠ field (getReg s (ltuBase + 4)) 31 24 then s
    else
      let s := { s with tm := { s.tm with srcOk := true, ptpAt := nsOf s } }
      timeTree (correct ((ptp.toNat : Int) - (epochNs s * 65536 : Nat) - s.tm.now) s))

/-- PTP_MASTER_LOSS (R315): no master for 3 s. -/
def execPtpMasterLoss (s : State) : Host.Outcome State Fault Refusal :=
  .next (
    if timeRole s ≠ 1 || timeSource s ≠ 1 || !s.tm.srcOk || decide (nsOf s < s.tm.ptpAt + 3000000000) then s
    else enterHoldover (bump { s with tm := { s.tm with srcOk := false } } (cLtu 0x118)))

/-- An edge or its absence has failed the reference once more: three in a row put the root in holdover (R316). -/
def ppsFail (s : State) : State :=
  let s := { s with tm := { s.tm with ppsMiss := s.tm.ppsMiss + 1 } }
  if s.tm.ppsMiss < 3 then s else enterHoldover { s with tm := { s.tm with srcOk := false } }

/-- An accepted edge of TAI second `sec`, which lies at line time `at'`. -/
def ppsAccept (sec at' : Nat) (s : State) : State :=
  let s := { s with tm := { s.tm with srcOk := true, ppsMiss := 0, ppsSec := sec, ppsName := none, ppsNext := some (at' + 1000000000) } }
  timeTree (correct ((at' * 65536 : Nat) - (s.tm.now : Int)) s)

/-- PPS_IN_EDGE (R316): the first edge is named by TIME_EPOCH, and each later one is a second later. -/
def execPpsInEdge (s : State) : Host.Outcome State Fault Refusal :=
  .next (
    if timeRole s ≠ 1 || timeSource s ≠ 2 then s
    else match s.tm.ppsName, s.tm.ppsNext with
      | some (sec, nb), _ =>
        if nsOf s < nb || decide (sec * 1000000000 < epochNs s) then s else ppsAccept sec (sec * 1000000000 - epochNs s) s
      | none, some t =>
        if 65536 * 1000 < ((t * 65536 : Nat) - (s.tm.now : Int)).natAbs then ppsFail (bump s (cLtu 0x118))
        else ppsAccept (s.tm.ppsSec + 1) t s
      | none, none => s)

/-- PPS_EDGE_MISSING (R316). -/
def execPpsEdgeMissing (s : State) : Host.Outcome State Fault Refusal :=
  .next (
    match s.tm.ppsNext with
    | some t =>
      if timeRole s ≠ 1 || timeSource s ≠ 2 || decide (nsOf s ≤ t + 1000) then s
      else ppsFail { s with tm := { s.tm with ppsNext := some (t + 1000000000), ppsSec := s.tm.ppsSec + 1 } }
    | none => s)

/-- PPS_OUT_PULSE (R317): high at the whole second of line time, and low again after 100 µs. -/
def execPpsOutPulse (s : State) : Host.Outcome State Fault Refusal :=
  .next (
    if flag (ltuCfg s) 3 && decide (2 ≤ s.tm.state) && decide (nsOf s % 1000000000 = 0) then
      emit (.pin 25 false) (emit (.pin 25 true) s)
    else s)

/-- REF10M_CHANGE (R542). -/
def execRef10mChange (present : Bool) (s : State) : Host.Outcome State Fault Refusal :=
  .next { s with tm := { s.tm with ref10m := present } }

/-! ## Timers (R319) -/

/-- Register of a timer. -/
def tmrReg (n : Nat) : Nat := ltuBase + 0x40 + 16 * n
/-- Expiry of a timer. -/
def tmrExpiry (s : State) (n : Nat) : Nat := getReg s (tmrReg n + 8) * 2 ^ 32 + getReg s (tmrReg n + 4)

/-- A timer fires: one ADD token of value 1 from endpoint 0x6E, and it disarms. -/
def fireTimer (n : Nat) (s : State) : State :=
  let c := getReg s (tmrReg n)
  sendToken (field c 30 23) (field c 22 17) 0 0x6E (genOf s) 1 (setReg s (tmrReg n) (putField c 31 31 0))

/-- A timer armed with an expiry already past fires at once and is counted. -/
def timerArmed (n : Nat) (s : State) : State :=
  if flag (getReg s (tmrReg n)) 31 && decide (tmrExpiry s n < nsOf s) then fireTimer n (bump s (cLtu 0x130)) else s

/-- LINE_TIMER_EXPIRY. -/
def execLineTimerExpiry (timer : BitVec 3) (s : State) : Host.Outcome State Fault Refusal :=
  .next (if flag (getReg s (tmrReg timer.toNat)) 31 && decide (tmrExpiry s timer.toNat ≤ nsOf s) then fireTimer timer.toNat s else s)

/-- TIME_TIMER. -/
def kTimeTimer (_h : CmdHdr) (timer : Byte) (ctl : W32) (expiry : W64) (s : State) : KRes :=
  let n := timer.toNat
  if 7 < n then kFail stParameter 0 s
  else
    let s := setReg (setReg s (tmrReg n + 4) (expiry.toNat % 2 ^ 32)) (tmrReg n + 8) (expiry.toNat / 2 ^ 32)
    kOk 0 (timerArmed n (setReg s (tmrReg n) (ctl.toNat / 2 ^ 17 * 2 ^ 17)))

/-! ## Commands of line time (Table 11-8) -/

/-- TIME_EPOCH (R306, R316). -/
def kTimeEpoch (h : CmdHdr) (epoch ppsSecond : W64) (s : State) : KRes :=
  if stepActive s then kFail stActive 0 s
  else
    let s := touchCfg (setReg (setReg s (ltuBase + 8) (epoch.toNat % 2 ^ 32)) (ltuBase + 0xC) (epoch.toNat / 2 ^ 32))
    if timeSource s ≠ 2 then kOk 0 s
    else kOk 0 { s with tm := { s.tm with ppsName := some (ppsSecond.toNat, h.notBefore.toNat), ppsNext := none, ppsMiss := 0 } }

/-- What TIME_QUERY writes; the manual names the contents and no layout (log 32). -/
def timeRecord (s : State) : List Byte :=
  leBytes 4 (ltuStatus s) ++ leBytes 4 0 ++ leBytes 10 s.tm.now ++ List.replicate 14 0
    ++ (List.range 24).flatMap (fun p => leBytes 4 (pathStat s p) ++ leBytes 4 (pathDelay s p) ++ leBytes 4 (pathAsym s p) ++ leBytes 4 0)

/-- TIME_QUERY. -/
def kTimeQuery (h : CmdHdr) (buf : Buf) (s : State) : KRes :=
  withBuf h buf s (let d := timeRecord s; deliver h buf d id d.length s)

/-- TIME_PATH_SET (R312): partners of Nipen paths 0 to 7; a changed path restarts as new. The IPv6 address of an entry is
read in network order: the manual gives its 16 bytes no order. DESIGN CHOICE (log 78), unsafe. -/
def pathsInstall (pb : List Byte) (s : State) : State :=
  followParent ((maskBits 8 (leAt pb 0 1)).foldl (fun s i =>
    let e := slice pb (64 + 32 * i) 32
    let asym : Int := signed 32 (leAt e 4 4) * 4096
    setPath (16 + i) { TimePath.init with
      asym := asym, preload := asym
      partner := (decide (leAt e 0 1 % 2 = 1), leAt e 1 1 % 64, leAt e 2 2, beAt e 16 16) } s) s)

/-- TIME_PATH_SET. -/
def kTimePathSet (h : CmdHdr) (s : State) : KRes := kOk 0 (pathsInstall h.pb s)

/-- The share words of a BUDGET_SET block, in column and class order. -/
def budgetWords (pb : List Byte) : List Nat :=
  (List.range 7).flatMap (fun col => (List.range 16).map (fun c => leAt pb (shareAddr col c - bgtBase) 4 / 2 ^ 15 * 2 ^ 15))

/-- Refresh and calibration keep what they need at every period PERIOD_K can select. -/
def guaranteesOk (g14 g15 : Nat) : Bool :=
  (List.range 6).all (fun k =>
    let p := 2 ^ (11 + k)
    let cap := Resource.capacity p (.channel 0)
    decide (2 * ceilDiv (131072 * p) 16000000 ≤ g15 * cap / 256) && decide (64 ≤ g14 * cap / 256))

/-- The validation of R327. -/
def budgetOk (ws : List Nat) : Bool :=
  let share (col c : Nat) : Nat × Nat := let w := ws.getD (16 * col + c) 0; (field w 31 24, field w 23 15)
  let sum (col : Nat) : Nat := (List.range 16).foldl (fun a c => a + (share col c).1) 0
  (List.range 7).all (fun col => decide (sum col ≤ if col = 1 then 128 else 256)
      && (List.range 16).all (fun c => decide ((share col c).1 ≤ (share col c).2) && decide ((share col c).2 ≤ 256)))
    && guaranteesOk (share 0 14).1 (share 0 15).1

/-- BUDGET_SET (R327): answered at the boundary that applies it. -/
def kBudgetSet (h : CmdHdr) (s : State) : KRes :=
  let ws := budgetWords h.pb
  if s.bud.pending.isSome then kFail stBusy 0 (bump s (bgtBase + 0x500))
  else if !budgetOk ws then kFail stParameter 0 (bump s (bgtBase + 0x500))
  else kDefer { s with bud := { s.bud with
    pending := some (ws, leAt h.pb 0x200 3, h.notBefore.toNat, replyTo h 0x0803 s) } }

/-- Install a share set. -/
def installShares (ws : List Nat) (prof : Nat) (s : State) : State :=
  let s := (List.range 112).foldl (fun s i => setReg s (shareAddr (i / 16) (i % 16)) (ws.getD i 0)) s
  setReg s (bgtBase + 0x200) prof

/-- A pending set takes effect at the first boundary at or after its "not before" time. -/
def applyBudget (s : State) : State :=
  match s.bud.pending with
  | none => s
  | some (ws, prof, nb, r) =>
    if nsOf s < nb then s
    else postReply r true 0 0 (installShares ws prof { s with bud := { s.bud with pending := none } })

/-- A committed PERIOD_K takes effect at a multiple of the larger period (R320). -/
def applyPeriod (s : State) : State :=
  match s.bud.nextK with
  | none => s
  | some k =>
    if nsOf s % 2 ^ (11 + max k s.bud.periodK) ≠ 0 then s
    else { s with bud := { s.bud with periodK := k, nextK := none } }

/-- BGT_STATUS. -/
def bgtStatus (s : State) : Nat :=
  bit s.bud.pending.isSome * 2 ^ 31
    + (List.range 8).foldl (fun a k => a + (if (stackOf s k).level = 2 then 2 ^ (23 + k) else 0)) 0

/-- BUDGET_PERIOD_BOUNDARY (R320, R323, R325): at a multiple of P, buckets and ceilings are whole again and waiting
frames go out. -/
def execBudgetPeriodBoundary (s : State) : Host.Outcome State Fault Refusal :=
  .next (
    if nsOf s % periodNs s ≠ 0 then s
    else
      let p := periodNs s
      let s := if p * 65536 / 5000 < s.tm.steer.natAbs then bump s (cLtu 0x128) else s
      let s := applyPeriod (applyBudget s)
      let s := if (List.range 8).any (fun k => (stackOf s k).level = 2) then bump s (bgtBase + 0x508) else s
      let s := { s with bud := { s.bud with use := [], lent := [] } }
      (List.range 12).foldl (fun s p => portPeriod p s) s)

end Sys2Proof.Machine
end

