-- ==== Sys2Proof/Machine/FabricRx.lean ====
section
/-!
DEFINITION. What reaches the module over the site fabric: received native frames and their checks, control frames,
link events and timeouts, and the fabric's configuration commands (chapter 12, R332 to R370).
-/
namespace Sys2Proof.Machine

/-! ## Native headers (Table 12-3) -/

def nhVersion (w : Nat) : Nat := field w 255 252
def nhKind (w : Nat) : Nat := field w 251 248
def nhPrio (w : Nat) : Nat := field w 247 245
def nhGen (w : Nat) : Bool := flag w 244
def nhSlow (w : Nat) : Bool := flag w 243
def nhLast (w : Nat) : Bool := flag w 242
def nhDst (w : Nat) : Nat := field w 239 224
def nhSrc (w : Nat) : Nat := field w 223 208
def nhJob (w : Nat) : Nat := field w 207 176
def nhPlumb (w : Nat) : Nat := field w 175 144
def nhHandle (w : Nat) : Nat := field w 143 128
def nhAddr (w : Nat) : Nat := field w 127 80
def nhLen (w : Nat) : Nat := field w 79 64
def nhSeq (w : Nat) : Nat := field w 63 32
def nhHop (w : Nat) : Nat := field w 31 24
def nhFmt (w : Nat) : Nat := field w 23 20
def nhIdx (w : Nat) : Nat := field w 15 0

/-- A received native frame taken apart: header, payload, end-to-end check, and what the payload of a CONTRIB frame encodes
where it is no plain contribution of the handle's format; no header field says so (log 70). -/
structure RxFrame where
  hdr     : Nat
  payload : List Byte
  check   : Nat
  form    : Option Contribution
  deriving DecidableEq, Repr

/-- The native part of an Ethernet frame on port `p`; none where its EtherType is another or it is too short. -/
def parseFrame (s : State) (p : Nat) (frame : List Byte) : Option RxFrame :=
  let o := if portMode s p = 2 && decide (beAt frame 12 2 = 0x8100) then 16 else 12
  let body := (frame.take (frame.length - 4)).drop (o + 2)
  if beAt frame o 2 ≠ getReg s (fabBase + 4) || decide (body.length < 36) then none
  else some { hdr := beNat (body.take 32), payload := (body.drop 32).take (body.length - 36), check := beNat (body.drop (body.length - 4))
              form := none }

/-- The FCS of an Ethernet frame is right. -/
def fcsOk (frame : List Byte) : Bool :=
  decide (4 ≤ frame.length) && decide (leNat (frame.drop (frame.length - 4)) = crc32 (frame.take (frame.length - 4)))

/-- Count a discard by target, kind or relay (R336). -/
def tgtDrop (p : Nat) (s : State) : State := bump s (cFab p 0x130)

/-! ## Targets (R336 step 7) -/

/-- A WRITE may enter its target: fabric-writable Treim, or allocated SHARED plinth pages (R29). -/
def writeTargetOk (s : State) (a n : Nat) : Bool :=
  rangeMapped s .fabric a n && (linesOf a n).all (fun l => match classify l with
    | .plinth p r g => (pageHolder s p r g).2
    | _ => true)

/-- A range touches the checkpoint area (R368). -/
def inCkptArea (s : State) (a n : Nat) : Bool :=
  let r := getReg s (fabBase + 0x10)
  flag r 31 && (linesOf a n).any (fun l => decide (field r 30 22 * 2 ^ 30 ≤ l) && decide (l < (field r 21 13 + 1) * 2 ^ 30))

/-- A WRITE frame (R29, R336, R368). -/
def rxWrite (p : Nat) (f : RxFrame) (s : State) : State :=
  let a := nhAddr f.hdr
  let n := f.payload.length
  if inCkptArea s a n && !(decide (nhSrc f.hdr = ckptFrom s) && decide (nhPrio f.hdr = 2)) then bump s cFabCkptRef
  else if !writeTargetOk s a n || (s.pwr.state ≠ 0 && decide (a < 0x008000000000)) then tgtDrop p s
  else writeTo .fabric (if nhPrio f.hdr = 2 then 10 else 8) a f.payload s

/-- A run of the handle is in progress here: from step begin for a step-bound handle, from the named instant for one
run by COLL_RUN (R355). -/
def inProgress (s : State) (h : Handle) : Bool :=
  h.run.any (fun r => stepBound h || r.started || decide (r.at' ≤ nsOf s))

/-- Mark a member slow for the run, once (R361). -/
def markSlow (hn i : Nat) (s : State) : State :=
  match handleOf s hn with
  | some h => match h.run with
    | some r =>
      if r.slow.contains i then s
      else colEvent 3 hn ((handleMembers s h).getD i 0xFFFF) (bump (setRun hn (some { r with slow := r.slow ++ [i] }) s) (cCol 0x118))
    | none => s
  | none => s

/-- Record a member whose plumb digest differs, once a run (R367). -/
def markPlumb (hn i : Nat) (f : RxFrame) (s : State) : State :=
  if nhPlumb f.hdr = plumb s then s
  else match handleOf s hn with
    | some h => match h.run with
      | some r =>
        if r.plumb.contains i then s
        else colEvent 2 hn ((handleMembers s h).getD i 0xFFFF) (bump (setRun hn (some { r with plumb := r.plumb ++ [i] }) s) (cCol 0x120))
      | none => s
    | none => s

/-- What a frame of a run says beside its data: its sender's heat and digest. -/
def noteSender (hn i : Nat) (f : RxFrame) (s : State) : State :=
  let s := markPlumb hn i f s
  if nhSlow f.hdr then markSlow hn i s else s

/-- Where a CONTRIB lands in the module's own part: its first element there; none where it does not map (R336). -/
def contribAt (s : State) (h : Handle) (addr n : Nat) : Option Nat :=
  let me := ownIndex s h
  let cnt := elemsOf h n
  match hdOp h.header with
  | 2 => none
  | 5 => none
  | 6 => if me = 0 ∧ addr + n ≤ elemBytes h (hdTotal h.header) then some (elemsOf h addr) else none
  | op =>
    match partAt h (handleMembers s h).length ((handleMembers s h).length + 1) 0 (elemsOf h addr) with
    | some (j, e) =>
      if j ≠ me then none
      else if op = 4 then some e
      else if partLen h (handleMembers s h).length me < e + cnt then none
      else if hdDest h.header then
        match extentAt h.extents e with
        | some (k, i, _, q) => if q = 0 && (shardOf s k i).isSome then some e else none
        | none => none
      else some e
    | none => none

/-- What a CONTRIB frame brings: plain elements of the handle's format, unless the frame says otherwise. -/
def contribForm (h : Handle) (f : RxFrame) : Contribution := f.form.getD (plainForm h f.payload [])

/-- Bytes of the handle's format that a CONTRIB frame must fit with: the length of a coded payload says nothing of that. -/
def contribSpan (f : RxFrame) : Nat := if f.form.isSome then 0 else f.payload.length

/-- A CONTRIB frame for a collective (R336, R355, R356, R359, R360). -/
def rxContrib (p hn : Nat) (h : Handle) (f : RxFrame) (s : State) : State :=
  let i := nhIdx f.hdr
  if (handleMembers s h)[i]? ≠ some (nhSrc f.hdr) then tgtDrop p s
  else if !inProgress s h then
    (if hdDest h.header && decide (nhGen f.hdr ≠ genOf s) then
      match contribAt s h (nhAddr f.hdr) (contribSpan f) with
      | some e => ownerAdd hn h i e (nhGen f.hdr) (contribForm h f) f.payload s
      | none => s
    else if stepBound h && decide (nhGen f.hdr ≠ genOf s) then s else bump s (cCol 0x110))
  else if nhGen f.hdr ≠ genOf s then
    match contribAt s h (nhAddr f.hdr) (contribSpan f) with
    | some e => if hdDest h.header then ownerAdd hn h i e (nhGen f.hdr) (contribForm h f) f.payload s else s
    | none => s
  else
    let s := noteSender hn i f s
    match (handleOf s hn).bind Handle.run with
    | none => s
    | some r =>
      if r.excluded.contains i || r.own then bump s (cCol 0x110)
      else if r.lost.contains (ownIndex s h) || r.excluded.contains (ownIndex s h) then bump s (cCol 0x128)
      else
        let s := match contribAt s h (nhAddr f.hdr) (contribSpan f) with
          | some e => ownerAdd hn ((handleOf s hn).getD h) i e (nhGen f.hdr) (contribForm h f) f.payload s
          | none => tgtDrop p s
        if nhLast f.hdr then noteLast hn i s else s

/-- Record that part `j` is held. -/
def gotPart (hn j : Nat) (s : State) : State :=
  match (handleOf s hn).bind Handle.run with
  | some r => if r.got.contains j then s else setRun hn (some { r with got := r.got ++ [j] }) s
  | none => s

/-- Accumulators or block headers of another member's part enter the same shard positions here (R357, log 31). -/
def rxAccumulators (p : Nat) (f : RxFrame) (s : State) : State :=
  let a := nhAddr f.hdr
  let (k, i, e) := (field a 46 44, field a 43 33, field a 32 0)
  let n := f.payload.length / 8
  match shardOf s k i with
  | none => tgtDrop p s
  | some sh =>
    let d := sh.desc
    if flag a 47 then
      (if sdBlocks d < e / 1024 + n then tgtDrop p s
      else writeTo (.corbel k) 8 (rbHeader d (e / 1024)) f.payload s)
    else if sdBlocks d * 1024 < e + n then tgtDrop p s
    else writeTo (.corbel k) 8 (sdRb d + 8 * e) f.payload s

/-- A RESULT frame (R336, R355, R357). -/
def rxResult (p hn : Nat) (h : Handle) (f : RxFrame) (s : State) : State :=
  let j := nhIdx f.hdr
  let ms := handleMembers s h
  let len := f.payload.length
  if ms[j]? ≠ some (nhSrc f.hdr) then tgtDrop p s
  else if !inProgress s h then (if stepBound h && decide (nhGen f.hdr ≠ genOf s) then s else bump s (cCol 0x110))
  else if nhGen f.hdr ≠ genOf s then s
  else
    let s := noteSender hn j f s
    if ((handleOf s hn).bind Handle.run).any (fun r => r.excluded.contains j || r.lost.contains j) then bump s (cCol 0x110)
    else
      let a := nhAddr f.hdr
      let lo := elemBytes h (partOff h ms.length j)
      let inPart := decide (lo ≤ a) && decide (a + len ≤ lo + elemBytes h (partLen h ms.length j))
      let place (ok : Bool) (s : State) : State :=
        if ok then writeTo .lintel 8 (hdLocal h.header + a) f.payload s else tgtDrop p s
      let s := match hdOp h.header with
        | 2 => place inPart s
        | 3 => if hdDest h.header then rxAccumulators p f s else place inPart s
        | 5 => place (decide (j = 0) && decide (a + len ≤ elemBytes h (hdTotal h.header))) s
        | _ => tgtDrop p s
      if nhLast f.hdr then gotPart hn j s else s

/-- A CREDIT frame (R295): the credit message goes to the producer's pool; one of the other generation is discarded. -/
def rxCredit (p : Nat) (f : RxFrame) (s : State) : State :=
  if (queueDesc s (nhHandle f.hdr)).isNone then tgtDrop p s
  else if (leAt f.payload 0 4).testBit 18 ≠ genOf s then bump s (cStep 12)
  else send (.credit 0x6C (BitVec.ofNat 32 (leAt f.payload 0 4))) s

/-! ## Control frames (Table 12-4) -/

/-- CTRL about a run: its member `idx` excludes itself, is slow, or has lost its part (R359 to R361). -/
def rxRunCtrl (p code : Nat) (f : RxFrame) (s : State) : State :=
  let hn := nhHandle f.hdr
  let i := nhIdx f.hdr
  match handleOf s hn with
  | none => tgtDrop p s
  | some h =>
    if (handleMembers s h)[i]? ≠ some (nhSrc f.hdr) then tgtDrop p s
    else if h.run.isNone then s
    else
      let s := markPlumb hn i f s
      match code with
      | 1 => excludeMember hn i 1 s
      | 2 => markSlow hn i s
      | _ => partLost hn i ((List.range ((f.payload.length - 1) / 8)).map (fun x => leAt f.payload (1 + 8 * x) 8)) s

/-- CTRL "flow close": the context of the named flow goes, after its last acknowledgement (R344). -/
def rxFlowClose (f : RxFrame) (s : State) : State :=
  let src := nhSrc f.hdr
  let q := leAt f.payload 1 1 % 8
  let s := if q ≠ 7 then s else match rxFlow s src 7 with
    | some r => sendAck src 7 r.expect s
    | none => s
  setRx s src q none

/-- What this module answers to a request to hold the checkpoint of `src`: 1 confirmed, 2 refused, 3 not ready
(R368, R425). -/
def buddyVerdict (s : State) (src dest : Nat) : Nat :=
  let r := getReg s (fabBase + 0x10)
  if ckptFrom s ≠ src || dest ≠ ownFid s || !flag r 31 then 2
  else if (List.range 8).any (fun k => (stackOf s k).stopped || (stackOf s k).stopping) || s.pwr.state ≠ 0 then 3
  else 1

/-- CTRL "buddy check" (R368): a request is answered with the area this module holds; an answer settles the pairing. -/
def rxBuddy (f : RxFrame) (s : State) : State :=
  let src := nhSrc f.hdr
  let v := leAt f.payload 1 1
  let refused (s : State) : State := lossLog 0x110 src (bump s cFabCkptRef)
  if v = 0 then
    let r := getReg s (fabBase + 0x10)
    let ans := buddyVerdict s src (leAt f.payload 2 2)
    let size := if flag r 31 then (field r 21 13 + 1 - field r 30 22) * 2 ^ 30 else 0
    let s := if ans = 2 then refused s else s
    sendCtrl src 0 5 0 ([BitVec.ofNat 8 ans] ++ leBytes 2 (field r 30 22) ++ leBytes 8 size) s
  else if src ≠ ckptTo s then s
  else
    let s := { s with fab := { s.fab with buddy := v, areaAt := leAt f.payload 2 2, area := leAt f.payload 4 8 } }
    if v = 2 then refused s else s

/-- A CTRL frame. -/
def rxCtrl (p : Nat) (f : RxFrame) (s : State) : State :=
  match leAt f.payload 0 1 with
  | 1 => rxRunCtrl p 1 f s
  | 2 => rxRunCtrl p 2 f s
  | 3 => rxRunCtrl p 3 f s
  | 4 => rxFlowClose f s
  | 5 => rxBuddy f s
  | _ => tgtDrop p s

/-! ## Reception (R336) -/

/-- Step 7: the frame reaches its target. The words of the built-in handles come with their own commands (log 33). -/
def rxTarget (p : Nat) (f : RxFrame) (s : State) : State :=
  let hn := nhHandle f.hdr
  match nhKind f.hdr with
  | 1 => rxWrite p f s
  | 2 =>
    if 0xFFF0 ≤ hn then (if s.stp.r = 0 ∨ 0xFFF4 ≤ hn then tgtDrop p s else s)
    else match consumerQueue s hn, handleOf s hn with
      | some _, _ => queueArrive hn (nhAddr f.hdr) (nhGen f.hdr) f.payload s
      | none, some h => rxContrib p hn h f s
      | none, none => tgtDrop p s
  | 3 =>
    if 0xFFF0 ≤ hn then (if s.stp.r = 0 ∨ 0xFFF4 ≤ hn then tgtDrop p s else s)
    else match handleOf s hn with
      | some h => rxResult p hn h f s
      | none => tgtDrop p s
  | 4 => rxCredit p f s
  | 7 => rxCtrl p f s
  | _ => tgtDrop p s

/-- Step 6: the frame a flow expects is applied and acknowledged at least every 8 frames; a gap is answered with a NACK
at most once in 4 µs; a frame of no context but the first asks for a restart (R344). A frame already applied falls due
for acknowledgement again (log 36). -/
def rxSequence (p : Nat) (f : RxFrame) (s : State) : State :=
  let src := nhSrc f.hdr
  let q := nhPrio f.hdr
  let seq := nhSeq f.hdr
  let drop (s : State) : State := bump s (cFab p 0x178)
  let apply (r : RxFlow) (s : State) : State :=
    let r := { r with expect := (seq + 1) % 2 ^ 32, unackd := r.unackd + 1, nacked := 0 }
    let s := if r.unackd < 8 then setRx s src q (some r)
      else sendAck src q r.expect (setRx s src q (some { r with unackd := 0 }))
    rxTarget p f s
  match rxFlow s src q with
  | none =>
    if seq = 0 then apply { expect := 0, unackd := 0, nacked := 0 } s else sendNack src q 0 true (drop s)
  | some r =>
    if seq = r.expect then apply r s
    else if (seq + 2 ^ 32 - r.expect) % 2 ^ 32 < 2 ^ 31 then
      let s := drop s
      if r.nacked = 0 || decide (r.nacked + 4000 ≤ nsOf s + 1) then
        sendNack src q r.expect false (setRx s src q (some { r with nacked := nsOf s + 1 }))
      else s
    else setRx (drop s) src q (some { r with unackd := max 1 r.unackd })

/-- Step 5: a frame for another module is relayed by this module's routes, on the port of R340's formula, or discarded
(R341). -/
def rxRelay (p : Nat) (f : RxFrame) (s : State) : State :=
  let w := f.hdr
  if !flag (getReg s fabBase) 15 then tgtDrop p s
  else if nhHop w = 0 then bump s (cFab p 0x138)
  else
    let ps := eligible s (nhDst w)
    match ps[((nhSrc w * 2 ^ 16 + nhDst w) * 0x9E3779B1 + nhPrio w) % 2 ^ 32 % ps.length]? with
    | none => tgtDrop p s
    | some q =>
      let body := beBytes 32 (putField w 31 24 (nhHop w - 1)) ++ f.payload ++ beBytes 4 f.check
      transmit q (nhPrio w) 16 (etherFrame s q (nhPrio w) (nhDst w) body) s

/-- Count a plumb digest that differs, and record the first since the last read (R367). -/
def notePlumb (p : Nat) (f : RxFrame) (s : State) : State :=
  if nhPlumb f.hdr = plumb s then s
  else
    let s := bump s (cFab p 0x128)
    if flag (getReg s (fabBase + 0x24)) 31 then s
    else setReg s (fabBase + 0x24) (2 ^ 31 + p * 2 ^ 27 + nhSrc f.hdr)

/-- A frame for this module, past steps 1 to 5. -/
def rxOwn (p : Nat) (f : RxFrame) (s : State) : State :=
  let src := nhSrc f.hdr
  let bcast := decide (nhDst f.hdr = 0xFFFF)
  match nhKind f.hdr with
  | 5 => ackFlow src (nhIdx f.hdr % 8) (nhSeq f.hdr) s
  | 6 =>
    if nhLast f.hdr then restartFlow src (nhIdx f.hdr % 8) s
    else resendFrom src (nhIdx f.hdr % 8) (nhSeq f.hdr) (ackFlow src (nhIdx f.hdr % 8) (nhSeq f.hdr) s)
  | 8 => timeMessage false p f.payload (sendTimeFrame p src) s
  | 7 => if bcast then rxCtrl p f s else rxSequence p f s
  | _ => if bcast then tgtDrop p s else rxSequence p f s

/-- A native frame arrives on a port, with what it encodes: the checks of R336 in their order. -/
def receiveForm (p : Nat) (frame : List Byte) (form : Option Contribution) (s : State) : State :=
  if !inService s p || !portNative s p then s
  else
    let s := bump s (cFab p 0x108)
    if !fcsOk frame then bump s (cFab p 0x110)
    else match (parseFrame s p frame).map (fun f => { f with form := form }) with
      | none => s
      | some f =>
        let w := f.hdr
        let own := ownFid s
        if e2eCheck w f.payload ≠ f.check then bump s (cFab p 0x118)
        else if nhVersion w ≠ 1 || nhKind w = 0 || decide (8 < nhKind w) || nhLen w ≠ f.payload.length then tgtDrop p s
        else if nhJob w ≠ jobId s then bump s (cFab p 0x120)
        else
          let s := notePlumb p f s
          if own ≠ 0xFFFF && decide (nhSrc w = own) then postEvent 0x000C p (7 * 4096 + p) (tgtDrop p s)
          else if nhDst w = own || nhDst w = 0xFFFF then rxOwn p f s
          else rxRelay p f s

/-- A native frame arrives on a port. -/
def receiveFrame (p : Nat) (frame : List Byte) (s : State) : State := receiveForm p frame none s

/-- WRITE_FRAME_RECEIVE (R29, R336, R344). -/
def execWriteFrameReceive (port : BitVec 4) (frame : List Byte) (s : State) : Host.Outcome State Fault Refusal :=
  .next (receiveFrame port.toNat frame s)
/-- CONTRIB_FRAME_RECEIVE (R160, R295, R336, R356): `form` is given where the payload is a coded or VQ contribution, or
carries scales and block metadata (log 70). -/
def execContribFrameReceive (port : BitVec 4) (frame : ContribFrame) (s : State) : Host.Outcome State Fault Refusal :=
  .next (receiveForm port.toNat frame.bytes frame.form s)
/-- RESULT_FRAME_RECEIVE (R336, R357). -/
def execResultFrameReceive (port : BitVec 4) (frame : List Byte) (s : State) : Host.Outcome State Fault Refusal :=
  .next (receiveFrame port.toNat frame s)
/-- CREDIT_FRAME_RECEIVE (R295, R336). -/
def execCreditFrameReceive (port : BitVec 4) (frame : List Byte) (s : State) : Host.Outcome State Fault Refusal :=
  .next (receiveFrame port.toNat frame s)
/-- ACK_FRAME_RECEIVE (R344, R345, R347). -/
def execAckFrameReceive (port : BitVec 4) (frame : List Byte) (s : State) : Host.Outcome State Fault Refusal :=
  .next (receiveFrame port.toNat frame s)
/-- NACK_FRAME_RECEIVE (R344). -/
def execNackFrameReceive (port : BitVec 4) (frame : List Byte) (s : State) : Host.Outcome State Fault Refusal :=
  .next (receiveFrame port.toNat frame s)
/-- CTRL_EXCLUDE_SELF (R359). -/
def execCtrlExcludeSelf (port : BitVec 4) (frame : List Byte) (s : State) : Host.Outcome State Fault Refusal :=
  .next (receiveFrame port.toNat frame s)
/-- CTRL_SLOW (R361). -/
def execCtrlSlow (port : BitVec 4) (frame : List Byte) (s : State) : Host.Outcome State Fault Refusal :=
  .next (receiveFrame port.toNat frame s)
/-- CTRL_PART_LOST (R360). -/
def execCtrlPartLost (port : BitVec 4) (frame : List Byte) (s : State) : Host.Outcome State Fault Refusal :=
  .next (receiveFrame port.toNat frame s)
/-- CTRL_FLOW_CLOSE (R344). -/
def execCtrlFlowClose (port : BitVec 4) (frame : List Byte) (s : State) : Host.Outcome State Fault Refusal :=
  .next (receiveFrame port.toNat frame s)
/-- CTRL_BUDDY_CHECK (R368, R425). -/
def execCtrlBuddyCheck (port : BitVec 4) (frame : List Byte) (s : State) : Host.Outcome State Fault Refusal :=
  .next (receiveFrame port.toNat frame s)
/-- TIME_FRAME_RECEIVE (R310). -/
def execTimeFrameReceive (port : BitVec 4) (frame : List Byte) (s : State) : Host.Outcome State Fault Refusal :=
  .next (receiveFrame port.toNat frame s)

/-! ## Link events (R334, R347, R348) -/

/-- A port that left service returns only after a new training, which a mode change or a module reset begins (R334). -/
def stayDown (p : Nat) (s : State) : State := setPort s p { portOf s p with dead := true }

/-- Nanoseconds of `t` pause quanta of 512 bit times at the rate of a port (IEEE 802.1Qbb). Mark PRESUMED (log 86), unsafe. -/
def pauseNs (s : State) (p t : Nat) : Nat := if (portOf s p).state = 3 then t * 64 / 50 else t * 64 / 100

/-- PAUSE_FRAME_RECEIVE (R348): a pause frame on a switched port, honoured for the priorities of PFC_EN: a nonzero
time pauses its priority, a zero time lets it go on. -/
def execPauseFrameReceive (port : BitVec 4) (enable : Byte) (times : List W16) (s : State) : Host.Outcome State Fault Refusal :=
  .next (
    let p := port.toNat
    if portMode s p ≠ 2 || !inService s p then s
    else
      let s := bump s (cFab p 0x150)
      let on := enable.toNat &&& field (portCfg s p) 15 8
      let o := portOf s p
      let m := (maskBits 8 on).foldl (fun m q =>
        if (times.getD q 0).toNat = 0 then m &&& (255 ^^^ 2 ^ q) else m ||| 2 ^ q) o.paused
      let begun (q : Nat) : Nat := if o.paused.testBit q then (sget (0, 0) o.pause q).1 else nsOf s
      let pause := (maskBits 8 (on &&& m)).foldl (fun t q =>
        sput (0, 0) t q (begun q, nsOf s + pauseNs s p (times.getD q 0).toNat)) o.pause
      pumpPort p (setPort s p { o with paused := m, pause := pause }))

/-- PAUSE_TIME_EXPIRY (R348): the pause time of a priority runs out. -/
def execPauseTimeExpiry (port : BitVec 4) (prio : BitVec 3) (s : State) : Host.Outcome State Fault Refusal :=
  .next (
    let o := portOf s port.toNat
    if !o.paused.testBit prio.toNat || decide (nsOf s < (sget (0, 0) o.pause prio.toNat).2) then s
    else pumpPort port.toNat (setPort s port.toNat { o with paused := o.paused ^^^ 2 ^ prio.toNat }))

/-- PAUSE_WATCHDOG_EXPIRY (R348): a priority paused for PFC_WD × 50 µs is a pause fault; the port leaves service and its flows
move. PFC_WD = 0 disables it. -/
def execPauseWatchdogExpiry (port : BitVec 4) (prio : BitVec 3) (s : State) : Host.Outcome State Fault Refusal :=
  .next (
    let p := port.toNat
    let wd := field (portCfg s p) 7 0
    if !(portOf s p).paused.testBit prio.toNat || !inService s p || wd = 0
        || decide (nsOf s < (sget (0, 0) (portOf s p).pause prio.toNat).1 + wd * 50000) then s
    else excludeAllUnreachable (stayDown p (portDown p 5 (bump s (cFab p 0x158)))))

/-- LANE_FAIL (R334): a port leaves service; a native port at full width trains again on the half without the failed lane, and any other stays
down. -/
def execLaneFail (port : BitVec 4) (lane : BitVec 2) (s : State) : Host.Outcome State Fault Refusal :=
  .next (
    let p := port.toNat
    if !inService s p || !(portOf s p).lanes.testBit lane.toNat then s
    else
      let half := (portOf s p).state = 2 && portNative s p && flag (portCfg s p) 29
      let s := bump s (cFab p 0x168)
      excludeAllUnreachable (
        if half then
          (let s := portDown p 1 s
           setPort s p { portOf s p with lanes := if lane.toNat < 2 then 12 else 3 })
        else
          (let s := stayDown p (portDown p 0 s)
           setPort s p { portOf s p with lanes := 0 })))

/-- PORT_TRAINING_COMPLETE (R334, R347): four lanes, or the two a lane fault left; a direct port also needs the far
end's credits. The port takes new flows, and its time path starts as new. -/
def execPortTrainingComplete (port : BitVec 4) (lanes : BitVec 4) (credits : Bool) (peer : W16) (s : State) :
    Host.Outcome State Fault Refusal :=
  .next (
    let p := port.toNat
    let o := portOf s p
    let m := portMode s p
    let l := lanes.toNat
    let two := decide (l = o.lanes) && (l = 3 || l = 12) && portNative s p && flag (portCfg s p) 29
    if 12 ≤ p || m = 0 || s.pwr.stage ≠ 5 || (sget (0, 0) s.pwr.temps (9 + p)).2 = 3 || inService s p || o.dead || !(two || (l = 15 && (o.lanes = 0 || o.lanes = 15))) then s
    else if m = 1 && !credits then setPort s p { o with state := 1, lanes := l, since := nsOf s }
    else
      let s := setPort s p { o with state := if two then 3 else 2, lanes := l, native := decide (m = 1)
                                    peer := if m = 1 then peer.toNat else 0xFFFF, used := 0, owed := 0, capped := false }
      setPath p TimePath.init (forgivePort p s))

/-- LINK_CREDIT_TIMEOUT (R347): 1 ms after training without the far end's credits, the port stays down and is counted. -/
def execLinkCreditTimeout (port : BitVec 4) (s : State) : Host.Outcome State Fault Refusal :=
  .next (
    let p := port.toNat
    if portMode s p ≠ 1 || (portOf s p).native || (portOf s p).state ≠ 1 || (portOf s p).lanes = 0
        || decide (nsOf s < (portOf s p).since + 1000000) then s
    else bump (stayDown p (setPort s p { portOf s p with state := 0 })) (cFab p 0x170))

/-! ## Timeouts of flows (R344, R345) -/

/-- RETRANSMIT_TIMEOUT (R345): RTO µs after the oldest was sent, the unacknowledged frames are resent; two in a row pin the flow anew without its port;
16, or no port left, make the destination unreachable. -/
def execRetransmitTimeout (dst : W16) (prio : BitVec 3) (s : State) : Host.Outcome State Fault Refusal :=
  .next (
    let (d, q) := (dst.toNat, prio.toNat)
    match txFlow s d q with
    | none => s
    | some f =>
      match f.unacked with
      | [] => s
      | u :: _ =>
        if nsOf s < f.at' + field (getReg s fabBase) 9 4 * 1000 then s
        else
          let s := bump s (cFab f.port 0x148)
          let f := { f with touts := f.touts + 1, allTouts := f.allTouts + 1 }
          let s := setTx s d q (some f)
          excludeAllUnreachable (
            if 16 ≤ f.allTouts then makeUnreachable d s
            else if 2 ≤ f.touts then repinFlow d q (setTx s d q (some { f with bad := f.bad ++ [f.port] }))
            else resendFrom d q u.1 s))

/-- FLOW_IDLE_TIMEOUT (R344): a transmit context idle for 1 ms is closed by CTRL "flow close"; that of the control priority goes
with the acknowledgement of the frame itself. -/
def execFlowIdleTimeout (dst : W16) (prio : BitVec 3) (s : State) : Host.Outcome State Fault Refusal :=
  .next (
    let (d, q) := (dst.toNat, prio.toNat)
    match txFlow s d q with
    | none => s
    | some f =>
      if !f.unacked.isEmpty || decide (nsOf s < f.at' + 1000000) then s
      else
        let s := sendCtrl d 0 4 0 [BitVec.ofNat 8 q] s
        if q = 7 then match txFlow s d 7 with
          | some g => setTx s d 7 (some { g with closing := true })
          | none => s
        else setTx s d q none)

/-- ACK_TIMER (R344): 1 µs after the last applied frame of a flow. -/
def execAckTimer (src : W16) (prio : BitVec 3) (s : State) : Host.Outcome State Fault Refusal :=
  .next (
    match rxFlow s src.toNat prio.toNat with
    | some r => if r.unackd = 0 then s
      else sendAck src.toNat prio.toNat r.expect (setRx s src.toNat prio.toNat (some { r with unackd := 0 }))
    | none => s)

/-- UNREACHABLE_PROBE (R345): every 1 ms a CTRL frame, or the resending of the one before it. The manual gives a probe no code of
its own: it is a "flow close" of the unused priority 0 (log 32). -/
def execUnreachableProbe (dst : W16) (s : State) : Host.Outcome State Fault Refusal :=
  .next (
    let d := dst.toNat
    if !s.fab.unreach.contains d || withheld s d || decide (nsOf s < sget 0 s.fab.probe d) then s
    else
      let s := { s with fab := { s.fab with probe := sput 0 s.fab.probe d (nsOf s + 1000000) } }
      match (txFlow s d 7).map TxFlow.unacked with
      | some (u :: _) => resendFrom d 7 u.1 s
      | _ =>
        if (pinPort s d 7 []).isNone then s
        else (sendFlow { kind := 7, prio := 7, last := false, dst := d, handle := 0, addr := 0, seq := 0, fmt := 0, idx := 0 } 0 [4, 0, 0, 0] s).2)

/-! ## Small collectives (R362, R363) -/

/-- A built-in handle's collective is running here: the check, the commit, or the group sums of an update. -/
def smallRuns (s : State) (h : Nat) : Bool :=
  match h with
  | 0 => s.stp.chkRun
  | 1 => s.stp.comRun || s.stp.resumeReply.isSome
  | _ => s.stp.updRun

/-- The wait time W of a small collective in ns: COMMIT_HOLD for the commit, SMALL_WAIT for the others, 0 read as the
default (R362, R363, Table 12-16). -/
def smallWaitNs (s : State) (h : Nat) : Nat :=
  let r := getReg s colBase
  let w := if h = 1 then (if field r 31 16 = 0 then 100 else field r 31 16) else if field r 15 8 = 0 then 10 else field r 15 8
  w * 1000000

/-- The module has been in its attempt of a small collective for `k` times W. -/
def smallWaited (s : State) (h k : Nat) : Bool := decide (sget 0 s.fab.since h + k * smallWaitNs s h ≤ nsOf s)

/-- SMALL_COLL_WAIT_EXPIRY (R362, R363): as coordinator of the attempt, W after joining it, exclude the members missing and
publish; those that the check result lacked are out of the commit already. The words themselves come with the commands of
chapter 10 (log 33). -/
def execSmallCollWaitExpiry (handle : BitVec 2) (missing : List W16) (s : State) : Host.Outcome State Fault Refusal :=
  .next (
    let h := handle.toNat
    if 2 < h || !smallRuns s h || s.stp.own_ ≠ sget 0 s.fab.attempt h || !smallWaited s h 1 then s
    else
      let s := (missing.map BitVec.toNat).eraseDups.foldl (fun s i =>
        if i = s.stp.own_ || decide (s.stp.members.length ≤ i) || (h = 1 && s.stp.absent.contains i) then s
        else colEvent 1 (0xFFF0 + h) (s.stp.members.getD i 0xFFFF) (bump s (cCol 0x108))) s
      emit (.collective (0xFFF0 + h) []) s)

/-- COORDINATOR_TAKEOVER (R362): without a result 2 × W after contributing, the next attempt, to the member of the next index; after attempt 3, or after the last
member's, the check ends aborted and the commit is left with outcome 0x7. -/
def execCoordinatorTakeover (handle : BitVec 2) (s : State) : Host.Outcome State Fault Refusal :=
  .next (
    let h := handle.toNat
    if 2 < h || !smallRuns s h || !smallWaited s h 2 then s
    else
      let k := sget 0 s.fab.attempt h
      if min 3 (s.stp.members.length - 1) ≤ k then
        match h with
        | 0 => endStep 6 s
        | 1 => endStep 7 s
        | _ => s
      else
        let s := { s with fab := { s.fab with
          attempt := sput 0 s.fab.attempt h (k + 1), since := sput 0 s.fab.since h (nsOf s) } }
        let s := colEvent 6 (0xFFF0 + h) (s.stp.members.getD (k + 1) 0xFFFF) (bump s (cCol 0x138))
        let word : List Byte := match h with
          | 0 => (s.stp.own.map checkBytes).getD []
          | 1 => commitBytes s
          | _ => []
        emit (.collective (0xFFF0 + h) word) (if h = 1 ∧ s.stp.own_ = k + 1 then excludeAbsent s else s))

/-! ## Configuration (Table 12-9) -/

/-- A checkpoint area is legal: global fabric-writable regions, at most 252 (R421). -/
def ckptAreaOk (s : State) (r : Nat) : Bool :=
  let (a, b) := (field r 30 22, field r 21 13)
  !flag r 31 || (decide (a ≤ b) && decide (b ≤ 503) && decide (b + 1 - a ≤ 252)
    && (List.range (b + 1 - a)).all (fun i => decide (regionMode s (a + i) = 1) && regionFabw s (a + i)))

/-- The registers of FABRIC_CONFIG written. -/
def fabricInstall (pb : List Byte) (s : State) : State :=
  let v (o : Nat) : Nat := leAt pb o 4
  let s := buddySet (v 12) (setReg (setReg (setReg (setReg s fabBase (v 0 / 16 * 16)) (fabBase + 4) (v 4 % 2 ^ 16)) (fabBase + 8) (v 8))
    (fabBase + 0x10) (v 16 / 2 ^ 13 * 2 ^ 13))
  touchCfg ((List.range 12).foldl (fun s p => portCfgSet p (v (32 + 4 * p)) s) s)

/-- FABRIC_CONFIG (R332, R338, R368, R421): a changed port mode trains the port anew; a changed buddy is confirmed
anew. -/
def kFabricConfig (h : CmdHdr) (s : State) : KRes :=
  let cfg := leAt h.pb 0 4 / 16 * 16
  if stepActive s then kFail stActive 0 s
  else if field cfg 14 10 = 0 ∨ field cfg 9 4 < 4 then kFail stParameter 0 s
  else if !ckptAreaOk s (leAt h.pb 16 4) then kFail stParameter 16 s
  else kOk 0 (fabricInstall h.pb s)

/-- Route entries written, and flows whose port left their entry pinned anew (R339, R340). -/
def routesInstall (pb : List Byte) (s : State) : State :=
  let s := { s with fab := { s.fab with route := (List.range (leAt pb 4 4)).foldl (fun m i =>
    sput 0 m (leAt pb 0 2 + i) (leAt pb (64 + 2 * i) 2 % 2 ^ 12)) s.fab.route } }
  excludeAllUnreachable (s.fab.tx.foldl (fun s e => match e.2 with
    | some f => if (eligible s (e.1 / 8)).contains f.port then s else repinFlow (e.1 / 8) (e.1 % 8) s
    | none => s) s)

/-- FABRIC_ROUTE_LOAD (R339). -/
def kFabricRouteLoad (h : CmdHdr) (s : State) : KRes :=
  let first := leAt h.pb 0 2
  let n := leAt h.pb 4 4
  if 65536 < first + n ∨ h.pb.length < 64 + 2 * n then kFail stParameter 4 s
  else kOk 0 (routesInstall h.pb s)

/-- The bytes FABRIC_QUERY writes (R555). -/
def fabricRecord (s : State) : List Byte :=
  let flows := s.fab.tx.filterMap (fun e => e.2.map (fun f => (e.1, f)))
  let un := s.fab.unreach.mergeSort
  let pins (p : Nat) : Nat := (flows.filter (fun e => decide (e.2.port = p))).length
  slice (leBytes 4 flows.length ++ leBytes 4 un.length ++ leBytes 4 (plumb s) ++ leBytes 4 (getReg s (fabBase + 0x24))) 0 64
    ++ (List.range 12).flatMap (fun p => leBytes 4 (fabPortStatus s p) ++ leBytes 4 (portCfg s p) ++ leBytes 4 (pins p) ++ leBytes 4 0)
    ++ flows.flatMap (fun e => leBytes 2 (e.1 / 8) ++ leBytes 1 (e.1 % 8) ++ leBytes 1 e.2.port ++ leBytes 4 e.2.unacked.length)
    ++ un.flatMap (leBytes 2) ++ List.replicate ((8 - 2 * un.length % 8) % 8) 0xFF

/-- FABRIC_QUERY. -/
def kFabricQuery (h : CmdHdr) (buf : Buf) (s : State) : KRes :=
  withBuf h buf s (let d := fabricRecord s; deliver h buf d id d.length s)

end Sys2Proof.Machine
end

