-- ==== Sys2Proof/Machine/Sec.lean ====
section
/-!
DEFINITION. The security island and the cipher engine (chapter 17): images and boot, owner, key slots, measurement,
attestation, and the cipher request queue.
-/
namespace Sys2Proof.Machine

/-- SEC_ counters. -/
def cSec (o : Nat) : Nat := secBase + o
/-- CIP_ counters. -/
def cCip (o : Nat) : Nat := cipBase + o

/-! ## Images and boot (R486 to R491) -/

/-- The image in a slot; an empty list stands for the image the module shipped with (log 37). -/
def slotImage (s : State) (slot : Nat) : List Byte := if slot = 0 then s.sec.slotA else s.sec.slotB

/-- Component entries of an image header: kind, offset, length, digest. -/
def imageComps (im : List Byte) : List (Nat × Nat × Nat × List Byte) :=
  (List.range (min 8 (leAt im 20 2))).map (fun i =>
    let o := 32 + 48 * i
    (leAt im o 1, leAt im (o + 4) 4, leAt im (o + 8) 4, slice im (o + 16) 32))

/-- Owner public key of a record. -/
def ownerKey (r : List Byte) : List Byte := slice r 40 1312

/-- The checks of R486 on an image. -/
def imageOk (s : State) (im : List Byte) : Bool :=
  let msg := slice im 0 416
  im.isEmpty || (decide (leAt im 0 4 = 0x58C96B01) && decide (leAt im 4 2 = 1) && decide (leAt im 20 2 = 4)
    && decide (leAt im 6 2 < 2) && decide (1 ≤ leAt im 14 2)
    && decide (beNat (sha3 (slice im 416 1312)) = Config.plynoneHash.toNat)
    && Config.verify (slice im 416 1312) msg (slice im 1728 2420)
    && (match s.sec.owner with
      | some r => !flag (leAt r 2 2) 0 || (flag (leAt im 6 2) 0 && Config.verify (ownerKey r) msg (slice im 4148 2420))
      | none => true)
    && (imageComps im).all (fun c => decide (c.2.1 + c.2.2.1 ≤ im.length) && decide (sha3 (slice im c.2.1 c.2.2.1) = c.2.2.2)))

/-- SVN of an image (R489). -/
def imageSvn (im : List Byte) : Nat := if im.isEmpty then 1 else leAt im 14 2

/-- An image may boot: verified, and not below the minimum SVN. -/
def bootable (s : State) (slot : Nat) : Bool := imageOk s (slotImage s slot) && decide (s.sec.minSvn ≤ imageSvn (slotImage s slot))

/-- Digest of component `k` of a slot's image. -/
def compDigest (s : State) (slot k : Nat) : List Byte :=
  if (slotImage s slot).isEmpty then leBytes 32 (Config.shippedDigest k).toNat
  else ((imageComps (slotImage s slot)).find? (fun c => c.1 = k)).elim [] (fun c => c.2.2.2)

/-- The island boots: it takes the boot slot, then the other, measures, and puts the owner record in force; with
neither image or without DS the module is in recovery (R487, R488, R490). -/
def bootIsland (s : State) : State :=
  let fst := s.sec.bootIdx
  let snd := 1 - fst
  let (slot, fails) : Option Nat × Nat :=
    if bootable s fst then (some fst, 0) else if bootable s snd then (some snd, 1) else (none, 2)
  let s := bumpN s (cSec 0x100) fails
  let b := slot.getD fst
  { s with sec := { s.sec with
    booted := b, curSvn := imageSvn (slotImage s b), inForce := s.sec.owner, activate := false
    recovery := slot.isNone || !s.sec.pufOk
    mr := measureBoot (leBytes 32 (Config.shippedDigest 0).toNat) ((List.range 4).map (fun i => compDigest s b (i + 1)))
      (s.sec.owner.getD []) (leBytes 4 s.pwr.straps) } }

/-- The island's state at a module reset: slots, contexts, requests and MRs clear, and a new CWK (R482, R487, R493). -/
def clearIsland (s : State) : State :=
  { s with sec := { s.sec with slots := [], loads := [], mr := List.replicate 8 (List.replicate 32 0), extBusy := false
                               ctxs := [], inflight := [], cwk := s.sec.cwk + 1 }
           ck := { s.ck with copyNo := 0 } }

/-- Write an image to the inactive slot and verify it: the state, the slot, and whether it is good (R491). -/
def installImage (im : List Byte) (activate : Bool) (s : State) : State × Nat × Bool :=
  let slot := 1 - s.sec.booted
  let s := if slot = 0 then { s with sec := { s.sec with slotA := im } } else { s with sec := { s.sec with slotB := im } }
  if im.isEmpty || !bootable s slot then (bump s (cSec 0x100), slot, false)
  else if activate then ({ s with sec := { s.sec with bootIdx := slot, activate := true, rpaCnt := s.sec.rpaCnt + 1 } }, slot, true)
  else (s, slot, true)

/-- FW_UPDATE (R491): the image's bytes come from host memory with the command. -/
def kFwUpdate (h : CmdHdr) (s : State) : KRes :=
  let len := leAt h.pb 8 4
  if s.host.fwBusy then kFail stBusy 0 s
  else if 96 * 2 ^ 20 < len then kFail stParameter 8 s
  else if !dmaOk s (leAt h.pb 0 8) len then dmaRefuse s
  else
    let (s1, slot, ok) := installImage (slice h.hostData 0 len) (leAt h.pb 12 1 % 2 = 1) s
    if ok then kOk slot s1 else kFail stSecurity 0 s1

/-! ## Owner, rollback, keys (R489, R492 to R495) -/

/-- An owner record's signatures hold, and it is newer than the one in force (R492). -/
def ownerOk (s : State) (len : Nat) (r : List Byte) : Bool :=
  decide (leAt r 0 2 = 1) && decide (len = 3772) &&
    (match s.sec.inForce with
    | none => Config.verify (ownerKey r) (slice r 0 1352) (slice r 1352 2420)
    | some c => Config.verify (ownerKey c) (slice r 0 1352) (slice r 1352 2420) && decide (leAt c 4 4 < leAt r 4 4))

/-- SEC_OWNER_ENROL (R492). -/
def kSecOwnerEnrol (h : CmdHdr) (s : State) : KRes :=
  let r := slice h.pb 64 3772
  if stepActive s then kFail stActive 0 s
  else if !ownerOk s (leAt h.pb 0 4) r then kFail stSecurity 0 s
  else kOk 0 { s with sec := { s.sec with
    owner := if flag (leAt r 2 2) 1 then none else some r, rpaCnt := s.sec.rpaCnt + 1 } }

/-- A rollback record is signed by the owner in force or by the maker, and raises the minimum SVN to no more than the one
that runs (R489). -/
def rollbackOk (s : State) (r : List Byte) : Bool :=
  let id := slice r 0 32
  let key : Option (List Byte) := if id.all (· = 0) then some []
    else match s.sec.inForce with
      | some c => if slice c 8 32 = id then some (ownerKey c) else none
      | none => none
  key.any (fun k => Config.verify k (slice r 0 36) (slice r 36 2420)) && decide (s.sec.minSvn ≤ leAt r 32 2)
    && decide (leAt r 32 2 ≤ s.sec.curSvn) && decide (leAt r 34 2 = s.sec.curSvn)

/-- SEC_ROLLBACK_SET (R489). The record's fields lie one after another in the order R489 names them: owner ID, new
minimum and SVN as u16, and the signature over them; an owner ID of zero is Plynone's key (log 32). -/
def kSecRollbackSet (h : CmdHdr) (s : State) : KRes :=
  let r := slice h.pb 64 2456
  if rollbackOk s r then kOk 0 { s with sec := { s.sec with minSvn := leAt r 32 2, rpaCnt := s.sec.rpaCnt + 1 } }
  else kFail stSecurity 0 s

/-- The kind of Table 17-5 for a slot; 0 for one that holds no loadable key. -/
def slotKind (n : Nat) : Nat := if n < 16 then 1 else if n = 16 then 2 else if n = 17 then 3 else 0

/-- Depth of the request ring. -/
def cipDepth (s : State) : Nat := 2 ^ field (getReg s cipBase) 30 27
/-- Address of a ring entry. -/
def cipEntry (s : State) (i : Nat) : Nat := getReg s (cipBase + 8) * 2 ^ 32 + getReg s (cipBase + 4) + 64 * i
def cipHead (s : State) : Nat := getReg s (cipBase + 0x10)
def cipTail (s : State) : Nat := getReg s (cipBase + 0xC)

/-- Submitted or unreported requests name a slot (R494). -/
def slotInUse (s : State) (n : Nat) : Bool :=
  let d := cipDepth s
  let wait := (List.range ((cipTail s + d - cipHead s) % d)).map (fun i => (cipHead s + i) % d)
  flag (getReg s cipBase) 31 && (wait ++ s.sec.inflight.map Prod.fst).any (fun i => decide (field (loadLe s (cipEntry s i) 64) 507 503 = n))

/-- The key a blob carries, if every condition of R494 holds. -/
def openBlob (s : State) (slot kind : Nat) (b : List Byte) : Option (List Byte) :=
  match s.sec.inForce with
  | none => none
  | some owner =>
    let use := if slot < 16 then sget 0 s.sec.use slot else s.sec.useCk
    if slotKind slot = 0 || slotKind slot ≠ kind || leAt b 0 1 ≠ 1 || leAt b 1 1 ≠ kind || leAt b 2 1 ≠ slot
        || leAt b 4 4 ≠ jobId s || decide (leAt b 8 8 < sget 0 s.sec.seqMax slot) || decide (2 ^ 32 - 1 ≤ use)
        || !Config.verify (ownerKey owner) (slice b 0 1184) (slice b 1184 2420) then none
    else
      let kek := sha3 (Config.decapsulate (slice owner 8 32 ++ slice b 16 1088) ++ slice b 0 16)
      (gcmOpen kek 0 (slice b 0 16) (slice b 1104 64) (slice b 1168 16)).map (fun k => if kind = 2 then k else slice k 0 32)

/-- A key put in its slot, its load counted and its sequence number kept. -/
def keyInstall (slot kind : Nat) (key blob : List Byte) (s : State) : State :=
  let s := bump { s with sec := { s.sec with
    rpaCnt := s.sec.rpaCnt + 1, seqMax := sput 0 s.sec.seqMax slot (leAt blob 8 8)
    use := if slot < 16 then sput 0 s.sec.use slot (sget 0 s.sec.use slot + 1) else s.sec.use
    useCk := if slot < 16 then s.sec.useCk else s.sec.useCk + 1
    slots := sput none s.sec.slots slot (some { kind := kind, key := key })
    loads := sput 0 s.sec.loads slot ((sget 0 s.sec.loads slot + 1) % 2 ^ 16) } } (cSec 0x108)
  if slot < 16 then { s with npx := { s.npx with txCtr := sput 0 s.npx.txCtr slot 0 } }
  else { s with ck := { s.ck with copyNo := 0 } }

/-- SEC_KEY_LOAD (R494). -/
def kSecKeyLoad (h : CmdHdr) (s : State) : KRes :=
  let slot := leAt h.pb 0 1
  let kind := leAt h.pb 1 1
  let b := slice h.pb 64 3604
  if slot < 18 && slotInUse s slot then kFail stBusy 0 s
  else if leAt h.pb 4 4 ≠ 3604 then kFail stParameter 4 s
  else match openBlob s slot kind b with
  | none => kFail stSecurity 0 (bump s (cSec 0x100))
  | some key => kOk 0 (keyInstall slot kind key b s)

/-- SEC_KEY_CLEAR (R495). -/
def kSecKeyClear (_h : CmdHdr) (slot : Byte) (s : State) : KRes :=
  let n := slot.toNat
  if 17 < n then kFail stParameter 0 s
  else if slotInUse s n then kFail stBusy 0 s
  else kOk 0 { s with sec := { s.sec with slots := sput none s.sec.slots n none } }

/-! ## Measurement, identity, attestation (R483, R496, R497) -/

/-- Extend MR7 with data. -/
def extendMr7 (d : List Byte) (s : State) : State :=
  let mr7 := s.sec.mr.getD 7 (List.replicate 32 0)
  { s with sec := { s.sec with mr := s.sec.mr.take 7 ++ [mrExtend mr7 (sha3 d)] } }

/-- The images that a load names, as they lie in memory before it. -/
def loadedImages (pb : List Byte) (s : State) : List (List Byte) :=
  (List.range (maskBits 96 (leAt pb 0 12)).length).map (fun i =>
    let a := leAt pb (64 + 8 * i) 8
    bytesAt s a (384 + 64 * (imageHeader (loadLe s a 64)).2.2))

/-- MR7 takes the SHA3-256 of each program image (R496). -/
def measureImages (ims : List (List Byte)) (s : State) : State := ims.foldl (fun s im => extendMr7 (sha3 im) s) s

/-- PROGRAM_LOAD with its measurement (R496). -/
def kProgramLoadMeasured (h : CmdHdr) (s : State) : KRes :=
  let r := kProgramLoad h s
  if r.status ≠ 0 then r else { r with s := measureImages (loadedImages h.pb s) r.s }

/-- What the FIK and KTK certificates carry: MR0 to MR6 and the owner ID. -/
def certExtension (s : State) : List Byte := (s.sec.mr.take 7).flatten ++ (match s.sec.inForce with | some r => slice r 8 32 | none => List.replicate 32 0)

/-- The bundle of SEC_IDENTITY (R483): four offsets and the certificates; in recovery without DS the first alone
(R490). -/
def identityBundle (s : State) : List Byte :=
  let n := if s.sec.recovery && !s.sec.pufOk then 1 else 4
  let certs := (List.range 4).map (fun i => if i < n then Config.certificate i (if i < 2 then [] else certExtension s) else [])
  let offs := (List.range 4).map (fun i => if i < n then 16 + (certs.take i).flatten.length else 0)
  offs.flatMap (leBytes 4) ++ certs.flatten

/-- SEC_IDENTITY. -/
def kSecIdentity (h : CmdHdr) (buf : Buf) (s : State) : KRes :=
  withBuf h buf s (let d := identityBundle s; deliver h buf d id d.length s)

/-- Bytes 0 to 575 of an attestation report (Table 17-7). -/
def attestBody (s : State) (nonce : List Byte) : List Byte :=
  let own := s.sec.inForce
  let r := s.stp.rc
  leBytes 4 0x58C96BA7 ++ leBytes 2 1 ++ leBytes 2 (bit s.sec.recovery + 2 * bit own.isSome) ++ leBytes 4 2996 ++ leBytes 4 0
    ++ nonce ++ leBytes 16 Config.serial.toNat ++ slice (asciiBytes (if Config.variantLE then "XC96-512-LE" else "XC96-512-LO")) 0 16
    ++ ([0xB1, BitVec.ofNat 8 s.sec.booted] : List Byte) ++ leBytes 6 Config.kolelmRelease.toNat
    ++ (match own with | some o => slice o 8 16 ++ slice o 2 2 ++ slice o 4 2 | none => List.replicate 20 (0 : Byte))
    ++ leBytes 2 s.sec.curSvn ++ leBytes 2 s.sec.minSvn ++ leBytes 8 s.sec.rpaCnt ++ s.sec.mr.flatten
    ++ leBytes 4 (jobId s) ++ leBytes 4 (plumb s) ++ leBytes 8 (jobDigest s) ++ leBytes 8 r.step ++ leBytes 4 r.outer
    ++ leBytes 1 r.state ++ List.replicate 3 (0 : Byte) ++ leBytes 8 (nsOf s)
    ++ (List.range 32).flatMap (fun n => match sget none s.sec.slots n with
      | some k => leBytes 1 k.kind ++ leBytes 1 1 ++ leBytes 2 (sget 0 s.sec.loads n)
      | none => leBytes 2 0 ++ leBytes 2 (sget 0 s.sec.loads n))
    ++ List.replicate 32 (0 : Byte)

/-- SEC_ATTEST (R497). -/
def kSecAttest (h : CmdHdr) (buf : Buf) (nonce : BitVec 256) (s : State) : KRes :=
  withBuf h buf s (
    let b := attestBody s (leBytes 32 nonce.toNat)
    deliver h buf (b ++ slice (Config.sign 0 b) 0 2420) (fun s => bump s (cSec 0x110)) 2996 s)

/-- SEC_STATUS, SEC_SVN and SEC_SLOTS_w (Table 17-13). -/
def secStatus (s : State) : Nat :=
  (if s.sec.recovery then 2 else bit s.sec.inForce.isSome) * 2 ^ 30 + s.sec.booted % 2 * 2 ^ 29 + bit s.sec.pufOk * 2 ^ 28
    + bit (decide (s.sec.owner ≠ s.sec.inForce)) * 2 ^ 27 + bit s.sec.activate * 2 ^ 26
def secSvn (s : State) : Nat := s.sec.minSvn % 2 ^ 16 * 2 ^ 16 + s.sec.curSvn % 2 ^ 16
def secSlots (s : State) (w : Nat) : Nat :=
  (List.range 8).foldl (fun a i => a + (match sget none s.sec.slots (8 * w + i) with
    | some k => (8 + k.kind % 8) * 16 ^ i
    | none => 0)) 0
/-- SEC_MR_m_w. -/
def secMr (s : State) (m w : Nat) : Nat := leAt (s.sec.mr.getD m []) (4 * w) 4

/-- A write of SEC_EXT_CTL (R496): with GO = 1 MR7 is extended with the 32 bytes of SEC_EXT_DATA; the extension is done
with the write. -/
def secExtWrite (v : Nat) (s : State) : State :=
  if !flag v 31 || s.sec.extBusy then s
  else extendMr7 ((List.range 8).flatMap (fun i => leBytes 4 (getReg s (secBase + 0x40 + 4 * i)))) s

/-! ## The cipher queue (R499 to R502) -/

/-- A request descriptor (Table 17-9). -/
structure CipReq where
  op     : Nat
  slot   : Nat
  ctx    : Nat
  first  : Bool
  final  : Bool
  src    : Nat
  dst    : Nat
  len    : Nat
  iv     : Nat
  aad    : Nat
  aadLen : Nat
  tag    : Nat
  deriving DecidableEq, Repr

/-- Read a descriptor. -/
def cipReq (w : Nat) : CipReq :=
  { op := field w 511 508, slot := field w 507 503, ctx := field w 502 499, first := flag w 498, final := flag w 497
    src := field w 495 448, dst := field w 447 400, len := field w 399 368, iv := field w 367 240
    aad := field w 239 192, aadLen := field w 191 176, tag := field w 175 128 }

/-- A range the cipher engine may use: Treim, or plinth scratchpad of domains 12, 13 or 15 (R501). -/
def cipRange (s : State) (a n : Nat) : Bool :=
  (linesOf a n).all (fun l => match classify l with
    | .treim r => decide (regionMode s r ≠ 0)
    | .plinth p r g => isScratch s p r && (decide (r = 47) || [13, 14, 16].contains (pageHolder s p r g).1)
    | _ => false)

/-- A context's state. -/
def ctxOf (s : State) (c : Nat) : Option CipCtx := sget none s.sec.ctxs c
/-- Replace a context. -/
def setCtx (c : Nat) (v : Option CipCtx) (s : State) : State := { s with sec := { s.sec with ctxs := sput none s.sec.ctxs c v } }

/-- Read for the engine; it acts for the control complex. -/
def cipRead (a n : Nat) (s : State) : List Byte × State :=
  let (r, s) := readDev .lintel 13 a n s
  (r.data, s)
/-- Write for the engine. -/
def cipWrite (a : Nat) (bs : List Byte) (s : State) : State := writeTo .lintel 13 a bs s

/-- Key of a slot if it is of one of the kinds. -/
def cipKey (s : State) (n : Nat) (kinds : List Nat) : Option (List Byte) :=
  match sget none s.sec.slots n with
  | some k => if kinds.contains k.kind then some k.key else none
  | none => none

/-- An XTS request: sector k takes the tweak IV + k; a request that continues a context takes its next sector. -/
def runXts (encrypt : Bool) (q : CipReq) (s : State) : Nat × State :=
  match cipKey s q.slot [2] with
  | none => (2, s)
  | some key =>
    if q.len % 4096 ≠ 0 || !cipRange s q.src q.len || !cipRange s q.dst q.len then (3, s)
    else
      let start : Option Nat := if q.first then some q.iv
        else (ctxOf s q.ctx).bind (fun c => if c.xts && c.slot = q.slot then some (c.iv + c.block) else none)
      match start with
      | none => (4, s)
      | some t0 =>
        let (data, s) := cipRead q.src q.len s
        let secs := chunks 4096 data
        let out := (List.zip (List.range secs.length) secs).flatMap (fun p => xtsSector encrypt key ((t0 + p.1) % 2 ^ 128) p.2)
        let s := cipWrite q.dst out s
        (0, setCtx q.ctx (if q.final then none else some { slot := q.slot, xts := true, iv := t0, block := secs.length, ghash := 0, dlen := 0, alen := 0 }) s)

/-- A GCM seal, possibly one of several on a context. -/
def runSeal (q : CipReq) (s : State) : Nat × State :=
  match cipKey s q.slot [1, 3] with
  | none => (2, s)
  | some key =>
    if q.len % 16 ≠ 0 || decide (4096 < q.aadLen) || !cipRange s q.src q.len || !cipRange s q.dst q.len
        || (q.first && !cipRange s q.aad q.aadLen) || (q.final && !cipRange s q.tag 16) then (3, s)
    else
      let h := gcmH key
      let (aad, s) := if q.first then cipRead q.aad q.aadLen s else ([], s)
      let c0 : Option CipCtx := if q.first then
          some { slot := q.slot, xts := false, iv := q.iv / 2 ^ 32, block := 2, ghash := ghashBlocks h 0 aad, dlen := 0, alen := q.aadLen }
        else (ctxOf s q.ctx).bind (fun c => if !c.xts && c.slot = q.slot then some c else none)
      match c0 with
      | none => (4, s)
      | some c =>
        let (data, s) := cipRead q.src q.len s
        let out := gcmStream key c.iv c.block data
        let c := { c with block := c.block + q.len / 16, ghash := ghashBlocks h c.ghash out, dlen := c.dlen + q.len }
        let s := cipWrite q.dst out s
        if q.final then (0, setCtx q.ctx none (cipWrite q.tag (gcmTag key c.iv c.ghash c.alen c.dlen) s))
        else (0, setCtx q.ctx (some c) s)

/-- A GCM open: the plaintext is written only if the tag matches, zeros otherwise. -/
def runOpen (q : CipReq) (s : State) : Nat × State :=
  match cipKey s q.slot [1, 3] with
  | none => (2, s)
  | some key =>
    if !q.first || !q.final then (4, s)
    else if q.len % 16 ≠ 0 || decide (65536 < q.len) || decide (4096 < q.aadLen) || !cipRange s q.src q.len || !cipRange s q.dst q.len
        || !cipRange s q.aad q.aadLen || !cipRange s q.tag 16 then (3, s)
    else
      let (aad, s) := cipRead q.aad q.aadLen s
      let (data, s) := cipRead q.src q.len s
      let (tag, s) := cipRead q.tag 16 s
      match gcmOpen key (q.iv / 2 ^ 32) aad data tag with
      | some p => (0, cipWrite q.dst p s)
      | none => (1, bump (cipWrite q.dst (List.replicate q.len 0) s) (cCip 0x108))

/-- The 64 bytes of a context saved in clear; the manual names the contents and no layout (log 32). -/
def ctxBytes (s : State) (c : CipCtx) : List Byte :=
  slice (leBytes 1 1 ++ leBytes 1 (bit c.xts) ++ leBytes 1 c.slot ++ leBytes 1 0 ++ leBytes 2 (sget 0 s.sec.loads c.slot) ++ leBytes 2 0
    ++ leBytes 16 c.iv ++ leBytes 8 c.block ++ leBytes 16 c.ghash ++ leBytes 8 c.dlen ++ leBytes 2 c.alen) 0 64

/-- Read a saved context back: the context and the LOADS count it was bound to. -/
def readCtx (b : List Byte) : Option (CipCtx × Nat) :=
  if leAt b 0 1 ≠ 1 then none
  else some ({ xts := leAt b 1 1 % 2 = 1, slot := leAt b 2 1, iv := leAt b 8 16, block := leAt b 24 8, ghash := leAt b 32 16
               dlen := leAt b 48 8, alen := leAt b 56 2 }, leAt b 4 2)

/-- The context wrap key (R482). -/
def cwkBytes (s : State) : List Byte := leBytes 32 (Config.deriveKey 1 (leBytes 8 s.sec.cwk)).toNat

/-- Save a context: 64 bytes in clear, or 160 bytes sealed under the CWK with the key (R502). -/
def runSave (wrapped : Bool) (q : CipReq) (s : State) : Nat × State :=
  match ctxOf s q.ctx with
  | none => (4, s)
  | some c =>
    if !cipRange s q.dst (if wrapped then 160 else 64) then (3, s)
    else if !wrapped then (0, cipWrite q.dst (ctxBytes s c) s)
    else match sget none s.sec.slots c.slot with
      | none => (2, s)
      | some k =>
        let (f, s) := free256 s
        let nonce := f % 2 ^ 96
        let (ct, tag) := gcmSeal (cwkBytes s) nonce [] (ctxBytes s c ++ slice k.key 0 64 ++ leBytes 4 k.kind)
        (0, cipWrite q.dst (beBytes 12 nonce ++ tag ++ ct) s)

/-- A restore refused (R502). -/
def restoreFail (s : State) : Nat × State := (4, bump s (cCip 0x118))

/-- Restore a context: one in clear into its slot with the same LOADS count, a wrapped one of 160 bytes into an empty
slot of its kind (R502). -/
def runRestore (q : CipReq) (s : State) : Nat × State :=
  if !cipRange s q.src q.len then (3, s)
  else if q.len = 160 then
    let (b, s) := cipRead q.src 160 s
    match gcmOpen (cwkBytes s) (beNat (b.take 12)) [] (slice b 28 132) (slice b 12 16) with
    | none => restoreFail s
    | some p => match readCtx (slice p 0 64) with
      | none => restoreFail s
      | some (c, _) =>
        let kind := leAt p 128 4
        if (sget none s.sec.slots q.slot).isSome || slotKind q.slot ≠ kind then restoreFail s
        else
          let key := slice p 64 (if kind = 2 then 64 else 32)
          (0, setCtx q.ctx (some { c with slot := q.slot })
            { s with sec := { s.sec with slots := sput none s.sec.slots q.slot (some { kind := kind, key := key }) } })
  else if q.len ≠ 64 then (3, s)
  else
    let (b, s) := cipRead q.src 64 s
    match readCtx b with
    | none => restoreFail s
    | some (c, loads) =>
      if c.slot ≠ q.slot || (sget none s.sec.slots q.slot).isNone || loads ≠ sget 0 s.sec.loads q.slot then restoreFail s
      else (0, setCtx q.ctx (some c) s)

/-- What a request does: its status and the state. -/
def runRequest (q : CipReq) (s : State) : Nat × State :=
  if 17 < q.slot then (5, s)
  else match q.op with
    | 1 => runXts true q s
    | 2 => runXts false q s
    | 3 => runSeal q s
    | 4 => runOpen q s
    | 5 => runSave false q s
    | 6 => runSave true q s
    | 7 => runRestore q s
    | _ => (5, s)

/-- The engine takes the descriptor at the ring's head if its operation is `op` or a reserved code: the work is done,
and its completion is reported by CIP_REQUEST_DONE (R500). -/
def takeRequest (op : Nat) (s : State) : State :=
  let i := cipHead s
  let q := cipReq (loadLe s (cipEntry s i) 64)
  let inRing := match classify (cipEntry s i) with
    | .plinth _ r _ => decide (r = 47)
    | _ => false
  if !flag (getReg s cipBase) 31 || i = cipTail s || !inRing || !(q.op = op || q.op = 0 || decide (7 < q.op)) then s
  else
    let (st, s) := runRequest q s
    let s := if 2 ≤ st && !(st = 4 && q.op = 7) then bump s (cCip 0x110) else s
    let s := setReg s (cipBase + 0x10) ((i + 1) % cipDepth s)
    { s with sec := { s.sec with inflight := s.sec.inflight ++ [(i, st)] } }

/-- CIP_XTS_ENCRYPT. -/
def execCipXtsEncrypt (s : State) : Host.Outcome State Fault Refusal := .next (takeRequest 1 s)
/-- CIP_XTS_DECRYPT. -/
def execCipXtsDecrypt (s : State) : Host.Outcome State Fault Refusal := .next (takeRequest 2 s)
/-- CIP_GCM_SEAL. -/
def execCipGcmSeal (s : State) : Host.Outcome State Fault Refusal := .next (takeRequest 3 s)
/-- CIP_GCM_OPEN. -/
def execCipGcmOpen (s : State) : Host.Outcome State Fault Refusal := .next (takeRequest 4 s)
/-- CIP_CTX_SAVE_CLEAR. -/
def execCipCtxSaveClear (s : State) : Host.Outcome State Fault Refusal := .next (takeRequest 5 s)
/-- CIP_CTX_SAVE_WRAPPED. -/
def execCipCtxSaveWrapped (s : State) : Host.Outcome State Fault Refusal := .next (takeRequest 6 s)
/-- CIP_CTX_RESTORE. -/
def execCipCtxRestore (s : State) : Host.Outcome State Fault Refusal := .next (takeRequest 7 s)

/-- CIP_REQUEST_DONE (R500): STATUS is written into the descriptor, and an ADD token of 1 goes to DONE_EP. The manual
gives the engine no endpoint: the token comes from the control complex, which alone submits (log 38). -/
def execCipRequestDone (index : BitVec 12) (s : State) : Host.Outcome State Fault Refusal :=
  .next (match s.sec.inflight.find? (fun r => decide (r.1 = index.toNat)) with
    | none => s
    | some r =>
      let a := cipEntry s r.1
      let w := loadLe s a 64
      let s := { s with sec := { s.sec with inflight := s.sec.inflight.erase r } }
      let s := bump (writeTo .lintel 13 (a + 12) (leBytes 2 r.2) s) (cCip 0x100)
      sendToken (field w 127 120) (field w 119 114) 0 0x6D (genOf s) 1 s)

/-- A write of CIP_CFG (Table 17-15): EN written 1 sets head and tail to 0. -/
def cipCfgWrite (v : Nat) (s : State) : State :=
  let s := setReg s cipBase v
  if flag v 31 then setReg (setReg s (cipBase + 0xC) 0) (cipBase + 0x10) 0 else s

/-- CIP_STATUS: pipelines with unreported requests, contexts with state, inline channels of Ethernet-mode ports in
service. -/
def cipStatus (s : State) : Nat :=
  (2 ^ min 4 s.sec.inflight.length - 1) * 2 ^ 28
    + (List.range 16).foldl (fun a c => a + (if (ctxOf s c).isSome then 2 ^ (12 + c) else 0)) 0
    + (List.range 12).foldl (fun a p => a + (if portMode s p = 3 && inService s p then 2 ^ p else 0)) 0

end Sys2Proof.Machine
end

