-- ==== Sys2Proof/Machine/NpxWire.lean ====
section
/-!
DEFINITION. The exchange on the wire and in arithmetic: addresses and agents, packets, objects and their erasure code,
segments, the merge at the home and the outer update (chapter 13).
-/
namespace Sys2Proof.Machine

/-! ## Configuration (Table 13-10) -/

def npxCfg (s : State) : Nat := getReg s npxBase
def npxCfg2 (s : State) : Nat := getReg s (npxBase + 4)
def npxSite (s : State) : Nat := getReg s (npxBase + 8)
def udpPort (s : State) : Nat := field (npxCfg s) 31 16
def exND (s : State) : Nat := field (npxCfg s) 15 10 + 1
def exNPar (s : State) : Nat := field (npxCfg s) 9 6
def sMax (s : State) : Nat := field (npxCfg s) 5 2
def failW (s : State) : Nat := field (npxCfg2 s) 31 24
def leaseW (s : State) : Nat := field (npxCfg2 s) 23 16
def retainN (s : State) : Nat := field (npxCfg2 s) 15 8
def nSites (s : State) : Nat := field (npxSite s) 25 20 + 1
def txSlot (s : State) : Nat := field (npxSite s) 19 16
/-- Ciphertext bytes of a full fragment (R380). -/
def fMax (s : State) : Nat := (field (getReg s (npxBase + 0xC)) 13 0 - 96) / 64 * 64
/-- WBASE in ns, and WPERIOD, OPEN_OFF, CLOSE_OFF and PUB_OFF in ms. -/
def wBase (s : State) : Nat := getReg s (npxBase + 0x34) * 2 ^ 32 + getReg s (npxBase + 0x30)
def wMs (s : State) (i : Nat) : Nat := getReg s (npxBase + 0x38 + 4 * i)
/-- Line time of offset `i` of Table 13-10 in window `u` (R388): 1 open, 2 close, 3 publish. -/
def wAt (s : State) (u i : Nat) : Nat := wBase s + (u * wMs s 0 + wMs s i) * 1000000
/-- The window line time is in. -/
def wNow (s : State) : Nat := if wMs s 0 = 0 then 0 else (nsOf s - wBase s) / (wMs s 0 * 1000000)

/-- The module's shard group: its own position (R373, R276). -/
def ownGroup (s : State) : Nat := if s.stp.q = 0 then 0 else s.stp.own_ % s.stp.q
/-- Its replica index. -/
def ownReplica (s : State) : Nat := if s.stp.q = 0 then 0 else s.stp.own_ / s.stp.q
/-- Replica index of the agent of site `t` in window `u` (R374). -/
def agentOf (s : State) (t u : Nat) : Nat :=
  let r := s.npx.replicas.getD t 1
  if r = 0 then 0 else (ownGroup s + u) % r
/-- The module is its site's agent in window `u`. -/
def isAgent (s : State) (u : Nat) : Bool := s.npx.configured && decide (agentOf s (siteId s) u = ownReplica s)
/-- The home order of the module's group. -/
def homeOrder (s : State) : List Nat := (s.npx.orders.drop (ownGroup s * nSites s)).take (nSites s)
/-- The module's site is the home of its group, with its lease or without. -/
def isHome (s : State) : Bool := s.npx.state = 2 || s.npx.state = 3

/-- Set the exchange state. -/
def setNpx (f : Npx → Npx) (s : State) : State := { s with npx := f s.npx }

/-! ## Packets (R376, R380 to R382) -/

/-- The IPv6 address of a module of the own site. -/
def ownAddr (s : State) : Nat :=
  (getReg s (npxBase + 0x14) * 2 ^ 32 + getReg s (npxBase + 0x10)) * 2 ^ 64
    + getReg s (npxBase + 0x1C) * 2 ^ 32 + field (getReg s (npxBase + 0x18)) 31 16 * 2 ^ 16 + ownFid s
/-- The default router's address. -/
def gateway (s : State) : Nat :=
  (List.range 4).foldl (fun a n => a + getReg s (npxBase + 0x20 + 4 * n) * 2 ^ (32 * n)) 0

/-- The lowest Ethernet-mode port in service (log 45). -/
def exchangePort (s : State) : Option Nat := (List.range 12).find? (fun p => portMode s p = 3 && inService s p)

/-- The ones' complement sum of big-endian 16-bit words. -/
def onesSum (bs : List Byte) : Nat :=
  let t := (chunks 2 bs).foldl (fun a w => a + beNat (slice w 0 2)) 0
  let t := t % 2 ^ 16 + t / 2 ^ 16
  let t := t % 2 ^ 16 + t / 2 ^ 16
  t % 2 ^ 16 + t / 2 ^ 16

/-- An IPv6 packet (R380); the hop limit is the model's own (log 45). -/
def ip6 (src dst class' flow next hop : Nat) (body : List Byte) : List Byte :=
  beBytes 4 (6 * 2 ^ 28 + class' % 256 * 2 ^ 20 + flow % 2 ^ 20) ++ beBytes 2 body.length
    ++ ([BitVec.ofNat 8 next, BitVec.ofNat 8 hop] : List Byte) ++ beBytes 16 src ++ beBytes 16 dst ++ body

/-- The checksum of an upper-layer body under the IPv6 pseudo-header. -/
def ip6Check (src dst next : Nat) (body : List Byte) : Nat :=
  let c := 0xFFFF - onesSum (beBytes 16 src ++ beBytes 16 dst ++ beBytes 4 body.length ++ beBytes 4 next ++ body)
  if c = 0 then 0xFFFF else c

/-- A UDP datagram in its IPv6 packet. -/
def udpPacket (s : State) (dst flow : Nat) (payload : List Byte) : List Byte :=
  let p := udpPort s
  let dgram (c : Nat) : List Byte := beBytes 2 p ++ beBytes 2 p ++ beBytes 2 (8 + payload.length) ++ beBytes 2 c ++ payload
  ip6 (ownAddr s) dst (field (npxSite s) 15 10 * 4) flow 17 64 (dgram (ip6Check (ownAddr s) dst 17 (dgram 0)))

/-- The source MAC address of Ethernet-mode port `p`. -/
def etherMac (s : State) (p : Nat) : List Byte := [0x02, 0x50, 0x4C, BitVec.ofNat 8 (0x10 + p)] ++ beBytes 2 (ownFid s)

/-- Hand an IPv6 packet to a port. -/
def etherSend (p : Nat) (mac : List Byte) (cls : Nat) (packet : List Byte) (s : State) : State :=
  let f := mac ++ etherMac s p ++ ([0x86, 0xDD] : List Byte) ++ packet
  transmit p 0 cls (f ++ leBytes 4 (crc32 f)) s

/-- A Neighbor Solicitation for the default router, to its solicited-node address. -/
def solicit (p : Nat) (s : State) : State :=
  let g := gateway s
  let dst := 0xFF02 * 2 ^ 112 + 0x1FF * 2 ^ 24 + g % 2 ^ 24
  let body (c : Nat) : List Byte := ([135, 0] : List Byte) ++ beBytes 2 c ++ beBytes 4 0 ++ beBytes 16 g ++ ([1, 1] : List Byte) ++ etherMac s p
  etherSend p ([0x33, 0x33, 0xFF] ++ beBytes 3 (g % 2 ^ 24)) 16
    (ip6 (ownAddr s) dst 0 0 58 255 (body (ip6Check (ownAddr s) dst 58 (body 0)))) s

/-- Send a packet through the default router; while the router is unresolved the packet waits and it is solicited. -/
def routeOut (p cls : Nat) (packet : List Byte) (s : State) : State :=
  match s.npx.router with
  | some m => etherSend p (beBytes 6 m) cls packet s
  | none => setNpx (fun n => { n with waitNd := n.waitNd ++ [(p, packet)] }) (solicit p s)

/-- Fields of a Nipen header (Table 13-1). -/
def ehVersion (h : Nat) : Nat := field h 255 252
def ehType (h : Nat) : Nat := field h 251 248
def ehSrcSite (h : Nat) : Nat := field h 247 242
def ehDstSite (h : Nat) : Nat := field h 241 236
def ehKey (h : Nat) : Nat := field h 235 232
def ehSrcFid (h : Nat) : Nat := field h 231 216
def ehDstFid (h : Nat) : Nat := field h 215 200
def ehJob (h : Nat) : Nat := field h 199 168
def ehGroup (h : Nat) : Nat := field h 167 152
def ehOuter (h : Nat) : Nat := field h 151 120
def ehCtr (h : Nat) : Nat := field h 119 56
def ehEgrp (h : Nat) : Nat := field h 55 40
def ehFrag (h : Nat) : Nat := field h 39 34
def ehND (h : Nat) : Nat := field h 33 28 + 1
def ehNPar (h : Nat) : Nat := field h 27 24
def ehFlen (h : Nat) : Nat := field h 23 8

/-- The GCM nonce of a packet (R382). -/
def packetNonce (h : Nat) : Nat := ehSrcSite h * 2 ^ 88 + ehSrcFid h * 2 ^ 64 + ehCtr h

/-- The transmit slot can send: it holds a key and its counter has not run out (R382, R495). -/
def txReady (s : State) : Bool := (slotKey s (txSlot s)).isSome && decide (sget 0 s.npx.txCtr (txSlot s) < 2 ^ 32)

/-- The module may send exchange packets: no stack of it is at the critical level (Table 13-8), it is not bedded
(R516), a port is in service and
the key slot can send. -/
def maySend (s : State) : Bool := !s.pwr.fenced && decide (s.pwr.state = 0) && (exchangePort s).isSome && txReady s

/-- Send one Nipen packet to a partner, and to no address outside the partner list (R376): header, ciphertext and tag. -/
def sendPacket (typ cls : Nat) (d : Partner) (outer egrp frag nd npar : Nat) (body : List Byte) (s : State) : State :=
  if !maySend s || !s.npx.partners.any (fun q => decide (q.addr = d.addr)) then s
  else match exchangePort s with
  | none => s
  | some p =>
    let slot := txSlot s
    let ctr := sget 0 s.sec.use slot % 2 ^ 32 * 2 ^ 32 + sget 0 s.npx.txCtr slot
    let h := 2 ^ 252 + typ % 16 * 2 ^ 248 + siteId s % 64 * 2 ^ 242 + d.site % 64 * 2 ^ 236 + slot % 16 * 2 ^ 232
      + ownFid s * 2 ^ 216 + d.fid % 2 ^ 16 * 2 ^ 200 + jobId s % 2 ^ 32 * 2 ^ 168 + ownGroup s % 2 ^ 16 * 2 ^ 152
      + outer % 2 ^ 32 * 2 ^ 120 + ctr * 2 ^ 56 + egrp % 2 ^ 16 * 2 ^ 40 + frag % 64 * 2 ^ 34 + (nd - 1) % 64 * 2 ^ 28
      + npar % 16 * 2 ^ 24 + body.length % 2 ^ 16 * 2 ^ 8
    let key := (slotKey s slot).getD []
    let (ct, tag) := gcmSeal key (packetNonce h) (beBytes 32 h) body
    let flow := crc32c (beBytes 2 (ehGroup h) ++ beBytes 2 (ehSrcFid h))
    let s := setNpx (fun n => { n with txCtr := sput 0 n.txCtr slot (sget 0 n.txCtr slot + 1) }) s
    routeOut p cls (udpPacket s d.addr flow (beBytes 32 h ++ ct ++ tag)) (bump s (cNpx 0x100))

/-- The partner that is the agent of site `t` in window `u`. -/
def siteAgent (s : State) (t u : Nat) : Option Partner :=
  s.npx.partners.find? (fun d => decide (d.site = t) && decide (d.replica = agentOf s t u))

/-! ## Erasure code (R383, R384) -/

/-- Coefficient of data fragment `i` in parity fragment `p`. -/
def cauchy (nd p i : Nat) : Nat := gfInv ((nd + p) ^^^ i)

/-- A byte string times a field element. -/
def gfScale (c : Nat) (bs : List Byte) : List Byte := bs.map (fun b => BitVec.ofNat 8 (gfMul c b.toNat))

/-- Parity fragment `p` of a group's data fragments. -/
def parityOf (p : Nat) (ds : List (List Byte)) : List Byte :=
  (List.zip (List.range ds.length) ds).foldl (fun a d =>
    let x := gfScale (cauchy ds.length p d.1) d.2
    if a.isEmpty then x else xorBytes a x) []

/-- Gaussian elimination over GF(2^8) on rows (coefficients, byte string): solve the first unknown, then the others. -/
def gfSolve : Nat → List (List Nat × List Byte) → List (List Byte)
  | 0, _ => []
  | n + 1, rows =>
    match rows.findIdx? (fun r => r.1.headD 0 ≠ 0) with
    | none => List.replicate (n + 1) []
    | some k =>
      let pv := rows.getD k ([], [])
      let inv := gfInv (pv.1.headD 0)
      let pc := pv.1.map (gfMul inv)
      let pb := gfScale inv pv.2
      let rest := (rows.eraseIdx k).map (fun r =>
        let c := r.1.headD 0
        ((List.zipWith (fun x y => x ^^^ gfMul c y) r.1 pc).drop 1, xorBytes r.2 (gfScale c pb)))
      let xs := gfSolve n rest
      (List.zip (pc.drop 1) xs).foldl (fun a x => xorBytes a (gfScale x.1 x.2)) pb :: xs

/-- The data fragments of a group from any `nd` of its fragments; also how many were missing. -/
def recoverGroup (nd : Nat) (held : Nat → Option (List Byte)) (npar : Nat) : Option (List (List Byte) × Nat) :=
  let miss := (List.range nd).filter (fun i => (held i).isNone)
  let par := ((List.range npar).filter (fun p => (held (nd + p)).isSome)).take miss.length
  if par.length < miss.length then none
  else
    let rows := par.map (fun p =>
      let rhs := (List.range nd).foldl (fun a i => match held i with
        | some d => xorBytes a (gfScale (cauchy nd p i) d)
        | none => a) ((held (nd + p)).getD [])
      (miss.map (cauchy nd p), rhs))
    let xs := gfSolve miss.length rows
    some ((List.range nd).map (fun i => match held i with
      | some d => d
      | none => xs.getD ((miss.findIdx? (· = i)).getD 0) []), miss.length)

/-- Send an object to a partner in erasure groups. -/
def sendObject (typ : Nat) (d : Partner) (outer : Nat) (object : List Byte) (s : State) : State :=
  let (nd, np, fl) := (exND s, exNPar s, fMax s)
  let groups := ceilDiv object.length (nd * fl)
  (List.range groups).foldl (fun s g =>
    let ds := (List.range nd).map (fun i => slice object ((g * nd + i) * fl) fl)
    let all := ds ++ (List.range np).map (fun p => parityOf p ds)
    (List.zip (List.range all.length) all).foldl (fun s f => sendPacket typ 11 d outer g f.1 nd np f.2 s) s) s

/-! ## Object headers (Table 13-3) -/

def ohType (h : Nat) : Nat := field h 511 508
def ohSite (h : Nat) : Nat := field h 507 502
def ohHome (h : Nat) : Nat := field h 501 496
def ohEpoch (h : Nat) : Nat := field h 479 464
def ohBase (h : Nat) : Nat := field h 463 432
def ohNew (h : Nat) : Nat := field h 431 400
def ohOuter (h : Nat) : Nat := field h 399 368
def ohNSeg (h : Nat) : Nat := field h 367 352
def ohNContrib (h : Nat) : Nat := field h 351 344
def ohLen (h : Nat) : Nat := field h 319 288
def ohCrc (h : Nat) : Nat := field h 255 192

/-- An object: header and body. -/
def mkObject (s : State) (typ epoch base new outer nseg ncontrib : Nat) (body : List Byte) : List Byte :=
  beBytes 64 (typ % 16 * 2 ^ 508 + siteId s % 64 * 2 ^ 502 + s.npx.home % 64 * 2 ^ 496 + ownGroup s % 2 ^ 16 * 2 ^ 480
    + epoch % 2 ^ 16 * 2 ^ 464 + base % 2 ^ 32 * 2 ^ 432 + new % 2 ^ 32 * 2 ^ 400 + outer % 2 ^ 32 * 2 ^ 368
    + nseg % 2 ^ 16 * 2 ^ 352 + ncontrib % 256 * 2 ^ 344 + body.length % 2 ^ 32 * 2 ^ 288 + crc64 body * 2 ^ 192) ++ body

/-- An object's header as a number. -/
def objHead (ob : List Byte) : Nat := beAt ob 0 64

/-! ## Segments (R141, R161 to R165) -/

/-- Exchange the byte order of the row scales of a payload: they are big-endian on the wire (R163). -/
def swapScales (hdr : Nat) (payload : List Byte) : List Byte :=
  let v := ceilDiv (field hdr 127 96) 8
  let l1 := vqRecordLen (flag hdr 205) v
  let l2 := if field hdr 207 206 = 2 then vqRecordLen (flag hdr 204) v else 0
  let n := field hdr 159 128
  let cut := chunks l1 (payload.take (n * l1)) ++ chunks l2 (payload.drop (n * l1))
  (cut.map (fun r => (r.take 4).reverse ++ r.drop 4)).flatten

/-- The row scale a VQ encoding uses: a free value, since the manual does not say how firmware sets it (log 1). -/
def rowScaleFree (seed row : Nat) : Nat := (Config.free32 ((seed + 1) * 2 ^ 32 + row)).toNat

/-- Encode one shard's FP32 words as a segment in wire form; answers it with the final errors (R141, R161, R162). -/
def encodeSegment (b : Book) (seed d : Nat) (xs : List Nat) : List Byte × List Nat :=
  let rl := if sdRowlen d = 0 then max 1 (sdN d) else sdRowlen d
  let rows := runsOf rl xs.length xs
  let out := (List.zip (List.range rows.length) rows).map (fun p =>
    let sw := rowScaleFree seed p.1
    let (idx, err, _) := vqRow (f32 sw) b.vectors (p.2.map f32)
    let kept := if (f32 sw).neg || !posNormal sw then 0 else sw
    (vqRecord b.wide kept idx, err.map to32))
  let payload := (out.map Prod.fst).flatten
  let hdr := sdCopyTid d * 2 ^ 240 + b.version * 2 ^ 224 + 2 ^ 206 + bit b.wide * 2 ^ 205 + b.family * 2 ^ 200
    + sdCopyRow d * 2 ^ 160 + rows.length * 2 ^ 128 + rl * 2 ^ 96 + payload.length % 2 ^ 32 * 2 ^ 64 + b.crc % 2 ^ 32 * 2 ^ 32
  (beBytes 32 hdr ++ swapScales hdr payload, (out.map Prod.snd).flatten)

/-- Split a body into its segments, in wire form. -/
def splitSegments : Nat → List Byte → List (Nat × List Byte)
  | 0, _ => []
  | n + 1, bs =>
    let hdr := beAt bs 0 32
    let pl := field hdr 95 64
    (hdr, slice bs 32 pl) :: splitSegments n (bs.drop (32 + pl))

/-- Decode a body's segments against the module's shards; a segment dropped by R165 or of the wrong size is `none`. -/
def decodeSegments (s : State) (nseg : Nat) (body : List Byte) : List (Option (List FVal)) :=
  let segs := splitSegments nseg body
  (List.zip (List.range (allShards s).length) (allShards s)).map (fun p =>
    match segs[p.1]? with
    | none => none
    | some (hdr, payload) => match vqSegment s hdr (swapScales hdr payload) with
      | none => none
      | some vs => if vs.length = sdN p.2.2.2.desc then some vs else none)

/-! ## The merge (R391) -/

/-- The merged values of one shard, from (ω, decoded values) of each contribution. -/
def mergeShard (cs : List (Nat × List FVal)) (n : Nat) : List Nat :=
  let xs := cs.map (fun c => (c.1, c.2.map (mul32 (f32 c.1))))
  let a := blockMax (xs.map Prod.snd).flatten
  let g : Int := if a.isZero then -126 else a.lead - 46
  (List.range (ceilDiv n 1024)).flatMap (fun b =>
    let len := min 1024 (n - 1024 * b)
    let part := xs.map (fun x => (x.1, (x.2.drop (1024 * b)).take len))
    let good := part.filter (fun x => x.2.all FVal.isFin)
    let om := (good.foldl (fun (e : Exact) x => e.linAdd (f32 x.1)) Exact.zero).read
    (List.range len).map (fun i =>
      if good.isEmpty then 0
      else
        let acc := signed 64 (unsigned 64 (good.foldl (fun (t : Int) x => t + (gridInt g (x.2.getD i .zero)).1) 0))
        to32 (div32 (round32 (decide (acc < 0)) acc.natAbs 1 g) om)))

/-! ## The outer update and the publication (R261, R392, R393) -/

/-- The newest base a shard holds, staged or in force. -/
def tipBase (s : State) (k i : Nat) : List Nat := match (outerOf s k i).staged with
  | some (w, _) => w
  | none => (outerOf s k i).base

/-- A shard with its merged values. -/
abbrev Merged := (Nat × Nat × Shard) × List Nat

/-- Element `e` of the outer gradient: `g := −M` (R392). -/
def outerGrad (m : List Nat) (e : Nat) : FVal := (f32 (m.getD e 0)).negate

/-- What the outer update of a group takes from its record, with TR and RM not yet formed. -/
def outerRecord (s : State) (d : Nat) : UpdateEnv :=
  let raw := s.npx.groups.getD (sdGroup d) 0
  let t := s.npx.outerN + 1
  { raw := raw, bc1 := biasCorrection (grB1 raw) t, bc2 := biasCorrection (grB2 raw) t, tr := .one, rm := .one }

/-- LAMB's U2 and W2 over a group's shards, in the outer update (R258, R261). -/
def outerLamb (s : State) (ps : List Merged) : Exact × Exact :=
  ps.foldl (fun acc p =>
    let d := p.1.2.2.desc
    let key := shardKey p.1.1 p.1.2.1
    let u := outerRecord s d
    let base := tipBase s p.1.1 p.1.2.1
    let om := sget [] s.npx.om key
    let ov := sget [] s.npx.ov key
    (List.range (sdN d)).foldl (fun (acc : Exact × Exact) e =>
      let w := f32 (base.getD e 0)
      let (_, _, q) := adamStep u (f32 (om.getD e 0)) (f32 (ov.getD e 0)) (outerGrad p.2 e)
      (acc.1.sqAdd (add32 q (mul32 (grWd u.raw) w)), acc.2.sqAdd w)) acc) (Exact.zero, Exact.zero)

/-- Adafactor's Kc over a group's shards, in the outer update (R259, R261). -/
def outerCols (ps : List Merged) : ColSums :=
  ps.foldl (fun kc p => (List.range (sdN p.1.2.2.desc)).foldl (fun kc e =>
    smod Exact.zero kc (e % sdRowlen p.1.2.2.desc) (fun a => a.sqAdd (outerGrad p.2 e))) kc) []

/-- The row and column factors of one shard in the outer update; those before it are what `ov` holds of the shard, rows
first (R259, R261). -/
def outerFactors (s : State) (ps : List Merged) (p : Merged) : List FVal × List FVal :=
  let d := p.1.2.2.desc
  let raw := (outerRecord s d).raw
  let old := sget [] s.npx.ov (shardKey p.1.1 p.1.2.1)
  let rows := (ps.map (fun q => adaRows q.1.2.2.desc)).foldl (· + ·) 0
  let kc := outerCols ps
  let rw (r : Nat) : Exact := (List.range (sdRowlen d)).foldl (fun (x : Exact) c => x.sqAdd (outerGrad p.2 (r * sdRowlen d + c))) Exact.zero
  ((List.range (adaRows d)).map (fun r => adaFactor raw (f32 (old.getD r 0)) (rw r) (sdRowlen d)),
    (List.range (sdRowlen d)).map (fun c => adaFactor raw (f32 (old.getD (adaRows d + c) 0)) (sget Exact.zero kc c) rows))

/-- The environment of a group's outer update: the trust ratio or the mean come from the shards of the group that this
module holds, `ps` (R261, log 84). -/
def outerEnv (s : State) (ps : List Merged) (d : Nat) : UpdateEnv :=
  let u := outerRecord s d
  if sdOpt d = 6 then
    let a := outerLamb s ps
    { u with tr := trustRatio a.1 a.2 }
  else if sdOpt d = 5 then
    let rs := ps.foldl (fun (x : Exact) p => (outerFactors s ps p).1.foldl (fun x f => x.linAdd f) x) Exact.zero
    let rows := (ps.map (fun q => adaRows q.1.2.2.desc)).foldl (· + ·) 0
    { u with rm := div32 rs.read (rnd32 (.ofNat rows)) }
  else u

/-- The segment of one shard's publication, its new moments and its home-side residual: `g := −M` through the equations of the
shard's update group (R261, R392, R393). `all` are the module's shards with their merged values. -/
def outerShard (s : State) (book : Book) (seed : Nat) (all : List Merged) (p : Nat × Nat × Shard) (m : List Nat) :
    List Byte × List Nat × List Nat × List Nat :=
  let d := p.2.2.desc
  let key := shardKey p.1 p.2.1
  let ps := all.filter (fun q => decide (sdGroup q.1.2.2.desc = sdGroup d))
  let env := outerEnv s ps d
  let (rf, cf) := if sdOpt d = 5 then outerFactors s ps (p, m) else ([], [])
  let base := tipBase s p.1 p.2.1
  let om := sget [] s.npx.om key
  let ov := sget [] s.npx.ov key
  let ro := sget [] s.npx.rout key
  let out := (List.range (sdN d)).map (fun e =>
    let w := f32 (base.getD e 0)
    let rc := mul32 (rf.getD (e / sdRowlen d) .zero) (cf.getD (e % sdRowlen d) .zero)
    let (w', m', v') := updateElem (sdOpt d) env w (f32 (om.getD e 0)) (f32 (ov.getD e 0)) (outerGrad m e) rc
    (to32 (add32 (sub32 w' w) (f32 (ro.getD e 0))), to32 m', to32 v'))
  let (seg, err) := encodeSegment book seed d (out.map Prod.fst)
  (seg, out.map (fun x => x.2.1), if sdOpt d = 5 then (rf ++ cf).map to32 else out.map (fun x => x.2.2), err)

end Sys2Proof.Machine
end

