-- ==== Sys2Proof/Machine/Npx.lean ====
section
/-!
DEFINITION. The Nipen exchange: the home protocol, windows, publications, joining, and the commands and events of
chapter 13.
-/
namespace Sys2Proof.Machine

/-! ## Versions and lineage (R395 to R402) -/

/-- The staged publications that continue from version `v`, in order. -/
def pubChain : Nat → Nat → List Pub → List Pub
  | 0, _, _ => []
  | n + 1, v, ps => match ps.find? (fun p => !p.full && decide (p.base = v)) with
    | some p => p :: pubChain n p.ver ps
    | none => []

/-- What the next flagged commit applies: a fetched full base if one is staged, and the publications that follow. -/
def applicable (s : State) : List Pub :=
  let ps := s.npx.staged
  match ps.find? (fun p => p.full) with
  | some f => f :: pubChain ps.length f.ver ps
  | none => pubChain ps.length s.npx.version ps

/-- The newest version held, staged ones included. -/
def tipVer (s : State) : Nat := match (applicable s).getLast? with
  | some p => p.ver
  | none => s.npx.version

/-- One publication applied to a shard's base words: one add32 per element, or the whole base (R393, R396, R403). -/
def applyPub (p : Pub) (key : Nat) (ws : List Nat) : List Nat :=
  let vs := sget [] p.vals key
  if p.full then vs else (List.zip (List.range ws.length) ws).map (fun e => to32 (add32 (f32 e.2) (f32 (vs.getD e.1 0))))

/-- Form the staged base of every shard anew. -/
def restage (s : State) : State :=
  let ps := applicable s
  let v := tipVer s
  (allShards s).foldl (fun s p =>
    let o := outerOf s p.1 p.2.1
    let base := (List.range (sdN p.2.2.desc)).map (fun e => o.base.getD e 0)
    let key := shardKey p.1 p.2.1
    setOuter p.1 p.2.1 { o with staged := if ps.isEmpty then none else some (ps.foldl (fun ws q => applyPub q key ws) base, v) } s) s

/-- Hold a publication or base in staging, in version order. -/
def stagePub (p : Pub) (s : State) : State :=
  let others := s.npx.staged.filter (fun q => decide (q.ver ≠ p.ver) && !(p.full && q.full))
  let low := others.filter (fun q => decide (q.ver < p.ver))
  restage (setNpx (fun n => { n with staged := low ++ [p] ++ others.filter (fun q => decide (p.ver < q.ver)) }) s)

/-- A tag is in the lineage (R402). -/
def inLineage (s : State) (e v : Nat) : Bool :=
  s.npx.lineage.any (fun l => decide (l.epoch = e) && decide (l.first ≤ v)
    && (match l.last with | some x => decide (v ≤ x) | none => decide (v ≤ tipVer s)))

/-- Close the last lineage entry before version `first` and open the next. -/
def extendLineage (ls : List Line) (e home first : Nat) : List Line :=
  ls.map (fun l => if l.last.isNone then { l with last := some (first - 1) } else l)
    ++ [{ epoch := e, home := home, first := first, last := none }]

/-- The module's own delta no longer awaits its home (R378). -/
def settleOwn (base outer : Nat) (s : State) : State :=
  match s.npx.delta with
  | some d => if d.base = base ∧ d.outer = outer then setNpx (fun n => { n with delta := some { d with settled := true } }) s else s
  | none => s

/-- Hand an item to the replica set over handle 0xFFF3 (R375): its kind and its bytes. -/
def spread (kind : Nat) (data : List Byte) (s : State) : State :=
  emit (.collective 0xFFF3 (BitVec.ofNat 8 kind :: data)) s

/-! ## Control messages (Table 13-4, log 44) -/

/-- A CTRL body: CODE, and the fields from byte 4 on; 64 bytes, or what sixteen lineage entries take. -/
def ctrlBody (code : Nat) (fields : List Byte) : List Byte :=
  slice (([BitVec.ofNat 8 code, 0, 0, 0] : List Byte) ++ fields) 0 (if code = 6 then 192 else 64)

/-- Send a control message to one partner. -/
def tell (d : Partner) (body : List Byte) (s : State) : State := sendPacket 5 11 d (wNow s) 0 0 1 0 body s
/-- Send it to a site's agent. -/
def tellSite (t : Nat) (body : List Byte) (s : State) : State := match siteAgent s t (wNow s) with
  | some d => tell d body s
  | none => s
/-- Send it to every other configured site. -/
def tellAll (body : List Byte) (s : State) : State :=
  (List.range (nSites s)).foldl (fun s t => if t = siteId s then s else tellSite t body s) s

/-- Send an object to every other site's agent. -/
def objectToAll (typ outer : Nat) (ob : List Byte) (s : State) : State :=
  (List.range (nSites s)).foldl (fun s t =>
    if t = siteId s then s else match siteAgent s t (wNow s) with
      | some d => sendObject typ d outer ob s
      | none => s) s

def lineBytes (l : Line) : List Byte :=
  beBytes 2 l.epoch ++ beBytes 1 l.home ++ beBytes 4 l.first ++ beBytes 4 (l.last.getD 0xFFFFFFFF)
def lineageEntry (bs : List Byte) : Line :=
  let x := beAt bs 7 4
  { epoch := beAt bs 0 2, home := beAt bs 2 1 % 64, first := beAt bs 3 4, last := if x = 0xFFFFFFFF then none else some x }

def statusBody (s : State) : List Byte :=
  let d := match s.npx.delta with
    | some d => if d.settled then none else some d
    | none => none
  ctrlBody 1 (beBytes 2 s.npx.epoch ++ beBytes 4 s.npx.version ++ beBytes 1 s.npx.home ++ beBytes 1 (bit d.isSome)
    ++ (match d with | some d => beBytes 4 d.base ++ beBytes 4 d.outer | none => beBytes 8 0))
def fetchBody (kind first last : Nat) : List Byte := ctrlBody 2 (beBytes 1 kind ++ beBytes 4 first ++ beBytes 4 last)
def rebaseBody (s : State) (base outer reason : Nat) : List Byte :=
  ctrlBody 3 (beBytes 4 base ++ beBytes 4 outer ++ beBytes 1 reason ++ beBytes 2 s.npx.epoch ++ beBytes 4 (tipVer s))
def candidateBody (s : State) : List Byte :=
  ctrlBody 4 (beBytes 2 s.npx.voted ++ beBytes 1 (siteId s) ++ beBytes 4 s.npx.version
    ++ (match s.npx.lineage.getLast? with | some l => lineBytes l | none => []))
def voteBody (e cand : Nat) (granted : Bool) : List Byte := ctrlBody 5 (beBytes 2 e ++ beBytes 1 cand ++ beBytes 1 (bit granted))
def newhomeBody (s : State) : List Byte :=
  let ls := s.npx.lineage.drop (s.npx.lineage.length - 16)
  let first := match s.npx.lineage.getLast? with | some l => l.first | none => 0
  ctrlBody 6 (beBytes 2 s.npx.epoch ++ beBytes 1 (siteId s) ++ beBytes 4 first ++ beBytes 1 ls.length ++ ls.flatMap lineBytes)
def aliveBody (s : State) : List Byte := ctrlBody 7 (beBytes 2 s.npx.epoch ++ beBytes 4 (tipVer s))

/-- Send a request to a site's agent: only the agent of the window transmits (R374). -/
def request (t : Nat) (body : List Byte) (s : State) : State := if isAgent s (wNow s) then tellSite t body s else s

/-- A decision of the home protocol, or the message of `site` that it rests on, to the replica set (R375). -/
def decide5 (site : Nat) (body : List Byte) (s : State) : State := spread 5 (BitVec.ofNat 8 site :: body) s

/-- A site that has granted a vote sends nothing of an earlier epoch (R401). -/
def mayTalk (s : State) : Bool := decide (s.npx.voted ≤ s.npx.epoch)

/-- Packets of the current epoch have come from a site in window `w` (R394). -/
def setHeard (site w : Nat) (s : State) : State := setNpx (fun n => { n with heard := sput 0 n.heard site (w + 1) }) s
/-- They have come now; the lease record is the whole replica set's (R399), so the first in a window goes to every member. -/
def heardFrom (site : Nat) (s : State) : State :=
  let w := wNow s
  if sget 0 s.npx.heard site = w + 1 then s else spread 7 (beBytes 1 site ++ beBytes 4 w) (setHeard site w s)

/-! ## Fetches and epochs (R396, R398, R401 to R403) -/

/-- A full base is asked of the home by the agent, which counts the fetch. -/
def askBase (s : State) : State :=
  if isAgent s (wNow s) then tellSite s.npx.home (fetchBody 1 0 0) (npxEvent 2 s.npx.home (bump s (cNpx 0x180))) else s
/-- Begin a full base fetch. -/
def fullFetch (s : State) : State := askBase (setNpx (fun n => { n with fullNext := true }) s)

/-- A publication could not be applied: fetch it, and at its second failure the full base. -/
def pubFailed (v : Nat) (s : State) : State :=
  if s.npx.failed.contains v then fullFetch s
  else request s.npx.home (fetchBody 0 v v) (setNpx (fun n => { n with failed := n.failed ++ [v] }) s)

/-- What is left of the merged deltas when publications beyond version `v` turn off-lineage: a delta they list is merged no
more (R390, R402). -/
def mergedUpTo (v : Nat) (n : Npx) : List (Nat × Nat) :=
  let gone := (n.staged.filter (fun p => decide (v < p.ver))).flatMap Pub.contrib
  n.merged.filter (fun m => !gone.any (fun e => decide (field e 127 120 = m.1) && decide (field e 95 64 = m.2)))

/-- Follow the home of a later epoch whose first version is `first`; a version held beyond it is off-lineage. -/
def followEpoch (e home first : Nat) (ls : List Line) (s : State) : State :=
  let s := if isHome s then npxEvent 4 home s else s
  let s := setNpx (fun n => { n with
    state := if n.state = 4 then 4 else 0, epoch := e, home := home, lineage := ls, voted := max n.voted e, votes := []
    silent := 0, lease := false, pubOut := none, staged := n.staged.filter (fun p => decide (p.ver < first))
    merged := mergedUpTo (first - 1) n }) s
  let s := restage s
  if first ≤ s.npx.version ∧ s.npx.state ≠ 4 then fullFetch s else s

/-- A packet of a home names its epoch: an earlier one is ignored, a later one is followed (Table 13-5, R401). -/
def withEpoch (e home first : Nat) (s : State) (k : State → State) : State :=
  if e < s.npx.epoch ∨ e < s.npx.voted then s
  else if s.npx.epoch < e then k (followEpoch e home first (extendLineage s.npx.lineage e home first) s)
  else k s

/-- The majority of configured sites. -/
def majority (s : State) : Nat := nSites s / 2 + 1

/-- The module's site is the home of epoch `e`: its lineage entry, its outer moments and its residual start anew (R402). -/
def startHome (e : Nat) (s : State) : State :=
  let v := s.npx.version
  restage (setNpx (fun n => { n with
    state := 2, epoch := e, voted := max n.voted e, home := siteId s, lineage := extendLineage n.lineage e (siteId s) (v + 1)
    om := [], ov := [], rout := [], outerN := 0, silent := 0, staged := n.staged.filter (fun p => decide (p.ver ≤ v))
    merged := mergedUpTo v n }) s)

/-- A candidate with its majority becomes home (R402). -/
def becomeHome (s : State) : State :=
  let s := s.npx.votes.foldl (fun s t => heardFrom t s) (startHome s.npx.voted s)
  let s := npxEvent 3 (siteId s) (bump s (cNpx 0x198))
  let b := newhomeBody s
  decide5 (siteId s) b (tellAll b s)

/-- The site's position in the home order after the current home (R400). -/
def rankOf (s : State) : Nat :=
  let o := homeOrder s
  let at' (t : Nat) : Nat := (o.findIdx? (· = t)).getD 0
  (at' (siteId s) + o.length - at' s.npx.home - 1) % max 1 o.length

/-! ## Codebooks (R167, R405) -/

/-- Hold a received codebook: its CRC is checked, of five versions the one with the smallest EFFECTIVE is discarded, the
first received on a tie and the arriving one too, and a held version with another CRC stands (R167). -/
def keepBook (b : Book) (s : State) : State × Bool :=
  let fam := s.cbl.books.filter (fun c => decide (c.family = b.family))
  if crc64 b.entries ≠ b.crc then (bump s (cNpx 0x1A0), false)
  else match fam.find? (fun c => decide (c.version = b.version)) with
  | some c => if c.crc = b.crc then (s, true) else (bump s (cNpx 0x1A0), true)
  | none =>
    let old := if fam.length < 4 then none
      else (fam ++ [b]).foldl (fun (a : Option Book) c => match a with
        | none => some c
        | some m => if c.effective < m.effective then some c else some m) none
    ({ s with cbl := { s.cbl with books := (s.cbl.books ++ [b]).filter (fun c => old ≠ some c) } }, true)

/-- Bytes of a codebook's entries. -/
def bookBytes (wide : Bool) : Nat := if wide then 131072 else 8192

/-- A codebook from a body (Table 6-6). -/
def readBook (bs : List Byte) : Book :=
  let h := leAt bs 0 64
  { header := h, entries := slice bs 64 (bookBytes (flag h 491)) }

/-- The trainer site of a family: the home of the group the model designates for it (R168, log 42). -/
def trainerSite (s : State) (fam : Nat) : Nat :=
  let g := if s.stp.q = 0 then 0 else fam % s.stp.q
  if g = ownGroup s then s.npx.home else s.npx.orders.getD (g * nSites s) 0

/-- A codebook that came with an object or with the exchange configuration; one whose CRC fails is requested again (R167). -/
def receiveBook (b : Book) (s : State) : State :=
  let (s, ok) := keepBook b s
  if ok then s else request (trainerSite s b.family) (fetchBody 2 b.family b.version) s

/-- Ask the trainer for every codebook that a body's segments name and that is not held. -/
def fetchBooks (nseg : Nat) (body : List Byte) (s : State) : State :=
  ((splitSegments nseg body).map Prod.fst).foldl (fun s h =>
    let fam := field h 203 200
    let ver := field h 239 224
    if s.cbl.books.any (fun b => decide (b.family = fam) && decide (b.version = ver)) then s
    else request (trainerSite s fam) (fetchBody 2 fam ver) s) s

/-! ## Full bases (R403) -/

/-- The code table the model's own BASE objects use: every exponent but the largest, and the escape, in eight bits
(log 43). -/
def baseTable : List Byte :=
  List.replicate 14 0 ++ leBytes 2 256 ++ leBytes 2 256 ++ leBytes 2 (fmtCode .bf16) ++ List.replicate 12 0
    ++ ((List.range 255).flatMap (leBytes 2)) ++ leBytes 2 escapeSym

def baseRow (d : Nat) : Nat := if sdRowlen d = 0 then max 1 (sdN d) else sdRowlen d

/-- A base in split form: high halves as a compressed BF16 tensor, then low halves. -/
def splitBase (d : Nat) (ws : List Nat) : List Byte :=
  let rl := baseRow d
  encodeTensor .bf16 rl [baseTable] ((runsOf rl ws.length (ws.map (· / 65536))).map (fun r => (r, [])))
    ++ ws.flatMap (fun w => leBytes 2 w)

/-- Join one shard's halves from the front of a body; `none` where the coded part has the wrong size (R160). -/
def joinBase (d : Nat) (bs : List Byte) : Option (List Nat × List Byte) :=
  let h := readCompHeader (slice bs 0 64)
  let n := sdN d
  let rl := baseRow d
  let tabs := (List.range h.ntab).map (fun j => readTable (slice bs (64 + 544 * j) 544))
  if h.version ≠ 1 ∨ h.fmt ≠ fmtCode .bf16 ∨ h.rowlen ≠ rl ∨ h.rows ≠ ceilDiv n rl ∨ !tabs.all (tableValid .bf16) then none
  else
    let rows := (List.range h.rows).map (fun r => decodeRow .bf16 h tabs (fun o m => slice bs o m) r 0 (ceilDiv rl 4096))
    if rows.any (fun r => r.any (fun b => b.2.outcome ≠ .exact)) then none
    else
      let hi := rows.flatMap (fun r => (r.flatMap (fun b => b.2.elems)).take rl)
      let off := h.dataOff + h.dataLen
      some ((List.range n).map (fun e => hi.getD e 0 % 65536 * 65536 + leAt bs (off + 2 * e) 2), bs.drop (off + 2 * n))

/-- A whole BASE body, by shard key. -/
def joinBases : List (Nat × Nat × Shard) → List Byte → Option (Sparse (List Nat))
  | [], _ => some []
  | p :: ps, bs => match joinBase p.2.2.desc bs with
    | none => none
    | some (ws, rest) => (joinBases ps rest).map (fun m => sput [] m (shardKey p.1 p.2.1) ws)

/-- The BASE object of the newest base held. -/
def baseObject (s : State) : List Byte :=
  let body := (allShards s).flatMap (fun p =>
    let ws := tipBase s p.1 p.2.1
    splitBase p.2.2.desc ((List.range (sdN p.2.2.desc)).map (fun e => ws.getD e 0)))
  mkObject s 3 s.npx.epoch (tipVer s) 0 0 (allShards s).length 0 body

/-- EXCH_JOIN's end (R404): weights, base and boundary weights are the fetched base, residuals +0, OUTER is `u`. -/
def joinApply (vals : Sparse (List Nat)) (e v u : Nat) (s : State) : State :=
  let s := (allShards s).foldl (fun s p =>
    let (k, i, sh) := p
    let ws := sget [] vals (shardKey k i)
    let s := unitStore k (sdW sh.desc) (wordBytes ws) s
    let s := setOuter k i { OuterShard.init with base := ws, wb := ws, version := v } s
    (List.range (sdPrints sh.desc)).foldl (fun s m => printBlock k sh.desc m s) s) s
  let s := writeRecord { s.stp.rc with outer := u } s
  let s := setNpx (fun n => { n with
    state := 0, epoch := e, version := v, staged := [], fullNext := false, silent := 0, delta := none, joinReply := none
    lineage := if n.lineage.any (fun l => l.last.isNone && decide (l.epoch = e)) then n.lineage
      else [{ epoch := e, home := n.home, first := v, last := none }] }) s
  s

/-! ## Deltas at the home (R389, R390) -/

/-- Hold a complete DELTA object that no held one repeats; it completed at line time `at'`. -/
def addDelta (site at' : Nat) (ob : List Byte) (s : State) : State :=
  let h := objHead ob
  let d : HeldDelta := { at' := at', site := site, epoch := ohEpoch h, base := ohBase h, outer := ohOuter h, body := ob }
  let slack : Int := (wMs s 2 : Int) - ((at' - wAt s (wNow s) 1) / 1000000 : Nat)
  if s.npx.deltas.any (fun x => decide (x.site = site) && decide (x.base = d.base) && decide (x.outer = d.outer)) then s
  else setNpx (fun n => { n with
    deltas := n.deltas ++ [d], slackNow := some (match n.slackNow with | some x => min x slack | none => slack) }) s

/-- A DELTA object is complete at the home: every member of the replica set holds it (R375, Table 13-8). -/
def holdDelta (site : Nat) (ob : List Byte) (s : State) : State :=
  let h := objHead ob
  let s := if wAt s (ohOuter h) 2 ≤ nsOf s then bump s (cNpx 0x150) else s
  let s := if ohEpoch h = s.npx.epoch then heardFrom site s else s
  spread 6 (beBytes 1 site ++ beBytes 8 (nsOf s) ++ ob) (addDelta site (nsOf s) ob s)

/-- The held deltas that the close of window `w` takes, and those completed at it or after, which wait for the next
(R389, Table 13-8). -/
def closingDeltas (w : Nat) (s : State) : List HeldDelta := s.npx.deltas.filter (fun d => decide (d.at' < wAt s w 2))
def dropClosing (w : Nat) (s : State) : State :=
  setNpx (fun n => { n with deltas := n.deltas.filter (fun d => decide (wAt s w 2 ≤ d.at')) }) s

/-- Send the module's own delta to its home, or hold it at home itself. -/
def deliverDelta (d : OwnDelta) (s : State) : State :=
  let mark (s : State) : State := setNpx (fun n => { n with delta := some { d with sent := true, at' := nsOf s } }) s
  if isHome s then mark (holdDelta (siteId s) d.bytes s)
  else match siteAgent s s.npx.home (wNow s) with
    | some p => if maySend s && mayTalk s then sendObject 1 p d.outer d.bytes (mark s) else s
    | none => s

/-- Start sending a delta once it is encoded and its window is open (R377). -/
def trySendDelta (s : State) : State :=
  match s.npx.delta with
  | some d => if !d.sent && !d.settled && isAgent s d.outer && decide (d.outer < s.npx.window) then deliverDelta d s else s
  | none => s

/-- STATUS to the home (R386). -/
def sendStatus (s : State) : State :=
  if isHome s then s
  else if mayTalk s then tellSite s.npx.home (statusBody s) s else s

/-- The book that the staged delta is encoded with: the one chosen as its encoding started, or where no family was held
then, the one chosen now (R167). -/
def encodingBook (s : State) : Option Book :=
  let bs := if s.npx.encBooks.isEmpty then booksFrom s s.stp.rc.outer else s.npx.encBooks
  let fam := bs.foldl (fun a b => min a b.family) 15
  bs.find? (fun b => decide (b.family = fam))

/-- DELTA_ENCODE_COMPLETE (R377): the VQ encoding of the staged delta ends; the residual is its error. -/
def execDeltaEncodeComplete (s : State) : Host.Outcome State Fault Refusal :=
  .next (
    let u := s.stp.rc.outer
    let shs := allShards s
    let again := match s.npx.delta with | some d => decide (d.outer = u) | none => false
    if !s.npx.configured || s.stp.deltaDue || again || shs.all (fun p => (outerOf s p.1 p.2.1).stage.isEmpty) then s
    else match encodingBook s with
    | none => s
    | some b =>
      let (body, s) := shs.foldl (fun (acc : List Byte × State) p =>
        let (bs, s) := acc
        let o := outerOf s p.1 p.2.1
        let (seg, err) := encodeSegment b s.free p.2.2.desc o.stage
        (bs ++ seg, setOuter p.1 p.2.1 { o with efr := err } { s with free := s.free + 1 })) ([], s)
      let ob := mkObject s 1 s.npx.epoch s.npx.version 0 u shs.length 0 body
      let d : OwnDelta := { base := s.npx.version, outer := u, bytes := ob, sent := false, at' := 0, settled := false }
      trySendDelta (setNpx (fun n => { n with delta := some d }) s))

/-! ## Windows (R388 to R394) -/

/-- WINDOW_OPEN (R388): the agent sends STATUS, asks for a full base that is still wanted (R403) and may start sending its
delta. The window before it is the last one, whose slack NPX_SLACK reports (R389). -/
def execWindowOpen (s : State) : Host.Outcome State Fault Refusal :=
  .next (
    let u := wNow s
    if !s.npx.configured || decide (wMs s 0 = 0) || decide (nsOf s < wAt s u 1) || decide (u < s.npx.window) then s
    else
      let s := setNpx (fun n => { n with window := u + 1, isOpen := true, slack := n.slackNow.getD n.slack, slackNow := none
                                         silent := if isHome s then 0 else n.silent + 1 }) s
      if !isAgent s u then trySendDelta s
      else
        let s := if (exchangePort s).isNone then bump s (cNpx 0x1A8) else s
        let s := if txReady s then s else bump s (cCip 0x120)
        let wanting := decide (s.npx.state = 4) || (s.npx.fullNext && !s.npx.staged.any Pub.full)
        let s := if wanting then tellSite s.npx.home (fetchBody 1 0 0) s else s
        trySendDelta (sendStatus s))

/-- Answer a site whose delta is discarded (R390). -/
def sendRebase (d : HeldDelta) (reason : Nat) (s : State) : State :=
  if d.site = siteId s then settleOwn d.base d.outer s else tellSite d.site (rebaseBody s d.base d.outer reason) s

/-- Classify one held delta at a close: what is merged stays in the list. -/
def classifyDelta (all : List HeldDelta) (acc : List HeldDelta × State) (d : HeldDelta) : List HeldDelta × State :=
  let (keep, s) := acc
  let v := tipVer s
  if !inLineage s d.epoch d.base then (keep, sendRebase d 0 (bump s (cNpx 0x168)))
  else if sMax s < v - d.base then (keep, sendRebase d 1 (bump s (cNpx 0x160)))
  else if s.npx.merged.contains (d.site, d.base) then (keep, sendRebase d 2 (bump s (cNpx 0x170)))
  else if all.any (fun x => decide (x.site = d.site) && decide (x.base = d.base) && decide (d.outer < x.outer)) then
    (keep, bump s (cNpx 0x170))
  else (keep ++ [d], if d.base < v then bump s (cNpx 0x158) else s)

/-- The weight of a delta's staleness (R390). -/
def weightOf (s : State) (st : Nat) : Nat := s.npx.weights.getD st (to32 (div32 .one (.ofNat (1 + st))))

/-- A contributor entry (R393). -/
def contribEntry (s : State) (d : HeldDelta) : Nat :=
  d.site % 256 * 2 ^ 120 + d.base % 2 ^ 32 * 2 ^ 64 + d.outer % 2 ^ 32 * 2 ^ 32 + weightOf s (tipVer s - d.base) % 2 ^ 32

/-- Run the outer update on merged values and form the publication: on the agent after the merge, and on every member of
the home's replica set (R392, R393). The contributor entries are written and read big-endian like the object header they
follow: R8 names them nowhere. DESIGN CHOICE (log 78), unsafe. -/
def formPub (entries : List Nat) (ms : List (List Nat)) (s : State) : State :=
  let v := tipVer s
  match senderBook s (deltaFamily s) s.stp.rc.outer with
  | none => s
  | some b =>
    let shs := allShards s
    let all : List Merged := (List.zip (List.range shs.length) shs).map (fun p => (p.2, ms.getD p.1 []))
    let s0 := s
    let (segs, s) := all.foldl (fun (acc : List Byte × State) p =>
      let (bs, s) := acc
      let key := shardKey p.1.1 p.1.2.1
      let (seg, m', v', r') := outerShard s0 b s.free all p.1 p.2
      (bs ++ seg, { s with
        free := s.free + 1
        npx := { s.npx with om := sput [] s.npx.om key m', ov := sput [] s.npx.ov key v', rout := sput [] s.npx.rout key r' } }))
      ([], s)
    let ob := mkObject s 2 s.npx.epoch v (v + 1) (s.npx.window - 1) shs.length entries.length (entries.flatMap (beBytes 16) ++ segs)
    let vals := (List.zip shs (decodeSegments s shs.length segs)).foldl (fun (m : Sparse (List Nat)) p =>
      sput [] m (shardKey p.1.1 p.1.2.1) ((p.2.getD []).map to32)) []
    let s := entries.foldl (fun s e =>
      if field e 127 120 = siteId s then settleOwn (field e 95 64) (field e 63 32) s else s) s
    let s := setNpx (fun n => { n with pubOut := some ob, outerN := n.outerN + 1 }) s
    stagePub { base := v, ver := v + 1, epoch := s.npx.epoch, contrib := entries, vals := vals, full := false } s

/-- Merge the deltas of the close of window `w` (R391) and form the publication. -/
def mergeClose (w : Nat) (ds : List HeldDelta) (s : State) : State :=
  let shs := allShards s
  let ds := ds.mergeSort (fun a b => decide (a.site < b.site) || (decide (a.site = b.site) && decide (a.base ≤ b.base)))
  let entries := ds.map (contribEntry s)
  let parts := ds.map (fun d => (weightOf s (tipVer s - d.base), decodeSegments s (ohNSeg (objHead d.body)) (d.body.drop 64)))
  let drops := (parts.map (fun p => (p.2.filter Option.isNone).length)).foldl (· + ·) 0
  let ms := (List.zip (List.range shs.length) shs).map (fun p =>
    mergeShard (parts.filterMap (fun c => ((c.2.getD p.1 none).map (fun vs => (c.1, vs))))) (sdN p.2.2.2.desc))
  let s := setNpx (fun n => { n with merged := n.merged ++ ds.map (fun d => (d.site, d.base)) })
    (dropClosing w (bumpN s (cNpx 0x140) drops))
  let s := spread 1 (beBytes 1 entries.length ++ entries.flatMap (beBytes 16) ++ ms.flatMap (fun m => m.flatMap (leBytes 4))) s
  formPub entries ms s

/-- The own site and those heard in the current epoch within the last LEASE_W windows are a majority (R394). -/
def leaseHeld (s : State) (w : Nat) : Bool :=
  decide (majority s ≤ ((List.range (nSites s)).filter (fun t =>
    let h := sget 0 s.npx.heard t
    decide (t = siteId s) || (decide (0 < h) && decide (w < h - 1 + leaseW s)))).length)

/-- WINDOW_CLOSE (R390 to R394): the home checks its lease; its agent classifies and merges, and members clear the deltas
of the close as its merge buffers arrive, which are none where nothing was merged. -/
def execWindowClose (s : State) : Host.Outcome State Fault Refusal :=
  .next (
    let w := s.npx.window - 1
    if !s.npx.isOpen || decide (nsOf s < wAt s w 2) then s
    else
      let s := setNpx (fun n => { n with isOpen := false }) s
      if !isHome s then s
      else
        let held := leaseHeld s w
        let had := decide (s.npx.state = 2)
        let s := setNpx (fun n => { n with state := if held then 2 else 3, lease := held }) s
        let alive (s : State) : State :=
          if mayTalk s then decide5 (siteId s) (aliveBody s) (tellAll (aliveBody s) s) else s
        if !isAgent s w then s
        else if !held then alive (bump (if had then npxEvent 5 (siteId s) s else s) (cNpx 0x190))
        else
          let all := closingDeltas w s
          let (ds, s) := all.foldl (classifyDelta all) ([], s)
          if ds.isEmpty then alive (bump (spread 1 [0] (dropClosing w s)) (cNpx 0x188))
          else mergeClose w ds s)

/-- PUBLICATION_SEND (R393): at the later of PUB_OFF and encoding. -/
def execPublicationSend (s : State) : Host.Outcome State Fault Refusal :=
  .next (
    let w := s.npx.window - 1
    match s.npx.pubOut with
    | none => s
    | some ob =>
      if !isHome s || s.npx.window = 0 || decide (nsOf s < wAt s w 3) then s
      else
        let v := ohNew (objHead ob)
        let s := setNpx (fun n =>
          let r := n.retained ++ [(v, ob)]
          { n with pubOut := none, retained := r.drop (r.length - retainN s) }) s
        if isAgent s w && mayTalk s then spread 2 ob (objectToAll 2 (ohOuter (objHead ob)) ob s) else s)

/-- DELTA_RESEND (R378, R386): every RESEND_S the agent resends an unresolved object and its STATUS. -/
def execDeltaResend (s : State) : Host.Outcome State Fault Refusal :=
  .next (
    match s.npx.delta with
    | none => s
    | some d =>
      if !d.sent || d.settled || isHome s || decide (nsOf s < d.at' + field (npxCfg2 s) 7 0 * 1000000000) || !maySend s || !mayTalk s then s
      else sendStatus (deliverDelta d (bump s (cNpx 0x148))))

/-! ## Receiving (R382, R385, R395 to R405) -/

/-- The module's site takes up a complete publication (R395 to R398). -/
def takePub (ob : List Byte) (s : State) : State :=
  let h := objHead ob
  let nc := ohNContrib h
  let entries := (List.range nc).map (fun i => beAt ob (64 + 16 * i) 16)
  let body := ob.drop (64 + 16 * nc)
  withEpoch (ohEpoch h) (ohSite h) (ohBase h + 1) s (fun s =>
    let s := setNpx (fun n => { n with silent := 0 }) s
    let s := entries.foldl (fun s e =>
      if field e 127 120 = siteId s then settleOwn (field e 95 64) (field e 63 32) s else s) s
    if ohNew h ≤ s.npx.version then s
    else
      let s := setNpx (fun n => { n with merged := (n.merged ++ entries.map (fun e => (field e 127 120, field e 95 64))).eraseDups }) s
      let segs := decodeSegments s (ohNSeg h) body
      let drops := (segs.filter Option.isNone).length
      if 0 < drops then fetchBooks (ohNSeg h) body (pubFailed (ohNew h) (bumpN s (cNpx 0x140) drops))
      else
        let vals := (List.zip (allShards s) segs).foldl (fun (m : Sparse (List Nat)) p =>
          sput [] m (shardKey p.1.1 p.1.2.1) ((p.2.getD []).map to32)) []
        let tip := tipVer s
        let s := stagePub { base := ohBase h, ver := ohNew h, epoch := ohEpoch h, contrib := entries, vals := vals, full := false } s
        if tip < ohBase h then request s.npx.home (fetchBody 0 (tip + 1) (ohBase h)) s else s)

/-- It takes up a complete full base (R403, R404); `u` is the window index its packets named. -/
def takeBase (ob : List Byte) (u : Nat) (s : State) : State :=
  let h := objHead ob
  match joinBases (allShards s) (ob.drop 64) with
  | none => request s.npx.home (fetchBody 1 0 0) s
  | some vals =>
    if s.npx.state = 4 then
      let r := s.npx.joinReply
      let s := joinApply vals (ohEpoch h) (ohBase h) u s
      match r with
      | some w => postReply w true 0 (u % 2 ^ 32) s
      | none => s
    else if !s.npx.fullNext then s
    else stagePub { base := 0, ver := ohBase h, epoch := ohEpoch h, contrib := [], vals := vals, full := true } s

/-- It takes up a complete codebook (R405). -/
def takeBook (ob : List Byte) (s : State) : State := receiveBook (readBook (ob.drop 64)) s

/-- An object is complete and its CRC matches. -/
def objectDone (typ site u : Nat) (ob : List Byte) (s : State) : State :=
  match typ with
  | 1 => if isHome s then holdDelta site ob s else s
  | 2 => spread 2 ob (takePub ob s)
  | 3 => spread 3 (beBytes 4 u ++ ob) (takeBase ob u s)
  | _ => spread 4 ob (takeBook ob s)

/-- The fragments of a group an object holds. -/
def heldFrag (o : Obj) (g i : Nat) : Option (List Byte) := sget none o.frags (g * 64 + i)
def heldCount (o : Obj) (g : Nat) : Nat := ((List.range (o.nd + o.npar)).filter (fun i => (heldFrag o g i).isSome)).length

/-- An object assembled from its groups, once every one is recoverable. -/
def assemble (o : Obj) : Option (List Byte) :=
  match recoverGroup o.nd (heldFrag o 0) o.npar with
  | none => none
  | some (d0, _) =>
    let len := 64 + ohLen (objHead d0.flatten)
    let gs := (List.range (ceilDiv len (max 1 (o.nd * o.flen)))).map (fun g => recoverGroup o.nd (heldFrag o g) o.npar)
    if gs.any Option.isNone then none
    else some (slice (gs.flatMap (fun g => match g with | some (ds, _) => ds.flatten | none => [])) 0 len)

/-- Same object. -/
def sameObj (h : Nat) (o : Obj) : Bool :=
  decide (o.typ = ehType h) && decide (o.site = ehSrcSite h) && decide (o.fid = ehSrcFid h) && decide (o.outer = ehOuter h)

/-- A fragment is held until its object can be recovered and checked (R385). -/
def rxFragment (h : Nat) (body : List Byte) (s : State) : State :=
  let new : Obj := { typ := ehType h, site := ehSrcSite h, fid := ehSrcFid h, outer := ehOuter h, nd := ehND h, npar := ehNPar h
                     flen := ehFlen h, window := wNow s, frags := [], done := none }
  let o := (s.npx.objs.find? (sameObj h)).getD new
  let store (o : Obj) (s : State) : State := setNpx (fun n => { n with objs := n.objs.filter (fun x => !sameObj h x) ++ [o] }) s
  if o.done.isSome || decide (o.nd ≠ ehND h) || decide (o.npar ≠ ehNPar h) || decide (o.flen ≠ ehFlen h)
      || decide (o.nd + o.npar ≤ ehFrag h) then s
  else
    let g := ehEgrp h
    let before := heldCount o g
    let o := { o with frags := sput none o.frags (g * 64 + ehFrag h) (some body) }
    let s := if before + 1 = o.nd ∧ heldCount o g = o.nd then
        let miss := ((List.range o.nd).filter (fun i => (heldFrag o g i).isNone)).length
        if 0 < miss then bumpN (bump s (cNpx 0x128)) (cNpx 0x120) miss else s
      else s
    match assemble o with
    | none => store o s
    | some ob =>
      if crc64 (ob.drop 64) ≠ ohCrc (objHead ob) then
        bump (setNpx (fun n => { n with objs := n.objs.filter (fun x => !sameObj h x) }) s) (cNpx 0x138)
      else objectDone (ehType h) (ehSrcSite h) (ehOuter h) ob (store { o with frags := [], done := some [] } s)

/-- A STATUS of a later epoch names its home, which is followed (Table 13-5). -/
def statusEpoch (b : List Byte) (s : State) : State :=
  let e := beAt b 4 2
  let (home, v) := (beAt b 10 1 % 64, beAt b 6 4)
  if s.npx.epoch < e then followEpoch e home (v + 1) (extendLineage s.npx.lineage e home (v + 1)) s else s

/-- STATUS at the home: a site behind it is sent the retained publications it lacks (R386). -/
def rxStatus (d : Partner) (site : Nat) (b : List Byte) (s : State) : State :=
  let e := beAt b 4 2
  let v := beAt b 6 4
  if s.npx.epoch < e then decide5 site b (statusEpoch b s)
  else if !isHome s then s
  else
    let s := if e = s.npx.epoch then heardFrom site s else s
    if mayTalk s then (s.npx.retained.filter (fun r => decide (v < r.1))).foldl (fun s r => sendObject 2 d (ohOuter (objHead r.2)) r.2 s) s else s

/-- FETCH: publications still retained, else the full base; a full base; or a codebook (R396, R403, R405). -/
def rxFetch (d : Partner) (b : List Byte) (s : State) : State :=
  let (first, last) := (beAt b 5 4, beAt b 9 4)
  if !mayTalk s then s
  else match beAt b 4 1 with
  | 0 =>
    if !isHome s then s
    else if (List.range (min 17 (last + 1 - first))).all (fun i => s.npx.retained.any (fun r => decide (r.1 = first + i))) && decide (last + 1 - first ≤ 16) then
      (s.npx.retained.filter (fun r => decide (first ≤ r.1) && decide (r.1 ≤ last))).foldl (fun s r => sendObject 2 d (ohOuter (objHead r.2)) r.2 s) s
    else sendObject 3 d (wNow s) (baseObject s) s
  | 1 => if isHome s then sendObject 3 d (wNow s) (baseObject s) s else s
  | _ => match s.cbl.books.find? (fun c => decide (c.family = first) && decide (c.version = last)) with
    | some c => sendObject 4 d (wNow s) (mkObject s 4 s.npx.epoch 0 0 0 0 0 (leBytes 64 c.header ++ c.entries)) s
    | none => s

/-- REBASE resolves the delta it names; a held version that is off-lineage or older than the home retains is fetched
whole (R378, R403). -/
def rxRebase (b : List Byte) (s : State) : State :=
  let v := beAt b 15 4
  let s := settleOwn (beAt b 4 4) (beAt b 8 4) (npxEvent 1 s.npx.home s)
  if s.npx.version + retainN s < v ∨ (beAt b 12 1 = 0 ∧ v < s.npx.version) then fullFetch s else s

/-- CANDIDATE: the vote (R401). -/
def rxCandidate (d : Partner) (b : List Byte) (s : State) : State :=
  let e := beAt b 4 2
  let cand := beAt b 6 1 % 64
  let ok := decide (s.npx.voted < e) && decide (s.npx.epoch < e) && decide (s.npx.version ≤ beAt b 7 4) && decide (failW s ≤ s.npx.silent)
    && !isHome s
  if ok then decide5 (siteId s) (voteBody e cand true) (tell d (voteBody e cand true) (setNpx (fun n => { n with voted := e }) s))
  else tell d (voteBody e cand false) s

/-- VOTE: a majority within one window makes the candidate home (Table 13-5). -/
def rxVote (site : Nat) (b : List Byte) (s : State) : State :=
  if s.npx.state ≠ 1 ∨ beAt b 4 2 ≠ s.npx.voted ∨ beAt b 6 1 % 64 ≠ siteId s ∨ beAt b 7 1 % 2 = 0
      ∨ s.npx.candAt + wMs s 0 * 1000000 < nsOf s then s
  else
    let s := setNpx (fun n => { n with votes := if n.votes.contains site then n.votes else n.votes ++ [site] }) s
    if majority s ≤ s.npx.votes.length then becomeHome s else s

/-- A NEWHOME is taken up: the site follows, with the lineage it names; the home's own is the home's start at the other
members of its replica set (R402). -/
def takeNewhome (b : List Byte) (s : State) : State :=
  let e := beAt b 4 2
  let home := beAt b 6 1 % 64
  let ls := (List.range (min 16 (beAt b 11 1))).map (fun i => lineageEntry (slice b (12 + 11 * i) 11))
  let low := match ls with | l :: _ => l.epoch | [] => e
  if e ≤ s.npx.epoch ∨ e < s.npx.voted then s
  else if home = siteId s then startHome e s
  else followEpoch e home (beAt b 7 4) (s.npx.lineage.filter (fun l => decide (l.epoch < low)) ++ ls) s

/-- ALIVE: word from the home (Table 13-5). -/
def takeAlive (site : Nat) (b : List Byte) (s : State) : State :=
  withEpoch (beAt b 4 2) site (beAt b 6 4 + 1) s (fun s =>
    if site = s.npx.home then setNpx (fun n => { n with silent := 0 }) s else s)

/-- A CTRL body by its CODE. -/
def rxControl (d : Partner) (site : Nat) (b : List Byte) (s : State) : State :=
  match beAt b 0 1 with
  | 1 => rxStatus d site b s
  | 2 => rxFetch d b s
  | 3 => decide5 site b (rxRebase b s)
  | 4 => rxCandidate d b s
  | 5 => rxVote site b s
  | 6 => decide5 site b (takeNewhome b s)
  | 7 => decide5 site b (takeAlive site b s)
  | _ => s

/-- The Nipen time path whose partner has an address. -/
def timePathFrom (s : State) (addr : Nat) : Option Nat :=
  ((List.range 8).map (· + 16)).find? (fun p => (pathOf s p).partner.1 && decide ((pathOf s p).partner.2.2.2 = addr))

/-- A time partner as a packet's destination. -/
def timePartner (s : State) (p : Nat) : Partner :=
  let q := (pathOf s p).partner
  { site := q.2.1, replica := 0, fid := q.2.2.1, addr := q.2.2.2 }

/-- A UDP datagram to the Nipen port arrives on a port: the partner filter, the header checks and the tag come first
(R376, R381, R382). -/
def receivePacket (p src : Nat) (udp : List Byte) (s : State) : State :=
  if p ≥ 12 || portMode s p ≠ 3 || !inService s p then s
  else
    let h := beAt udp 0 32
    let site := ehSrcSite h
    match s.npx.partners.find? (fun d => decide (d.addr = src)) with
    | none => bump s (cNpx 0x118)
    | some d =>
      if ehType h = 0 ∨ 6 < ehType h then bump s (cNpx 0x118)
      else
        let key := (slotKey s (ehKey h)).getD []
        let body := if (slotKey s (ehKey h)).isNone || decide (udp.length ≠ 48 + ehFlen h) then none
          else gcmOpen key (packetNonce h) (udp.take 32) (slice udp 32 (ehFlen h)) (slice udp (32 + ehFlen h) 16)
        match body with
        | none => bump s (cNpx 0x110)
        | some b =>
          if ehVersion h ≠ 1 ∨ ehJob h ≠ jobId s ∨ ehDstFid h ≠ ownFid s then bump s (cNpx 0x110)
          else
            let s := bump s (cNpx 0x108)
            match ehType h with
            | 5 => rxControl d site b s
            | 6 => match timePathFrom s src with
              | some q => timeMessage true q b (fun r s => sendPacket 6 16 (timePartner s q) (wNow s) 0 0 1 0 r s) s
              | none => s
            | _ => if s.npx.configured then rxFragment h b s else s

/-- DELTA_FRAGMENT_RECEIVE (R385). -/
def execDeltaFragmentReceive (port : BitVec 4) (src : BitVec 128) (udp : List Byte) (s : State) : Host.Outcome State Fault Refusal :=
  .next (receivePacket port.toNat src.toNat udp s)
/-- PUB_FRAGMENT_RECEIVE (R395). -/
def execPubFragmentReceive (port : BitVec 4) (src : BitVec 128) (udp : List Byte) (s : State) : Host.Outcome State Fault Refusal :=
  .next (receivePacket port.toNat src.toNat udp s)
/-- BASE_FRAGMENT_RECEIVE (R403). -/
def execBaseFragmentReceive (port : BitVec 4) (src : BitVec 128) (udp : List Byte) (s : State) : Host.Outcome State Fault Refusal :=
  .next (receivePacket port.toNat src.toNat udp s)
/-- CODEBOOK_FRAGMENT_RECEIVE (R405). -/
def execCodebookFragmentReceive (port : BitVec 4) (src : BitVec 128) (udp : List Byte) (s : State) : Host.Outcome State Fault Refusal :=
  .next (receivePacket port.toNat src.toNat udp s)
/-- NPX_STATUS_RECEIVE (R386). -/
def execNpxStatusReceive (port : BitVec 4) (src : BitVec 128) (udp : List Byte) (s : State) : Host.Outcome State Fault Refusal :=
  .next (receivePacket port.toNat src.toNat udp s)
/-- NPX_FETCH_RECEIVE (R396). -/
def execNpxFetchReceive (port : BitVec 4) (src : BitVec 128) (udp : List Byte) (s : State) : Host.Outcome State Fault Refusal :=
  .next (receivePacket port.toNat src.toNat udp s)
/-- NPX_REBASE_RECEIVE (R390). -/
def execNpxRebaseReceive (port : BitVec 4) (src : BitVec 128) (udp : List Byte) (s : State) : Host.Outcome State Fault Refusal :=
  .next (receivePacket port.toNat src.toNat udp s)
/-- NPX_CANDIDATE_RECEIVE (R401). -/
def execNpxCandidateReceive (port : BitVec 4) (src : BitVec 128) (udp : List Byte) (s : State) : Host.Outcome State Fault Refusal :=
  .next (receivePacket port.toNat src.toNat udp s)
/-- NPX_VOTE_RECEIVE (R401). -/
def execNpxVoteReceive (port : BitVec 4) (src : BitVec 128) (udp : List Byte) (s : State) : Host.Outcome State Fault Refusal :=
  .next (receivePacket port.toNat src.toNat udp s)
/-- NPX_NEWHOME_RECEIVE (R402). -/
def execNpxNewhomeReceive (port : BitVec 4) (src : BitVec 128) (udp : List Byte) (s : State) : Host.Outcome State Fault Refusal :=
  .next (receivePacket port.toNat src.toNat udp s)
/-- NPX_ALIVE_RECEIVE (R400). -/
def execNpxAliveReceive (port : BitVec 4) (src : BitVec 128) (udp : List Byte) (s : State) : Host.Outcome State Fault Refusal :=
  .next (receivePacket port.toNat src.toNat udp s)
/-- NPX_TIME_RECEIVE (R387). -/
def execNpxTimeReceive (port : BitVec 4) (src : BitVec 128) (udp : List Byte) (s : State) : Host.Outcome State Fault Refusal :=
  .next (receivePacket port.toNat src.toNat udp s)

/-- OBJECT_HOLD_EXPIRY (R385, R398): objects whose holding ends with the window after their first fragment. -/
def execObjectHoldExpiry (s : State) : Host.Outcome State Fault Refusal :=
  .next (
    let old (o : Obj) : Bool := decide (o.window + 1 < wNow s)
    let lost := s.npx.objs.filter (fun o => old o && o.done.isNone)
    let s := setNpx (fun n => { n with objs := n.objs.filter (fun o => !old o) }) (bumpN s (cNpx 0x130) lost.length)
    if lost.any (fun o => decide (o.typ = 2)) then pubFailed (tipVer s + 1) s else s)

/-- CANDIDACY_TIMEOUT (R400): no word from the home for FAIL_W plus rank windows, or no majority for FAIL_W. -/
def execCandidacyTimeout (s : State) : Host.Outcome State Fault Refusal :=
  .next (
    let due := (s.npx.state = 0 && decide (failW s + rankOf s ≤ s.npx.silent))
      || (s.npx.state = 1 && decide (s.npx.candAt + failW s * wMs s 0 * 1000000 ≤ nsOf s))
    if !due || !isAgent s (wNow s) then s
    else
      let s := setNpx (fun n => { n with state := 1, voted := max n.epoch n.voted + 1, votes := [siteId s], candAt := nsOf s }) s
      if majority s ≤ 1 then becomeHome s else decide5 (siteId s) (candidateBody s) (tellAll (candidateBody s) s))

/-- A decision of the home protocol that the site's agent took, at another member of its replica set: the CTRL body it rests
on and the site that this came from (R375). -/
def memberDecision (site : Nat) (b : List Byte) (s : State) : State :=
  match beAt b 0 1 with
  | 1 => statusEpoch b s
  | 3 => rxRebase b s
  | 4 => setNpx (fun n => { n with state := 1, voted := max n.voted (beAt b 4 2), votes := [siteId s], candAt := nsOf s }) s
  | 5 => setNpx (fun n => { n with voted := max n.voted (beAt b 4 2) }) s
  | 6 => takeNewhome b s
  | 7 => takeAlive site b s
  | _ => s

/-- EXCH_BROADCAST_RECEIVE (R375): a member takes up what its agent hands on over 0xFFF3, and confirms it. Kind 1 carries
the merge buffers of a close, 2 a publication, 3 a base after its window index, 4 a codebook, 5 a decision, 6 a delta held,
7 a site heard (log 44). -/
def execExchBroadcastReceive (kind : BitVec 4) (data : List Byte) (s : State) : Host.Outcome State Fault Refusal :=
  .next (
    if !s.npx.configured then s
    else
      let s := match kind.toNat with
        | 1 =>
          let n := beAt data 0 1
          let entries := (List.range n).map (fun i => beAt data (1 + 16 * i) 16)
          let ms := ((allShards s).foldl (fun (acc : List (List Nat) × Nat) p =>
            (acc.1 ++ [(List.range (sdN p.2.2.desc)).map (fun e => leAt data (acc.2 + 4 * e) 4)], acc.2 + 4 * sdN p.2.2.desc))
            ([], 1 + 16 * n)).1
          if !isHome s then s
          else
            let s := dropClosing (s.npx.window - 1) s
            if n = 0 then s
            else formPub entries ms (setNpx (fun x => { x with
              merged := x.merged ++ entries.map (fun e => (field e 127 120, field e 95 64)) }) s)
        | 2 => if isHome s then s else takePub data s
        | 3 => takeBase (data.drop 4) (beAt data 0 4) s
        | 4 => takeBook data s
        | 5 => memberDecision (beAt data 0 1) (data.drop 1) s
        | 6 => if isHome s then addDelta (beAt data 0 1) (beAt data 1 8) (data.drop 9) s else s
        | 7 => if isHome s then setHeard (beAt data 0 1) (beAt data 1 4) s else s
        | _ => s
      spread 0 (beBytes 2 (ownFid s)) s)

/-- NEIGHBOR_DISCOVERY (R376): a solicitation of the default router for the module's own address is answered; its
advertisement resolves the router and lets waiting packets go. Everything else is filtered. -/
def execNeighborDiscovery (port : BitVec 4) (src : BitVec 128) (icmp : List Byte) (s : State) : Host.Outcome State Fault Refusal :=
  .next (
    let p := port.toNat
    if 12 ≤ p || portMode s p ≠ 3 || !inService s p then s
    else if src.toNat ≠ gateway s then bump s (cNpx 0x118)
    else match beAt icmp 0 1 with
    | 135 =>
      if beAt icmp 8 16 ≠ ownAddr s then s
      else
        let body (c : Nat) : List Byte := ([136, 0] : List Byte) ++ beBytes 2 c ++ beBytes 4 0x60000000 ++ beBytes 16 (ownAddr s)
          ++ ([2, 1] : List Byte) ++ etherMac s p
        etherSend p (slice icmp 26 6) 16
          (ip6 (ownAddr s) src.toNat 0 0 58 255 (body (ip6Check (ownAddr s) src.toNat 58 (body 0)))) s
    | 136 =>
      if beAt icmp 8 16 ≠ gateway s then s
      else
        let wait := s.npx.waitNd
        let s := setNpx (fun n => { n with router := some (beAt icmp 26 6), waitNd := [] }) s
        wait.foldl (fun s w => routeOut w.1 11 w.2 s) s
    | _ => bump s (cNpx 0x118))

/-! ## Retraining (R168) -/

/-- The vectors a family is retrained on with their rows' stage scales, in row order: those of the module's staged delta,
or for a family that is not the delta's own the errors of its encoding, which are the residuals. The scales stand in the
delta object's row records, which have one stage (log 42). -/
def trainingVectors (s : State) (d : OwnDelta) (residual : Bool) : List (Nat × List FVal) :=
  let segs := splitSegments (allShards s).length (d.bytes.drop 64)
  (List.zip (allShards s) segs).flatMap (fun p =>
    let desc := p.1.2.2.desc
    let rl := baseRow desc
    let v := ceilDiv rl 8
    let l := vqRecordLen (flag p.2.1 205) v
    let o := outerOf s p.1.1 p.1.2.1
    let st := if residual then o.efr else o.stage
    (List.zip (List.range st.length) (runsOf rl st.length st)).flatMap (fun r =>
      let sc := beAt p.2.2 (r.1 * l) 4
      (runsOf 8 r.2.length r.2).map (fun x => (sc, pad8 (x.map f32)))))

/-- CODEBOOK_RETRAIN (R168): every T = 16 outer steps the trainer retrains a family from at most about 65,536 samples by
8 passes of k-means, effective 2 outer steps later, and publishes the new version. -/
def execCodebookRetrain (family : BitVec 4) (s : State) : Host.Outcome State Fault Refusal :=
  .next (
    let fam := family.toNat
    let u := s.stp.rc.outer
    match s.npx.delta, senderBook s fam u with
    | some d, some b =>
      if !isHome s || (decide (0 < s.stp.q) && decide (fam % s.stp.q ≠ ownGroup s)) || !isAgent s (wNow s) || decide (d.outer ≠ u) || decide (u % 16 ≠ 0)
          || s.cbl.books.any (fun c => decide (c.family = fam) && decide (field c.header 447 416 = u) && decide (0 < u)) then s
      else
        let all := trainingVectors s d (decide (fam ≠ deltaFamily s))
        let stride := max 1 (ceilDiv all.length 65536)
        let zs := ((List.zip (List.range all.length) all).filter (fun p => decide (p.1 % stride = 0))).map (fun p =>
          p.2.2.map (fun x => div32 x (f32 p.2.1)))
        let zs := zs.filter (fun z => z.all FVal.isFin)
        let entries := (kmeans 8 b.vectors zs).flatMap (fun c => c.flatMap (fun x => leBytes 4 (to32 x)))
        let ver := if b.version = 65535 then 1 else b.version + 1
        let hd := ver * 2 ^ 496 + fam * 2 ^ 492 + bit b.wide * 2 ^ 491 + (u + 2) % 2 ^ 32 * 2 ^ 448 + u % 2 ^ 32 * 2 ^ 416
          + zs.length % 2 ^ 32 * 2 ^ 384 + crc64 entries * 2 ^ 320
        let nb : Book := { header := hd, entries := entries }
        let ob := mkObject s 4 s.npx.epoch 0 0 u 0 0 (leBytes 64 hd ++ entries)
        spread 4 ob (objectToAll 4 u ob (keepBook nb s).1)
    | _, _ => s)

/-! ## Time exchanges (R311, R387) -/

/-- TIME_EXCHANGE_SEND (R311): native paths 0 to 11 and Nipen paths 16 to 23. -/
def execTimeExchangeSend (path : BitVec 5) (s : State) : Host.Outcome State Fault Refusal :=
  .next (
    let p := path.toNat
    if nsOf s < (pathOf s p).due then s else
    let body (s : State) : List Byte := timeBody (decide (16 ≤ p)) s.tm.stratum false s.tm.now 0 0
    if p < 12 then
      if !portNative s p || !inService s p then s
      else (let s := beginExchange p s
            sendTimeFrame p (portOf s p).peer (body s) s)
    else if 16 ≤ p ∧ p < 24 ∧ (pathOf s p).partner.1 then
      let s := beginExchange p s
      sendPacket 6 16 (timePartner s p) (wNow s) 0 0 1 0 (body s) s
    else s)

/-! ## Commands (Table 13-7) -/

/-- The codebooks at the end of a parameter block. -/
def readBooks : Nat → List Byte → List Book
  | 0, _ => []
  | n + 1, bs =>
    if bs.length < 64 ∨ leAt bs 0 64 = 0 then []
    else
      let b := readBook bs
      b :: readBooks n (bs.drop (64 + b.entries.length))

/-- A home order is a permutation of the configured sites. -/
def orderOk (n : Nat) (o : List Nat) : Bool := (List.range n).all (fun t => o.contains t) && decide (o.length = n)

/-- EXCH_CONFIG (R373, R388, R399): the offset of the first field that does not hold. -/
def exchBad (pb : List Byte) : Option Nat :=
  let reg (i : Nat) : Nat := leAt pb (4 * i) 4
  let (cfg, cfg2, site, mtu) := (reg 0, reg 1, reg 2, field (reg 3) 13 0)
  let n := leAt pb 84 1
  let q := leAt pb 80 4
  let (o1, o2, o3, o4) := (leAt pb 88 4, leAt pb 92 4, leAt pb 96 4, leAt pb 100 4)
  if 64 < field cfg 15 10 + 1 + field cfg 9 6 then some 0
  else if field cfg2 31 24 = 0 ∨ field cfg2 23 16 = 0 ∨ field cfg2 15 8 = 0 ∨ 16 < field cfg2 15 8 ∨ field cfg2 7 0 = 0 then some 4
  else if field site 25 20 + 1 ≠ n ∨ n ≤ field site 31 26 then some 8
  else if mtu < 1280 ∨ 9216 < mtu then some 12
  else if reg 16 ≤ reg 15 ∨ reg 17 ≤ reg 16 ∨ reg 14 ≤ reg 17 then some 56
  else if leAt pb 72 4 = 0 ∨ 65535 < leAt pb 72 4 then some 72
  else if q = 0 then some 80
  else if n = 0 ∨ 64 < n then some 84
  else if pb.length < o1 + 4 * n ∨ (List.range n).any (fun t => leAt pb (o1 + 4 * t) 4 = 0) then some 88
  else if pb.length < o2 + n * q
      ∨ !(List.range q).all (fun j => orderOk n ((List.range n).map (fun k => leAt pb (o2 + j * n + k) 1))) then some 92
  else if pb.length < o3 ∨ o4 < o3 then some 96
  else if pb.length < o4 then some 100
  else none

/-- The exchange configured from its parameter block; the first one starts the exchange state at epoch 0, version 0
(R399). -/
def exchInstall (pb : List Byte) (s : State) : State :=
  let n := leAt pb 84 1
  let q := leAt pb 80 4
  let (o1, o2, o3, o4) := (leAt pb 88 4, leAt pb 92 4, leAt pb 96 4, leAt pb 100 4)
  let mask := [0xFFFFFFFC, 0xFFFFFFFF, 0xFFFFFC00, 0x3FFF, 0xFFFFFFFF, 0xFFFFFFFF, 0xFFFF0000]
  let s := (List.range 18).foldl (fun s i => setReg s (npxBase + 4 * i) (leAt pb (4 * i) 4 &&& mask.getD i 0xFFFFFFFF)) s
  let orders := (List.range (n * q)).map (fun i => leAt pb (o2 + i) 1)
  let home := orders.getD (ownGroup s * n) 0
  let s := touchCfg (setNpx (fun x =>
    let x := { x with
      configured := true, nLocal := leAt pb 72 4, epoch0 := leAt pb 104 8, orders := orders
      replicas := (List.range n).map (fun t => leAt pb (o1 + 4 * t) 4)
      groups := (List.range ((o4 - o3) / 64)).map (fun i => leAt pb (o3 + 64 * i) 64) }
    if x.lineage.isEmpty then
      { x with home := home, state := if home = siteId s then 2 else 0
               lineage := [{ epoch := 0, home := home, first := 0, last := none }] }
    else x) s)
  (readBooks 64 (pb.drop o4)).foldl (fun s b => receiveBook b s) s

/-- EXCH_CONFIG. -/
def kExchConfig (h : CmdHdr) (s : State) : KRes :=
  if stepActive s then kFail stActive 0 s
  else match exchBad h.pb with
  | some o => kFail stParameter o s
  | none => kOk 0 (exchInstall h.pb s)

/-- EXCH_PARTNERS (R376). The IPv6 address of an entry is read in network order: the manual gives its 16 bytes no order.
DESIGN CHOICE (log 78), unsafe. -/
def kExchPartners (h : CmdHdr) (s : State) : KRes :=
  let n := leAt h.pb 0 4
  if flag (getReg s (fabBase + 0x14)) 0 then kFail stLocked 0 s
  else if stepActive s then kFail stActive 0 s
  else if 4096 < n ∨ h.pb.length < 64 + 32 * n then kFail stParameter 0 s
  else kOk 0 (setNpx (fun x => { x with partners := (List.range n).map (fun i =>
    let e := slice h.pb (64 + 32 * i) 32
    { site := leAt e 0 1 % 64, replica := leAt e 2 2, fid := leAt e 4 2, addr := beAt e 16 16 }) }) s)

/-- EXCH_WEIGHTS (R390). -/
def kExchWeights (h : CmdHdr) (s : State) : KRes :=
  let n := leAt h.pb 0 1
  if stepActive s then kFail stActive 0 s
  else if n = 0 ∨ 16 < n then kFail stParameter 0 s
  else kOk 0 (setNpx (fun x => { x with weights := (List.range n).map (fun i => leAt h.pb (64 + 4 * i) 4) }) s)

/-- A join begins: the event, and the request for the full base to the home (R404). -/
def joinBegun (r : ReplyTo) (s : State) : State :=
  let s := setNpx (fun n => { n with state := 4, joinReply := some r, fullNext := true }) s
  askBase s

/-- EXCH_JOIN (R404): the reply comes when the base is applied. -/
def kExchJoin (h : CmdHdr) (s : State) : KRes :=
  if !s.npx.configured then kFail stConfiguration 0 s
  else if s.npx.state = 4 then kFail stBusy 0 s
  else kDefer (joinBegun (replyTo h 0x0604 s) s)

/-- What EXCH_QUERY writes; the manual names the contents and no layout (log 32). -/
def exchRecord (s : State) : List Byte :=
  let n := s.npx
  leBytes 1 n.state ++ leBytes 1 n.home ++ leBytes 2 n.epoch ++ leBytes 4 n.version ++ leBytes 4 (unsigned 32 n.slack)
    ++ leBytes 1 (bit n.lease) ++ leBytes 1 n.lineage.length ++ leBytes 2 n.voted
    ++ (match n.delta with
      | some d => if d.settled then leBytes 8 0xFFFFFFFF else leBytes 4 d.base ++ leBytes 4 d.outer
      | none => leBytes 8 0xFFFFFFFF)
    ++ (List.range 64).flatMap (fun t => leBytes 4 (sget 0 n.heard t)) ++ n.lineage.flatMap lineBytes

/-- EXCH_QUERY. -/
def kExchQuery (h : CmdHdr) (buf : Buf) (s : State) : KRes :=
  withBuf h buf s (let d := exchRecord s; deliver h buf d id d.length s)

/-- EXCH_FETCH (R403). -/
def kExchFetch (_h : CmdHdr) (s : State) : KRes :=
  if !s.npx.configured then kFail stConfiguration 0 s else kOk 0 (fullFetch s)

/-! ## Status (Table 13-11) -/

def npxStatus (s : State) : Nat :=
  s.npx.state % 8 * 2 ^ 29 + s.npx.home % 64 * 2 ^ 23 + bit (isAgent s (wNow s)) * 2 ^ 22 + bit s.npx.lease * 2 ^ 21 + s.npx.epoch % 2 ^ 16
def npxSent (s : State) : Nat := match s.npx.delta with
  | some d => if d.settled then 0xFFFFFFFF else d.base % 2 ^ 32
  | none => 0xFFFFFFFF
def npxCtrHi (s : State) : Nat := if (slotKey s (txSlot s)).isSome then sget 0 s.sec.use (txSlot s) % 2 ^ 32 else 0

end Sys2Proof.Machine
end

