-- ==== Sys2Proof/Machine/Power.lean ====
section
/-!
DEFINITION. Resets, power states, the power limiter, thermal limits and control-core faults (chapters 14, 18 and 19).
-/
namespace Sys2Proof.Machine

/-- PWR_ counters (Table 18-12). -/
def cPwr (o : Nat) : Nat := pwrBase + 0xC000 + o
/-- MGT_ counters (Table 18-12). -/
def cMgt (o : Nat) : Nat := mgtBase + o

/-- The main rails are good. -/
def powered (s : State) : Bool := decide (3 ≤ s.pwr.stage)

/-- Replace part of the power state. -/
def setPwr (f : Pwr → Pwr) (s : State) : State := { s with pwr := f s.pwr }

/-! ## What outlives a loss (Table 18-3) -/

/-- FAB_PORT_CFG.MODE takes the PMODE straps whenever that register is reset (R539). -/
def applyStraps (s : State) : State :=
  (List.range 12).foldl (fun s p =>
    setRegField s (fabBase + 0xC000 + 0x4000 * p) 31 30 (if p < 6 then field s.pwr.straps 8 7 else field s.pwr.straps 10 9)) s

/-- Everything at reset but what no reset touches: flash, row repairs, contacts and supplies; and the model's own
queue, record and counter. -/
def coldState (s : State) : State :=
  let base : State := { State.reset with
    pending := s.pending, out := s.out, free := s.free
    sec := { Sec.init with
      slotA := s.sec.slotA, slotB := s.sec.slotB, bootIdx := s.sec.bootIdx, minSvn := s.sec.minSvn, owner := s.sec.owner
      rpaCnt := s.sec.rpaCnt, seqMax := s.sec.seqMax, use := s.sec.use, useCk := s.sec.useCk, pufOk := s.sec.pufOk
      mr := List.replicate 8 (List.replicate 32 0), cwk := s.sec.cwk + 1, booted := s.sec.booted, curSvn := s.sec.curSvn }
    pwr := { Pwr.init with
      stage := 1, cause := 0, straps := s.pwr.straps, prsnt := s.pwr.prsnt, pwrEn := s.pwr.pwrEn, perst := s.pwr.perst
      auxOk := s.pwr.auxOk, mainOk := s.pwr.mainOk, locate := s.pwr.locate } }
  applyStraps ((List.range 8).foldl (fun b k => setStack b k { Stack.init with spares := (stackOf s k).spares }) base)

/-- A cold reset (R506): the power-up that follows records `cause`. -/
def coldReset (cause : Nat) (s : State) : State :=
  setPwr (fun p => { p with training := cause }) (coldState s)

/-- PWR_CAUSE of the exit from D3cold by the cause of the loss in MGT_LAST (Table 18-11). -/
def exitCause (last : Nat) : Nat := match last with
  | 2 => 4
  | 3 => 5
  | 4 => 6
  | _ => 3

/-- Main power is lost (R507, R515): D3cold. The management controller keeps its counters and records the cause; line
time runs on in holdover on the auxiliary supply. -/
def mainLoss (last die : Nat) (s : State) : State :=
  if s.pwr.stage < 2 then s
  else
    let mgt := s.ctr.filter (fun e => decide (mgtBase ≤ e.1))
    let held := decide (2 ≤ s.tm.state)
    let c := coldState s
    let c := { c with
      ctr := mgt
      tm := if held then { TimeSt.init with now := s.tm.now, state := 3, ref10m := s.tm.ref10m
                                            holdAt := some (s.tm.holdAt.getD (nsOf s)) }
        else { TimeSt.init with now := s.tm.now, ref10m := s.tm.ref10m }
      pwr := { c.pwr with last := last, lastDie := die, eid := s.pwr.eid, tid := s.pwr.tid, fwPhase := s.pwr.fwPhase
                          fwSlot := s.pwr.fwSlot, assembly := s.pwr.assembly, fault := s.pwr.fault, alert := s.pwr.alert
                          tripped := decide (last = 3 ∨ last = 4), training := exitCause last } }
    let c := bump c (cMgt 0x100)
    let c := if last = 3 then bump c (cMgt 0x108) else if last = 4 then bump c (cMgt 0x110) else c
    raiseAlert (updateFault c)

/-! ## Supplies, contacts and power-up (R506, R513, R514, R523, R532) -/

/-- The strap word of the nine strap contacts (R539): ADDR_SEL, PMODE_A, PMODE_B and PCIE_FULL from bit 0 up. -/
def strapWord (c : Nat) : Nat := 0x40 + field c 3 0 + field c 5 4 * 2 ^ 7 + field c 7 6 * 2 ^ 9 + field c 8 8 * 2 ^ 11

/-- AUX_POWER_ON: a cold reset with the straps sampled; the management controller boots. -/
def execAuxPowerOn (straps : BitVec 9) (s : State) : Host.Outcome State Fault Refusal :=
  .next (
    if s.pwr.auxOk then s
    else coldReset 1 (setPwr (fun p => { p with auxOk := true, auxAt := 0, straps := strapWord straps.toNat }) s))

/-- COLD_RST_L_ASSERT. A trip before it shows in FAULT_L until the power-up completes (R538). -/
def execColdRstLAssert (s : State) : Host.Outcome State Fault Refusal :=
  .next (
    if !s.pwr.auxOk then s
    else
      let t := s.pwr.tripped
      updateFault (setPwr (fun p => { p with tripped := t, fault := s.pwr.fault }) (coldReset 2 s)))

/-- AUX_SUPPLY_LOW (R532, R518): main power goes with it, and the next power-up is a cold reset. -/
def execAuxSupplyLow (s : State) : Host.Outcome State Fault Refusal :=
  .next (if !s.pwr.auxOk then s else setPwr (fun p => { p with auxOk := false, stage := 0 }) (coldState s))

/-- PWR_EN_L_ASSERT. -/
def execPwrEnLAssert (s : State) : Host.Outcome State Fault Refusal := .next (setPwr (fun p => { p with pwrEn := true, enAt := if p.pwrEn then p.enAt else nsOf s }) s)
/-- PWR_EN_L_DEASSERT: main power is removed. -/
def execPwrEnLDeassert (s : State) : Host.Outcome State Fault Refusal :=
  .next (mainLoss 1 0 (setPwr (fun p => { p with pwrEn := false }) s))
/-- PRSNT_L_ASSERT. -/
def execPrsntLAssert (s : State) : Host.Outcome State Fault Refusal := .next (setPwr (fun p => { p with prsnt := true, prsntAt := if p.prsnt then p.prsntAt else nsOf s }) s)
/-- PRSNT_L_DEASSERT (R523): main power is disabled at once. -/
def execPrsntLDeassert (s : State) : Host.Outcome State Fault Refusal :=
  .next (mainLoss 5 0 (setPwr (fun p => { p with prsnt := false }) s))
/-- LOCATE_L_CHANGE (R538): the platform's request to show the module. -/
def execLocateLChange (asserted : Bool) (s : State) : Host.Outcome State Fault Refusal :=
  .next (setPwr (fun p => { p with locate := asserted }) s)
/-- MAIN_INPUT_LOW: the input has stayed below 44 V for 2 µs. -/
def execMainInputLow (s : State) : Host.Outcome State Fault Refusal :=
  .next (mainLoss 2 0 (setPwr (fun p => { p with mainOk := false }) s))
/-- MAIN_INPUT_RETURN. -/
def execMainInputReturn (s : State) : Host.Outcome State Fault Refusal := .next (setPwr (fun p => { p with mainOk := true }) s)

/-- The hot-swap controller may ramp main power: the auxiliary supply has been good for 20 ms, and PRSNT_L and PWR_EN_L
have been asserted for 10 ms (R513). -/
def mayRamp (s : State) : Bool :=
  s.pwr.auxOk && s.pwr.prsnt && s.pwr.pwrEn && s.pwr.mainOk && decide (s.pwr.auxAt + 20000000 ≤ nsOf s)
    && decide (s.pwr.prsntAt + 10000000 ≤ nsOf s) && decide (s.pwr.enAt + 10000000 ≤ nsOf s)

/-- MAIN_POWER_RAMP (R513). -/
def execMainPowerRamp (s : State) : Host.Outcome State Fault Refusal :=
  .next (
    if s.pwr.stage = 1 && mayRamp s then setPwr (fun p => { p with stage := 2 }) s
    else s)

/-- RAILS_GOOD (R514): the island boots, and the host link trains unless PERST# holds it. -/
def execRailsGood (s : State) : Host.Outcome State Fault Refusal :=
  .next (
    if s.pwr.stage ≠ 2 then s
    else setPwr (fun p => { p with stage := 3 }) { s with host := { s.host with training := !s.pwr.perst } })

/-- ISLAND_BOOT_COMPLETE (R481, R488): at a cold reset DS is reconstructed, with the bits the PUF code corrected; the
boot image is verified and measured. -/
def execIslandBootComplete (puf : Bool) (bits : W16) (s : State) : Host.Outcome State Fault Refusal :=
  .next (
    if s.pwr.stage ≠ 3 then s
    else
      let cold := decide (s.pwr.training = 1 ∨ s.pwr.training = 2)
      let s := if cold then bumpN { s with sec := { s.sec with pufOk := puf } } (cSec 0x118) bits.toNat else s
      updateFault (setPwr (fun p => { p with stage := 4 }) (bootIsland s)))

/-- One channel's training: its lanes are placed, a channel past repair is lost, and one that decodes erasures is
reported (R184, R192). A channel just trained has no retrain due (R190). -/
def trainOne (r : BitVec 10 × List LaneEye × List (BitVec 5)) (s : State) : State :=
  let g := r.1.toNat
  if chanLost s (g / 128) (g % 128) then s
  else
    let was := (chanOf s g).erased
    let (lost, s) := trainChannel g r.2.1 r.2.2 s
    let s := setChan s g { chanOf s g with weak := false, due := none, waited := false }
    if lost then loseChannel g s
    else if was = 31 ∧ (chanOf s g).erased ≠ 31 then postEvent 0x0002 g (5 * 4096 + g / 128) s
    else s

/-- Training brings every stack that is not stopped out of self-refresh. -/
def wakeStacks (s : State) : State :=
  (List.range 8).foldl (fun s k =>
    let st := stackOf s k
    if st.stopped || st.stopping then s else setStack s k { st with selfRefresh := false }) s

/-- The step record as the firmware regions hold it: the valid copy with the largest SEQ (R290). -/
def storedRecord (s : State) : Option StepRec :=
  (List.range 8).foldl (fun best k =>
    match best, readRecord (bytesAt s (fwAddr k 0x1000) 64) with
    | some b, some r => if b.seq < r.seq then some r else some b
    | none, r => r
    | b, none => b) none

/-- The step record after a module reset, mapped by R511 and written to every stack. -/
def mapRecord (s : State) : State :=
  match storedRecord s with
  | none => setStp (fun p => { p with rc := StepRec.zero }) s
  | some r =>
    let s := writeRecord r s
    if r.staged || r.state = 3 || r.state = 4 then writeRecord { r with state := 6 } s
    else if r.state = 1 || r.state = 2 || r.state = 5 then endStep 6 s
    else s

/-- A control core serves no more (R413): the spare takes its queues, or the surviving cores do; with fewer than two
left the module stops its command processing. The fatal event's cause code is not given (log 1). -/
def retireCore (c : Nat) (s : State) : State :=
  let failed := s.ck.failed ||| 2 ^ c
  let take := decide (s.ck.spare = 0) && decide (c < 4) && !failed.testBit 4
  let s := { s with ck := { s.ck with failed := failed, spare := if take then c + 1 else s.ck.spare } }
  if 4 ≤ ((List.range 5).filter failed.testBit).length ∧ !s.host.fatal then
    let (f, s) := free32 s
    updateFault (postEvent 0x000D f 0 { s with host := { s.host with fatal := true } })
  else s

/-- A tile that fails its self-test at a module reset stays fenced with its cause recorded (R116): cause 0x5, engine
self-check. Mark DEDUCED (log 85): no cause of Table 4-20 names the self-test. -/
def failTile (t : Nat) (s : State) : State := setTile s t { tileOf s t with mode := .fenced, cause := 5 }

/-- The self-tests of a module reset (R116, R413): `fails` has a bit for each of the 96 tiles and 5 control cores that
fails. The power-up of Table 18-6 runs none. -/
def selfTests (fails : Nat) (s : State) : State :=
  let s := { s with ck := { s.ck with failed := 0, spare := 0 } }
  if s.pwr.training < 7 then s
  else (List.range 101).foldl (fun s i =>
    if !fails.testBit i then s else if i < 96 then failTile i s else retireCore (i - 96) s) s

/-- The end of a power-up or module reset (Tables 18-5, 18-6): Treim is trained with row repair, the rows remapped are
copied to their spares, self-tests run, the step record is read, PWR_CAUSE is written and commands are accepted. -/
def startUp (results : List (BitVec 10 × List LaneEye × List (BitVec 5))) (fails : Nat) (s : State) : State :=
  let s := results.foldl (fun s r => trainOne r s) s
  let s := wakeStacks ((List.range 8).foldl (fun s k => repairRows k (copyRows k s)) s)
  let s := mapRecord (selfTests fails s)
  let s := setPwr (fun p => { p with stage := 5, cause := p.training, training := 0, tripped := false }) s
  updateFault { s with host := { s.host with bedWait := s.host.d3hot } }

/-- TREIM_TRAINING_COMPLETE (R184): at power-up, module reset, or leaving bedded; leaving bedded waits while the module
is fenced (Table 18-9). -/
def execTreimTrainingComplete (report : TrainingReport) (s : State) : Host.Outcome State Fault Refusal :=
  .next (
    if s.pwr.stage = 4 then startUp report.channels report.selfTest.toNat s
    else if s.pwr.stage = 5 && s.pwr.state = 3 && !s.pwr.fenced then
      setPwr (fun p => { p with state := 0 }) (wakeStacks (report.channels.foldl (fun s r => trainOne r s) s))
    else s)

/-! ## Module reset (R508 to R512) -/

/-- The tile memories, programs and chain stores are lost (Table 18-3). -/
def loseTiles (s : State) : State :=
  let s := (List.range 96).foldl (fun s t => unbindTile t s) s
  { s with tiles := [], mem := sfilter s.mem (fun a => !(decide (0x009000000000 ≤ a) && decide (a < 0x009018000000))) }

/-- Level of PWR_TEMP_d. -/
def dieLevel (s : State) (d : Nat) : Nat := (sget (0, 0) s.pwr.temps d).2

/-- The smallest k that the dies allow (Table 18-7). -/
def thermalCap (s : State) : Nat :=
  (List.range 8).foldl (fun a d => max a (if 2 ≤ dieLevel s d then 8 else if dieLevel s d = 1 then 2 else 0)) 0

/-- What the exchange keeps across a module reset: what it holds in Treim, and no packet state (R382, R408). -/
def npxAfterReset (n : Npx) : Npx :=
  { Npx.init with
    state := n.state, epoch := n.epoch, version := n.version, home := n.home, lineage := n.lineage, voted := n.voted
    retained := n.retained, staged := n.staged, om := n.om, ov := n.ov, rout := n.rout }

/-- A module reset runs as in Table 18-5 up to the island's boot: retrains end, pools drain, then what Table 18-3 loses
is lost. Write groups begun are complete, since a group's bytes are written with its step (R264). -/
def moduleReset (cause : Nat) (s : State) : State :=
  if !powered s then s
  else
    let s := s.chans.foldl (fun s e => stopRetrain e.1 s) s
    let s := (List.range 4).foldl (fun s p => poolDrain p (fun _ => true) s) s
    let s := (List.range 12).foldl (fun s p => if inService s p then bump s (cFab p 0x170) else s) s
    let s := bump (enterHoldover (dropHeld s)) (cPwr 0x120)
    let s := { s with
      regs := [], latch := [], glatch := [], course := [], tiles := [], piers := [], rmap := []
      mem := sfilter s.mem (fun a => decide (a < 0x008000000000)), openBlk := []
      upset := sfilter s.upset (fun l => decide (64 * l < 0x008000000000))
      host := { HostIf.init with
        dropLog := s.host.dropLog, lives := s.host.lives, linkUp := s.host.linkUp, training := s.host.training
        speed := s.host.speed, width := s.host.width, flit := s.host.flit, d3hot := s.host.d3hot }
      cfg := CfgCrc.init
      tensors := s.tensors.map (fun e => (e.1, { e.2 with fmt := 0, seedPending := false, seedAmax := none, prev := none }))
      chans := s.chans.map (fun e => (e.1, { e.2 with weak := false, due := none, waited := false }))
      stackTab := (List.range 8).map (fun k => (k, { stackOf s k with applied := false, rsv := 0, base := [], selfRefresh := true }))
      bud := { use := [], lent := [], pending := none, periodK := 2, nextK := none }
      cbl := { Corbel.init with
        groups := s.cbl.groups, table := s.cbl.table, outer := s.cbl.outer
        contrib := s.cbl.contrib, copyAmax := s.cbl.copyAmax, ratio := s.cbl.ratio, books := s.cbl.books }
      stp := { StepCtl.init with rc := s.stp.rc, reply := s.stp.reply, resumeReply := s.stp.resumeReply }
      tm := { s.tm with paths := [], parent := 0x1F, ppsName := none, ppsNext := none, ppsMiss := 0, backup0 := false, steer := 0 }
      fab := Fabric.init, npx := npxAfterReset s.npx
      ck := { Ckpt.init with copy := s.ck.copy.map (fun c => { c with stage := 0, paused := true, check := nsOf s }), there := s.ck.there } }
    applyStraps (setPwr (fun p => { p with stage := 3, training := cause, state := 0, k := thermalCap s, limiter := 0, samples := [], sinceUp := 0 })
      (clearIsland s))

/-- MRST_L_ASSERT (R506). -/
def execMrstLAssert (s : State) : Host.Outcome State Fault Refusal := .next (moduleReset 9 s)

/-- MODULE_RESET (Table 15-7): the confirm word is checked, and the reply is posted before the trigger. -/
def kModuleReset (h : CmdHdr) (confirm : W32) (s : State) : KRes :=
  if confirm.toNat ≠ 0xC0DE0001 then kFail stParameter 0 s
  else kDefer (moduleReset 8 (postReply (replyTo h 0x0107 s) false 0 0 s))

/-- PERST_ASSERT (R506): a host-interface reset while main power is present. -/
def execPerstAssert (s : State) : Host.Outcome State Fault Refusal :=
  .next (
    let s := setPwr (fun p => { p with perst := true }) s
    if powered s then
      let s := hostInterfaceReset true s
      { s with host := { s.host with training := false } }
    else s)

/-- PERST_DEASSERT (R514): the link trains once the rails are good as well. -/
def execPerstDeassert (s : State) : Host.Outcome State Fault Refusal :=
  .next (
    let s := setPwr (fun p => { p with perst := false }) s
    if powered s && !s.host.linkUp then { s with host := { s.host with training := true } } else s)

/-- FLR (R451, R453): a host-interface reset; with FLR_ABORT = 1 the job is aborted, an update decided excepted. -/
def execFlr (s : State) : Host.Outcome State Fault Refusal :=
  .next (
    let s := bump (hostInterfaceReset false s) (cHif 0x130)
    if flag (getReg s (hifBase + 4)) 31 then abortStep false (setRegField s (hifBase + 4) 30 30 1) else s)

/-! ## Bedded and D3hot (R516, R517) -/

/-- Entry into bedded begins: tiles and compute dies are gated. -/
def enterBed (s : State) : State :=
  bump (setPwr (fun p => { p with state := 1 }) (loseTiles s)) (cPwr 0x128)

/-- MODULE_BED enter. -/
def kModuleBedEnter (_h : CmdHdr) (s : State) : KRes :=
  if stepActive s then kFail stActive 0 s
  else if resumePending s then kFail stResumePending 0 s
  else if s.pwr.state ≠ 0 then kFail stBusy 0 s
  else kOk 0 (enterBed s)

/-- MODULE_BED leave: Treim is trained by R184; a module that is not bedded has nothing to leave. -/
def kModuleBedLeave (_h : CmdHdr) (s : State) : KRes :=
  if s.pwr.state = 1 ∨ s.pwr.state = 3 then kFail stBusy 0 s
  else if s.pwr.state = 2 then kOk 0 (setPwr (fun p => { p with state := 3 }) s)
  else kOk 0 s

/-- SELF_REFRESH_ENTRY (R195, R516): on the way to bedded, a stack's pool granules drain and it enters self-refresh;
with the last stack the module is bedded. -/
def execSelfRefreshEntry (stack : BitVec 3) (s : State) : Host.Outcome State Fault Refusal :=
  .next (
    let k := stack.toNat
    if s.pwr.state ≠ 1 then s
    else
      let s := poolDrainStack k s
      let s := setStack s k { stackOf s k with selfRefresh := true }
      if (List.range 8).all (fun k => (stackOf s k).selfRefresh) then setPwr (fun p => { p with state := 2 }) s else s)

/-- PCI_PM_D3HOT: the write takes effect for PCIe at once; with D3HOT_BED = 1 the module beds, now or at IDLE. -/
def execPciPmD3hot (s : State) : Host.Outcome State Fault Refusal :=
  .next (
    if s.host.d3hot || !powered s then s
    else
      let s := bump { s with host := { s.host with d3hot := true } } (cPwr 0x130)
      if !flag (getReg s (pwrBase + 8)) 31 || s.pwr.state ≠ 0 then s
      else if s.stp.rc.state = 0 && s.pwr.stage = 5 then enterBed s
      else { s with host := { s.host with bedWait := true } })

/-- D3HOT_BED_START: the wait ends at IDLE. -/
def execD3hotBedStart (s : State) : Host.Outcome State Fault Refusal :=
  .next (
    if s.host.d3hot && s.host.bedWait && flag (getReg s (pwrBase + 8)) 31 && s.stp.rc.state = 0 && s.pwr.state = 0 && s.pwr.stage = 5 then
      enterBed { s with host := { s.host with bedWait := false } }
    else s)

/-- PCI_PM_D0: what waited is posted, replies before events, and bedded is left. -/
def execPciPmD0 (s : State) : Host.Outcome State Fault Refusal :=
  .next (
    if !s.host.d3hot then s
    else
      let replies := s.host.held
      let events := s.host.heldEvents
      let s := { s with host := { s.host with d3hot := false, bedWait := false, held := [], heldEvents := [] } }
      let s := replies.foldl (fun s e =>
        if replyLive s e.1 then writeReply e.1 e.2.1 e.2.2 s else dropReply e.1 e.2.1 e.2.2 s) s
      let s := events.foldl (fun s e => postEvent e.1 e.2.1 e.2.2 s) s
      if s.pwr.state = 1 ∨ s.pwr.state = 2 then setPwr (fun p => { p with state := 3 }) s else s)

/-! ## The power limiter (R519) -/

/-- PWR_LIMIT.LIMIT. -/
def powerLimit (s : State) : Nat := field (getReg s (pwrBase + 0xC)) 31 20

/-- The larger of the limiter's step and the cap is in force. -/
def setClock (s : State) : State := setPwr (fun p => { p with k := max p.limiter (thermalCap s) }) s

/-- One sample of the limiter: averages over 100 and 1,000 samples since the last change of k step it down and up. -/
def limiterStep (s : State) : State :=
  let p := s.pwr
  let sum (n : Nat) : Nat := (p.samples.take n).foldl (· + ·) 0
  let lim := powerLimit s
  if 100 ≤ p.sinceUp ∧ p.k < 8 ∧ 98 * lim < sum 100 then
    setClock (bump (setPwr (fun p => { p with limiter := p.k + 1, sinceUp := 0 }) s) (cPwr 0x100))
  else if 1000 ≤ p.sinceUp ∧ 0 < p.limiter ∧ thermalCap s < p.k ∧ sum 1000 < 950 * lim then
    setClock (setPwr (fun p => { p with limiter := p.k - 1, sinceUp := 0 }) s)
  else s

/-- POWER_SAMPLE: every 1 µs; a 1 ms average past the trip bounds removes main power. -/
def execPowerSample (watts : W16) (volt : Byte) (s : State) : Host.Outcome State Fault Refusal :=
  .next (
    if !powered s then s
    else
      let s := setPwr (fun p => { p with samples := (watts.toNat :: p.samples).take 1000, sinceUp := p.sinceUp + 1, volt := volt.toNat }) s
      let sum := s.pwr.samples.foldl (· + ·) 0
      if s.pwr.samples.length = 1000 ∧ (s.pwr.k = 8 ∧ 1100 * powerLimit s < sum ∨ 2640000 < sum) then mainLoss 3 0 s
      else limiterStep s)

/-- PWR_INPUT, PWR_CLOCK, PWR_STATE, PWR_TEMP_d, MGT_STATUS and MGT_LAST (Table 18-11). -/
def pwrInput (s : State) : Nat :=
  let n := s.pwr.samples.length
  (if n = 0 then 0 else s.pwr.samples.foldl (· + ·) 0 / n) % 2 ^ 16 * 2 ^ 16 + s.pwr.volt % 256 * 2 ^ 8
def pwrClock (s : State) : Nat :=
  s.pwr.k % 16 * 2 ^ 28 + bit (decide (0 < s.pwr.limiter)) * 2 ^ 26 + bit (decide (0 < thermalCap s)) * 2 ^ 27
def pwrState (s : State) : Nat :=
  (if s.host.d3hot then 4 else s.pwr.state) * 2 ^ 29 + bit s.host.bedWait * 2 ^ 28
def pwrTemp (s : State) (d : Nat) : Nat := dieLevel s d * 2 ^ 29 + (sget (0, 0) s.pwr.temps d).1 % 2 ^ 16
def mgtStatus (s : State) : Nat :=
  bit s.pwr.auxOk * 2 ^ 31 + bit s.pwr.mainOk * 2 ^ 30 + field s.pwr.straps 6 0 * 2 ^ 23 + s.pwr.eid % 256 * 2 ^ 15
def mgtLast (s : State) : Nat := s.pwr.last % 16 * 2 ^ 28 + s.pwr.lastDie % 32 * 2 ^ 23

/-! ## Thermal limits (R207 to R210, R428, R429, R521, R522) -/

/-- Leave levels whose leave bound the temperature has reached, from `l` down. -/
def levelDown (t : Int) : Nat → List Int → Nat
  | l + 1, b :: bs => if t ≤ b then levelDown t l bs else l + 1
  | l, _ => l

/-- The level after a temperature, in units of 1/16 °C: bounds of warm, hot and critical in °C, and where critical is
left. -/
def nextLevel (w h c leave : Int) (l : Nat) (t : Int) : Nat :=
  let up := if 16 * c < t then 3 else if 16 * h < t then 2 else if 16 * w < t then 1 else 0
  if l ≤ up then up
  else levelDown t l ([16 * leave, 16 * (h - 3), 16 * (w - 3)].drop (3 - l))

/-- The module is fenced by a stack or die at its critical level: the step aborts and the module withdraws (R428). -/
def enterFence (mask : Nat) (s : State) : State :=
  let s := abortStep true (withdraw false s)
  if s.pwr.fenced then s
  else updateFault (postEvent 0x0009 mask 0 (faultEvent 13 0 0 mask (setPwr (fun p => { p with fenced := true }) s)))

/-- A stack enters the critical level (R209, R214, R425, R428): it stops, its retrains end unfinished, a checkpoint copy
pauses, and the parts whose destination lies in it are lost. One already in self-refresh has nothing to complete. -/
def stackCritical (k : Nat) (s : State) : State :=
  let st := stackOf s k
  let s := setStack s k (if st.selfRefresh then { st with stopped := true } else { st with stopping := true })
  enterFence (2 ^ k) (pauseCopy false (loseOwnParts k (bump (stopRetrains k s) (cTrm k 0x168))))

/-- A stack leaves the critical level (R429): it is trained, and the fence lifts unless something else holds it. -/
def stackCooled (k : Nat) (s : State) : State :=
  let s := setStack s k { stackOf s k with stopped := false, stopping := false, selfRefresh := decide (s.pwr.state ≠ 0) }
  liftFence (2 ^ k) s

/-- Write groups in progress in a stack that loses its power: each marks its shard torn (R268). None is in progress
once the stack has stopped (R264). -/
def tearFlights (k : Nat) (s : State) : State :=
  let cut := s.cbl.flight.filter (fun f => decide (f.stack = k))
  if (stackOf s k).selfRefresh then s
  else
    let s := cut.foldl (fun s f => markTorn k f.shard s) s
    { s with cbl := { s.cbl with flight := s.cbl.flight.filter (fun f => decide (f.stack ≠ k)) } }

/-- At 115 °C the hardware removes the stack's power (R209). -/
def stackTrip (k : Nat) (t : Int) (s : State) : State :=
  if t < 16 * 115 || (stackOf s k).contentLost then s
  else
    let s := tearFlights k s
    postEvent 0x000E k (5 * 4096 + k) (setStack s k { stackOf s k with contentLost := true })

/-- STACK_TEMP_REPORT (R207): the stack's temperature is the highest of its dies. -/
def execStackTempReport (stack : BitVec 3) (die : BitVec 4) (temp : W16) (s : State) : Host.Outcome State Fault Refusal :=
  .next (
    if !powered s then s
    else
      let k := stack.toNat
      let st := stackOf s k
      let dies := sput 0 st.dieTemp die.toNat temp.toNat
      let ts := (List.range 16).map (fun i => (BitVec.ofNat 16 (sget 0 dies i)).toInt)
      let t := ts.foldl max (ts.headD 0)
      let l := nextLevel 85 95 105 90 st.level t
      let s := setStack s k { st with dieTemp := dies, temp := (BitVec.ofInt 16 t).toNat, level := l }
      let s := if st.level < l then bump s (cTrm k 0x160) else s
      let s := if st.level ≠ l then raiseAlert s else s
      let s := if l = 3 ∧ st.level ≠ 3 then stackCritical k s else if st.level = 3 ∧ l ≠ 3 then stackCooled k s else s
      stackTrip k t s)

/-- STACK_STOP_COMPLETE (R209): issued accesses are complete, the pool has drained for the stack, and it is in
self-refresh. -/
def execStackStopComplete (stack : BitVec 3) (s : State) : Host.Outcome State Fault Refusal :=
  .next (
    let k := stack.toNat
    if !(stackOf s k).stopping then s
    else
      let s := poolDrainStack k s
      setStack s k { stackOf s k with stopping := false, stopped := true, selfRefresh := true })

/-- The level of die `d` after a temperature (Table 18-7). -/
def dieNext (d l : Nat) (t : Int) : Nat := if d < 9 then nextLevel 95 105 110 100 l t else nextLevel 70 80 85 80 l t

/-- What a change of a die's level brings: an optical engine takes its port out of service, any other die fences. -/
def dieChange (d was l : Nat) (s : State) : State :=
  if d < 9 then
    if l = 3 ∧ was ≠ 3 then enterFence 0 (bump s (cPwr 0x118)) else if was = 3 ∧ l ≠ 3 then liftFence 0 s else s
  else if l = 3 ∧ was ≠ 3 then portDown (d - 9) 0 (bump s (cPwr 0x118))
  else if was = 3 ∧ l ≠ 3 ∧ portMode s (d - 9) ≠ 0 then setPort s (d - 9) { portOf s (d - 9) with state := 1 }
  else s

/-- DIE_TEMP_SAMPLE (R521): levels with their clock caps, and the trip of hardware. An engine that is not fitted has no
temperature. -/
def execDieTempSample (die : BitVec 5) (temp : W16) (s : State) : Host.Outcome State Fault Refusal :=
  .next (
    let d := die.toNat
    if !powered s || decide (20 < d) || (decide (9 ≤ d) && Config.variantLE) then s
    else
      let t := temp.toInt
      let was := dieLevel s d
      let l := dieNext d was t
      let cap := thermalCap s
      let s := setPwr (fun p => { p with temps := sput (0, 0) p.temps d (temp.toNat, l) }) s
      if d < 9 ∧ 16 * 120 ≤ t then mainLoss 4 d s
      else
        let s := if was < l then bump s (cPwr 0x110) else s
        let s := if cap < thermalCap s then bump s (cPwr 0x108) else s
        dieChange d was l (setClock s))

/-! ## Control cores and the sticky log mirror (R411 to R415) -/

/-- A control core fails (R411, R412): it is reported, and its queues move. -/
def coreFail (c : Nat) (s : State) : State :=
  if s.pwr.stage ≠ 5 ∨ 4 < c ∨ s.ck.failed.testBit c then s
  else retireCore c (postEvent 0x0001 c c (faultEvent 0 c 0 0 s))

/-- CORE_WATCHDOG_TIMEOUT (R411). -/
def execCoreWatchdogTimeout (core : BitVec 3) (s : State) : Host.Outcome State Fault Refusal := .next (coreFail core.toNat s)
/-- CORE_ECC_FAULT (R411). -/
def execCoreEccFault (core : BitVec 3) (s : State) : Host.Outcome State Fault Refusal := .next (coreFail core.toNat s)

/-- The sticky log's records in order of their places: the first 64, then the ring. -/
def slogRecords (s : State) : List Nat :=
  s.slog.first ++ (if s.slog.ring.isEmpty then [] else List.replicate (64 - s.slog.first.length) 0 ++ s.slog.ring)

/-- STICKY_LOG_MIRROR (R25, R415): every 1 ms each firmware region takes its share of 256 records at the offset of log
32. -/
def execStickyLogMirror (s : State) : Host.Outcome State Fault Refusal :=
  .next (
    if nsOf s < s.slog.mirrored + 1000000 then s
    else
      let recs := slogRecords s
      let s := { s with slog := { s.slog with mirrored := nsOf s } }
      (List.range 8).foldl (fun s k =>
        if !(stackOf s k).applied || (stackOf s k).stopped then s
        else fwWrite k 0x03000000 ((List.range 256).flatMap (fun i => leBytes 32 (recs.getD (256 * k + i) 0))) s) s)

end Sys2Proof.Machine
end

