-- ==== Sys2Proof/Machine/Mgmt.lean ====
section
/-!
DEFINITION. The management controller (R456, R491, R540, R541): MCTP control and PLDM messages. The manual names the
message types and what they give; message layouts and codes are those of the DMTF standards it names (log 46).
-/
namespace Sys2Proof.Machine

/-- CRC-8 of SMBus packet error checking: polynomial x^8 + x^2 + x + 1. -/
def smbusPec (bs : List Byte) : Nat :=
  bs.foldl (fun c b => (List.range 8).foldl (fun c _ => if 128 ≤ c then (2 * c % 256) ^^^ 7 else 2 * c) (c ^^^ b.toNat)) 0

/-- Answer on the management path. -/
def mctpAnswer (bs : List Byte) (s : State) : State := emit (.mctp bs) s

/-! ## MCTP control (message type 0) -/

/-- The answer to a request: its instance with Rq cleared, its command code, a completion code and data. -/
def controlAnswer (m : List Byte) (cc : Nat) (data : List Byte) (s : State) : State :=
  mctpAnswer ([0] ++ leBytes 1 (leAt m 1 1 % 32) ++ leBytes 1 (leAt m 2 1) ++ leBytes 1 cc ++ data) s

/-- A control message: endpoint ID, message types and vendor support. -/
def mctpControl (m : List Byte) (s : State) : State :=
  if m.length < 3 || decide (leAt m 1 1 < 128) then s
  else match leAt m 2 1 with
  | 1 =>
    let eid := leAt m 4 1
    if m.length < 5 then controlAnswer m 3 [] s
    else if eid = 0 ∨ eid = 255 then controlAnswer m 2 [] s
    else controlAnswer m 0 ([0] ++ leBytes 1 eid ++ [0]) (setPwr (fun p => { p with eid := eid }) s)
  | 2 => controlAnswer m 0 (leBytes 1 s.pwr.eid ++ [0, 0]) s
  | 5 => controlAnswer m 0 [2, 1, 0x7E] s
  | 6 => controlAnswer m 0 [0xFF, 0, 0x1F, 0x6B, 0, 0] s
  | _ => controlAnswer m 5 [] s

/-- MCTP_CONTROL_MESSAGE. -/
def execMctpControlMessage (msg : List Byte) (s : State) : Host.Outcome State Fault Refusal :=
  .next (if s.pwr.auxOk then mctpControl msg s else s)

/-! ## PLDM (message type 1) -/

/-- The answer to a PLDM request. -/
def pldmAnswer (m : List Byte) (cc : Nat) (data : List Byte) (s : State) : State :=
  mctpAnswer ([1] ++ leBytes 1 (leAt m 1 1 % 32) ++ leBytes 1 (leAt m 2 1) ++ leBytes 1 (leAt m 3 1) ++ leBytes 1 cc ++ data) s

/-- A PLDM request of type `ty` the controller takes up; in recovery firmware update alone (R490). -/
def pldmRequest (ty : Nat) (m : List Byte) (s : State) : Bool :=
  s.pwr.auxOk && (decide (ty = 5) || !s.sec.recovery) && decide (4 ≤ m.length) && decide (128 ≤ leAt m 1 1) && decide (leAt m 2 1 % 64 = ty)

/-- Commands the endpoint supports, by PLDM type. -/
def pldmCommands (ty : Nat) : List Nat := match ty with
  | 0 => [1, 2, 4, 5]
  | 2 => [0x11, 0x21]
  | 4 => [1, 2]
  | 5 => [1, 2, 0x10, 0x13, 0x14, 0x1A, 0x1B, 0x1C, 0x1D]
  | _ => []

/-- PLDM base (type 0): terminus ID, types and commands. -/
def pldmBase (m : List Byte) (s : State) : State :=
  match leAt m 3 1 with
  | 1 =>
    let t := leAt m 4 1
    if m.length < 5 then pldmAnswer m 3 [] s
    else if t = 0 ∨ t = 255 then pldmAnswer m 2 [] s
    else pldmAnswer m 0 [] (setPwr (fun p => { p with tid := t }) s)
  | 2 => pldmAnswer m 0 (leBytes 1 s.pwr.tid) s
  | 4 => pldmAnswer m 0 (leBytes 8 0x35) s
  | 5 => pldmAnswer m 0 (leBytes 32 ((pldmCommands (leAt m 4 1)).foldl (fun a c => a + 2 ^ c) 0)) s
  | _ => pldmAnswer m 5 [] s

/-- PLDM_BASE_MESSAGE. -/
def execPldmBaseMessage (msg : List Byte) (s : State) : Host.Outcome State Fault Refusal :=
  .next (if pldmRequest 0 msg s then pldmBase msg s else s)

/-- A numeric sensor's reading and data size (log 46): 1 input power, 2 to 22 dies 0 to 20, 23 to 30 stacks 0 to 7. -/
def numericSensor (s : State) (n : Nat) : Option (Nat × Nat) :=
  if n = 1 then some (2, pwrInput s / 2 ^ 16)
  else if 2 ≤ n ∧ n ≤ 22 then some (3, (sget (0, 0) s.pwr.temps (n - 2)).1)
  else if 23 ≤ n ∧ n ≤ 30 then some (3, (stackOf s (n - 23)).temp)
  else none

/-- PLDM for monitoring (type 2): numeric sensors, and state sensors 31 to 38 for the stack levels. -/
def pldmMonitoring (m : List Byte) (s : State) : State :=
  let n := leAt m 4 2
  match leAt m 3 1 with
  | 0x11 =>
    match numericSensor s n with
    | some (size, v) => pldmAnswer m 0 (leBytes 1 size ++ [0, 0, 1, 1, 1] ++ leBytes 2 v) s
    | none => pldmAnswer m 0x80 [] s
  | 0x21 =>
    if 31 ≤ n ∧ n ≤ 38 then
      let l := leBytes 1 ((stackOf s (n - 31)).level + 1)
      pldmAnswer m 0 ([1, 0] ++ l ++ l ++ l) s
    else pldmAnswer m 0x80 [] s
  | _ => pldmAnswer m 5 [] s

/-- PLDM_MONITORING_MESSAGE. -/
def execPldmMonitoringMessage (msg : List Byte) (s : State) : Host.Outcome State Fault Refusal :=
  .next (if pldmRequest 2 msg s then pldmMonitoring msg s else s)

/-- The running Kolelm release as three dot-separated decimal numbers (R3). -/
def releaseText : List Byte :=
  let part (i : Nat) : String := Nat.repr (field Config.kolelmRelease.toNat (16 * i + 15) (16 * i))
  asciiBytes (part 0 ++ "." ++ part 1 ++ "." ++ part 2)

/-- The firmware parameters: one active component, with the running release as its version and as that of the set; no
version is pending until the slot is activated (R3, R456, log 46). -/
def firmwareParameters : List Byte :=
  let n := leBytes 1 releaseText.length
  leBytes 4 0 ++ leBytes 2 1 ++ [1] ++ n ++ [0, 0] ++ releaseText
    ++ leBytes 2 10 ++ leBytes 2 0 ++ [0] ++ leBytes 4 0 ++ [1] ++ n ++ List.replicate 8 0
    ++ leBytes 4 0 ++ [0, 0] ++ List.replicate 8 0 ++ leBytes 2 0x20 ++ leBytes 4 0 ++ releaseText

/-- The FRU record: ordering code, serial number and, as its version, the silicon stepping (R3, R456, R546). -/
def fruRecord : List Byte :=
  let code := asciiBytes (if Config.variantLE then "XC96-512-LE" else "XC96-512-LO")
  let r := leBytes 2 1 ++ [1, 3, 1, 3] ++ leBytes 1 code.length ++ code ++ [4, 16] ++ leBytes 16 Config.serial.toNat
    ++ [10, 2] ++ asciiBytes "B1"
  r ++ List.replicate ((4 - r.length % 4) % 4) 0

/-- PLDM for FRU data (type 4). -/
def pldmFru (m : List Byte) (s : State) : State :=
  let table := fruRecord ++ leBytes 4 (crc32 fruRecord)
  match leAt m 3 1 with
  | 1 => pldmAnswer m 0 ([1, 0] ++ leBytes 4 table.length ++ leBytes 4 fruRecord.length ++ leBytes 2 1 ++ leBytes 2 1 ++ leBytes 4 (crc32 fruRecord)) s
  | 2 => pldmAnswer m 0 (leBytes 4 0 ++ [5] ++ table) s
  | _ => pldmAnswer m 5 [] s

/-- PLDM_FRU_MESSAGE. -/
def execPldmFruMessage (msg : List Byte) (s : State) : Host.Outcome State Fault Refusal :=
  .next (if pldmRequest 4 msg s then pldmFru msg s else s)

/-- PLDM for firmware update (type 5): the one component is written and verified as FW_UPDATE does, with the bytes the
update agent supplies, and activated by its own message (R456, R491). -/
def pldmFirmware (m image : List Byte) (s : State) : State :=
  let phase (n : Nat) (s : State) : State := setPwr (fun p => { p with fwPhase := n }) s
  match leAt m 3 1 with
  | 1 => pldmAnswer m 0 (leBytes 4 6 ++ [1] ++ [0, 0, 2, 0, 0x6B, 0x1F]) s
  | 2 => pldmAnswer m 0 firmwareParameters s
  | 0x10 =>
    if s.pwr.fwPhase ≠ 0 then pldmAnswer m 0x81 [] s
    else pldmAnswer m 0 (leBytes 2 0 ++ [0]) (setPwr (fun p => { p with fwPhase := 1, fwSlot := none }) s)
  | 0x13 => if s.pwr.fwPhase = 1 then pldmAnswer m 0 [0, 0] (phase 2 s) else pldmAnswer m 0x84 [] s
  | 0x14 =>
    if s.pwr.fwPhase ≠ 2 then pldmAnswer m 0x84 [] s
    else if 96 * 2 ^ 20 < image.length then pldmAnswer m 2 [] s
    else
      let (s, slot, ok) := installImage image false s
      pldmAnswer m 0 ([0, 0] ++ leBytes 4 0 ++ leBytes 2 0) (setPwr (fun p => { p with fwSlot := if ok then some slot else none }) s)
  | 0x1A =>
    match s.pwr.fwSlot with
    | none => pldmAnswer m 0x8B [] s
    | some slot => pldmAnswer m 0 (leBytes 2 0) (setPwr (fun p => { p with fwPhase := 0, fwSlot := none })
        { s with sec := { s.sec with bootIdx := slot, activate := true, rpaCnt := s.sec.rpaCnt + 1 } })
  | 0x1B => pldmAnswer m 0 (leBytes 1 s.pwr.fwPhase ++ List.replicate 10 0) s
  | 0x1C => if s.pwr.fwPhase = 0 then pldmAnswer m 0x84 [] s else pldmAnswer m 0 [] (phase 2 (setPwr (fun p => { p with fwSlot := none }) s))
  | 0x1D =>
    if s.pwr.fwPhase = 0 then pldmAnswer m 0x80 [] s
    else pldmAnswer m 0 (List.replicate 9 0) (setPwr (fun p => { p with fwPhase := 0, fwSlot := none }) s)
  | _ => pldmAnswer m 5 [] s

/-- PLDM_FW_UPDATE_MESSAGE. -/
def execPldmFwUpdateMessage (msg image : List Byte) (s : State) : Host.Outcome State Fault Refusal :=
  .next (if pldmRequest 5 msg s then pldmFirmware msg image s else s)

/-- SMBUS_ALERT_RESPONSE (R541): the module answers SMB_ADDR, and ALERT_L is released. -/
def execSmbusAlertResponse (s : State) : Host.Outcome State Fault Refusal :=
  .next (
    if !s.pwr.auxOk || !s.pwr.alert then s
    else
      let a : Byte := BitVec.ofNat 8 (2 * field s.pwr.straps 6 0)
      emit (.pin 20 true) (emit (.smbus [a, BitVec.ofNat 8 (smbusPec [0x19, a])]) (setPwr (fun p => { p with alert := false }) s)))

end Sys2Proof.Machine
end

