-- ==== Sys2Proof/Machine/Flags.lean ====
section
/-!
DEFINITION. Status flags: the RS and RO registers, whose values the rest of the state fixes, and what any register that
is no counter and no latch reads (chapters 4, 7, 8, 9, 12, 15, 16, 17 and 18).
-/
namespace Sys2Proof.Machine

/-! ## What a register reads -/

/-- TOP_STATUS (Table 16-6). -/
def topStatus (s : State) : Nat :=
  bit s.host.fatal * 2 ^ 31 + bit s.pwr.fenced * 2 ^ 30 + bit (resumePending s) * 2 ^ 29 + bit (jobAborted s) * 2 ^ 28
    + bit s.cfg.committed * 2 ^ 27 + bit s.cfg.mismatch * 2 ^ 26
    + bit ((allShards s).any (fun p => p.2.2.torn)) * 2 ^ 25 + bit ((allShards s).any (fun p => p.2.2.invalid)) * 2 ^ 24
    + (List.range 8).foldl (fun a k => a + (if (stackOf s k).stopped then 2 ^ (16 + k) else 0)) 0

/-- TOP_CFG_STATUS (Table 16-7). -/
def cfgStatus (s : State) : Nat :=
  let c := s.cfg
  bit c.committed * 2 ^ 31 + bit c.mismatch * 2 ^ 30 + bit c.seen * 2 ^ 29 + bit c.adopt * 2 ^ 28
    + bit (c.running && c.dirty) * 2 ^ 27 + c.passSeq % 2 ^ 16

/-- HIF_STATUS (Table 15-22). -/
def hifStatus (s : State) : Nat :=
  let h := s.host
  (if h.linkUp then 2 else if h.training then 1 else 0) * 2 ^ 30 + h.speed % 4 * 2 ^ 28 + h.width % 32 * 2 ^ 23
    + bit h.flit * 2 ^ 22 + bit (queueOf s 0).enabled * 2 ^ 21 + bit h.fatal * 2 ^ 20 + h.attachGen % 2 ^ 16

/-- PLN_STATUS and PLN_RGN_STAT_r of a pier (Tables 8-10, 8-11). -/
def plnStatus (s : State) (p : Nat) : Nat :=
  bit (applying s p) * 2 ^ 17 + bit ((pierOf s p).pool.any (·.absorbed)) * 2 ^ 16
    + (List.range 15).foldl (fun a d => a + (if quotaOf s p d < pageUse s p d then 2 ^ d else 0)) 0
def plnRgnStat (s : State) (p r : Nat) : Nat :=
  let mode := (pierOf s p).modes.getD r 0
  mode * 2 ^ 30
    + bit (applying s p && decide (mode = 2) && decide (field (getReg s (plnBase + 0x4000 * p + 4 * r)) 31 30 ≠ 2)) * 2 ^ 29
    + (if isScratch s p r then ((List.range 64).filter (fun g => decide ((pageHolder s p r g).1 ≠ 0))).length else 0)

/-- TRM_RGNB_n of a stack (Table 7-15). -/
def trmRgnb (s : State) (k n : Nat) : Nat :=
  match sget 0 (stackOf s k).base n with
  | 0 => 0
  | b + 1 => 2 ^ 31 + b % 2 ^ 20

/-- TIL_SLOT_VAL and TIL_POOL_VAL (Table 4-21). -/
def tilSlotVal (s : State) (t : Nat) : Nat := sget 0 (tileOf s t).slots (field (getReg s (tilBase + 0x4000 * t + 0xC)) 5 0)
def tilPoolVal (s : State) (t : Nat) : Nat := sget 0 (tileOf s t).pools (field (getReg s (tilBase + 0x4000 * t + 0xC)) 12 8) % 2 ^ 16

/-- The path that LTU_PATH_SEL names. -/
def pathSel (s : State) : Nat := field (getReg s (ltuBase + 0x24)) 4 0

/-- Registers of the first page of TOP_, LTU_, FAB_, NPX_, PWR_ and the single pages, that read something other than
what is stored; by page offset. -/
def topView (s : State) (o : Nat) : Option Nat := match o with
  | 4 => some (topStatus s)
  | 8 => some (topStepState s)
  | 0xC => some (s.stp.rc.step % 2 ^ 32)
  | 0x2C => some (cfgStatus s)
  | 0x30 => some (s.cfg.crc % 2 ^ 32)
  | 0x40 => some (getReg s (topBase + 0x40) % 2 ^ 12 + bit s.host.snapBusy * 2 ^ 30 + bit s.host.snapDone * 2 ^ 29)
  | _ => none
def ltuView (s : State) (o : Nat) : Option Nat := match o with
  | 0x10 => some (nsOf s % 2 ^ 32)
  | 0x1C => some (ltuStatus s)
  | 0x20 => some (ltuOffset s)
  | 0x28 => some (pathStat s (pathSel s))
  | 0x2C => some (pathDelay s (pathSel s))
  | 0x30 => some (pathAsym s (pathSel s))
  | _ => none
def fabView (s : State) (o : Nat) : Option Nat := match o with
  | 0x18 => some (plumb s)
  | 0x1C => some (jobDigest s % 2 ^ 32)
  | 0x20 => some (jobDigest s / 2 ^ 32 % 2 ^ 32)
  | 0x28 => some ((s.fab.tx.filter (fun e => e.2.isSome)).length % 2 ^ 13)
  | _ => none
def npxView (s : State) (o : Nat) : Option Nat := match o with
  | 0x48 => some (npxCtrHi s)
  | 0x80 => some (npxStatus s)
  | 0x84 => some (s.npx.version % 2 ^ 32)
  | 0x88 => some (npxSent s)
  | 0x8C => some (unsigned 32 s.npx.slack)
  | _ => none
def pwrView (s : State) (o : Nat) : Option Nat := match o with
  | 0 => some (pwrState s)
  | 4 => some (s.pwr.cause % 16 * 2 ^ 28)
  | 0x14 => some (pwrInput s)
  | 0x18 => some (pwrClock s)
  | _ => none

/-- The same by page address. -/
def commonView (s : State) (a : Nat) : Option Nat :=
  if a < topBase + 0x4000 then topView s a
  else if ltuBase ≤ a ∧ a < bgtBase then ltuView s (a - ltuBase)
  else if fabBase ≤ a ∧ a < fabBase + 0x4000 then fabView s (a - fabBase)
  else if npxBase ≤ a ∧ a < hifBase then npxView s (a - npxBase)
  else if pwrBase ≤ a ∧ a < pwrBase + 0x4000 then pwrView s (a - pwrBase)
  else if a = bgtBase + 0x204 then some (bgtStatus s)
  else if a = cblBase + 8 then some (cblCheck s)
  else if a = cblBase + 0xC then some s.cbl.normWord
  else if a = hifBase then some (hifStatus s)
  else if a = colBase + 4 then some ((s.fab.handles.filter (fun e => e.2.isSome)).length % 2 ^ 13)
  else if a = secBase then some (secStatus s)
  else if a = secBase + 4 then some (secSvn s)
  else if a = secBase + 0x60 then some (bit s.sec.extBusy * 2 ^ 30)
  else if a = cipBase + 0x14 then some (cipStatus s)
  else if a = mgtBase then some (mgtStatus s)
  else if a = mgtBase + 4 then some (mgtLast s)
  else none

/-- Registers of the numbered pages and arrays. -/
def pagedView (s : State) (a : Nat) : Option Nat :=
  let o := a % 0x4000
  if topBase + 0x4000 ≤ a ∧ a < topBase + 0x8000 then some (sget 0 s.host.snap o)
  else if tilBase ≤ a ∧ a < plnBase then
    let t := (a - tilBase) / 0x4000
    match o with
    | 4 => some (tilStatus s t)
    | 8 => some (tilFault s t)
    | 0x10 => some (tilSlotVal s t)
    | 0x14 => some (tilPoolVal s t)
    | _ => none
  else if plnBase ≤ a ∧ a < trmBase then
    let p := (a - plnBase) / 0x4000
    if 0x140 ≤ o ∧ o < 0x180 then some (shownUse s p ((o - 0x140) / 4))
    else if o = 0x180 then some (plnStatus s p)
    else if 0x200 ≤ o ∧ o < 0x2C0 then some (plnRgnStat s p ((o - 0x200) / 4))
    else none
  else if trmBase + 0x8000 ≤ a ∧ a < cblBase then
    let k := (a - trmBase - 0x8000) / 0x4000
    if o = 0 then some (stkStatus s k)
    else if 0x200 ≤ o ∧ o < 0x400 then some (chStat s k ((o - 0x200) / 4))
    else if 0x400 ≤ o ∧ o < 0x410 then some ((stackOf s k).lost / 2 ^ (8 * (o - 0x400)) % 2 ^ 32)
    else if 0x410 ≤ o ∧ o < 0x420 then some ((stackOf s k).mapx / 2 ^ (8 * (o - 0x410)) % 2 ^ 32)
    else if o = 0x420 then some (trmRepair s k)
    else if 0x800 ≤ o then some (trmRgnb s k ((o - 0x800) / 4))
    else none
  else if cblBase + 0x4000 ≤ a ∧ a < fabBase then (if o = 0 then some (cblStatus s ((a - cblBase) / 0x4000 - 1)) else none)
  else if fabBase + 0xC000 ≤ a ∧ a < colBase then (if o = 8 then some (fabPortStatus s ((a - fabBase) / 0x4000 - 3)) else none)
  else if secBase ≤ a ∧ a < cipBase then
    if 0x4000 ≤ a - secBase then some (secMr s (o / 32) (o / 4 % 8))
    else if 0x10 ≤ o ∧ o < 0x20 then some (secSlots s ((o - 0x10) / 4))
    else none
  else if pwrBase + 0x4000 ≤ a ∧ a < pwrBase + 0x8000 then some (pwrTemp s (o / 4))
  else none

/-! ## Indicators (R548, Table 19-10) -/

/-- Something of the module is degraded: a Treim channel lost, a tile or control core fenced, a port on two lanes, or a
stack at the hot level. -/
def degraded (s : State) : Bool :=
  (List.range 8).any (fun k => decide ((stackOf s k).lost ≠ 0) || decide ((stackOf s k).level = 2))
    || (List.range 96).any (fun t => decide ((tileOf s t).mode = .fenced)) || decide (s.ck.failed ≠ 0)
    || (List.range 12).any (fun p => decide ((portOf s p).state = 3))

/-- The status indicator: 0 off, 1 green at 1 Hz, 2 green steady, 3 amber at 2 Hz, 4 amber steady. A module between D3cold
and running shows what it showed in D3cold. Mark DESIGN CHOICE (log 87). -/
def statusIndicator (s : State) : Nat :=
  if !s.pwr.auxOk then 0
  else if s.pwr.fault then 4
  else if degraded s then 3
  else if s.pwr.stage = 5 && decide (s.pwr.state = 0) && !s.host.d3hot then 2
  else 1

/-- The locate indicator is lit. -/
def locateIndicator (s : State) : Bool := s.pwr.auxOk && s.pwr.locate

/-- A port's indicator: 0 off, 1 at 2 Hz (training or pause fault), 2 on (up, or up on two lanes). -/
def portIndicator (s : State) (p : Nat) : Nat := match (portOf s p).state with
  | 2 | 3 => 2
  | 1 | 5 => 1
  | _ => 0

/-- The value of a register that is no counter and no latched register. -/
def regView (s : State) (a : Nat) : Nat :=
  match commonView s a with
  | some v => v
  | none => (pagedView s a).getD (getReg s a)

end Sys2Proof.Machine
end

