-- ==== Sys2Proof/Machine/RegOps.lean ====
section
/-!
DEFINITION. Register accesses and the configuration CRC (chapter 16): reads and writes, the rules of each
field, aliases, latches, snapshots and passes.
-/
namespace Sys2Proof.Machine

/-! ## Reads (R464, R469, R471) -/

/-- A requester's number: the host window 0, control core n as n + 1. -/
def reqIdx : Requester → Nat
  | .host => 0
  | .core n => n.toNat + 1

/-- Key of a requester's counter latch: clear or peek. -/
def latchKey (req : Requester) (peek : Bool) (a : Nat) : Nat := (reqIdx req * 2 + bit peek) * 2 ^ 26 + a
/-- Key of a requester's latch of another group. -/
def glatchKey (req : Requester) (a : Nat) : Nat := reqIdx req * 2 ^ 26 + a

/-- The latched registers that a read of a low register loads, with their values of the same sample. -/
def latchGroup (s : State) (a : Nat) : List (Nat × Nat) :=
  if a = topBase + 0xC then [(topBase + 0x10, s.stp.rc.step / 2 ^ 32 % 2 ^ 32)]
  else if a = topBase + 0x30 then
    (topBase + 0x34, s.cfg.crc / 2 ^ 32 % 2 ^ 32) :: (List.range 30).map (fun i =>
      (topBase + 0x8000 + 4 * i, (s.cfg.bcrc.getD (i / 2) 0) / 2 ^ (32 * (i % 2)) % 2 ^ 32))
  else if a = ltuBase + 0x10 then [(ltuBase + 0x14, nsOf s / 2 ^ 32 % 2 ^ 32), (ltuBase + 0x18, s.tm.now % 2 ^ 16)]
  else if a = colBase + 8 then [(colBase + 0xC, getReg s (colBase + 0xC))]
  else []

/-- A register that reads its requester's latch. -/
def isLatched (a : Nat) : Bool :=
  a = topBase + 0x10 || a = topBase + 0x34 || (decide (topBase + 0x8000 ≤ a) && decide (a < topBase + 0x8078))
    || a = ltuBase + 0x14 || a = ltuBase + 0x18

/-- Read the page address `a`, through the page or an alias (Table 16-2). -/
def readRegister (req : Requester) (viaAlias : Bool) (a : Nat) (s : State) : Nat × State :=
  match regAt a with
  | none => (0, countUnmapped (0x00A000000000 + a) s)
  | some d =>
    if d.cls = .ctr then
      let lo := ctrLow a
      let v := counter s lo
      if a = lo then
        let s := { s with latch := sput 0 s.latch (latchKey req viaAlias lo) (v / 2 ^ 32) }
        (v % 2 ^ 32, if viaAlias then s else { s with ctr := sput 0 s.ctr lo 0 })
      else (sget 0 s.latch (latchKey req viaAlias lo), s)
    else if d.cls = .wo then (0, s)
    else if isLatched a then (sget 0 s.glatch (glatchKey req a), s)
    else
      let v := if a = colBase + 0xC && !viaAlias then sget 0 s.glatch (glatchKey req a) else regView s a
      let s1 := { s with glatch := (latchGroup s a).foldl (fun m e => sput 0 m (glatchKey req e.1) e.2) s.glatch }
      (v, if d.cls = .rc && !viaAlias then
            (if a = colBase + 8 then setReg (setReg s1 a 0) (colBase + 0xC) 0
             else if a = colBase + 0xC then { s1 with glatch := sput 0 s1.glatch (glatchKey req a) 0 }
             else setReg s1 a 0)
          else s1)

/-- A read as a command: its value goes to the requester. Without main power no register answers. -/
def readCmd (req : Requester) (viaAlias : Bool) (addr : Nat) (s : State) : State :=
  if !powered s then s
  else
    let r := readRegister req viaAlias (pageAddr addr) s
    emit (.readValue req addr r.1) r.2

/-- COUNTER_LOW_READ: a read through the page. -/
def execCounterLowRead (req : Requester) (addr : BitVec 26) (s : State) : Host.Outcome State Fault Refusal :=
  .next (readCmd req false addr.toNat s)
/-- COUNTER_LOW_PEEK: a read through an alias. -/
def execCounterLowPeek (req : Requester) (addr : BitVec 26) (s : State) : Host.Outcome State Fault Refusal :=
  .next (readCmd req true addr.toNat s)
/-- LATCHED_LOW_READ: a read through the path its address names. -/
def execLatchedLowRead (req : Requester) (addr : BitVec 26) (s : State) : Host.Outcome State Fault Refusal :=
  .next (readCmd req (aliasOf addr.toNat ≠ 0) addr.toNat s)
/-- RC_EVENT_READ: a read through the page. -/
def execRcEventRead (req : Requester) (addr : BitVec 26) (s : State) : Host.Outcome State Fault Refusal :=
  .next (readCmd req false addr.toNat s)

/-! ## Writes (R464 to R468) -/

/-- Values an RW field may hold, by its register: high bit, low bit, and the test (field maps of the chapters, R466). -/
def fieldRules (a : Nat) : List (Nat × Nat × (Nat → Bool)) :=
  let le (m v : Nat) : Bool := decide (v ≤ m)
  let within (l m v : Nat) : Bool := decide (l ≤ v) && decide (v ≤ m)
  if a = ltuBase then [(31, 30, le 2), (29, 28, le 2), (26, 24, le 5)]
  else if a = ltuBase + 0x24 then [(4, 0, fun v => le 11 v || within 16 23 v)]
  else if plnBase ≤ a ∧ a < trmBase then
    (if a % 0x4000 < 0xBC then [(31, 30, le 2)] else if 0x100 ≤ a % 0x4000 then [(11, 0, le 3072)] else [])
  else if trmBase ≤ a ∧ a < trmBase + 0x4000 then [(31, 30, le 2)]
  else if a = cblBase then [(31, 30, le 2)]
  else if a = cblBase + 4 then [(31, 0, fun v => decide (v = 0) || posNormal v)]
  else if a = fabBase then [(14, 10, within 1 31), (9, 4, within 4 63)]
  else if a = fabBase + 0x10 then [(30, 22, le 503), (21, 13, le 503)]
  else if fabBase + 0xC000 ≤ a ∧ a < colBase ∧ a % 0x4000 = 4 then [(31, 23, le 256)]
  else if a = npxBase + 4 then [(31, 24, within 1 255), (23, 16, within 1 255), (15, 8, within 1 16), (7, 0, within 1 255)]
  else if a = npxBase + 0xC then [(13, 0, within 1280 9216)]
  else if a = hifBase + 8 then [(23, 19, within 1 16)]
  else if a = cipBase then [(30, 27, within 4 12)]
  else if a = pwrBase + 0xC then [(31, 20, within 1000 2400)]
  else []

/-- The value a write leaves: reserved bits 0, and fields given a reserved code as they were; with it, whether the write
held such a code. -/
def acceptWrite (d : RegDef) (a old w : Nat) : Nat × Bool :=
  (fieldRules a).foldl (fun r f =>
    if f.2.2 (field r.1 f.1 f.2.1) then r else (putField r.1 f.1 f.2.1 (field old f.1 f.2.1), true)) (w &&& d.rw, false)

/-- The requester may write the register (R465), and no lock makes it read-only (R351, R437, R520). -/
def mayWrite (s : State) (req : Requester) (d : RegDef) (a : Nat) : Bool :=
  (match req with
    | .host => !d.cores
    | .core _ => !d.host)
  && !(flag (getReg s (hifBase + 0x20)) 0 && (a = hifBase + 0x20 || (decide (hifBase + 0x40 ≤ a) && decide (a < hifBase + 0x100))))
  && !(flag (getReg s (fabBase + 0x14)) 0 && (a = fabBase + 0x14 || (decide (fabBase + 0x4000 ≤ a) && decide (a < fabBase + 0xC000))
      || (decide (fabBase + 0xC000 ≤ a) && decide (a < colBase) && decide (a % 0x4000 = 4))))
  && !(flag (getReg s (pwrBase + 0x10)) 0 && (a = pwrBase + 0xC || a = pwrBase + 0x10))

/-- Count an ignored write. -/
def writeIgnored (s : State) : State := bump s cWriteIgn

/-- The RC registers of a page, by offset, with their values, and the page without them (R471). -/
def snapPage (page : Nat) (s : State) : Sparse Nat × State :=
  (List.range 1024).foldl (fun r i =>
    let a := page * 0x4000 + 4 * i
    match regAt a with
    | some d =>
      if d.cls = .ctr then (sput 0 r.1 (4 * i) (counter s (ctrLow a) / 2 ^ (8 * (a - ctrLow a)) % 2 ^ 32), { r.2 with ctr := sput 0 r.2.ctr (ctrLow a) 0 })
      else if d.cls = .rc then (sput 0 r.1 (4 * i) (getReg s a), setReg r.2 a 0)
      else r
    | none => r) ([], s)

/-- Take the snapshot of a page: BUSY until it completes. -/
def takeSnap (page : Nat) (s : State) : State :=
  let (m, s) := snapPage page s
  { s with host := { s.host with snap := m, snapBusy := true, snapDone := false } }

/-- A write of TOP_SNAP_CTL: with GO = 1 the snapshot of PAGE is taken, unless one is BUSY. -/
def snapCtlWrite (v : Nat) (s : State) : State :=
  if flag v 31 then
    if s.host.snapBusy then writeIgnored s else takeSnap (v % 2 ^ 12) (setReg s (topBase + 0x40) (v % 2 ^ 12))
  else setReg s (topBase + 0x40) (v % 2 ^ 12)

/-- The commit of a configuration (R475): MODE 0 at once. Kolelm extends MR7 with the SHA3-256 of the reference it
commits (R496), and a changed PERIOD_K waits for its boundary if no step is active (R320). -/
def cfgCommit (s : State) : State :=
  let ref := getReg s (topBase + 0x24) * 2 ^ 32 + getReg s (topBase + 0x20)
  let k := field (ltuCfg s) 26 24
  let s := { s with cfg := { s.cfg with committed := true, mismatch := false, seen := false, adopt := false, beganAfter := false } }
  let s := if stepActive s || k = s.bud.periodK then s else { s with bud := { s.bud with nextK := some k } }
  extendMr7 (sha3 (leBytes 8 ref)) s

/-- A write of TOP_CFG_COMMIT: another key is ignored; a MODE 1 commit waits for the next clean pass. -/
def commitWrite (v : Nat) (s : State) : State :=
  if v / 2 ^ 16 ≠ 0xC0F1 then writeIgnored s
  else if flag v 0 then { s with cfg := { s.cfg with adopt := true, beganAfter := false } }
  else cfgCommit s

/-- The effect of an accepted value on a register, beyond what is stored (rules of the field's own chapter). -/
def settle (a v : Nat) (s : State) : State :=
  if a = topBase + 0x20 ∨ a = topBase + 0x24 then
    let s := setReg s a v
    { s with cfg := { s.cfg with committed := false, adopt := false } }
  else if a = topBase + 0x40 then snapCtlWrite v s
  else if a = hifBase + 4 then
    setReg s a (v / 2 ^ 31 * 2 ^ 31 + bit (flag v 30 && flag (getReg s a) 30) * 2 ^ 30)
  else if a = hifBase + 8 then aqCfgWrite v s
  else if a = secBase + 0x60 then secExtWrite v s
  else if a = cipBase then cipCfgWrite v s
  else if a = ltuBase ∨ a = ltuBase + 4 then timeTree (setReg s a v)
  else if ltuBase + 0x40 ≤ a ∧ a < ltuBase + 0xC0 ∧ a % 16 = 0 then timerArmed ((a - ltuBase - 0x40) / 16) (setReg s a v)
  else if a = fabBase + 0xC then buddySet v s
  else if fabBase + 0xC000 ≤ a ∧ a < colBase ∧ a % 0x4000 = 0 then portCfgSet ((a - fabBase) / 0x4000 - 3) v s
  else setReg s a v

/-- A value reaches an RW register: qualifiers and locks, reserved codes, and the effect. -/
def storeRw (req : Requester) (d : RegDef) (a w : Nat) (s : State) : State :=
  if !mayWrite s req d a then writeIgnored s
  else
    let (v, bad) := acceptWrite d a (getReg s a) w
    let s := if bad then writeIgnored s else s
    let s := if d.crc then touchCfg s else s
    settle a v s

/-- A write of a WO register through the page. -/
def storeWo (req : Requester) (d : RegDef) (a w : Nat) (s : State) : State :=
  if !mayWrite s req d a then writeIgnored s
  else if a = topBase + 0x28 then commitWrite w s
  else setReg s a w

/-- A write through the page (Table 16-2). -/
def writePage (req : Requester) (a w : Nat) (s : State) : State :=
  if !powered s then s
  else match regAt a with
  | none => countUnmapped (0x00A000000000 + a) s
  | some d =>
    match d.cls with
    | .rw => storeRw req d a w s
    | .wo => storeWo req d a w s
    | _ => writeIgnored s

/-- A write through an alias: 1 set, 2 clear, 3 toggle (R468). -/
def writeAlias (req : Requester) (kind a w : Nat) (s : State) : State :=
  if !powered s then s
  else match regAt a with
  | none => countUnmapped (0x00A000000000 + a) s
  | some d =>
    match d.cls with
    | .rw =>
      let x := getReg s a
      let new := if kind = 1 then x ||| w else if kind = 2 then x - (x &&& w) else x ^^^ w
      storeRw req d a ((x - (x &&& d.rw)) ||| (new &&& d.rw)) s
    | _ => writeIgnored s

/-- REG_WRITE. -/
def execRegWrite (req : Requester) (addr : BitVec 26) (value : W32) (s : State) : Host.Outcome State Fault Refusal :=
  .next (writePage req (pageAddr addr.toNat) value.toNat s)
/-- REG_ALIAS_SET. -/
def execRegAliasSet (req : Requester) (addr : BitVec 26) (value : W32) (s : State) : Host.Outcome State Fault Refusal :=
  .next (writeAlias req 1 (pageAddr addr.toNat) value.toNat s)
/-- REG_ALIAS_CLEAR. -/
def execRegAliasClear (req : Requester) (addr : BitVec 26) (value : W32) (s : State) : Host.Outcome State Fault Refusal :=
  .next (writeAlias req 2 (pageAddr addr.toNat) value.toNat s)
/-- REG_ALIAS_TOGGLE. -/
def execRegAliasToggle (req : Requester) (addr : BitVec 26) (value : W32) (s : State) : Host.Outcome State Fault Refusal :=
  .next (writeAlias req 3 (pageAddr addr.toNat) value.toNat s)

/-- TOP_SNAP_GO (R471). -/
def execTopSnapGo (req : Requester) (value : W32) (s : State) : Host.Outcome State Fault Refusal :=
  .next (writePage req (topBase + 0x40) (2 ^ 31 + value.toNat % 2 ^ 31) s)
/-- SNAPSHOT_COMPLETE. -/
def execSnapshotComplete (s : State) : Host.Outcome State Fault Refusal :=
  .next (if s.host.snapBusy then { s with host := { s.host with snapBusy := false, snapDone := true } } else s)
/-- CFG_REF_WRITE (R475). -/
def execCfgRefWrite (req : Requester) (hi : Bool) (value : W32) (s : State) : Host.Outcome State Fault Refusal :=
  .next (writePage req (topBase + (if hi then 0x24 else 0x20)) value.toNat s)
/-- CFG_COMMIT_COMPARE (R475). -/
def execCfgCommitCompare (req : Requester) (s : State) : Host.Outcome State Fault Refusal :=
  .next (writePage req (topBase + 0x28) 0xC0F10000 s)
/-- CFG_COMMIT_ADOPT (R475). -/
def execCfgCommitAdopt (req : Requester) (s : State) : Host.Outcome State Fault Refusal :=
  .next (writePage req (topBase + 0x28) 0xC0F10001 s)
/-- SEC_EXT_GO (R496). -/
def execSecExtGo (req : Requester) (value : W32) (s : State) : Host.Outcome State Fault Refusal :=
  .next (writePage req (secBase + 0x60) value.toNat s)
/-- CIP_CFG_WRITE (R505, Table 17-15). -/
def execCipCfgWrite (req : Requester) (value : W32) (s : State) : Host.Outcome State Fault Refusal :=
  .next (writePage req cipBase value.toNat s)
/-- CIP_RQ_TAIL_WRITE (R500). -/
def execCipRqTailWrite (req : Requester) (value : W32) (s : State) : Host.Outcome State Fault Refusal :=
  .next (writePage req (cipBase + 0xC) value.toNat s)
/-- HIF_AQ_CFG_WRITE (R439): by the host. -/
def execHifAqCfgWrite (value : W32) (s : State) : Host.Outcome State Fault Refusal :=
  .next (writePage .host (hifBase + 8) value.toNat s)
/-- HIF_JOBCTL_WRITE (R453). -/
def execHifJobctlWrite (req : Requester) (value : W32) (s : State) : Host.Outcome State Fault Refusal :=
  .next (writePage req (hifBase + 4) value.toNat s)
/-- HIF_LOCK_WRITE (R437). -/
def execHifLockWrite (req : Requester) (value : W32) (s : State) : Host.Outcome State Fault Refusal :=
  .next (writePage req (hifBase + 0x20) value.toNat s)
/-- FAB_LOCK_WRITE (R351). -/
def execFabLockWrite (req : Requester) (value : W32) (s : State) : Host.Outcome State Fault Refusal :=
  .next (writePage req (fabBase + 0x14) value.toNat s)
/-- PWR_LOCK_WRITE (R520). -/
def execPwrLockWrite (req : Requester) (value : W32) (s : State) : Host.Outcome State Fault Refusal :=
  .next (writePage req (pwrBase + 0x10) value.toNat s)
/-- PWR_LIMIT_WRITE (R520). -/
def execPwrLimitWrite (req : Requester) (value : W32) (s : State) : Host.Outcome State Fault Refusal :=
  .next (writePage req (pwrBase + 0xC) value.toNat s)

/-! ## Passes of the configuration CRC (R473 to R476) -/

/-- The bytes of a block's configuration registers. -/
def cfgBytes (s : State) (block : Nat) : List Byte := (crcAddrs block).flatMap (fun a => leBytes 4 (getReg s a))

/-- CFG_CRC_PASS_START: at a line time that is a multiple of 64,000 ns. -/
def execCfgCrcPassStart (s : State) : Host.Outcome State Fault Refusal :=
  .next (
    if !powered s || s.cfg.running || decide (nsOf s % 64000 ≠ 0) then s
    else { s with cfg := { s.cfg with running := true, dirty := false, beganAfter := s.cfg.committed || s.cfg.adopt } })

/-- A clean pass is compared with the reference (R476). -/
def compareCfg (crc : Nat) (old : List Nat) (s : State) : State :=
  let ref := getReg s (topBase + 0x24) * 2 ^ 32 + getReg s (topBase + 0x20)
  if crc = ref then { s with cfg := { s.cfg with mismatch := false } }
  else
    let was := s.cfg.mismatch
    let s := bump { s with cfg := { s.cfg with mismatch := true, seen := true } } cCfgMismatch
    if was then s
    else
      let mask := (List.range 15).foldl (fun a b => a + (if old.getD b 0 = s.cfg.bcrc.getD b 0 then 0 else 2 ^ b)) 0
      slog 0 0 0x110 0 0 mask (postEvent 0x000B 0 0 s)

/-- CFG_CRC_PASS_END: a dirty pass is discarded and counted; a clean one is loaded, and compared or adopted. -/
def execCfgCrcPassEnd (s : State) : Host.Outcome State Fault Refusal :=
  .next (
    if !s.cfg.running then s
    else
      let c := s.cfg
      let s := { s with cfg := { c with running := false, dirty := false } }
      if c.dirty then bump s cCfgDirty
      else
        let blocks := (List.range 15).map (cfgBytes s)
        let crc := crc64 blocks.flatten
        let s := { s with cfg := { s.cfg with
          crc := crc, bcrc := blocks.map (fun b => if b.isEmpty then 0 else crc64 b), passSeq := (c.passSeq + 1) % 2 ^ 16 } }
        if !c.beganAfter then s
        else if c.adopt then
          cfgCommit (setReg (setReg s (topBase + 0x20) (crc % 2 ^ 32)) (topBase + 0x24) (crc / 2 ^ 32))
        else if c.committed then compareCfg crc c.bcrc s
        else s)

end Sys2Proof.Machine
end

