-- ==== Sys2Proof/Machine/Kolelm.lean ====
section
/-!
DEFINITION. Kolelm command processing (chapter 15): the management and telemetry commands, the checks of R443, the
queues' order (R440, R441, R318), and the management path (R456, R540).
-/
namespace Sys2Proof.Machine

/-! ## Management and telemetry commands (Tables 15-7 and 15-16) -/

/-- IDENTIFY. -/
def kIdentify (h : CmdHdr) (buf : Buf) (s : State) : KRes :=
  withBuf h buf s (let d := identityData (field s.pwr.straps 6 0); deliver h buf d id d.length s)

/-- JOB_STATUS (R454): the record and the discarded-reply log, which the host's reading clears (R452). -/
def kJobStatus (h : CmdHdr) (buf : Buf) (s : State) : KRes :=
  let d := jobStatusRecord (ltuStatus s) s ++ dropLogBytes s
  withBuf h buf s (deliver h buf d
    (fun s => if h.mctp then s else { s with host := { s.host with dropLog := [] } }) d.length s)

/-- COUNTERS_READ (R449, R471): INSTANCE counts the pages of the block; a snapshot of the page takes its counters and
clears them in one pass, and its words lie in the result at their page offsets (log 32). -/
def kCountersRead (h : CmdHdr) (block : Byte) (inst : W16) (buf : Buf) (s : State) : KRes :=
  withBuf h buf s (match regBlocks[block.toNat]? with
    | none => kFail stParameter 0 s
    | some (_, base, pages) =>
      if pages ≤ inst.toNat then kFail stParameter 1 s
      else if s.host.snapBusy then kFail stBusy 0 s
      else
        let (m, s1) := snapPage (base / 0x4000 + inst.toNat) s
        let d := (List.range 1024).flatMap (fun i => leBytes 4 (sget 0 m (4 * i)))
        deliver h buf d
          (fun s => { s with ctr := s1.ctr, regs := s1.regs, host := { s.host with snap := m, snapDone := true } }) d.length s)

/-- SLOG_READ (R415): the records in the order of their places; the detail is their number. -/
def kSlogRead (h : CmdHdr) (clear : Byte) (buf : Buf) (s : State) : KRes :=
  let rs := s.slog.first ++ s.slog.ring
  withBuf h buf s (deliver h buf (rs.flatMap (leBytes 32))
    (fun s => if clear.toNat = 1 then { s with slog := { s.slog with first := [], ring := [] } } else s) rs.length s)

/-- The temperatures, stack levels and input power: PWR_INPUT, then temperature and level of dies 0 to 20 and of stacks
0 to 7 (log 32). -/
def sensorData (s : State) : List Byte :=
  leBytes 4 (pwrInput s)
    ++ (List.range 21).flatMap (fun d => leBytes 2 (sget (0, 0) s.pwr.temps d).1 ++ leBytes 2 (dieLevel s d))
    ++ (List.range 8).flatMap (fun k => leBytes 2 (stackOf s k).temp ++ leBytes 2 (stackOf s k).level)

/-- SENSORS_READ: nothing is cleared. -/
def kSensorsRead (h : CmdHdr) (buf : Buf) (s : State) : KRes :=
  withBuf h buf s (let d := sensorData s; deliver h buf d id d.length s)

/-- DIAG_RUN: refused during a step; the result of a test is not given (log 1). -/
def kDiagRun (_h : CmdHdr) (_test : W16) (_param : W64) (s : State) : KRes :=
  if stepActive s then kFail stActive 0 s
  else
    let (r, s) := free32 s
    kOk r s

/-! ## Commands as such -/

/-- The header and opcode of a command (Tables 15-7 to 15-16). -/
def cmdOf : Instr → Option (CmdHdr × Nat)
  | .identify h _ => some (h, 0x0101)
  | .queueCreate h _ _ _ _ _ _ _ => some (h, 0x0102)
  | .queueDelete h _ => some (h, 0x0103)
  | .jobStatus h _ => some (h, 0x0104)
  | .eventRingSet h _ _ _ => some (h, 0x0105)
  | .jobSeedSet h _ => some (h, 0x0106)
  | .moduleReset h _ => some (h, 0x0107)
  | .moduleBedEnter h => some (h, 0x0108)
  | .moduleBedLeave h => some (h, 0x0108)
  | .fwUpdate h => some (h, 0x0109)
  | .memToHost h _ _ _ => some (h, 0x0201)
  | .memFromHost h _ _ _ => some (h, 0x0202)
  | .memCopy h _ _ _ => some (h, 0x0203)
  | .memFill h _ _ _ => some (h, 0x0204)
  | .treimMapApplyJobStart h => some (h, 0x0210)
  | .treimMapApplyRestore h => some (h, 0x0210)
  | .treimMapApplyResume h => some (h, 0x0210)
  | .treimRetrain h _ => some (h, 0x0211)
  | .plinthApply h _ => some (h, 0x0220)
  | .plinthAlloc h _ _ _ _ => some (h, 0x0221)
  | .plinthFree h _ _ _ _ => some (h, 0x0222)
  | .plinthQuota h _ _ _ => some (h, 0x0223)
  | .corbelLoad h => some (h, 0x0230)
  | .corbelGroupSet h => some (h, 0x0231)
  | .corbelResume h => some (h, 0x0232)
  | .corbelUnfreeze h => some (h, 0x0233)
  | .programLoad h => some (h, 0x0301)
  | .tileFence h _ => some (h, 0x0302)
  | .tileUnfence h _ => some (h, 0x0303)
  | .tileQuery h _ _ => some (h, 0x0304)
  | .stepBegin h _ _ _ _ _ _ => some (h, 0x0401)
  | .stepAbort h _ => some (h, 0x0402)
  | .stepQuery h _ => some (h, 0x0403)
  | .tensorScale h _ _ _ _ _ => some (h, 0x0404)
  | .stepResume h _ => some (h, 0x0405)
  | .jobGroups h => some (h, 0x0406)
  | .queueLoad h => some (h, 0x0407)
  | .expertTableLoad h => some (h, 0x0408)
  | .fabricConfig h => some (h, 0x0501)
  | .fabricRouteLoad h => some (h, 0x0502)
  | .collSetup h => some (h, 0x0503)
  | .collFree h _ => some (h, 0x0504)
  | .collRun h _ => some (h, 0x0505)
  | .fabricQuery h _ => some (h, 0x0506)
  | .collQuery h _ _ => some (h, 0x0507)
  | .exchConfig h => some (h, 0x0601)
  | .exchPartners h => some (h, 0x0602)
  | .exchWeights h => some (h, 0x0603)
  | .exchJoin h => some (h, 0x0604)
  | .exchQuery h _ => some (h, 0x0605)
  | .exchFetch h => some (h, 0x0606)
  | .ckptConfig h => some (h, 0x0701)
  | .ckptQuery h _ => some (h, 0x0702)
  | .ckptRestore h _ => some (h, 0x0703)
  | .replicaRepairNameSource h => some (h, 0x0704)
  | .replicaRepairCatchUp h => some (h, 0x0704)
  | .timeEpoch h _ _ => some (h, 0x0801)
  | .timeQuery h _ => some (h, 0x0802)
  | .budgetSet h => some (h, 0x0803)
  | .timeTimer h _ _ _ => some (h, 0x0804)
  | .timePathSet h => some (h, 0x0805)
  | .secIdentity h _ => some (h, 0x0901)
  | .secAttest h _ _ => some (h, 0x0902)
  | .secKeyLoad h => some (h, 0x0903)
  | .secKeyClear h _ => some (h, 0x0904)
  | .secOwnerEnrol h => some (h, 0x0905)
  | .secRollbackSet h => some (h, 0x0906)
  | .countersRead h _ _ _ => some (h, 0x0A01)
  | .slogRead h _ _ => some (h, 0x0A02)
  | .tensorRead h _ _ _ => some (h, 0x0A03)
  | .queueStats h _ _ _ => some (h, 0x0A04)
  | .sensorsRead h _ => some (h, 0x0A05)
  | .diagRun h _ _ => some (h, 0x0A06)
  | _ => none

/-- QUEUE_DELETE (R447): fetched commands that have not begun are answered with ABORTED, and the queue goes. -/
def kQueueDelete (_h : CmdHdr) (qid : Byte) (s : State) : KRes :=
  let q := qid.toNat
  let v := queueOf s q
  if q = 0 ∨ 63 < q ∨ !v.enabled then kFail stParameter 0 s
  else if 0 < v.deferred ∨ s.stp.resumeReply.any (fun r => r.queue = q && replyLive s r) then kFail stBusy 0 s
  else
    let s := v.waiting.foldl (fun s c => match cmdOf c with
      | some (h, op) => postReply (replyTo h op s) false stAborted 0 s
      | none => s) s
    kOk v.waiting.length (setQueue s q Queue.none)

/-- A command's own checks and effect. -/
def body : Instr → State → KRes
  | .identify h b => kIdentify h b
  | .queueCreate h q v n u d sq cq => kQueueCreate h q v n u d sq cq
  | .queueDelete h q => kQueueDelete h q
  | .jobStatus h b => kJobStatus h b
  | .eventRingSet h r d v => kEventRingSet h r d v
  | .jobSeedSet h x => kJobSeedSet h x
  | .moduleReset h c => kModuleReset h c
  | .moduleBedEnter h => kModuleBedEnter h
  | .moduleBedLeave h => kModuleBedLeave h
  | .fwUpdate h => kFwUpdate h
  | .memToHost h d a n => kMemToHost h d a n
  | .memFromHost h a d n => kMemFromHost h a d n
  | .memCopy h a d n => kMemCopy h a d n
  | .memFill h d n p => kMemFill h d n p
  | .treimMapApplyJobStart h => kTreimMapApplyJobStart h
  | .treimMapApplyRestore h => kTreimMapApplyRestore h
  | .treimMapApplyResume h => kTreimMapApplyResume h
  | .treimRetrain h c => kTreimRetrain h c
  | .plinthApply h m => kPlinthApply h m
  | .plinthAlloc h p d n x => kPlinthAlloc h p d n x
  | .plinthFree h p r f n => kPlinthFree h p r f n
  | .plinthQuota h m d q => kPlinthQuota h m d q
  | .corbelLoad h => kCorbelLoad h
  | .corbelGroupSet h => kCorbelGroupSet h
  | .corbelResume h => kCorbelResume h
  | .corbelUnfreeze h => kCorbelUnfreeze h
  | .programLoad h => kProgramLoadMeasured h
  | .tileFence h m => kTileFence h m
  | .tileUnfence h m => kTileUnfence h m
  | .tileQuery h m b => kTileQuery h m b
  | .stepBegin h st sa g c m d => kStepBegin h st sa g c m d
  | .stepAbort h st => kStepAbort h st
  | .stepQuery h b => kStepQuery h b
  | .tensorScale h t m x d f => kTensorScale h t m x d f
  | .stepResume h st => kStepResume h st
  | .jobGroups h => kJobGroups h
  | .queueLoad h => kQueueLoad h
  | .expertTableLoad h => kExpertTableLoad h
  | .fabricConfig h => kFabricConfig h
  | .fabricRouteLoad h => kFabricRouteLoad h
  | .collSetup h => kCollSetup h
  | .collFree h n => kCollFree h n
  | .collRun h n => kCollRun h n
  | .fabricQuery h b => kFabricQuery h b
  | .collQuery h n b => kCollQuery h n b
  | .exchConfig h => kExchConfig h
  | .exchPartners h => kExchPartners h
  | .exchWeights h => kExchWeights h
  | .exchJoin h => kExchJoin h
  | .exchQuery h b => kExchQuery h b
  | .exchFetch h => kExchFetch h
  | .ckptConfig h => kCkptConfig h
  | .ckptQuery h b => kCkptQuery h b
  | .ckptRestore h o => kCkptRestore h o
  | .replicaRepairNameSource h => kReplicaRepairNameSource h
  | .replicaRepairCatchUp h => kReplicaRepairCatchUp h
  | .timeEpoch h e p => kTimeEpoch h e p
  | .timeQuery h b => kTimeQuery h b
  | .budgetSet h => kBudgetSet h
  | .timeTimer h t c e => kTimeTimer h t c e
  | .timePathSet h => kTimePathSet h
  | .secIdentity h b => kSecIdentity h b
  | .secAttest h b n => kSecAttest h b n
  | .secKeyLoad h => kSecKeyLoad h
  | .secKeyClear h n => kSecKeyClear h n
  | .secOwnerEnrol h => kSecOwnerEnrol h
  | .secRollbackSet h => kSecRollbackSet h
  | .countersRead h b i r => kCountersRead h b i r
  | .slogRead h c b => kSlogRead h c b
  | .tensorRead h f n b => kTensorRead h f n b
  | .queueStats h f n b => kQueueStats h f n b
  | .sensorsRead h b => kSensorsRead h b
  | .diagRun h t p => kDiagRun h t p
  | _ => kFail stOpcode 0

/-! ## Beginning a command -/

/-- A range that touches Treim or tile memory. -/
def touchesBedded (a n : Nat) : Bool :=
  (pagesOf a n).any (fun p => match classify p with
    | .treim _ => true
    | .plinth .. => false
    | .register _ => false
    | .unmapped => false
    | _ => true)

/-- The commands a bedded module refuses (R516); of the memory moves those within the DMA windows (R443) that touch
Treim or tile memory. -/
def bedRefused (s : State) : Instr → Bool
  | .stepBegin .. | .stepResume .. | .programLoad .. | .corbelLoad .. | .corbelResume .. | .treimRetrain ..
  | .treimMapApplyJobStart .. | .treimMapApplyRestore .. | .treimMapApplyResume .. | .ckptRestore .. => true
  | .memToHost _ d a n => dmaOk s a.toNat n.toNat && touchesBedded d.toNat n.toNat
  | .memFromHost _ a d n => dmaOk s a.toNat n.toNat && touchesBedded d.toNat n.toNat
  | .memCopy _ a d n => touchesBedded a.toNat n.toNat || touchesBedded d.toNat n.toNat
  | .memFill _ d n _ => touchesBedded d.toNat n.toNat
  | _ => false

/-- The status of a command the module as a whole refuses: command processing stopped (R413), recovery (R490), or the
module not in the running power state (R516). -/
def refusal (op : Nat) (i : Instr) (s : State) : Option Nat :=
  if s.host.fatal then some stFatal
  else if s.sec.recovery && op ≠ 0x0101 && op ≠ 0x0901 && op ≠ 0x0109 then some stFatal
  else if s.pwr.state ≠ 0 && bedRefused s i then some stBusy
  else none

/-- Deferred commands whose queue goes on once they are accepted (R441). -/
def isDeferred (op : Nat) : Bool := op = 0x0401 || op = 0x0505 || op = 0x0803 || op = 0x0604

/-- A command begun after its time is counted, STEP_BEGIN and COLL_RUN by their own rules (R318). -/
def countLate (h : CmdHdr) (op : Nat) (s : State) : State :=
  if decide (0 < h.notBefore.toNat) && decide (h.notBefore.toNat < nsOf s) && op ≠ 0x0401 && op ≠ 0x0505 then
    bump s (cLtu 0x120) else s

/-- A result is answered, or the answer is left to a later event (R441). -/
def conclude (r : ReplyTo) (op : Nat) (k : KRes) : State :=
  if !k.deferred then postReply r false k.status k.detail k.s
  else if isDeferred op && replyLive k.s r then
    setQueue k.s r.queue { queueOf k.s r.queue with deferred := (queueOf k.s r.queue).deferred + 1 }
  else k.s

/-- A command begins: it is refused, or its own checks and effect follow. -/
def beginCmd (h : CmdHdr) (op : Nat) (k : State → KRes) (i : Instr) (s : State) : State :=
  match refusal op i s with
  | some st => postReply (replyTo h op s) false st 0 s
  | none => conclude (replyTo h op s) op (k (countLate h op s))

/-! ## The order of a queue (R318, R440, R441) -/

/-- The host interface may fetch a command of the queue: up to 16 wait, and replies unposted and unreleased stay below
the depth (R440). -/
def mayFetch (s : State) (q : Nat) : Bool :=
  let v := queueOf s q
  decide (s.pwr.stage = 5) && v.enabled && !v.err && !s.host.d3hot
    && decide (v.unposted + v.used < 2 ^ v.log2) && decide (v.waiting.length < 16)

/-- A STEP_RESUME of the queue is unanswered, and holds it. -/
def resumeHolds (s : State) (q : Nat) : Bool := s.stp.resumeReply.any (fun r => r.queue = q && replyLive s r)

/-- The time of a command has come; a named collective instant is no time to wait for (R32), and an apply waits for
running retrains to end (R213, Table 8-5). -/
def timeDue (s : State) (h : CmdHdr) (op : Nat) : Bool :=
  (op = 0x0505 || decide (h.notBefore.toNat ≤ nsOf s)) && !applyHeld s op

/-- The first waiting command of a queue may begin: its time, the FENCE flag, and at most 256 deferred commands. -/
def queueReady (s : State) (h : CmdHdr) (op : Nat) : Bool :=
  let v := queueOf s h.queue.toNat
  timeDue s h op && (!h.fence || decide (v.deferred = 0)) && (!isDeferred op || decide (v.deferred < 256))
    && !resumeHolds s h.queue.toNat

/-- NOT_BEFORE lies more than 600 s ahead (R318). -/
def tooFar (s : State) (h : CmdHdr) : Bool := decide (nsOf s + 600000000000 < h.notBefore.toNat)

/-- A command that fails a check of R443 on fetching. -/
def badCmd (h : CmdHdr) (op st detail : Nat) (s : State) : State := postReply (replyTo h op s) false st detail (bump s (cHif 0x108))

/-- A fetched command begins, or waits behind the others of its queue. -/
def enqueue (h : CmdHdr) (op : Nat) (k : State → KRes) (i : Instr) (s : State) : State :=
  let v := queueOf s h.queue.toNat
  if tooFar s h then badCmd h op stParameter 8 s
  else if v.waiting.isEmpty && queueReady s h op then beginCmd h op k i s
  else setQueue s h.queue.toNat { v with waiting := v.waiting ++ [i] }

/-! ## The management path (R456) -/

/-- What the management path accepts. -/
def mctpAllowed (op : Nat) : Bool := op = 0x0101 || op = 0x0104 || op = 0x0901 || op = 0x0902 || op = 0x0A05

/-- The reply of the management path: the message type and vendor ID, the reply, and the result bytes in place of a
buffer. -/
def mctpReply (h : CmdHdr) (st detail : Nat) (data : List Byte) (s : State) : State :=
  let s := bump s (cHif 0x100)
  emit (.mctp ([0x7E, 0x1F, 0x6B] ++ leBytes 16 (replyWord false (nsOf s) detail st h.tag.toNat) ++ data)) s

/-- A command of the management path begins. Without the island the records of the island are not to be had. -/
def mctpBegin (h : CmdHdr) (op : Nat) (k : State → KRes) (s : State) : State :=
  if !mctpAllowed op then mctpReply h stOpcode 0 [] s
  else if s.host.fatal || (s.sec.recovery && op ≠ 0x0101 && op ≠ 0x0901) then mctpReply h stFatal 0 [] s
  else if s.pwr.stage < 4 && (op = 0x0901 || op = 0x0902) then mctpReply h stFault 0 [] s
  else
    let r := k (countLate h op s)
    match r.s.out with
    | .mctp d :: rest => if r.status = 0 then mctpReply h 0 r.detail d { r.s with out := rest } else mctpReply h r.status r.detail [] r.s
    | _ => mctpReply h r.status r.detail [] r.s

/-- A command received on the management path: counted, and begun at its time. -/
def mctpSubmit (h : CmdHdr) (op : Nat) (k : State → KRes) (i : Instr) (s : State) : State :=
  if !s.pwr.auxOk then s
  else
    let s := bump s (cHif 0x150)
    if mctpAllowed op && tooFar s h then mctpReply h stParameter 8 [] (bump s (cHif 0x108))
    else if !mctpAllowed op || timeDue s h op then mctpBegin h op k s
    else { s with host := { s.host with orphans := s.host.orphans ++ [i] } }

/-- A command arrives by its path: fetched from its queue if the queue allows it, or as a message. -/
def submit (h : CmdHdr) (op : Nat) (k : State → KRes) (i : Instr) (s : State) : State :=
  if h.mctp then mctpSubmit h op k i s
  else
    let q := h.queue.toNat
    if !mayFetch s q then s
    else enqueue h op k i (setQueue s q { queueOf s q with unposted := (queueOf s q).unposted + 1 })

/-! ## Commands whose time has come -/

/-- Begin the waiting commands of a queue from the front, as long as they may. Those that transfer to the host wait for
D0 (R517). -/
def pumpQueue (q : Nat) : Nat → State → State
  | 0, s => s
  | n + 1, s =>
    match (queueOf s q).waiting with
    | [] => s
    | c :: cs =>
      match cmdOf c with
      | none => s
      | some (h, op) =>
        if queueReady s h op && !s.host.d3hot then
          pumpQueue q n (beginCmd h op (body c) c (setQueue s q { queueOf s q with waiting := cs }))
        else s

/-- Replies to earlier commands of a queue that is gone are still to come. -/
def lostReplies (s : State) (q : Nat) : Bool :=
  let of (r : Option ReplyTo) : Bool := r.any (fun r => !r.mctp && decide (r.queue = q) && !replyLive s r)
  of s.stp.reply || of s.stp.resumeReply || of (s.bud.pending.map (fun p => p.2.2.2)) || of s.npx.joinReply
    || s.fab.handles.any (fun e => e.2.any (fun c => c.run.any (fun r => of r.reply)))

/-- A command fetched from a queue that is gone begins (R452): its reply goes to the log. -/
def runOrphan (h : CmdHdr) (op : Nat) (c : Instr) (s : State) : State :=
  if h.mctp then mctpBegin h op (body c) s
  else
    let q := h.queue.toNat
    let v := queueOf s q
    let t := beginCmd h op (body c) c (setQueue s q Queue.none)
    if t.pwr.stage = s.pwr.stage then setQueue t q v else t

/-- Begin the commands of the queues that are gone, in their queues' order; `held` tells that one has had to wait. -/
def pumpOrphans (q : Nat) : List Instr → Bool → State → State
  | [], _, s => s
  | c :: cs, held, s =>
    match cmdOf c with
    | none => pumpOrphans q cs held s
    | some (h, op) =>
      if decide (h.queue.toNat = q) && !held then
        if timeDue s h op && (h.mctp || ((!h.fence || !lostReplies s q) && s.stp.resumeReply.all (fun r => decide (r.queue ≠ q) || replyLive s r))) then
          pumpOrphans q cs held (runOrphan h op c { s with host := { s.host with orphans := s.host.orphans.erase c } })
        else pumpOrphans q cs true s
      else pumpOrphans q cs held s

/-- COMMAND_NOT_BEFORE_DUE (R318, R452): the commands of the queue that waited and may begin. -/
def execCommandNotBeforeDue (queue : BitVec 6) (s : State) : Host.Outcome State Fault Refusal :=
  .next (
    if s.pwr.stage ≠ 5 then s
    else
      let q := queue.toNat
      let s := pumpOrphans q s.host.orphans false s
      pumpQueue q (queueOf s q).waiting.length s)

/-! ## Fetching (R440, R442, R443) -/

/-- Whether an opcode requires a parameter block; none for an opcode no table lists. -/
def opPb (op : Nat) : Option Bool :=
  if [0x0109, 0x0230, 0x0231, 0x0233, 0x0301, 0x0406, 0x0407, 0x0408, 0x0501, 0x0502, 0x0503, 0x0601, 0x0602, 0x0603, 0x0701,
      0x0704, 0x0803, 0x0805, 0x0903, 0x0905, 0x0906].contains op then some true
  else if [0x0101, 0x0102, 0x0103, 0x0104, 0x0105, 0x0106, 0x0107, 0x0108, 0x0201, 0x0202, 0x0203, 0x0204, 0x0210, 0x0211, 0x0220,
      0x0221, 0x0222, 0x0223, 0x0232, 0x0302, 0x0303, 0x0304, 0x0401, 0x0402, 0x0403, 0x0404, 0x0405, 0x0504, 0x0505, 0x0506,
      0x0507, 0x0604, 0x0605, 0x0606, 0x0702, 0x0703, 0x0801, 0x0802, 0x0804, 0x0901, 0x0902, 0x0904, 0x0A01, 0x0A02, 0x0A03,
      0x0A04, 0x0A05, 0x0A06].contains op then some false
  else none

/-- Bytes that the contents of a parameter block take. -/
def pbNeed (s : State) (op : Nat) (pb : List Byte) : Nat :=
  let n (o k : Nat) : Nat := leAt pb o k
  match op with
  | 0x0109 => 13
  | 0x0230 => 64 + ceilDiv (2 * n 2 2) 64 * 64 + 64 * n 2 2 + 64 * n 4 4
  | 0x0231 => 64 + ceilDiv (2 * n 2 2) 64 * 64 + 64 * n 2 2
  | 0x0233 => 64 + 2 * n 0 4
  | 0x0301 => 64 + 8 * ((List.range 96).filter (n 0 12).testBit).length + 16 * n 20 1
  | 0x0406 => 64 + 2 * (n 0 4 * n 4 4)
  | 0x0407 => 64 + 32 * n 0 4
  | 0x0408 => 64 + 4 * n 0 4
  | 0x0501 => 80
  | 0x0502 => 64 + 2 * n 4 4
  | 0x0503 =>
    let c := collLists s (n 0 64) pb
    let up (a : Nat) : Nat := ceilDiv a 64 * 64
    64 + up (2 * c.list.length) + up (8 * c.lens.length) + up (4 * c.layout.flatten.length) + 8 * c.extents.length
  | 0x0601 => 112
  | 0x0602 => 64 + 32 * n 0 4
  | 0x0603 => 64 + 4 * n 0 1
  | 0x0701 => 64 + 16 * n 0 2
  | 0x0704 => 64 + 2 * n 4 4
  | 0x0803 => 0x204
  | 0x0805 => 320
  | 0x0903 => 64 + n 4 4
  | 0x0905 => 64 + n 0 4
  | 0x0906 => 64 + n 0 4
  | _ => 0

/-- The command that an opcode and its parameters spell: inline parameters from byte 16 of the packet, or the parameter
block. Where a mode or action is not among the given ones there is none. -/
def commandAt (h : CmdHdr) (op : Nat) (p : List Byte) : Option Instr :=
  let u8 (o : Nat) : Byte := BitVec.ofNat 8 (leAt p o 1)
  let u16 (o : Nat) : W16 := BitVec.ofNat 16 (leAt p o 2)
  let u32 (o : Nat) : W32 := BitVec.ofNat 32 (leAt p o 4)
  let u64 (o : Nat) : W64 := BitVec.ofNat 64 (leAt p o 8)
  let mask : BitVec 96 := BitVec.ofNat 96 (leAt p 0 12)
  let buf (o : Nat) : Buf := { addr := u64 o, len := u32 (o + 8) }
  match op with
  | 0x0101 => some (.identify h (buf 0))
  | 0x0102 => some (.queueCreate h (u8 0) (u8 1) (u8 2) (u8 3) (u8 4) (u64 8) (u64 16))
  | 0x0103 => some (.queueDelete h (u8 0))
  | 0x0104 => some (.jobStatus h (buf 0))
  | 0x0105 => some (.eventRingSet h (u64 0) (u8 8) (u8 9))
  | 0x0106 => some (.jobSeedSet h (u64 0))
  | 0x0107 => some (.moduleReset h (u32 0))
  | 0x0108 => match leAt p 0 1 with
    | 1 => some (.moduleBedEnter h)
    | 0 => some (.moduleBedLeave h)
    | _ => none
  | 0x0109 => some (.fwUpdate h)
  | 0x0201 => some (.memToHost h (u64 0) (u64 8) (u64 16))
  | 0x0202 => some (.memFromHost h (u64 0) (u64 8) (u64 16))
  | 0x0203 => some (.memCopy h (u64 0) (u64 8) (u64 16))
  | 0x0204 => some (.memFill h (u64 0) (u64 8) (u64 16))
  | 0x0210 => match leAt p 0 1 with
    | 0 => some (.treimMapApplyJobStart h)
    | 1 => some (.treimMapApplyRestore h)
    | 2 => some (.treimMapApplyResume h)
    | _ => none
  | 0x0211 => some (.treimRetrain h (u16 0))
  | 0x0220 => some (.plinthApply h (u8 0))
  | 0x0221 => some (.plinthAlloc h (u8 0) (u8 1) (u8 2) (u8 3))
  | 0x0222 => some (.plinthFree h (u8 0) (u8 1) (u8 2) (u8 3))
  | 0x0223 => some (.plinthQuota h (u8 0) (u8 1) (u16 2))
  | 0x0230 => some (.corbelLoad h)
  | 0x0231 => some (.corbelGroupSet h)
  | 0x0232 => some (.corbelResume h)
  | 0x0233 => some (.corbelUnfreeze h)
  | 0x0301 => some (.programLoad h)
  | 0x0302 => some (.tileFence h mask)
  | 0x0303 => some (.tileUnfence h mask)
  | 0x0304 => some (.tileQuery h mask (buf 16))
  | 0x0401 => some (.stepBegin h (u64 0) (u32 8) (u8 12) (u64 16) (u64 24) (u64 32))
  | 0x0402 => some (.stepAbort h (u64 0))
  | 0x0403 => some (.stepQuery h (buf 0))
  | 0x0404 => some (.tensorScale h (u16 0) (u32 4) (u32 8) (u8 12) (u8 13))
  | 0x0405 => some (.stepResume h (u64 0))
  | 0x0406 => some (.jobGroups h)
  | 0x0407 => some (.queueLoad h)
  | 0x0408 => some (.expertTableLoad h)
  | 0x0501 => some (.fabricConfig h)
  | 0x0502 => some (.fabricRouteLoad h)
  | 0x0503 => some (.collSetup h)
  | 0x0504 => some (.collFree h (u16 0))
  | 0x0505 => some (.collRun h (u16 0))
  | 0x0506 => some (.fabricQuery h (buf 0))
  | 0x0507 => some (.collQuery h (u16 0) (buf 8))
  | 0x0601 => some (.exchConfig h)
  | 0x0602 => some (.exchPartners h)
  | 0x0603 => some (.exchWeights h)
  | 0x0604 => some (.exchJoin h)
  | 0x0605 => some (.exchQuery h (buf 0))
  | 0x0606 => some (.exchFetch h)
  | 0x0701 => some (.ckptConfig h)
  | 0x0702 => some (.ckptQuery h (buf 0))
  | 0x0703 => some (.ckptRestore h (u32 0))
  | 0x0704 => match leAt p 0 1 with
    | 0 => some (.replicaRepairNameSource h)
    | 1 => some (.replicaRepairCatchUp h)
    | _ => none
  | 0x0801 => some (.timeEpoch h (u64 0) (u64 8))
  | 0x0802 => some (.timeQuery h (buf 0))
  | 0x0803 => some (.budgetSet h)
  | 0x0804 => some (.timeTimer h (u8 0) (u32 4) (u64 8))
  | 0x0805 => some (.timePathSet h)
  | 0x0901 => some (.secIdentity h (buf 0))
  | 0x0902 => some (.secAttest h (buf 0) (BitVec.ofNat 256 (leAt p 16 32)))
  | 0x0903 => some (.secKeyLoad h)
  | 0x0904 => some (.secKeyClear h (u8 0))
  | 0x0905 => some (.secOwnerEnrol h)
  | 0x0906 => some (.secRollbackSet h)
  | 0x0A01 => some (.countersRead h (u8 0) (u16 1) (buf 8))
  | 0x0A02 => some (.slogRead h (u8 0) (buf 8))
  | 0x0A03 => some (.tensorRead h (u16 0) (u16 2) (buf 8))
  | 0x0A04 => some (.queueStats h (u16 0) (u16 2) (buf 8))
  | 0x0A05 => some (.sensorsRead h (buf 0))
  | 0x0A06 => some (.diagRun h (u16 0) (u64 8))
  | _ => none

/-- The header of a packet (Table 15-3). -/
def packetHeader (queue : BitVec 6) (mctp : Bool) (w : Nat) (pb hostData : List Byte) : CmdHdr :=
  { queue := queue, mctp := mctp, tag := BitVec.ofNat 16 (field w 47 32), notBefore := BitVec.ofNat 64 (field w 127 64)
    fence := flag w 28, quiet := flag w 29, pbDev := flag w 26 && flag w 27
    pbAddr := if flag w 26 then BitVec.ofNat 64 (field w 191 128) else 0, pb := pb
    hostData := hostData }

/-- Steps 1 to 4 of R443 on a packet whose parameter block is `pb`: status and detail of the first failure. -/
def packetError (s : State) (w : Nat) (pb : List Byte) : Option (Nat × Nat) :=
  let op := field w 15 0
  if field w 23 16 ≠ 1 then some (stVersion, 0)
  else match opPb op with
    | none => some (stOpcode, 0)
    | some need =>
      if field w 31 30 ≠ 0 ∨ field w 25 24 ≠ 0 then some (stParameter, 3)
      else if flag w 26 && decide (field w 511 192 ≠ 0) then some (stParameter, 24)
      else if flag w 26 ≠ need then some (stParameter, 3)
      else if need && (decide (field w 63 48 = 0) || decide (64 * field w 63 48 < pbNeed s op pb)) then some (stParameter, 6)
      else none

/-- A device address of a parameter block lies in configured Treim, or in allocated scratchpad of domains 0 to 11. -/
def pbDevOk (s : State) (a n : Nat) : Bool :=
  (pagesOf a n).all (fun p => match classify p with
    | .treim r => decide (regionMode s r ≠ 0)
    | .plinth .. => mayAccess s .host p
    | _ => false)

/-- A fetched packet is checked in the order of R443, and taken up. -/
def takePacket (queue : BitVec 6) (packet : W512) (pb hostData : List Byte) (s : State) : State :=
  let w := packet.toNat
  let op := field w 15 0
  let a := field w 191 128
  let n := 64 * field w 63 48
  let pb := if !flag w 26 then [] else if flag w 27 then bytesAt s a n else slice pb 0 n
  let h := packetHeader queue false w pb hostData
  match packetError s w pb with
  | some (st, d) => badCmd h op st d s
  | none =>
    if tooFar s h then badCmd h op stParameter 8 s
    else if flag w 26 && !flag w 27 && !dmaOk s a n then postReply (replyTo h op s) false stDma 0 (bump s (cHif 0x118))
    else if flag w 26 && flag w 27 && !pbDevOk s a n then postReply (replyTo h op s) false stParameter 16 s
    else match commandAt h op (if flag w 26 then pb else leBytes 48 (w / 2 ^ 128)) with
      | none => postReply (replyTo h op s) false stParameter 0 s
      | some c => enqueue h op (body c) c s

/-- COMMAND_FETCH (R440): the packet at the head of the submission ring; the ring lies in a DMA window. -/
def execCommandFetch (queue : BitVec 6) (packet : W512) (pb hostData : List Byte) (s : State) :
    Host.Outcome State Fault Refusal :=
  .next (
    let q := queue.toNat
    let v := queueOf s q
    if !mayFetch s q || decide (v.sqHead = v.sqTail) then s
    else if !dmaOk s (v.sq + 64 * v.sqHead) 64 then bump s (cHif 0x118)
    else takePacket queue packet pb hostData
      (setQueue s q { v with sqHead := (v.sqHead + 1) % 2 ^ v.log2, unposted := v.unposted + 1 }))

/-- A vendor-defined message carries a command packet; parameter blocks have no place in it. -/
def vendorCommand (vendor : W16) (packet : W512) (s : State) : State :=
  let w := packet.toNat
  let op := field w 15 0
  let h := packetHeader 0 true w [] []
  if !s.pwr.auxOk || decide (vendor.toNat ≠ 0x1F6B) then s
  else match packetError s w [] with
    | some (st, d) => mctpReply h (if (opPb op).isSome && !mctpAllowed op && st ≠ stVersion then stOpcode else st) d [] (bump (bump s (cHif 0x150)) (cHif 0x108))
    | none => match commandAt h op (leBytes 48 (w / 2 ^ 128)) with
      | none => mctpReply h stOpcode 0 [] (bump (bump s (cHif 0x150)) (cHif 0x108))
      | some c => mctpSubmit h op (body c) c s

/-- MCTP_VENDOR_COMMAND. -/
def execMctpVendorCommand (vendor : W16) (packet : W512) (s : State) : Host.Outcome State Fault Refusal :=
  .next (vendorCommand vendor packet s)

/-! ## SMBus (R540) -/

/-- A whole MCTP message goes to what serves its type. -/
def mctpMessage (m : List Byte) (s : State) : State :=
  match leAt m 0 1 % 128 with
  | 0 => mctpControl m s
  | 1 =>
    let ty := leAt m 2 1 % 64
    if !pldmRequest ty m s then s
    else match ty with
      | 0 => pldmBase m s
      | 2 => pldmMonitoring m s
      | 4 => pldmFru m s
      | 5 => pldmFirmware m [] s
      | _ => s
  | 0x7E => vendorCommand (BitVec.ofNat 16 (beAt m 1 2)) (BitVec.ofNat 512 (leAt m 3 64)) s
  | _ => s

/-- A packet's message part joins the message under assembly: a first packet starts it, a last one ends it. -/
def mctpPacket (flags : Nat) (part : List Byte) (s : State) : State :=
  let m := (if flags.testBit 7 then [] else s.pwr.assembly) ++ part
  if flags.testBit 6 then mctpMessage m (setPwr (fun p => { p with assembly := [] }) s)
  else setPwr (fun p => { p with assembly := m }) s

/-- SMBUS_TRANSACTION: the address byte, the MCTP command code and byte count, the packet and its PEC; one that fails
PEC or framing is discarded and counted. -/
def execSmbusTransaction (bytes : List Byte) (s : State) : Host.Outcome State Fault Refusal :=
  .next (
    let n := bytes.length
    if !s.pwr.auxOk || decide (leAt bytes 0 1 ≠ 2 * field s.pwr.straps 6 0) then s
    else if n < 9 ∨ leAt bytes 1 1 ≠ 0x0F ∨ leAt bytes 2 1 + 4 ≠ n ∨ smbusPec (bytes.take (n - 1)) ≠ leAt bytes (n - 1) 1 then
      bump s (cMgt 0x118)
    else mctpPacket (leAt bytes 7 1) ((bytes.take (n - 1)).drop 8) s)

/-! ## The commands as they arrive -/

/-- IDENTIFY. -/
def execIdentify (h : CmdHdr) (buf : Buf) (s : State) : Host.Outcome State Fault Refusal :=
  .next (submit h 0x0101 (kIdentify h buf) (.identify h buf) s)

/-- QUEUE_CREATE. -/
def execQueueCreate (h : CmdHdr) (qid vector coalN coalUs log2Depth : Byte) (sq cq : W64) (s : State) :
    Host.Outcome State Fault Refusal :=
  .next (submit h 0x0102 (kQueueCreate h qid vector coalN coalUs log2Depth sq cq) (.queueCreate h qid vector coalN coalUs log2Depth sq cq) s)

/-- QUEUE_DELETE. -/
def execQueueDelete (h : CmdHdr) (qid : Byte) (s : State) : Host.Outcome State Fault Refusal :=
  .next (submit h 0x0103 (kQueueDelete h qid) (.queueDelete h qid) s)

/-- JOB_STATUS. -/
def execJobStatus (h : CmdHdr) (buf : Buf) (s : State) : Host.Outcome State Fault Refusal :=
  .next (submit h 0x0104 (kJobStatus h buf) (.jobStatus h buf) s)

/-- EVENT_RING_SET. -/
def execEventRingSet (h : CmdHdr) (ring : W64) (log2Depth vector : Byte) (s : State) :
    Host.Outcome State Fault Refusal :=
  .next (submit h 0x0105 (kEventRingSet h ring log2Depth vector) (.eventRingSet h ring log2Depth vector) s)

/-- JOB_SEED_SET. -/
def execJobSeedSet (h : CmdHdr) (seed : W64) (s : State) : Host.Outcome State Fault Refusal :=
  .next (submit h 0x0106 (kJobSeedSet h seed) (.jobSeedSet h seed) s)

/-- MODULE_RESET. -/
def execModuleReset (h : CmdHdr) (confirm : W32) (s : State) : Host.Outcome State Fault Refusal :=
  .next (submit h 0x0107 (kModuleReset h confirm) (.moduleReset h confirm) s)

/-- MODULE_BED_ENTER. -/
def execModuleBedEnter (h : CmdHdr) (s : State) : Host.Outcome State Fault Refusal :=
  .next (submit h 0x0108 (kModuleBedEnter h) (.moduleBedEnter h) s)

/-- MODULE_BED_LEAVE. -/
def execModuleBedLeave (h : CmdHdr) (s : State) : Host.Outcome State Fault Refusal :=
  .next (submit h 0x0108 (kModuleBedLeave h) (.moduleBedLeave h) s)

/-- FW_UPDATE. -/
def execFwUpdate (h : CmdHdr) (s : State) : Host.Outcome State Fault Refusal :=
  .next (submit h 0x0109 (kFwUpdate h) (.fwUpdate h) s)

/-- MEM_TO_HOST. -/
def execMemToHost (h : CmdHdr) (dev host len : W64) (s : State) : Host.Outcome State Fault Refusal :=
  .next (submit h 0x0201 (kMemToHost h dev host len) (.memToHost h dev host len) s)

/-- MEM_FROM_HOST. -/
def execMemFromHost (h : CmdHdr) (host dev len : W64) (s : State) : Host.Outcome State Fault Refusal :=
  .next (submit h 0x0202 (kMemFromHost h host dev len) (.memFromHost h host dev len) s)

/-- MEM_COPY. -/
def execMemCopy (h : CmdHdr) (src dst len : W64) (s : State) : Host.Outcome State Fault Refusal :=
  .next (submit h 0x0203 (kMemCopy h src dst len) (.memCopy h src dst len) s)

/-- MEM_FILL. -/
def execMemFill (h : CmdHdr) (dst len pattern : W64) (s : State) : Host.Outcome State Fault Refusal :=
  .next (submit h 0x0204 (kMemFill h dst len pattern) (.memFill h dst len pattern) s)

/-- TREIM_MAP_APPLY_JOB_START. -/
def execTreimMapApplyJobStart (h : CmdHdr) (s : State) : Host.Outcome State Fault Refusal :=
  .next (submit h 0x0210 (kTreimMapApplyJobStart h) (.treimMapApplyJobStart h) s)

/-- TREIM_MAP_APPLY_RESTORE. -/
def execTreimMapApplyRestore (h : CmdHdr) (s : State) : Host.Outcome State Fault Refusal :=
  .next (submit h 0x0210 (kTreimMapApplyRestore h) (.treimMapApplyRestore h) s)

/-- TREIM_MAP_APPLY_RESUME. -/
def execTreimMapApplyResume (h : CmdHdr) (s : State) : Host.Outcome State Fault Refusal :=
  .next (submit h 0x0210 (kTreimMapApplyResume h) (.treimMapApplyResume h) s)

/-- TREIM_RETRAIN. -/
def execTreimRetrain (h : CmdHdr) (channel : W16) (s : State) : Host.Outcome State Fault Refusal :=
  .next (submit h 0x0211 (kTreimRetrain h channel) (.treimRetrain h channel) s)

/-- PLINTH_APPLY. -/
def execPlinthApply (h : CmdHdr) (pierMask : Byte) (s : State) : Host.Outcome State Fault Refusal :=
  .next (submit h 0x0220 (kPlinthApply h pierMask) (.plinthApply h pierMask) s)

/-- PLINTH_ALLOC. -/
def execPlinthAlloc (h : CmdHdr) (pier domain pages shared : Byte) (s : State) : Host.Outcome State Fault Refusal :=
  .next (submit h 0x0221 (kPlinthAlloc h pier domain pages shared) (.plinthAlloc h pier domain pages shared) s)

/-- PLINTH_FREE. -/
def execPlinthFree (h : CmdHdr) (pier region first pages : Byte) (s : State) : Host.Outcome State Fault Refusal :=
  .next (submit h 0x0222 (kPlinthFree h pier region first pages) (.plinthFree h pier region first pages) s)

/-- PLINTH_QUOTA. -/
def execPlinthQuota (h : CmdHdr) (pierMask domain : Byte) (quota : W16) (s : State) :
    Host.Outcome State Fault Refusal :=
  .next (submit h 0x0223 (kPlinthQuota h pierMask domain quota) (.plinthQuota h pierMask domain quota) s)

/-- CORBEL_LOAD. -/
def execCorbelLoad (h : CmdHdr) (s : State) : Host.Outcome State Fault Refusal :=
  .next (submit h 0x0230 (kCorbelLoad h) (.corbelLoad h) s)

/-- CORBEL_GROUP_SET. -/
def execCorbelGroupSet (h : CmdHdr) (s : State) : Host.Outcome State Fault Refusal :=
  .next (submit h 0x0231 (kCorbelGroupSet h) (.corbelGroupSet h) s)

/-- CORBEL_RESUME. -/
def execCorbelResume (h : CmdHdr) (s : State) : Host.Outcome State Fault Refusal :=
  .next (submit h 0x0232 (kCorbelResume h) (.corbelResume h) s)

/-- CORBEL_UNFREEZE. -/
def execCorbelUnfreeze (h : CmdHdr) (s : State) : Host.Outcome State Fault Refusal :=
  .next (submit h 0x0233 (kCorbelUnfreeze h) (.corbelUnfreeze h) s)

/-- PROGRAM_LOAD. -/
def execProgramLoad (h : CmdHdr) (s : State) : Host.Outcome State Fault Refusal :=
  .next (submit h 0x0301 (kProgramLoadMeasured h) (.programLoad h) s)

/-- TILE_FENCE. -/
def execTileFence (h : CmdHdr) (mask : BitVec 96) (s : State) : Host.Outcome State Fault Refusal :=
  .next (submit h 0x0302 (kTileFence h mask) (.tileFence h mask) s)

/-- TILE_UNFENCE. -/
def execTileUnfence (h : CmdHdr) (mask : BitVec 96) (s : State) : Host.Outcome State Fault Refusal :=
  .next (submit h 0x0303 (kTileUnfence h mask) (.tileUnfence h mask) s)

/-- TILE_QUERY. -/
def execTileQuery (h : CmdHdr) (mask : BitVec 96) (buf : Buf) (s : State) : Host.Outcome State Fault Refusal :=
  .next (submit h 0x0304 (kTileQuery h mask buf) (.tileQuery h mask buf) s)

/-- STEP_BEGIN. -/
def execStepBegin (h : CmdHdr) (step : W64) (salt : W32) (gen : Byte) (tCheck tCommit deadline : W64) (s : State) :
    Host.Outcome State Fault Refusal :=
  .next (submit h 0x0401 (kStepBegin h step salt gen tCheck tCommit deadline) (.stepBegin h step salt gen tCheck tCommit deadline) s)

/-- STEP_ABORT. -/
def execStepAbort (h : CmdHdr) (step : W64) (s : State) : Host.Outcome State Fault Refusal :=
  .next (submit h 0x0402 (kStepAbort h step) (.stepAbort h step) s)

/-- STEP_QUERY. -/
def execStepQuery (h : CmdHdr) (buf : Buf) (s : State) : Host.Outcome State Fault Refusal :=
  .next (submit h 0x0403 (kStepQuery h buf) (.stepQuery h buf) s)

/-- TENSOR_SCALE. -/
def execTensorScale (h : CmdHdr) (tid : W16) (margin hostScale : W32) (depth flags : Byte) (s : State) :
    Host.Outcome State Fault Refusal :=
  .next (submit h 0x0404 (kTensorScale h tid margin hostScale depth flags) (.tensorScale h tid margin hostScale depth flags) s)

/-- STEP_RESUME. -/
def execStepResume (h : CmdHdr) (step : W64) (s : State) : Host.Outcome State Fault Refusal :=
  .next (submit h 0x0405 (kStepResume h step) (.stepResume h step) s)

/-- JOB_GROUPS. -/
def execJobGroups (h : CmdHdr) (s : State) : Host.Outcome State Fault Refusal :=
  .next (submit h 0x0406 (kJobGroups h) (.jobGroups h) s)

/-- QUEUE_LOAD. -/
def execQueueLoad (h : CmdHdr) (s : State) : Host.Outcome State Fault Refusal :=
  .next (submit h 0x0407 (kQueueLoad h) (.queueLoad h) s)

/-- EXPERT_TABLE_LOAD. -/
def execExpertTableLoad (h : CmdHdr) (s : State) : Host.Outcome State Fault Refusal :=
  .next (submit h 0x0408 (kExpertTableLoad h) (.expertTableLoad h) s)

/-- FABRIC_CONFIG. -/
def execFabricConfig (h : CmdHdr) (s : State) : Host.Outcome State Fault Refusal :=
  .next (submit h 0x0501 (kFabricConfig h) (.fabricConfig h) s)

/-- FABRIC_ROUTE_LOAD. -/
def execFabricRouteLoad (h : CmdHdr) (s : State) : Host.Outcome State Fault Refusal :=
  .next (submit h 0x0502 (kFabricRouteLoad h) (.fabricRouteLoad h) s)

/-- COLL_SETUP. -/
def execCollSetup (h : CmdHdr) (s : State) : Host.Outcome State Fault Refusal :=
  .next (submit h 0x0503 (kCollSetup h) (.collSetup h) s)

/-- COLL_FREE. -/
def execCollFree (h : CmdHdr) (handle : W16) (s : State) : Host.Outcome State Fault Refusal :=
  .next (submit h 0x0504 (kCollFree h handle) (.collFree h handle) s)

/-- COLL_RUN. -/
def execCollRun (h : CmdHdr) (handle : W16) (s : State) : Host.Outcome State Fault Refusal :=
  .next (submit h 0x0505 (kCollRun h handle) (.collRun h handle) s)

/-- FABRIC_QUERY. -/
def execFabricQuery (h : CmdHdr) (buf : Buf) (s : State) : Host.Outcome State Fault Refusal :=
  .next (submit h 0x0506 (kFabricQuery h buf) (.fabricQuery h buf) s)

/-- COLL_QUERY. -/
def execCollQuery (h : CmdHdr) (handle : W16) (buf : Buf) (s : State) : Host.Outcome State Fault Refusal :=
  .next (submit h 0x0507 (kCollQuery h handle buf) (.collQuery h handle buf) s)

/-- EXCH_CONFIG. -/
def execExchConfig (h : CmdHdr) (s : State) : Host.Outcome State Fault Refusal :=
  .next (submit h 0x0601 (kExchConfig h) (.exchConfig h) s)

/-- EXCH_PARTNERS. -/
def execExchPartners (h : CmdHdr) (s : State) : Host.Outcome State Fault Refusal :=
  .next (submit h 0x0602 (kExchPartners h) (.exchPartners h) s)

/-- EXCH_WEIGHTS. -/
def execExchWeights (h : CmdHdr) (s : State) : Host.Outcome State Fault Refusal :=
  .next (submit h 0x0603 (kExchWeights h) (.exchWeights h) s)

/-- EXCH_JOIN. -/
def execExchJoin (h : CmdHdr) (s : State) : Host.Outcome State Fault Refusal :=
  .next (submit h 0x0604 (kExchJoin h) (.exchJoin h) s)

/-- EXCH_QUERY. -/
def execExchQuery (h : CmdHdr) (buf : Buf) (s : State) : Host.Outcome State Fault Refusal :=
  .next (submit h 0x0605 (kExchQuery h buf) (.exchQuery h buf) s)

/-- EXCH_FETCH. -/
def execExchFetch (h : CmdHdr) (s : State) : Host.Outcome State Fault Refusal :=
  .next (submit h 0x0606 (kExchFetch h) (.exchFetch h) s)

/-- CKPT_CONFIG. -/
def execCkptConfig (h : CmdHdr) (s : State) : Host.Outcome State Fault Refusal :=
  .next (submit h 0x0701 (kCkptConfig h) (.ckptConfig h) s)

/-- CKPT_QUERY. -/
def execCkptQuery (h : CmdHdr) (buf : Buf) (s : State) : Host.Outcome State Fault Refusal :=
  .next (submit h 0x0702 (kCkptQuery h buf) (.ckptQuery h buf) s)

/-- CKPT_RESTORE. -/
def execCkptRestore (h : CmdHdr) (outer : W32) (s : State) : Host.Outcome State Fault Refusal :=
  .next (submit h 0x0703 (kCkptRestore h outer) (.ckptRestore h outer) s)

/-- REPLICA_REPAIR_NAME_SOURCE. -/
def execReplicaRepairNameSource (h : CmdHdr) (s : State) : Host.Outcome State Fault Refusal :=
  .next (submit h 0x0704 (kReplicaRepairNameSource h) (.replicaRepairNameSource h) s)

/-- REPLICA_REPAIR_CATCH_UP. -/
def execReplicaRepairCatchUp (h : CmdHdr) (s : State) : Host.Outcome State Fault Refusal :=
  .next (submit h 0x0704 (kReplicaRepairCatchUp h) (.replicaRepairCatchUp h) s)

/-- TIME_EPOCH. -/
def execTimeEpoch (h : CmdHdr) (epoch ppsSecond : W64) (s : State) : Host.Outcome State Fault Refusal :=
  .next (submit h 0x0801 (kTimeEpoch h epoch ppsSecond) (.timeEpoch h epoch ppsSecond) s)

/-- TIME_QUERY. -/
def execTimeQuery (h : CmdHdr) (buf : Buf) (s : State) : Host.Outcome State Fault Refusal :=
  .next (submit h 0x0802 (kTimeQuery h buf) (.timeQuery h buf) s)

/-- BUDGET_SET. -/
def execBudgetSet (h : CmdHdr) (s : State) : Host.Outcome State Fault Refusal :=
  .next (submit h 0x0803 (kBudgetSet h) (.budgetSet h) s)

/-- TIME_TIMER. -/
def execTimeTimer (h : CmdHdr) (timer : Byte) (ctl : W32) (expiry : W64) (s : State) :
    Host.Outcome State Fault Refusal :=
  .next (submit h 0x0804 (kTimeTimer h timer ctl expiry) (.timeTimer h timer ctl expiry) s)

/-- TIME_PATH_SET. -/
def execTimePathSet (h : CmdHdr) (s : State) : Host.Outcome State Fault Refusal :=
  .next (submit h 0x0805 (kTimePathSet h) (.timePathSet h) s)

/-- SEC_IDENTITY. -/
def execSecIdentity (h : CmdHdr) (buf : Buf) (s : State) : Host.Outcome State Fault Refusal :=
  .next (submit h 0x0901 (kSecIdentity h buf) (.secIdentity h buf) s)

/-- SEC_ATTEST. -/
def execSecAttest (h : CmdHdr) (buf : Buf) (nonce : BitVec 256) (s : State) : Host.Outcome State Fault Refusal :=
  .next (submit h 0x0902 (kSecAttest h buf nonce) (.secAttest h buf nonce) s)

/-- SEC_KEY_LOAD. -/
def execSecKeyLoad (h : CmdHdr) (s : State) : Host.Outcome State Fault Refusal :=
  .next (submit h 0x0903 (kSecKeyLoad h) (.secKeyLoad h) s)

/-- SEC_KEY_CLEAR. -/
def execSecKeyClear (h : CmdHdr) (slot : Byte) (s : State) : Host.Outcome State Fault Refusal :=
  .next (submit h 0x0904 (kSecKeyClear h slot) (.secKeyClear h slot) s)

/-- SEC_OWNER_ENROL. -/
def execSecOwnerEnrol (h : CmdHdr) (s : State) : Host.Outcome State Fault Refusal :=
  .next (submit h 0x0905 (kSecOwnerEnrol h) (.secOwnerEnrol h) s)

/-- SEC_ROLLBACK_SET. -/
def execSecRollbackSet (h : CmdHdr) (s : State) : Host.Outcome State Fault Refusal :=
  .next (submit h 0x0906 (kSecRollbackSet h) (.secRollbackSet h) s)

/-- COUNTERS_READ. -/
def execCountersRead (h : CmdHdr) (block : Byte) (inst : W16) (buf : Buf) (s : State) :
    Host.Outcome State Fault Refusal :=
  .next (submit h 0x0A01 (kCountersRead h block inst buf) (.countersRead h block inst buf) s)

/-- SLOG_READ. -/
def execSlogRead (h : CmdHdr) (clear : Byte) (buf : Buf) (s : State) : Host.Outcome State Fault Refusal :=
  .next (submit h 0x0A02 (kSlogRead h clear buf) (.slogRead h clear buf) s)

/-- TENSOR_READ. -/
def execTensorRead (h : CmdHdr) (first n : W16) (buf : Buf) (s : State) : Host.Outcome State Fault Refusal :=
  .next (submit h 0x0A03 (kTensorRead h first n buf) (.tensorRead h first n buf) s)

/-- QUEUE_STATS. -/
def execQueueStats (h : CmdHdr) (first n : W16) (buf : Buf) (s : State) : Host.Outcome State Fault Refusal :=
  .next (submit h 0x0A04 (kQueueStats h first n buf) (.queueStats h first n buf) s)

/-- SENSORS_READ. -/
def execSensorsRead (h : CmdHdr) (buf : Buf) (s : State) : Host.Outcome State Fault Refusal :=
  .next (submit h 0x0A05 (kSensorsRead h buf) (.sensorsRead h buf) s)

/-- DIAG_RUN. -/
def execDiagRun (h : CmdHdr) (test : W16) (param : W64) (s : State) : Host.Outcome State Fault Refusal :=
  .next (submit h 0x0A06 (kDiagRun h test param) (.diagRun h test param) s)

end Sys2Proof.Machine
end

