-- ==== Sys2Proof/Machine/Dispatch.lean ====
section
/-!
DEFINITION. The meaning of every command: one arm per constructor of `Instr`, each one direct call.
-/
namespace Sys2Proof.Machine

def exec (i : Instr) (s : State) : Host.Outcome State Fault Refusal :=
  match i with
  | .identify h buf => Sys2Proof.Machine.execIdentify h buf s
  | .queueCreate h qid vector coalN coalUs log2Depth sq cq => Sys2Proof.Machine.execQueueCreate h qid vector coalN coalUs log2Depth sq cq s
  | .queueDelete h qid => Sys2Proof.Machine.execQueueDelete h qid s
  | .jobStatus h buf => Sys2Proof.Machine.execJobStatus h buf s
  | .eventRingSet h ring log2Depth vector => Sys2Proof.Machine.execEventRingSet h ring log2Depth vector s
  | .jobSeedSet h seed => Sys2Proof.Machine.execJobSeedSet h seed s
  | .moduleReset h confirm => Sys2Proof.Machine.execModuleReset h confirm s
  | .moduleBedEnter h => Sys2Proof.Machine.execModuleBedEnter h s
  | .moduleBedLeave h => Sys2Proof.Machine.execModuleBedLeave h s
  | .fwUpdate h => Sys2Proof.Machine.execFwUpdate h s
  | .memToHost h dev host len => Sys2Proof.Machine.execMemToHost h dev host len s
  | .memFromHost h host dev len => Sys2Proof.Machine.execMemFromHost h host dev len s
  | .memCopy h src dst len => Sys2Proof.Machine.execMemCopy h src dst len s
  | .memFill h dst len pattern => Sys2Proof.Machine.execMemFill h dst len pattern s
  | .treimMapApplyJobStart h => Sys2Proof.Machine.execTreimMapApplyJobStart h s
  | .treimMapApplyRestore h => Sys2Proof.Machine.execTreimMapApplyRestore h s
  | .treimMapApplyResume h => Sys2Proof.Machine.execTreimMapApplyResume h s
  | .treimRetrain h channel => Sys2Proof.Machine.execTreimRetrain h channel s
  | .plinthApply h pierMask => Sys2Proof.Machine.execPlinthApply h pierMask s
  | .plinthAlloc h pier domain pages shared => Sys2Proof.Machine.execPlinthAlloc h pier domain pages shared s
  | .plinthFree h pier region first pages => Sys2Proof.Machine.execPlinthFree h pier region first pages s
  | .plinthQuota h pierMask domain quota => Sys2Proof.Machine.execPlinthQuota h pierMask domain quota s
  | .corbelLoad h => Sys2Proof.Machine.execCorbelLoad h s
  | .corbelGroupSet h => Sys2Proof.Machine.execCorbelGroupSet h s
  | .corbelResume h => Sys2Proof.Machine.execCorbelResume h s
  | .corbelUnfreeze h => Sys2Proof.Machine.execCorbelUnfreeze h s
  | .programLoad h => Sys2Proof.Machine.execProgramLoad h s
  | .tileFence h mask => Sys2Proof.Machine.execTileFence h mask s
  | .tileUnfence h mask => Sys2Proof.Machine.execTileUnfence h mask s
  | .tileQuery h mask buf => Sys2Proof.Machine.execTileQuery h mask buf s
  | .stepBegin h step salt gen tCheck tCommit deadline => Sys2Proof.Machine.execStepBegin h step salt gen tCheck tCommit deadline s
  | .stepAbort h step => Sys2Proof.Machine.execStepAbort h step s
  | .stepQuery h buf => Sys2Proof.Machine.execStepQuery h buf s
  | .tensorScale h tid margin hostScale depth flags => Sys2Proof.Machine.execTensorScale h tid margin hostScale depth flags s
  | .stepResume h step => Sys2Proof.Machine.execStepResume h step s
  | .jobGroups h => Sys2Proof.Machine.execJobGroups h s
  | .queueLoad h => Sys2Proof.Machine.execQueueLoad h s
  | .expertTableLoad h => Sys2Proof.Machine.execExpertTableLoad h s
  | .fabricConfig h => Sys2Proof.Machine.execFabricConfig h s
  | .fabricRouteLoad h => Sys2Proof.Machine.execFabricRouteLoad h s
  | .collSetup h => Sys2Proof.Machine.execCollSetup h s
  | .collFree h handle => Sys2Proof.Machine.execCollFree h handle s
  | .collRun h handle => Sys2Proof.Machine.execCollRun h handle s
  | .fabricQuery h buf => Sys2Proof.Machine.execFabricQuery h buf s
  | .collQuery h handle buf => Sys2Proof.Machine.execCollQuery h handle buf s
  | .exchConfig h => Sys2Proof.Machine.execExchConfig h s
  | .exchPartners h => Sys2Proof.Machine.execExchPartners h s
  | .exchWeights h => Sys2Proof.Machine.execExchWeights h s
  | .exchJoin h => Sys2Proof.Machine.execExchJoin h s
  | .exchQuery h buf => Sys2Proof.Machine.execExchQuery h buf s
  | .exchFetch h => Sys2Proof.Machine.execExchFetch h s
  | .ckptConfig h => Sys2Proof.Machine.execCkptConfig h s
  | .ckptQuery h buf => Sys2Proof.Machine.execCkptQuery h buf s
  | .ckptRestore h outer => Sys2Proof.Machine.execCkptRestore h outer s
  | .replicaRepairNameSource h => Sys2Proof.Machine.execReplicaRepairNameSource h s
  | .replicaRepairCatchUp h => Sys2Proof.Machine.execReplicaRepairCatchUp h s
  | .timeEpoch h epoch ppsSecond => Sys2Proof.Machine.execTimeEpoch h epoch ppsSecond s
  | .timeQuery h buf => Sys2Proof.Machine.execTimeQuery h buf s
  | .budgetSet h => Sys2Proof.Machine.execBudgetSet h s
  | .timeTimer h timer ctl expiry => Sys2Proof.Machine.execTimeTimer h timer ctl expiry s
  | .timePathSet h => Sys2Proof.Machine.execTimePathSet h s
  | .secIdentity h buf => Sys2Proof.Machine.execSecIdentity h buf s
  | .secAttest h buf nonce => Sys2Proof.Machine.execSecAttest h buf nonce s
  | .secKeyLoad h => Sys2Proof.Machine.execSecKeyLoad h s
  | .secKeyClear h slot => Sys2Proof.Machine.execSecKeyClear h slot s
  | .secOwnerEnrol h => Sys2Proof.Machine.execSecOwnerEnrol h s
  | .secRollbackSet h => Sys2Proof.Machine.execSecRollbackSet h s
  | .countersRead h block inst buf => Sys2Proof.Machine.execCountersRead h block inst buf s
  | .slogRead h clear buf => Sys2Proof.Machine.execSlogRead h clear buf s
  | .tensorRead h first n buf => Sys2Proof.Machine.execTensorRead h first n buf s
  | .queueStats h first n buf => Sys2Proof.Machine.execQueueStats h first n buf s
  | .sensorsRead h buf => Sys2Proof.Machine.execSensorsRead h buf s
  | .diagRun h test param => Sys2Proof.Machine.execDiagRun h test param s
  | .commandFetch queue packet pb hostData => Sys2Proof.Machine.execCommandFetch queue packet pb hostData s
  | .commandNotBeforeDue queue => Sys2Proof.Machine.execCommandNotBeforeDue queue s
  | .sqTailDoorbell queue value => Sys2Proof.Machine.execSqTailDoorbell queue value s
  | .cqHeadDoorbell queue value => Sys2Proof.Machine.execCqHeadDoorbell queue value s
  | .evHeadDoorbell value => Sys2Proof.Machine.execEvHeadDoorbell value s
  | .hifAqCfgWrite value => Sys2Proof.Machine.execHifAqCfgWrite value s
  | .msixCoalesceTimeout queue => Sys2Proof.Machine.execMsixCoalesceTimeout queue s
  | .hostIfReset => Sys2Proof.Machine.execHostIfReset s
  | .flr => Sys2Proof.Machine.execFlr s
  | .surpriseRemoval => Sys2Proof.Machine.execSurpriseRemoval s
  | .hostLinkUp speed width flit => Sys2Proof.Machine.execHostLinkUp speed width flit s
  | .apertureAccess offset write len data => Sys2Proof.Machine.execApertureAccess offset write len data s
  | .regWindowBadAccess offset write len => Sys2Proof.Machine.execRegWindowBadAccess offset write len s
  | .pciPmD3hot => Sys2Proof.Machine.execPciPmD3hot s
  | .pciPmD0 => Sys2Proof.Machine.execPciPmD0 s
  | .d3hotBedStart => Sys2Proof.Machine.execD3hotBedStart s
  | .regWrite req addr value => Sys2Proof.Machine.execRegWrite req addr value s
  | .regAliasSet req addr value => Sys2Proof.Machine.execRegAliasSet req addr value s
  | .regAliasClear req addr value => Sys2Proof.Machine.execRegAliasClear req addr value s
  | .regAliasToggle req addr value => Sys2Proof.Machine.execRegAliasToggle req addr value s
  | .counterLowRead req addr => Sys2Proof.Machine.execCounterLowRead req addr s
  | .counterLowPeek req addr => Sys2Proof.Machine.execCounterLowPeek req addr s
  | .latchedLowRead req addr => Sys2Proof.Machine.execLatchedLowRead req addr s
  | .rcEventRead req addr => Sys2Proof.Machine.execRcEventRead req addr s
  | .topSnapGo req value => Sys2Proof.Machine.execTopSnapGo req value s
  | .snapshotComplete => Sys2Proof.Machine.execSnapshotComplete s
  | .cfgRefWrite req hi value => Sys2Proof.Machine.execCfgRefWrite req hi value s
  | .cfgCommitCompare req => Sys2Proof.Machine.execCfgCommitCompare req s
  | .cfgCommitAdopt req => Sys2Proof.Machine.execCfgCommitAdopt req s
  | .cfgCrcPassStart => Sys2Proof.Machine.execCfgCrcPassStart s
  | .cfgCrcPassEnd => Sys2Proof.Machine.execCfgCrcPassEnd s
  | .secExtGo req value => Sys2Proof.Machine.execSecExtGo req value s
  | .cipCfgWrite req value => Sys2Proof.Machine.execCipCfgWrite req value s
  | .cipRqTailWrite req value => Sys2Proof.Machine.execCipRqTailWrite req value s
  | .hifJobctlWrite req value => Sys2Proof.Machine.execHifJobctlWrite req value s
  | .hifLockWrite req value => Sys2Proof.Machine.execHifLockWrite req value s
  | .fabLockWrite req value => Sys2Proof.Machine.execFabLockWrite req value s
  | .pwrLockWrite req value => Sys2Proof.Machine.execPwrLockWrite req value s
  | .pwrLimitWrite req value => Sys2Proof.Machine.execPwrLimitWrite req value s
  | .auxPowerOn straps => Sys2Proof.Machine.execAuxPowerOn straps s
  | .coldRstLAssert => Sys2Proof.Machine.execColdRstLAssert s
  | .mrstLAssert => Sys2Proof.Machine.execMrstLAssert s
  | .perstAssert => Sys2Proof.Machine.execPerstAssert s
  | .pwrEnLAssert => Sys2Proof.Machine.execPwrEnLAssert s
  | .pwrEnLDeassert => Sys2Proof.Machine.execPwrEnLDeassert s
  | .prsntLAssert => Sys2Proof.Machine.execPrsntLAssert s
  | .prsntLDeassert => Sys2Proof.Machine.execPrsntLDeassert s
  | .mainInputLow => Sys2Proof.Machine.execMainInputLow s
  | .auxSupplyLow => Sys2Proof.Machine.execAuxSupplyLow s
  | .mainPowerRamp => Sys2Proof.Machine.execMainPowerRamp s
  | .railsGood => Sys2Proof.Machine.execRailsGood s
  | .islandBootComplete puf bits => Sys2Proof.Machine.execIslandBootComplete puf bits s
  | .treimTrainingComplete report => Sys2Proof.Machine.execTreimTrainingComplete report s
  | .selfRefreshEntry stack => Sys2Proof.Machine.execSelfRefreshEntry stack s
  | .locateLChange asserted => Sys2Proof.Machine.execLocateLChange asserted s
  | .powerSample watts volt => Sys2Proof.Machine.execPowerSample watts volt s
  | .dieTempSample die temp => Sys2Proof.Machine.execDieTempSample die temp s
  | .stackTempReport stack die temp => Sys2Proof.Machine.execStackTempReport stack die temp s
  | .stackStopComplete stack => Sys2Proof.Machine.execStackStopComplete stack s
  | .smbusTransaction bytes => Sys2Proof.Machine.execSmbusTransaction bytes s
  | .mctpControlMessage msg => Sys2Proof.Machine.execMctpControlMessage msg s
  | .pldmMonitoringMessage msg => Sys2Proof.Machine.execPldmMonitoringMessage msg s
  | .pldmFruMessage msg => Sys2Proof.Machine.execPldmFruMessage msg s
  | .pldmFwUpdateMessage msg image => Sys2Proof.Machine.execPldmFwUpdateMessage msg image s
  | .mctpVendorCommand vendor packet => Sys2Proof.Machine.execMctpVendorCommand vendor packet s
  | .smbusAlertResponse => Sys2Proof.Machine.execSmbusAlertResponse s
  | .ppsInEdge => Sys2Proof.Machine.execPpsInEdge s
  | .ppsEdgeMissing => Sys2Proof.Machine.execPpsEdgeMissing s
  | .ppsOutPulse => Sys2Proof.Machine.execPpsOutPulse s
  | .ref10mChange present => Sys2Proof.Machine.execRef10mChange present s
  | .tokenArrival token => Sys2Proof.Machine.execTokenArrival token s
  | .creditArrival src credit => Sys2Proof.Machine.execCreditArrival src credit s
  | .taskStart visit => Sys2Proof.Machine.execTaskStart visit s
  | .matrixTaskComplete tile => Sys2Proof.Machine.execMatrixTaskComplete tile s
  | .vectorPassComplete tile => Sys2Proof.Machine.execVectorPassComplete tile s
  | .moveTaskComplete tile => Sys2Proof.Machine.execMoveTaskComplete tile s
  | .sendTaskComplete tile => Sys2Proof.Machine.execSendTaskComplete tile s
  | .stepBeginToken token => Sys2Proof.Machine.execStepBeginToken token s
  | .abortToken token => Sys2Proof.Machine.execAbortToken token s
  | .taskStop tile engine done => Sys2Proof.Machine.execTaskStop tile engine done s
  | .fenceToken token => Sys2Proof.Machine.execFenceToken token s
  | .tileFaultDetect tile cause task => Sys2Proof.Machine.execTileFaultDetect tile cause task s
  | .taskLimitExpiry tile engine => Sys2Proof.Machine.execTaskLimitExpiry tile engine s
  | .nonfiniteSlotToken token => Sys2Proof.Machine.execNonfiniteSlotToken token s
  | .programDoneToken token => Sys2Proof.Machine.execProgramDoneToken token s
  | .taskFaultToken token => Sys2Proof.Machine.execTaskFaultToken token s
  | .fencedToken token => Sys2Proof.Machine.execFencedToken token s
  | .gatherAcquire token => Sys2Proof.Machine.execGatherAcquire token s
  | .gatherRelease token => Sys2Proof.Machine.execGatherRelease token s
  | .gatherFillComplete pier slot data => Sys2Proof.Machine.execGatherFillComplete pier slot data s
  | .queueEntryArrival handle offset len gen data => Sys2Proof.Machine.execQueueEntryArrival handle offset len gen data s
  | .queueCreditReturn src credit => Sys2Proof.Machine.execQueueCreditReturn src credit s
  | .checkWordReady => Sys2Proof.Machine.execCheckWordReady s
  | .tCheckInstant => Sys2Proof.Machine.execTCheckInstant s
  | .checkDecision s0 f hard a lane normNf norm => Sys2Proof.Machine.execCheckDecision s0 f hard a lane normNf norm s
  | .deadlineExpiry => Sys2Proof.Machine.execDeadlineExpiry s
  | .updateStart => Sys2Proof.Machine.execUpdateStart s
  | .weightBlockStart stack shard block => Sys2Proof.Machine.execWeightBlockStart stack shard block s
  | .writeGroupComplete stack shard block => Sys2Proof.Machine.execWriteGroupComplete stack shard block s
  | .groupSumsComplete group sums => Sys2Proof.Machine.execGroupSumsComplete group sums s
  | .updateComplete => Sys2Proof.Machine.execUpdateComplete s
  | .tCommitInstant => Sys2Proof.Machine.execTCommitInstant s
  | .commitCollectiveComplete items => Sys2Proof.Machine.execCommitCollectiveComplete items s
  | .deltaFormationComplete => Sys2Proof.Machine.execDeltaFormationComplete s
  | .deltaEncodeComplete => Sys2Proof.Machine.execDeltaEncodeComplete s
  | .gridAdd stack shard block gen contrib => Sys2Proof.Machine.execGridAdd stack shard block gen contrib s
  | .addI64 addr operand => Sys2Proof.Machine.execAddI64 addr operand s
  | .addF32 addr operand => Sys2Proof.Machine.execAddF32 addr operand s
  | .maxF32 addr operand => Sys2Proof.Machine.execMaxF32 addr operand s
  | .minF32 addr operand => Sys2Proof.Machine.execMinF32 addr operand s
  | .or64 addr operand => Sys2Proof.Machine.execOr64 addr operand s
  | .swap64 addr operand => Sys2Proof.Machine.execSwap64 addr operand s
  | .cas64 addr compare swap => Sys2Proof.Machine.execCas64 addr compare swap s
  | .sqAdd addr operand => Sys2Proof.Machine.execSqAdd addr operand s
  | .linAdd addr operand => Sys2Proof.Machine.execLinAdd addr operand s
  | .partComplete handle => Sys2Proof.Machine.execPartComplete handle s
  | .calibrationInterval channel eyeW eyeH => Sys2Proof.Machine.execCalibrationInterval channel eyeW eyeH s
  | .quietSlot channel eyeW eyeH => Sys2Proof.Machine.execQuietSlot channel eyeW eyeH s
  | .retrainStart channel => Sys2Proof.Machine.execRetrainStart channel s
  | .retrainComplete channel lanes tsvFailed => Sys2Proof.Machine.execRetrainComplete channel lanes tsvFailed s
  | .lostChannelRebuild channel => Sys2Proof.Machine.execLostChannelRebuild channel s
  | .refreshPeriod visit => Sys2Proof.Machine.execRefreshPeriod visit s
  | .patrolScrub stack error => Sys2Proof.Machine.execPatrolScrub stack error s
  | .poolAgeRelease visit => Sys2Proof.Machine.execPoolAgeRelease visit s
  | .timeExchangeSend path => Sys2Proof.Machine.execTimeExchangeSend path s
  | .timeFrameReceive port frame => Sys2Proof.Machine.execTimeFrameReceive port frame s
  | .backupRootTakeover => Sys2Proof.Machine.execBackupRootTakeover s
  | .ptpMessageReceive port domain ptp => Sys2Proof.Machine.execPtpMessageReceive port domain ptp s
  | .ptpMasterLoss => Sys2Proof.Machine.execPtpMasterLoss s
  | .lineTimerExpiry timer => Sys2Proof.Machine.execLineTimerExpiry timer s
  | .budgetPeriodBoundary => Sys2Proof.Machine.execBudgetPeriodBoundary s
  | .writeFrameReceive port frame => Sys2Proof.Machine.execWriteFrameReceive port frame s
  | .contribFrameReceive port frame => Sys2Proof.Machine.execContribFrameReceive port frame s
  | .resultFrameReceive port frame => Sys2Proof.Machine.execResultFrameReceive port frame s
  | .creditFrameReceive port frame => Sys2Proof.Machine.execCreditFrameReceive port frame s
  | .ackFrameReceive port frame => Sys2Proof.Machine.execAckFrameReceive port frame s
  | .nackFrameReceive port frame => Sys2Proof.Machine.execNackFrameReceive port frame s
  | .ctrlExcludeSelf port frame => Sys2Proof.Machine.execCtrlExcludeSelf port frame s
  | .ctrlSlow port frame => Sys2Proof.Machine.execCtrlSlow port frame s
  | .ctrlPartLost port frame => Sys2Proof.Machine.execCtrlPartLost port frame s
  | .ctrlFlowClose port frame => Sys2Proof.Machine.execCtrlFlowClose port frame s
  | .ctrlBuddyCheck port frame => Sys2Proof.Machine.execCtrlBuddyCheck port frame s
  | .pauseFrameReceive port enable times => Sys2Proof.Machine.execPauseFrameReceive port enable times s
  | .pauseWatchdogExpiry port prio => Sys2Proof.Machine.execPauseWatchdogExpiry port prio s
  | .laneFail port lane => Sys2Proof.Machine.execLaneFail port lane s
  | .portTrainingComplete port lanes credits peer => Sys2Proof.Machine.execPortTrainingComplete port lanes credits peer s
  | .linkCreditTimeout port => Sys2Proof.Machine.execLinkCreditTimeout port s
  | .retransmitTimeout dst prio => Sys2Proof.Machine.execRetransmitTimeout dst prio s
  | .flowIdleTimeout dst prio => Sys2Proof.Machine.execFlowIdleTimeout dst prio s
  | .ackTimer src prio => Sys2Proof.Machine.execAckTimer src prio s
  | .unreachableProbe dst => Sys2Proof.Machine.execUnreachableProbe dst s
  | .collectiveStart start => Sys2Proof.Machine.execCollectiveStart start s
  | .waitMaxExpiry handle member => Sys2Proof.Machine.execWaitMaxExpiry handle member s
  | .smallCollWaitExpiry handle missing => Sys2Proof.Machine.execSmallCollWaitExpiry handle missing s
  | .coordinatorTakeover handle => Sys2Proof.Machine.execCoordinatorTakeover handle s
  | .collectiveComplete handle => Sys2Proof.Machine.execCollectiveComplete handle s
  | .windowOpen => Sys2Proof.Machine.execWindowOpen s
  | .windowClose => Sys2Proof.Machine.execWindowClose s
  | .publicationSend => Sys2Proof.Machine.execPublicationSend s
  | .deltaResend => Sys2Proof.Machine.execDeltaResend s
  | .deltaFragmentReceive port src udp => Sys2Proof.Machine.execDeltaFragmentReceive port src udp s
  | .pubFragmentReceive port src udp => Sys2Proof.Machine.execPubFragmentReceive port src udp s
  | .baseFragmentReceive port src udp => Sys2Proof.Machine.execBaseFragmentReceive port src udp s
  | .codebookFragmentReceive port src udp => Sys2Proof.Machine.execCodebookFragmentReceive port src udp s
  | .npxStatusReceive port src udp => Sys2Proof.Machine.execNpxStatusReceive port src udp s
  | .npxFetchReceive port src udp => Sys2Proof.Machine.execNpxFetchReceive port src udp s
  | .npxRebaseReceive port src udp => Sys2Proof.Machine.execNpxRebaseReceive port src udp s
  | .npxCandidateReceive port src udp => Sys2Proof.Machine.execNpxCandidateReceive port src udp s
  | .npxVoteReceive port src udp => Sys2Proof.Machine.execNpxVoteReceive port src udp s
  | .npxNewhomeReceive port src udp => Sys2Proof.Machine.execNpxNewhomeReceive port src udp s
  | .npxAliveReceive port src udp => Sys2Proof.Machine.execNpxAliveReceive port src udp s
  | .npxTimeReceive port src udp => Sys2Proof.Machine.execNpxTimeReceive port src udp s
  | .objectHoldExpiry => Sys2Proof.Machine.execObjectHoldExpiry s
  | .candidacyTimeout => Sys2Proof.Machine.execCandidacyTimeout s
  | .exchBroadcastReceive kind data => Sys2Proof.Machine.execExchBroadcastReceive kind data s
  | .neighborDiscovery port src icmp => Sys2Proof.Machine.execNeighborDiscovery port src icmp s
  | .codebookRetrain family => Sys2Proof.Machine.execCodebookRetrain family s
  | .ckptCopyComplete => Sys2Proof.Machine.execCkptCopyComplete s
  | .ckptPauseRetry => Sys2Proof.Machine.execCkptPauseRetry s
  | .ckptAbandon => Sys2Proof.Machine.execCkptAbandon s
  | .repairComplete stack shard block tables data => Sys2Proof.Machine.execRepairComplete stack shard block tables data s
  | .coreWatchdogTimeout core => Sys2Proof.Machine.execCoreWatchdogTimeout core s
  | .coreEccFault core => Sys2Proof.Machine.execCoreEccFault core s
  | .stickyLogMirror => Sys2Proof.Machine.execStickyLogMirror s
  | .cipXtsEncrypt => Sys2Proof.Machine.execCipXtsEncrypt s
  | .cipXtsDecrypt => Sys2Proof.Machine.execCipXtsDecrypt s
  | .cipGcmSeal => Sys2Proof.Machine.execCipGcmSeal s
  | .cipGcmOpen => Sys2Proof.Machine.execCipGcmOpen s
  | .cipCtxSaveClear => Sys2Proof.Machine.execCipCtxSaveClear s
  | .cipCtxSaveWrapped => Sys2Proof.Machine.execCipCtxSaveWrapped s
  | .cipCtxRestore => Sys2Proof.Machine.execCipCtxRestore s
  | .cipRequestDone index => Sys2Proof.Machine.execCipRequestDone index s
  | .perstDeassert => Sys2Proof.Machine.execPerstDeassert s
  | .mainInputReturn => Sys2Proof.Machine.execMainInputReturn s
  | .pldmBaseMessage msg => Sys2Proof.Machine.execPldmBaseMessage msg s
  | .pauseTimeExpiry port prio => Sys2Proof.Machine.execPauseTimeExpiry port prio s

end Sys2Proof.Machine
end

