-- ==== Sys2Proof/Machine/Packet.lean ====
section
/-!
DEFINITION. Kolelm commands as the packets a host writes (Tables 15-3 and 15-7 to 15-16): the encoder that
COMMAND_FETCH reads back.
-/
namespace Sys2Proof.Machine

/-- A host buffer in a parameter area. -/
def bufBytes (b : Buf) : List Byte := leBytes 8 b.addr.toNat ++ leBytes 4 b.len.toNat

/-- `n` zero bytes of a parameter area. -/
def gap (n : Nat) : List Byte := List.replicate n 0

/-- The inline parameters of a command, from byte 16 of its packet up to the last that it uses. -/
def inlineParams : Instr → List Byte
  | .identify _ b => bufBytes b
  | .queueCreate _ q v n u d sq cq => [q, v, n, u, d] ++ gap 3 ++ leBytes 8 sq.toNat ++ leBytes 8 cq.toNat
  | .queueDelete _ q => [q]
  | .jobStatus _ b => bufBytes b
  | .eventRingSet _ r d v => leBytes 8 r.toNat ++ [d, v]
  | .jobSeedSet _ x => leBytes 8 x.toNat
  | .moduleReset _ c => leBytes 4 c.toNat
  | .moduleBedEnter _ => [1]
  | .moduleBedLeave _ => [0]
  | .memToHost _ d a n => leBytes 8 d.toNat ++ leBytes 8 a.toNat ++ leBytes 8 n.toNat
  | .memFromHost _ a d n => leBytes 8 a.toNat ++ leBytes 8 d.toNat ++ leBytes 8 n.toNat
  | .memCopy _ a d n => leBytes 8 a.toNat ++ leBytes 8 d.toNat ++ leBytes 8 n.toNat
  | .memFill _ d n p => leBytes 8 d.toNat ++ leBytes 8 n.toNat ++ leBytes 8 p.toNat
  | .treimMapApplyJobStart _ => [0]
  | .treimMapApplyRestore _ => [1]
  | .treimMapApplyResume _ => [2]
  | .treimRetrain _ c => leBytes 2 c.toNat
  | .plinthApply _ m => [m]
  | .plinthAlloc _ p d n x => [p, d, n, x]
  | .plinthFree _ p r f n => [p, r, f, n]
  | .plinthQuota _ m d q => [m, d] ++ leBytes 2 q.toNat
  | .tileFence _ m => leBytes 12 m.toNat
  | .tileUnfence _ m => leBytes 12 m.toNat
  | .tileQuery _ m b => leBytes 12 m.toNat ++ gap 4 ++ bufBytes b
  | .stepBegin _ st sa g c m d =>
    leBytes 8 st.toNat ++ leBytes 4 sa.toNat ++ [g] ++ gap 3 ++ leBytes 8 c.toNat ++ leBytes 8 m.toNat ++ leBytes 8 d.toNat
  | .stepAbort _ st => leBytes 8 st.toNat
  | .stepQuery _ b => bufBytes b
  | .tensorScale _ t m x d f => leBytes 2 t.toNat ++ gap 2 ++ leBytes 4 m.toNat ++ leBytes 4 x.toNat ++ [d, f]
  | .stepResume _ st => leBytes 8 st.toNat
  | .collFree _ n => leBytes 2 n.toNat
  | .collRun _ n => leBytes 2 n.toNat
  | .fabricQuery _ b => bufBytes b
  | .collQuery _ n b => leBytes 2 n.toNat ++ gap 6 ++ bufBytes b
  | .exchQuery _ b => bufBytes b
  | .ckptQuery _ b => bufBytes b
  | .ckptRestore _ o => leBytes 4 o.toNat
  | .timeEpoch _ e p => leBytes 8 e.toNat ++ leBytes 8 p.toNat
  | .timeQuery _ b => bufBytes b
  | .timeTimer _ t c e => [t] ++ gap 3 ++ leBytes 4 c.toNat ++ leBytes 8 e.toNat
  | .secIdentity _ b => bufBytes b
  | .secAttest _ b n => bufBytes b ++ gap 4 ++ leBytes 32 n.toNat
  | .secKeyClear _ n => [n]
  | .countersRead _ b i r => [b] ++ leBytes 2 i.toNat ++ gap 5 ++ bufBytes r
  | .slogRead _ c b => [c] ++ gap 7 ++ bufBytes b
  | .tensorRead _ f n b => leBytes 2 f.toNat ++ leBytes 2 n.toNat ++ gap 4 ++ bufBytes b
  | .queueStats _ f n b => leBytes 2 f.toNat ++ leBytes 2 n.toNat ++ gap 4 ++ bufBytes b
  | .sensorsRead _ b => bufBytes b
  | .diagRun _ t p => leBytes 2 t.toNat ++ gap 6 ++ leBytes 8 p.toNat
  | _ => []

/-- The first 16 bytes of a packet: opcode, version 1, flags, TAG, PB_LEN and NOT_BEFORE. -/
def packetHead (h : CmdHdr) (op : Nat) : List Byte :=
  leBytes 2 op ++ [1, BitVec.ofNat 8 (4 * bit (!h.pb.isEmpty) + 8 * bit h.pbDev + 16 * bit h.fence + 32 * bit h.quiet)]
    ++ leBytes 2 h.tag.toNat ++ leBytes 2 (h.pb.length / 64) ++ leBytes 8 h.notBefore.toNat

/-- Bytes 16 to 63 of a packet: the inline parameters, or the address of the parameter block. -/
def paramArea (h : CmdHdr) (i : Instr) : List Byte :=
  slice (if h.pb.isEmpty then inlineParams i else leBytes 8 h.pbAddr.toNat) 0 48

/-- The packet of a command. -/
def packetOf (h : CmdHdr) (op : Nat) (i : Instr) : W512 := BitVec.ofNat 512 (leNat (packetHead h op ++ paramArea h i))

end Sys2Proof.Machine
end

