-- ==== Sys2Proof/WellFormed.lean ====
section
/-!
DEFINITION. Well-formed commands: what the manual's own ranges say of their operands. The meanings are total on every
term; a command outside these ranges is one that nothing outside the module can send.
-/
namespace Sys2Proof

/-- A header: a parameter block is PB_LEN × 64 bytes with PB_LEN at most 65,535 (Table 15-3), and a command of the
management path carries none (R456). -/
def CmdHdr.wf (h : CmdHdr) : Bool :=
  decide (h.pb.length % 64 = 0) && decide (h.pb.length ≤ 64 * 65535) && (!h.mctp || h.pb.isEmpty)

/-- A command with PB = 1 has a block (R443). -/
def CmdHdr.wfPb (h : CmdHdr) : Bool := h.wf && !h.pb.isEmpty
/-- A command with PB = 0 has none, and no address of one. -/
def CmdHdr.wfInline (h : CmdHdr) : Bool := h.wf && h.pb.isEmpty && !h.pbDev && decide (h.pbAddr = 0)
/-- A command whose parameter block names an action in its first byte. -/
def CmdHdr.wfAction (h : CmdHdr) (a : Byte) : Bool := h.wfPb && decide (h.pb.head? = some a)

/-- The requesters are the host and cores 0 to 4 (R469). -/
def Requester.wf : Requester → Bool
  | .host => true
  | .core n => decide (n.toNat < 5)

/-- A register access is of 4 bytes at a multiple of 4 (R434). -/
def regAddrWf (a : BitVec 26) : Bool := decide (a.toNat % 4 = 0)

/-- The module has twelve ports (R332). -/
def portWf (p : BitVec 4) : Bool := decide (p.toNat < 12)
/-- The module has 96 tiles (R1). -/
def tileWf (t : BitVec 7) : Bool := decide (t.toNat < 96)
/-- A native frame is at most 4,154 bytes, its Ethernet header included (R335). -/
def frameWf (f : List Byte) : Bool := decide (f.length ≤ 4154)

/-- The ranges of a command's operands. -/
def Instr.wf : Instr → Bool
  | .fwUpdate h | .corbelLoad h | .corbelGroupSet h | .corbelUnfreeze h | .programLoad h | .jobGroups h | .queueLoad h
  | .expertTableLoad h | .fabricConfig h | .fabricRouteLoad h | .collSetup h | .exchConfig h | .exchPartners h
  | .exchWeights h | .ckptConfig h | .budgetSet h | .timePathSet h
  | .secKeyLoad h | .secOwnerEnrol h | .secRollbackSet h => h.wfPb
  | .replicaRepairNameSource h => h.wfAction 0
  | .replicaRepairCatchUp h => h.wfAction 1
  | .identify h _ | .queueCreate h _ _ _ _ _ _ _ | .queueDelete h _ | .jobStatus h _ | .eventRingSet h _ _ _
  | .jobSeedSet h _ | .moduleReset h _ | .moduleBedEnter h | .moduleBedLeave h | .memToHost h _ _ _ | .memFromHost h _ _ _
  | .memCopy h _ _ _ | .memFill h _ _ _ | .treimMapApplyJobStart h | .treimMapApplyRestore h | .treimMapApplyResume h
  | .treimRetrain h _ | .plinthApply h _ | .plinthAlloc h _ _ _ _ | .plinthFree h _ _ _ _ | .plinthQuota h _ _ _
  | .corbelResume h | .tileFence h _ | .tileUnfence h _ | .tileQuery h _ _ | .stepBegin h _ _ _ _ _ _ | .stepAbort h _
  | .stepQuery h _ | .tensorScale h _ _ _ _ _ | .stepResume h _ | .collFree h _ | .collRun h _ | .fabricQuery h _
  | .collQuery h _ _ | .exchJoin h | .exchQuery h _ | .exchFetch h | .ckptQuery h _ | .ckptRestore h _ | .timeEpoch h _ _
  | .timeQuery h _ | .timeTimer h _ _ _ | .secIdentity h _ | .secAttest h _ _ | .secKeyClear h _ | .countersRead h _ _ _
  | .slogRead h _ _ | .tensorRead h _ _ _ | .queueStats h _ _ _ | .sensorsRead h _ | .diagRun h _ _ => h.wfInline
  | .commandFetch _ _ pb _ => decide (pb.length % 64 = 0) && decide (pb.length ≤ 64 * 65535)
  | .apertureAccess _ w n d => decide (1 ≤ n.toNat) && decide (n.toNat ≤ 64) && (!w || decide (d.length = n.toNat))
  | .regWrite r a _ | .regAliasSet r a _ | .regAliasClear r a _ | .regAliasToggle r a _ => r.wf && regAddrWf a
  | .counterLowRead r a | .counterLowPeek r a | .latchedLowRead r a | .rcEventRead r a => r.wf && regAddrWf a
  | .topSnapGo r _ | .secExtGo r _ | .cipCfgWrite r _ | .cipRqTailWrite r _ | .hifJobctlWrite r _ | .hifLockWrite r _
  | .fabLockWrite r _ | .pwrLockWrite r _ | .pwrLimitWrite r _ => r.wf
  | .cfgRefWrite r _ _ => r.wf
  | .cfgCommitCompare r | .cfgCommitAdopt r => r.wf
  | .dieTempSample d _ => decide (d.toNat < 21)
  | .coreWatchdogTimeout c | .coreEccFault c => decide (c.toNat < 5)
  | .smbusTransaction b => decide (b.length ≤ 259)
  | .taskStart v => tileWf v.tile
  | .matrixTaskComplete t | .vectorPassComplete t | .moveTaskComplete t | .sendTaskComplete t => tileWf t
  | .taskStop t _ _ => tileWf t
  | .tileFaultDetect t _ _ => tileWf t
  | .taskLimitExpiry t _ => tileWf t
  | .timeFrameReceive p f | .writeFrameReceive p f | .resultFrameReceive p f
  | .creditFrameReceive p f | .ackFrameReceive p f | .nackFrameReceive p f | .ctrlExcludeSelf p f | .ctrlSlow p f
  | .ctrlPartLost p f | .ctrlFlowClose p f | .ctrlBuddyCheck p f => portWf p && frameWf f
  | .contribFrameReceive p f => portWf p && frameWf f.bytes
  | .pauseFrameReceive p _ ts => portWf p && decide (ts.length = 8)
  | .pauseWatchdogExpiry p _ | .pauseTimeExpiry p _ => portWf p
  | .laneFail p _ => portWf p
  | .portTrainingComplete p _ _ _ | .linkCreditTimeout p => portWf p
  | .ptpMessageReceive p _ _ => portWf p
  | .deltaFragmentReceive p _ _ | .pubFragmentReceive p _ _ | .baseFragmentReceive p _ _ | .codebookFragmentReceive p _ _
  | .npxStatusReceive p _ _ | .npxFetchReceive p _ _ | .npxRebaseReceive p _ _ | .npxCandidateReceive p _ _
  | .npxVoteReceive p _ _ | .npxNewhomeReceive p _ _ | .npxAliveReceive p _ _ | .npxTimeReceive p _ _
  | .neighborDiscovery p _ _ => portWf p
  | .commandNotBeforeDue .. | .sqTailDoorbell .. | .cqHeadDoorbell .. | .evHeadDoorbell .. | .hifAqCfgWrite ..
  | .msixCoalesceTimeout .. | .hostIfReset | .flr | .surpriseRemoval | .hostLinkUp .. | .regWindowBadAccess ..
  | .pciPmD3hot | .pciPmD0 | .d3hotBedStart | .snapshotComplete | .cfgCrcPassStart | .cfgCrcPassEnd => true
  | .auxPowerOn .. | .coldRstLAssert | .mrstLAssert | .perstAssert | .pwrEnLAssert | .pwrEnLDeassert | .prsntLAssert
  | .prsntLDeassert | .mainInputLow | .auxSupplyLow | .mainPowerRamp | .railsGood | .islandBootComplete ..
  | .treimTrainingComplete .. | .selfRefreshEntry .. | .locateLChange .. | .powerSample .. | .stackTempReport ..
  | .stackStopComplete .. | .mctpControlMessage .. | .pldmMonitoringMessage .. | .pldmFruMessage ..
  | .pldmFwUpdateMessage .. | .mctpVendorCommand .. | .smbusAlertResponse | .ppsInEdge | .ppsEdgeMissing | .ppsOutPulse
  | .ref10mChange .. => true
  | .tokenArrival .. | .creditArrival .. | .stepBeginToken .. | .abortToken .. | .fenceToken .. | .nonfiniteSlotToken ..
  | .programDoneToken .. | .taskFaultToken .. | .fencedToken .. | .gatherAcquire .. | .gatherRelease ..
  | .gatherFillComplete .. | .queueEntryArrival .. | .queueCreditReturn .. => true
  | .checkWordReady | .tCheckInstant | .checkDecision .. | .deadlineExpiry | .updateStart | .weightBlockStart ..
  | .writeGroupComplete .. | .groupSumsComplete .. | .updateComplete | .tCommitInstant | .commitCollectiveComplete ..
  | .deltaFormationComplete | .deltaEncodeComplete => true
  | .gridAdd .. | .addI64 .. | .addF32 .. | .maxF32 .. | .minF32 .. | .or64 .. | .swap64 .. | .cas64 .. | .sqAdd ..
  | .linAdd .. | .partComplete .. => true
  | .calibrationInterval .. | .quietSlot .. | .retrainStart .. | .retrainComplete .. | .lostChannelRebuild ..
  | .refreshPeriod .. | .patrolScrub .. | .poolAgeRelease .. => true
  | .timeExchangeSend .. | .backupRootTakeover | .ptpMasterLoss | .lineTimerExpiry .. | .budgetPeriodBoundary => true
  | .retransmitTimeout .. | .flowIdleTimeout .. | .ackTimer .. | .unreachableProbe .. | .collectiveStart ..
  | .waitMaxExpiry .. | .smallCollWaitExpiry .. | .coordinatorTakeover .. | .collectiveComplete .. => true
  | .windowOpen | .windowClose | .publicationSend | .deltaResend | .objectHoldExpiry | .candidacyTimeout
  | .exchBroadcastReceive .. | .codebookRetrain .. => true
  | .ckptCopyComplete | .ckptPauseRetry | .ckptAbandon | .repairComplete .. | .stickyLogMirror => true
  | .cipXtsEncrypt | .cipXtsDecrypt | .cipGcmSeal | .cipGcmOpen | .cipCtxSaveClear | .cipCtxSaveWrapped | .cipCtxRestore
  | .cipRequestDone .. => true
  | .perstDeassert | .mainInputReturn | .pldmBaseMessage .. => true

end Sys2Proof
end

