-- ==== Sys2Proof/Safety.lean ====
section
/-!
DEFINITION. The terms that claims about the block use: a command that its queue lets begin at once, the state it finds,
the answers it may give, and the invariant of every step.
-/
namespace Sys2Proof.Machine

/-! ## A command that begins -/

/-- The state a fetched command finds: its reply is owed to its queue (R440). -/
def arrived (h : CmdHdr) (s : State) : State :=
  setQueue s h.queue.toNat { queueOf s h.queue.toNat with unposted := (queueOf s h.queue.toNat).unposted + 1 }

/-- The state in which a command's own checks are made: a late begin has been counted (R318). -/
def begun (h : CmdHdr) (op : Nat) (s : State) : State := countLate h op (arrived h s)

/-- A command of a queue begins as soon as it is fetched: the queue is enabled and has room (R440), nothing waits in
front of it, its time has come (R318), no FENCE or STEP_RESUME holds it (R441), and the module as a whole does not
refuse it (R413, R490, R516). -/
abbrev Ready (h : CmdHdr) (op : Nat) (i : Instr) (s : State) : Prop :=
  h.mctp = false ∧ mayFetch s h.queue.toNat = true ∧ tooFar (arrived h s) h = false
    ∧ (queueOf s h.queue.toNat).waiting = [] ∧ queueReady (arrived h s) h op = true ∧ refusal op i (arrived h s) = none

/-- A command has ended in the state `t`, and is answered with a status and a detail (R444). -/
def replied (h : CmdHdr) (op status detail : Nat) (s t : State) : State :=
  postReply (replyTo h op (arrived h s)) false status detail t

/-- A deferred command has been accepted in the state `t`; its answer comes later, and its queue counts it (R441). -/
def accepted (h : CmdHdr) (op : Nat) (s t : State) : State :=
  if replyLive t (replyTo h op (arrived h s)) then
    setQueue t h.queue.toNat { queueOf t h.queue.toNat with deferred := (queueOf t h.queue.toNat).deferred + 1 }
  else t

/-- A result fits the host buffer of its command, and the buffer lies inside the DMA windows (R437, R443). -/
abbrev Fits (s : State) (buf : Buf) (data : List Byte) : Prop :=
  dmaOk s buf.addr.toNat buf.len.toNat = true ∧ data.length ≤ buf.len.toNat

/-- No bit errors stand in the DRAM, the SRAM or a pool, so that no read corrects or poisons a line (R182, R235). -/
abbrev Clean (s : State) : Prop := s.upset = [] ∧ ∀ p, (pierOf s p).pool.all (fun e => e.errs.isEmpty) = true

/-! ## Frames and packets that are taken -/

/-- A native frame for this module that passes the checks of R336 on port `p`: in service, intact end to end, of a known
version, kind, length and job, from another module, and to this one or to all. -/
abbrev Taken (p : Nat) (frame : List Byte) (f : RxFrame) (s : State) : Prop :=
  inService s p = true ∧ portNative s p = true ∧ fcsOk frame = true ∧ parseFrame s p frame = some f
    ∧ e2eCheck f.hdr f.payload = f.check ∧ nhVersion f.hdr = 1 ∧ 1 ≤ nhKind f.hdr ∧ nhKind f.hdr ≤ 8
    ∧ nhLen f.hdr = f.payload.length ∧ nhJob f.hdr = jobId s ∧ (ownFid s = 0xFFFF ∨ nhSrc f.hdr ≠ ownFid s)
    ∧ (nhDst f.hdr = ownFid s ∨ nhDst f.hdr = 0xFFFF)

/-- The state in which a taken frame is acted on: it has been counted, and its plumb digest noted (R336, R367). -/
def counted (p : Nat) (f : RxFrame) (s : State) : State := notePlumb p f (bump s (cFab p 0x108))

/-- A frame of a sequenced flow that is the one its flow expects (R344). -/
abbrev Expected (f : RxFrame) (r : RxFlow) (s : State) : Prop :=
  nhDst f.hdr ≠ 0xFFFF ∧ rxFlow s (nhSrc f.hdr) (nhPrio f.hdr) = some r ∧ nhSeq f.hdr = r.expect

/-- The flow of an expected frame moves on, and is acknowledged at least every 8 frames (R344). -/
def advanced (f : RxFrame) (r : RxFlow) (s : State) : State :=
  let next := (nhSeq f.hdr + 1) % 2 ^ 32
  if r.unackd + 1 < 8 then
    setRx s (nhSrc f.hdr) (nhPrio f.hdr) (some { r with expect := next, unackd := r.unackd + 1, nacked := 0 })
  else sendAck (nhSrc f.hdr) (nhPrio f.hdr) next
    (setRx s (nhSrc f.hdr) (nhPrio f.hdr) (some { r with expect := next, unackd := 0, nacked := 0 }))

/-- A packet of the exchange that is taken on port `p` (R376, R381, R382): it comes from a configured partner, its key
opens it to the body `b`, and its header is of version 1, of this job and for this module. -/
def Opened (p src : Nat) (udp : List Byte) (d : Partner) (b : List Byte) (s : State) : Prop :=
  let h := beAt udp 0 32
  p < 12 ∧ portMode s p = 3 ∧ inService s p = true ∧ s.npx.partners.find? (fun d => decide (d.addr = src)) = some d
    ∧ 1 ≤ ehType h ∧ ehType h ≤ 6 ∧ udp.length = 48 + ehFlen h
    ∧ (∃ key, slotKey s (ehKey h) = some key
      ∧ gcmOpen key (packetNonce h) (udp.take 32) (slice udp 32 (ehFlen h)) (slice udp (32 + ehFlen h) 16) = some b)
    ∧ ehVersion h = 1 ∧ ehJob h = jobId s ∧ ehDstFid h = ownFid s

/-! ## The invariant -/

/-- Device memory is in its canonical form, and every waiting command is one that can be sent. -/
def Inv (s : State) : Prop := Memory.wf s.mem = true ∧ ∀ c ∈ s.pending, c.wf = true

end Sys2Proof.Machine
end

