-- ==== Sys2Proof/Certificates/Slice0/Obligations.lean ====
section
/-!
DEFINITION. The statements about the block, each a proposition.
-/
open Sys2Proof Sys2Proof.Machine

/-! ## The whole block -/

/-- The command at the front of the queue is run on the state with the rest of the queue; on an empty queue line time runs
on (log 4). -/
def Obligations.StepRunsFrontCommand : Prop :=
  (∀ (c : Instr) (rest : List Instr) (s : State), s.pending = c :: rest → step s = exec c { s with pending := rest }) ∧
  (∀ s : State, s.pending = [] → step s = .next (tick s))

/-- Every step answers a next state: no command of the table stops the block. -/
def Obligations.StepAlwaysAnswers : Prop := ∀ s : State, ∃ t, step s = .next t

/-- The state after reset meets the invariant. -/
def Obligations.ResetInvariant : Prop := Inv State.reset

/-- From every state that meets the invariant, every step keeps device memory in its canonical form and every waiting
command well formed, and takes exactly the front command from the queue. -/
def Obligations.StepKeepsInvariant : Prop :=
  ∀ s t : State, Inv s → step s = .next t → Inv t ∧ t.pending = s.pending.tail

/-- R440, R442, R443, Table 15-3. A well-formed command, encoded as the packet and parameter block that a host writes, is
the very command that COMMAND_FETCH reads back and takes up: no operand of the 73 commands is dropped or moved. -/
def Obligations.FetchedPacketRunsItsCommand : Prop :=
  ∀ (i : Instr) (h : CmdHdr) (op : Nat) (s : State),
    let q := h.queue.toNat
    let v := queueOf s q
    let s0 := setQueue s q { v with sqHead := (v.sqHead + 1) % 2 ^ v.log2 }
    let s1 := arrived h s0
    i.wf = true → cmdOf i = some (h, op) → h.mctp = false →
    mayFetch s q = true → v.sqHead ≠ v.sqTail → dmaOk s (v.sq + 64 * v.sqHead) 64 = true → tooFar s1 h = false →
    (h.pb ≠ [] → pbNeed s1 op h.pb ≤ h.pb.length ∧
      (if h.pbDev then pbDevOk s1 h.pbAddr.toNat h.pb.length = true ∧ bytesAt s1 h.pbAddr.toNat h.pb.length = h.pb
       else dmaOk s1 h.pbAddr.toNat h.pb.length = true)) →
    exec (.commandFetch h.queue (packetOf h op i) h.pb h.hostData) s = exec i s0

/-- R443. A command that fails its own checks is answered with its status and changes nothing but counters; a PROGRAM_LOAD
refused for what its images hold has read them. Outside it are failures met in the middle of the work: INTEGRITY, POISON,
and a firmware image that does not verify. -/
def Obligations.RefusedCommandsChangeNothing : Prop :=
  ∀ (i : Instr) (h : CmdHdr) (op : Nat) (s : State),
    let k := body i (begun h op s)
    cmdOf i = some (h, op) → Ready h op i s →
    k.status ≠ 0 → k.status ≠ stIntegrity → k.status ≠ stPoison → (k.status = stSecurity → op ≠ 0x0109) →
    let b := begun h op s
    let read : State := (loadImages (leAt h.pb 16 4) (loadList h.pb) b).2
    ∃ c u, (u = b ∨ op = 0x0301 ∧ u = read) ∧ exec i s = .next (replied h op k.status k.detail s { u with ctr := c })

/-- R413, R490, R516. Commands that the module as a whole refuses: with command processing stopped every one, in recovery
all but IDENTIFY, SEC_IDENTITY and FW_UPDATE, and outside the running power state those that R516 lists. -/
def Obligations.ModuleRefusals : Prop :=
  ∀ (i : Instr) (h : CmdHdr) (op : Nat) (s : State),
    let a := arrived h s
    let refused (st : Nat) : Prop := exec i s = .next (postReply (replyTo h op a) false st 0 a)
    cmdOf i = some (h, op) → h.mctp = false → mayFetch s h.queue.toNat = true → tooFar a h = false →
    (queueOf s h.queue.toNat).waiting = [] → queueReady a h op = true →
    (s.host.fatal = true → refused stFatal) ∧
    (s.host.fatal = false → s.sec.recovery = true → op ≠ 0x0101 → op ≠ 0x0901 → op ≠ 0x0109 → refused stFatal) ∧
    (s.host.fatal = false → s.sec.recovery = false → s.pwr.state ≠ 0 → bedRefused a i = true → refused stBusy)

/-- R279, R429, R453, R495. The refusals of STEP_BEGIN, each with the status the manual names and no change of state: the
conditions are read in the order the model takes them, where the manual gives none (log 53). -/
def Obligations.StepBeginRefusals : Prop :=
  ∀ (h : CmdHdr) (st : W64) (salt : W32) (gen : Byte) (tc tm dl : W64) (s : State),
    let i : Instr := .stepBegin h st salt gen tc tm dl
    let b := begun h 0x0401 s
    let r := b.stp.rc
    let refused (status d : Nat) : Prop := exec i s = .next (replied h 0x0401 status d s b)
    Ready h 0x0401 i s →
    (jobAborted b = true → refused stJobAborted 0) ∧
    (jobAborted b = false → b.pwr.fenced = true → refused stThermal 0) ∧
    (jobAborted b = false → b.pwr.fenced = false →
      (resumePending b = true → refused stResumePending 0) ∧
      (resumePending b = false →
        (r.state ≠ 0 → refused stBusy 0) ∧
        (r.state = 0 →
          (st.toNat ≠ r.step → refused stStepMismatch 0) ∧
          (st.toNat = r.step →
            (flag gen.toNat 0 = r.gen → refused stGenMismatch 0) ∧
            (flag gen.toNat 0 ≠ r.gen →
              ((∃ t ∈ programTiles b, (tileOf b t).isFenced = true) → refused stFault 0) ∧
              ((∀ t ∈ programTiles b, (tileOf b t).isFenced = false) →
                ((b.stp.r = 0 ∨ b.cfg.committed = false) → refused stConfiguration 0) ∧
                (b.stp.r ≠ 0 → b.cfg.committed = true → b.ck.items ≠ [] → (slotKey b 16 = none ∨ slotKey b 17 = none) →
                  refused stConfiguration 0) ∧
                (b.stp.r ≠ 0 → b.cfg.committed = true → (b.ck.items = [] ∨ (slotKey b 16 ≠ none ∧ slotKey b 17 ≠ none)) →
                  (0 < tc.toNat → tc.toNat ≤ h.notBefore.toNat → refused stParameter 16) ∧
                  ((tc.toNat = 0 ∨ h.notBefore.toNat < tc.toNat) →
                    (0 < tm.toNat → tm.toNat ≤ h.notBefore.toNat → refused stParameter 24) ∧
                    ((tm.toNat = 0 ∨ h.notBefore.toNat < tm.toNat) → 0 < dl.toNat → dl.toNat ≤ tc.toNat →
                      refused stParameter 32)))))))))

/-! ## Kolelm commands (Tables 15-7 to 15-16): where each completes with its own effect -/

/-- Table 15-7. A ready management command with good parameters is answered with SUCCESS and has its effect; MODULE_RESET
posts its reply before the reset begins. -/
def Obligations.ManagementCommandsComplete : Prop :=
  (∀ (h : CmdHdr) (buf : Buf) (s : State), Ready h 0x0101 (.identify h buf) s →
    let b := begun h 0x0101 s
    let data := identityData (field b.pwr.straps 6 0)
    Fits b buf data →
    exec (.identify h buf) s = .next (replied h 0x0101 0 data.length s (hostWrite buf.addr.toNat data b))) ∧
  (∀ (h : CmdHdr) (qid vector coalN coalUs log2Depth : Byte) (sq cq : W64) (s : State),
    Ready h 0x0102 (.queueCreate h qid vector coalN coalUs log2Depth sq cq) s →
    let b := begun h 0x0102 s
    let n := log2Depth.toNat
    1 ≤ n → n ≤ 16 → 1 ≤ qid.toNat → qid.toNat ≤ 63 → vector.toNat ≤ 127 → sq.toNat % 64 = 0 → cq.toNat % 16 = 0 →
    dmaOk b sq.toNat (64 * 2 ^ n) = true → dmaOk b cq.toNat (16 * 2 ^ n) = true → (queueOf b qid.toNat).enabled = false →
    exec (.queueCreate h qid vector coalN coalUs log2Depth sq cq) s = .next (replied h 0x0102 0 0 s
      (setQueue { b with host := { b.host with lives := b.host.lives + 1 } } qid.toNat
        { Queue.none with enabled := true, life := b.host.lives + 1, log2 := n, vector := vector.toNat
                          coalN := coalN.toNat, coalUs := coalUs.toNat, sq := sq.toNat, cq := cq.toNat }))) ∧
  (∀ (h : CmdHdr) (qid : Byte) (s : State), Ready h 0x0103 (.queueDelete h qid) s →
    let b := begun h 0x0103 s
    1 ≤ qid.toNat → qid.toNat ≤ 63 → (queueOf b qid.toNat).enabled = true → (queueOf b qid.toNat).deferred = 0 →
    (queueOf b qid.toNat).waiting = [] → b.stp.resumeReply = none →
    exec (.queueDelete h qid) s = .next (replied h 0x0103 0 0 s (setQueue b qid.toNat Queue.none))) ∧
  (∀ (h : CmdHdr) (buf : Buf) (s : State), Ready h 0x0104 (.jobStatus h buf) s →
    let b := begun h 0x0104 s
    let data := jobStatusRecord (ltuStatus b) b ++ dropLogBytes b
    Fits b buf data →
    exec (.jobStatus h buf) s = .next (replied h 0x0104 0 data.length s
      (let w := hostWrite buf.addr.toNat data b; { w with host := { w.host with dropLog := [] } }))) ∧
  (∀ (h : CmdHdr) (ring : W64) (log2Depth vector : Byte) (s : State), Ready h 0x0105 (.eventRingSet h ring log2Depth vector) s →
    let b := begun h 0x0105 s
    let n := log2Depth.toNat
    1 ≤ n → n ≤ 16 → vector.toNat ≤ 127 → ring.toNat % 16 = 0 → dmaOk b ring.toNat (16 * 2 ^ n) = true →
    exec (.eventRingSet h ring log2Depth vector) s = .next (replied h 0x0105 0 0 s { b with host := { b.host with ring :=
      { set := true, addr := ring.toNat, log2 := n, vector := vector.toNat, head := 0, put := 0, phase := true
        used := 0, lost := 0 } } })) ∧
  (∀ (h : CmdHdr) (seed : W64) (s : State), Ready h 0x0106 (.jobSeedSet h seed) s →
    let b := begun h 0x0106 s
    stepActive b = false →
    exec (.jobSeedSet h seed) s = .next (replied h 0x0106 0 0 s { b with host := { b.host with jobSeed := seed.toNat } })) ∧
  (∀ (h : CmdHdr) (s : State), Ready h 0x0107 (.moduleReset h 0xC0DE0001) s →
    let b := begun h 0x0107 s
    exec (.moduleReset h 0xC0DE0001) s = .next (moduleReset 8 (postReply (replyTo h 0x0107 b) false 0 0 b))) ∧
  (∀ (h : CmdHdr) (s : State), Ready h 0x0108 (.moduleBedEnter h) s →
    let b := begun h 0x0108 s
    stepActive b = false → resumePending b = false → b.pwr.state = 0 →
    exec (.moduleBedEnter h) s = .next (replied h 0x0108 0 0 s (enterBed b))) ∧
  (∀ (h : CmdHdr) (s : State), Ready h 0x0108 (.moduleBedLeave h) s →
    let b := begun h 0x0108 s
    b.pwr.state = 2 →
    exec (.moduleBedLeave h) s = .next (replied h 0x0108 0 0 s (setPwr (fun p => { p with state := 3 }) b))) ∧
  (∀ (h : CmdHdr) (t : State) (slot : Nat) (s : State), Ready h 0x0109 (.fwUpdate h) s →
    let b := begun h 0x0109 s
    let len := leAt h.pb 8 4
    b.host.fwBusy = false → len ≤ 96 * 2 ^ 20 → dmaOk b (leAt h.pb 0 8) len = true →
    installImage (slice h.hostData 0 len) (leAt h.pb 12 1 % 2 = 1) b = (t, slot, true) →
    exec (.fwUpdate h) s = .next (replied h 0x0109 0 slot s t))

/-- Table 15-8, R448. A ready move with good ranges and length moves its bytes, and its reply counts the poisoned lines. -/
def Obligations.MoveCommandsComplete : Prop :=
  (∀ (h : CmdHdr) (dev host len : W64) (s : State), Ready h 0x0201 (.memToHost h dev host len) s →
    let b := begun h 0x0201 s
    let n := len.toNat
    dmaOk b host.toNat n = true → moveLenOk n = true → moveRangeOk b true dev.toNat n = true →
    let r := moveRead dev.toNat n b
    exec (.memToHost h dev host len) s = .next (replied h 0x0201 (if r.1.poison = 0 then 0 else 0x11) r.1.poison s
      (hostWrite host.toNat r.1.data r.2))) ∧
  (∀ (h : CmdHdr) (host dev len : W64) (s : State), Ready h 0x0202 (.memFromHost h host dev len) s →
    let b := begun h 0x0202 s
    let n := len.toNat
    dmaOk b host.toNat n = true → moveLenOk n = true → moveRangeOk b false dev.toNat n = true →
    (stepActive b && touchesStackLocal b dev.toNat n) = false →
    exec (.memFromHost h host dev len) s = .next (replied h 0x0202 0 0 s
      (writeTo .host 12 dev.toNat (slice h.hostData 0 n) b))) ∧
  (∀ (h : CmdHdr) (src dst len : W64) (s : State), Ready h 0x0203 (.memCopy h src dst len) s →
    let b := begun h 0x0203 s
    let n := len.toNat
    moveLenOk n = true → moveRangeOk b true src.toNat n = true → moveRangeOk b false dst.toNat n = true →
    (stepActive b && touchesStackLocal b dst.toNat n) = false →
    let r := moveRead src.toNat n b
    exec (.memCopy h src dst len) s = .next (replied h 0x0203 (if r.1.poison = 0 then 0 else 0x11) r.1.poison s
      (writeTo .host 12 dst.toNat r.1.data r.2))) ∧
  (∀ (h : CmdHdr) (dst len pattern : W64) (s : State), Ready h 0x0204 (.memFill h dst len pattern) s →
    let b := begun h 0x0204 s
    let n := len.toNat
    moveLenOk n = true → moveRangeOk b false dst.toNat n = true → (stepActive b && touchesStackLocal b dst.toNat n) = false →
    exec (.memFill h dst len pattern) s = .next (replied h 0x0204 0 0 s
      (writeTo .host 12 dst.toNat (List.replicate (n / 8) (leBytes 8 pattern.toNat)).flatten b)))

/-- Table 15-8. A ready command of the Treim memory and of the plinth memory whose checks pass has its effect. -/
def Obligations.PlacementCommandsComplete : Prop :=
  (∀ (h : CmdHdr) (p : Placing) (s : State), Ready h 0x0210 (.treimMapApplyJobStart h) s →
    let b := begun h 0x0210 s
    stepActive b = false → placement (dropLost b) = .inr p →
    exec (.treimMapApplyJobStart h) s = .next (replied h 0x0210 0 0 s
      (let t := installPlacement p (zeroTreim (dropLost b)); { t with cbl := { t.cbl with placed := 1 } }))) ∧
  (∀ (h : CmdHdr) (p : Placing) (s : State), Ready h 0x0210 (.treimMapApplyRestore h) s →
    let b := begun h 0x0210 s
    stepActive b = false → placement (dropLost b) = .inr p →
    exec (.treimMapApplyRestore h) s = .next (replied h 0x0210 0 0 s
      (let t := installPlacement p (zeroTreim (dropLost b))
       let lost := (List.range 8).foldl (fun a k => a + (if (stackOf t k).contentLost then 2 ^ k else 0)) 0
       let t := liftFence lost { t with stackTab := t.stackTab.map (fun q => (q.1, { q.2 with contentLost := false })) }
       { t with cbl := { t.cbl with placed := 2 } }))) ∧
  (∀ (h : CmdHdr) (p : Placing) (s : State), Ready h 0x0210 (.treimMapApplyResume h) s →
    let b := begun h 0x0210 s
    stepActive b = false → placement b = .inr p →
    (∀ k ∈ List.range 8, (stackOf b k).contentLost = false ∧ loadLe b (fwAddr k 0) 8 = placementCrc b) →
    exec (.treimMapApplyResume h) s = .next (replied h 0x0210 0 0 s
      (let t := installPlacement p b; { t with cbl := { t.cbl with placed := 3 } }))) ∧
  (∀ (h : CmdHdr) (channel : W16) (s : State), Ready h 0x0211 (.treimRetrain h channel) s →
    let b := begun h 0x0211 s
    let g := channel.toNat
    g ≤ 1023 → chanLost b (g / 128) (g % 128) = false →
    exec (.treimRetrain h channel) s = .next (replied h 0x0211 0 0 s
      (requestRetrain g (max (nsOf b) h.notBefore.toNat) b))) ∧
  (∀ (h : CmdHdr) (pierMask : Byte) (s : State), Ready h 0x0220 (.plinthApply h pierMask) s →
    let b := begun h 0x0220 s
    pierMask.toNat ≤ 15 → stepActive b = false → (maskBits 4 pierMask.toNat).any (applyRefused b) = false →
    exec (.plinthApply h pierMask) s = .next (replied h 0x0220 0 0 s
      ((maskBits 4 pierMask.toNat).foldl (fun s p => applyModes p s) b))) ∧
  (∀ (h : CmdHdr) (pier domain pages shared : Byte) (s : State), Ready h 0x0221 (.plinthAlloc h pier domain pages shared) s →
    let b := begun h 0x0221 s
    let (p, d, n) := (pier.toNat, domain.toNat, pages.toNat)
    p ≤ 3 → d ≤ 11 → 1 ≤ n → n ≤ 64 → shared.toNat ≤ 1 → pageUse b p d + n ≤ quotaOf b p d → freeRuns b p n ≠ [] →
    let r := pickRun (freeRuns b p n) b
    exec (.plinthAlloc h pier domain pages shared) s = .next (replied h 0x0221 0 (r.1 / 64 * 2 ^ 8 + r.1 % 64) s
      (takePages p r.1 n d (shared.toNat = 1) r.2))) ∧
  (∀ (h : CmdHdr) (pier region first pages : Byte) (s : State), Ready h 0x0222 (.plinthFree h pier region first pages) s →
    let b := begun h 0x0222 s
    let (p, r, g, n) := (pier.toNat, region.toNat, first.toNat, pages.toNat)
    p ≤ 3 → r ≤ 46 → 1 ≤ n → g + n ≤ 64 →
    (∀ i ∈ List.range n, 1 ≤ (pageHolder b p r (g + i)).1 ∧ (pageHolder b p r (g + i)).1 ≤ 12) →
    runBound b p (r * 64 + g) n = false →
    exec (.plinthFree h pier region first pages) s = .next (replied h 0x0222 0 0 s (freePages p (r * 64 + g) n b))) ∧
  (∀ (h : CmdHdr) (pierMask domain : Byte) (quota : W16) (s : State), Ready h 0x0223 (.plinthQuota h pierMask domain quota) s →
    let b := begun h 0x0223 s
    pierMask.toNat ≤ 15 → domain.toNat ≤ 14 → quota.toNat ≤ 3072 →
    exec (.plinthQuota h pierMask domain quota) s = .next (replied h 0x0223 0 0 s
      ((maskBits 4 pierMask.toNat).foldl (fun s p =>
        setReg s (plnBase + 0x4000 * p + 0x100 + 4 * domain.toNat) quota.toNat) b)))

/-- Table 15-8, R254, R255, R263, R267. A ready command of the corbel units whose checks pass has its effect. -/
def Obligations.CorbelCommandsComplete : Prop :=
  (∀ (h : CmdHdr) (s : State), Ready h 0x0230 (.corbelLoad h) s →
    let b := begun h 0x0230 s
    let init := leAt h.pb 1 1
    stepActive b = false → init ≤ 1 → ¬(init = 1 ∧ resumePending b = true) →
    corbelLoadFail b (leAt h.pb 0 1) (loadGroups h.pb) (loadShards h.pb) = none →
    exec (.corbelLoad h) s = .next (replied h 0x0230 0 0 s
      ((loadShards h.pb).foldl (fun s p => shardInstall init p.2 s) (corbelClear (leAt h.pb 0 1) (loadGroups h.pb) b)))) ∧
  (∀ (h : CmdHdr) (s : State), Ready h 0x0231 (.corbelGroupSet h) s →
    let b := begun h 0x0231 s
    leAt h.pb 0 1 = 0 → leAt h.pb 1 1 = 0 → leAt h.pb 4 4 = 0 →
    (∀ g ∈ loadGroups h.pb, g.1 < 1024 ∧ (groupOf b (g.1 % 1024)).isSome = true) →
    exec (.corbelGroupSet h) s = .next (replied h 0x0231 0 0 s
      ((loadGroups h.pb).foldl (fun s g => modGroup g.1 (fun r => { r with next := some g.2.2 }) s) b))) ∧
  (∀ (h : CmdHdr) (rerun torn : Nat) (t s : State), Ready h 0x0232 (.corbelResume h) s →
    let b := begun h 0x0232 s
    b.pwr.fenced = false → b.stp.rc.state = 0 → resumeMissing b = none → resumeMemory b = (rerun, torn, t) →
    t.stp.rc.state = 0 →
    exec (.corbelResume h) s = .next (replied h 0x0232 0 (min rerun 0xFFFF * 2 ^ 16 + min torn 0xFFFF) s
      (setStp (fun p => { p with resumed := true }) t))) ∧
  (∀ (h : CmdHdr) (rerun torn : Nat) (t s : State), Ready h 0x0232 (.corbelResume h) s →
    let b := begun h 0x0232 s
    let u := setStp (fun p => { p with resumed := true }) t
    b.pwr.fenced = false → b.stp.rc.state = 6 → resumeMissing b = none → resumeMemory b = (rerun, torn, t) →
    t.stp.rc.state = 6 →
    exec (.corbelResume h) s = .next (replied h 0x0232 0 (min rerun 0xFFFF * 2 ^ 16 + min torn 0xFFFF) s
      (if t.stp.rc.staged then finishCommit u
       else if unformedGroups u = [] ∨ t.stp.rc.decision = 0 then writeRecord { u.stp.rc with state := 7 } u
       else setStp (fun p => { p with updRun := true }) u))) ∧
  (∀ (h : CmdHdr) (s : State), Ready h 0x0233 (.corbelUnfreeze h) s →
    let b := begun h 0x0233 s
    let gs := (List.range (leAt h.pb 0 4)).map (fun i => leAt h.pb (64 + 2 * i) 2)
    (∀ g ∈ gs, g < 1024 ∧ (groupOf b g).isSome = true) →
    exec (.corbelUnfreeze h) s = .next (replied h 0x0233 0 0 s
      (gs.foldl (fun s g => modGroup g (fun r => { r with unfreeze := true }) s) b)))

/-- Table 15-9, R101, R108, R116, R449, R450, R496. A ready tile command whose checks pass has its effect; a program load
takes its images, its programs and its gather descriptors together, and is measured. -/
def Obligations.TileCommandsComplete : Prop :=
  (∀ (h : CmdHdr) (t0 : Nat) (ts : List Nat) (parts : List LoadPart) (u s : State), Ready h 0x0301 (.programLoad h) s →
    let b := begun h 0x0301 s
    let l := leAt h.pb 16 4
    stepActive b = false → leAt h.pb 12 1 ≤ 11 → l % 64 = 0 → maskBits 96 (leAt h.pb 0 12) = t0 :: ts →
    loadImages l (loadList h.pb) b = (.inr parts, u) → gatherOk u (t0 / 24) t0 (loadGathers h.pb) = true →
    exec (.programLoad h) s = .next (replied h 0x0301 0 0 s (measureImages (loadedImages h.pb b)
      (programInstall (leAt h.pb 12 1) l (t0 :: ts) parts (loadGathers h.pb) t0 (placeImages l parts u))))) ∧
  (∀ (h : CmdHdr) (mask : BitVec 96) (s : State), Ready h 0x0302 (.tileFence h mask) s →
    let b := begun h 0x0302 s
    exec (.tileFence h mask) s = .next (replied h 0x0302 0 0 s
      ((maskBits 96 mask.toNat).foldl (fun u t => sendToken t 0 2 0x6D (genOf u) 3 u) b))) ∧
  (∀ (h : CmdHdr) (mask : BitVec 96) (s : State), Ready h 0x0303 (.tileUnfence h mask) s →
    let b := begun h 0x0303 s
    stepActive b = false →
    let r := (maskBits 96 mask.toNat).foldl (fun (a : Nat × State) t =>
      (a.1 + bit (unfenceTile t a.2).1, (unfenceTile t a.2).2)) (0, b)
    exec (.tileUnfence h mask) s = .next (replied h 0x0303 0 r.1 s r.2)) ∧
  (∀ (h : CmdHdr) (mask : BitVec 96) (buf : Buf) (s : State), Ready h 0x0304 (.tileQuery h mask buf) s →
    let b := begun h 0x0304 s
    let data := (maskBits 96 mask.toNat).flatMap (fun t => leBytes 4 (tilStatus b t) ++ leBytes 4 (tilFault b t))
    Fits b buf data →
    exec (.tileQuery h mask buf) s = .next (replied h 0x0304 0 data.length s (hostWrite buf.addr.toNat data b)))

/-- Table 15-11, R59, R276, R278, R280, R286, R292, R294, R302. A ready step command whose checks pass has its effect:
STEP_BEGIN and STEP_RESUME are answered at the step's end. -/
def Obligations.StepCommandsComplete : Prop :=
  (∀ (h : CmdHdr) (st : W64) (salt : W32) (gen : Byte) (tCheck tCommit deadline : W64) (s : State),
    Ready h 0x0401 (.stepBegin h st salt gen tCheck tCommit deadline) s →
    let b := begun h 0x0401 s
    stepBeginRefusal b h.notBefore.toNat st.toNat gen.toNat tCheck.toNat tCommit.toNat deadline.toNat = none →
    exec (.stepBegin h st salt gen tCheck tCommit deadline) s = .next (accepted h 0x0401 s
      (stepBegun h salt gen tCheck tCommit deadline b))) ∧
  (∀ (h : CmdHdr) (st : W64) (s : State), Ready h 0x0402 (.stepAbort h st) s →
    let b := begun h 0x0402 s
    (b.stp.rc.state = 1 ∨ b.stp.rc.state = 2 ∨ b.stp.rc.state = 5) → st.toNat = b.stp.rc.step →
    exec (.stepAbort h st) s = .next (replied h 0x0402 0 0 s (abortStep false b))) ∧
  (∀ (h : CmdHdr) (buf : Buf) (s : State), Ready h 0x0403 (.stepQuery h buf) s →
    let b := begun h 0x0403 s
    let data := stepRecordImage b.stp.rc ++ leBytes 4 (topStepState b) ++ leBytes 4 b.stp.endWord
    Fits b buf data →
    exec (.stepQuery h buf) s = .next (replied h 0x0403 0 data.length s (hostWrite buf.addr.toNat data b))) ∧
  (∀ (h : CmdHdr) (tid : W16) (margin hostScale : W32) (depth flags : Byte) (s : State),
    Ready h 0x0404 (.tensorScale h tid margin hostScale depth flags) s →
    let b := begun h 0x0404 s
    marginOk margin.toNat = true → (flag flags.toNat 0 = true → posNormal hostScale.toNat = true) → depth.toNat ≤ 63 →
    exec (.tensorScale h tid margin hostScale depth flags) s = .next (replied h 0x0404 0 0 s
      (setTensor b tid.toNat { tensorOf b tid.toNat with
        next := some (margin.toNat, hostScale.toNat, depth.toNat, flags.toNat % 8) }))) ∧
  (∀ (h : CmdHdr) (st : W64) (s : State), Ready h 0x0405 (.stepResume h st) s →
    let b := begun h 0x0405 s
    jobAborted b = false → b.stp.rc.state = 7 → st.toNat = b.stp.rc.step → b.stp.r ≠ 0 →
    exec (.stepResume h st) s = .next (
      let t := setStp (fun p => { p with
        resumeReply := some (replyTo h 0x0405 b), resumed := true, tCommit := 0 }) b
      joinCommit (writeRecord { t.stp.rc with state := 4 } t))) ∧
  (∀ (h : CmdHdr) (s : State), Ready h 0x0406 (.jobGroups h) s →
    let b := begun h 0x0406 s
    let (r, q, own) := (leAt h.pb 0 4, leAt h.pb 4 4, leAt h.pb 8 4)
    let ms := (List.range (r * q)).map (fun i => leAt h.pb (64 + 2 * i) 2)
    stepActive b = false → r ≠ 0 → q ≠ 0 → r * q ≤ 65535 → own < r * q → ms.getD own 0xFFFF = ownFid b →
    (∀ m ∈ ms, m ≠ 0xFFFF ∧ (ms.filter (· = m)).length ≤ 1) →
    exec (.jobGroups h) s = .next (replied h 0x0406 0 0 s
      { b with stp := { b.stp with r := r, q := q, own_ := own, members := ms } })) ∧
  (∀ (h : CmdHdr) (s : State), Ready h 0x0407 (.queueLoad h) s →
    let b := begun h 0x0407 s
    let ds := queueDescs h.pb
    stepActive b = false → (∀ p ∈ ds, queueDescBad b ds p = false) → queueSlotsOk b ds = true →
    exec (.queueLoad h) s = .next (replied h 0x0407 0 0 s { b with stp := { b.stp with queues := ds.foldl (fun m p =>
      sput none m (field p.2 255 240) (some { desc := p.2, occ := 0, high := 0, fills := 0 })) [] } })) ∧
  (∀ (h : CmdHdr) (s : State), Ready h 0x0408 (.expertTableLoad h) s →
    let b := begun h 0x0408 s
    let es := (List.range (leAt h.pb 0 4)).map (fun i => leAt h.pb (64 + 4 * i) 4)
    stepActive b = false → 1 ≤ leAt h.pb 0 4 → leAt h.pb 0 4 ≤ 4096 →
    (∀ e ∈ es, field e 31 16 ≠ 0xFFFF ∧ b.stp.members.contains (field e 31 16) = true ∧ field e 15 12 = 0
      ∧ (es.filter (· = e)).length ≤ 1) →
    exec (.expertTableLoad h) s = .next (replied h 0x0408 0 0 s { b with stp := { b.stp with expert := es } }))

/-- Table 15-12, R332, R339, R352, R355. A ready command of the fabric or of a collective whose checks pass has its
effect; COLL_RUN is answered at the run's completion. -/
def Obligations.FabricCommandsComplete : Prop :=
  (∀ (h : CmdHdr) (s : State), Ready h 0x0501 (.fabricConfig h) s →
    let b := begun h 0x0501 s
    let cfg := leAt h.pb 0 4 / 16 * 16
    stepActive b = false → field cfg 14 10 ≠ 0 → 4 ≤ field cfg 9 4 → ckptAreaOk b (leAt h.pb 16 4) = true →
    exec (.fabricConfig h) s = .next (replied h 0x0501 0 0 s (fabricInstall h.pb b))) ∧
  (∀ (h : CmdHdr) (s : State), Ready h 0x0502 (.fabricRouteLoad h) s →
    let b := begun h 0x0502 s
    leAt h.pb 0 2 + leAt h.pb 4 4 ≤ 65536 → 64 + 2 * leAt h.pb 4 4 ≤ h.pb.length →
    exec (.fabricRouteLoad h) s = .next (replied h 0x0502 0 0 s (routesInstall h.pb b))) ∧
  (∀ (h : CmdHdr) (s : State), Ready h 0x0503 (.collSetup h) s →
    let b := begun h 0x0503 s
    let hd := leAt h.pb 0 64
    let c := collLists b hd h.pb
    1 ≤ hdHandle hd → hdHandle hd < 0xFFF0 → (stepActive b = true → hdTOff hd = 0xFFFFFFFF) →
    handleOf b (hdHandle hd) = none → queueDesc b (hdHandle hd) = none → collFault b c = none →
    b.fab.handles.length + b.stp.queues.length < 4096 →
    exec (.collSetup h) s = .next (replied h 0x0503 0 0 s (setHandle (hdHandle hd) (some c) b))) ∧
  (∀ (h : CmdHdr) (handle : W16) (c : Handle) (s : State), Ready h 0x0504 (.collFree h handle) s →
    let b := begun h 0x0504 s
    handleOf b handle.toNat = some c → c.run = none →
    exec (.collFree h handle) s = .next (replied h 0x0504 0 0 s (setHandle handle.toNat none b))) ∧
  (∀ (h : CmdHdr) (handle : W16) (c : Handle) (s : State), Ready h 0x0505 (.collRun h handle) s →
    let b := begun h 0x0505 s
    handleOf b handle.toNat = some c → hdTOff c.header = 0xFFFFFFFF → c.run = none →
    exec (.collRun h handle) s = .next (accepted h 0x0505 s (setHandle handle.toNat (some { c with
      run := some { Run.begin h.notBefore.toNat (some (replyTo h 0x0505 b)) with
        held := c.early }
      early := [] }) b))) ∧
  (∀ (h : CmdHdr) (buf : Buf) (s : State), Ready h 0x0506 (.fabricQuery h buf) s →
    let b := begun h 0x0506 s
    let data := fabricRecord b
    Fits b buf data →
    exec (.fabricQuery h buf) s = .next (replied h 0x0506 0 data.length s (hostWrite buf.addr.toNat data b))) ∧
  (∀ (h : CmdHdr) (handle : W16) (buf : Buf) (c : Handle) (s : State), Ready h 0x0507 (.collQuery h handle buf) s →
    let b := begun h 0x0507 s
    let data := collRecord c
    handleOf b handle.toNat = some c → Fits b buf data →
    exec (.collQuery h handle buf) s = .next (replied h 0x0507 0 data.length s (hostWrite buf.addr.toNat data b)))

/-- Table 15-13, R376, R390, R403, R404. A ready command of the exchange whose checks pass has its effect; EXCH_JOIN is
answered when the base is applied. -/
def Obligations.ExchangeCommandsComplete : Prop :=
  (∀ (h : CmdHdr) (s : State), Ready h 0x0601 (.exchConfig h) s →
    let b := begun h 0x0601 s
    stepActive b = false → exchBad h.pb = none →
    exec (.exchConfig h) s = .next (replied h 0x0601 0 0 s (exchInstall h.pb b))) ∧
  (∀ (h : CmdHdr) (s : State), Ready h 0x0602 (.exchPartners h) s →
    let b := begun h 0x0602 s
    let n := leAt h.pb 0 4
    flag (getReg b (fabBase + 0x14)) 0 = false → stepActive b = false → n ≤ 4096 → 64 + 32 * n ≤ h.pb.length →
    exec (.exchPartners h) s = .next (replied h 0x0602 0 0 s
      { b with npx := { b.npx with partners := (List.range n).map (fun i =>
        let e := slice h.pb (64 + 32 * i) 32
        { site := leAt e 0 1 % 64, replica := leAt e 2 2, fid := leAt e 4 2, addr := beAt e 16 16 }) } })) ∧
  (∀ (h : CmdHdr) (s : State), Ready h 0x0603 (.exchWeights h) s →
    let b := begun h 0x0603 s
    let n := leAt h.pb 0 1
    stepActive b = false → 1 ≤ n → n ≤ 16 →
    exec (.exchWeights h) s = .next (replied h 0x0603 0 0 s
      { b with npx := { b.npx with weights := (List.range n).map (fun i => leAt h.pb (64 + 4 * i) 4) } })) ∧
  (∀ (h : CmdHdr) (s : State), Ready h 0x0604 (.exchJoin h) s →
    let b := begun h 0x0604 s
    b.npx.configured = true → b.npx.state ≠ 4 →
    exec (.exchJoin h) s = .next (accepted h 0x0604 s (joinBegun (replyTo h 0x0604 b) b))) ∧
  (∀ (h : CmdHdr) (buf : Buf) (s : State), Ready h 0x0605 (.exchQuery h buf) s →
    let b := begun h 0x0605 s
    let data := exchRecord b
    Fits b buf data →
    exec (.exchQuery h buf) s = .next (replied h 0x0605 0 data.length s (hostWrite buf.addr.toNat data b))) ∧
  (∀ (h : CmdHdr) (s : State), Ready h 0x0606 (.exchFetch h) s →
    let b := begun h 0x0606 s
    b.npx.configured = true →
    exec (.exchFetch h) s = .next (replied h 0x0606 0 0 s (fullFetch b)))

/-- Table 15-14, R419, R422, R426. A ready command of checkpoints and repairs whose checks pass has its effect. -/
def Obligations.CheckpointCommandsComplete : Prop :=
  (∀ (h : CmdHdr) (s : State), Ready h 0x0701 (.ckptConfig h) s →
    let b := begun h 0x0701 s
    let n := leAt h.pb 0 2
    let items := (List.range n).map (fun i => leAt h.pb (64 + 16 * i) 16)
    stepActive b = false → 1 ≤ n → n ≤ 251 → leAt h.pb 2 2 ≤ 3600 →
    (∀ e ∈ items, 1 ≤ ciKind e ∧ ciKind e ≤ 5 ∧ ciSect e ≠ 0) →
    (∀ p ∈ allShards b, shardCovered items p.1 p.2.2.desc = true) → fwCovered b items = true → b.fab.buddy = 1 →
    4096 * slotSectors items ≤ b.fab.area / 2 →
    exec (.ckptConfig h) s = .next (replied h 0x0701 0 (slotSectors items) s
      { b with ck := { b.ck with items := assignFirst items, holdS := leAt h.pb 2 2 } })) ∧
  (∀ (h : CmdHdr) (buf : Buf) (s : State), Ready h 0x0702 (.ckptQuery h buf) s →
    let b := begun h 0x0702 s
    let data := ckptRecord b
    Fits b buf data →
    exec (.ckptQuery h buf) s = .next (replied h 0x0702 0 data.length s (hostWrite buf.addr.toNat data b))) ∧
  (∀ (h : CmdHdr) (outer : W32) (datas : List (Nat × List Byte)) (s : State), Ready h 0x0703 (.ckptRestore h outer) s →
    let b := begun h 0x0703 s
    let w := leAt h.hostData 0 64
    stepActive b = false → b.pwr.fenced = false → field w 511 504 = 1 → field w 479 448 = jobId b →
    field w 495 480 = ownFid b → field w 447 416 = outer.toNat → openSlot b h.hostData = some datas →
    printsGood (slotRestored datas b) = true →
    exec (.ckptRestore h outer) s = .next (replied h 0x0703 0 0 s (restoreEnded w (slotRestored datas b)))) ∧
  (∀ (h : CmdHdr) (s : State), Ready h 0x0704 (.replicaRepairNameSource h) s →
    let b := begun h 0x0704 s
    let rep := leAt h.pb 2 2
    let l := repairList h
    stepActive b = false → rep < b.stp.r → (∀ p ∈ l, (shardOf b p.1 p.2).isSome = true) →
    exec (.replicaRepairNameSource h) s = .next (replied h 0x0704 0 0 s { b with ck := { b.ck with
      named := l.foldl (fun m p => sput none m (shardKey p.1 p.2) (some rep)) b.ck.named } })) ∧
  (∀ (h : CmdHdr) (r : StepRec) (s : State), Ready h 0x0704 (.replicaRepairCatchUp h) s →
    let b := begun h 0x0704 s
    let l := repairList h
    let blocks := (l.map (fun p => ((shardOf b p.1 p.2).map (fun sh => sdPrints sh.desc)).getD 0)).foldl (· + ·) 0
    let a := catchUpShards l h.hostData b
    stepActive b = false → b.stp.rc.outcome = 7 → (∀ p ∈ l, (shardOf b p.1 p.2).isSome = true) →
    readRecord (slice a.1 0 64) = some r →
    exec (.replicaRepairCatchUp h) s = .next (replied h 0x0704 0 blocks s
      (bumpN (catchUpRecords l r (a.1.drop 64) a.2) (cFault 7) (blocks - l.length))))

/-- Table 15-15, R306, R312, R316, R319, R327. A ready command of line time and budgets whose checks pass has its effect;
BUDGET_SET is answered at the boundary that applies it. -/
def Obligations.TimeCommandsComplete : Prop :=
  (∀ (h : CmdHdr) (epoch ppsSecond : W64) (s : State), Ready h 0x0801 (.timeEpoch h epoch ppsSecond) s →
    let b := begun h 0x0801 s
    let t := touchCfg (setReg (setReg b (ltuBase + 8) (epoch.toNat % 2 ^ 32)) (ltuBase + 0xC) (epoch.toNat / 2 ^ 32))
    stepActive b = false →
    exec (.timeEpoch h epoch ppsSecond) s = .next (replied h 0x0801 0 0 s
      (if timeSource t ≠ 2 then t
       else { t with tm := { t.tm with
        ppsName := some (ppsSecond.toNat, h.notBefore.toNat), ppsNext := none, ppsMiss := 0 } }))) ∧
  (∀ (h : CmdHdr) (buf : Buf) (s : State), Ready h 0x0802 (.timeQuery h buf) s →
    let b := begun h 0x0802 s
    let data := timeRecord b
    Fits b buf data →
    exec (.timeQuery h buf) s = .next (replied h 0x0802 0 data.length s (hostWrite buf.addr.toNat data b))) ∧
  (∀ (h : CmdHdr) (s : State), Ready h 0x0803 (.budgetSet h) s →
    let b := begun h 0x0803 s
    b.bud.pending = none → budgetOk (budgetWords h.pb) = true →
    exec (.budgetSet h) s = .next (accepted h 0x0803 s { b with bud := { b.bud with
      pending := some (budgetWords h.pb, leAt h.pb 0x200 3, h.notBefore.toNat, replyTo h 0x0803 b) } })) ∧
  (∀ (h : CmdHdr) (timer : Byte) (ctl : W32) (expiry : W64) (s : State), Ready h 0x0804 (.timeTimer h timer ctl expiry) s →
    let b := begun h 0x0804 s
    let n := timer.toNat
    n ≤ 7 →
    exec (.timeTimer h timer ctl expiry) s = .next (replied h 0x0804 0 0 s (timerArmed n
      (setReg (setReg (setReg b (tmrReg n + 4) (expiry.toNat % 2 ^ 32)) (tmrReg n + 8) (expiry.toNat / 2 ^ 32))
        (tmrReg n) (ctl.toNat / 2 ^ 17 * 2 ^ 17))))) ∧
  (∀ (h : CmdHdr) (s : State), Ready h 0x0805 (.timePathSet h) s →
    exec (.timePathSet h) s = .next (replied h 0x0805 0 0 s (pathsInstall h.pb (begun h 0x0805 s))))

/-- Table 15-16, R483, R489, R492 to R497. A ready command of the security island whose checks pass has its effect. -/
def Obligations.SecurityCommandsComplete : Prop :=
  (∀ (h : CmdHdr) (buf : Buf) (s : State), Ready h 0x0901 (.secIdentity h buf) s →
    let b := begun h 0x0901 s
    let data := identityBundle b
    Fits b buf data →
    exec (.secIdentity h buf) s = .next (replied h 0x0901 0 data.length s (hostWrite buf.addr.toNat data b))) ∧
  (∀ (h : CmdHdr) (buf : Buf) (nonce : BitVec 256) (s : State), Ready h 0x0902 (.secAttest h buf nonce) s →
    let b := begun h 0x0902 s
    let body := attestBody b (leBytes 32 nonce.toNat)
    let data := body ++ slice (Config.sign 0 body) 0 2420
    Fits b buf data →
    exec (.secAttest h buf nonce) s = .next (replied h 0x0902 0 2996 s
      (bump (hostWrite buf.addr.toNat data b) (cSec 0x110)))) ∧
  (∀ (h : CmdHdr) (key : List Byte) (s : State), Ready h 0x0903 (.secKeyLoad h) s →
    let b := begun h 0x0903 s
    let (slot, kind) := (leAt h.pb 0 1, leAt h.pb 1 1)
    let blob := slice h.pb 64 3604
    slotInUse b slot = false → leAt h.pb 4 4 = 3604 → openBlob b slot kind blob = some key →
    exec (.secKeyLoad h) s = .next (replied h 0x0903 0 0 s (keyInstall slot kind key blob b))) ∧
  (∀ (h : CmdHdr) (slot : Byte) (s : State), Ready h 0x0904 (.secKeyClear h slot) s →
    let b := begun h 0x0904 s
    slot.toNat ≤ 17 → slotInUse b slot.toNat = false →
    exec (.secKeyClear h slot) s = .next (replied h 0x0904 0 0 s
      { b with sec := { b.sec with slots := sput none b.sec.slots slot.toNat none } })) ∧
  (∀ (h : CmdHdr) (s : State), Ready h 0x0905 (.secOwnerEnrol h) s →
    let b := begun h 0x0905 s
    let r := slice h.pb 64 3772
    stepActive b = false → ownerOk b (leAt h.pb 0 4) r = true →
    exec (.secOwnerEnrol h) s = .next (replied h 0x0905 0 0 s { b with sec := { b.sec with
      owner := if flag (leAt r 2 2) 1 then none else some r, rpaCnt := b.sec.rpaCnt + 1 } })) ∧
  (∀ (h : CmdHdr) (s : State), Ready h 0x0906 (.secRollbackSet h) s →
    let b := begun h 0x0906 s
    let r := slice h.pb 64 2456
    rollbackOk b r = true →
    exec (.secRollbackSet h) s = .next (replied h 0x0906 0 0 s
      { b with sec := { b.sec with minSvn := leAt r 32 2, rpaCnt := b.sec.rpaCnt + 1 } }))

/-- Table 15-16, R67, R299, R415, R471. A ready telemetry command whose result fits delivers it and clears what it reads. -/
def Obligations.TelemetryCommandsComplete : Prop :=
  (∀ (h : CmdHdr) (block : Byte) (inst : W16) (buf : Buf) (name base pages : Nat) (s : State),
    Ready h 0x0A01 (.countersRead h block inst buf) s →
    let b := begun h 0x0A01 s
    regBlocks[block.toNat]? = some (name, base, pages) → inst.toNat < pages → b.host.snapBusy = false →
    let m := snapPage (base / 0x4000 + inst.toNat) b
    let data := (List.range 1024).flatMap (fun i => leBytes 4 (sget 0 m.1 (4 * i)))
    Fits b buf data →
    exec (.countersRead h block inst buf) s = .next (replied h 0x0A01 0 data.length s
      (let w := hostWrite buf.addr.toNat data b
       { w with ctr := m.2.ctr, regs := m.2.regs, host := { w.host with snap := m.1, snapDone := true } }))) ∧
  (∀ (h : CmdHdr) (clear : Byte) (buf : Buf) (s : State), Ready h 0x0A02 (.slogRead h clear buf) s →
    let b := begun h 0x0A02 s
    let rs := b.slog.first ++ b.slog.ring
    Fits b buf (rs.flatMap (leBytes 32)) →
    exec (.slogRead h clear buf) s = .next (replied h 0x0A02 0 rs.length s
      (let w := hostWrite buf.addr.toNat (rs.flatMap (leBytes 32)) b
       if clear.toNat = 1 then { w with slog := { w.slog with first := [], ring := [] } } else w))) ∧
  (∀ (h : CmdHdr) (first n : W16) (buf : Buf) (s : State), Ready h 0x0A03 (.tensorRead h first n buf) s →
    let b := begun h 0x0A03 s
    let ids := ((List.range n.toNat).map (fun i => first.toNat + i)).filter (· < 65536)
    let data := ids.flatMap (fun i =>
      let t := tensorOf b i
      leBytes 16 (scaleRecord t) ++ leBytes 8 t.satCnt ++ leBytes 8 t.nfCnt ++ leBytes 8 t.crushCnt)
    Fits b buf data →
    exec (.tensorRead h first n buf) s = .next (replied h 0x0A03 0 data.length s
      (ids.foldl (fun u i => setTensor u i { tensorOf u i with satCnt := 0, nfCnt := 0, crushCnt := 0 })
        (hostWrite buf.addr.toNat data b)))) ∧
  (∀ (h : CmdHdr) (first n : W16) (buf : Buf) (s : State), Ready h 0x0A04 (.queueStats h first n buf) s →
    let b := begun h 0x0A04 s
    let qs := b.stp.queues.filter (fun e => decide (first.toNat ≤ e.1) && decide (e.1 < first.toNat + n.toNat))
    let data := qs.flatMap (fun e => (e.2.map (fun q => leBytes 2 e.1 ++ leBytes 6 q.high ++ leBytes 8 q.fills)).getD [])
    Fits b buf data →
    exec (.queueStats h first n buf) s = .next (replied h 0x0A04 0 data.length s
      (qs.foldl (fun u e => (e.2.map (fun q => setStageQueue e.1 { q with high := 0, fills := 0 } u)).getD u)
        (hostWrite buf.addr.toNat data b)))) ∧
  (∀ (h : CmdHdr) (buf : Buf) (s : State), Ready h 0x0A05 (.sensorsRead h buf) s →
    let b := begun h 0x0A05 s
    let data := sensorData b
    Fits b buf data →
    exec (.sensorsRead h buf) s = .next (replied h 0x0A05 0 data.length s (hostWrite buf.addr.toNat data b))) ∧
  (∀ (h : CmdHdr) (test : W16) (param : W64) (s : State), Ready h 0x0A06 (.diagRun h test param) s →
    let b := begun h 0x0A06 s
    stepActive b = false →
    exec (.diagRun h test param) s = .next (replied h 0x0A06 0 (free32 b).1 s (free32 b).2))

/-- R438 to R440, R318, Tables 15-1 and 15-2. What the queues of the host interface do: the submission ring is fetched in
order, a waiting command begins, doorbells move the rings on or stop the queue, and a coalesced interrupt is sent. -/
def Obligations.HostQueueEvents : Prop :=
  (∀ (queue : BitVec 6) (packet : W512) (pb hostData : List Byte) (s : State),
    let v := queueOf s queue.toNat
    mayFetch s queue.toNat = true → v.sqHead ≠ v.sqTail → dmaOk s (v.sq + 64 * v.sqHead) 64 = true →
    exec (.commandFetch queue packet pb hostData) s = .next (takePacket queue packet pb hostData
      (setQueue s queue.toNat { v with sqHead := (v.sqHead + 1) % 2 ^ v.log2, unposted := v.unposted + 1 }))) ∧
  (∀ (queue : BitVec 6) (h : CmdHdr) (op : Nat) (c : Instr) (s : State),
    s.pwr.stage = 5 → s.host.orphans = [] → (queueOf s queue.toNat).waiting = [c] → cmdOf c = some (h, op) →
    queueReady s h op = true → s.host.d3hot = false →
    exec (.commandNotBeforeDue queue) s = .next (beginCmd h op (body c) c
      (setQueue s queue.toNat { queueOf s queue.toNat with waiting := [] }))) ∧
  (∀ (queue : BitVec 6) (value : W32) (s : State),
    let v := queueOf s queue.toNat
    v.enabled = true → v.err = false → value.toNat < 2 ^ v.log2 →
    exec (.sqTailDoorbell queue value) s = .next (setQueue s queue.toNat { v with sqTail := value.toNat })) ∧
  (∀ (queue : BitVec 6) (value : W32) (s : State),
    let v := queueOf s queue.toNat
    let released := (value.toNat + 2 ^ v.log2 - v.cqHead) % 2 ^ v.log2
    v.enabled = true → v.err = false → value.toNat < 2 ^ v.log2 → released ≤ v.used →
    exec (.cqHeadDoorbell queue value) s =
      .next (setQueue s queue.toNat { v with
        cqHead := value.toNat, used := v.used - released, unsignalled := min v.unsignalled (v.used - released) })) ∧
  (∀ (queue : BitVec 6) (value : W32) (s : State),
    let v := queueOf s queue.toNat
    v.enabled = true → v.err = false → 2 ^ v.log2 ≤ value.toNat →
    exec (.sqTailDoorbell queue value) s = .next (queueError queue.toNat s) ∧
      exec (.cqHeadDoorbell queue value) s = .next (queueError queue.toNat s)) ∧
  (∀ (value : W32) (s : State),
    let r := s.host.ring
    let released := (value.toNat + 2 ^ r.log2 - r.head) % 2 ^ r.log2
    r.set = true → value.toNat < 2 ^ r.log2 →
    exec (.evHeadDoorbell value) s = .next (eventSpace
      { s with host := { s.host with ring := { r with head := value.toNat, used := r.used - released } } })) ∧
  (∀ (queue : BitVec 6) (s : State),
    let v := queueOf s queue.toNat
    v.enabled = true → s.host.d3hot = false → 0 < v.unsignalled → v.since + v.coalUs * 1000 ≤ nsOf s →
    exec (.msixCoalesceTimeout queue) s = .next (signal v.vector (setQueue s queue.toNat { v with unsignalled := 0 })))

/-- R434, R435, R451, R453 to R455, R514, R517, Tables 15-1 and 18-9. What the link of the host does: resets of the
interface, training, the two windows, and the power states of the function. -/
def Obligations.HostLinkEvents : Prop :=
  (∀ (s : State), exec .hostIfReset s = .next (hostInterfaceReset true s)) ∧
  (∀ (s : State), flag (getReg s (hifBase + 4)) 31 = false →
    exec .flr s = .next (bump (hostInterfaceReset false s) (cHif 0x130))) ∧
  (∀ (s : State), flag (getReg s (hifBase + 4)) 31 = true →
    exec .flr s = .next (abortStep false
      (setRegField (bump (hostInterfaceReset false s) (cHif 0x130)) (hifBase + 4) 30 30 1))) ∧
  (∀ (s : State), exec .surpriseRemoval s =
    .next { hostInterfaceReset true s with host := { (hostInterfaceReset true s).host with training := false } }) ∧
  (∀ (speed : BitVec 2) (width : BitVec 5) (flit : Bool) (s : State),
    speed.toNat ≠ 3 → (width.toNat = 8 ∨ width.toNat = 16 ∧ s.pwr.straps.testBit 11 = true) → 3 ≤ s.pwr.stage →
    s.pwr.perst = false →
    exec (.hostLinkUp speed width flit) s = .next { s with host := { s.host with
      linkUp := true, training := false, speed := speed.toNat, width := width.toNat
      flit := flit || decide (speed.toNat = 2) } }) ∧
  (∀ (offset : BitVec 30) (write : Bool) (len : BitVec 7) (data : List Byte) (s : State),
    let a := 0x008000000000 + offset.toNat
    1 ≤ len.toNat → offset.toNat % 64 + len.toNat ≤ 64 →
    exec (.apertureAccess offset write len data) s = .next (
      if write then writeTo .host 12 a (slice data 0 len.toNat) s
      else
        let r := readDev .host 12 a len.toNat s
        emit (.apertureRead r.1.data (decide (0 < r.1.poison))) r.2)) ∧
  (∀ (offset : BitVec 26) (len : Byte) (s : State),
    exec (.regWindowBadAccess offset true len) s = .next (bump s (cHif 0x120)) ∧
    exec (.regWindowBadAccess offset false len) s = .next (emit (.readValue .host offset.toNat 0) (bump s (cHif 0x120)))) ∧
  (∀ (s : State), s.host.d3hot = false → powered s = true →
    (flag (getReg s (pwrBase + 8)) 31 = false ∨ s.pwr.state ≠ 0) →
    exec .pciPmD3hot s = .next (bump { s with host := { s.host with d3hot := true } } (cPwr 0x130))) ∧
  (∀ (s : State), s.host.d3hot = false → s.pwr.stage = 5 → flag (getReg s (pwrBase + 8)) 31 = true → s.pwr.state = 0 →
    s.stp.rc.state = 0 →
    exec .pciPmD3hot s = .next (enterBed (bump { s with host := { s.host with d3hot := true } } (cPwr 0x130)))) ∧
  (∀ (s : State), s.host.d3hot = true → s.host.held = [] → s.host.heldEvents = [] →
    exec .pciPmD0 s = .next { s with
      host := { s.host with d3hot := false, bedWait := false }
      pwr := { s.pwr with state := if s.pwr.state = 1 ∨ s.pwr.state = 2 then 3 else s.pwr.state } }) ∧
  (∀ (s : State), s.host.d3hot = true → s.host.bedWait = true → flag (getReg s (pwrBase + 8)) 31 = true →
    s.stp.rc.state = 0 → s.pwr.state = 0 → s.pwr.stage = 5 →
    exec .d3hotBedStart s = .next (enterBed { s with host := { s.host with bedWait := false } }))

/-- R13. Every counter saturates at 2^48 − 1, a read of its low register clears both halves, and the read of the high
register that follows returns the upper 16 bits of the value that was read. -/
def Obligations.CountersSaturateAndClear : Prop :=
  (∀ (s : State) (a n : Nat), counter (bumpN s a n) a = min (counter s a + n) (2 ^ 48 - 1) ∧
    (∀ b, b ≠ a → counter (bumpN s a n) b = counter s b)) ∧
  (∀ (req : Requester) (addr : BitVec 26) (d : RegDef) (s : State),
    let a := addr.toNat
    powered s = true → aliasOf a = 0 → pageAddr a = a → regAt a = some d → d.cls = .ctr → ctrLow a = a → ctrLow (a + 4) = a →
    (∃ e, regAt (a + 4) = some e ∧ e.cls = .ctr) →
    pageAddr (a + 4) = a + 4 → a + 4 < 2 ^ 26 →
    ∃ t, exec (.counterLowRead req addr) s = .next t ∧ t.out = .readValue req a (counter s a % 2 ^ 32) :: s.out ∧
      counter t a = 0 ∧
      exec (.counterLowRead req (addr + 4)) t = .next (emit (.readValue req (a + 4) (counter s a / 2 ^ 32)) t))

/-- R464, R469, Table 16-2. What a read of a register answers and clears, by the register's class and its path. -/
def Obligations.RegisterReads : Prop :=
  (∀ (req : Requester) (addr : BitVec 26) (d : RegDef) (s : State),
    let a := pageAddr addr.toNat
    powered s = true → regAt a = some d → d.cls = .ctr → ctrLow a = a →
    exec (.counterLowRead req addr) s = .next (emit (.readValue req addr.toNat (counter s a % 2 ^ 32)) { s with
      latch := sput 0 s.latch (latchKey req false a) (counter s a / 2 ^ 32), ctr := sput 0 s.ctr a 0 }) ∧
    exec (.counterLowPeek req addr) s = .next (emit (.readValue req addr.toNat (counter s a % 2 ^ 32)) { s with
      latch := sput 0 s.latch (latchKey req true a) (counter s a / 2 ^ 32) })) ∧
  (∀ (req : Requester) (addr : BitVec 26) (d : RegDef) (s : State),
    let a := pageAddr addr.toNat
    powered s = true → regAt a = some d → d.cls = .ctr → ctrLow a ≠ a →
    exec (.latchedLowRead req addr) s = .next (emit (.readValue req addr.toNat
      (sget 0 s.latch (latchKey req (aliasOf addr.toNat ≠ 0) (ctrLow a)))) s)) ∧
  (∀ (req : Requester) (addr : BitVec 26) (d : RegDef) (s : State),
    let a := pageAddr addr.toNat
    powered s = true → regAt a = some d → (d.cls = .rw ∨ d.cls = .ro ∨ d.cls = .rs) → isLatched a = false → a ≠ colBase + 0xC →
    exec (.latchedLowRead req addr) s = .next (emit (.readValue req addr.toNat (regView s a)) { s with
      glatch := (latchGroup s a).foldl (fun m e => sput 0 m (glatchKey req e.1) e.2) s.glatch })) ∧
  (∀ (req : Requester) (addr : BitVec 26) (d : RegDef) (s : State),
    let a := pageAddr addr.toNat
    powered s = true → regAt a = some d → (d.cls = .ro ∨ d.cls = .rs) → isLatched a = true →
    exec (.latchedLowRead req addr) s = .next (emit (.readValue req addr.toNat (sget 0 s.glatch (glatchKey req a))) s)) ∧
  (∀ (req : Requester) (addr : BitVec 26) (d : RegDef) (s : State),
    powered s = true → regAt (pageAddr addr.toNat) = some d → d.cls = .wo →
    exec (.latchedLowRead req addr) s = .next (emit (.readValue req addr.toNat 0) s)) ∧
  (∀ (req : Requester) (addr : BitVec 26) (d : RegDef) (s : State),
    let a := pageAddr addr.toNat
    powered s = true → regAt a = some d → d.cls = .rc → a ≠ colBase + 8 → a ≠ colBase + 0xC → isLatched a = false →
    exec (.rcEventRead req addr) s = .next (emit (.readValue req addr.toNat (regView s a))
      (setReg { s with glatch := (latchGroup s a).foldl (fun m e => sput 0 m (glatchKey req e.1) e.2) s.glatch } a 0)))

/-- R464 to R466, Table 16-2. A write through the page: an RW register takes the value's RW bits, fields given a reserved
code stay, and the register's block acts on the value; every other write is counted and changes nothing. -/
def Obligations.RegisterWrites : Prop :=
  (∀ (req : Requester) (addr : BitVec 26) (value : W32) (d : RegDef) (s : State),
    let a := pageAddr addr.toNat
    let w := acceptWrite d a (getReg s a) value.toNat
    powered s = true → regAt a = some d → d.cls = .rw → mayWrite s req d a = true →
    exec (.regWrite req addr value) s = .next (
      let t := if w.2 then bump s cWriteIgn else s
      settle a w.1 (if d.crc then { t with cfg := { t.cfg with dirty := t.cfg.dirty || t.cfg.running } } else t))) ∧
  (∀ (req : Requester) (addr : BitVec 26) (value : W32) (d : RegDef) (s : State),
    let a := pageAddr addr.toNat
    powered s = true → regAt a = some d →
    (d.cls = .ro ∨ d.cls = .rs ∨ d.cls = .rc ∨ d.cls = .ctr ∨ mayWrite s req d a = false) →
    exec (.regWrite req addr value) s = .next (bump s cWriteIgn) ∧
    exec (.regAliasSet req addr value) s = .next (bump s cWriteIgn) ∧
    exec (.regAliasClear req addr value) s = .next (bump s cWriteIgn) ∧
    exec (.regAliasToggle req addr value) s = .next (bump s cWriteIgn)) ∧
  (∀ (req : Requester) (addr : BitVec 26) (value : W32) (d : RegDef) (s : State),
    let a := pageAddr addr.toNat
    powered s = true → regAt a = some d → d.cls = .wo →
    exec (.regAliasSet req addr value) s = .next (bump s cWriteIgn) ∧
    exec (.regAliasClear req addr value) s = .next (bump s cWriteIgn) ∧
    exec (.regAliasToggle req addr value) s = .next (bump s cWriteIgn) ∧
    (mayWrite s req d a = true → a ≠ topBase + 0x28 →
      exec (.regWrite req addr value) s = .next (setReg s a value.toNat)))

/-- R468. A write through an alias is a write of the combined value through the page, and completes as that write does: the
register's RW bits take the combined bits in one step. Toggling HIF_JOBCTL.ABORTED clears it and never sets it. -/
def Obligations.AliasWritesCombine : Prop :=
  (∀ (req : Requester) (addr : BitVec 26) (value : W32) (d : RegDef) (s : State),
    let x : W32 := BitVec.ofNat 32 (getReg s (pageAddr addr.toNat))
    let rw : W32 := BitVec.ofNat 32 d.rw
    let combined (new : W32) : W32 := (x &&& ~~~rw) ||| (new &&& rw)
    regAt (pageAddr addr.toNat) = some d → d.cls = .rw →
    exec (.regAliasSet req addr value) s = exec (.regWrite req addr (combined (x ||| value))) s ∧
    exec (.regAliasClear req addr value) s = exec (.regWrite req addr (combined (x &&& ~~~value))) s ∧
    exec (.regAliasToggle req addr value) s = exec (.regWrite req addr (combined (x ^^^ value))) s) ∧
  (∀ (req : Requester) (addr : BitVec 26) (value : W32) (d : RegDef) (s : State),
    let a := pageAddr addr.toNat
    let x : W32 := BitVec.ofNat 32 (getReg s a)
    let rw : W32 := BitVec.ofNat 32 d.rw
    let written (new : W32) : State :=
      let w := acceptWrite d a (getReg s a) ((x &&& ~~~rw) ||| (new &&& rw)).toNat
      let t := if w.2 then bump s cWriteIgn else s
      settle a w.1 (if d.crc then { t with cfg := { t.cfg with dirty := t.cfg.dirty || t.cfg.running } } else t)
    powered s = true → regAt a = some d → d.cls = .rw → mayWrite s req d a = true →
    exec (.regAliasSet req addr value) s = .next (written (x ||| value)) ∧
    exec (.regAliasClear req addr value) s = .next (written (x &&& ~~~value)) ∧
    exec (.regAliasToggle req addr value) s = .next (written (x ^^^ value))) ∧
  (∀ (addr : BitVec 26) (s : State), pageAddr addr.toNat = hifBase + 4 → powered s = true →
    ∃ t, exec (.regAliasToggle .host addr 0x40000000) s = .next t ∧ flag (getReg t (hifBase + 4)) 30 = false)

/-- R462. An address of register space that no register occupies reads 0, discards writes, and is counted in
TOP_UNMAPPED_CNT, through the page and through every alias. -/
def Obligations.UnmappedRegisters : Prop :=
  (∀ (req : Requester) (addr : BitVec 26) (value : W32) (s : State),
    let u := countUnmapped (0x00A000000000 + pageAddr addr.toNat) s
    powered s = true → regAt (pageAddr addr.toNat) = none →
    exec (.latchedLowRead req addr) s = .next (emit (.readValue req addr.toNat 0) u) ∧
    exec (.counterLowRead req addr) s = .next (emit (.readValue req addr.toNat 0) u) ∧
    exec (.counterLowPeek req addr) s = .next (emit (.readValue req addr.toNat 0) u) ∧
    exec (.rcEventRead req addr) s = .next (emit (.readValue req addr.toNat 0) u) ∧
    exec (.regWrite req addr value) s = .next u ∧
    exec (.regAliasSet req addr value) s = .next u ∧
    exec (.regAliasClear req addr value) s = .next u ∧
    exec (.regAliasToggle req addr value) s = .next u) ∧
  (∀ (a : Nat) (s : State), counter (countUnmapped a s) cUnmapped = satAdd 48 (counter s cUnmapped) 1 ∧
    (countUnmapped a s).regs = s.regs ∧ (countUnmapped a s).mem = s.mem ∧ (countUnmapped a s).out = s.out)

/-- R351, R437, R439, R453, R465, R471, R475, R496, R500, R505, R520. The writes of the registers that command the module:
each is a write through the page of the register its rule names, and has the effect the rule gives. -/
def Obligations.CommandRegisters : Prop :=
  (∀ (n : BitVec 3) (value : W32) (s : State), powered s = true → s.host.snapBusy = false →
    exec (.topSnapGo (.core n) value) s = .next (takeSnap (value.toNat % 2 ^ 12) (setReg s (topBase + 0x40) (value.toNat % 2 ^ 12)))) ∧
  (∀ (n : BitVec 3) (value : W32) (s : State), powered s = true → s.host.snapBusy = true →
    exec (.topSnapGo (.core n) value) s = .next (bump s cWriteIgn)) ∧
  (∀ (s : State), s.host.snapBusy = true →
    exec .snapshotComplete s = .next { s with host := { s.host with snapBusy := false, snapDone := true } }) ∧
  (∀ (value : W32) (s : State), powered s = true → flag value.toNat 31 = true →
    exec (.secExtGo (.core 0) value) s = .next (if s.sec.extBusy then s else
      extendMr7 ((List.range 8).flatMap (fun i => leBytes 4 (getReg s (secBase + 0x40 + 4 * i)))) s)) ∧
  (∀ (n : BitVec 3) (value : W32) (s : State), powered s = true → flag value.toNat 31 = true →
    4 ≤ field value.toNat 30 27 → field value.toNat 30 27 ≤ 12 →
    exec (.cipCfgWrite (.core n) value) s = .next (setReg (setReg (setReg (touchCfg s) cipBase (value.toNat / 2 ^ 27 * 2 ^ 27))
      (cipBase + 0xC) 0) (cipBase + 0x10) 0)) ∧
  (∀ (n : BitVec 3) (value : W32) (s : State), powered s = true →
    exec (.cipRqTailWrite (.core n) value) s = .next (setReg s (cipBase + 0xC) (value.toNat % 2 ^ 12))) ∧
  (∀ (value : W32) (s : State), powered s = true → 1 ≤ field value.toNat 23 19 → field value.toNat 23 19 ≤ 16 →
    exec (.hifAqCfgWrite value) s = .next (aqCfgWrite (value.toNat / 8 * 8) s)) ∧
  (∀ (value : W32) (s : State), powered s = true →
    exec (.hifJobctlWrite .host value) s = .next (setReg s (hifBase + 4) (value.toNat / 2 ^ 31 * 2 ^ 31
      + bit (flag value.toNat 30 && flag (getReg s (hifBase + 4)) 30) * 2 ^ 30))) ∧
  (∀ (value : W32) (s : State), powered s = true → flag (getReg s (hifBase + 0x20)) 0 = false →
    exec (.hifLockWrite .host value) s = .next (setReg s (hifBase + 0x20) (value.toNat % 2))) ∧
  (∀ (value : W32) (s : State), powered s = true → flag (getReg s (fabBase + 0x14)) 0 = false →
    exec (.fabLockWrite .host value) s = .next (setReg s (fabBase + 0x14) (value.toNat % 2))) ∧
  (∀ (value : W32) (s : State), powered s = true → flag (getReg s (pwrBase + 0x10)) 0 = false →
    exec (.pwrLockWrite .host value) s = .next (setReg s (pwrBase + 0x10) (value.toNat % 2))) ∧
  (∀ (n : BitVec 3) (value : W32) (s : State), powered s = true →
    exec (.hifJobctlWrite (.core n) value) s = .next (bump s cWriteIgn) ∧
    exec (.hifLockWrite (.core n) value) s = .next (bump s cWriteIgn) ∧
    exec (.fabLockWrite (.core n) value) s = .next (bump s cWriteIgn) ∧
    exec (.pwrLockWrite (.core n) value) s = .next (bump s cWriteIgn) ∧
    exec (.topSnapGo .host value) s = .next (bump s cWriteIgn) ∧
    exec (.secExtGo .host value) s = .next (bump s cWriteIgn) ∧
    exec (.cipCfgWrite .host value) s = .next (bump s cWriteIgn) ∧
    exec (.cipRqTailWrite .host value) s = .next (bump s cWriteIgn))

/-- R520. PWR_LIMIT is 2,400 W after reset and takes only values from 1,000 to 2,400 W; only the host writes it, and not
while PWR_LOCK.LOCK is 1, which a module reset and a cold reset clear. -/
def Obligations.PowerLimitRegister : Prop :=
  field (getReg State.reset (pwrBase + 0xC)) 31 20 = 2400 ∧
  (∀ (value : W32) (s : State), powered s = true → flag (getReg s (pwrBase + 0x10)) 0 = false →
    exec (.pwrLimitWrite .host value) s = .next (
      if 1000 ≤ field value.toNat 31 20 ∧ field value.toNat 31 20 ≤ 2400 then
        setReg s (pwrBase + 0xC) (value.toNat / 2 ^ 20 * 2 ^ 20)
      else setReg (bump s cWriteIgn) (pwrBase + 0xC) (putField (value.toNat / 2 ^ 20 * 2 ^ 20) 31 20
        (field (getReg s (pwrBase + 0xC)) 31 20)))) ∧
  (∀ (value : W32) (s : State), powered s = true → flag (getReg s (pwrBase + 0x10)) 0 = true →
    exec (.pwrLimitWrite .host value) s = .next (bump s cWriteIgn)) ∧
  (∀ (n : BitVec 3) (value : W32) (s : State), powered s = true →
    exec (.pwrLimitWrite (.core n) value) s = .next (bump s cWriteIgn)) ∧
  (∀ (s : State), powered s = true →
    ∃ t, exec .mrstLAssert s = .next t ∧ getReg t (pwrBase + 0x10) = 0 ∧ field (getReg t (pwrBase + 0xC)) 31 20 = 2400) ∧
  (∀ (s : State), s.pwr.auxOk = true →
    ∃ t, exec .coldRstLAssert s = .next t ∧ getReg t (pwrBase + 0x10) = 0 ∧ field (getReg t (pwrBase + 0xC)) 31 20 = 2400)

/-- R475, R476. The reference, its commits and the passes of the configuration CRC. -/
def Obligations.ConfigurationCommits : Prop :=
  (∀ (req : Requester) (hi : Bool) (value : W32) (s : State), powered s = true → req = .host →
    exec (.cfgRefWrite req hi value) s = .next (
      let t := setReg s (topBase + (if hi then 0x24 else 0x20)) value.toNat
      { t with cfg := { t.cfg with committed := false, adopt := false } })) ∧
  (∀ (s : State), powered s = true → exec (.cfgCommitCompare .host) s = .next (cfgCommit s)) ∧
  (∀ (s : State), (cfgCommit s).cfg = { s.cfg with committed := true, mismatch := false, seen := false, adopt := false
                                                   beganAfter := false }) ∧
  (∀ (s : State), powered s = true → exec (.cfgCommitAdopt .host) s =
    .next { s with cfg := { s.cfg with adopt := true, beganAfter := false } }) ∧
  (∀ (s : State), powered s = true → s.cfg.running = false → nsOf s % 64000 = 0 →
    exec .cfgCrcPassStart s = .next { s with cfg := { s.cfg with
      running := true, dirty := false, beganAfter := s.cfg.committed || s.cfg.adopt } }) ∧
  (∀ (s : State), s.cfg.running = true → s.cfg.dirty = true →
    exec .cfgCrcPassEnd s = .next (bump { s with cfg := { s.cfg with running := false, dirty := false } } cCfgDirty)) ∧
  (∀ (s : State), s.cfg.running = true → s.cfg.dirty = false →
    let blocks := (List.range 15).map (cfgBytes s)
    let crc := crc64 blocks.flatten
    let t : State := { s with cfg := { s.cfg with
      running := false, dirty := false, crc := crc, bcrc := blocks.map (fun b => if b.isEmpty then 0 else crc64 b)
      passSeq := (s.cfg.passSeq + 1) % 2 ^ 16 } }
    exec .cfgCrcPassEnd s = .next (
      if s.cfg.beganAfter && s.cfg.adopt then
        cfgCommit (setReg (setReg t (topBase + 0x20) (crc % 2 ^ 32)) (topBase + 0x24) (crc / 2 ^ 32))
      else if s.cfg.beganAfter && s.cfg.committed then compareCfg crc s.cfg.bcrc t
      else t)) ∧
  (∀ (crc : Nat) (old : List Nat) (s : State),
    crc = getReg s (topBase + 0x24) * 2 ^ 32 + getReg s (topBase + 0x20) →
    compareCfg crc old s = { s with cfg := { s.cfg with mismatch := false } }) ∧
  (∀ (crc : Nat) (old : List Nat) (s : State),
    crc ≠ getReg s (topBase + 0x24) * 2 ^ 32 + getReg s (topBase + 0x20) →
    (compareCfg crc old s).cfg = { s.cfg with mismatch := true, seen := true } ∧
    (s.cfg.mismatch = true → compareCfg crc old s =
      bump { s with cfg := { s.cfg with mismatch := true, seen := true } } cCfgMismatch))

/-- R478. The reference, its commit and the pass results return to 0 at a cold reset and at a module reset, and a
resumption then misses its commit; a host-interface reset leaves them unchanged. -/
def Obligations.ConfigurationResets : Prop :=
  (∀ (s : State), powered s = true → ∃ t, exec .mrstLAssert s = .next t ∧
    getReg t (topBase + 0x20) = 0 ∧ getReg t (topBase + 0x24) = 0 ∧ t.cfg.committed = false ∧ t.cfg.mismatch = false ∧
    t.cfg.seen = false ∧ t.cfg.adopt = false ∧ t.cfg.crc = 0 ∧ t.cfg.bcrc.all (· = 0) = true ∧ t.cfg.passSeq = 0 ∧
    resumeMissing t = some 0) ∧
  (∀ (s : State), s.pwr.auxOk = true → ∃ t, exec .coldRstLAssert s = .next t ∧
    getReg t (topBase + 0x20) = 0 ∧ getReg t (topBase + 0x24) = 0 ∧ t.cfg.committed = false ∧ t.cfg.mismatch = false ∧
    t.cfg.seen = false ∧ t.cfg.adopt = false ∧ t.cfg.crc = 0 ∧ t.cfg.bcrc.all (· = 0) = true ∧ t.cfg.passSeq = 0 ∧
    resumeMissing t = some 0) ∧
  (∀ (s : State), ∃ t, exec .hostIfReset s = .next t ∧ t.cfg = s.cfg ∧
    getReg t (topBase + 0x20) = getReg s (topBase + 0x20) ∧ getReg t (topBase + 0x24) = getReg s (topBase + 0x24))

/-- R103. What messages do at a tile: an ADD token adds VALUE to its slot, a SET token replaces the slot, a credit message
adds COUNT to its pool, and a sum beyond the 32 bits of a slot or the 16 bits of a pool saturates and is counted in
TIL_TOKOVF_CNT. The tile is not fenced, and the messages are not of another generation than its own (R109, R115). -/
def Obligations.TokenArithmetic : Prop :=
  (∀ (token : W64) (a : Arrived) (s : State),
    let n := tokDest token
    let t := ejectWait n a.near a.s
    let ti := tileOf t n
    let sum := sget 0 ti.slots (tokSlot token) + tokValue token
    arriveFrom (.token token) s = some a → n < 96 → ti.mode ≠ .fenced → ti.stale (tokGen token) = false →
    tokKind token = 0 →
    exec (.tokenArrival token) s = .next (
      let u := setTile t n
        ({ ti with slots := sput 0 ti.slots (tokSlot token) (min sum (2 ^ 32 - 1)) }.learn (tokSlot token) a.know)
      if 2 ^ 32 ≤ sum then bump u (tilBase + 0x4000 * n + 0x128) else u)) ∧
  (∀ (token : W64) (a : Arrived) (s : State),
    let n := tokDest token
    let t := ejectWait n a.near a.s
    let ti := tileOf t n
    arriveFrom (.token token) s = some a → n < 96 → ti.mode ≠ .fenced → ti.stale (tokGen token) = false →
    tokKind token = 1 →
    exec (.tokenArrival token) s = .next (setTile t n
      ({ ti with slots := sput 0 ti.slots (tokSlot token) (tokValue token) }.learn (tokSlot token) a.know))) ∧
  (∀ (src : Byte) (credit : W32) (a : Arrived) (s : State),
    let n := field credit.toNat 31 24
    let pool := field credit.toNat 23 19
    let t := ejectWait n a.near a.s
    let ti := tileOf t n
    let sum := sget 0 ti.pools pool + field credit.toNat 15 0
    arriveFrom (.credit src credit) s = some a → n < 96 → ti.mode ≠ .fenced →
    ti.stale (flag credit.toNat 18) = false →
    exec (.creditArrival src credit) s = .next (
      let u := setTile t n ({ ti with pools := sput 0 ti.pools pool (min sum (2 ^ 16 - 1)) }.learn (64 + pool) a.know)
      if 2 ^ 16 ≤ sum then bump u (tilBase + 0x4000 * n + 0x128) else u))

/-- R319, R464. A line-time timer sends one ADD token of value 1 and the current generation from endpoint 0x6E to its DEST
and SLOT when line time reaches its expiry, and disarms; armed with an expiry already past it fires at once and is
counted. -/
def Obligations.TimersFire : Prop :=
  (∀ (timer : BitVec 3) (s : State),
    let r := ltuBase + 0x40 + 16 * timer.toNat
    let c := getReg s r
    flag c 31 = true → getReg s (r + 8) * 2 ^ 32 + getReg s (r + 4) ≤ nsOf s →
    exec (.lineTimerExpiry timer) s = .next (sendToken (field c 30 23) (field c 22 17) 0 0x6E (genOf s) 1
      (setReg s r (putField c 31 31 0)))) ∧
  (∀ (timer : BitVec 3) (s : State),
    let r := ltuBase + 0x40 + 16 * timer.toNat
    flag (getReg s r) 31 = true → nsOf s < getReg s (r + 8) * 2 ^ 32 + getReg s (r + 4) →
    exec (.lineTimerExpiry timer) s = .next s) ∧
  (∀ (h : CmdHdr) (timer : Byte) (ctl : W32) (expiry : W64) (s : State),
    Ready h 0x0804 (.timeTimer h timer ctl expiry) s → timer.toNat ≤ 7 → flag ctl.toNat 31 = true →
    let b := begun h 0x0804 s
    let r := ltuBase + 0x40 + 16 * timer.toNat
    let armed := setReg (setReg (setReg b (r + 4) (expiry.toNat % 2 ^ 32)) (r + 8) (expiry.toNat / 2 ^ 32)) r
      (ctl.toNat / 2 ^ 17 * 2 ^ 17)
    exec (.timeTimer h timer ctl expiry) s = .next (replied h 0x0804 0 0 s (
      if expiry.toNat < nsOf b then
        sendToken (field ctl.toNat 30 23) (field ctl.toNat 22 17) 0 0x6E (genOf b) 1
          (setReg (bump armed (ltuBase + 0x130)) r (putField (ctl.toNat / 2 ^ 17 * 2 ^ 17) 31 31 0))
      else armed)))

/-- R297. An arrival at a stage queue whose offset is no multiple of ENTRY_BYTES, or lies at or beyond NENT × ENTRY_BYTES,
or that would raise the occupancy above NENT, is discarded: it is counted in TOP_QUEUE_DROP_CNT and sends a token of 1 to
the non-finite slot. -/
def Obligations.QueueArrivalsDiscarded : Prop :=
  ∀ (handle : W16) (offset len : W32) (data : List Byte) (q : StageQueue) (s : State),
    let entry := field q.desc 111 80
    let nent := field q.desc 79 72 + 1
    queueDesc s handle.toNat = some q → field q.desc 215 200 = ownFid s → 0 < len.toNat →
    (offset.toNat % entry ≠ 0 ∨ nent * entry ≤ offset.toNat ∨ nent < q.occ + 1) →
    exec (.queueEntryArrival handle offset len (genOf s) data) s =
      .next (sendToken 0x6D 1 0 0x6C (genOf s) 1 (bump s (topBase + 0x180 + 8 * 13)))

/-- R295. A whole entry that reaches its queue is written there, counted, and told to the consumer by an ADD token of 1;
an arrival or a credit of the other generation is discarded and counted; a credit returned to endpoint 0x6C frees its
entry and goes on to the producer. -/
def Obligations.QueueEvents : Prop :=
  (∀ (handle : W16) (offset len : W32) (gen : Bool) (data : List Byte) (q : StageQueue) (s : State),
    let entry := field q.desc 111 80
    let nent := field q.desc 79 72 + 1
    queueDesc s handle.toNat = some q → field q.desc 215 200 = ownFid s → gen = genOf s → data.length = len.toNat → len.toNat = entry → 0 < entry →
    offset.toNat % entry = 0 → offset.toNat < nent * entry → q.occ < nent →
    exec (.queueEntryArrival handle offset len gen data) s = .next (
      let u := writeTo .lintel 8 (field q.desc 159 112 + offset.toNat) data s
      sendToken (field q.desc 181 174) (field q.desc 173 168) 0 0x6C (genOf u) 1 (setStageQueue handle.toNat { q with
        occ := q.occ + 1, high := max q.high (q.occ + 1)
        fills := if q.occ + 1 = nent then satAdd 48 q.fills 1 else q.fills } u))) ∧
  (∀ (handle : W16) (offset len : W32) (data : List Byte) (q : StageQueue) (s : State),
    queueDesc s handle.toNat = some q → field q.desc 215 200 = ownFid s →
    exec (.queueEntryArrival handle offset len (!genOf s) data) s = .next (bump s (topBase + 0x180 + 8 * 12))) ∧
  (∀ (src : Byte) (credit : W32) (h : Nat) (q : StageQueue) (s t : State),
    let w := credit.toNat
    arrive (.credit src credit) s = some t → field w 31 24 = 0x6C → flag w 18 = genOf t →
    t.stp.queues.find? (fun e => e.2.any (fun q =>
      field q.desc 167 163 = field w 23 19 && field q.desc 215 200 = ownFid t)) = some (h, some q) →
    field q.desc 231 216 = ownFid t →
    exec (.queueCreditReturn src credit) s = .next (send (.credit 0x6C
      (creditWord (field q.desc 199 192) (field q.desc 191 187) (flag w 18) (field w 15 0)))
      (setStageQueue h { q with occ := q.occ - field w 15 0 } t))) ∧
  (∀ (src : Byte) (credit : W32) (s t : State), arrive (.credit src credit) s = some t →
    field credit.toNat 31 24 = 0x6C → flag credit.toNat 18 ≠ genOf t →
    exec (.queueCreditReturn src credit) s = .next (bump t (topBase + 0x180 + 8 * 12)))

/-- R107 to R109, R112, R113, R115, R232, R282, R283. What control tokens do when they arrive: those to a tile begin its
step, stop its tasks or fence it, are discarded where their code is reserved or their generation another, and are dropped
by a fenced tile; those to the control complex are noted; those to a pier pin and release gathers. -/
def Obligations.TokenEvents : Prop :=
  (∀ (token : W64) (p : Program) (a : Arrived) (s : State),
    let n := tokDest token
    let t := ejectWait n a.near a.s
    let ti := tileOf t n
    arriveFrom (.token token) s = some a → n < 96 → ti.mode ≠ .fenced → tokKind token = 2 → tokValue token = 1 →
    ti.prog = some p →
    exec (.stepBeginToken token) s = .next (settleCursors n (setTile t n { ti with
      slots := (List.range 64).foldl (fun m i => sput 0 m i (loadLe t (tileAddr n (p.off + 64 + 4 * i)) 4)) []
      pools := (List.range 32).foldl (fun m i => sput 0 m i (loadLe t (tileAddr n (p.off + 320 + 2 * i)) 2)) []
      know := [], mainCur := 0, deferCur := 0, gen := some (tokGen token), mode := .running, reported := false
      matrix := none, vector := none, move := none, send := none }))) ∧
  (∀ (token : W64) (a : Arrived) (s : State),
    let n := tokDest token
    let t := ejectWait n a.near a.s
    let ti := tileOf t n
    let stop (r : Option Running) : Option Running := r.map (fun x => { x with stopping := true })
    arriveFrom (.token token) s = some a → n < 96 → tokKind token = 2 → tokValue token = 2 →
    ti.stale (tokGen token) = false → (ti.mode = .running ∨ ti.mode = .aborting) → ti.prog.isSome = true →
    exec (.abortToken token) s = .next (reportDone n (setTile t n { ti with
      mode := .aborting, matrix := stop ti.matrix, vector := stop ti.vector, move := stop ti.move, send := stop ti.send }))) ∧
  (∀ (token : W64) (a : Arrived) (s : State),
    let n := tokDest token
    let t := ejectWait n a.near a.s
    arriveFrom (.token token) s = some a → n < 96 → tokKind token = 2 → tokValue token = 3 →
    (tileOf t n).stale (tokGen token) = false → (tileOf t n).mode ≠ .fenced →
    exec (.fenceToken token) s = .next (fenceTile n 6 0 t)) ∧
  (∀ (token : W64) (a : Arrived) (s : State),
    let n := tokDest token
    let t := ejectWait n a.near a.s
    arriveFrom (.token token) s = some a → n < 96 → (tileOf t n).mode = .fenced →
    let dropped : Host.Outcome State Fault Refusal := .next (bump t (tilBase + 0x4000 * n + 0x138))
    exec (.stepBeginToken token) s = dropped ∧ exec (.fenceToken token) s = dropped ∧
    exec (.abortToken token) s = dropped ∧ exec (.tokenArrival token) s = dropped) ∧
  (∀ (token : W64) (a : Arrived) (s : State),
    let n := tokDest token
    let t := ejectWait n a.near a.s
    let control := tokKind token = 2 ∧ tokValue token = 1
    arriveFrom (.token token) s = some a → n < 96 → (tileOf t n).mode ≠ .fenced → ¬ control →
    ((tileOf t n).stale (tokGen token) = true ∨ tokKind token = 3 ∨
      tokKind token = 2 ∧ tokValue token ≠ 2 ∧ tokValue token ≠ 3) →
    let discarded : Host.Outcome State Fault Refusal := .next (bump t (tilBase + 0x4000 * n + 0x130))
    exec (.fenceToken token) s = discarded ∧ exec (.abortToken token) s = discarded ∧
    exec (.tokenArrival token) s = discarded) ∧
  (∀ (token : W64) (s t : State), arrive (.token token) s = some t → tokDest token = 0x6D → tokSlot token = 1 →
    tokKind token = 0 → tokGen token = genOf t →
    exec (.nonfiniteSlotToken token) s =
      .next { t with stp := { t.stp with nfSlot := min (t.stp.nfSlot + tokValue token) (2 ^ 32 - 1) } }) ∧
  (∀ (token : W64) (s t : State), arrive (.token token) s = some t → tokDest token = 0x6D → tokKind token = 2 →
    tokGen token = genOf t →
    (tokValue token = 0x10 → exec (.programDoneToken token) s =
      .next { t with stp := { t.stp with done := sput false t.stp.done (tokSrc token) true } }) ∧
    (tokValue token = 0x11 → exec (.taskFaultToken token) s =
      .next { t with stp := { t.stp with nfSlot := min (t.stp.nfSlot + 1) (2 ^ 32 - 1) } }) ∧
    (tokValue token = 0x12 → exec (.fencedToken token) s =
      .next (fenceAborts { t with stp := { t.stp with done := sput false t.stp.done (tokSrc token) true } }))) ∧
  (∀ (token : W64) (g : Gather) (s t : State),
    let p := tokDest token - 0x60
    let slot := tokSlot token
    arrive (.token token) s = some t → 0x60 ≤ tokDest token → tokDest token ≤ 0x63 → tokKind token = 0 →
    gatherOf t p slot = some g →
    exec (.gatherAcquire token) s = .next (
      let pinned := setGather p slot { g with pins := g.pins + 1, owed := g.owed + 1 } t
      if g.st = .present then gatherReply p g (setGather p slot { g with pins := g.pins + 1 } t)
      else if g.st = .absent then gatherStart p slot pinned
      else if g.st = .waiting then bump pinned (plnBase + 0x4000 * p + 0x340) else pinned)) ∧
  (∀ (token : W64) (g : Gather) (s t : State),
    let p := tokDest token - 0x60
    arrive (.token token) s = some t → 0x60 ≤ tokDest token → tokDest token ≤ 0x63 → tokKind token = 1 →
    tokValue token = 0 → gatherOf t p (tokSlot token) = some g →
    exec (.gatherRelease token) s = .next (gatherRetry p (setGather p (tokSlot token) { g with pins := g.pins - 1 } t))) ∧
  (∀ (pier : BitVec 2) (slot : BitVec 6) (data : List Byte) (g : Gather) (s : State),
    let p := pier.toNat
    gatherOf s p slot.toNat = some g → g.st = .filling → g.owed = 1 →
    exec (.gatherFillComplete pier slot data) s = .next (
      let u := writeTo .lintel 8 (pageAddrOf p (g.page / 64) (g.page % 64)) (data.take (0x10000 * gdPages g.desc)) s
      let v := setPier u p { pierOf u p with stamp := (pierOf u p).stamp + 1 }
      gatherReply p g (setGather p slot.toNat { g with
        st := .present, stamp := (pierOf u p).stamp + 1, evicted := false, owed := 0 } v)))

/-- R104 to R107, R113, R115, R117, R121. What the tiles do: the sequencer starts the main task, or else the deferred one,
or counts a stall; a running task completes with the result and the fault status of its engine, unless the errors that
it read fenced its tile; a task stopped for an abort leaves its engine; a fault or an exceeded limit fences the tile. -/
def Obligations.TaskEvents : Prop :=
  (∀ (tile : BitVec 7) (upsets : List Upset) (s : State),
    let t := tile.toNat
    let u := settleCursors t (tileUpsets t upsets s)
    let ti := tileOf u t
    t < 96 → ti.mode = .running → ti.prog.isSome = true →
    (startable u t ti.mainCur = true → exec (.taskStart ⟨tile, upsets⟩) s = .next (startTask t ti.mainCur true u)) ∧
    (startable u t ti.mainCur = false → deferEn u t = true → startable u t ti.deferCur = true →
      exec (.taskStart ⟨tile, upsets⟩) s = .next (startTask t ti.deferCur false (bump u (tilBase + 0x4000 * t + 0x148)))) ∧
    (startable u t ti.mainCur = false → deferEn u t = false → ti.allIdle = true → cursorsDone u t = false →
      exec (.taskStart ⟨tile, upsets⟩) s = .next (bump u (tilBase + 0x4000 * t + 0x150)))) ∧
  (∀ (tile : BitVec 7) (r : Running) (fault : Bool) (s u : State),
    let t := tile.toNat
    (tileOf s t).matrix = some r → r.stopping = false → matrixRun t r.task noLimit true r.know s = (fault, u) →
    exec (.matrixTaskComplete tile) s = .next (
      if (tileOf u t).mode = .fenced then u else finishTask t r.task (some .matrix) fault 0 r.know u)) ∧
  (∀ (tile : BitVec 7) (r : Running) (fault : Bool) (s u : State),
    let t := tile.toNat
    (tileOf s t).vector = some r → r.stopping = false → passRun t r.task noLimit true r.know s = (fault, u) →
    exec (.vectorPassComplete tile) s = .next (
      if (tileOf u t).mode = .fenced then u else finishTask t r.task (some .vector) fault 0 r.know u)) ∧
  (∀ (tile : BitVec 7) (r : Running) (fault : Bool) (s u : State),
    let t := tile.toNat
    (tileOf s t).move = some r → r.stopping = false → moveRun t r.task noLimit s = (fault, u) →
    exec (.moveTaskComplete tile) s = .next (
      if (tileOf u t).mode = .fenced then u else finishTask t r.task (some .move) fault (field (taskOf s t r.task) 511 464) r.know u)) ∧
  (∀ (tile : BitVec 7) (r : Running) (fault : Bool) (s u : State),
    let t := tile.toNat
    (tileOf s t).send = some r → r.stopping = false → sendRun t r.task noLimit s = (fault, u) →
    exec (.sendTaskComplete tile) s = .next (
      if (tileOf u t).mode = .fenced then u else finishTask t r.task (some .send) fault (sendBody (taskOf s t r.task)).src r.know u)) ∧
  (∀ (tile : BitVec 7) (engine : Engine) (done : W32) (r : Running) (fault : Bool) (s u : State),
    let t := tile.toNat
    (tileOf s t).engine engine = some r → r.stopping = true →
    (match engine with
      | .matrix => matrixRun t r.task done.toNat false r.know s
      | .vector => passRun t r.task done.toNat false r.know s
      | .move => moveRun t r.task (done.toNat / 64 * 64) s
      | .send => sendRun t r.task (done.toNat / 64 * 64) s) = (fault, u) →
    exec (.taskStop tile engine done) s = .next (reportDone t (setTile u t ((tileOf u t).setEngine engine none)))) ∧
  (∀ (tile : BitVec 7) (cause : BitVec 4) (task : BitVec 13) (msg : Option (BitVec 16)) (s : State),
    let t := tile.toNat
    t < 96 → 1 ≤ cause.toNat → cause.toNat ≤ 5 →
    exec (.tileFaultDetect tile ⟨cause, msg⟩ task) s = .next (fenceTile t cause.toNat task.toNat
      (match msg with
        | some i => if cause.toNat = 4 then { s with course := s.course.eraseIdx i.toNat } else s
        | none => s))) ∧
  (∀ (tile : BitVec 7) (engine : Engine) (r : Running) (s : State),
    let t := tile.toNat
    let limit := field (getReg s (tilBase + 0x4000 * t)) 31 16
    (tileOf s t).engine engine = some r → r.stopping = false → limit ≠ 0 →
    4 * 65536 * limit ≤ 7 * (nsOf s - r.since) →
    exec (.taskLimitExpiry tile engine) s = .next (fenceTile t 3 r.task s)) ∧
  (∀ (t cause task : Nat) (s : State),
    let ti := tileOf s t
    let held := if cause = 4 ∨ cause = 6 then 0 else task
    ti.mode ≠ .fenced →
    let u := fenceTile t cause task s
    tileOf u t = { ti with mode := .fenced, cause := cause, faultTask := held
                           matrix := none, vector := none, move := none, send := none })

/-- R167, R258, R259, R282 to R289, R363, R416, Table 10-4. What advances the step: the check word, the decision, the deadline, the start and the
end of the update, the commit, and what follows a commit. -/
def Obligations.StepEvents : Prop :=
  (∀ (s : State), (s.stp.rc.state = 1 ∨ s.stp.rc.state = 5) → tilesDone s = true → s.stp.aborted = false →
    reductionsDone s = true →
    exec .checkWordReady s = .next (
      let t := reduceAll s
      let nf := decide (t.stp.nfSlot ≠ 0)
      let word : CheckWord := { s := nf, f := checkF t, hard := (allShards t).any (fun p => shardHard t p.2.2), a := false
                                first := if nf then t.stp.own_ else 0xFFFF, norm := t.cbl.norm }
      let u := if nf then bump t (topBase + 0x180 + 8 * 4) else t
      tryCheck (setStp (fun p => { p with own := some word, localS := nf })
        (writeRecord { u.stp.rc with state := 2 } u)))) ∧
  (∀ (s : State), (s.stp.rc.state = 1 ∨ s.stp.rc.state = 5) → tilesDone s = true → s.stp.aborted = true →
    exec .checkWordReady s = .next (
      let nf := decide (s.stp.nfSlot ≠ 0)
      let word : CheckWord := { s := nf, f := checkF s, hard := (allShards s).any (fun p => shardHard s p.2.2), a := true
                                first := s.stp.own_, norm := Exact.zero }
      let u := if nf then bump s (topBase + 0x180 + 8 * 4) else s
      tryCheck (setStp (fun p => { p with own := some word, localS := nf })
        (writeRecord { u.stp.rc with state := 2 } u)))) ∧
  (∀ (s : State), exec .tCheckInstant s = .next (tryCheck s)) ∧
  (∀ (f1 f2 hard a : Bool) (first : W16) (nf : Bool) (norm : BitVec 640) (absent : List W16)
      (w : CheckWord) (s : State),
    s.stp.own = some w → s.stp.rc.state = 2 → s.stp.chkRun = true →
    let c : CheckWord := {
      s := w.s || f1, f := w.f || f2, hard := w.hard || hard, a := w.a || a, first := min w.first first.toNat
      norm := w.norm.add (ofExactWord { nf := nf, val := norm }) }
    let n := c.norm.readSqrt
    let l := f32 (getReg s (cblBase + 4))
    let out := checkOutcome (field (getReg s cblBase) 31 30) c.f c.hard n l
    let t : State := { s with
      stp := { s.stp with comb := some c, chkRun := false, absent := absent.map BitVec.toNat }
      cbl := { s.cbl with normWord := to32 n, chkF := c.f, chkOver := !l.isZero && l.lt n } }
    exec (.checkDecision f1 f2 hard a ⟨first, absent⟩ nf norm) s = .next (
      if c.a then endStep 6 t
      else if c.s then endStep 5 t
      else
        let u : State := { t with cbl := { t.cbl with chkOut := out } }
        if out = 3 then endStep 3 u else decideUpdate out (if out = 2 then div32 l n else .one) u)) ∧
  (∀ (s : State), s.stp.rc.state = 1 → 0 < s.stp.deadline → s.stp.deadline ≤ nsOf s →
    exec .deadlineExpiry s = .next (abortStep false (bump s (topBase + 0x180 + 8 * 5)))) ∧
  (∀ (s : State), s.stp.rc.state = 3 → s.stp.updRun = false → s.stp.updDone = false → updateWaits s = (false, false, false) →
    exec .updateStart s = .next ((loadedGroups s).foldl (fun u g => startSums g u)
      { s with stp := { s.stp with updRun := true } })) ∧
  (∀ (s : State), s.stp.rc.state = 3 → s.stp.updRun = false → s.stp.updDone = false → updateWaits s = (true, false, false) →
    s.stp.waitedDelta = false →
    exec .updateStart s = .next { bump s (topBase + 0x180 + 8 * 9) with stp := { s.stp with waitedDelta := true } }) ∧
  (∀ (s : State), s.stp.rc.state = 3 → s.stp.updRun = true → updateFinished s = true →
    exec .updateComplete s = .next (
      let t := setStp (fun p => { p with updRun := false, updDone := true }) (printSparse s)
      tryCommit (writeRecord { t.stp.rc with state := 4 } t))) ∧
  (∀ (s : State), exec .tCommitInstant s = .next (
    if s.stp.rc.state = 4 ∧ s.stp.comRun = false ∧ s.stp.tCommit ≤ nsOf s then
      joinCommit s
    else s)) ∧
  (∀ (s : State), s.stp.absent.contains s.stp.own_ = true → joinCommit s = endStep 7 s) ∧
  (∀ (s : State), s.stp.absent.contains s.stp.own_ = false →
    let t := fixItems { s with stp := { s.stp with comRun := true } }
    joinCommit s = startSmall 1 (commitBytes t) (if t.stp.own_ = 0 then excludeAbsent t else t)) ∧
  (∀ (sent : CommitItems) (s : State), s.stp.rc.state = 4 → s.stp.comRun = true → sent.plumb = false →
    exec (.commitCollectiveComplete sent) s = .next (
      let items := presentItems s sent
      let a := (allShards s).foldl (fun s p => comparePrint items p s) s
      let b := (commitTensors a items).foldl (fun s i => commitTensor items i s) a
      let c := (loadedGroups b).foldl (fun s g => watchGroup items g s) b
      let d := writeRecord { c.stp.rc with staged := true } c
      let todo := rebaseShards items d
      let e := todo.foldl (fun s p => rebaseShard p.1 p.2 s) d
      finishCommit (adoptStaged todo (setStp (fun p => { p with rebased := !todo.isEmpty }) e)))) ∧
  (∀ (s : State), s.stp.deltaDue = true → exec .deltaFormationComplete s = .next { s with
    stp := { s.stp with deltaDue := false }, npx := { s.npx with encBooks := booksFrom s s.stp.rc.outer } })

/-- R36, R37, R244, R253 to R259, R263 to R265, R267, R269. What the update does: contributions enter the reduction grid,
blocks start in a journal slot and are written in three groups, blocks that cannot be read are left as they were, and the
combined sums of a group end LAMB's and Adafactor's factors. -/
def Obligations.UpdateEvents : Prop :=
  (∀ (stack : BitVec 3) (shard : BitVec 11) (block : W32) (gen : Bool) (contrib : Contribution) (s : State),
    exec (.gridAdd stack shard block gen contrib) s =
      .next (gridAdd stack.toNat shard.toNat block.toNat gen contrib s)) ∧
  (∀ (stack : BitVec 3) (shard : BitVec 11) (block : W32) (sh : Shard) (s : State),
    let k := stack.toNat
    let i := shard.toNat
    let b := block.toNat
    let u := b % 16
    let r := readBlock k sh.desc b true s
    shardOf s k i = some sh → s.stp.updRun = true → s.stp.rc.state = 3 → b < sdBlocks sh.desc →
    sget false sh.updated b = false → s.cbl.flight = [] → sumsReady s sh.desc = true → lowerStarted s k i sh b = true →
    (stackOf s k).stopped = false →
    (sh.torn = true → exec (.weightBlockStart stack shard block) s = .next (markUpdated k i b s)) ∧
    (sh.torn = false → blockDue s sh.desc b = false →
      exec (.weightBlockStart stack shard block) s = .next (leaveBlock k i sh.desc b s)) ∧
    (sh.torn = false → blockDue s sh.desc b = true → r.1 = false →
      exec (.weightBlockStart stack shard block) s = .next (leaveBlock k i sh.desc b (markInvalid k i r.2))) ∧
    (sh.torn = false → blockDue s sh.desc b = true → r.1 = true → freeSlots r.2 k u ≠ [] →
      ∃ j ∈ freeSlots r.2 k u, exec (.weightBlockStart stack shard block) s = .next (
        let t := journalBlock k i sh.desc b j { r.2 with free := r.2.free + 1 }
        { t with cbl := { t.cbl with flight := t.cbl.flight ++
          [{ stack := k, unit := u, slot := j, shard := i, block := b, phase := 1 }] } }))) ∧
  (∀ (stack : BitVec 3) (shard : BitVec 11) (block : W32) (f : Flight) (sh : Shard) (s : State),
    let k := stack.toNat
    let i := shard.toNat
    let b := block.toNat
    let r := readBlock k sh.desc b false s
    let inPhase (p : Nat) (s : State) : State :=
      { s with cbl := { s.cbl with flight := s.cbl.flight.map (fun x => if x = f then { x with phase := p } else x) } }
    let ended (s : State) : State := { s with cbl := { s.cbl with flight := s.cbl.flight.filter (· ≠ f) } }
    let left (s : State) : State := ended (leaveBlock k i sh.desc b (markInvalid k i (retireEntry k f.unit f.slot s)))
    shardOf s k i = some sh →
    s.cbl.flight.find? (fun f => decide (f.stack = k) && decide (f.shard = i) && decide (f.block = b)) = some f →
    (s.stp.rc.state ≠ 3 → exec (.writeGroupComplete stack shard block) s = .next (ended s)) ∧
    (s.stp.rc.state = 3 → f.phase = 1 → exec (.writeGroupComplete stack shard block) s = .next (
      if r.1 then inPhase 2 (groupM k i sh.desc b f.unit f.slot r.2) else left r.2)) ∧
    (s.stp.rc.state = 3 → f.phase = 2 → exec (.writeGroupComplete stack shard block) s = .next (
      if r.1 then inPhase 3 (groupW k i sh.desc b f.unit f.slot r.2)
      else left (restoreMoments k sh.desc b f.unit f.slot r.2))) ∧
    (s.stp.rc.state = 3 → f.phase = 3 → exec (.writeGroupComplete stack shard block) s = .next (
      ended (markUpdated k i b (bump (retireEntry k f.unit f.slot s) (cCbl k 0x160)))))) ∧
  (∀ (group : BitVec 10) (sums : GroupSums) (s : State),
    let g := group.toNat
    let tb := tableOf s g
    let formed (tr rm : FVal) (s : State) : State :=
      setTable g (tb.1, tb.2.1, to32 tr, to32 rm) { s with cbl := { s.cbl with sums := sput false s.cbl.sums g true } }
    s.stp.updRun = true → (s.stp.rc.state = 3 ∨ s.stp.rc.state = 6) → sget false s.cbl.sums g = false →
    grFrozen (groupRaw s g) = false →
    (groupOpt s g = 6 → exec (.groupSumsComplete group sums) s = .next (
      let own := sget (Exact.zero, Exact.zero) s.cbl.lamb g
      resumeGroup g (formed (trustRatio (own.1.add (ofExactWord sums.u2)) (own.2.add (ofExactWord sums.w2))) .zero s))) ∧
    (groupOpt s g = 5 → sget none s.cbl.adaRow g = none →
      exec (.groupSumsComplete group sums) s = .next (resumeGroup g (adaForm g sums s))) ∧
    (∀ rs : Exact, groupOpt s g = 5 → sget none s.cbl.adaRow g = some rs →
      exec (.groupSumsComplete group sums) s = .next (resumeGroup g (formed .zero
        (div32 (rs.add (ofExactWord sums.rs)).read (rnd32 (.ofNat (adaGroupRows s g sums.rows.toNat)))) s))))

/-- Table 9-1, R240, R241. The operations a corbel unit makes on the aligned word of a stack-local region that it names:
each answers what the table gives from the word read and stores its result at the word's own address; SWAP and CAS
return the word. -/
def Obligations.MemorySideOperations : Prop :=
  ∀ (addr : BitVec 48) (k : Nat) (s : State),
    let a := addr.toNat
    let r := readDev (.corbel k) 8 a 8 s
    let (w, t) := (leNat r.1.data, r.2)
    let r' := readDev (.corbel k) 8 a 88 s
    let exact (e : Exact) : State := writeTo (.corbel k) 8 a (leBytes 88 (bit e.nf + 2 ^ 64 * e.val)) r'.2
    corbelStack s a = some k →
    (∀ x : W64,
      let sum := signed 64 w + signed 64 x.toNat
      let sat := max (-(2 ^ 63 - 1)) (min (2 ^ 63 - 1) sum)
      exec (.addI64 addr x) s = .next (writeTo (.corbel k) 8 a (leBytes 8 (unsigned 64 sat))
        (if sat = sum then t else bump t (cCbl k 0x150)))) ∧
    (∀ x : W32,
      let v := add32 (f32 (w % 2 ^ 32)) (f32 x.toNat)
      exec (.addF32 addr x) s = .next (writeTo (.corbel k) 8 a (leBytes 4 (to32 v))
        (if (f32 (w % 2 ^ 32)).isFin && (f32 x.toNat).isFin && v.isInf then bump t (cCbl k 0x150) else t))) ∧
    (∀ x : W32, exec (.maxF32 addr x) s =
      .next (writeTo (.corbel k) 8 a (leBytes 4 (to32 (fmax (f32 (w % 2 ^ 32)) (f32 x.toNat)))) t)) ∧
    (∀ x : W32, exec (.minF32 addr x) s =
      .next (writeTo (.corbel k) 8 a (leBytes 4 (to32 (fmin (f32 (w % 2 ^ 32)) (f32 x.toNat)))) t)) ∧
    (∀ x : W64, exec (.or64 addr x) s = .next (writeTo (.corbel k) 8 a (leBytes 8 (w ||| x.toNat)) t)) ∧
    (∀ x : W64, exec (.swap64 addr x) s =
      .next (emit (.opReturn a w) (writeTo (.corbel k) 8 a (leBytes 8 x.toNat) t))) ∧
    (∀ c x : W64, exec (.cas64 addr c x) s =
      .next (emit (.opReturn a w) (if w = c.toNat then writeTo (.corbel k) 8 a (leBytes 8 x.toNat) t else t))) ∧
    (∀ x : W32, exec (.sqAdd addr x) s = .next (exact ((exactOf (leNat r'.1.data)).sqAdd (f32 x.toNat)))) ∧
    (∀ x : W32, exec (.linAdd addr x) s = .next (exact ((exactOf (leNat r'.1.data)).linAdd (f32 x.toNat))))

/-- R506 to R515, R523, R532, R538, R539, Tables 18-1 to 18-6. What the contacts, the supplies and the resets do. -/
def Obligations.ResetEvents : Prop :=
  (∀ (straps : BitVec 9) (s : State), s.pwr.auxOk = false →
    exec (.auxPowerOn straps) s = .next (coldReset 1 { s with pwr := { s.pwr with
      auxOk := true, auxAt := 0, straps := strapWord straps.toNat } })) ∧
  (∀ (s : State), s.pwr.auxOk = true →
    exec .coldRstLAssert s = .next (
      let t := coldReset 2 s
      updateFault { t with pwr := { t.pwr with tripped := s.pwr.tripped, fault := s.pwr.fault } })) ∧
  (∀ (s : State), s.pwr.auxOk = true →
    exec .auxSupplyLow s = .next (setPwr (fun p => { p with auxOk := false, stage := 0 }) (coldState s))) ∧
  (∀ (s : State), powered s = false → exec .mrstLAssert s = .next s) ∧
  (∀ (s : State), powered s = true → ∃ t, exec .mrstLAssert s = .next t ∧ t.pwr.stage = 3 ∧ t.pwr.training = 9 ∧
    t.pwr.state = 0 ∧ t.tiles = [] ∧ t.course = [] ∧ t.host.queues = [] ∧ t.tm.now = s.tm.now ∧ t.pending = s.pending) ∧
  (∀ (s : State), exec .perstAssert s = .next (
    let t : State := { s with pwr := { s.pwr with perst := true } }
    if powered s then { hostInterfaceReset true t with
      host := { (hostInterfaceReset true t).host with training := false } } else t)) ∧
  (∀ (s : State), exec .perstDeassert s = .next { s with
    pwr := { s.pwr with perst := false }
    host := { s.host with training := s.host.training || (powered s && !s.host.linkUp) } }) ∧
  (∀ (s : State),
    exec .pwrEnLAssert s = .next { s with pwr := { s.pwr with
      pwrEn := true, enAt := if s.pwr.pwrEn then s.pwr.enAt else nsOf s } } ∧
    exec .pwrEnLDeassert s = .next (mainLoss 1 0 { s with pwr := { s.pwr with pwrEn := false } }) ∧
    exec .prsntLAssert s = .next { s with pwr := { s.pwr with
      prsnt := true, prsntAt := if s.pwr.prsnt then s.pwr.prsntAt else nsOf s } } ∧
    exec .prsntLDeassert s = .next (mainLoss 5 0 { s with pwr := { s.pwr with prsnt := false } }) ∧
    exec .mainInputLow s = .next (mainLoss 2 0 { s with pwr := { s.pwr with mainOk := false } }) ∧
    exec .mainInputReturn s = .next { s with pwr := { s.pwr with mainOk := true } }) ∧
  (∀ (asserted : Bool) (s : State),
    exec (.locateLChange asserted) s = .next { s with pwr := { s.pwr with locate := asserted } }) ∧
  (∀ (s : State), s.pwr.stage = 1 → s.pwr.auxOk = true → s.pwr.prsnt = true → s.pwr.pwrEn = true → s.pwr.mainOk = true →
    s.pwr.auxAt + 20000000 ≤ nsOf s → s.pwr.prsntAt + 10000000 ≤ nsOf s → s.pwr.enAt + 10000000 ≤ nsOf s →
    exec .mainPowerRamp s = .next { s with pwr := { s.pwr with stage := 2 } }) ∧
  (∀ (s : State), s.pwr.stage = 2 → exec .railsGood s = .next { s with
    pwr := { s.pwr with stage := 3 }, host := { s.host with training := !s.pwr.perst } }) ∧
  (∀ (puf : Bool) (bits : W16) (s : State), s.pwr.stage = 3 →
    exec (.islandBootComplete puf bits) s = .next (updateFault (setPwr (fun p => { p with stage := 4 }) (bootIsland (
      if s.pwr.training = 1 ∨ s.pwr.training = 2 then
        bumpN { s with sec := { s.sec with pufOk := puf } } (cSec 0x118) bits.toNat
      else s))))) ∧
  (∀ (results : List (BitVec 10 × List LaneEye × List (BitVec 5))) (test : BitVec 101) (s : State),
    (s.pwr.stage = 4 → exec (.treimTrainingComplete ⟨results, test⟩) s = .next (startUp results test.toNat s)) ∧
    (s.pwr.stage = 5 → s.pwr.state = 3 → s.pwr.fenced = false → exec (.treimTrainingComplete ⟨results, test⟩) s =
      .next (setPwr (fun p => { p with state := 0 }) (wakeStacks (results.foldl (fun s r => trainOne r s) s)))))

/-- R411 to R415, R516, R519, R521, R522, R528, R529. What power, temperature and the control cores do: self-refresh of a
bedded module, the limiter, the levels of dies and stacks and what they stop, a core's failure, and the mirror of the
sticky log. -/
def Obligations.PowerEvents : Prop :=
  (∀ (stack : BitVec 3) (s : State), s.pwr.state = 1 → exec (.selfRefreshEntry stack) s = .next (
    let t := poolDrainStack stack.toNat s
    let u := setStack t stack.toNat { stackOf t stack.toNat with selfRefresh := true }
    if (List.range 8).all (fun k => (stackOf u k).selfRefresh) then setPwr (fun p => { p with state := 2 }) u else u)) ∧
  (∀ (watts : W16) (volt : Byte) (s : State), powered s = true →
    let t : State := { s with pwr := { s.pwr with
      samples := (watts.toNat :: s.pwr.samples).take 1000, sinceUp := s.pwr.sinceUp + 1, volt := volt.toNat } }
    let sum := t.pwr.samples.foldl (· + ·) 0
    let trips := t.pwr.samples.length = 1000 ∧ (s.pwr.k = 8 ∧ 1100 * powerLimit s < sum ∨ 2640000 < sum)
    (trips → exec (.powerSample watts volt) s = .next (mainLoss 3 0 t)) ∧
    (¬ trips → exec (.powerSample watts volt) s = .next (limiterStep t))) ∧
  (∀ (die : BitVec 5) (temp : W16) (s : State),
    let d := die.toNat
    powered s = true → d ≤ 20 → (d < 9 ∨ Config.variantLE = false) →
    let l := dieNext d (dieLevel s d) temp.toInt
    let t : State := { s with pwr := { s.pwr with temps := sput (0, 0) s.pwr.temps d (temp.toNat, l) } }
    (d < 9 → 16 * 120 ≤ temp.toInt → exec (.dieTempSample die temp) s = .next (mainLoss 4 d t)) ∧
    ((9 ≤ d ∨ temp.toInt < 16 * 120) → exec (.dieTempSample die temp) s = .next (
      let u := if dieLevel s d < l then bump t (cPwr 0x110) else t
      dieChange d (dieLevel s d) l (setClock (if thermalCap s < thermalCap u then bump u (cPwr 0x108) else u))))) ∧
  (∀ (stack : BitVec 3) (die : BitVec 4) (temp : W16) (s : State),
    let k := stack.toNat
    let st := stackOf s k
    let dies := sput 0 st.dieTemp die.toNat temp.toNat
    let ts := (List.range 16).map (fun i => (BitVec.ofNat 16 (sget 0 dies i)).toInt)
    let hot := ts.foldl max (ts.headD 0)
    powered s = true → nextLevel 85 95 105 90 st.level hot = st.level →
    exec (.stackTempReport stack die temp) s = .next (stackTrip k hot
      (setStack s k { st with dieTemp := dies, temp := (BitVec.ofInt 16 hot).toNat, level := st.level }))) ∧
  (∀ (stack : BitVec 3) (s : State), (stackOf s stack.toNat).stopping = true →
    exec (.stackStopComplete stack) s = .next (
      let t := poolDrainStack stack.toNat s
      setStack t stack.toNat { stackOf t stack.toNat with stopping := false, stopped := true, selfRefresh := true })) ∧
  (∀ (core : BitVec 3) (s : State),
    exec (.coreWatchdogTimeout core) s = .next (coreFail core.toNat s) ∧
    exec (.coreEccFault core) s = .next (coreFail core.toNat s)) ∧
  (∀ (s : State), s.slog.mirrored + 1000000 ≤ nsOf s → exec .stickyLogMirror s = .next ((List.range 8).foldl (fun t k =>
    if !(stackOf t k).applied || (stackOf t k).stopped then t
    else fwWrite k 0x03000000 ((List.range 256).flatMap (fun i => leBytes 32 ((slogRecords s).getD (256 * k + i) 0))) t)
    { s with slog := { s.slog with mirrored := nsOf s } }))

/-- R456, R540, R541. What the management controller answers on its bus: transactions that fail their check are counted,
MCTP and PLDM messages are answered, commands of a vendor-defined message begin, and ALERT_L is released once its
address has been read. -/
def Obligations.ManagementMessages : Prop :=
  (∀ (bytes : List Byte) (s : State),
    let n := bytes.length
    s.pwr.auxOk = true → leAt bytes 0 1 = 2 * field s.pwr.straps 6 0 →
    ((n < 9 ∨ leAt bytes 1 1 ≠ 0x0F ∨ leAt bytes 2 1 + 4 ≠ n ∨ smbusPec (bytes.take (n - 1)) ≠ leAt bytes (n - 1) 1) →
      exec (.smbusTransaction bytes) s = .next (bump s (mgtBase + 0x118))) ∧
    (9 ≤ n → leAt bytes 1 1 = 0x0F → leAt bytes 2 1 + 4 = n → smbusPec (bytes.take (n - 1)) = leAt bytes (n - 1) 1 →
      exec (.smbusTransaction bytes) s = .next (mctpPacket (leAt bytes 7 1) ((bytes.take (n - 1)).drop 8) s))) ∧
  (∀ (msg : List Byte) (s : State), s.pwr.auxOk = true → 5 ≤ msg.length → 128 ≤ leAt msg 1 1 →
    (leAt msg 2 1 = 1 → 1 ≤ leAt msg 4 1 → leAt msg 4 1 ≤ 254 → exec (.mctpControlMessage msg) s =
      .next (controlAnswer msg 0 ([0] ++ leBytes 1 (leAt msg 4 1) ++ [0]) { s with pwr := { s.pwr with eid := leAt msg 4 1 } })) ∧
    (leAt msg 2 1 = 2 → exec (.mctpControlMessage msg) s = .next (controlAnswer msg 0 (leBytes 1 s.pwr.eid ++ [0, 0]) s)) ∧
    (leAt msg 2 1 = 5 → exec (.mctpControlMessage msg) s = .next (controlAnswer msg 0 [2, 1, 0x7E] s))) ∧
  (∀ (msg : List Byte) (s : State), s.pwr.auxOk = true → s.sec.recovery = false → 5 ≤ msg.length → 128 ≤ leAt msg 1 1 →
    (leAt msg 2 1 % 64 = 0 → exec (.pldmBaseMessage msg) s = .next (pldmBase msg s)) ∧
    (leAt msg 2 1 % 64 = 2 → exec (.pldmMonitoringMessage msg) s = .next (pldmMonitoring msg s)) ∧
    (leAt msg 2 1 % 64 = 4 → exec (.pldmFruMessage msg) s = .next (pldmFru msg s))) ∧
  (∀ (msg : List Byte) (s : State), leAt msg 3 1 = 0x11 → leAt msg 4 2 = 1 →
    pldmMonitoring msg s = pldmAnswer msg 0 ([2, 0, 0, 1, 1, 1] ++ leBytes 2 (pwrInput s / 2 ^ 16)) s) ∧
  (∀ (msg image : List Byte) (s : State), s.pwr.auxOk = true → 4 ≤ msg.length → 128 ≤ leAt msg 1 1 →
    leAt msg 2 1 % 64 = 5 → exec (.pldmFwUpdateMessage msg image) s = .next (pldmFirmware msg image s)) ∧
  (∀ (h : CmdHdr) (op : Nat) (c : Instr) (packet : W512) (s : State),
    h = packetHeader 0 true packet.toNat [] [] → op = field packet.toNat 15 0 →
    s.pwr.auxOk = true → packetError s packet.toNat [] = none →
    commandAt h op (leBytes 48 (packet.toNat / 2 ^ 128)) = some c →
    exec (.mctpVendorCommand 0x1F6B packet) s = .next (mctpSubmit h op (body c) c s)) ∧
  (∀ (s : State), s.pwr.auxOk = true → s.pwr.alert = true →
    let a : Byte := BitVec.ofNat 8 (2 * field s.pwr.straps 6 0)
    exec .smbusAlertResponse s = .next (emit (.pin 20 true)
      (emit (.smbus [a, BitVec.ofNat 8 (smbusPec [0x19, a])]) { s with pwr := { s.pwr with alert := false } })))

/-- R304 to R320. What line time does besides its timers: references are followed or lost, exchanges are sent, the backup
root takes over, pulses come and go, and a budget period ends. -/
def Obligations.TimeEvents : Prop :=
  (∀ (s : State), timeRole s = 2 → s.tm.backup0 = false → s.tm.zeroAt + 1000000000 ≤ nsOf s →
    (∀ p < 24, ¬ ((pathOf s p).state = 2 ∧ (pathOf s p).stratum = 0)) →
    exec .backupRootTakeover s = .next (
      timeTree { enterHoldover s with tm := { (enterHoldover s).tm with backup0 := true } })) ∧
  (∀ (port : BitVec 4) (domain : Byte) (ptp : BitVec 96) (s : State),
    let want := if flag (ltuCfg s) 27 then 6 else 0
    timeRole s = 1 → timeSource s = 1 → port.toNat = want → portMode s want = 3 → inService s want = true →
    domain.toNat = field (getReg s (ltuBase + 4)) 31 24 →
    exec (.ptpMessageReceive port domain ptp) s = .next (
      let t : State := { s with tm := { s.tm with srcOk := true, ptpAt := nsOf s } }
      timeTree (correct ((ptp.toNat : Int) - (epochNs t * 65536 : Nat) - t.tm.now) t))) ∧
  (∀ (s : State), timeRole s = 1 → timeSource s = 1 → s.tm.srcOk = true →
    s.tm.ptpAt + 3000000000 ≤ nsOf s →
    exec .ptpMasterLoss s = .next (enterHoldover (bump { s with tm := { s.tm with srcOk := false } } (ltuBase + 0x118)))) ∧
  (∀ (sec nb : Nat) (s : State), timeRole s = 1 → timeSource s = 2 → s.tm.ppsName = some (sec, nb) → nb ≤ nsOf s →
    epochNs s ≤ sec * 1000000000 →
    exec .ppsInEdge s = .next (ppsAccept sec (sec * 1000000000 - epochNs s) s)) ∧
  (∀ (t : Nat) (s : State), timeRole s = 1 → timeSource s = 2 → s.tm.ppsName = none → s.tm.ppsNext = some t →
    (((t * 65536 : Nat) - (s.tm.now : Int)).natAbs ≤ 65536 * 1000 →
      exec .ppsInEdge s = .next (ppsAccept (s.tm.ppsSec + 1) t s)) ∧
    (65536 * 1000 < ((t * 65536 : Nat) - (s.tm.now : Int)).natAbs →
      exec .ppsInEdge s = .next (ppsFail (bump s (ltuBase + 0x118))))) ∧
  (∀ (t : Nat) (s : State), timeRole s = 1 → timeSource s = 2 → s.tm.ppsNext = some t → t + 1000 < nsOf s →
    exec .ppsEdgeMissing s = .next (ppsFail { s with tm := { s.tm with
      ppsNext := some (t + 1000000000), ppsSec := s.tm.ppsSec + 1 } })) ∧
  (∀ (s : State), flag (ltuCfg s) 3 = true → 2 ≤ s.tm.state → nsOf s % 1000000000 = 0 →
    exec .ppsOutPulse s = .next { s with out := .pin 25 false :: .pin 25 true :: s.out }) ∧
  (∀ (present : Bool) (s : State), exec (.ref10mChange present) s = .next { s with tm := { s.tm with ref10m := present } }) ∧
  (∀ (path : BitVec 5) (s : State),
    let p := path.toNat
    let t := beginExchange p s
    let body (nipen : Bool) := timeBody nipen t.tm.stratum false t.tm.now 0 0
    (pathOf s p).due ≤ nsOf s →
    (p < 12 → portNative s p = true → inService s p = true →
      exec (.timeExchangeSend path) s = .next (sendTimeFrame p (portOf t p).peer (body false) t)) ∧
    (16 ≤ p → p < 24 → (pathOf s p).partner.1 = true →
      exec (.timeExchangeSend path) s = .next (sendPacket 6 16 (timePartner t p) (wNow t) 0 0 1 0 (body true) t))) ∧
  (∀ (s : State), nsOf s % periodNs s = 0 → s.tm.steer.natAbs ≤ periodNs s * 65536 / 5000 →
    exec .budgetPeriodBoundary s = .next (
      let t := applyPeriod (applyBudget s)
      let u := if (List.range 8).any (fun k => (stackOf t k).level = 2) then bump t (bgtBase + 0x508) else t
      (List.range 12).foldl (fun v p => portPeriod p v) { u with bud := { u.bud with use := [], lent := [] } }))

/-- R185 to R189, R204, R208, R211, R225. What a Treim channel and the pool of a pier do in time: measurements of a lane,
retraining, the rebuild of a lost channel, refresh, the scrub, and the release of absorbed writes. -/
def Obligations.TreimEvents : Prop :=
  (∀ (channel : BitVec 10) (w h : Byte) (s : State),
    let g := channel.toNat
    let c := chanOf s g
    c.spareFor = 31 → c.retraining = false → chanIdle s g = false → c.calIvl ≠ calInterval s + 1 →
    exec (.calibrationInterval channel w h) s = .next (eyeFound g c.calLane w.toNat h.toNat
      (setChan s g { c with calLane := (c.calLane + 1) % 19, calIvl := calInterval s + 1 }))) ∧
  (∀ (channel : BitVec 10) (w h : Byte) (s : State),
    let g := channel.toNat
    let c := chanOf s g
    let lane := if c.calLane ≥ 18 ∨ c.calLane = c.erased then nextLane c.erased 17 else c.calLane
    let t := charge 14 (.channel g) 64 s
    c.spareFor ≠ 31 → c.retraining = false → chanIdle s g = false → (nsOf s / periodNs s + g) % quietEvery s = 0 →
    (c.calPoint < 31 → exec (.quietSlot channel w h) s =
      .next (setChan t g { c with calLane := lane, calPoint := c.calPoint + 1 })) ∧
    (31 ≤ c.calPoint → exec (.quietSlot channel w h) s =
      .next (eyeFound g lane w.toNat h.toNat (setChan t g { c with calLane := nextLane c.erased lane, calPoint := 0 })))) ∧
  (∀ (channel : BitVec 10) (d : Nat) (s : State),
    let g := channel.toNat
    let c := chanOf s g
    c.due = some d → d ≤ nsOf s → nsOf s % periodNs s = 0 → c.retraining = false → chanIdle s g = false →
    (∀ i < 16, (chanOf s (g / 16 * 16 + i)).retraining = false) →
    exec (.retrainStart channel) s =
      .next (bump (setChan s g { c with retraining := true, due := none, weak := false, waited := false })
        (cTrm (g / 128) 0x128))) ∧
  (∀ (channel : BitVec 10) (i d : Nat) (s : State),
    let g := channel.toNat
    let c := chanOf s g
    c.due = some d → d ≤ nsOf s → nsOf s % periodNs s = 0 → c.retraining = false → chanIdle s g = false → i < 16 →
    (chanOf s (g / 16 * 16 + i)).retraining = true → c.waited = false →
    exec (.retrainStart channel) s = .next (bump (setChan s g { c with waited := true }) (cTrm (g / 128) 0x130))) ∧
  (∀ (channel : BitVec 10) (lanes : List LaneEye) (tsv : List (BitVec 5)) (lost : Bool) (s t : State),
    let g := channel.toNat
    let c := chanOf s g
    c.retraining = true → trainChannel g lanes tsv s = (lost, t) →
    let u := setChan t g { chanOf t g with retraining := false, refDefer := 0 }
    (lost = true → exec (.retrainComplete channel lanes tsv) s = .next (loseChannel g u)) ∧
    (lost = false → exec (.retrainComplete channel lanes tsv) s = .next (
      let v := charge 15 (.channel g) (2 * c.refDefer)
        (if c.erased = 31 ∧ (chanOf t g).erased ≠ 31 then postEvent 0x0002 g (5 * 4096 + g / 128) u else u)
      poolDrain (g / 128 / 2) (fun e =>
        e.absorbed && (placeOf v (e.granule * 512)).any (fun q => q.1 * 128 + q.2.1 = g)) v))) ∧
  (∀ (channel : BitVec 10) (s : State),
    let g := channel.toNat
    let k := g / 128
    let c := g % 128
    let mates := stripeMates s k c
    let n := bracedBelow s k c (2 ^ 20)
    chanLost s k c = true → (stackOf s k).mapx.testBit c = false → (chanOf s g).rebuilt = false →
    (∀ m ∈ mates, chanLost s k m = false) → mateHeld s k c = false →
    (stackOf s k).selfRefresh = false → (stackOf s k).stopped = false →
    exec (.lostChannelRebuild channel) s = .next (
      let t := (List.zip (List.range mates.length) mates).foldl (fun t m =>
        charge 14 (.channel (k * 128 + m.2)) (8 * (n + (n + mates.length - 1 - m.1) / mates.length)) t) s
      let u := (brokenLines t k c).foldl (fun u a => poisonLine k a u) t
      setChan (bumpN u (cTrm k 0x110) (8 * n)) g { chanOf u g with rebuilt := true })) ∧
  (∀ (channel : BitVec 10) (upsets : List Upset) (s : State),
    let g := channel.toNat
    let k := g / 128
    let t := upsets.foldl (fun t u => treimUpset k (g % 128) u t) s
    let per := nsOf t / periodNs t + 1
    let c := { chanOf t g with refPer := per }
    let n := refreshCount t k
    (stackOf t k).selfRefresh = false → (chanOf t g).refPer ≠ per →
    (c.retraining = true → exec (.refreshPeriod ⟨channel, upsets⟩) s =
      .next (bumpN (setChan t g { c with refDefer := c.refDefer + n }) (cTrm k 0x158) n)) ∧
    (c.retraining = false → exec (.refreshPeriod ⟨channel, upsets⟩) s =
      .next (charge 15 (.channel g) (2 * n) (setChan t g c)))) ∧
  (∀ (stack : BitVec 3) (error : List Byte) (a c q r x y z : Nat) (s : State),
    let k := stack.toNat
    let st := stackOf s k
    let t := bump (setStack s k { (if a < st.scrub * 64 then { st with ceRows := [] } else st) with scrub := a / 64 + 1 })
      (cTrm k 0x170)
    let u := addUpset a (leAt (slice error 0 72) 0 72) t
    field (getReg s (trmBase + 0x4000)) 7 0 ≠ 0 → st.applied = true → st.selfRefresh = false → st.stopped = false →
    scrubFind s k 4096 (st.scrub * 64) = some a → placeOf s a = some (x, c, q) → servedBy s a = some (y, r, z) →
    (chanLost t k r = false → exec (.patrolScrub stack error) s = .next (fetchLine 14 false a k c q u).2) ∧
    (chanLost t k r = true → exec (.patrolScrub stack error) s = .next (fetchLine 14 false a k c q t).2)) ∧
  (∀ (pier : BitVec 2) (upsets : List Upset) (s : State), exec (.poolAgeRelease ⟨pier, upsets⟩) s = .next (
    let t := upsets.foldl (fun t u => plinthUpset pier.toNat u t) s
    poolDrain pier.toNat (fun e => !e.absorbed && decide (e.since + poolAgeNs t pier.toNat < nsOf t)) t)) ∧
  (∀ (a k c q : Nat) (s : State), (stackOf s k).contentLost = false →
    (chanLost s k c = false → (chanOf s (k * 128 + c)).retraining = false →
      fetchLine 14 false a k c q s = readLine 14 false k c q a s) ∧
    (chanLost s k c = true → regionBraced s (a / 2 ^ 30) = false → fetchLine 14 false a k c q s = readPoison k a s) ∧
    (chanLost s k c = true → regionBraced s (a / 2 ^ 30) = true → chanRebuilt s k c = false →
      sget false s.poison (a / 64) = false → (∀ m ∈ stripeMates s k c, chanLost s k m = false) →
      fetchLine 14 false a k c q s = rebuildLine 14 false k c a s) ∧
    (chanLost s k c = true → regionBraced s (a / 2 ^ 30) = true → chanRebuilt s k c = true →
      chanLost s k (reserveChan s k c q) = false →
      fetchLine 14 false a k c q s = readLine 14 false k (reserveChan s k c q) (reserveRow s k c q) a s))

/-- R29, R295, R336, R344, R345, R356, R357, R359 to R361, R368. What the frames of the fabric do once taken: a frame its
flow expects moves the flow on and acts by its kind, acknowledgements release and resend, control frames act by their
code, and a time frame carries an exchange. -/
def Obligations.FrameEvents : Prop :=
  ∀ (port : BitVec 4) (frame : List Byte) (f : RxFrame) (s : State),
    let p := port.toNat
    let t := counted p f s
    Taken p frame f s →
    (∀ r, Expected f r t →
      let u := advanced f r t
      (nhKind f.hdr = 1 → exec (.writeFrameReceive port frame) s = .next (rxWrite p f u)) ∧
      (∀ form h, nhKind f.hdr = 2 → nhHandle f.hdr < 0xFFF0 → consumerQueue u (nhHandle f.hdr) = none →
        handleOf u (nhHandle f.hdr) = some h →
        exec (.contribFrameReceive port ⟨frame, form⟩) s = .next (rxContrib p (nhHandle f.hdr) h { f with form := form } u)) ∧
      (∀ form q, nhKind f.hdr = 2 → nhHandle f.hdr < 0xFFF0 → consumerQueue u (nhHandle f.hdr) = some q →
        exec (.contribFrameReceive port ⟨frame, form⟩) s =
          .next (queueArrive (nhHandle f.hdr) (nhAddr f.hdr) (nhGen f.hdr) f.payload u)) ∧
      (∀ h, nhKind f.hdr = 3 → nhHandle f.hdr < 0xFFF0 → handleOf u (nhHandle f.hdr) = some h →
        exec (.resultFrameReceive port frame) s = .next (rxResult p (nhHandle f.hdr) h f u)) ∧
      (nhKind f.hdr = 4 → exec (.creditFrameReceive port frame) s = .next (rxCredit p f u)) ∧
      (nhKind f.hdr = 7 → leAt f.payload 0 1 = 1 →
        exec (.ctrlExcludeSelf port frame) s = .next (rxRunCtrl p 1 f u)) ∧
      (nhKind f.hdr = 7 → leAt f.payload 0 1 = 2 → exec (.ctrlSlow port frame) s = .next (rxRunCtrl p 2 f u)) ∧
      (nhKind f.hdr = 7 → leAt f.payload 0 1 = 3 → exec (.ctrlPartLost port frame) s = .next (rxRunCtrl p 3 f u)) ∧
      (nhKind f.hdr = 7 → leAt f.payload 0 1 = 4 → exec (.ctrlFlowClose port frame) s = .next (rxFlowClose f u)) ∧
      (nhKind f.hdr = 7 → leAt f.payload 0 1 = 5 → exec (.ctrlBuddyCheck port frame) s = .next (rxBuddy f u))) ∧
    (nhKind f.hdr = 5 → exec (.ackFrameReceive port frame) s =
      .next (ackFlow (nhSrc f.hdr) (nhIdx f.hdr % 8) (nhSeq f.hdr) t)) ∧
    (nhKind f.hdr = 6 → nhLast f.hdr = true → exec (.nackFrameReceive port frame) s =
      .next (restartFlow (nhSrc f.hdr) (nhIdx f.hdr % 8) t)) ∧
    (nhKind f.hdr = 6 → nhLast f.hdr = false → exec (.nackFrameReceive port frame) s =
      .next (resendFrom (nhSrc f.hdr) (nhIdx f.hdr % 8) (nhSeq f.hdr)
        (ackFlow (nhSrc f.hdr) (nhIdx f.hdr % 8) (nhSeq f.hdr) t))) ∧
    (nhKind f.hdr = 8 → exec (.timeFrameReceive port frame) s =
      .next (timeMessage false p f.payload (sendTimeFrame p (nhSrc f.hdr)) t))

/-- R336. Every received native frame is counted, and one that fails a check is counted for that check and discarded. -/
def Obligations.FrameChecks : Prop :=
  ∀ (port : BitVec 4) (frame : List Byte) (s : State),
    let p := port.toNat
    let t := bump s (cFab p 0x108)
    inService s p = true → portNative s p = true →
    (fcsOk frame = false → exec (.writeFrameReceive port frame) s = .next (bump t (cFab p 0x110))) ∧
    (∀ f, fcsOk frame = true → parseFrame s p frame = some f →
      (e2eCheck f.hdr f.payload ≠ f.check →
        exec (.writeFrameReceive port frame) s = .next (bump t (cFab p 0x118))) ∧
      (e2eCheck f.hdr f.payload = f.check →
        (nhVersion f.hdr ≠ 1 ∨ nhKind f.hdr = 0 ∨ 8 < nhKind f.hdr ∨ nhLen f.hdr ≠ f.payload.length) →
        exec (.writeFrameReceive port frame) s = .next (bump t (cFab p 0x130))) ∧
      (e2eCheck f.hdr f.payload = f.check → nhVersion f.hdr = 1 → 1 ≤ nhKind f.hdr → nhKind f.hdr ≤ 8 →
        nhLen f.hdr = f.payload.length → nhJob f.hdr ≠ jobId s →
        exec (.writeFrameReceive port frame) s = .next (bump t (cFab p 0x120))))

/-- R334, R344 to R348, R351. What the ports and flows of the fabric do: pause frames and their expiry, failed lanes,
training, retransmission, idle flows, acknowledgements and probes. -/
def Obligations.PortEvents : Prop :=
  (∀ (port : BitVec 4) (enable : Byte) (times : List W16) (s : State),
    let p := port.toNat
    portMode s p = 2 → inService s p = true →
    exec (.pauseFrameReceive port enable times) s = .next (
      let t := bump s (cFab p 0x150)
      let o := portOf t p
      let on := enable.toNat &&& field (portCfg t p) 15 8
      let m := (maskBits 8 on).foldl (fun m q =>
        if (times.getD q 0).toNat = 0 then m &&& (255 ^^^ 2 ^ q) else m ||| 2 ^ q) o.paused
      pumpPort p (setPort t p { o with
        paused := m
        pause := (maskBits 8 (on &&& m)).foldl (fun l q => sput (0, 0) l q
          (if o.paused.testBit q then (sget (0, 0) o.pause q).1 else nsOf t, nsOf t + pauseNs t p (times.getD q 0).toNat))
          o.pause }))) ∧
  (∀ (port : BitVec 4) (prio : BitVec 3) (s : State), (portOf s port.toNat).paused.testBit prio.toNat = true →
    (sget (0, 0) (portOf s port.toNat).pause prio.toNat).2 ≤ nsOf s →
    exec (.pauseTimeExpiry port prio) s = .next (pumpPort port.toNat (setPort s port.toNat { portOf s port.toNat with
      paused := (portOf s port.toNat).paused ^^^ 2 ^ prio.toNat }))) ∧
  (∀ (port : BitVec 4) (prio : BitVec 3) (s : State),
    let p := port.toNat
    (portOf s p).paused.testBit prio.toNat = true → inService s p = true → field (portCfg s p) 7 0 ≠ 0 →
    (sget (0, 0) (portOf s p).pause prio.toNat).1 + field (portCfg s p) 7 0 * 50000 ≤ nsOf s →
    exec (.pauseWatchdogExpiry port prio) s =
      .next (excludeAllUnreachable (stayDown p (portDown p 5 (bump s (cFab p 0x158)))))) ∧
  (∀ (port : BitVec 4) (lane : BitVec 2) (s : State),
    let p := port.toNat
    let half := (portOf s p).state = 2 ∧ portNative s p = true ∧ flag (portCfg s p) 29 = true
    inService s p = true → (portOf s p).lanes.testBit lane.toNat = true →
    (half → exec (.laneFail port lane) s = .next (
      let t := portDown p 1 (bump s (cFab p 0x168))
      excludeAllUnreachable (setPort t p { portOf t p with lanes := if lane.toNat < 2 then 12 else 3 }))) ∧
    (¬ half → exec (.laneFail port lane) s = .next (
      let t := stayDown p (portDown p 0 (bump s (cFab p 0x168)))
      excludeAllUnreachable (setPort t p { portOf t p with lanes := 0 })))) ∧
  (∀ (port : BitVec 4) (credits : Bool) (peer : W16) (s : State),
    let p := port.toNat
    let m := portMode s p
    p < 12 → m ≠ 0 → s.pwr.stage = 5 → (sget (0, 0) s.pwr.temps (9 + p)).2 ≠ 3 → inService s p = false →
    (portOf s p).dead = false → ((portOf s p).lanes = 0 ∨ (portOf s p).lanes = 15) →
    ((m = 1 → credits = true) → exec (.portTrainingComplete port 15 credits peer) s = .next (
      setPath p TimePath.init (forgivePort p (setPort s p { portOf s p with
        state := 2, lanes := 15, native := decide (m = 1), peer := if m = 1 then peer.toNat else 0xFFFF
        used := 0, owed := 0, capped := false })))) ∧
    (m = 1 → credits = false → exec (.portTrainingComplete port 15 credits peer) s =
      .next (setPort s p { portOf s p with state := 1, lanes := 15, since := nsOf s }))) ∧
  (∀ (port : BitVec 4) (s : State),
    let p := port.toNat
    portMode s p = 1 → (portOf s p).native = false → (portOf s p).state = 1 → (portOf s p).lanes ≠ 0 →
    (portOf s p).since + 1000000 ≤ nsOf s →
    exec (.linkCreditTimeout port) s = .next (bump (stayDown p (setPort s p { portOf s p with state := 0 })) (cFab p 0x170))) ∧
  (∀ (dst : W16) (prio : BitVec 3) (f : TxFlow) (u : Nat × Nat × List Byte) (s : State),
    let d := dst.toNat
    let q := prio.toNat
    txFlow s d q = some f → f.unacked.head? = some u → f.at' + field (getReg s fabBase) 9 4 * 1000 ≤ nsOf s →
    let g := { f with touts := f.touts + 1, allTouts := f.allTouts + 1 }
    let t := setTx (bump s (cFab f.port 0x148)) d q (some g)
    exec (.retransmitTimeout dst prio) s = .next (excludeAllUnreachable (
      if 16 ≤ g.allTouts then makeUnreachable d t
      else if 2 ≤ g.touts then repinFlow d q (setTx t d q (some { g with bad := g.bad ++ [g.port] }))
      else resendFrom d q u.1 t))) ∧
  (∀ (dst : W16) (prio : BitVec 3) (f : TxFlow) (s : State),
    txFlow s dst.toNat prio.toNat = some f → f.unacked = [] → f.at' + 1000000 ≤ nsOf s →
    let t := sendCtrl dst.toNat 0 4 0 [BitVec.ofNat 8 prio.toNat] s
    (prio.toNat ≠ 7 → exec (.flowIdleTimeout dst prio) s = .next (setTx t dst.toNat prio.toNat none)) ∧
    (∀ g, prio.toNat = 7 → txFlow t dst.toNat 7 = some g →
      exec (.flowIdleTimeout dst prio) s = .next (setTx t dst.toNat 7 (some { g with closing := true })))) ∧
  (∀ (src : W16) (prio : BitVec 3) (r : RxFlow) (s : State),
    rxFlow s src.toNat prio.toNat = some r → r.unackd ≠ 0 →
    exec (.ackTimer src prio) s = .next (sendAck src.toNat prio.toNat r.expect
      (setRx s src.toNat prio.toNat (some { r with unackd := 0 })))) ∧
  (∀ (dst : W16) (s : State),
    let d := dst.toNat
    let t : State := { s with fab := { s.fab with probe := sput 0 s.fab.probe d (nsOf s + 1000000) } }
    s.fab.unreach.contains d = true → withheld s d = false → sget 0 s.fab.probe d ≤ nsOf s →
    ((txFlow t d 7).map TxFlow.unacked = none → (pinPort t d 7 []).isSome = true →
      exec (.unreachableProbe dst) s = .next (sendFlow
        { kind := 7, prio := 7, last := false, dst := d, handle := 0, addr := 0, seq := 0, fmt := 0, idx := 0 } 0
        [4, 0, 0, 0] t).2) ∧
    (∀ f u us, txFlow t d 7 = some f → f.unacked = u :: us →
      exec (.unreachableProbe dst) s = .next (resendFrom d 7 u.1 t)))

/-- R355, R356, R358 to R363, R365, R366, R380. What a run of a collective does: it starts, excludes a member that does
not come, finishes its own part and completes; a small collective goes on without missing members or under its next
coordinator. -/
def Obligations.CollectiveEvents : Prop :=
  (∀ (handle : W16) (routed : List (W16 × List Byte)) (h : Handle) (r : Run) (s : State),
    let n := handle.toNat
    let t := setRun n (some { r with started := true, at' := nsOf s, held := [] }) s
    handleOf s n = some h → h.run = some r → r.started = false → r.at' ≤ nsOf s →
    (t.pwr.fenced = true → exec (.collectiveStart ⟨handle, routed⟩) s = .next (withdrawRun n h t)) ∧
    (t.pwr.fenced = false → exec (.collectiveStart ⟨handle, routed⟩) s = .next (
      let u := if slowMark t then (handleMembers t h).foldl (fun u fid =>
          if fid = ownFid u then u else sendCtrl fid n 2 (ownIndex t h) [] u) t
        else t
      routeRows n h routed (r.held.foldl (fun u c => sendPieces n h (c.2.1.length + 1) c.1 c.2.1 c.2.2 u) u)))) ∧
  (∀ (handle : W16) (h : Handle) (r : Run) (s : State),
    let n := handle.toNat
    let t := excludeAllUnreachable s
    handleOf t n = some h → h.run = some r → r.own = false → r.started = true → ownIndex t h ≠ 0xFFFF →
    waitsFor t h r = [] →
    exec (.partComplete handle) s = .next (
      let u := setRun n (some { r with own := true, got := r.got ++ [ownIndex t h] }) t
      if hdOp h.header = 3 then
        (handleMembers u h).foldl (fun s fid => if fid = ownFid s then s else sendResults n h fid s) u
      else u)) ∧
  (∀ (handle : W16) (h : Handle) (r : Run) (s : State),
    let n := handle.toNat
    let t := excludeAllUnreachable s
    n ≠ 0xFFF3 → handleOf t n = some h → h.run = some r → r.started = true → resultComplete t h r = true →
    exec (.collectiveComplete handle) s = .next (
      let ms := handleMembers t h
      let fids (l : List Nat) : List Nat := l.map (fun i => ms.getD i 0xFFFF)
      let entered := (List.range ms.length).filter (fun i => !r.excluded.contains i)
      let received := if hdOp h.header = 4 then (List.range ms.length).foldl (fun u i =>
          writeTo .lintel 8 (hdLocal h.header + ms.length * hdCap h.header + 4 * i) (leBytes 4 (sget 0 r.rcvd i)) u) t
        else t
      let u := setHandle n (some { h with
        run := none, lane := entered.foldl (fun a i => a + 2 ^ i) 0
        excl := fids r.excluded, slow := fids r.slow, mism := fids r.plumb }) received
      let v := sendToken (hdDoneEp h.header) (hdDoneSlot h.header) 0 0x6C (genOf u) 1 (bump u (cCol 0x100))
      match r.reply with
      | some w => postReply w true 0 entered.length v
      | none => v)) ∧
  (∀ (s : State), s.npx.staged ≠ [] →
    exec (.collectiveComplete 0xFFF3) s = .next { s with npx := { s.npx with flagged := true } }) ∧
  (∀ (handle member : W16) (h : Handle) (r : Run) (s : State),
    let wait := hdWaitMax h.header * 10000 * (if r.slow.contains member.toNat then 4 else 1)
    handleOf s handle.toNat = some h → h.run = some r → hdWaitMax h.header ≠ 0 → r.own = false → r.started = true →
    r.last.contains member.toNat = false → r.at' + wait ≤ nsOf s → member.toNat < (handleMembers s h).length →
    exec (.waitMaxExpiry handle member) s = .next (excludeMember handle.toNat member.toNat 1 s)) ∧
  (∀ (handle : BitVec 2) (missing : List W16) (s : State),
    let n := handle.toNat
    n ≤ 2 → smallRuns s n = true → s.stp.own_ = sget 0 s.fab.attempt n → smallWaited s n 1 = true →
    exec (.smallCollWaitExpiry handle missing) s = .next (emit (.collective (0xFFF0 + n) [])
      ((missing.map BitVec.toNat).eraseDups.foldl (fun t i =>
        if i = t.stp.own_ ∨ t.stp.members.length ≤ i ∨ n = 1 ∧ t.stp.absent.contains i then t
        else colEvent 1 (0xFFF0 + n) (t.stp.members.getD i 0xFFFF) (bump t (cCol 0x108))) s))) ∧
  (∀ (handle : BitVec 2) (s : State),
    let n := handle.toNat
    let k := sget 0 s.fab.attempt n
    n ≤ 2 → smallRuns s n = true → smallWaited s n 2 = true →
    (min 3 (s.stp.members.length - 1) ≤ k → exec (.coordinatorTakeover handle) s =
      .next (if n = 0 then endStep 6 s else if n = 1 then endStep 7 s else s)) ∧
    (k < min 3 (s.stp.members.length - 1) → exec (.coordinatorTakeover handle) s = .next (
      let t := colEvent 6 (0xFFF0 + n) (s.stp.members.getD (k + 1) 0xFFFF) (bump { s with fab := { s.fab with
        attempt := sput 0 s.fab.attempt n (k + 1), since := sput 0 s.fab.since n (nsOf s) } } (cCol 0x138))
      emit (.collective (0xFFF0 + n)
        (if n = 0 then (t.stp.own.map checkBytes).getD [] else if n = 1 then commitBytes t else []))
        (if n = 1 ∧ t.stp.own_ = k + 1 then excludeAbsent t else t))))

/-- R385 to R402, R404, R405, R408, R409. What the exchange does in time and within its site: windows open and close,
publications and deltas are sent, objects are dropped, a home is sought, and codebooks are trained again. -/
def Obligations.ExchangeEvents : Prop :=
  (∀ (b : Book) (s : State),
    let u := s.stp.rc.outer
    let shs := allShards s
    s.npx.configured = true → s.stp.deltaDue = false → (∀ d, s.npx.delta = some d → d.outer ≠ u) →
    shs.all (fun p => (outerOf s p.1 p.2.1).stage.isEmpty) = false → encodingBook s = some b →
    exec .deltaEncodeComplete s = .next (
      let body := shs.foldl (fun (acc : List Byte × State) p =>
        let o := outerOf acc.2 p.1 p.2.1
        let seg := encodeSegment b acc.2.free p.2.2.desc o.stage
        (acc.1 ++ seg.1, setOuter p.1 p.2.1 { o with efr := seg.2 } { acc.2 with free := acc.2.free + 1 })) ([], s)
      let t := body.2
      trySendDelta (setNpx (fun n => { n with delta := some {
        base := t.npx.version, outer := u, bytes := mkObject t 1 t.npx.epoch t.npx.version 0 u shs.length 0 body.1
        sent := false, at' := 0, settled := false } }) t))) ∧
  (∀ (s : State),
    let u := wNow s
    s.npx.configured = true → wMs s 0 ≠ 0 → wAt s u 1 ≤ nsOf s → s.npx.window ≤ u →
    let t := setNpx (fun n => { n with
      window := u + 1, isOpen := true, slack := n.slackNow.getD n.slack, slackNow := none
      silent := if isHome s then 0 else n.silent + 1 }) s
    (isAgent t u = false → exec .windowOpen s = .next (trySendDelta t)) ∧
    (isAgent t u = true → exec .windowOpen s = .next (
      let a := if (exchangePort t).isNone then bump t (cNpx 0x1A8) else t
      let b := if txReady a then a else bump a (cCip 0x120)
      let wanting := b.npx.state = 4 ∨ b.npx.fullNext ∧ ¬ b.npx.staged.any Pub.full
      trySendDelta (sendStatus (if wanting then tellSite b.npx.home (fetchBody 1 0 0) b else b))))) ∧
  (∀ (s : State),
    let w := s.npx.window - 1
    let t := setNpx (fun n => { n with isOpen := false }) s
    let held := leaseHeld t w
    let u := setNpx (fun n => { n with state := if held then 2 else 3, lease := held }) t
    let alive (v : State) : State :=
      if mayTalk v then decide5 (siteId v) (aliveBody v) (tellAll (aliveBody v) v) else v
    let taken := (closingDeltas w u).foldl (classifyDelta (closingDeltas w u)) ([], u)
    s.npx.isOpen = true → wAt s w 2 ≤ nsOf s →
    (isHome t = false → exec .windowClose s = .next t) ∧
    (isHome t = true → isAgent u w = false → exec .windowClose s = .next u) ∧
    (isHome t = true → isAgent u w = true → held = false → exec .windowClose s =
      .next (alive (bump (if t.npx.state = 2 then npxEvent 5 (siteId u) u else u) (cNpx 0x190)))) ∧
    (isHome t = true → isAgent u w = true → held = true → taken.1 = [] → exec .windowClose s =
      .next (alive (bump (spread 1 [0] (dropClosing w taken.2)) (cNpx 0x188)))) ∧
    (isHome t = true → isAgent u w = true → held = true → taken.1 ≠ [] → exec .windowClose s =
      .next (mergeClose w taken.1 taken.2))) ∧
  (∀ (ob : List Byte) (s : State),
    let w := s.npx.window - 1
    let t := setNpx (fun n =>
      let r := n.retained ++ [(ohNew (objHead ob), ob)]
      { n with pubOut := none, retained := r.drop (r.length - retainN s) }) s
    s.npx.pubOut = some ob → isHome s = true → s.npx.window ≠ 0 → wAt s w 3 ≤ nsOf s →
    exec .publicationSend s = .next (
      if isAgent t w && mayTalk t then spread 2 ob (objectToAll 2 (ohOuter (objHead ob)) ob t) else t)) ∧
  (∀ (d : OwnDelta) (s : State),
    s.npx.delta = some d → d.sent = true → d.settled = false → isHome s = false →
    d.at' + field (npxCfg2 s) 7 0 * 1000000000 ≤ nsOf s → maySend s = true → mayTalk s = true →
    exec .deltaResend s = .next (sendStatus (deliverDelta d (bump s (cNpx 0x148))))) ∧
  (∀ (s : State),
    let old (o : Obj) : Bool := decide (o.window + 1 < wNow s)
    let lost := s.npx.objs.filter (fun o => old o && o.done.isNone)
    let t := setNpx (fun n => { n with objs := n.objs.filter (fun o => !old o) }) (bumpN s (cNpx 0x130) lost.length)
    exec .objectHoldExpiry s = .next (if lost.any (fun o => decide (o.typ = 2)) then pubFailed (tipVer t + 1) t else t)) ∧
  (∀ (s : State),
    ((s.npx.state = 0 ∧ failW s + rankOf s ≤ s.npx.silent)
      ∨ (s.npx.state = 1 ∧ s.npx.candAt + failW s * wMs s 0 * 1000000 ≤ nsOf s)) →
    isAgent s (wNow s) = true →
    exec .candidacyTimeout s = .next (
      let t := setNpx (fun n => { n with state := 1, voted := max n.epoch n.voted + 1, votes := [siteId s], candAt := nsOf s }) s
      if majority t ≤ 1 then becomeHome t else decide5 (siteId t) (candidateBody t) (tellAll (candidateBody t) t))) ∧
  (∀ (data : List Byte) (s : State), s.npx.configured = true →
    let acked (t : State) : State := spread 0 (beBytes 2 (ownFid t)) t
    (isHome s = false → ∀ k ∈ [1, 6, 7], exec (.exchBroadcastReceive k data) s = .next (acked s)) ∧
    (isHome s = true → exec (.exchBroadcastReceive 1 data) s = .next (
      let n := beAt data 0 1
      let entries := (List.range n).map (fun i => beAt data (1 + 16 * i) 16)
      let ms := ((allShards s).foldl (fun (acc : List (List Nat) × Nat) p =>
        (acc.1 ++ [(List.range (sdN p.2.2.desc)).map (fun e => leAt data (acc.2 + 4 * e) 4)], acc.2 + 4 * sdN p.2.2.desc))
        ([], 1 + 16 * n)).1
      let t := dropClosing (s.npx.window - 1) s
      acked (if n = 0 then t
        else formPub entries ms (setNpx (fun x => { x with
          merged := x.merged ++ entries.map (fun e => (field e 127 120, field e 95 64)) }) t)))) ∧
    exec (.exchBroadcastReceive 2 data) s = .next (acked (if isHome s then s else takePub data s)) ∧
    exec (.exchBroadcastReceive 3 data) s = .next (acked (takeBase (data.drop 4) (beAt data 0 4) s)) ∧
    exec (.exchBroadcastReceive 4 data) s = .next (acked (takeBook data s)) ∧
    exec (.exchBroadcastReceive 5 data) s = .next (acked (memberDecision (beAt data 0 1) (data.drop 1) s)) ∧
    (isHome s = true → exec (.exchBroadcastReceive 6 data) s =
      .next (acked (addDelta (beAt data 0 1) (beAt data 1 8) (data.drop 9) s))) ∧
    (isHome s = true → exec (.exchBroadcastReceive 7 data) s =
      .next (acked (setHeard (beAt data 0 1) (beAt data 1 4) s)))) ∧
  (∀ (port : BitVec 4) (src : BitVec 128) (icmp : List Byte) (s : State),
    let p := port.toNat
    let answer (c : Nat) : List Byte := ([136, 0] : List Byte) ++ beBytes 2 c ++ beBytes 4 0x60000000
      ++ beBytes 16 (ownAddr s) ++ ([2, 1] : List Byte) ++ etherMac s p
    p < 12 → portMode s p = 3 → inService s p = true →
    (src.toNat ≠ gateway s ∨ beAt icmp 0 1 ≠ 135 ∧ beAt icmp 0 1 ≠ 136 →
      exec (.neighborDiscovery port src icmp) s = .next (bump s (cNpx 0x118))) ∧
    (src.toNat = gateway s → beAt icmp 0 1 = 135 → beAt icmp 8 16 = ownAddr s →
      exec (.neighborDiscovery port src icmp) s = .next (etherSend p (slice icmp 26 6) 16
        (ip6 (ownAddr s) src.toNat 0 0 58 255 (answer (ip6Check (ownAddr s) src.toNat 58 (answer 0)))) s)) ∧
    (src.toNat = gateway s → beAt icmp 0 1 = 136 → beAt icmp 8 16 = gateway s →
      exec (.neighborDiscovery port src icmp) s = .next (s.npx.waitNd.foldl (fun t w => routeOut w.1 11 w.2 t)
        (setNpx (fun n => { n with router := some (beAt icmp 26 6), waitNd := [] }) s)))) ∧
  (∀ (family : BitVec 4) (d : OwnDelta) (b : Book) (s : State),
    let fam := family.toNat
    let u := s.stp.rc.outer
    s.npx.delta = some d → senderBook s fam u = some b → isHome s = true → (0 < s.stp.q → fam % s.stp.q = ownGroup s) →
    isAgent s (wNow s) = true → d.outer = u → u % 16 = 0 →
    (∀ c ∈ s.cbl.books, ¬ (c.family = fam ∧ field c.header 447 416 = u ∧ 0 < u)) →
    exec (.codebookRetrain family) s = .next (
      let all := trainingVectors s d (decide (fam ≠ deltaFamily s))
      let stride := max 1 (ceilDiv all.length 65536)
      let sampled := ((List.zip (List.range all.length) all).filter (fun p => decide (p.1 % stride = 0))).map (fun p =>
        p.2.2.map (fun x => div32 x (f32 p.2.1)))
      let zs := sampled.filter (fun z => z.all FVal.isFin)
      let entries := (kmeans 8 b.vectors zs).flatMap (fun c => c.flatMap (fun x => leBytes 4 (to32 x)))
      let ver := if b.version = 65535 then 1 else b.version + 1
      let hd := ver * 2 ^ 496 + fam * 2 ^ 492 + bit b.wide * 2 ^ 491 + (u + 2) % 2 ^ 32 * 2 ^ 448 + u % 2 ^ 32 * 2 ^ 416
        + zs.length % 2 ^ 32 * 2 ^ 384 + crc64 entries * 2 ^ 320
      let ob := mkObject s 4 s.npx.epoch 0 0 u 0 0 (leBytes 64 hd ++ entries)
      spread 4 ob (objectToAll 4 u ob (keepBook { header := hd, entries := entries } s).1)))

/-- R381, R382, R385, R395, R397 to R405, R387. What the packets of the exchange do once their tag opens: fragments
collect into objects, control messages act by their code, and time messages carry an exchange. -/
def Obligations.ExchangePackets : Prop :=
  ∀ (port : BitVec 4) (src : BitVec 128) (udp : List Byte) (d : Partner) (b : List Byte) (s : State),
    let h := beAt udp 0 32
    let t := bump s (cNpx 0x108)
    Opened port.toNat src.toNat udp d b s →
    (s.npx.configured = true →
      (ehType h = 1 → exec (.deltaFragmentReceive port src udp) s = .next (rxFragment h b t)) ∧
      (ehType h = 2 → exec (.pubFragmentReceive port src udp) s = .next (rxFragment h b t)) ∧
      (ehType h = 3 → exec (.baseFragmentReceive port src udp) s = .next (rxFragment h b t)) ∧
      (ehType h = 4 → exec (.codebookFragmentReceive port src udp) s = .next (rxFragment h b t))) ∧
    (ehType h = 5 →
      (beAt b 0 1 = 1 → exec (.npxStatusReceive port src udp) s = .next (rxStatus d (ehSrcSite h) b t)) ∧
      (beAt b 0 1 = 2 → exec (.npxFetchReceive port src udp) s = .next (rxFetch d b t)) ∧
      (beAt b 0 1 = 3 → exec (.npxRebaseReceive port src udp) s = .next (decide5 (ehSrcSite h) b (rxRebase b t))) ∧
      (beAt b 0 1 = 4 → exec (.npxCandidateReceive port src udp) s = .next (rxCandidate d b t)) ∧
      (beAt b 0 1 = 5 → exec (.npxVoteReceive port src udp) s = .next (rxVote (ehSrcSite h) b t)) ∧
      (beAt b 0 1 = 6 → exec (.npxNewhomeReceive port src udp) s =
        .next (decide5 (ehSrcSite h) b (takeNewhome b t))) ∧
      (beAt b 0 1 = 7 → exec (.npxAliveReceive port src udp) s =
        .next (decide5 (ehSrcSite h) b (takeAlive (ehSrcSite h) b t)))) ∧
    (∀ q, ehType h = 6 → timePathFrom s src.toNat = some q →
      exec (.npxTimeReceive port src udp) s = .next (timeMessage true q b
        (fun r s => sendPacket 6 16 (timePartner s q) (wNow s) 0 0 1 0 r s) t))

/-- R417 to R419, R422 to R426, Table 14-6. What a checkpoint copy and a repair do: the copy completes with its manifest, a
paused copy is tried again, an old one is abandoned, and a block that agrees ends the repair of its shard. -/
def Obligations.CheckpointEvents : Prop :=
  (∀ (c : Copy) (s : State), s.ck.copy = some c → c.stage = 1 → c.paused = false →
    (txFlow s (ckptTo s) 2).all (fun f => f.unacked.isEmpty) = true → s.fab.unreach.contains (ckptTo s) = false →
    exec .ckptCopyComplete s = .next (
      let t := sendSector c.slot 0 (manifestSector s c) s
      faultEvent 9 0 0 c.outer { t with ck := { t.ck with
        copy := none, there := sput none t.ck.there c.slot (some (c.outer, c.step, c.no)) } })) ∧
  (∀ (c : Copy) (s : State), s.ck.copy = some c →
    let asked : State := { s with ck := { s.ck with copy := some { c with check := nsOf s } } }
    (c.paused = false → holderReady s = true → exec .ckptPauseRetry s = .next s) ∧
    (c.paused = false → holderReady s = false → exec .ckptPauseRetry s = .next (faultEvent 10 0 0 0 { s with
      ck := { s.ck with copy := some { c with paused := true, check := nsOf s } } })) ∧
    (c.paused = true → nsOf s < c.check + 1000000 → exec .ckptPauseRetry s = .next s) ∧
    (c.paused = true → c.check + 1000000 ≤ nsOf s → holderReady s = false →
      exec .ckptPauseRetry s = .next (askBuddy asked)) ∧
    (c.paused = true → c.check + 1000000 ≤ nsOf s → holderReady s = true → c.stage = 0 →
      exec .ckptPauseRetry s = .next (sendCopy c s)) ∧
    (c.paused = true → c.check + 1000000 ≤ nsOf s → holderReady s = true → c.stage ≠ 0 →
      exec .ckptPauseRetry s = .next { s with ck := { s.ck with copy := some { c with paused := false } } })) ∧
  (∀ (c : Copy) (s : State),
    let hold := if s.ck.holdS = 0 then 60 else s.ck.holdS
    s.ck.copy = some c → c.start + hold * 1000000000 ≤ nsOf s →
    exec .ckptAbandon s = .next (postEvent 0x0013 c.outer 0
      (faultEvent 14 0 0 c.outer { s with ck := { s.ck with copy := none } }))) ∧
  (∀ (stack : BitVec 3) (shard : BitVec 11) (block : W16) (tables : List MemberTable) (data : RepairData) (sh : Shard)
      (s : State),
    let k := stack.toNat
    let i := shard.toNat
    let m := block.toNat
    let own (t : State) (b : Nat) : Nat := loadLe t (sdFp sh.desc + 8 * b) 8
    let members (t : State) (b : Nat) : List (Nat × Bool × Nat) :=
      (s.stp.own_ / s.stp.q, sh.eccMark, own t b)
        :: tables.map (fun x => (x.replica.toNat, x.mark, (x.prints.getD b 0).toNat))
    let named := sget none s.ck.named (shardKey k i)
    let source := blockSource (members s m) named
    let agree := (members s m).all (fun x => x.2.2 = own s m)
    let print := (((members s m).find? (fun x => x.1 = source.1)).map (fun x => x.2.2)).getD (own s m)
    let waits (t : State) (suspect : Bool) : Bool := suspect && named.isNone && !stepActive t
    let ended (v t : State) : State :=
      if (List.range (sdPrints sh.desc)).all (fun b =>
          (members t b).all (fun x => x.2.2 = own t b)
            || (!waits v (blockSource (members t b) named).2.2
              && ((members t b).find? (fun x => x.1 = (blockSource (members t b) named).1)).all (fun x => x.2.2 = own t b)))
      then repairDone k i t else t
    let noted := if source.2.2 then markSuspect k i m s else faultEvent source.2.1 k i m s
    shardOf s k i = some sh → s.ck.repair.contains (k, i) = true → sh.torn = false → sh.invalid = false →
    m < sdPrints sh.desc → s.stp.q ≠ 0 →
    (agree = true → exec (.repairComplete stack shard block tables data) s = .next (ended s s)) ∧
    (agree = false → waits noted source.2.2 = false → print ≠ own noted m →
      exec (.repairComplete stack shard block tables data) s =
        .next (ended noted (copyBlock k i sh.desc m print data noted))) ∧
    (agree = false → (waits noted source.2.2 = true ∨ print = own noted m) →
      exec (.repairComplete stack shard block tables data) s = .next (ended noted noted)))

/-- R499 to R502, R505. What the cipher engine does with the requests of its ring: the request at the head is taken up by
the event of its operation, and its end is written to the ring and told by a token. -/
def Obligations.CipherEvents : Prop :=
  (∀ (p x op : Nat) (s : State),
    let i := cipHead s
    let q := cipReq (loadLe s (cipEntry s i) 64)
    let taken := runRequest q s
    let t := if 2 ≤ taken.1 && !(taken.1 = 4 && q.op = 7) then bump taken.2 (cCip 0x110) else taken.2
    let u := setReg t (cipBase + 0x10) ((i + 1) % cipDepth t)
    let v : State := { u with sec := { u.sec with inflight := u.sec.inflight ++ [(i, taken.1)] } }
    flag (getReg s cipBase) 31 = true → i ≠ cipTail s → classify (cipEntry s i) = .plinth p 47 x → q.op = op →
    (op = 1 → exec .cipXtsEncrypt s = .next v) ∧ (op = 2 → exec .cipXtsDecrypt s = .next v) ∧
    (op = 3 → exec .cipGcmSeal s = .next v) ∧ (op = 4 → exec .cipGcmOpen s = .next v) ∧
    (op = 5 → exec .cipCtxSaveClear s = .next v) ∧ (op = 6 → exec .cipCtxSaveWrapped s = .next v) ∧
    (op = 7 → exec .cipCtxRestore s = .next v)) ∧
  (∀ (index : BitVec 12) (r : Nat × Nat) (s : State),
    s.sec.inflight.find? (fun r => decide (r.1 = index.toNat)) = some r →
    exec (.cipRequestDone index) s = .next (
      let w := loadLe s (cipEntry s r.1) 64
      let t : State := { s with sec := { s.sec with inflight := s.sec.inflight.erase r } }
      let u := bump (writeTo .lintel 13 (cipEntry s r.1 + 12) (leBytes 2 r.2) t) (cCip 0x100)
      sendToken (field w 127 120) (field w 119 114) 0 0x6D (genOf u) 1 u))

/-! ## Frames -/

/-- R30. What the Kolelm commands leave alone: of the whole state, tile and device memory among it, each changes at
most the parts named here. Beside its own effect every command counts, answers, and may wait in its queue. Nothing is
claimed here of the commands not named. -/
def Obligations.CommandFrames : Prop :=
  ∀ (i : Instr) (s t : State), exec i s = .next t →
    match i with
    | .identify .. | .queueCreate .. | .jobStatus .. | .eventRingSet .. | .jobSeedSet .. | .stepQuery ..
    | .fabricQuery .. | .collQuery .. | .exchQuery .. | .timeQuery .. | .secIdentity .. | .secAttest ..
    | .sensorsRead .. =>
      t = { s with ctr := t.ctr, out := t.out, host := t.host }
    | .moduleBedLeave .. =>
      t = { s with ctr := t.ctr, out := t.out, host := t.host, pwr := t.pwr }
    | .fwUpdate .. | .secKeyClear .. | .secOwnerEnrol .. | .secRollbackSet .. =>
      t = { s with ctr := t.ctr, out := t.out, host := t.host, sec := t.sec }
    | .treimRetrain .. =>
      t = { s with ctr := t.ctr, out := t.out, host := t.host, chans := t.chans }
    | .plinthFree .. =>
      t = { s with ctr := t.ctr, out := t.out, host := t.host, piers := t.piers }
    | .plinthQuota .. | .countersRead .. =>
      t = { s with regs := t.regs, ctr := t.ctr, out := t.out, host := t.host }
    | .corbelGroupSet .. | .corbelUnfreeze .. =>
      t = { s with ctr := t.ctr, out := t.out, host := t.host, cbl := t.cbl }
    | .tileFence .. | .tileQuery .. =>
      t = { s with ctr := t.ctr, course := t.course, out := t.out, host := t.host }
    | .tensorScale .. | .tensorRead .. =>
      t = { s with ctr := t.ctr, out := t.out, host := t.host, tensors := t.tensors }
    | .jobGroups .. | .queueLoad .. | .expertTableLoad .. | .queueStats .. =>
      t = { s with ctr := t.ctr, out := t.out, host := t.host, stp := t.stp }
    | .collSetup .. | .collFree .. | .collRun .. =>
      t = { s with ctr := t.ctr, out := t.out, host := t.host, fab := t.fab }
    | .exchPartners .. | .exchWeights .. =>
      t = { s with ctr := t.ctr, out := t.out, host := t.host, npx := t.npx }
    | .ckptConfig .. | .replicaRepairNameSource .. =>
      t = { s with ctr := t.ctr, out := t.out, host := t.host, ck := t.ck }
    | .ckptQuery .. =>
      t = { s with ctr := t.ctr, out := t.out, host := t.host, stackTab := t.stackTab }
    | .budgetSet .. =>
      t = { s with ctr := t.ctr, out := t.out, host := t.host, bud := t.bud }
    | .timePathSet .. =>
      t = { s with ctr := t.ctr, out := t.out, host := t.host, tm := t.tm }
    | .slogRead .. =>
      t = { s with ctr := t.ctr, out := t.out, slog := t.slog, host := t.host }
    | .diagRun .. =>
      t = { s with ctr := t.ctr, out := t.out, free := t.free, host := t.host }
    | .timeTimer .. =>
      t = { s with regs := t.regs, ctr := t.ctr, course := t.course, out := t.out, host := t.host }
    | .timeEpoch .. =>
      t = { s with regs := t.regs, ctr := t.ctr, out := t.out, host := t.host, cfg := t.cfg, tm := t.tm }
    | .secKeyLoad .. =>
      t = { s with ctr := t.ctr, out := t.out, host := t.host, npx := t.npx, ck := t.ck, sec := t.sec }
    | .moduleBedEnter .. =>
      t = { s with
        mem := t.mem, ctr := t.ctr, out := t.out, host := t.host, tiles := t.tiles, piers := t.piers, pwr := t.pwr }
    | .plinthAlloc .. =>
      t = { s with
        mem := t.mem, upset := t.upset, ctr := t.ctr, out := t.out, free := t.free, host := t.host, piers := t.piers }
    | .tileUnfence .. =>
      t = { s with
        mem := t.mem, upset := t.upset, ctr := t.ctr, out := t.out, free := t.free, host := t.host
        tiles := t.tiles, piers := t.piers }
    | .exchConfig .. =>
      t = { s with
        regs := t.regs, ctr := t.ctr, out := t.out, host := t.host, cfg := t.cfg, bud := t.bud, cbl := t.cbl
        fab := t.fab, npx := t.npx }
    | .plinthApply .. =>
      t = { s with
        mem := t.mem, poison := t.poison, upset := t.upset, ctr := t.ctr, out := t.out, slog := t.slog
        host := t.host, chans := t.chans, stackTab := t.stackTab, piers := t.piers, bud := t.bud, cbl := t.cbl }
    | .treimMapApplyResume .. =>
      t = { s with
        mem := t.mem, poison := t.poison, upset := t.upset, ctr := t.ctr, out := t.out, slog := t.slog
        host := t.host, chans := t.chans, stackTab := t.stackTab, piers := t.piers, rmap := t.rmap, bud := t.bud
        cbl := t.cbl }
    | .stepResume .. =>
      t = { s with
        mem := t.mem, poison := t.poison, upset := t.upset, regs := t.regs, ctr := t.ctr, course := t.course
        out := t.out, free := t.free, slog := t.slog, host := t.host, tiles := t.tiles, tensors := t.tensors
        chans := t.chans, stackTab := t.stackTab, piers := t.piers, bud := t.bud, cbl := t.cbl, stp := t.stp
        fab := t.fab }
    | _ => True

/-- R30. What the events of the host interface, the registers, and of power and management leave alone: each changes at
most the parts of the state named here. Nothing is claimed here of those not named. -/
def Obligations.HostFrames : Prop :=
  ∀ (i : Instr) (s t : State), exec i s = .next t →
    match i with
    | .hostLinkUp .. | .snapshotComplete =>
      t = { s with host := t.host }
    | .cfgCrcPassStart =>
      t = { s with cfg := t.cfg }
    | .pwrEnLAssert | .prsntLAssert | .mainPowerRamp | .locateLChange .. | .mainInputReturn =>
      t = { s with pwr := t.pwr }
    | .pldmMonitoringMessage .. | .pldmFruMessage .. | .ppsOutPulse =>
      t = { s with out := t.out }
    | .ref10mChange .. =>
      t = { s with tm := t.tm }
    | .evHeadDoorbell .. | .msixCoalesceTimeout .. =>
      t = { s with out := t.out, host := t.host }
    | .regWindowBadAccess .. =>
      t = { s with ctr := t.ctr, out := t.out }
    | .railsGood | .perstDeassert =>
      t = { s with host := t.host, pwr := t.pwr }
    | .mctpControlMessage .. | .smbusAlertResponse | .pldmBaseMessage .. =>
      t = { s with out := t.out, pwr := t.pwr }
    | .sqTailDoorbell .. | .cqHeadDoorbell .. =>
      t = { s with ctr := t.ctr, out := t.out, host := t.host }
    | .hostIfReset | .surpriseRemoval =>
      t = { s with regs := t.regs, ctr := t.ctr, out := t.out, host := t.host }
    | .pciPmD0 =>
      t = { s with ctr := t.ctr, out := t.out, host := t.host, pwr := t.pwr }
    | .islandBootComplete .. | .pldmFwUpdateMessage .. =>
      t = { s with ctr := t.ctr, out := t.out, sec := t.sec, pwr := t.pwr }
    | .ppsInEdge | .ppsEdgeMissing =>
      t = { s with ctr := t.ctr, out := t.out, host := t.host, tm := t.tm }
    | .perstAssert =>
      t = { s with regs := t.regs, ctr := t.ctr, out := t.out, host := t.host, pwr := t.pwr }
    | .pciPmD3hot | .d3hotBedStart =>
      t = { s with mem := t.mem, ctr := t.ctr, host := t.host, tiles := t.tiles, piers := t.piers, pwr := t.pwr }
    | .counterLowRead .. | .counterLowPeek .. | .latchedLowRead .. | .rcEventRead .. =>
      t = { s with
        regs := t.regs, ctr := t.ctr, latch := t.latch, glatch := t.glatch, course := t.course, out := t.out
        slog := t.slog }
    | .stackStopComplete .. =>
      t = { s with
        mem := t.mem, poison := t.poison, upset := t.upset, ctr := t.ctr, slog := t.slog, chans := t.chans
        stackTab := t.stackTab, piers := t.piers, bud := t.bud, cbl := t.cbl }
    | .selfRefreshEntry .. =>
      t = { s with
        mem := t.mem, poison := t.poison, upset := t.upset, ctr := t.ctr, slog := t.slog, chans := t.chans
        stackTab := t.stackTab, piers := t.piers, bud := t.bud, cbl := t.cbl, pwr := t.pwr }
    | _ => True

/-- R30. What the events of tiles, the step, memory, line time, the fabric, the exchange, checkpoints and the cipher engine
leave alone: each changes at most the parts of the state named here. Nothing is claimed of those not named. -/
def Obligations.EventFrames : Prop :=
  ∀ (i : Instr) (s t : State), exec i s = .next t →
    match i with
    | .calibrationInterval .. =>
      t = { s with chans := t.chans }
    | .nonfiniteSlotToken .. | .programDoneToken .. | .taskFaultToken .. =>
      t = { s with course := t.course, stp := t.stp }
    | .deltaFormationComplete =>
      t = { s with stp := t.stp, npx := t.npx }
    | .retrainStart .. =>
      t = { s with ctr := t.ctr, chans := t.chans }
    | .lineTimerExpiry .. =>
      t = { s with regs := t.regs, course := t.course }
    | .portTrainingComplete .. =>
      t = { s with tm := t.tm, fab := t.fab }
    | .linkCreditTimeout .. =>
      t = { s with ctr := t.ctr, fab := t.fab }
    | .tCheckInstant =>
      t = { s with out := t.out, stp := t.stp, fab := t.fab }
    | .quietSlot .. =>
      t = { s with ctr := t.ctr, chans := t.chans, bud := t.bud }
    | .waitMaxExpiry .. =>
      t = { s with regs := t.regs, ctr := t.ctr, fab := t.fab }
    | .smallCollWaitExpiry .. =>
      t = { s with regs := t.regs, ctr := t.ctr, out := t.out }
    | .tileFaultDetect .. | .taskLimitExpiry .. =>
      t = { s with ctr := t.ctr, course := t.course, slog := t.slog, tiles := t.tiles }
    | .backupRootTakeover | .ptpMessageReceive .. | .ptpMasterLoss =>
      t = { s with ctr := t.ctr, out := t.out, host := t.host, tm := t.tm }
    | .pauseFrameReceive .. | .ackTimer .. | .pauseTimeExpiry .. =>
      t = { s with ctr := t.ctr, out := t.out, bud := t.bud, fab := t.fab }
    | .tokenArrival .. | .creditArrival .. | .stepBeginToken .. | .abortToken .. | .fenceToken .. =>
      t = { s with ctr := t.ctr, course := t.course, free := t.free, slog := t.slog, tiles := t.tiles }
    | .taskStart .. =>
      t = { s with upset := t.upset, ctr := t.ctr, course := t.course, slog := t.slog, tiles := t.tiles }
    | .refreshPeriod .. =>
      t = { s with upset := t.upset, ctr := t.ctr, chans := t.chans, stackTab := t.stackTab, bud := t.bud }
    | .windowOpen | .publicationSend | .deltaResend | .neighborDiscovery .. =>
      t = { s with ctr := t.ctr, out := t.out, bud := t.bud, fab := t.fab, npx := t.npx }
    | .ckptAbandon =>
      t = { s with ctr := t.ctr, out := t.out, slog := t.slog, host := t.host, ck := t.ck }
    | .budgetPeriodBoundary =>
      t = { s with regs := t.regs, ctr := t.ctr, out := t.out, host := t.host, bud := t.bud, fab := t.fab }
    | .objectHoldExpiry =>
      t = { s with regs := t.regs, ctr := t.ctr, out := t.out, bud := t.bud, fab := t.fab, npx := t.npx }
    | .codebookRetrain .. =>
      t = { s with ctr := t.ctr, out := t.out, bud := t.bud, cbl := t.cbl, fab := t.fab, npx := t.npx }
    | .deltaEncodeComplete =>
      t = { s with
        ctr := t.ctr, out := t.out, free := t.free, bud := t.bud, cbl := t.cbl, fab := t.fab, npx := t.npx }
    | .lostChannelRebuild .. =>
      t = { s with
        mem := t.mem, poison := t.poison, upset := t.upset, ctr := t.ctr, chans := t.chans, stackTab := t.stackTab
        bud := t.bud }
    | .timeExchangeSend .. =>
      t = { s with ctr := t.ctr, out := t.out, host := t.host, bud := t.bud, tm := t.tm, fab := t.fab, npx := t.npx }
    | .flowIdleTimeout .. | .unreachableProbe .. | .ckptCopyComplete =>
      t = { s with
        ctr := t.ctr, course := t.course, out := t.out, slog := t.slog, bud := t.bud, fab := t.fab, ck := t.ck }
    | .candidacyTimeout =>
      t = { s with
        regs := t.regs, ctr := t.ctr, out := t.out, bud := t.bud, cbl := t.cbl, fab := t.fab, npx := t.npx }
    | .coreWatchdogTimeout .. | .coreEccFault .. =>
      t = { s with
        ctr := t.ctr, out := t.out, free := t.free, slog := t.slog, host := t.host, ck := t.ck, pwr := t.pwr }
    | .gatherAcquire .. | .gatherRelease .. =>
      t = { s with
        mem := t.mem, upset := t.upset, ctr := t.ctr, course := t.course, out := t.out, free := t.free
        piers := t.piers, fab := t.fab }
    | .queueCreditReturn .. =>
      t = { s with
        ctr := t.ctr, course := t.course, out := t.out, slog := t.slog, bud := t.bud, stp := t.stp, fab := t.fab
        ck := t.ck }
    | .patrolScrub .. =>
      t = { s with
        mem := t.mem, poison := t.poison, upset := t.upset, ctr := t.ctr, chans := t.chans, stackTab := t.stackTab
        bud := t.bud, cbl := t.cbl }
    | .pauseWatchdogExpiry .. | .laneFail .. | .retransmitTimeout .. =>
      t = { s with
        regs := t.regs, ctr := t.ctr, course := t.course, out := t.out, slog := t.slog, bud := t.bud, fab := t.fab
        ck := t.ck }
    | .poolAgeRelease .. | .stickyLogMirror =>
      t = { s with
        mem := t.mem, poison := t.poison, upset := t.upset, ctr := t.ctr, slog := t.slog, chans := t.chans
        stackTab := t.stackTab, piers := t.piers, bud := t.bud, cbl := t.cbl }
    | .gatherFillComplete .. =>
      t = { s with
        mem := t.mem, poison := t.poison, upset := t.upset, ctr := t.ctr, course := t.course, slog := t.slog
        chans := t.chans, stackTab := t.stackTab, piers := t.piers, bud := t.bud, cbl := t.cbl }
    | .retrainComplete .. =>
      t = { s with
        mem := t.mem, poison := t.poison, upset := t.upset, ctr := t.ctr, out := t.out, slog := t.slog
        host := t.host, chans := t.chans, stackTab := t.stackTab, piers := t.piers, bud := t.bud, cbl := t.cbl }
    | .checkWordReady =>
      t = { s with
        mem := t.mem, poison := t.poison, upset := t.upset, ctr := t.ctr, course := t.course, out := t.out
        free := t.free, slog := t.slog, tiles := t.tiles, chans := t.chans, stackTab := t.stackTab
        piers := t.piers, bud := t.bud, cbl := t.cbl, stp := t.stp, fab := t.fab }
    | .partComplete .. =>
      t = { s with
        mem := t.mem, poison := t.poison, upset := t.upset, regs := t.regs, ctr := t.ctr, course := t.course
        out := t.out, free := t.free, slog := t.slog, tiles := t.tiles, chans := t.chans, stackTab := t.stackTab
        piers := t.piers, bud := t.bud, cbl := t.cbl, fab := t.fab, ck := t.ck }
    | .updateStart =>
      t = { s with
        mem := t.mem, poison := t.poison, upset := t.upset, regs := t.regs, ctr := t.ctr, course := t.course
        out := t.out, free := t.free, slog := t.slog, host := t.host, tiles := t.tiles, chans := t.chans
        stackTab := t.stackTab, piers := t.piers, bud := t.bud, cbl := t.cbl, stp := t.stp, fab := t.fab }
    | .tCommitInstant =>
      t = { s with
        mem := t.mem, poison := t.poison, upset := t.upset, regs := t.regs, ctr := t.ctr, course := t.course
        out := t.out, free := t.free, slog := t.slog, host := t.host, tiles := t.tiles, tensors := t.tensors
        chans := t.chans, stackTab := t.stackTab, piers := t.piers, bud := t.bud, cbl := t.cbl, stp := t.stp
        fab := t.fab }
    | _ => True

/-! ## Reset, memory and formats -/

/-- R469, R478, R508. After reset every register holds the value of its register table, every counter and
latch is 0, the step is idle and no configuration is committed. -/
def Obligations.ResetState : Prop :=
  (∀ (a : Nat) (d : RegDef), regAt a = some d → getReg State.reset a = d.reset) ∧
  getReg State.reset ltuBase = 0x02021428 ∧ getReg State.reset fabBase = 0xFFFF10C0 ∧
  getReg State.reset (trmBase + 0x4000) = 0x100A4018 ∧ getReg State.reset cblBase = 0x36000000 ∧
  getReg State.reset colBase = 0x00640A00 ∧ getReg State.reset npxBase = 0xB3D07D20 ∧
  getReg State.reset (fabBase + 0xC000) = 0xE0007C04 ∧ field (getReg State.reset (pwrBase + 0xC)) 31 20 = 2400 ∧
  (∀ a, counter State.reset a = 0) ∧ State.reset.latch = [] ∧ State.reset.glatch = [] ∧
  State.reset.stp.rc.state = 0 ∧ State.reset.cfg.committed = false ∧ State.reset.pending = []

/-- R22, R182, R240, R241, R435, R448. No byte of device memory changes outside the bytes that a write, a memory-side operation, a
memory move or an aperture write names; a move to the host and an aperture read change none. That is with no bit errors
standing: a line whose errors a read corrects or cannot correct changes by R182. -/
def Obligations.MemoryOutsideTheStore : Prop :=
  (∀ (ag : Agent) (cls a : Nat) (bs : List Byte) (s : State) (b : Nat), Clean s → b < a ∨ a + bs.length ≤ b →
    byteAt (writeTo ag cls a bs s) b = byteAt s b) ∧
  (∀ (i : Instr) (s t : State), Clean s → exec i s = .next t →
    let outside (a n : Nat) : Prop := ∀ b, b < a ∨ a + n ≤ b → byteAt t b = byteAt s b
    match i with
    | .addI64 a _ | .or64 a _ | .swap64 a _ | .cas64 a _ _ => outside a.toNat 8
    | .addF32 a _ | .maxF32 a _ | .minF32 a _ => outside a.toNat 4
    | .sqAdd a _ | .linAdd a _ => outside a.toNat 88
    | .memFill _ d n _ | .memFromHost _ _ d n | .memCopy _ _ d n => outside d.toNat n.toNat
    | .memToHost .. => ∀ b, byteAt t b = byteAt s b
    | .apertureAccess o write n _ => outside (0x008000000000 + o.toNat) (if write then n.toNat else 0)
    | _ => True)

/-- R45. The module writes INT8 values in −127 to 127 and INT4 values in −7 to 7; on input it accepts 0x80 as −128 in INT8
and 0x8 as −8 in INT4. -/
def Obligations.IntegerFormats : Prop :=
  (∀ (strict : Bool) (r : Round) (x : FVal) (ms : Nat) (es : Int),
    (-127 ≤ signed 8 (Fmt.int8.convert strict r x ms es).code ∧ signed 8 (Fmt.int8.convert strict r x ms es).code ≤ 127) ∧
    (-7 ≤ signed 4 (Fmt.int4.convert strict r x ms es).code ∧ signed 4 (Fmt.int4.convert strict r x ms es).code ≤ 7)) ∧
  Fmt.int8.decode 0x80 = .fin true 128 0 ∧ Fmt.int4.decode 0x8 = .fin true 8 0

/-- R46. Packing of sub-byte formats: dense, little-endian, element 0 in the lowest bits; a row whose length is not a
multiple of the packing unit is padded with zero codes. -/
def Obligations.PackedRows : Prop :=
  ∀ (f : Fmt) (codes : List Nat),
    let c (i : Nat) : Nat := codes.getD i 0 % 2 ^ f.width
    let row := f.pack codes
    ((f = .e2m1 ∨ f = .int4) → row.length = (codes.length + 1) / 2 ∧
      ∀ j, j < row.length → (row.getD j 0).toNat = c (2 * j) + 2 ^ 4 * c (2 * j + 1)) ∧
    ((f = .e3m2 ∨ f = .e2m3) → row.length = 3 * ((codes.length + 3) / 4) ∧
      ∀ j, 3 * j < row.length →
        leAt row (3 * j) 3 = c (4 * j) + 2 ^ 6 * c (4 * j + 1) + 2 ^ 12 * c (4 * j + 2) + 2 ^ 18 * c (4 * j + 3)) ∧
    (∀ i, i < codes.length → f.elemAt row i = c i)
end

