-- ==== Sys2Proof/Laws/Sparse.lean ====
section
/-!
SUPPORT. The laws of sparse maps (a read after a write, the canonical form kept), and from them those of device memory:
every memory operation keeps its canonical form, a stored byte reads back, and every other byte reads as before.
-/
namespace Sys2Proof.Machine

/-! ## Reads after writes -/

theorem sget_serase {α : Type} (d : α) (m : Sparse α) (a b : Nat) :
    sget d (serase m a) b = if a = b then d else sget d m b := by
  induction m with
  | nil => simp [serase, sget]
  | cons p m ih =>
    obtain ⟨k, v⟩ := p
    by_cases h : k = a <;> by_cases hb : k = b <;> simp_all [serase, sget]
    intro h'; exact absurd h'.symm h

theorem sget_sinsert {α : Type} (d : α) (m : Sparse α) (a b : Nat) (v : α) (hm : sget d m a = d)
    (hk : ∀ p ∈ m, p.1 ≠ a) : sget d (sinsert m a v) b = if a = b then v else sget d m b := by
  induction m with
  | nil => simp [sinsert, sget]
  | cons p m ih =>
    obtain ⟨k, w⟩ := p
    have hka : k ≠ a := hk (k, w) (by simp)
    have ih := ih (by simpa [sget, hka] using hm) (fun p hp => hk p (by simp [hp]))
    unfold sinsert
    split
    · simp [sget]
    · simp only [sget]
      by_cases hkb : k = b
      · subst hkb
        simp [Ne.symm hka]
      · simp [hkb, ih]

theorem serase_ne {α : Type} (m : Sparse α) (a : Nat) : ∀ p ∈ serase m a, p.1 ≠ a := by
  intro p hp; simp [serase] at hp; exact hp.2

/-- A read after a write, at any key of any map. -/
theorem sget_sput {α : Type} [DecidableEq α] (d : α) (m : Sparse α) (a b : Nat) (v : α) :
    sget d (sput d m a v) b = if a = b then v else sget d m b := by
  unfold sput
  split
  · subst_vars; rw [sget_serase]
  · rw [sget_sinsert _ _ _ _ _ (by rw [sget_serase]; simp) (serase_ne m a), sget_serase]
    split <;> rfl

theorem sget_sput_same {α : Type} [DecidableEq α] (d : α) (m : Sparse α) (a : Nat) (v : α) :
    sget d (sput d m a v) a = v := by rw [sget_sput]; simp

theorem sget_sput_other {α : Type} [DecidableEq α] (d : α) (m : Sparse α) (a b : Nat) (v : α) (h : a ≠ b) :
    sget d (sput d m a v) b = sget d m b := by rw [sget_sput]; simp [h]

theorem sget_sfilter {α : Type} (d : α) (m : Sparse α) (p : Nat → Bool) (b : Nat) :
    sget d (sfilter m p) b = if p b = true then sget d m b else d := by
  induction m with
  | nil => simp [sfilter, sget]
  | cons e m ih =>
    obtain ⟨k, v⟩ := e
    by_cases h : p k <;> by_cases hb : k = b <;> simp_all [sfilter, sget]

/-! ## The canonical form -/

theorem swfFrom_mono {α : Type} [DecidableEq α] (d : α) (m : Sparse α) (l l' : Nat) (h : l ≤ l')
    (hm : swfFrom d l' m = true) : swfFrom d l m = true := by
  cases m with
  | nil => rfl
  | cons e m =>
    obtain ⟨k, v⟩ := e
    simp only [swfFrom, Bool.and_eq_true, decide_eq_true_eq] at *
    exact ⟨⟨Nat.le_trans h hm.1.1, hm.1.2⟩, hm.2⟩

theorem swfFrom_filter {α : Type} [DecidableEq α] (d : α) (m : Sparse α) (p : Nat × α → Bool) (l : Nat)
    (hm : swfFrom d l m = true) : swfFrom d l (m.filter p) = true := by
  induction m generalizing l with
  | nil => rfl
  | cons e m ih =>
    obtain ⟨k, v⟩ := e
    simp only [swfFrom, Bool.and_eq_true, decide_eq_true_eq] at hm
    by_cases h : p (k, v)
    · rw [List.filter_cons_of_pos h]
      simp only [swfFrom, Bool.and_eq_true, decide_eq_true_eq]
      exact ⟨hm.1, ih _ hm.2⟩
    · rw [List.filter_cons_of_neg h]
      exact swfFrom_mono d _ l (k + 1) (Nat.le_succ_of_le hm.1.1) (ih _ hm.2)

theorem swfFrom_sinsert {α : Type} [DecidableEq α] (d : α) (m : Sparse α) (a l : Nat) (v : α) (hv : v ≠ d) (hl : l ≤ a)
    (hk : ∀ p ∈ m, p.1 ≠ a) (hm : swfFrom d l m = true) : swfFrom d l (sinsert m a v) = true := by
  induction m generalizing l with
  | nil => simp [sinsert, swfFrom, hl, hv]
  | cons e m ih =>
    obtain ⟨k, w⟩ := e
    have hka : k ≠ a := hk (k, w) (by simp)
    simp only [swfFrom, Bool.and_eq_true, decide_eq_true_eq] at hm
    unfold sinsert
    split
    · simp only [swfFrom, Bool.and_eq_true, decide_eq_true_eq]
      exact ⟨⟨hl, hv⟩, ⟨by omega, hm.1.2⟩, hm.2⟩
    · simp only [swfFrom, Bool.and_eq_true, decide_eq_true_eq]
      exact ⟨hm.1, ih _ (by omega) (fun p hp => hk p (by simp [hp])) hm.2⟩

/-- A write keeps the canonical form. -/
theorem swf_sput {α : Type} [DecidableEq α] (d : α) (m : Sparse α) (a : Nat) (v : α) (hm : swf d m = true) :
    swf d (sput d m a v) = true := by
  have he : swf d (serase m a) = true := swfFrom_filter d m _ 0 hm
  unfold sput
  split
  · exact he
  · rename_i hv
    exact swfFrom_sinsert d _ a 0 v hv (Nat.zero_le _) (serase_ne m a) he

theorem swf_sfilter {α : Type} [DecidableEq α] (d : α) (m : Sparse α) (p : Nat → Bool) (hm : swf d m = true) :
    swf d (sfilter m p) = true := swfFrom_filter d m _ 0 hm

/-! ## Device memory -/

theorem Memory.wf_putBytesAt (m : List Host.Cell) (a : Nat) (bs : List Byte) (h : Memory.wf m = true) :
    Memory.wf (putBytesAt m a bs) = true := by
  induction bs generalizing m a with
  | nil => exact h
  | cons b bs ih => exact ih _ _ (swf_sput _ _ _ _ h)

/-- A store keeps the canonical form of memory. -/
theorem Memory.wf_storeBytes (s : State) (a : Nat) (bs : List Byte) (h : Memory.wf s.mem = true) :
    Memory.wf (storeBytes s a bs).mem = true := Memory.wf_putBytesAt _ _ _ h

/-- Taking a range out of memory keeps its canonical form. -/
theorem Memory.wf_sfilter (m : List Host.Cell) (p : Nat → Bool) (h : Memory.wf m = true) :
    Memory.wf (sfilter m p) = true := swf_sfilter _ _ _ h

theorem byte_putBytesAt_before (m : List Host.Cell) (a : Nat) (bs : List Byte) (b : Nat) (h : b < a) :
    sget (0 : Byte) (putBytesAt m a bs) b = sget (0 : Byte) m b := by
  induction bs generalizing m a with
  | nil => rfl
  | cons x bs ih =>
    show sget (0 : Byte) (putBytesAt (putByte m a x) (a + 1) bs) b = _
    rw [ih _ _ (by omega)]
    exact sget_sput_other _ _ _ _ _ (by omega)

theorem byte_putBytesAt (m : List Host.Cell) (a : Nat) (bs : List Byte) (b : Nat) :
    sget (0 : Byte) (putBytesAt m a bs) b
      = if a ≤ b ∧ b < a + bs.length then bs.getD (b - a) 0 else sget (0 : Byte) m b := by
  induction bs generalizing m a with
  | nil => rw [if_neg (by simp)]; rfl
  | cons x bs ih =>
    show sget (0 : Byte) (putBytesAt (putByte m a x) (a + 1) bs) b = _
    by_cases hb : b = a
    · subst hb
      rw [byte_putBytesAt_before _ _ _ _ (by omega), if_pos (by simp)]
      simp [putByte, sget_sput_same]
    · rw [ih]
      by_cases h : a + 1 ≤ b ∧ b < a + 1 + bs.length
      · rw [if_pos h, if_pos (by simp; omega)]
        obtain ⟨n, hn⟩ : ∃ n, b - a = n + 1 := ⟨b - a - 1, by omega⟩
        rw [hn, show b - (a + 1) = n by omega]
        simp
      · rw [if_neg h, if_neg (by simp; omega)]
        exact sget_sput_other _ _ _ _ _ (by omega)

/-- What a byte reads as after a store: the byte stored there, or the byte it was. -/
theorem byteAt_storeBytes (s : State) (a : Nat) (bs : List Byte) (b : Nat) :
    byteAt (storeBytes s a bs) b = if a ≤ b ∧ b < a + bs.length then bs.getD (b - a) 0 else byteAt s b :=
  byte_putBytesAt _ _ _ _

end Sys2Proof.Machine
end

