-- ==== Sys2Proof/Laws/Kept.lean ====
section
/-!
SUPPORT. What every command leaves alone: the queue of waiting commands, and the canonical form of memory. `Kept p s` says
both, and each function that answers a state has one lemma that it keeps them.
-/
namespace Sys2Proof.Machine

/-- The queue is `p`, and memory is in its canonical form. -/
def Kept (p : List Instr) (s : State) : Prop := s.pending = p ∧ Memory.wf s.mem = true

/-- The next state, if there is one, is so. -/
def KeptO (p : List Instr) : Host.Outcome State Fault Refusal → Prop
  | .next s => Kept p s
  | _ => True

/-- The state, if there is one, is so. -/
def KeptOpt (p : List Instr) : Option State → Prop
  | some s => Kept p s
  | none => True

/-- The state of an arrival, if there is one, is so. -/
def KeptArr (p : List Instr) : Option Arrived → Prop
  | some a => Kept p a.s
  | none => True

theorem kept_arrSome {p : List Instr} {a : Arrived} (h : Kept p a.s) : KeptArr p (some a) := h

theorem kept_arrNone {p : List Instr} : KeptArr p none := trivial

theorem kept_arr {p : List Instr} {q : Option Arrived} {a : Arrived} (e : q = some a) (h : KeptArr p q) : Kept p a.s := by
  subst e; exact h

theorem kept_next {p : List Instr} {s : State} (h : Kept p s) : KeptO p (.next s) := h

theorem kept_optSome {p : List Instr} {s : State} (h : Kept p s) : KeptOpt p (some s) := h

theorem kept_optNone {p : List Instr} : KeptOpt p none := trivial

theorem kept_mk {p : List Instr} {s : State} (h : Kept p s) (poison : Sparse Bool) (upset : Sparse Nat) (openBlk : Sparse (List (Nat × FVal))) (regs : Sparse Nat) (ctr : Sparse Nat) (latch : Sparse Nat) (glatch : Sparse Nat) (course : List Flying) (out : List Output) (free : Nat) (slog : StickyLog) (host : HostIf) (cfg : CfgCrc) (tiles : Sparse Tile) (tensors : Sparse Tensor) (chans : Sparse Channel) (stackTab : Sparse Stack) (piers : Sparse Pier) (rmap : Sparse Nat) (bud : Budget) (cbl : Corbel) (stp : StepCtl) (tm : TimeSt) (fab : Fabric) (npx : Npx) (ck : Ckpt) (sec : Sec) (pwr : Pwr) : Kept p ⟨s.pending, s.mem, poison, upset, openBlk, regs, ctr, latch, glatch, course, out, free, slog, host, cfg, tiles, tensors, chans, stackTab, piers, rmap, bud, cbl, stp, tm, fab, npx, ck, sec, pwr⟩ := h

theorem kept_sfilter {p : List Instr} {s : State} (h : Kept p s) (k : Nat → Bool) (poison : Sparse Bool) (upset : Sparse Nat) (openBlk : Sparse (List (Nat × FVal))) (regs : Sparse Nat) (ctr : Sparse Nat) (latch : Sparse Nat) (glatch : Sparse Nat) (course : List Flying) (out : List Output) (free : Nat) (slog : StickyLog) (host : HostIf) (cfg : CfgCrc) (tiles : Sparse Tile) (tensors : Sparse Tensor) (chans : Sparse Channel) (stackTab : Sparse Stack) (piers : Sparse Pier) (rmap : Sparse Nat) (bud : Budget) (cbl : Corbel) (stp : StepCtl) (tm : TimeSt) (fab : Fabric) (npx : Npx) (ck : Ckpt) (sec : Sec) (pwr : Pwr) :
    Kept p ⟨s.pending, sfilter s.mem k, poison, upset, openBlk, regs, ctr, latch, glatch, course, out, free, slog, host, cfg, tiles, tensors, chans, stackTab, piers, rmap, bud, cbl, stp, tm, fab, npx, ck, sec, pwr⟩ := ⟨h.1, Memory.wf_sfilter _ _ h.2⟩

theorem kept_id {p : List Instr} {s : State} (h : Kept p s) : Kept p (id s) := h

theorem kept_ite {p : List Instr} {c : Prop} [Decidable c] {a b : State} (ha : Kept p a) (hb : Kept p b) :
    Kept p (if c then a else b) := by split <;> assumption

theorem kept_ite_snd {p : List Instr} {α : Type} {c : Prop} [Decidable c] {a b : α × State} (ha : Kept p a.2) (hb : Kept p b.2) :
    Kept p (if c then a else b).2 := by split <;> assumption

theorem kept_foldl {p : List Instr} {β : Type} {f : State → β → State} {l : List β} {s : State}
    (hf : ∀ t x, Kept p t → Kept p (f t x)) (h : Kept p s) : Kept p (l.foldl f s) := by
  induction l generalizing s with
  | nil => exact h
  | cons x l ih => exact ih (hf s x h)

theorem kept_foldl_snd {p : List Instr} {α β : Type} {f : α × State → β → α × State} {l : List β} {s : α × State}
    (hf : ∀ t x, Kept p t.2 → Kept p (f t x).2) (h : Kept p s.2) : Kept p (l.foldl f s).2 := by
  induction l generalizing s with
  | nil => exact h
  | cons x l ih => exact ih (hf s x h)

theorem kept_foldl_fst {p : List Instr} {α β : Type} {f : State × α → β → State × α} {l : List β} {s : State × α}
    (hf : ∀ t x, Kept p t.1 → Kept p (f t x).1) (h : Kept p s.1) : Kept p (l.foldl f s).1 := by
  induction l generalizing s with
  | nil => exact h
  | cons x l ih => exact ih (hf s x h)

theorem kept_foldl_snd2 {p : List Instr} {α α' β : Type} {f : α × α' × State → β → α × α' × State} {l : List β}
    {s : α × α' × State} (hf : ∀ t x, Kept p t.2.2 → Kept p (f t x).2.2) (h : Kept p s.2.2) :
    Kept p (l.foldl f s).2.2 := by
  induction l generalizing s with
  | nil => exact h
  | cons x l ih => exact ih (hf s x h)

theorem kept_snd {p : List Instr} {α : Type} {q : α × State} {x : α} {s : State} (e : q = (x, s)) (h : Kept p q.2) :
    Kept p s := by subst e; exact h

theorem kept_fst {p : List Instr} {α : Type} {q : State × α} {x : α} {s : State} (e : q = (s, x)) (h : Kept p q.1) :
    Kept p s := by subst e; exact h

theorem kept_snd2 {p : List Instr} {α β : Type} {q : α × β × State} {x : α} {y : β} {s : State} (e : q = (x, y, s))
    (h : Kept p q.2.2) : Kept p s := by subst e; exact h

theorem kept_some {p : List Instr} {q : Option State} {s : State} (e : q = some s) (h : KeptOpt p q) : Kept p s := by
  subst e; exact h

end Sys2Proof.Machine
end

