-- ==== Sys2Proof/Laws/KeptOps.lean ====
section
/-!
SUPPORT. The functions of Machine/Ops.lean keep the queue and the canonical form of memory.
-/
namespace Sys2Proof.Machine

theorem setReg_kept {pq : List Instr} (s : State) (a : Nat) (v : Nat) (h_s : Kept pq s) : Kept pq (setReg s a v) := by
  unfold setReg
  repeat' with_reducible first
    | assumption | dsimp only | apply kept_mk


theorem setRegField_kept {pq : List Instr} (s : State) (a : Nat) (hi : Nat) (lo : Nat) (v : Nat) (h_s : Kept pq s) : Kept pq (setRegField s a hi lo v) := by
  unfold setRegField
  repeat' with_reducible first
    | assumption | apply setReg_kept | dsimp only


theorem bumpN_kept {pq : List Instr} (s : State) (a : Nat) (n : Nat) (h_s : Kept pq s) : Kept pq (bumpN s a n) := by
  unfold bumpN
  repeat' with_reducible first
    | assumption | dsimp only | apply kept_mk


theorem bump_kept {pq : List Instr} (s : State) (a : Nat) (h_s : Kept pq s) : Kept pq (bump s a) := by
  unfold bump
  repeat' with_reducible first
    | assumption | apply bumpN_kept | dsimp only


theorem free32_kept {pq : List Instr} (s : State) (h_s : Kept pq s) : Kept pq (free32 s).2 := by
  unfold free32
  repeat' with_reducible first
    | assumption | dsimp only | apply kept_mk


theorem free64_kept {pq : List Instr} (s : State) (h_s : Kept pq s) : Kept pq (free64 s).2 := by
  unfold free64
  repeat' with_reducible first
    | assumption | dsimp only | apply kept_mk


theorem free256_kept {pq : List Instr} (s : State) (h_s : Kept pq s) : Kept pq (free256 s).2 := by
  unfold free256
  repeat' with_reducible first
    | assumption | dsimp only | apply kept_mk


theorem freeBytes_kept {pq : List Instr} (s : State) (n : Nat) (h_s : Kept pq s) : Kept pq (freeBytes s n).2 := by
  unfold freeBytes
  repeat' with_reducible first
    | intro _ | assumption | dsimp only | apply kept_mk


theorem emit_kept {pq : List Instr} (o : Output) (s : State) (h_s : Kept pq s) : Kept pq (emit o s) := by
  unfold emit
  repeat' with_reducible first
    | assumption | dsimp only | apply kept_mk


theorem slogPut_kept {pq : List Instr} (r : Nat) (s : State) (h_s : Kept pq s) : Kept pq (slogPut r s) := by
  unfold slogPut
  repeat' with_reducible first
    | assumption | apply bump_kept | apply kept_ite | split | dsimp only | apply kept_mk


theorem slogAdd_kept {pq : List Instr} (blk : Nat) (inst : Nat) (off : Nat) (addr : Nat) (fid : Nat) (task : Nat) (detail : Nat) (s : State) (h_s : Kept pq s) : Kept pq (slogAdd blk inst off addr fid task detail s) := by
  unfold slogAdd
  repeat' with_reducible first
    | assumption | apply slogPut_kept | dsimp only


theorem slog_kept {pq : List Instr} (blk : Nat) (inst : Nat) (off : Nat) (addr : Nat) (task : Nat) (detail : Nat) (s : State) (h_s : Kept pq s) : Kept pq (slog blk inst off addr task detail s) := by
  unfold slog
  repeat' with_reducible first
    | assumption | apply slogAdd_kept | dsimp only


theorem faultEvent_kept {pq : List Instr} (i : Nat) (inst : Nat) (task : Nat) (detail : Nat) (s : State) (h_s : Kept pq s) : Kept pq (faultEvent i inst task detail s) := by
  unfold faultEvent
  repeat' with_reducible first
    | assumption | apply bump_kept | apply slog_kept | dsimp only


theorem pauseCopy_kept {pq : List Instr} (lost : Bool) (s : State) (h_s : Kept pq s) : Kept pq (pauseCopy lost s) := by
  unfold pauseCopy
  repeat' with_reducible first
    | assumption | apply faultEvent_kept | apply kept_ite | split | dsimp only | refine kept_some (by assumption) ?_
    | apply kept_mk


theorem hostWrite_kept {pq : List Instr} (addr : Nat) (data : List Byte) (s : State) (h_s : Kept pq s) : Kept pq (hostWrite addr data s) := by
  unfold hostWrite
  repeat' with_reducible first
    | assumption | apply emit_kept | dsimp only


theorem signal_kept {pq : List Instr} (v : Nat) (s : State) (h_s : Kept pq s) : Kept pq (signal v s) := by
  unfold signal
  repeat' with_reducible first
    | assumption | apply emit_kept | apply kept_ite | split | dsimp only | apply kept_mk


theorem setQueue_kept {pq : List Instr} (s : State) (q : Nat) (v : Queue) (h_s : Kept pq s) : Kept pq (setQueue s q v) := by
  unfold setQueue
  repeat' with_reducible first
    | assumption | dsimp only | apply kept_mk


theorem eventWrite_kept {pq : List Instr} (code : Nat) (detail : Nat) (source : Nat) (s : State) (h_s : Kept pq s) : Kept pq (eventWrite code detail source s) := by
  unfold eventWrite
  repeat' with_reducible first
    | assumption | apply hostWrite_kept | apply signal_kept | apply kept_ite | split | dsimp only | apply kept_mk


theorem postEvent_kept {pq : List Instr} (code : Nat) (detail : Nat) (source : Nat) (s : State) (h_s : Kept pq s) : Kept pq (postEvent code detail source s) := by
  unfold postEvent
  repeat' with_reducible first
    | assumption | apply bump_kept | apply eventWrite_kept | apply kept_ite | split | dsimp only | apply kept_mk


theorem eventSpace_kept {pq : List Instr} (s : State) (h_s : Kept pq s) : Kept pq (eventSpace s) := by
  unfold eventSpace
  repeat' with_reducible first
    | assumption | apply eventWrite_kept | apply kept_ite | split | dsimp only | apply kept_mk


theorem dropReply_kept {pq : List Instr} (r : ReplyTo) (status : Nat) (detail : Nat) (s : State) (h_s : Kept pq s) : Kept pq (dropReply r status detail s) := by
  unfold dropReply
  repeat' with_reducible first
    | assumption | apply bump_kept | apply postEvent_kept | apply kept_ite | split | dsimp only | apply kept_mk


theorem writeReply_kept {pq : List Instr} (r : ReplyTo) (status : Nat) (detail : Nat) (s : State) (h_s : Kept pq s) : Kept pq (writeReply r status detail s) := by
  unfold writeReply
  repeat' with_reducible first
    | assumption | apply bump_kept | apply hostWrite_kept | apply signal_kept | apply setQueue_kept
    | apply dropReply_kept | apply kept_ite | split | dsimp only | apply kept_mk


theorem answered_kept {pq : List Instr} (r : ReplyTo) (deferred : Bool) (s : State) (h_s : Kept pq s) : Kept pq (answered r deferred s) := by
  unfold answered
  repeat' with_reducible first
    | assumption | apply setQueue_kept | apply kept_ite | split | dsimp only | apply kept_mk


theorem postReply_kept {pq : List Instr} (r : ReplyTo) (deferred : Bool) (status : Nat) (detail : Nat) (s : State) (h_s : Kept pq s) : Kept pq (postReply r deferred status detail s) := by
  unfold postReply
  repeat' with_reducible first
    | assumption | apply bump_kept | apply emit_kept | apply dropReply_kept | apply writeReply_kept
    | apply answered_kept | apply kept_ite | split | dsimp only | apply kept_mk


theorem raiseAlert_kept {pq : List Instr} (s : State) (h_s : Kept pq s) : Kept pq (raiseAlert s) := by
  unfold raiseAlert
  repeat' with_reducible first
    | assumption | apply emit_kept | apply kept_ite | split | dsimp only | apply kept_mk


theorem updateFault_kept {pq : List Instr} (s : State) (h_s : Kept pq s) : Kept pq (updateFault s) := by
  unfold updateFault
  repeat' with_reducible first
    | assumption | apply emit_kept | apply raiseAlert_kept | apply kept_ite | split | dsimp only | apply kept_mk


theorem liftFence_kept {pq : List Instr} (mask : Nat) (s : State) (h_s : Kept pq s) : Kept pq (liftFence mask s) := by
  unfold liftFence
  repeat' with_reducible first
    | assumption | apply postEvent_kept | apply updateFault_kept | apply kept_ite | split | dsimp only | apply kept_mk


theorem sendKnow_kept {pq : List Instr} (know : List Nat) (m : Msg) (s : State) (h_s : Kept pq s) : Kept pq (sendKnow know m s) := by
  unfold sendKnow
  repeat' with_reducible first
    | assumption | dsimp only | apply kept_mk


theorem send_kept {pq : List Instr} (m : Msg) (s : State) (h_s : Kept pq s) : Kept pq (send m s) := by
  unfold send
  repeat' with_reducible first
    | assumption | apply sendKnow_kept | dsimp only


theorem sendToken_kept {pq : List Instr} (dest : Nat) (slot : Nat) (kind : Nat) (src : Nat) (gen : Bool) (value : Nat) (s : State) (h_s : Kept pq s) : Kept pq (sendToken dest slot kind src gen value s) := by
  unfold sendToken
  repeat' with_reducible first
    | assumption | apply send_kept | dsimp only


theorem arriveFrom_kept {pq : List Instr} (m : Msg) (s : State) (h_s : Kept pq s) : KeptArr pq (arriveFrom m s) := by
  unfold arriveFrom
  repeat' with_reducible first
    | intro _ | assumption | apply kept_arrSome | apply kept_arrNone | apply kept_ite | split | dsimp only
    | refine kept_snd (by assumption) ?_ | refine kept_snd2 (by assumption) ?_ | refine kept_fst (by assumption) ?_
    | refine kept_some (by assumption) ?_ | apply kept_mk


theorem arrive_kept {pq : List Instr} (m : Msg) (s : State) (h_s : Kept pq s) : KeptOpt pq (arrive m s) := by
  have h := arriveFrom_kept m s h_s
  unfold arrive
  cases e : arriveFrom m s with
  | none => exact kept_optNone
  | some a => rw [e] at h; exact h


theorem setTile_kept {pq : List Instr} (s : State) (t : Nat) (v : Tile) (h_s : Kept pq s) : Kept pq (setTile s t v) := by
  unfold setTile
  repeat' with_reducible first
    | assumption | dsimp only | apply kept_mk


theorem setTensor_kept {pq : List Instr} (s : State) (tid : Nat) (v : Tensor) (h_s : Kept pq s) : Kept pq (setTensor s tid v) := by
  unfold setTensor
  repeat' with_reducible first
    | assumption | dsimp only | apply kept_mk


theorem statTensor_kept {pq : List Instr} (tid : Nat) (sat : Nat) (nf : Nat) (crush : Nat) (s : State) (h_s : Kept pq s) : Kept pq (statTensor tid sat nf crush s) := by
  unfold statTensor
  repeat' with_reducible first
    | assumption | apply setTensor_kept | dsimp only | apply kept_mk


theorem setStack_kept {pq : List Instr} (s : State) (k : Nat) (v : Stack) (h_s : Kept pq s) : Kept pq (setStack s k v) := by
  unfold setStack
  repeat' with_reducible first
    | assumption | dsimp only | apply kept_mk


theorem setChan_kept {pq : List Instr} (s : State) (g : Nat) (v : Channel) (h_s : Kept pq s) : Kept pq (setChan s g v) := by
  unfold setChan
  repeat' with_reducible first
    | assumption | dsimp only | apply kept_mk


theorem setPier_kept {pq : List Instr} (s : State) (p : Nat) (v : Pier) (h_s : Kept pq s) : Kept pq (setPier s p v) := by
  unfold setPier
  repeat' with_reducible first
    | assumption | dsimp only | apply kept_mk


theorem tileControl_kept {pq : List Instr} (t : Nat) (slot : Nat) (v : Nat) (s : State) (h_s : Kept pq s) : Kept pq (tileControl t slot v s) := by
  unfold tileControl
  repeat' with_reducible first
    | assumption | apply sendToken_kept | dsimp only


theorem fenceTile_kept {pq : List Instr} (t : Nat) (cause : Nat) (task : Nat) (s : State) (h_s : Kept pq s) : Kept pq (fenceTile t cause task s) := by
  unfold fenceTile
  repeat' with_reducible first
    | assumption | apply slog_kept | apply send_kept | apply setTile_kept | apply tileControl_kept | apply kept_ite
    | split | dsimp only | apply kept_mk


theorem raiseNonfinite_kept {pq : List Instr} (src : Nat) (s : State) (h_s : Kept pq s) : Kept pq (raiseNonfinite src s) := by
  unfold raiseNonfinite
  repeat' with_reducible first
    | assumption | apply sendToken_kept | dsimp only


end Sys2Proof.Machine
end

