-- ==== Sys2Proof/Laws/KeptMem.lean ====
section
/-!
SUPPORT. The functions of Machine/Mem.lean keep the queue and the canonical form of memory.
-/
namespace Sys2Proof.Machine

theorem storeBytes_kept {pq : List Instr} (s : State) (a : Nat) (bs : List Byte) (h_s : Kept pq s) : Kept pq (storeBytes s a bs) := by
  exact ⟨h_s.1, Memory.wf_storeBytes _ _ _ h_s.2⟩


theorem setPoison_kept {pq : List Instr} (s : State) (a : Nat) (p : Bool) (h_s : Kept pq s) : Kept pq (setPoison s a p) := by
  unfold setPoison
  repeat' with_reducible first
    | assumption | dsimp only | apply kept_mk


theorem charge_kept {pq : List Instr} (c : Nat) (r : Resource) (n : Nat) (s : State) (h_s : Kept pq s) : Kept pq (charge c r n s) := by
  unfold charge
  repeat' with_reducible first
    | assumption | apply bumpN_kept | apply bump_kept | apply kept_ite | split | dsimp only
    | refine kept_snd (by assumption) ?_ | refine kept_snd2 (by assumption) ?_ | refine kept_fst (by assumption) ?_
    | refine kept_some (by assumption) ?_ | apply kept_mk


theorem chargeLine_kept {pq : List Instr} (c : Nat) (corbel : Bool) (l : Nat) (n : Nat) (s : State) (h_s : Kept pq s) : Kept pq (chargeLine c corbel l n s) := by
  unfold chargeLine
  repeat' with_reducible first
    | assumption | apply charge_kept | split | dsimp only | refine kept_snd (by assumption) ?_
    | refine kept_snd2 (by assumption) ?_ | refine kept_fst (by assumption) ?_ | refine kept_some (by assumption) ?_
    | apply kept_mk


theorem chargePlinth_kept {pq : List Instr} (c : Nat) (a : Nat) (n : Nat) (s : State) (h_s : Kept pq s) : Kept pq (chargePlinth c a n s) := by
  unfold chargePlinth
  repeat' with_reducible first
    | intro _ | assumption | apply kept_foldl | apply charge_kept | split | dsimp only
    | refine kept_snd (by assumption) ?_ | refine kept_snd2 (by assumption) ?_ | refine kept_fst (by assumption) ?_
    | refine kept_some (by assumption) ?_ | apply kept_mk


theorem chargeRange_kept {pq : List Instr} (c : Nat) (corbel : Bool) (a : Nat) (n : Nat) (s : State) (h_s : Kept pq s) : Kept pq (chargeRange c corbel a n s) := by
  unfold chargeRange
  repeat' with_reducible first
    | intro _ | assumption | apply kept_foldl | apply chargeLine_kept | apply chargePlinth_kept | split | dsimp only


theorem countUnmapped_kept {pq : List Instr} (a : Nat) (s : State) (h_s : Kept pq s) : Kept pq (countUnmapped a s) := by
  unfold countUnmapped
  repeat' with_reducible first
    | assumption | apply bump_kept | apply slog_kept | dsimp only


end Sys2Proof.Machine
end

