-- ==== Sys2Proof/Laws/KeptEcc.lean ====
section
/-!
SUPPORT. The functions of Machine/Ecc.lean keep the queue and the canonical form of memory.
-/
namespace Sys2Proof.Machine

theorem markEcc_kept {pq : List Instr} (a : Nat) (s : State) (h_s : Kept pq s) : Kept pq (markEcc a s) := by
  unfold markEcc
  repeat' with_reducible first
    | intro _ | assumption | apply kept_ite | split | dsimp only | apply kept_mk


theorem repairAdd_kept {pq : List Instr} (k : Nat) (row : Nat) (s : State) (h_s : Kept pq s) : Kept pq (repairAdd k row s) := by
  unfold repairAdd
  repeat' with_reducible first
    | assumption | apply bump_kept | apply setStack_kept | apply kept_ite | split | dsimp only | apply kept_mk


theorem requestRetrain_kept {pq : List Instr} (g : Nat) (ns : Nat) (s : State) (h_s : Kept pq s) : Kept pq (requestRetrain g ns s) := by
  unfold requestRetrain
  repeat' with_reducible first
    | assumption | apply setChan_kept | split | dsimp only | refine kept_snd (by assumption) ?_
    | refine kept_snd2 (by assumption) ?_ | refine kept_fst (by assumption) ?_ | refine kept_some (by assumption) ?_
    | apply kept_mk


theorem correctedLine_kept {pq : List Instr} (k : Nat) (c : Nat) (q : Nat) (a : Nat) (s : State) (h_s : Kept pq s) : Kept pq (correctedLine k c q a s) := by
  unfold correctedLine
  repeat' with_reducible first
    | assumption | apply bump_kept | apply setStack_kept | apply setChan_kept | apply repairAdd_kept
    | apply requestRetrain_kept | apply kept_ite | split | dsimp only | apply kept_mk


theorem clearUpset_kept {pq : List Instr} (a : Nat) (s : State) (h_s : Kept pq s) : Kept pq (clearUpset a s) := by
  unfold clearUpset
  repeat' with_reducible first
    | assumption | dsimp only | apply kept_mk


theorem addUpset_kept {pq : List Instr} (a : Nat) (bits : Nat) (s : State) (h_s : Kept pq s) : Kept pq (addUpset a bits s) := by
  unfold addUpset
  repeat' with_reducible first
    | assumption | dsimp only | apply kept_mk


theorem poisonLine_kept {pq : List Instr} (k : Nat) (a : Nat) (s : State) (h_s : Kept pq s) : Kept pq (poisonLine k a s) := by
  unfold poisonLine
  repeat' with_reducible first
    | assumption | apply bump_kept | apply storeBytes_kept | apply setPoison_kept | apply clearUpset_kept | dsimp only


theorem countRebuild_kept {pq : List Instr} (cls : Nat) (corbel : Bool) (k : Nat) (c : Nat) (s : State) (h_s : Kept pq s) : Kept pq (countRebuild cls corbel k c s) := by
  unfold countRebuild
  repeat' with_reducible first
    | intro _ | assumption | apply kept_foldl | apply bump_kept | apply charge_kept | dsimp only


theorem rebuildLine_kept {pq : List Instr} (cls : Nat) (corbel : Bool) (k : Nat) (c : Nat) (a : Nat) (s : State) (h_s : Kept pq s) : Kept pq (rebuildLine cls corbel k c a s).2 := by
  unfold rebuildLine
  repeat' with_reducible first
    | assumption | apply bump_kept | apply poisonLine_kept | apply countRebuild_kept | apply kept_ite | split
    | dsimp only


theorem treatLine_kept {pq : List Instr} (cls : Nat) (corbel : Bool) (k : Nat) (c : Nat) (q : Nat) (a : Nat) (r : LineResult) (s : State) (h_s : Kept pq s) : Kept pq (treatLine cls corbel k c q a r s).2 := by
  unfold treatLine
  repeat' with_reducible first
    | assumption | apply bump_kept | apply storeBytes_kept | apply charge_kept | apply markEcc_kept
    | apply repairAdd_kept | apply correctedLine_kept | apply clearUpset_kept | apply poisonLine_kept
    | apply rebuildLine_kept | apply kept_ite | split | dsimp only | refine kept_snd (by assumption) ?_
    | refine kept_snd2 (by assumption) ?_ | refine kept_fst (by assumption) ?_ | refine kept_some (by assumption) ?_
    | apply kept_mk


theorem readLine_kept {pq : List Instr} (cls : Nat) (corbel : Bool) (k : Nat) (c : Nat) (q : Nat) (a : Nat) (s : State) (h_s : Kept pq s) : Kept pq (readLine cls corbel k c q a s).2 := by
  unfold readLine
  repeat' with_reducible first
    | assumption | apply charge_kept | apply treatLine_kept | dsimp only


theorem readPoison_kept {pq : List Instr} (k : Nat) (a : Nat) (s : State) (h_s : Kept pq s) : Kept pq (readPoison k a s).2 := by
  unfold readPoison
  repeat' with_reducible first
    | assumption | apply bump_kept | apply markEcc_kept | dsimp only


theorem fetchLine_kept {pq : List Instr} (cls : Nat) (corbel : Bool) (a : Nat) (k : Nat) (c : Nat) (q : Nat) (s : State) (h_s : Kept pq s) : Kept pq (fetchLine cls corbel a k c q s).2 := by
  unfold fetchLine
  repeat' with_reducible first
    | assumption | apply bump_kept | apply countRebuild_kept | apply rebuildLine_kept | apply readLine_kept
    | apply readPoison_kept | apply kept_ite | split | dsimp only


end Sys2Proof.Machine
end

