-- ==== Sys2Proof/Laws/KeptAccess.lean ====
section
/-!
SUPPORT. The functions of Machine/Access.lean keep the queue and the canonical form of memory.
-/
namespace Sys2Proof.Machine

theorem countPlnEcc_kept {pq : List Instr} (p : Nat) (a : Nat) (ce : Nat) (ue : Nat) (s : State) (h_s : Kept pq s) : Kept pq (countPlnEcc p a ce ue s) := by
  unfold countPlnEcc
  repeat' with_reducible first
    | assumption | apply bumpN_kept | apply slog_kept | apply kept_ite | split | dsimp only


theorem gatherDrop_kept {pq : List Instr} (p : Nat) (r : Nat) (g : Nat) (s : State) (h_s : Kept pq s) : Kept pq (gatherDrop p r g s) := by
  unfold gatherDrop
  repeat' with_reducible first
    | intro _ | assumption | apply setPier_kept | split | dsimp only | refine kept_snd (by assumption) ?_
    | refine kept_snd2 (by assumption) ?_ | refine kept_fst (by assumption) ?_ | refine kept_some (by assumption) ?_
    | apply kept_mk


theorem readScratch_kept {pq : List Instr} (p : Nat) (r : Nat) (g : Nat) (a : Nat) (n : Nat) (s : State) (h_s : Kept pq s) : Kept pq (readScratch p r g a n s).2 := by
  unfold readScratch
  repeat' with_reducible first
    | assumption | apply countPlnEcc_kept | apply gatherDrop_kept | apply kept_ite | split | dsimp only
    | refine kept_snd (by assumption) ?_ | refine kept_snd2 (by assumption) ?_ | refine kept_fst (by assumption) ?_
    | refine kept_some (by assumption) ?_ | apply kept_mk


theorem readTileMem_kept {pq : List Instr} (t : Nat) (off : Nat) (a : Nat) (n : Nat) (s : State) (h_s : Kept pq s) : Kept pq (readTileMem t off a n s).2 := by
  unfold readTileMem
  repeat' with_reducible first
    | assumption | apply bumpN_kept | apply fenceTile_kept | apply kept_ite | split | dsimp only
    | refine kept_snd (by assumption) ?_ | refine kept_snd2 (by assumption) ?_ | refine kept_fst (by assumption) ?_
    | refine kept_some (by assumption) ?_ | apply kept_mk


theorem writeSram_kept {pq : List Instr} (a : Nat) (n : Nat) (s : State) (h_s : Kept pq s) : Kept pq (writeSram a n s) := by
  unfold writeSram
  repeat' with_reducible first
    | intro _ | assumption | apply kept_foldl | apply kept_ite | split | dsimp only | apply kept_mk


theorem poolSet_kept {pq : List Instr} (p : Nat) (g : Nat) (e : Option PoolEntry) (s : State) (h_s : Kept pq s) : Kept pq (poolSet p g e s) := by
  unfold poolSet
  repeat' with_reducible first
    | intro _ | assumption | apply setPier_kept | apply kept_ite | split | dsimp only | apply kept_mk


theorem poolCheck_kept {pq : List Instr} (p : Nat) (g : Nat) (s : State) (h_s : Kept pq s) : Kept pq (poolCheck p g s) := by
  unfold poolCheck
  repeat' with_reducible first
    | intro _ | assumption | apply kept_foldl | apply kept_foldl_snd | apply kept_foldl_snd2 | apply kept_foldl_fst
    | apply poisonLine_kept | apply countPlnEcc_kept | apply poolSet_kept | apply kept_ite | split | dsimp only
    | refine kept_snd (by assumption) ?_ | refine kept_snd2 (by assumption) ?_ | refine kept_fst (by assumption) ?_
    | refine kept_some (by assumption) ?_ | apply kept_mk


theorem settleLine_kept {pq : List Instr} (cls : Nat) (corbel : Bool) (held : Bool) (a : Nat) (m : Nat) (k : Nat) (c : Nat) (q : Nat) (s : State) (h_s : Kept pq s) : Kept pq (settleLine cls corbel held a m k c q s) := by
  unfold settleLine
  repeat' with_reducible first
    | assumption | apply bump_kept | apply storeBytes_kept | apply setPoison_kept | apply charge_kept
    | apply clearUpset_kept | apply readLine_kept | apply fetchLine_kept | apply kept_ite | split | dsimp only
    | refine kept_snd (by assumption) ?_ | refine kept_snd2 (by assumption) ?_ | refine kept_fst (by assumption) ?_
    | refine kept_some (by assumption) ?_


theorem settleEntry_kept {pq : List Instr} (e : PoolEntry) (s : State) (h_s : Kept pq s) : Kept pq (settleEntry e s) := by
  unfold settleEntry
  repeat' with_reducible first
    | intro _ | assumption | apply kept_foldl | apply settleLine_kept | apply kept_ite | split | dsimp only
    | refine kept_snd (by assumption) ?_ | refine kept_snd2 (by assumption) ?_ | refine kept_fst (by assumption) ?_
    | refine kept_some (by assumption) ?_ | apply kept_mk


theorem releaseOne_kept {pq : List Instr} (p : Nat) (g : Nat) (s : State) (h_s : Kept pq s) : Kept pq (releaseOne p g s) := by
  unfold releaseOne
  repeat' with_reducible first
    | intro _ | assumption | apply poolSet_kept | apply poolCheck_kept | apply settleEntry_kept | apply kept_ite
    | split | dsimp only | refine kept_snd (by assumption) ?_ | refine kept_snd2 (by assumption) ?_
    | refine kept_fst (by assumption) ?_ | refine kept_some (by assumption) ?_ | apply kept_mk


theorem poolRelease_kept {pq : List Instr} (p : Nat) (g : Nat) (s : State) (h_s : Kept pq s) : Kept pq (poolRelease p g s) := by
  unfold poolRelease
  repeat' with_reducible first
    | intro _ | assumption | apply kept_foldl | apply kept_foldl_snd | apply kept_foldl_snd2 | apply kept_foldl_fst
    | apply bump_kept | apply charge_kept | apply releaseOne_kept | apply kept_ite | split | dsimp only
    | refine kept_snd (by assumption) ?_ | refine kept_snd2 (by assumption) ?_ | refine kept_fst (by assumption) ?_
    | refine kept_some (by assumption) ?_ | apply kept_mk


theorem poolFullStripe_kept {pq : List Instr} (p : Nat) (g : Nat) (s : State) (h_s : Kept pq s) : Kept pq (poolFullStripe p g s) := by
  unfold poolFullStripe
  repeat' with_reducible first
    | intro _ | assumption | apply poolRelease_kept | apply kept_ite | split | dsimp only
    | refine kept_snd (by assumption) ?_ | refine kept_snd2 (by assumption) ?_ | refine kept_fst (by assumption) ?_
    | refine kept_some (by assumption) ?_ | apply kept_mk


theorem poolShed_kept {pq : List Instr} (p : Nat) (b0 : Nat) (b1 : State) (h_b1 : Kept pq b1) : Kept pq (poolShed p b0 b1) := by
  induction b0 generalizing b1 with
  | zero => exact h_b1
  | succ n ih =>
    unfold poolShed
    dsimp only
    split
    · exact h_b1
    · split
      · exact ih _ (poolRelease_kept _ _ _ h_b1)
      · exact h_b1


theorem poolPut_kept {pq : List Instr} (cls : Nat) (a : Nat) (n : Nat) (k : Nat) (c : Nat) (q : Nat) (s : State) (h_s : Kept pq s) : Kept pq (poolPut cls a n k c q s) := by
  unfold poolPut
  repeat' with_reducible first
    | assumption | apply bump_kept | apply setPier_kept | apply poolSet_kept | apply settleLine_kept
    | apply poolFullStripe_kept | apply poolShed_kept | apply kept_ite | split | dsimp only
    | refine kept_snd (by assumption) ?_ | refine kept_snd2 (by assumption) ?_ | refine kept_fst (by assumption) ?_
    | refine kept_some (by assumption) ?_ | apply kept_mk


theorem poolDrain_kept {pq : List Instr} (p : Nat) (sel : PoolEntry → Bool) (s : State) (h_s : Kept pq s) : Kept pq (poolDrain p sel s) := by
  unfold poolDrain
  repeat' with_reducible first
    | intro _ | assumption | apply kept_foldl | apply poolRelease_kept | dsimp only


theorem poolDrainStack_kept {pq : List Instr} (k : Nat) (s : State) (h_s : Kept pq s) : Kept pq (poolDrainStack k s) := by
  unfold poolDrainStack
  repeat' with_reducible first
    | intro _ | assumption | apply poolDrain_kept | dsimp only


theorem cacheFill_kept {pq : List Instr} (p : Nat) (l : Nat) (s : State) (h_s : Kept pq s) : Kept pq (cacheFill p l s) := by
  unfold cacheFill
  repeat' with_reducible first
    | intro _ | assumption | apply free32_kept | apply setPier_kept | apply kept_ite | split | dsimp only
    | refine kept_snd (by assumption) ?_ | refine kept_snd2 (by assumption) ?_ | refine kept_fst (by assumption) ?_
    | refine kept_some (by assumption) ?_ | apply kept_mk


theorem cacheDrop_kept {pq : List Instr} (p : Nat) (l : Nat) (s : State) (h_s : Kept pq s) : Kept pq (cacheDrop p l s) := by
  unfold cacheDrop
  repeat' with_reducible first
    | assumption | apply setPier_kept | dsimp only | apply kept_mk


theorem cacheClear_kept {pq : List Instr} (p : Nat) (s : State) (h_s : Kept pq s) : Kept pq (cacheClear p s) := by
  unfold cacheClear
  repeat' with_reducible first
    | assumption | apply setPier_kept | apply kept_ite | split | dsimp only | apply kept_mk


theorem cacheWrite_kept {pq : List Instr} (p : Nat) (a : Nat) (n : Nat) (s : State) (h_s : Kept pq s) : Kept pq (cacheWrite p a n s) := by
  unfold cacheWrite
  repeat' with_reducible first
    | intro _ | assumption | apply kept_foldl | apply setPier_kept | apply kept_ite | split | dsimp only
    | refine kept_snd (by assumption) ?_ | refine kept_snd2 (by assumption) ?_ | refine kept_fst (by assumption) ?_
    | refine kept_some (by assumption) ?_ | apply kept_mk


theorem cacheFetch_kept {pq : List Instr} (p : Nat) (cls : Nat) (a : Nat) (k : Nat) (c : Nat) (q : Nat) (s : State) (h_s : Kept pq s) : Kept pq (cacheFetch p cls a k c q s).2 := by
  unfold cacheFetch
  repeat' with_reducible first
    | assumption | apply fetchLine_kept | apply cacheFill_kept | apply kept_ite | split | dsimp only
    | refine kept_snd (by assumption) ?_ | refine kept_snd2 (by assumption) ?_ | refine kept_fst (by assumption) ?_
    | refine kept_some (by assumption) ?_


theorem cacheRead_kept {pq : List Instr} (p : Nat) (cls : Nat) (a : Nat) (n : Nat) (k : Nat) (c : Nat) (q : Nat) (s : State) (h_s : Kept pq s) : Kept pq (cacheRead p cls a n k c q s).2 := by
  unfold cacheRead
  repeat' with_reducible first
    | assumption | apply bump_kept | apply setPier_kept | apply fetchLine_kept | apply countPlnEcc_kept
    | apply cacheDrop_kept | apply cacheFetch_kept | apply kept_ite | split | dsimp only
    | refine kept_snd (by assumption) ?_ | refine kept_snd2 (by assumption) ?_ | refine kept_fst (by assumption) ?_
    | refine kept_some (by assumption) ?_ | apply kept_mk


theorem readPiece_kept {pq : List Instr} (corbel : Bool) (cls : Nat) (a : Nat) (n : Nat) (unit : Bool) (s : State) (h_s : Kept pq s) : Kept pq (readPiece corbel cls a n unit s).2 := by
  unfold readPiece
  repeat' with_reducible first
    | assumption | apply charge_kept | apply fetchLine_kept | apply readScratch_kept | apply readTileMem_kept
    | apply poolCheck_kept | apply cacheRead_kept | apply kept_ite | split | dsimp only
    | refine kept_snd (by assumption) ?_ | refine kept_snd2 (by assumption) ?_ | refine kept_fst (by assumption) ?_
    | refine kept_some (by assumption) ?_ | apply kept_mk


theorem readPieces_kept {pq : List Instr} (ag : Agent) (cls : Nat) (a : Nat) (n : Nat) (s : State) (h_s : Kept pq s) : Kept pq (readPieces ag cls a n s).2 := by
  unfold readPieces
  repeat' with_reducible first
    | intro _ | assumption | apply kept_foldl | apply kept_foldl_snd | apply kept_foldl_snd2 | apply kept_foldl_fst
    | apply readPiece_kept | apply kept_ite | split | dsimp only | refine kept_snd (by assumption) ?_
    | refine kept_snd2 (by assumption) ?_ | refine kept_fst (by assumption) ?_ | refine kept_some (by assumption) ?_


theorem readDev_kept {pq : List Instr} (ag : Agent) (cls : Nat) (a : Nat) (n : Nat) (s : State) (h_s : Kept pq s) : Kept pq (readDev ag cls a n s).2 := by
  unfold readDev
  repeat' with_reducible first
    | intro _ | assumption | apply countUnmapped_kept | apply readPieces_kept | apply kept_ite | split | dsimp only
    | refine kept_snd (by assumption) ?_ | refine kept_snd2 (by assumption) ?_ | refine kept_fst (by assumption) ?_
    | refine kept_some (by assumption) ?_ | apply kept_mk


theorem writePiece_kept {pq : List Instr} (corbel : Bool) (cls : Nat) (a : Nat) (bs : List Byte) (unit : Bool) (s : State) (h_s : Kept pq s) : Kept pq (writePiece corbel cls a bs unit s) := by
  unfold writePiece
  repeat' with_reducible first
    | assumption | apply storeBytes_kept | apply charge_kept | apply writeSram_kept | apply settleLine_kept
    | apply poolPut_kept | apply cacheWrite_kept | apply kept_ite | split | dsimp only
    | refine kept_snd (by assumption) ?_ | refine kept_snd2 (by assumption) ?_ | refine kept_fst (by assumption) ?_
    | refine kept_some (by assumption) ?_ | apply kept_mk


theorem writeDev_kept {pq : List Instr} (ag : Agent) (cls : Nat) (a : Nat) (bs : List Byte) (s : State) (h_s : Kept pq s) : Kept pq (writeDev ag cls a bs s).2 := by
  unfold writeDev
  repeat' with_reducible first
    | intro _ | assumption | apply kept_foldl | apply kept_foldl_snd | apply kept_foldl_snd2 | apply kept_foldl_fst
    | apply countUnmapped_kept | apply writePiece_kept | split | dsimp only | refine kept_snd (by assumption) ?_
    | refine kept_snd2 (by assumption) ?_ | refine kept_fst (by assumption) ?_ | refine kept_some (by assumption) ?_
    | apply kept_mk


theorem writeTo_kept {pq : List Instr} (ag : Agent) (cls : Nat) (a : Nat) (bs : List Byte) (s : State) (h_s : Kept pq s) : Kept pq (writeTo ag cls a bs s) := by
  unfold writeTo
  repeat' with_reducible first
    | assumption | apply writeDev_kept | dsimp only


theorem fwWrite_kept {pq : List Instr} (k : Nat) (off : Nat) (bs : List Byte) (s : State) (h_s : Kept pq s) : Kept pq (fwWrite k off bs s) := by
  unfold fwWrite
  repeat' with_reducible first
    | assumption | apply storeBytes_kept | apply writeTo_kept | apply kept_ite | split | dsimp only


theorem touch_kept {pq : List Instr} (ag : Agent) (cls : Nat) (a : Nat) (n : Nat) (s : State) (h_s : Kept pq s) : Kept pq (touch ag cls a n s).2 := by
  unfold touch
  repeat' with_reducible first
    | assumption | apply readDev_kept | split | dsimp only | refine kept_snd (by assumption) ?_
    | refine kept_snd2 (by assumption) ?_ | refine kept_fst (by assumption) ?_ | refine kept_some (by assumption) ?_


end Sys2Proof.Machine
end

