-- ==== Sys2Proof/Laws/KeptOperands.lean ====
section
/-!
SUPPORT. The functions of Machine/Operands.lean keep the queue and the canonical form of memory.
-/
namespace Sys2Proof.Machine

theorem taskTouch_kept {pq : List Instr} (ag : Agent) (cls : Nat) (a : Nat) (n : Nat) (s : State) (h_s : Kept pq s) : Kept pq (taskTouch ag cls a n s).2 := by
  unfold taskTouch
  repeat' with_reducible first
    | assumption | apply touch_kept | apply kept_ite | split | dsimp only


theorem taskTouches_kept {pq : List Instr} (ag : Agent) (cls : Nat) (l : List (Nat × Nat)) (s : State) (h_s : Kept pq s) : Kept pq (taskTouches ag cls l s).2 := by
  unfold taskTouches
  repeat' with_reducible first
    | intro _ | assumption | apply kept_foldl | apply kept_foldl_snd | apply kept_foldl_snd2 | apply kept_foldl_fst
    | apply taskTouch_kept | split | dsimp only | refine kept_snd (by assumption) ?_
    | refine kept_snd2 (by assumption) ?_ | refine kept_fst (by assumption) ?_ | refine kept_some (by assumption) ?_


theorem taskWrite_kept {pq : List Instr} (ag : Agent) (cls : Nat) (a : Nat) (bs : List Byte) (s : State) (h_s : Kept pq s) : Kept pq (taskWrite ag cls a bs s).2 := by
  unfold taskWrite
  repeat' with_reducible first
    | assumption | apply writeDev_kept | apply kept_ite | split | dsimp only


theorem writeRowValues_kept {pq : List Instr} (ag : Agent) (cls : Nat) (d : TensorDesc) (strict : Bool) (row : Nat) (c0 : Nat) (vals : List FVal) (rs : List Round) (s : State) (h_s : Kept pq s) : Kept pq (writeRowValues ag cls d strict row c0 vals rs s).2.2 := by
  unfold writeRowValues
  repeat' with_reducible first
    | intro _ | assumption | apply kept_foldl | apply kept_foldl_snd | apply kept_foldl_snd2 | apply kept_foldl_fst
    | apply taskWrite_kept | apply kept_ite | split | dsimp only | refine kept_snd (by assumption) ?_
    | refine kept_snd2 (by assumption) ?_ | refine kept_fst (by assumption) ?_ | refine kept_some (by assumption) ?_
    | apply kept_mk


theorem tallyTile_kept {pq : List Instr} (t : Nat) (tid : Nat) (y : Tally) (s : State) (h_s : Kept pq s) : Kept pq (tallyTile t tid y s) := by
  unfold tallyTile
  repeat' with_reducible first
    | assumption | apply bumpN_kept | apply statTensor_kept | dsimp only


end Sys2Proof.Machine
end

