-- ==== Sys2Proof/Laws/KeptTile.lean ====
section
/-!
SUPPORT. The functions of Machine/Tile.lean keep the queue and the canonical form of memory.
-/
namespace Sys2Proof.Machine

theorem applySlot_kept {pq : List Instr} (t : Nat) (slot : Nat) (set : Bool) (v : Nat) (know : List Nat) (s : State) (h_s : Kept pq s) : Kept pq (applySlot t slot set v know s) := by
  unfold applySlot
  repeat' with_reducible first
    | assumption | apply bump_kept | apply setTile_kept | apply kept_ite | split | dsimp only | apply kept_mk


theorem applyCredit_kept {pq : List Instr} (t : Nat) (pool : Nat) (n : Nat) (know : List Nat) (s : State) (h_s : Kept pq s) : Kept pq (applyCredit t pool n know s) := by
  unfold applyCredit
  repeat' with_reducible first
    | assumption | apply bump_kept | apply setTile_kept | apply kept_ite | split | dsimp only | apply kept_mk


theorem settleCursors_kept {pq : List Instr} (t : Nat) (s : State) (h_s : Kept pq s) : Kept pq (settleCursors t s) := by
  unfold settleCursors
  repeat' with_reducible first
    | assumption | apply setTile_kept | apply kept_ite | split | dsimp only | apply kept_mk


theorem reportDone_kept {pq : List Instr} (t : Nat) (s : State) (h_s : Kept pq s) : Kept pq (reportDone t s) := by
  unfold reportDone
  repeat' with_reducible first
    | assumption | apply setTile_kept | apply tileControl_kept | apply kept_ite | split | dsimp only | apply kept_mk


theorem emitToken_kept {pq : List Instr} (t : Nat) (w : Nat) (hi : Nat) (know : List Nat) (s : State) (h_s : Kept pq s) : Kept pq (emitToken t w hi know s) := by
  unfold emitToken
  repeat' with_reducible first
    | assumption | apply sendKnow_kept | apply kept_ite | split | dsimp only


theorem returnCredits_kept {pq : List Instr} (t : Nat) (w : Nat) (know : List Nat) (s : State) (h_s : Kept pq s) : Kept pq (returnCredits t w know s) := by
  unfold returnCredits
  repeat' with_reducible first
    | assumption | apply sendKnow_kept | apply kept_ite | split | dsimp only


theorem finishTask_kept {pq : List Instr} (t : Nat) (i : Nat) (e : Option Engine) (fault : Bool) (addr : Nat) (know : List Nat) (s : State) (h_s : Kept pq s) : Kept pq (finishTask t i e fault addr know s) := by
  unfold finishTask
  repeat' with_reducible first
    | assumption | apply bump_kept | apply slog_kept | apply setTile_kept | apply tileControl_kept
    | apply reportDone_kept | apply emitToken_kept | apply returnCredits_kept | apply kept_ite | split | dsimp only
    | refine kept_snd (by assumption) ?_ | refine kept_snd2 (by assumption) ?_ | refine kept_fst (by assumption) ?_
    | refine kept_some (by assumption) ?_ | apply kept_mk


theorem startTask_kept {pq : List Instr} (t : Nat) (i : Nat) (main : Bool) (s : State) (h_s : Kept pq s) : Kept pq (startTask t i main s) := by
  unfold startTask
  repeat' with_reducible first
    | assumption | apply setTile_kept | apply settleCursors_kept | apply finishTask_kept | apply kept_ite | split
    | dsimp only | refine kept_snd (by assumption) ?_ | refine kept_snd2 (by assumption) ?_
    | refine kept_fst (by assumption) ?_ | refine kept_some (by assumption) ?_ | apply kept_mk


theorem sequencer_kept {pq : List Instr} (t : Nat) (s : State) (h_s : Kept pq s) : Kept pq (sequencer t s) := by
  unfold sequencer
  repeat' with_reducible first
    | assumption | apply bump_kept | apply settleCursors_kept | apply reportDone_kept | apply startTask_kept
    | apply kept_ite | split | dsimp only


theorem countExpander_kept {pq : List Instr} (t : Nat) (task : Nat) (port : Nat) (rows : List OperandRow) (s : State) (h_s : Kept pq s) : Kept pq (countExpander t task port rows s) := by
  unfold countExpander
  repeat' with_reducible first
    | intro _ | assumption | apply setReg_kept | apply bumpN_kept | apply kept_ite | split | dsimp only
    | refine kept_snd (by assumption) ?_ | refine kept_snd2 (by assumption) ?_ | refine kept_fst (by assumption) ?_
    | refine kept_some (by assumption) ?_ | apply kept_mk


theorem logAmax_kept {pq : List Instr} (t : Nat) (tid : Nat) (nf : Bool) (amax : Nat) (s : State) (h_s : Kept pq s) : Kept pq (logAmax t tid nf amax s) := by
  unfold logAmax
  repeat' with_reducible first
    | assumption | apply setTile_kept | dsimp only | apply kept_mk


theorem storeRowScale_kept {pq : List Instr} (tid : Nat) (r : Nat) (w : Nat) (s : State) (h_s : Kept pq s) : Kept pq (storeRowScale tid r w s) := by
  unfold storeRowScale
  repeat' with_reducible first
    | intro _ | assumption | apply kept_foldl | apply writeTo_kept | dsimp only


theorem seedMeasure_kept {pq : List Instr} (d : TensorDesc) (rows : List (Nat × Nat)) (amax : Nat) (s : State) (h_s : Kept pq s) : Kept pq (seedMeasure d rows amax s) := by
  unfold seedMeasure
  repeat' with_reducible first
    | intro _ | assumption | apply kept_foldl | apply kept_foldl_snd | apply kept_foldl_snd2 | apply kept_foldl_fst
    | apply setTensor_kept | apply storeRowScale_kept | apply kept_ite | split | dsimp only
    | refine kept_snd (by assumption) ?_ | refine kept_snd2 (by assumption) ?_ | refine kept_fst (by assumption) ?_
    | refine kept_some (by assumption) ?_ | apply kept_mk


theorem measure_kept {pq : List Instr} (ag : Agent) (cls : Nat) (t : Nat) (d : TensorDesc) (rowOff : Nat) (rows : List (Nat × Nat)) (nf : Bool) (s : State) (h_s : Kept pq s) : Kept pq (measure ag cls t d rowOff rows nf s) := by
  unfold measure
  repeat' with_reducible first
    | intro _ | assumption | apply kept_foldl | apply kept_foldl_snd | apply kept_foldl_snd2 | apply kept_foldl_fst
    | apply writeTo_kept | apply logAmax_kept | apply seedMeasure_kept | apply kept_ite | split | dsimp only


theorem countOperands_kept {pq : List Instr} (t : Nat) (i : Nat) (m : MatrixWork) (ca : Bool) (cb : Bool) (s : State) (h_s : Kept pq s) : Kept pq (countOperands t i m ca cb s) := by
  unfold countOperands
  repeat' with_reducible first
    | intro _ | assumption | apply bumpN_kept | apply sendToken_kept | apply countExpander_kept | apply kept_ite
    | split | dsimp only | refine kept_snd (by assumption) ?_ | refine kept_snd2 (by assumption) ?_
    | refine kept_fst (by assumption) ?_ | refine kept_some (by assumption) ?_


theorem writeMore_kept {pq : List Instr} (ag : Agent) (cls : Nat) (a : Nat) (bs : List Byte) (r : Bool × State) (h_r : Kept pq (r).2) : Kept pq (writeMore ag cls a bs r).2 := by
  exact taskWrite_kept _ _ _ _ _ h_r


theorem sendNodes_kept {pq : List Instr} (t : Nat) (ag : Agent) (cls : Nat) (m : MatrixWork) (s : State) (h_s : Kept pq s) : Kept pq (sendNodes t ag cls m s).2 := by
  unfold sendNodes
  refine kept_foldl_snd (fun r ra hr => kept_foldl_snd (fun r rb hr => ?_) hr) (kept_foldl_snd (fun r p hr => ?_) h_s)
  · refine kept_ite_snd ?_ hr
    refine kept_foldl_snd (fun r p hr => ?_) hr
    exact kept_ite (bump_kept _ _ (writeMore_kept _ _ _ _ _ hr)) (writeMore_kept _ _ _ _ _ hr)
  · exact writeMore_kept _ _ _ _ _ hr


theorem writeOutput_kept {pq : List Instr} (t : Nat) (ag : Agent) (cls : Nat) (m : MatrixWork) (rows : List (Nat × List OutElem)) (full : Bool) (s : State) (h_s : Kept pq s) : Kept pq (writeOutput t ag cls m rows full s).2 := by
  unfold writeOutput
  repeat' with_reducible first
    | intro _ | assumption | apply kept_foldl | apply kept_foldl_snd | apply kept_foldl_snd2 | apply kept_foldl_fst
    | apply bumpN_kept | apply writeRowValues_kept | apply tallyTile_kept | apply measure_kept | apply kept_ite
    | split | dsimp only | refine kept_snd (by assumption) ?_ | refine kept_snd2 (by assumption) ?_
    | refine kept_fst (by assumption) ?_ | refine kept_some (by assumption) ?_ | apply kept_mk


theorem matrixRun_kept {pq : List Instr} (t : Nat) (i : Nat) (limit : Nat) (full : Bool) (know : List Nat) (s : State) (h_s : Kept pq s) : Kept pq (matrixRun t i limit full know s).2 := by
  unfold matrixRun
  repeat' with_reducible first
    | assumption | apply bump_kept | apply taskTouches_kept | apply countOperands_kept | apply sendNodes_kept
    | apply writeOutput_kept | apply kept_ite | split | dsimp only | refine kept_snd (by assumption) ?_
    | refine kept_snd2 (by assumption) ?_ | refine kept_fst (by assumption) ?_ | refine kept_some (by assumption) ?_
    | apply kept_mk


theorem writePassRow_kept {pq : List Instr} (t : Nat) (ag : Agent) (cls : Nat) (b : PassBody) (words : List ChainWord) (sr : Bool) (r : PassRow) (s : State) (h_s : Kept pq s) : Kept pq (writePassRow t ag cls b words sr r s).2.2 := by
  unfold writePassRow
  refine kept_foldl_snd (fun a q hr => ?_) (writeRowValues_kept _ _ _ _ _ _ _ _ _ h_s)
  exact writeMore_kept _ _ _ _ _ hr


theorem passRun_kept {pq : List Instr} (t : Nat) (i : Nat) (limit : Nat) (full : Bool) (know : List Nat) (s : State) (h_s : Kept pq s) : Kept pq (passRun t i limit full know s).2 := by
  unfold passRun
  repeat' with_reducible first
    | intro _ | assumption | apply kept_foldl | apply kept_foldl_snd | apply kept_foldl_snd2 | apply kept_foldl_fst
    | apply bumpN_kept | apply sendToken_kept | apply taskTouches_kept | apply tallyTile_kept | apply measure_kept
    | apply writePassRow_kept | apply kept_ite | split | dsimp only | refine kept_snd (by assumption) ?_
    | refine kept_snd2 (by assumption) ?_ | refine kept_fst (by assumption) ?_ | refine kept_some (by assumption) ?_


theorem moveRun_kept {pq : List Instr} (t : Nat) (i : Nat) (limit : Nat) (s : State) (h_s : Kept pq s) : Kept pq (moveRun t i limit s).2 := by
  unfold moveRun
  repeat' with_reducible first
    | intro _ | assumption | apply kept_foldl | apply kept_foldl_snd | apply kept_foldl_snd2 | apply kept_foldl_fst
    | apply readDev_kept | apply writeDev_kept | apply kept_ite | split | dsimp only
    | refine kept_snd (by assumption) ?_ | refine kept_snd2 (by assumption) ?_ | refine kept_fst (by assumption) ?_
    | refine kept_some (by assumption) ?_


theorem abortTile_kept {pq : List Instr} (t : Nat) (s : State) (h_s : Kept pq s) : Kept pq (abortTile t s) := by
  unfold abortTile
  repeat' with_reducible first
    | intro _ | assumption | apply send_kept | apply setTile_kept | apply reportDone_kept | apply kept_ite | split
    | dsimp only | apply kept_mk


theorem beginTile_kept {pq : List Instr} (t : Nat) (gen : Bool) (s : State) (h_s : Kept pq s) : Kept pq (beginTile t gen s) := by
  unfold beginTile
  repeat' with_reducible first
    | intro _ | assumption | apply kept_foldl | apply send_kept | apply setTile_kept | apply settleCursors_kept
    | split | dsimp only | refine kept_snd (by assumption) ?_ | refine kept_snd2 (by assumption) ?_
    | refine kept_fst (by assumption) ?_ | refine kept_some (by assumption) ?_ | apply kept_mk


theorem controlMessage_kept {pq : List Instr} (t : Nat) (w : W64) (s : State) (h_s : Kept pq s) : Kept pq (controlMessage t w s) := by
  unfold controlMessage
  repeat' with_reducible first
    | assumption | apply bump_kept | apply fenceTile_kept | apply abortTile_kept | apply beginTile_kept
    | apply kept_ite | split | dsimp only


theorem tileMessage_kept {pq : List Instr} (t : Nat) (know : List Nat) (m : Msg) (s : State) (h_s : Kept pq s) : Kept pq (tileMessage t know m s) := by
  unfold tileMessage
  repeat' with_reducible first
    | assumption | apply bump_kept | apply applySlot_kept | apply applyCredit_kept | apply controlMessage_kept
    | apply kept_ite | split | dsimp only | refine kept_snd (by assumption) ?_ | refine kept_snd2 (by assumption) ?_
    | refine kept_fst (by assumption) ?_ | refine kept_some (by assumption) ?_ | apply kept_mk


theorem ejectWait_kept {pq : List Instr} (t : Nat) (near : Nat) (s : State) (h_s : Kept pq s) : Kept pq (ejectWait t near s) := by
  unfold ejectWait
  repeat' with_reducible first
    | assumption | apply bumpN_kept | apply free32_kept | apply kept_ite | split | dsimp only
    | refine kept_snd (by assumption) ?_ | refine kept_snd2 (by assumption) ?_ | refine kept_fst (by assumption) ?_
    | refine kept_some (by assumption) ?_


theorem tileArrival_kept {pq : List Instr} (m : Msg) (s : State) (h_s : Kept pq s) : Kept pq (tileArrival m s) := by
  unfold tileArrival
  repeat' with_reducible first
    | assumption | apply arriveFrom_kept | apply tileMessage_kept | apply ejectWait_kept | apply kept_ite | split
    | dsimp only | refine kept_snd (by assumption) ?_ | refine kept_snd2 (by assumption) ?_
    | refine kept_fst (by assumption) ?_ | refine kept_some (by assumption) ?_ | refine kept_arr (by assumption) ?_
    | apply kept_mk


theorem execTokenArrival_kept {pq : List Instr} (token : W64) (s : State) (h_s : Kept pq s) : KeptO pq (execTokenArrival token s) := by
  unfold execTokenArrival
  repeat' with_reducible first
    | assumption | apply kept_next | apply tileArrival_kept | dsimp only


theorem execCreditArrival_kept {pq : List Instr} (src : Byte) (credit : W32) (s : State) (h_s : Kept pq s) : KeptO pq (execCreditArrival src credit s) := by
  unfold execCreditArrival
  repeat' with_reducible first
    | assumption | apply kept_next | apply tileArrival_kept | dsimp only


theorem tileUpsets_kept {pq : List Instr} (t : Nat) (us : List Upset) (s : State) (h_s : Kept pq s) : Kept pq (tileUpsets t us s) := by
  unfold tileUpsets
  repeat' with_reducible first
    | intro _ | assumption | apply kept_foldl | apply addUpset_kept | apply kept_ite | split | dsimp only
    | refine kept_snd (by assumption) ?_ | refine kept_snd2 (by assumption) ?_ | refine kept_fst (by assumption) ?_
    | refine kept_some (by assumption) ?_ | apply kept_mk


theorem execTaskStart_kept {pq : List Instr} (visit : TileVisit) (s : State) (h_s : Kept pq s) : KeptO pq (execTaskStart visit s) := by
  unfold execTaskStart
  repeat' with_reducible first
    | assumption | apply kept_next | apply sequencer_kept | apply tileUpsets_kept | apply kept_ite | split
    | dsimp only


theorem completeTask_kept {pq : List Instr} (t : Nat) (e : Engine) (run : Nat → List Nat → State → Bool × State) (addr : Nat → Nat) (s : State) (h_run : ∀ a0 : Nat, ∀ a1 : List Nat, ∀ a2 : State, Kept pq a2 → Kept pq (run a0 a1 a2).2) (h_s : Kept pq s) : Kept pq (completeTask t e run addr s) := by
  unfold completeTask
  repeat' with_reducible first
    | assumption | apply h_run | apply finishTask_kept | apply kept_ite | split | dsimp only
    | refine kept_snd (by assumption) ?_ | refine kept_snd2 (by assumption) ?_ | refine kept_fst (by assumption) ?_
    | refine kept_some (by assumption) ?_ | apply kept_mk


theorem execMatrixTaskComplete_kept {pq : List Instr} (tile : BitVec 7) (s : State) (h_s : Kept pq s) : KeptO pq (execMatrixTaskComplete tile s) := by
  unfold execMatrixTaskComplete
  repeat' with_reducible first
    | intro _ | assumption | apply kept_next | apply matrixRun_kept | apply completeTask_kept | dsimp only


theorem execVectorPassComplete_kept {pq : List Instr} (tile : BitVec 7) (s : State) (h_s : Kept pq s) : KeptO pq (execVectorPassComplete tile s) := by
  unfold execVectorPassComplete
  repeat' with_reducible first
    | intro _ | assumption | apply kept_next | apply passRun_kept | apply completeTask_kept | dsimp only


theorem execMoveTaskComplete_kept {pq : List Instr} (tile : BitVec 7) (s : State) (h_s : Kept pq s) : KeptO pq (execMoveTaskComplete tile s) := by
  unfold execMoveTaskComplete
  repeat' with_reducible first
    | intro _ | assumption | apply kept_next | apply moveRun_kept | apply completeTask_kept | dsimp only


theorem execStepBeginToken_kept {pq : List Instr} (token : W64) (s : State) (h_s : Kept pq s) : KeptO pq (execStepBeginToken token s) := by
  unfold execStepBeginToken
  repeat' with_reducible first
    | assumption | apply kept_next | apply tileArrival_kept | dsimp only


theorem execAbortToken_kept {pq : List Instr} (token : W64) (s : State) (h_s : Kept pq s) : KeptO pq (execAbortToken token s) := by
  unfold execAbortToken
  repeat' with_reducible first
    | assumption | apply kept_next | apply tileArrival_kept | dsimp only


theorem execFenceToken_kept {pq : List Instr} (token : W64) (s : State) (h_s : Kept pq s) : KeptO pq (execFenceToken token s) := by
  unfold execFenceToken
  repeat' with_reducible first
    | assumption | apply kept_next | apply tileArrival_kept | dsimp only


theorem dropMessage_kept {pq : List Instr} (n : Option (BitVec 16)) (s : State) (h_s : Kept pq s) : Kept pq (dropMessage n s) := by
  unfold dropMessage
  repeat' with_reducible first
    | assumption | split | dsimp only | refine kept_some (by assumption) ?_ | apply kept_mk


theorem execTileFaultDetect_kept {pq : List Instr} (tile : BitVec 7) (cause : TileCause) (task : BitVec 13) (s : State) (h_s : Kept pq s) : KeptO pq (execTileFaultDetect tile cause task s) := by
  unfold execTileFaultDetect
  repeat' with_reducible first
    | assumption | apply kept_next | apply fenceTile_kept | apply dropMessage_kept | apply kept_ite | split
    | dsimp only


theorem execTaskLimitExpiry_kept {pq : List Instr} (tile : BitVec 7) (engine : Engine) (s : State) (h_s : Kept pq s) : KeptO pq (execTaskLimitExpiry tile engine s) := by
  unfold execTaskLimitExpiry
  repeat' with_reducible first
    | assumption | apply kept_next | apply fenceTile_kept | apply kept_ite | split | dsimp only
    | refine kept_snd (by assumption) ?_ | refine kept_snd2 (by assumption) ?_ | refine kept_fst (by assumption) ?_
    | refine kept_some (by assumption) ?_ | apply kept_mk


end Sys2Proof.Machine
end

