-- ==== Sys2Proof/Laws/KeptHost.lean ====
section
/-!
SUPPORT. The functions of Machine/Host.lean keep the queue and the canonical form of memory.
-/
namespace Sys2Proof.Machine

theorem kOk_kept {pq : List Instr} (detail : Nat) (s : State) (h_s : Kept pq s) : Kept pq (kOk detail s).s := by
  unfold kOk
  repeat' with_reducible first
    | assumption | dsimp only | apply kept_mk


theorem kFail_kept {pq : List Instr} (status : Nat) (detail : Nat) (s : State) (h_s : Kept pq s) : Kept pq (kFail status detail s).s := by
  unfold kFail
  repeat' with_reducible first
    | assumption | dsimp only | apply kept_mk


theorem kDefer_kept {pq : List Instr} (s : State) (h_s : Kept pq s) : Kept pq (kDefer s).s := by
  unfold kDefer
  repeat' with_reducible first
    | assumption | dsimp only | apply kept_mk


theorem dmaRefuse_kept {pq : List Instr} (s : State) (h_s : Kept pq s) : Kept pq (dmaRefuse s).s := by
  unfold dmaRefuse
  repeat' with_reducible first
    | assumption | apply bump_kept | apply kFail_kept | split | dsimp only


theorem withBuf_kept {pq : List Instr} (hd : CmdHdr) (buf : Buf) (s : State) (k : KRes) (h_s : Kept pq s) (h_k : Kept pq k.s) : Kept pq (withBuf hd buf s k).s := by
  unfold withBuf
  repeat' with_reducible first
    | assumption | apply dmaRefuse_kept | apply kept_ite | split | dsimp only


theorem deliver_kept {pq : List Instr} (hd : CmdHdr) (buf : Buf) (data : List Byte) (clear : State → State) (detail : Nat) (s : State) (h_clear : ∀ a0 : State, Kept pq a0 → Kept pq (clear a0)) (h_s : Kept pq s) : Kept pq (deliver hd buf data clear detail s).s := by
  unfold deliver
  repeat' with_reducible first
    | assumption | apply h_clear | apply emit_kept | apply hostWrite_kept | apply kOk_kept | apply kFail_kept
    | apply kept_ite | split | dsimp only


theorem queueError_kept {pq : List Instr} (q : Nat) (s : State) (h_s : Kept pq s) : Kept pq (queueError q s) := by
  unfold queueError
  repeat' with_reducible first
    | assumption | apply bump_kept | apply setQueue_kept | apply postEvent_kept | split | dsimp only | apply kept_mk


theorem execSqTailDoorbell_kept {pq : List Instr} (queue : BitVec 6) (value : W32) (s : State) (h_s : Kept pq s) : KeptO pq (execSqTailDoorbell queue value s) := by
  unfold execSqTailDoorbell
  repeat' with_reducible first
    | assumption | apply kept_next | apply setQueue_kept | apply queueError_kept | apply kept_ite | split | dsimp only
    | apply kept_mk


theorem execCqHeadDoorbell_kept {pq : List Instr} (queue : BitVec 6) (value : W32) (s : State) (h_s : Kept pq s) : KeptO pq (execCqHeadDoorbell queue value s) := by
  unfold execCqHeadDoorbell
  repeat' with_reducible first
    | assumption | apply kept_next | apply setQueue_kept | apply queueError_kept | apply kept_ite | split | dsimp only
    | apply kept_mk


theorem execEvHeadDoorbell_kept {pq : List Instr} (value : W32) (s : State) (h_s : Kept pq s) : KeptO pq (execEvHeadDoorbell value s) := by
  unfold execEvHeadDoorbell
  repeat' with_reducible first
    | assumption | apply kept_next | apply eventSpace_kept | apply kept_ite | split | dsimp only | apply kept_mk


theorem aqCfgWrite_kept {pq : List Instr} (v : Nat) (s : State) (h_s : Kept pq s) : Kept pq (aqCfgWrite v s) := by
  unfold aqCfgWrite
  repeat' with_reducible first
    | assumption | apply setReg_kept | apply setQueue_kept | apply kept_ite | split | dsimp only | apply kept_mk


theorem execMsixCoalesceTimeout_kept {pq : List Instr} (queue : BitVec 6) (s : State) (h_s : Kept pq s) : KeptO pq (execMsixCoalesceTimeout queue s) := by
  unfold execMsixCoalesceTimeout
  repeat' with_reducible first
    | assumption | apply kept_next | apply signal_kept | apply setQueue_kept | apply kept_ite | split | dsimp only
    | apply kept_mk


theorem dropHeld_kept {pq : List Instr} (s : State) (h_s : Kept pq s) : Kept pq (dropHeld s) := by
  unfold dropHeld
  repeat' with_reducible first
    | intro _ | assumption | apply kept_foldl | apply kept_foldl_snd | apply kept_foldl_snd2 | apply kept_foldl_fst
    | apply dropReply_kept | dsimp only | apply kept_mk


theorem hostInterfaceReset_kept {pq : List Instr} (linkDown : Bool) (s : State) (h_s : Kept pq s) : Kept pq (hostInterfaceReset linkDown s) := by
  unfold hostInterfaceReset
  repeat' with_reducible first
    | intro _ | assumption | apply bump_kept | apply dropHeld_kept | apply kept_ite | split | dsimp only
    | apply kept_mk


theorem execHostIfReset_kept {pq : List Instr} (s : State) (h_s : Kept pq s) : KeptO pq (execHostIfReset s) := by
  unfold execHostIfReset
  repeat' with_reducible first
    | assumption | apply kept_next | apply hostInterfaceReset_kept | dsimp only


theorem execSurpriseRemoval_kept {pq : List Instr} (s : State) (h_s : Kept pq s) : KeptO pq (execSurpriseRemoval s) := by
  unfold execSurpriseRemoval
  repeat' with_reducible first
    | assumption | apply kept_next | apply hostInterfaceReset_kept | dsimp only | apply kept_mk


theorem execHostLinkUp_kept {pq : List Instr} (speed : BitVec 2) (width : BitVec 5) (flit : Bool) (s : State) (h_s : Kept pq s) : KeptO pq (execHostLinkUp speed width flit s) := by
  unfold execHostLinkUp
  repeat' with_reducible first
    | assumption | apply kept_next | split | dsimp only | apply kept_mk


theorem execApertureAccess_kept {pq : List Instr} (offset : BitVec 30) (write : Bool) (len : BitVec 7) (data : List Byte) (s : State) (h_s : Kept pq s) : KeptO pq (execApertureAccess offset write len data s) := by
  unfold execApertureAccess
  repeat' with_reducible first
    | assumption | apply kept_next | apply emit_kept | apply readDev_kept | apply writeTo_kept | apply kept_ite
    | split | dsimp only | refine kept_snd (by assumption) ?_ | refine kept_snd2 (by assumption) ?_
    | refine kept_fst (by assumption) ?_ | refine kept_some (by assumption) ?_


theorem execRegWindowBadAccess_kept {pq : List Instr} (offset : BitVec 26) (write : Bool) (x2 : Byte) (s : State) (h_s : Kept pq s) : KeptO pq (execRegWindowBadAccess offset write x2 s) := by
  unfold execRegWindowBadAccess
  repeat' with_reducible first
    | assumption | apply kept_next | apply bump_kept | apply emit_kept | apply kept_ite | split | dsimp only


theorem kQueueCreate_kept {pq : List Instr} (x0 : CmdHdr) (qid : Byte) (vector : Byte) (coalN : Byte) (coalUs : Byte) (log2Depth : Byte) (sq : W64) (cq : W64) (s : State) (h_s : Kept pq s) : Kept pq (kQueueCreate x0 qid vector coalN coalUs log2Depth sq cq s).s := by
  unfold kQueueCreate
  repeat' with_reducible first
    | assumption | apply setQueue_kept | apply kOk_kept | apply kFail_kept | apply dmaRefuse_kept | apply kept_ite
    | split | dsimp only | apply kept_mk


theorem kEventRingSet_kept {pq : List Instr} (x0 : CmdHdr) (ring : W64) (log2Depth : Byte) (vector : Byte) (s : State) (h_s : Kept pq s) : Kept pq (kEventRingSet x0 ring log2Depth vector s).s := by
  unfold kEventRingSet
  repeat' with_reducible first
    | assumption | apply kOk_kept | apply kFail_kept | apply dmaRefuse_kept | apply kept_ite | split | dsimp only
    | apply kept_mk


theorem kJobSeedSet_kept {pq : List Instr} (x0 : CmdHdr) (seed : W64) (s : State) (h_s : Kept pq s) : Kept pq (kJobSeedSet x0 seed s).s := by
  unfold kJobSeedSet
  repeat' with_reducible first
    | assumption | apply kOk_kept | apply kFail_kept | apply kept_ite | split | dsimp only | apply kept_mk


theorem moveRead_kept {pq : List Instr} (a : Nat) (n : Nat) (s : State) (h_s : Kept pq s) : Kept pq (moveRead a n s).2 := by
  unfold moveRead
  repeat' with_reducible first
    | assumption | apply readDev_kept | apply kept_ite | split | dsimp only | refine kept_snd (by assumption) ?_
    | refine kept_snd2 (by assumption) ?_ | refine kept_fst (by assumption) ?_ | refine kept_some (by assumption) ?_
    | apply kept_mk


theorem moveDone_kept {pq : List Instr} (poison : Nat) (s : State) (h_s : Kept pq s) : Kept pq (moveDone poison s).s := by
  unfold moveDone
  repeat' with_reducible first
    | assumption | apply kOk_kept | apply kFail_kept | apply kept_ite | split | dsimp only


theorem kMemToHost_kept {pq : List Instr} (x0 : CmdHdr) (dev : W64) (host : W64) (len : W64) (s : State) (h_s : Kept pq s) : Kept pq (kMemToHost x0 dev host len s).s := by
  unfold kMemToHost
  repeat' with_reducible first
    | assumption | apply hostWrite_kept | apply kFail_kept | apply dmaRefuse_kept | apply moveRead_kept
    | apply moveDone_kept | apply kept_ite | split | dsimp only | refine kept_snd (by assumption) ?_
    | refine kept_snd2 (by assumption) ?_ | refine kept_fst (by assumption) ?_ | refine kept_some (by assumption) ?_


theorem kMemFromHost_kept {pq : List Instr} (hd : CmdHdr) (host : W64) (dev : W64) (len : W64) (s : State) (h_s : Kept pq s) : Kept pq (kMemFromHost hd host dev len s).s := by
  unfold kMemFromHost
  repeat' with_reducible first
    | assumption | apply writeTo_kept | apply kOk_kept | apply kFail_kept | apply dmaRefuse_kept | apply kept_ite
    | split | dsimp only


theorem kMemCopy_kept {pq : List Instr} (x0 : CmdHdr) (src : W64) (dst : W64) (len : W64) (s : State) (h_s : Kept pq s) : Kept pq (kMemCopy x0 src dst len s).s := by
  unfold kMemCopy
  repeat' with_reducible first
    | assumption | apply writeTo_kept | apply kFail_kept | apply moveRead_kept | apply moveDone_kept | apply kept_ite
    | split | dsimp only | refine kept_snd (by assumption) ?_ | refine kept_snd2 (by assumption) ?_
    | refine kept_fst (by assumption) ?_ | refine kept_some (by assumption) ?_


theorem kMemFill_kept {pq : List Instr} (x0 : CmdHdr) (dst : W64) (len : W64) (pattern : W64) (s : State) (h_s : Kept pq s) : Kept pq (kMemFill x0 dst len pattern s).s := by
  unfold kMemFill
  repeat' with_reducible first
    | assumption | apply writeTo_kept | apply kOk_kept | apply kFail_kept | apply kept_ite | split | dsimp only


end Sys2Proof.Machine
end

