-- ==== Sys2Proof/Laws/KeptProgram.lean ====
section
/-!
SUPPORT. The functions of Machine/Program.lean keep the queue and the canonical form of memory.
-/
namespace Sys2Proof.Machine

theorem loadImage_kept {pq : List Instr} (t : Nat) (l : Nat) (a : Nat) (s : State) (h_s : Kept pq s) : Kept pq (loadImage t l a s).2 := by
  unfold loadImage
  repeat' with_reducible first
    | intro _ | assumption | apply readDev_kept | apply kept_ite | split | dsimp only
    | refine kept_snd (by assumption) ?_ | refine kept_snd2 (by assumption) ?_ | refine kept_fst (by assumption) ?_
    | refine kept_some (by assumption) ?_


theorem placeImages_kept {pq : List Instr} (l : Nat) (parts : List LoadPart) (s : State) (h_s : Kept pq s) : Kept pq (placeImages l parts s) := by
  unfold placeImages
  repeat' with_reducible first
    | intro _ | assumption | apply kept_foldl | apply writeTo_kept | dsimp only


theorem loadImages_kept {pq : List Instr} (l : Nat) (b0 : List (Nat × Nat)) (b1 : State) (h_b1 : Kept pq b1) : Kept pq (loadImages l b0 b1).2 := by
  induction b0 generalizing b1 with
  | nil => unfold loadImages; assumption
  | cons c cs ih =>
    unfold loadImages
    repeat' with_reducible first
      | assumption | apply ih | apply loadImage_kept | apply placeImages_kept | split | dsimp only
      | refine kept_snd (by assumption) ?_ | refine kept_snd2 (by assumption) ?_ | refine kept_fst (by assumption) ?_
      | refine kept_some (by assumption) ?_ | apply kept_mk


theorem loadPart_kept {pq : List Instr} (dom : Nat) (l : Nat) (s : State) (p : LoadPart) (h_s : Kept pq s) : Kept pq (loadPart dom l s p) := by
  unfold loadPart
  repeat' with_reducible first
    | intro _ | assumption | apply kept_foldl | apply setTile_kept | apply setTensor_kept | apply kept_ite | split
    | dsimp only | apply kept_mk


theorem unbindTile_kept {pq : List Instr} (tile : Nat) (s : State) (h_s : Kept pq s) : Kept pq (unbindTile tile s) := by
  unfold unbindTile
  repeat' with_reducible first
    | intro _ | assumption | dsimp only | apply kept_mk


theorem programInstall_kept {pq : List Instr} (dom : Nat) (l : Nat) (tiles : List Nat) (parts : List LoadPart) (gs : List Nat) (t0 : Nat) (s : State) (h_s : Kept pq s) : Kept pq (programInstall dom l tiles parts gs t0 s) := by
  unfold programInstall
  repeat' with_reducible first
    | intro _ | assumption | apply kept_foldl | apply setPier_kept | apply loadPart_kept | apply unbindTile_kept
    | dsimp only | apply kept_mk


theorem kProgramLoad_kept {pq : List Instr} (hd : CmdHdr) (s : State) (h_s : Kept pq s) : Kept pq (kProgramLoad hd s).s := by
  unfold kProgramLoad
  repeat' with_reducible first
    | assumption | apply kOk_kept | apply kFail_kept | apply placeImages_kept | apply loadImages_kept
    | apply programInstall_kept | apply kept_ite | split | dsimp only | refine kept_snd (by assumption) ?_
    | refine kept_snd2 (by assumption) ?_ | refine kept_fst (by assumption) ?_ | refine kept_some (by assumption) ?_
    | apply kept_mk


theorem kTileFence_kept {pq : List Instr} (x0 : CmdHdr) (mask : BitVec 96) (s : State) (h_s : Kept pq s) : Kept pq (kTileFence x0 mask s).s := by
  unfold kTileFence
  repeat' with_reducible first
    | intro _ | assumption | apply kept_foldl | apply sendToken_kept | apply kOk_kept | dsimp only


theorem clearTile_kept {pq : List Instr} (t : Nat) (s : State) (h_s : Kept pq s) : Kept pq (clearTile t s) := by
  unfold clearTile
  repeat' with_reducible first
    | intro _ | assumption | apply setTile_kept | apply unbindTile_kept | dsimp only | apply kept_sfilter
    | apply kept_mk


theorem unfenceTile_kept {pq : List Instr} (t : Nat) (s : State) (h_s : Kept pq s) : Kept pq (unfenceTile t s).2 := by
  unfold unfenceTile
  repeat' with_reducible first
    | assumption | apply free32_kept | apply clearTile_kept | apply kept_ite | split | dsimp only
    | refine kept_snd (by assumption) ?_ | refine kept_snd2 (by assumption) ?_ | refine kept_fst (by assumption) ?_
    | refine kept_some (by assumption) ?_


theorem kTileUnfence_kept {pq : List Instr} (x0 : CmdHdr) (mask : BitVec 96) (s : State) (h_s : Kept pq s) : Kept pq (kTileUnfence x0 mask s).s := by
  unfold kTileUnfence
  repeat' with_reducible first
    | intro _ | assumption | apply kept_foldl | apply kept_foldl_snd | apply kept_foldl_snd2 | apply kept_foldl_fst
    | apply kOk_kept | apply kFail_kept | apply unfenceTile_kept | apply kept_ite | split | dsimp only
    | refine kept_snd (by assumption) ?_ | refine kept_snd2 (by assumption) ?_ | refine kept_fst (by assumption) ?_
    | refine kept_some (by assumption) ?_


theorem kTileQuery_kept {pq : List Instr} (hd : CmdHdr) (mask : BitVec 96) (buf : Buf) (s : State) (h_s : Kept pq s) : Kept pq (kTileQuery hd mask buf s).s := by
  unfold kTileQuery
  repeat' with_reducible first
    | intro _ | assumption | apply withBuf_kept | apply deliver_kept | dsimp only | apply kept_id | apply kept_mk


end Sys2Proof.Machine
end

