-- ==== Sys2Proof/Laws/KeptPlinth.lean ====
section
/-!
SUPPORT. The functions of Machine/Plinth.lean keep the queue and the canonical form of memory.
-/
namespace Sys2Proof.Machine

theorem zeroPages_kept {pq : List Instr} (p : Nat) (first : Nat) (n : Nat) (s : State) (h_s : Kept pq s) : Kept pq (zeroPages p first n s) := by
  unfold zeroPages
  repeat' with_reducible first
    | intro _ | assumption | dsimp only | apply kept_sfilter | apply kept_mk


theorem takePages_kept {pq : List Instr} (p : Nat) (first : Nat) (n : Nat) (d : Nat) (shared : Bool) (s : State) (h_s : Kept pq s) : Kept pq (takePages p first n d shared s) := by
  unfold takePages
  repeat' with_reducible first
    | intro _ | assumption | apply kept_foldl | apply setPier_kept | apply zeroPages_kept | dsimp only | apply kept_mk


theorem freePages_kept {pq : List Instr} (p : Nat) (first : Nat) (n : Nat) (s : State) (h_s : Kept pq s) : Kept pq (freePages p first n s) := by
  unfold freePages
  repeat' with_reducible first
    | intro _ | assumption | apply setPier_kept | dsimp only | apply kept_mk


theorem pickRun_kept {pq : List Instr} (runs : List Nat) (s : State) (h_s : Kept pq s) : Kept pq (pickRun runs s).2 := by
  unfold pickRun
  repeat' with_reducible first
    | assumption | apply free32_kept | split | dsimp only | refine kept_snd (by assumption) ?_
    | refine kept_snd2 (by assumption) ?_ | refine kept_fst (by assumption) ?_ | refine kept_some (by assumption) ?_


theorem kPlinthAlloc_kept {pq : List Instr} (x0 : CmdHdr) (pier : Byte) (domain : Byte) (pages : Byte) (shared : Byte) (s : State) (h_s : Kept pq s) : Kept pq (kPlinthAlloc x0 pier domain pages shared s).s := by
  unfold kPlinthAlloc
  repeat' with_reducible first
    | assumption | apply bump_kept | apply kOk_kept | apply kFail_kept | apply takePages_kept | apply pickRun_kept
    | apply kept_ite | split | dsimp only | refine kept_snd (by assumption) ?_ | refine kept_snd2 (by assumption) ?_
    | refine kept_fst (by assumption) ?_ | refine kept_some (by assumption) ?_


theorem kPlinthFree_kept {pq : List Instr} (x0 : CmdHdr) (pier : Byte) (region : Byte) (first : Byte) (pages : Byte) (s : State) (h_s : Kept pq s) : Kept pq (kPlinthFree x0 pier region first pages s).s := by
  unfold kPlinthFree
  repeat' with_reducible first
    | intro _ | assumption | apply kOk_kept | apply kFail_kept | apply freePages_kept | apply kept_ite | split
    | dsimp only | refine kept_snd (by assumption) ?_ | refine kept_snd2 (by assumption) ?_
    | refine kept_fst (by assumption) ?_ | refine kept_some (by assumption) ?_


theorem kPlinthQuota_kept {pq : List Instr} (x0 : CmdHdr) (pierMask : Byte) (domain : Byte) (quota : W16) (s : State) (h_s : Kept pq s) : Kept pq (kPlinthQuota x0 pierMask domain quota s).s := by
  unfold kPlinthQuota
  repeat' with_reducible first
    | intro _ | assumption | apply kept_foldl | apply setReg_kept | apply kOk_kept | apply kFail_kept | apply kept_ite
    | split | dsimp only


theorem applyModes_kept {pq : List Instr} (p : Nat) (s : State) (h_s : Kept pq s) : Kept pq (applyModes p s) := by
  unfold applyModes
  repeat' with_reducible first
    | intro _ | assumption | apply setPier_kept | apply poolDrain_kept | apply cacheClear_kept | dsimp only
    | apply kept_mk


theorem kPlinthApply_kept {pq : List Instr} (x0 : CmdHdr) (pierMask : Byte) (s : State) (h_s : Kept pq s) : Kept pq (kPlinthApply x0 pierMask s).s := by
  unfold kPlinthApply
  repeat' with_reducible first
    | intro _ | assumption | apply kept_foldl | apply kOk_kept | apply kFail_kept | apply applyModes_kept
    | apply kept_ite | split | dsimp only


theorem stageTake_kept {pq : List Instr} (d : Nat) (n : Nat) (shared : Bool) (s : State) (h_s : Kept pq s) : Kept pq (stageTake d n shared s).2 := by
  unfold stageTake
  repeat' with_reducible first
    | intro _ | assumption | apply takePages_kept | apply pickRun_kept | split | dsimp only
    | refine kept_snd (by assumption) ?_ | refine kept_snd2 (by assumption) ?_ | refine kept_fst (by assumption) ?_
    | refine kept_some (by assumption) ?_ | apply kept_mk


theorem stageFree_kept {pq : List Instr} (d : Nat) (s : State) (h_s : Kept pq s) : Kept pq (stageFree d s) := by
  unfold stageFree
  repeat' with_reducible first
    | intro _ | assumption | apply kept_foldl | apply kept_foldl_snd | apply kept_foldl_snd2 | apply kept_foldl_fst
    | apply setPier_kept | dsimp only | apply kept_mk


theorem plinthUpset_kept {pq : List Instr} (p : Nat) (u : Upset) (s : State) (h_s : Kept pq s) : Kept pq (plinthUpset p u s) := by
  unfold plinthUpset
  repeat' with_reducible first
    | intro _ | assumption | apply kept_foldl | apply setPier_kept | apply addUpset_kept | apply poolSet_kept
    | apply kept_ite | split | dsimp only | refine kept_snd (by assumption) ?_ | refine kept_snd2 (by assumption) ?_
    | refine kept_fst (by assumption) ?_ | refine kept_some (by assumption) ?_ | apply kept_mk


theorem execPoolAgeRelease_kept {pq : List Instr} (visit : PierVisit) (s : State) (h_s : Kept pq s) : KeptO pq (execPoolAgeRelease visit s) := by
  unfold execPoolAgeRelease
  repeat' with_reducible first
    | intro _ | assumption | apply kept_next | apply kept_foldl | apply poolDrain_kept | apply plinthUpset_kept
    | dsimp only


end Sys2Proof.Machine
end

