-- ==== Sys2Proof/Laws/KeptTreim.lean ====
section
/-!
SUPPORT. The functions of Machine/Treim.lean keep the queue and the canonical form of memory.
-/
namespace Sys2Proof.Machine

theorem dropLost_kept {pq : List Instr} (s : State) (h_s : Kept pq s) : Kept pq (dropLost s) := by
  unfold dropLost
  repeat' with_reducible first
    | intro _ | assumption | dsimp only | apply kept_mk


theorem installPlacement_kept {pq : List Instr} (p : Placing) (s : State) (h_s : Kept pq s) : Kept pq (installPlacement p s) := by
  unfold installPlacement
  repeat' with_reducible first
    | intro _ | assumption | apply kept_foldl | apply kept_foldl_snd | apply kept_foldl_snd2 | apply kept_foldl_fst
    | apply setStack_kept | apply cacheClear_kept | apply fwWrite_kept | apply kept_ite | split | dsimp only
    | apply kept_mk


theorem zeroTreim_kept {pq : List Instr} (s : State) (h_s : Kept pq s) : Kept pq (zeroTreim s) := by
  unfold zeroTreim
  repeat' with_reducible first
    | intro _ | assumption | dsimp only | apply kept_sfilter | apply kept_mk


theorem applyFresh_kept {pq : List Instr} (restore : Bool) (s0 : State) (h_s0 : Kept pq s0) : Kept pq (applyFresh restore s0).s := by
  unfold applyFresh
  repeat' with_reducible first
    | intro _ | assumption | apply kept_foldl | apply kept_foldl_snd | apply kept_foldl_snd2 | apply kept_foldl_fst
    | apply liftFence_kept | apply kOk_kept | apply kFail_kept | apply dropLost_kept | apply installPlacement_kept
    | apply zeroTreim_kept | apply kept_ite | split | dsimp only | refine kept_snd (by assumption) ?_
    | refine kept_snd2 (by assumption) ?_ | refine kept_fst (by assumption) ?_ | refine kept_some (by assumption) ?_
    | apply kept_mk


theorem kTreimMapApplyJobStart_kept {pq : List Instr} (x0 : CmdHdr) (s : State) (h_s : Kept pq s) : Kept pq (kTreimMapApplyJobStart x0 s).s := by
  unfold kTreimMapApplyJobStart
  repeat' with_reducible first
    | assumption | apply applyFresh_kept | dsimp only


theorem kTreimMapApplyRestore_kept {pq : List Instr} (x0 : CmdHdr) (s : State) (h_s : Kept pq s) : Kept pq (kTreimMapApplyRestore x0 s).s := by
  unfold kTreimMapApplyRestore
  repeat' with_reducible first
    | assumption | apply applyFresh_kept | dsimp only


theorem kTreimMapApplyResume_kept {pq : List Instr} (x0 : CmdHdr) (s : State) (h_s : Kept pq s) : Kept pq (kTreimMapApplyResume x0 s).s := by
  unfold kTreimMapApplyResume
  repeat' with_reducible first
    | intro _ | assumption | apply kOk_kept | apply kFail_kept | apply installPlacement_kept | apply kept_ite | split
    | dsimp only | refine kept_snd (by assumption) ?_ | refine kept_snd2 (by assumption) ?_
    | refine kept_fst (by assumption) ?_ | refine kept_some (by assumption) ?_ | apply kept_mk


theorem kTreimRetrain_kept {pq : List Instr} (hd : CmdHdr) (channel : W16) (s : State) (h_s : Kept pq s) : Kept pq (kTreimRetrain hd channel s).s := by
  unfold kTreimRetrain
  repeat' with_reducible first
    | assumption | apply requestRetrain_kept | apply kOk_kept | apply kFail_kept | apply kept_ite | split | dsimp only


theorem execRetrainStart_kept {pq : List Instr} (channel : BitVec 10) (s : State) (h_s : Kept pq s) : KeptO pq (execRetrainStart channel s) := by
  unfold execRetrainStart
  repeat' with_reducible first
    | intro _ | assumption | apply kept_next | apply bump_kept | apply setChan_kept | apply kept_ite | split
    | dsimp only | refine kept_snd (by assumption) ?_ | refine kept_snd2 (by assumption) ?_
    | refine kept_fst (by assumption) ?_ | refine kept_some (by assumption) ?_ | apply kept_mk


theorem stopRetrain_kept {pq : List Instr} (g : Nat) (s : State) (h_s : Kept pq s) : Kept pq (stopRetrain g s) := by
  unfold stopRetrain
  repeat' with_reducible first
    | assumption | apply setChan_kept | apply charge_kept | apply kept_ite | split | dsimp only | apply kept_mk


theorem stopRetrains_kept {pq : List Instr} (k : Nat) (s : State) (h_s : Kept pq s) : Kept pq (stopRetrains k s) := by
  unfold stopRetrains
  repeat' with_reducible first
    | intro _ | assumption | apply kept_foldl | apply stopRetrain_kept | dsimp only


theorem trainChannel_kept {pq : List Instr} (g : Nat) (lanes : List LaneEye) (tsv : List (BitVec 5)) (s : State) (h_s : Kept pq s) : Kept pq (trainChannel g lanes tsv s).2 := by
  unfold trainChannel
  repeat' with_reducible first
    | intro _ | assumption | apply kept_foldl | apply kept_foldl_snd | apply kept_foldl_snd2 | apply kept_foldl_fst
    | apply bumpN_kept | apply setChan_kept | split | dsimp only | refine kept_snd (by assumption) ?_
    | refine kept_snd2 (by assumption) ?_ | refine kept_fst (by assumption) ?_ | refine kept_some (by assumption) ?_
    | apply kept_mk


theorem loseChannel_kept {pq : List Instr} (g : Nat) (s : State) (h_s : Kept pq s) : Kept pq (loseChannel g s) := by
  unfold loseChannel
  repeat' with_reducible first
    | intro _ | assumption | apply kept_foldl | apply kept_foldl_snd | apply kept_foldl_snd2 | apply kept_foldl_fst
    | apply bumpN_kept | apply postEvent_kept | apply setStack_kept | apply poolSet_kept | apply settleEntry_kept
    | dsimp only | apply kept_mk


theorem execRetrainComplete_kept {pq : List Instr} (channel : BitVec 10) (lanes : List LaneEye) (tsvFailed : List (BitVec 5)) (s : State) (h_s : Kept pq s) : KeptO pq (execRetrainComplete channel lanes tsvFailed s) := by
  unfold execRetrainComplete
  repeat' with_reducible first
    | intro _ | assumption | apply kept_next | apply postEvent_kept | apply setChan_kept | apply charge_kept
    | apply poolDrain_kept | apply trainChannel_kept | apply loseChannel_kept | apply kept_ite | split | dsimp only
    | refine kept_snd (by assumption) ?_ | refine kept_snd2 (by assumption) ?_ | refine kept_fst (by assumption) ?_
    | refine kept_some (by assumption) ?_ | apply kept_mk


theorem eyeFound_kept {pq : List Instr} (g : Nat) (lane : Nat) (w : Nat) (hd : Nat) (s : State) (h_s : Kept pq s) : Kept pq (eyeFound g lane w hd s) := by
  unfold eyeFound
  repeat' with_reducible first
    | assumption | apply setChan_kept | apply requestRetrain_kept | apply kept_ite | split | dsimp only


theorem execCalibrationInterval_kept {pq : List Instr} (channel : BitVec 10) (eyeW : Byte) (eyeH : Byte) (s : State) (h_s : Kept pq s) : KeptO pq (execCalibrationInterval channel eyeW eyeH s) := by
  unfold execCalibrationInterval
  repeat' with_reducible first
    | assumption | apply kept_next | apply setChan_kept | apply eyeFound_kept | apply kept_ite | split | dsimp only
    | apply kept_mk


theorem execQuietSlot_kept {pq : List Instr} (channel : BitVec 10) (eyeW : Byte) (eyeH : Byte) (s : State) (h_s : Kept pq s) : KeptO pq (execQuietSlot channel eyeW eyeH s) := by
  unfold execQuietSlot
  repeat' with_reducible first
    | assumption | apply kept_next | apply setChan_kept | apply charge_kept | apply eyeFound_kept | apply kept_ite
    | split | dsimp only | apply kept_mk


theorem execLostChannelRebuild_kept {pq : List Instr} (channel : BitVec 10) (s : State) (h_s : Kept pq s) : KeptO pq (execLostChannelRebuild channel s) := by
  unfold execLostChannelRebuild
  repeat' with_reducible first
    | intro _ | assumption | apply kept_next | apply kept_foldl | apply kept_foldl_snd | apply kept_foldl_snd2
    | apply kept_foldl_fst | apply bumpN_kept | apply setChan_kept | apply charge_kept | apply poisonLine_kept
    | apply kept_ite | split | dsimp only | refine kept_snd (by assumption) ?_ | refine kept_snd2 (by assumption) ?_
    | refine kept_fst (by assumption) ?_ | refine kept_some (by assumption) ?_ | apply kept_mk


theorem treimUpset_kept {pq : List Instr} (k : Nat) (c : Nat) (u : Upset) (s : State) (h_s : Kept pq s) : Kept pq (treimUpset k c u s) := by
  unfold treimUpset
  repeat' with_reducible first
    | intro _ | assumption | apply addUpset_kept | apply kept_ite | split | dsimp only


theorem execRefreshPeriod_kept {pq : List Instr} (visit : ChannelVisit) (s : State) (h_s : Kept pq s) : KeptO pq (execRefreshPeriod visit s) := by
  unfold execRefreshPeriod
  repeat' with_reducible first
    | intro _ | assumption | apply kept_next | apply kept_foldl | apply bumpN_kept | apply setChan_kept
    | apply charge_kept | apply treimUpset_kept | apply kept_ite | split | dsimp only | apply kept_mk


theorem execPatrolScrub_kept {pq : List Instr} (stack : BitVec 3) (error : List Byte) (s : State) (h_s : Kept pq s) : KeptO pq (execPatrolScrub stack error s) := by
  unfold execPatrolScrub
  repeat' with_reducible first
    | assumption | apply kept_next | apply bump_kept | apply setStack_kept | apply addUpset_kept
    | apply fetchLine_kept | apply kept_ite | split | dsimp only | refine kept_snd (by assumption) ?_
    | refine kept_snd2 (by assumption) ?_ | refine kept_fst (by assumption) ?_ | refine kept_some (by assumption) ?_
    | apply kept_mk


theorem copyLine_kept {pq : List Instr} (k : Nat) (c : Nat) (a : Nat) (s : State) (h_s : Kept pq s) : Kept pq (copyLine k c a s) := by
  unfold copyLine
  repeat' with_reducible first
    | assumption | apply storeBytes_kept | apply clearUpset_kept | apply poisonLine_kept | apply kept_ite | split
    | dsimp only | refine kept_snd (by assumption) ?_ | refine kept_snd2 (by assumption) ?_
    | refine kept_fst (by assumption) ?_ | refine kept_some (by assumption) ?_ | apply kept_mk


theorem copyRows_kept {pq : List Instr} (k : Nat) (s : State) (h_s : Kept pq s) : Kept pq (copyRows k s) := by
  unfold copyRows
  repeat' with_reducible first
    | intro _ | assumption | apply kept_foldl | apply kept_foldl_snd | apply kept_foldl_snd2 | apply kept_foldl_fst
    | apply copyLine_kept | apply kept_ite | split | dsimp only | refine kept_snd (by assumption) ?_
    | refine kept_snd2 (by assumption) ?_ | refine kept_fst (by assumption) ?_ | refine kept_some (by assumption) ?_
    | apply kept_mk


theorem repairRows_kept {pq : List Instr} (k : Nat) (s : State) (h_s : Kept pq s) : Kept pq (repairRows k s) := by
  unfold repairRows
  repeat' with_reducible first
    | assumption | apply bumpN_kept | apply setStack_kept | split | dsimp only | refine kept_snd (by assumption) ?_
    | refine kept_snd2 (by assumption) ?_ | refine kept_fst (by assumption) ?_ | refine kept_some (by assumption) ?_
    | apply kept_mk


end Sys2Proof.Machine
end

