-- ==== Sys2Proof/Laws/KeptCorbel.lean ====
section
/-!
SUPPORT. The functions of Machine/Corbel.lean keep the queue and the canonical form of memory.
-/
namespace Sys2Proof.Machine

theorem memOp_kept {pq : List Instr} (a : Nat) (n : Nat) (f : Nat → Nat → State → State) (s : State) (h_f : ∀ a0 : Nat, ∀ a1 : Nat, ∀ a2 : State, Kept pq a2 → Kept pq (f a0 a1 a2)) (h_s : Kept pq s) : Kept pq (memOp a n f s) := by
  unfold memOp
  repeat' with_reducible first
    | assumption | apply h_f | apply countUnmapped_kept | apply readDev_kept | split | dsimp only
    | refine kept_snd (by assumption) ?_ | refine kept_snd2 (by assumption) ?_ | refine kept_fst (by assumption) ?_
    | refine kept_some (by assumption) ?_ | apply kept_mk


theorem corbelStore_kept {pq : List Instr} (k : Nat) (a : Nat) (n : Nat) (v : Nat) (s : State) (h_s : Kept pq s) : Kept pq (corbelStore k a n v s) := by
  unfold corbelStore
  repeat' with_reducible first
    | assumption | apply writeTo_kept | dsimp only


theorem storeF32_kept {pq : List Instr} (k : Nat) (a : Nat) (v : FVal) (s : State) (h_s : Kept pq s) : Kept pq (storeF32 k a v s) := by
  unfold storeF32
  repeat' with_reducible first
    | assumption | apply corbelStore_kept | dsimp only


theorem addI64_kept {pq : List Instr} (k : Nat) (a : Nat) (w : Nat) (x : Nat) (s : State) (h_s : Kept pq s) : Kept pq (addI64 k a w x s) := by
  unfold addI64
  repeat' with_reducible first
    | assumption | apply bump_kept | apply corbelStore_kept | apply kept_ite | split | dsimp only


theorem addF32_kept {pq : List Instr} (k : Nat) (a : Nat) (w : Nat) (x : Nat) (s : State) (h_s : Kept pq s) : Kept pq (addF32 k a w x s) := by
  unfold addF32
  repeat' with_reducible first
    | assumption | apply bump_kept | apply storeF32_kept | split | dsimp only | refine kept_snd (by assumption) ?_
    | refine kept_snd2 (by assumption) ?_ | refine kept_fst (by assumption) ?_ | refine kept_some (by assumption) ?_


theorem casWord_kept {pq : List Instr} (k : Nat) (a : Nat) (w : Nat) (c : Nat) (x : Nat) (s : State) (h_s : Kept pq s) : Kept pq (casWord k a w c x s) := by
  unfold casWord
  repeat' with_reducible first
    | assumption | apply emit_kept | apply corbelStore_kept | split | dsimp only


theorem execAddI64_kept {pq : List Instr} (addr : BitVec 48) (operand : W64) (s : State) (h_s : Kept pq s) : KeptO pq (execAddI64 addr operand s) := by
  unfold execAddI64
  repeat' with_reducible first
    | intro _ | assumption | apply kept_next | apply memOp_kept | apply addI64_kept | dsimp only


theorem execAddF32_kept {pq : List Instr} (addr : BitVec 48) (operand : W32) (s : State) (h_s : Kept pq s) : KeptO pq (execAddF32 addr operand s) := by
  unfold execAddF32
  repeat' with_reducible first
    | intro _ | assumption | apply kept_next | apply memOp_kept | apply addF32_kept | dsimp only


theorem execMaxF32_kept {pq : List Instr} (addr : BitVec 48) (operand : W32) (s : State) (h_s : Kept pq s) : KeptO pq (execMaxF32 addr operand s) := by
  unfold execMaxF32
  repeat' with_reducible first
    | intro _ | assumption | apply kept_next | apply memOp_kept | apply storeF32_kept | dsimp only


theorem execMinF32_kept {pq : List Instr} (addr : BitVec 48) (operand : W32) (s : State) (h_s : Kept pq s) : KeptO pq (execMinF32 addr operand s) := by
  unfold execMinF32
  repeat' with_reducible first
    | intro _ | assumption | apply kept_next | apply memOp_kept | apply storeF32_kept | dsimp only


theorem execOr64_kept {pq : List Instr} (addr : BitVec 48) (operand : W64) (s : State) (h_s : Kept pq s) : KeptO pq (execOr64 addr operand s) := by
  unfold execOr64
  repeat' with_reducible first
    | intro _ | assumption | apply kept_next | apply memOp_kept | apply corbelStore_kept | dsimp only


theorem execSwap64_kept {pq : List Instr} (addr : BitVec 48) (operand : W64) (s : State) (h_s : Kept pq s) : KeptO pq (execSwap64 addr operand s) := by
  unfold execSwap64
  repeat' with_reducible first
    | intro _ | assumption | apply kept_next | apply emit_kept | apply memOp_kept | apply corbelStore_kept
    | dsimp only


theorem execCas64_kept {pq : List Instr} (addr : BitVec 48) (compare : W64) (swap : W64) (s : State) (h_s : Kept pq s) : KeptO pq (execCas64 addr compare swap s) := by
  unfold execCas64
  repeat' with_reducible first
    | intro _ | assumption | apply kept_next | apply memOp_kept | apply casWord_kept | dsimp only


theorem execSqAdd_kept {pq : List Instr} (addr : BitVec 48) (operand : W32) (s : State) (h_s : Kept pq s) : KeptO pq (execSqAdd addr operand s) := by
  unfold execSqAdd
  repeat' with_reducible first
    | intro _ | assumption | apply kept_next | apply memOp_kept | apply corbelStore_kept | dsimp only


theorem execLinAdd_kept {pq : List Instr} (addr : BitVec 48) (operand : W32) (s : State) (h_s : Kept pq s) : KeptO pq (execLinAdd addr operand s) := by
  unfold execLinAdd
  repeat' with_reducible first
    | intro _ | assumption | apply kept_next | apply memOp_kept | apply corbelStore_kept | dsimp only


theorem collWord_kept {pq : List Instr} (op : Nat) (a : Nat) (x : Nat) (s : State) (h_s : Kept pq s) : Kept pq (collWord op a x s) := by
  unfold collWord
  repeat' with_reducible first
    | intro _ | assumption | apply free64_kept | apply emit_kept | apply memOp_kept | apply corbelStore_kept
    | apply storeF32_kept | apply addI64_kept | apply addF32_kept | apply casWord_kept | split | dsimp only
    | refine kept_snd (by assumption) ?_ | refine kept_snd2 (by assumption) ?_ | refine kept_fst (by assumption) ?_
    | refine kept_some (by assumption) ?_ | apply kept_mk


theorem setShard_kept {pq : List Instr} (k : Nat) (i : Nat) (sh : Shard) (s : State) (h_s : Kept pq s) : Kept pq (setShard k i sh s) := by
  unfold setShard
  repeat' with_reducible first
    | assumption | dsimp only | apply kept_mk


theorem modGroup_kept {pq : List Instr} (g : Nat) (f : GroupRec → GroupRec) (s : State) (h_s : Kept pq s) : Kept pq (modGroup g f s) := by
  unfold modGroup
  repeat' with_reducible first
    | intro _ | assumption | apply kept_ite | split | dsimp only | apply kept_mk


theorem cblEvent_kept {pq : List Instr} (k : Nat) (ev : Nat) (shard : Nat) (group : Nat) (s : State) (h_s : Kept pq s) : Kept pq (cblEvent k ev shard group s) := by
  unfold cblEvent
  repeat' with_reducible first
    | assumption | apply setReg_kept | apply kept_ite | split | dsimp only


theorem markTorn_kept {pq : List Instr} (k : Nat) (i : Nat) (s : State) (h_s : Kept pq s) : Kept pq (markTorn k i s) := by
  unfold markTorn
  repeat' with_reducible first
    | assumption | apply bump_kept | apply postEvent_kept | apply setShard_kept | apply cblEvent_kept | split
    | dsimp only | refine kept_snd (by assumption) ?_ | refine kept_snd2 (by assumption) ?_
    | refine kept_fst (by assumption) ?_ | refine kept_some (by assumption) ?_ | apply kept_mk


theorem markInvalid_kept {pq : List Instr} (k : Nat) (i : Nat) (s : State) (h_s : Kept pq s) : Kept pq (markInvalid k i s) := by
  unfold markInvalid
  repeat' with_reducible first
    | assumption | apply bump_kept | apply postEvent_kept | apply setShard_kept | apply cblEvent_kept | split
    | dsimp only | refine kept_snd (by assumption) ?_ | refine kept_snd2 (by assumption) ?_
    | refine kept_fst (by assumption) ?_ | refine kept_some (by assumption) ?_ | apply kept_mk


theorem fixGrid_kept {pq : List Instr} (tid : Nat) (s : State) (h_s : Kept pq s) : Kept pq (fixGrid tid s) := by
  unfold fixGrid
  repeat' with_reducible first
    | intro _ | assumption | apply setTensor_kept | apply kept_ite | split | dsimp only
    | refine kept_snd (by assumption) ?_ | refine kept_snd2 (by assumption) ?_ | refine kept_fst (by assumption) ?_
    | refine kept_some (by assumption) ?_ | apply kept_mk


theorem measureKey_kept {pq : List Instr} (key : Nat) (vs : List FVal) (s : State) (h_s : Kept pq s) : Kept pq (measureKey key vs s) := by
  unfold measureKey
  repeat' with_reducible first
    | assumption | dsimp only | apply kept_mk


theorem measureContrib_kept {pq : List Instr} (d : Nat) (e0 : Nat) (vs : List FVal) (s : State) (h_s : Kept pq s) : Kept pq (measureContrib d e0 vs s) := by
  unfold measureContrib
  repeat' with_reducible first
    | intro _ | assumption | apply kept_foldl | apply kept_foldl_snd | apply kept_foldl_snd2 | apply kept_foldl_fst
    | apply measureKey_kept | apply kept_ite | split | dsimp only


theorem addAccs_kept {pq : List Instr} (k : Nat) (d : Nat) (e0 : Nat) (addr : Nat) (fresh : Bool) (vs : List FVal) (s : State) (h_s : Kept pq s) : Kept pq (addAccs k d e0 addr fresh vs s) := by
  unfold addAccs
  repeat' with_reducible first
    | intro _ | assumption | apply bumpN_kept | apply writeTo_kept | apply kept_ite | split | dsimp only
    | refine kept_snd (by assumption) ?_ | refine kept_snd2 (by assumption) ?_ | refine kept_fst (by assumption) ?_
    | refine kept_some (by assumption) ?_


theorem enterValues_kept {pq : List Instr} (k : Nat) (shard : Nat) (d : Nat) (e0 : Nat) (head : Nat) (accs : Nat) (vs : List FVal) (s : State) (h_s : Kept pq s) : Kept pq (enterValues k shard d e0 head accs vs s) := by
  unfold enterValues
  repeat' with_reducible first
    | intro _ | assumption | apply bump_kept | apply writeTo_kept | apply touch_kept | apply corbelStore_kept
    | apply cblEvent_kept | apply measureContrib_kept | apply addAccs_kept | apply kept_ite | split | dsimp only
    | refine kept_snd (by assumption) ?_ | refine kept_snd2 (by assumption) ?_ | refine kept_fst (by assumption) ?_
    | refine kept_some (by assumption) ?_ | apply kept_mk


theorem sparseRow_kept {pq : List Instr} (k : Nat) (i : Nat) (sh : Shard) (row : Nat) (vs : List FVal) (s : State) (h_s : Kept pq s) : Kept pq (sparseRow k i sh row vs s) := by
  unfold sparseRow
  repeat' with_reducible first
    | assumption | apply bump_kept | apply corbelStore_kept | apply setShard_kept | apply cblEvent_kept
    | apply enterValues_kept | apply kept_ite | split | dsimp only | refine kept_snd (by assumption) ?_
    | refine kept_snd2 (by assumption) ?_ | refine kept_fst (by assumption) ?_ | refine kept_some (by assumption) ?_
    | apply kept_mk


theorem dropContrib_kept {pq : List Instr} (k : Nat) (i : Nat) (d : Nat) (s : State) (h_s : Kept pq s) : Kept pq (dropContrib k i d s) := by
  unfold dropContrib
  repeat' with_reducible first
    | assumption | apply bump_kept | apply cblEvent_kept | dsimp only


theorem sparseRows_kept {pq : List Instr} (k : Nat) (i : Nat) (sh : Shard) (fmt : Nat) (scheme : Nat) (rs : List (W32 × RowPiece)) (s : State) (h_s : Kept pq s) : Kept pq (sparseRows k i sh fmt scheme rs s) := by
  unfold sparseRows
  repeat' with_reducible first
    | intro _ | assumption | apply kept_foldl | apply kept_foldl_snd | apply kept_foldl_snd2 | apply kept_foldl_fst
    | apply bumpN_kept | apply sparseRow_kept | apply dropContrib_kept | apply kept_ite | split | dsimp only
    | refine kept_snd (by assumption) ?_ | refine kept_snd2 (by assumption) ?_ | refine kept_fst (by assumption) ?_
    | refine kept_some (by assumption) ?_ | apply kept_mk


theorem gridAdd_kept {pq : List Instr} (k : Nat) (i : Nat) (b : Nat) (gen : Bool) (c : Contribution) (s : State) (h_s : Kept pq s) : Kept pq (gridAdd k i b gen c s) := by
  unfold gridAdd
  repeat' with_reducible first
    | intro _ | assumption | apply kept_foldl | apply bumpN_kept | apply bump_kept | apply enterValues_kept
    | apply sparseRow_kept | apply dropContrib_kept | apply sparseRows_kept | apply kept_ite | split | dsimp only
    | refine kept_snd (by assumption) ?_ | refine kept_snd2 (by assumption) ?_ | refine kept_fst (by assumption) ?_
    | refine kept_some (by assumption) ?_ | apply kept_mk


theorem execGridAdd_kept {pq : List Instr} (stack : BitVec 3) (shard : BitVec 11) (block : W32) (gen : Bool) (contrib : Contribution) (s : State) (h_s : Kept pq s) : KeptO pq (execGridAdd stack shard block gen contrib s) := by
  unfold execGridAdd
  repeat' with_reducible first
    | assumption | apply kept_next | apply gridAdd_kept | dsimp only


theorem readAccs_kept {pq : List Instr} (k : Nat) (cls : Nat) (p : GradPart) (s : State) (h_s : Kept pq s) : Kept pq (readAccs k cls p s) := by
  unfold readAccs
  repeat' with_reducible first
    | assumption | apply bump_kept | apply touch_kept | apply corbelStore_kept | apply kept_ite | split | dsimp only
    | refine kept_snd (by assumption) ?_ | refine kept_snd2 (by assumption) ?_ | refine kept_fst (by assumption) ?_
    | refine kept_some (by assumption) ?_ | apply kept_mk


theorem reduceBlock_kept {pq : List Instr} (k : Nat) (i : Nat) (b : Nat) (s : State) (h_s : Kept pq s) : Kept pq (reduceBlock k i b s) := by
  unfold reduceBlock
  repeat' with_reducible first
    | intro _ | assumption | apply kept_foldl | apply setShard_kept | apply readAccs_kept | apply kept_ite | split
    | dsimp only | refine kept_snd (by assumption) ?_ | refine kept_snd2 (by assumption) ?_
    | refine kept_fst (by assumption) ?_ | refine kept_some (by assumption) ?_ | apply kept_mk


theorem printBlock_kept {pq : List Instr} (k : Nat) (d : Nat) (m : Nat) (s : State) (h_s : Kept pq s) : Kept pq (printBlock k d m s) := by
  unfold printBlock
  repeat' with_reducible first
    | assumption | apply corbelStore_kept | dsimp only


end Sys2Proof.Machine
end

