-- ==== Sys2Proof/Laws/KeptUpdate.lean ====
section
/-!
SUPPORT. The functions of Machine/Update.lean keep the queue and the canonical form of memory.
-/
namespace Sys2Proof.Machine

theorem startSmall_kept {pq : List Instr} (hd : Nat) (data : List Byte) (s : State) (h_s : Kept pq s) : Kept pq (startSmall hd data s) := by
  unfold startSmall
  repeat' with_reducible first
    | assumption | apply emit_kept | dsimp only | apply kept_mk


theorem setTable_kept {pq : List Instr} (g : Nat) (e : Nat × Nat × Nat × Nat) (s : State) (h_s : Kept pq s) : Kept pq (setTable g e s) := by
  unfold setTable
  repeat' with_reducible first
    | intro _ | assumption | apply kept_foldl | apply kept_foldl_snd | apply kept_foldl_snd2 | apply kept_foldl_fst
    | apply fwWrite_kept | dsimp only | apply kept_mk


theorem writeTables_kept {pq : List Instr} (s : State) (h_s : Kept pq s) : Kept pq (writeTables s) := by
  unfold writeTables
  repeat' with_reducible first
    | intro _ | assumption | apply kept_foldl | apply setTable_kept | dsimp only


theorem writeRecord_kept {pq : List Instr} (r : StepRec) (s : State) (h_s : Kept pq s) : Kept pq (writeRecord r s) := by
  unfold writeRecord
  repeat' with_reducible first
    | intro _ | assumption | apply kept_foldl | apply fwWrite_kept | dsimp only | apply kept_mk


theorem tallyCopy_kept {pq : List Instr} (k : Nat) (d : Nat) (y : Tally) (s : State) (h_s : Kept pq s) : Kept pq (tallyCopy k d y s) := by
  unfold tallyCopy
  repeat' with_reducible first
    | assumption | apply bumpN_kept | apply statTensor_kept | dsimp only


theorem writeCopyBlock_kept {pq : List Instr} (k : Nat) (d : Nat) (b : Nat) (s : State) (h_s : Kept pq s) : Kept pq (writeCopyBlock k d b s) := by
  unfold writeCopyBlock
  repeat' with_reducible first
    | intro _ | assumption | apply kept_foldl | apply kept_foldl_snd | apply kept_foldl_snd2 | apply kept_foldl_fst
    | apply writeRowValues_kept | apply tallyCopy_kept | apply kept_ite | split | dsimp only
    | refine kept_snd (by assumption) ?_ | refine kept_snd2 (by assumption) ?_ | refine kept_fst (by assumption) ?_
    | refine kept_some (by assumption) ?_


theorem addHisto_kept {pq : List Instr} (key : Nat) (f : Fmt) (codes : List Nat) (s : State) (h_s : Kept pq s) : Kept pq (addHisto key f codes s) := by
  unfold addHisto
  repeat' with_reducible first
    | intro _ | assumption | apply kept_foldl | dsimp only | apply kept_mk


theorem writeCopyCoded_kept {pq : List Instr} (k : Nat) (i : Nat) (d : Nat) (b : Nat) (s : State) (h_s : Kept pq s) : Kept pq (writeCopyCoded k i d b s) := by
  unfold writeCopyCoded
  repeat' with_reducible first
    | intro _ | assumption | apply kept_foldl | apply kept_foldl_snd | apply kept_foldl_snd2 | apply kept_foldl_fst
    | apply writeTo_kept | apply tallyCopy_kept | apply addHisto_kept | apply kept_ite | split | dsimp only


theorem measureCopy_kept {pq : List Instr} (d : Nat) (ws : List Nat) (s : State) (h_s : Kept pq s) : Kept pq (measureCopy d ws s) := by
  unfold measureCopy
  repeat' with_reducible first
    | assumption | dsimp only | apply kept_mk


theorem writeCopy_kept {pq : List Instr} (k : Nat) (i : Nat) (d : Nat) (b : Nat) (s : State) (h_s : Kept pq s) : Kept pq (writeCopy k i d b s) := by
  unfold writeCopy
  repeat' with_reducible first
    | intro _ | assumption | apply writeCopyBlock_kept | apply writeCopyCoded_kept | apply measureCopy_kept
    | apply kept_ite | split | dsimp only


theorem unitStore_kept {pq : List Instr} (k : Nat) (a : Nat) (bs : List Byte) (s : State) (h_s : Kept pq s) : Kept pq (unitStore k a bs s) := by
  unfold unitStore
  repeat' with_reducible first
    | assumption | apply writeTo_kept | dsimp only


theorem writeEntry_kept {pq : List Instr} (k : Nat) (u : Nat) (j : Nat) (head : Nat) (a1 : List Byte) (a2 : List Byte) (s : State) (h_s : Kept pq s) : Kept pq (writeEntry k u j head a1 a2 s) := by
  unfold writeEntry
  repeat' with_reducible first
    | assumption | apply unitStore_kept | dsimp only


theorem retireEntry_kept {pq : List Instr} (k : Nat) (u : Nat) (j : Nat) (s : State) (h_s : Kept pq s) : Kept pq (retireEntry k u j s) := by
  unfold retireEntry
  repeat' with_reducible first
    | assumption | apply unitStore_kept | dsimp only


theorem countGrads_kept {pq : List Instr} (k : Nat) (d : Nat) (b : Nat) (s : State) (h_s : Kept pq s) : Kept pq (countGrads k d b s) := by
  unfold countGrads
  repeat' with_reducible first
    | assumption | apply bumpN_kept | dsimp only


theorem groupM_kept {pq : List Instr} (k : Nat) (i : Nat) (d : Nat) (b : Nat) (u : Nat) (j : Nat) (s : State) (h_s : Kept pq s) : Kept pq (groupM k i d b u j s) := by
  unfold groupM
  repeat' with_reducible first
    | intro _ | assumption | apply unitStore_kept | apply countGrads_kept | apply kept_ite | split | dsimp only
    | refine kept_snd (by assumption) ?_ | refine kept_snd2 (by assumption) ?_ | refine kept_fst (by assumption) ?_
    | refine kept_some (by assumption) ?_ | apply kept_mk


theorem watchRatio_kept {pq : List Instr} (g : Nat) (old : List Nat) (new : List Nat) (s : State) (h_s : Kept pq s) : Kept pq (watchRatio g old new s) := by
  unfold watchRatio
  repeat' with_reducible first
    | intro _ | assumption | apply kept_foldl | apply kept_foldl_snd | apply kept_foldl_snd2 | apply kept_foldl_fst
    | split | dsimp only | refine kept_snd (by assumption) ?_ | refine kept_snd2 (by assumption) ?_
    | refine kept_fst (by assumption) ?_ | refine kept_some (by assumption) ?_ | apply kept_mk


theorem groupW_kept {pq : List Instr} (k : Nat) (i : Nat) (d : Nat) (b : Nat) (u : Nat) (j : Nat) (s : State) (h_s : Kept pq s) : Kept pq (groupW k i d b u j s) := by
  unfold groupW
  repeat' with_reducible first
    | intro _ | assumption | apply printBlock_kept | apply writeCopy_kept | apply unitStore_kept
    | apply watchRatio_kept | dsimp only


theorem readBlock_kept {pq : List Instr} (k : Nat) (d : Nat) (b : Nat) (moments : Bool) (s : State) (h_s : Kept pq s) : Kept pq (readBlock k d b moments s).2 := by
  unfold readBlock
  repeat' with_reducible first
    | intro _ | assumption | apply kept_foldl | apply kept_foldl_snd | apply kept_foldl_snd2 | apply kept_foldl_fst
    | apply touch_kept | apply readAccs_kept | apply kept_ite | split | dsimp only
    | refine kept_snd (by assumption) ?_ | refine kept_snd2 (by assumption) ?_ | refine kept_fst (by assumption) ?_
    | refine kept_some (by assumption) ?_


theorem markUpdated_kept {pq : List Instr} (k : Nat) (i : Nat) (b : Nat) (s : State) (h_s : Kept pq s) : Kept pq (markUpdated k i b s) := by
  unfold markUpdated
  repeat' with_reducible first
    | assumption | apply setShard_kept | split | dsimp only | refine kept_some (by assumption) ?_ | apply kept_mk


theorem journalBlock_kept {pq : List Instr} (k : Nat) (i : Nat) (d : Nat) (b : Nat) (j : Nat) (s : State) (h_s : Kept pq s) : Kept pq (journalBlock k i d b j s) := by
  unfold journalBlock
  repeat' with_reducible first
    | assumption | apply writeEntry_kept | apply kept_ite | split | dsimp only


theorem leaveBlock_kept {pq : List Instr} (k : Nat) (i : Nat) (d : Nat) (b : Nat) (s : State) (h_s : Kept pq s) : Kept pq (leaveBlock k i d b s) := by
  unfold leaveBlock
  repeat' with_reducible first
    | intro _ | assumption | apply watchRatio_kept | apply markUpdated_kept | dsimp only


theorem startFlight_kept {pq : List Instr} (k : Nat) (i : Nat) (d : Nat) (b : Nat) (s : State) (h_s : Kept pq s) : Kept pq (startFlight k i d b s) := by
  unfold startFlight
  repeat' with_reducible first
    | assumption | apply free32_kept | apply journalBlock_kept | apply kept_ite | split | dsimp only
    | refine kept_snd (by assumption) ?_ | refine kept_snd2 (by assumption) ?_ | refine kept_fst (by assumption) ?_
    | refine kept_some (by assumption) ?_ | apply kept_mk


theorem execWeightBlockStart_kept {pq : List Instr} (stack : BitVec 3) (shard : BitVec 11) (block : W32) (s : State) (h_s : Kept pq s) : KeptO pq (execWeightBlockStart stack shard block s) := by
  unfold execWeightBlockStart
  repeat' with_reducible first
    | intro _ | assumption | apply kept_next | apply markInvalid_kept | apply readBlock_kept | apply markUpdated_kept
    | apply leaveBlock_kept | apply startFlight_kept | apply kept_ite | split | dsimp only
    | refine kept_snd (by assumption) ?_ | refine kept_snd2 (by assumption) ?_ | refine kept_fst (by assumption) ?_
    | refine kept_some (by assumption) ?_ | apply kept_mk


theorem restoreMoments_kept {pq : List Instr} (k : Nat) (d : Nat) (b : Nat) (u : Nat) (j : Nat) (s : State) (h_s : Kept pq s) : Kept pq (restoreMoments k d b u j s) := by
  unfold restoreMoments
  repeat' with_reducible first
    | assumption | apply unitStore_kept | apply kept_ite | split | dsimp only


theorem execWriteGroupComplete_kept {pq : List Instr} (stack : BitVec 3) (shard : BitVec 11) (block : W32) (s : State) (h_s : Kept pq s) : KeptO pq (execWriteGroupComplete stack shard block s) := by
  unfold execWriteGroupComplete
  repeat' with_reducible first
    | intro _ | assumption | apply kept_next | apply bump_kept | apply markInvalid_kept | apply retireEntry_kept
    | apply groupM_kept | apply groupW_kept | apply readBlock_kept | apply markUpdated_kept | apply leaveBlock_kept
    | apply restoreMoments_kept | apply kept_ite | split | dsimp only | refine kept_snd (by assumption) ?_
    | refine kept_snd2 (by assumption) ?_ | refine kept_fst (by assumption) ?_ | refine kept_some (by assumption) ?_
    | apply kept_mk


theorem sweepA_kept {pq : List Instr} {α : Type} (g : Nat) (f : State → Nat → Nat → α → α) (a : α) (s : State) (h_s : Kept pq s) : Kept pq (sweepA g f a s).2 := by
  unfold sweepA
  repeat' with_reducible first
    | intro _ | assumption | apply kept_foldl | apply kept_foldl_snd | apply kept_foldl_snd2 | apply kept_foldl_fst
    | apply markInvalid_kept | apply readBlock_kept | apply leaveBlock_kept | apply kept_ite | split | dsimp only


theorem startSums_kept {pq : List Instr} (g : Nat) (s : State) (h_s : Kept pq s) : Kept pq (startSums g s) := by
  unfold startSums
  repeat' with_reducible first
    | intro _ | assumption | apply kept_foldl | apply kept_foldl_snd | apply kept_foldl_snd2 | apply kept_foldl_fst
    | apply startSmall_kept | apply sweepA_kept | apply kept_ite | split | dsimp only
    | refine kept_snd (by assumption) ?_ | refine kept_snd2 (by assumption) ?_ | refine kept_fst (by assumption) ?_
    | refine kept_some (by assumption) ?_ | apply kept_mk


theorem adaFactors_kept {pq : List Instr} (p : Nat × Nat × Shard) (kc : ColSums) (rows : Nat) (a : Exact × State) (h_a : Kept pq (a).2) : Kept pq (adaFactors p kc rows a).2 := by
  unfold adaFactors
  repeat' with_reducible first
    | intro _ | assumption | apply kept_foldl | apply kept_foldl_snd | apply kept_foldl_snd2 | apply kept_foldl_fst
    | apply unitStore_kept | dsimp only


theorem adaForm_kept {pq : List Instr} (g : Nat) (sums : GroupSums) (s : State) (h_s : Kept pq s) : Kept pq (adaForm g sums s) := by
  unfold adaForm
  repeat' with_reducible first
    | intro _ | assumption | apply kept_foldl | apply kept_foldl_snd | apply kept_foldl_snd2 | apply kept_foldl_fst
    | apply startSmall_kept | apply adaFactors_kept | split | dsimp only | refine kept_snd (by assumption) ?_
    | refine kept_snd2 (by assumption) ?_ | refine kept_fst (by assumption) ?_ | refine kept_some (by assumption) ?_
    | apply kept_mk


theorem sumsFormed_kept {pq : List Instr} (g : Nat) (tr : FVal) (rm : FVal) (s : State) (h_s : Kept pq s) : Kept pq (sumsFormed g tr rm s) := by
  unfold sumsFormed
  repeat' with_reducible first
    | assumption | apply setTable_kept | dsimp only | apply kept_mk


theorem takeSums_kept {pq : List Instr} (g : Nat) (sums : GroupSums) (s : State) (h_s : Kept pq s) : Kept pq (takeSums g sums s) := by
  unfold takeSums
  repeat' with_reducible first
    | assumption | apply adaForm_kept | apply sumsFormed_kept | apply kept_ite | split | dsimp only
    | refine kept_snd (by assumption) ?_ | refine kept_snd2 (by assumption) ?_ | refine kept_fst (by assumption) ?_
    | refine kept_some (by assumption) ?_ | apply kept_mk


theorem setOuter_kept {pq : List Instr} (k : Nat) (i : Nat) (o : OuterShard) (s : State) (h_s : Kept pq s) : Kept pq (setOuter k i o s) := by
  unfold setOuter
  repeat' with_reducible first
    | assumption | dsimp only | apply kept_mk


theorem rebaseBlock_kept {pq : List Instr} (k : Nat) (i : Nat) (d : Nat) (b : Nat) (new : List Nat) (wb : List Nat) (s : State) (h_s : Kept pq s) : Kept pq (rebaseBlock k i d b new wb s) := by
  unfold rebaseBlock
  repeat' with_reducible first
    | intro _ | assumption | apply free32_kept | apply printBlock_kept | apply writeCopy_kept | apply unitStore_kept
    | apply writeEntry_kept | apply retireEntry_kept | split | dsimp only | refine kept_snd (by assumption) ?_
    | refine kept_snd2 (by assumption) ?_ | refine kept_fst (by assumption) ?_ | refine kept_some (by assumption) ?_


theorem rebaseShard_kept {pq : List Instr} (k : Nat) (i : Nat) (s : State) (h_s : Kept pq s) : Kept pq (rebaseShard k i s) := by
  unfold rebaseShard
  repeat' with_reducible first
    | intro _ | assumption | apply kept_foldl | apply setOuter_kept | apply rebaseBlock_kept | split | dsimp only
    | refine kept_snd (by assumption) ?_ | refine kept_snd2 (by assumption) ?_ | refine kept_fst (by assumption) ?_
    | refine kept_some (by assumption) ?_ | apply kept_mk


theorem formDelta_kept {pq : List Instr} (k : Nat) (i : Nat) (s : State) (h_s : Kept pq s) : Kept pq (formDelta k i s) := by
  unfold formDelta
  repeat' with_reducible first
    | intro _ | assumption | apply setOuter_kept | split | dsimp only | refine kept_snd (by assumption) ?_
    | refine kept_snd2 (by assumption) ?_ | refine kept_fst (by assumption) ?_ | refine kept_some (by assumption) ?_
    | apply kept_mk


theorem initShard_kept {pq : List Instr} (k : Nat) (d : Nat) (s : State) (h_s : Kept pq s) : Kept pq (initShard k d s) := by
  unfold initShard
  repeat' with_reducible first
    | intro _ | assumption | apply kept_foldl | apply corbelStore_kept | apply printBlock_kept | dsimp only


theorem corbelClear_kept {pq : List Instr} (mask : Nat) (gs : List (Nat × Nat × Nat)) (s : State) (h_s : Kept pq s) : Kept pq (corbelClear mask gs s) := by
  unfold corbelClear
  repeat' with_reducible first
    | intro _ | assumption | apply kept_foldl | apply kept_foldl_snd | apply kept_foldl_snd2 | apply kept_foldl_fst
    | dsimp only | apply kept_mk


theorem shardInstall_kept {pq : List Instr} (init : Nat) (d : Nat) (s : State) (h_s : Kept pq s) : Kept pq (shardInstall init d s) := by
  unfold shardInstall
  repeat' with_reducible first
    | intro _ | assumption | apply setTensor_kept | apply setShard_kept | apply initShard_kept | apply kept_ite
    | split | dsimp only | apply kept_mk


theorem kCorbelLoad_kept {pq : List Instr} (hd : CmdHdr) (s : State) (h_s : Kept pq s) : Kept pq (kCorbelLoad hd s).s := by
  unfold kCorbelLoad
  repeat' with_reducible first
    | intro _ | assumption | apply kept_foldl | apply kept_foldl_snd | apply kept_foldl_snd2 | apply kept_foldl_fst
    | apply kOk_kept | apply kFail_kept | apply corbelClear_kept | apply shardInstall_kept | apply kept_ite | split
    | dsimp only | refine kept_snd (by assumption) ?_ | refine kept_snd2 (by assumption) ?_
    | refine kept_fst (by assumption) ?_ | refine kept_some (by assumption) ?_ | apply kept_mk


theorem kCorbelGroupSet_kept {pq : List Instr} (hd : CmdHdr) (s : State) (h_s : Kept pq s) : Kept pq (kCorbelGroupSet hd s).s := by
  unfold kCorbelGroupSet
  repeat' with_reducible first
    | intro _ | assumption | apply kept_foldl | apply kept_foldl_snd | apply kept_foldl_snd2 | apply kept_foldl_fst
    | apply kOk_kept | apply kFail_kept | apply modGroup_kept | apply kept_ite | split | dsimp only
    | refine kept_snd (by assumption) ?_ | refine kept_snd2 (by assumption) ?_ | refine kept_fst (by assumption) ?_
    | refine kept_some (by assumption) ?_ | apply kept_mk


theorem kCorbelUnfreeze_kept {pq : List Instr} (hd : CmdHdr) (s : State) (h_s : Kept pq s) : Kept pq (kCorbelUnfreeze hd s).s := by
  unfold kCorbelUnfreeze
  repeat' with_reducible first
    | intro _ | assumption | apply kept_foldl | apply kept_foldl_snd | apply kept_foldl_snd2 | apply kept_foldl_fst
    | apply kOk_kept | apply kFail_kept | apply modGroup_kept | split | dsimp only
    | refine kept_snd (by assumption) ?_ | refine kept_snd2 (by assumption) ?_ | refine kept_fst (by assumption) ?_
    | refine kept_some (by assumption) ?_ | apply kept_mk


theorem groupsAtBegin_kept {pq : List Instr} (s : State) (h_s : Kept pq s) : Kept pq (groupsAtBegin s) := by
  unfold groupsAtBegin
  repeat' with_reducible first
    | intro _ | assumption | apply kept_ite | split | dsimp only | refine kept_snd (by assumption) ?_
    | refine kept_snd2 (by assumption) ?_ | refine kept_fst (by assumption) ?_ | refine kept_some (by assumption) ?_
    | apply kept_mk


theorem resumeEntry_kept {pq : List Instr} (e : Nat × Nat × Nat) (s : State) (h_s : Kept pq s) : Kept pq (resumeEntry e s).2.2 := by
  unfold resumeEntry
  repeat' with_reducible first
    | intro _ | assumption | apply bump_kept | apply markTorn_kept | apply markInvalid_kept | apply printBlock_kept
    | apply writeCopy_kept | apply unitStore_kept | apply retireEntry_kept | apply groupM_kept | apply groupW_kept
    | apply readBlock_kept | apply markUpdated_kept | apply leaveBlock_kept | apply restoreMoments_kept
    | apply kept_ite | split | dsimp only | refine kept_snd (by assumption) ?_ | refine kept_snd2 (by assumption) ?_
    | refine kept_fst (by assumption) ?_ | refine kept_some (by assumption) ?_ | apply kept_mk


theorem finishBlock_kept {pq : List Instr} (k : Nat) (i : Nat) (d : Nat) (b : Nat) (s : State) (h_s : Kept pq s) : Kept pq (finishBlock k i d b s) := by
  unfold finishBlock
  repeat' with_reducible first
    | assumption | apply bump_kept | apply free32_kept | apply markInvalid_kept | apply retireEntry_kept
    | apply groupM_kept | apply groupW_kept | apply readBlock_kept | apply markUpdated_kept | apply journalBlock_kept
    | apply leaveBlock_kept | apply kept_ite | split | dsimp only | refine kept_snd (by assumption) ?_
    | refine kept_snd2 (by assumption) ?_ | refine kept_fst (by assumption) ?_ | refine kept_some (by assumption) ?_


theorem sweepShard_kept {pq : List Instr} (p : Nat × Nat × Shard) (s : State) (h_s : Kept pq s) : Kept pq (sweepShard p s).2 := by
  unfold sweepShard
  repeat' with_reducible first
    | intro _ | assumption | apply bumpN_kept | apply markTorn_kept | apply kept_ite | split | dsimp only


theorem finishShards_kept {pq : List Instr} (groups : List Nat) (s : State) (h_s : Kept pq s) : Kept pq (finishShards groups s) := by
  unfold finishShards
  repeat' with_reducible first
    | intro _ | assumption | apply kept_foldl | apply kept_foldl_snd | apply kept_foldl_snd2 | apply kept_foldl_fst
    | apply markUpdated_kept | apply finishBlock_kept | apply kept_ite | split | dsimp only


theorem resumeEntries_kept {pq : List Instr} (s : State) (h_s : Kept pq s) : Kept pq (resumeEntries s).2.2 := by
  unfold resumeEntries
  repeat' with_reducible first
    | intro _ | assumption | apply kept_foldl | apply kept_foldl_snd | apply kept_foldl_snd2 | apply kept_foldl_fst
    | apply resumeEntry_kept | split | dsimp only | refine kept_snd (by assumption) ?_
    | refine kept_snd2 (by assumption) ?_ | refine kept_fst (by assumption) ?_ | refine kept_some (by assumption) ?_


theorem sweepShards_kept {pq : List Instr} (s : State) (h_s : Kept pq s) : Kept pq (sweepShards s).2 := by
  unfold sweepShards
  repeat' with_reducible first
    | intro _ | assumption | apply kept_foldl | apply kept_foldl_snd | apply kept_foldl_snd2 | apply kept_foldl_fst
    | apply sweepShard_kept | split | dsimp only | refine kept_snd (by assumption) ?_
    | refine kept_snd2 (by assumption) ?_ | refine kept_fst (by assumption) ?_ | refine kept_some (by assumption) ?_


theorem resumeFinish_kept {pq : List Instr} (s : State) (h_s : Kept pq s) : Kept pq (resumeFinish s) := by
  unfold resumeFinish
  repeat' with_reducible first
    | intro _ | assumption | apply kept_foldl | apply startSums_kept | apply finishShards_kept | apply kept_ite
    | split | dsimp only


theorem resumeMemory_kept {pq : List Instr} (s : State) (h_s : Kept pq s) : Kept pq (resumeMemory s).2.2 := by
  simp only [resumeMemory]
  exact resumeFinish_kept _ (sweepShards_kept _ (resumeEntries_kept _ h_s))


theorem resumeGroup_kept {pq : List Instr} (g : Nat) (s : State) (h_s : Kept pq s) : Kept pq (resumeGroup g s) := by
  unfold resumeGroup
  repeat' with_reducible first
    | assumption | apply writeRecord_kept | apply finishShards_kept | apply kept_ite | split | dsimp only
    | apply kept_mk


theorem execGroupSumsComplete_kept {pq : List Instr} (group : BitVec 10) (sums : GroupSums) (s : State) (h_s : Kept pq s) : KeptO pq (execGroupSumsComplete group sums s) := by
  unfold execGroupSumsComplete
  repeat' with_reducible first
    | assumption | apply kept_next | apply takeSums_kept | apply resumeGroup_kept | apply kept_ite | split
    | dsimp only


end Sys2Proof.Machine
end

