-- ==== Sys2Proof/Laws/KeptFabric.lean ====
section
/-!
SUPPORT. The functions of Machine/Fabric.lean keep the queue and the canonical form of memory.
-/
namespace Sys2Proof.Machine

theorem setPort_kept {pq : List Instr} (s : State) (p : Nat) (v : Port) (h_s : Kept pq s) : Kept pq (setPort s p v) := by
  unfold setPort
  repeat' with_reducible first
    | assumption | dsimp only | apply kept_mk


theorem putOnWire_kept {pq : List Instr} (p : Nat) (prio : Nat) (cls : Nat) (frame : List Byte) (s : State) (h_s : Kept pq s) : Kept pq (putOnWire p prio cls frame s) := by
  unfold putOnWire
  repeat' with_reducible first
    | assumption | apply bump_kept | apply emit_kept | apply charge_kept | apply setPort_kept | apply kept_ite | split
    | dsimp only | apply kept_mk


theorem ceilReached_kept {pq : List Instr} (s : State) (p : Nat) (n : Nat) (h_s : Kept pq s) : Kept pq (ceilReached s p n) := by
  unfold ceilReached
  repeat' with_reducible first
    | assumption | apply bump_kept | apply setPort_kept | apply kept_ite | split | dsimp only | apply kept_mk


theorem transmit_kept {pq : List Instr} (p : Nat) (prio : Nat) (cls : Nat) (frame : List Byte) (s : State) (h_s : Kept pq s) : Kept pq (transmit p prio cls frame s) := by
  unfold transmit
  repeat' with_reducible first
    | intro _ | assumption | apply setPort_kept | apply putOnWire_kept | apply ceilReached_kept | apply kept_ite
    | split | dsimp only | apply kept_mk


theorem pumpPort_kept {pq : List Instr} (p : Nat) (s : State) (h_s : Kept pq s) : Kept pq (pumpPort p s) := by
  unfold pumpPort
  repeat' with_reducible first
    | intro _ | assumption | apply kept_foldl | apply kept_foldl_snd | apply kept_foldl_snd2 | apply kept_foldl_fst
    | apply setPort_kept | apply transmit_kept | dsimp only | apply kept_mk


theorem portPeriod_kept {pq : List Instr} (p : Nat) (s : State) (h_s : Kept pq s) : Kept pq (portPeriod p s) := by
  unfold portPeriod
  repeat' with_reducible first
    | assumption | apply setPort_kept | apply pumpPort_kept | apply kept_ite | split | dsimp only | apply kept_mk


theorem setTx_kept {pq : List Instr} (s : State) (dst : Nat) (prio : Nat) (f : Option TxFlow) (h_s : Kept pq s) : Kept pq (setTx s dst prio f) := by
  unfold setTx
  repeat' with_reducible first
    | assumption | dsimp only | apply kept_mk


theorem setRx_kept {pq : List Instr} (s : State) (src : Nat) (prio : Nat) (f : Option RxFlow) (h_s : Kept pq s) : Kept pq (setRx s src prio f) := by
  unfold setRx
  repeat' with_reducible first
    | assumption | dsimp only | apply kept_mk


theorem lossLog_kept {pq : List Instr} (off : Nat) (fid : Nat) (s : State) (h_s : Kept pq s) : Kept pq (lossLog off fid s) := by
  unfold lossLog
  repeat' with_reducible first
    | assumption | apply slogAdd_kept | dsimp only


theorem makeUnreachable_kept {pq : List Instr} (dst : Nat) (s : State) (h_s : Kept pq s) : Kept pq (makeUnreachable dst s) := by
  unfold makeUnreachable
  repeat' with_reducible first
    | intro _ | assumption | apply kept_foldl | apply kept_foldl_snd | apply kept_foldl_snd2 | apply kept_foldl_fst
    | apply bumpN_kept | apply pauseCopy_kept | apply raiseNonfinite_kept | apply lossLog_kept | apply kept_ite
    | split | dsimp only | apply kept_mk


theorem sendLoose_kept {pq : List Instr} (kind : Nat) (dst : Nat) (seq : Nat) (last : Bool) (idx : Nat) (payload : List Byte) (s : State) (h_s : Kept pq s) : Kept pq (sendLoose kind dst seq last idx payload s) := by
  unfold sendLoose
  repeat' with_reducible first
    | assumption | apply bump_kept | apply transmit_kept | apply kept_ite | split | dsimp only
    | refine kept_snd (by assumption) ?_ | refine kept_snd2 (by assumption) ?_ | refine kept_fst (by assumption) ?_
    | refine kept_some (by assumption) ?_ | apply kept_mk


theorem sendAck_kept {pq : List Instr} (dst : Nat) (prio : Nat) (seq : Nat) (s : State) (h_s : Kept pq s) : Kept pq (sendAck dst prio seq s) := by
  unfold sendAck
  repeat' with_reducible first
    | assumption | apply sendLoose_kept | dsimp only


theorem sendNack_kept {pq : List Instr} (dst : Nat) (prio : Nat) (seq : Nat) (restart : Bool) (s : State) (h_s : Kept pq s) : Kept pq (sendNack dst prio seq restart s) := by
  unfold sendNack
  repeat' with_reducible first
    | assumption | apply sendLoose_kept | dsimp only


theorem sendFlow_kept {pq : List Instr} (hd : Head) (cls : Nat) (payload : List Byte) (s : State) (h_s : Kept pq s) : Kept pq (sendFlow hd cls payload s).2 := by
  unfold sendFlow
  repeat' with_reducible first
    | intro _ | assumption | apply bump_kept | apply transmit_kept | apply setTx_kept | apply makeUnreachable_kept
    | apply kept_ite | split | dsimp only | refine kept_snd (by assumption) ?_ | refine kept_snd2 (by assumption) ?_
    | refine kept_fst (by assumption) ?_ | refine kept_some (by assumption) ?_ | apply kept_mk


theorem sendFrame_kept {pq : List Instr} (hd : Head) (cls : Nat) (payload : List Byte) (s : State) (h_s : Kept pq s) : Kept pq (sendFrame hd cls payload s).2 := by
  unfold sendFrame
  repeat' with_reducible first
    | intro _ | assumption | apply kept_foldl | apply bump_kept | apply transmit_kept | apply lossLog_kept
    | apply sendFlow_kept | apply kept_ite | split | dsimp only | apply kept_mk


theorem sendCtrl_kept {pq : List Instr} (dst : Nat) (handle : Nat) (code : Nat) (idx : Nat) (params : List Byte) (s : State) (h_s : Kept pq s) : Kept pq (sendCtrl dst handle code idx params s) := by
  unfold sendCtrl
  repeat' with_reducible first
    | assumption | apply sendFrame_kept | dsimp only


theorem resendFrom_kept {pq : List Instr} (dst : Nat) (prio : Nat) (seq : Nat) (s : State) (h_s : Kept pq s) : Kept pq (resendFrom dst prio seq s) := by
  unfold resendFrom
  repeat' with_reducible first
    | intro _ | assumption | apply kept_foldl | apply kept_foldl_snd | apply kept_foldl_snd2 | apply kept_foldl_fst
    | apply bump_kept | apply transmit_kept | apply setTx_kept | split | dsimp only
    | refine kept_snd (by assumption) ?_ | refine kept_snd2 (by assumption) ?_ | refine kept_fst (by assumption) ?_
    | refine kept_some (by assumption) ?_ | apply kept_mk


theorem restartFlow_kept {pq : List Instr} (dst : Nat) (prio : Nat) (s : State) (h_s : Kept pq s) : Kept pq (restartFlow dst prio s) := by
  unfold restartFlow
  repeat' with_reducible first
    | intro _ | assumption | apply setTx_kept | apply resendFrom_kept | split | dsimp only
    | refine kept_snd (by assumption) ?_ | refine kept_snd2 (by assumption) ?_ | refine kept_fst (by assumption) ?_
    | refine kept_some (by assumption) ?_ | apply kept_mk


theorem repinFlow_kept {pq : List Instr} (dst : Nat) (prio : Nat) (s : State) (h_s : Kept pq s) : Kept pq (repinFlow dst prio s) := by
  unfold repinFlow
  repeat' with_reducible first
    | assumption | apply setTx_kept | apply makeUnreachable_kept | apply resendFrom_kept | split | dsimp only
    | refine kept_snd (by assumption) ?_ | refine kept_snd2 (by assumption) ?_ | refine kept_fst (by assumption) ?_
    | refine kept_some (by assumption) ?_ | apply kept_mk


theorem movePortFlows_kept {pq : List Instr} (p : Nat) (s : State) (h_s : Kept pq s) : Kept pq (movePortFlows p s) := by
  unfold movePortFlows
  repeat' with_reducible first
    | intro _ | assumption | apply kept_foldl | apply kept_foldl_snd | apply kept_foldl_snd2 | apply kept_foldl_fst
    | apply repinFlow_kept | apply kept_ite | split | dsimp only | refine kept_snd (by assumption) ?_
    | refine kept_snd2 (by assumption) ?_ | refine kept_fst (by assumption) ?_ | refine kept_some (by assumption) ?_
    | apply kept_mk


theorem forgivePort_kept {pq : List Instr} (p : Nat) (s : State) (h_s : Kept pq s) : Kept pq (forgivePort p s) := by
  unfold forgivePort
  repeat' with_reducible first
    | intro _ | assumption | dsimp only | apply kept_mk


theorem portDown_kept {pq : List Instr} (p : Nat) (st : Nat) (s : State) (h_s : Kept pq s) : Kept pq (portDown p st s) := by
  unfold portDown
  repeat' with_reducible first
    | assumption | apply bump_kept | apply setPort_kept | apply movePortFlows_kept | apply kept_ite | split
    | dsimp only | apply kept_mk


theorem portCfgSet_kept {pq : List Instr} (p : Nat) (v : Nat) (s : State) (h_s : Kept pq s) : Kept pq (portCfgSet p v s) := by
  unfold portCfgSet
  repeat' with_reducible first
    | assumption | apply setReg_kept | apply setPort_kept | apply portDown_kept | apply kept_ite | split | dsimp only
    | apply kept_mk


theorem buddySet_kept {pq : List Instr} (v : Nat) (s : State) (h_s : Kept pq s) : Kept pq (buddySet v s) := by
  unfold buddySet
  repeat' with_reducible first
    | assumption | apply setReg_kept | apply kept_ite | split | dsimp only | apply kept_mk


theorem ackFlow_kept {pq : List Instr} (dst : Nat) (prio : Nat) (seq : Nat) (s : State) (h_s : Kept pq s) : Kept pq (ackFlow dst prio seq s) := by
  unfold ackFlow
  repeat' with_reducible first
    | intro _ | assumption | apply kept_foldl | apply kept_foldl_snd | apply kept_foldl_snd2 | apply kept_foldl_fst
    | apply setPort_kept | apply pumpPort_kept | apply setTx_kept | split | dsimp only
    | refine kept_snd (by assumption) ?_ | refine kept_snd2 (by assumption) ?_ | refine kept_fst (by assumption) ?_
    | refine kept_some (by assumption) ?_ | apply kept_mk


end Sys2Proof.Machine
end

