-- ==== Sys2Proof/Laws/KeptColl.lean ====
section
/-!
SUPPORT. The functions of Machine/Coll.lean keep the queue and the canonical form of memory.
-/
namespace Sys2Proof.Machine

theorem setHandle_kept {pq : List Instr} (n : Nat) (hd : Option Handle) (s : State) (h_s : Kept pq s) : Kept pq (setHandle n hd s) := by
  unfold setHandle
  repeat' with_reducible first
    | assumption | dsimp only | apply kept_mk


theorem setRun_kept {pq : List Instr} (n : Nat) (r : Option Run) (s : State) (h_s : Kept pq s) : Kept pq (setRun n r s) := by
  unfold setRun
  repeat' with_reducible first
    | assumption | apply setHandle_kept | split | dsimp only | refine kept_snd (by assumption) ?_
    | refine kept_snd2 (by assumption) ?_ | refine kept_fst (by assumption) ?_ | refine kept_some (by assumption) ?_
    | apply kept_mk


theorem colEvent_kept {pq : List Instr} (ev : Nat) (handle : Nat) (fid : Nat) (s : State) (h_s : Kept pq s) : Kept pq (colEvent ev handle fid s) := by
  unfold colEvent
  repeat' with_reducible first
    | assumption | apply setReg_kept | apply kept_ite | split | dsimp only


theorem setStageQueue_kept {pq : List Instr} (hd : Nat) (q : StageQueue) (s : State) (h_s : Kept pq s) : Kept pq (setStageQueue hd q s) := by
  unfold setStageQueue
  repeat' with_reducible first
    | assumption | dsimp only | apply kept_mk


theorem queueArrive_kept {pq : List Instr} (hd : Nat) (off : Nat) (gen : Bool) (data : List Byte) (s : State) (h_s : Kept pq s) : Kept pq (queueArrive hd off gen data s) := by
  unfold queueArrive
  repeat' with_reducible first
    | assumption | apply bump_kept | apply sendToken_kept | apply raiseNonfinite_kept | apply writeTo_kept
    | apply setStageQueue_kept | apply kept_ite | split | dsimp only | refine kept_snd (by assumption) ?_
    | refine kept_snd2 (by assumption) ?_ | refine kept_fst (by assumption) ?_ | refine kept_some (by assumption) ?_
    | apply kept_mk


theorem execQueueEntryArrival_kept {pq : List Instr} (handle : W16) (offset : W32) (len : W32) (gen : Bool) (data : List Byte) (s : State) (h_s : Kept pq s) : KeptO pq (execQueueEntryArrival handle offset len gen data s) := by
  unfold execQueueEntryArrival
  repeat' with_reducible first
    | intro _ | assumption | apply kept_next | apply bump_kept | apply raiseNonfinite_kept | apply queueArrive_kept
    | apply kept_ite | split | dsimp only


theorem execQueueCreditReturn_kept {pq : List Instr} (src : Byte) (credit : W32) (s : State) (h_s : Kept pq s) : KeptO pq (execQueueCreditReturn src credit s) := by
  unfold execQueueCreditReturn
  repeat' with_reducible first
    | intro _ | assumption | apply kept_next | apply bump_kept | apply send_kept | apply arrive_kept
    | apply sendFrame_kept | apply setStageQueue_kept | apply kept_ite | split | dsimp only
    | refine kept_snd (by assumption) ?_ | refine kept_snd2 (by assumption) ?_ | refine kept_fst (by assumption) ?_
    | refine kept_some (by assumption) ?_ | apply kept_mk


theorem combineMem_kept {pq : List Instr} (op : Nat) (l : Nat) (off : Nat) (data : List Byte) (s : State) (h_s : Kept pq s) : Kept pq (combineMem op l off data s) := by
  unfold combineMem
  repeat' with_reducible first
    | intro _ | assumption | apply kept_foldl | apply countUnmapped_kept | apply collWord_kept | apply kept_ite
    | split | dsimp only


theorem mergeNodes_kept {pq : List Instr} (hn : Nat) (hd : Handle) (i : Nat) (off : Nat) (data : List Byte) (s : State) (h_s : Kept pq s) : Kept pq (mergeNodes hn hd i off data s) := by
  unfold mergeNodes
  repeat' with_reducible first
    | intro _ | assumption | apply kept_foldl | apply kept_foldl_snd | apply kept_foldl_snd2 | apply kept_foldl_fst
    | apply writeTo_kept | apply setRun_kept | apply kept_ite | split | dsimp only
    | refine kept_snd (by assumption) ?_ | refine kept_snd2 (by assumption) ?_ | refine kept_fst (by assumption) ?_
    | refine kept_some (by assumption) ?_ | apply kept_mk


theorem ownerAdd_kept {pq : List Instr} (hn : Nat) (hd : Handle) (i : Nat) (e : Nat) (gen : Bool) (form : Contribution) (data : List Byte) (s : State) (h_s : Kept pq s) : Kept pq (ownerAdd hn hd i e gen form data s) := by
  unfold ownerAdd
  repeat' with_reducible first
    | intro _ | assumption | apply bumpN_kept | apply raiseNonfinite_kept | apply writeTo_kept | apply gridAdd_kept
    | apply setRun_kept | apply colEvent_kept | apply combineMem_kept | apply mergeNodes_kept | apply kept_ite | split
    | dsimp only | refine kept_snd (by assumption) ?_ | refine kept_snd2 (by assumption) ?_
    | refine kept_fst (by assumption) ?_ | refine kept_some (by assumption) ?_ | apply kept_mk


theorem noteLast_kept {pq : List Instr} (hn : Nat) (i : Nat) (s : State) (h_s : Kept pq s) : Kept pq (noteLast hn i s) := by
  unfold noteLast
  repeat' with_reducible first
    | assumption | apply setRun_kept | apply kept_ite | split | dsimp only | refine kept_snd (by assumption) ?_
    | refine kept_snd2 (by assumption) ?_ | refine kept_fst (by assumption) ?_ | refine kept_some (by assumption) ?_
    | apply kept_mk


theorem sendPiece_kept {pq : List Instr} (hn : Nat) (hd : Handle) (j : Nat) (e : Nat) (last : Bool) (data : List Byte) (marks : List Bool) (s : State) (h_s : Kept pq s) : Kept pq (sendPiece hn hd j e last data marks s) := by
  unfold sendPiece
  repeat' with_reducible first
    | intro _ | assumption | apply kept_foldl | apply kept_foldl_snd | apply kept_foldl_snd2 | apply kept_foldl_fst
    | apply writeTo_kept | apply sendFrame_kept | apply ownerAdd_kept | apply noteLast_kept | apply kept_ite | split
    | dsimp only | refine kept_snd (by assumption) ?_ | refine kept_snd2 (by assumption) ?_
    | refine kept_fst (by assumption) ?_ | refine kept_some (by assumption) ?_ | apply kept_mk


theorem sendPieces_kept {pq : List Instr} (hn : Nat) (hd : Handle) (b0 : Nat) (b1 : Nat) (b2 : List Byte) (b3 : List Bool) (b4 : State) (h_b4 : Kept pq b4) : Kept pq (sendPieces hn hd b0 b1 b2 b3 b4) := by
  induction b0 generalizing b1 b2 b3 b4 with
  | zero => unfold sendPieces; assumption
  | succ n ih =>
    unfold sendPieces
    repeat' with_reducible first
      | intro _ | apply ih | assumption | apply setRun_kept | apply sendPiece_kept | apply kept_ite | split
      | dsimp only | refine kept_snd (by assumption) ?_ | refine kept_snd2 (by assumption) ?_
      | refine kept_fst (by assumption) ?_ | refine kept_some (by assumption) ?_ | apply kept_mk


theorem routeRows_kept {pq : List Instr} (hn : Nat) (hd : Handle) (rows : List (W16 × List Byte)) (s : State) (h_s : Kept pq s) : Kept pq (routeRows hn hd rows s) := by
  unfold routeRows
  repeat' with_reducible first
    | intro _ | assumption | apply kept_foldl | apply kept_foldl_snd | apply kept_foldl_snd2 | apply kept_foldl_fst
    | apply bump_kept | apply raiseNonfinite_kept | apply sendPieces_kept | apply kept_ite | split | dsimp only


theorem contribute_kept {pq : List Instr} (hn : Nat) (off : Nat) (data : List Byte) (marks : List Bool) (s : State) (h_s : Kept pq s) : Kept pq (contribute hn off data marks s) := by
  unfold contribute
  repeat' with_reducible first
    | assumption | apply setHandle_kept | apply setRun_kept | apply sendPieces_kept | apply kept_ite | split
    | dsimp only | refine kept_snd (by assumption) ?_ | refine kept_snd2 (by assumption) ?_
    | refine kept_fst (by assumption) ?_ | refine kept_some (by assumption) ?_ | apply kept_mk


theorem excludeMember_kept {pq : List Instr} (hn : Nat) (i : Nat) (ev : Nat) (s : State) (h_s : Kept pq s) : Kept pq (excludeMember hn i ev s) := by
  unfold excludeMember
  repeat' with_reducible first
    | assumption | apply bump_kept | apply setRun_kept | apply colEvent_kept | apply kept_ite | split | dsimp only
    | refine kept_snd (by assumption) ?_ | refine kept_snd2 (by assumption) ?_ | refine kept_fst (by assumption) ?_
    | refine kept_some (by assumption) ?_ | apply kept_mk


theorem poisonExtents_kept {pq : List Instr} (xs : List Nat) (s : State) (h_s : Kept pq s) : Kept pq (poisonExtents xs s) := by
  unfold poisonExtents
  repeat' with_reducible first
    | intro _ | assumption | apply kept_foldl | apply kept_foldl_snd | apply kept_foldl_snd2 | apply kept_foldl_fst
    | apply corbelStore_kept | split | dsimp only | refine kept_snd (by assumption) ?_
    | refine kept_snd2 (by assumption) ?_ | refine kept_fst (by assumption) ?_ | refine kept_some (by assumption) ?_
    | apply kept_mk


theorem partLost_kept {pq : List Instr} (hn : Nat) (j : Nat) (xs : List Nat) (s : State) (h_s : Kept pq s) : Kept pq (partLost hn j xs s) := by
  unfold partLost
  repeat' with_reducible first
    | assumption | apply setRun_kept | apply colEvent_kept | apply poisonExtents_kept | apply kept_ite | split
    | dsimp only | refine kept_snd (by assumption) ?_ | refine kept_snd2 (by assumption) ?_
    | refine kept_fst (by assumption) ?_ | refine kept_some (by assumption) ?_ | apply kept_mk


theorem loseOwn_kept {pq : List Instr} (hn : Nat) (hd : Handle) (s : State) (h_s : Kept pq s) : Kept pq (loseOwn hn hd s) := by
  unfold loseOwn
  repeat' with_reducible first
    | intro _ | assumption | apply kept_foldl | apply sendCtrl_kept | apply partLost_kept | apply kept_ite | split
    | dsimp only


theorem withdrawRun_kept {pq : List Instr} (hn : Nat) (hd : Handle) (s : State) (h_s : Kept pq s) : Kept pq (withdrawRun hn hd s) := by
  unfold withdrawRun
  repeat' with_reducible first
    | intro _ | assumption | apply kept_foldl | apply sendCtrl_kept | apply setRun_kept | apply loseOwn_kept
    | apply kept_ite | split | dsimp only | refine kept_snd (by assumption) ?_ | refine kept_snd2 (by assumption) ?_
    | refine kept_fst (by assumption) ?_ | refine kept_some (by assumption) ?_ | apply kept_mk


theorem withdraw_kept {pq : List Instr} (gradient : Bool) (s : State) (h_s : Kept pq s) : Kept pq (withdraw gradient s) := by
  unfold withdraw
  repeat' with_reducible first
    | intro _ | assumption | apply kept_foldl | apply kept_foldl_snd | apply kept_foldl_snd2 | apply kept_foldl_fst
    | apply withdrawRun_kept | apply kept_ite | split | dsimp only | apply kept_mk


theorem loseOwnParts_kept {pq : List Instr} (k : Nat) (s : State) (h_s : Kept pq s) : Kept pq (loseOwnParts k s) := by
  unfold loseOwnParts
  repeat' with_reducible first
    | intro _ | assumption | apply kept_foldl | apply kept_foldl_snd | apply kept_foldl_snd2 | apply kept_foldl_fst
    | apply loseOwn_kept | apply kept_ite | split | dsimp only


theorem excludeUnreachable_kept {pq : List Instr} (fid : Nat) (s : State) (h_s : Kept pq s) : Kept pq (excludeUnreachable fid s) := by
  unfold excludeUnreachable
  repeat' with_reducible first
    | intro _ | assumption | apply kept_foldl | apply kept_foldl_snd | apply kept_foldl_snd2 | apply kept_foldl_fst
    | apply excludeMember_kept | split | dsimp only | refine kept_snd (by assumption) ?_
    | refine kept_snd2 (by assumption) ?_ | refine kept_fst (by assumption) ?_ | refine kept_some (by assumption) ?_
    | apply kept_mk


theorem excludeAllUnreachable_kept {pq : List Instr} (s : State) (h_s : Kept pq s) : Kept pq (excludeAllUnreachable s) := by
  unfold excludeAllUnreachable
  repeat' with_reducible first
    | intro _ | assumption | apply kept_foldl | apply excludeUnreachable_kept | dsimp only


theorem beginRuns_kept {pq : List Instr} (nb : Nat) (s : State) (h_s : Kept pq s) : Kept pq (beginRuns nb s) := by
  unfold beginRuns
  repeat' with_reducible first
    | intro _ | assumption | apply kept_ite | split | dsimp only | apply kept_mk


theorem execCollectiveStart_kept {pq : List Instr} (start : RunStart) (s : State) (h_s : Kept pq s) : KeptO pq (execCollectiveStart start s) := by
  unfold execCollectiveStart
  repeat' with_reducible first
    | intro _ | assumption | apply kept_next | apply kept_foldl | apply kept_foldl_snd | apply kept_foldl_snd2
    | apply kept_foldl_fst | apply sendCtrl_kept | apply setRun_kept | apply sendPieces_kept | apply routeRows_kept
    | apply withdrawRun_kept | apply kept_ite | split | dsimp only | refine kept_snd (by assumption) ?_
    | refine kept_snd2 (by assumption) ?_ | refine kept_fst (by assumption) ?_ | refine kept_some (by assumption) ?_
    | apply kept_mk


theorem sendResults_kept {pq : List Instr} (hn : Nat) (hd : Handle) (dst : Nat) (s : State) (h_s : Kept pq s) : Kept pq (sendResults hn hd dst s) := by
  unfold sendResults
  repeat' with_reducible first
    | intro _ | assumption | apply kept_foldl | apply kept_foldl_snd | apply kept_foldl_snd2 | apply kept_foldl_fst
    | apply readDev_kept | apply readAccs_kept | apply sendFrame_kept | apply kept_ite | split | dsimp only
    | refine kept_snd (by assumption) ?_ | refine kept_snd2 (by assumption) ?_ | refine kept_fst (by assumption) ?_
    | refine kept_some (by assumption) ?_ | apply kept_mk


theorem execPartComplete_kept {pq : List Instr} (handle : W16) (s0 : State) (h_s0 : Kept pq s0) : KeptO pq (execPartComplete handle s0) := by
  unfold execPartComplete
  repeat' with_reducible first
    | intro _ | assumption | apply kept_next | apply kept_foldl | apply setRun_kept | apply excludeAllUnreachable_kept
    | apply sendResults_kept | apply kept_ite | split | dsimp only | refine kept_snd (by assumption) ?_
    | refine kept_snd2 (by assumption) ?_ | refine kept_fst (by assumption) ?_ | refine kept_some (by assumption) ?_
    | apply kept_mk


theorem execCollectiveComplete_kept {pq : List Instr} (handle : W16) (s0 : State) (h_s0 : Kept pq s0) : KeptO pq (execCollectiveComplete handle s0) := by
  unfold execCollectiveComplete
  repeat' with_reducible first
    | intro _ | assumption | apply kept_next | apply kept_foldl | apply bump_kept | apply postReply_kept
    | apply sendToken_kept | apply writeTo_kept | apply setHandle_kept | apply excludeAllUnreachable_kept
    | apply kept_ite | split | dsimp only | refine kept_snd (by assumption) ?_ | refine kept_snd2 (by assumption) ?_
    | refine kept_fst (by assumption) ?_ | refine kept_some (by assumption) ?_ | apply kept_mk


theorem execWaitMaxExpiry_kept {pq : List Instr} (handle : W16) (member : W16) (s : State) (h_s : Kept pq s) : KeptO pq (execWaitMaxExpiry handle member s) := by
  unfold execWaitMaxExpiry
  repeat' with_reducible first
    | assumption | apply kept_next | apply excludeMember_kept | apply kept_ite | split | dsimp only
    | refine kept_snd (by assumption) ?_ | refine kept_snd2 (by assumption) ?_ | refine kept_fst (by assumption) ?_
    | refine kept_some (by assumption) ?_ | apply kept_mk


theorem kCollSetup_kept {pq : List Instr} (hd : CmdHdr) (s : State) (h_s : Kept pq s) : Kept pq (kCollSetup hd s).s := by
  unfold kCollSetup
  repeat' with_reducible first
    | assumption | apply kOk_kept | apply kFail_kept | apply setHandle_kept | apply kept_ite | split | dsimp only
    | refine kept_snd (by assumption) ?_ | refine kept_snd2 (by assumption) ?_ | refine kept_fst (by assumption) ?_
    | refine kept_some (by assumption) ?_ | apply kept_mk


theorem kCollFree_kept {pq : List Instr} (x0 : CmdHdr) (handle : W16) (s : State) (h_s : Kept pq s) : Kept pq (kCollFree x0 handle s).s := by
  unfold kCollFree
  repeat' with_reducible first
    | assumption | apply kOk_kept | apply kFail_kept | apply setHandle_kept | apply kept_ite | split | dsimp only
    | refine kept_snd (by assumption) ?_ | refine kept_snd2 (by assumption) ?_ | refine kept_fst (by assumption) ?_
    | refine kept_some (by assumption) ?_ | apply kept_mk


theorem kCollRun_kept {pq : List Instr} (hd : CmdHdr) (handle : W16) (s : State) (h_s : Kept pq s) : Kept pq (kCollRun hd handle s).s := by
  unfold kCollRun
  repeat' with_reducible first
    | assumption | apply kFail_kept | apply kDefer_kept | apply setHandle_kept | apply kept_ite | split | dsimp only
    | refine kept_snd (by assumption) ?_ | refine kept_snd2 (by assumption) ?_ | refine kept_fst (by assumption) ?_
    | refine kept_some (by assumption) ?_ | apply kept_mk


theorem kCollQuery_kept {pq : List Instr} (hd : CmdHdr) (handle : W16) (buf : Buf) (s : State) (h_s : Kept pq s) : Kept pq (kCollQuery hd handle buf s).s := by
  unfold kCollQuery
  repeat' with_reducible first
    | assumption | apply kFail_kept | apply withBuf_kept | apply deliver_kept | split | dsimp only
    | refine kept_snd (by assumption) ?_ | refine kept_snd2 (by assumption) ?_ | refine kept_fst (by assumption) ?_
    | refine kept_some (by assumption) ?_ | apply kept_id | apply kept_mk


theorem kQueueLoad_kept {pq : List Instr} (hd : CmdHdr) (s : State) (h_s : Kept pq s) : Kept pq (kQueueLoad hd s).s := by
  unfold kQueueLoad
  repeat' with_reducible first
    | intro _ | assumption | apply kept_foldl | apply kept_foldl_snd | apply kept_foldl_snd2 | apply kept_foldl_fst
    | apply kOk_kept | apply kFail_kept | apply kept_ite | split | dsimp only | refine kept_snd (by assumption) ?_
    | refine kept_snd2 (by assumption) ?_ | refine kept_fst (by assumption) ?_ | refine kept_some (by assumption) ?_
    | apply kept_mk


theorem kQueueStats_kept {pq : List Instr} (hd : CmdHdr) (first : W16) (n : W16) (buf : Buf) (s : State) (h_s : Kept pq s) : Kept pq (kQueueStats hd first n buf s).s := by
  unfold kQueueStats
  repeat' with_reducible first
    | intro _ | assumption | apply kept_foldl | apply kept_foldl_snd | apply kept_foldl_snd2 | apply kept_foldl_fst
    | apply withBuf_kept | apply deliver_kept | apply setStageQueue_kept | split | dsimp only
    | refine kept_snd (by assumption) ?_ | refine kept_snd2 (by assumption) ?_ | refine kept_fst (by assumption) ?_
    | refine kept_some (by assumption) ?_ | apply kept_mk


theorem kExpertTableLoad_kept {pq : List Instr} (hd : CmdHdr) (s : State) (h_s : Kept pq s) : Kept pq (kExpertTableLoad hd s).s := by
  unfold kExpertTableLoad
  repeat' with_reducible first
    | intro _ | assumption | apply kOk_kept | apply kFail_kept | apply kept_ite | split | dsimp only
    | refine kept_snd (by assumption) ?_ | refine kept_snd2 (by assumption) ?_ | refine kept_fst (by assumption) ?_
    | refine kept_some (by assumption) ?_ | apply kept_mk


theorem kJobGroups_kept {pq : List Instr} (hd : CmdHdr) (s : State) (h_s : Kept pq s) : Kept pq (kJobGroups hd s).s := by
  unfold kJobGroups
  repeat' with_reducible first
    | intro _ | assumption | apply kOk_kept | apply kFail_kept | apply kept_ite | split | dsimp only
    | refine kept_snd (by assumption) ?_ | refine kept_snd2 (by assumption) ?_ | refine kept_fst (by assumption) ?_
    | refine kept_some (by assumption) ?_ | apply kept_mk


end Sys2Proof.Machine
end

