-- ==== Sys2Proof/Laws/KeptGather.lean ====
section
/-!
SUPPORT. The functions of Machine/Gather.lean keep the queue and the canonical form of memory.
-/
namespace Sys2Proof.Machine

theorem setGather_kept {pq : List Instr} (p : Nat) (slot : Nat) (g : Gather) (s : State) (h_s : Kept pq s) : Kept pq (setGather p slot g s) := by
  unfold setGather
  repeat' with_reducible first
    | assumption | apply setPier_kept | dsimp only | apply kept_mk


theorem gatherEvict_kept {pq : List Instr} (p : Nat) (n : Nat) (b0 : Nat) (b1 : State) (h_b1 : Kept pq b1) : Kept pq (gatherEvict p n b0 b1) := by
  induction b0 generalizing b1 with
  | zero => unfold gatherEvict; assumption
  | succ n ih =>
    unfold gatherEvict
    repeat' with_reducible first
      | assumption | apply ih | apply bump_kept | apply freePages_kept | apply setGather_kept | apply kept_ite | split
      | dsimp only | refine kept_snd (by assumption) ?_ | refine kept_snd2 (by assumption) ?_
      | refine kept_fst (by assumption) ?_ | refine kept_some (by assumption) ?_ | apply kept_mk


theorem gatherRun_kept {pq : List Instr} (hn : Nat) (s : State) (h_s : Kept pq s) : Kept pq (gatherRun hn s) := by
  unfold gatherRun
  repeat' with_reducible first
    | assumption | apply emit_kept | apply setHandle_kept | apply kept_ite | split | dsimp only
    | refine kept_snd (by assumption) ?_ | refine kept_snd2 (by assumption) ?_ | refine kept_fst (by assumption) ?_
    | refine kept_some (by assumption) ?_ | apply kept_mk


theorem gatherStart_kept {pq : List Instr} (p : Nat) (slot : Nat) (s : State) (h_s : Kept pq s) : Kept pq (gatherStart p slot s) := by
  unfold gatherStart
  repeat' with_reducible first
    | assumption | apply bump_kept | apply takePages_kept | apply pickRun_kept | apply setGather_kept
    | apply gatherEvict_kept | apply gatherRun_kept | apply kept_ite | split | dsimp only
    | refine kept_snd (by assumption) ?_ | refine kept_snd2 (by assumption) ?_ | refine kept_fst (by assumption) ?_
    | refine kept_some (by assumption) ?_ | apply kept_mk


theorem gatherReply_kept {pq : List Instr} (p : Nat) (g : Gather) (s : State) (h_s : Kept pq s) : Kept pq (gatherReply p g s) := by
  unfold gatherReply
  repeat' with_reducible first
    | assumption | apply sendToken_kept | dsimp only


theorem execGatherAcquire_kept {pq : List Instr} (token : W64) (s : State) (h_s : Kept pq s) : KeptO pq (execGatherAcquire token s) := by
  unfold execGatherAcquire
  repeat' with_reducible first
    | assumption | apply kept_next | apply bump_kept | apply arrive_kept | apply setGather_kept
    | apply gatherStart_kept | apply gatherReply_kept | apply kept_ite | split | dsimp only
    | refine kept_snd (by assumption) ?_ | refine kept_snd2 (by assumption) ?_ | refine kept_fst (by assumption) ?_
    | refine kept_some (by assumption) ?_ | apply kept_mk


theorem gatherRetry_kept {pq : List Instr} (p : Nat) (s : State) (h_s : Kept pq s) : Kept pq (gatherRetry p s) := by
  unfold gatherRetry
  repeat' with_reducible first
    | intro _ | assumption | apply kept_foldl | apply gatherStart_kept | apply kept_ite | split | dsimp only
    | refine kept_snd (by assumption) ?_ | refine kept_snd2 (by assumption) ?_ | refine kept_fst (by assumption) ?_
    | refine kept_some (by assumption) ?_ | apply kept_mk


theorem execGatherRelease_kept {pq : List Instr} (token : W64) (s : State) (h_s : Kept pq s) : KeptO pq (execGatherRelease token s) := by
  unfold execGatherRelease
  repeat' with_reducible first
    | assumption | apply kept_next | apply arrive_kept | apply setGather_kept | apply gatherRetry_kept
    | apply kept_ite | split | dsimp only | refine kept_snd (by assumption) ?_ | refine kept_snd2 (by assumption) ?_
    | refine kept_fst (by assumption) ?_ | refine kept_some (by assumption) ?_ | apply kept_mk


theorem execGatherFillComplete_kept {pq : List Instr} (pier : BitVec 2) (slot : BitVec 6) (data : List Byte) (s : State) (h_s : Kept pq s) : KeptO pq (execGatherFillComplete pier slot data s) := by
  unfold execGatherFillComplete
  repeat' with_reducible first
    | intro _ | assumption | apply kept_next | apply kept_foldl | apply setPier_kept | apply writeTo_kept
    | apply setGather_kept | apply gatherReply_kept | apply kept_ite | split | dsimp only
    | refine kept_snd (by assumption) ?_ | refine kept_snd2 (by assumption) ?_ | refine kept_fst (by assumption) ?_
    | refine kept_some (by assumption) ?_ | apply kept_mk


theorem gatherReset_kept {pq : List Instr} (s : State) (h_s : Kept pq s) : Kept pq (gatherReset s) := by
  unfold gatherReset
  repeat' with_reducible first
    | intro _ | assumption | apply kept_foldl | apply kept_foldl_snd | apply kept_foldl_snd2 | apply kept_foldl_fst
    | apply setPier_kept | dsimp only | apply kept_mk


end Sys2Proof.Machine
end

