-- ==== Sys2Proof/Laws/KeptCkpt.lean ====
section
/-!
SUPPORT. The functions of Machine/Ckpt.lean keep the queue and the canonical form of memory.
-/
namespace Sys2Proof.Machine

theorem npxEvent_kept {pq : List Instr} (ev : Nat) (site : Nat) (s : State) (h_s : Kept pq s) : Kept pq (npxEvent ev site s) := by
  unfold npxEvent
  repeat' with_reducible first
    | assumption | apply setReg_kept | apply kept_ite | split | dsimp only


theorem applyFwRecords_kept {pq : List Instr} (bs : List Byte) (s : State) (h_s : Kept pq s) : Kept pq (applyFwRecords bs s) := by
  unfold applyFwRecords
  repeat' with_reducible first
    | intro _ | assumption | apply kept_foldl | apply kept_foldl_snd | apply kept_foldl_snd2 | apply kept_foldl_fst
    | apply setTensor_kept | apply modGroup_kept | split | dsimp only | refine kept_snd (by assumption) ?_
    | refine kept_snd2 (by assumption) ?_ | refine kept_fst (by assumption) ?_ | refine kept_some (by assumption) ?_
    | apply kept_mk


theorem dropHistories_kept {pq : List Instr} (s : State) (h_s : Kept pq s) : Kept pq (dropHistories s) := by
  unfold dropHistories
  repeat' with_reducible first
    | intro _ | assumption | dsimp only | apply kept_mk


theorem readItem_kept {pq : List Instr} (e : Nat) (s : State) (h_s : Kept pq s) : Kept pq (readItem e s).2 := by
  unfold readItem
  repeat' with_reducible first
    | assumption | apply readDev_kept | split | dsimp only | refine kept_snd (by assumption) ?_
    | refine kept_snd2 (by assumption) ?_ | refine kept_fst (by assumption) ?_ | refine kept_some (by assumption) ?_


theorem readItems_kept {pq : List Instr} (items : List Nat) (s : State) (h_s : Kept pq s) : Kept pq (readItems items s).2 := by
  unfold readItems
  repeat' with_reducible first
    | intro _ | assumption | apply kept_foldl | apply kept_foldl_snd | apply kept_foldl_snd2 | apply kept_foldl_fst
    | apply readItem_kept | split | dsimp only | refine kept_snd (by assumption) ?_
    | refine kept_snd2 (by assumption) ?_ | refine kept_fst (by assumption) ?_ | refine kept_some (by assumption) ?_


theorem sendSector_kept {pq : List Instr} (j : Nat) (k : Nat) (data : List Byte) (s : State) (h_s : Kept pq s) : Kept pq (sendSector j k data s) := by
  unfold sendSector
  repeat' with_reducible first
    | assumption | apply sendFrame_kept | dsimp only


theorem askBuddy_kept {pq : List Instr} (s : State) (h_s : Kept pq s) : Kept pq (askBuddy s) := by
  unfold askBuddy
  repeat' with_reducible first
    | assumption | apply sendCtrl_kept | apply kept_ite | split | dsimp only


theorem sendCopy_kept {pq : List Instr} (c : Copy) (s : State) (h_s : Kept pq s) : Kept pq (sendCopy c s) := by
  unfold sendCopy
  repeat' with_reducible first
    | intro _ | assumption | apply kept_foldl | apply kept_foldl_snd | apply kept_foldl_snd2 | apply kept_foldl_fst
    | apply readItems_kept | apply sendSector_kept | split | dsimp only | refine kept_snd (by assumption) ?_
    | refine kept_snd2 (by assumption) ?_ | refine kept_fst (by assumption) ?_ | refine kept_some (by assumption) ?_
    | apply kept_mk


theorem startCopy_kept {pq : List Instr} (outer : Nat) (step : Nat) (s : State) (h_s : Kept pq s) : Kept pq (startCopy outer step s) := by
  unfold startCopy
  repeat' with_reducible first
    | assumption | apply pauseCopy_kept | apply askBuddy_kept | apply sendCopy_kept | apply kept_ite | split
    | dsimp only | apply kept_mk


theorem execCkptCopyComplete_kept {pq : List Instr} (s : State) (h_s : Kept pq s) : KeptO pq (execCkptCopyComplete s) := by
  unfold execCkptCopyComplete
  repeat' with_reducible first
    | intro _ | assumption | apply kept_next | apply faultEvent_kept | apply sendSector_kept | apply kept_ite | split
    | dsimp only | refine kept_snd (by assumption) ?_ | refine kept_snd2 (by assumption) ?_
    | refine kept_fst (by assumption) ?_ | refine kept_some (by assumption) ?_ | apply kept_mk


theorem execCkptPauseRetry_kept {pq : List Instr} (s : State) (h_s : Kept pq s) : KeptO pq (execCkptPauseRetry s) := by
  unfold execCkptPauseRetry
  repeat' with_reducible first
    | assumption | apply kept_next | apply pauseCopy_kept | apply askBuddy_kept | apply sendCopy_kept | apply kept_ite
    | split | dsimp only | refine kept_snd (by assumption) ?_ | refine kept_snd2 (by assumption) ?_
    | refine kept_fst (by assumption) ?_ | refine kept_some (by assumption) ?_ | apply kept_mk


theorem execCkptAbandon_kept {pq : List Instr} (s : State) (h_s : Kept pq s) : KeptO pq (execCkptAbandon s) := by
  unfold execCkptAbandon
  repeat' with_reducible first
    | assumption | apply kept_next | apply faultEvent_kept | apply postEvent_kept | apply kept_ite | split
    | dsimp only | refine kept_snd (by assumption) ?_ | refine kept_snd2 (by assumption) ?_
    | refine kept_fst (by assumption) ?_ | refine kept_some (by assumption) ?_ | apply kept_mk


theorem kCkptConfig_kept {pq : List Instr} (hd : CmdHdr) (s : State) (h_s : Kept pq s) : Kept pq (kCkptConfig hd s).s := by
  unfold kCkptConfig
  repeat' with_reducible first
    | intro _ | assumption | apply kOk_kept | apply kFail_kept | apply kept_ite | split | dsimp only
    | refine kept_snd (by assumption) ?_ | refine kept_snd2 (by assumption) ?_ | refine kept_fst (by assumption) ?_
    | refine kept_some (by assumption) ?_ | apply kept_mk


theorem kCkptQuery_kept {pq : List Instr} (hd : CmdHdr) (buf : Buf) (s : State) (h_s : Kept pq s) : Kept pq (kCkptQuery hd buf s).s := by
  unfold kCkptQuery
  repeat' with_reducible first
    | assumption | apply withBuf_kept | apply deliver_kept | dsimp only | apply kept_id | apply kept_mk


theorem restoreFailed_kept {pq : List Instr} (s : State) (h_s : Kept pq s) : Kept pq (restoreFailed s).s := by
  unfold restoreFailed
  repeat' with_reducible first
    | intro _ | assumption | apply kept_foldl | apply kept_foldl_snd | apply kept_foldl_snd2 | apply kept_foldl_fst
    | apply faultEvent_kept | apply kFail_kept | apply setShard_kept | split | dsimp only
    | refine kept_snd (by assumption) ?_ | refine kept_snd2 (by assumption) ?_ | refine kept_fst (by assumption) ?_
    | refine kept_some (by assumption) ?_ | apply kept_mk


theorem voidNewer_kept {pq : List Instr} (step : Nat) (s : State) (h_s : Kept pq s) : Kept pq (voidNewer step s) := by
  unfold voidNewer
  repeat' with_reducible first
    | intro _ | assumption | apply kept_foldl | apply kept_foldl_snd | apply kept_foldl_snd2 | apply kept_foldl_fst
    | apply sendSector_kept | apply kept_ite | split | dsimp only | refine kept_snd (by assumption) ?_
    | refine kept_snd2 (by assumption) ?_ | refine kept_fst (by assumption) ?_ | refine kept_some (by assumption) ?_
    | apply kept_mk


theorem writeItems_kept {pq : List Instr} (datas : List (Nat × List Byte)) (s : State) (h_s : Kept pq s) : Kept pq (writeItems datas s) := by
  unfold writeItems
  repeat' with_reducible first
    | intro _ | assumption | apply kept_foldl | apply kept_foldl_snd | apply kept_foldl_snd2 | apply kept_foldl_fst
    | apply writeTo_kept | apply applyFwRecords_kept | apply dropHistories_kept | split | dsimp only
    | refine kept_snd (by assumption) ?_ | refine kept_snd2 (by assumption) ?_ | refine kept_fst (by assumption) ?_
    | refine kept_some (by assumption) ?_ | apply kept_mk


theorem settleShards_kept {pq : List Instr} (s : State) (h_s : Kept pq s) : Kept pq (settleShards s) := by
  unfold settleShards
  repeat' with_reducible first
    | intro _ | assumption | apply kept_foldl | apply kept_foldl_snd | apply kept_foldl_snd2 | apply kept_foldl_fst
    | apply setShard_kept | apply setOuter_kept | split | dsimp only | refine kept_snd (by assumption) ?_
    | refine kept_snd2 (by assumption) ?_ | refine kept_fst (by assumption) ?_ | refine kept_some (by assumption) ?_
    | apply kept_mk


theorem slotRestored_kept {pq : List Instr} (datas : List (Nat × List Byte)) (s : State) (h_s : Kept pq s) : Kept pq (slotRestored datas s) := by
  unfold slotRestored
  repeat' with_reducible first
    | intro _ | assumption | apply kept_foldl | apply kept_foldl_snd | apply kept_foldl_snd2 | apply kept_foldl_fst
    | apply retireEntry_kept | apply writeItems_kept | apply kept_ite | split | dsimp only


theorem restoreEnded_kept {pq : List Instr} (w : Nat) (s : State) (h_s : Kept pq s) : Kept pq (restoreEnded w s) := by
  unfold restoreEnded
  repeat' with_reducible first
    | assumption | apply faultEvent_kept | apply stageFree_kept | apply writeRecord_kept | apply voidNewer_kept
    | apply settleShards_kept | dsimp only | apply kept_mk


theorem kCkptRestore_kept {pq : List Instr} (hd : CmdHdr) (outer : W32) (s : State) (h_s : Kept pq s) : Kept pq (kCkptRestore hd outer s).s := by
  unfold kCkptRestore
  repeat' with_reducible first
    | assumption | apply kOk_kept | apply kFail_kept | apply restoreFailed_kept | apply slotRestored_kept
    | apply restoreEnded_kept | apply kept_ite | split | dsimp only | refine kept_snd (by assumption) ?_
    | refine kept_snd2 (by assumption) ?_ | refine kept_fst (by assumption) ?_ | refine kept_some (by assumption) ?_
    | apply kept_mk


theorem kReplicaRepairNameSource_kept {pq : List Instr} (hd : CmdHdr) (s : State) (h_s : Kept pq s) : Kept pq (kReplicaRepairNameSource hd s).s := by
  unfold kReplicaRepairNameSource
  repeat' with_reducible first
    | intro _ | assumption | apply kept_foldl | apply kept_foldl_snd | apply kept_foldl_snd2 | apply kept_foldl_fst
    | apply kOk_kept | apply kFail_kept | apply kept_ite | split | dsimp only | refine kept_snd (by assumption) ?_
    | refine kept_snd2 (by assumption) ?_ | refine kept_fst (by assumption) ?_ | refine kept_some (by assumption) ?_
    | apply kept_mk


theorem adoptShard_kept {pq : List Instr} (k : Nat) (i : Nat) (bs : List Byte) (s : State) (h_s : Kept pq s) : Kept pq (adoptShard k i bs s).2 := by
  unfold adoptShard
  repeat' with_reducible first
    | intro _ | assumption | apply kept_foldl | apply kept_foldl_snd | apply kept_foldl_snd2 | apply kept_foldl_fst
    | apply faultEvent_kept | apply setShard_kept | apply printBlock_kept | apply unitStore_kept | apply kept_ite
    | split | dsimp only | refine kept_snd (by assumption) ?_ | refine kept_snd2 (by assumption) ?_
    | refine kept_fst (by assumption) ?_ | refine kept_some (by assumption) ?_ | apply kept_mk


theorem catchUpShards_kept {pq : List Instr} (l : List (Nat × Nat)) (data : List Byte) (s : State) (h_s : Kept pq s) : Kept pq (catchUpShards l data s).2 := by
  unfold catchUpShards
  repeat' with_reducible first
    | intro _ | assumption | apply kept_foldl | apply kept_foldl_snd | apply kept_foldl_snd2 | apply kept_foldl_fst
    | apply adoptShard_kept | dsimp only


theorem catchUpRecords_kept {pq : List Instr} (l : List (Nat × Nat)) (r : StepRec) (fw : List Byte) (s : State) (h_s : Kept pq s) : Kept pq (catchUpRecords l r fw s) := by
  unfold catchUpRecords
  repeat' with_reducible first
    | intro _ | assumption | apply kept_foldl | apply kept_foldl_snd | apply kept_foldl_snd2 | apply kept_foldl_fst
    | apply writeRecord_kept | apply writeCopy_kept | apply applyFwRecords_kept | split | dsimp only
    | refine kept_snd (by assumption) ?_ | refine kept_snd2 (by assumption) ?_ | refine kept_fst (by assumption) ?_
    | refine kept_some (by assumption) ?_ | apply kept_mk


theorem kReplicaRepairCatchUp_kept {pq : List Instr} (hd : CmdHdr) (s : State) (h_s : Kept pq s) : Kept pq (kReplicaRepairCatchUp hd s).s := by
  unfold kReplicaRepairCatchUp
  repeat' with_reducible first
    | intro _ | assumption | apply kept_foldl | apply kept_foldl_snd | apply kept_foldl_snd2 | apply kept_foldl_fst
    | apply bumpN_kept | apply kOk_kept | apply kFail_kept | apply catchUpShards_kept | apply catchUpRecords_kept
    | apply kept_ite | split | dsimp only | refine kept_snd (by assumption) ?_ | refine kept_snd2 (by assumption) ?_
    | refine kept_fst (by assumption) ?_ | refine kept_some (by assumption) ?_ | apply kept_mk


theorem copyBlock_kept {pq : List Instr} (k : Nat) (i : Nat) (d : Nat) (m : Nat) (print : Nat) (data : RepairData) (s : State) (h_s : Kept pq s) : Kept pq (copyBlock k i d m print data s) := by
  unfold copyBlock
  repeat' with_reducible first
    | intro _ | assumption | apply kept_foldl | apply kept_foldl_snd | apply kept_foldl_snd2 | apply kept_foldl_fst
    | apply faultEvent_kept | apply corbelStore_kept | apply unitStore_kept | apply kept_ite | split | dsimp only


theorem repairDone_kept {pq : List Instr} (k : Nat) (i : Nat) (s : State) (h_s : Kept pq s) : Kept pq (repairDone k i s) := by
  unfold repairDone
  repeat' with_reducible first
    | intro _ | assumption | apply stageFree_kept | apply kept_ite | split | dsimp only | apply kept_mk


theorem repairDue_kept {pq : List Instr} (k : Nat) (i : Nat) (s : State) (h_s : Kept pq s) : Kept pq (repairDue k i s) := by
  unfold repairDue
  repeat' with_reducible first
    | assumption | apply stageTake_kept | apply kept_ite | split | dsimp only | apply kept_mk


theorem markSuspect_kept {pq : List Instr} (k : Nat) (i : Nat) (m : Nat) (s : State) (h_s : Kept pq s) : Kept pq (markSuspect k i m s) := by
  unfold markSuspect
  repeat' with_reducible first
    | assumption | apply faultEvent_kept | apply postEvent_kept | apply kept_ite | split | dsimp only | apply kept_mk


theorem execRepairComplete_kept {pq : List Instr} (stack : BitVec 3) (shard : BitVec 11) (block : W16) (tables : List MemberTable) (data : RepairData) (s : State) (h_s : Kept pq s) : KeptO pq (execRepairComplete stack shard block tables data s) := by
  unfold execRepairComplete
  repeat' with_reducible first
    | intro _ | assumption | apply kept_next | apply faultEvent_kept | apply copyBlock_kept | apply repairDone_kept
    | apply markSuspect_kept | apply kept_ite | split | dsimp only | refine kept_snd (by assumption) ?_
    | refine kept_snd2 (by assumption) ?_ | refine kept_fst (by assumption) ?_ | refine kept_some (by assumption) ?_
    | apply kept_mk


end Sys2Proof.Machine
end

