-- ==== Sys2Proof/Laws/KeptStepCtl.lean ====
section
/-!
SUPPORT. The functions of Machine/StepCtl.lean keep the queue and the canonical form of memory.
-/
namespace Sys2Proof.Machine

theorem setStp_kept {pq : List Instr} (f : StepCtl → StepCtl) (s : State) (h_s : Kept pq s) : Kept pq (setStp f s) := by
  unfold setStp
  repeat' with_reducible first
    | assumption | dsimp only | apply kept_mk


theorem postStepEnd_kept {pq : List Instr} (outcome : Nat) (s : State) (h_s : Kept pq s) : Kept pq (postStepEnd outcome s) := by
  unfold postStepEnd
  repeat' with_reducible first
    | intro _ | assumption | apply postReply_kept | apply setStp_kept | split | dsimp only
    | refine kept_snd (by assumption) ?_ | refine kept_snd2 (by assumption) ?_ | refine kept_fst (by assumption) ?_
    | refine kept_some (by assumption) ?_ | apply kept_mk


theorem scaleTensor_kept {pq : List Instr} (tid : Nat) (s : State) (h_s : Kept pq s) : Kept pq (scaleTensor tid s) := by
  unfold scaleTensor
  repeat' with_reducible first
    | intro _ | assumption | apply kept_foldl | apply kept_foldl_snd | apply kept_foldl_snd2 | apply kept_foldl_fst
    | apply setTensor_kept | apply storeRowScale_kept | apply kept_ite | split | dsimp only
    | refine kept_snd (by assumption) ?_ | refine kept_snd2 (by assumption) ?_ | refine kept_fst (by assumption) ?_
    | refine kept_some (by assumption) ?_ | apply kept_mk


theorem beginTensor_kept {pq : List Instr} (tid : Nat) (s : State) (h_s : Kept pq s) : Kept pq (beginTensor tid s) := by
  unfold beginTensor
  repeat' with_reducible first
    | assumption | apply setTensor_kept | apply fixGrid_kept | apply scaleTensor_kept | apply kept_ite | split
    | dsimp only | refine kept_snd (by assumption) ?_ | refine kept_snd2 (by assumption) ?_
    | refine kept_fst (by assumption) ?_ | refine kept_some (by assumption) ?_ | apply kept_mk


theorem beginScales_kept {pq : List Instr} (s : State) (h_s : Kept pq s) : Kept pq (beginScales s) := by
  unfold beginScales
  repeat' with_reducible first
    | intro _ | assumption | apply kept_foldl | apply bumpN_kept | apply setStp_kept | apply beginTensor_kept
    | dsimp only | apply kept_mk


theorem clearStep_kept {pq : List Instr} (s : State) (h_s : Kept pq s) : Kept pq (clearStep s) := by
  unfold clearStep
  repeat' with_reducible first
    | intro _ | assumption | dsimp only | apply kept_mk


theorem stepBegun_kept {pq : List Instr} (hd : CmdHdr) (salt : W32) (gen : Byte) (tCheck : W64) (tCommit : W64) (deadline : W64) (s : State) (h_s : Kept pq s) : Kept pq (stepBegun hd salt gen tCheck tCommit deadline s) := by
  unfold stepBegun
  repeat' with_reducible first
    | intro _ | assumption | apply kept_foldl | apply bump_kept | apply sendToken_kept | apply writeRecord_kept
    | apply groupsAtBegin_kept | apply beginRuns_kept | apply gatherReset_kept | apply setStp_kept
    | apply beginScales_kept | apply clearStep_kept | apply kept_ite | split | dsimp only | apply kept_mk


theorem kStepBegin_kept {pq : List Instr} (hd : CmdHdr) (step : W64) (salt : W32) (gen : Byte) (tCheck : W64) (tCommit : W64) (deadline : W64) (s : State) (h_s : Kept pq s) : Kept pq (kStepBegin hd step salt gen tCheck tCommit deadline s).s := by
  unfold kStepBegin
  repeat' with_reducible first
    | assumption | apply kFail_kept | apply kDefer_kept | apply stepBegun_kept | split | dsimp only
    | refine kept_snd (by assumption) ?_ | refine kept_snd2 (by assumption) ?_ | refine kept_fst (by assumption) ?_
    | refine kept_some (by assumption) ?_ | apply kept_mk


theorem discardSeeds_kept {pq : List Instr} (s : State) (h_s : Kept pq s) : Kept pq (discardSeeds s) := by
  unfold discardSeeds
  repeat' with_reducible first
    | intro _ | assumption | dsimp only | apply kept_mk


theorem sendAborts_kept {pq : List Instr} (s : State) (h_s : Kept pq s) : Kept pq (sendAborts s) := by
  unfold sendAborts
  repeat' with_reducible first
    | intro _ | assumption | apply kept_foldl | apply sendToken_kept | dsimp only


theorem endStep_kept {pq : List Instr} (outcome : Nat) (s : State) (h_s : Kept pq s) : Kept pq (endStep outcome s) := by
  unfold endStep
  repeat' with_reducible first
    | intro _ | assumption | apply bump_kept | apply writeRecord_kept | apply setStp_kept | apply postStepEnd_kept
    | apply discardSeeds_kept | apply sendAborts_kept | dsimp only | apply kept_mk


theorem abortStep_kept {pq : List Instr} (stopUpdate : Bool) (s : State) (h_s : Kept pq s) : Kept pq (abortStep stopUpdate s) := by
  unfold abortStep
  repeat' with_reducible first
    | intro _ | assumption | apply writeRecord_kept | apply withdraw_kept | apply setStp_kept | apply sendAborts_kept
    | apply kept_ite | split | dsimp only | refine kept_snd (by assumption) ?_ | refine kept_snd2 (by assumption) ?_
    | refine kept_fst (by assumption) ?_ | refine kept_some (by assumption) ?_ | apply kept_mk


theorem kStepAbort_kept {pq : List Instr} (x0 : CmdHdr) (step : W64) (s : State) (h_s : Kept pq s) : Kept pq (kStepAbort x0 step s).s := by
  unfold kStepAbort
  repeat' with_reducible first
    | assumption | apply bump_kept | apply kOk_kept | apply kFail_kept | apply abortStep_kept | apply kept_ite | split
    | dsimp only | refine kept_snd (by assumption) ?_ | refine kept_snd2 (by assumption) ?_
    | refine kept_fst (by assumption) ?_ | refine kept_some (by assumption) ?_


theorem kStepQuery_kept {pq : List Instr} (hd : CmdHdr) (buf : Buf) (s : State) (h_s : Kept pq s) : Kept pq (kStepQuery hd buf s).s := by
  unfold kStepQuery
  repeat' with_reducible first
    | assumption | apply withBuf_kept | apply deliver_kept | dsimp only | apply kept_id | apply kept_mk


theorem kTensorScale_kept {pq : List Instr} (x0 : CmdHdr) (tid : W16) (margin : W32) (hostScale : W32) (depth : Byte) (flags : Byte) (s : State) (h_s : Kept pq s) : Kept pq (kTensorScale x0 tid margin hostScale depth flags s).s := by
  unfold kTensorScale
  repeat' with_reducible first
    | assumption | apply setTensor_kept | apply kOk_kept | apply kFail_kept | apply kept_ite | split | dsimp only
    | apply kept_mk


theorem kTensorRead_kept {pq : List Instr} (hd : CmdHdr) (first : W16) (n : W16) (buf : Buf) (s : State) (h_s : Kept pq s) : Kept pq (kTensorRead hd first n buf s).s := by
  unfold kTensorRead
  repeat' with_reducible first
    | intro _ | assumption | apply kept_foldl | apply setTensor_kept | apply withBuf_kept | apply deliver_kept
    | dsimp only | apply kept_mk


theorem fenceAborts_kept {pq : List Instr} (s : State) (h_s : Kept pq s) : Kept pq (fenceAborts s) := by
  unfold fenceAborts
  repeat' with_reducible first
    | assumption | apply abortStep_kept | dsimp only


theorem execNonfiniteSlotToken_kept {pq : List Instr} (token : W64) (s : State) (h_s : Kept pq s) : KeptO pq (execNonfiniteSlotToken token s) := by
  unfold execNonfiniteSlotToken
  repeat' with_reducible first
    | intro _ | assumption | apply kept_next | apply arrive_kept | apply setStp_kept | apply kept_ite | split
    | dsimp only | refine kept_snd (by assumption) ?_ | refine kept_snd2 (by assumption) ?_
    | refine kept_fst (by assumption) ?_ | refine kept_some (by assumption) ?_ | apply kept_mk


theorem execProgramDoneToken_kept {pq : List Instr} (token : W64) (s : State) (h_s : Kept pq s) : KeptO pq (execProgramDoneToken token s) := by
  unfold execProgramDoneToken
  repeat' with_reducible first
    | intro _ | assumption | apply kept_next | apply arrive_kept | apply setStp_kept | apply kept_ite | split
    | dsimp only | refine kept_snd (by assumption) ?_ | refine kept_snd2 (by assumption) ?_
    | refine kept_fst (by assumption) ?_ | refine kept_some (by assumption) ?_ | apply kept_mk


theorem execTaskFaultToken_kept {pq : List Instr} (token : W64) (s : State) (h_s : Kept pq s) : KeptO pq (execTaskFaultToken token s) := by
  unfold execTaskFaultToken
  repeat' with_reducible first
    | intro _ | assumption | apply kept_next | apply arrive_kept | apply setStp_kept | apply kept_ite | split
    | dsimp only | refine kept_snd (by assumption) ?_ | refine kept_snd2 (by assumption) ?_
    | refine kept_fst (by assumption) ?_ | refine kept_some (by assumption) ?_ | apply kept_mk


theorem execFencedToken_kept {pq : List Instr} (token : W64) (s : State) (h_s : Kept pq s) : KeptO pq (execFencedToken token s) := by
  unfold execFencedToken
  repeat' with_reducible first
    | intro _ | assumption | apply kept_next | apply arrive_kept | apply setStp_kept | apply fenceAborts_kept
    | apply kept_ite | split | dsimp only | refine kept_snd (by assumption) ?_ | refine kept_snd2 (by assumption) ?_
    | refine kept_fst (by assumption) ?_ | refine kept_some (by assumption) ?_ | apply kept_mk


theorem tryCheck_kept {pq : List Instr} (s : State) (h_s : Kept pq s) : Kept pq (tryCheck s) := by
  unfold tryCheck
  repeat' with_reducible first
    | intro _ | assumption | apply startSmall_kept | apply setStp_kept | apply kept_ite | split | dsimp only
    | refine kept_snd (by assumption) ?_ | refine kept_snd2 (by assumption) ?_ | refine kept_fst (by assumption) ?_
    | refine kept_some (by assumption) ?_ | apply kept_mk


theorem reduceAll_kept {pq : List Instr} (s : State) (h_s : Kept pq s) : Kept pq (reduceAll s) := by
  unfold reduceAll
  repeat' with_reducible first
    | intro _ | assumption | apply kept_foldl | apply kept_foldl_snd | apply kept_foldl_snd2 | apply kept_foldl_fst
    | apply reduceBlock_kept | dsimp only


theorem execCheckWordReady_kept {pq : List Instr} (s : State) (h_s : Kept pq s) : KeptO pq (execCheckWordReady s) := by
  unfold execCheckWordReady
  repeat' with_reducible first
    | intro _ | assumption | apply kept_next | apply bump_kept | apply writeRecord_kept | apply setStp_kept
    | apply tryCheck_kept | apply reduceAll_kept | apply kept_ite | split | dsimp only | apply kept_mk


theorem execTCheckInstant_kept {pq : List Instr} (s : State) (h_s : Kept pq s) : KeptO pq (execTCheckInstant s) := by
  unfold execTCheckInstant
  repeat' with_reducible first
    | assumption | apply kept_next | apply tryCheck_kept | dsimp only


theorem decideUpdate_kept {pq : List Instr} (outcome : Nat) (c : FVal) (s : State) (h_s : Kept pq s) : Kept pq (decideUpdate outcome c s) := by
  unfold decideUpdate
  repeat' with_reducible first
    | assumption | apply writeTables_kept | apply writeRecord_kept | dsimp only | apply kept_mk


theorem execCheckDecision_kept {pq : List Instr} (f1 : Bool) (f2 : Bool) (hard : Bool) (a : Bool) (lane : CheckLane) (normNf : Bool) (norm : BitVec 640) (s : State) (h_s : Kept pq s) : KeptO pq (execCheckDecision f1 f2 hard a lane normNf norm s) := by
  unfold execCheckDecision
  repeat' with_reducible first
    | intro _ | assumption | apply kept_next | apply setStp_kept | apply endStep_kept | apply decideUpdate_kept
    | apply kept_ite | split | dsimp only | refine kept_snd (by assumption) ?_ | refine kept_snd2 (by assumption) ?_
    | refine kept_fst (by assumption) ?_ | refine kept_some (by assumption) ?_ | apply kept_mk


theorem execDeadlineExpiry_kept {pq : List Instr} (s : State) (h_s : Kept pq s) : KeptO pq (execDeadlineExpiry s) := by
  unfold execDeadlineExpiry
  repeat' with_reducible first
    | assumption | apply kept_next | apply bump_kept | apply abortStep_kept | apply kept_ite | split | dsimp only


theorem execUpdateStart_kept {pq : List Instr} (s : State) (h_s : Kept pq s) : KeptO pq (execUpdateStart s) := by
  unfold execUpdateStart
  repeat' with_reducible first
    | intro _ | assumption | apply kept_next | apply kept_foldl | apply kept_foldl_snd | apply kept_foldl_snd2
    | apply kept_foldl_fst | apply bump_kept | apply faultEvent_kept | apply startSums_kept | apply setStp_kept
    | apply kept_ite | split | dsimp only | refine kept_snd (by assumption) ?_ | refine kept_snd2 (by assumption) ?_
    | refine kept_fst (by assumption) ?_ | refine kept_some (by assumption) ?_ | apply kept_mk


theorem printSparse_kept {pq : List Instr} (s : State) (h_s : Kept pq s) : Kept pq (printSparse s) := by
  unfold printSparse
  repeat' with_reducible first
    | intro _ | assumption | apply kept_foldl | apply kept_foldl_snd | apply kept_foldl_snd2 | apply kept_foldl_fst
    | apply printBlock_kept | apply kept_ite | split | dsimp only


theorem collectRows_kept {pq : List Instr} (s : State) (h_s : Kept pq s) : Kept pq (collectRows s).2 := by
  unfold collectRows
  repeat' with_reducible first
    | intro _ | assumption | apply kept_foldl | apply kept_foldl_snd | apply kept_foldl_snd2 | apply kept_foldl_fst
    | apply readDev_kept | split | dsimp only | refine kept_snd (by assumption) ?_
    | refine kept_snd2 (by assumption) ?_ | refine kept_fst (by assumption) ?_ | refine kept_some (by assumption) ?_


theorem fixItems_kept {pq : List Instr} (s : State) (h_s : Kept pq s) : Kept pq (fixItems s) := by
  unfold fixItems
  repeat' with_reducible first
    | intro _ | assumption | apply setStp_kept | apply collectRows_kept | apply kept_ite | split | dsimp only
    | refine kept_snd (by assumption) ?_ | refine kept_snd2 (by assumption) ?_ | refine kept_fst (by assumption) ?_
    | refine kept_some (by assumption) ?_ | apply kept_mk


theorem excludeAbsent_kept {pq : List Instr} (s : State) (h_s : Kept pq s) : Kept pq (excludeAbsent s) := by
  unfold excludeAbsent
  repeat' with_reducible first
    | intro _ | assumption | apply kept_foldl | apply bump_kept | apply colEvent_kept | apply kept_ite | split
    | dsimp only


theorem joinCommit_kept {pq : List Instr} (s : State) (h_s : Kept pq s) : Kept pq (joinCommit s) := by
  unfold joinCommit
  repeat' with_reducible first
    | intro _ | assumption | apply startSmall_kept | apply setStp_kept | apply endStep_kept | apply fixItems_kept
    | apply excludeAbsent_kept | apply kept_ite | split | dsimp only | apply kept_mk


theorem tryCommit_kept {pq : List Instr} (s : State) (h_s : Kept pq s) : Kept pq (tryCommit s) := by
  unfold tryCommit
  repeat' with_reducible first
    | assumption | apply joinCommit_kept | apply kept_ite | split | dsimp only


theorem execUpdateComplete_kept {pq : List Instr} (s : State) (h_s : Kept pq s) : KeptO pq (execUpdateComplete s) := by
  unfold execUpdateComplete
  repeat' with_reducible first
    | intro _ | assumption | apply kept_next | apply writeRecord_kept | apply setStp_kept | apply printSparse_kept
    | apply tryCommit_kept | apply kept_ite | split | dsimp only | apply kept_mk


theorem execTCommitInstant_kept {pq : List Instr} (s : State) (h_s : Kept pq s) : KeptO pq (execTCommitInstant s) := by
  unfold execTCommitInstant
  repeat' with_reducible first
    | assumption | apply kept_next | apply tryCommit_kept | dsimp only


theorem commitTensor_kept {pq : List Instr} (items : CommitItems) (tid : Nat) (s : State) (h_s : Kept pq s) : Kept pq (commitTensor items tid s) := by
  unfold commitTensor
  repeat' with_reducible first
    | intro _ | assumption | apply kept_foldl | apply kept_foldl_snd | apply kept_foldl_snd2 | apply kept_foldl_fst
    | apply setTensor_kept | apply kept_ite | split | dsimp only | refine kept_snd (by assumption) ?_
    | refine kept_snd2 (by assumption) ?_ | refine kept_fst (by assumption) ?_ | refine kept_some (by assumption) ?_
    | apply kept_mk


theorem watchGroup_kept {pq : List Instr} (items : CommitItems) (g : Nat) (s : State) (h_s : Kept pq s) : Kept pq (watchGroup items g s) := by
  unfold watchGroup
  repeat' with_reducible first
    | intro _ | assumption | apply kept_foldl | apply kept_foldl_snd | apply kept_foldl_snd2 | apply kept_foldl_fst
    | apply bump_kept | apply postEvent_kept | apply modGroup_kept | apply cblEvent_kept | apply kept_ite | split
    | dsimp only | refine kept_snd (by assumption) ?_ | refine kept_snd2 (by assumption) ?_
    | refine kept_fst (by assumption) ?_ | refine kept_some (by assumption) ?_ | apply kept_mk


theorem comparePrint_kept {pq : List Instr} (items : CommitItems) (p : Nat × Nat × Shard) (s : State) (h_s : Kept pq s) : Kept pq (comparePrint items p s) := by
  unfold comparePrint
  repeat' with_reducible first
    | assumption | apply faultEvent_kept | apply setShard_kept | apply repairDue_kept | apply kept_ite | split
    | dsimp only | refine kept_snd (by assumption) ?_ | refine kept_snd2 (by assumption) ?_
    | refine kept_fst (by assumption) ?_ | refine kept_some (by assumption) ?_ | apply kept_mk


theorem adoptStaged_kept {pq : List Instr} (done : List (Nat × Nat)) (s : State) (h_s : Kept pq s) : Kept pq (adoptStaged done s) := by
  unfold adoptStaged
  repeat' with_reducible first
    | intro _ | assumption | apply kept_foldl | apply kept_foldl_snd | apply kept_foldl_snd2 | apply kept_foldl_fst
    | apply bumpN_kept | apply setOuter_kept | apply npxEvent_kept | apply kept_ite | split | dsimp only
    | apply kept_mk


theorem finishCommit_kept {pq : List Instr} (s : State) (h_s : Kept pq s) : Kept pq (finishCommit s) := by
  unfold finishCommit
  repeat' with_reducible first
    | intro _ | assumption | apply kept_foldl | apply kept_foldl_snd | apply kept_foldl_snd2 | apply kept_foldl_fst
    | apply bump_kept | apply writeRecord_kept | apply formDelta_kept | apply startCopy_kept | apply setStp_kept
    | apply postStepEnd_kept | apply kept_ite | split | dsimp only | apply kept_mk


theorem execCommitCollectiveComplete_kept {pq : List Instr} (sent : CommitItems) (s : State) (h_s : Kept pq s) : KeptO pq (execCommitCollectiveComplete sent s) := by
  unfold execCommitCollectiveComplete
  repeat' with_reducible first
    | intro _ | assumption | apply kept_next | apply kept_foldl | apply kept_foldl_snd | apply kept_foldl_snd2
    | apply kept_foldl_fst | apply bump_kept | apply writeRecord_kept | apply rebaseShard_kept | apply colEvent_kept
    | apply setStp_kept | apply commitTensor_kept | apply watchGroup_kept | apply comparePrint_kept
    | apply adoptStaged_kept | apply finishCommit_kept | apply kept_ite | split | dsimp only | apply kept_mk


theorem execDeltaFormationComplete_kept {pq : List Instr} (s : State) (h_s : Kept pq s) : KeptO pq (execDeltaFormationComplete s) := by
  unfold execDeltaFormationComplete
  repeat' with_reducible first
    | intro _ | assumption | apply kept_next | apply setStp_kept | split | dsimp only | apply kept_mk


theorem resumeAnswer_kept {pq : List Instr} (e : Nat × Nat × State) (h_e : Kept pq (e).2.2) : Kept pq (resumeAnswer e).s := by
  unfold resumeAnswer
  repeat' with_reducible first
    | intro _ | assumption | apply kOk_kept | apply writeRecord_kept | apply setStp_kept | apply finishCommit_kept
    | apply kept_ite | split | dsimp only | apply kept_mk


theorem kCorbelResume_kept {pq : List Instr} (x0 : CmdHdr) (s : State) (h_s : Kept pq s) : Kept pq (kCorbelResume x0 s).s := by
  unfold kCorbelResume
  repeat' with_reducible first
    | assumption | apply kFail_kept | apply resumeMemory_kept | apply resumeAnswer_kept | apply kept_ite | split
    | dsimp only | refine kept_snd (by assumption) ?_ | refine kept_snd2 (by assumption) ?_
    | refine kept_fst (by assumption) ?_ | refine kept_some (by assumption) ?_ | apply kept_mk


theorem kStepResume_kept {pq : List Instr} (hd : CmdHdr) (step : W64) (s : State) (h_s : Kept pq s) : Kept pq (kStepResume hd step s).s := by
  unfold kStepResume
  repeat' with_reducible first
    | intro _ | assumption | apply kFail_kept | apply kDefer_kept | apply writeRecord_kept | apply setStp_kept
    | apply joinCommit_kept | apply kept_ite | split | dsimp only | refine kept_snd (by assumption) ?_
    | refine kept_snd2 (by assumption) ?_ | refine kept_fst (by assumption) ?_ | refine kept_some (by assumption) ?_
    | apply kept_mk


end Sys2Proof.Machine
end

