-- ==== Sys2Proof/Laws/KeptSend.lean ====
section
/-!
SUPPORT. The functions of Machine/Send.lean keep the queue and the canonical form of memory.
-/
namespace Sys2Proof.Machine

theorem sendQueue_kept {pq : List Instr} (q : StageQueue) (b : SendBody) (cls : Nat) (data : List Byte) (s : State) (h_s : Kept pq s) : Kept pq (sendQueue q b cls data s).2 := by
  unfold sendQueue
  repeat' with_reducible first
    | intro _ | assumption | apply kept_foldl | apply kept_foldl_snd | apply kept_foldl_snd2 | apply kept_foldl_fst
    | apply sendFrame_kept | apply queueArrive_kept | apply kept_ite | split | dsimp only
    | refine kept_snd (by assumption) ?_ | refine kept_snd2 (by assumption) ?_ | refine kept_fst (by assumption) ?_
    | refine kept_some (by assumption) ?_


theorem sendWrite_kept {pq : List Instr} (b : SendBody) (cls : Nat) (data : List Byte) (s : State) (h_s : Kept pq s) : Kept pq (sendWrite b cls data s).2 := by
  unfold sendWrite
  repeat' with_reducible first
    | intro _ | assumption | apply kept_foldl | apply kept_foldl_snd | apply kept_foldl_snd2 | apply kept_foldl_fst
    | apply sendFrame_kept | apply kept_ite | split | dsimp only | refine kept_snd (by assumption) ?_
    | refine kept_snd2 (by assumption) ?_ | refine kept_fst (by assumption) ?_ | refine kept_some (by assumption) ?_


theorem sendTake_kept {pq : List Instr} (b : SendBody) (cls : Nat) (data : List Byte) (marks : List Bool) (s : State) (h_s : Kept pq s) : Kept pq (sendTake b cls data marks s).2 := by
  unfold sendTake
  repeat' with_reducible first
    | assumption | apply contribute_kept | apply sendQueue_kept | apply sendWrite_kept | apply kept_ite | split
    | dsimp only | refine kept_snd (by assumption) ?_ | refine kept_snd2 (by assumption) ?_
    | refine kept_fst (by assumption) ?_ | refine kept_some (by assumption) ?_ | apply kept_mk


theorem sendRun_kept {pq : List Instr} (t : Nat) (i : Nat) (limit : Nat) (s : State) (h_s : Kept pq s) : Kept pq (sendRun t i limit s).2 := by
  unfold sendRun
  repeat' with_reducible first
    | assumption | apply readDev_kept | apply tallyTile_kept | apply sendTake_kept | apply kept_ite | split
    | dsimp only | refine kept_snd (by assumption) ?_ | refine kept_snd2 (by assumption) ?_
    | refine kept_fst (by assumption) ?_ | refine kept_some (by assumption) ?_


theorem execSendTaskComplete_kept {pq : List Instr} (tile : BitVec 7) (s : State) (h_s : Kept pq s) : KeptO pq (execSendTaskComplete tile s) := by
  unfold execSendTaskComplete
  repeat' with_reducible first
    | intro _ | assumption | apply kept_next | apply send_kept | apply completeTask_kept | apply sendRun_kept
    | dsimp only


theorem execTaskStop_kept {pq : List Instr} (tile : BitVec 7) (engine : Engine) (done : W32) (s : State) (h_s : Kept pq s) : KeptO pq (execTaskStop tile engine done s) := by
  unfold execTaskStop
  repeat' with_reducible first
    | assumption | apply kept_next | apply send_kept | apply setTile_kept | apply reportDone_kept
    | apply matrixRun_kept | apply passRun_kept | apply moveRun_kept | apply sendRun_kept | apply kept_ite | split
    | dsimp only | refine kept_snd (by assumption) ?_ | refine kept_snd2 (by assumption) ?_
    | refine kept_fst (by assumption) ?_ | refine kept_some (by assumption) ?_ | apply kept_mk


end Sys2Proof.Machine
end

