-- ==== Sys2Proof/Laws/KeptTime.lean ====
section
/-!
SUPPORT. The functions of Machine/Time.lean keep the queue and the canonical form of memory.
-/
namespace Sys2Proof.Machine

theorem touchCfg_kept {pq : List Instr} (s : State) (h_s : Kept pq s) : Kept pq (touchCfg s) := by
  unfold touchCfg
  repeat' with_reducible first
    | assumption | dsimp only | apply kept_mk


theorem setPath_kept {pq : List Instr} (p : Nat) (v : TimePath) (s : State) (h_s : Kept pq s) : Kept pq (setPath p v s) := by
  unfold setPath
  repeat' with_reducible first
    | assumption | dsimp only | apply kept_mk


theorem enterHoldover_kept {pq : List Instr} (s : State) (h_s : Kept pq s) : Kept pq (enterHoldover s) := by
  unfold enterHoldover
  repeat' with_reducible first
    | assumption | apply bump_kept | apply postEvent_kept | apply kept_ite | split | dsimp only | apply kept_mk


theorem correct_kept {pq : List Instr} (off : Int) (s : State) (h_s : Kept pq s) : Kept pq (correct off s) := by
  unfold correct
  repeat' with_reducible first
    | intro _ | assumption | apply kept_ite | split | dsimp only | apply kept_mk


theorem tick_kept {pq : List Instr} (s : State) (h_s : Kept pq s) : Kept pq (tick s) := by
  unfold tick
  repeat' with_reducible first
    | assumption | apply kept_ite | split | dsimp only | apply kept_mk


theorem timeTree_kept {pq : List Instr} (s : State) (h_s : Kept pq s) : Kept pq (timeTree s) := by
  unfold timeTree
  repeat' with_reducible first
    | assumption | apply bump_kept | apply enterHoldover_kept | apply kept_ite | split | dsimp only
    | refine kept_snd (by assumption) ?_ | refine kept_snd2 (by assumption) ?_ | refine kept_fst (by assumption) ?_
    | refine kept_some (by assumption) ?_ | apply kept_mk


theorem followParent_kept {pq : List Instr} (s : State) (h_s : Kept pq s) : Kept pq (followParent s) := by
  unfold followParent
  repeat' with_reducible first
    | assumption | apply correct_kept | apply timeTree_kept | apply kept_ite | split | dsimp only


theorem pathStep_kept {pq : List Instr} (p : Nat) (s : State) (h_s : Kept pq s) : Kept pq (pathStep p s) := by
  unfold pathStep
  repeat' with_reducible first
    | assumption | apply setPath_kept | dsimp only | apply kept_mk


theorem remeasure_kept {pq : List Instr} (p : Nat) (d : Int) (raw : Int) (s : State) (h_s : Kept pq s) : Kept pq (remeasure p d raw s) := by
  unfold remeasure
  repeat' with_reducible first
    | intro _ | assumption | apply bump_kept | apply setPath_kept | apply kept_ite | split | dsimp only
    | apply kept_mk


theorem calibrate_kept {pq : List Instr} (p : Nat) (raw : Int) (s : State) (h_s : Kept pq s) : Kept pq (calibrate p raw s) := by
  unfold calibrate
  repeat' with_reducible first
    | assumption | apply setPath_kept | apply pathStep_kept | apply kept_ite | split | dsimp only | apply kept_mk


theorem evalExchange_kept {pq : List Instr} (p : Nat) (stratum : Nat) (t1 : Int) (t2 : Int) (t3 : Int) (t4 : Int) (s : State) (h_s : Kept pq s) : Kept pq (evalExchange p stratum t1 t2 t3 t4 s) := by
  unfold evalExchange
  repeat' with_reducible first
    | assumption | apply bump_kept | apply setPath_kept | apply followParent_kept | apply pathStep_kept
    | apply remeasure_kept | apply calibrate_kept | apply kept_ite | split | dsimp only | apply kept_mk


theorem beginExchange_kept {pq : List Instr} (p : Nat) (s : State) (h_s : Kept pq s) : Kept pq (beginExchange p s) := by
  unfold beginExchange
  repeat' with_reducible first
    | assumption | apply setPath_kept | apply followParent_kept | apply kept_ite | split | dsimp only | apply kept_mk


theorem sendTimeFrame_kept {pq : List Instr} (p : Nat) (dst : Nat) (body : List Byte) (s : State) (h_s : Kept pq s) : Kept pq (sendTimeFrame p dst body s) := by
  unfold sendTimeFrame
  repeat' with_reducible first
    | assumption | apply transmit_kept | dsimp only


theorem seeStratum_kept {pq : List Instr} (stratum : Nat) (s : State) (h_s : Kept pq s) : Kept pq (seeStratum stratum s) := by
  unfold seeStratum
  repeat' with_reducible first
    | assumption | apply kept_ite | split | dsimp only | apply kept_mk


theorem timeMessage_kept {pq : List Instr} (nipen : Bool) (p : Nat) (body : List Byte) (reply : List Byte → State → State) (s : State) (h_reply : ∀ a0 : List Byte, ∀ a1 : State, Kept pq a1 → Kept pq (reply a0 a1)) (h_s : Kept pq s) : Kept pq (timeMessage nipen p body reply s) := by
  unfold timeMessage
  repeat' with_reducible first
    | assumption | apply h_reply | apply evalExchange_kept | apply seeStratum_kept | apply kept_ite | split
    | dsimp only


theorem execBackupRootTakeover_kept {pq : List Instr} (s : State) (h_s : Kept pq s) : KeptO pq (execBackupRootTakeover s) := by
  unfold execBackupRootTakeover
  repeat' with_reducible first
    | intro _ | assumption | apply kept_next | apply enterHoldover_kept | apply timeTree_kept | apply kept_ite | split
    | dsimp only | apply kept_mk


theorem execPtpMessageReceive_kept {pq : List Instr} (port : BitVec 4) (domain : Byte) (ptp : BitVec 96) (s : State) (h_s : Kept pq s) : KeptO pq (execPtpMessageReceive port domain ptp s) := by
  unfold execPtpMessageReceive
  repeat' with_reducible first
    | assumption | apply kept_next | apply correct_kept | apply timeTree_kept | apply kept_ite | split | dsimp only
    | apply kept_mk


theorem execPtpMasterLoss_kept {pq : List Instr} (s : State) (h_s : Kept pq s) : KeptO pq (execPtpMasterLoss s) := by
  unfold execPtpMasterLoss
  repeat' with_reducible first
    | assumption | apply kept_next | apply bump_kept | apply enterHoldover_kept | apply kept_ite | split | dsimp only
    | apply kept_mk


theorem ppsFail_kept {pq : List Instr} (s : State) (h_s : Kept pq s) : Kept pq (ppsFail s) := by
  unfold ppsFail
  repeat' with_reducible first
    | assumption | apply enterHoldover_kept | apply kept_ite | split | dsimp only | apply kept_mk


theorem ppsAccept_kept {pq : List Instr} (sec : Nat) (at' : Nat) (s : State) (h_s : Kept pq s) : Kept pq (ppsAccept sec at' s) := by
  unfold ppsAccept
  repeat' with_reducible first
    | assumption | apply correct_kept | apply timeTree_kept | dsimp only | apply kept_mk


theorem execPpsInEdge_kept {pq : List Instr} (s : State) (h_s : Kept pq s) : KeptO pq (execPpsInEdge s) := by
  unfold execPpsInEdge
  repeat' with_reducible first
    | assumption | apply kept_next | apply bump_kept | apply ppsFail_kept | apply ppsAccept_kept | apply kept_ite
    | split | dsimp only | refine kept_snd (by assumption) ?_ | refine kept_snd2 (by assumption) ?_
    | refine kept_fst (by assumption) ?_ | refine kept_some (by assumption) ?_ | apply kept_mk


theorem execPpsEdgeMissing_kept {pq : List Instr} (s : State) (h_s : Kept pq s) : KeptO pq (execPpsEdgeMissing s) := by
  unfold execPpsEdgeMissing
  repeat' with_reducible first
    | assumption | apply kept_next | apply ppsFail_kept | apply kept_ite | split | dsimp only
    | refine kept_snd (by assumption) ?_ | refine kept_snd2 (by assumption) ?_ | refine kept_fst (by assumption) ?_
    | refine kept_some (by assumption) ?_ | apply kept_mk


theorem execPpsOutPulse_kept {pq : List Instr} (s : State) (h_s : Kept pq s) : KeptO pq (execPpsOutPulse s) := by
  unfold execPpsOutPulse
  repeat' with_reducible first
    | assumption | apply kept_next | apply emit_kept | apply kept_ite | split | dsimp only


theorem execRef10mChange_kept {pq : List Instr} (present : Bool) (s : State) (h_s : Kept pq s) : KeptO pq (execRef10mChange present s) := by
  unfold execRef10mChange
  repeat' with_reducible first
    | assumption | apply kept_next | dsimp only | apply kept_mk


theorem fireTimer_kept {pq : List Instr} (n : Nat) (s : State) (h_s : Kept pq s) : Kept pq (fireTimer n s) := by
  unfold fireTimer
  repeat' with_reducible first
    | assumption | apply setReg_kept | apply sendToken_kept | dsimp only


theorem timerArmed_kept {pq : List Instr} (n : Nat) (s : State) (h_s : Kept pq s) : Kept pq (timerArmed n s) := by
  unfold timerArmed
  repeat' with_reducible first
    | assumption | apply bump_kept | apply fireTimer_kept | apply kept_ite | split | dsimp only


theorem execLineTimerExpiry_kept {pq : List Instr} (timer : BitVec 3) (s : State) (h_s : Kept pq s) : KeptO pq (execLineTimerExpiry timer s) := by
  unfold execLineTimerExpiry
  repeat' with_reducible first
    | assumption | apply kept_next | apply fireTimer_kept | split | dsimp only


theorem kTimeTimer_kept {pq : List Instr} (x0 : CmdHdr) (timer : Byte) (ctl : W32) (expiry : W64) (s : State) (h_s : Kept pq s) : Kept pq (kTimeTimer x0 timer ctl expiry s).s := by
  unfold kTimeTimer
  repeat' with_reducible first
    | assumption | apply setReg_kept | apply kOk_kept | apply kFail_kept | apply timerArmed_kept | apply kept_ite
    | split | dsimp only


theorem kTimeEpoch_kept {pq : List Instr} (hd : CmdHdr) (epoch : W64) (ppsSecond : W64) (s : State) (h_s : Kept pq s) : Kept pq (kTimeEpoch hd epoch ppsSecond s).s := by
  unfold kTimeEpoch
  repeat' with_reducible first
    | assumption | apply setReg_kept | apply kOk_kept | apply kFail_kept | apply touchCfg_kept | apply kept_ite
    | split | dsimp only | apply kept_mk


theorem kTimeQuery_kept {pq : List Instr} (hd : CmdHdr) (buf : Buf) (s : State) (h_s : Kept pq s) : Kept pq (kTimeQuery hd buf s).s := by
  unfold kTimeQuery
  repeat' with_reducible first
    | assumption | apply withBuf_kept | apply deliver_kept | dsimp only | apply kept_id | apply kept_mk


theorem pathsInstall_kept {pq : List Instr} (pb : List Byte) (s : State) (h_s : Kept pq s) : Kept pq (pathsInstall pb s) := by
  unfold pathsInstall
  repeat' with_reducible first
    | intro _ | assumption | apply kept_foldl | apply setPath_kept | apply followParent_kept | dsimp only
    | apply kept_mk


theorem kTimePathSet_kept {pq : List Instr} (hd : CmdHdr) (s : State) (h_s : Kept pq s) : Kept pq (kTimePathSet hd s).s := by
  unfold kTimePathSet
  repeat' with_reducible first
    | assumption | apply kOk_kept | apply pathsInstall_kept | dsimp only


theorem kBudgetSet_kept {pq : List Instr} (hd : CmdHdr) (s : State) (h_s : Kept pq s) : Kept pq (kBudgetSet hd s).s := by
  have key : ∀ q, kBudgetSet hd s = q → Kept pq q.s := by
    intro q hq
    unfold kBudgetSet at hq
    dsimp only at hq
    split at hq
    · subst hq; exact kFail_kept _ _ _ (bump_kept _ _ h_s)
    · split at hq
      · subst hq; exact kFail_kept _ _ _ (bump_kept _ _ h_s)
      · subst hq; exact kDefer_kept _ (kept_mk h_s ..)
  exact key _ rfl


theorem installShares_kept {pq : List Instr} (ws : List Nat) (prof : Nat) (s : State) (h_s : Kept pq s) : Kept pq (installShares ws prof s) := by
  unfold installShares
  repeat' with_reducible first
    | intro _ | assumption | apply kept_foldl | apply setReg_kept | dsimp only


theorem applyBudget_kept {pq : List Instr} (s : State) (h_s : Kept pq s) : Kept pq (applyBudget s) := by
  unfold applyBudget
  repeat' with_reducible first
    | assumption | apply postReply_kept | apply installShares_kept | apply kept_ite | split | dsimp only
    | refine kept_snd (by assumption) ?_ | refine kept_snd2 (by assumption) ?_ | refine kept_fst (by assumption) ?_
    | refine kept_some (by assumption) ?_ | apply kept_mk


theorem applyPeriod_kept {pq : List Instr} (s : State) (h_s : Kept pq s) : Kept pq (applyPeriod s) := by
  unfold applyPeriod
  repeat' with_reducible first
    | assumption | apply kept_ite | split | dsimp only | refine kept_snd (by assumption) ?_
    | refine kept_snd2 (by assumption) ?_ | refine kept_fst (by assumption) ?_ | refine kept_some (by assumption) ?_
    | apply kept_mk


theorem execBudgetPeriodBoundary_kept {pq : List Instr} (s : State) (h_s : Kept pq s) : KeptO pq (execBudgetPeriodBoundary s) := by
  unfold execBudgetPeriodBoundary
  repeat' with_reducible first
    | intro _ | assumption | apply kept_next | apply kept_foldl | apply bump_kept | apply portPeriod_kept
    | apply applyBudget_kept | apply applyPeriod_kept | apply kept_ite | split | dsimp only | apply kept_mk


end Sys2Proof.Machine
end

