-- ==== Sys2Proof/Laws/KeptFabricRx.lean ====
section
/-!
SUPPORT. The functions of Machine/FabricRx.lean keep the queue and the canonical form of memory.
-/
namespace Sys2Proof.Machine

theorem tgtDrop_kept {pq : List Instr} (p : Nat) (s : State) (h_s : Kept pq s) : Kept pq (tgtDrop p s) := by
  unfold tgtDrop
  repeat' with_reducible first
    | assumption | apply bump_kept | dsimp only


theorem rxWrite_kept {pq : List Instr} (p : Nat) (f : RxFrame) (s : State) (h_s : Kept pq s) : Kept pq (rxWrite p f s) := by
  unfold rxWrite
  repeat' with_reducible first
    | assumption | apply bump_kept | apply writeTo_kept | apply tgtDrop_kept | apply kept_ite | split | dsimp only


theorem markSlow_kept {pq : List Instr} (hn : Nat) (i : Nat) (s : State) (h_s : Kept pq s) : Kept pq (markSlow hn i s) := by
  unfold markSlow
  repeat' with_reducible first
    | assumption | apply bump_kept | apply setRun_kept | apply colEvent_kept | apply kept_ite | split | dsimp only
    | refine kept_snd (by assumption) ?_ | refine kept_snd2 (by assumption) ?_ | refine kept_fst (by assumption) ?_
    | refine kept_some (by assumption) ?_ | apply kept_mk


theorem markPlumb_kept {pq : List Instr} (hn : Nat) (i : Nat) (f : RxFrame) (s : State) (h_s : Kept pq s) : Kept pq (markPlumb hn i f s) := by
  unfold markPlumb
  repeat' with_reducible first
    | assumption | apply bump_kept | apply setRun_kept | apply colEvent_kept | apply kept_ite | split | dsimp only
    | refine kept_snd (by assumption) ?_ | refine kept_snd2 (by assumption) ?_ | refine kept_fst (by assumption) ?_
    | refine kept_some (by assumption) ?_ | apply kept_mk


theorem noteSender_kept {pq : List Instr} (hn : Nat) (i : Nat) (f : RxFrame) (s : State) (h_s : Kept pq s) : Kept pq (noteSender hn i f s) := by
  unfold noteSender
  repeat' with_reducible first
    | assumption | apply markSlow_kept | apply markPlumb_kept | apply kept_ite | split | dsimp only


theorem rxContrib_kept {pq : List Instr} (p : Nat) (hn : Nat) (hd : Handle) (f : RxFrame) (s : State) (h_s : Kept pq s) : Kept pq (rxContrib p hn hd f s) := by
  unfold rxContrib
  repeat' with_reducible first
    | assumption | apply bump_kept | apply ownerAdd_kept | apply noteLast_kept | apply tgtDrop_kept
    | apply noteSender_kept | apply kept_ite | split | dsimp only | refine kept_snd (by assumption) ?_
    | refine kept_snd2 (by assumption) ?_ | refine kept_fst (by assumption) ?_ | refine kept_some (by assumption) ?_
    | apply kept_mk


theorem gotPart_kept {pq : List Instr} (hn : Nat) (j : Nat) (s : State) (h_s : Kept pq s) : Kept pq (gotPart hn j s) := by
  unfold gotPart
  repeat' with_reducible first
    | assumption | apply setRun_kept | apply kept_ite | split | dsimp only | refine kept_snd (by assumption) ?_
    | refine kept_snd2 (by assumption) ?_ | refine kept_fst (by assumption) ?_ | refine kept_some (by assumption) ?_
    | apply kept_mk


theorem rxAccumulators_kept {pq : List Instr} (p : Nat) (f : RxFrame) (s : State) (h_s : Kept pq s) : Kept pq (rxAccumulators p f s) := by
  unfold rxAccumulators
  repeat' with_reducible first
    | assumption | apply writeTo_kept | apply tgtDrop_kept | apply kept_ite | split | dsimp only
    | refine kept_snd (by assumption) ?_ | refine kept_snd2 (by assumption) ?_ | refine kept_fst (by assumption) ?_
    | refine kept_some (by assumption) ?_ | apply kept_mk


theorem rxResult_kept {pq : List Instr} (p : Nat) (hn : Nat) (hd : Handle) (f : RxFrame) (s : State) (h_s : Kept pq s) : Kept pq (rxResult p hn hd f s) := by
  unfold rxResult
  repeat' with_reducible first
    | intro _ | assumption | apply bump_kept | apply writeTo_kept | apply tgtDrop_kept | apply noteSender_kept
    | apply gotPart_kept | apply rxAccumulators_kept | apply kept_ite | split | dsimp only
    | refine kept_snd (by assumption) ?_ | refine kept_snd2 (by assumption) ?_ | refine kept_fst (by assumption) ?_
    | refine kept_some (by assumption) ?_ | apply kept_mk


theorem rxCredit_kept {pq : List Instr} (p : Nat) (f : RxFrame) (s : State) (h_s : Kept pq s) : Kept pq (rxCredit p f s) := by
  unfold rxCredit
  repeat' with_reducible first
    | assumption | apply bump_kept | apply send_kept | apply tgtDrop_kept | apply kept_ite | split | dsimp only


theorem rxRunCtrl_kept {pq : List Instr} (p : Nat) (code : Nat) (f : RxFrame) (s : State) (h_s : Kept pq s) : Kept pq (rxRunCtrl p code f s) := by
  unfold rxRunCtrl
  repeat' with_reducible first
    | intro _ | assumption | apply excludeMember_kept | apply partLost_kept | apply tgtDrop_kept | apply markSlow_kept
    | apply markPlumb_kept | apply kept_ite | split | dsimp only | refine kept_snd (by assumption) ?_
    | refine kept_snd2 (by assumption) ?_ | refine kept_fst (by assumption) ?_ | refine kept_some (by assumption) ?_
    | apply kept_mk


theorem rxFlowClose_kept {pq : List Instr} (f : RxFrame) (s : State) (h_s : Kept pq s) : Kept pq (rxFlowClose f s) := by
  unfold rxFlowClose
  repeat' with_reducible first
    | assumption | apply setRx_kept | apply sendAck_kept | apply kept_ite | split | dsimp only
    | refine kept_some (by assumption) ?_ | apply kept_mk


theorem rxBuddy_kept {pq : List Instr} (f : RxFrame) (s : State) (h_s : Kept pq s) : Kept pq (rxBuddy f s) := by
  unfold rxBuddy
  repeat' with_reducible first
    | assumption | apply bump_kept | apply lossLog_kept | apply sendCtrl_kept | apply kept_ite | split | dsimp only
    | apply kept_mk


theorem rxCtrl_kept {pq : List Instr} (p : Nat) (f : RxFrame) (s : State) (h_s : Kept pq s) : Kept pq (rxCtrl p f s) := by
  unfold rxCtrl
  repeat' with_reducible first
    | assumption | apply tgtDrop_kept | apply rxRunCtrl_kept | apply rxFlowClose_kept | apply rxBuddy_kept | split
    | dsimp only | refine kept_some (by assumption) ?_ | apply kept_mk


theorem rxTarget_kept {pq : List Instr} (p : Nat) (f : RxFrame) (s : State) (h_s : Kept pq s) : Kept pq (rxTarget p f s) := by
  unfold rxTarget
  repeat' with_reducible first
    | assumption | apply queueArrive_kept | apply tgtDrop_kept | apply rxWrite_kept | apply rxContrib_kept
    | apply rxResult_kept | apply rxCredit_kept | apply rxCtrl_kept | apply kept_ite | split | dsimp only
    | refine kept_snd (by assumption) ?_ | refine kept_snd2 (by assumption) ?_ | refine kept_fst (by assumption) ?_
    | refine kept_some (by assumption) ?_ | apply kept_mk


theorem rxSequence_kept {pq : List Instr} (p : Nat) (f : RxFrame) (s : State) (h_s : Kept pq s) : Kept pq (rxSequence p f s) := by
  unfold rxSequence
  repeat' with_reducible first
    | assumption | apply bump_kept | apply setRx_kept | apply sendAck_kept | apply sendNack_kept | apply rxTarget_kept
    | apply kept_ite | split | dsimp only | refine kept_snd (by assumption) ?_ | refine kept_snd2 (by assumption) ?_
    | refine kept_fst (by assumption) ?_ | refine kept_some (by assumption) ?_ | apply kept_mk


theorem rxRelay_kept {pq : List Instr} (p : Nat) (f : RxFrame) (s : State) (h_s : Kept pq s) : Kept pq (rxRelay p f s) := by
  unfold rxRelay
  repeat' with_reducible first
    | assumption | apply bump_kept | apply transmit_kept | apply tgtDrop_kept | apply kept_ite | split | dsimp only
    | refine kept_snd (by assumption) ?_ | refine kept_snd2 (by assumption) ?_ | refine kept_fst (by assumption) ?_
    | refine kept_some (by assumption) ?_ | apply kept_mk


theorem notePlumb_kept {pq : List Instr} (p : Nat) (f : RxFrame) (s : State) (h_s : Kept pq s) : Kept pq (notePlumb p f s) := by
  unfold notePlumb
  repeat' with_reducible first
    | assumption | apply setReg_kept | apply bump_kept | apply kept_ite | split | dsimp only


theorem rxOwn_kept {pq : List Instr} (p : Nat) (f : RxFrame) (s : State) (h_s : Kept pq s) : Kept pq (rxOwn p f s) := by
  unfold rxOwn
  repeat' with_reducible first
    | assumption | apply resendFrom_kept | apply restartFlow_kept | apply ackFlow_kept | apply sendTimeFrame_kept
    | apply timeMessage_kept | apply tgtDrop_kept | apply rxCtrl_kept | apply rxSequence_kept | apply kept_ite | split
    | dsimp only | refine kept_snd (by assumption) ?_ | refine kept_snd2 (by assumption) ?_
    | refine kept_fst (by assumption) ?_ | refine kept_some (by assumption) ?_ | apply kept_mk


theorem receiveForm_kept {pq : List Instr} (p : Nat) (frame : List Byte) (form : Option Contribution) (s : State) (h_s : Kept pq s) : Kept pq (receiveForm p frame form s) := by
  unfold receiveForm
  repeat' with_reducible first
    | intro _ | assumption | apply bump_kept | apply postEvent_kept | apply tgtDrop_kept | apply rxRelay_kept
    | apply notePlumb_kept | apply rxOwn_kept | apply kept_ite | split | dsimp only
    | refine kept_snd (by assumption) ?_ | refine kept_snd2 (by assumption) ?_ | refine kept_fst (by assumption) ?_
    | refine kept_some (by assumption) ?_ | apply kept_mk


theorem receiveFrame_kept {pq : List Instr} (p : Nat) (frame : List Byte) (s : State) (h_s : Kept pq s) : Kept pq (receiveFrame p frame s) := by
  unfold receiveFrame
  repeat' with_reducible first
    | assumption | apply receiveForm_kept | dsimp only


theorem execWriteFrameReceive_kept {pq : List Instr} (port : BitVec 4) (frame : List Byte) (s : State) (h_s : Kept pq s) : KeptO pq (execWriteFrameReceive port frame s) := by
  unfold execWriteFrameReceive
  repeat' with_reducible first
    | assumption | apply kept_next | apply receiveFrame_kept | dsimp only


theorem execContribFrameReceive_kept {pq : List Instr} (port : BitVec 4) (frame : ContribFrame) (s : State) (h_s : Kept pq s) : KeptO pq (execContribFrameReceive port frame s) := by
  unfold execContribFrameReceive
  repeat' with_reducible first
    | assumption | apply kept_next | apply receiveForm_kept | dsimp only


theorem execResultFrameReceive_kept {pq : List Instr} (port : BitVec 4) (frame : List Byte) (s : State) (h_s : Kept pq s) : KeptO pq (execResultFrameReceive port frame s) := by
  unfold execResultFrameReceive
  repeat' with_reducible first
    | assumption | apply kept_next | apply receiveFrame_kept | dsimp only


theorem execCreditFrameReceive_kept {pq : List Instr} (port : BitVec 4) (frame : List Byte) (s : State) (h_s : Kept pq s) : KeptO pq (execCreditFrameReceive port frame s) := by
  unfold execCreditFrameReceive
  repeat' with_reducible first
    | assumption | apply kept_next | apply receiveFrame_kept | dsimp only


theorem execAckFrameReceive_kept {pq : List Instr} (port : BitVec 4) (frame : List Byte) (s : State) (h_s : Kept pq s) : KeptO pq (execAckFrameReceive port frame s) := by
  unfold execAckFrameReceive
  repeat' with_reducible first
    | assumption | apply kept_next | apply receiveFrame_kept | dsimp only


theorem execNackFrameReceive_kept {pq : List Instr} (port : BitVec 4) (frame : List Byte) (s : State) (h_s : Kept pq s) : KeptO pq (execNackFrameReceive port frame s) := by
  unfold execNackFrameReceive
  repeat' with_reducible first
    | assumption | apply kept_next | apply receiveFrame_kept | dsimp only


theorem execCtrlExcludeSelf_kept {pq : List Instr} (port : BitVec 4) (frame : List Byte) (s : State) (h_s : Kept pq s) : KeptO pq (execCtrlExcludeSelf port frame s) := by
  unfold execCtrlExcludeSelf
  repeat' with_reducible first
    | assumption | apply kept_next | apply receiveFrame_kept | dsimp only


theorem execCtrlSlow_kept {pq : List Instr} (port : BitVec 4) (frame : List Byte) (s : State) (h_s : Kept pq s) : KeptO pq (execCtrlSlow port frame s) := by
  unfold execCtrlSlow
  repeat' with_reducible first
    | assumption | apply kept_next | apply receiveFrame_kept | dsimp only


theorem execCtrlPartLost_kept {pq : List Instr} (port : BitVec 4) (frame : List Byte) (s : State) (h_s : Kept pq s) : KeptO pq (execCtrlPartLost port frame s) := by
  unfold execCtrlPartLost
  repeat' with_reducible first
    | assumption | apply kept_next | apply receiveFrame_kept | dsimp only


theorem execCtrlFlowClose_kept {pq : List Instr} (port : BitVec 4) (frame : List Byte) (s : State) (h_s : Kept pq s) : KeptO pq (execCtrlFlowClose port frame s) := by
  unfold execCtrlFlowClose
  repeat' with_reducible first
    | assumption | apply kept_next | apply receiveFrame_kept | dsimp only


theorem execCtrlBuddyCheck_kept {pq : List Instr} (port : BitVec 4) (frame : List Byte) (s : State) (h_s : Kept pq s) : KeptO pq (execCtrlBuddyCheck port frame s) := by
  unfold execCtrlBuddyCheck
  repeat' with_reducible first
    | assumption | apply kept_next | apply receiveFrame_kept | dsimp only


theorem execTimeFrameReceive_kept {pq : List Instr} (port : BitVec 4) (frame : List Byte) (s : State) (h_s : Kept pq s) : KeptO pq (execTimeFrameReceive port frame s) := by
  unfold execTimeFrameReceive
  repeat' with_reducible first
    | assumption | apply kept_next | apply receiveFrame_kept | dsimp only


theorem stayDown_kept {pq : List Instr} (p : Nat) (s : State) (h_s : Kept pq s) : Kept pq (stayDown p s) := by
  unfold stayDown
  repeat' with_reducible first
    | assumption | apply setPort_kept | dsimp only | apply kept_mk


theorem execPauseFrameReceive_kept {pq : List Instr} (port : BitVec 4) (enable : Byte) (times : List W16) (s : State) (h_s : Kept pq s) : KeptO pq (execPauseFrameReceive port enable times s) := by
  unfold execPauseFrameReceive
  repeat' with_reducible first
    | intro _ | assumption | apply kept_next | apply kept_foldl | apply kept_foldl_snd | apply kept_foldl_snd2
    | apply kept_foldl_fst | apply bump_kept | apply setPort_kept | apply pumpPort_kept | apply kept_ite | split
    | dsimp only | apply kept_mk


theorem execPauseTimeExpiry_kept {pq : List Instr} (port : BitVec 4) (prio : BitVec 3) (s : State) (h_s : Kept pq s) : KeptO pq (execPauseTimeExpiry port prio s) := by
  unfold execPauseTimeExpiry
  repeat' with_reducible first
    | assumption | apply kept_next | apply setPort_kept | apply pumpPort_kept | apply kept_ite | split | dsimp only
    | apply kept_mk


theorem execPauseWatchdogExpiry_kept {pq : List Instr} (port : BitVec 4) (prio : BitVec 3) (s : State) (h_s : Kept pq s) : KeptO pq (execPauseWatchdogExpiry port prio s) := by
  unfold execPauseWatchdogExpiry
  repeat' with_reducible first
    | assumption | apply kept_next | apply bump_kept | apply portDown_kept | apply excludeAllUnreachable_kept
    | apply stayDown_kept | apply kept_ite | split | dsimp only


theorem execLaneFail_kept {pq : List Instr} (port : BitVec 4) (lane : BitVec 2) (s : State) (h_s : Kept pq s) : KeptO pq (execLaneFail port lane s) := by
  unfold execLaneFail
  repeat' with_reducible first
    | assumption | apply kept_next | apply bump_kept | apply setPort_kept | apply portDown_kept
    | apply excludeAllUnreachable_kept | apply stayDown_kept | apply kept_ite | split | dsimp only | apply kept_mk


theorem execPortTrainingComplete_kept {pq : List Instr} (port : BitVec 4) (lanes : BitVec 4) (credits : Bool) (peer : W16) (s : State) (h_s : Kept pq s) : KeptO pq (execPortTrainingComplete port lanes credits peer s) := by
  unfold execPortTrainingComplete
  repeat' with_reducible first
    | assumption | apply kept_next | apply setPort_kept | apply forgivePort_kept | apply setPath_kept | apply kept_ite
    | split | dsimp only | apply kept_mk


theorem execLinkCreditTimeout_kept {pq : List Instr} (port : BitVec 4) (s : State) (h_s : Kept pq s) : KeptO pq (execLinkCreditTimeout port s) := by
  unfold execLinkCreditTimeout
  repeat' with_reducible first
    | assumption | apply kept_next | apply bump_kept | apply setPort_kept | apply stayDown_kept | apply kept_ite
    | split | dsimp only | apply kept_mk


theorem execRetransmitTimeout_kept {pq : List Instr} (dst : W16) (prio : BitVec 3) (s : State) (h_s : Kept pq s) : KeptO pq (execRetransmitTimeout dst prio s) := by
  unfold execRetransmitTimeout
  repeat' with_reducible first
    | assumption | apply kept_next | apply bump_kept | apply setTx_kept | apply makeUnreachable_kept
    | apply resendFrom_kept | apply repinFlow_kept | apply excludeAllUnreachable_kept | apply kept_ite | split
    | dsimp only | refine kept_snd (by assumption) ?_ | refine kept_snd2 (by assumption) ?_
    | refine kept_fst (by assumption) ?_ | refine kept_some (by assumption) ?_ | apply kept_mk


theorem execFlowIdleTimeout_kept {pq : List Instr} (dst : W16) (prio : BitVec 3) (s : State) (h_s : Kept pq s) : KeptO pq (execFlowIdleTimeout dst prio s) := by
  unfold execFlowIdleTimeout
  repeat' with_reducible first
    | assumption | apply kept_next | apply setTx_kept | apply sendCtrl_kept | apply kept_ite | split | dsimp only
    | refine kept_snd (by assumption) ?_ | refine kept_snd2 (by assumption) ?_ | refine kept_fst (by assumption) ?_
    | refine kept_some (by assumption) ?_ | apply kept_mk


theorem execAckTimer_kept {pq : List Instr} (src : W16) (prio : BitVec 3) (s : State) (h_s : Kept pq s) : KeptO pq (execAckTimer src prio s) := by
  unfold execAckTimer
  repeat' with_reducible first
    | assumption | apply kept_next | apply setRx_kept | apply sendAck_kept | apply kept_ite | split | dsimp only
    | refine kept_snd (by assumption) ?_ | refine kept_snd2 (by assumption) ?_ | refine kept_fst (by assumption) ?_
    | refine kept_some (by assumption) ?_ | apply kept_mk


theorem execUnreachableProbe_kept {pq : List Instr} (dst : W16) (s : State) (h_s : Kept pq s) : KeptO pq (execUnreachableProbe dst s) := by
  unfold execUnreachableProbe
  repeat' with_reducible first
    | assumption | apply kept_next | apply sendFlow_kept | apply resendFrom_kept | apply kept_ite | split | dsimp only
    | refine kept_snd (by assumption) ?_ | refine kept_snd2 (by assumption) ?_ | refine kept_fst (by assumption) ?_
    | refine kept_some (by assumption) ?_ | apply kept_mk


theorem execSmallCollWaitExpiry_kept {pq : List Instr} (handle : BitVec 2) (missing : List W16) (s : State) (h_s : Kept pq s) : KeptO pq (execSmallCollWaitExpiry handle missing s) := by
  unfold execSmallCollWaitExpiry
  repeat' with_reducible first
    | intro _ | assumption | apply kept_next | apply kept_foldl | apply bump_kept | apply emit_kept
    | apply colEvent_kept | apply kept_ite | split | dsimp only


theorem execCoordinatorTakeover_kept {pq : List Instr} (handle : BitVec 2) (s : State) (h_s : Kept pq s) : KeptO pq (execCoordinatorTakeover handle s) := by
  unfold execCoordinatorTakeover
  repeat' with_reducible first
    | assumption | apply kept_next | apply bump_kept | apply emit_kept | apply colEvent_kept | apply endStep_kept
    | apply excludeAbsent_kept | apply kept_ite | split | dsimp only | refine kept_snd (by assumption) ?_
    | refine kept_snd2 (by assumption) ?_ | refine kept_fst (by assumption) ?_ | refine kept_some (by assumption) ?_
    | apply kept_mk


theorem fabricInstall_kept {pq : List Instr} (pb : List Byte) (s : State) (h_s : Kept pq s) : Kept pq (fabricInstall pb s) := by
  unfold fabricInstall
  repeat' with_reducible first
    | intro _ | assumption | apply kept_foldl | apply setReg_kept | apply portCfgSet_kept | apply buddySet_kept
    | apply touchCfg_kept | dsimp only


theorem kFabricConfig_kept {pq : List Instr} (hd : CmdHdr) (s : State) (h_s : Kept pq s) : Kept pq (kFabricConfig hd s).s := by
  unfold kFabricConfig
  repeat' with_reducible first
    | assumption | apply kOk_kept | apply kFail_kept | apply fabricInstall_kept | apply kept_ite | split | dsimp only


theorem routesInstall_kept {pq : List Instr} (pb : List Byte) (s : State) (h_s : Kept pq s) : Kept pq (routesInstall pb s) := by
  unfold routesInstall
  repeat' with_reducible first
    | intro _ | assumption | apply kept_foldl | apply kept_foldl_snd | apply kept_foldl_snd2 | apply kept_foldl_fst
    | apply repinFlow_kept | apply excludeAllUnreachable_kept | apply kept_ite | split | dsimp only
    | refine kept_snd (by assumption) ?_ | refine kept_snd2 (by assumption) ?_ | refine kept_fst (by assumption) ?_
    | refine kept_some (by assumption) ?_ | apply kept_mk


theorem kFabricRouteLoad_kept {pq : List Instr} (hd : CmdHdr) (s : State) (h_s : Kept pq s) : Kept pq (kFabricRouteLoad hd s).s := by
  unfold kFabricRouteLoad
  repeat' with_reducible first
    | assumption | apply kOk_kept | apply kFail_kept | apply routesInstall_kept | apply kept_ite | split | dsimp only


theorem kFabricQuery_kept {pq : List Instr} (hd : CmdHdr) (buf : Buf) (s : State) (h_s : Kept pq s) : Kept pq (kFabricQuery hd buf s).s := by
  unfold kFabricQuery
  repeat' with_reducible first
    | assumption | apply withBuf_kept | apply deliver_kept | dsimp only | apply kept_id | apply kept_mk


end Sys2Proof.Machine
end

