-- ==== Sys2Proof/Laws/KeptSec.lean ====
section
/-!
SUPPORT. The functions of Machine/Sec.lean keep the queue and the canonical form of memory.
-/
namespace Sys2Proof.Machine

theorem bootIsland_kept {pq : List Instr} (s : State) (h_s : Kept pq s) : Kept pq (bootIsland s) := by
  unfold bootIsland
  repeat' with_reducible first
    | intro _ | assumption | apply bumpN_kept | apply kept_ite | split | dsimp only
    | refine kept_snd (by assumption) ?_ | refine kept_snd2 (by assumption) ?_ | refine kept_fst (by assumption) ?_
    | refine kept_some (by assumption) ?_ | apply kept_mk


theorem clearIsland_kept {pq : List Instr} (s : State) (h_s : Kept pq s) : Kept pq (clearIsland s) := by
  unfold clearIsland
  repeat' with_reducible first
    | assumption | dsimp only | apply kept_mk


theorem installImage_kept {pq : List Instr} (im : List Byte) (activate : Bool) (s : State) (h_s : Kept pq s) : Kept pq (installImage im activate s).1 := by
  unfold installImage
  repeat' with_reducible first
    | assumption | apply bump_kept | apply kept_ite | split | dsimp only | apply kept_mk


theorem kFwUpdate_kept {pq : List Instr} (hd : CmdHdr) (s : State) (h_s : Kept pq s) : Kept pq (kFwUpdate hd s).s := by
  unfold kFwUpdate
  repeat' with_reducible first
    | assumption | apply kOk_kept | apply kFail_kept | apply dmaRefuse_kept | apply installImage_kept | apply kept_ite
    | split | dsimp only | refine kept_snd (by assumption) ?_ | refine kept_snd2 (by assumption) ?_
    | refine kept_fst (by assumption) ?_ | refine kept_some (by assumption) ?_


theorem kSecOwnerEnrol_kept {pq : List Instr} (hd : CmdHdr) (s : State) (h_s : Kept pq s) : Kept pq (kSecOwnerEnrol hd s).s := by
  unfold kSecOwnerEnrol
  repeat' with_reducible first
    | assumption | apply kOk_kept | apply kFail_kept | apply kept_ite | split | dsimp only | apply kept_mk


theorem kSecRollbackSet_kept {pq : List Instr} (hd : CmdHdr) (s : State) (h_s : Kept pq s) : Kept pq (kSecRollbackSet hd s).s := by
  unfold kSecRollbackSet
  repeat' with_reducible first
    | assumption | apply kOk_kept | apply kFail_kept | apply kept_ite | split | dsimp only | apply kept_mk


theorem keyInstall_kept {pq : List Instr} (slot : Nat) (kind : Nat) (key : List Byte) (blob : List Byte) (s : State) (h_s : Kept pq s) : Kept pq (keyInstall slot kind key blob s) := by
  unfold keyInstall
  repeat' with_reducible first
    | assumption | apply bump_kept | apply kept_ite | split | dsimp only | apply kept_mk


theorem kSecKeyLoad_kept {pq : List Instr} (hd : CmdHdr) (s : State) (h_s : Kept pq s) : Kept pq (kSecKeyLoad hd s).s := by
  unfold kSecKeyLoad
  repeat' with_reducible first
    | assumption | apply bump_kept | apply kOk_kept | apply kFail_kept | apply keyInstall_kept | apply kept_ite
    | split | dsimp only | refine kept_snd (by assumption) ?_ | refine kept_snd2 (by assumption) ?_
    | refine kept_fst (by assumption) ?_ | refine kept_some (by assumption) ?_ | apply kept_mk


theorem kSecKeyClear_kept {pq : List Instr} (x0 : CmdHdr) (slot : Byte) (s : State) (h_s : Kept pq s) : Kept pq (kSecKeyClear x0 slot s).s := by
  unfold kSecKeyClear
  repeat' with_reducible first
    | assumption | apply kOk_kept | apply kFail_kept | apply kept_ite | split | dsimp only | apply kept_mk


theorem extendMr7_kept {pq : List Instr} (d : List Byte) (s : State) (h_s : Kept pq s) : Kept pq (extendMr7 d s) := by
  unfold extendMr7
  repeat' with_reducible first
    | assumption | dsimp only | apply kept_mk


theorem measureImages_kept {pq : List Instr} (ims : List (List Byte)) (s : State) (h_s : Kept pq s) : Kept pq (measureImages ims s) := by
  unfold measureImages
  repeat' with_reducible first
    | intro _ | assumption | apply kept_foldl | apply extendMr7_kept | dsimp only


theorem kProgramLoadMeasured_kept {pq : List Instr} (hd : CmdHdr) (s : State) (h_s : Kept pq s) : Kept pq (kProgramLoadMeasured hd s).s := by
  unfold kProgramLoadMeasured
  repeat' with_reducible first
    | assumption | apply kProgramLoad_kept | apply measureImages_kept | apply kept_ite | split | dsimp only
    | apply kept_mk


theorem kSecIdentity_kept {pq : List Instr} (hd : CmdHdr) (buf : Buf) (s : State) (h_s : Kept pq s) : Kept pq (kSecIdentity hd buf s).s := by
  unfold kSecIdentity
  repeat' with_reducible first
    | assumption | apply withBuf_kept | apply deliver_kept | dsimp only | apply kept_id | apply kept_mk


theorem kSecAttest_kept {pq : List Instr} (hd : CmdHdr) (buf : Buf) (nonce : BitVec 256) (s : State) (h_s : Kept pq s) : Kept pq (kSecAttest hd buf nonce s).s := by
  unfold kSecAttest
  repeat' with_reducible first
    | intro _ | assumption | apply bump_kept | apply withBuf_kept | apply deliver_kept | dsimp only | apply kept_mk


theorem secExtWrite_kept {pq : List Instr} (v : Nat) (s : State) (h_s : Kept pq s) : Kept pq (secExtWrite v s) := by
  unfold secExtWrite
  repeat' with_reducible first
    | intro _ | assumption | apply extendMr7_kept | apply kept_ite | split | dsimp only


theorem setCtx_kept {pq : List Instr} (c : Nat) (v : Option CipCtx) (s : State) (h_s : Kept pq s) : Kept pq (setCtx c v s) := by
  unfold setCtx
  repeat' with_reducible first
    | assumption | dsimp only | apply kept_mk


theorem cipRead_kept {pq : List Instr} (a : Nat) (n : Nat) (s : State) (h_s : Kept pq s) : Kept pq (cipRead a n s).2 := by
  unfold cipRead
  repeat' with_reducible first
    | assumption | apply readDev_kept | split | dsimp only | refine kept_snd (by assumption) ?_
    | refine kept_snd2 (by assumption) ?_ | refine kept_fst (by assumption) ?_ | refine kept_some (by assumption) ?_


theorem cipWrite_kept {pq : List Instr} (a : Nat) (bs : List Byte) (s : State) (h_s : Kept pq s) : Kept pq (cipWrite a bs s) := by
  unfold cipWrite
  repeat' with_reducible first
    | assumption | apply writeTo_kept | dsimp only


theorem runXts_kept {pq : List Instr} (encrypt : Bool) (q : CipReq) (s : State) (h_s : Kept pq s) : Kept pq (runXts encrypt q s).2 := by
  unfold runXts
  repeat' with_reducible first
    | intro _ | assumption | apply setCtx_kept | apply cipRead_kept | apply cipWrite_kept | apply kept_ite | split
    | dsimp only | refine kept_snd (by assumption) ?_ | refine kept_snd2 (by assumption) ?_
    | refine kept_fst (by assumption) ?_ | refine kept_some (by assumption) ?_ | apply kept_mk


theorem runSeal_kept {pq : List Instr} (q : CipReq) (s : State) (h_s : Kept pq s) : Kept pq (runSeal q s).2 := by
  unfold runSeal
  repeat' with_reducible first
    | intro _ | assumption | apply setCtx_kept | apply cipRead_kept | apply cipWrite_kept | apply kept_ite | split
    | dsimp only | refine kept_snd (by assumption) ?_ | refine kept_snd2 (by assumption) ?_
    | refine kept_fst (by assumption) ?_ | refine kept_some (by assumption) ?_ | apply kept_mk


theorem runOpen_kept {pq : List Instr} (q : CipReq) (s : State) (h_s : Kept pq s) : Kept pq (runOpen q s).2 := by
  unfold runOpen
  repeat' with_reducible first
    | assumption | apply bump_kept | apply cipRead_kept | apply cipWrite_kept | apply kept_ite | split | dsimp only
    | refine kept_snd (by assumption) ?_ | refine kept_snd2 (by assumption) ?_ | refine kept_fst (by assumption) ?_
    | refine kept_some (by assumption) ?_ | apply kept_mk


theorem runSave_kept {pq : List Instr} (wrapped : Bool) (q : CipReq) (s : State) (h_s : Kept pq s) : Kept pq (runSave wrapped q s).2 := by
  unfold runSave
  repeat' with_reducible first
    | assumption | apply free256_kept | apply cipWrite_kept | apply kept_ite | split | dsimp only
    | refine kept_snd (by assumption) ?_ | refine kept_snd2 (by assumption) ?_ | refine kept_fst (by assumption) ?_
    | refine kept_some (by assumption) ?_ | apply kept_mk


theorem restoreFail_kept {pq : List Instr} (s : State) (h_s : Kept pq s) : Kept pq (restoreFail s).2 := by
  unfold restoreFail
  repeat' with_reducible first
    | assumption | apply bump_kept | dsimp only


theorem runRestore_kept {pq : List Instr} (q : CipReq) (s : State) (h_s : Kept pq s) : Kept pq (runRestore q s).2 := by
  unfold runRestore
  repeat' with_reducible first
    | assumption | apply setCtx_kept | apply cipRead_kept | apply restoreFail_kept | apply kept_ite | split
    | dsimp only | refine kept_snd (by assumption) ?_ | refine kept_snd2 (by assumption) ?_
    | refine kept_fst (by assumption) ?_ | refine kept_some (by assumption) ?_ | apply kept_mk


theorem runRequest_kept {pq : List Instr} (q : CipReq) (s : State) (h_s : Kept pq s) : Kept pq (runRequest q s).2 := by
  unfold runRequest
  repeat' with_reducible first
    | assumption | apply runXts_kept | apply runSeal_kept | apply runOpen_kept | apply runSave_kept
    | apply runRestore_kept | apply kept_ite | split | dsimp only | refine kept_snd (by assumption) ?_
    | refine kept_snd2 (by assumption) ?_ | refine kept_fst (by assumption) ?_ | refine kept_some (by assumption) ?_
    | apply kept_mk


theorem takeRequest_kept {pq : List Instr} (op : Nat) (s : State) (h_s : Kept pq s) : Kept pq (takeRequest op s) := by
  unfold takeRequest
  repeat' with_reducible first
    | assumption | apply setReg_kept | apply bump_kept | apply runRequest_kept | apply kept_ite | split | dsimp only
    | refine kept_snd (by assumption) ?_ | refine kept_snd2 (by assumption) ?_ | refine kept_fst (by assumption) ?_
    | refine kept_some (by assumption) ?_ | apply kept_mk


theorem execCipXtsEncrypt_kept {pq : List Instr} (s : State) (h_s : Kept pq s) : KeptO pq (execCipXtsEncrypt s) := by
  unfold execCipXtsEncrypt
  repeat' with_reducible first
    | assumption | apply kept_next | apply takeRequest_kept | dsimp only


theorem execCipXtsDecrypt_kept {pq : List Instr} (s : State) (h_s : Kept pq s) : KeptO pq (execCipXtsDecrypt s) := by
  unfold execCipXtsDecrypt
  repeat' with_reducible first
    | assumption | apply kept_next | apply takeRequest_kept | dsimp only


theorem execCipGcmSeal_kept {pq : List Instr} (s : State) (h_s : Kept pq s) : KeptO pq (execCipGcmSeal s) := by
  unfold execCipGcmSeal
  repeat' with_reducible first
    | assumption | apply kept_next | apply takeRequest_kept | dsimp only


theorem execCipGcmOpen_kept {pq : List Instr} (s : State) (h_s : Kept pq s) : KeptO pq (execCipGcmOpen s) := by
  unfold execCipGcmOpen
  repeat' with_reducible first
    | assumption | apply kept_next | apply takeRequest_kept | dsimp only


theorem execCipCtxSaveClear_kept {pq : List Instr} (s : State) (h_s : Kept pq s) : KeptO pq (execCipCtxSaveClear s) := by
  unfold execCipCtxSaveClear
  repeat' with_reducible first
    | assumption | apply kept_next | apply takeRequest_kept | dsimp only


theorem execCipCtxSaveWrapped_kept {pq : List Instr} (s : State) (h_s : Kept pq s) : KeptO pq (execCipCtxSaveWrapped s) := by
  unfold execCipCtxSaveWrapped
  repeat' with_reducible first
    | assumption | apply kept_next | apply takeRequest_kept | dsimp only


theorem execCipCtxRestore_kept {pq : List Instr} (s : State) (h_s : Kept pq s) : KeptO pq (execCipCtxRestore s) := by
  unfold execCipCtxRestore
  repeat' with_reducible first
    | assumption | apply kept_next | apply takeRequest_kept | dsimp only


theorem execCipRequestDone_kept {pq : List Instr} (index : BitVec 12) (s : State) (h_s : Kept pq s) : KeptO pq (execCipRequestDone index s) := by
  unfold execCipRequestDone
  repeat' with_reducible first
    | intro _ | assumption | apply kept_next | apply bump_kept | apply sendToken_kept | apply writeTo_kept | split
    | dsimp only | refine kept_snd (by assumption) ?_ | refine kept_snd2 (by assumption) ?_
    | refine kept_fst (by assumption) ?_ | refine kept_some (by assumption) ?_ | apply kept_mk


theorem cipCfgWrite_kept {pq : List Instr} (v : Nat) (s : State) (h_s : Kept pq s) : Kept pq (cipCfgWrite v s) := by
  unfold cipCfgWrite
  repeat' with_reducible first
    | assumption | apply setReg_kept | apply kept_ite | split | dsimp only


end Sys2Proof.Machine
end

