-- ==== Sys2Proof/Laws/KeptNpxWire.lean ====
section
/-!
SUPPORT. The functions of Machine/NpxWire.lean keep the queue and the canonical form of memory.
-/
namespace Sys2Proof.Machine

theorem setNpx_kept {pq : List Instr} (f : Npx → Npx) (s : State) (h_s : Kept pq s) : Kept pq (setNpx f s) := by
  unfold setNpx
  repeat' with_reducible first
    | assumption | dsimp only | apply kept_mk


theorem etherSend_kept {pq : List Instr} (p : Nat) (mac : List Byte) (cls : Nat) (packet : List Byte) (s : State) (h_s : Kept pq s) : Kept pq (etherSend p mac cls packet s) := by
  unfold etherSend
  repeat' with_reducible first
    | assumption | apply transmit_kept | dsimp only


theorem solicit_kept {pq : List Instr} (p : Nat) (s : State) (h_s : Kept pq s) : Kept pq (solicit p s) := by
  unfold solicit
  repeat' with_reducible first
    | assumption | apply etherSend_kept | dsimp only


theorem routeOut_kept {pq : List Instr} (p : Nat) (cls : Nat) (packet : List Byte) (s : State) (h_s : Kept pq s) : Kept pq (routeOut p cls packet s) := by
  unfold routeOut
  repeat' with_reducible first
    | intro _ | assumption | apply setNpx_kept | apply etherSend_kept | apply solicit_kept | split | dsimp only
    | refine kept_snd (by assumption) ?_ | refine kept_snd2 (by assumption) ?_ | refine kept_fst (by assumption) ?_
    | refine kept_some (by assumption) ?_ | apply kept_mk


theorem sendPacket_kept {pq : List Instr} (typ : Nat) (cls : Nat) (d : Partner) (outer : Nat) (egrp : Nat) (frag : Nat) (nd : Nat) (npar : Nat) (body : List Byte) (s : State) (h_s : Kept pq s) : Kept pq (sendPacket typ cls d outer egrp frag nd npar body s) := by
  unfold sendPacket
  repeat' with_reducible first
    | intro _ | assumption | apply bump_kept | apply setNpx_kept | apply routeOut_kept | apply kept_ite | split
    | dsimp only | refine kept_snd (by assumption) ?_ | refine kept_snd2 (by assumption) ?_
    | refine kept_fst (by assumption) ?_ | refine kept_some (by assumption) ?_ | apply kept_mk


theorem sendObject_kept {pq : List Instr} (typ : Nat) (d : Partner) (outer : Nat) (object : List Byte) (s : State) (h_s : Kept pq s) : Kept pq (sendObject typ d outer object s) := by
  unfold sendObject
  repeat' with_reducible first
    | intro _ | assumption | apply kept_foldl | apply kept_foldl_snd | apply kept_foldl_snd2 | apply kept_foldl_fst
    | apply sendPacket_kept | split | dsimp only | refine kept_snd (by assumption) ?_
    | refine kept_snd2 (by assumption) ?_ | refine kept_fst (by assumption) ?_ | refine kept_some (by assumption) ?_


end Sys2Proof.Machine
end

