-- ==== Sys2Proof/Laws/KeptNpx.lean ====
section
/-!
SUPPORT. The functions of Machine/Npx.lean keep the queue and the canonical form of memory.
-/
namespace Sys2Proof.Machine

theorem restage_kept {pq : List Instr} (s : State) (h_s : Kept pq s) : Kept pq (restage s) := by
  unfold restage
  repeat' with_reducible first
    | intro _ | assumption | apply kept_foldl | apply kept_foldl_snd | apply kept_foldl_snd2 | apply kept_foldl_fst
    | apply setOuter_kept | apply kept_ite | split | dsimp only | apply kept_mk


theorem stagePub_kept {pq : List Instr} (p : Pub) (s : State) (h_s : Kept pq s) : Kept pq (stagePub p s) := by
  unfold stagePub
  repeat' with_reducible first
    | intro _ | assumption | apply setNpx_kept | apply restage_kept | dsimp only | apply kept_mk


theorem settleOwn_kept {pq : List Instr} (base : Nat) (outer : Nat) (s : State) (h_s : Kept pq s) : Kept pq (settleOwn base outer s) := by
  unfold settleOwn
  repeat' with_reducible first
    | intro _ | assumption | apply setNpx_kept | apply kept_ite | split | dsimp only
    | refine kept_snd (by assumption) ?_ | refine kept_snd2 (by assumption) ?_ | refine kept_fst (by assumption) ?_
    | refine kept_some (by assumption) ?_ | apply kept_mk


theorem spread_kept {pq : List Instr} (kind : Nat) (data : List Byte) (s : State) (h_s : Kept pq s) : Kept pq (spread kind data s) := by
  unfold spread
  repeat' with_reducible first
    | assumption | apply emit_kept | dsimp only


theorem tell_kept {pq : List Instr} (d : Partner) (body : List Byte) (s : State) (h_s : Kept pq s) : Kept pq (tell d body s) := by
  unfold tell
  repeat' with_reducible first
    | assumption | apply sendPacket_kept | dsimp only


theorem tellSite_kept {pq : List Instr} (t : Nat) (body : List Byte) (s : State) (h_s : Kept pq s) : Kept pq (tellSite t body s) := by
  unfold tellSite
  repeat' with_reducible first
    | assumption | apply tell_kept | split | dsimp only | refine kept_snd (by assumption) ?_
    | refine kept_snd2 (by assumption) ?_ | refine kept_fst (by assumption) ?_ | refine kept_some (by assumption) ?_
    | apply kept_mk


theorem tellAll_kept {pq : List Instr} (body : List Byte) (s : State) (h_s : Kept pq s) : Kept pq (tellAll body s) := by
  unfold tellAll
  repeat' with_reducible first
    | intro _ | assumption | apply kept_foldl | apply tellSite_kept | apply kept_ite | split | dsimp only


theorem objectToAll_kept {pq : List Instr} (typ : Nat) (outer : Nat) (ob : List Byte) (s : State) (h_s : Kept pq s) : Kept pq (objectToAll typ outer ob s) := by
  unfold objectToAll
  repeat' with_reducible first
    | intro _ | assumption | apply kept_foldl | apply sendObject_kept | apply kept_ite | split | dsimp only
    | refine kept_snd (by assumption) ?_ | refine kept_snd2 (by assumption) ?_ | refine kept_fst (by assumption) ?_
    | refine kept_some (by assumption) ?_ | apply kept_mk


theorem request_kept {pq : List Instr} (t : Nat) (body : List Byte) (s : State) (h_s : Kept pq s) : Kept pq (request t body s) := by
  unfold request
  repeat' with_reducible first
    | assumption | apply tellSite_kept | apply kept_ite | split | dsimp only


theorem decide5_kept {pq : List Instr} (site : Nat) (body : List Byte) (s : State) (h_s : Kept pq s) : Kept pq (decide5 site body s) := by
  unfold decide5
  repeat' with_reducible first
    | assumption | apply spread_kept | dsimp only


theorem setHeard_kept {pq : List Instr} (site : Nat) (w : Nat) (s : State) (h_s : Kept pq s) : Kept pq (setHeard site w s) := by
  unfold setHeard
  repeat' with_reducible first
    | intro _ | assumption | apply setNpx_kept | dsimp only | apply kept_mk


theorem heardFrom_kept {pq : List Instr} (site : Nat) (s : State) (h_s : Kept pq s) : Kept pq (heardFrom site s) := by
  unfold heardFrom
  repeat' with_reducible first
    | assumption | apply spread_kept | apply setHeard_kept | apply kept_ite | split | dsimp only


theorem askBase_kept {pq : List Instr} (s : State) (h_s : Kept pq s) : Kept pq (askBase s) := by
  unfold askBase
  repeat' with_reducible first
    | assumption | apply bump_kept | apply npxEvent_kept | apply tellSite_kept | apply kept_ite | split | dsimp only


theorem fullFetch_kept {pq : List Instr} (s : State) (h_s : Kept pq s) : Kept pq (fullFetch s) := by
  unfold fullFetch
  repeat' with_reducible first
    | intro _ | assumption | apply setNpx_kept | apply askBase_kept | dsimp only | apply kept_mk


theorem pubFailed_kept {pq : List Instr} (v : Nat) (s : State) (h_s : Kept pq s) : Kept pq (pubFailed v s) := by
  unfold pubFailed
  repeat' with_reducible first
    | intro _ | assumption | apply setNpx_kept | apply request_kept | apply fullFetch_kept | apply kept_ite | split
    | dsimp only | apply kept_mk


theorem followEpoch_kept {pq : List Instr} (e : Nat) (home : Nat) (first : Nat) (ls : List Line) (s : State) (h_s : Kept pq s) : Kept pq (followEpoch e home first ls s) := by
  unfold followEpoch
  repeat' with_reducible first
    | intro _ | assumption | apply npxEvent_kept | apply setNpx_kept | apply restage_kept | apply fullFetch_kept
    | apply kept_ite | split | dsimp only | apply kept_mk


theorem withEpoch_kept {pq : List Instr} (e : Nat) (home : Nat) (first : Nat) (s : State) (k : State → State) (h_s : Kept pq s) (h_k : ∀ a0 : State, Kept pq a0 → Kept pq (k a0)) : Kept pq (withEpoch e home first s k) := by
  unfold withEpoch
  repeat' with_reducible first
    | assumption | apply h_k | apply followEpoch_kept | apply kept_ite | split | dsimp only


theorem startHome_kept {pq : List Instr} (e : Nat) (s : State) (h_s : Kept pq s) : Kept pq (startHome e s) := by
  unfold startHome
  repeat' with_reducible first
    | intro _ | assumption | apply setNpx_kept | apply restage_kept | dsimp only | apply kept_mk


theorem becomeHome_kept {pq : List Instr} (s : State) (h_s : Kept pq s) : Kept pq (becomeHome s) := by
  unfold becomeHome
  repeat' with_reducible first
    | intro _ | assumption | apply kept_foldl | apply bump_kept | apply npxEvent_kept | apply tellAll_kept
    | apply decide5_kept | apply heardFrom_kept | apply startHome_kept | dsimp only


theorem keepBook_kept {pq : List Instr} (b : Book) (s : State) (h_s : Kept pq s) : Kept pq (keepBook b s).1 := by
  unfold keepBook
  repeat' with_reducible first
    | intro _ | assumption | apply kept_foldl | apply bump_kept | apply kept_ite | split | dsimp only
    | refine kept_snd (by assumption) ?_ | refine kept_snd2 (by assumption) ?_ | refine kept_fst (by assumption) ?_
    | refine kept_some (by assumption) ?_ | apply kept_mk


theorem receiveBook_kept {pq : List Instr} (b : Book) (s : State) (h_s : Kept pq s) : Kept pq (receiveBook b s) := by
  unfold receiveBook
  repeat' with_reducible first
    | assumption | apply request_kept | apply keepBook_kept | apply kept_ite | split | dsimp only
    | refine kept_snd (by assumption) ?_ | refine kept_snd2 (by assumption) ?_ | refine kept_fst (by assumption) ?_
    | refine kept_some (by assumption) ?_


theorem fetchBooks_kept {pq : List Instr} (nseg : Nat) (body : List Byte) (s : State) (h_s : Kept pq s) : Kept pq (fetchBooks nseg body s) := by
  unfold fetchBooks
  repeat' with_reducible first
    | intro _ | assumption | apply kept_foldl | apply request_kept | apply kept_ite | split | dsimp only


theorem joinApply_kept {pq : List Instr} (vals : Sparse (List Nat)) (e : Nat) (v : Nat) (u : Nat) (s : State) (h_s : Kept pq s) : Kept pq (joinApply vals e v u s) := by
  unfold joinApply
  repeat' with_reducible first
    | intro _ | assumption | apply kept_foldl | apply kept_foldl_snd | apply kept_foldl_snd2 | apply kept_foldl_fst
    | apply printBlock_kept | apply writeRecord_kept | apply unitStore_kept | apply setOuter_kept | apply setNpx_kept
    | apply kept_ite | split | dsimp only | refine kept_snd (by assumption) ?_ | refine kept_snd2 (by assumption) ?_
    | refine kept_fst (by assumption) ?_ | refine kept_some (by assumption) ?_ | apply kept_mk


theorem addDelta_kept {pq : List Instr} (site : Nat) (at' : Nat) (ob : List Byte) (s : State) (h_s : Kept pq s) : Kept pq (addDelta site at' ob s) := by
  unfold addDelta
  repeat' with_reducible first
    | intro _ | assumption | apply setNpx_kept | apply kept_ite | split | dsimp only
    | refine kept_snd (by assumption) ?_ | refine kept_snd2 (by assumption) ?_ | refine kept_fst (by assumption) ?_
    | refine kept_some (by assumption) ?_ | apply kept_mk


theorem holdDelta_kept {pq : List Instr} (site : Nat) (ob : List Byte) (s : State) (h_s : Kept pq s) : Kept pq (holdDelta site ob s) := by
  unfold holdDelta
  repeat' with_reducible first
    | assumption | apply bump_kept | apply spread_kept | apply heardFrom_kept | apply addDelta_kept | apply kept_ite
    | split | dsimp only


theorem dropClosing_kept {pq : List Instr} (w : Nat) (s : State) (h_s : Kept pq s) : Kept pq (dropClosing w s) := by
  unfold dropClosing
  repeat' with_reducible first
    | intro _ | assumption | apply setNpx_kept | dsimp only | apply kept_mk


theorem deliverDelta_kept {pq : List Instr} (d : OwnDelta) (s : State) (h_s : Kept pq s) : Kept pq (deliverDelta d s) := by
  unfold deliverDelta
  repeat' with_reducible first
    | intro _ | assumption | apply setNpx_kept | apply sendObject_kept | apply holdDelta_kept | apply kept_ite | split
    | dsimp only | refine kept_snd (by assumption) ?_ | refine kept_snd2 (by assumption) ?_
    | refine kept_fst (by assumption) ?_ | refine kept_some (by assumption) ?_ | apply kept_mk


theorem trySendDelta_kept {pq : List Instr} (s : State) (h_s : Kept pq s) : Kept pq (trySendDelta s) := by
  unfold trySendDelta
  repeat' with_reducible first
    | assumption | apply deliverDelta_kept | apply kept_ite | split | dsimp only | refine kept_snd (by assumption) ?_
    | refine kept_snd2 (by assumption) ?_ | refine kept_fst (by assumption) ?_ | refine kept_some (by assumption) ?_
    | apply kept_mk


theorem sendStatus_kept {pq : List Instr} (s : State) (h_s : Kept pq s) : Kept pq (sendStatus s) := by
  unfold sendStatus
  repeat' with_reducible first
    | assumption | apply tellSite_kept | apply kept_ite | split | dsimp only


theorem execDeltaEncodeComplete_kept {pq : List Instr} (s : State) (h_s : Kept pq s) : KeptO pq (execDeltaEncodeComplete s) := by
  unfold execDeltaEncodeComplete
  repeat' with_reducible first
    | intro _ | assumption | apply kept_next | apply kept_foldl | apply kept_foldl_snd | apply kept_foldl_snd2
    | apply kept_foldl_fst | apply setOuter_kept | apply setNpx_kept | apply trySendDelta_kept | apply kept_ite
    | split | dsimp only | refine kept_snd (by assumption) ?_ | refine kept_snd2 (by assumption) ?_
    | refine kept_fst (by assumption) ?_ | refine kept_some (by assumption) ?_ | apply kept_mk


theorem execWindowOpen_kept {pq : List Instr} (s : State) (h_s : Kept pq s) : KeptO pq (execWindowOpen s) := by
  unfold execWindowOpen
  repeat' with_reducible first
    | intro _ | assumption | apply kept_next | apply bump_kept | apply setNpx_kept | apply tellSite_kept
    | apply trySendDelta_kept | apply sendStatus_kept | apply kept_ite | split | dsimp only | apply kept_mk


theorem sendRebase_kept {pq : List Instr} (d : HeldDelta) (reason : Nat) (s : State) (h_s : Kept pq s) : Kept pq (sendRebase d reason s) := by
  unfold sendRebase
  repeat' with_reducible first
    | assumption | apply settleOwn_kept | apply tellSite_kept | apply kept_ite | split | dsimp only


theorem classifyDelta_kept {pq : List Instr} (all : List HeldDelta) (acc : List HeldDelta × State) (d : HeldDelta) (h_acc : Kept pq (acc).2) : Kept pq (classifyDelta all acc d).2 := by
  unfold classifyDelta
  repeat' with_reducible first
    | intro _ | assumption | apply bump_kept | apply sendRebase_kept | apply kept_ite | split | dsimp only
    | refine kept_snd (by assumption) ?_ | refine kept_snd2 (by assumption) ?_ | refine kept_fst (by assumption) ?_
    | refine kept_some (by assumption) ?_


theorem formPub_kept {pq : List Instr} (entries : List Nat) (ms : List (List Nat)) (s : State) (h_s : Kept pq s) : Kept pq (formPub entries ms s) := by
  unfold formPub
  repeat' with_reducible first
    | intro _ | assumption | apply kept_foldl | apply kept_foldl_snd | apply kept_foldl_snd2 | apply kept_foldl_fst
    | apply setNpx_kept | apply stagePub_kept | apply settleOwn_kept | apply kept_ite | split | dsimp only
    | refine kept_snd (by assumption) ?_ | refine kept_snd2 (by assumption) ?_ | refine kept_fst (by assumption) ?_
    | refine kept_some (by assumption) ?_ | apply kept_mk


theorem mergeClose_kept {pq : List Instr} (w : Nat) (ds : List HeldDelta) (s : State) (h_s : Kept pq s) : Kept pq (mergeClose w ds s) := by
  unfold mergeClose
  repeat' with_reducible first
    | intro _ | assumption | apply kept_foldl | apply kept_foldl_snd | apply kept_foldl_snd2 | apply kept_foldl_fst
    | apply bumpN_kept | apply setNpx_kept | apply spread_kept | apply dropClosing_kept | apply formPub_kept
    | dsimp only | apply kept_mk


theorem execWindowClose_kept {pq : List Instr} (s : State) (h_s : Kept pq s) : KeptO pq (execWindowClose s) := by
  unfold execWindowClose
  repeat' with_reducible first
    | intro _ | assumption | apply kept_next | apply kept_foldl | apply kept_foldl_snd | apply kept_foldl_snd2
    | apply kept_foldl_fst | apply bump_kept | apply npxEvent_kept | apply setNpx_kept | apply spread_kept
    | apply tellAll_kept | apply decide5_kept | apply dropClosing_kept | apply classifyDelta_kept
    | apply mergeClose_kept | apply kept_ite | split | dsimp only | refine kept_snd (by assumption) ?_
    | refine kept_snd2 (by assumption) ?_ | refine kept_fst (by assumption) ?_ | refine kept_some (by assumption) ?_
    | apply kept_mk


theorem execPublicationSend_kept {pq : List Instr} (s : State) (h_s : Kept pq s) : KeptO pq (execPublicationSend s) := by
  unfold execPublicationSend
  repeat' with_reducible first
    | intro _ | assumption | apply kept_next | apply setNpx_kept | apply spread_kept | apply objectToAll_kept
    | apply kept_ite | split | dsimp only | refine kept_snd (by assumption) ?_ | refine kept_snd2 (by assumption) ?_
    | refine kept_fst (by assumption) ?_ | refine kept_some (by assumption) ?_ | apply kept_mk


theorem execDeltaResend_kept {pq : List Instr} (s : State) (h_s : Kept pq s) : KeptO pq (execDeltaResend s) := by
  unfold execDeltaResend
  repeat' with_reducible first
    | assumption | apply kept_next | apply bump_kept | apply deliverDelta_kept | apply sendStatus_kept
    | apply kept_ite | split | dsimp only | refine kept_snd (by assumption) ?_ | refine kept_snd2 (by assumption) ?_
    | refine kept_fst (by assumption) ?_ | refine kept_some (by assumption) ?_ | apply kept_mk


theorem takePub_kept {pq : List Instr} (ob : List Byte) (s : State) (h_s : Kept pq s) : Kept pq (takePub ob s) := by
  unfold takePub
  repeat' with_reducible first
    | intro _ | assumption | apply kept_foldl | apply kept_foldl_snd | apply kept_foldl_snd2 | apply kept_foldl_fst
    | apply bumpN_kept | apply setNpx_kept | apply stagePub_kept | apply settleOwn_kept | apply request_kept
    | apply pubFailed_kept | apply withEpoch_kept | apply fetchBooks_kept | apply kept_ite | split | dsimp only
    | apply kept_mk


theorem takeBase_kept {pq : List Instr} (ob : List Byte) (u : Nat) (s : State) (h_s : Kept pq s) : Kept pq (takeBase ob u s) := by
  unfold takeBase
  repeat' with_reducible first
    | assumption | apply postReply_kept | apply stagePub_kept | apply request_kept | apply joinApply_kept
    | apply kept_ite | split | dsimp only | refine kept_snd (by assumption) ?_ | refine kept_snd2 (by assumption) ?_
    | refine kept_fst (by assumption) ?_ | refine kept_some (by assumption) ?_ | apply kept_mk


theorem takeBook_kept {pq : List Instr} (ob : List Byte) (s : State) (h_s : Kept pq s) : Kept pq (takeBook ob s) := by
  unfold takeBook
  repeat' with_reducible first
    | assumption | apply receiveBook_kept | dsimp only


theorem objectDone_kept {pq : List Instr} (typ : Nat) (site : Nat) (u : Nat) (ob : List Byte) (s : State) (h_s : Kept pq s) : Kept pq (objectDone typ site u ob s) := by
  unfold objectDone
  repeat' with_reducible first
    | assumption | apply spread_kept | apply holdDelta_kept | apply takePub_kept | apply takeBase_kept
    | apply takeBook_kept | apply kept_ite | split | dsimp only | refine kept_snd (by assumption) ?_
    | refine kept_snd2 (by assumption) ?_ | refine kept_fst (by assumption) ?_ | refine kept_some (by assumption) ?_
    | apply kept_mk


theorem rxFragment_kept {pq : List Instr} (hd : Nat) (body : List Byte) (s : State) (h_s : Kept pq s) : Kept pq (rxFragment hd body s) := by
  unfold rxFragment
  repeat' with_reducible first
    | intro _ | assumption | apply bumpN_kept | apply bump_kept | apply setNpx_kept | apply objectDone_kept
    | apply kept_ite | split | dsimp only | refine kept_snd (by assumption) ?_ | refine kept_snd2 (by assumption) ?_
    | refine kept_fst (by assumption) ?_ | refine kept_some (by assumption) ?_ | apply kept_mk


theorem statusEpoch_kept {pq : List Instr} (b : List Byte) (s : State) (h_s : Kept pq s) : Kept pq (statusEpoch b s) := by
  unfold statusEpoch
  repeat' with_reducible first
    | assumption | apply followEpoch_kept | apply kept_ite | split | dsimp only | refine kept_snd (by assumption) ?_
    | refine kept_snd2 (by assumption) ?_ | refine kept_fst (by assumption) ?_ | refine kept_some (by assumption) ?_


theorem rxStatus_kept {pq : List Instr} (d : Partner) (site : Nat) (b : List Byte) (s : State) (h_s : Kept pq s) : Kept pq (rxStatus d site b s) := by
  unfold rxStatus
  repeat' with_reducible first
    | intro _ | assumption | apply kept_foldl | apply kept_foldl_snd | apply kept_foldl_snd2 | apply kept_foldl_fst
    | apply sendObject_kept | apply decide5_kept | apply heardFrom_kept | apply statusEpoch_kept | apply kept_ite
    | split | dsimp only


theorem rxFetch_kept {pq : List Instr} (d : Partner) (b : List Byte) (s : State) (h_s : Kept pq s) : Kept pq (rxFetch d b s) := by
  unfold rxFetch
  repeat' with_reducible first
    | intro _ | assumption | apply kept_foldl | apply kept_foldl_snd | apply kept_foldl_snd2 | apply kept_foldl_fst
    | apply sendObject_kept | apply kept_ite | split | dsimp only | refine kept_snd (by assumption) ?_
    | refine kept_snd2 (by assumption) ?_ | refine kept_fst (by assumption) ?_ | refine kept_some (by assumption) ?_
    | apply kept_mk


theorem rxRebase_kept {pq : List Instr} (b : List Byte) (s : State) (h_s : Kept pq s) : Kept pq (rxRebase b s) := by
  unfold rxRebase
  repeat' with_reducible first
    | assumption | apply npxEvent_kept | apply settleOwn_kept | apply fullFetch_kept | apply kept_ite | split
    | dsimp only


theorem rxCandidate_kept {pq : List Instr} (d : Partner) (b : List Byte) (s : State) (h_s : Kept pq s) : Kept pq (rxCandidate d b s) := by
  unfold rxCandidate
  repeat' with_reducible first
    | intro _ | assumption | apply setNpx_kept | apply tell_kept | apply decide5_kept | apply kept_ite | split
    | dsimp only | apply kept_mk


theorem rxVote_kept {pq : List Instr} (site : Nat) (b : List Byte) (s : State) (h_s : Kept pq s) : Kept pq (rxVote site b s) := by
  unfold rxVote
  repeat' with_reducible first
    | intro _ | assumption | apply setNpx_kept | apply becomeHome_kept | apply kept_ite | split | dsimp only
    | apply kept_mk


theorem takeNewhome_kept {pq : List Instr} (b : List Byte) (s : State) (h_s : Kept pq s) : Kept pq (takeNewhome b s) := by
  unfold takeNewhome
  repeat' with_reducible first
    | intro _ | assumption | apply followEpoch_kept | apply startHome_kept | apply kept_ite | split | dsimp only
    | refine kept_snd (by assumption) ?_ | refine kept_snd2 (by assumption) ?_ | refine kept_fst (by assumption) ?_
    | refine kept_some (by assumption) ?_ | apply kept_mk


theorem takeAlive_kept {pq : List Instr} (site : Nat) (b : List Byte) (s : State) (h_s : Kept pq s) : Kept pq (takeAlive site b s) := by
  unfold takeAlive
  repeat' with_reducible first
    | intro _ | assumption | apply setNpx_kept | apply withEpoch_kept | apply kept_ite | split | dsimp only
    | apply kept_mk


theorem rxControl_kept {pq : List Instr} (d : Partner) (site : Nat) (b : List Byte) (s : State) (h_s : Kept pq s) : Kept pq (rxControl d site b s) := by
  unfold rxControl
  repeat' with_reducible first
    | assumption | apply decide5_kept | apply rxStatus_kept | apply rxFetch_kept | apply rxRebase_kept
    | apply rxCandidate_kept | apply rxVote_kept | apply takeNewhome_kept | apply takeAlive_kept | split | dsimp only
    | refine kept_snd (by assumption) ?_ | refine kept_snd2 (by assumption) ?_ | refine kept_fst (by assumption) ?_
    | refine kept_some (by assumption) ?_ | apply kept_mk


theorem receivePacket_kept {pq : List Instr} (p : Nat) (src : Nat) (udp : List Byte) (s : State) (h_s : Kept pq s) : Kept pq (receivePacket p src udp s) := by
  unfold receivePacket
  repeat' with_reducible first
    | intro _ | assumption | apply bump_kept | apply timeMessage_kept | apply sendPacket_kept | apply rxFragment_kept
    | apply rxControl_kept | apply kept_ite | split | dsimp only | refine kept_snd (by assumption) ?_
    | refine kept_snd2 (by assumption) ?_ | refine kept_fst (by assumption) ?_ | refine kept_some (by assumption) ?_
    | apply kept_mk


theorem execDeltaFragmentReceive_kept {pq : List Instr} (port : BitVec 4) (src : BitVec 128) (udp : List Byte) (s : State) (h_s : Kept pq s) : KeptO pq (execDeltaFragmentReceive port src udp s) := by
  unfold execDeltaFragmentReceive
  repeat' with_reducible first
    | assumption | apply kept_next | apply receivePacket_kept | dsimp only


theorem execPubFragmentReceive_kept {pq : List Instr} (port : BitVec 4) (src : BitVec 128) (udp : List Byte) (s : State) (h_s : Kept pq s) : KeptO pq (execPubFragmentReceive port src udp s) := by
  unfold execPubFragmentReceive
  repeat' with_reducible first
    | assumption | apply kept_next | apply receivePacket_kept | dsimp only


theorem execBaseFragmentReceive_kept {pq : List Instr} (port : BitVec 4) (src : BitVec 128) (udp : List Byte) (s : State) (h_s : Kept pq s) : KeptO pq (execBaseFragmentReceive port src udp s) := by
  unfold execBaseFragmentReceive
  repeat' with_reducible first
    | assumption | apply kept_next | apply receivePacket_kept | dsimp only


theorem execCodebookFragmentReceive_kept {pq : List Instr} (port : BitVec 4) (src : BitVec 128) (udp : List Byte) (s : State) (h_s : Kept pq s) : KeptO pq (execCodebookFragmentReceive port src udp s) := by
  unfold execCodebookFragmentReceive
  repeat' with_reducible first
    | assumption | apply kept_next | apply receivePacket_kept | dsimp only


theorem execNpxStatusReceive_kept {pq : List Instr} (port : BitVec 4) (src : BitVec 128) (udp : List Byte) (s : State) (h_s : Kept pq s) : KeptO pq (execNpxStatusReceive port src udp s) := by
  unfold execNpxStatusReceive
  repeat' with_reducible first
    | assumption | apply kept_next | apply receivePacket_kept | dsimp only


theorem execNpxFetchReceive_kept {pq : List Instr} (port : BitVec 4) (src : BitVec 128) (udp : List Byte) (s : State) (h_s : Kept pq s) : KeptO pq (execNpxFetchReceive port src udp s) := by
  unfold execNpxFetchReceive
  repeat' with_reducible first
    | assumption | apply kept_next | apply receivePacket_kept | dsimp only


theorem execNpxRebaseReceive_kept {pq : List Instr} (port : BitVec 4) (src : BitVec 128) (udp : List Byte) (s : State) (h_s : Kept pq s) : KeptO pq (execNpxRebaseReceive port src udp s) := by
  unfold execNpxRebaseReceive
  repeat' with_reducible first
    | assumption | apply kept_next | apply receivePacket_kept | dsimp only


theorem execNpxCandidateReceive_kept {pq : List Instr} (port : BitVec 4) (src : BitVec 128) (udp : List Byte) (s : State) (h_s : Kept pq s) : KeptO pq (execNpxCandidateReceive port src udp s) := by
  unfold execNpxCandidateReceive
  repeat' with_reducible first
    | assumption | apply kept_next | apply receivePacket_kept | dsimp only


theorem execNpxVoteReceive_kept {pq : List Instr} (port : BitVec 4) (src : BitVec 128) (udp : List Byte) (s : State) (h_s : Kept pq s) : KeptO pq (execNpxVoteReceive port src udp s) := by
  unfold execNpxVoteReceive
  repeat' with_reducible first
    | assumption | apply kept_next | apply receivePacket_kept | dsimp only


theorem execNpxNewhomeReceive_kept {pq : List Instr} (port : BitVec 4) (src : BitVec 128) (udp : List Byte) (s : State) (h_s : Kept pq s) : KeptO pq (execNpxNewhomeReceive port src udp s) := by
  unfold execNpxNewhomeReceive
  repeat' with_reducible first
    | assumption | apply kept_next | apply receivePacket_kept | dsimp only


theorem execNpxAliveReceive_kept {pq : List Instr} (port : BitVec 4) (src : BitVec 128) (udp : List Byte) (s : State) (h_s : Kept pq s) : KeptO pq (execNpxAliveReceive port src udp s) := by
  unfold execNpxAliveReceive
  repeat' with_reducible first
    | assumption | apply kept_next | apply receivePacket_kept | dsimp only


theorem execNpxTimeReceive_kept {pq : List Instr} (port : BitVec 4) (src : BitVec 128) (udp : List Byte) (s : State) (h_s : Kept pq s) : KeptO pq (execNpxTimeReceive port src udp s) := by
  unfold execNpxTimeReceive
  repeat' with_reducible first
    | assumption | apply kept_next | apply receivePacket_kept | dsimp only


theorem execObjectHoldExpiry_kept {pq : List Instr} (s : State) (h_s : Kept pq s) : KeptO pq (execObjectHoldExpiry s) := by
  unfold execObjectHoldExpiry
  repeat' with_reducible first
    | intro _ | assumption | apply kept_next | apply bumpN_kept | apply setNpx_kept | apply pubFailed_kept
    | apply kept_ite | split | dsimp only | apply kept_mk


theorem execCandidacyTimeout_kept {pq : List Instr} (s : State) (h_s : Kept pq s) : KeptO pq (execCandidacyTimeout s) := by
  unfold execCandidacyTimeout
  repeat' with_reducible first
    | intro _ | assumption | apply kept_next | apply setNpx_kept | apply tellAll_kept | apply decide5_kept
    | apply becomeHome_kept | apply kept_ite | split | dsimp only | apply kept_mk


theorem memberDecision_kept {pq : List Instr} (site : Nat) (b : List Byte) (s : State) (h_s : Kept pq s) : Kept pq (memberDecision site b s) := by
  unfold memberDecision
  repeat' with_reducible first
    | intro _ | assumption | apply setNpx_kept | apply statusEpoch_kept | apply rxRebase_kept | apply takeNewhome_kept
    | apply takeAlive_kept | split | dsimp only | refine kept_snd (by assumption) ?_
    | refine kept_snd2 (by assumption) ?_ | refine kept_fst (by assumption) ?_ | refine kept_some (by assumption) ?_
    | apply kept_mk


theorem execExchBroadcastReceive_kept {pq : List Instr} (kind : BitVec 4) (data : List Byte) (s : State) (h_s : Kept pq s) : KeptO pq (execExchBroadcastReceive kind data s) := by
  unfold execExchBroadcastReceive
  repeat' with_reducible first
    | intro _ | assumption | apply kept_next | apply kept_foldl | apply kept_foldl_snd | apply kept_foldl_snd2
    | apply kept_foldl_fst | apply setNpx_kept | apply spread_kept | apply setHeard_kept | apply addDelta_kept
    | apply dropClosing_kept | apply formPub_kept | apply takePub_kept | apply takeBase_kept | apply takeBook_kept
    | apply memberDecision_kept | apply kept_ite | split | dsimp only | refine kept_snd (by assumption) ?_
    | refine kept_snd2 (by assumption) ?_ | refine kept_fst (by assumption) ?_ | refine kept_some (by assumption) ?_
    | apply kept_mk


theorem execNeighborDiscovery_kept {pq : List Instr} (port : BitVec 4) (src : BitVec 128) (icmp : List Byte) (s : State) (h_s : Kept pq s) : KeptO pq (execNeighborDiscovery port src icmp s) := by
  unfold execNeighborDiscovery
  repeat' with_reducible first
    | intro _ | assumption | apply kept_next | apply kept_foldl | apply kept_foldl_snd | apply kept_foldl_snd2
    | apply kept_foldl_fst | apply bump_kept | apply setNpx_kept | apply etherSend_kept | apply routeOut_kept
    | apply kept_ite | split | dsimp only | refine kept_snd (by assumption) ?_ | refine kept_snd2 (by assumption) ?_
    | refine kept_fst (by assumption) ?_ | refine kept_some (by assumption) ?_ | apply kept_mk


theorem execCodebookRetrain_kept {pq : List Instr} (family : BitVec 4) (s : State) (h_s : Kept pq s) : KeptO pq (execCodebookRetrain family s) := by
  unfold execCodebookRetrain
  repeat' with_reducible first
    | intro _ | assumption | apply kept_next | apply spread_kept | apply objectToAll_kept | apply keepBook_kept
    | apply kept_ite | split | dsimp only | refine kept_snd (by assumption) ?_ | refine kept_snd2 (by assumption) ?_
    | refine kept_fst (by assumption) ?_ | refine kept_some (by assumption) ?_ | apply kept_mk


theorem execTimeExchangeSend_kept {pq : List Instr} (path : BitVec 5) (s : State) (h_s : Kept pq s) : KeptO pq (execTimeExchangeSend path s) := by
  unfold execTimeExchangeSend
  repeat' with_reducible first
    | assumption | apply kept_next | apply beginExchange_kept | apply sendTimeFrame_kept | apply sendPacket_kept
    | apply kept_ite | split | dsimp only


theorem exchInstall_kept {pq : List Instr} (pb : List Byte) (s : State) (h_s : Kept pq s) : Kept pq (exchInstall pb s) := by
  unfold exchInstall
  repeat' with_reducible first
    | intro _ | assumption | apply kept_foldl | apply kept_foldl_snd | apply kept_foldl_snd2 | apply kept_foldl_fst
    | apply setReg_kept | apply touchCfg_kept | apply setNpx_kept | apply receiveBook_kept | apply kept_ite | split
    | dsimp only | refine kept_snd (by assumption) ?_ | refine kept_snd2 (by assumption) ?_
    | refine kept_fst (by assumption) ?_ | refine kept_some (by assumption) ?_ | apply kept_mk


theorem kExchConfig_kept {pq : List Instr} (hd : CmdHdr) (s : State) (h_s : Kept pq s) : Kept pq (kExchConfig hd s).s := by
  unfold kExchConfig
  repeat' with_reducible first
    | assumption | apply kOk_kept | apply kFail_kept | apply exchInstall_kept | apply kept_ite | split | dsimp only
    | refine kept_snd (by assumption) ?_ | refine kept_snd2 (by assumption) ?_ | refine kept_fst (by assumption) ?_
    | refine kept_some (by assumption) ?_ | apply kept_mk


theorem kExchPartners_kept {pq : List Instr} (hd : CmdHdr) (s : State) (h_s : Kept pq s) : Kept pq (kExchPartners hd s).s := by
  unfold kExchPartners
  repeat' with_reducible first
    | intro _ | assumption | apply kOk_kept | apply kFail_kept | apply setNpx_kept | apply kept_ite | split
    | dsimp only | apply kept_mk


theorem kExchWeights_kept {pq : List Instr} (hd : CmdHdr) (s : State) (h_s : Kept pq s) : Kept pq (kExchWeights hd s).s := by
  unfold kExchWeights
  repeat' with_reducible first
    | intro _ | assumption | apply kOk_kept | apply kFail_kept | apply setNpx_kept | apply kept_ite | split
    | dsimp only | apply kept_mk


theorem joinBegun_kept {pq : List Instr} (r : ReplyTo) (s : State) (h_s : Kept pq s) : Kept pq (joinBegun r s) := by
  unfold joinBegun
  repeat' with_reducible first
    | intro _ | assumption | apply setNpx_kept | apply askBase_kept | dsimp only | apply kept_mk


theorem kExchJoin_kept {pq : List Instr} (hd : CmdHdr) (s : State) (h_s : Kept pq s) : Kept pq (kExchJoin hd s).s := by
  unfold kExchJoin
  repeat' with_reducible first
    | assumption | apply kFail_kept | apply kDefer_kept | apply joinBegun_kept | apply kept_ite | split | dsimp only


theorem kExchQuery_kept {pq : List Instr} (hd : CmdHdr) (buf : Buf) (s : State) (h_s : Kept pq s) : Kept pq (kExchQuery hd buf s).s := by
  unfold kExchQuery
  repeat' with_reducible first
    | assumption | apply withBuf_kept | apply deliver_kept | dsimp only | apply kept_id | apply kept_mk


theorem kExchFetch_kept {pq : List Instr} (x0 : CmdHdr) (s : State) (h_s : Kept pq s) : Kept pq (kExchFetch x0 s).s := by
  unfold kExchFetch
  repeat' with_reducible first
    | assumption | apply kOk_kept | apply kFail_kept | apply fullFetch_kept | apply kept_ite | split | dsimp only


end Sys2Proof.Machine
end

