-- ==== Sys2Proof/Laws/KeptPower.lean ====
section
/-!
SUPPORT. The functions of Machine/Power.lean keep the queue and the canonical form of memory.
-/
namespace Sys2Proof.Machine

theorem setPwr_kept {pq : List Instr} (f : Pwr → Pwr) (s : State) (h_s : Kept pq s) : Kept pq (setPwr f s) := by
  unfold setPwr
  repeat' with_reducible first
    | assumption | dsimp only | apply kept_mk


theorem applyStraps_kept {pq : List Instr} (s : State) (h_s : Kept pq s) : Kept pq (applyStraps s) := by
  unfold applyStraps
  repeat' with_reducible first
    | intro _ | assumption | apply kept_foldl | apply setRegField_kept | split | dsimp only


theorem coldState_kept {pq : List Instr} (s : State) (h_s : Kept pq s) : Kept pq (coldState s) := by
  unfold coldState
  repeat' with_reducible first
    | intro _ | assumption | apply kept_foldl | apply setStack_kept | apply applyStraps_kept | dsimp only
    | apply kept_mk | (with_unfolding_all exact And.intro h_s.1 rfl)


theorem coldReset_kept {pq : List Instr} (cause : Nat) (s : State) (h_s : Kept pq s) : Kept pq (coldReset cause s) := by
  unfold coldReset
  repeat' with_reducible first
    | intro _ | assumption | apply setPwr_kept | apply coldState_kept | dsimp only | apply kept_mk


theorem mainLoss_kept {pq : List Instr} (last : Nat) (die : Nat) (s : State) (h_s : Kept pq s) : Kept pq (mainLoss last die s) := by
  unfold mainLoss
  repeat' with_reducible first
    | intro _ | assumption | apply bump_kept | apply raiseAlert_kept | apply updateFault_kept | apply coldState_kept
    | apply kept_ite | split | dsimp only | apply kept_mk


theorem execAuxPowerOn_kept {pq : List Instr} (straps : BitVec 9) (s : State) (h_s : Kept pq s) : KeptO pq (execAuxPowerOn straps s) := by
  unfold execAuxPowerOn
  repeat' with_reducible first
    | intro _ | assumption | apply kept_next | apply setPwr_kept | apply coldReset_kept | apply kept_ite | split
    | dsimp only | apply kept_mk


theorem execColdRstLAssert_kept {pq : List Instr} (s : State) (h_s : Kept pq s) : KeptO pq (execColdRstLAssert s) := by
  unfold execColdRstLAssert
  repeat' with_reducible first
    | intro _ | assumption | apply kept_next | apply updateFault_kept | apply setPwr_kept | apply coldReset_kept
    | apply kept_ite | split | dsimp only | apply kept_mk


theorem execAuxSupplyLow_kept {pq : List Instr} (s : State) (h_s : Kept pq s) : KeptO pq (execAuxSupplyLow s) := by
  unfold execAuxSupplyLow
  repeat' with_reducible first
    | intro _ | assumption | apply kept_next | apply setPwr_kept | apply coldState_kept | split | dsimp only
    | apply kept_mk


theorem execPwrEnLAssert_kept {pq : List Instr} (s : State) (h_s : Kept pq s) : KeptO pq (execPwrEnLAssert s) := by
  unfold execPwrEnLAssert
  repeat' with_reducible first
    | intro _ | assumption | apply kept_next | apply setPwr_kept | apply kept_ite | split | dsimp only | apply kept_mk


theorem execPwrEnLDeassert_kept {pq : List Instr} (s : State) (h_s : Kept pq s) : KeptO pq (execPwrEnLDeassert s) := by
  unfold execPwrEnLDeassert
  repeat' with_reducible first
    | intro _ | assumption | apply kept_next | apply setPwr_kept | apply mainLoss_kept | dsimp only | apply kept_mk


theorem execPrsntLAssert_kept {pq : List Instr} (s : State) (h_s : Kept pq s) : KeptO pq (execPrsntLAssert s) := by
  unfold execPrsntLAssert
  repeat' with_reducible first
    | intro _ | assumption | apply kept_next | apply setPwr_kept | apply kept_ite | split | dsimp only | apply kept_mk


theorem execPrsntLDeassert_kept {pq : List Instr} (s : State) (h_s : Kept pq s) : KeptO pq (execPrsntLDeassert s) := by
  unfold execPrsntLDeassert
  repeat' with_reducible first
    | intro _ | assumption | apply kept_next | apply setPwr_kept | apply mainLoss_kept | dsimp only | apply kept_mk


theorem execLocateLChange_kept {pq : List Instr} (asserted : Bool) (s : State) (h_s : Kept pq s) : KeptO pq (execLocateLChange asserted s) := by
  unfold execLocateLChange
  repeat' with_reducible first
    | intro _ | assumption | apply kept_next | apply setPwr_kept | dsimp only | apply kept_mk


theorem execMainInputLow_kept {pq : List Instr} (s : State) (h_s : Kept pq s) : KeptO pq (execMainInputLow s) := by
  unfold execMainInputLow
  repeat' with_reducible first
    | intro _ | assumption | apply kept_next | apply setPwr_kept | apply mainLoss_kept | dsimp only | apply kept_mk


theorem execMainInputReturn_kept {pq : List Instr} (s : State) (h_s : Kept pq s) : KeptO pq (execMainInputReturn s) := by
  unfold execMainInputReturn
  repeat' with_reducible first
    | intro _ | assumption | apply kept_next | apply setPwr_kept | dsimp only | apply kept_mk


theorem execMainPowerRamp_kept {pq : List Instr} (s : State) (h_s : Kept pq s) : KeptO pq (execMainPowerRamp s) := by
  unfold execMainPowerRamp
  repeat' with_reducible first
    | intro _ | assumption | apply kept_next | apply setPwr_kept | apply kept_ite | split | dsimp only | apply kept_mk


theorem execRailsGood_kept {pq : List Instr} (s : State) (h_s : Kept pq s) : KeptO pq (execRailsGood s) := by
  unfold execRailsGood
  repeat' with_reducible first
    | intro _ | assumption | apply kept_next | apply setPwr_kept | apply kept_ite | split | dsimp only | apply kept_mk


theorem execIslandBootComplete_kept {pq : List Instr} (puf : Bool) (bits : W16) (s : State) (h_s : Kept pq s) : KeptO pq (execIslandBootComplete puf bits s) := by
  unfold execIslandBootComplete
  repeat' with_reducible first
    | intro _ | assumption | apply kept_next | apply bumpN_kept | apply updateFault_kept | apply bootIsland_kept
    | apply setPwr_kept | apply kept_ite | split | dsimp only | apply kept_mk


theorem trainOne_kept {pq : List Instr} (r : BitVec 10 × List LaneEye × List (BitVec 5)) (s : State) (h_s : Kept pq s) : Kept pq (trainOne r s) := by
  unfold trainOne
  repeat' with_reducible first
    | assumption | apply postEvent_kept | apply setChan_kept | apply trainChannel_kept | apply loseChannel_kept
    | apply kept_ite | split | dsimp only | refine kept_snd (by assumption) ?_ | refine kept_snd2 (by assumption) ?_
    | refine kept_fst (by assumption) ?_ | refine kept_some (by assumption) ?_ | apply kept_mk


theorem wakeStacks_kept {pq : List Instr} (s : State) (h_s : Kept pq s) : Kept pq (wakeStacks s) := by
  unfold wakeStacks
  repeat' with_reducible first
    | intro _ | assumption | apply kept_foldl | apply setStack_kept | apply kept_ite | split | dsimp only
    | apply kept_mk


theorem mapRecord_kept {pq : List Instr} (s : State) (h_s : Kept pq s) : Kept pq (mapRecord s) := by
  unfold mapRecord
  repeat' with_reducible first
    | intro _ | assumption | apply writeRecord_kept | apply setStp_kept | apply endStep_kept | apply kept_ite | split
    | dsimp only | refine kept_snd (by assumption) ?_ | refine kept_snd2 (by assumption) ?_
    | refine kept_fst (by assumption) ?_ | refine kept_some (by assumption) ?_ | apply kept_mk


theorem retireCore_kept {pq : List Instr} (c : Nat) (s : State) (h_s : Kept pq s) : Kept pq (retireCore c s) := by
  unfold retireCore
  repeat' with_reducible first
    | assumption | apply free32_kept | apply postEvent_kept | apply updateFault_kept | apply kept_ite | split
    | dsimp only | refine kept_snd (by assumption) ?_ | refine kept_snd2 (by assumption) ?_
    | refine kept_fst (by assumption) ?_ | refine kept_some (by assumption) ?_ | apply kept_mk


theorem failTile_kept {pq : List Instr} (t : Nat) (s : State) (h_s : Kept pq s) : Kept pq (failTile t s) := by
  unfold failTile
  repeat' with_reducible first
    | assumption | apply setTile_kept | dsimp only | apply kept_mk


theorem selfTests_kept {pq : List Instr} (fails : Nat) (s : State) (h_s : Kept pq s) : Kept pq (selfTests fails s) := by
  unfold selfTests
  repeat' with_reducible first
    | intro _ | assumption | apply kept_foldl | apply retireCore_kept | apply failTile_kept | apply kept_ite | split
    | dsimp only | apply kept_mk


theorem startUp_kept {pq : List Instr} (results : List (BitVec 10 × List LaneEye × List (BitVec 5))) (fails : Nat) (s : State) (h_s : Kept pq s) : Kept pq (startUp results fails s) := by
  unfold startUp
  repeat' with_reducible first
    | intro _ | assumption | apply kept_foldl | apply updateFault_kept | apply copyRows_kept | apply repairRows_kept
    | apply setPwr_kept | apply trainOne_kept | apply wakeStacks_kept | apply mapRecord_kept | apply selfTests_kept
    | dsimp only | apply kept_mk


theorem execTreimTrainingComplete_kept {pq : List Instr} (report : TrainingReport) (s : State) (h_s : Kept pq s) : KeptO pq (execTreimTrainingComplete report s) := by
  unfold execTreimTrainingComplete
  repeat' with_reducible first
    | intro _ | assumption | apply kept_next | apply kept_foldl | apply setPwr_kept | apply trainOne_kept
    | apply wakeStacks_kept | apply startUp_kept | apply kept_ite | split | dsimp only | apply kept_mk


theorem loseTiles_kept {pq : List Instr} (s : State) (h_s : Kept pq s) : Kept pq (loseTiles s) := by
  unfold loseTiles
  repeat' with_reducible first
    | intro _ | assumption | apply kept_foldl | apply unbindTile_kept | dsimp only | apply kept_sfilter
    | apply kept_mk


theorem moduleReset_kept {pq : List Instr} (cause : Nat) (s : State) (h_s : Kept pq s) : Kept pq (moduleReset cause s) := by
  unfold moduleReset
  repeat' with_reducible first
    | intro _ | assumption | apply kept_foldl | apply kept_foldl_snd | apply kept_foldl_snd2 | apply kept_foldl_fst
    | apply bump_kept | apply poolDrain_kept | apply dropHeld_kept | apply stopRetrain_kept | apply enterHoldover_kept
    | apply clearIsland_kept | apply setPwr_kept | apply applyStraps_kept | apply kept_ite | split | dsimp only
    | apply kept_sfilter | apply kept_mk


theorem execMrstLAssert_kept {pq : List Instr} (s : State) (h_s : Kept pq s) : KeptO pq (execMrstLAssert s) := by
  unfold execMrstLAssert
  repeat' with_reducible first
    | assumption | apply kept_next | apply moduleReset_kept | dsimp only


theorem kModuleReset_kept {pq : List Instr} (hd : CmdHdr) (confirm : W32) (s : State) (h_s : Kept pq s) : Kept pq (kModuleReset hd confirm s).s := by
  unfold kModuleReset
  repeat' with_reducible first
    | assumption | apply postReply_kept | apply kFail_kept | apply kDefer_kept | apply moduleReset_kept
    | apply kept_ite | split | dsimp only


theorem execPerstAssert_kept {pq : List Instr} (s : State) (h_s : Kept pq s) : KeptO pq (execPerstAssert s) := by
  unfold execPerstAssert
  repeat' with_reducible first
    | intro _ | assumption | apply kept_next | apply hostInterfaceReset_kept | apply setPwr_kept | apply kept_ite
    | split | dsimp only | apply kept_mk


theorem execPerstDeassert_kept {pq : List Instr} (s : State) (h_s : Kept pq s) : KeptO pq (execPerstDeassert s) := by
  unfold execPerstDeassert
  repeat' with_reducible first
    | intro _ | assumption | apply kept_next | apply setPwr_kept | apply kept_ite | split | dsimp only | apply kept_mk


theorem execFlr_kept {pq : List Instr} (s : State) (h_s : Kept pq s) : KeptO pq (execFlr s) := by
  unfold execFlr
  repeat' with_reducible first
    | assumption | apply kept_next | apply setRegField_kept | apply bump_kept | apply hostInterfaceReset_kept
    | apply abortStep_kept | apply kept_ite | split | dsimp only


theorem enterBed_kept {pq : List Instr} (s : State) (h_s : Kept pq s) : Kept pq (enterBed s) := by
  unfold enterBed
  repeat' with_reducible first
    | intro _ | assumption | apply bump_kept | apply setPwr_kept | apply loseTiles_kept | dsimp only | apply kept_mk


theorem kModuleBedEnter_kept {pq : List Instr} (x0 : CmdHdr) (s : State) (h_s : Kept pq s) : Kept pq (kModuleBedEnter x0 s).s := by
  unfold kModuleBedEnter
  repeat' with_reducible first
    | assumption | apply kOk_kept | apply kFail_kept | apply enterBed_kept | apply kept_ite | split | dsimp only


theorem kModuleBedLeave_kept {pq : List Instr} (x0 : CmdHdr) (s : State) (h_s : Kept pq s) : Kept pq (kModuleBedLeave x0 s).s := by
  unfold kModuleBedLeave
  repeat' with_reducible first
    | intro _ | assumption | apply kOk_kept | apply kFail_kept | apply setPwr_kept | apply kept_ite | split
    | dsimp only | apply kept_mk


theorem execSelfRefreshEntry_kept {pq : List Instr} (stack : BitVec 3) (s : State) (h_s : Kept pq s) : KeptO pq (execSelfRefreshEntry stack s) := by
  unfold execSelfRefreshEntry
  repeat' with_reducible first
    | intro _ | assumption | apply kept_next | apply setStack_kept | apply poolDrainStack_kept | apply setPwr_kept
    | apply kept_ite | split | dsimp only | apply kept_mk


theorem execPciPmD3hot_kept {pq : List Instr} (s : State) (h_s : Kept pq s) : KeptO pq (execPciPmD3hot s) := by
  unfold execPciPmD3hot
  repeat' with_reducible first
    | assumption | apply kept_next | apply bump_kept | apply enterBed_kept | apply kept_ite | split | dsimp only
    | apply kept_mk


theorem execD3hotBedStart_kept {pq : List Instr} (s : State) (h_s : Kept pq s) : KeptO pq (execD3hotBedStart s) := by
  unfold execD3hotBedStart
  repeat' with_reducible first
    | assumption | apply kept_next | apply enterBed_kept | apply kept_ite | split | dsimp only | apply kept_mk


theorem execPciPmD0_kept {pq : List Instr} (s : State) (h_s : Kept pq s) : KeptO pq (execPciPmD0 s) := by
  unfold execPciPmD0
  repeat' with_reducible first
    | intro _ | assumption | apply kept_next | apply kept_foldl | apply kept_foldl_snd | apply kept_foldl_snd2
    | apply kept_foldl_fst | apply postEvent_kept | apply dropReply_kept | apply writeReply_kept | apply setPwr_kept
    | apply kept_ite | split | dsimp only | apply kept_mk


theorem setClock_kept {pq : List Instr} (s : State) (h_s : Kept pq s) : Kept pq (setClock s) := by
  unfold setClock
  repeat' with_reducible first
    | intro _ | assumption | apply setPwr_kept | dsimp only | apply kept_mk


theorem limiterStep_kept {pq : List Instr} (s : State) (h_s : Kept pq s) : Kept pq (limiterStep s) := by
  unfold limiterStep
  repeat' with_reducible first
    | intro _ | assumption | apply kept_foldl | apply bump_kept | apply setPwr_kept | apply setClock_kept
    | apply kept_ite | split | dsimp only | apply kept_mk


theorem execPowerSample_kept {pq : List Instr} (watts : W16) (volt : Byte) (s : State) (h_s : Kept pq s) : KeptO pq (execPowerSample watts volt s) := by
  unfold execPowerSample
  repeat' with_reducible first
    | intro _ | assumption | apply kept_next | apply kept_foldl | apply setPwr_kept | apply mainLoss_kept
    | apply limiterStep_kept | apply kept_ite | split | dsimp only | apply kept_mk


theorem enterFence_kept {pq : List Instr} (mask : Nat) (s : State) (h_s : Kept pq s) : Kept pq (enterFence mask s) := by
  unfold enterFence
  repeat' with_reducible first
    | intro _ | assumption | apply faultEvent_kept | apply postEvent_kept | apply updateFault_kept
    | apply withdraw_kept | apply abortStep_kept | apply setPwr_kept | apply kept_ite | split | dsimp only
    | apply kept_mk


theorem stackCritical_kept {pq : List Instr} (k : Nat) (s : State) (h_s : Kept pq s) : Kept pq (stackCritical k s) := by
  unfold stackCritical
  repeat' with_reducible first
    | assumption | apply bump_kept | apply pauseCopy_kept | apply setStack_kept | apply stopRetrains_kept
    | apply loseOwnParts_kept | apply enterFence_kept | split | dsimp only | apply kept_mk


theorem stackCooled_kept {pq : List Instr} (k : Nat) (s : State) (h_s : Kept pq s) : Kept pq (stackCooled k s) := by
  unfold stackCooled
  repeat' with_reducible first
    | assumption | apply liftFence_kept | apply setStack_kept | split | dsimp only | apply kept_mk


theorem tearFlights_kept {pq : List Instr} (k : Nat) (s : State) (h_s : Kept pq s) : Kept pq (tearFlights k s) := by
  unfold tearFlights
  repeat' with_reducible first
    | intro _ | assumption | apply kept_foldl | apply markTorn_kept | apply kept_ite | split | dsimp only
    | apply kept_mk


theorem stackTrip_kept {pq : List Instr} (k : Nat) (t : Int) (s : State) (h_s : Kept pq s) : Kept pq (stackTrip k t s) := by
  unfold stackTrip
  repeat' with_reducible first
    | assumption | apply postEvent_kept | apply setStack_kept | apply tearFlights_kept | apply kept_ite | split
    | dsimp only | apply kept_mk


theorem execStackTempReport_kept {pq : List Instr} (stack : BitVec 3) (die : BitVec 4) (temp : W16) (s : State) (h_s : Kept pq s) : KeptO pq (execStackTempReport stack die temp s) := by
  unfold execStackTempReport
  repeat' with_reducible first
    | intro _ | assumption | apply kept_next | apply kept_foldl | apply bump_kept | apply raiseAlert_kept
    | apply setStack_kept | apply stackCritical_kept | apply stackCooled_kept | apply stackTrip_kept | apply kept_ite
    | split | dsimp only | apply kept_mk


theorem execStackStopComplete_kept {pq : List Instr} (stack : BitVec 3) (s : State) (h_s : Kept pq s) : KeptO pq (execStackStopComplete stack s) := by
  unfold execStackStopComplete
  repeat' with_reducible first
    | assumption | apply kept_next | apply setStack_kept | apply poolDrainStack_kept | apply kept_ite | split
    | dsimp only | apply kept_mk


theorem dieChange_kept {pq : List Instr} (d : Nat) (was : Nat) (l : Nat) (s : State) (h_s : Kept pq s) : Kept pq (dieChange d was l s) := by
  unfold dieChange
  repeat' with_reducible first
    | assumption | apply bump_kept | apply liftFence_kept | apply setPort_kept | apply portDown_kept
    | apply enterFence_kept | apply kept_ite | split | dsimp only | apply kept_mk


theorem execDieTempSample_kept {pq : List Instr} (die : BitVec 5) (temp : W16) (s : State) (h_s : Kept pq s) : KeptO pq (execDieTempSample die temp s) := by
  unfold execDieTempSample
  repeat' with_reducible first
    | intro _ | assumption | apply kept_next | apply bump_kept | apply setPwr_kept | apply mainLoss_kept
    | apply setClock_kept | apply dieChange_kept | apply kept_ite | split | dsimp only | apply kept_mk


theorem coreFail_kept {pq : List Instr} (c : Nat) (s : State) (h_s : Kept pq s) : Kept pq (coreFail c s) := by
  unfold coreFail
  repeat' with_reducible first
    | assumption | apply faultEvent_kept | apply postEvent_kept | apply retireCore_kept | apply kept_ite | split
    | dsimp only


theorem execCoreWatchdogTimeout_kept {pq : List Instr} (core : BitVec 3) (s : State) (h_s : Kept pq s) : KeptO pq (execCoreWatchdogTimeout core s) := by
  unfold execCoreWatchdogTimeout
  repeat' with_reducible first
    | assumption | apply kept_next | apply coreFail_kept | dsimp only


theorem execCoreEccFault_kept {pq : List Instr} (core : BitVec 3) (s : State) (h_s : Kept pq s) : KeptO pq (execCoreEccFault core s) := by
  unfold execCoreEccFault
  repeat' with_reducible first
    | assumption | apply kept_next | apply coreFail_kept | dsimp only


theorem execStickyLogMirror_kept {pq : List Instr} (s : State) (h_s : Kept pq s) : KeptO pq (execStickyLogMirror s) := by
  unfold execStickyLogMirror
  repeat' with_reducible first
    | intro _ | assumption | apply kept_next | apply kept_foldl | apply slog_kept | apply fwWrite_kept
    | apply kept_ite | split | dsimp only | apply kept_mk


end Sys2Proof.Machine
end

