-- ==== Sys2Proof/Laws/KeptMgmt.lean ====
section
/-!
SUPPORT. The functions of Machine/Mgmt.lean keep the queue and the canonical form of memory.
-/
namespace Sys2Proof.Machine

theorem mctpAnswer_kept {pq : List Instr} (bs : List Byte) (s : State) (h_s : Kept pq s) : Kept pq (mctpAnswer bs s) := by
  unfold mctpAnswer
  repeat' with_reducible first
    | assumption | apply emit_kept | dsimp only


theorem controlAnswer_kept {pq : List Instr} (m : List Byte) (cc : Nat) (data : List Byte) (s : State) (h_s : Kept pq s) : Kept pq (controlAnswer m cc data s) := by
  unfold controlAnswer
  repeat' with_reducible first
    | assumption | apply mctpAnswer_kept | dsimp only


theorem mctpControl_kept {pq : List Instr} (m : List Byte) (s : State) (h_s : Kept pq s) : Kept pq (mctpControl m s) := by
  unfold mctpControl
  repeat' with_reducible first
    | intro _ | assumption | apply setPwr_kept | apply controlAnswer_kept | apply kept_ite | split | dsimp only
    | refine kept_snd (by assumption) ?_ | refine kept_snd2 (by assumption) ?_ | refine kept_fst (by assumption) ?_
    | refine kept_some (by assumption) ?_ | apply kept_mk


theorem execMctpControlMessage_kept {pq : List Instr} (msg : List Byte) (s : State) (h_s : Kept pq s) : KeptO pq (execMctpControlMessage msg s) := by
  unfold execMctpControlMessage
  repeat' with_reducible first
    | assumption | apply kept_next | apply mctpControl_kept | split | dsimp only


theorem pldmAnswer_kept {pq : List Instr} (m : List Byte) (cc : Nat) (data : List Byte) (s : State) (h_s : Kept pq s) : Kept pq (pldmAnswer m cc data s) := by
  unfold pldmAnswer
  repeat' with_reducible first
    | assumption | apply mctpAnswer_kept | dsimp only


theorem pldmBase_kept {pq : List Instr} (m : List Byte) (s : State) (h_s : Kept pq s) : Kept pq (pldmBase m s) := by
  unfold pldmBase
  repeat' with_reducible first
    | intro _ | assumption | apply kept_foldl | apply setPwr_kept | apply pldmAnswer_kept | apply kept_ite | split
    | dsimp only | refine kept_snd (by assumption) ?_ | refine kept_snd2 (by assumption) ?_
    | refine kept_fst (by assumption) ?_ | refine kept_some (by assumption) ?_ | apply kept_mk


theorem execPldmBaseMessage_kept {pq : List Instr} (msg : List Byte) (s : State) (h_s : Kept pq s) : KeptO pq (execPldmBaseMessage msg s) := by
  unfold execPldmBaseMessage
  repeat' with_reducible first
    | assumption | apply kept_next | apply pldmBase_kept | split | dsimp only


theorem pldmMonitoring_kept {pq : List Instr} (m : List Byte) (s : State) (h_s : Kept pq s) : Kept pq (pldmMonitoring m s) := by
  unfold pldmMonitoring
  repeat' with_reducible first
    | assumption | apply pldmAnswer_kept | apply kept_ite | split | dsimp only | refine kept_snd (by assumption) ?_
    | refine kept_snd2 (by assumption) ?_ | refine kept_fst (by assumption) ?_ | refine kept_some (by assumption) ?_
    | apply kept_mk


theorem execPldmMonitoringMessage_kept {pq : List Instr} (msg : List Byte) (s : State) (h_s : Kept pq s) : KeptO pq (execPldmMonitoringMessage msg s) := by
  unfold execPldmMonitoringMessage
  repeat' with_reducible first
    | assumption | apply kept_next | apply pldmMonitoring_kept | split | dsimp only


theorem pldmFru_kept {pq : List Instr} (m : List Byte) (s : State) (h_s : Kept pq s) : Kept pq (pldmFru m s) := by
  unfold pldmFru
  repeat' with_reducible first
    | assumption | apply pldmAnswer_kept | split | dsimp only | refine kept_snd (by assumption) ?_
    | refine kept_snd2 (by assumption) ?_ | refine kept_fst (by assumption) ?_ | refine kept_some (by assumption) ?_
    | apply kept_mk


theorem execPldmFruMessage_kept {pq : List Instr} (msg : List Byte) (s : State) (h_s : Kept pq s) : KeptO pq (execPldmFruMessage msg s) := by
  unfold execPldmFruMessage
  repeat' with_reducible first
    | assumption | apply kept_next | apply pldmFru_kept | split | dsimp only


theorem pldmFirmware_kept {pq : List Instr} (m : List Byte) (image : List Byte) (s : State) (h_s : Kept pq s) : Kept pq (pldmFirmware m image s) := by
  unfold pldmFirmware
  repeat' with_reducible first
    | intro _ | assumption | apply installImage_kept | apply setPwr_kept | apply pldmAnswer_kept | apply kept_ite
    | split | dsimp only | refine kept_snd (by assumption) ?_ | refine kept_snd2 (by assumption) ?_
    | refine kept_fst (by assumption) ?_ | refine kept_some (by assumption) ?_ | apply kept_mk


theorem execPldmFwUpdateMessage_kept {pq : List Instr} (msg : List Byte) (image : List Byte) (s : State) (h_s : Kept pq s) : KeptO pq (execPldmFwUpdateMessage msg image s) := by
  unfold execPldmFwUpdateMessage
  repeat' with_reducible first
    | assumption | apply kept_next | apply pldmFirmware_kept | split | dsimp only


theorem execSmbusAlertResponse_kept {pq : List Instr} (s : State) (h_s : Kept pq s) : KeptO pq (execSmbusAlertResponse s) := by
  unfold execSmbusAlertResponse
  repeat' with_reducible first
    | intro _ | assumption | apply kept_next | apply emit_kept | apply setPwr_kept | apply kept_ite | split
    | dsimp only | apply kept_mk


end Sys2Proof.Machine
end

