-- ==== Sys2Proof/Laws/KeptRegOps.lean ====
section
/-!
SUPPORT. The functions of Machine/RegOps.lean keep the queue and the canonical form of memory.
-/
namespace Sys2Proof.Machine

theorem readRegister_kept {pq : List Instr} (req : Requester) (viaAlias : Bool) (a : Nat) (s : State) (h_s : Kept pq s) : Kept pq (readRegister req viaAlias a s).2 := by
  unfold readRegister
  repeat' with_reducible first
    | intro _ | assumption | apply kept_foldl | apply kept_foldl_snd | apply kept_foldl_snd2 | apply kept_foldl_fst
    | apply setReg_kept | apply countUnmapped_kept | apply kept_ite | split | dsimp only
    | refine kept_snd (by assumption) ?_ | refine kept_snd2 (by assumption) ?_ | refine kept_fst (by assumption) ?_
    | refine kept_some (by assumption) ?_ | apply kept_mk


theorem readCmd_kept {pq : List Instr} (req : Requester) (viaAlias : Bool) (addr : Nat) (s : State) (h_s : Kept pq s) : Kept pq (readCmd req viaAlias addr s) := by
  unfold readCmd
  repeat' with_reducible first
    | assumption | apply emit_kept | apply readRegister_kept | apply kept_ite | split | dsimp only


theorem execCounterLowRead_kept {pq : List Instr} (req : Requester) (addr : BitVec 26) (s : State) (h_s : Kept pq s) : KeptO pq (execCounterLowRead req addr s) := by
  unfold execCounterLowRead
  repeat' with_reducible first
    | assumption | apply kept_next | apply readCmd_kept | dsimp only


theorem execCounterLowPeek_kept {pq : List Instr} (req : Requester) (addr : BitVec 26) (s : State) (h_s : Kept pq s) : KeptO pq (execCounterLowPeek req addr s) := by
  unfold execCounterLowPeek
  repeat' with_reducible first
    | assumption | apply kept_next | apply readCmd_kept | dsimp only


theorem execLatchedLowRead_kept {pq : List Instr} (req : Requester) (addr : BitVec 26) (s : State) (h_s : Kept pq s) : KeptO pq (execLatchedLowRead req addr s) := by
  unfold execLatchedLowRead
  repeat' with_reducible first
    | assumption | apply kept_next | apply readCmd_kept | dsimp only


theorem execRcEventRead_kept {pq : List Instr} (req : Requester) (addr : BitVec 26) (s : State) (h_s : Kept pq s) : KeptO pq (execRcEventRead req addr s) := by
  unfold execRcEventRead
  repeat' with_reducible first
    | assumption | apply kept_next | apply readCmd_kept | dsimp only


theorem writeIgnored_kept {pq : List Instr} (s : State) (h_s : Kept pq s) : Kept pq (writeIgnored s) := by
  unfold writeIgnored
  repeat' with_reducible first
    | assumption | apply bump_kept | dsimp only


theorem snapPage_kept {pq : List Instr} (page : Nat) (s : State) (h_s : Kept pq s) : Kept pq (snapPage page s).2 := by
  unfold snapPage
  repeat' with_reducible first
    | intro _ | assumption | apply kept_foldl | apply kept_foldl_snd | apply kept_foldl_snd2 | apply kept_foldl_fst
    | apply setReg_kept | apply kept_ite | split | dsimp only | refine kept_snd (by assumption) ?_
    | refine kept_snd2 (by assumption) ?_ | refine kept_fst (by assumption) ?_ | refine kept_some (by assumption) ?_
    | apply kept_mk


theorem takeSnap_kept {pq : List Instr} (page : Nat) (s : State) (h_s : Kept pq s) : Kept pq (takeSnap page s) := by
  unfold takeSnap
  repeat' with_reducible first
    | assumption | apply snapPage_kept | split | dsimp only | refine kept_snd (by assumption) ?_
    | refine kept_snd2 (by assumption) ?_ | refine kept_fst (by assumption) ?_ | refine kept_some (by assumption) ?_
    | apply kept_mk


theorem snapCtlWrite_kept {pq : List Instr} (v : Nat) (s : State) (h_s : Kept pq s) : Kept pq (snapCtlWrite v s) := by
  unfold snapCtlWrite
  repeat' with_reducible first
    | assumption | apply setReg_kept | apply writeIgnored_kept | apply takeSnap_kept | apply kept_ite | split
    | dsimp only


theorem cfgCommit_kept {pq : List Instr} (s : State) (h_s : Kept pq s) : Kept pq (cfgCommit s) := by
  unfold cfgCommit
  repeat' with_reducible first
    | assumption | apply extendMr7_kept | apply kept_ite | split | dsimp only | refine kept_snd (by assumption) ?_
    | refine kept_snd2 (by assumption) ?_ | refine kept_fst (by assumption) ?_ | refine kept_some (by assumption) ?_
    | apply kept_mk


theorem commitWrite_kept {pq : List Instr} (v : Nat) (s : State) (h_s : Kept pq s) : Kept pq (commitWrite v s) := by
  unfold commitWrite
  repeat' with_reducible first
    | assumption | apply writeIgnored_kept | apply cfgCommit_kept | apply kept_ite | split | dsimp only
    | apply kept_mk


theorem settle_kept {pq : List Instr} (a : Nat) (v : Nat) (s : State) (h_s : Kept pq s) : Kept pq (settle a v s) := by
  unfold settle
  repeat' with_reducible first
    | assumption | apply setReg_kept | apply aqCfgWrite_kept | apply portCfgSet_kept | apply buddySet_kept
    | apply timeTree_kept | apply timerArmed_kept | apply secExtWrite_kept | apply cipCfgWrite_kept
    | apply snapCtlWrite_kept | apply kept_ite | split | dsimp only | apply kept_mk


theorem storeRw_kept {pq : List Instr} (req : Requester) (d : RegDef) (a : Nat) (w : Nat) (s : State) (h_s : Kept pq s) : Kept pq (storeRw req d a w s) := by
  unfold storeRw
  repeat' with_reducible first
    | assumption | apply touchCfg_kept | apply writeIgnored_kept | apply settle_kept | apply kept_ite | split
    | dsimp only | refine kept_snd (by assumption) ?_ | refine kept_snd2 (by assumption) ?_
    | refine kept_fst (by assumption) ?_ | refine kept_some (by assumption) ?_


theorem storeWo_kept {pq : List Instr} (req : Requester) (d : RegDef) (a : Nat) (w : Nat) (s : State) (h_s : Kept pq s) : Kept pq (storeWo req d a w s) := by
  unfold storeWo
  repeat' with_reducible first
    | assumption | apply setReg_kept | apply writeIgnored_kept | apply commitWrite_kept | apply kept_ite | split
    | dsimp only


theorem writePage_kept {pq : List Instr} (req : Requester) (a : Nat) (w : Nat) (s : State) (h_s : Kept pq s) : Kept pq (writePage req a w s) := by
  unfold writePage
  repeat' with_reducible first
    | assumption | apply countUnmapped_kept | apply writeIgnored_kept | apply storeRw_kept | apply storeWo_kept
    | apply kept_ite | split | dsimp only | refine kept_snd (by assumption) ?_ | refine kept_snd2 (by assumption) ?_
    | refine kept_fst (by assumption) ?_ | refine kept_some (by assumption) ?_ | apply kept_mk


theorem writeAlias_kept {pq : List Instr} (req : Requester) (kind : Nat) (a : Nat) (w : Nat) (s : State) (h_s : Kept pq s) : Kept pq (writeAlias req kind a w s) := by
  unfold writeAlias
  repeat' with_reducible first
    | assumption | apply countUnmapped_kept | apply writeIgnored_kept | apply storeRw_kept | apply kept_ite | split
    | dsimp only | refine kept_snd (by assumption) ?_ | refine kept_snd2 (by assumption) ?_
    | refine kept_fst (by assumption) ?_ | refine kept_some (by assumption) ?_ | apply kept_mk


theorem execRegWrite_kept {pq : List Instr} (req : Requester) (addr : BitVec 26) (value : W32) (s : State) (h_s : Kept pq s) : KeptO pq (execRegWrite req addr value s) := by
  unfold execRegWrite
  repeat' with_reducible first
    | assumption | apply kept_next | apply writePage_kept | dsimp only


theorem execRegAliasSet_kept {pq : List Instr} (req : Requester) (addr : BitVec 26) (value : W32) (s : State) (h_s : Kept pq s) : KeptO pq (execRegAliasSet req addr value s) := by
  unfold execRegAliasSet
  repeat' with_reducible first
    | assumption | apply kept_next | apply writeAlias_kept | dsimp only


theorem execRegAliasClear_kept {pq : List Instr} (req : Requester) (addr : BitVec 26) (value : W32) (s : State) (h_s : Kept pq s) : KeptO pq (execRegAliasClear req addr value s) := by
  unfold execRegAliasClear
  repeat' with_reducible first
    | assumption | apply kept_next | apply writeAlias_kept | dsimp only


theorem execRegAliasToggle_kept {pq : List Instr} (req : Requester) (addr : BitVec 26) (value : W32) (s : State) (h_s : Kept pq s) : KeptO pq (execRegAliasToggle req addr value s) := by
  unfold execRegAliasToggle
  repeat' with_reducible first
    | assumption | apply kept_next | apply writeAlias_kept | dsimp only


theorem execTopSnapGo_kept {pq : List Instr} (req : Requester) (value : W32) (s : State) (h_s : Kept pq s) : KeptO pq (execTopSnapGo req value s) := by
  unfold execTopSnapGo
  repeat' with_reducible first
    | assumption | apply kept_next | apply writePage_kept | dsimp only


theorem execSnapshotComplete_kept {pq : List Instr} (s : State) (h_s : Kept pq s) : KeptO pq (execSnapshotComplete s) := by
  unfold execSnapshotComplete
  repeat' with_reducible first
    | assumption | apply kept_next | split | dsimp only | apply kept_mk


theorem execCfgRefWrite_kept {pq : List Instr} (req : Requester) (hi : Bool) (value : W32) (s : State) (h_s : Kept pq s) : KeptO pq (execCfgRefWrite req hi value s) := by
  unfold execCfgRefWrite
  repeat' with_reducible first
    | assumption | apply kept_next | apply writePage_kept | split | dsimp only


theorem execCfgCommitCompare_kept {pq : List Instr} (req : Requester) (s : State) (h_s : Kept pq s) : KeptO pq (execCfgCommitCompare req s) := by
  unfold execCfgCommitCompare
  repeat' with_reducible first
    | assumption | apply kept_next | apply writePage_kept | dsimp only


theorem execCfgCommitAdopt_kept {pq : List Instr} (req : Requester) (s : State) (h_s : Kept pq s) : KeptO pq (execCfgCommitAdopt req s) := by
  unfold execCfgCommitAdopt
  repeat' with_reducible first
    | assumption | apply kept_next | apply writePage_kept | dsimp only


theorem execSecExtGo_kept {pq : List Instr} (req : Requester) (value : W32) (s : State) (h_s : Kept pq s) : KeptO pq (execSecExtGo req value s) := by
  unfold execSecExtGo
  repeat' with_reducible first
    | assumption | apply kept_next | apply writePage_kept | dsimp only


theorem execCipCfgWrite_kept {pq : List Instr} (req : Requester) (value : W32) (s : State) (h_s : Kept pq s) : KeptO pq (execCipCfgWrite req value s) := by
  unfold execCipCfgWrite
  repeat' with_reducible first
    | assumption | apply kept_next | apply writePage_kept | dsimp only


theorem execCipRqTailWrite_kept {pq : List Instr} (req : Requester) (value : W32) (s : State) (h_s : Kept pq s) : KeptO pq (execCipRqTailWrite req value s) := by
  unfold execCipRqTailWrite
  repeat' with_reducible first
    | assumption | apply kept_next | apply writePage_kept | dsimp only


theorem execHifAqCfgWrite_kept {pq : List Instr} (value : W32) (s : State) (h_s : Kept pq s) : KeptO pq (execHifAqCfgWrite value s) := by
  unfold execHifAqCfgWrite
  repeat' with_reducible first
    | assumption | apply kept_next | apply writePage_kept | split | dsimp only


theorem execHifJobctlWrite_kept {pq : List Instr} (req : Requester) (value : W32) (s : State) (h_s : Kept pq s) : KeptO pq (execHifJobctlWrite req value s) := by
  unfold execHifJobctlWrite
  repeat' with_reducible first
    | assumption | apply kept_next | apply writePage_kept | split | dsimp only


theorem execHifLockWrite_kept {pq : List Instr} (req : Requester) (value : W32) (s : State) (h_s : Kept pq s) : KeptO pq (execHifLockWrite req value s) := by
  unfold execHifLockWrite
  repeat' with_reducible first
    | assumption | apply kept_next | apply writePage_kept | split | dsimp only


theorem execFabLockWrite_kept {pq : List Instr} (req : Requester) (value : W32) (s : State) (h_s : Kept pq s) : KeptO pq (execFabLockWrite req value s) := by
  unfold execFabLockWrite
  repeat' with_reducible first
    | assumption | apply kept_next | apply writePage_kept | dsimp only


theorem execPwrLockWrite_kept {pq : List Instr} (req : Requester) (value : W32) (s : State) (h_s : Kept pq s) : KeptO pq (execPwrLockWrite req value s) := by
  unfold execPwrLockWrite
  repeat' with_reducible first
    | assumption | apply kept_next | apply writePage_kept | dsimp only


theorem execPwrLimitWrite_kept {pq : List Instr} (req : Requester) (value : W32) (s : State) (h_s : Kept pq s) : KeptO pq (execPwrLimitWrite req value s) := by
  unfold execPwrLimitWrite
  repeat' with_reducible first
    | assumption | apply kept_next | apply writePage_kept | dsimp only


theorem execCfgCrcPassStart_kept {pq : List Instr} (s : State) (h_s : Kept pq s) : KeptO pq (execCfgCrcPassStart s) := by
  unfold execCfgCrcPassStart
  repeat' with_reducible first
    | assumption | apply kept_next | apply kept_ite | split | dsimp only | apply kept_mk


theorem compareCfg_kept {pq : List Instr} (crc : Nat) (old : List Nat) (s : State) (h_s : Kept pq s) : Kept pq (compareCfg crc old s) := by
  unfold compareCfg
  repeat' with_reducible first
    | intro _ | assumption | apply kept_foldl | apply bump_kept | apply slog_kept | apply postEvent_kept
    | apply kept_ite | split | dsimp only | refine kept_snd (by assumption) ?_ | refine kept_snd2 (by assumption) ?_
    | refine kept_fst (by assumption) ?_ | refine kept_some (by assumption) ?_ | apply kept_mk


theorem execCfgCrcPassEnd_kept {pq : List Instr} (s : State) (h_s : Kept pq s) : KeptO pq (execCfgCrcPassEnd s) := by
  unfold execCfgCrcPassEnd
  repeat' with_reducible first
    | intro _ | assumption | apply kept_next | apply setReg_kept | apply bump_kept | apply cfgCommit_kept
    | apply compareCfg_kept | apply kept_ite | split | dsimp only | apply kept_mk


end Sys2Proof.Machine
end

