-- ==== Sys2Proof/Laws/KeptKolelm.lean ====
section
/-!
SUPPORT. The functions of Machine/Kolelm.lean keep the queue and the canonical form of memory.
-/
namespace Sys2Proof.Machine

theorem kIdentify_kept {pq : List Instr} (hd : CmdHdr) (buf : Buf) (s : State) (h_s : Kept pq s) : Kept pq (kIdentify hd buf s).s := by
  unfold kIdentify
  repeat' with_reducible first
    | assumption | apply withBuf_kept | apply deliver_kept | dsimp only | apply kept_id | apply kept_mk


theorem kJobStatus_kept {pq : List Instr} (hd : CmdHdr) (buf : Buf) (s : State) (h_s : Kept pq s) : Kept pq (kJobStatus hd buf s).s := by
  unfold kJobStatus
  repeat' with_reducible first
    | intro _ | assumption | apply withBuf_kept | apply deliver_kept | apply kept_ite | split | dsimp only
    | apply kept_mk


theorem kCountersRead_kept {pq : List Instr} (hd : CmdHdr) (block : Byte) (inst : W16) (buf : Buf) (s : State) (h_s : Kept pq s) : Kept pq (kCountersRead hd block inst buf s).s := by
  unfold kCountersRead
  repeat' with_reducible first
    | intro _ | assumption | apply kFail_kept | apply withBuf_kept | apply deliver_kept | apply snapPage_kept
    | apply kept_ite | split | dsimp only | refine kept_snd (by assumption) ?_ | refine kept_snd2 (by assumption) ?_
    | refine kept_fst (by assumption) ?_ | refine kept_some (by assumption) ?_ | apply kept_mk


theorem kSlogRead_kept {pq : List Instr} (hd : CmdHdr) (clear : Byte) (buf : Buf) (s : State) (h_s : Kept pq s) : Kept pq (kSlogRead hd clear buf s).s := by
  unfold kSlogRead
  repeat' with_reducible first
    | intro _ | assumption | apply slog_kept | apply withBuf_kept | apply deliver_kept | apply kept_ite | split
    | dsimp only | apply kept_mk


theorem kSensorsRead_kept {pq : List Instr} (hd : CmdHdr) (buf : Buf) (s : State) (h_s : Kept pq s) : Kept pq (kSensorsRead hd buf s).s := by
  unfold kSensorsRead
  repeat' with_reducible first
    | assumption | apply withBuf_kept | apply deliver_kept | dsimp only | apply kept_id | apply kept_mk


theorem kDiagRun_kept {pq : List Instr} (x0 : CmdHdr) (x1 : W16) (x2 : W64) (s : State) (h_s : Kept pq s) : Kept pq (kDiagRun x0 x1 x2 s).s := by
  unfold kDiagRun
  repeat' with_reducible first
    | assumption | apply free32_kept | apply kOk_kept | apply kFail_kept | apply kept_ite | split | dsimp only
    | refine kept_snd (by assumption) ?_ | refine kept_snd2 (by assumption) ?_ | refine kept_fst (by assumption) ?_
    | refine kept_some (by assumption) ?_


theorem kQueueDelete_kept {pq : List Instr} (x0 : CmdHdr) (qid : Byte) (s : State) (h_s : Kept pq s) : Kept pq (kQueueDelete x0 qid s).s := by
  unfold kQueueDelete
  repeat' with_reducible first
    | intro _ | assumption | apply kept_foldl | apply setQueue_kept | apply postReply_kept | apply kOk_kept
    | apply kFail_kept | apply kept_ite | split | dsimp only | refine kept_snd (by assumption) ?_
    | refine kept_snd2 (by assumption) ?_ | refine kept_fst (by assumption) ?_ | refine kept_some (by assumption) ?_
    | apply kept_mk


theorem body_kept {pq : List Instr} (b0 : Instr) (b1 : State) (h_b1 : Kept pq b1) : Kept pq (body b0 b1).s := by
  cases b0
  all_goals
    unfold body
    repeat' with_reducible first
      | assumption | apply kFail_kept | apply kQueueCreate_kept | apply kEventRingSet_kept | apply kJobSeedSet_kept
      | apply kMemToHost_kept | apply kMemFromHost_kept | apply kMemCopy_kept | apply kMemFill_kept
      | apply kTileFence_kept | apply kTileUnfence_kept | apply kTileQuery_kept | apply kPlinthAlloc_kept
      | apply kPlinthFree_kept | apply kPlinthQuota_kept | apply kPlinthApply_kept | apply kTreimMapApplyJobStart_kept
      | apply kTreimMapApplyRestore_kept | apply kTreimMapApplyResume_kept | apply kTreimRetrain_kept
      | apply kCorbelLoad_kept | apply kCorbelGroupSet_kept | apply kCorbelUnfreeze_kept | apply kCollSetup_kept
      | apply kCollFree_kept | apply kCollRun_kept | apply kCollQuery_kept | apply kQueueLoad_kept
      | apply kQueueStats_kept | apply kExpertTableLoad_kept | apply kJobGroups_kept | apply kCkptConfig_kept
      | apply kCkptQuery_kept | apply kCkptRestore_kept | apply kReplicaRepairNameSource_kept
      | apply kReplicaRepairCatchUp_kept | apply kStepBegin_kept | apply kStepAbort_kept | apply kStepQuery_kept
      | apply kTensorScale_kept | apply kTensorRead_kept | apply kCorbelResume_kept | apply kStepResume_kept
      | apply kTimeTimer_kept | apply kTimeEpoch_kept | apply kTimeQuery_kept | apply kTimePathSet_kept
      | apply kBudgetSet_kept | apply kFabricConfig_kept | apply kFabricRouteLoad_kept | apply kFabricQuery_kept
      | apply kFwUpdate_kept | apply kSecOwnerEnrol_kept | apply kSecRollbackSet_kept | apply kSecKeyLoad_kept
      | apply kSecKeyClear_kept | apply kProgramLoadMeasured_kept | apply kSecIdentity_kept | apply kSecAttest_kept
      | apply kExchConfig_kept | apply kExchPartners_kept | apply kExchWeights_kept | apply kExchJoin_kept
      | apply kExchQuery_kept | apply kExchFetch_kept | apply moduleReset_kept | apply kModuleReset_kept
      | apply kModuleBedEnter_kept | apply kModuleBedLeave_kept | apply kIdentify_kept | apply kJobStatus_kept
      | apply kCountersRead_kept | apply kSlogRead_kept | apply kSensorsRead_kept | apply kDiagRun_kept
      | apply kQueueDelete_kept | split | dsimp only


theorem countLate_kept {pq : List Instr} (hd : CmdHdr) (op : Nat) (s : State) (h_s : Kept pq s) : Kept pq (countLate hd op s) := by
  unfold countLate
  repeat' with_reducible first
    | assumption | apply bump_kept | apply kept_ite | split | dsimp only


theorem conclude_kept {pq : List Instr} (r : ReplyTo) (op : Nat) (k : KRes) (h_k : Kept pq k.s) : Kept pq (conclude r op k) := by
  unfold conclude
  repeat' with_reducible first
    | assumption | apply setQueue_kept | apply postReply_kept | apply kept_ite | split | dsimp only | apply kept_mk


theorem beginCmd_kept {pq : List Instr} (hd : CmdHdr) (op : Nat) (k : State → KRes) (i : Instr) (s : State) (h_k : ∀ a0 : State, Kept pq a0 → Kept pq (k a0).s) (h_s : Kept pq s) : Kept pq (beginCmd hd op k i s) := by
  unfold beginCmd
  repeat' with_reducible first
    | assumption | apply h_k | apply postReply_kept | apply countLate_kept | apply conclude_kept | split | dsimp only
    | refine kept_snd (by assumption) ?_ | refine kept_snd2 (by assumption) ?_ | refine kept_fst (by assumption) ?_
    | refine kept_some (by assumption) ?_ | apply kept_mk


theorem badCmd_kept {pq : List Instr} (hd : CmdHdr) (op : Nat) (st : Nat) (detail : Nat) (s : State) (h_s : Kept pq s) : Kept pq (badCmd hd op st detail s) := by
  unfold badCmd
  repeat' with_reducible first
    | assumption | apply bump_kept | apply postReply_kept | split | dsimp only


theorem enqueue_kept {pq : List Instr} (hd : CmdHdr) (op : Nat) (k : State → KRes) (i : Instr) (s : State) (h_k : ∀ a0 : State, Kept pq a0 → Kept pq (k a0).s) (h_s : Kept pq s) : Kept pq (enqueue hd op k i s) := by
  unfold enqueue
  repeat' with_reducible first
    | assumption | apply h_k | apply setQueue_kept | apply beginCmd_kept | apply badCmd_kept | apply kept_ite | split
    | dsimp only | apply kept_mk


theorem mctpReply_kept {pq : List Instr} (hd : CmdHdr) (st : Nat) (detail : Nat) (data : List Byte) (s : State) (h_s : Kept pq s) : Kept pq (mctpReply hd st detail data s) := by
  unfold mctpReply
  repeat' with_reducible first
    | assumption | apply bump_kept | apply emit_kept | split | dsimp only


theorem mctpBegin_kept {pq : List Instr} (hd : CmdHdr) (op : Nat) (k : State → KRes) (s : State) (h_k : ∀ a0 : State, Kept pq a0 → Kept pq (k a0).s) (h_s : Kept pq s) : Kept pq (mctpBegin hd op k s) := by
  unfold mctpBegin
  repeat' with_reducible first
    | assumption | apply h_k | apply countLate_kept | apply mctpReply_kept | apply kept_ite | split | dsimp only
    | refine kept_snd (by assumption) ?_ | refine kept_snd2 (by assumption) ?_ | refine kept_fst (by assumption) ?_
    | refine kept_some (by assumption) ?_ | apply kept_mk


theorem mctpSubmit_kept {pq : List Instr} (hd : CmdHdr) (op : Nat) (k : State → KRes) (i : Instr) (s : State) (h_k : ∀ a0 : State, Kept pq a0 → Kept pq (k a0).s) (h_s : Kept pq s) : Kept pq (mctpSubmit hd op k i s) := by
  unfold mctpSubmit
  repeat' with_reducible first
    | assumption | apply h_k | apply bump_kept | apply mctpReply_kept | apply mctpBegin_kept | apply kept_ite | split
    | dsimp only | apply kept_mk


theorem submit_kept {pq : List Instr} (hd : CmdHdr) (op : Nat) (k : State → KRes) (i : Instr) (s : State) (h_k : ∀ a0 : State, Kept pq a0 → Kept pq (k a0).s) (h_s : Kept pq s) : Kept pq (submit hd op k i s) := by
  unfold submit
  repeat' with_reducible first
    | assumption | apply h_k | apply setQueue_kept | apply enqueue_kept | apply mctpSubmit_kept | apply kept_ite
    | split | dsimp only | apply kept_mk


theorem pumpQueue_kept {pq : List Instr} (q : Nat) (b0 : Nat) (b1 : State) (h_b1 : Kept pq b1) : Kept pq (pumpQueue q b0 b1) := by
  induction b0 generalizing b1 with
  | zero => unfold pumpQueue; assumption
  | succ n ih =>
    unfold pumpQueue
    repeat' with_reducible first
      | assumption | apply ih | apply setQueue_kept | apply body_kept | apply beginCmd_kept | apply kept_ite | split
      | dsimp only | refine kept_snd (by assumption) ?_ | refine kept_snd2 (by assumption) ?_
      | refine kept_fst (by assumption) ?_ | refine kept_some (by assumption) ?_ | apply kept_mk


theorem runOrphan_kept {pq : List Instr} (hd : CmdHdr) (op : Nat) (c : Instr) (s : State) (h_s : Kept pq s) : Kept pq (runOrphan hd op c s) := by
  unfold runOrphan
  repeat' with_reducible first
    | assumption | apply setQueue_kept | apply body_kept | apply beginCmd_kept | apply mctpBegin_kept | apply kept_ite
    | split | dsimp only


theorem pumpOrphans_kept {pq : List Instr} (q : Nat) (b0 : List Instr) (b1 : Bool) (b2 : State) (h_b2 : Kept pq b2) : Kept pq (pumpOrphans q b0 b1 b2) := by
  induction b0 generalizing b1 b2 with
  | nil => unfold pumpOrphans; assumption
  | cons c cs ih =>
    unfold pumpOrphans
    repeat' with_reducible first
      | intro _ | apply ih | assumption | apply runOrphan_kept | apply kept_ite | split | dsimp only
      | refine kept_snd (by assumption) ?_ | refine kept_snd2 (by assumption) ?_ | refine kept_fst (by assumption) ?_
      | refine kept_some (by assumption) ?_ | apply kept_mk


theorem execCommandNotBeforeDue_kept {pq : List Instr} (queue : BitVec 6) (s : State) (h_s : Kept pq s) : KeptO pq (execCommandNotBeforeDue queue s) := by
  unfold execCommandNotBeforeDue
  repeat' with_reducible first
    | assumption | apply kept_next | apply pumpQueue_kept | apply pumpOrphans_kept | apply kept_ite | split
    | dsimp only


theorem takePacket_kept {pq : List Instr} (queue : BitVec 6) (packet : W512) (pb : List Byte) (hostData : List Byte) (s : State) (h_s : Kept pq s) : Kept pq (takePacket queue packet pb hostData s) := by
  unfold takePacket
  repeat' with_reducible first
    | assumption | apply bump_kept | apply postReply_kept | apply body_kept | apply badCmd_kept | apply enqueue_kept
    | apply kept_ite | split | dsimp only | refine kept_snd (by assumption) ?_ | refine kept_snd2 (by assumption) ?_
    | refine kept_fst (by assumption) ?_ | refine kept_some (by assumption) ?_ | apply kept_mk


theorem execCommandFetch_kept {pq : List Instr} (queue : BitVec 6) (packet : W512) (pb : List Byte) (hostData : List Byte) (s : State) (h_s : Kept pq s) : KeptO pq (execCommandFetch queue packet pb hostData s) := by
  unfold execCommandFetch
  repeat' with_reducible first
    | assumption | apply kept_next | apply bump_kept | apply setQueue_kept | apply takePacket_kept | apply kept_ite
    | split | dsimp only | apply kept_mk


theorem vendorCommand_kept {pq : List Instr} (vendor : W16) (packet : W512) (s : State) (h_s : Kept pq s) : Kept pq (vendorCommand vendor packet s) := by
  unfold vendorCommand
  repeat' with_reducible first
    | assumption | apply bump_kept | apply body_kept | apply mctpReply_kept | apply mctpSubmit_kept | apply kept_ite
    | split | dsimp only | refine kept_snd (by assumption) ?_ | refine kept_snd2 (by assumption) ?_
    | refine kept_fst (by assumption) ?_ | refine kept_some (by assumption) ?_ | apply kept_mk


theorem execMctpVendorCommand_kept {pq : List Instr} (vendor : W16) (packet : W512) (s : State) (h_s : Kept pq s) : KeptO pq (execMctpVendorCommand vendor packet s) := by
  unfold execMctpVendorCommand
  repeat' with_reducible first
    | assumption | apply kept_next | apply vendorCommand_kept | dsimp only


theorem mctpMessage_kept {pq : List Instr} (m : List Byte) (s : State) (h_s : Kept pq s) : Kept pq (mctpMessage m s) := by
  unfold mctpMessage
  repeat' with_reducible first
    | assumption | apply mctpControl_kept | apply pldmBase_kept | apply pldmMonitoring_kept | apply pldmFru_kept
    | apply pldmFirmware_kept | apply vendorCommand_kept | apply kept_ite | split | dsimp only
    | refine kept_snd (by assumption) ?_ | refine kept_snd2 (by assumption) ?_ | refine kept_fst (by assumption) ?_
    | refine kept_some (by assumption) ?_ | apply kept_mk


theorem mctpPacket_kept {pq : List Instr} (flags : Nat) (part : List Byte) (s : State) (h_s : Kept pq s) : Kept pq (mctpPacket flags part s) := by
  unfold mctpPacket
  repeat' with_reducible first
    | intro _ | assumption | apply setPwr_kept | apply mctpMessage_kept | apply kept_ite | split | dsimp only
    | apply kept_mk


theorem execSmbusTransaction_kept {pq : List Instr} (bytes : List Byte) (s : State) (h_s : Kept pq s) : KeptO pq (execSmbusTransaction bytes s) := by
  unfold execSmbusTransaction
  repeat' with_reducible first
    | assumption | apply kept_next | apply bump_kept | apply mctpPacket_kept | apply kept_ite | split | dsimp only


theorem execIdentify_kept {pq : List Instr} (hd : CmdHdr) (buf : Buf) (s : State) (h_s : Kept pq s) : KeptO pq (execIdentify hd buf s) := by
  unfold execIdentify
  repeat' with_reducible first
    | assumption | apply kept_next | apply kIdentify_kept | apply submit_kept | split | dsimp only


theorem execQueueCreate_kept {pq : List Instr} (hd : CmdHdr) (qid : Byte) (vector : Byte) (coalN : Byte) (coalUs : Byte) (log2Depth : Byte) (sq : W64) (cq : W64) (s : State) (h_s : Kept pq s) : KeptO pq (execQueueCreate hd qid vector coalN coalUs log2Depth sq cq s) := by
  unfold execQueueCreate
  repeat' with_reducible first
    | assumption | apply kept_next | apply kQueueCreate_kept | apply submit_kept | dsimp only


theorem execQueueDelete_kept {pq : List Instr} (hd : CmdHdr) (qid : Byte) (s : State) (h_s : Kept pq s) : KeptO pq (execQueueDelete hd qid s) := by
  unfold execQueueDelete
  repeat' with_reducible first
    | assumption | apply kept_next | apply kQueueDelete_kept | apply submit_kept | dsimp only


theorem execJobStatus_kept {pq : List Instr} (hd : CmdHdr) (buf : Buf) (s : State) (h_s : Kept pq s) : KeptO pq (execJobStatus hd buf s) := by
  unfold execJobStatus
  repeat' with_reducible first
    | assumption | apply kept_next | apply kJobStatus_kept | apply submit_kept | dsimp only


theorem execEventRingSet_kept {pq : List Instr} (hd : CmdHdr) (ring : W64) (log2Depth : Byte) (vector : Byte) (s : State) (h_s : Kept pq s) : KeptO pq (execEventRingSet hd ring log2Depth vector s) := by
  unfold execEventRingSet
  repeat' with_reducible first
    | assumption | apply kept_next | apply kEventRingSet_kept | apply submit_kept | dsimp only


theorem execJobSeedSet_kept {pq : List Instr} (hd : CmdHdr) (seed : W64) (s : State) (h_s : Kept pq s) : KeptO pq (execJobSeedSet hd seed s) := by
  unfold execJobSeedSet
  repeat' with_reducible first
    | assumption | apply kept_next | apply kJobSeedSet_kept | apply submit_kept | dsimp only


theorem execModuleReset_kept {pq : List Instr} (hd : CmdHdr) (confirm : W32) (s : State) (h_s : Kept pq s) : KeptO pq (execModuleReset hd confirm s) := by
  unfold execModuleReset
  repeat' with_reducible first
    | assumption | apply kept_next | apply moduleReset_kept | apply kModuleReset_kept | apply submit_kept | dsimp only


theorem execModuleBedEnter_kept {pq : List Instr} (hd : CmdHdr) (s : State) (h_s : Kept pq s) : KeptO pq (execModuleBedEnter hd s) := by
  unfold execModuleBedEnter
  repeat' with_reducible first
    | assumption | apply kept_next | apply kModuleBedEnter_kept | apply submit_kept | dsimp only


theorem execModuleBedLeave_kept {pq : List Instr} (hd : CmdHdr) (s : State) (h_s : Kept pq s) : KeptO pq (execModuleBedLeave hd s) := by
  unfold execModuleBedLeave
  repeat' with_reducible first
    | assumption | apply kept_next | apply kModuleBedLeave_kept | apply submit_kept | dsimp only


theorem execFwUpdate_kept {pq : List Instr} (hd : CmdHdr) (s : State) (h_s : Kept pq s) : KeptO pq (execFwUpdate hd s) := by
  unfold execFwUpdate
  repeat' with_reducible first
    | assumption | apply kept_next | apply kFwUpdate_kept | apply submit_kept | dsimp only


theorem execMemToHost_kept {pq : List Instr} (hd : CmdHdr) (dev : W64) (host : W64) (len : W64) (s : State) (h_s : Kept pq s) : KeptO pq (execMemToHost hd dev host len s) := by
  unfold execMemToHost
  repeat' with_reducible first
    | assumption | apply kept_next | apply kMemToHost_kept | apply submit_kept | dsimp only


theorem execMemFromHost_kept {pq : List Instr} (hd : CmdHdr) (host : W64) (dev : W64) (len : W64) (s : State) (h_s : Kept pq s) : KeptO pq (execMemFromHost hd host dev len s) := by
  unfold execMemFromHost
  repeat' with_reducible first
    | assumption | apply kept_next | apply kMemFromHost_kept | apply submit_kept | dsimp only


theorem execMemCopy_kept {pq : List Instr} (hd : CmdHdr) (src : W64) (dst : W64) (len : W64) (s : State) (h_s : Kept pq s) : KeptO pq (execMemCopy hd src dst len s) := by
  unfold execMemCopy
  repeat' with_reducible first
    | assumption | apply kept_next | apply kMemCopy_kept | apply submit_kept | dsimp only


theorem execMemFill_kept {pq : List Instr} (hd : CmdHdr) (dst : W64) (len : W64) (pattern : W64) (s : State) (h_s : Kept pq s) : KeptO pq (execMemFill hd dst len pattern s) := by
  unfold execMemFill
  repeat' with_reducible first
    | assumption | apply kept_next | apply kMemFill_kept | apply submit_kept | dsimp only


theorem execTreimMapApplyJobStart_kept {pq : List Instr} (hd : CmdHdr) (s : State) (h_s : Kept pq s) : KeptO pq (execTreimMapApplyJobStart hd s) := by
  unfold execTreimMapApplyJobStart
  repeat' with_reducible first
    | assumption | apply kept_next | apply kTreimMapApplyJobStart_kept | apply submit_kept | dsimp only


theorem execTreimMapApplyRestore_kept {pq : List Instr} (hd : CmdHdr) (s : State) (h_s : Kept pq s) : KeptO pq (execTreimMapApplyRestore hd s) := by
  unfold execTreimMapApplyRestore
  repeat' with_reducible first
    | assumption | apply kept_next | apply kTreimMapApplyRestore_kept | apply submit_kept | dsimp only


theorem execTreimMapApplyResume_kept {pq : List Instr} (hd : CmdHdr) (s : State) (h_s : Kept pq s) : KeptO pq (execTreimMapApplyResume hd s) := by
  unfold execTreimMapApplyResume
  repeat' with_reducible first
    | assumption | apply kept_next | apply kTreimMapApplyResume_kept | apply submit_kept | dsimp only


theorem execTreimRetrain_kept {pq : List Instr} (hd : CmdHdr) (channel : W16) (s : State) (h_s : Kept pq s) : KeptO pq (execTreimRetrain hd channel s) := by
  unfold execTreimRetrain
  repeat' with_reducible first
    | assumption | apply kept_next | apply kTreimRetrain_kept | apply submit_kept | dsimp only


theorem execPlinthApply_kept {pq : List Instr} (hd : CmdHdr) (pierMask : Byte) (s : State) (h_s : Kept pq s) : KeptO pq (execPlinthApply hd pierMask s) := by
  unfold execPlinthApply
  repeat' with_reducible first
    | assumption | apply kept_next | apply kPlinthApply_kept | apply submit_kept | dsimp only


theorem execPlinthAlloc_kept {pq : List Instr} (hd : CmdHdr) (pier : Byte) (domain : Byte) (pages : Byte) (shared : Byte) (s : State) (h_s : Kept pq s) : KeptO pq (execPlinthAlloc hd pier domain pages shared s) := by
  unfold execPlinthAlloc
  repeat' with_reducible first
    | assumption | apply kept_next | apply kPlinthAlloc_kept | apply submit_kept | dsimp only


theorem execPlinthFree_kept {pq : List Instr} (hd : CmdHdr) (pier : Byte) (region : Byte) (first : Byte) (pages : Byte) (s : State) (h_s : Kept pq s) : KeptO pq (execPlinthFree hd pier region first pages s) := by
  unfold execPlinthFree
  repeat' with_reducible first
    | assumption | apply kept_next | apply kPlinthFree_kept | apply submit_kept | dsimp only


theorem execPlinthQuota_kept {pq : List Instr} (hd : CmdHdr) (pierMask : Byte) (domain : Byte) (quota : W16) (s : State) (h_s : Kept pq s) : KeptO pq (execPlinthQuota hd pierMask domain quota s) := by
  unfold execPlinthQuota
  repeat' with_reducible first
    | assumption | apply kept_next | apply kPlinthQuota_kept | apply submit_kept | dsimp only


theorem execCorbelLoad_kept {pq : List Instr} (hd : CmdHdr) (s : State) (h_s : Kept pq s) : KeptO pq (execCorbelLoad hd s) := by
  unfold execCorbelLoad
  repeat' with_reducible first
    | assumption | apply kept_next | apply kCorbelLoad_kept | apply submit_kept | dsimp only


theorem execCorbelGroupSet_kept {pq : List Instr} (hd : CmdHdr) (s : State) (h_s : Kept pq s) : KeptO pq (execCorbelGroupSet hd s) := by
  unfold execCorbelGroupSet
  repeat' with_reducible first
    | assumption | apply kept_next | apply kCorbelGroupSet_kept | apply submit_kept | dsimp only


theorem execCorbelResume_kept {pq : List Instr} (hd : CmdHdr) (s : State) (h_s : Kept pq s) : KeptO pq (execCorbelResume hd s) := by
  unfold execCorbelResume
  repeat' with_reducible first
    | assumption | apply kept_next | apply kCorbelResume_kept | apply submit_kept | dsimp only


theorem execCorbelUnfreeze_kept {pq : List Instr} (hd : CmdHdr) (s : State) (h_s : Kept pq s) : KeptO pq (execCorbelUnfreeze hd s) := by
  unfold execCorbelUnfreeze
  repeat' with_reducible first
    | assumption | apply kept_next | apply kCorbelUnfreeze_kept | apply submit_kept | dsimp only


theorem execProgramLoad_kept {pq : List Instr} (hd : CmdHdr) (s : State) (h_s : Kept pq s) : KeptO pq (execProgramLoad hd s) := by
  unfold execProgramLoad
  repeat' with_reducible first
    | assumption | apply kept_next | apply kProgramLoadMeasured_kept | apply submit_kept | dsimp only


theorem execTileFence_kept {pq : List Instr} (hd : CmdHdr) (mask : BitVec 96) (s : State) (h_s : Kept pq s) : KeptO pq (execTileFence hd mask s) := by
  unfold execTileFence
  repeat' with_reducible first
    | assumption | apply kept_next | apply kTileFence_kept | apply submit_kept | dsimp only


theorem execTileUnfence_kept {pq : List Instr} (hd : CmdHdr) (mask : BitVec 96) (s : State) (h_s : Kept pq s) : KeptO pq (execTileUnfence hd mask s) := by
  unfold execTileUnfence
  repeat' with_reducible first
    | assumption | apply kept_next | apply kTileUnfence_kept | apply submit_kept | dsimp only


theorem execTileQuery_kept {pq : List Instr} (hd : CmdHdr) (mask : BitVec 96) (buf : Buf) (s : State) (h_s : Kept pq s) : KeptO pq (execTileQuery hd mask buf s) := by
  unfold execTileQuery
  repeat' with_reducible first
    | assumption | apply kept_next | apply kTileQuery_kept | apply submit_kept | dsimp only


theorem execStepBegin_kept {pq : List Instr} (hd : CmdHdr) (step : W64) (salt : W32) (gen : Byte) (tCheck : W64) (tCommit : W64) (deadline : W64) (s : State) (h_s : Kept pq s) : KeptO pq (execStepBegin hd step salt gen tCheck tCommit deadline s) := by
  unfold execStepBegin
  repeat' with_reducible first
    | assumption | apply kept_next | apply kStepBegin_kept | apply submit_kept | dsimp only


theorem execStepAbort_kept {pq : List Instr} (hd : CmdHdr) (step : W64) (s : State) (h_s : Kept pq s) : KeptO pq (execStepAbort hd step s) := by
  unfold execStepAbort
  repeat' with_reducible first
    | assumption | apply kept_next | apply kStepAbort_kept | apply submit_kept | dsimp only


theorem execStepQuery_kept {pq : List Instr} (hd : CmdHdr) (buf : Buf) (s : State) (h_s : Kept pq s) : KeptO pq (execStepQuery hd buf s) := by
  unfold execStepQuery
  repeat' with_reducible first
    | assumption | apply kept_next | apply kStepQuery_kept | apply submit_kept | dsimp only


theorem execTensorScale_kept {pq : List Instr} (hd : CmdHdr) (tid : W16) (margin : W32) (hostScale : W32) (depth : Byte) (flags : Byte) (s : State) (h_s : Kept pq s) : KeptO pq (execTensorScale hd tid margin hostScale depth flags s) := by
  unfold execTensorScale
  repeat' with_reducible first
    | assumption | apply kept_next | apply kTensorScale_kept | apply submit_kept | dsimp only


theorem execStepResume_kept {pq : List Instr} (hd : CmdHdr) (step : W64) (s : State) (h_s : Kept pq s) : KeptO pq (execStepResume hd step s) := by
  unfold execStepResume
  repeat' with_reducible first
    | assumption | apply kept_next | apply kStepResume_kept | apply submit_kept | dsimp only


theorem execJobGroups_kept {pq : List Instr} (hd : CmdHdr) (s : State) (h_s : Kept pq s) : KeptO pq (execJobGroups hd s) := by
  unfold execJobGroups
  repeat' with_reducible first
    | assumption | apply kept_next | apply kJobGroups_kept | apply submit_kept | dsimp only


theorem execQueueLoad_kept {pq : List Instr} (hd : CmdHdr) (s : State) (h_s : Kept pq s) : KeptO pq (execQueueLoad hd s) := by
  unfold execQueueLoad
  repeat' with_reducible first
    | assumption | apply kept_next | apply kQueueLoad_kept | apply submit_kept | dsimp only


theorem execExpertTableLoad_kept {pq : List Instr} (hd : CmdHdr) (s : State) (h_s : Kept pq s) : KeptO pq (execExpertTableLoad hd s) := by
  unfold execExpertTableLoad
  repeat' with_reducible first
    | assumption | apply kept_next | apply kExpertTableLoad_kept | apply submit_kept | dsimp only


theorem execFabricConfig_kept {pq : List Instr} (hd : CmdHdr) (s : State) (h_s : Kept pq s) : KeptO pq (execFabricConfig hd s) := by
  unfold execFabricConfig
  repeat' with_reducible first
    | assumption | apply kept_next | apply kFabricConfig_kept | apply submit_kept | dsimp only


theorem execFabricRouteLoad_kept {pq : List Instr} (hd : CmdHdr) (s : State) (h_s : Kept pq s) : KeptO pq (execFabricRouteLoad hd s) := by
  unfold execFabricRouteLoad
  repeat' with_reducible first
    | assumption | apply kept_next | apply kFabricRouteLoad_kept | apply submit_kept | dsimp only


theorem execCollSetup_kept {pq : List Instr} (hd : CmdHdr) (s : State) (h_s : Kept pq s) : KeptO pq (execCollSetup hd s) := by
  unfold execCollSetup
  repeat' with_reducible first
    | assumption | apply kept_next | apply kCollSetup_kept | apply submit_kept | dsimp only


theorem execCollFree_kept {pq : List Instr} (hd : CmdHdr) (handle : W16) (s : State) (h_s : Kept pq s) : KeptO pq (execCollFree hd handle s) := by
  unfold execCollFree
  repeat' with_reducible first
    | assumption | apply kept_next | apply kCollFree_kept | apply submit_kept | dsimp only


theorem execCollRun_kept {pq : List Instr} (hd : CmdHdr) (handle : W16) (s : State) (h_s : Kept pq s) : KeptO pq (execCollRun hd handle s) := by
  unfold execCollRun
  repeat' with_reducible first
    | assumption | apply kept_next | apply kCollRun_kept | apply submit_kept | dsimp only


theorem execFabricQuery_kept {pq : List Instr} (hd : CmdHdr) (buf : Buf) (s : State) (h_s : Kept pq s) : KeptO pq (execFabricQuery hd buf s) := by
  unfold execFabricQuery
  repeat' with_reducible first
    | assumption | apply kept_next | apply kFabricQuery_kept | apply submit_kept | dsimp only


theorem execCollQuery_kept {pq : List Instr} (hd : CmdHdr) (handle : W16) (buf : Buf) (s : State) (h_s : Kept pq s) : KeptO pq (execCollQuery hd handle buf s) := by
  unfold execCollQuery
  repeat' with_reducible first
    | assumption | apply kept_next | apply kCollQuery_kept | apply submit_kept | dsimp only


theorem execExchConfig_kept {pq : List Instr} (hd : CmdHdr) (s : State) (h_s : Kept pq s) : KeptO pq (execExchConfig hd s) := by
  unfold execExchConfig
  repeat' with_reducible first
    | assumption | apply kept_next | apply kExchConfig_kept | apply submit_kept | dsimp only


theorem execExchPartners_kept {pq : List Instr} (hd : CmdHdr) (s : State) (h_s : Kept pq s) : KeptO pq (execExchPartners hd s) := by
  unfold execExchPartners
  repeat' with_reducible first
    | assumption | apply kept_next | apply kExchPartners_kept | apply submit_kept | dsimp only


theorem execExchWeights_kept {pq : List Instr} (hd : CmdHdr) (s : State) (h_s : Kept pq s) : KeptO pq (execExchWeights hd s) := by
  unfold execExchWeights
  repeat' with_reducible first
    | assumption | apply kept_next | apply kExchWeights_kept | apply submit_kept | dsimp only


theorem execExchJoin_kept {pq : List Instr} (hd : CmdHdr) (s : State) (h_s : Kept pq s) : KeptO pq (execExchJoin hd s) := by
  unfold execExchJoin
  repeat' with_reducible first
    | assumption | apply kept_next | apply kExchJoin_kept | apply submit_kept | dsimp only


theorem execExchQuery_kept {pq : List Instr} (hd : CmdHdr) (buf : Buf) (s : State) (h_s : Kept pq s) : KeptO pq (execExchQuery hd buf s) := by
  unfold execExchQuery
  repeat' with_reducible first
    | assumption | apply kept_next | apply kExchQuery_kept | apply submit_kept | dsimp only


theorem execExchFetch_kept {pq : List Instr} (hd : CmdHdr) (s : State) (h_s : Kept pq s) : KeptO pq (execExchFetch hd s) := by
  unfold execExchFetch
  repeat' with_reducible first
    | assumption | apply kept_next | apply kExchFetch_kept | apply submit_kept | dsimp only


theorem execCkptConfig_kept {pq : List Instr} (hd : CmdHdr) (s : State) (h_s : Kept pq s) : KeptO pq (execCkptConfig hd s) := by
  unfold execCkptConfig
  repeat' with_reducible first
    | assumption | apply kept_next | apply kCkptConfig_kept | apply submit_kept | dsimp only


theorem execCkptQuery_kept {pq : List Instr} (hd : CmdHdr) (buf : Buf) (s : State) (h_s : Kept pq s) : KeptO pq (execCkptQuery hd buf s) := by
  unfold execCkptQuery
  repeat' with_reducible first
    | assumption | apply kept_next | apply kCkptQuery_kept | apply submit_kept | dsimp only


theorem execCkptRestore_kept {pq : List Instr} (hd : CmdHdr) (outer : W32) (s : State) (h_s : Kept pq s) : KeptO pq (execCkptRestore hd outer s) := by
  unfold execCkptRestore
  repeat' with_reducible first
    | assumption | apply kept_next | apply kCkptRestore_kept | apply submit_kept | dsimp only


theorem execReplicaRepairNameSource_kept {pq : List Instr} (hd : CmdHdr) (s : State) (h_s : Kept pq s) : KeptO pq (execReplicaRepairNameSource hd s) := by
  unfold execReplicaRepairNameSource
  repeat' with_reducible first
    | assumption | apply kept_next | apply kReplicaRepairNameSource_kept | apply submit_kept | dsimp only


theorem execReplicaRepairCatchUp_kept {pq : List Instr} (hd : CmdHdr) (s : State) (h_s : Kept pq s) : KeptO pq (execReplicaRepairCatchUp hd s) := by
  unfold execReplicaRepairCatchUp
  repeat' with_reducible first
    | assumption | apply kept_next | apply kReplicaRepairCatchUp_kept | apply submit_kept | dsimp only


theorem execTimeEpoch_kept {pq : List Instr} (hd : CmdHdr) (epoch : W64) (ppsSecond : W64) (s : State) (h_s : Kept pq s) : KeptO pq (execTimeEpoch hd epoch ppsSecond s) := by
  unfold execTimeEpoch
  repeat' with_reducible first
    | assumption | apply kept_next | apply kTimeEpoch_kept | apply submit_kept | dsimp only


theorem execTimeQuery_kept {pq : List Instr} (hd : CmdHdr) (buf : Buf) (s : State) (h_s : Kept pq s) : KeptO pq (execTimeQuery hd buf s) := by
  unfold execTimeQuery
  repeat' with_reducible first
    | assumption | apply kept_next | apply kTimeQuery_kept | apply submit_kept | dsimp only


theorem execBudgetSet_kept {pq : List Instr} (hd : CmdHdr) (s : State) (h_s : Kept pq s) : KeptO pq (execBudgetSet hd s) := by
  unfold execBudgetSet
  repeat' with_reducible first
    | assumption | apply kept_next | apply kBudgetSet_kept | apply submit_kept | dsimp only


theorem execTimeTimer_kept {pq : List Instr} (hd : CmdHdr) (timer : Byte) (ctl : W32) (expiry : W64) (s : State) (h_s : Kept pq s) : KeptO pq (execTimeTimer hd timer ctl expiry s) := by
  unfold execTimeTimer
  repeat' with_reducible first
    | assumption | apply kept_next | apply kTimeTimer_kept | apply submit_kept | dsimp only


theorem execTimePathSet_kept {pq : List Instr} (hd : CmdHdr) (s : State) (h_s : Kept pq s) : KeptO pq (execTimePathSet hd s) := by
  unfold execTimePathSet
  repeat' with_reducible first
    | assumption | apply kept_next | apply kTimePathSet_kept | apply submit_kept | dsimp only


theorem execSecIdentity_kept {pq : List Instr} (hd : CmdHdr) (buf : Buf) (s : State) (h_s : Kept pq s) : KeptO pq (execSecIdentity hd buf s) := by
  unfold execSecIdentity
  repeat' with_reducible first
    | assumption | apply kept_next | apply kSecIdentity_kept | apply submit_kept | dsimp only


theorem execSecAttest_kept {pq : List Instr} (hd : CmdHdr) (buf : Buf) (nonce : BitVec 256) (s : State) (h_s : Kept pq s) : KeptO pq (execSecAttest hd buf nonce s) := by
  unfold execSecAttest
  repeat' with_reducible first
    | assumption | apply kept_next | apply kSecAttest_kept | apply submit_kept | dsimp only


theorem execSecKeyLoad_kept {pq : List Instr} (hd : CmdHdr) (s : State) (h_s : Kept pq s) : KeptO pq (execSecKeyLoad hd s) := by
  unfold execSecKeyLoad
  repeat' with_reducible first
    | assumption | apply kept_next | apply kSecKeyLoad_kept | apply submit_kept | dsimp only


theorem execSecKeyClear_kept {pq : List Instr} (hd : CmdHdr) (slot : Byte) (s : State) (h_s : Kept pq s) : KeptO pq (execSecKeyClear hd slot s) := by
  unfold execSecKeyClear
  repeat' with_reducible first
    | assumption | apply kept_next | apply kSecKeyClear_kept | apply submit_kept | dsimp only


theorem execSecOwnerEnrol_kept {pq : List Instr} (hd : CmdHdr) (s : State) (h_s : Kept pq s) : KeptO pq (execSecOwnerEnrol hd s) := by
  unfold execSecOwnerEnrol
  repeat' with_reducible first
    | assumption | apply kept_next | apply kSecOwnerEnrol_kept | apply submit_kept | dsimp only


theorem execSecRollbackSet_kept {pq : List Instr} (hd : CmdHdr) (s : State) (h_s : Kept pq s) : KeptO pq (execSecRollbackSet hd s) := by
  unfold execSecRollbackSet
  repeat' with_reducible first
    | assumption | apply kept_next | apply kSecRollbackSet_kept | apply submit_kept | dsimp only


theorem execCountersRead_kept {pq : List Instr} (hd : CmdHdr) (block : Byte) (inst : W16) (buf : Buf) (s : State) (h_s : Kept pq s) : KeptO pq (execCountersRead hd block inst buf s) := by
  unfold execCountersRead
  repeat' with_reducible first
    | assumption | apply kept_next | apply kCountersRead_kept | apply submit_kept | dsimp only


theorem execSlogRead_kept {pq : List Instr} (hd : CmdHdr) (clear : Byte) (buf : Buf) (s : State) (h_s : Kept pq s) : KeptO pq (execSlogRead hd clear buf s) := by
  unfold execSlogRead
  repeat' with_reducible first
    | assumption | apply kept_next | apply kSlogRead_kept | apply submit_kept | dsimp only


theorem execTensorRead_kept {pq : List Instr} (hd : CmdHdr) (first : W16) (n : W16) (buf : Buf) (s : State) (h_s : Kept pq s) : KeptO pq (execTensorRead hd first n buf s) := by
  unfold execTensorRead
  repeat' with_reducible first
    | assumption | apply kept_next | apply kTensorRead_kept | apply submit_kept | dsimp only


theorem execQueueStats_kept {pq : List Instr} (hd : CmdHdr) (first : W16) (n : W16) (buf : Buf) (s : State) (h_s : Kept pq s) : KeptO pq (execQueueStats hd first n buf s) := by
  unfold execQueueStats
  repeat' with_reducible first
    | assumption | apply kept_next | apply kQueueStats_kept | apply submit_kept | dsimp only


theorem execSensorsRead_kept {pq : List Instr} (hd : CmdHdr) (buf : Buf) (s : State) (h_s : Kept pq s) : KeptO pq (execSensorsRead hd buf s) := by
  unfold execSensorsRead
  repeat' with_reducible first
    | assumption | apply kept_next | apply kSensorsRead_kept | apply submit_kept | dsimp only


theorem execDiagRun_kept {pq : List Instr} (hd : CmdHdr) (test : W16) (param : W64) (s : State) (h_s : Kept pq s) : KeptO pq (execDiagRun hd test param s) := by
  unfold execDiagRun
  repeat' with_reducible first
    | assumption | apply kept_next | apply kDiagRun_kept | apply submit_kept | dsimp only


end Sys2Proof.Machine
end

