-- ==== Sys2Proof/Laws/KeptExec.lean ====
section
/-!
SUPPORT. Every command leaves the queue of waiting commands alone and keeps the canonical form of memory.
-/
namespace Sys2Proof.Machine

/-- No command touches the queue, and each keeps the canonical form of memory. -/
theorem exec_kept {p : List Instr} (i : Instr) (s : State) (h : Kept p s) : KeptO p (exec i s) :=
  match i with
  | .identify w0 w1 => execIdentify_kept w0 w1 s h
  | .queueCreate w0 w1 w2 w3 w4 w5 w6 w7 => execQueueCreate_kept w0 w1 w2 w3 w4 w5 w6 w7 s h
  | .queueDelete w0 w1 => execQueueDelete_kept w0 w1 s h
  | .jobStatus w0 w1 => execJobStatus_kept w0 w1 s h
  | .eventRingSet w0 w1 w2 w3 => execEventRingSet_kept w0 w1 w2 w3 s h
  | .jobSeedSet w0 w1 => execJobSeedSet_kept w0 w1 s h
  | .moduleReset w0 w1 => execModuleReset_kept w0 w1 s h
  | .moduleBedEnter w0 => execModuleBedEnter_kept w0 s h
  | .moduleBedLeave w0 => execModuleBedLeave_kept w0 s h
  | .fwUpdate w0 => execFwUpdate_kept w0 s h
  | .memToHost w0 w1 w2 w3 => execMemToHost_kept w0 w1 w2 w3 s h
  | .memFromHost w0 w1 w2 w3 => execMemFromHost_kept w0 w1 w2 w3 s h
  | .memCopy w0 w1 w2 w3 => execMemCopy_kept w0 w1 w2 w3 s h
  | .memFill w0 w1 w2 w3 => execMemFill_kept w0 w1 w2 w3 s h
  | .treimMapApplyJobStart w0 => execTreimMapApplyJobStart_kept w0 s h
  | .treimMapApplyRestore w0 => execTreimMapApplyRestore_kept w0 s h
  | .treimMapApplyResume w0 => execTreimMapApplyResume_kept w0 s h
  | .treimRetrain w0 w1 => execTreimRetrain_kept w0 w1 s h
  | .plinthApply w0 w1 => execPlinthApply_kept w0 w1 s h
  | .plinthAlloc w0 w1 w2 w3 w4 => execPlinthAlloc_kept w0 w1 w2 w3 w4 s h
  | .plinthFree w0 w1 w2 w3 w4 => execPlinthFree_kept w0 w1 w2 w3 w4 s h
  | .plinthQuota w0 w1 w2 w3 => execPlinthQuota_kept w0 w1 w2 w3 s h
  | .corbelLoad w0 => execCorbelLoad_kept w0 s h
  | .corbelGroupSet w0 => execCorbelGroupSet_kept w0 s h
  | .corbelResume w0 => execCorbelResume_kept w0 s h
  | .corbelUnfreeze w0 => execCorbelUnfreeze_kept w0 s h
  | .programLoad w0 => execProgramLoad_kept w0 s h
  | .tileFence w0 w1 => execTileFence_kept w0 w1 s h
  | .tileUnfence w0 w1 => execTileUnfence_kept w0 w1 s h
  | .tileQuery w0 w1 w2 => execTileQuery_kept w0 w1 w2 s h
  | .stepBegin w0 w1 w2 w3 w4 w5 w6 => execStepBegin_kept w0 w1 w2 w3 w4 w5 w6 s h
  | .stepAbort w0 w1 => execStepAbort_kept w0 w1 s h
  | .stepQuery w0 w1 => execStepQuery_kept w0 w1 s h
  | .tensorScale w0 w1 w2 w3 w4 w5 => execTensorScale_kept w0 w1 w2 w3 w4 w5 s h
  | .stepResume w0 w1 => execStepResume_kept w0 w1 s h
  | .jobGroups w0 => execJobGroups_kept w0 s h
  | .queueLoad w0 => execQueueLoad_kept w0 s h
  | .expertTableLoad w0 => execExpertTableLoad_kept w0 s h
  | .fabricConfig w0 => execFabricConfig_kept w0 s h
  | .fabricRouteLoad w0 => execFabricRouteLoad_kept w0 s h
  | .collSetup w0 => execCollSetup_kept w0 s h
  | .collFree w0 w1 => execCollFree_kept w0 w1 s h
  | .collRun w0 w1 => execCollRun_kept w0 w1 s h
  | .fabricQuery w0 w1 => execFabricQuery_kept w0 w1 s h
  | .collQuery w0 w1 w2 => execCollQuery_kept w0 w1 w2 s h
  | .exchConfig w0 => execExchConfig_kept w0 s h
  | .exchPartners w0 => execExchPartners_kept w0 s h
  | .exchWeights w0 => execExchWeights_kept w0 s h
  | .exchJoin w0 => execExchJoin_kept w0 s h
  | .exchQuery w0 w1 => execExchQuery_kept w0 w1 s h
  | .exchFetch w0 => execExchFetch_kept w0 s h
  | .ckptConfig w0 => execCkptConfig_kept w0 s h
  | .ckptQuery w0 w1 => execCkptQuery_kept w0 w1 s h
  | .ckptRestore w0 w1 => execCkptRestore_kept w0 w1 s h
  | .replicaRepairNameSource w0 => execReplicaRepairNameSource_kept w0 s h
  | .replicaRepairCatchUp w0 => execReplicaRepairCatchUp_kept w0 s h
  | .timeEpoch w0 w1 w2 => execTimeEpoch_kept w0 w1 w2 s h
  | .timeQuery w0 w1 => execTimeQuery_kept w0 w1 s h
  | .budgetSet w0 => execBudgetSet_kept w0 s h
  | .timeTimer w0 w1 w2 w3 => execTimeTimer_kept w0 w1 w2 w3 s h
  | .timePathSet w0 => execTimePathSet_kept w0 s h
  | .secIdentity w0 w1 => execSecIdentity_kept w0 w1 s h
  | .secAttest w0 w1 w2 => execSecAttest_kept w0 w1 w2 s h
  | .secKeyLoad w0 => execSecKeyLoad_kept w0 s h
  | .secKeyClear w0 w1 => execSecKeyClear_kept w0 w1 s h
  | .secOwnerEnrol w0 => execSecOwnerEnrol_kept w0 s h
  | .secRollbackSet w0 => execSecRollbackSet_kept w0 s h
  | .countersRead w0 w1 w2 w3 => execCountersRead_kept w0 w1 w2 w3 s h
  | .slogRead w0 w1 w2 => execSlogRead_kept w0 w1 w2 s h
  | .tensorRead w0 w1 w2 w3 => execTensorRead_kept w0 w1 w2 w3 s h
  | .queueStats w0 w1 w2 w3 => execQueueStats_kept w0 w1 w2 w3 s h
  | .sensorsRead w0 w1 => execSensorsRead_kept w0 w1 s h
  | .diagRun w0 w1 w2 => execDiagRun_kept w0 w1 w2 s h
  | .commandFetch w0 w1 w2 w3 => execCommandFetch_kept w0 w1 w2 w3 s h
  | .commandNotBeforeDue w0 => execCommandNotBeforeDue_kept w0 s h
  | .sqTailDoorbell w0 w1 => execSqTailDoorbell_kept w0 w1 s h
  | .cqHeadDoorbell w0 w1 => execCqHeadDoorbell_kept w0 w1 s h
  | .evHeadDoorbell w0 => execEvHeadDoorbell_kept w0 s h
  | .hifAqCfgWrite w0 => execHifAqCfgWrite_kept w0 s h
  | .msixCoalesceTimeout w0 => execMsixCoalesceTimeout_kept w0 s h
  | .hostIfReset => execHostIfReset_kept s h
  | .flr => execFlr_kept s h
  | .surpriseRemoval => execSurpriseRemoval_kept s h
  | .hostLinkUp w0 w1 w2 => execHostLinkUp_kept w0 w1 w2 s h
  | .apertureAccess w0 w1 w2 w3 => execApertureAccess_kept w0 w1 w2 w3 s h
  | .regWindowBadAccess w0 w1 w2 => execRegWindowBadAccess_kept w0 w1 w2 s h
  | .pciPmD3hot => execPciPmD3hot_kept s h
  | .pciPmD0 => execPciPmD0_kept s h
  | .d3hotBedStart => execD3hotBedStart_kept s h
  | .regWrite w0 w1 w2 => execRegWrite_kept w0 w1 w2 s h
  | .regAliasSet w0 w1 w2 => execRegAliasSet_kept w0 w1 w2 s h
  | .regAliasClear w0 w1 w2 => execRegAliasClear_kept w0 w1 w2 s h
  | .regAliasToggle w0 w1 w2 => execRegAliasToggle_kept w0 w1 w2 s h
  | .counterLowRead w0 w1 => execCounterLowRead_kept w0 w1 s h
  | .counterLowPeek w0 w1 => execCounterLowPeek_kept w0 w1 s h
  | .latchedLowRead w0 w1 => execLatchedLowRead_kept w0 w1 s h
  | .rcEventRead w0 w1 => execRcEventRead_kept w0 w1 s h
  | .topSnapGo w0 w1 => execTopSnapGo_kept w0 w1 s h
  | .snapshotComplete => execSnapshotComplete_kept s h
  | .cfgRefWrite w0 w1 w2 => execCfgRefWrite_kept w0 w1 w2 s h
  | .cfgCommitCompare w0 => execCfgCommitCompare_kept w0 s h
  | .cfgCommitAdopt w0 => execCfgCommitAdopt_kept w0 s h
  | .cfgCrcPassStart => execCfgCrcPassStart_kept s h
  | .cfgCrcPassEnd => execCfgCrcPassEnd_kept s h
  | .secExtGo w0 w1 => execSecExtGo_kept w0 w1 s h
  | .cipCfgWrite w0 w1 => execCipCfgWrite_kept w0 w1 s h
  | .cipRqTailWrite w0 w1 => execCipRqTailWrite_kept w0 w1 s h
  | .hifJobctlWrite w0 w1 => execHifJobctlWrite_kept w0 w1 s h
  | .hifLockWrite w0 w1 => execHifLockWrite_kept w0 w1 s h
  | .fabLockWrite w0 w1 => execFabLockWrite_kept w0 w1 s h
  | .pwrLockWrite w0 w1 => execPwrLockWrite_kept w0 w1 s h
  | .pwrLimitWrite w0 w1 => execPwrLimitWrite_kept w0 w1 s h
  | .auxPowerOn w0 => execAuxPowerOn_kept w0 s h
  | .coldRstLAssert => execColdRstLAssert_kept s h
  | .mrstLAssert => execMrstLAssert_kept s h
  | .perstAssert => execPerstAssert_kept s h
  | .pwrEnLAssert => execPwrEnLAssert_kept s h
  | .pwrEnLDeassert => execPwrEnLDeassert_kept s h
  | .prsntLAssert => execPrsntLAssert_kept s h
  | .prsntLDeassert => execPrsntLDeassert_kept s h
  | .mainInputLow => execMainInputLow_kept s h
  | .auxSupplyLow => execAuxSupplyLow_kept s h
  | .mainPowerRamp => execMainPowerRamp_kept s h
  | .railsGood => execRailsGood_kept s h
  | .islandBootComplete w0 w1 => execIslandBootComplete_kept w0 w1 s h
  | .treimTrainingComplete w0 => execTreimTrainingComplete_kept w0 s h
  | .selfRefreshEntry w0 => execSelfRefreshEntry_kept w0 s h
  | .locateLChange w0 => execLocateLChange_kept w0 s h
  | .powerSample w0 w1 => execPowerSample_kept w0 w1 s h
  | .dieTempSample w0 w1 => execDieTempSample_kept w0 w1 s h
  | .stackTempReport w0 w1 w2 => execStackTempReport_kept w0 w1 w2 s h
  | .stackStopComplete w0 => execStackStopComplete_kept w0 s h
  | .smbusTransaction w0 => execSmbusTransaction_kept w0 s h
  | .mctpControlMessage w0 => execMctpControlMessage_kept w0 s h
  | .pldmMonitoringMessage w0 => execPldmMonitoringMessage_kept w0 s h
  | .pldmFruMessage w0 => execPldmFruMessage_kept w0 s h
  | .pldmFwUpdateMessage w0 w1 => execPldmFwUpdateMessage_kept w0 w1 s h
  | .mctpVendorCommand w0 w1 => execMctpVendorCommand_kept w0 w1 s h
  | .smbusAlertResponse => execSmbusAlertResponse_kept s h
  | .ppsInEdge => execPpsInEdge_kept s h
  | .ppsEdgeMissing => execPpsEdgeMissing_kept s h
  | .ppsOutPulse => execPpsOutPulse_kept s h
  | .ref10mChange w0 => execRef10mChange_kept w0 s h
  | .tokenArrival w0 => execTokenArrival_kept w0 s h
  | .creditArrival w0 w1 => execCreditArrival_kept w0 w1 s h
  | .taskStart w0 => execTaskStart_kept w0 s h
  | .matrixTaskComplete w0 => execMatrixTaskComplete_kept w0 s h
  | .vectorPassComplete w0 => execVectorPassComplete_kept w0 s h
  | .moveTaskComplete w0 => execMoveTaskComplete_kept w0 s h
  | .sendTaskComplete w0 => execSendTaskComplete_kept w0 s h
  | .stepBeginToken w0 => execStepBeginToken_kept w0 s h
  | .abortToken w0 => execAbortToken_kept w0 s h
  | .taskStop w0 w1 w2 => execTaskStop_kept w0 w1 w2 s h
  | .fenceToken w0 => execFenceToken_kept w0 s h
  | .tileFaultDetect w0 w1 w2 => execTileFaultDetect_kept w0 w1 w2 s h
  | .taskLimitExpiry w0 w1 => execTaskLimitExpiry_kept w0 w1 s h
  | .nonfiniteSlotToken w0 => execNonfiniteSlotToken_kept w0 s h
  | .programDoneToken w0 => execProgramDoneToken_kept w0 s h
  | .taskFaultToken w0 => execTaskFaultToken_kept w0 s h
  | .fencedToken w0 => execFencedToken_kept w0 s h
  | .gatherAcquire w0 => execGatherAcquire_kept w0 s h
  | .gatherRelease w0 => execGatherRelease_kept w0 s h
  | .gatherFillComplete w0 w1 w2 => execGatherFillComplete_kept w0 w1 w2 s h
  | .queueEntryArrival w0 w1 w2 w3 w4 => execQueueEntryArrival_kept w0 w1 w2 w3 w4 s h
  | .queueCreditReturn w0 w1 => execQueueCreditReturn_kept w0 w1 s h
  | .checkWordReady => execCheckWordReady_kept s h
  | .tCheckInstant => execTCheckInstant_kept s h
  | .checkDecision w0 w1 w2 w3 w4 w5 w6 => execCheckDecision_kept w0 w1 w2 w3 w4 w5 w6 s h
  | .deadlineExpiry => execDeadlineExpiry_kept s h
  | .updateStart => execUpdateStart_kept s h
  | .weightBlockStart w0 w1 w2 => execWeightBlockStart_kept w0 w1 w2 s h
  | .writeGroupComplete w0 w1 w2 => execWriteGroupComplete_kept w0 w1 w2 s h
  | .groupSumsComplete w0 w1 => execGroupSumsComplete_kept w0 w1 s h
  | .updateComplete => execUpdateComplete_kept s h
  | .tCommitInstant => execTCommitInstant_kept s h
  | .commitCollectiveComplete w0 => execCommitCollectiveComplete_kept w0 s h
  | .deltaFormationComplete => execDeltaFormationComplete_kept s h
  | .deltaEncodeComplete => execDeltaEncodeComplete_kept s h
  | .gridAdd w0 w1 w2 w3 w4 => execGridAdd_kept w0 w1 w2 w3 w4 s h
  | .addI64 w0 w1 => execAddI64_kept w0 w1 s h
  | .addF32 w0 w1 => execAddF32_kept w0 w1 s h
  | .maxF32 w0 w1 => execMaxF32_kept w0 w1 s h
  | .minF32 w0 w1 => execMinF32_kept w0 w1 s h
  | .or64 w0 w1 => execOr64_kept w0 w1 s h
  | .swap64 w0 w1 => execSwap64_kept w0 w1 s h
  | .cas64 w0 w1 w2 => execCas64_kept w0 w1 w2 s h
  | .sqAdd w0 w1 => execSqAdd_kept w0 w1 s h
  | .linAdd w0 w1 => execLinAdd_kept w0 w1 s h
  | .partComplete w0 => execPartComplete_kept w0 s h
  | .calibrationInterval w0 w1 w2 => execCalibrationInterval_kept w0 w1 w2 s h
  | .quietSlot w0 w1 w2 => execQuietSlot_kept w0 w1 w2 s h
  | .retrainStart w0 => execRetrainStart_kept w0 s h
  | .retrainComplete w0 w1 w2 => execRetrainComplete_kept w0 w1 w2 s h
  | .lostChannelRebuild w0 => execLostChannelRebuild_kept w0 s h
  | .refreshPeriod w0 => execRefreshPeriod_kept w0 s h
  | .patrolScrub w0 w1 => execPatrolScrub_kept w0 w1 s h
  | .poolAgeRelease w0 => execPoolAgeRelease_kept w0 s h
  | .timeExchangeSend w0 => execTimeExchangeSend_kept w0 s h
  | .timeFrameReceive w0 w1 => execTimeFrameReceive_kept w0 w1 s h
  | .backupRootTakeover => execBackupRootTakeover_kept s h
  | .ptpMessageReceive w0 w1 w2 => execPtpMessageReceive_kept w0 w1 w2 s h
  | .ptpMasterLoss => execPtpMasterLoss_kept s h
  | .lineTimerExpiry w0 => execLineTimerExpiry_kept w0 s h
  | .budgetPeriodBoundary => execBudgetPeriodBoundary_kept s h
  | .writeFrameReceive w0 w1 => execWriteFrameReceive_kept w0 w1 s h
  | .contribFrameReceive w0 w1 => execContribFrameReceive_kept w0 w1 s h
  | .resultFrameReceive w0 w1 => execResultFrameReceive_kept w0 w1 s h
  | .creditFrameReceive w0 w1 => execCreditFrameReceive_kept w0 w1 s h
  | .ackFrameReceive w0 w1 => execAckFrameReceive_kept w0 w1 s h
  | .nackFrameReceive w0 w1 => execNackFrameReceive_kept w0 w1 s h
  | .ctrlExcludeSelf w0 w1 => execCtrlExcludeSelf_kept w0 w1 s h
  | .ctrlSlow w0 w1 => execCtrlSlow_kept w0 w1 s h
  | .ctrlPartLost w0 w1 => execCtrlPartLost_kept w0 w1 s h
  | .ctrlFlowClose w0 w1 => execCtrlFlowClose_kept w0 w1 s h
  | .ctrlBuddyCheck w0 w1 => execCtrlBuddyCheck_kept w0 w1 s h
  | .pauseFrameReceive w0 w1 w2 => execPauseFrameReceive_kept w0 w1 w2 s h
  | .pauseWatchdogExpiry w0 w1 => execPauseWatchdogExpiry_kept w0 w1 s h
  | .laneFail w0 w1 => execLaneFail_kept w0 w1 s h
  | .portTrainingComplete w0 w1 w2 w3 => execPortTrainingComplete_kept w0 w1 w2 w3 s h
  | .linkCreditTimeout w0 => execLinkCreditTimeout_kept w0 s h
  | .retransmitTimeout w0 w1 => execRetransmitTimeout_kept w0 w1 s h
  | .flowIdleTimeout w0 w1 => execFlowIdleTimeout_kept w0 w1 s h
  | .ackTimer w0 w1 => execAckTimer_kept w0 w1 s h
  | .unreachableProbe w0 => execUnreachableProbe_kept w0 s h
  | .collectiveStart w0 => execCollectiveStart_kept w0 s h
  | .waitMaxExpiry w0 w1 => execWaitMaxExpiry_kept w0 w1 s h
  | .smallCollWaitExpiry w0 w1 => execSmallCollWaitExpiry_kept w0 w1 s h
  | .coordinatorTakeover w0 => execCoordinatorTakeover_kept w0 s h
  | .collectiveComplete w0 => execCollectiveComplete_kept w0 s h
  | .windowOpen => execWindowOpen_kept s h
  | .windowClose => execWindowClose_kept s h
  | .publicationSend => execPublicationSend_kept s h
  | .deltaResend => execDeltaResend_kept s h
  | .deltaFragmentReceive w0 w1 w2 => execDeltaFragmentReceive_kept w0 w1 w2 s h
  | .pubFragmentReceive w0 w1 w2 => execPubFragmentReceive_kept w0 w1 w2 s h
  | .baseFragmentReceive w0 w1 w2 => execBaseFragmentReceive_kept w0 w1 w2 s h
  | .codebookFragmentReceive w0 w1 w2 => execCodebookFragmentReceive_kept w0 w1 w2 s h
  | .npxStatusReceive w0 w1 w2 => execNpxStatusReceive_kept w0 w1 w2 s h
  | .npxFetchReceive w0 w1 w2 => execNpxFetchReceive_kept w0 w1 w2 s h
  | .npxRebaseReceive w0 w1 w2 => execNpxRebaseReceive_kept w0 w1 w2 s h
  | .npxCandidateReceive w0 w1 w2 => execNpxCandidateReceive_kept w0 w1 w2 s h
  | .npxVoteReceive w0 w1 w2 => execNpxVoteReceive_kept w0 w1 w2 s h
  | .npxNewhomeReceive w0 w1 w2 => execNpxNewhomeReceive_kept w0 w1 w2 s h
  | .npxAliveReceive w0 w1 w2 => execNpxAliveReceive_kept w0 w1 w2 s h
  | .npxTimeReceive w0 w1 w2 => execNpxTimeReceive_kept w0 w1 w2 s h
  | .objectHoldExpiry => execObjectHoldExpiry_kept s h
  | .candidacyTimeout => execCandidacyTimeout_kept s h
  | .exchBroadcastReceive w0 w1 => execExchBroadcastReceive_kept w0 w1 s h
  | .neighborDiscovery w0 w1 w2 => execNeighborDiscovery_kept w0 w1 w2 s h
  | .codebookRetrain w0 => execCodebookRetrain_kept w0 s h
  | .ckptCopyComplete => execCkptCopyComplete_kept s h
  | .ckptPauseRetry => execCkptPauseRetry_kept s h
  | .ckptAbandon => execCkptAbandon_kept s h
  | .repairComplete w0 w1 w2 w3 w4 => execRepairComplete_kept w0 w1 w2 w3 w4 s h
  | .coreWatchdogTimeout w0 => execCoreWatchdogTimeout_kept w0 s h
  | .coreEccFault w0 => execCoreEccFault_kept w0 s h
  | .stickyLogMirror => execStickyLogMirror_kept s h
  | .cipXtsEncrypt => execCipXtsEncrypt_kept s h
  | .cipXtsDecrypt => execCipXtsDecrypt_kept s h
  | .cipGcmSeal => execCipGcmSeal_kept s h
  | .cipGcmOpen => execCipGcmOpen_kept s h
  | .cipCtxSaveClear => execCipCtxSaveClear_kept s h
  | .cipCtxSaveWrapped => execCipCtxSaveWrapped_kept s h
  | .cipCtxRestore => execCipCtxRestore_kept s h
  | .cipRequestDone w0 => execCipRequestDone_kept w0 s h
  | .perstDeassert => execPerstDeassert_kept s h
  | .mainInputReturn => execMainInputReturn_kept s h
  | .pldmBaseMessage w0 => execPldmBaseMessage_kept w0 s h
  | .pauseTimeExpiry w0 w1 => execPauseTimeExpiry_kept w0 w1 s h

end Sys2Proof.Machine
end

