-- ==== Sys2Proof/Laws/PerInstr.lean ====
section
/-!
SUPPORT. One lemma per command of the table. Family `Opcode`: a well-formed command packet has an opcode of the table,
and it carries a parameter block exactly when its opcode takes one (R443, chapter 15's opcode tables); a command that is
no packet has no opcode.
-/
namespace Sys2Proof.Laws.Opcode
open Sys2Proof.Machine

/-- What the family says of one command. -/
def Statement (i : Instr) : Prop :=
  ∀ h op, cmdOf i = some (h, op) → i.wf = true → opPb op = some (!h.pb.isEmpty)

/-- A packet of an opcode with a parameter block. -/
theorem of_block {i : Instr} {h : CmdHdr} {op : Nat} (hc : cmdOf i = some (h, op)) (hw : i.wf = true → h.wfPb = true)
    (ho : opPb op = some true) : Statement i := by
  intro h' op' e w
  rw [hc] at e; cases e
  have b := hw w
  simp only [CmdHdr.wfPb, Bool.and_eq_true] at b
  rw [ho, b.2]

/-- A packet of an opcode without one. -/
theorem of_inline {i : Instr} {h : CmdHdr} {op : Nat} (hc : cmdOf i = some (h, op)) (hw : i.wf = true → h.wfInline = true)
    (ho : opPb op = some false) : Statement i := by
  intro h' op' e w
  rw [hc] at e; cases e
  have b := hw w
  simp only [CmdHdr.wfInline, Bool.and_eq_true] at b
  rw [ho, b.1.1.2]; rfl

/-- A command that is no packet. -/
theorem of_none {i : Instr} (hc : cmdOf i = none) : Statement i := by
  intro h op e; rw [hc] at e; cases e

/-- A header that names an action in its block has a block. -/
theorem of_action {h : CmdHdr} {a : Byte} (w : h.wfAction a = true) : h.wfPb = true := by
  simp only [CmdHdr.wfAction, Bool.and_eq_true] at w; exact w.1

theorem identify (h : CmdHdr) (buf : Buf) : Statement (.identify h buf) := of_inline rfl id rfl
theorem queueCreate (h : CmdHdr) (qid vector coalN coalUs log2Depth : Byte) (sq cq : W64) :
    Statement (.queueCreate h qid vector coalN coalUs log2Depth sq cq) := of_inline rfl id rfl
theorem queueDelete (h : CmdHdr) (qid : Byte) : Statement (.queueDelete h qid) := of_inline rfl id rfl
theorem jobStatus (h : CmdHdr) (buf : Buf) : Statement (.jobStatus h buf) := of_inline rfl id rfl
theorem eventRingSet (h : CmdHdr) (ring : W64) (log2Depth vector : Byte) :
    Statement (.eventRingSet h ring log2Depth vector) := of_inline rfl id rfl
theorem jobSeedSet (h : CmdHdr) (seed : W64) : Statement (.jobSeedSet h seed) := of_inline rfl id rfl
theorem moduleReset (h : CmdHdr) (confirm : W32) : Statement (.moduleReset h confirm) := of_inline rfl id rfl
theorem moduleBedEnter (h : CmdHdr) : Statement (.moduleBedEnter h) := of_inline rfl id rfl
theorem moduleBedLeave (h : CmdHdr) : Statement (.moduleBedLeave h) := of_inline rfl id rfl
theorem fwUpdate (h : CmdHdr) : Statement (.fwUpdate h) := of_block rfl id rfl
theorem memToHost (h : CmdHdr) (dev host len : W64) : Statement (.memToHost h dev host len) := of_inline rfl id rfl
theorem memFromHost (h : CmdHdr) (host dev len : W64) : Statement (.memFromHost h host dev len) := of_inline rfl id rfl
theorem memCopy (h : CmdHdr) (src dst len : W64) : Statement (.memCopy h src dst len) := of_inline rfl id rfl
theorem memFill (h : CmdHdr) (dst len pattern : W64) : Statement (.memFill h dst len pattern) := of_inline rfl id rfl
theorem treimMapApplyJobStart (h : CmdHdr) : Statement (.treimMapApplyJobStart h) := of_inline rfl id rfl
theorem treimMapApplyRestore (h : CmdHdr) : Statement (.treimMapApplyRestore h) := of_inline rfl id rfl
theorem treimMapApplyResume (h : CmdHdr) : Statement (.treimMapApplyResume h) := of_inline rfl id rfl
theorem treimRetrain (h : CmdHdr) (channel : W16) : Statement (.treimRetrain h channel) := of_inline rfl id rfl
theorem plinthApply (h : CmdHdr) (pierMask : Byte) : Statement (.plinthApply h pierMask) := of_inline rfl id rfl
theorem plinthAlloc (h : CmdHdr) (pier domain pages shared : Byte) :
    Statement (.plinthAlloc h pier domain pages shared) := of_inline rfl id rfl
theorem plinthFree (h : CmdHdr) (pier region first pages : Byte) :
    Statement (.plinthFree h pier region first pages) := of_inline rfl id rfl
theorem plinthQuota (h : CmdHdr) (pierMask domain : Byte) (quota : W16) :
    Statement (.plinthQuota h pierMask domain quota) := of_inline rfl id rfl
theorem corbelLoad (h : CmdHdr) : Statement (.corbelLoad h) := of_block rfl id rfl
theorem corbelGroupSet (h : CmdHdr) : Statement (.corbelGroupSet h) := of_block rfl id rfl
theorem corbelResume (h : CmdHdr) : Statement (.corbelResume h) := of_inline rfl id rfl
theorem corbelUnfreeze (h : CmdHdr) : Statement (.corbelUnfreeze h) := of_block rfl id rfl
theorem programLoad (h : CmdHdr) : Statement (.programLoad h) := of_block rfl id rfl
theorem tileFence (h : CmdHdr) (mask : BitVec 96) : Statement (.tileFence h mask) := of_inline rfl id rfl
theorem tileUnfence (h : CmdHdr) (mask : BitVec 96) : Statement (.tileUnfence h mask) := of_inline rfl id rfl
theorem tileQuery (h : CmdHdr) (mask : BitVec 96) (buf : Buf) :
    Statement (.tileQuery h mask buf) := of_inline rfl id rfl
theorem stepBegin (h : CmdHdr) (step : W64) (salt : W32) (gen : Byte) (tCheck tCommit deadline : W64) :
    Statement (.stepBegin h step salt gen tCheck tCommit deadline) := of_inline rfl id rfl
theorem stepAbort (h : CmdHdr) (step : W64) : Statement (.stepAbort h step) := of_inline rfl id rfl
theorem stepQuery (h : CmdHdr) (buf : Buf) : Statement (.stepQuery h buf) := of_inline rfl id rfl
theorem tensorScale (h : CmdHdr) (tid : W16) (margin hostScale : W32) (depth flags : Byte) :
    Statement (.tensorScale h tid margin hostScale depth flags) := of_inline rfl id rfl
theorem stepResume (h : CmdHdr) (step : W64) : Statement (.stepResume h step) := of_inline rfl id rfl
theorem jobGroups (h : CmdHdr) : Statement (.jobGroups h) := of_block rfl id rfl
theorem queueLoad (h : CmdHdr) : Statement (.queueLoad h) := of_block rfl id rfl
theorem expertTableLoad (h : CmdHdr) : Statement (.expertTableLoad h) := of_block rfl id rfl
theorem fabricConfig (h : CmdHdr) : Statement (.fabricConfig h) := of_block rfl id rfl
theorem fabricRouteLoad (h : CmdHdr) : Statement (.fabricRouteLoad h) := of_block rfl id rfl
theorem collSetup (h : CmdHdr) : Statement (.collSetup h) := of_block rfl id rfl
theorem collFree (h : CmdHdr) (handle : W16) : Statement (.collFree h handle) := of_inline rfl id rfl
theorem collRun (h : CmdHdr) (handle : W16) : Statement (.collRun h handle) := of_inline rfl id rfl
theorem fabricQuery (h : CmdHdr) (buf : Buf) : Statement (.fabricQuery h buf) := of_inline rfl id rfl
theorem collQuery (h : CmdHdr) (handle : W16) (buf : Buf) : Statement (.collQuery h handle buf) := of_inline rfl id rfl
theorem exchConfig (h : CmdHdr) : Statement (.exchConfig h) := of_block rfl id rfl
theorem exchPartners (h : CmdHdr) : Statement (.exchPartners h) := of_block rfl id rfl
theorem exchWeights (h : CmdHdr) : Statement (.exchWeights h) := of_block rfl id rfl
theorem exchJoin (h : CmdHdr) : Statement (.exchJoin h) := of_inline rfl id rfl
theorem exchQuery (h : CmdHdr) (buf : Buf) : Statement (.exchQuery h buf) := of_inline rfl id rfl
theorem exchFetch (h : CmdHdr) : Statement (.exchFetch h) := of_inline rfl id rfl
theorem ckptConfig (h : CmdHdr) : Statement (.ckptConfig h) := of_block rfl id rfl
theorem ckptQuery (h : CmdHdr) (buf : Buf) : Statement (.ckptQuery h buf) := of_inline rfl id rfl
theorem ckptRestore (h : CmdHdr) (outer : W32) : Statement (.ckptRestore h outer) := of_inline rfl id rfl
theorem replicaRepairNameSource (h : CmdHdr) : Statement (.replicaRepairNameSource h) := of_block rfl of_action rfl
theorem replicaRepairCatchUp (h : CmdHdr) : Statement (.replicaRepairCatchUp h) := of_block rfl of_action rfl
theorem timeEpoch (h : CmdHdr) (epoch ppsSecond : W64) :
    Statement (.timeEpoch h epoch ppsSecond) := of_inline rfl id rfl
theorem timeQuery (h : CmdHdr) (buf : Buf) : Statement (.timeQuery h buf) := of_inline rfl id rfl
theorem budgetSet (h : CmdHdr) : Statement (.budgetSet h) := of_block rfl id rfl
theorem timeTimer (h : CmdHdr) (timer : Byte) (ctl : W32) (expiry : W64) :
    Statement (.timeTimer h timer ctl expiry) := of_inline rfl id rfl
theorem timePathSet (h : CmdHdr) : Statement (.timePathSet h) := of_block rfl id rfl
theorem secIdentity (h : CmdHdr) (buf : Buf) : Statement (.secIdentity h buf) := of_inline rfl id rfl
theorem secAttest (h : CmdHdr) (buf : Buf) (nonce : BitVec 256) :
    Statement (.secAttest h buf nonce) := of_inline rfl id rfl
theorem secKeyLoad (h : CmdHdr) : Statement (.secKeyLoad h) := of_block rfl id rfl
theorem secKeyClear (h : CmdHdr) (slot : Byte) : Statement (.secKeyClear h slot) := of_inline rfl id rfl
theorem secOwnerEnrol (h : CmdHdr) : Statement (.secOwnerEnrol h) := of_block rfl id rfl
theorem secRollbackSet (h : CmdHdr) : Statement (.secRollbackSet h) := of_block rfl id rfl
theorem countersRead (h : CmdHdr) (block : Byte) (inst : W16) (buf : Buf) :
    Statement (.countersRead h block inst buf) := of_inline rfl id rfl
theorem slogRead (h : CmdHdr) (clear : Byte) (buf : Buf) : Statement (.slogRead h clear buf) := of_inline rfl id rfl
theorem tensorRead (h : CmdHdr) (first n : W16) (buf : Buf) :
    Statement (.tensorRead h first n buf) := of_inline rfl id rfl
theorem queueStats (h : CmdHdr) (first n : W16) (buf : Buf) :
    Statement (.queueStats h first n buf) := of_inline rfl id rfl
theorem sensorsRead (h : CmdHdr) (buf : Buf) : Statement (.sensorsRead h buf) := of_inline rfl id rfl
theorem diagRun (h : CmdHdr) (test : W16) (param : W64) : Statement (.diagRun h test param) := of_inline rfl id rfl
theorem commandFetch (queue : BitVec 6) (packet : W512) (pb hostData : List Byte) :
    Statement (.commandFetch queue packet pb hostData) := of_none rfl
theorem commandNotBeforeDue (queue : BitVec 6) : Statement (.commandNotBeforeDue queue) := of_none rfl
theorem sqTailDoorbell (queue : BitVec 6) (value : W32) : Statement (.sqTailDoorbell queue value) := of_none rfl
theorem cqHeadDoorbell (queue : BitVec 6) (value : W32) : Statement (.cqHeadDoorbell queue value) := of_none rfl
theorem evHeadDoorbell (value : W32) : Statement (.evHeadDoorbell value) := of_none rfl
theorem hifAqCfgWrite (value : W32) : Statement (.hifAqCfgWrite value) := of_none rfl
theorem msixCoalesceTimeout (queue : BitVec 6) : Statement (.msixCoalesceTimeout queue) := of_none rfl
theorem hostIfReset : Statement .hostIfReset := of_none rfl
theorem flr : Statement .flr := of_none rfl
theorem surpriseRemoval : Statement .surpriseRemoval := of_none rfl
theorem hostLinkUp (speed : BitVec 2) (width : BitVec 5) (flit : Bool) :
    Statement (.hostLinkUp speed width flit) := of_none rfl
theorem apertureAccess (offset : BitVec 30) (write : Bool) (len : BitVec 7) (data : List Byte) :
    Statement (.apertureAccess offset write len data) := of_none rfl
theorem regWindowBadAccess (offset : BitVec 26) (write : Bool) (len : Byte) :
    Statement (.regWindowBadAccess offset write len) := of_none rfl
theorem pciPmD3hot : Statement .pciPmD3hot := of_none rfl
theorem pciPmD0 : Statement .pciPmD0 := of_none rfl
theorem d3hotBedStart : Statement .d3hotBedStart := of_none rfl
theorem regWrite (req : Requester) (addr : BitVec 26) (value : W32) :
    Statement (.regWrite req addr value) := of_none rfl
theorem regAliasSet (req : Requester) (addr : BitVec 26) (value : W32) :
    Statement (.regAliasSet req addr value) := of_none rfl
theorem regAliasClear (req : Requester) (addr : BitVec 26) (value : W32) :
    Statement (.regAliasClear req addr value) := of_none rfl
theorem regAliasToggle (req : Requester) (addr : BitVec 26) (value : W32) :
    Statement (.regAliasToggle req addr value) := of_none rfl
theorem counterLowRead (req : Requester) (addr : BitVec 26) : Statement (.counterLowRead req addr) := of_none rfl
theorem counterLowPeek (req : Requester) (addr : BitVec 26) : Statement (.counterLowPeek req addr) := of_none rfl
theorem latchedLowRead (req : Requester) (addr : BitVec 26) : Statement (.latchedLowRead req addr) := of_none rfl
theorem rcEventRead (req : Requester) (addr : BitVec 26) : Statement (.rcEventRead req addr) := of_none rfl
theorem topSnapGo (req : Requester) (value : W32) : Statement (.topSnapGo req value) := of_none rfl
theorem snapshotComplete : Statement .snapshotComplete := of_none rfl
theorem cfgRefWrite (req : Requester) (hi : Bool) (value : W32) : Statement (.cfgRefWrite req hi value) := of_none rfl
theorem cfgCommitCompare (req : Requester) : Statement (.cfgCommitCompare req) := of_none rfl
theorem cfgCommitAdopt (req : Requester) : Statement (.cfgCommitAdopt req) := of_none rfl
theorem cfgCrcPassStart : Statement .cfgCrcPassStart := of_none rfl
theorem cfgCrcPassEnd : Statement .cfgCrcPassEnd := of_none rfl
theorem secExtGo (req : Requester) (value : W32) : Statement (.secExtGo req value) := of_none rfl
theorem cipCfgWrite (req : Requester) (value : W32) : Statement (.cipCfgWrite req value) := of_none rfl
theorem cipRqTailWrite (req : Requester) (value : W32) : Statement (.cipRqTailWrite req value) := of_none rfl
theorem hifJobctlWrite (req : Requester) (value : W32) : Statement (.hifJobctlWrite req value) := of_none rfl
theorem hifLockWrite (req : Requester) (value : W32) : Statement (.hifLockWrite req value) := of_none rfl
theorem fabLockWrite (req : Requester) (value : W32) : Statement (.fabLockWrite req value) := of_none rfl
theorem pwrLockWrite (req : Requester) (value : W32) : Statement (.pwrLockWrite req value) := of_none rfl
theorem pwrLimitWrite (req : Requester) (value : W32) : Statement (.pwrLimitWrite req value) := of_none rfl
theorem auxPowerOn (straps : BitVec 9) : Statement (.auxPowerOn straps) := of_none rfl
theorem coldRstLAssert : Statement .coldRstLAssert := of_none rfl
theorem mrstLAssert : Statement .mrstLAssert := of_none rfl
theorem perstAssert : Statement .perstAssert := of_none rfl
theorem pwrEnLAssert : Statement .pwrEnLAssert := of_none rfl
theorem pwrEnLDeassert : Statement .pwrEnLDeassert := of_none rfl
theorem prsntLAssert : Statement .prsntLAssert := of_none rfl
theorem prsntLDeassert : Statement .prsntLDeassert := of_none rfl
theorem mainInputLow : Statement .mainInputLow := of_none rfl
theorem auxSupplyLow : Statement .auxSupplyLow := of_none rfl
theorem mainPowerRamp : Statement .mainPowerRamp := of_none rfl
theorem railsGood : Statement .railsGood := of_none rfl
theorem islandBootComplete (puf : Bool) (bits : W16) : Statement (.islandBootComplete puf bits) := of_none rfl
theorem treimTrainingComplete (report : TrainingReport) : Statement (.treimTrainingComplete report) := of_none rfl
theorem selfRefreshEntry (stack : BitVec 3) : Statement (.selfRefreshEntry stack) := of_none rfl
theorem locateLChange (asserted : Bool) : Statement (.locateLChange asserted) := of_none rfl
theorem powerSample (watts : W16) (volt : Byte) : Statement (.powerSample watts volt) := of_none rfl
theorem dieTempSample (die : BitVec 5) (temp : W16) : Statement (.dieTempSample die temp) := of_none rfl
theorem stackTempReport (stack : BitVec 3) (die : BitVec 4) (temp : W16) :
    Statement (.stackTempReport stack die temp) := of_none rfl
theorem stackStopComplete (stack : BitVec 3) : Statement (.stackStopComplete stack) := of_none rfl
theorem smbusTransaction (bytes : List Byte) : Statement (.smbusTransaction bytes) := of_none rfl
theorem mctpControlMessage (msg : List Byte) : Statement (.mctpControlMessage msg) := of_none rfl
theorem pldmMonitoringMessage (msg : List Byte) : Statement (.pldmMonitoringMessage msg) := of_none rfl
theorem pldmFruMessage (msg : List Byte) : Statement (.pldmFruMessage msg) := of_none rfl
theorem pldmFwUpdateMessage (msg image : List Byte) : Statement (.pldmFwUpdateMessage msg image) := of_none rfl
theorem mctpVendorCommand (vendor : W16) (packet : W512) : Statement (.mctpVendorCommand vendor packet) := of_none rfl
theorem smbusAlertResponse : Statement .smbusAlertResponse := of_none rfl
theorem ppsInEdge : Statement .ppsInEdge := of_none rfl
theorem ppsEdgeMissing : Statement .ppsEdgeMissing := of_none rfl
theorem ppsOutPulse : Statement .ppsOutPulse := of_none rfl
theorem ref10mChange (present : Bool) : Statement (.ref10mChange present) := of_none rfl
theorem tokenArrival (token : W64) : Statement (.tokenArrival token) := of_none rfl
theorem creditArrival (src : Byte) (credit : W32) : Statement (.creditArrival src credit) := of_none rfl
theorem taskStart (visit : TileVisit) : Statement (.taskStart visit) := of_none rfl
theorem matrixTaskComplete (tile : BitVec 7) : Statement (.matrixTaskComplete tile) := of_none rfl
theorem vectorPassComplete (tile : BitVec 7) : Statement (.vectorPassComplete tile) := of_none rfl
theorem moveTaskComplete (tile : BitVec 7) : Statement (.moveTaskComplete tile) := of_none rfl
theorem sendTaskComplete (tile : BitVec 7) : Statement (.sendTaskComplete tile) := of_none rfl
theorem stepBeginToken (token : W64) : Statement (.stepBeginToken token) := of_none rfl
theorem abortToken (token : W64) : Statement (.abortToken token) := of_none rfl
theorem taskStop (tile : BitVec 7) (engine : Engine) (done : W32) :
    Statement (.taskStop tile engine done) := of_none rfl
theorem fenceToken (token : W64) : Statement (.fenceToken token) := of_none rfl
theorem tileFaultDetect (tile : BitVec 7) (cause : TileCause) (task : BitVec 13) :
    Statement (.tileFaultDetect tile cause task) := of_none rfl
theorem taskLimitExpiry (tile : BitVec 7) (engine : Engine) : Statement (.taskLimitExpiry tile engine) := of_none rfl
theorem nonfiniteSlotToken (token : W64) : Statement (.nonfiniteSlotToken token) := of_none rfl
theorem programDoneToken (token : W64) : Statement (.programDoneToken token) := of_none rfl
theorem taskFaultToken (token : W64) : Statement (.taskFaultToken token) := of_none rfl
theorem fencedToken (token : W64) : Statement (.fencedToken token) := of_none rfl
theorem gatherAcquire (token : W64) : Statement (.gatherAcquire token) := of_none rfl
theorem gatherRelease (token : W64) : Statement (.gatherRelease token) := of_none rfl
theorem gatherFillComplete (pier : BitVec 2) (slot : BitVec 6) (data : List Byte) :
    Statement (.gatherFillComplete pier slot data) := of_none rfl
theorem queueEntryArrival (handle : W16) (offset len : W32) (gen : Bool) (data : List Byte) :
    Statement (.queueEntryArrival handle offset len gen data) := of_none rfl
theorem queueCreditReturn (src : Byte) (credit : W32) : Statement (.queueCreditReturn src credit) := of_none rfl
theorem checkWordReady : Statement .checkWordReady := of_none rfl
theorem tCheckInstant : Statement .tCheckInstant := of_none rfl
theorem checkDecision (s f hard a : Bool) (lane : CheckLane) (normNf : Bool) (norm : BitVec 640) :
    Statement (.checkDecision s f hard a lane normNf norm) := of_none rfl
theorem deadlineExpiry : Statement .deadlineExpiry := of_none rfl
theorem updateStart : Statement .updateStart := of_none rfl
theorem weightBlockStart (stack : BitVec 3) (shard : BitVec 11) (block : W32) :
    Statement (.weightBlockStart stack shard block) := of_none rfl
theorem writeGroupComplete (stack : BitVec 3) (shard : BitVec 11) (block : W32) :
    Statement (.writeGroupComplete stack shard block) := of_none rfl
theorem groupSumsComplete (group : BitVec 10) (sums : GroupSums) :
    Statement (.groupSumsComplete group sums) := of_none rfl
theorem updateComplete : Statement .updateComplete := of_none rfl
theorem tCommitInstant : Statement .tCommitInstant := of_none rfl
theorem commitCollectiveComplete (items : CommitItems) : Statement (.commitCollectiveComplete items) := of_none rfl
theorem deltaFormationComplete : Statement .deltaFormationComplete := of_none rfl
theorem deltaEncodeComplete : Statement .deltaEncodeComplete := of_none rfl
theorem gridAdd (stack : BitVec 3) (shard : BitVec 11) (block : W32) (gen : Bool) (contrib : Contribution) :
    Statement (.gridAdd stack shard block gen contrib) := of_none rfl
theorem addI64 (addr : BitVec 48) (operand : W64) : Statement (.addI64 addr operand) := of_none rfl
theorem addF32 (addr : BitVec 48) (operand : W32) : Statement (.addF32 addr operand) := of_none rfl
theorem maxF32 (addr : BitVec 48) (operand : W32) : Statement (.maxF32 addr operand) := of_none rfl
theorem minF32 (addr : BitVec 48) (operand : W32) : Statement (.minF32 addr operand) := of_none rfl
theorem or64 (addr : BitVec 48) (operand : W64) : Statement (.or64 addr operand) := of_none rfl
theorem swap64 (addr : BitVec 48) (operand : W64) : Statement (.swap64 addr operand) := of_none rfl
theorem cas64 (addr : BitVec 48) (compare swap : W64) : Statement (.cas64 addr compare swap) := of_none rfl
theorem sqAdd (addr : BitVec 48) (operand : W32) : Statement (.sqAdd addr operand) := of_none rfl
theorem linAdd (addr : BitVec 48) (operand : W32) : Statement (.linAdd addr operand) := of_none rfl
theorem partComplete (handle : W16) : Statement (.partComplete handle) := of_none rfl
theorem calibrationInterval (channel : BitVec 10) (eyeW eyeH : Byte) :
    Statement (.calibrationInterval channel eyeW eyeH) := of_none rfl
theorem quietSlot (channel : BitVec 10) (eyeW eyeH : Byte) : Statement (.quietSlot channel eyeW eyeH) := of_none rfl
theorem retrainStart (channel : BitVec 10) : Statement (.retrainStart channel) := of_none rfl
theorem retrainComplete (channel : BitVec 10) (lanes : List LaneEye) (tsvFailed : List (BitVec 5)) :
    Statement (.retrainComplete channel lanes tsvFailed) := of_none rfl
theorem lostChannelRebuild (channel : BitVec 10) : Statement (.lostChannelRebuild channel) := of_none rfl
theorem refreshPeriod (visit : ChannelVisit) : Statement (.refreshPeriod visit) := of_none rfl
theorem patrolScrub (stack : BitVec 3) (error : List Byte) : Statement (.patrolScrub stack error) := of_none rfl
theorem poolAgeRelease (visit : PierVisit) : Statement (.poolAgeRelease visit) := of_none rfl
theorem timeExchangeSend (path : BitVec 5) : Statement (.timeExchangeSend path) := of_none rfl
theorem timeFrameReceive (port : BitVec 4) (frame : List Byte) : Statement (.timeFrameReceive port frame) := of_none rfl
theorem backupRootTakeover : Statement .backupRootTakeover := of_none rfl
theorem ptpMessageReceive (port : BitVec 4) (domain : Byte) (ptp : BitVec 96) :
    Statement (.ptpMessageReceive port domain ptp) := of_none rfl
theorem ptpMasterLoss : Statement .ptpMasterLoss := of_none rfl
theorem lineTimerExpiry (timer : BitVec 3) : Statement (.lineTimerExpiry timer) := of_none rfl
theorem budgetPeriodBoundary : Statement .budgetPeriodBoundary := of_none rfl
theorem writeFrameReceive (port : BitVec 4) (frame : List Byte) :
    Statement (.writeFrameReceive port frame) := of_none rfl
theorem contribFrameReceive (port : BitVec 4) (frame : ContribFrame) :
    Statement (.contribFrameReceive port frame) := of_none rfl
theorem resultFrameReceive (port : BitVec 4) (frame : List Byte) :
    Statement (.resultFrameReceive port frame) := of_none rfl
theorem creditFrameReceive (port : BitVec 4) (frame : List Byte) :
    Statement (.creditFrameReceive port frame) := of_none rfl
theorem ackFrameReceive (port : BitVec 4) (frame : List Byte) : Statement (.ackFrameReceive port frame) := of_none rfl
theorem nackFrameReceive (port : BitVec 4) (frame : List Byte) : Statement (.nackFrameReceive port frame) := of_none rfl
theorem ctrlExcludeSelf (port : BitVec 4) (frame : List Byte) : Statement (.ctrlExcludeSelf port frame) := of_none rfl
theorem ctrlSlow (port : BitVec 4) (frame : List Byte) : Statement (.ctrlSlow port frame) := of_none rfl
theorem ctrlPartLost (port : BitVec 4) (frame : List Byte) : Statement (.ctrlPartLost port frame) := of_none rfl
theorem ctrlFlowClose (port : BitVec 4) (frame : List Byte) : Statement (.ctrlFlowClose port frame) := of_none rfl
theorem ctrlBuddyCheck (port : BitVec 4) (frame : List Byte) : Statement (.ctrlBuddyCheck port frame) := of_none rfl
theorem pauseFrameReceive (port : BitVec 4) (enable : Byte) (times : List W16) :
    Statement (.pauseFrameReceive port enable times) := of_none rfl
theorem pauseWatchdogExpiry (port : BitVec 4) (prio : BitVec 3) :
    Statement (.pauseWatchdogExpiry port prio) := of_none rfl
theorem laneFail (port : BitVec 4) (lane : BitVec 2) : Statement (.laneFail port lane) := of_none rfl
theorem portTrainingComplete (port : BitVec 4) (lanes : BitVec 4) (credits : Bool) (peer : W16) :
    Statement (.portTrainingComplete port lanes credits peer) := of_none rfl
theorem linkCreditTimeout (port : BitVec 4) : Statement (.linkCreditTimeout port) := of_none rfl
theorem retransmitTimeout (dst : W16) (prio : BitVec 3) : Statement (.retransmitTimeout dst prio) := of_none rfl
theorem flowIdleTimeout (dst : W16) (prio : BitVec 3) : Statement (.flowIdleTimeout dst prio) := of_none rfl
theorem ackTimer (src : W16) (prio : BitVec 3) : Statement (.ackTimer src prio) := of_none rfl
theorem unreachableProbe (dst : W16) : Statement (.unreachableProbe dst) := of_none rfl
theorem collectiveStart (start : RunStart) : Statement (.collectiveStart start) := of_none rfl
theorem waitMaxExpiry (handle : W16) (member : W16) : Statement (.waitMaxExpiry handle member) := of_none rfl
theorem smallCollWaitExpiry (handle : BitVec 2) (missing : List W16) :
    Statement (.smallCollWaitExpiry handle missing) := of_none rfl
theorem coordinatorTakeover (handle : BitVec 2) : Statement (.coordinatorTakeover handle) := of_none rfl
theorem collectiveComplete (handle : W16) : Statement (.collectiveComplete handle) := of_none rfl
theorem windowOpen : Statement .windowOpen := of_none rfl
theorem windowClose : Statement .windowClose := of_none rfl
theorem publicationSend : Statement .publicationSend := of_none rfl
theorem deltaResend : Statement .deltaResend := of_none rfl
theorem deltaFragmentReceive (port : BitVec 4) (src : BitVec 128) (udp : List Byte) :
    Statement (.deltaFragmentReceive port src udp) := of_none rfl
theorem pubFragmentReceive (port : BitVec 4) (src : BitVec 128) (udp : List Byte) :
    Statement (.pubFragmentReceive port src udp) := of_none rfl
theorem baseFragmentReceive (port : BitVec 4) (src : BitVec 128) (udp : List Byte) :
    Statement (.baseFragmentReceive port src udp) := of_none rfl
theorem codebookFragmentReceive (port : BitVec 4) (src : BitVec 128) (udp : List Byte) :
    Statement (.codebookFragmentReceive port src udp) := of_none rfl
theorem npxStatusReceive (port : BitVec 4) (src : BitVec 128) (udp : List Byte) :
    Statement (.npxStatusReceive port src udp) := of_none rfl
theorem npxFetchReceive (port : BitVec 4) (src : BitVec 128) (udp : List Byte) :
    Statement (.npxFetchReceive port src udp) := of_none rfl
theorem npxRebaseReceive (port : BitVec 4) (src : BitVec 128) (udp : List Byte) :
    Statement (.npxRebaseReceive port src udp) := of_none rfl
theorem npxCandidateReceive (port : BitVec 4) (src : BitVec 128) (udp : List Byte) :
    Statement (.npxCandidateReceive port src udp) := of_none rfl
theorem npxVoteReceive (port : BitVec 4) (src : BitVec 128) (udp : List Byte) :
    Statement (.npxVoteReceive port src udp) := of_none rfl
theorem npxNewhomeReceive (port : BitVec 4) (src : BitVec 128) (udp : List Byte) :
    Statement (.npxNewhomeReceive port src udp) := of_none rfl
theorem npxAliveReceive (port : BitVec 4) (src : BitVec 128) (udp : List Byte) :
    Statement (.npxAliveReceive port src udp) := of_none rfl
theorem npxTimeReceive (port : BitVec 4) (src : BitVec 128) (udp : List Byte) :
    Statement (.npxTimeReceive port src udp) := of_none rfl
theorem objectHoldExpiry : Statement .objectHoldExpiry := of_none rfl
theorem candidacyTimeout : Statement .candidacyTimeout := of_none rfl
theorem exchBroadcastReceive (kind : BitVec 4) (data : List Byte) :
    Statement (.exchBroadcastReceive kind data) := of_none rfl
theorem neighborDiscovery (port : BitVec 4) (src : BitVec 128) (icmp : List Byte) :
    Statement (.neighborDiscovery port src icmp) := of_none rfl
theorem codebookRetrain (family : BitVec 4) : Statement (.codebookRetrain family) := of_none rfl
theorem ckptCopyComplete : Statement .ckptCopyComplete := of_none rfl
theorem ckptPauseRetry : Statement .ckptPauseRetry := of_none rfl
theorem ckptAbandon : Statement .ckptAbandon := of_none rfl
theorem repairComplete (stack : BitVec 3) (shard : BitVec 11) (block : W16) (tables : List MemberTable) (data : RepairData) :
    Statement (.repairComplete stack shard block tables data) := of_none rfl
theorem coreWatchdogTimeout (core : BitVec 3) : Statement (.coreWatchdogTimeout core) := of_none rfl
theorem coreEccFault (core : BitVec 3) : Statement (.coreEccFault core) := of_none rfl
theorem stickyLogMirror : Statement .stickyLogMirror := of_none rfl
theorem cipXtsEncrypt : Statement .cipXtsEncrypt := of_none rfl
theorem cipXtsDecrypt : Statement .cipXtsDecrypt := of_none rfl
theorem cipGcmSeal : Statement .cipGcmSeal := of_none rfl
theorem cipGcmOpen : Statement .cipGcmOpen := of_none rfl
theorem cipCtxSaveClear : Statement .cipCtxSaveClear := of_none rfl
theorem cipCtxSaveWrapped : Statement .cipCtxSaveWrapped := of_none rfl
theorem cipCtxRestore : Statement .cipCtxRestore := of_none rfl
theorem cipRequestDone (index : BitVec 12) : Statement (.cipRequestDone index) := of_none rfl
theorem perstDeassert : Statement .perstDeassert := of_none rfl
theorem mainInputReturn : Statement .mainInputReturn := of_none rfl
theorem pldmBaseMessage (msg : List Byte) : Statement (.pldmBaseMessage msg) := of_none rfl
theorem pauseTimeExpiry (port : BitVec 4) (prio : BitVec 3) : Statement (.pauseTimeExpiry port prio) := of_none rfl

end Sys2Proof.Laws.Opcode
end

