-- ==== Sys2Proof/Laws/State.lean ====
section
/-!
SUPPORT. What each update of the state leaves alone, field by field, and what it reads as afterwards: no later proof
unfolds a record update.
-/
namespace Sys2Proof.Machine

/-! ## `setReg` -/

@[simp] theorem setReg_pending (s : State) (a v : Nat) : (setReg s a v).pending = s.pending := rfl
@[simp] theorem setReg_mem (s : State) (a v : Nat) : (setReg s a v).mem = s.mem := rfl
@[simp] theorem setReg_poison (s : State) (a v : Nat) : (setReg s a v).poison = s.poison := rfl
@[simp] theorem setReg_upset (s : State) (a v : Nat) : (setReg s a v).upset = s.upset := rfl
@[simp] theorem setReg_openBlk (s : State) (a v : Nat) : (setReg s a v).openBlk = s.openBlk := rfl
@[simp] theorem setReg_ctr (s : State) (a v : Nat) : (setReg s a v).ctr = s.ctr := rfl
@[simp] theorem setReg_latch (s : State) (a v : Nat) : (setReg s a v).latch = s.latch := rfl
@[simp] theorem setReg_glatch (s : State) (a v : Nat) : (setReg s a v).glatch = s.glatch := rfl
@[simp] theorem setReg_course (s : State) (a v : Nat) : (setReg s a v).course = s.course := rfl
@[simp] theorem setReg_out (s : State) (a v : Nat) : (setReg s a v).out = s.out := rfl
@[simp] theorem setReg_free (s : State) (a v : Nat) : (setReg s a v).free = s.free := rfl
@[simp] theorem setReg_slog (s : State) (a v : Nat) : (setReg s a v).slog = s.slog := rfl
@[simp] theorem setReg_host (s : State) (a v : Nat) : (setReg s a v).host = s.host := rfl
@[simp] theorem setReg_cfg (s : State) (a v : Nat) : (setReg s a v).cfg = s.cfg := rfl
@[simp] theorem setReg_tiles (s : State) (a v : Nat) : (setReg s a v).tiles = s.tiles := rfl
@[simp] theorem setReg_tensors (s : State) (a v : Nat) : (setReg s a v).tensors = s.tensors := rfl
@[simp] theorem setReg_chans (s : State) (a v : Nat) : (setReg s a v).chans = s.chans := rfl
@[simp] theorem setReg_stackTab (s : State) (a v : Nat) : (setReg s a v).stackTab = s.stackTab := rfl
@[simp] theorem setReg_piers (s : State) (a v : Nat) : (setReg s a v).piers = s.piers := rfl
@[simp] theorem setReg_rmap (s : State) (a v : Nat) : (setReg s a v).rmap = s.rmap := rfl
@[simp] theorem setReg_bud (s : State) (a v : Nat) : (setReg s a v).bud = s.bud := rfl
@[simp] theorem setReg_cbl (s : State) (a v : Nat) : (setReg s a v).cbl = s.cbl := rfl
@[simp] theorem setReg_stp (s : State) (a v : Nat) : (setReg s a v).stp = s.stp := rfl
@[simp] theorem setReg_tm (s : State) (a v : Nat) : (setReg s a v).tm = s.tm := rfl
@[simp] theorem setReg_fab (s : State) (a v : Nat) : (setReg s a v).fab = s.fab := rfl
@[simp] theorem setReg_npx (s : State) (a v : Nat) : (setReg s a v).npx = s.npx := rfl
@[simp] theorem setReg_ck (s : State) (a v : Nat) : (setReg s a v).ck = s.ck := rfl
@[simp] theorem setReg_sec (s : State) (a v : Nat) : (setReg s a v).sec = s.sec := rfl
@[simp] theorem setReg_pwr (s : State) (a v : Nat) : (setReg s a v).pwr = s.pwr := rfl

/-! ## `setRegField` -/

@[simp] theorem setRegField_pending (s : State) (a hi lo v : Nat) : (setRegField s a hi lo v).pending = s.pending := rfl
@[simp] theorem setRegField_mem (s : State) (a hi lo v : Nat) : (setRegField s a hi lo v).mem = s.mem := rfl
@[simp] theorem setRegField_poison (s : State) (a hi lo v : Nat) : (setRegField s a hi lo v).poison = s.poison := rfl
@[simp] theorem setRegField_upset (s : State) (a hi lo v : Nat) : (setRegField s a hi lo v).upset = s.upset := rfl
@[simp] theorem setRegField_openBlk (s : State) (a hi lo v : Nat) : (setRegField s a hi lo v).openBlk = s.openBlk := rfl
@[simp] theorem setRegField_ctr (s : State) (a hi lo v : Nat) : (setRegField s a hi lo v).ctr = s.ctr := rfl
@[simp] theorem setRegField_latch (s : State) (a hi lo v : Nat) : (setRegField s a hi lo v).latch = s.latch := rfl
@[simp] theorem setRegField_glatch (s : State) (a hi lo v : Nat) : (setRegField s a hi lo v).glatch = s.glatch := rfl
@[simp] theorem setRegField_course (s : State) (a hi lo v : Nat) : (setRegField s a hi lo v).course = s.course := rfl
@[simp] theorem setRegField_out (s : State) (a hi lo v : Nat) : (setRegField s a hi lo v).out = s.out := rfl
@[simp] theorem setRegField_free (s : State) (a hi lo v : Nat) : (setRegField s a hi lo v).free = s.free := rfl
@[simp] theorem setRegField_slog (s : State) (a hi lo v : Nat) : (setRegField s a hi lo v).slog = s.slog := rfl
@[simp] theorem setRegField_host (s : State) (a hi lo v : Nat) : (setRegField s a hi lo v).host = s.host := rfl
@[simp] theorem setRegField_cfg (s : State) (a hi lo v : Nat) : (setRegField s a hi lo v).cfg = s.cfg := rfl
@[simp] theorem setRegField_tiles (s : State) (a hi lo v : Nat) : (setRegField s a hi lo v).tiles = s.tiles := rfl
@[simp] theorem setRegField_tensors (s : State) (a hi lo v : Nat) : (setRegField s a hi lo v).tensors = s.tensors := rfl
@[simp] theorem setRegField_chans (s : State) (a hi lo v : Nat) : (setRegField s a hi lo v).chans = s.chans := rfl
@[simp] theorem setRegField_stackTab (s : State) (a hi lo v : Nat) : (setRegField s a hi lo v).stackTab = s.stackTab := rfl
@[simp] theorem setRegField_piers (s : State) (a hi lo v : Nat) : (setRegField s a hi lo v).piers = s.piers := rfl
@[simp] theorem setRegField_rmap (s : State) (a hi lo v : Nat) : (setRegField s a hi lo v).rmap = s.rmap := rfl
@[simp] theorem setRegField_bud (s : State) (a hi lo v : Nat) : (setRegField s a hi lo v).bud = s.bud := rfl
@[simp] theorem setRegField_cbl (s : State) (a hi lo v : Nat) : (setRegField s a hi lo v).cbl = s.cbl := rfl
@[simp] theorem setRegField_stp (s : State) (a hi lo v : Nat) : (setRegField s a hi lo v).stp = s.stp := rfl
@[simp] theorem setRegField_tm (s : State) (a hi lo v : Nat) : (setRegField s a hi lo v).tm = s.tm := rfl
@[simp] theorem setRegField_fab (s : State) (a hi lo v : Nat) : (setRegField s a hi lo v).fab = s.fab := rfl
@[simp] theorem setRegField_npx (s : State) (a hi lo v : Nat) : (setRegField s a hi lo v).npx = s.npx := rfl
@[simp] theorem setRegField_ck (s : State) (a hi lo v : Nat) : (setRegField s a hi lo v).ck = s.ck := rfl
@[simp] theorem setRegField_sec (s : State) (a hi lo v : Nat) : (setRegField s a hi lo v).sec = s.sec := rfl
@[simp] theorem setRegField_pwr (s : State) (a hi lo v : Nat) : (setRegField s a hi lo v).pwr = s.pwr := rfl

/-! ## `bumpN` -/

@[simp] theorem bumpN_pending (s : State) (a n : Nat) : (bumpN s a n).pending = s.pending := rfl
@[simp] theorem bumpN_mem (s : State) (a n : Nat) : (bumpN s a n).mem = s.mem := rfl
@[simp] theorem bumpN_poison (s : State) (a n : Nat) : (bumpN s a n).poison = s.poison := rfl
@[simp] theorem bumpN_upset (s : State) (a n : Nat) : (bumpN s a n).upset = s.upset := rfl
@[simp] theorem bumpN_openBlk (s : State) (a n : Nat) : (bumpN s a n).openBlk = s.openBlk := rfl
@[simp] theorem bumpN_regs (s : State) (a n : Nat) : (bumpN s a n).regs = s.regs := rfl
@[simp] theorem bumpN_latch (s : State) (a n : Nat) : (bumpN s a n).latch = s.latch := rfl
@[simp] theorem bumpN_glatch (s : State) (a n : Nat) : (bumpN s a n).glatch = s.glatch := rfl
@[simp] theorem bumpN_course (s : State) (a n : Nat) : (bumpN s a n).course = s.course := rfl
@[simp] theorem bumpN_out (s : State) (a n : Nat) : (bumpN s a n).out = s.out := rfl
@[simp] theorem bumpN_free (s : State) (a n : Nat) : (bumpN s a n).free = s.free := rfl
@[simp] theorem bumpN_slog (s : State) (a n : Nat) : (bumpN s a n).slog = s.slog := rfl
@[simp] theorem bumpN_host (s : State) (a n : Nat) : (bumpN s a n).host = s.host := rfl
@[simp] theorem bumpN_cfg (s : State) (a n : Nat) : (bumpN s a n).cfg = s.cfg := rfl
@[simp] theorem bumpN_tiles (s : State) (a n : Nat) : (bumpN s a n).tiles = s.tiles := rfl
@[simp] theorem bumpN_tensors (s : State) (a n : Nat) : (bumpN s a n).tensors = s.tensors := rfl
@[simp] theorem bumpN_chans (s : State) (a n : Nat) : (bumpN s a n).chans = s.chans := rfl
@[simp] theorem bumpN_stackTab (s : State) (a n : Nat) : (bumpN s a n).stackTab = s.stackTab := rfl
@[simp] theorem bumpN_piers (s : State) (a n : Nat) : (bumpN s a n).piers = s.piers := rfl
@[simp] theorem bumpN_rmap (s : State) (a n : Nat) : (bumpN s a n).rmap = s.rmap := rfl
@[simp] theorem bumpN_bud (s : State) (a n : Nat) : (bumpN s a n).bud = s.bud := rfl
@[simp] theorem bumpN_cbl (s : State) (a n : Nat) : (bumpN s a n).cbl = s.cbl := rfl
@[simp] theorem bumpN_stp (s : State) (a n : Nat) : (bumpN s a n).stp = s.stp := rfl
@[simp] theorem bumpN_tm (s : State) (a n : Nat) : (bumpN s a n).tm = s.tm := rfl
@[simp] theorem bumpN_fab (s : State) (a n : Nat) : (bumpN s a n).fab = s.fab := rfl
@[simp] theorem bumpN_npx (s : State) (a n : Nat) : (bumpN s a n).npx = s.npx := rfl
@[simp] theorem bumpN_ck (s : State) (a n : Nat) : (bumpN s a n).ck = s.ck := rfl
@[simp] theorem bumpN_sec (s : State) (a n : Nat) : (bumpN s a n).sec = s.sec := rfl
@[simp] theorem bumpN_pwr (s : State) (a n : Nat) : (bumpN s a n).pwr = s.pwr := rfl

/-! ## `bump` -/

@[simp] theorem bump_pending (s : State) (a : Nat) : (bump s a).pending = s.pending := rfl
@[simp] theorem bump_mem (s : State) (a : Nat) : (bump s a).mem = s.mem := rfl
@[simp] theorem bump_poison (s : State) (a : Nat) : (bump s a).poison = s.poison := rfl
@[simp] theorem bump_upset (s : State) (a : Nat) : (bump s a).upset = s.upset := rfl
@[simp] theorem bump_openBlk (s : State) (a : Nat) : (bump s a).openBlk = s.openBlk := rfl
@[simp] theorem bump_regs (s : State) (a : Nat) : (bump s a).regs = s.regs := rfl
@[simp] theorem bump_latch (s : State) (a : Nat) : (bump s a).latch = s.latch := rfl
@[simp] theorem bump_glatch (s : State) (a : Nat) : (bump s a).glatch = s.glatch := rfl
@[simp] theorem bump_course (s : State) (a : Nat) : (bump s a).course = s.course := rfl
@[simp] theorem bump_out (s : State) (a : Nat) : (bump s a).out = s.out := rfl
@[simp] theorem bump_free (s : State) (a : Nat) : (bump s a).free = s.free := rfl
@[simp] theorem bump_slog (s : State) (a : Nat) : (bump s a).slog = s.slog := rfl
@[simp] theorem bump_host (s : State) (a : Nat) : (bump s a).host = s.host := rfl
@[simp] theorem bump_cfg (s : State) (a : Nat) : (bump s a).cfg = s.cfg := rfl
@[simp] theorem bump_tiles (s : State) (a : Nat) : (bump s a).tiles = s.tiles := rfl
@[simp] theorem bump_tensors (s : State) (a : Nat) : (bump s a).tensors = s.tensors := rfl
@[simp] theorem bump_chans (s : State) (a : Nat) : (bump s a).chans = s.chans := rfl
@[simp] theorem bump_stackTab (s : State) (a : Nat) : (bump s a).stackTab = s.stackTab := rfl
@[simp] theorem bump_piers (s : State) (a : Nat) : (bump s a).piers = s.piers := rfl
@[simp] theorem bump_rmap (s : State) (a : Nat) : (bump s a).rmap = s.rmap := rfl
@[simp] theorem bump_bud (s : State) (a : Nat) : (bump s a).bud = s.bud := rfl
@[simp] theorem bump_cbl (s : State) (a : Nat) : (bump s a).cbl = s.cbl := rfl
@[simp] theorem bump_stp (s : State) (a : Nat) : (bump s a).stp = s.stp := rfl
@[simp] theorem bump_tm (s : State) (a : Nat) : (bump s a).tm = s.tm := rfl
@[simp] theorem bump_fab (s : State) (a : Nat) : (bump s a).fab = s.fab := rfl
@[simp] theorem bump_npx (s : State) (a : Nat) : (bump s a).npx = s.npx := rfl
@[simp] theorem bump_ck (s : State) (a : Nat) : (bump s a).ck = s.ck := rfl
@[simp] theorem bump_sec (s : State) (a : Nat) : (bump s a).sec = s.sec := rfl
@[simp] theorem bump_pwr (s : State) (a : Nat) : (bump s a).pwr = s.pwr := rfl

/-! ## `emit` -/

@[simp] theorem emit_pending (o : Output) (s : State) : (emit o s).pending = s.pending := rfl
@[simp] theorem emit_mem (o : Output) (s : State) : (emit o s).mem = s.mem := rfl
@[simp] theorem emit_poison (o : Output) (s : State) : (emit o s).poison = s.poison := rfl
@[simp] theorem emit_upset (o : Output) (s : State) : (emit o s).upset = s.upset := rfl
@[simp] theorem emit_openBlk (o : Output) (s : State) : (emit o s).openBlk = s.openBlk := rfl
@[simp] theorem emit_regs (o : Output) (s : State) : (emit o s).regs = s.regs := rfl
@[simp] theorem emit_ctr (o : Output) (s : State) : (emit o s).ctr = s.ctr := rfl
@[simp] theorem emit_latch (o : Output) (s : State) : (emit o s).latch = s.latch := rfl
@[simp] theorem emit_glatch (o : Output) (s : State) : (emit o s).glatch = s.glatch := rfl
@[simp] theorem emit_course (o : Output) (s : State) : (emit o s).course = s.course := rfl
@[simp] theorem emit_free (o : Output) (s : State) : (emit o s).free = s.free := rfl
@[simp] theorem emit_slog (o : Output) (s : State) : (emit o s).slog = s.slog := rfl
@[simp] theorem emit_host (o : Output) (s : State) : (emit o s).host = s.host := rfl
@[simp] theorem emit_cfg (o : Output) (s : State) : (emit o s).cfg = s.cfg := rfl
@[simp] theorem emit_tiles (o : Output) (s : State) : (emit o s).tiles = s.tiles := rfl
@[simp] theorem emit_tensors (o : Output) (s : State) : (emit o s).tensors = s.tensors := rfl
@[simp] theorem emit_chans (o : Output) (s : State) : (emit o s).chans = s.chans := rfl
@[simp] theorem emit_stackTab (o : Output) (s : State) : (emit o s).stackTab = s.stackTab := rfl
@[simp] theorem emit_piers (o : Output) (s : State) : (emit o s).piers = s.piers := rfl
@[simp] theorem emit_rmap (o : Output) (s : State) : (emit o s).rmap = s.rmap := rfl
@[simp] theorem emit_bud (o : Output) (s : State) : (emit o s).bud = s.bud := rfl
@[simp] theorem emit_cbl (o : Output) (s : State) : (emit o s).cbl = s.cbl := rfl
@[simp] theorem emit_stp (o : Output) (s : State) : (emit o s).stp = s.stp := rfl
@[simp] theorem emit_tm (o : Output) (s : State) : (emit o s).tm = s.tm := rfl
@[simp] theorem emit_fab (o : Output) (s : State) : (emit o s).fab = s.fab := rfl
@[simp] theorem emit_npx (o : Output) (s : State) : (emit o s).npx = s.npx := rfl
@[simp] theorem emit_ck (o : Output) (s : State) : (emit o s).ck = s.ck := rfl
@[simp] theorem emit_sec (o : Output) (s : State) : (emit o s).sec = s.sec := rfl
@[simp] theorem emit_pwr (o : Output) (s : State) : (emit o s).pwr = s.pwr := rfl

/-! ## `hostWrite` -/

@[simp] theorem hostWrite_pending (a : Nat) (d : List Byte) (s : State) : (hostWrite a d s).pending = s.pending := rfl
@[simp] theorem hostWrite_mem (a : Nat) (d : List Byte) (s : State) : (hostWrite a d s).mem = s.mem := rfl
@[simp] theorem hostWrite_poison (a : Nat) (d : List Byte) (s : State) : (hostWrite a d s).poison = s.poison := rfl
@[simp] theorem hostWrite_upset (a : Nat) (d : List Byte) (s : State) : (hostWrite a d s).upset = s.upset := rfl
@[simp] theorem hostWrite_openBlk (a : Nat) (d : List Byte) (s : State) : (hostWrite a d s).openBlk = s.openBlk := rfl
@[simp] theorem hostWrite_regs (a : Nat) (d : List Byte) (s : State) : (hostWrite a d s).regs = s.regs := rfl
@[simp] theorem hostWrite_ctr (a : Nat) (d : List Byte) (s : State) : (hostWrite a d s).ctr = s.ctr := rfl
@[simp] theorem hostWrite_latch (a : Nat) (d : List Byte) (s : State) : (hostWrite a d s).latch = s.latch := rfl
@[simp] theorem hostWrite_glatch (a : Nat) (d : List Byte) (s : State) : (hostWrite a d s).glatch = s.glatch := rfl
@[simp] theorem hostWrite_course (a : Nat) (d : List Byte) (s : State) : (hostWrite a d s).course = s.course := rfl
@[simp] theorem hostWrite_free (a : Nat) (d : List Byte) (s : State) : (hostWrite a d s).free = s.free := rfl
@[simp] theorem hostWrite_slog (a : Nat) (d : List Byte) (s : State) : (hostWrite a d s).slog = s.slog := rfl
@[simp] theorem hostWrite_host (a : Nat) (d : List Byte) (s : State) : (hostWrite a d s).host = s.host := rfl
@[simp] theorem hostWrite_cfg (a : Nat) (d : List Byte) (s : State) : (hostWrite a d s).cfg = s.cfg := rfl
@[simp] theorem hostWrite_tiles (a : Nat) (d : List Byte) (s : State) : (hostWrite a d s).tiles = s.tiles := rfl
@[simp] theorem hostWrite_tensors (a : Nat) (d : List Byte) (s : State) : (hostWrite a d s).tensors = s.tensors := rfl
@[simp] theorem hostWrite_chans (a : Nat) (d : List Byte) (s : State) : (hostWrite a d s).chans = s.chans := rfl
@[simp] theorem hostWrite_stackTab (a : Nat) (d : List Byte) (s : State) : (hostWrite a d s).stackTab = s.stackTab := rfl
@[simp] theorem hostWrite_piers (a : Nat) (d : List Byte) (s : State) : (hostWrite a d s).piers = s.piers := rfl
@[simp] theorem hostWrite_rmap (a : Nat) (d : List Byte) (s : State) : (hostWrite a d s).rmap = s.rmap := rfl
@[simp] theorem hostWrite_bud (a : Nat) (d : List Byte) (s : State) : (hostWrite a d s).bud = s.bud := rfl
@[simp] theorem hostWrite_cbl (a : Nat) (d : List Byte) (s : State) : (hostWrite a d s).cbl = s.cbl := rfl
@[simp] theorem hostWrite_stp (a : Nat) (d : List Byte) (s : State) : (hostWrite a d s).stp = s.stp := rfl
@[simp] theorem hostWrite_tm (a : Nat) (d : List Byte) (s : State) : (hostWrite a d s).tm = s.tm := rfl
@[simp] theorem hostWrite_fab (a : Nat) (d : List Byte) (s : State) : (hostWrite a d s).fab = s.fab := rfl
@[simp] theorem hostWrite_npx (a : Nat) (d : List Byte) (s : State) : (hostWrite a d s).npx = s.npx := rfl
@[simp] theorem hostWrite_ck (a : Nat) (d : List Byte) (s : State) : (hostWrite a d s).ck = s.ck := rfl
@[simp] theorem hostWrite_sec (a : Nat) (d : List Byte) (s : State) : (hostWrite a d s).sec = s.sec := rfl
@[simp] theorem hostWrite_pwr (a : Nat) (d : List Byte) (s : State) : (hostWrite a d s).pwr = s.pwr := rfl

/-! ## `storeBytes` -/

@[simp] theorem storeBytes_pending (s : State) (a : Nat) (bs : List Byte) : (storeBytes s a bs).pending = s.pending := rfl
@[simp] theorem storeBytes_poison (s : State) (a : Nat) (bs : List Byte) : (storeBytes s a bs).poison = s.poison := rfl
@[simp] theorem storeBytes_upset (s : State) (a : Nat) (bs : List Byte) : (storeBytes s a bs).upset = s.upset := rfl
@[simp] theorem storeBytes_openBlk (s : State) (a : Nat) (bs : List Byte) : (storeBytes s a bs).openBlk = s.openBlk := rfl
@[simp] theorem storeBytes_regs (s : State) (a : Nat) (bs : List Byte) : (storeBytes s a bs).regs = s.regs := rfl
@[simp] theorem storeBytes_ctr (s : State) (a : Nat) (bs : List Byte) : (storeBytes s a bs).ctr = s.ctr := rfl
@[simp] theorem storeBytes_latch (s : State) (a : Nat) (bs : List Byte) : (storeBytes s a bs).latch = s.latch := rfl
@[simp] theorem storeBytes_glatch (s : State) (a : Nat) (bs : List Byte) : (storeBytes s a bs).glatch = s.glatch := rfl
@[simp] theorem storeBytes_course (s : State) (a : Nat) (bs : List Byte) : (storeBytes s a bs).course = s.course := rfl
@[simp] theorem storeBytes_out (s : State) (a : Nat) (bs : List Byte) : (storeBytes s a bs).out = s.out := rfl
@[simp] theorem storeBytes_free (s : State) (a : Nat) (bs : List Byte) : (storeBytes s a bs).free = s.free := rfl
@[simp] theorem storeBytes_slog (s : State) (a : Nat) (bs : List Byte) : (storeBytes s a bs).slog = s.slog := rfl
@[simp] theorem storeBytes_host (s : State) (a : Nat) (bs : List Byte) : (storeBytes s a bs).host = s.host := rfl
@[simp] theorem storeBytes_cfg (s : State) (a : Nat) (bs : List Byte) : (storeBytes s a bs).cfg = s.cfg := rfl
@[simp] theorem storeBytes_tiles (s : State) (a : Nat) (bs : List Byte) : (storeBytes s a bs).tiles = s.tiles := rfl
@[simp] theorem storeBytes_tensors (s : State) (a : Nat) (bs : List Byte) : (storeBytes s a bs).tensors = s.tensors := rfl
@[simp] theorem storeBytes_chans (s : State) (a : Nat) (bs : List Byte) : (storeBytes s a bs).chans = s.chans := rfl
@[simp] theorem storeBytes_stackTab (s : State) (a : Nat) (bs : List Byte) : (storeBytes s a bs).stackTab = s.stackTab := rfl
@[simp] theorem storeBytes_piers (s : State) (a : Nat) (bs : List Byte) : (storeBytes s a bs).piers = s.piers := rfl
@[simp] theorem storeBytes_rmap (s : State) (a : Nat) (bs : List Byte) : (storeBytes s a bs).rmap = s.rmap := rfl
@[simp] theorem storeBytes_bud (s : State) (a : Nat) (bs : List Byte) : (storeBytes s a bs).bud = s.bud := rfl
@[simp] theorem storeBytes_cbl (s : State) (a : Nat) (bs : List Byte) : (storeBytes s a bs).cbl = s.cbl := rfl
@[simp] theorem storeBytes_stp (s : State) (a : Nat) (bs : List Byte) : (storeBytes s a bs).stp = s.stp := rfl
@[simp] theorem storeBytes_tm (s : State) (a : Nat) (bs : List Byte) : (storeBytes s a bs).tm = s.tm := rfl
@[simp] theorem storeBytes_fab (s : State) (a : Nat) (bs : List Byte) : (storeBytes s a bs).fab = s.fab := rfl
@[simp] theorem storeBytes_npx (s : State) (a : Nat) (bs : List Byte) : (storeBytes s a bs).npx = s.npx := rfl
@[simp] theorem storeBytes_ck (s : State) (a : Nat) (bs : List Byte) : (storeBytes s a bs).ck = s.ck := rfl
@[simp] theorem storeBytes_sec (s : State) (a : Nat) (bs : List Byte) : (storeBytes s a bs).sec = s.sec := rfl
@[simp] theorem storeBytes_pwr (s : State) (a : Nat) (bs : List Byte) : (storeBytes s a bs).pwr = s.pwr := rfl

/-! ## `setPoison` -/

@[simp] theorem setPoison_pending (s : State) (a : Nat) (b : Bool) : (setPoison s a b).pending = s.pending := rfl
@[simp] theorem setPoison_mem (s : State) (a : Nat) (b : Bool) : (setPoison s a b).mem = s.mem := rfl
@[simp] theorem setPoison_upset (s : State) (a : Nat) (b : Bool) : (setPoison s a b).upset = s.upset := rfl
@[simp] theorem setPoison_openBlk (s : State) (a : Nat) (b : Bool) : (setPoison s a b).openBlk = s.openBlk := rfl
@[simp] theorem setPoison_regs (s : State) (a : Nat) (b : Bool) : (setPoison s a b).regs = s.regs := rfl
@[simp] theorem setPoison_ctr (s : State) (a : Nat) (b : Bool) : (setPoison s a b).ctr = s.ctr := rfl
@[simp] theorem setPoison_latch (s : State) (a : Nat) (b : Bool) : (setPoison s a b).latch = s.latch := rfl
@[simp] theorem setPoison_glatch (s : State) (a : Nat) (b : Bool) : (setPoison s a b).glatch = s.glatch := rfl
@[simp] theorem setPoison_course (s : State) (a : Nat) (b : Bool) : (setPoison s a b).course = s.course := rfl
@[simp] theorem setPoison_out (s : State) (a : Nat) (b : Bool) : (setPoison s a b).out = s.out := rfl
@[simp] theorem setPoison_free (s : State) (a : Nat) (b : Bool) : (setPoison s a b).free = s.free := rfl
@[simp] theorem setPoison_slog (s : State) (a : Nat) (b : Bool) : (setPoison s a b).slog = s.slog := rfl
@[simp] theorem setPoison_host (s : State) (a : Nat) (b : Bool) : (setPoison s a b).host = s.host := rfl
@[simp] theorem setPoison_cfg (s : State) (a : Nat) (b : Bool) : (setPoison s a b).cfg = s.cfg := rfl
@[simp] theorem setPoison_tiles (s : State) (a : Nat) (b : Bool) : (setPoison s a b).tiles = s.tiles := rfl
@[simp] theorem setPoison_tensors (s : State) (a : Nat) (b : Bool) : (setPoison s a b).tensors = s.tensors := rfl
@[simp] theorem setPoison_chans (s : State) (a : Nat) (b : Bool) : (setPoison s a b).chans = s.chans := rfl
@[simp] theorem setPoison_stackTab (s : State) (a : Nat) (b : Bool) : (setPoison s a b).stackTab = s.stackTab := rfl
@[simp] theorem setPoison_piers (s : State) (a : Nat) (b : Bool) : (setPoison s a b).piers = s.piers := rfl
@[simp] theorem setPoison_rmap (s : State) (a : Nat) (b : Bool) : (setPoison s a b).rmap = s.rmap := rfl
@[simp] theorem setPoison_bud (s : State) (a : Nat) (b : Bool) : (setPoison s a b).bud = s.bud := rfl
@[simp] theorem setPoison_cbl (s : State) (a : Nat) (b : Bool) : (setPoison s a b).cbl = s.cbl := rfl
@[simp] theorem setPoison_stp (s : State) (a : Nat) (b : Bool) : (setPoison s a b).stp = s.stp := rfl
@[simp] theorem setPoison_tm (s : State) (a : Nat) (b : Bool) : (setPoison s a b).tm = s.tm := rfl
@[simp] theorem setPoison_fab (s : State) (a : Nat) (b : Bool) : (setPoison s a b).fab = s.fab := rfl
@[simp] theorem setPoison_npx (s : State) (a : Nat) (b : Bool) : (setPoison s a b).npx = s.npx := rfl
@[simp] theorem setPoison_ck (s : State) (a : Nat) (b : Bool) : (setPoison s a b).ck = s.ck := rfl
@[simp] theorem setPoison_sec (s : State) (a : Nat) (b : Bool) : (setPoison s a b).sec = s.sec := rfl
@[simp] theorem setPoison_pwr (s : State) (a : Nat) (b : Bool) : (setPoison s a b).pwr = s.pwr := rfl

/-! ## `setQueue` -/

@[simp] theorem setQueue_pending (s : State) (q : Nat) (v : Queue) : (setQueue s q v).pending = s.pending := rfl
@[simp] theorem setQueue_mem (s : State) (q : Nat) (v : Queue) : (setQueue s q v).mem = s.mem := rfl
@[simp] theorem setQueue_poison (s : State) (q : Nat) (v : Queue) : (setQueue s q v).poison = s.poison := rfl
@[simp] theorem setQueue_upset (s : State) (q : Nat) (v : Queue) : (setQueue s q v).upset = s.upset := rfl
@[simp] theorem setQueue_openBlk (s : State) (q : Nat) (v : Queue) : (setQueue s q v).openBlk = s.openBlk := rfl
@[simp] theorem setQueue_regs (s : State) (q : Nat) (v : Queue) : (setQueue s q v).regs = s.regs := rfl
@[simp] theorem setQueue_ctr (s : State) (q : Nat) (v : Queue) : (setQueue s q v).ctr = s.ctr := rfl
@[simp] theorem setQueue_latch (s : State) (q : Nat) (v : Queue) : (setQueue s q v).latch = s.latch := rfl
@[simp] theorem setQueue_glatch (s : State) (q : Nat) (v : Queue) : (setQueue s q v).glatch = s.glatch := rfl
@[simp] theorem setQueue_course (s : State) (q : Nat) (v : Queue) : (setQueue s q v).course = s.course := rfl
@[simp] theorem setQueue_out (s : State) (q : Nat) (v : Queue) : (setQueue s q v).out = s.out := rfl
@[simp] theorem setQueue_free (s : State) (q : Nat) (v : Queue) : (setQueue s q v).free = s.free := rfl
@[simp] theorem setQueue_slog (s : State) (q : Nat) (v : Queue) : (setQueue s q v).slog = s.slog := rfl
@[simp] theorem setQueue_cfg (s : State) (q : Nat) (v : Queue) : (setQueue s q v).cfg = s.cfg := rfl
@[simp] theorem setQueue_tiles (s : State) (q : Nat) (v : Queue) : (setQueue s q v).tiles = s.tiles := rfl
@[simp] theorem setQueue_tensors (s : State) (q : Nat) (v : Queue) : (setQueue s q v).tensors = s.tensors := rfl
@[simp] theorem setQueue_chans (s : State) (q : Nat) (v : Queue) : (setQueue s q v).chans = s.chans := rfl
@[simp] theorem setQueue_stackTab (s : State) (q : Nat) (v : Queue) : (setQueue s q v).stackTab = s.stackTab := rfl
@[simp] theorem setQueue_piers (s : State) (q : Nat) (v : Queue) : (setQueue s q v).piers = s.piers := rfl
@[simp] theorem setQueue_rmap (s : State) (q : Nat) (v : Queue) : (setQueue s q v).rmap = s.rmap := rfl
@[simp] theorem setQueue_bud (s : State) (q : Nat) (v : Queue) : (setQueue s q v).bud = s.bud := rfl
@[simp] theorem setQueue_cbl (s : State) (q : Nat) (v : Queue) : (setQueue s q v).cbl = s.cbl := rfl
@[simp] theorem setQueue_stp (s : State) (q : Nat) (v : Queue) : (setQueue s q v).stp = s.stp := rfl
@[simp] theorem setQueue_tm (s : State) (q : Nat) (v : Queue) : (setQueue s q v).tm = s.tm := rfl
@[simp] theorem setQueue_fab (s : State) (q : Nat) (v : Queue) : (setQueue s q v).fab = s.fab := rfl
@[simp] theorem setQueue_npx (s : State) (q : Nat) (v : Queue) : (setQueue s q v).npx = s.npx := rfl
@[simp] theorem setQueue_ck (s : State) (q : Nat) (v : Queue) : (setQueue s q v).ck = s.ck := rfl
@[simp] theorem setQueue_sec (s : State) (q : Nat) (v : Queue) : (setQueue s q v).sec = s.sec := rfl
@[simp] theorem setQueue_pwr (s : State) (q : Nat) (v : Queue) : (setQueue s q v).pwr = s.pwr := rfl

/-! ## `setTile` -/

@[simp] theorem setTile_pending (s : State) (t : Nat) (v : Tile) : (setTile s t v).pending = s.pending := rfl
@[simp] theorem setTile_mem (s : State) (t : Nat) (v : Tile) : (setTile s t v).mem = s.mem := rfl
@[simp] theorem setTile_poison (s : State) (t : Nat) (v : Tile) : (setTile s t v).poison = s.poison := rfl
@[simp] theorem setTile_upset (s : State) (t : Nat) (v : Tile) : (setTile s t v).upset = s.upset := rfl
@[simp] theorem setTile_openBlk (s : State) (t : Nat) (v : Tile) : (setTile s t v).openBlk = s.openBlk := rfl
@[simp] theorem setTile_regs (s : State) (t : Nat) (v : Tile) : (setTile s t v).regs = s.regs := rfl
@[simp] theorem setTile_ctr (s : State) (t : Nat) (v : Tile) : (setTile s t v).ctr = s.ctr := rfl
@[simp] theorem setTile_latch (s : State) (t : Nat) (v : Tile) : (setTile s t v).latch = s.latch := rfl
@[simp] theorem setTile_glatch (s : State) (t : Nat) (v : Tile) : (setTile s t v).glatch = s.glatch := rfl
@[simp] theorem setTile_course (s : State) (t : Nat) (v : Tile) : (setTile s t v).course = s.course := rfl
@[simp] theorem setTile_out (s : State) (t : Nat) (v : Tile) : (setTile s t v).out = s.out := rfl
@[simp] theorem setTile_free (s : State) (t : Nat) (v : Tile) : (setTile s t v).free = s.free := rfl
@[simp] theorem setTile_slog (s : State) (t : Nat) (v : Tile) : (setTile s t v).slog = s.slog := rfl
@[simp] theorem setTile_host (s : State) (t : Nat) (v : Tile) : (setTile s t v).host = s.host := rfl
@[simp] theorem setTile_cfg (s : State) (t : Nat) (v : Tile) : (setTile s t v).cfg = s.cfg := rfl
@[simp] theorem setTile_tensors (s : State) (t : Nat) (v : Tile) : (setTile s t v).tensors = s.tensors := rfl
@[simp] theorem setTile_chans (s : State) (t : Nat) (v : Tile) : (setTile s t v).chans = s.chans := rfl
@[simp] theorem setTile_stackTab (s : State) (t : Nat) (v : Tile) : (setTile s t v).stackTab = s.stackTab := rfl
@[simp] theorem setTile_piers (s : State) (t : Nat) (v : Tile) : (setTile s t v).piers = s.piers := rfl
@[simp] theorem setTile_rmap (s : State) (t : Nat) (v : Tile) : (setTile s t v).rmap = s.rmap := rfl
@[simp] theorem setTile_bud (s : State) (t : Nat) (v : Tile) : (setTile s t v).bud = s.bud := rfl
@[simp] theorem setTile_cbl (s : State) (t : Nat) (v : Tile) : (setTile s t v).cbl = s.cbl := rfl
@[simp] theorem setTile_stp (s : State) (t : Nat) (v : Tile) : (setTile s t v).stp = s.stp := rfl
@[simp] theorem setTile_tm (s : State) (t : Nat) (v : Tile) : (setTile s t v).tm = s.tm := rfl
@[simp] theorem setTile_fab (s : State) (t : Nat) (v : Tile) : (setTile s t v).fab = s.fab := rfl
@[simp] theorem setTile_npx (s : State) (t : Nat) (v : Tile) : (setTile s t v).npx = s.npx := rfl
@[simp] theorem setTile_ck (s : State) (t : Nat) (v : Tile) : (setTile s t v).ck = s.ck := rfl
@[simp] theorem setTile_sec (s : State) (t : Nat) (v : Tile) : (setTile s t v).sec = s.sec := rfl
@[simp] theorem setTile_pwr (s : State) (t : Nat) (v : Tile) : (setTile s t v).pwr = s.pwr := rfl

/-! ## `setTensor` -/

@[simp] theorem setTensor_pending (s : State) (t : Nat) (v : Tensor) : (setTensor s t v).pending = s.pending := rfl
@[simp] theorem setTensor_mem (s : State) (t : Nat) (v : Tensor) : (setTensor s t v).mem = s.mem := rfl
@[simp] theorem setTensor_poison (s : State) (t : Nat) (v : Tensor) : (setTensor s t v).poison = s.poison := rfl
@[simp] theorem setTensor_upset (s : State) (t : Nat) (v : Tensor) : (setTensor s t v).upset = s.upset := rfl
@[simp] theorem setTensor_openBlk (s : State) (t : Nat) (v : Tensor) : (setTensor s t v).openBlk = s.openBlk := rfl
@[simp] theorem setTensor_regs (s : State) (t : Nat) (v : Tensor) : (setTensor s t v).regs = s.regs := rfl
@[simp] theorem setTensor_ctr (s : State) (t : Nat) (v : Tensor) : (setTensor s t v).ctr = s.ctr := rfl
@[simp] theorem setTensor_latch (s : State) (t : Nat) (v : Tensor) : (setTensor s t v).latch = s.latch := rfl
@[simp] theorem setTensor_glatch (s : State) (t : Nat) (v : Tensor) : (setTensor s t v).glatch = s.glatch := rfl
@[simp] theorem setTensor_course (s : State) (t : Nat) (v : Tensor) : (setTensor s t v).course = s.course := rfl
@[simp] theorem setTensor_out (s : State) (t : Nat) (v : Tensor) : (setTensor s t v).out = s.out := rfl
@[simp] theorem setTensor_free (s : State) (t : Nat) (v : Tensor) : (setTensor s t v).free = s.free := rfl
@[simp] theorem setTensor_slog (s : State) (t : Nat) (v : Tensor) : (setTensor s t v).slog = s.slog := rfl
@[simp] theorem setTensor_host (s : State) (t : Nat) (v : Tensor) : (setTensor s t v).host = s.host := rfl
@[simp] theorem setTensor_cfg (s : State) (t : Nat) (v : Tensor) : (setTensor s t v).cfg = s.cfg := rfl
@[simp] theorem setTensor_tiles (s : State) (t : Nat) (v : Tensor) : (setTensor s t v).tiles = s.tiles := rfl
@[simp] theorem setTensor_chans (s : State) (t : Nat) (v : Tensor) : (setTensor s t v).chans = s.chans := rfl
@[simp] theorem setTensor_stackTab (s : State) (t : Nat) (v : Tensor) : (setTensor s t v).stackTab = s.stackTab := rfl
@[simp] theorem setTensor_piers (s : State) (t : Nat) (v : Tensor) : (setTensor s t v).piers = s.piers := rfl
@[simp] theorem setTensor_rmap (s : State) (t : Nat) (v : Tensor) : (setTensor s t v).rmap = s.rmap := rfl
@[simp] theorem setTensor_bud (s : State) (t : Nat) (v : Tensor) : (setTensor s t v).bud = s.bud := rfl
@[simp] theorem setTensor_cbl (s : State) (t : Nat) (v : Tensor) : (setTensor s t v).cbl = s.cbl := rfl
@[simp] theorem setTensor_stp (s : State) (t : Nat) (v : Tensor) : (setTensor s t v).stp = s.stp := rfl
@[simp] theorem setTensor_tm (s : State) (t : Nat) (v : Tensor) : (setTensor s t v).tm = s.tm := rfl
@[simp] theorem setTensor_fab (s : State) (t : Nat) (v : Tensor) : (setTensor s t v).fab = s.fab := rfl
@[simp] theorem setTensor_npx (s : State) (t : Nat) (v : Tensor) : (setTensor s t v).npx = s.npx := rfl
@[simp] theorem setTensor_ck (s : State) (t : Nat) (v : Tensor) : (setTensor s t v).ck = s.ck := rfl
@[simp] theorem setTensor_sec (s : State) (t : Nat) (v : Tensor) : (setTensor s t v).sec = s.sec := rfl
@[simp] theorem setTensor_pwr (s : State) (t : Nat) (v : Tensor) : (setTensor s t v).pwr = s.pwr := rfl

/-! ## `setStack` -/

@[simp] theorem setStack_pending (s : State) (k : Nat) (v : Stack) : (setStack s k v).pending = s.pending := rfl
@[simp] theorem setStack_mem (s : State) (k : Nat) (v : Stack) : (setStack s k v).mem = s.mem := rfl
@[simp] theorem setStack_poison (s : State) (k : Nat) (v : Stack) : (setStack s k v).poison = s.poison := rfl
@[simp] theorem setStack_upset (s : State) (k : Nat) (v : Stack) : (setStack s k v).upset = s.upset := rfl
@[simp] theorem setStack_openBlk (s : State) (k : Nat) (v : Stack) : (setStack s k v).openBlk = s.openBlk := rfl
@[simp] theorem setStack_regs (s : State) (k : Nat) (v : Stack) : (setStack s k v).regs = s.regs := rfl
@[simp] theorem setStack_ctr (s : State) (k : Nat) (v : Stack) : (setStack s k v).ctr = s.ctr := rfl
@[simp] theorem setStack_latch (s : State) (k : Nat) (v : Stack) : (setStack s k v).latch = s.latch := rfl
@[simp] theorem setStack_glatch (s : State) (k : Nat) (v : Stack) : (setStack s k v).glatch = s.glatch := rfl
@[simp] theorem setStack_course (s : State) (k : Nat) (v : Stack) : (setStack s k v).course = s.course := rfl
@[simp] theorem setStack_out (s : State) (k : Nat) (v : Stack) : (setStack s k v).out = s.out := rfl
@[simp] theorem setStack_free (s : State) (k : Nat) (v : Stack) : (setStack s k v).free = s.free := rfl
@[simp] theorem setStack_slog (s : State) (k : Nat) (v : Stack) : (setStack s k v).slog = s.slog := rfl
@[simp] theorem setStack_host (s : State) (k : Nat) (v : Stack) : (setStack s k v).host = s.host := rfl
@[simp] theorem setStack_cfg (s : State) (k : Nat) (v : Stack) : (setStack s k v).cfg = s.cfg := rfl
@[simp] theorem setStack_tiles (s : State) (k : Nat) (v : Stack) : (setStack s k v).tiles = s.tiles := rfl
@[simp] theorem setStack_tensors (s : State) (k : Nat) (v : Stack) : (setStack s k v).tensors = s.tensors := rfl
@[simp] theorem setStack_chans (s : State) (k : Nat) (v : Stack) : (setStack s k v).chans = s.chans := rfl
@[simp] theorem setStack_piers (s : State) (k : Nat) (v : Stack) : (setStack s k v).piers = s.piers := rfl
@[simp] theorem setStack_rmap (s : State) (k : Nat) (v : Stack) : (setStack s k v).rmap = s.rmap := rfl
@[simp] theorem setStack_bud (s : State) (k : Nat) (v : Stack) : (setStack s k v).bud = s.bud := rfl
@[simp] theorem setStack_cbl (s : State) (k : Nat) (v : Stack) : (setStack s k v).cbl = s.cbl := rfl
@[simp] theorem setStack_stp (s : State) (k : Nat) (v : Stack) : (setStack s k v).stp = s.stp := rfl
@[simp] theorem setStack_tm (s : State) (k : Nat) (v : Stack) : (setStack s k v).tm = s.tm := rfl
@[simp] theorem setStack_fab (s : State) (k : Nat) (v : Stack) : (setStack s k v).fab = s.fab := rfl
@[simp] theorem setStack_npx (s : State) (k : Nat) (v : Stack) : (setStack s k v).npx = s.npx := rfl
@[simp] theorem setStack_ck (s : State) (k : Nat) (v : Stack) : (setStack s k v).ck = s.ck := rfl
@[simp] theorem setStack_sec (s : State) (k : Nat) (v : Stack) : (setStack s k v).sec = s.sec := rfl
@[simp] theorem setStack_pwr (s : State) (k : Nat) (v : Stack) : (setStack s k v).pwr = s.pwr := rfl

/-! ## `setChan` -/

@[simp] theorem setChan_pending (s : State) (g : Nat) (v : Channel) : (setChan s g v).pending = s.pending := rfl
@[simp] theorem setChan_mem (s : State) (g : Nat) (v : Channel) : (setChan s g v).mem = s.mem := rfl
@[simp] theorem setChan_poison (s : State) (g : Nat) (v : Channel) : (setChan s g v).poison = s.poison := rfl
@[simp] theorem setChan_upset (s : State) (g : Nat) (v : Channel) : (setChan s g v).upset = s.upset := rfl
@[simp] theorem setChan_openBlk (s : State) (g : Nat) (v : Channel) : (setChan s g v).openBlk = s.openBlk := rfl
@[simp] theorem setChan_regs (s : State) (g : Nat) (v : Channel) : (setChan s g v).regs = s.regs := rfl
@[simp] theorem setChan_ctr (s : State) (g : Nat) (v : Channel) : (setChan s g v).ctr = s.ctr := rfl
@[simp] theorem setChan_latch (s : State) (g : Nat) (v : Channel) : (setChan s g v).latch = s.latch := rfl
@[simp] theorem setChan_glatch (s : State) (g : Nat) (v : Channel) : (setChan s g v).glatch = s.glatch := rfl
@[simp] theorem setChan_course (s : State) (g : Nat) (v : Channel) : (setChan s g v).course = s.course := rfl
@[simp] theorem setChan_out (s : State) (g : Nat) (v : Channel) : (setChan s g v).out = s.out := rfl
@[simp] theorem setChan_free (s : State) (g : Nat) (v : Channel) : (setChan s g v).free = s.free := rfl
@[simp] theorem setChan_slog (s : State) (g : Nat) (v : Channel) : (setChan s g v).slog = s.slog := rfl
@[simp] theorem setChan_host (s : State) (g : Nat) (v : Channel) : (setChan s g v).host = s.host := rfl
@[simp] theorem setChan_cfg (s : State) (g : Nat) (v : Channel) : (setChan s g v).cfg = s.cfg := rfl
@[simp] theorem setChan_tiles (s : State) (g : Nat) (v : Channel) : (setChan s g v).tiles = s.tiles := rfl
@[simp] theorem setChan_tensors (s : State) (g : Nat) (v : Channel) : (setChan s g v).tensors = s.tensors := rfl
@[simp] theorem setChan_stackTab (s : State) (g : Nat) (v : Channel) : (setChan s g v).stackTab = s.stackTab := rfl
@[simp] theorem setChan_piers (s : State) (g : Nat) (v : Channel) : (setChan s g v).piers = s.piers := rfl
@[simp] theorem setChan_rmap (s : State) (g : Nat) (v : Channel) : (setChan s g v).rmap = s.rmap := rfl
@[simp] theorem setChan_bud (s : State) (g : Nat) (v : Channel) : (setChan s g v).bud = s.bud := rfl
@[simp] theorem setChan_cbl (s : State) (g : Nat) (v : Channel) : (setChan s g v).cbl = s.cbl := rfl
@[simp] theorem setChan_stp (s : State) (g : Nat) (v : Channel) : (setChan s g v).stp = s.stp := rfl
@[simp] theorem setChan_tm (s : State) (g : Nat) (v : Channel) : (setChan s g v).tm = s.tm := rfl
@[simp] theorem setChan_fab (s : State) (g : Nat) (v : Channel) : (setChan s g v).fab = s.fab := rfl
@[simp] theorem setChan_npx (s : State) (g : Nat) (v : Channel) : (setChan s g v).npx = s.npx := rfl
@[simp] theorem setChan_ck (s : State) (g : Nat) (v : Channel) : (setChan s g v).ck = s.ck := rfl
@[simp] theorem setChan_sec (s : State) (g : Nat) (v : Channel) : (setChan s g v).sec = s.sec := rfl
@[simp] theorem setChan_pwr (s : State) (g : Nat) (v : Channel) : (setChan s g v).pwr = s.pwr := rfl

/-! ## `setPier` -/

@[simp] theorem setPier_pending (s : State) (p : Nat) (v : Pier) : (setPier s p v).pending = s.pending := rfl
@[simp] theorem setPier_mem (s : State) (p : Nat) (v : Pier) : (setPier s p v).mem = s.mem := rfl
@[simp] theorem setPier_poison (s : State) (p : Nat) (v : Pier) : (setPier s p v).poison = s.poison := rfl
@[simp] theorem setPier_upset (s : State) (p : Nat) (v : Pier) : (setPier s p v).upset = s.upset := rfl
@[simp] theorem setPier_openBlk (s : State) (p : Nat) (v : Pier) : (setPier s p v).openBlk = s.openBlk := rfl
@[simp] theorem setPier_regs (s : State) (p : Nat) (v : Pier) : (setPier s p v).regs = s.regs := rfl
@[simp] theorem setPier_ctr (s : State) (p : Nat) (v : Pier) : (setPier s p v).ctr = s.ctr := rfl
@[simp] theorem setPier_latch (s : State) (p : Nat) (v : Pier) : (setPier s p v).latch = s.latch := rfl
@[simp] theorem setPier_glatch (s : State) (p : Nat) (v : Pier) : (setPier s p v).glatch = s.glatch := rfl
@[simp] theorem setPier_course (s : State) (p : Nat) (v : Pier) : (setPier s p v).course = s.course := rfl
@[simp] theorem setPier_out (s : State) (p : Nat) (v : Pier) : (setPier s p v).out = s.out := rfl
@[simp] theorem setPier_free (s : State) (p : Nat) (v : Pier) : (setPier s p v).free = s.free := rfl
@[simp] theorem setPier_slog (s : State) (p : Nat) (v : Pier) : (setPier s p v).slog = s.slog := rfl
@[simp] theorem setPier_host (s : State) (p : Nat) (v : Pier) : (setPier s p v).host = s.host := rfl
@[simp] theorem setPier_cfg (s : State) (p : Nat) (v : Pier) : (setPier s p v).cfg = s.cfg := rfl
@[simp] theorem setPier_tiles (s : State) (p : Nat) (v : Pier) : (setPier s p v).tiles = s.tiles := rfl
@[simp] theorem setPier_tensors (s : State) (p : Nat) (v : Pier) : (setPier s p v).tensors = s.tensors := rfl
@[simp] theorem setPier_chans (s : State) (p : Nat) (v : Pier) : (setPier s p v).chans = s.chans := rfl
@[simp] theorem setPier_stackTab (s : State) (p : Nat) (v : Pier) : (setPier s p v).stackTab = s.stackTab := rfl
@[simp] theorem setPier_rmap (s : State) (p : Nat) (v : Pier) : (setPier s p v).rmap = s.rmap := rfl
@[simp] theorem setPier_bud (s : State) (p : Nat) (v : Pier) : (setPier s p v).bud = s.bud := rfl
@[simp] theorem setPier_cbl (s : State) (p : Nat) (v : Pier) : (setPier s p v).cbl = s.cbl := rfl
@[simp] theorem setPier_stp (s : State) (p : Nat) (v : Pier) : (setPier s p v).stp = s.stp := rfl
@[simp] theorem setPier_tm (s : State) (p : Nat) (v : Pier) : (setPier s p v).tm = s.tm := rfl
@[simp] theorem setPier_fab (s : State) (p : Nat) (v : Pier) : (setPier s p v).fab = s.fab := rfl
@[simp] theorem setPier_npx (s : State) (p : Nat) (v : Pier) : (setPier s p v).npx = s.npx := rfl
@[simp] theorem setPier_ck (s : State) (p : Nat) (v : Pier) : (setPier s p v).ck = s.ck := rfl
@[simp] theorem setPier_sec (s : State) (p : Nat) (v : Pier) : (setPier s p v).sec = s.sec := rfl
@[simp] theorem setPier_pwr (s : State) (p : Nat) (v : Pier) : (setPier s p v).pwr = s.pwr := rfl

/-! ## `setShard` -/

@[simp] theorem setShard_pending (k i : Nat) (sh : Shard) (s : State) : (setShard k i sh s).pending = s.pending := rfl
@[simp] theorem setShard_mem (k i : Nat) (sh : Shard) (s : State) : (setShard k i sh s).mem = s.mem := rfl
@[simp] theorem setShard_poison (k i : Nat) (sh : Shard) (s : State) : (setShard k i sh s).poison = s.poison := rfl
@[simp] theorem setShard_upset (k i : Nat) (sh : Shard) (s : State) : (setShard k i sh s).upset = s.upset := rfl
@[simp] theorem setShard_openBlk (k i : Nat) (sh : Shard) (s : State) : (setShard k i sh s).openBlk = s.openBlk := rfl
@[simp] theorem setShard_regs (k i : Nat) (sh : Shard) (s : State) : (setShard k i sh s).regs = s.regs := rfl
@[simp] theorem setShard_ctr (k i : Nat) (sh : Shard) (s : State) : (setShard k i sh s).ctr = s.ctr := rfl
@[simp] theorem setShard_latch (k i : Nat) (sh : Shard) (s : State) : (setShard k i sh s).latch = s.latch := rfl
@[simp] theorem setShard_glatch (k i : Nat) (sh : Shard) (s : State) : (setShard k i sh s).glatch = s.glatch := rfl
@[simp] theorem setShard_course (k i : Nat) (sh : Shard) (s : State) : (setShard k i sh s).course = s.course := rfl
@[simp] theorem setShard_out (k i : Nat) (sh : Shard) (s : State) : (setShard k i sh s).out = s.out := rfl
@[simp] theorem setShard_free (k i : Nat) (sh : Shard) (s : State) : (setShard k i sh s).free = s.free := rfl
@[simp] theorem setShard_slog (k i : Nat) (sh : Shard) (s : State) : (setShard k i sh s).slog = s.slog := rfl
@[simp] theorem setShard_host (k i : Nat) (sh : Shard) (s : State) : (setShard k i sh s).host = s.host := rfl
@[simp] theorem setShard_cfg (k i : Nat) (sh : Shard) (s : State) : (setShard k i sh s).cfg = s.cfg := rfl
@[simp] theorem setShard_tiles (k i : Nat) (sh : Shard) (s : State) : (setShard k i sh s).tiles = s.tiles := rfl
@[simp] theorem setShard_tensors (k i : Nat) (sh : Shard) (s : State) : (setShard k i sh s).tensors = s.tensors := rfl
@[simp] theorem setShard_chans (k i : Nat) (sh : Shard) (s : State) : (setShard k i sh s).chans = s.chans := rfl
@[simp] theorem setShard_stackTab (k i : Nat) (sh : Shard) (s : State) : (setShard k i sh s).stackTab = s.stackTab := rfl
@[simp] theorem setShard_piers (k i : Nat) (sh : Shard) (s : State) : (setShard k i sh s).piers = s.piers := rfl
@[simp] theorem setShard_rmap (k i : Nat) (sh : Shard) (s : State) : (setShard k i sh s).rmap = s.rmap := rfl
@[simp] theorem setShard_bud (k i : Nat) (sh : Shard) (s : State) : (setShard k i sh s).bud = s.bud := rfl
@[simp] theorem setShard_stp (k i : Nat) (sh : Shard) (s : State) : (setShard k i sh s).stp = s.stp := rfl
@[simp] theorem setShard_tm (k i : Nat) (sh : Shard) (s : State) : (setShard k i sh s).tm = s.tm := rfl
@[simp] theorem setShard_fab (k i : Nat) (sh : Shard) (s : State) : (setShard k i sh s).fab = s.fab := rfl
@[simp] theorem setShard_npx (k i : Nat) (sh : Shard) (s : State) : (setShard k i sh s).npx = s.npx := rfl
@[simp] theorem setShard_ck (k i : Nat) (sh : Shard) (s : State) : (setShard k i sh s).ck = s.ck := rfl
@[simp] theorem setShard_sec (k i : Nat) (sh : Shard) (s : State) : (setShard k i sh s).sec = s.sec := rfl
@[simp] theorem setShard_pwr (k i : Nat) (sh : Shard) (s : State) : (setShard k i sh s).pwr = s.pwr := rfl

/-! ## `setStp` -/

@[simp] theorem setStp_pending (f : StepCtl → StepCtl) (s : State) : (setStp f s).pending = s.pending := rfl
@[simp] theorem setStp_mem (f : StepCtl → StepCtl) (s : State) : (setStp f s).mem = s.mem := rfl
@[simp] theorem setStp_poison (f : StepCtl → StepCtl) (s : State) : (setStp f s).poison = s.poison := rfl
@[simp] theorem setStp_upset (f : StepCtl → StepCtl) (s : State) : (setStp f s).upset = s.upset := rfl
@[simp] theorem setStp_openBlk (f : StepCtl → StepCtl) (s : State) : (setStp f s).openBlk = s.openBlk := rfl
@[simp] theorem setStp_regs (f : StepCtl → StepCtl) (s : State) : (setStp f s).regs = s.regs := rfl
@[simp] theorem setStp_ctr (f : StepCtl → StepCtl) (s : State) : (setStp f s).ctr = s.ctr := rfl
@[simp] theorem setStp_latch (f : StepCtl → StepCtl) (s : State) : (setStp f s).latch = s.latch := rfl
@[simp] theorem setStp_glatch (f : StepCtl → StepCtl) (s : State) : (setStp f s).glatch = s.glatch := rfl
@[simp] theorem setStp_course (f : StepCtl → StepCtl) (s : State) : (setStp f s).course = s.course := rfl
@[simp] theorem setStp_out (f : StepCtl → StepCtl) (s : State) : (setStp f s).out = s.out := rfl
@[simp] theorem setStp_free (f : StepCtl → StepCtl) (s : State) : (setStp f s).free = s.free := rfl
@[simp] theorem setStp_slog (f : StepCtl → StepCtl) (s : State) : (setStp f s).slog = s.slog := rfl
@[simp] theorem setStp_host (f : StepCtl → StepCtl) (s : State) : (setStp f s).host = s.host := rfl
@[simp] theorem setStp_cfg (f : StepCtl → StepCtl) (s : State) : (setStp f s).cfg = s.cfg := rfl
@[simp] theorem setStp_tiles (f : StepCtl → StepCtl) (s : State) : (setStp f s).tiles = s.tiles := rfl
@[simp] theorem setStp_tensors (f : StepCtl → StepCtl) (s : State) : (setStp f s).tensors = s.tensors := rfl
@[simp] theorem setStp_chans (f : StepCtl → StepCtl) (s : State) : (setStp f s).chans = s.chans := rfl
@[simp] theorem setStp_stackTab (f : StepCtl → StepCtl) (s : State) : (setStp f s).stackTab = s.stackTab := rfl
@[simp] theorem setStp_piers (f : StepCtl → StepCtl) (s : State) : (setStp f s).piers = s.piers := rfl
@[simp] theorem setStp_rmap (f : StepCtl → StepCtl) (s : State) : (setStp f s).rmap = s.rmap := rfl
@[simp] theorem setStp_bud (f : StepCtl → StepCtl) (s : State) : (setStp f s).bud = s.bud := rfl
@[simp] theorem setStp_cbl (f : StepCtl → StepCtl) (s : State) : (setStp f s).cbl = s.cbl := rfl
@[simp] theorem setStp_tm (f : StepCtl → StepCtl) (s : State) : (setStp f s).tm = s.tm := rfl
@[simp] theorem setStp_fab (f : StepCtl → StepCtl) (s : State) : (setStp f s).fab = s.fab := rfl
@[simp] theorem setStp_npx (f : StepCtl → StepCtl) (s : State) : (setStp f s).npx = s.npx := rfl
@[simp] theorem setStp_ck (f : StepCtl → StepCtl) (s : State) : (setStp f s).ck = s.ck := rfl
@[simp] theorem setStp_sec (f : StepCtl → StepCtl) (s : State) : (setStp f s).sec = s.sec := rfl
@[simp] theorem setStp_pwr (f : StepCtl → StepCtl) (s : State) : (setStp f s).pwr = s.pwr := rfl

/-! ## `setPath` -/

@[simp] theorem setPath_pending (p : Nat) (v : TimePath) (s : State) : (setPath p v s).pending = s.pending := rfl
@[simp] theorem setPath_mem (p : Nat) (v : TimePath) (s : State) : (setPath p v s).mem = s.mem := rfl
@[simp] theorem setPath_poison (p : Nat) (v : TimePath) (s : State) : (setPath p v s).poison = s.poison := rfl
@[simp] theorem setPath_upset (p : Nat) (v : TimePath) (s : State) : (setPath p v s).upset = s.upset := rfl
@[simp] theorem setPath_openBlk (p : Nat) (v : TimePath) (s : State) : (setPath p v s).openBlk = s.openBlk := rfl
@[simp] theorem setPath_regs (p : Nat) (v : TimePath) (s : State) : (setPath p v s).regs = s.regs := rfl
@[simp] theorem setPath_ctr (p : Nat) (v : TimePath) (s : State) : (setPath p v s).ctr = s.ctr := rfl
@[simp] theorem setPath_latch (p : Nat) (v : TimePath) (s : State) : (setPath p v s).latch = s.latch := rfl
@[simp] theorem setPath_glatch (p : Nat) (v : TimePath) (s : State) : (setPath p v s).glatch = s.glatch := rfl
@[simp] theorem setPath_course (p : Nat) (v : TimePath) (s : State) : (setPath p v s).course = s.course := rfl
@[simp] theorem setPath_out (p : Nat) (v : TimePath) (s : State) : (setPath p v s).out = s.out := rfl
@[simp] theorem setPath_free (p : Nat) (v : TimePath) (s : State) : (setPath p v s).free = s.free := rfl
@[simp] theorem setPath_slog (p : Nat) (v : TimePath) (s : State) : (setPath p v s).slog = s.slog := rfl
@[simp] theorem setPath_host (p : Nat) (v : TimePath) (s : State) : (setPath p v s).host = s.host := rfl
@[simp] theorem setPath_cfg (p : Nat) (v : TimePath) (s : State) : (setPath p v s).cfg = s.cfg := rfl
@[simp] theorem setPath_tiles (p : Nat) (v : TimePath) (s : State) : (setPath p v s).tiles = s.tiles := rfl
@[simp] theorem setPath_tensors (p : Nat) (v : TimePath) (s : State) : (setPath p v s).tensors = s.tensors := rfl
@[simp] theorem setPath_chans (p : Nat) (v : TimePath) (s : State) : (setPath p v s).chans = s.chans := rfl
@[simp] theorem setPath_stackTab (p : Nat) (v : TimePath) (s : State) : (setPath p v s).stackTab = s.stackTab := rfl
@[simp] theorem setPath_piers (p : Nat) (v : TimePath) (s : State) : (setPath p v s).piers = s.piers := rfl
@[simp] theorem setPath_rmap (p : Nat) (v : TimePath) (s : State) : (setPath p v s).rmap = s.rmap := rfl
@[simp] theorem setPath_bud (p : Nat) (v : TimePath) (s : State) : (setPath p v s).bud = s.bud := rfl
@[simp] theorem setPath_cbl (p : Nat) (v : TimePath) (s : State) : (setPath p v s).cbl = s.cbl := rfl
@[simp] theorem setPath_stp (p : Nat) (v : TimePath) (s : State) : (setPath p v s).stp = s.stp := rfl
@[simp] theorem setPath_fab (p : Nat) (v : TimePath) (s : State) : (setPath p v s).fab = s.fab := rfl
@[simp] theorem setPath_npx (p : Nat) (v : TimePath) (s : State) : (setPath p v s).npx = s.npx := rfl
@[simp] theorem setPath_ck (p : Nat) (v : TimePath) (s : State) : (setPath p v s).ck = s.ck := rfl
@[simp] theorem setPath_sec (p : Nat) (v : TimePath) (s : State) : (setPath p v s).sec = s.sec := rfl
@[simp] theorem setPath_pwr (p : Nat) (v : TimePath) (s : State) : (setPath p v s).pwr = s.pwr := rfl

/-! ## `setPort` -/

@[simp] theorem setPort_pending (s : State) (p : Nat) (v : Port) : (setPort s p v).pending = s.pending := rfl
@[simp] theorem setPort_mem (s : State) (p : Nat) (v : Port) : (setPort s p v).mem = s.mem := rfl
@[simp] theorem setPort_poison (s : State) (p : Nat) (v : Port) : (setPort s p v).poison = s.poison := rfl
@[simp] theorem setPort_upset (s : State) (p : Nat) (v : Port) : (setPort s p v).upset = s.upset := rfl
@[simp] theorem setPort_openBlk (s : State) (p : Nat) (v : Port) : (setPort s p v).openBlk = s.openBlk := rfl
@[simp] theorem setPort_regs (s : State) (p : Nat) (v : Port) : (setPort s p v).regs = s.regs := rfl
@[simp] theorem setPort_ctr (s : State) (p : Nat) (v : Port) : (setPort s p v).ctr = s.ctr := rfl
@[simp] theorem setPort_latch (s : State) (p : Nat) (v : Port) : (setPort s p v).latch = s.latch := rfl
@[simp] theorem setPort_glatch (s : State) (p : Nat) (v : Port) : (setPort s p v).glatch = s.glatch := rfl
@[simp] theorem setPort_course (s : State) (p : Nat) (v : Port) : (setPort s p v).course = s.course := rfl
@[simp] theorem setPort_out (s : State) (p : Nat) (v : Port) : (setPort s p v).out = s.out := rfl
@[simp] theorem setPort_free (s : State) (p : Nat) (v : Port) : (setPort s p v).free = s.free := rfl
@[simp] theorem setPort_slog (s : State) (p : Nat) (v : Port) : (setPort s p v).slog = s.slog := rfl
@[simp] theorem setPort_host (s : State) (p : Nat) (v : Port) : (setPort s p v).host = s.host := rfl
@[simp] theorem setPort_cfg (s : State) (p : Nat) (v : Port) : (setPort s p v).cfg = s.cfg := rfl
@[simp] theorem setPort_tiles (s : State) (p : Nat) (v : Port) : (setPort s p v).tiles = s.tiles := rfl
@[simp] theorem setPort_tensors (s : State) (p : Nat) (v : Port) : (setPort s p v).tensors = s.tensors := rfl
@[simp] theorem setPort_chans (s : State) (p : Nat) (v : Port) : (setPort s p v).chans = s.chans := rfl
@[simp] theorem setPort_stackTab (s : State) (p : Nat) (v : Port) : (setPort s p v).stackTab = s.stackTab := rfl
@[simp] theorem setPort_piers (s : State) (p : Nat) (v : Port) : (setPort s p v).piers = s.piers := rfl
@[simp] theorem setPort_rmap (s : State) (p : Nat) (v : Port) : (setPort s p v).rmap = s.rmap := rfl
@[simp] theorem setPort_bud (s : State) (p : Nat) (v : Port) : (setPort s p v).bud = s.bud := rfl
@[simp] theorem setPort_cbl (s : State) (p : Nat) (v : Port) : (setPort s p v).cbl = s.cbl := rfl
@[simp] theorem setPort_stp (s : State) (p : Nat) (v : Port) : (setPort s p v).stp = s.stp := rfl
@[simp] theorem setPort_tm (s : State) (p : Nat) (v : Port) : (setPort s p v).tm = s.tm := rfl
@[simp] theorem setPort_npx (s : State) (p : Nat) (v : Port) : (setPort s p v).npx = s.npx := rfl
@[simp] theorem setPort_ck (s : State) (p : Nat) (v : Port) : (setPort s p v).ck = s.ck := rfl
@[simp] theorem setPort_sec (s : State) (p : Nat) (v : Port) : (setPort s p v).sec = s.sec := rfl
@[simp] theorem setPort_pwr (s : State) (p : Nat) (v : Port) : (setPort s p v).pwr = s.pwr := rfl

/-! ## `setTx` -/

@[simp] theorem setTx_pending (s : State) (d q : Nat) (f : Option TxFlow) : (setTx s d q f).pending = s.pending := rfl
@[simp] theorem setTx_mem (s : State) (d q : Nat) (f : Option TxFlow) : (setTx s d q f).mem = s.mem := rfl
@[simp] theorem setTx_poison (s : State) (d q : Nat) (f : Option TxFlow) : (setTx s d q f).poison = s.poison := rfl
@[simp] theorem setTx_upset (s : State) (d q : Nat) (f : Option TxFlow) : (setTx s d q f).upset = s.upset := rfl
@[simp] theorem setTx_openBlk (s : State) (d q : Nat) (f : Option TxFlow) : (setTx s d q f).openBlk = s.openBlk := rfl
@[simp] theorem setTx_regs (s : State) (d q : Nat) (f : Option TxFlow) : (setTx s d q f).regs = s.regs := rfl
@[simp] theorem setTx_ctr (s : State) (d q : Nat) (f : Option TxFlow) : (setTx s d q f).ctr = s.ctr := rfl
@[simp] theorem setTx_latch (s : State) (d q : Nat) (f : Option TxFlow) : (setTx s d q f).latch = s.latch := rfl
@[simp] theorem setTx_glatch (s : State) (d q : Nat) (f : Option TxFlow) : (setTx s d q f).glatch = s.glatch := rfl
@[simp] theorem setTx_course (s : State) (d q : Nat) (f : Option TxFlow) : (setTx s d q f).course = s.course := rfl
@[simp] theorem setTx_out (s : State) (d q : Nat) (f : Option TxFlow) : (setTx s d q f).out = s.out := rfl
@[simp] theorem setTx_free (s : State) (d q : Nat) (f : Option TxFlow) : (setTx s d q f).free = s.free := rfl
@[simp] theorem setTx_slog (s : State) (d q : Nat) (f : Option TxFlow) : (setTx s d q f).slog = s.slog := rfl
@[simp] theorem setTx_host (s : State) (d q : Nat) (f : Option TxFlow) : (setTx s d q f).host = s.host := rfl
@[simp] theorem setTx_cfg (s : State) (d q : Nat) (f : Option TxFlow) : (setTx s d q f).cfg = s.cfg := rfl
@[simp] theorem setTx_tiles (s : State) (d q : Nat) (f : Option TxFlow) : (setTx s d q f).tiles = s.tiles := rfl
@[simp] theorem setTx_tensors (s : State) (d q : Nat) (f : Option TxFlow) : (setTx s d q f).tensors = s.tensors := rfl
@[simp] theorem setTx_chans (s : State) (d q : Nat) (f : Option TxFlow) : (setTx s d q f).chans = s.chans := rfl
@[simp] theorem setTx_stackTab (s : State) (d q : Nat) (f : Option TxFlow) : (setTx s d q f).stackTab = s.stackTab := rfl
@[simp] theorem setTx_piers (s : State) (d q : Nat) (f : Option TxFlow) : (setTx s d q f).piers = s.piers := rfl
@[simp] theorem setTx_rmap (s : State) (d q : Nat) (f : Option TxFlow) : (setTx s d q f).rmap = s.rmap := rfl
@[simp] theorem setTx_bud (s : State) (d q : Nat) (f : Option TxFlow) : (setTx s d q f).bud = s.bud := rfl
@[simp] theorem setTx_cbl (s : State) (d q : Nat) (f : Option TxFlow) : (setTx s d q f).cbl = s.cbl := rfl
@[simp] theorem setTx_stp (s : State) (d q : Nat) (f : Option TxFlow) : (setTx s d q f).stp = s.stp := rfl
@[simp] theorem setTx_tm (s : State) (d q : Nat) (f : Option TxFlow) : (setTx s d q f).tm = s.tm := rfl
@[simp] theorem setTx_npx (s : State) (d q : Nat) (f : Option TxFlow) : (setTx s d q f).npx = s.npx := rfl
@[simp] theorem setTx_ck (s : State) (d q : Nat) (f : Option TxFlow) : (setTx s d q f).ck = s.ck := rfl
@[simp] theorem setTx_sec (s : State) (d q : Nat) (f : Option TxFlow) : (setTx s d q f).sec = s.sec := rfl
@[simp] theorem setTx_pwr (s : State) (d q : Nat) (f : Option TxFlow) : (setTx s d q f).pwr = s.pwr := rfl

/-! ## `setRx` -/

@[simp] theorem setRx_pending (s : State) (d q : Nat) (f : Option RxFlow) : (setRx s d q f).pending = s.pending := rfl
@[simp] theorem setRx_mem (s : State) (d q : Nat) (f : Option RxFlow) : (setRx s d q f).mem = s.mem := rfl
@[simp] theorem setRx_poison (s : State) (d q : Nat) (f : Option RxFlow) : (setRx s d q f).poison = s.poison := rfl
@[simp] theorem setRx_upset (s : State) (d q : Nat) (f : Option RxFlow) : (setRx s d q f).upset = s.upset := rfl
@[simp] theorem setRx_openBlk (s : State) (d q : Nat) (f : Option RxFlow) : (setRx s d q f).openBlk = s.openBlk := rfl
@[simp] theorem setRx_regs (s : State) (d q : Nat) (f : Option RxFlow) : (setRx s d q f).regs = s.regs := rfl
@[simp] theorem setRx_ctr (s : State) (d q : Nat) (f : Option RxFlow) : (setRx s d q f).ctr = s.ctr := rfl
@[simp] theorem setRx_latch (s : State) (d q : Nat) (f : Option RxFlow) : (setRx s d q f).latch = s.latch := rfl
@[simp] theorem setRx_glatch (s : State) (d q : Nat) (f : Option RxFlow) : (setRx s d q f).glatch = s.glatch := rfl
@[simp] theorem setRx_course (s : State) (d q : Nat) (f : Option RxFlow) : (setRx s d q f).course = s.course := rfl
@[simp] theorem setRx_out (s : State) (d q : Nat) (f : Option RxFlow) : (setRx s d q f).out = s.out := rfl
@[simp] theorem setRx_free (s : State) (d q : Nat) (f : Option RxFlow) : (setRx s d q f).free = s.free := rfl
@[simp] theorem setRx_slog (s : State) (d q : Nat) (f : Option RxFlow) : (setRx s d q f).slog = s.slog := rfl
@[simp] theorem setRx_host (s : State) (d q : Nat) (f : Option RxFlow) : (setRx s d q f).host = s.host := rfl
@[simp] theorem setRx_cfg (s : State) (d q : Nat) (f : Option RxFlow) : (setRx s d q f).cfg = s.cfg := rfl
@[simp] theorem setRx_tiles (s : State) (d q : Nat) (f : Option RxFlow) : (setRx s d q f).tiles = s.tiles := rfl
@[simp] theorem setRx_tensors (s : State) (d q : Nat) (f : Option RxFlow) : (setRx s d q f).tensors = s.tensors := rfl
@[simp] theorem setRx_chans (s : State) (d q : Nat) (f : Option RxFlow) : (setRx s d q f).chans = s.chans := rfl
@[simp] theorem setRx_stackTab (s : State) (d q : Nat) (f : Option RxFlow) : (setRx s d q f).stackTab = s.stackTab := rfl
@[simp] theorem setRx_piers (s : State) (d q : Nat) (f : Option RxFlow) : (setRx s d q f).piers = s.piers := rfl
@[simp] theorem setRx_rmap (s : State) (d q : Nat) (f : Option RxFlow) : (setRx s d q f).rmap = s.rmap := rfl
@[simp] theorem setRx_bud (s : State) (d q : Nat) (f : Option RxFlow) : (setRx s d q f).bud = s.bud := rfl
@[simp] theorem setRx_cbl (s : State) (d q : Nat) (f : Option RxFlow) : (setRx s d q f).cbl = s.cbl := rfl
@[simp] theorem setRx_stp (s : State) (d q : Nat) (f : Option RxFlow) : (setRx s d q f).stp = s.stp := rfl
@[simp] theorem setRx_tm (s : State) (d q : Nat) (f : Option RxFlow) : (setRx s d q f).tm = s.tm := rfl
@[simp] theorem setRx_npx (s : State) (d q : Nat) (f : Option RxFlow) : (setRx s d q f).npx = s.npx := rfl
@[simp] theorem setRx_ck (s : State) (d q : Nat) (f : Option RxFlow) : (setRx s d q f).ck = s.ck := rfl
@[simp] theorem setRx_sec (s : State) (d q : Nat) (f : Option RxFlow) : (setRx s d q f).sec = s.sec := rfl
@[simp] theorem setRx_pwr (s : State) (d q : Nat) (f : Option RxFlow) : (setRx s d q f).pwr = s.pwr := rfl

/-! ## `setHandle` -/

@[simp] theorem setHandle_pending (n : Nat) (h : Option Handle) (s : State) : (setHandle n h s).pending = s.pending := rfl
@[simp] theorem setHandle_mem (n : Nat) (h : Option Handle) (s : State) : (setHandle n h s).mem = s.mem := rfl
@[simp] theorem setHandle_poison (n : Nat) (h : Option Handle) (s : State) : (setHandle n h s).poison = s.poison := rfl
@[simp] theorem setHandle_upset (n : Nat) (h : Option Handle) (s : State) : (setHandle n h s).upset = s.upset := rfl
@[simp] theorem setHandle_openBlk (n : Nat) (h : Option Handle) (s : State) : (setHandle n h s).openBlk = s.openBlk := rfl
@[simp] theorem setHandle_regs (n : Nat) (h : Option Handle) (s : State) : (setHandle n h s).regs = s.regs := rfl
@[simp] theorem setHandle_ctr (n : Nat) (h : Option Handle) (s : State) : (setHandle n h s).ctr = s.ctr := rfl
@[simp] theorem setHandle_latch (n : Nat) (h : Option Handle) (s : State) : (setHandle n h s).latch = s.latch := rfl
@[simp] theorem setHandle_glatch (n : Nat) (h : Option Handle) (s : State) : (setHandle n h s).glatch = s.glatch := rfl
@[simp] theorem setHandle_course (n : Nat) (h : Option Handle) (s : State) : (setHandle n h s).course = s.course := rfl
@[simp] theorem setHandle_out (n : Nat) (h : Option Handle) (s : State) : (setHandle n h s).out = s.out := rfl
@[simp] theorem setHandle_free (n : Nat) (h : Option Handle) (s : State) : (setHandle n h s).free = s.free := rfl
@[simp] theorem setHandle_slog (n : Nat) (h : Option Handle) (s : State) : (setHandle n h s).slog = s.slog := rfl
@[simp] theorem setHandle_host (n : Nat) (h : Option Handle) (s : State) : (setHandle n h s).host = s.host := rfl
@[simp] theorem setHandle_cfg (n : Nat) (h : Option Handle) (s : State) : (setHandle n h s).cfg = s.cfg := rfl
@[simp] theorem setHandle_tiles (n : Nat) (h : Option Handle) (s : State) : (setHandle n h s).tiles = s.tiles := rfl
@[simp] theorem setHandle_tensors (n : Nat) (h : Option Handle) (s : State) : (setHandle n h s).tensors = s.tensors := rfl
@[simp] theorem setHandle_chans (n : Nat) (h : Option Handle) (s : State) : (setHandle n h s).chans = s.chans := rfl
@[simp] theorem setHandle_stackTab (n : Nat) (h : Option Handle) (s : State) : (setHandle n h s).stackTab = s.stackTab := rfl
@[simp] theorem setHandle_piers (n : Nat) (h : Option Handle) (s : State) : (setHandle n h s).piers = s.piers := rfl
@[simp] theorem setHandle_rmap (n : Nat) (h : Option Handle) (s : State) : (setHandle n h s).rmap = s.rmap := rfl
@[simp] theorem setHandle_bud (n : Nat) (h : Option Handle) (s : State) : (setHandle n h s).bud = s.bud := rfl
@[simp] theorem setHandle_cbl (n : Nat) (h : Option Handle) (s : State) : (setHandle n h s).cbl = s.cbl := rfl
@[simp] theorem setHandle_stp (n : Nat) (h : Option Handle) (s : State) : (setHandle n h s).stp = s.stp := rfl
@[simp] theorem setHandle_tm (n : Nat) (h : Option Handle) (s : State) : (setHandle n h s).tm = s.tm := rfl
@[simp] theorem setHandle_npx (n : Nat) (h : Option Handle) (s : State) : (setHandle n h s).npx = s.npx := rfl
@[simp] theorem setHandle_ck (n : Nat) (h : Option Handle) (s : State) : (setHandle n h s).ck = s.ck := rfl
@[simp] theorem setHandle_sec (n : Nat) (h : Option Handle) (s : State) : (setHandle n h s).sec = s.sec := rfl
@[simp] theorem setHandle_pwr (n : Nat) (h : Option Handle) (s : State) : (setHandle n h s).pwr = s.pwr := rfl

/-! ## `setNpx` -/

@[simp] theorem setNpx_pending (f : Npx → Npx) (s : State) : (setNpx f s).pending = s.pending := rfl
@[simp] theorem setNpx_mem (f : Npx → Npx) (s : State) : (setNpx f s).mem = s.mem := rfl
@[simp] theorem setNpx_poison (f : Npx → Npx) (s : State) : (setNpx f s).poison = s.poison := rfl
@[simp] theorem setNpx_upset (f : Npx → Npx) (s : State) : (setNpx f s).upset = s.upset := rfl
@[simp] theorem setNpx_openBlk (f : Npx → Npx) (s : State) : (setNpx f s).openBlk = s.openBlk := rfl
@[simp] theorem setNpx_regs (f : Npx → Npx) (s : State) : (setNpx f s).regs = s.regs := rfl
@[simp] theorem setNpx_ctr (f : Npx → Npx) (s : State) : (setNpx f s).ctr = s.ctr := rfl
@[simp] theorem setNpx_latch (f : Npx → Npx) (s : State) : (setNpx f s).latch = s.latch := rfl
@[simp] theorem setNpx_glatch (f : Npx → Npx) (s : State) : (setNpx f s).glatch = s.glatch := rfl
@[simp] theorem setNpx_course (f : Npx → Npx) (s : State) : (setNpx f s).course = s.course := rfl
@[simp] theorem setNpx_out (f : Npx → Npx) (s : State) : (setNpx f s).out = s.out := rfl
@[simp] theorem setNpx_free (f : Npx → Npx) (s : State) : (setNpx f s).free = s.free := rfl
@[simp] theorem setNpx_slog (f : Npx → Npx) (s : State) : (setNpx f s).slog = s.slog := rfl
@[simp] theorem setNpx_host (f : Npx → Npx) (s : State) : (setNpx f s).host = s.host := rfl
@[simp] theorem setNpx_cfg (f : Npx → Npx) (s : State) : (setNpx f s).cfg = s.cfg := rfl
@[simp] theorem setNpx_tiles (f : Npx → Npx) (s : State) : (setNpx f s).tiles = s.tiles := rfl
@[simp] theorem setNpx_tensors (f : Npx → Npx) (s : State) : (setNpx f s).tensors = s.tensors := rfl
@[simp] theorem setNpx_chans (f : Npx → Npx) (s : State) : (setNpx f s).chans = s.chans := rfl
@[simp] theorem setNpx_stackTab (f : Npx → Npx) (s : State) : (setNpx f s).stackTab = s.stackTab := rfl
@[simp] theorem setNpx_piers (f : Npx → Npx) (s : State) : (setNpx f s).piers = s.piers := rfl
@[simp] theorem setNpx_rmap (f : Npx → Npx) (s : State) : (setNpx f s).rmap = s.rmap := rfl
@[simp] theorem setNpx_bud (f : Npx → Npx) (s : State) : (setNpx f s).bud = s.bud := rfl
@[simp] theorem setNpx_cbl (f : Npx → Npx) (s : State) : (setNpx f s).cbl = s.cbl := rfl
@[simp] theorem setNpx_stp (f : Npx → Npx) (s : State) : (setNpx f s).stp = s.stp := rfl
@[simp] theorem setNpx_tm (f : Npx → Npx) (s : State) : (setNpx f s).tm = s.tm := rfl
@[simp] theorem setNpx_fab (f : Npx → Npx) (s : State) : (setNpx f s).fab = s.fab := rfl
@[simp] theorem setNpx_ck (f : Npx → Npx) (s : State) : (setNpx f s).ck = s.ck := rfl
@[simp] theorem setNpx_sec (f : Npx → Npx) (s : State) : (setNpx f s).sec = s.sec := rfl
@[simp] theorem setNpx_pwr (f : Npx → Npx) (s : State) : (setNpx f s).pwr = s.pwr := rfl

/-! ## `setPwr` -/

@[simp] theorem setPwr_pending (f : Pwr → Pwr) (s : State) : (setPwr f s).pending = s.pending := rfl
@[simp] theorem setPwr_mem (f : Pwr → Pwr) (s : State) : (setPwr f s).mem = s.mem := rfl
@[simp] theorem setPwr_poison (f : Pwr → Pwr) (s : State) : (setPwr f s).poison = s.poison := rfl
@[simp] theorem setPwr_upset (f : Pwr → Pwr) (s : State) : (setPwr f s).upset = s.upset := rfl
@[simp] theorem setPwr_openBlk (f : Pwr → Pwr) (s : State) : (setPwr f s).openBlk = s.openBlk := rfl
@[simp] theorem setPwr_regs (f : Pwr → Pwr) (s : State) : (setPwr f s).regs = s.regs := rfl
@[simp] theorem setPwr_ctr (f : Pwr → Pwr) (s : State) : (setPwr f s).ctr = s.ctr := rfl
@[simp] theorem setPwr_latch (f : Pwr → Pwr) (s : State) : (setPwr f s).latch = s.latch := rfl
@[simp] theorem setPwr_glatch (f : Pwr → Pwr) (s : State) : (setPwr f s).glatch = s.glatch := rfl
@[simp] theorem setPwr_course (f : Pwr → Pwr) (s : State) : (setPwr f s).course = s.course := rfl
@[simp] theorem setPwr_out (f : Pwr → Pwr) (s : State) : (setPwr f s).out = s.out := rfl
@[simp] theorem setPwr_free (f : Pwr → Pwr) (s : State) : (setPwr f s).free = s.free := rfl
@[simp] theorem setPwr_slog (f : Pwr → Pwr) (s : State) : (setPwr f s).slog = s.slog := rfl
@[simp] theorem setPwr_host (f : Pwr → Pwr) (s : State) : (setPwr f s).host = s.host := rfl
@[simp] theorem setPwr_cfg (f : Pwr → Pwr) (s : State) : (setPwr f s).cfg = s.cfg := rfl
@[simp] theorem setPwr_tiles (f : Pwr → Pwr) (s : State) : (setPwr f s).tiles = s.tiles := rfl
@[simp] theorem setPwr_tensors (f : Pwr → Pwr) (s : State) : (setPwr f s).tensors = s.tensors := rfl
@[simp] theorem setPwr_chans (f : Pwr → Pwr) (s : State) : (setPwr f s).chans = s.chans := rfl
@[simp] theorem setPwr_stackTab (f : Pwr → Pwr) (s : State) : (setPwr f s).stackTab = s.stackTab := rfl
@[simp] theorem setPwr_piers (f : Pwr → Pwr) (s : State) : (setPwr f s).piers = s.piers := rfl
@[simp] theorem setPwr_rmap (f : Pwr → Pwr) (s : State) : (setPwr f s).rmap = s.rmap := rfl
@[simp] theorem setPwr_bud (f : Pwr → Pwr) (s : State) : (setPwr f s).bud = s.bud := rfl
@[simp] theorem setPwr_cbl (f : Pwr → Pwr) (s : State) : (setPwr f s).cbl = s.cbl := rfl
@[simp] theorem setPwr_stp (f : Pwr → Pwr) (s : State) : (setPwr f s).stp = s.stp := rfl
@[simp] theorem setPwr_tm (f : Pwr → Pwr) (s : State) : (setPwr f s).tm = s.tm := rfl
@[simp] theorem setPwr_fab (f : Pwr → Pwr) (s : State) : (setPwr f s).fab = s.fab := rfl
@[simp] theorem setPwr_npx (f : Pwr → Pwr) (s : State) : (setPwr f s).npx = s.npx := rfl
@[simp] theorem setPwr_ck (f : Pwr → Pwr) (s : State) : (setPwr f s).ck = s.ck := rfl
@[simp] theorem setPwr_sec (f : Pwr → Pwr) (s : State) : (setPwr f s).sec = s.sec := rfl

/-! ## `setCtx` -/

@[simp] theorem setCtx_pending (c : Nat) (v : Option CipCtx) (s : State) : (setCtx c v s).pending = s.pending := rfl
@[simp] theorem setCtx_mem (c : Nat) (v : Option CipCtx) (s : State) : (setCtx c v s).mem = s.mem := rfl
@[simp] theorem setCtx_poison (c : Nat) (v : Option CipCtx) (s : State) : (setCtx c v s).poison = s.poison := rfl
@[simp] theorem setCtx_upset (c : Nat) (v : Option CipCtx) (s : State) : (setCtx c v s).upset = s.upset := rfl
@[simp] theorem setCtx_openBlk (c : Nat) (v : Option CipCtx) (s : State) : (setCtx c v s).openBlk = s.openBlk := rfl
@[simp] theorem setCtx_regs (c : Nat) (v : Option CipCtx) (s : State) : (setCtx c v s).regs = s.regs := rfl
@[simp] theorem setCtx_ctr (c : Nat) (v : Option CipCtx) (s : State) : (setCtx c v s).ctr = s.ctr := rfl
@[simp] theorem setCtx_latch (c : Nat) (v : Option CipCtx) (s : State) : (setCtx c v s).latch = s.latch := rfl
@[simp] theorem setCtx_glatch (c : Nat) (v : Option CipCtx) (s : State) : (setCtx c v s).glatch = s.glatch := rfl
@[simp] theorem setCtx_course (c : Nat) (v : Option CipCtx) (s : State) : (setCtx c v s).course = s.course := rfl
@[simp] theorem setCtx_out (c : Nat) (v : Option CipCtx) (s : State) : (setCtx c v s).out = s.out := rfl
@[simp] theorem setCtx_free (c : Nat) (v : Option CipCtx) (s : State) : (setCtx c v s).free = s.free := rfl
@[simp] theorem setCtx_slog (c : Nat) (v : Option CipCtx) (s : State) : (setCtx c v s).slog = s.slog := rfl
@[simp] theorem setCtx_host (c : Nat) (v : Option CipCtx) (s : State) : (setCtx c v s).host = s.host := rfl
@[simp] theorem setCtx_cfg (c : Nat) (v : Option CipCtx) (s : State) : (setCtx c v s).cfg = s.cfg := rfl
@[simp] theorem setCtx_tiles (c : Nat) (v : Option CipCtx) (s : State) : (setCtx c v s).tiles = s.tiles := rfl
@[simp] theorem setCtx_tensors (c : Nat) (v : Option CipCtx) (s : State) : (setCtx c v s).tensors = s.tensors := rfl
@[simp] theorem setCtx_chans (c : Nat) (v : Option CipCtx) (s : State) : (setCtx c v s).chans = s.chans := rfl
@[simp] theorem setCtx_stackTab (c : Nat) (v : Option CipCtx) (s : State) : (setCtx c v s).stackTab = s.stackTab := rfl
@[simp] theorem setCtx_piers (c : Nat) (v : Option CipCtx) (s : State) : (setCtx c v s).piers = s.piers := rfl
@[simp] theorem setCtx_rmap (c : Nat) (v : Option CipCtx) (s : State) : (setCtx c v s).rmap = s.rmap := rfl
@[simp] theorem setCtx_bud (c : Nat) (v : Option CipCtx) (s : State) : (setCtx c v s).bud = s.bud := rfl
@[simp] theorem setCtx_cbl (c : Nat) (v : Option CipCtx) (s : State) : (setCtx c v s).cbl = s.cbl := rfl
@[simp] theorem setCtx_stp (c : Nat) (v : Option CipCtx) (s : State) : (setCtx c v s).stp = s.stp := rfl
@[simp] theorem setCtx_tm (c : Nat) (v : Option CipCtx) (s : State) : (setCtx c v s).tm = s.tm := rfl
@[simp] theorem setCtx_fab (c : Nat) (v : Option CipCtx) (s : State) : (setCtx c v s).fab = s.fab := rfl
@[simp] theorem setCtx_npx (c : Nat) (v : Option CipCtx) (s : State) : (setCtx c v s).npx = s.npx := rfl
@[simp] theorem setCtx_ck (c : Nat) (v : Option CipCtx) (s : State) : (setCtx c v s).ck = s.ck := rfl
@[simp] theorem setCtx_pwr (c : Nat) (v : Option CipCtx) (s : State) : (setCtx c v s).pwr = s.pwr := rfl

/-! ## What is read after an update -/

theorem getReg_setReg (s : State) (a v b : Nat) : getReg (setReg s a v) b = if a = b then v else getReg s b := by
  unfold getReg setReg
  rw [sget_sput]
  split
  · subst_vars; rw [Nat.xor_assoc, Nat.xor_self, Nat.xor_zero]
  · rfl

@[simp] theorem getReg_setReg_same (s : State) (a v : Nat) : getReg (setReg s a v) a = v := by
  rw [getReg_setReg]; simp

theorem counter_bumpN (s : State) (a n b : Nat) :
    counter (bumpN s a n) b = if a = b then satAdd 48 (counter s a) n else counter s b := by
  unfold bumpN
  exact sget_sput _ _ _ _ _

@[simp] theorem counter_bump_same (s : State) (a : Nat) : counter (bump s a) a = satAdd 48 (counter s a) 1 := by
  unfold bump; rw [counter_bumpN]; simp

theorem queueOf_setQueue (s : State) (q : Nat) (v : Queue) (r : Nat) :
    queueOf (setQueue s q v) r = if q = r then v else queueOf s r := sget_sput _ _ _ _ _

@[simp] theorem queueOf_setQueue_same (s : State) (q : Nat) (v : Queue) : queueOf (setQueue s q v) q = v := by
  rw [queueOf_setQueue]; simp

theorem tileOf_setTile (s : State) (t : Nat) (v : Tile) (u : Nat) :
    tileOf (setTile s t v) u = if t = u then v else tileOf s u := sget_sput _ _ _ _ _

@[simp] theorem tileOf_setTile_same (s : State) (t : Nat) (v : Tile) : tileOf (setTile s t v) t = v := by
  rw [tileOf_setTile]; simp

theorem tensorOf_setTensor (s : State) (t : Nat) (v : Tensor) (u : Nat) :
    tensorOf (setTensor s t v) u = if t = u then v else tensorOf s u := sget_sput _ _ _ _ _

theorem stackOf_setStack (s : State) (k : Nat) (v : Stack) (u : Nat) :
    stackOf (setStack s k v) u = if k = u then v else stackOf s u := sget_sput _ _ _ _ _

theorem chanOf_setChan (s : State) (g : Nat) (v : Channel) (u : Nat) :
    chanOf (setChan s g v) u = if g = u then v else chanOf s u := sget_sput _ _ _ _ _

theorem pierOf_setPier (s : State) (p : Nat) (v : Pier) (u : Nat) :
    pierOf (setPier s p v) u = if p = u then v else pierOf s u := sget_sput _ _ _ _ _

theorem portOf_setPort (s : State) (p : Nat) (v : Port) (u : Nat) :
    portOf (setPort s p v) u = if p = u then v else portOf s u := sget_sput _ _ _ _ _

theorem txFlow_setTx (s : State) (d q : Nat) (f : Option TxFlow) :
    txFlow (setTx s d q f) d q = f := sget_sput_same _ _ _ _

theorem handleOf_setHandle (n : Nat) (h : Option Handle) (s : State) (m : Nat) :
    handleOf (setHandle n h s) m = if n = m then h else handleOf s m := sget_sput _ _ _ _ _

@[simp] theorem setStp_stp (f : StepCtl → StepCtl) (s : State) : (setStp f s).stp = f s.stp := rfl
@[simp] theorem setNpx_npx (f : Npx → Npx) (s : State) : (setNpx f s).npx = f s.npx := rfl
@[simp] theorem setPwr_pwr (f : Pwr → Pwr) (s : State) : (setPwr f s).pwr = f s.pwr := rfl
@[simp] theorem emit_out (o : Output) (s : State) : (emit o s).out = o :: s.out := rfl

end Sys2Proof.Machine
end

