-- ==== Sys2Proof/Laws/Submit.lean ====
section
/-!
SUPPORT. What the path of a Kolelm command does, once: a command that its queue lets begin runs its own checks and
effect on the state it finds, and is answered.
-/
namespace Sys2Proof.Machine

/-- A command the module does not refuse runs its own checks and effect. -/
theorem beginCmd_ready {h : CmdHdr} {op : Nat} {i : Instr} {s : State} (k : State → KRes) (hn : refusal op i s = none) :
    beginCmd h op k i s = conclude (replyTo h op s) op (k (countLate h op s)) := by
  unfold beginCmd
  rw [hn]

/-- A command with nothing in front of it begins. -/
theorem enqueue_ready {h : CmdHdr} {op : Nat} {i : Instr} {s : State} (k : State → KRes) (ht : tooFar s h = false)
    (hw : (queueOf s h.queue.toNat).waiting = []) (hq : queueReady s h op = true) :
    enqueue h op k i s = beginCmd h op k i s := by
  unfold enqueue
  simp only [ht, hw, hq, List.isEmpty_nil, Bool.and_self, Bool.false_eq_true, if_false, if_true]

/-- A command its queue may fetch arrives. -/
theorem submit_fetched {h : CmdHdr} {op : Nat} {i : Instr} {s : State} (k : State → KRes) (hm : h.mctp = false)
    (hf : mayFetch s h.queue.toNat = true) : submit h op k i s = enqueue h op k i (arrived h s) := by
  unfold submit
  simp only [hm, hf, Bool.not_true, Bool.false_eq_true, if_false]
  rfl

/-- A ready command begins: its own result is concluded. -/
theorem submit_ready {h : CmdHdr} {op : Nat} {i : Instr} {s : State} (hr : Ready h op i s) (k : State → KRes) :
    submit h op k i s = conclude (replyTo h op (arrived h s)) op (k (begun h op s)) := by
  obtain ⟨hm, hf, ht, hw, hq, hn⟩ := hr
  have hw' : (queueOf (arrived h s) h.queue.toNat).waiting = [] := by
    unfold arrived
    rw [queueOf_setQueue_same]
    exact hw
  rw [submit_fetched k hm hf, enqueue_ready k ht hw' hq, beginCmd_ready k hn]
  unfold begun
  rfl

/-- A ready command that ends at once is answered. -/
theorem submit_answered {h : CmdHdr} {op : Nat} {i : Instr} {s : State} (hr : Ready h op i s) {k : State → KRes}
    {st d : Nat} {t : State} (hk : k (begun h op s) = { s := t, status := st, detail := d, deferred := false }) :
    submit h op k i s = replied h op st d s t := by
  rw [submit_ready hr, hk]; rfl

/-- A ready command that succeeds is answered with SUCCESS. -/
theorem submit_ok {h : CmdHdr} {op : Nat} {i : Instr} {s : State} (hr : Ready h op i s) {k : State → KRes} {d : Nat}
    {t : State} (hk : k (begun h op s) = kOk d t) : submit h op k i s = replied h op 0 d s t :=
  submit_answered hr hk

/-- A ready command that is refused is answered with its status and changes nothing else. -/
theorem submit_fail {h : CmdHdr} {op : Nat} {i : Instr} {s : State} (hr : Ready h op i s) {k : State → KRes}
    {st d : Nat} {t : State} (hk : k (begun h op s) = kFail st d t) : submit h op k i s = replied h op st d s t :=
  submit_answered hr hk

/-- A ready deferred command that is accepted is counted by its queue. -/
theorem submit_accepted {h : CmdHdr} {op : Nat} {i : Instr} {s : State} (hr : Ready h op i s) {k : State → KRes}
    {t : State} (ho : isDeferred op = true) (hk : k (begun h op s) = kDefer t) :
    submit h op k i s = accepted h op s t := by
  rw [submit_ready hr, hk]
  unfold conclude accepted kDefer
  simp only [ho, Bool.not_true, Bool.false_eq_true, if_false, Bool.true_and]
  rfl

/-- A ready command whose answer is left to a later event. -/
theorem submit_left {h : CmdHdr} {op : Nat} {i : Instr} {s : State} (hr : Ready h op i s) {k : State → KRes}
    {t : State} (ho : isDeferred op = false) (hk : k (begun h op s) = kDefer t) : submit h op k i s = t := by
  rw [submit_ready hr, hk]
  unfold conclude kDefer
  simp [ho]

/-- A result that fits its buffer is written there, and what the command clears is cleared. -/
theorem deliver_fits {h : CmdHdr} {buf : Buf} {s : State} {data : List Byte} (hm : h.mctp = false)
    (hf : Fits s buf data) (clear : State → State) (d : Nat) :
    withBuf h buf s (deliver h buf data clear d s) = kOk d (clear (hostWrite buf.addr.toNat data s)) := by
  unfold withBuf deliver
  rw [hm, hf.1]
  have := hf.2
  simp only [Bool.or_true, Bool.false_eq_true, if_true, if_false]
  rw [if_neg (by omega)]

end Sys2Proof.Machine
end

