-- ==== Sys2Proof/Tests/Slice0.lean ====
section
/-!
SUPPORT. The package's own tests: values the manual works out, published vectors of the standards it names, a few small
steps, an ill-formed term for each check of `Instr.wf`, and for every obligation with hypotheses one theorem
`test_meets_<obligation>` whose concrete states and operands meet them together, clause by clause. A hypothesis about an
opaque constant of `Config` (a signature or a certificate that verifies, a ciphertext that opens) has no evaluable
witness: those conjuncts are left out there and NOTES.md names them.
-/
namespace Sys2Proof.Tests
open Sys2Proof.Machine

set_option linter.unusedVariables false
set_option maxRecDepth 20000
set_option Elab.async false

/-- A command header of queue 3 with a parameter block. -/
def hdr (pb : List Byte) : CmdHdr :=
  { queue := 3, mctp := false, tag := 7, notBefore := 0, fence := false, quiet := false, pbDev := false, pbAddr := 0
    pb := pb, hostData := [] }
/-- Queue 3 enabled, 16 entries deep. -/
def q3 : Queue := { Queue.none with enabled := true, life := 1, log2 := 4, sq := 0x10000, cq := 0x20000 }
/-- The state after reset with one DMA window over the first 4 GiB of host memory and queue 3 created. -/
def ready0 : State :=
  setQueue (setReg (setReg State.reset (hifBase + 0x40) 1) (hifBase + 0x48) 0xFFFFF000) 3 q3
/-- Parameter blocks: a first part, zeros up to an offset, and a second part; in whole 64-byte units. -/
def block (head : List Byte) (o : Nat) (tail : List Byte) : List Byte :=
  let l := slice head 0 o ++ tail
  slice l 0 (ceilDiv l.length 64 * 64)
/-- `ready0` with its step control, commit, power or exchange changed. -/
def withStp (f : StepCtl → StepCtl) (s : State) : State := { s with stp := f s.stp }
def withRc (f : StepRec → StepRec) (s : State) : State := { s with stp := { s.stp with rc := f s.stp.rc } }
def withHost (f : HostIf → HostIf) (s : State) : State := { s with host := f s.host }
def withPwr (f : Pwr → Pwr) (s : State) : State := { s with pwr := f s.pwr }
def withNpx (f : Npx → Npx) (s : State) : State := { s with npx := f s.npx }
def withFab (f : Fabric → Fabric) (s : State) : State := { s with fab := f s.fab }
def withCbl (f : Corbel → Corbel) (s : State) : State := { s with cbl := f s.cbl }
def withTm (f : TimeSt → TimeSt) (s : State) : State := { s with tm := f s.tm }
/-- A module of fabric ID 5, alone in its job, whose configuration is committed. -/
def job0 : State :=
  withStp (fun p => { p with r := 1, q := 1, members := [5] })
    (setReg { ready0 with cfg := { ready0.cfg with committed := true } } fabBase 0x000510C0)
/-- Region 0 global, and region 1 stack-local on stack 0. -/
def mapped : State := { job0 with rmap := [(0, 0x40000000), (1, 0x80000000)] }
/-- Every stack reserves rows for its parity. -/
def reserved : State := (List.range 8).foldl (fun s k => setReg s (trmBase + 0x4010 + 4 * k) 0x10000) ready0
/-- Region 46 of pier 0 is scratchpad. -/
def scratched : State := setPier ready0 0 { Pier.init with modes := List.replicate 46 0 ++ [1, 1] }
/-- A placement, of whatever kind it is. -/
def placingOf (x : Nat ⊕ Placing) : Placing := x.elim (fun _ => { cursor := [], bases := [], braced := [], fail := none }) id
/-- A handle of a pair collective over the step group, with no run. -/
def handle0 : Handle :=
  { header := 0xFFFFFFFF * 2 ^ 332 + 1 * 2 ^ 496 + 1 * 2 ^ 492, list := [], lens := [], layout := [], extents := [], run := none, early := []
    lane := 0, excl := [], slow := [], mism := [] }
def handled : State := withFab (fun f => { f with handles := [(1, some handle0)] }) job0
/-- A run that has started. -/
def run0 : Run := { Run.begin 0 none with started := true }
def running (h : Handle) (r : Run) : State := withFab (fun f => { f with handles := [(1, some { h with run := some r })] }) job0
def job1 : Instr := .jobSeedSet (hdr []) 5

/-- Every stack's firmware area reads 0, which is the CRC of a placement of no regions. -/
def resumable : State := reserved
/-- A program of one task that does nothing, at address 0. -/
def imaged : State := storeBytes mapped 0 (leBytes 8 (2 ^ 32 + 1))
def partsOf (x : (Nat × Nat) ⊕ List LoadPart) : List LoadPart := x.elim (fun _ => []) id
/-- An exchange of one site with one module. -/
def exchPb : List Byte :=
  leBytes 4 0 ++ leBytes 4 0x01010101 ++ leBytes 4 0 ++ leBytes 4 1280 ++ gap 40 ++ leBytes 4 9 ++ leBytes 4 1 ++ leBytes 4 2
    ++ leBytes 4 3 ++ leBytes 4 1 ++ gap 4 ++ leBytes 4 1 ++ [1] ++ gap 3 ++ leBytes 4 112 ++ leBytes 4 116 ++ leBytes 4 120
    ++ leBytes 4 120 ++ gap 8 ++ leBytes 4 1 ++ [0] ++ gap 11
/-- The shares the module has after reset. -/
def budgetPb : List Byte := (List.range 640).map (fun i => BitVec.ofNat 8 (getReg State.reset (bgtBase + i / 4 * 4) / 256 ^ (i % 4)))

def withSec (f : Sec → Sec) (s : State) : State := { s with sec := f s.sec }
def withCfg (f : CfgCrc → CfgCrc) (s : State) : State := { s with cfg := f s.cfg }
def withQ (f : Queue → Queue) (s : State) : State := setQueue s 3 (f (queueOf s 3))
/-- The host's job control says the job is aborted. -/
def abortedJob : State := setReg ready0 (hifBase + 4) 0x40000000
def prog0 : Program := { off := 0, ntasks := 1, domain := 0, chain := [] }
/-- Tile 0 is fenced, with a program. -/
def fenced0 (s : State) : State := setTile s 0 { Tile.init with prog := some prog0, mode := .fenced }
/-- Line time 2 ns. -/
def at2 (s : State) : State := withTm (fun t => { t with now := 2 * 65536 }) s
/-- Line time `ns` nanoseconds. -/
def later (ns : Nat) (s : State) : State := withTm (fun t => { t with now := ns * 65536 }) s
def hdr2 : CmdHdr := { hdr [] with notBefore := 2 }
def regDef (a : Nat) : RegDef := (regAt a).getD { base := 0, pages := 0, step := 1, count := 0, cls := .ro, rw := 0, reset := 0, host := false, cores := false, crc := false }

/-- A message in flight. -/
def flying (m : Msg) (s : State) : State := { s with course := [{ msg := m, know := [] }] }
/-- Tile 0 runs a program of `n` tasks at address 0 of the state's memory. -/
def tile0 (n : Nat) : Tile := { Tile.init with prog := some { prog0 with ntasks := n }, mode := .running }
def tiled (n : Nat) : State := setTile mapped 0 (tile0 n)
def withTile0 (f : Tile → Tile) (s : State) : State := setTile s 0 (f (tileOf s 0))
def run1 (stop : Bool) : Running := { task := 0, stopping := stop, know := [], since := 0 }
/-- Task 0 waits for slot 0 to reach 1, and task 1 is deferred. -/
def waiting0 : State := storeBytes (tiled 2) (tileAddr 0 384) (leBytes 64 (2 ^ 127 + 2 ^ 105) ++ leBytes 64 (2 ^ 58))
def queue0 : StageQueue := { desc := 64 * 2 ^ 80 + 1 * 2 ^ 72 + 5 * 2 ^ 216 + 5 * 2 ^ 200 + 1 * 2 ^ 240 + 0x8000000000 * 2 ^ 112, occ := 0, high := 0, fills := 0 }
def queued (q : StageQueue) : State := setStageQueue 1 q job0
def gather0 (st : GatherSt) : Gather := { desc := 0, tile := 0, st := st, pins := 0, page := 46 * 64, stamp := 0, evicted := false, owed := 1 }
def gathered (st : GatherSt) : State := setGather 0 0 (gather0 st) scratched
def word0 : CheckWord := { s := false, f := false, hard := false, a := false, first := 0xFFFF, norm := Exact.zero }
def items0 : CommitItems := { amax := [], contrib := [], rowAmax := [], ratio := [], rebase := [], prints := [], unsound := [], plumb := false }
/-- A shard of one block of 8 weights on stack 0, with the optimizer code `opt`. -/
def shard0 (opt : Nat) (torn : Bool) : Shard :=
  { desc := 0x40000000 * 2 ^ 464 + 0x40100000 * 2 ^ 416 + 0x40200000 * 2 ^ 368 + 0x40300000 * 2 ^ 320 + 0x40400000 * 2 ^ 224
      + 8 * 2 ^ 144 + 8 * 2 ^ 124 + opt * 2 ^ 72
    torn := torn, invalid := false, eccMark := false, sparseFull := false, reduced := [], updated := [] }
def sharded (sh : Shard) : State := setShard 0 0 sh mapped
def updating (sh : Shard) : State := withStp (fun p => { p with updRun := true, rc := { p.rc with state := 3 } }) (sharded sh)
def flight0 (phase : Nat) : Flight := { stack := 0, unit := 0, slot := 0, shard := 0, block := 0, phase := phase }
def inFlight (phase : Nat) : State := withCbl (fun c => { c with flight := [flight0 phase] }) (updating (shard0 0 false))
def exact0 : ExactWord := { nf := false, val := 0 }
def sums0 : GroupSums := { u2 := exact0, w2 := exact0, kc := [], rs := exact0, rows := 0 }

/-- Port 0 is up in a mode, with fabric ID 6 at its other end. -/
def linked (m : Nat) (s : State) : State :=
  setPort (setReg s (fabBase + 0xC000) (m * 2 ^ 30 + 0x7C04)) 0 { Port.init with state := 2, lanes := 15, native := Bool.true, peer := 6 }
def rxFlow0 : RxFlow := { expect := 0, unackd := 0, nacked := 0 }
def txFlow0 (l : List (Nat × Nat × List Byte)) : TxFlow := { port := 0, seq := 0, unacked := l, at' := 0, touts := 0, allTouts := 0, bad := [], closing := false }
def lit : State := setRx (linked 1 job0) 6 0 (some rxFlow0)
/-- A header of fabric ID 6 to fabric ID 5. -/
def head6 (kind last handle addr idx len : Nat) : Nat :=
  2 ^ 252 + kind * 2 ^ 248 + last * 2 ^ 242 + 5 * 2 ^ 224 + 6 * 2 ^ 208 + handle * 2 ^ 128 + addr * 2 ^ 80 + len * 2 ^ 64 + idx
def rx6 (hd : Nat) (payload : List Byte) (ok : Bool) : RxFrame := { hdr := hd, payload := payload, check := e2eCheck hd payload + (if ok then 0 else 1), form := none }
def wire6 (f : RxFrame) (ok : Bool) : List Byte :=
  let b := macOf 5 ++ macOf 6 ++ beBytes 2 0x88B5 ++ beBytes 32 f.hdr ++ f.payload ++ beBytes 4 f.check
  b ++ leBytes 4 (crc32 b + (if ok then 0 else 1))
/-- Stack 0 is applied, with its firmware region placed. -/
def applied0 (f : Stack → Stack) : State :=
  setStack ready0 0 (f { Stack.init with applied := true, base := [(504, 1)], scrub := fwAddr 0 0 / 64 })
def chan0 (f : Channel → Channel) : State := setChan ready0 0 (f Channel.init)
def smbus (l : List Byte) : List Byte := l ++ [BitVec.ofNat 8 (smbusPec l)]
def packet0 : W512 := 0x10106
def h0 : CmdHdr := packetHeader 0 true packet0.toNat [] []
/-- Role and source of line time. -/
def timed (v : Nat) : State := setReg ready0 ltuBase (v + 0x428)

def handleOp (op wait : Nat) (r : Run) : Handle := { handle0 with header := 0xFFFFFFFF * 2 ^ 332 + 1 * 2 ^ 496 + op * 2 ^ 492 + wait * 2 ^ 316, run := some r }
def ranHandle (h : Handle) : State := setHandle 1 (some h) job0
def pub0 : Pub := { base := 0, ver := 1, epoch := 0, contrib := [], vals := [], full := false }
/-- Two members of the step group; this one is the first. -/
def pair0 : State := withStp (fun p => { p with r := 2, members := [5, 6] }) job0
/-- An exchange is configured, with windows of 1 ms. -/
def exch (f : Npx → Npx) : State := withNpx (fun x => f { x with configured := true, replicas := [1], orders := [0] }) (setReg job0 (npxBase + 0x38) 1)
/-- Port 1 carries the exchange, and key slot 0 holds a key. -/
def keyed (s : State) : State :=
  withSec (fun x => { x with slots := [(0, some { kind := 1, key := List.replicate 32 0 })] }) (setPort s 1 { Port.init with state := 2 })
def book0 : Book := { header := 2 ^ 496, entries := List.replicate 32 0 }
/-- A delta of site 1 that came before the window closed. -/
def held0 : HeldDelta := { at' := 0, site := 1, epoch := 0, base := 0, outer := 0, body := [] }
def delta0 (sent : Bool) : OwnDelta := { base := 0, outer := 0, bytes := [], sent := sent, at' := 0, settled := false }
def staged0 : State :=
  withCbl (fun c => { c with shards := [(0, some (shard0 0 false))], books := [book0], outer := [(0, { OuterShard.init with stage := [0] })] })
    (exch id)
def partner0 : Partner := { site := 1, replica := 0, fid := 9, addr := 77 }
/-- A key of zeros. -/
def key0 : List Byte := List.replicate 32 0
/-- The tag of data under that key. -/
def tagOf (nonce : Nat) (aad data : List Byte) : List Byte :=
  gcmTag key0 nonce (ghashBlocks (gcmH key0) (ghashBlocks (gcmH key0) 0 aad) data) aad.length data.length
/-- A packet of type `typ` from fabric ID 9 of site 1, under the key of slot 0. -/
def ehead (typ n : Nat) : Nat := 2 ^ 252 + typ * 2 ^ 248 + 1 * 2 ^ 242 + 9 * 2 ^ 216 + 5 * 2 ^ 200 + n * 2 ^ 8
def nonce0 : Nat := 2 ^ 88 + 9 * 2 ^ 64
def sealed0 (typ : Nat) (data : List Byte) : List Byte :=
  beBytes 32 (ehead typ data.length) ++ (data ++ tagOf nonce0 (beBytes 32 (ehead typ data.length)) data)
def opened0 : State := setPath 16 { TimePath.init with partner := (true, 1, 9, 77) } (keyed (exch (fun x => { x with partners := [partner0] })))
def copy0 (stage : Nat) (paused : Bool) : Copy := { start := 0, outer := 0, step := 0, no := 1, slot := 0, stage := stage, paused := paused, check := 0 }
def copying (c : Copy) : State := { job0 with ck := { job0.ck with copy := some c } }
/-- The holder of this module's checkpoint is ready. -/
def heldBy (s : State) : State :=
  withSec (fun x => { x with slots := [(16, some { kind := 2, key := List.replicate 64 0 }), (17, some { kind := 1, key := List.replicate 32 0 })] })
    (withFab (fun f => { f with buddy := 1 }) (setReg { s with ck := { s.ck with items := [1] } } (fabBase + 0xC) 0x0006FFFF))
/-- One request of the cipher ring waits, with the given operation, in page 0 of region 47 of pier 0. -/
def ring0 (op : Nat) : State :=
  storeBytes (setReg (setReg (setReg (setReg ready0 cipBase 0xA0000000) (cipBase + 4) 0x0BC00000) (cipBase + 8) 0x80) (cipBase + 0xC) 1)
    0x800BC00000 (leBytes 64 (op * 2 ^ 508))
def repair0 : RepairData := { moments := [], second := [], copy := [], weights := [], records := [] }

def restored : State :=
  withSec (fun x => { x with slots := [(16, some { kind := 2, key := List.replicate 64 0 }), (17, some { kind := 1, key := List.replicate 32 0 })] }) job0
/-- A checkpoint image of no items, with the tag of the key of slot 17. -/
def restoreHead : List Byte := leBytes 64 (2 ^ 504 + 5 * 2 ^ 480)
def zeros4016 : List Byte := List.replicate 4016 0
def restoreImage : List Byte := restoreHead ++ (zeros4016 ++ tagOf (manifestNonce 5 0 0 0) restoreHead zeros4016)

theorem leBytes_length (n x : Nat) : (leBytes n x).length = n := by
  induction n generalizing x with
  | zero => rfl
  | succ n ih => simp [leBytes, ih]

theorem beBytes_length (n x : Nat) : (beBytes n x).length = n := by simp [beBytes, leBytes_length]

theorem opens_tagOf (nonce : Nat) (aad data : List Byte) :
    gcmOpen key0 nonce aad data (tagOf nonce aad data) = some (gcmStream key0 nonce 2 data) := by
  simp only [gcmOpen, tagOf, if_true]

theorem tagOf_length (nonce : Nat) (aad data : List Byte)
    (h : (aesEncrypt key0 (beBytes 12 nonce ++ beBytes 4 1)).length = 16) : (tagOf nonce aad data).length = 16 := by
  simp only [tagOf, gcmTag, xorBytes, List.length_zipWith, h, beBytes_length, Nat.min_self]

theorem slice_length (l : List Byte) (o n : Nat) : (slice l o n).length = n := by
  simp only [slice, List.length_append, List.length_replicate, List.length_take]; omega

theorem slice_front (a b : List Byte) (n : Nat) (h : a.length = n) : slice (a ++ b) 0 n = a := by
  subst h; simp [slice]

theorem slice_middle (a b c : List Byte) (n m : Nat) (h : a.length = n) (hb : b.length = m) : slice (a ++ (b ++ c)) n m = b := by
  subst h; subst hb; simp [slice]

theorem slice_back (a b c : List Byte) (n m : Nat) (h : (a ++ b).length = n) (hc : c.length = m) : slice (a ++ (b ++ c)) n m = c := by
  rw [← List.append_assoc]; subst h; subst hc; simp [slice]

/-- An image of no items whose tag is right opens to nothing. -/
theorem openSlot_empty (s : State) (image k16 k17 table : List Byte) (h16 : slotKey s 16 = some k16) (h17 : slotKey s 17 = some k17)
    (e1 : field (leAt image 0 64) 495 480 = 5) (e2 : field (leAt image 0 64) 239 208 = 0)
    (e3 : field (leAt image 0 64) 351 320 = 0) (e4 : field (leAt image 0 64) 207 202 = 0)
    (e5 : field (leAt image 0 64) 319 304 = 0) (e6 : field (leAt image 0 64) 303 272 = 0)
    (ho : gcmOpen (slice k17 0 32) (manifestNonce 5 0 0 0) (slice image 0 64) (slice image 64 4016) (slice image 4080 16)
      = some table) : openSlot s image = some [] := by
  unfold openSlot
  simp only [h16, h17, e1, e2, e3, e4, e5, e6, ho]
  simp [slice]

/-- The image opens to no items. -/
theorem restored_opens (s : State) (h16 : slotKey s 16 = some (List.replicate 64 0)) (h17 : slotKey s 17 = some key0) :
    openSlot s restoreImage = some [] := by
  have hl : restoreHead.length = 64 := leBytes_length _ _
  have hz : zeros4016.length = 4016 := List.length_replicate
  have ht := tagOf_length (manifestNonce 5 0 0 0) restoreHead zeros4016 (by decide +kernel)
  have h1 : slice restoreImage 0 64 = restoreHead := slice_front _ _ _ hl
  have h2 : slice restoreImage 64 4016 = zeros4016 := slice_middle _ _ _ _ _ hl hz
  have h3 : slice restoreImage 4080 16 = tagOf (manifestNonce 5 0 0 0) restoreHead zeros4016 :=
    slice_back _ _ _ _ _ (by rw [List.length_append, hl, hz]) ht
  have ek : slice key0 0 32 = key0 := by decide +kernel
  have hw : leAt restoreImage 0 64 = leNat restoreHead := by rw [leAt, h1]
  refine openSlot_empty s restoreImage _ key0 _ h16 h17 ?_ ?_ ?_ ?_ ?_ ?_ (by rw [ek, h1, h2, h3, opens_tagOf]) <;>
    rw [hw] <;> decide +kernel

/-- A placement that succeeds is the one `placingOf` names. -/
theorem placing_of_right (x : Nat ⊕ Placing) (h : x.isRight = true) : x = .inr (placingOf x) := by
  cases x with
  | inl _ => cases h
  | inr _ => rfl

/-- Images that load are the ones `partsOf` names. -/
theorem images_of_right (x : ((Nat × Nat) ⊕ List LoadPart) × State) (h : x.1.isRight = true) : x = (.inr (partsOf x.1), x.2) := by
  obtain ⟨a, b⟩ := x
  cases a with
  | inl _ => cases h
  | inr _ => rfl

theorem pair_eta {α β : Type} (x : α × β) : x = (x.1, x.2) := rfl
theorem triple_eta {α β γ : Type} (x : α × β × γ) : x = (x.1, x.2.1, x.2.2) := rfl

theorem identityData_length (m : Nat) : (identityData m).length = 4096 := by
  simp only [identityData, List.length_append, slice_length, List.length_replicate]
  simp [leBytes]

/-- An attestation report and its signature fit a buffer of 1 MiB. -/
def unmeasured : State := withSec (fun x => { x with mr := [] }) ready0
theorem attest_fits : (attestBody (begun (hdr []) 0x0902 unmeasured) (leBytes 32 0)
    ++ slice (Config.sign 0 (attestBody (begun (hdr []) 0x0902 unmeasured) (leBytes 32 0))) 0 2420).length ≤ 0x100000 := by
  rw [List.length_append, slice_length]
  unfold attestBody
  generalize Config.variantLE = v
  cases v <;> decide +kernel

theorem sealed0_tag (typ : Nat) (data : List Byte) :
    (tagOf nonce0 (beBytes 32 (ehead typ data.length)) data).length = 16 := tagOf_length _ _ _ (by decide +kernel)

/-- What the key makes of the packet. -/
theorem sealed0_opens (typ : Nat) (data : List Byte) :
    gcmOpen key0 nonce0 ((sealed0 typ data).take 32) (slice (sealed0 typ data) 32 data.length)
      (slice (sealed0 typ data) (32 + data.length) 16) = some (gcmStream key0 nonce0 2 data) := by
  have hl : (beBytes 32 (ehead typ data.length)).length = 32 := beBytes_length _ _
  have h1 : (sealed0 typ data).take 32 = beBytes 32 (ehead typ data.length) := List.take_left' hl
  have h2 : slice (sealed0 typ data) 32 data.length = data := slice_middle _ _ _ _ _ hl rfl
  have h3 : slice (sealed0 typ data) (32 + data.length) 16 = tagOf nonce0 (beBytes 32 (ehead typ data.length)) data :=
    slice_back (beBytes 32 (ehead typ data.length)) data _ _ _ (by rw [List.length_append, hl]) (sealed0_tag typ data)
  rw [h1, h2, h3, opens_tagOf]

/-- The first byte of the key stream of that nonce. -/
def pad0 : Byte := (aesEncrypt key0 (beBytes 12 nonce0 ++ beBytes 4 2)).headD 0
theorem stream_one (c : Byte) : gcmStream key0 nonce0 2 [c ^^^ pad0] = [c] := by
  have h : (aesEncrypt key0 (beBytes 12 nonce0 ++ beBytes 4 2)).isEmpty = false := by decide +kernel
  have e : gcmStream key0 nonce0 2 [c ^^^ pad0] = xorBytes [c ^^^ pad0] (aesEncrypt key0 (beBytes 12 nonce0 ++ beBytes 4 2)) := by
    simp [gcmStream, chunks, chunksAux, List.zip]
  rw [e, pad0]
  generalize aesEncrypt key0 (beBytes 12 nonce0 ++ beBytes 4 2) = l at h
  cases l with
  | nil => cases h
  | cons x l => simp [xorBytes, BitVec.xor_assoc]

/-- The packet is taken. -/
theorem sealed0_taken {p src : Nat} {d : Partner} {s : State} (typ : Nat) (data b : List Byte)
    (hb : gcmStream key0 nonce0 2 data = b)
    (h : p < 12 ∧ portMode s p = 3 ∧ inService s p = true ∧ s.npx.partners.find? (fun d => decide (d.addr = src)) = some d
      ∧ 1 ≤ typ ∧ typ ≤ 6 ∧ slotKey s 0 = some key0 ∧ jobId s = 0 ∧ ownFid s = 5)
    (hh : ehType (ehead typ data.length) = typ ∧ ehFlen (ehead typ data.length) = data.length
      ∧ ehKey (ehead typ data.length) = 0 ∧ packetNonce (ehead typ data.length) = nonce0
      ∧ ehVersion (ehead typ data.length) = 1 ∧ ehJob (ehead typ data.length) = 0 ∧ ehDstFid (ehead typ data.length) = 5)
    (hr : beNat (beBytes 32 (ehead typ data.length)) = ehead typ data.length) :
    Opened p src (sealed0 typ data) d b s := by
  obtain ⟨h1, h2, h3, h4, h5, h6, h7, h8, h9⟩ := h
  obtain ⟨g1, g2, g3, g4, g5, g6, g7⟩ := hh
  have hl : (beBytes 32 (ehead typ data.length)).length = 32 := beBytes_length _ _
  have hd : beAt (sealed0 typ data) 0 32 = ehead typ data.length := by
    rw [← hr]
    simp only [beAt, sealed0, slice_front _ _ _ hl]
  unfold Opened
  simp only [hd, g1, g2, g3, g4, g5, g6, g7, h7, h8, h9]
  refine ⟨h1, h2, h3, h4, h5, h6, ?_, ⟨key0, rfl, ?_⟩, trivial, trivial, trivial⟩
  · simp only [sealed0, List.length_append, hl, sealed0_tag]; omega
  · rw [sealed0_opens, hb]

theorem loadLe_empty (s : State) (h : s.mem = []) (a n : Nat) : loadLe s a n = 0 := by
  have e : bytesAt s a n = (List.range n).map (fun _ => (0 : Byte)) := by simp [bytesAt, byteAt, h, sget]
  have z : ∀ l : List Nat, leNat (l.map (fun _ => (0 : Byte))) = 0 := by
    intro l; induction l with
    | nil => rfl
    | cons _ l ih => rw [List.map_cons, leNat, ih]; rfl
  rw [loadLe, e, z]

theorem liveEntry_empty (s : State) (h : s.mem = []) (k u j : Nat) : liveEntry s k u j = none := by
  have e : field 0 511 504 = 0 := by decide +kernel
  simp [liveEntry, loadLe_empty s h, e]

/-- With empty memory, a placement and a commit, nothing is missing. -/
theorem resumeMissing_empty (s : State) (h : s.mem = []) (hc : s.cfg.committed = true) (hp : s.cbl.placed = 3) :
    resumeMissing s = none := by
  have e : journalSlots.find? (entryStray s) = none :=
    List.find?_eq_none.2 (fun x _ => by simp [entryStray, liveEntry_empty s h])
  simp [resumeMissing, hc, hp, e]

/-- With empty memory, no shards and no decision, a resumption changes nothing in memory. -/
theorem resumeMemory_empty (s : State) (h : s.mem = []) (hs : s.cbl.shards = []) (hd : s.stp.rc.decision = 0) :
    resumeMemory s = (0, 0, s) := by
  have e : resumeEntries s = (0, 0, s) := by
    have f : ∀ l : List (Nat × Nat × Nat), l.foldl (fun (acc : Nat × Nat × State) e =>
        let (a, b, s) := resumeEntry e acc.2.2
        (acc.1 + a, acc.2.1 + b, s)) (0, 0, s) = (0, 0, s) := by
      intro l; induction l with
      | nil => rfl
      | cons x l ih =>
        have r : resumeEntry x s = (0, 0, s) := by simp [resumeEntry, liveEntry_empty s h]
        simp only [List.foldl_cons, r, Nat.zero_add]; exact ih
    exact f _
  simp [resumeMemory, e, sweepShards, allShards, hs, resumeFinish, hd]

theorem sget_absent (l : Sparse Nat) (a : Nat) (h : ∀ e ∈ l, e.1 ≠ a) : sget 0 l a = 0 := by
  induction l with
  | nil => rfl
  | cons e l ih =>
    simp only [sget, if_neg (h e (by simp))]
    exact ih (fun e he => h e (by simp [he]))

/-- The registers TRM_RGN reset to 0. -/
theorem regReset_rgn (n : Nat) (hn : n < 504) : regReset (trmBase + 4 * n) = 0 := by
  have hp : ∀ d ∈ topRegs ++ ltuRegs ++ bgtRegs ++ tilRegs ++ plnRegs, d.base + 0x4000 * d.pages ≤ trmBase := by decide +kernel
  have hc : ∀ d ∈ topRegs ++ ltuRegs ++ bgtRegs ++ tilRegs ++ plnRegs, ¬ (d.covers (trmBase + 4 * n)) = true := by
    intro d hd
    have h := hp d hd
    have h2 : ¬ trmBase + 4 * n < d.base := by omega
    have h3 : ¬ (trmBase + 4 * n - d.base) / 0x4000 < d.pages := by omega
    simp [RegDef.covers, h2, h3]
  have hr : (rwCrc trmBase 1 4 504 0xFE000000 0).covers (trmBase + 4 * n) = true := by
    have e : trmBase + 4 * n - trmBase = 4 * n := by omega
    have e2 : (trmBase + 4 * n) % 4 = 0 := by simp only [trmBase]; omega
    have e3 : ¬ trmBase + 4 * n < trmBase := by omega
    simp only [RegDef.covers, rwCrc, e, e2, e3]
    have e4 : 4 * n % 16384 = 4 * n := by omega
    have e5 : 4 * n / 16384 = 0 := by omega
    have e6 : 4 * n / 4 = n := by omega
    have e7 : 4 * n % 4 = 0 := by omega
    simp [e4, e5, e6, e7, hn]
  have hf : regAt (trmBase + 4 * n) = some (rwCrc trmBase 1 4 504 0xFE000000 0) := by
    have t : trmRegs = rwCrc trmBase 1 4 504 0xFE000000 0 :: trmRegs.tail := rfl
    have g : (topRegs ++ ltuRegs ++ bgtRegs ++ tilRegs ++ plnRegs ++ trmRegs).find? (fun d => d.covers (trmBase + 4 * n))
        = some (rwCrc trmBase 1 4 504 0xFE000000 0) := by
      rw [List.find?_append, List.find?_eq_none.2 hc, t, List.find?_cons, hr]; rfl
    have e : regTable = (topRegs ++ ltuRegs ++ bgtRegs ++ tilRegs ++ plnRegs ++ trmRegs)
        ++ (cblRegs ++ (hifRegs ++ (fabRegs ++ (colRegs ++ (npxRegs ++ (secRegs ++ (cipRegs ++ (pwrRegs ++ mgtRegs)))))))) := by
      simp only [regTable, List.append_assoc]
    rw [regAt, e, List.find?_append, g]; rfl
  simp [regReset, hf, rwCrc]

/-- Every TRM_RGN of a state whose list names none of them reads 0. -/
theorem rgnReg_zero (s : State) (n : Nat) (hn : n < 504) (hs : ∀ e ∈ s.regs, e.1 < trmBase ∨ trmBase + 2016 ≤ e.1) :
    rgnReg s n = 0 := by
  rw [rgnReg, getReg, regReset_rgn n hn, sget_absent _ _ (fun e he => by have := hs e he; omega)]; rfl

theorem reserved_regs : ∀ e ∈ (begun (hdr []) 0x0210 reserved).regs, e.1 < trmBase ∨ trmBase + 2016 ≤ e.1 := by
  decide +kernel

/-- Only the firmware regions ask for a place. -/
theorem placeAsks_none (s : State) (hs : ∀ e ∈ s.regs, e.1 < trmBase ∨ trmBase + 2016 ≤ e.1) :
    placeAsks s = (List.range 8).map (fun k => { n := 504 + k, mode := 2, stack := k, braced := true }) := by
  have e : (List.range 504).filterMap (fun n =>
      let w := rgnReg s n
      if field w 31 30 = 0 then none
      else some ({ n := n, mode := field w 31 30, stack := field w 29 27, braced := flag w 26 } : PlaceAsk)) = [] := by
    rw [List.filterMap_eq_nil_iff]
    intro n hn
    rw [rgnReg_zero s n (List.mem_range.1 hn) hs]; rfl
  rw [placeAsks, e, List.append_nil]

theorem placementCrc_none (s : State) (hs : ∀ e ∈ s.regs, e.1 < trmBase ∨ trmBase + 2016 ≤ e.1) (hk : s.stackTab = []) :
    placementCrc s = 0 := by
  have z : ∀ l : List Byte, (∀ b ∈ l, b = 0) → l.foldl crc64Byte 0 = 0 := by
    intro l; induction l with
    | nil => intro _; rfl
    | cons b l ih =>
      intro h
      rw [List.foldl_cons, h b (by simp), show crc64Byte 0 0 = 0 by decide]
      exact ih (fun b hb => h b (by simp [hb]))
  apply z
  intro b hb
  rw [List.mem_append, List.mem_flatMap, List.mem_flatMap] at hb
  rcases hb with ⟨n, hn, h⟩ | ⟨k, _, h⟩
  · rw [rgnReg_zero s n (List.mem_range.1 hn) hs] at h
    revert h; simp [leBytes]
  · simp only [stackOf, hk, sget] at h
    revert h; simp [leBytes, Stack.init]

theorem placed_apply : (placement (dropLost (begun (hdr []) 0x0210 reserved))).isRight = true := by
  unfold placement
  rw [placeAsks_none (dropLost (begun (hdr []) 0x0210 reserved)) reserved_regs]; decide +kernel

theorem placed_resume : (placement (begun (hdr []) 0x0210 resumable)).isRight = true := by
  unfold placement
  rw [placeAsks_none (begun (hdr []) 0x0210 resumable) reserved_regs]; decide +kernel

/-! ## Values the manual works out (its worked examples) -/

/-- R57, "Worked example: an embedding row": h = 3.5 gives SCALE 0x3C00_0000. -/
theorem test_delayed_scale : delayedScale .e4m3 true 0x3F800000 (f32 0x40600000) = 0x3C000000 := by decide +kernel

/-- The same example's block 0: 0.4 becomes 0x7D, 5.0 × 10^−7 crushes, the metadata byte is 0x0D. -/
theorem test_block_subexponent :
    (fun c : BlockConv => (c.codes, c.md, c.crush, c.sat))
      (convertBlock .e4m3 2 0x3C000000 false [] [f32 0x3ECCCCCD, f32 0x350637BD]) = ([0x7D, 0], 0x0D, 1, 0) := by
  decide +kernel

/-- Its blocks 1, 2 and 3: 5.0 becomes 0x7A with byte 0x01, a zero block has byte 0x48, a NaN becomes 0x7F. -/
theorem test_block_cases :
    (fun c : BlockConv => (c.codes, c.md, c.sat)) (convertBlock .e4m3 2 0x3C000000 false [] [f32 0x40A00000])
      = ([0x7A], 0x01, 0)
    ∧ (convertBlock .e4m3 2 0x3C000000 false [] [.zero]).md = 0x48
    ∧ (fun c : BlockConv => (c.codes, c.md / 128, c.nf)) (convertBlock .e4m3 2 0x3C000000 false [] [.qnan])
      = ([0x7F], 0, 0) := by
  decide +kernel

/-- The same row in scheme 1: 5.0 saturates to 448, and is counted. -/
theorem test_block_scheme1 :
    (fun c : BlockConv => (c.codes, c.sat)) (convertBlock .e4m3 1 0x3C000000 false [] [f32 0x40A00000]) = ([0x7E], 1) := by
  decide +kernel

/-- Table 3-5: group 0 has e_max = 5 and G0 = 33 × 2^42 + 7. -/
theorem test_group_truncation :
    groupSum [(.fin false 3 0, .fin false 11 (-1)), (.fin true 3 (-39), .fin false 19 (-12)),
      (.fin false 1 (-40), .fin false 129 (-7))] = some (5, 33 * 2 ^ 42 + 7) := by
  decide +kernel

/-- Table 9-3: the four contributions' integers on the grid 2^−46, the last one clipped. -/
theorem test_grid_integers :
    [f32 0x3FC00000, f32 0x28400000, f32 0x28000000, f32 0x40200000].map (gridInt (-46))
      = [(105553116266496, false), (1, false), (0, false), (140737488355327, true)] := by
  decide +kernel

/-- Table 6-11: the codewords of the example table, which is complete at 256. -/
theorem test_codewords :
    codewords { counts := [0, 2, 2, 3, 2, 0, 0, 0], nsym := 9, fmt := 1
                syms := [0x7A, 0x79, 0x7B, 0x78, 0x77, 0x7C, 0x100, 0x76, 0x00] }
      = ([(0x7A, 2, 0), (0x79, 2, 1), (0x7B, 3, 4), (0x78, 3, 5), (0x77, 4, 12), (0x7C, 4, 13), (0x100, 4, 14),
          (0x76, 5, 30), (0x00, 5, 31)], 256) := by
  decide +kernel

/-- "JD = 0x1234_5678_9ABC_DEF0 gives the digest 0x8888_8888". -/
theorem test_plumb_fold : fold32 0x123456789ABCDEF0 = 0x88888888 := by decide

/-- "Worked example: a strap word": 0x0F45. -/
theorem test_strap_word : strapWord 0x1E5 = 0x0F45 := by decide

/-- "Worked example: changing one tile's task limit": 0x0040_0000 through the set alias makes TIL_CFG 0x0040_0001. -/
theorem test_set_alias :
    (match step { State.reset with pending := [.regAliasSet .host 0x178000 0x400000] } with
     | .next t => getReg t 0x178000
     | _ => 0) = 0x00400001 := by
  decide +kernel

/-! ## Published vectors of the standards the manual names -/

/-- FIPS 197, appendix C.3: AES-256. -/
theorem test_aes256 :
    aesEncrypt (beBytes 32 0x000102030405060708090A0B0C0D0E0F101112131415161718191A1B1C1D1E1F)
      (beBytes 16 0x00112233445566778899AABBCCDDEEFF) = beBytes 16 0x8EA2B7CA516745BFEAFC49904B496089 := by
  decide +kernel

/-- The GCM specification's test case 13: the tag of nothing under the zero key. -/
theorem test_gcm_tag :
    (gcmSeal (List.replicate 32 0) 0 [] []).2 = beBytes 16 0x530F8AFBC74536B9A963B4F1C4CB738B := by
  decide +kernel

/-- FIPS 202: SHA3-256 of the empty message. -/
theorem test_sha3 : sha3 [] = beBytes 32 0xA7FFC6F8BF1ED76651C14756A061D662F580FF4DE43B49FA82D80A4B80F8434A := by
  decide +kernel

/-- Random123's known answer: Philox4x32-10 of the zero counter and key. -/
theorem test_philox : philox 10 (0, 0) (0, 0, 0, 0) = (0x6627E8D5, 0xE169C58D, 0xBC57AC4C, 0x9B00DBD8) := by
  decide +kernel

/-- CRC32C's check value, over the nine digits. -/
theorem test_crc32c : crc32c [0x31, 0x32, 0x33, 0x34, 0x35, 0x36, 0x37, 0x38, 0x39] = 0xE3069283 := by decide +kernel

/-! ## Small steps -/

/-- The state after the command at the front of an otherwise empty queue. -/
def after (i : Instr) (s : State) : State :=
  match step { s with pending := [i] } with
  | .next t => t
  | _ => s

/-- R435, Table 1-4: JOB_SEED_SET writes the whole 64-bit seed. -/
theorem test_job_seed : (after (.jobSeedSet (hdr []) 0x0123456789ABCDEF) ready0).host.jobSeed = 0x0123456789ABCDEF := by
  decide +kernel

/-- A configuration register takes no change through the clear alias in bits that the value does not name. -/
theorem test_clear_alias :
    getReg (after (.regAliasClear .host 0x178000 0x00400000) (after (.regAliasSet .host 0x178000 0x400000) State.reset))
      0x178000 = 1 := by
  decide +kernel

/-- A command that has not come to the front runs later: one step takes one command. -/
theorem test_fifo :
    (match step { ready0 with pending := [.jobSeedSet (hdr []) 5, .jobSeedSet (hdr []) 6] } with
     | .next t => (t.host.jobSeed, t.pending)
     | _ => (0, [])) = (5, [.jobSeedSet (hdr []) 6]) := by
  decide +kernel

/-! ## Ill-formed commands are refused by the check -/

/-- One ill-formed term for each check of `Instr.wf` on a header. -/
theorem test_wf_headers :
    Instr.wf (.fwUpdate (hdr [1])) = false ∧ Instr.wf (.fwUpdate (hdr [])) = false
    ∧ Instr.wf (.fwUpdate { hdr (List.replicate 64 0) with mctp := true }) = false
    ∧ Instr.wf (.jobSeedSet (hdr (List.replicate 64 0)) 5) = false
    ∧ Instr.wf (.jobSeedSet { hdr [] with pbDev := true } 5) = false
    ∧ Instr.wf (.jobSeedSet { hdr [] with pbAddr := 64 } 5) = false
    ∧ Instr.wf (.replicaRepairNameSource (hdr (List.replicate 64 1))) = false
    ∧ Instr.wf (.replicaRepairCatchUp (hdr (List.replicate 64 0))) = false := by
  decide

/-- A parameter block longer than PB_LEN can say. -/
theorem test_wf_long_block : Instr.wf (.fwUpdate (hdr (List.replicate (64 * 65536) 0))) = false := by
  have h (n : Nat) (hn : 64 * 65535 < n) : Instr.wf (.fwUpdate (hdr (List.replicate n 0))) = false := by
    have e : ¬ n ≤ 64 * 65535 := by omega
    simp only [Instr.wf, CmdHdr.wfPb, CmdHdr.wf, hdr, List.length_replicate, decide_eq_false e, Bool.and_false, Bool.false_and]
  exact h _ (by decide)

/-- One ill-formed term for each other check of `Instr.wf`. -/
theorem test_wf_operands :
    Instr.wf (.regWrite (.core 5) 0 0) = false ∧ Instr.wf (.regWrite .host 2 0) = false
    ∧ Instr.wf (.topSnapGo (.core 7) 0) = false
    ∧ Instr.wf (.apertureAccess 0 false 0 []) = false ∧ Instr.wf (.apertureAccess 0 false 65 []) = false
    ∧ Instr.wf (.apertureAccess 0 true 4 [0]) = false
    ∧ Instr.wf (.dieTempSample 21 0) = false ∧ Instr.wf (.coreEccFault 5) = false
    ∧ Instr.wf (.smbusTransaction (List.replicate 260 0)) = false
    ∧ Instr.wf (.taskStart ⟨96, []⟩) = false ∧ Instr.wf (.ackFrameReceive 12 []) = false
    ∧ Instr.wf (.pauseFrameReceive 0 0 []) = false ∧ Instr.wf (.linkCreditTimeout 12) = false := by
  decide +kernel

/-- A frame longer than a native frame. -/
theorem test_wf_long_frame : Instr.wf (.ackFrameReceive 0 (List.replicate 4155 0)) = false := by
  decide +kernel

/-! ## Every obligation with hypotheses has states and operands that meet them -/

/-- States and operands that meet the hypotheses of `Obligations.StepRunsFrontCommand`, clause by clause. -/
theorem test_meets_StepRunsFrontCommand :
    (let s : State := { ready0 with pending := [job1, job1] }; let c : Instr := job1
     let rest : List Instr := [job1]
     s.pending = c :: rest) ∧
    (let s : State := ready0
     s.pending = []) := by
  refine ⟨?_, ?_⟩ <;> decide +kernel

/-- States and operands that meet the hypotheses of `Obligations.StepKeepsInvariant`, clause by clause. -/
theorem test_meets_StepKeepsInvariant :
    Inv State.reset ∧ step State.reset = .next (tick State.reset) :=
  ⟨⟨by decide, fun c h => nomatch h⟩, rfl⟩

/-- States and operands that meet the hypotheses of `Obligations.FetchedPacketRunsItsCommand`, clause by clause. -/
theorem test_meets_FetchedPacketRunsItsCommand :
    let s : State := setQueue ready0 3 { q3 with sqTail := 1 }; let i : Instr := job1; let h : CmdHdr := hdr []
    let op : Nat := 0x0106
    let q := h.queue.toNat
    let v := queueOf s q
    let s0 := setQueue s q { v with sqHead := (v.sqHead + 1) % 2 ^ v.log2 }
    let s1 := arrived h s0
    i.wf = true ∧ cmdOf i = some (h, op) ∧ h.mctp = false ∧ mayFetch s q = true ∧ v.sqHead ≠ v.sqTail ∧
    dmaOk s (v.sq + 64 * v.sqHead) 64 = true ∧ tooFar s1 h = false ∧
    ((h.pb ≠ [] → pbNeed s1 op h.pb ≤ h.pb.length ∧ (if h.pbDev then pbDevOk s1 h.pbAddr.toNat h.pb.length = true ∧ bytesAt s1 h.pbAddr.toNat h.pb.length = h.pb else dmaOk s1 h.pbAddr.toNat h.pb.length = true))) := by
  decide +kernel

/-- States and operands that meet the hypotheses of `Obligations.RefusedCommandsChangeNothing`, clause by clause. -/
theorem test_meets_RefusedCommandsChangeNothing :
    let s : State := ready0; let i : Instr := .queueDelete (hdr []) 0; let h : CmdHdr := hdr []
    let op : Nat := 0x0103
    let k := body i (begun h op s)
    cmdOf i = some (h, op) ∧ Ready h op i s ∧ k.status ≠ 0 ∧ k.status ≠ stIntegrity ∧ k.status ≠ stPoison ∧
    ((k.status = stSecurity → op ≠ 0x0109)) := by
  decide +kernel

/-- States and operands that meet the hypotheses of `Obligations.ModuleRefusals`, clause by clause. -/
theorem test_meets_ModuleRefusals :
    (let s : State := withHost (fun p => { p with fatal := true }) ready0
     let i : Instr := .treimMapApplyJobStart (hdr []); let h : CmdHdr := hdr []; let op : Nat := 0x0210
     let a := arrived h s
     cmdOf i = some (h, op) ∧ h.mctp = false ∧ mayFetch s h.queue.toNat = true ∧ tooFar a h = false ∧
     (queueOf s h.queue.toNat).waiting = [] ∧ queueReady a h op = true ∧ s.host.fatal = true) ∧
    (let s : State := withSec (fun p => { p with recovery := true }) ready0
     let i : Instr := .treimMapApplyJobStart (hdr []); let h : CmdHdr := hdr []; let op : Nat := 0x0210
     let a := arrived h s
     cmdOf i = some (h, op) ∧ h.mctp = false ∧ mayFetch s h.queue.toNat = true ∧ tooFar a h = false ∧
     (queueOf s h.queue.toNat).waiting = [] ∧ queueReady a h op = true ∧ s.host.fatal = false ∧
     s.sec.recovery = true ∧ op ≠ 0x0101 ∧ op ≠ 0x0901 ∧ op ≠ 0x0109) ∧
    (let s : State := withPwr (fun p => { p with state := 1 }) ready0
     let i : Instr := .treimMapApplyJobStart (hdr []); let h : CmdHdr := hdr []; let op : Nat := 0x0210
     let a := arrived h s
     cmdOf i = some (h, op) ∧ h.mctp = false ∧ mayFetch s h.queue.toNat = true ∧ tooFar a h = false ∧
     (queueOf s h.queue.toNat).waiting = [] ∧ queueReady a h op = true ∧ s.host.fatal = false ∧
     s.sec.recovery = false ∧ s.pwr.state ≠ 0 ∧ bedRefused a i = true) := by
  refine ⟨?_, ?_, ?_⟩ <;> decide +kernel

/-- States and operands that meet the hypotheses of `Obligations.StepBeginRefusals`, clause by clause. -/
theorem test_meets_StepBeginRefusals :
    (let s : State := abortedJob; let h : CmdHdr := hdr []; let st : W64 := 0; let salt : W32 := 0
     let gen : Byte := 0; let tc : W64 := 0; let tm : W64 := 0; let dl : W64 := 0
     let i : Instr := .stepBegin h st salt gen tc tm dl
     let b := begun h 0x0401 s
     Ready h 0x0401 i s ∧ jobAborted b = true) ∧
    (let s : State := withPwr (fun p => { p with fenced := true }) ready0; let h : CmdHdr := hdr []
     let st : W64 := 0; let salt : W32 := 0; let gen : Byte := 0; let tc : W64 := 0; let tm : W64 := 0
     let dl : W64 := 0
     let i : Instr := .stepBegin h st salt gen tc tm dl
     let b := begun h 0x0401 s
     Ready h 0x0401 i s ∧ jobAborted b = false ∧ b.pwr.fenced = true) ∧
    (let s : State := withRc (fun r => { r with state := 6 }) ready0; let h : CmdHdr := hdr []; let st : W64 := 0
     let salt : W32 := 0; let gen : Byte := 0; let tc : W64 := 0; let tm : W64 := 0; let dl : W64 := 0
     let i : Instr := .stepBegin h st salt gen tc tm dl
     let b := begun h 0x0401 s
     Ready h 0x0401 i s ∧ jobAborted b = false ∧ b.pwr.fenced = false ∧ resumePending b = true) ∧
    (let s : State := withRc (fun r => { r with state := 5 }) ready0; let h : CmdHdr := hdr []; let st : W64 := 0
     let salt : W32 := 0; let gen : Byte := 0; let tc : W64 := 0; let tm : W64 := 0; let dl : W64 := 0
     let i : Instr := .stepBegin h st salt gen tc tm dl
     let b := begun h 0x0401 s
     let r := b.stp.rc
     Ready h 0x0401 i s ∧ jobAborted b = false ∧ b.pwr.fenced = false ∧ resumePending b = false ∧ r.state ≠ 0) ∧
    (let s : State := ready0; let h : CmdHdr := hdr []; let st : W64 := 1; let salt : W32 := 0; let gen : Byte := 0
     let tc : W64 := 0; let tm : W64 := 0; let dl : W64 := 0
     let i : Instr := .stepBegin h st salt gen tc tm dl
     let b := begun h 0x0401 s
     let r := b.stp.rc
     Ready h 0x0401 i s ∧ jobAborted b = false ∧ b.pwr.fenced = false ∧ resumePending b = false ∧ r.state = 0 ∧
     st.toNat ≠ r.step) ∧
    (let s : State := ready0; let h : CmdHdr := hdr []; let st : W64 := 0; let salt : W32 := 0; let gen : Byte := 0
     let tc : W64 := 0; let tm : W64 := 0; let dl : W64 := 0
     let i : Instr := .stepBegin h st salt gen tc tm dl
     let b := begun h 0x0401 s
     let r := b.stp.rc
     Ready h 0x0401 i s ∧ jobAborted b = false ∧ b.pwr.fenced = false ∧ resumePending b = false ∧ r.state = 0 ∧
     st.toNat = r.step ∧ flag gen.toNat 0 = r.gen) ∧
    (let s : State := fenced0 job0; let h : CmdHdr := hdr []; let st : W64 := 0; let salt : W32 := 0
     let gen : Byte := 1; let tc : W64 := 0; let tm : W64 := 0; let dl : W64 := 0
     let i : Instr := .stepBegin h st salt gen tc tm dl
     let b := begun h 0x0401 s
     let r := b.stp.rc
     Ready h 0x0401 i s ∧ jobAborted b = false ∧ b.pwr.fenced = false ∧ resumePending b = false ∧ r.state = 0 ∧
     st.toNat = r.step ∧ flag gen.toNat 0 ≠ r.gen ∧ ((∃ t ∈ programTiles b, (tileOf b t).isFenced = true))) ∧
    (let s : State := ready0; let h : CmdHdr := hdr []; let st : W64 := 0; let salt : W32 := 0; let gen : Byte := 1
     let tc : W64 := 0; let tm : W64 := 0; let dl : W64 := 0
     let i : Instr := .stepBegin h st salt gen tc tm dl
     let b := begun h 0x0401 s
     let r := b.stp.rc
     Ready h 0x0401 i s ∧ jobAborted b = false ∧ b.pwr.fenced = false ∧ resumePending b = false ∧ r.state = 0 ∧
     st.toNat = r.step ∧ flag gen.toNat 0 ≠ r.gen ∧ ((∀ t ∈ programTiles b, (tileOf b t).isFenced = false)) ∧
     ((b.stp.r = 0 ∨ b.cfg.committed = false))) ∧
    (let s : State := { job0 with ck := { job0.ck with items := [1] } }; let h : CmdHdr := hdr []; let st : W64 := 0
     let salt : W32 := 0; let gen : Byte := 1; let tc : W64 := 0; let tm : W64 := 0; let dl : W64 := 0
     let i : Instr := .stepBegin h st salt gen tc tm dl
     let b := begun h 0x0401 s
     let r := b.stp.rc
     Ready h 0x0401 i s ∧ jobAborted b = false ∧ b.pwr.fenced = false ∧ resumePending b = false ∧ r.state = 0 ∧
     st.toNat = r.step ∧ flag gen.toNat 0 ≠ r.gen ∧ ((∀ t ∈ programTiles b, (tileOf b t).isFenced = false)) ∧
     b.stp.r ≠ 0 ∧ b.cfg.committed = true ∧ b.ck.items ≠ [] ∧ ((slotKey b 16 = none ∨ slotKey b 17 = none))) ∧
    (let s : State := at2 job0; let h : CmdHdr := hdr2; let st : W64 := 0; let salt : W32 := 0; let gen : Byte := 1
     let tc : W64 := 2; let tm : W64 := 0; let dl : W64 := 0
     let i : Instr := .stepBegin h st salt gen tc tm dl
     let b := begun h 0x0401 s
     let r := b.stp.rc
     Ready h 0x0401 i s ∧ jobAborted b = false ∧ b.pwr.fenced = false ∧ resumePending b = false ∧ r.state = 0 ∧
     st.toNat = r.step ∧ flag gen.toNat 0 ≠ r.gen ∧ ((∀ t ∈ programTiles b, (tileOf b t).isFenced = false)) ∧
     b.stp.r ≠ 0 ∧ b.cfg.committed = true ∧ ((b.ck.items = [] ∨ (slotKey b 16 ≠ none ∧ slotKey b 17 ≠ none))) ∧
     0 < tc.toNat ∧ tc.toNat ≤ h.notBefore.toNat) ∧
    (let s : State := at2 job0; let h : CmdHdr := hdr2; let st : W64 := 0; let salt : W32 := 0; let gen : Byte := 1
     let tc : W64 := 3; let tm : W64 := 2; let dl : W64 := 0
     let i : Instr := .stepBegin h st salt gen tc tm dl
     let b := begun h 0x0401 s
     let r := b.stp.rc
     Ready h 0x0401 i s ∧ jobAborted b = false ∧ b.pwr.fenced = false ∧ resumePending b = false ∧ r.state = 0 ∧
     st.toNat = r.step ∧ flag gen.toNat 0 ≠ r.gen ∧ ((∀ t ∈ programTiles b, (tileOf b t).isFenced = false)) ∧
     b.stp.r ≠ 0 ∧ b.cfg.committed = true ∧ ((b.ck.items = [] ∨ (slotKey b 16 ≠ none ∧ slotKey b 17 ≠ none))) ∧
     ((tc.toNat = 0 ∨ h.notBefore.toNat < tc.toNat)) ∧ 0 < tm.toNat ∧ tm.toNat ≤ h.notBefore.toNat) ∧
    (let s : State := at2 job0; let h : CmdHdr := hdr2; let st : W64 := 0; let salt : W32 := 0; let gen : Byte := 1
     let tc : W64 := 3; let tm : W64 := 3; let dl : W64 := 3
     let i : Instr := .stepBegin h st salt gen tc tm dl
     let b := begun h 0x0401 s
     let r := b.stp.rc
     Ready h 0x0401 i s ∧ jobAborted b = false ∧ b.pwr.fenced = false ∧ resumePending b = false ∧ r.state = 0 ∧
     st.toNat = r.step ∧ flag gen.toNat 0 ≠ r.gen ∧ ((∀ t ∈ programTiles b, (tileOf b t).isFenced = false)) ∧
     b.stp.r ≠ 0 ∧ b.cfg.committed = true ∧ ((b.ck.items = [] ∨ (slotKey b 16 ≠ none ∧ slotKey b 17 ≠ none))) ∧
     ((tc.toNat = 0 ∨ h.notBefore.toNat < tc.toNat)) ∧ ((tm.toNat = 0 ∨ h.notBefore.toNat < tm.toNat)) ∧
     0 < dl.toNat ∧ dl.toNat ≤ tc.toNat) := by
  refine ⟨?_, ?_, ?_, ?_, ?_, ?_, ?_, ?_, ?_, ?_, ?_, ?_⟩ <;> decide +kernel

/-- States and operands that meet the hypotheses of `Obligations.ManagementCommandsComplete`, clause by clause. -/
theorem test_meets_ManagementCommandsComplete :
    (let s : State := ready0; let h : CmdHdr := hdr []; let buf : Buf := { addr := 0x30000, len := 0x100000 }
     Ready h 0x0101 (.identify h buf) s ∧
     let b := begun h 0x0101 s
     let data := identityData (field b.pwr.straps 6 0)
     Fits b buf data) ∧
    (let s : State := ready0; let h : CmdHdr := hdr []; let qid : Byte := 63; let vector : Byte := 0
     let coalN : Byte := 0; let coalUs : Byte := 0; let log2Depth : Byte := 1; let sq : W64 := 0; let cq : W64 := 0
     Ready h 0x0102 (.queueCreate h qid vector coalN coalUs log2Depth sq cq) s ∧
     let b := begun h 0x0102 s
     let n := log2Depth.toNat
     1 ≤ n ∧ n ≤ 16 ∧ 1 ≤ qid.toNat ∧ qid.toNat ≤ 63 ∧ vector.toNat ≤ 127 ∧ sq.toNat % 64 = 0 ∧ cq.toNat % 16 = 0 ∧
     dmaOk b sq.toNat (64 * 2 ^ n) = true ∧ dmaOk b cq.toNat (16 * 2 ^ n) = true ∧
     (queueOf b qid.toNat).enabled = false) ∧
    (let s : State := setQueue ready0 63 q3; let h : CmdHdr := hdr []; let qid : Byte := 63
     Ready h 0x0103 (.queueDelete h qid) s ∧
     let b := begun h 0x0103 s
     1 ≤ qid.toNat ∧ qid.toNat ≤ 63 ∧ (queueOf b qid.toNat).enabled = true ∧ (queueOf b qid.toNat).deferred = 0 ∧
     (queueOf b qid.toNat).waiting = [] ∧ b.stp.resumeReply = none) ∧
    (let s : State := ready0; let h : CmdHdr := hdr []; let buf : Buf := { addr := 0x30000, len := 0x100000 }
     Ready h 0x0104 (.jobStatus h buf) s ∧
     let b := begun h 0x0104 s
     let data := jobStatusRecord (ltuStatus b) b ++ dropLogBytes b
     Fits b buf data) ∧
    (let s : State := ready0; let h : CmdHdr := hdr []; let ring : W64 := 0; let log2Depth : Byte := 16
     let vector : Byte := 127
     Ready h 0x0105 (.eventRingSet h ring log2Depth vector) s ∧
     let b := begun h 0x0105 s
     let n := log2Depth.toNat
     1 ≤ n ∧ n ≤ 16 ∧ vector.toNat ≤ 127 ∧ ring.toNat % 16 = 0 ∧ dmaOk b ring.toNat (16 * 2 ^ n) = true) ∧
    (let s : State := ready0; let h : CmdHdr := hdr []; let seed : W64 := 0
     Ready h 0x0106 (.jobSeedSet h seed) s ∧
     let b := begun h 0x0106 s
     stepActive b = false) ∧
    (let s : State := ready0; let h : CmdHdr := hdr []
     Ready h 0x0107 (.moduleReset h 0xC0DE0001) s) ∧
    (let s : State := ready0; let h : CmdHdr := hdr []
     Ready h 0x0108 (.moduleBedEnter h) s ∧
     let b := begun h 0x0108 s
     stepActive b = false ∧ resumePending b = false ∧ b.pwr.state = 0) ∧
    (let s : State := withPwr (fun p => { p with state := 2 }) ready0; let h : CmdHdr := hdr []
     Ready h 0x0108 (.moduleBedLeave h) s ∧
     let b := begun h 0x0108 s
     b.pwr.state = 2) ∧
    (let s : State := ready0; let h : CmdHdr := hdr []
     Ready h 0x0109 (.fwUpdate h) s ∧
     let b := begun h 0x0109 s
     let len := leAt h.pb 8 4
     b.host.fwBusy = false ∧ len ≤ 96 * 2 ^ 20 ∧ dmaOk b (leAt h.pb 0 8) len = true) :=
  ⟨⟨by decide +kernel, by decide +kernel, by rw [identityData_length]; decide⟩,
   by decide +kernel,
   by decide +kernel,
   by decide +kernel,
   by decide +kernel,
   by decide +kernel,
   by decide +kernel,
   by decide +kernel,
   by decide +kernel,
   by decide +kernel⟩

/-- States and operands that meet the hypotheses of `Obligations.MoveCommandsComplete`, clause by clause. -/
theorem test_meets_MoveCommandsComplete :
    (let s : State := mapped; let h : CmdHdr := hdr []; let dev : W64 := 0x40000000; let host : W64 := 0
     let len : W64 := 64
     Ready h 0x0201 (.memToHost h dev host len) s ∧
     let b := begun h 0x0201 s
     let n := len.toNat
     dmaOk b host.toNat n = true ∧ moveLenOk n = true ∧ moveRangeOk b true dev.toNat n = true) ∧
    (let s : State := mapped; let h : CmdHdr := hdr []; let host : W64 := 0; let dev : W64 := 0x40000000
     let len : W64 := 64
     Ready h 0x0202 (.memFromHost h host dev len) s ∧
     let b := begun h 0x0202 s
     let n := len.toNat
     dmaOk b host.toNat n = true ∧ moveLenOk n = true ∧ moveRangeOk b false dev.toNat n = true ∧
     (stepActive b && touchesStackLocal b dev.toNat n) = false) ∧
    (let s : State := mapped; let h : CmdHdr := hdr []; let src : W64 := 0; let dst : W64 := 64; let len : W64 := 64
     Ready h 0x0203 (.memCopy h src dst len) s ∧
     let b := begun h 0x0203 s
     let n := len.toNat
     moveLenOk n = true ∧ moveRangeOk b true src.toNat n = true ∧ moveRangeOk b false dst.toNat n = true ∧
     (stepActive b && touchesStackLocal b dst.toNat n) = false) ∧
    (let s : State := mapped; let h : CmdHdr := hdr []; let dst : W64 := 0; let len : W64 := 64
     let pattern : W64 := 0
     Ready h 0x0204 (.memFill h dst len pattern) s ∧
     let b := begun h 0x0204 s
     let n := len.toNat
     moveLenOk n = true ∧ moveRangeOk b false dst.toNat n = true ∧
     (stepActive b && touchesStackLocal b dst.toNat n) = false) := by
  refine ⟨?_, ?_, ?_, ?_⟩ <;> decide +kernel

/-- States and operands that meet the hypotheses of `Obligations.PlacementCommandsComplete`, clause by clause. -/
theorem test_meets_PlacementCommandsComplete :
    (let s : State := reserved; let h : CmdHdr := hdr []
     let p : Placing := placingOf (placement (dropLost (begun (hdr []) 0x0210 reserved)))
     Ready h 0x0210 (.treimMapApplyJobStart h) s ∧
     let b := begun h 0x0210 s
     stepActive b = false ∧ placement (dropLost b) = .inr p) ∧
    (let s : State := reserved; let h : CmdHdr := hdr []
     let p : Placing := placingOf (placement (dropLost (begun (hdr []) 0x0210 reserved)))
     Ready h 0x0210 (.treimMapApplyRestore h) s ∧
     let b := begun h 0x0210 s
     stepActive b = false ∧ placement (dropLost b) = .inr p) ∧
    (let s : State := resumable; let h : CmdHdr := hdr []
     let p : Placing := placingOf (placement (begun (hdr []) 0x0210 resumable))
     Ready h 0x0210 (.treimMapApplyResume h) s ∧
     let b := begun h 0x0210 s
     stepActive b = false ∧ placement b = .inr p ∧
     ((∀ k ∈ List.range 8, (stackOf b k).contentLost = false ∧ loadLe b (fwAddr k 0) 8 = placementCrc b))) ∧
    (let s : State := ready0; let h : CmdHdr := hdr []; let channel : W16 := 0
     Ready h 0x0211 (.treimRetrain h channel) s ∧
     let b := begun h 0x0211 s
     let g := channel.toNat
     g ≤ 1023 ∧ chanLost b (g / 128) (g % 128) = false) ∧
    (let s : State := ready0; let h : CmdHdr := hdr []; let pierMask : Byte := 0
     Ready h 0x0220 (.plinthApply h pierMask) s ∧
     let b := begun h 0x0220 s
     pierMask.toNat ≤ 15 ∧ stepActive b = false ∧ (maskBits 4 pierMask.toNat).any (applyRefused b) = false) ∧
    (let s : State := setReg scratched (plnBase + 0x100 + 4 * 11) 64; let h : CmdHdr := hdr []; let pier : Byte := 0
     let domain : Byte := 11; let pages : Byte := 64; let shared : Byte := 0
     Ready h 0x0221 (.plinthAlloc h pier domain pages shared) s ∧
     let b := begun h 0x0221 s
     let (p, d, n) := (pier.toNat, domain.toNat, pages.toNat)
     p ≤ 3 ∧ d ≤ 11 ∧ 1 ≤ n ∧ n ≤ 64 ∧ shared.toNat ≤ 1 ∧ pageUse b p d + n ≤ quotaOf b p d ∧ freeRuns b p n ≠ []) ∧
    (let s : State := takePages 0 (46 * 64 + 63) 1 11 false scratched; let h : CmdHdr := hdr []
     let pier : Byte := 0; let region : Byte := 46; let first : Byte := 63; let pages : Byte := 1
     Ready h 0x0222 (.plinthFree h pier region first pages) s ∧
     let b := begun h 0x0222 s
     let (p, r, g, n) := (pier.toNat, region.toNat, first.toNat, pages.toNat)
     p ≤ 3 ∧ r ≤ 46 ∧ 1 ≤ n ∧ g + n ≤ 64 ∧
     ((∀ i ∈ List.range n, 1 ≤ (pageHolder b p r (g + i)).1 ∧ (pageHolder b p r (g + i)).1 ≤ 12)) ∧
     runBound b p (r * 64 + g) n = false) ∧
    (let s : State := ready0; let h : CmdHdr := hdr []; let pierMask : Byte := 0; let domain : Byte := 0
     let quota : W16 := 0
     Ready h 0x0223 (.plinthQuota h pierMask domain quota) s ∧ pierMask.toNat ≤ 15 ∧ domain.toNat ≤ 14 ∧
     quota.toNat ≤ 3072) :=
  ⟨⟨by decide +kernel, by decide +kernel, placing_of_right _ placed_apply⟩,
   ⟨by decide +kernel, by decide +kernel, placing_of_right _ placed_apply⟩,
   ⟨by decide +kernel, by decide +kernel, placing_of_right _ placed_resume, by
     rw [placementCrc_none (begun (hdr []) 0x0210 resumable) reserved_regs rfl]; decide +kernel⟩,
   by decide +kernel,
   by decide +kernel,
   by decide +kernel,
   by decide +kernel,
   by decide +kernel⟩

/-- States and operands that meet the hypotheses of `Obligations.CorbelCommandsComplete`, clause by clause. -/
theorem test_meets_CorbelCommandsComplete :
    (let s : State := ready0; let h : CmdHdr := hdr []
     Ready h 0x0230 (.corbelLoad h) s ∧
     let b := begun h 0x0230 s
     let init := leAt h.pb 1 1
     stepActive b = false ∧ init ≤ 1 ∧ (¬(init = 1 ∧ resumePending b = true)) ∧
     corbelLoadFail b (leAt h.pb 0 1) (loadGroups h.pb) (loadShards h.pb) = none) ∧
    (let s : State := ready0; let h : CmdHdr := hdr []
     Ready h 0x0231 (.corbelGroupSet h) s ∧
     let b := begun h 0x0231 s
     leAt h.pb 0 1 = 0 ∧ leAt h.pb 1 1 = 0 ∧ leAt h.pb 4 4 = 0 ∧
     ((∀ g ∈ loadGroups h.pb, g.1 < 1024 ∧ (groupOf b (g.1 % 1024)).isSome = true))) ∧
    (let s : State := withCbl (fun c => { c with placed := 3 }) job0; let h : CmdHdr := hdr []; let rerun : Nat := 0
     let torn : Nat := 0; let t : State := begun (hdr []) 0x0232 (withCbl (fun c => { c with placed := 3 }) job0)
     Ready h 0x0232 (.corbelResume h) s ∧
     let b := begun h 0x0232 s
     b.pwr.fenced = false ∧ b.stp.rc.state = 0 ∧ resumeMissing b = none ∧ resumeMemory b = (rerun, torn, t) ∧
     t.stp.rc.state = 0) ∧
    (let s : State := withRc (fun r => { r with state := 6 }) (withCbl (fun c => { c with placed := 3 }) job0)
     let h : CmdHdr := hdr []; let rerun : Nat := 0; let torn : Nat := 0
     let t : State := begun (hdr []) 0x0232 (withRc (fun r => { r with state := 6 }) (withCbl (fun c => { c with placed := 3 }) job0))
     Ready h 0x0232 (.corbelResume h) s ∧
     let b := begun h 0x0232 s
     b.pwr.fenced = false ∧ b.stp.rc.state = 6 ∧ resumeMissing b = none ∧ resumeMemory b = (rerun, torn, t) ∧
     t.stp.rc.state = 6) ∧
    (let s : State := ready0; let h : CmdHdr := hdr []
     Ready h 0x0233 (.corbelUnfreeze h) s ∧
     let b := begun h 0x0233 s
     let gs := (List.range (leAt h.pb 0 4)).map (fun i => leAt h.pb (64 + 2 * i) 2)
     ((∀ g ∈ gs, g < 1024 ∧ (groupOf b g).isSome = true))) :=
  ⟨by decide +kernel,
   by decide +kernel,
   ⟨by decide +kernel, by decide +kernel, by decide +kernel, resumeMissing_empty _ rfl rfl rfl, resumeMemory_empty _ rfl rfl rfl, by decide +kernel⟩,
   ⟨by decide +kernel, by decide +kernel, by decide +kernel, resumeMissing_empty _ rfl rfl rfl, resumeMemory_empty _ rfl rfl rfl, by decide +kernel⟩,
   by decide +kernel⟩

/-- States and operands that meet the hypotheses of `Obligations.TileCommandsComplete`, clause by clause. -/
theorem test_meets_TileCommandsComplete :
    (let h : CmdHdr := hdr (block (leBytes 12 1) 64 (leBytes 8 0)); let s : State := imaged; let t0 : Nat := 0
     let ts : List Nat := []
     let parts : List LoadPart := partsOf (loadImages (leAt h.pb 16 4) (loadList h.pb) (begun h 0x0301 s)).1
     let u : State := (loadImages (leAt h.pb 16 4) (loadList h.pb) (begun h 0x0301 s)).2
     Ready h 0x0301 (.programLoad h) s ∧
     let b := begun h 0x0301 s
     let l := leAt h.pb 16 4
     stepActive b = false ∧ leAt h.pb 12 1 ≤ 11 ∧ l % 64 = 0 ∧ maskBits 96 (leAt h.pb 0 12) = t0 :: ts ∧
     loadImages l (loadList h.pb) b = (.inr parts, u) ∧ gatherOk u (t0 / 24) t0 (loadGathers h.pb) = true) ∧
    (let s : State := ready0; let h : CmdHdr := hdr []; let mask : BitVec 96 := 0
     Ready h 0x0302 (.tileFence h mask) s) ∧
    (let s : State := ready0; let h : CmdHdr := hdr []; let mask : BitVec 96 := 0
     Ready h 0x0303 (.tileUnfence h mask) s ∧
     let b := begun h 0x0303 s
     stepActive b = false) ∧
    (let s : State := ready0; let h : CmdHdr := hdr []; let mask : BitVec 96 := 0
     let buf : Buf := { addr := 0x30000, len := 0x100000 }
     Ready h 0x0304 (.tileQuery h mask buf) s ∧
     let b := begun h 0x0304 s
     let data := (maskBits 96 mask.toNat).flatMap (fun t => leBytes 4 (tilStatus b t) ++ leBytes 4 (tilFault b t))
     Fits b buf data) :=
  ⟨⟨by decide +kernel, by decide +kernel, by decide +kernel, by decide +kernel, by decide +kernel, images_of_right _ (by decide +kernel), by decide +kernel⟩,
   by decide +kernel,
   by decide +kernel,
   by decide +kernel⟩

/-- States and operands that meet the hypotheses of `Obligations.StepCommandsComplete`, clause by clause. -/
theorem test_meets_StepCommandsComplete :
    (let s : State := job0; let h : CmdHdr := hdr []; let st : W64 := 0; let salt : W32 := 0; let gen : Byte := 1
     let tCheck : W64 := 0; let tCommit : W64 := 0; let deadline : W64 := 0
     Ready h 0x0401 (.stepBegin h st salt gen tCheck tCommit deadline) s ∧
     let b := begun h 0x0401 s
     stepBeginRefusal b h.notBefore.toNat st.toNat gen.toNat tCheck.toNat tCommit.toNat deadline.toNat = none) ∧
    (let s : State := withRc (fun r => { r with state := 1 }) job0; let h : CmdHdr := hdr []; let st : W64 := 0
     Ready h 0x0402 (.stepAbort h st) s ∧
     let b := begun h 0x0402 s
     ((b.stp.rc.state = 1 ∨ b.stp.rc.state = 2 ∨ b.stp.rc.state = 5)) ∧ st.toNat = b.stp.rc.step) ∧
    (let s : State := ready0; let h : CmdHdr := hdr []; let buf : Buf := { addr := 0x30000, len := 0x100000 }
     Ready h 0x0403 (.stepQuery h buf) s ∧
     let b := begun h 0x0403 s
     let data := stepRecordImage b.stp.rc ++ leBytes 4 (topStepState b) ++ leBytes 4 b.stp.endWord
     Fits b buf data) ∧
    (let s : State := ready0; let h : CmdHdr := hdr []; let tid : W16 := 0; let margin : W32 := 0x3F800000
     let hostScale : W32 := 0; let depth : Byte := 63; let flags : Byte := 0
     Ready h 0x0404 (.tensorScale h tid margin hostScale depth flags) s ∧ marginOk margin.toNat = true ∧
     ((flag flags.toNat 0 = true → posNormal hostScale.toNat = true)) ∧ depth.toNat ≤ 63) ∧
    (let s : State := withRc (fun r => { r with state := 7 }) job0; let h : CmdHdr := hdr []; let st : W64 := 0
     Ready h 0x0405 (.stepResume h st) s ∧
     let b := begun h 0x0405 s
     jobAborted b = false ∧ b.stp.rc.state = 7 ∧ st.toNat = b.stp.rc.step ∧ b.stp.r ≠ 0) ∧
    (let s : State := job0; let h : CmdHdr := hdr (block (leBytes 4 1 ++ leBytes 4 1) 64 (leBytes 2 5))
     Ready h 0x0406 (.jobGroups h) s ∧
     let b := begun h 0x0406 s
     let (r, q, own) := (leAt h.pb 0 4, leAt h.pb 4 4, leAt h.pb 8 4)
     let ms := (List.range (r * q)).map (fun i => leAt h.pb (64 + 2 * i) 2)
     stepActive b = false ∧ r ≠ 0 ∧ q ≠ 0 ∧ r * q ≤ 65535 ∧ own < r * q ∧ ms.getD own 0xFFFF = ownFid b ∧
     ((∀ m ∈ ms, m ≠ 0xFFFF ∧ (ms.filter (· = m)).length ≤ 1))) ∧
    (let s : State := ready0; let h : CmdHdr := hdr []
     Ready h 0x0407 (.queueLoad h) s ∧
     let b := begun h 0x0407 s
     let ds := queueDescs h.pb
     stepActive b = false ∧ ((∀ p ∈ ds, queueDescBad b ds p = false)) ∧ queueSlotsOk b ds = true) ∧
    (let s : State := job0; let h : CmdHdr := hdr (block (leBytes 4 1) 64 (leBytes 4 0x00050000))
     Ready h 0x0408 (.expertTableLoad h) s ∧
     let b := begun h 0x0408 s
     let es := (List.range (leAt h.pb 0 4)).map (fun i => leAt h.pb (64 + 4 * i) 4)
     stepActive b = false ∧ 1 ≤ leAt h.pb 0 4 ∧ leAt h.pb 0 4 ≤ 4096 ∧
     ((∀ e ∈ es, field e 31 16 ≠ 0xFFFF ∧ b.stp.members.contains (field e 31 16) = true ∧ field e 15 12 = 0 ∧ (es.filter (· = e)).length ≤ 1))) := by
  refine ⟨?_, ?_, ?_, ?_, ?_, ?_, ?_, ?_⟩ <;> decide +kernel

/-- States and operands that meet the hypotheses of `Obligations.FabricCommandsComplete`, clause by clause. -/
theorem test_meets_FabricCommandsComplete :
    (let s : State := ready0; let h : CmdHdr := hdr (block (leBytes 4 0x440) 64 [])
     Ready h 0x0501 (.fabricConfig h) s ∧
     let b := begun h 0x0501 s
     let cfg := leAt h.pb 0 4 / 16 * 16
     stepActive b = false ∧ field cfg 14 10 ≠ 0 ∧ 4 ≤ field cfg 9 4 ∧ ckptAreaOk b (leAt h.pb 16 4) = true) ∧
    (let s : State := ready0; let h : CmdHdr := hdr (block [] 64 [])
     Ready h 0x0502 (.fabricRouteLoad h) s ∧ leAt h.pb 0 2 + leAt h.pb 4 4 ≤ 65536 ∧
     64 + 2 * leAt h.pb 4 4 ≤ h.pb.length) ∧
    (let s : State := job0; let h : CmdHdr := hdr (leBytes 64 (0xFFFFFFFF * 2 ^ 332 + 1 * 2 ^ 496 + 1 * 2 ^ 492))
     Ready h 0x0503 (.collSetup h) s ∧
     let b := begun h 0x0503 s
     let hd := leAt h.pb 0 64
     let c := collLists b hd h.pb
     1 ≤ hdHandle hd ∧ hdHandle hd < 0xFFF0 ∧ ((stepActive b = true → hdTOff hd = 0xFFFFFFFF)) ∧
     handleOf b (hdHandle hd) = none ∧ queueDesc b (hdHandle hd) = none ∧ collFault b c = none ∧
     b.fab.handles.length + b.stp.queues.length < 4096) ∧
    (let s : State := handled; let h : CmdHdr := hdr []; let handle : W16 := 1; let c : Handle := handle0
     Ready h 0x0504 (.collFree h handle) s ∧
     let b := begun h 0x0504 s
     handleOf b handle.toNat = some c ∧ c.run = none) ∧
    (let s : State := handled; let h : CmdHdr := hdr []; let handle : W16 := 1; let c : Handle := handle0
     Ready h 0x0505 (.collRun h handle) s ∧
     let b := begun h 0x0505 s
     handleOf b handle.toNat = some c ∧ hdTOff c.header = 0xFFFFFFFF ∧ c.run = none) ∧
    (let s : State := ready0; let h : CmdHdr := hdr []; let buf : Buf := { addr := 0x30000, len := 0x100000 }
     Ready h 0x0506 (.fabricQuery h buf) s ∧
     let b := begun h 0x0506 s
     let data := fabricRecord b
     Fits b buf data) ∧
    (let s : State := handled; let h : CmdHdr := hdr []; let handle : W16 := 1
     let buf : Buf := { addr := 0x30000, len := 0x100000 }; let c : Handle := handle0
     Ready h 0x0507 (.collQuery h handle buf) s ∧
     let b := begun h 0x0507 s
     let data := collRecord c
     handleOf b handle.toNat = some c ∧ Fits b buf data) := by
  refine ⟨?_, ?_, ?_, ?_, ?_, ?_, ?_⟩ <;> decide +kernel

/-- States and operands that meet the hypotheses of `Obligations.ExchangeCommandsComplete`, clause by clause. -/
theorem test_meets_ExchangeCommandsComplete :
    (let s : State := ready0; let h : CmdHdr := hdr exchPb
     Ready h 0x0601 (.exchConfig h) s ∧
     let b := begun h 0x0601 s
     stepActive b = false ∧ exchBad h.pb = none) ∧
    (let s : State := ready0; let h : CmdHdr := hdr (block [] 64 [])
     Ready h 0x0602 (.exchPartners h) s ∧
     let b := begun h 0x0602 s
     let n := leAt h.pb 0 4
     flag (getReg b (fabBase + 0x14)) 0 = false ∧ stepActive b = false ∧ n ≤ 4096 ∧ 64 + 32 * n ≤ h.pb.length) ∧
    (let s : State := ready0; let h : CmdHdr := hdr (block [16] 64 [])
     Ready h 0x0603 (.exchWeights h) s ∧
     let b := begun h 0x0603 s
     let n := leAt h.pb 0 1
     stepActive b = false ∧ 1 ≤ n ∧ n ≤ 16) ∧
    (let s : State := withNpx (fun x => { x with configured := true }) ready0; let h : CmdHdr := hdr []
     Ready h 0x0604 (.exchJoin h) s ∧
     let b := begun h 0x0604 s
     b.npx.configured = true ∧ b.npx.state ≠ 4) ∧
    (let s : State := ready0; let h : CmdHdr := hdr []; let buf : Buf := { addr := 0x30000, len := 0x100000 }
     Ready h 0x0605 (.exchQuery h buf) s ∧
     let b := begun h 0x0605 s
     let data := exchRecord b
     Fits b buf data) ∧
    (let s : State := withNpx (fun x => { x with configured := true }) ready0; let h : CmdHdr := hdr []
     Ready h 0x0606 (.exchFetch h) s ∧
     let b := begun h 0x0606 s
     b.npx.configured = true) := by
  refine ⟨?_, ?_, ?_, ?_, ?_, ?_⟩ <;> decide +kernel

/-- States and operands that meet the hypotheses of `Obligations.CheckpointCommandsComplete`, clause by clause. -/
theorem test_meets_CheckpointCommandsComplete :
    (let s : State := withFab (fun f => { f with buddy := 1, area := 70000000 }) job0
     let h : CmdHdr := hdr (block [1] 64 (leBytes 16 (5 * 2 ^ 124 + fwAddr 0 0 * 2 ^ 64 + 8448 * 2 ^ 32)))
     Ready h 0x0701 (.ckptConfig h) s ∧
     let b := begun h 0x0701 s
     let n := leAt h.pb 0 2
     let items := (List.range n).map (fun i => leAt h.pb (64 + 16 * i) 16)
     stepActive b = false ∧ 1 ≤ n ∧ n ≤ 251 ∧ leAt h.pb 2 2 ≤ 3600 ∧
     ((∀ e ∈ items, 1 ≤ ciKind e ∧ ciKind e ≤ 5 ∧ ciSect e ≠ 0)) ∧
     ((∀ p ∈ allShards b, shardCovered items p.1 p.2.2.desc = true)) ∧ fwCovered b items = true ∧ b.fab.buddy = 1 ∧
     4096 * slotSectors items ≤ b.fab.area / 2) ∧
    (let s : State := ready0; let h : CmdHdr := hdr []; let buf : Buf := { addr := 0x30000, len := 0x100000 }
     Ready h 0x0702 (.ckptQuery h buf) s ∧
     let b := begun h 0x0702 s
     let data := ckptRecord b
     Fits b buf data) ∧
    (let s : State := restored; let h : CmdHdr := { hdr [] with hostData := restoreImage }; let outer : W32 := 0
     let datas : List (Nat × List Byte) := []
     Ready h 0x0703 (.ckptRestore h outer) s ∧
     let b := begun h 0x0703 s
     let w := leAt h.hostData 0 64
     stepActive b = false ∧ b.pwr.fenced = false ∧ field w 511 504 = 1 ∧ field w 479 448 = jobId b ∧
     field w 495 480 = ownFid b ∧ field w 447 416 = outer.toNat ∧ openSlot b h.hostData = some datas ∧
     printsGood (slotRestored datas b) = true) ∧
    (let s : State := job0; let h : CmdHdr := hdr (block [0] 64 [])
     Ready h 0x0704 (.replicaRepairNameSource h) s ∧
     let b := begun h 0x0704 s
     let rep := leAt h.pb 2 2
     let l := repairList h
     stepActive b = false ∧ rep < b.stp.r ∧ ((∀ p ∈ l, (shardOf b p.1 p.2).isSome = true))) ∧
    (let s : State := withRc (fun r => { r with outcome := 7 }) job0
     let h : CmdHdr := { hdr (block [1] 64 []) with hostData := stepRecordImage StepRec.zero }
     let r : StepRec := StepRec.zero
     Ready h 0x0704 (.replicaRepairCatchUp h) s ∧
     let b := begun h 0x0704 s
     let l := repairList h
     let a := catchUpShards l h.hostData b
     stepActive b = false ∧ b.stp.rc.outcome = 7 ∧ ((∀ p ∈ l, (shardOf b p.1 p.2).isSome = true)) ∧
     readRecord (slice a.1 0 64) = some r) :=
  ⟨by decide +kernel,
   by decide +kernel,
   ⟨by decide +kernel, by decide +kernel, by decide +kernel, by decide +kernel, by decide +kernel, by decide +kernel, by decide +kernel, restored_opens _ rfl rfl, by decide +kernel⟩,
   by decide +kernel,
   by decide +kernel⟩

/-- States and operands that meet the hypotheses of `Obligations.TimeCommandsComplete`, clause by clause. -/
theorem test_meets_TimeCommandsComplete :
    (let s : State := ready0; let h : CmdHdr := hdr []; let epoch : W64 := 0; let ppsSecond : W64 := 0
     Ready h 0x0801 (.timeEpoch h epoch ppsSecond) s ∧
     let b := begun h 0x0801 s
     stepActive b = false) ∧
    (let s : State := ready0; let h : CmdHdr := hdr []; let buf : Buf := { addr := 0x30000, len := 0x100000 }
     Ready h 0x0802 (.timeQuery h buf) s ∧
     let b := begun h 0x0802 s
     let data := timeRecord b
     Fits b buf data) ∧
    (let s : State := ready0; let h : CmdHdr := hdr budgetPb
     Ready h 0x0803 (.budgetSet h) s ∧
     let b := begun h 0x0803 s
     b.bud.pending = none ∧ budgetOk (budgetWords h.pb) = true) ∧
    (let s : State := ready0; let h : CmdHdr := hdr []; let timer : Byte := 0; let ctl : W32 := 0
     let expiry : W64 := 0
     Ready h 0x0804 (.timeTimer h timer ctl expiry) s ∧
     let n := timer.toNat
     n ≤ 7) ∧
    (let s : State := ready0; let h : CmdHdr := hdr []
     Ready h 0x0805 (.timePathSet h) s) := by
  refine ⟨?_, ?_, ?_, ?_, ?_⟩ <;> decide +kernel

/-- States and operands that meet the hypotheses of `Obligations.SecurityCommandsComplete`, clause by clause. -/
theorem test_meets_SecurityCommandsComplete :
    (∀ n, n = (identityBundle (begun (hdr []) 0x0901 ready0)).length → n ≤ 0x100000 →
       let buf : Buf := { addr := 0x30000, len := 0x100000 }
       Ready (hdr []) 0x0901 (.secIdentity (hdr []) buf) ready0 ∧
         Fits (begun (hdr []) 0x0901 ready0) buf (identityBundle (begun (hdr []) 0x0901 ready0))) ∧
    (let s : State := unmeasured; let h : CmdHdr := hdr []; let buf : Buf := { addr := 0x30000, len := 0x100000 }
     let nonce : BitVec 256 := 0
     Ready h 0x0902 (.secAttest h buf nonce) s ∧
     let b := begun h 0x0902 s
     let body := attestBody b (leBytes 32 nonce.toNat)
     let data := body ++ slice (Config.sign 0 body) 0 2420
     Fits b buf data) ∧
    (let s : State := ready0; let h : CmdHdr := hdr (block (leBytes 8 (3604 * 2 ^ 32)) 3712 [])
     Ready h 0x0903 (.secKeyLoad h) s ∧
     let b := begun h 0x0903 s
     let (slot, kind) := (leAt h.pb 0 1, leAt h.pb 1 1)
     slotInUse b slot = false ∧ leAt h.pb 4 4 = 3604) ∧
    (let s : State := ready0; let h : CmdHdr := hdr []; let slot : Byte := 0
     Ready h 0x0904 (.secKeyClear h slot) s ∧
     let b := begun h 0x0904 s
     slot.toNat ≤ 17 ∧ slotInUse b slot.toNat = false) ∧
    (let s : State := ready0; let h : CmdHdr := hdr []
     Ready h 0x0905 (.secOwnerEnrol h) s ∧
     let b := begun h 0x0905 s
     stepActive b = false) ∧
    (let s : State := ready0; let h : CmdHdr := hdr []
     Ready h 0x0906 (.secRollbackSet h) s) :=
  ⟨fun n hn hl => ⟨by decide +kernel, by decide +kernel, hn ▸ hl⟩,
   ⟨by decide +kernel, by decide +kernel, attest_fits⟩,
   by decide +kernel,
   by decide +kernel,
   by decide +kernel,
   by decide +kernel⟩

/-- States and operands that meet the hypotheses of `Obligations.TelemetryCommandsComplete`, clause by clause. -/
theorem test_meets_TelemetryCommandsComplete :
    (let s : State := ready0; let h : CmdHdr := hdr []; let block : Byte := 0; let inst : W16 := 0
     let buf : Buf := { addr := 0x30000, len := 0x100000 }; let name : Nat := (regBlocks.headD (0, 0, 0)).1
     let base : Nat := (regBlocks.headD (0, 0, 0)).2.1; let pages : Nat := (regBlocks.headD (0, 0, 0)).2.2
     Ready h 0x0A01 (.countersRead h block inst buf) s ∧
     let b := begun h 0x0A01 s
     regBlocks[block.toNat]? = some (name, base, pages) ∧ inst.toNat < pages ∧ b.host.snapBusy = false ∧
     let m := snapPage (base / 0x4000 + inst.toNat) b
     let data := (List.range 1024).flatMap (fun i => leBytes 4 (sget 0 m.1 (4 * i)))
     Fits b buf data) ∧
    (let s : State := ready0; let h : CmdHdr := hdr []; let clear : Byte := 0
     let buf : Buf := { addr := 0x30000, len := 0x100000 }
     Ready h 0x0A02 (.slogRead h clear buf) s ∧
     let b := begun h 0x0A02 s
     let rs := b.slog.first ++ b.slog.ring
     Fits b buf (rs.flatMap (leBytes 32))) ∧
    (let s : State := ready0; let h : CmdHdr := hdr []; let first : W16 := 0; let n : W16 := 0
     let buf : Buf := { addr := 0x30000, len := 0x100000 }
     Ready h 0x0A03 (.tensorRead h first n buf) s ∧
     let b := begun h 0x0A03 s
     let ids := ((List.range n.toNat).map (fun i => first.toNat + i)).filter (· < 65536)
     let data := ids.flatMap (fun i =>
       let t := tensorOf b i
       leBytes 16 (scaleRecord t) ++ leBytes 8 t.satCnt ++ leBytes 8 t.nfCnt ++ leBytes 8 t.crushCnt)
     Fits b buf data) ∧
    (let s : State := ready0; let h : CmdHdr := hdr []; let first : W16 := 0; let n : W16 := 0
     let buf : Buf := { addr := 0x30000, len := 0x100000 }
     Ready h 0x0A04 (.queueStats h first n buf) s ∧
     let b := begun h 0x0A04 s
     let qs := b.stp.queues.filter (fun e => decide (first.toNat ≤ e.1) && decide (e.1 < first.toNat + n.toNat))
     let data := qs.flatMap (fun e => (e.2.map (fun q => leBytes 2 e.1 ++ leBytes 6 q.high ++ leBytes 8 q.fills)).getD [])
     Fits b buf data) ∧
    (let s : State := ready0; let h : CmdHdr := hdr []; let buf : Buf := { addr := 0x30000, len := 0x100000 }
     Ready h 0x0A05 (.sensorsRead h buf) s ∧
     let b := begun h 0x0A05 s
     let data := sensorData b
     Fits b buf data) ∧
    (let s : State := ready0; let h : CmdHdr := hdr []; let test : W16 := 0; let param : W64 := 0
     Ready h 0x0A06 (.diagRun h test param) s ∧
     let b := begun h 0x0A06 s
     stepActive b = false) := by
  refine ⟨?_, ?_, ?_, ?_, ?_, ?_⟩ <;> decide +kernel

/-- States and operands that meet the hypotheses of `Obligations.HostQueueEvents`, clause by clause. -/
theorem test_meets_HostQueueEvents :
    (let s : State := withQ (fun q => { q with sqTail := 1 }) ready0; let queue : BitVec 6 := 3
     let v := queueOf s queue.toNat
     mayFetch s queue.toNat = true ∧ v.sqHead ≠ v.sqTail ∧ dmaOk s (v.sq + 64 * v.sqHead) 64 = true) ∧
    (let s : State := withQ (fun q => { q with waiting := [job1] }) ready0; let queue : BitVec 6 := 3
     let h : CmdHdr := hdr []; let op : Nat := 0x0106; let c : Instr := job1
     s.pwr.stage = 5 ∧ s.host.orphans = [] ∧ (queueOf s queue.toNat).waiting = [c] ∧ cmdOf c = some (h, op) ∧
     queueReady s h op = true ∧ s.host.d3hot = false) ∧
    (let s : State := ready0; let queue : BitVec 6 := 3; let value : W32 := 15
     let v := queueOf s queue.toNat
     v.enabled = true ∧ v.err = false ∧ value.toNat < 2 ^ v.log2) ∧
    (let s : State := withQ (fun q => { q with used := 1 }) ready0; let queue : BitVec 6 := 3; let value : W32 := 1
     let v := queueOf s queue.toNat
     let released := (value.toNat + 2 ^ v.log2 - v.cqHead) % 2 ^ v.log2
     v.enabled = true ∧ v.err = false ∧ value.toNat < 2 ^ v.log2 ∧ released ≤ v.used) ∧
    (let s : State := ready0; let queue : BitVec 6 := 3; let value : W32 := 16
     let v := queueOf s queue.toNat
     v.enabled = true ∧ v.err = false ∧ 2 ^ v.log2 ≤ value.toNat) ∧
    (let s : State := withHost (fun p => { p with ring := { p.ring with set := true, log2 := 1 } }) ready0
     let value : W32 := 1
     let r := s.host.ring
     r.set = true ∧ value.toNat < 2 ^ r.log2) ∧
    (let s : State := withQ (fun q => { q with unsignalled := 1 }) ready0; let queue : BitVec 6 := 3
     let v := queueOf s queue.toNat
     v.enabled = true ∧ s.host.d3hot = false ∧ 0 < v.unsignalled ∧ v.since + v.coalUs * 1000 ≤ nsOf s) := by
  refine ⟨?_, ?_, ?_, ?_, ?_, ?_, ?_⟩ <;> decide +kernel

/-- States and operands that meet the hypotheses of `Obligations.HostLinkEvents`, clause by clause. -/
theorem test_meets_HostLinkEvents :
    (let s : State := ready0
     flag (getReg s (hifBase + 4)) 31 = false) ∧
    (let s : State := setReg ready0 (hifBase + 4) 0x80000000
     flag (getReg s (hifBase + 4)) 31 = true) ∧
    (let s : State := ready0; let speed : BitVec 2 := 2; let width : BitVec 5 := 16
     speed.toNat ≠ 3 ∧ ((width.toNat = 8 ∨ width.toNat = 16 ∧ s.pwr.straps.testBit 11 = true)) ∧ 3 ≤ s.pwr.stage ∧
     s.pwr.perst = false) ∧
    (let offset : BitVec 30 := 63; let len : BitVec 7 := 1
     1 ≤ len.toNat ∧ offset.toNat % 64 + len.toNat ≤ 64) ∧
    (let s : State := setReg ready0 (pwrBase + 8) 0
     s.host.d3hot = false ∧ powered s = true ∧ ((flag (getReg s (pwrBase + 8)) 31 = false ∨ s.pwr.state ≠ 0))) ∧
    (let s : State := ready0
     s.host.d3hot = false ∧ s.pwr.stage = 5 ∧ flag (getReg s (pwrBase + 8)) 31 = true ∧ s.pwr.state = 0 ∧
     s.stp.rc.state = 0) ∧
    (let s : State := withHost (fun p => { p with d3hot := true }) ready0
     s.host.d3hot = true ∧ s.host.held = [] ∧ s.host.heldEvents = []) ∧
    (let s : State := withHost (fun p => { p with d3hot := true, bedWait := true }) ready0
     s.host.d3hot = true ∧ s.host.bedWait = true ∧ flag (getReg s (pwrBase + 8)) 31 = true ∧ s.stp.rc.state = 0 ∧
     s.pwr.state = 0 ∧ s.pwr.stage = 5) := by
  refine ⟨?_, ?_, ?_, ?_, ?_, ?_, ?_, ?_⟩ <;> decide +kernel

/-- States and operands that meet the hypotheses of `Obligations.CountersSaturateAndClear`, clause by clause. -/
theorem test_meets_CountersSaturateAndClear :
    (let a : Nat := 0x460100; let b := 0x460108
     b ≠ a) ∧
    (let s : State := ready0; let addr : BitVec 26 := 0x460100; let d : RegDef := regDef 0x460100
     let a := addr.toNat
     powered s = true ∧ aliasOf a = 0 ∧ pageAddr a = a ∧ regAt a = some d ∧ d.cls = .ctr ∧ ctrLow a = a ∧
     ctrLow (a + 4) = a ∧ ((∃ e, regAt (a + 4) = some e ∧ e.cls = .ctr)) ∧ pageAddr (a + 4) = a + 4 ∧ a + 4 < 2 ^ 26) := by
  refine ⟨?_, ?_⟩ <;> decide +kernel

/-- States and operands that meet the hypotheses of `Obligations.RegisterReads`, clause by clause. -/
theorem test_meets_RegisterReads :
    (let s : State := ready0; let addr : BitVec 26 := 0x460100; let d : RegDef := regDef 0x460100
     let a := pageAddr addr.toNat
     powered s = true ∧ regAt a = some d ∧ d.cls = .ctr ∧ ctrLow a = a) ∧
    (let s : State := ready0; let addr : BitVec 26 := 0x460104; let d : RegDef := regDef 0x460104
     let a := pageAddr addr.toNat
     powered s = true ∧ regAt a = some d ∧ d.cls = .ctr ∧ ctrLow a ≠ a) ∧
    (let s : State := ready0; let addr : BitVec 26 := 0x40000; let d : RegDef := regDef 0x40000
     let a := pageAddr addr.toNat
     powered s = true ∧ regAt a = some d ∧ ((d.cls = .rw ∨ d.cls = .ro ∨ d.cls = .rs)) ∧ isLatched a = false ∧
     a ≠ colBase + 0xC) ∧
    (let s : State := ready0; let addr : BitVec 26 := 0x10; let d : RegDef := regDef 0x10
     let a := pageAddr addr.toNat
     powered s = true ∧ regAt a = some d ∧ ((d.cls = .ro ∨ d.cls = .rs)) ∧ isLatched a = true) ∧
    (let s : State := ready0; let addr : BitVec 26 := 0x28; let d : RegDef := regDef 0x28
     powered s = true ∧ regAt (pageAddr addr.toNat) = some d ∧ d.cls = .wo) ∧
    (let s : State := ready0; let addr : BitVec 26 := 0x400024; let d : RegDef := regDef 0x400024
     let a := pageAddr addr.toNat
     powered s = true ∧ regAt a = some d ∧ d.cls = .rc ∧ a ≠ colBase + 8 ∧ a ≠ colBase + 0xC ∧ isLatched a = false) := by
  refine ⟨?_, ?_, ?_, ?_, ?_, ?_⟩ <;> decide +kernel

/-- States and operands that meet the hypotheses of `Obligations.RegisterWrites`, clause by clause. -/
theorem test_meets_RegisterWrites :
    (let s : State := ready0; let req : Requester := .host; let addr : BitVec 26 := 0x40000
     let d : RegDef := regDef 0x40000
     let a := pageAddr addr.toNat
     powered s = true ∧ regAt a = some d ∧ d.cls = .rw ∧ mayWrite s req d a = true) ∧
    (let s : State := ready0; let req : Requester := .host; let addr : BitVec 26 := 0x30
     let d : RegDef := regDef 0x30
     let a := pageAddr addr.toNat
     powered s = true ∧ regAt a = some d ∧
     ((d.cls = .ro ∨ d.cls = .rs ∨ d.cls = .rc ∨ d.cls = .ctr ∨ mayWrite s req d a = false))) ∧
    (let s : State := ready0; let req : Requester := .core 0; let addr : BitVec 26 := 0x480040
     let d : RegDef := regDef 0x480040
     let a := pageAddr addr.toNat
     powered s = true ∧ regAt a = some d ∧ d.cls = .wo ∧ mayWrite s req d a = true ∧ a ≠ topBase + 0x28) := by
  refine ⟨?_, ?_, ?_⟩ <;> decide +kernel

/-- States and operands that meet the hypotheses of `Obligations.AliasWritesCombine`, clause by clause. -/
theorem test_meets_AliasWritesCombine :
    (let addr : BitVec 26 := 0x43000; let d : RegDef := regDef 0x40000
     regAt (pageAddr addr.toNat) = some d ∧ d.cls = .rw) ∧
    (let s : State := ready0; let req : Requester := .host; let addr : BitVec 26 := 0x43000
     let d : RegDef := regDef 0x40000
     let a := pageAddr addr.toNat
     powered s = true ∧ regAt a = some d ∧ d.cls = .rw ∧ mayWrite s req d a = true) ∧
    (let s : State := ready0; let addr : BitVec 26 := 0x463004
     pageAddr addr.toNat = hifBase + 4 ∧ powered s = true) := by
  refine ⟨?_, ?_, ?_⟩ <;> decide +kernel

/-- States and operands that meet the hypotheses of `Obligations.UnmappedRegisters`, clause by clause. -/
theorem test_meets_UnmappedRegisters :
    let s : State := ready0; let addr : BitVec 26 := 0x3FFF0FC
    powered s = true ∧ regAt (pageAddr addr.toNat) = none := by
  decide +kernel

/-- States and operands that meet the hypotheses of `Obligations.CommandRegisters`, clause by clause. -/
theorem test_meets_CommandRegisters :
    (let s : State := ready0
     powered s = true ∧ s.host.snapBusy = false) ∧
    (let s : State := withHost (fun p => { p with snapBusy := true }) ready0
     powered s = true ∧ s.host.snapBusy = true) ∧
    (let s : State := withHost (fun p => { p with snapBusy := true }) ready0
     s.host.snapBusy = true) ∧
    (let s : State := ready0; let value : W32 := 0x80000000
     powered s = true ∧ flag value.toNat 31 = true) ∧
    (let s : State := ready0; let value : W32 := 0xA0000000
     powered s = true ∧ flag value.toNat 31 = true ∧ 4 ≤ field value.toNat 30 27 ∧ field value.toNat 30 27 ≤ 12) ∧
    (let s : State := ready0
     powered s = true) ∧
    (let s : State := ready0; let value : W32 := 0x80000
     powered s = true ∧ 1 ≤ field value.toNat 23 19 ∧ field value.toNat 23 19 ≤ 16) ∧
    (let s : State := ready0
     powered s = true) ∧
    (let s : State := ready0
     powered s = true ∧ flag (getReg s (hifBase + 0x20)) 0 = false) ∧
    (let s : State := ready0
     powered s = true ∧ flag (getReg s (fabBase + 0x14)) 0 = false) ∧
    (let s : State := ready0
     powered s = true ∧ flag (getReg s (pwrBase + 0x10)) 0 = false) ∧
    (let s : State := ready0
     powered s = true) := by
  refine ⟨?_, ?_, ?_, ?_, ?_, ?_, ?_, ?_, ?_, ?_, ?_, ?_⟩ <;> decide +kernel

/-- States and operands that meet the hypotheses of `Obligations.PowerLimitRegister`, clause by clause. -/
theorem test_meets_PowerLimitRegister :
    (let s : State := ready0
     powered s = true ∧ flag (getReg s (pwrBase + 0x10)) 0 = false) ∧
    (let s : State := setReg ready0 (pwrBase + 0x10) 1
     powered s = true ∧ flag (getReg s (pwrBase + 0x10)) 0 = true) ∧
    (let s : State := ready0
     powered s = true) ∧
    (let s : State := ready0
     powered s = true) ∧
    (let s : State := ready0
     s.pwr.auxOk = true) := by
  refine ⟨?_, ?_, ?_, ?_, ?_⟩ <;> decide +kernel

/-- States and operands that meet the hypotheses of `Obligations.ConfigurationCommits`, clause by clause. -/
theorem test_meets_ConfigurationCommits :
    (let s : State := ready0; let req : Requester := .host
     powered s = true ∧ req = .host) ∧
    (let s : State := ready0
     powered s = true) ∧
    (let s : State := ready0
     powered s = true) ∧
    (let s : State := ready0
     powered s = true ∧ s.cfg.running = false ∧ nsOf s % 64000 = 0) ∧
    (let s : State := withCfg (fun c => { c with running := true, dirty := true }) ready0
     s.cfg.running = true ∧ s.cfg.dirty = true) ∧
    (let s : State := withCfg (fun c => { c with running := true }) ready0
     s.cfg.running = true ∧ s.cfg.dirty = false) ∧
    (let s : State := ready0; let crc : Nat := 0
     crc = getReg s (topBase + 0x24) * 2 ^ 32 + getReg s (topBase + 0x20)) ∧
    (let s : State := withCfg (fun c => { c with mismatch := true }) ready0; let crc : Nat := 1
     crc ≠ getReg s (topBase + 0x24) * 2 ^ 32 + getReg s (topBase + 0x20) ∧ s.cfg.mismatch = true) := by
  refine ⟨?_, ?_, ?_, ?_, ?_, ?_, ?_, ?_⟩ <;> decide +kernel

/-- States and operands that meet the hypotheses of `Obligations.ConfigurationResets`, clause by clause. -/
theorem test_meets_ConfigurationResets :
    (let s : State := ready0
     powered s = true) ∧
    (let s : State := ready0
     s.pwr.auxOk = true) := by
  refine ⟨?_, ?_⟩ <;> decide +kernel

/-- States and operands that meet the hypotheses of `Obligations.TokenArithmetic`, clause by clause. -/
theorem test_meets_TokenArithmetic :
    (let token : W64 := tokenWord 0 63 0 0x6D false 0xFFFFFFFF
     let a : Arrived := { s := job0, know := [], near := 0 }; let s : State := flying (.token token) (job0)
     let n := tokDest token
     let t := ejectWait n a.near a.s
     let ti := tileOf t n
     arriveFrom (.token token) s = some a ∧ n < 96 ∧ ti.mode ≠ .fenced ∧ ti.stale (tokGen token) = false ∧
     tokKind token = 0) ∧
    (let token : W64 := tokenWord 95 0 1 0x6D false 0xFFFFFFFF
     let a : Arrived := { s := job0, know := [], near := 0 }; let s : State := flying (.token token) (job0)
     let n := tokDest token
     let t := ejectWait n a.near a.s
     let ti := tileOf t n
     arriveFrom (.token token) s = some a ∧ n < 96 ∧ ti.mode ≠ .fenced ∧ ti.stale (tokGen token) = false ∧
     tokKind token = 1) ∧
    (let src : Byte := 0; let credit : W32 := creditWord 95 31 false 65535
     let a : Arrived := { s := job0, know := [], near := 0 }; let s : State := flying (.credit src credit) job0
     let n := field credit.toNat 31 24
     let t := ejectWait n a.near a.s
     let ti := tileOf t n
     arriveFrom (.credit src credit) s = some a ∧ n < 96 ∧ ti.mode ≠ .fenced ∧
     ti.stale (flag credit.toNat 18) = false) :=
  ⟨⟨rfl, by decide +kernel⟩,
   ⟨rfl, by decide +kernel⟩,
   ⟨rfl, by decide +kernel⟩⟩

/-- States and operands that meet the hypotheses of `Obligations.TimersFire`, clause by clause. -/
theorem test_meets_TimersFire :
    (let s : State := setReg ready0 (ltuBase + 0x40 + 16 * 7) 0x80000000; let timer : BitVec 3 := 7
     let r := ltuBase + 0x40 + 16 * timer.toNat
     let c := getReg s r
     flag c 31 = true ∧ getReg s (r + 8) * 2 ^ 32 + getReg s (r + 4) ≤ nsOf s) ∧
    (let s : State := setReg (setReg ready0 (ltuBase + 0x40) 0x80000000) (ltuBase + 0x44) 1
     let timer : BitVec 3 := 0
     let r := ltuBase + 0x40 + 16 * timer.toNat
     flag (getReg s r) 31 = true ∧ nsOf s < getReg s (r + 8) * 2 ^ 32 + getReg s (r + 4)) ∧
    (let s : State := ready0; let h : CmdHdr := hdr []; let timer : Byte := 7; let ctl : W32 := 0x80000000
     let expiry : W64 := 0
     Ready h 0x0804 (.timeTimer h timer ctl expiry) s ∧ timer.toNat ≤ 7 ∧ flag ctl.toNat 31 = true) := by
  refine ⟨?_, ?_, ?_⟩ <;> decide +kernel

/-- States and operands that meet the hypotheses of `Obligations.QueueArrivalsDiscarded`, clause by clause. -/
theorem test_meets_QueueArrivalsDiscarded :
    let s : State := queued queue0; let handle : W16 := 1; let offset : W32 := 128; let len : W32 := 1
    let q : StageQueue := queue0
    let entry := field q.desc 111 80
    let nent := field q.desc 79 72 + 1
    queueDesc s handle.toNat = some q ∧ field q.desc 215 200 = ownFid s ∧ 0 < len.toNat ∧
    ((offset.toNat % entry ≠ 0 ∨ nent * entry ≤ offset.toNat ∨ nent < q.occ + 1)) := by
  decide +kernel

/-- States and operands that meet the hypotheses of `Obligations.QueueEvents`, clause by clause. -/
theorem test_meets_QueueEvents :
    (let s : State := queued { queue0 with occ := 1 }; let handle : W16 := 1; let offset : W32 := 64
     let len : W32 := 64; let gen : Bool := false; let data : List Byte := List.replicate 64 0
     let q : StageQueue := { queue0 with occ := 1 }
     let entry := field q.desc 111 80
     let nent := field q.desc 79 72 + 1
     queueDesc s handle.toNat = some q ∧ field q.desc 215 200 = ownFid s ∧ gen = genOf s ∧ data.length = len.toNat ∧
     len.toNat = entry ∧ 0 < entry ∧ offset.toNat % entry = 0 ∧ offset.toNat < nent * entry ∧ q.occ < nent) ∧
    (let s : State := queued queue0; let handle : W16 := 1; let q : StageQueue := queue0
     queueDesc s handle.toNat = some q ∧ field q.desc 215 200 = ownFid s) ∧
    (let src : Byte := 0; let credit : W32 := creditWord 0x6C 0 false 1; let h : Nat := 1
     let q : StageQueue := { queue0 with occ := 1 }; let t : State := queued q
     let s : State := flying (.credit src credit) t
     let w := credit.toNat
     arrive (.credit src credit) s = some t ∧ field w 31 24 = 0x6C ∧ flag w 18 = genOf t ∧
     t.stp.queues.find? (fun e => e.2.any (fun q => field q.desc 167 163 = field w 23 19 && field q.desc 215 200 = ownFid t)) = some (h, some q) ∧
     field q.desc 231 216 = ownFid t) ∧
    (let src : Byte := 0; let credit : W32 := creditWord 0x6C 0 true 1; let t : State := queued queue0
     let s : State := flying (.credit src credit) t
     arrive (.credit src credit) s = some t ∧ field credit.toNat 31 24 = 0x6C ∧ flag credit.toNat 18 ≠ genOf t) :=
  ⟨by decide +kernel,
   by decide +kernel,
   ⟨rfl, by decide +kernel⟩,
   ⟨rfl, by decide +kernel⟩⟩

/-- States and operands that meet the hypotheses of `Obligations.TokenEvents`, clause by clause. -/
theorem test_meets_TokenEvents :
    (let token : W64 := tokenWord 0 0 2 0x6D true 1
     let a : Arrived := { s := withTile0 (fun x => { x with mode := .idle }) (tiled 1), know := [], near := 0 }
     let s : State := flying (.token token) (withTile0 (fun x => { x with mode := .idle }) (tiled 1))
     let p : Program := { prog0 with ntasks := 1 }
     let n := tokDest token
     let t := ejectWait n a.near a.s
     let ti := tileOf t n
     arriveFrom (.token token) s = some a ∧ n < 96 ∧ ti.mode ≠ .fenced ∧ tokKind token = 2 ∧ tokValue token = 1 ∧
     ti.prog = some p) ∧
    (let token : W64 := tokenWord 0 0 2 0x6D false 2; let a : Arrived := { s := tiled 1, know := [], near := 0 }
     let s : State := flying (.token token) (tiled 1)
     let n := tokDest token
     let t := ejectWait n a.near a.s
     let ti := tileOf t n
     arriveFrom (.token token) s = some a ∧ n < 96 ∧ tokKind token = 2 ∧ tokValue token = 2 ∧
     ti.stale (tokGen token) = false ∧ ((ti.mode = .running ∨ ti.mode = .aborting)) ∧ ti.prog.isSome = true) ∧
    (let token : W64 := tokenWord 95 0 2 0x6D false 3; let a : Arrived := { s := job0, know := [], near := 0 }
     let s : State := flying (.token token) (job0)
     let n := tokDest token
     let t := ejectWait n a.near a.s
     arriveFrom (.token token) s = some a ∧ n < 96 ∧ tokKind token = 2 ∧ tokValue token = 3 ∧
     (tileOf t n).stale (tokGen token) = false ∧ (tileOf t n).mode ≠ .fenced) ∧
    (let token : W64 := tokenWord 0 0 2 0x6D false 3
     let a : Arrived := { s := fenced0 job0, know := [], near := 0 }
     let s : State := flying (.token token) (fenced0 job0)
     let n := tokDest token
     let t := ejectWait n a.near a.s
     arriveFrom (.token token) s = some a ∧ n < 96 ∧ (tileOf t n).mode = .fenced) ∧
    (let token : W64 := tokenWord 0 0 3 0x6D false 0; let a : Arrived := { s := tiled 1, know := [], near := 0 }
     let s : State := flying (.token token) (tiled 1)
     let n := tokDest token
     let t := ejectWait n a.near a.s
     let control := tokKind token = 2 ∧ tokValue token = 1
     arriveFrom (.token token) s = some a ∧ n < 96 ∧ (tileOf t n).mode ≠ .fenced ∧ ¬ control ∧
     (((tileOf t n).stale (tokGen token) = true ∨ tokKind token = 3 ∨ tokKind token = 2 ∧ tokValue token ≠ 2 ∧ tokValue token ≠ 3))) ∧
    (let token : W64 := tokenWord 0x6D 1 0 0x5F false 1; let t : State := job0
     let s : State := flying (.token token) t
     arrive (.token token) s = some t ∧ tokDest token = 0x6D ∧ tokSlot token = 1 ∧ tokKind token = 0 ∧
     tokGen token = genOf t) ∧
    (let token : W64 := tokenWord 0x6D 0 2 0x5F false 0x10; let t : State := job0
     let s : State := flying (.token token) t
     arrive (.token token) s = some t ∧ tokDest token = 0x6D ∧ tokKind token = 2 ∧ tokGen token = genOf t ∧
     tokValue token = 0x10) ∧
    (let token : W64 := tokenWord 0x6D 0 2 0x5F false 0x11; let t : State := job0
     let s : State := flying (.token token) t
     arrive (.token token) s = some t ∧ tokDest token = 0x6D ∧ tokKind token = 2 ∧ tokGen token = genOf t ∧
     tokValue token = 0x11) ∧
    (let token : W64 := tokenWord 0x6D 0 2 0x5F false 0x12; let t : State := job0
     let s : State := flying (.token token) t
     arrive (.token token) s = some t ∧ tokDest token = 0x6D ∧ tokKind token = 2 ∧ tokGen token = genOf t ∧
     tokValue token = 0x12) ∧
    (let token : W64 := tokenWord 0x60 0 0 0 false 1; let g : Gather := gather0 .present
     let t : State := gathered .present; let s : State := flying (.token token) t
     let p := tokDest token - 0x60
     let slot := tokSlot token
     arrive (.token token) s = some t ∧ 0x60 ≤ tokDest token ∧ tokDest token ≤ 0x63 ∧ tokKind token = 0 ∧
     gatherOf t p slot = some g) ∧
    (let token : W64 := tokenWord 0x60 0 1 0 false 0; let g : Gather := gather0 .present
     let t : State := gathered .present; let s : State := flying (.token token) t
     let p := tokDest token - 0x60
     arrive (.token token) s = some t ∧ 0x60 ≤ tokDest token ∧ tokDest token ≤ 0x63 ∧ tokKind token = 1 ∧
     tokValue token = 0 ∧ gatherOf t p (tokSlot token) = some g) ∧
    (let s : State := gathered .filling; let pier : BitVec 2 := 0; let slot : BitVec 6 := 0
     let g : Gather := gather0 .filling
     let p := pier.toNat
     gatherOf s p slot.toNat = some g ∧ g.st = .filling ∧ g.owed = 1) :=
  ⟨⟨rfl, by decide +kernel⟩,
   ⟨rfl, by decide +kernel⟩,
   ⟨rfl, by decide +kernel⟩,
   ⟨rfl, by decide +kernel⟩,
   ⟨rfl, by decide +kernel⟩,
   ⟨rfl, by decide +kernel⟩,
   ⟨rfl, by decide +kernel⟩,
   ⟨rfl, by decide +kernel⟩,
   ⟨rfl, by decide +kernel⟩,
   ⟨rfl, by decide +kernel⟩,
   ⟨rfl, by decide +kernel⟩,
   by decide +kernel⟩

/-- States and operands that meet the hypotheses of `Obligations.TaskEvents`, clause by clause. -/
theorem test_meets_TaskEvents :
    (let s : State := tiled 1; let tile : BitVec 7 := 0; let upsets : List Upset := []
     let t := tile.toNat
     let u := settleCursors t (tileUpsets t upsets s)
     let ti := tileOf u t
     t < 96 ∧ ti.mode = .running ∧ ti.prog.isSome = true ∧ startable u t ti.mainCur = true) ∧
    (let s : State := waiting0; let tile : BitVec 7 := 0; let upsets : List Upset := []
     let t := tile.toNat
     let u := settleCursors t (tileUpsets t upsets s)
     let ti := tileOf u t
     t < 96 ∧ ti.mode = .running ∧ ti.prog.isSome = true ∧ startable u t ti.mainCur = false ∧ deferEn u t = true ∧
     startable u t ti.deferCur = true) ∧
    (let s : State := setReg waiting0 tilBase 0; let tile : BitVec 7 := 0; let upsets : List Upset := []
     let t := tile.toNat
     let u := settleCursors t (tileUpsets t upsets s)
     let ti := tileOf u t
     t < 96 ∧ ti.mode = .running ∧ ti.prog.isSome = true ∧ startable u t ti.mainCur = false ∧ deferEn u t = false ∧
     ti.allIdle = true ∧ cursorsDone u t = false) ∧
    (let s : State := withTile0 (fun t => { t with matrix := some (run1 false) }) (tiled 1)
     let tile : BitVec 7 := 0; let r : Running := run1 false
     let fault : Bool := (matrixRun 0 0 noLimit true [] s).1; let u : State := (matrixRun 0 0 noLimit true [] s).2
     let t := tile.toNat
     (tileOf s t).matrix = some r ∧ r.stopping = false ∧ matrixRun t r.task noLimit true r.know s = (fault, u)) ∧
    (let s : State := withTile0 (fun t => { t with vector := some (run1 false) }) (tiled 1)
     let tile : BitVec 7 := 0; let r : Running := run1 false; let fault : Bool := (passRun 0 0 noLimit true [] s).1
     let u : State := (passRun 0 0 noLimit true [] s).2
     let t := tile.toNat
     (tileOf s t).vector = some r ∧ r.stopping = false ∧ passRun t r.task noLimit true r.know s = (fault, u)) ∧
    (let s : State := withTile0 (fun t => { t with move := some (run1 false) }) (tiled 1); let tile : BitVec 7 := 0
     let r : Running := run1 false; let fault : Bool := (moveRun 0 0 noLimit s).1
     let u : State := (moveRun 0 0 noLimit s).2
     let t := tile.toNat
     (tileOf s t).move = some r ∧ r.stopping = false ∧ moveRun t r.task noLimit s = (fault, u)) ∧
    (let s : State := withTile0 (fun t => { t with send := some (run1 false) }) (tiled 1); let tile : BitVec 7 := 0
     let r : Running := run1 false; let fault : Bool := (sendRun 0 0 noLimit s).1
     let u : State := (sendRun 0 0 noLimit s).2
     let t := tile.toNat
     (tileOf s t).send = some r ∧ r.stopping = false ∧ sendRun t r.task noLimit s = (fault, u)) ∧
    (let s : State := withTile0 (fun t => { t with send := some (run1 true) }) (tiled 1); let tile : BitVec 7 := 0
     let engine : Engine := .send; let done : W32 := 0; let r : Running := run1 true
     let fault : Bool := (sendRun 0 0 0 s).1; let u : State := (sendRun 0 0 0 s).2
     let t := tile.toNat
     (tileOf s t).engine engine = some r ∧ r.stopping = true ∧
     (match engine with | .matrix => matrixRun t r.task done.toNat false r.know s | .vector => passRun t r.task done.toNat false r.know s | .move => moveRun t r.task (done.toNat / 64 * 64) s | .send => sendRun t r.task (done.toNat / 64 * 64) s) = (fault, u)) ∧
    (let tile : BitVec 7 := 95; let cause : BitVec 4 := 5
     let t := tile.toNat
     t < 96 ∧ 1 ≤ cause.toNat ∧ cause.toNat ≤ 5) ∧
    (let s : State := later 160000 (setReg (withTile0 (fun t => { t with matrix := some (run1 false) }) (tiled 1)) tilBase 0x10000)
     let tile : BitVec 7 := 0; let engine : Engine := .matrix; let r : Running := run1 false
     let t := tile.toNat
     let limit := field (getReg s (tilBase + 0x4000 * t)) 31 16
     (tileOf s t).engine engine = some r ∧ r.stopping = false ∧ limit ≠ 0 ∧
     4 * 65536 * limit ≤ 7 * (nsOf s - r.since)) ∧
    (let s : State := ready0; let t : Nat := 0
     let ti := tileOf s t
     ti.mode ≠ .fenced) :=
  ⟨by decide +kernel,
   by decide +kernel,
   by decide +kernel,
   ⟨by decide +kernel, by decide +kernel, rfl⟩,
   ⟨by decide +kernel, by decide +kernel, rfl⟩,
   ⟨by decide +kernel, by decide +kernel, rfl⟩,
   ⟨by decide +kernel, by decide +kernel, rfl⟩,
   ⟨by decide +kernel, by decide +kernel, rfl⟩,
   by decide +kernel,
   by decide +kernel,
   by decide +kernel⟩

/-- States and operands that meet the hypotheses of `Obligations.StepEvents`, clause by clause. -/
theorem test_meets_StepEvents :
    (let s : State := withRc (fun r => { r with state := 5 }) job0
     ((s.stp.rc.state = 1 ∨ s.stp.rc.state = 5)) ∧ tilesDone s = true ∧ s.stp.aborted = false ∧
     reductionsDone s = true) ∧
    (let s : State := withStp (fun p => { p with aborted := true }) (withRc (fun r => { r with state := 1 }) job0)
     ((s.stp.rc.state = 1 ∨ s.stp.rc.state = 5)) ∧ tilesDone s = true ∧ s.stp.aborted = true) ∧
    (let s : State := withStp (fun p => { p with own := some word0, chkRun := true }) (withRc (fun r => { r with state := 2 }) job0)
     let w : CheckWord := word0
     s.stp.own = some w ∧ s.stp.rc.state = 2 ∧ s.stp.chkRun = true) ∧
    (let s : State := at2 (withStp (fun p => { p with deadline := 2 }) (withRc (fun r => { r with state := 1 }) job0))
     s.stp.rc.state = 1 ∧ 0 < s.stp.deadline ∧ s.stp.deadline ≤ nsOf s) ∧
    (let s : State := withRc (fun r => { r with state := 3 }) job0
     s.stp.rc.state = 3 ∧ s.stp.updRun = false ∧ s.stp.updDone = false ∧ updateWaits s = (false, false, false)) ∧
    (let s : State := withStp (fun p => { p with deltaDue := true }) (withRc (fun r => { r with state := 3 }) job0)
     s.stp.rc.state = 3 ∧ s.stp.updRun = false ∧ s.stp.updDone = false ∧ updateWaits s = (true, false, false) ∧
     s.stp.waitedDelta = false) ∧
    (let s : State := withStp (fun p => { p with updRun := true }) (withRc (fun r => { r with state := 3 }) job0)
     s.stp.rc.state = 3 ∧ s.stp.updRun = true ∧ updateFinished s = true) ∧
    (let s : State := withStp (fun p => { p with absent := [p.own_] }) job0
     s.stp.absent.contains s.stp.own_ = true) ∧
    (let s : State := ready0
     s.stp.absent.contains s.stp.own_ = false) ∧
    (let s : State := withStp (fun p => { p with comRun := true }) (withRc (fun r => { r with state := 4 }) job0)
     let sent : CommitItems := items0
     s.stp.rc.state = 4 ∧ s.stp.comRun = true ∧ sent.plumb = false) ∧
    (let s : State := withStp (fun p => { p with deltaDue := true }) job0
     s.stp.deltaDue = true) := by
  refine ⟨?_, ?_, ?_, ?_, ?_, ?_, ?_, ?_, ?_, ?_, ?_⟩ <;> decide +kernel

/-- States and operands that meet the hypotheses of `Obligations.UpdateEvents`, clause by clause. -/
theorem test_meets_UpdateEvents :
    (let s : State := updating (shard0 0 true); let stack : BitVec 3 := 0; let shard : BitVec 11 := 0
     let block : W32 := 0; let sh : Shard := shard0 0 true
     let k := stack.toNat
     let i := shard.toNat
     let b := block.toNat
     shardOf s k i = some sh ∧ s.stp.updRun = true ∧ s.stp.rc.state = 3 ∧ b < sdBlocks sh.desc ∧
     sget false sh.updated b = false ∧ s.cbl.flight = [] ∧ sumsReady s sh.desc = true ∧
     lowerStarted s k i sh b = true ∧ (stackOf s k).stopped = false ∧ sh.torn = true) ∧
    (let s : State := updating (shard0 8 false); let stack : BitVec 3 := 0; let shard : BitVec 11 := 0
     let block : W32 := 0; let sh : Shard := shard0 8 false
     let k := stack.toNat
     let i := shard.toNat
     let b := block.toNat
     shardOf s k i = some sh ∧ s.stp.updRun = true ∧ s.stp.rc.state = 3 ∧ b < sdBlocks sh.desc ∧
     sget false sh.updated b = false ∧ s.cbl.flight = [] ∧ sumsReady s sh.desc = true ∧
     lowerStarted s k i sh b = true ∧ (stackOf s k).stopped = false ∧ sh.torn = false ∧ blockDue s sh.desc b = false) ∧
    (let s : State := { updating (shard0 0 false) with poison := [(0x1000000, true)] }; let stack : BitVec 3 := 0
     let shard : BitVec 11 := 0; let block : W32 := 0; let sh : Shard := shard0 0 false
     let k := stack.toNat
     let i := shard.toNat
     let b := block.toNat
     let r := readBlock k sh.desc b true s
     shardOf s k i = some sh ∧ s.stp.updRun = true ∧ s.stp.rc.state = 3 ∧ b < sdBlocks sh.desc ∧
     sget false sh.updated b = false ∧ s.cbl.flight = [] ∧ sumsReady s sh.desc = true ∧
     lowerStarted s k i sh b = true ∧ (stackOf s k).stopped = false ∧ sh.torn = false ∧ blockDue s sh.desc b = true ∧
     r.1 = false) ∧
    (let s : State := updating (shard0 0 false); let stack : BitVec 3 := 0; let shard : BitVec 11 := 0
     let block : W32 := 0; let sh : Shard := shard0 0 false
     let k := stack.toNat
     let i := shard.toNat
     let b := block.toNat
     let u := b % 16
     let r := readBlock k sh.desc b true s
     shardOf s k i = some sh ∧ s.stp.updRun = true ∧ s.stp.rc.state = 3 ∧ b < sdBlocks sh.desc ∧
     sget false sh.updated b = false ∧ s.cbl.flight = [] ∧ sumsReady s sh.desc = true ∧
     lowerStarted s k i sh b = true ∧ (stackOf s k).stopped = false ∧ sh.torn = false ∧ blockDue s sh.desc b = true ∧
     r.1 = true ∧ freeSlots r.2 k u ≠ []) ∧
    (let s : State := withRc (fun r => { r with state := 5 }) (inFlight 1); let stack : BitVec 3 := 0
     let shard : BitVec 11 := 0; let block : W32 := 0; let f : Flight := flight0 1; let sh : Shard := shard0 0 false
     let k := stack.toNat
     let i := shard.toNat
     let b := block.toNat
     shardOf s k i = some sh ∧
     s.cbl.flight.find? (fun f => decide (f.stack = k) && decide (f.shard = i) && decide (f.block = b)) = some f ∧
     s.stp.rc.state ≠ 3) ∧
    (let s : State := inFlight 1; let stack : BitVec 3 := 0; let shard : BitVec 11 := 0; let block : W32 := 0
     let f : Flight := flight0 1; let sh : Shard := shard0 0 false
     let k := stack.toNat
     let i := shard.toNat
     let b := block.toNat
     shardOf s k i = some sh ∧
     s.cbl.flight.find? (fun f => decide (f.stack = k) && decide (f.shard = i) && decide (f.block = b)) = some f ∧
     s.stp.rc.state = 3 ∧ f.phase = 1) ∧
    (let s : State := inFlight 2; let stack : BitVec 3 := 0; let shard : BitVec 11 := 0; let block : W32 := 0
     let f : Flight := flight0 2; let sh : Shard := shard0 0 false
     let k := stack.toNat
     let i := shard.toNat
     let b := block.toNat
     shardOf s k i = some sh ∧
     s.cbl.flight.find? (fun f => decide (f.stack = k) && decide (f.shard = i) && decide (f.block = b)) = some f ∧
     s.stp.rc.state = 3 ∧ f.phase = 2) ∧
    (let s : State := inFlight 3; let stack : BitVec 3 := 0; let shard : BitVec 11 := 0; let block : W32 := 0
     let f : Flight := flight0 3; let sh : Shard := shard0 0 false
     let k := stack.toNat
     let i := shard.toNat
     let b := block.toNat
     shardOf s k i = some sh ∧
     s.cbl.flight.find? (fun f => decide (f.stack = k) && decide (f.shard = i) && decide (f.block = b)) = some f ∧
     s.stp.rc.state = 3 ∧ f.phase = 3) ∧
    (let s : State := updating (shard0 6 false); let group : BitVec 10 := 0
     let g := group.toNat
     s.stp.updRun = true ∧ ((s.stp.rc.state = 3 ∨ s.stp.rc.state = 6)) ∧ sget false s.cbl.sums g = false ∧
     grFrozen (groupRaw s g) = false ∧ groupOpt s g = 6) ∧
    (let s : State := updating (shard0 5 false); let group : BitVec 10 := 0
     let g := group.toNat
     s.stp.updRun = true ∧ ((s.stp.rc.state = 3 ∨ s.stp.rc.state = 6)) ∧ sget false s.cbl.sums g = false ∧
     grFrozen (groupRaw s g) = false ∧ groupOpt s g = 5 ∧ sget none s.cbl.adaRow g = none) ∧
    (let s : State := withCbl (fun c => { c with adaRow := [(0, some Exact.zero)] }) (updating (shard0 5 false))
     let group : BitVec 10 := 0; let rs : Exact := Exact.zero
     let g := group.toNat
     s.stp.updRun = true ∧ ((s.stp.rc.state = 3 ∨ s.stp.rc.state = 6)) ∧ sget false s.cbl.sums g = false ∧
     grFrozen (groupRaw s g) = false ∧ groupOpt s g = 5 ∧ sget none s.cbl.adaRow g = some rs) := by
  refine ⟨?_, ?_, ?_, ?_, ?_, ?_, ?_, ?_, ?_, ?_, ?_⟩ <;> decide +kernel

/-- States and operands that meet the hypotheses of `Obligations.MemorySideOperations`, clause by clause. -/
theorem test_meets_MemorySideOperations :
    let s : State := mapped; let addr : BitVec 48 := 0x40000000; let k : Nat := 0
    let a := addr.toNat
    corbelStack s a = some k := by
  decide +kernel

/-- States and operands that meet the hypotheses of `Obligations.ResetEvents`, clause by clause. -/
theorem test_meets_ResetEvents :
    (let s : State := withPwr (fun p => { p with auxOk := false }) ready0
     s.pwr.auxOk = false) ∧
    (let s : State := ready0
     s.pwr.auxOk = true) ∧
    (let s : State := ready0
     s.pwr.auxOk = true) ∧
    (let s : State := withPwr (fun p => { p with stage := 2 }) ready0
     powered s = false) ∧
    (let s : State := ready0
     powered s = true) ∧
    (let s : State := later 20000000 (withPwr (fun p => { p with stage := 1 }) ready0)
     s.pwr.stage = 1 ∧ s.pwr.auxOk = true ∧ s.pwr.prsnt = true ∧ s.pwr.pwrEn = true ∧ s.pwr.mainOk = true ∧
     s.pwr.auxAt + 20000000 ≤ nsOf s ∧ s.pwr.prsntAt + 10000000 ≤ nsOf s ∧ s.pwr.enAt + 10000000 ≤ nsOf s) ∧
    (let s : State := withPwr (fun p => { p with stage := 2 }) ready0
     s.pwr.stage = 2) ∧
    (let s : State := withPwr (fun p => { p with stage := 3 }) ready0
     s.pwr.stage = 3) ∧
    (let s : State := withPwr (fun p => { p with stage := 4 }) ready0
     s.pwr.stage = 4) ∧
    (let s : State := withPwr (fun p => { p with state := 3 }) ready0
     s.pwr.stage = 5 ∧ s.pwr.state = 3 ∧ s.pwr.fenced = false) := by
  refine ⟨?_, ?_, ?_, ?_, ?_, ?_, ?_, ?_, ?_, ?_⟩ <;> decide +kernel

/-- States and operands that meet the hypotheses of `Obligations.PowerEvents`, clause by clause. -/
theorem test_meets_PowerEvents :
    (let s : State := withPwr (fun p => { p with state := 1 }) ready0
     s.pwr.state = 1) ∧
    (let s : State := withPwr (fun p => { p with samples := List.replicate 999 2640 }) ready0
     let watts : W16 := 2641; let volt : Byte := 0
     powered s = true ∧
     let t : State := { s with pwr := { s.pwr with
       samples := (watts.toNat :: s.pwr.samples).take 1000, sinceUp := s.pwr.sinceUp + 1, volt := volt.toNat } }
     let sum := t.pwr.samples.foldl (· + ·) 0
     let trips := t.pwr.samples.length = 1000 ∧ (s.pwr.k = 8 ∧ 1100 * powerLimit s < sum ∨ 2640000 < sum)
     trips) ∧
    (let s : State := withPwr (fun p => { p with samples := List.replicate 999 2640 }) ready0
     let watts : W16 := 2640; let volt : Byte := 0
     powered s = true ∧
     let t : State := { s with pwr := { s.pwr with
       samples := (watts.toNat :: s.pwr.samples).take 1000, sinceUp := s.pwr.sinceUp + 1, volt := volt.toNat } }
     let sum := t.pwr.samples.foldl (· + ·) 0
     let trips := t.pwr.samples.length = 1000 ∧ (s.pwr.k = 8 ∧ 1100 * powerLimit s < sum ∨ 2640000 < sum)
     ¬ trips) ∧
    (let s : State := ready0; let die : BitVec 5 := 8; let temp : W16 := 1920
     let d := die.toNat
     powered s = true ∧ d ≤ 20 ∧ ((d < 9 ∨ Config.variantLE = false)) ∧ d < 9 ∧ 16 * 120 ≤ temp.toInt) ∧
    (let s : State := ready0; let die : BitVec 5 := 8; let temp : W16 := 1919
     let d := die.toNat
     powered s = true ∧ d ≤ 20 ∧ ((d < 9 ∨ Config.variantLE = false)) ∧ ((9 ≤ d ∨ temp.toInt < 16 * 120))) ∧
    (let s : State := ready0; let stack : BitVec 3 := 0; let die : BitVec 4 := 0; let temp : W16 := 0
     let k := stack.toNat
     let st := stackOf s k
     let dies := sput 0 st.dieTemp die.toNat temp.toNat
     let ts := (List.range 16).map (fun i => (BitVec.ofNat 16 (sget 0 dies i)).toInt)
     let hot := ts.foldl max (ts.headD 0)
     powered s = true ∧ nextLevel 85 95 105 90 st.level hot = st.level) ∧
    (let s : State := setStack ready0 0 { Stack.init with stopping := true }; let stack : BitVec 3 := 0
     (stackOf s stack.toNat).stopping = true) ∧
    (let s : State := later 1000000 ready0
     s.slog.mirrored + 1000000 ≤ nsOf s) := by
  refine ⟨?_, ?_, ?_, ?_, ?_, ?_, ?_, ?_⟩ <;> decide +kernel

/-- States and operands that meet the hypotheses of `Obligations.ManagementMessages`, clause by clause. -/
theorem test_meets_ManagementMessages :
    (let s : State := ready0; let bytes : List Byte := [0x9E]
     let n := bytes.length
     s.pwr.auxOk = true ∧ leAt bytes 0 1 = 2 * field s.pwr.straps 6 0 ∧
     ((n < 9 ∨ leAt bytes 1 1 ≠ 0x0F ∨ leAt bytes 2 1 + 4 ≠ n ∨ smbusPec (bytes.take (n - 1)) ≠ leAt bytes (n - 1) 1))) ∧
    (let s : State := ready0; let bytes : List Byte := smbus [0x9E, 0x0F, 5, 0, 0, 0, 0, 0]
     let n := bytes.length
     s.pwr.auxOk = true ∧ leAt bytes 0 1 = 2 * field s.pwr.straps 6 0 ∧ 9 ≤ n ∧ leAt bytes 1 1 = 0x0F ∧
     leAt bytes 2 1 + 4 = n ∧ smbusPec (bytes.take (n - 1)) = leAt bytes (n - 1) 1) ∧
    (let s : State := ready0; let msg : List Byte := [0, 128, 1, 0, 254]
     s.pwr.auxOk = true ∧ 5 ≤ msg.length ∧ 128 ≤ leAt msg 1 1 ∧ leAt msg 2 1 = 1 ∧ 1 ≤ leAt msg 4 1 ∧
     leAt msg 4 1 ≤ 254) ∧
    (let s : State := ready0; let msg : List Byte := [0, 128, 2, 0, 0]
     s.pwr.auxOk = true ∧ 5 ≤ msg.length ∧ 128 ≤ leAt msg 1 1 ∧ leAt msg 2 1 = 2) ∧
    (let s : State := ready0; let msg : List Byte := [0, 128, 5, 0, 0]
     s.pwr.auxOk = true ∧ 5 ≤ msg.length ∧ 128 ≤ leAt msg 1 1 ∧ leAt msg 2 1 = 5) ∧
    (let s : State := ready0; let msg : List Byte := [1, 128, 0, 2, 0]
     s.pwr.auxOk = true ∧ s.sec.recovery = false ∧ 5 ≤ msg.length ∧ 128 ≤ leAt msg 1 1 ∧ leAt msg 2 1 % 64 = 0) ∧
    (let s : State := ready0; let msg : List Byte := [1, 128, 2, 0x11, 0]
     s.pwr.auxOk = true ∧ s.sec.recovery = false ∧ 5 ≤ msg.length ∧ 128 ≤ leAt msg 1 1 ∧ leAt msg 2 1 % 64 = 2) ∧
    (let s : State := ready0; let msg : List Byte := [1, 128, 4, 1, 0]
     s.pwr.auxOk = true ∧ s.sec.recovery = false ∧ 5 ≤ msg.length ∧ 128 ≤ leAt msg 1 1 ∧ leAt msg 2 1 % 64 = 4) ∧
    (let msg : List Byte := [1, 128, 2, 0x11, 1, 0]
     leAt msg 3 1 = 0x11 ∧ leAt msg 4 2 = 1) ∧
    (let s : State := ready0; let msg : List Byte := [1, 128, 5, 1]
     s.pwr.auxOk = true ∧ 4 ≤ msg.length ∧ 128 ≤ leAt msg 1 1 ∧ leAt msg 2 1 % 64 = 5) ∧
    (let s : State := ready0; let h : CmdHdr := h0; let op : Nat := 0x0106; let c : Instr := .jobSeedSet h0 0
     let packet : W512 := packet0
     h = packetHeader 0 true packet.toNat [] [] ∧ op = field packet.toNat 15 0 ∧ s.pwr.auxOk = true ∧
     packetError s packet.toNat [] = none ∧ commandAt h op (leBytes 48 (packet.toNat / 2 ^ 128)) = some c) ∧
    (let s : State := withPwr (fun p => { p with alert := true }) ready0
     s.pwr.auxOk = true ∧ s.pwr.alert = true) := by
  refine ⟨?_, ?_, ?_, ?_, ?_, ?_, ?_, ?_, ?_, ?_, ?_, ?_⟩ <;> decide +kernel

/-- States and operands that meet the hypotheses of `Obligations.TimeEvents`, clause by clause. -/
theorem test_meets_TimeEvents :
    (let s : State := later 1000000000 (timed 0x80000000)
     timeRole s = 2 ∧ s.tm.backup0 = false ∧ s.tm.zeroAt + 1000000000 ≤ nsOf s ∧
     ((∀ p < 24, ¬ ((pathOf s p).state = 2 ∧ (pathOf s p).stratum = 0)))) ∧
    (let s : State := setPort (timed 0x50000000) 0 { Port.init with state := 2 }; let port : BitVec 4 := 0
     let domain : Byte := 0
     let want := if flag (ltuCfg s) 27 then 6 else 0
     timeRole s = 1 ∧ timeSource s = 1 ∧ port.toNat = want ∧ portMode s want = 3 ∧ inService s want = true ∧
     domain.toNat = field (getReg s (ltuBase + 4)) 31 24) ∧
    (let s : State := later 3000000000 (withTm (fun t => { t with srcOk := true }) (timed 0x50000000))
     timeRole s = 1 ∧ timeSource s = 1 ∧ s.tm.srcOk = true ∧ s.tm.ptpAt + 3000000000 ≤ nsOf s) ∧
    (let s : State := withTm (fun t => { t with ppsName := some (1, 0) }) (timed 0x60000000); let sec : Nat := 1
     let nb : Nat := 0
     timeRole s = 1 ∧ timeSource s = 2 ∧ s.tm.ppsName = some (sec, nb) ∧ nb ≤ nsOf s ∧ epochNs s ≤ sec * 1000000000) ∧
    (let s : State := withTm (fun t => { t with ppsNext := some 1000 }) (timed 0x60000000); let t : Nat := 1000
     timeRole s = 1 ∧ timeSource s = 2 ∧ s.tm.ppsName = none ∧ s.tm.ppsNext = some t ∧
     ((t * 65536 : Nat) - (s.tm.now : Int)).natAbs ≤ 65536 * 1000) ∧
    (let s : State := withTm (fun t => { t with ppsNext := some 1001 }) (timed 0x60000000); let t : Nat := 1001
     timeRole s = 1 ∧ timeSource s = 2 ∧ s.tm.ppsName = none ∧ s.tm.ppsNext = some t ∧
     65536 * 1000 < ((t * 65536 : Nat) - (s.tm.now : Int)).natAbs) ∧
    (let s : State := withTm (fun t => { t with now := 1001 * 65536, ppsNext := some 0 }) (timed 0x60000000)
     let t : Nat := 0
     timeRole s = 1 ∧ timeSource s = 2 ∧ s.tm.ppsNext = some t ∧ t + 1000 < nsOf s) ∧
    (let s : State := withTm (fun t => { t with state := 2 }) ready0
     flag (ltuCfg s) 3 = true ∧ 2 ≤ s.tm.state ∧ nsOf s % 1000000000 = 0) ∧
    (let s : State := lit; let path : BitVec 5 := 0
     let p := path.toNat
     (pathOf s p).due ≤ nsOf s ∧ p < 12 ∧ portNative s p = true ∧ inService s p = true) ∧
    (let s : State := setPath 23 { TimePath.init with partner := (true, 1, 1, 1) } ready0; let path : BitVec 5 := 23
     let p := path.toNat
     (pathOf s p).due ≤ nsOf s ∧ 16 ≤ p ∧ p < 24 ∧ (pathOf s p).partner.1 = true) ∧
    (let s : State := ready0
     nsOf s % periodNs s = 0 ∧ s.tm.steer.natAbs ≤ periodNs s * 65536 / 5000) := by
  refine ⟨?_, ?_, ?_, ?_, ?_, ?_, ?_, ?_, ?_, ?_, ?_⟩ <;> decide +kernel

/-- States and operands that meet the hypotheses of `Obligations.TreimEvents`, clause by clause. -/
theorem test_meets_TreimEvents :
    (let s : State := ready0; let channel : BitVec 10 := 0
     let g := channel.toNat
     let c := chanOf s g
     c.spareFor = 31 ∧ c.retraining = false ∧ chanIdle s g = false ∧ c.calIvl ≠ calInterval s + 1) ∧
    (let s : State := chan0 (fun c => { c with spareFor := 0, calPoint := 30 }); let channel : BitVec 10 := 0
     let g := channel.toNat
     let c := chanOf s g
     c.spareFor ≠ 31 ∧ c.retraining = false ∧ chanIdle s g = false ∧ (nsOf s / periodNs s + g) % quietEvery s = 0 ∧
     c.calPoint < 31) ∧
    (let s : State := chan0 (fun c => { c with spareFor := 0, calPoint := 31 }); let channel : BitVec 10 := 0
     let g := channel.toNat
     let c := chanOf s g
     c.spareFor ≠ 31 ∧ c.retraining = false ∧ chanIdle s g = false ∧ (nsOf s / periodNs s + g) % quietEvery s = 0 ∧
     31 ≤ c.calPoint) ∧
    (let s : State := chan0 (fun c => { c with due := some 0 }); let channel : BitVec 10 := 0; let d : Nat := 0
     let g := channel.toNat
     let c := chanOf s g
     c.due = some d ∧ d ≤ nsOf s ∧ nsOf s % periodNs s = 0 ∧ c.retraining = false ∧ chanIdle s g = false ∧
     ((∀ i < 16, (chanOf s (g / 16 * 16 + i)).retraining = false))) ∧
    (let s : State := setChan (chan0 (fun c => { c with due := some 0 })) 15 { Channel.init with retraining := true }
     let channel : BitVec 10 := 0; let i : Nat := 15; let d : Nat := 0
     let g := channel.toNat
     let c := chanOf s g
     c.due = some d ∧ d ≤ nsOf s ∧ nsOf s % periodNs s = 0 ∧ c.retraining = false ∧ chanIdle s g = false ∧ i < 16 ∧
     (chanOf s (g / 16 * 16 + i)).retraining = true ∧ c.waited = false) ∧
    (let s : State := chan0 (fun c => { c with retraining := true })
     let lanes : List LaneEye := [{ lane := 0, width := 0, height := 0 }, { lane := 1, width := 0, height := 0 }, { lane := 2, width := 0, height := 0 }]
     let channel : BitVec 10 := 0; let tsv : List (BitVec 5) := []; let lost : Bool := true
     let t : State := (trainChannel 0 lanes [] s).2
     let g := channel.toNat
     let c := chanOf s g
     c.retraining = true ∧ trainChannel g lanes tsv s = (lost, t) ∧ lost = true) ∧
    (let s : State := chan0 (fun c => { c with retraining := true }); let channel : BitVec 10 := 0
     let lanes : List LaneEye := []; let tsv : List (BitVec 5) := []; let lost : Bool := false
     let t : State := (trainChannel 0 [] [] s).2
     let g := channel.toNat
     let c := chanOf s g
     c.retraining = true ∧ trainChannel g lanes tsv s = (lost, t) ∧ lost = false) ∧
    (let s : State := setStack ready0 0 { Stack.init with lost := 1 }; let channel : BitVec 10 := 0
     let g := channel.toNat
     let k := g / 128
     let c := g % 128
     let mates := stripeMates s k c
     chanLost s k c = true ∧ (stackOf s k).mapx.testBit c = false ∧ (chanOf s g).rebuilt = false ∧
     ((∀ m ∈ mates, chanLost s k m = false)) ∧ mateHeld s k c = false ∧ (stackOf s k).selfRefresh = false ∧
     (stackOf s k).stopped = false) ∧
    (let s : State := chan0 (fun c => { c with retraining := true }); let channel : BitVec 10 := 0
     let upsets : List Upset := []
     let g := channel.toNat
     let k := g / 128
     let t := upsets.foldl (fun t u => treimUpset k (g % 128) u t) s
     let per := nsOf t / periodNs t + 1
     let c := { chanOf t g with refPer := per }
     (stackOf t k).selfRefresh = false ∧ (chanOf t g).refPer ≠ per ∧ c.retraining = true) ∧
    (let s : State := ready0; let channel : BitVec 10 := 0; let upsets : List Upset := []
     let g := channel.toNat
     let k := g / 128
     let t := upsets.foldl (fun t u => treimUpset k (g % 128) u t) s
     let per := nsOf t / periodNs t + 1
     let c := { chanOf t g with refPer := per }
     (stackOf t k).selfRefresh = false ∧ (chanOf t g).refPer ≠ per ∧ c.retraining = false) ∧
    (let s : State := applied0 (fun k => { k with contentLost := true }); let stack : BitVec 3 := 0
     let a : Nat := fwAddr 0 0; let c : Nat := ((placeOf s (fwAddr 0 0)).getD (0,0,0)).2.1
     let q : Nat := ((placeOf s (fwAddr 0 0)).getD (0,0,0)).2.2
     let r : Nat := ((servedBy s (fwAddr 0 0)).getD (0,0,0)).2.1; let x : Nat := 0
     let y : Nat := ((servedBy s (fwAddr 0 0)).getD (0,0,0)).1
     let z : Nat := ((servedBy s (fwAddr 0 0)).getD (0,0,0)).2.2
     let k := stack.toNat
     let st := stackOf s k
     let t := bump (setStack s k { (if a < st.scrub * 64 then { st with ceRows := [] } else st) with scrub := a / 64 + 1 })
       (cTrm k 0x170)
     field (getReg s (trmBase + 0x4000)) 7 0 ≠ 0 ∧ st.applied = true ∧ st.selfRefresh = false ∧ st.stopped = false ∧
     scrubFind s k 4096 (st.scrub * 64) = some a ∧ placeOf s a = some (x, c, q) ∧ servedBy s a = some (y, r, z) ∧
     chanLost t k r = false) ∧
    (let s : State := applied0 (fun k => { k with lost := 2 ^ ((placeOf (applied0 id) (fwAddr 0 0)).getD (0, 0, 0)).2.1 })
     let stack : BitVec 3 := 0; let a : Nat := fwAddr 0 0
     let c : Nat := ((placeOf s (fwAddr 0 0)).getD (0,0,0)).2.1
     let q : Nat := ((placeOf s (fwAddr 0 0)).getD (0,0,0)).2.2
     let r : Nat := ((servedBy s (fwAddr 0 0)).getD (0,0,0)).2.1; let x : Nat := 0
     let y : Nat := ((servedBy s (fwAddr 0 0)).getD (0,0,0)).1
     let z : Nat := ((servedBy s (fwAddr 0 0)).getD (0,0,0)).2.2
     let k := stack.toNat
     let st := stackOf s k
     let t := bump (setStack s k { (if a < st.scrub * 64 then { st with ceRows := [] } else st) with scrub := a / 64 + 1 })
       (cTrm k 0x170)
     field (getReg s (trmBase + 0x4000)) 7 0 ≠ 0 ∧ st.applied = true ∧ st.selfRefresh = false ∧ st.stopped = false ∧
     scrubFind s k 4096 (st.scrub * 64) = some a ∧ placeOf s a = some (x, c, q) ∧ servedBy s a = some (y, r, z) ∧
     chanLost t k r = true) ∧
    (let s : State := ready0; let k : Nat := 0; let c : Nat := 0
     (stackOf s k).contentLost = false ∧ chanLost s k c = false ∧ (chanOf s (k * 128 + c)).retraining = false) ∧
    (let s : State := setStack ready0 0 { Stack.init with lost := 1 }; let a : Nat := 0; let k : Nat := 0
     let c : Nat := 0
     (stackOf s k).contentLost = false ∧ chanLost s k c = true ∧ regionBraced s (a / 2 ^ 30) = false) ∧
    (let s : State := applied0 (fun k => { k with lost := 1 }); let a : Nat := fwAddr 0 0; let k : Nat := 0
     let c : Nat := 0
     (stackOf s k).contentLost = false ∧ chanLost s k c = true ∧ regionBraced s (a / 2 ^ 30) = true ∧
     chanRebuilt s k c = false ∧ sget false s.poison (a / 64) = false ∧
     ((∀ m ∈ stripeMates s k c, chanLost s k m = false))) ∧
    (let s : State := setChan (applied0 (fun k => { k with lost := 1 })) 0 { Channel.init with rebuilt := true }
     let a : Nat := fwAddr 0 0; let k : Nat := 0; let c : Nat := 0; let q : Nat := 0
     (stackOf s k).contentLost = false ∧ chanLost s k c = true ∧ regionBraced s (a / 2 ^ 30) = true ∧
     chanRebuilt s k c = true ∧ chanLost s k (reserveChan s k c q) = false) :=
  ⟨by decide +kernel,
   by decide +kernel,
   by decide +kernel,
   by decide +kernel,
   by decide +kernel,
   ⟨by decide +kernel, rfl, by decide +kernel⟩,
   ⟨by decide +kernel, rfl, by decide +kernel⟩,
   by decide +kernel,
   by decide +kernel,
   by decide +kernel,
   by decide +kernel,
   by decide +kernel,
   by decide +kernel,
   by decide +kernel,
   by decide +kernel,
   by decide +kernel⟩

/-- States and operands that meet the hypotheses of `Obligations.FrameEvents`, clause by clause. -/
theorem test_meets_FrameEvents :
    (let s : State := lit; let port : BitVec 4 := 0
     let frame : List Byte := wire6 (rx6 (head6 1 0 0 0 0 ([] : List Byte).length) ([]) true) true
     let f : RxFrame := rx6 (head6 1 0 0 0 0 ([] : List Byte).length) ([]) true; let r := rxFlow0
     let p := port.toNat
     let t := counted p f s
     Taken p frame f s ∧ Expected f r t ∧ nhKind f.hdr = 1) ∧
    (let s : State := setHandle 1 (some handle0) lit; let port : BitVec 4 := 0
     let frame : List Byte := wire6 (rx6 (head6 2 0 1 0 0 ([] : List Byte).length) ([]) true) true
     let f : RxFrame := rx6 (head6 2 0 1 0 0 ([] : List Byte).length) ([]) true; let r := rxFlow0; let h := handle0
     let p := port.toNat
     let t := counted p f s
     Taken p frame f s ∧ Expected f r t ∧
     let u := advanced f r t
     nhKind f.hdr = 2 ∧ nhHandle f.hdr < 0xFFF0 ∧ consumerQueue u (nhHandle f.hdr) = none ∧
     handleOf u (nhHandle f.hdr) = some h) ∧
    (let s : State := setStageQueue 1 queue0 lit; let port : BitVec 4 := 0
     let frame : List Byte := wire6 (rx6 (head6 2 0 1 0 0 ([] : List Byte).length) ([]) true) true
     let f : RxFrame := rx6 (head6 2 0 1 0 0 ([] : List Byte).length) ([]) true; let r := rxFlow0; let q := queue0
     let p := port.toNat
     let t := counted p f s
     Taken p frame f s ∧ Expected f r t ∧
     let u := advanced f r t
     nhKind f.hdr = 2 ∧ nhHandle f.hdr < 0xFFF0 ∧ consumerQueue u (nhHandle f.hdr) = some q) ∧
    (let s : State := setHandle 1 (some handle0) lit; let port : BitVec 4 := 0
     let frame : List Byte := wire6 (rx6 (head6 3 0 1 0 0 ([] : List Byte).length) ([]) true) true
     let f : RxFrame := rx6 (head6 3 0 1 0 0 ([] : List Byte).length) ([]) true; let r := rxFlow0; let h := handle0
     let p := port.toNat
     let t := counted p f s
     Taken p frame f s ∧ Expected f r t ∧
     let u := advanced f r t
     nhKind f.hdr = 3 ∧ nhHandle f.hdr < 0xFFF0 ∧ handleOf u (nhHandle f.hdr) = some h) ∧
    (let s : State := lit; let port : BitVec 4 := 0
     let frame : List Byte := wire6 (rx6 (head6 4 0 0 0 0 ([] : List Byte).length) ([]) true) true
     let f : RxFrame := rx6 (head6 4 0 0 0 0 ([] : List Byte).length) ([]) true; let r := rxFlow0
     let p := port.toNat
     let t := counted p f s
     Taken p frame f s ∧ Expected f r t ∧ nhKind f.hdr = 4) ∧
    (let s : State := lit; let port : BitVec 4 := 0
     let frame : List Byte := wire6 (rx6 (head6 7 0 0 0 0 ([1, 0, 0, 0] : List Byte).length) ([1, 0, 0, 0]) true) true
     let f : RxFrame := rx6 (head6 7 0 0 0 0 ([1, 0, 0, 0] : List Byte).length) ([1, 0, 0, 0]) true
     let r := rxFlow0
     let p := port.toNat
     let t := counted p f s
     Taken p frame f s ∧ Expected f r t ∧ nhKind f.hdr = 7 ∧ leAt f.payload 0 1 = 1) ∧
    (let s : State := lit; let port : BitVec 4 := 0
     let frame : List Byte := wire6 (rx6 (head6 7 0 0 0 0 ([2, 0, 0, 0] : List Byte).length) ([2, 0, 0, 0]) true) true
     let f : RxFrame := rx6 (head6 7 0 0 0 0 ([2, 0, 0, 0] : List Byte).length) ([2, 0, 0, 0]) true
     let r := rxFlow0
     let p := port.toNat
     let t := counted p f s
     Taken p frame f s ∧ Expected f r t ∧ nhKind f.hdr = 7 ∧ leAt f.payload 0 1 = 2) ∧
    (let s : State := lit; let port : BitVec 4 := 0
     let frame : List Byte := wire6 (rx6 (head6 7 0 0 0 0 ([3, 0, 0, 0] : List Byte).length) ([3, 0, 0, 0]) true) true
     let f : RxFrame := rx6 (head6 7 0 0 0 0 ([3, 0, 0, 0] : List Byte).length) ([3, 0, 0, 0]) true
     let r := rxFlow0
     let p := port.toNat
     let t := counted p f s
     Taken p frame f s ∧ Expected f r t ∧ nhKind f.hdr = 7 ∧ leAt f.payload 0 1 = 3) ∧
    (let s : State := lit; let port : BitVec 4 := 0
     let frame : List Byte := wire6 (rx6 (head6 7 0 0 0 0 ([4, 0, 0, 0] : List Byte).length) ([4, 0, 0, 0]) true) true
     let f : RxFrame := rx6 (head6 7 0 0 0 0 ([4, 0, 0, 0] : List Byte).length) ([4, 0, 0, 0]) true
     let r := rxFlow0
     let p := port.toNat
     let t := counted p f s
     Taken p frame f s ∧ Expected f r t ∧ nhKind f.hdr = 7 ∧ leAt f.payload 0 1 = 4) ∧
    (let s : State := lit; let port : BitVec 4 := 0
     let frame : List Byte := wire6 (rx6 (head6 7 0 0 0 0 ([5, 0, 0, 0] : List Byte).length) ([5, 0, 0, 0]) true) true
     let f : RxFrame := rx6 (head6 7 0 0 0 0 ([5, 0, 0, 0] : List Byte).length) ([5, 0, 0, 0]) true
     let r := rxFlow0
     let p := port.toNat
     let t := counted p f s
     Taken p frame f s ∧ Expected f r t ∧ nhKind f.hdr = 7 ∧ leAt f.payload 0 1 = 5) ∧
    (let s : State := lit; let port : BitVec 4 := 0
     let frame : List Byte := wire6 (rx6 (head6 5 0 0 0 0 ([] : List Byte).length) ([]) true) true
     let f : RxFrame := rx6 (head6 5 0 0 0 0 ([] : List Byte).length) ([]) true
     let p := port.toNat
     Taken p frame f s ∧ nhKind f.hdr = 5) ∧
    (let s : State := lit; let port : BitVec 4 := 0
     let frame : List Byte := wire6 (rx6 (head6 6 1 0 0 0 ([] : List Byte).length) ([]) true) true
     let f : RxFrame := rx6 (head6 6 1 0 0 0 ([] : List Byte).length) ([]) true
     let p := port.toNat
     Taken p frame f s ∧ nhKind f.hdr = 6 ∧ nhLast f.hdr = true) ∧
    (let s : State := lit; let port : BitVec 4 := 0
     let frame : List Byte := wire6 (rx6 (head6 6 0 0 0 0 ([] : List Byte).length) ([]) true) true
     let f : RxFrame := rx6 (head6 6 0 0 0 0 ([] : List Byte).length) ([]) true
     let p := port.toNat
     Taken p frame f s ∧ nhKind f.hdr = 6 ∧ nhLast f.hdr = false) ∧
    (let s : State := lit; let port : BitVec 4 := 0
     let frame : List Byte := wire6 (rx6 (head6 8 0 0 0 0 ([] : List Byte).length) ([]) true) true
     let f : RxFrame := rx6 (head6 8 0 0 0 0 ([] : List Byte).length) ([]) true
     let p := port.toNat
     Taken p frame f s ∧ nhKind f.hdr = 8) := by
  refine ⟨?_, ?_, ?_, ?_, ?_, ?_, ?_, ?_, ?_, ?_, ?_, ?_, ?_, ?_⟩ <;> decide +kernel

/-- States and operands that meet the hypotheses of `Obligations.FrameChecks`, clause by clause. -/
theorem test_meets_FrameChecks :
    (let s : State := lit; let port : BitVec 4 := 0
     let frame : List Byte := wire6 (rx6 (head6 1 0 0 0 0 ([] : List Byte).length) ([]) true) false
     let p := port.toNat
     inService s p = true ∧ portNative s p = true ∧ fcsOk frame = false) ∧
    (let s : State := lit; let port : BitVec 4 := 0
     let frame : List Byte := wire6 (rx6 (head6 1 0 0 0 0 ([] : List Byte).length) ([]) false) true
     let f := rx6 (head6 1 0 0 0 0 ([] : List Byte).length) ([]) false
     let p := port.toNat
     inService s p = true ∧ portNative s p = true ∧ fcsOk frame = true ∧ parseFrame s p frame = some f ∧
     e2eCheck f.hdr f.payload ≠ f.check) ∧
    (let s : State := lit; let port : BitVec 4 := 0
     let frame : List Byte := wire6 (rx6 (head6 9 0 0 0 0 ([] : List Byte).length) ([]) true) true
     let f := rx6 (head6 9 0 0 0 0 ([] : List Byte).length) ([]) true
     let p := port.toNat
     inService s p = true ∧ portNative s p = true ∧ fcsOk frame = true ∧ parseFrame s p frame = some f ∧
     e2eCheck f.hdr f.payload = f.check ∧
     ((nhVersion f.hdr ≠ 1 ∨ nhKind f.hdr = 0 ∨ 8 < nhKind f.hdr ∨ nhLen f.hdr ≠ f.payload.length))) ∧
    (let s : State := setReg lit (fabBase + 8) 1; let port : BitVec 4 := 0
     let frame : List Byte := wire6 (rx6 (head6 1 0 0 0 0 ([] : List Byte).length) ([]) true) true
     let f := rx6 (head6 1 0 0 0 0 ([] : List Byte).length) ([]) true
     let p := port.toNat
     inService s p = true ∧ portNative s p = true ∧ fcsOk frame = true ∧ parseFrame s p frame = some f ∧
     e2eCheck f.hdr f.payload = f.check ∧ nhVersion f.hdr = 1 ∧ 1 ≤ nhKind f.hdr ∧ nhKind f.hdr ≤ 8 ∧
     nhLen f.hdr = f.payload.length ∧ nhJob f.hdr ≠ jobId s) := by
  refine ⟨?_, ?_, ?_, ?_⟩ <;> decide +kernel

/-- States and operands that meet the hypotheses of `Obligations.PortEvents`, clause by clause. -/
theorem test_meets_PortEvents :
    (let s : State := linked 2 job0; let port : BitVec 4 := 0
     let p := port.toNat
     portMode s p = 2 ∧ inService s p = true) ∧
    (let s : State := setPort ready0 0 { Port.init with paused := 64 }; let port : BitVec 4 := 0
     let prio : BitVec 3 := 6
     (portOf s port.toNat).paused.testBit prio.toNat = true ∧
     (sget (0, 0) (portOf s port.toNat).pause prio.toNat).2 ≤ nsOf s) ∧
    (let s : State := later 12750000 (setPort ready0 0 { Port.init with state := 3, paused := 64 })
     let port : BitVec 4 := 0; let prio : BitVec 3 := 6
     let p := port.toNat
     (portOf s p).paused.testBit prio.toNat = true ∧ inService s p = true ∧ field (portCfg s p) 7 0 ≠ 0 ∧
     (sget (0, 0) (portOf s p).pause prio.toNat).1 + field (portCfg s p) 7 0 * 50000 ≤ nsOf s) ∧
    (let s : State := setPort (setReg job0 (fabBase + 0xC000) (0x60007C04)) 0 { Port.init with state := 2, lanes := 15, native := Bool.true, peer := 6 }
     let port : BitVec 4 := 0; let lane : BitVec 2 := 3
     let p := port.toNat
     let half := (portOf s p).state = 2 ∧ portNative s p = true ∧ flag (portCfg s p) 29 = true
     inService s p = true ∧ (portOf s p).lanes.testBit lane.toNat = true ∧ half) ∧
    (let s : State := linked 1 job0; let port : BitVec 4 := 0; let lane : BitVec 2 := 3
     let p := port.toNat
     let half := (portOf s p).state = 2 ∧ portNative s p = true ∧ flag (portCfg s p) 29 = true
     inService s p = true ∧ (portOf s p).lanes.testBit lane.toNat = true ∧ ¬ half) ∧
    (let s : State := ready0; let port : BitVec 4 := 0; let credits : Bool := false
     let p := port.toNat
     let m := portMode s p
     p < 12 ∧ m ≠ 0 ∧ s.pwr.stage = 5 ∧ (sget (0, 0) s.pwr.temps (9 + p)).2 ≠ 3 ∧ inService s p = false ∧
     (portOf s p).dead = false ∧ (((portOf s p).lanes = 0 ∨ (portOf s p).lanes = 15)) ∧ ((m = 1 → credits = true))) ∧
    (let s : State := setReg ready0 (fabBase + 0xC000 + 0x4000 * 11) (2 ^ 30); let port : BitVec 4 := 11
     let credits : Bool := false
     let p := port.toNat
     let m := portMode s p
     p < 12 ∧ m ≠ 0 ∧ s.pwr.stage = 5 ∧ (sget (0, 0) s.pwr.temps (9 + p)).2 ≠ 3 ∧ inService s p = false ∧
     (portOf s p).dead = false ∧ (((portOf s p).lanes = 0 ∨ (portOf s p).lanes = 15)) ∧ m = 1 ∧ credits = false) ∧
    (let s : State := later 1000000 (setPort (linked 1 job0) 0 { Port.init with state := 1, lanes := 15 })
     let port : BitVec 4 := 0
     let p := port.toNat
     portMode s p = 1 ∧ (portOf s p).native = false ∧ (portOf s p).state = 1 ∧ (portOf s p).lanes ≠ 0 ∧
     (portOf s p).since + 1000000 ≤ nsOf s) ∧
    (let s : State := later 1000000 (setTx lit 6 0 (some (txFlow0 [(0, 0, [])]))); let dst : W16 := 6
     let prio : BitVec 3 := 0; let f : TxFlow := txFlow0 [(0, 0, [])]; let u : Nat × Nat × List Byte := (0, 0, [])
     let d := dst.toNat
     let q := prio.toNat
     txFlow s d q = some f ∧ f.unacked.head? = some u ∧ f.at' + field (getReg s fabBase) 9 4 * 1000 ≤ nsOf s) ∧
    (let s : State := later 1000000 (setTx lit 6 0 (some (txFlow0 []))); let dst : W16 := 6
     let prio : BitVec 3 := 0; let f : TxFlow := txFlow0 []
     txFlow s dst.toNat prio.toNat = some f ∧ f.unacked = [] ∧ f.at' + 1000000 ≤ nsOf s ∧ prio.toNat ≠ 7) ∧
    (let s : State := later 1000000 (setTx lit 6 7 (some (txFlow0 []))); let f : TxFlow := txFlow0 []
     let g := ((txFlow (sendCtrl 6 0 4 0 [7] s) 6 7).getD (txFlow0 [])); let dst : W16 := 6
     let prio : BitVec 3 := 7
     txFlow s dst.toNat prio.toNat = some f ∧ f.unacked = [] ∧ f.at' + 1000000 ≤ nsOf s ∧
     let t := sendCtrl dst.toNat 0 4 0 [BitVec.ofNat 8 prio.toNat] s
     prio.toNat = 7 ∧ txFlow t dst.toNat 7 = some g) ∧
    (let s : State := setRx lit 6 0 (some { rxFlow0 with unackd := 7 }); let src : W16 := 6
     let prio : BitVec 3 := 0; let r : RxFlow := { rxFlow0 with unackd := 7 }
     rxFlow s src.toNat prio.toNat = some r ∧ r.unackd ≠ 0) ∧
    (let s : State := later 1000000 (withFab (fun f => { f with route := [(6, 1)], unreach := [6] }) (setReg lit (fabBase + 0x4000) 64))
     let dst : W16 := 6
     let d := dst.toNat
     let t : State := { s with fab := { s.fab with probe := sput 0 s.fab.probe d (nsOf s + 1000000) } }
     s.fab.unreach.contains d = true ∧ withheld s d = false ∧ sget 0 s.fab.probe d ≤ nsOf s ∧
     (txFlow t d 7).map TxFlow.unacked = none ∧ (pinPort t d 7 []).isSome = true) ∧
    (let s : State := later 1000000 (setTx (withFab (fun f => { f with route := [(6, 1)], unreach := [6] }) (setReg lit (fabBase + 0x4000) 64)) 6 7 (some (txFlow0 [(0, 0, [])])))
     let dst : W16 := 6; let f := txFlow0 [(0, 0, [])]; let u := (0, 0, []); let us := []
     let d := dst.toNat
     let t : State := { s with fab := { s.fab with probe := sput 0 s.fab.probe d (nsOf s + 1000000) } }
     s.fab.unreach.contains d = true ∧ withheld s d = false ∧ sget 0 s.fab.probe d ≤ nsOf s ∧ txFlow t d 7 = some f ∧
     f.unacked = u :: us) := by
  refine ⟨?_, ?_, ?_, ?_, ?_, ?_, ?_, ?_, ?_, ?_, ?_, ?_, ?_, ?_⟩ <;> decide +kernel

/-- States and operands that meet the hypotheses of `Obligations.CollectiveEvents`, clause by clause. -/
theorem test_meets_CollectiveEvents :
    (let s : State := withPwr (fun p => { p with fenced := true }) (ranHandle (handleOp 1 0 { run0 with started := false }))
     let handle : W16 := 1; let h : Handle := handleOp 1 0 { run0 with started := false }
     let r : Run := { run0 with started := false }
     let n := handle.toNat
     let t := setRun n (some { r with started := true, at' := nsOf s, held := [] }) s
     handleOf s n = some h ∧ h.run = some r ∧ r.started = false ∧ r.at' ≤ nsOf s ∧ t.pwr.fenced = true) ∧
    (let s : State := ranHandle (handleOp 1 0 { run0 with started := false }); let handle : W16 := 1
     let h : Handle := handleOp 1 0 { run0 with started := false }; let r : Run := { run0 with started := false }
     let n := handle.toNat
     let t := setRun n (some { r with started := true, at' := nsOf s, held := [] }) s
     handleOf s n = some h ∧ h.run = some r ∧ r.started = false ∧ r.at' ≤ nsOf s ∧ t.pwr.fenced = false) ∧
    (let s : State := ranHandle (handleOp 3 0 { run0 with last := [0] }); let handle : W16 := 1
     let h : Handle := handleOp 3 0 { run0 with last := [0] }; let r : Run := { run0 with last := [0] }
     let n := handle.toNat
     let t := excludeAllUnreachable s
     handleOf t n = some h ∧ h.run = some r ∧ r.own = false ∧ r.started = true ∧ ownIndex t h ≠ 0xFFFF ∧
     waitsFor t h r = []) ∧
    (let s : State := ranHandle (handleOp 1 0 { run0 with own := true }); let handle : W16 := 1
     let h : Handle := handleOp 1 0 { run0 with own := true }; let r : Run := { run0 with own := true }
     let n := handle.toNat
     let t := excludeAllUnreachable s
     n ≠ 0xFFF3 ∧ handleOf t n = some h ∧ h.run = some r ∧ r.started = true ∧ resultComplete t h r = true) ∧
    (let s : State := withNpx (fun x => { x with staged := [pub0] }) job0
     s.npx.staged ≠ []) ∧
    (let s : State := later 10000 (ranHandle (handleOp 1 1 run0)); let handle : W16 := 1; let member : W16 := 0
     let h : Handle := handleOp 1 1 run0; let r : Run := run0
     let wait := hdWaitMax h.header * 10000 * (if r.slow.contains member.toNat then 4 else 1)
     handleOf s handle.toNat = some h ∧ h.run = some r ∧ hdWaitMax h.header ≠ 0 ∧ r.own = false ∧ r.started = true ∧
     r.last.contains member.toNat = false ∧ r.at' + wait ≤ nsOf s ∧ member.toNat < (handleMembers s h).length) ∧
    (let s : State := later 100000000 (withStp (fun p => { p with comRun := true }) pair0)
     let handle : BitVec 2 := 1
     let n := handle.toNat
     n ≤ 2 ∧ smallRuns s n = true ∧ s.stp.own_ = sget 0 s.fab.attempt n ∧ smallWaited s n 1 = true) ∧
    (let s : State := later 20000000 (withFab (fun f => { f with attempt := [(2, 1)] }) (withStp (fun p => { p with updRun := true }) pair0))
     let handle : BitVec 2 := 2
     let n := handle.toNat
     let k := sget 0 s.fab.attempt n
     n ≤ 2 ∧ smallRuns s n = true ∧ smallWaited s n 2 = true ∧ min 3 (s.stp.members.length - 1) ≤ k) ∧
    (let s : State := later 20000000 (withStp (fun p => { p with updRun := true }) pair0)
     let handle : BitVec 2 := 2
     let n := handle.toNat
     let k := sget 0 s.fab.attempt n
     n ≤ 2 ∧ smallRuns s n = true ∧ smallWaited s n 2 = true ∧ k < min 3 (s.stp.members.length - 1)) := by
  refine ⟨?_, ?_, ?_, ?_, ?_, ?_, ?_, ?_, ?_⟩ <;> decide +kernel

/-- States and operands that meet the hypotheses of `Obligations.ExchangeEvents`, clause by clause. -/
theorem test_meets_ExchangeEvents :
    (let s : State := staged0; let b : Book := book0
     let u := s.stp.rc.outer
     let shs := allShards s
     s.npx.configured = true ∧ s.stp.deltaDue = false ∧ ((∀ d, s.npx.delta = some d → d.outer ≠ u)) ∧
     shs.all (fun p => (outerOf s p.1 p.2.1).stage.isEmpty) = false ∧ encodingBook s = some b) ∧
    (let s : State := withNpx (fun x => { x with replicas := [2] }) (withStp (fun p => { p with own_ := 1 }) (exch id))
     let u := wNow s
     s.npx.configured = true ∧ wMs s 0 ≠ 0 ∧ wAt s u 1 ≤ nsOf s ∧ s.npx.window ≤ u ∧
     let t := setNpx (fun n => { n with
       window := u + 1, isOpen := true, slack := n.slackNow.getD n.slack, slackNow := none
       silent := if isHome s then 0 else n.silent + 1 }) s
     isAgent t u = false) ∧
    (let s : State := keyed (exch id)
     let u := wNow s
     s.npx.configured = true ∧ wMs s 0 ≠ 0 ∧ wAt s u 1 ≤ nsOf s ∧ s.npx.window ≤ u ∧
     let t := setNpx (fun n => { n with
       window := u + 1, isOpen := true, slack := n.slackNow.getD n.slack, slackNow := none
       silent := if isHome s then 0 else n.silent + 1 }) s
     isAgent t u = true) ∧
    (let s : State := exch (fun x => { x with isOpen := true, window := 1, state := 0 })
     let w := s.npx.window - 1
     let t := setNpx (fun n => { n with isOpen := false }) s
     s.npx.isOpen = true ∧ wAt s w 2 ≤ nsOf s ∧ isHome t = false) ∧
    (let s : State := withNpx (fun x => { x with replicas := [2] }) (withStp (fun p => { p with own_ := 1 }) (exch (fun x => { x with isOpen := true, window := 1, state := 2 })))
     let w := s.npx.window - 1
     let t := setNpx (fun n => { n with isOpen := false }) s
     let held := leaseHeld t w
     let u := setNpx (fun n => { n with state := if held then 2 else 3, lease := held }) t
     s.npx.isOpen = true ∧ wAt s w 2 ≤ nsOf s ∧ isHome t = true ∧ isAgent u w = false) ∧
    (let s : State := setReg (exch (fun x => { x with isOpen := true, window := 1, state := 2 })) (npxBase + 8) (2 ^ 20)
     let w := s.npx.window - 1
     let t := setNpx (fun n => { n with isOpen := false }) s
     let held := leaseHeld t w
     let u := setNpx (fun n => { n with state := if held then 2 else 3, lease := held }) t
     s.npx.isOpen = true ∧ wAt s w 2 ≤ nsOf s ∧ isHome t = true ∧ isAgent u w = true ∧ held = false) ∧
    (let s : State := exch (fun x => { x with isOpen := true, window := 1, state := 2 })
     let w := s.npx.window - 1
     let t := setNpx (fun n => { n with isOpen := false }) s
     let held := leaseHeld t w
     let u := setNpx (fun n => { n with state := if held then 2 else 3, lease := held }) t
     let taken := (closingDeltas w u).foldl (classifyDelta (closingDeltas w u)) ([], u)
     s.npx.isOpen = true ∧ wAt s w 2 ≤ nsOf s ∧ isHome t = true ∧ isAgent u w = true ∧ held = true ∧ taken.1 = []) ∧
    (let s : State := later 1000000 (setReg (exch (fun x => { x with isOpen := true, window := 1, state := 2, deltas := [held0], lineage := [{ epoch := 0, home := 0, first := 0, last := none }] })) (npxBase + 0x40) 1)
     let w := s.npx.window - 1
     let t := setNpx (fun n => { n with isOpen := false }) s
     let held := leaseHeld t w
     let u := setNpx (fun n => { n with state := if held then 2 else 3, lease := held }) t
     let taken := (closingDeltas w u).foldl (classifyDelta (closingDeltas w u)) ([], u)
     s.npx.isOpen = true ∧ wAt s w 2 ≤ nsOf s ∧ isHome t = true ∧ isAgent u w = true ∧ held = true ∧ taken.1 ≠ []) ∧
    (let s : State := exch (fun x => { x with pubOut := some [], state := 2, window := 1 })
     let ob : List Byte := []
     let w := s.npx.window - 1
     s.npx.pubOut = some ob ∧ isHome s = true ∧ s.npx.window ≠ 0 ∧ wAt s w 3 ≤ nsOf s) ∧
    (let s : State := withTm (fun t => { t with now := 10000000000 * 65536 }) (keyed (exch (fun x => { x with delta := some (delta0 true) })))
     let d : OwnDelta := delta0 true
     s.npx.delta = some d ∧ d.sent = true ∧ d.settled = false ∧ isHome s = false ∧
     d.at' + field (npxCfg2 s) 7 0 * 1000000000 ≤ nsOf s ∧ maySend s = true ∧ mayTalk s = true) ∧
    (let s : State := exch (fun x => { x with silent := 3 })
     (((s.npx.state = 0 ∧ failW s + rankOf s ≤ s.npx.silent) ∨ (s.npx.state = 1 ∧ s.npx.candAt + failW s * wMs s 0 * 1000000 ≤ nsOf s))) ∧
     isAgent s (wNow s) = true) ∧
    (let s : State := exch id
     s.npx.configured = true ∧ isHome s = false) ∧
    (let s : State := exch (fun x => { x with state := 2 })
     s.npx.configured = true ∧ isHome s = true) ∧
    (let s : State := exch (fun x => { x with state := 2 })
     s.npx.configured = true ∧ isHome s = true) ∧
    (let s : State := exch (fun x => { x with state := 2 })
     s.npx.configured = true ∧ isHome s = true) ∧
    (let s : State := keyed job0; let port : BitVec 4 := 1; let src : BitVec 128 := 1; let icmp : List Byte := []
     let p := port.toNat
     p < 12 ∧ portMode s p = 3 ∧ inService s p = true ∧
     (src.toNat ≠ gateway s ∨ beAt icmp 0 1 ≠ 135 ∧ beAt icmp 0 1 ≠ 136)) ∧
    (let s : State := keyed job0; let port : BitVec 4 := 1; let src : BitVec 128 := 0
     let icmp : List Byte := 135 :: List.replicate 7 0 ++ beBytes 16 (ownAddr s)
     let p := port.toNat
     p < 12 ∧ portMode s p = 3 ∧ inService s p = true ∧ src.toNat = gateway s ∧ beAt icmp 0 1 = 135 ∧
     beAt icmp 8 16 = ownAddr s) ∧
    (let s : State := keyed job0; let port : BitVec 4 := 1; let src : BitVec 128 := 0
     let icmp : List Byte := 136 :: List.replicate 31 0
     let p := port.toNat
     p < 12 ∧ portMode s p = 3 ∧ inService s p = true ∧ src.toNat = gateway s ∧ beAt icmp 0 1 = 136 ∧
     beAt icmp 8 16 = gateway s) ∧
    (let s : State := withCbl (fun c => { c with books := [book0] }) (exch (fun x => { x with state := 2, delta := some (delta0 false) }))
     let family : BitVec 4 := 0; let d : OwnDelta := delta0 false; let b : Book := book0
     let fam := family.toNat
     let u := s.stp.rc.outer
     s.npx.delta = some d ∧ senderBook s fam u = some b ∧ isHome s = true ∧
     ((0 < s.stp.q → fam % s.stp.q = ownGroup s)) ∧ isAgent s (wNow s) = true ∧ d.outer = u ∧ u % 16 = 0 ∧
     ((∀ c ∈ s.cbl.books, ¬ (c.family = fam ∧ field c.header 447 416 = u ∧ 0 < u)))) := by
  refine ⟨?_, ?_, ?_, ?_, ?_, ?_, ?_, ?_, ?_, ?_, ?_, ?_, ?_, ?_, ?_, ?_, ?_, ?_, ?_⟩ <;> decide +kernel

/-- States and operands that meet the hypotheses of `Obligations.ExchangePackets`, clause by clause. -/
theorem test_meets_ExchangePackets :
    (let s : State := opened0; let port : BitVec 4 := 1; let src : BitVec 128 := 77
     let udp : List Byte := sealed0 1 []; let d : Partner := partner0; let b : List Byte := []
     let h := beAt udp 0 32
     Opened port.toNat src.toNat udp d b s ∧ s.npx.configured = true ∧ ehType h = 1) ∧
    (let s : State := opened0; let port : BitVec 4 := 1; let src : BitVec 128 := 77
     let udp : List Byte := sealed0 2 []; let d : Partner := partner0; let b : List Byte := []
     let h := beAt udp 0 32
     Opened port.toNat src.toNat udp d b s ∧ s.npx.configured = true ∧ ehType h = 2) ∧
    (let s : State := opened0; let port : BitVec 4 := 1; let src : BitVec 128 := 77
     let udp : List Byte := sealed0 3 []; let d : Partner := partner0; let b : List Byte := []
     let h := beAt udp 0 32
     Opened port.toNat src.toNat udp d b s ∧ s.npx.configured = true ∧ ehType h = 3) ∧
    (let s : State := opened0; let port : BitVec 4 := 1; let src : BitVec 128 := 77
     let udp : List Byte := sealed0 4 []; let d : Partner := partner0; let b : List Byte := []
     let h := beAt udp 0 32
     Opened port.toNat src.toNat udp d b s ∧ s.npx.configured = true ∧ ehType h = 4) ∧
    (let s : State := opened0; let port : BitVec 4 := 1; let src : BitVec 128 := 77
     let udp : List Byte := sealed0 5 [1 ^^^ pad0]; let d : Partner := partner0; let b : List Byte := [1]
     let h := beAt udp 0 32
     Opened port.toNat src.toNat udp d b s ∧ ehType h = 5 ∧ beAt b 0 1 = 1) ∧
    (let s : State := opened0; let port : BitVec 4 := 1; let src : BitVec 128 := 77
     let udp : List Byte := sealed0 5 [2 ^^^ pad0]; let d : Partner := partner0; let b : List Byte := [2]
     let h := beAt udp 0 32
     Opened port.toNat src.toNat udp d b s ∧ ehType h = 5 ∧ beAt b 0 1 = 2) ∧
    (let s : State := opened0; let port : BitVec 4 := 1; let src : BitVec 128 := 77
     let udp : List Byte := sealed0 5 [3 ^^^ pad0]; let d : Partner := partner0; let b : List Byte := [3]
     let h := beAt udp 0 32
     Opened port.toNat src.toNat udp d b s ∧ ehType h = 5 ∧ beAt b 0 1 = 3) ∧
    (let s : State := opened0; let port : BitVec 4 := 1; let src : BitVec 128 := 77
     let udp : List Byte := sealed0 5 [4 ^^^ pad0]; let d : Partner := partner0; let b : List Byte := [4]
     let h := beAt udp 0 32
     Opened port.toNat src.toNat udp d b s ∧ ehType h = 5 ∧ beAt b 0 1 = 4) ∧
    (let s : State := opened0; let port : BitVec 4 := 1; let src : BitVec 128 := 77
     let udp : List Byte := sealed0 5 [5 ^^^ pad0]; let d : Partner := partner0; let b : List Byte := [5]
     let h := beAt udp 0 32
     Opened port.toNat src.toNat udp d b s ∧ ehType h = 5 ∧ beAt b 0 1 = 5) ∧
    (let s : State := opened0; let port : BitVec 4 := 1; let src : BitVec 128 := 77
     let udp : List Byte := sealed0 5 [6 ^^^ pad0]; let d : Partner := partner0; let b : List Byte := [6]
     let h := beAt udp 0 32
     Opened port.toNat src.toNat udp d b s ∧ ehType h = 5 ∧ beAt b 0 1 = 6) ∧
    (let s : State := opened0; let port : BitVec 4 := 1; let src : BitVec 128 := 77
     let udp : List Byte := sealed0 5 [7 ^^^ pad0]; let d : Partner := partner0; let b : List Byte := [7]
     let h := beAt udp 0 32
     Opened port.toNat src.toNat udp d b s ∧ ehType h = 5 ∧ beAt b 0 1 = 7) ∧
    (let s : State := opened0; let port : BitVec 4 := 1; let src : BitVec 128 := 77
     let udp : List Byte := sealed0 6 []; let d : Partner := partner0; let b : List Byte := []; let q := 16
     let h := beAt udp 0 32
     Opened port.toNat src.toNat udp d b s ∧ ehType h = 6 ∧ timePathFrom s src.toNat = some q) :=
  ⟨⟨sealed0_taken _ _ _ rfl (by decide +kernel) (by decide +kernel) (by decide +kernel), by decide +kernel⟩,
   ⟨sealed0_taken _ _ _ rfl (by decide +kernel) (by decide +kernel) (by decide +kernel), by decide +kernel⟩,
   ⟨sealed0_taken _ _ _ rfl (by decide +kernel) (by decide +kernel) (by decide +kernel), by decide +kernel⟩,
   ⟨sealed0_taken _ _ _ rfl (by decide +kernel) (by decide +kernel) (by decide +kernel), by decide +kernel⟩,
   ⟨sealed0_taken _ _ _ (stream_one _) (by decide +kernel) (by decide +kernel) (by decide +kernel), by decide +kernel⟩,
   ⟨sealed0_taken _ _ _ (stream_one _) (by decide +kernel) (by decide +kernel) (by decide +kernel), by decide +kernel⟩,
   ⟨sealed0_taken _ _ _ (stream_one _) (by decide +kernel) (by decide +kernel) (by decide +kernel), by decide +kernel⟩,
   ⟨sealed0_taken _ _ _ (stream_one _) (by decide +kernel) (by decide +kernel) (by decide +kernel), by decide +kernel⟩,
   ⟨sealed0_taken _ _ _ (stream_one _) (by decide +kernel) (by decide +kernel) (by decide +kernel), by decide +kernel⟩,
   ⟨sealed0_taken _ _ _ (stream_one _) (by decide +kernel) (by decide +kernel) (by decide +kernel), by decide +kernel⟩,
   ⟨sealed0_taken _ _ _ (stream_one _) (by decide +kernel) (by decide +kernel) (by decide +kernel), by decide +kernel⟩,
   ⟨sealed0_taken _ _ _ rfl (by decide +kernel) (by decide +kernel) (by decide +kernel), by decide +kernel⟩⟩

/-- States and operands that meet the hypotheses of `Obligations.CheckpointEvents`, clause by clause. -/
theorem test_meets_CheckpointEvents :
    (let s : State := copying (copy0 1 false); let c : Copy := copy0 1 false
     s.ck.copy = some c ∧ c.stage = 1 ∧ c.paused = false ∧
     (txFlow s (ckptTo s) 2).all (fun f => f.unacked.isEmpty) = true ∧ s.fab.unreach.contains (ckptTo s) = false) ∧
    (let s : State := heldBy (copying (copy0 1 false)); let c : Copy := copy0 1 false
     s.ck.copy = some c ∧ c.paused = false ∧ holderReady s = true) ∧
    (let s : State := copying (copy0 1 false); let c : Copy := copy0 1 false
     s.ck.copy = some c ∧ c.paused = false ∧ holderReady s = false) ∧
    (let s : State := copying (copy0 1 true); let c : Copy := copy0 1 true
     s.ck.copy = some c ∧ c.paused = true ∧ nsOf s < c.check + 1000000) ∧
    (let s : State := later 1000000 (copying (copy0 1 true)); let c : Copy := copy0 1 true
     s.ck.copy = some c ∧ c.paused = true ∧ c.check + 1000000 ≤ nsOf s ∧ holderReady s = false) ∧
    (let s : State := later 1000000 (heldBy (copying (copy0 0 true))); let c : Copy := copy0 0 true
     s.ck.copy = some c ∧ c.paused = true ∧ c.check + 1000000 ≤ nsOf s ∧ holderReady s = true ∧ c.stage = 0) ∧
    (let s : State := later 1000000 (heldBy (copying (copy0 1 true))); let c : Copy := copy0 1 true
     s.ck.copy = some c ∧ c.paused = true ∧ c.check + 1000000 ≤ nsOf s ∧ holderReady s = true ∧ c.stage ≠ 0) ∧
    (let s : State := withTm (fun t => { t with now := 60000000000 * 65536 }) (copying (copy0 1 true))
     let c : Copy := copy0 1 true
     let hold := if s.ck.holdS = 0 then 60 else s.ck.holdS
     s.ck.copy = some c ∧ c.start + hold * 1000000000 ≤ nsOf s) ∧
    (let s : State := let t := setShard 0 0 (shard0 0 false) job0; { t with ck := { t.ck with repair := [(0, 0)] } }
     let stack : BitVec 3 := 0; let shard : BitVec 11 := 0; let block : W16 := 0
     let tables : List MemberTable := []; let sh : Shard := shard0 0 false
     let k := stack.toNat
     let i := shard.toNat
     let m := block.toNat
     let own (t : State) (b : Nat) : Nat := loadLe t (sdFp sh.desc + 8 * b) 8
     let members (t : State) (b : Nat) : List (Nat × Bool × Nat) :=
       (s.stp.own_ / s.stp.q, sh.eccMark, own t b)
         :: tables.map (fun x => (x.replica.toNat, x.mark, (x.prints.getD b 0).toNat))
     let agree := (members s m).all (fun x => x.2.2 = own s m)
     shardOf s k i = some sh ∧ s.ck.repair.contains (k, i) = true ∧ sh.torn = false ∧ sh.invalid = false ∧
     m < sdPrints sh.desc ∧ s.stp.q ≠ 0 ∧ agree = true) ∧
    (let s : State := let t := setShard 0 0 (shard0 0 false) job0; { t with ck := { t.ck with repair := [(0, 0)] } }
     let stack : BitVec 3 := 0; let shard : BitVec 11 := 0; let block : W16 := 0
     let tables : List MemberTable := [{ replica := 1, mark := false, prints := [1] }, { replica := 2, mark := false, prints := [1] }]
     let sh : Shard := shard0 0 false
     let k := stack.toNat
     let i := shard.toNat
     let m := block.toNat
     let own (t : State) (b : Nat) : Nat := loadLe t (sdFp sh.desc + 8 * b) 8
     let members (t : State) (b : Nat) : List (Nat × Bool × Nat) :=
       (s.stp.own_ / s.stp.q, sh.eccMark, own t b)
         :: tables.map (fun x => (x.replica.toNat, x.mark, (x.prints.getD b 0).toNat))
     let named := sget none s.ck.named (shardKey k i)
     let source := blockSource (members s m) named
     let agree := (members s m).all (fun x => x.2.2 = own s m)
     let print := (((members s m).find? (fun x => x.1 = source.1)).map (fun x => x.2.2)).getD (own s m)
     let waits (t : State) (suspect : Bool) : Bool := suspect && named.isNone && !stepActive t
     let noted := if source.2.2 then markSuspect k i m s else faultEvent source.2.1 k i m s
     shardOf s k i = some sh ∧ s.ck.repair.contains (k, i) = true ∧ sh.torn = false ∧ sh.invalid = false ∧
     m < sdPrints sh.desc ∧ s.stp.q ≠ 0 ∧ agree = false ∧ waits noted source.2.2 = false ∧ print ≠ own noted m) ∧
    (let s : State := let t := setShard 0 0 (shard0 0 false) job0; { t with ck := { t.ck with repair := [(0, 0)] } }
     let stack : BitVec 3 := 0; let shard : BitVec 11 := 0; let block : W16 := 0
     let tables : List MemberTable := [{ replica := 1, mark := false, prints := [1] }]
     let sh : Shard := shard0 0 false
     let k := stack.toNat
     let i := shard.toNat
     let m := block.toNat
     let own (t : State) (b : Nat) : Nat := loadLe t (sdFp sh.desc + 8 * b) 8
     let members (t : State) (b : Nat) : List (Nat × Bool × Nat) :=
       (s.stp.own_ / s.stp.q, sh.eccMark, own t b)
         :: tables.map (fun x => (x.replica.toNat, x.mark, (x.prints.getD b 0).toNat))
     let named := sget none s.ck.named (shardKey k i)
     let source := blockSource (members s m) named
     let agree := (members s m).all (fun x => x.2.2 = own s m)
     let print := (((members s m).find? (fun x => x.1 = source.1)).map (fun x => x.2.2)).getD (own s m)
     let waits (t : State) (suspect : Bool) : Bool := suspect && named.isNone && !stepActive t
     let noted := if source.2.2 then markSuspect k i m s else faultEvent source.2.1 k i m s
     shardOf s k i = some sh ∧ s.ck.repair.contains (k, i) = true ∧ sh.torn = false ∧ sh.invalid = false ∧
     m < sdPrints sh.desc ∧ s.stp.q ≠ 0 ∧ agree = false ∧ ((waits noted source.2.2 = true ∨ print = own noted m))) := by
  refine ⟨?_, ?_, ?_, ?_, ?_, ?_, ?_, ?_, ?_, ?_, ?_⟩ <;> decide +kernel

/-- States and operands that meet the hypotheses of `Obligations.CipherEvents`, clause by clause. -/
theorem test_meets_CipherEvents :
    (let s : State := ring0 1; let p : Nat := 0; let x : Nat := 0; let op : Nat := 1
     let i := cipHead s
     let q := cipReq (loadLe s (cipEntry s i) 64)
     flag (getReg s cipBase) 31 = true ∧ i ≠ cipTail s ∧ classify (cipEntry s i) = .plinth p 47 x ∧ q.op = op ∧
     op = 1) ∧
    (let s : State := ring0 2; let p : Nat := 0; let x : Nat := 0; let op : Nat := 2
     let i := cipHead s
     let q := cipReq (loadLe s (cipEntry s i) 64)
     flag (getReg s cipBase) 31 = true ∧ i ≠ cipTail s ∧ classify (cipEntry s i) = .plinth p 47 x ∧ q.op = op ∧
     op = 2) ∧
    (let s : State := ring0 3; let p : Nat := 0; let x : Nat := 0; let op : Nat := 3
     let i := cipHead s
     let q := cipReq (loadLe s (cipEntry s i) 64)
     flag (getReg s cipBase) 31 = true ∧ i ≠ cipTail s ∧ classify (cipEntry s i) = .plinth p 47 x ∧ q.op = op ∧
     op = 3) ∧
    (let s : State := ring0 4; let p : Nat := 0; let x : Nat := 0; let op : Nat := 4
     let i := cipHead s
     let q := cipReq (loadLe s (cipEntry s i) 64)
     flag (getReg s cipBase) 31 = true ∧ i ≠ cipTail s ∧ classify (cipEntry s i) = .plinth p 47 x ∧ q.op = op ∧
     op = 4) ∧
    (let s : State := ring0 5; let p : Nat := 0; let x : Nat := 0; let op : Nat := 5
     let i := cipHead s
     let q := cipReq (loadLe s (cipEntry s i) 64)
     flag (getReg s cipBase) 31 = true ∧ i ≠ cipTail s ∧ classify (cipEntry s i) = .plinth p 47 x ∧ q.op = op ∧
     op = 5) ∧
    (let s : State := ring0 6; let p : Nat := 0; let x : Nat := 0; let op : Nat := 6
     let i := cipHead s
     let q := cipReq (loadLe s (cipEntry s i) 64)
     flag (getReg s cipBase) 31 = true ∧ i ≠ cipTail s ∧ classify (cipEntry s i) = .plinth p 47 x ∧ q.op = op ∧
     op = 6) ∧
    (let s : State := ring0 7; let p : Nat := 0; let x : Nat := 0; let op : Nat := 7
     let i := cipHead s
     let q := cipReq (loadLe s (cipEntry s i) 64)
     flag (getReg s cipBase) 31 = true ∧ i ≠ cipTail s ∧ classify (cipEntry s i) = .plinth p 47 x ∧ q.op = op ∧
     op = 7) ∧
    (let s : State := withSec (fun x => { x with inflight := [(5, 0)] }) ready0; let index : BitVec 12 := 5
     let r : Nat × Nat := (5, 0)
     s.sec.inflight.find? (fun r => decide (r.1 = index.toNat)) = some r) := by
  refine ⟨?_, ?_, ?_, ?_, ?_, ?_, ?_, ?_⟩ <;> decide +kernel

/-- States and operands that meet the hypotheses of `Obligations.CommandFrames`, clause by clause. -/
theorem test_meets_CommandFrames :
    ∃ t, exec job1 ready0 = .next t :=
  ⟨_, rfl⟩

/-- States and operands that meet the hypotheses of `Obligations.HostFrames`, clause by clause. -/
theorem test_meets_HostFrames :
    exec .hostIfReset ready0 = .next (hostInterfaceReset true ready0) :=
  rfl

/-- States and operands that meet the hypotheses of `Obligations.EventFrames`, clause by clause. -/
theorem test_meets_EventFrames :
    exec .tCheckInstant ready0 = .next (tryCheck ready0) :=
  rfl

/-- States and operands that meet the hypotheses of `Obligations.ResetState`, clause by clause. -/
theorem test_meets_ResetState :
    let a : Nat := 0x40000; let d : RegDef := regDef 0x40000
    regAt a = some d := by
  decide +kernel

/-- States and operands that meet the hypotheses of `Obligations.MemoryOutsideTheStore`, clause by clause. -/
theorem test_meets_MemoryOutsideTheStore :
    (let s : State := ready0; let a : Nat := 0; let bs : List Byte := []; let b : Nat := 0
     Clean s ∧ (b < a ∨ a + bs.length ≤ b)) ∧
    (Clean mapped ∧ ∃ t, exec (.addI64 0x40000000 1) mapped = .next t) :=
  ⟨⟨⟨by decide +kernel, fun _ => rfl⟩, by decide +kernel⟩,
   ⟨⟨by decide +kernel, fun _ => rfl⟩, _, rfl⟩⟩

/-- States and operands that meet the hypotheses of `Obligations.PackedRows`, clause by clause. -/
theorem test_meets_PackedRows :
    (let f : Fmt := .int4; let codes := [1, 2, 3]; let j := 1
     let row := f.pack codes
     (f = .e2m1 ∨ f = .int4) ∧ j < row.length) ∧
    (let f : Fmt := .e3m2; let codes := [1, 2, 3, 4, 5]; let j := 1
     let row := f.pack codes
     (f = .e3m2 ∨ f = .e2m3) ∧ 3 * j < row.length) ∧
    (let codes := [1, 2, 3]; let i := 2
     i < codes.length) := by
  refine ⟨?_, ?_, ?_⟩ <;> decide +kernel

end Sys2Proof.Tests
end

