-- ==== Sys2Proof/Proofs/CounterReads.lean ====
section
/-!
SUPPORT. A counter's two registers, read through their page (R13, R469): what a read of the low register answers and
leaves, and what the read of the high register that follows it answers.
-/
namespace Sys2Proof.Machine

/-! ## A read as a command -/

@[simp] theorem powered_emit (o : Output) (s : State) : powered (emit o s) = powered s := rfl

theorem exec_counterLowRead (req : Requester) (addr : BitVec 26) (s : State) :
    exec (.counterLowRead req addr) s = .next (readCmd req false addr.toNat s) := rfl

/-- With main power the register at the page address answers, and its value goes to the requester. -/
theorem readCmd_powered {s : State} (hp : powered s = true) (req : Requester) (viaAlias : Bool) (addr : Nat) :
    readCmd req viaAlias addr s =
      emit (.readValue req addr (readRegister req viaAlias (pageAddr addr) s).1)
        (readRegister req viaAlias (pageAddr addr) s).2 := by
  simp [readCmd, hp]

/-! ## The low register -/

/-- The state that a read of the low register at `a` leaves: the requester's latch holds the upper half and the counter
is clear. -/
def counterTaken (req : Requester) (a : Nat) (s : State) : State :=
  { s with latch := sput 0 s.latch (latchKey req false a) (counter s a / 2 ^ 32), ctr := sput 0 s.ctr a 0 }

@[simp] theorem counter_counterTaken (req : Requester) (a : Nat) (s : State) : counter (counterTaken req a s) a = 0 := by
  rw [counter, counterTaken, sget_sput_same]

@[simp] theorem latch_counterTaken (req : Requester) (a : Nat) (s : State) :
    sget 0 (counterTaken req a s).latch (latchKey req false a) = counter s a / 2 ^ 32 :=
  sget_sput_same _ _ _ _

@[simp] theorem powered_counterTaken (req : Requester) (a : Nat) (s : State) :
    powered (counterTaken req a s) = powered s := rfl

@[simp] theorem counterTaken_out (req : Requester) (a : Nat) (s : State) : (counterTaken req a s).out = s.out := rfl

theorem readRegister_counterLow {a : Nat} {d : RegDef} (hd : regAt a = some d) (hc : d.cls = .ctr) (hl : ctrLow a = a)
    (req : Requester) (s : State) :
    readRegister req false a s = (counter s a % 2 ^ 32, counterTaken req a s) := by
  simp [readRegister, hd, hc, hl, counterTaken]

/-- A read of a counter's low register answers its lower half and takes the counter. -/
theorem readCmd_counterLow {addr a : Nat} {d : RegDef} {s : State} (hp : powered s = true) (ha : pageAddr addr = a)
    (hd : regAt a = some d) (hc : d.cls = .ctr) (hl : ctrLow a = a) (req : Requester) :
    readCmd req false addr s = emit (.readValue req addr (counter s a % 2 ^ 32)) (counterTaken req a s) := by
  rw [readCmd_powered hp, ha, readRegister_counterLow hd hc hl]

/-! ## The high register -/

theorem readRegister_counterHigh {a : Nat} {d : RegDef} (hd : regAt a = some d) (hc : d.cls = .ctr) (hl : ctrLow a ≠ a)
    (req : Requester) (viaAlias : Bool) (s : State) :
    readRegister req viaAlias a s = (sget 0 s.latch (latchKey req viaAlias (ctrLow a)), s) := by
  simp [readRegister, hd, hc, hl.symm]

/-- A read of a counter's high register answers the requester's latch and changes nothing else. -/
theorem readCmd_counterHigh {addr a : Nat} {d : RegDef} {s : State} (hp : powered s = true) (ha : pageAddr addr = a)
    (hd : regAt a = some d) (hc : d.cls = .ctr) (hl : ctrLow a ≠ a) (req : Requester) (viaAlias : Bool) :
    readCmd req viaAlias addr s =
      emit (.readValue req addr (sget 0 s.latch (latchKey req viaAlias (ctrLow a)))) s := by
  rw [readCmd_powered hp, ha, readRegister_counterHigh hd hc hl]

/-! ## The obligation -/

/-- The register above the one at `addr`, where the window has one. -/
theorem toNat_add_four {addr : BitVec 26} (h : addr.toNat + 4 < 2 ^ 26) : (addr + 4).toNat = addr.toNat + 4 := by
  rw [BitVec.toNat_add]
  exact Nat.mod_eq_of_lt h

/-- Settles O23: the low read latches the upper half under the requester's key before it clears the counter, and the
high read of the same requester looks up that key. -/
theorem countersSaturateAndClear : Obligations.CountersSaturateAndClear := by
  unfold Obligations.CountersSaturateAndClear
  constructor
  · intro s a n
    constructor
    · rw [counter_bumpN, if_pos rfl, satAdd]
    · intro b hb
      rw [counter_bumpN, if_neg hb.symm]
  · rintro req addr d s a hp - ha hd hc hl hh ⟨e, he, hec⟩ ha4 hlt
    have hhigh : ctrLow (a + 4) ≠ a + 4 := by omega
    refine ⟨emit (.readValue req a (counter s a % 2 ^ 32)) (counterTaken req a s), ?low, ?out, ?cleared, ?high⟩
    case low => rw [exec_counterLowRead, readCmd_counterLow hp ha hd hc hl]
    case out => simp
    case cleared => exact counter_counterTaken req a s
    case high =>
      have haddr : (addr + 4).toNat = a + 4 := toNat_add_four hlt
      rw [exec_counterLowRead, haddr, readCmd_counterHigh (by simpa using hp) ha4 he hec hhigh, hh, emit_latch,
        latch_counterTaken]

end Sys2Proof.Machine
end

