-- ==== Sys2Proof/Proofs/IntegerFormats.lean ====
section
/-!
SUPPORT. What the conversion of an element to an integer format writes (R45): a sign and a magnitude of at most the
largest of the format, in two's complement.
-/
namespace Sys2Proof.Machine

/-! ## Two's complement -/

/-- The code of the integer of sign `neg` and magnitude `c` in `w` bits. -/
def twosCode (w : Nat) (neg : Bool) (c : Nat) : Nat := if neg then unsigned w (-(c : Int)) else c

/-- A magnitude below half the range of the codes is read back with its sign. -/
theorem signed_twosCode {w c : Nat} (hw : 0 < w) (hc : c < 2 ^ (w - 1)) (neg : Bool) :
    signed w (twosCode w neg c) = if neg then -(c : Int) else c := by
  have hpow : 2 ^ w = 2 * 2 ^ (w - 1) := by rw [← Nat.pow_succ', Nat.succ_eq_add_one, Nat.sub_add_cancel hw]
  have hcast : (2 : Int) ^ w = ((2 ^ w : Nat) : Int) := by norm_cast
  unfold signed twosCode unsigned
  rw [hcast, hpow]
  generalize 2 ^ (w - 1) = p at hc
  cases neg with
  | false =>
    rw [if_neg Bool.false_ne_true, Nat.mod_eq_of_lt (by omega)]
    simp [hc]
  | true =>
    rcases Nat.eq_zero_or_pos c with rfl | hpos
    · simp [hc]
    · have hmod : -(c : Int) % ((2 * p : Nat) : Int) = ((2 * p - c : Nat) : Int) := by
        rw [← Int.add_emod_right, Int.emod_eq_of_lt (by omega) (by omega)]
        omega
      rw [if_pos rfl, hmod, Int.toNat_natCast, Nat.mod_eq_of_lt (by omega)]
      simp only [if_true]
      rw [if_neg (by omega)]
      omega

/-! ## The rounded quotient -/

/-- Rounding keeps no quantum below the smallest. -/
theorem qmin_le_roundQuot (r : Round) (p : Nat) (qmin : Int) (num den : Nat) (e : Int) :
    qmin ≤ (roundQuot r p qmin num den e).2 := by
  unfold roundQuot
  split
  · exact Int.le_refl _
  · exact Int.le_max_right _ _

/-! ## The integer formats -/

/-- R45's two formats. -/
theorem Fmt.isInt_iff {f : Fmt} : f.isInt = true ↔ f = .int8 ∨ f = .int4 := by cases f <;> decide

section Integers
variable {f : Fmt} (hf : f.isInt = true)
include hf

theorem Fmt.hasInf_of_isInt : f.hasInf = false := by
  obtain rfl | rfl := Fmt.isInt_iff.mp hf <;> rfl

theorem Fmt.hasNan_of_isInt : f.hasNan = false := by
  obtain rfl | rfl := Fmt.isInt_iff.mp hf <;> rfl

theorem Fmt.quantum_of_isInt : f.quantum = 0 := by
  obtain rfl | rfl := Fmt.isInt_iff.mp hf <;> rfl

theorem Fmt.maxVal_of_isInt : f.maxVal = .fin false f.maxCode 0 := by
  obtain rfl | rfl := Fmt.isInt_iff.mp hf <;> decide

/-- The codes of the positive integers are those without the sign bit. -/
theorem Fmt.maxCode_of_isInt : f.maxCode = 2 ^ (f.width - 1) - 1 := by
  obtain rfl | rfl := Fmt.isInt_iff.mp hf <;> rfl

/-- An integer that is not above the largest of the format has a code that is not. -/
theorem Fmt.codeOf_le_maxCode {m : Nat} {e : Int} (he : 0 ≤ e) (hlt : f.maxVal.lt (.fin false m e) = false) :
    f.codeOf m e ≤ f.maxCode := by
  have hle : m * 2 ^ e.toNat ≤ f.maxCode := by
    rw [Fmt.maxVal_of_isInt hf] at hlt
    simp only [FVal.lt, FVal.int, FVal.exp, alignInts, Int.min_eq_left he, Bool.false_eq_true, if_false, Int.sub_self,
      Int.toNat_zero, Int.pow_zero, Int.mul_one, Int.sub_zero, decide_eq_false_iff_not, Int.not_lt] at hlt
    exact_mod_cast hlt
  simp only [Fmt.codeOf, hf, if_true]
  split
  · exact Nat.zero_le _
  · exact hle

/-- Every conversion writes the code of an integer whose magnitude is at most the largest of the format (Table 2-7). -/
theorem Fmt.convert_code_of_isInt (strict : Bool) (r : Round) (x : FVal) (ms : Nat) (es : Int) :
    ∃ neg c, c ≤ f.maxCode ∧ (f.convert strict r x ms es).code = twosCode f.width neg c := by
  have hwide : (decide (f = .fp32) || decide (f = .bf16) || decide (f = .fp16)) = false := by
    obtain rfl | rfl := Fmt.isInt_iff.mp hf <;> rfl
  cases x with
  | nan n => exact ⟨false, f.maxCode, Nat.le_refl _, by simp [Fmt.convert, Fmt.hasNan_of_isInt hf, Conv.plain, twosCode]⟩
  | inf n =>
    refine ⟨n, f.maxCode, Nat.le_refl _, ?_⟩
    simp [Fmt.convert, Fmt.hasInf_of_isInt hf, Fmt.hasNan_of_isInt hf, hf, Conv.plain, twosCode, Fmt.withSign]
  | fin n m e =>
    have hq : 0 ≤ (roundQuot r 4096 0 m ms (e - es)).2 := qmin_le_roundQuot ..
    simp only [Fmt.convert, hf, if_true, Fmt.quantum_of_isInt hf, hwide, Bool.and_false, Bool.false_eq_true, if_false]
    generalize roundQuot r 4096 0 m ms (e - es) = q at hq
    obtain ⟨rm, re⟩ := q
    by_cases hm : m = 0
    · exact ⟨false, 0, Nat.zero_le _, by rw [if_pos hm]; rfl⟩
    rw [if_neg hm]
    cases hbig : f.maxVal.lt (.fin false rm re) with
    | true => exact ⟨n, f.maxCode, Nat.le_refl _, by simp [Conv.plain, twosCode, Fmt.withSign]⟩
    | false =>
      by_cases hrm : rm = 0
      · exact ⟨false, 0, Nat.zero_le _, by simp [hrm, Conv.plain, twosCode]⟩
      · exact ⟨n, f.codeOf rm re, Fmt.codeOf_le_maxCode hf hq hbig, by simp [hrm, Conv.plain, twosCode]⟩

/-- R45's range: from the negative of the largest integer of the format to the largest. -/
theorem Fmt.signed_convert_range (strict : Bool) (r : Round) (x : FVal) (ms : Nat) (es : Int) :
    -(f.maxCode : Int) ≤ signed f.width (f.convert strict r x ms es).code ∧
      signed f.width (f.convert strict r x ms es).code ≤ f.maxCode := by
  obtain ⟨neg, c, hc, hcode⟩ := Fmt.convert_code_of_isInt hf strict r x ms es
  have hmax := Fmt.maxCode_of_isInt hf
  have hwidth : 0 < f.width := by obtain rfl | rfl := Fmt.isInt_iff.mp hf <;> decide
  have hpos := Nat.two_pow_pos (f.width - 1)
  rw [hcode, signed_twosCode hwidth (by omega)]
  cases neg <;> simp only [Bool.false_eq_true, if_true, if_false] <;> omega

end Integers

/-! ## The obligation -/

/-- Settles O59: a conversion to an integer format writes a sign and a magnitude of at most the largest of the format,
whatever it converts. -/
theorem integerFormats : Obligations.IntegerFormats := by
  unfold Obligations.IntegerFormats
  refine ⟨fun strict r x ms es => ⟨?int8, ?int4⟩, ?decode8, ?decode4⟩
  case int8 => exact Fmt.signed_convert_range (f := .int8) rfl strict r x ms es
  case int4 => exact Fmt.signed_convert_range (f := .int4) rfl strict r x ms es
  case decode8 => decide
  case decode4 => decide

end Sys2Proof.Machine
end

