-- ==== Sys2Proof/Proofs/PackedRows.lean ====
section
/-!
SUPPORT. Packed rows (R46): the row of codes is one number in base `2 ^ width`, the bytes that hold it are its digits in
base 256, and a field of bytes or an element is a window of its bits.
-/
namespace Sys2Proof.Machine

/-! ## Digits -/

/-- The number with the digits `ds` in base `b`, the lowest first. -/
def inBase (b : Nat) : List Nat → Nat
  | [] => 0
  | d :: ds => d + b * inBase b ds

section Digits
variable {b : Nat}

theorem inBase_cons_mod {d : Nat} (hd : d < b) (ds : List Nat) : inBase b (d :: ds) % b = d := by
  rw [inBase, Nat.add_mul_mod_self_left, Nat.mod_eq_of_lt hd]

theorem inBase_cons_div {d : Nat} (hd : d < b) (ds : List Nat) : inBase b (d :: ds) / b = inBase b ds := by
  rw [inBase, Nat.add_mul_div_left _ _ (Nat.zero_lt_of_lt hd), Nat.div_eq_of_lt hd, Nat.zero_add]

theorem inBase_mod {ds : List Nat} (hds : ∀ d ∈ ds, d < b) : inBase b ds % b = ds.head?.getD 0 := by
  cases ds with
  | nil => exact Nat.zero_mod b
  | cons d ds => exact inBase_cons_mod (hds d List.mem_cons_self) ds

theorem inBase_zeros (k : Nat) : inBase b (List.replicate k 0) = 0 := by
  induction k with
  | zero => rfl
  | succ k ih => rw [List.replicate_succ, inBase, ih, Nat.mul_zero]

theorem inBase_append_zeros (ds : List Nat) (k : Nat) : inBase b (ds ++ List.replicate k 0) = inBase b ds := by
  induction ds with
  | nil => exact inBase_zeros k
  | cons d ds ih => rw [List.cons_append, inBase, ih, inBase]

theorem inBase_drop {ds : List Nat} (hds : ∀ d ∈ ds, d < b) (i : Nat) :
    inBase b (ds.drop i) = inBase b ds / b ^ i := by
  induction i generalizing ds with
  | zero => rw [List.drop_zero, Nat.pow_zero, Nat.div_one]
  | succ i ih =>
    cases ds with
    | nil => exact (Nat.zero_div _).symm
    | cons d ds =>
      obtain ⟨hd, hds⟩ := List.forall_mem_cons.mp hds
      rw [List.drop_succ_cons, ih hds, Nat.pow_succ', ← Nat.div_div_eq_div_mul, inBase_cons_div hd]

theorem inBase_take {ds : List Nat} (hds : ∀ d ∈ ds, d < b) (n : Nat) :
    inBase b (ds.take n) = inBase b ds % b ^ n := by
  induction n generalizing ds with
  | zero => rw [List.take_zero, Nat.pow_zero, Nat.mod_one]; rfl
  | succ n ih =>
    cases ds with
    | nil => exact (Nat.zero_mod _).symm
    | cons d ds =>
      obtain ⟨hd, hds⟩ := List.forall_mem_cons.mp hds
      rw [List.take_succ_cons, Nat.pow_succ', Nat.mod_mul, inBase_cons_mod hd, inBase_cons_div hd, ← ih hds, inBase]

theorem inBase_lt {ds : List Nat} (hds : ∀ d ∈ ds, d < b) : inBase b ds < b ^ ds.length := by
  induction ds with
  | nil => exact Nat.zero_lt_one
  | cons d ds ih =>
    obtain ⟨hd, hds⟩ := List.forall_mem_cons.mp hds
    calc inBase b (d :: ds) < b + b * inBase b ds := Nat.add_lt_add_right hd _
      _ = b * (inBase b ds + 1) := by rw [Nat.mul_add, Nat.mul_one, Nat.add_comm]
      _ ≤ b * b ^ ds.length := Nat.mul_le_mul_left b (ih hds)
      _ = b ^ (d :: ds).length := Nat.pow_succ'.symm

/-- One digit; a digit above the highest is 0. -/
theorem inBase_digit {ds : List Nat} (hds : ∀ d ∈ ds, d < b) (i : Nat) :
    inBase b ds / b ^ i % b = ds.getD i 0 := by
  rw [← inBase_drop hds, inBase_mod fun d hd => hds d (List.mem_of_mem_drop hd), List.head?_drop,
    List.getD_eq_getElem?_getD]

end Digits

/-- An element of a mapped list, where the list's default is mapped as well. -/
theorem getD_map {α β : Type} (g : α → β) (l : List α) (i : Nat) (d : α) : (l.map g).getD i (g d) = g (l.getD i d) := by
  rw [List.getD_eq_getElem?_getD, List.getD_eq_getElem?_getD, List.getElem?_map, Option.getD_map]

/-! ## Byte strings as numbers -/

@[simp] theorem length_leBytes (n x : Nat) : (leBytes n x).length = n := by
  induction n generalizing x with
  | zero => rfl
  | succ n ih => rw [leBytes, List.length_cons, ih]

theorem leNat_leBytes (n x : Nat) : leNat (leBytes n x) = x % 256 ^ n := by
  induction n generalizing x with
  | zero => rw [Nat.pow_zero, Nat.mod_one]; rfl
  | succ n ih =>
    have hpow : 256 ^ (n + 1) = 2 ^ 8 * 256 ^ n := Nat.pow_succ'
    rw [leBytes, leNat, ih, BitVec.toNat_ofNat, hpow]
    exact Nat.mod_mul.symm

theorem leNat_eq_inBase (bs : List Byte) : leNat bs = inBase 256 (bs.map BitVec.toNat) := by
  induction bs with
  | nil => rfl
  | cons b bs ih => rw [leNat, ih, List.map_cons, inBase]

theorem byte_digits (bs : List Byte) : ∀ d ∈ bs.map BitVec.toNat, d < 256 := by
  intro d hd
  obtain ⟨b, -, rfl⟩ := List.mem_map.mp hd
  exact b.isLt

/-- A field of a byte string is a window of the string's number; the bytes it lacks are zero digits. -/
theorem leAt_eq (bs : List Byte) (o n : Nat) : leAt bs o n = leNat bs / 256 ^ o % 256 ^ n := by
  have hdrop : ∀ d ∈ (bs.map BitVec.toNat).drop o, d < 256 := fun d hd => byte_digits bs d (List.mem_of_mem_drop hd)
  rw [leNat_eq_inBase bs, ← inBase_drop (byte_digits bs), ← inBase_take hdrop, leAt, leNat_eq_inBase, slice,
    List.map_append, List.map_replicate, List.map_take, List.map_drop]
  exact inBase_append_zeros _ _

/-- One byte of a byte string, missing bytes read as 0. -/
theorem toNat_getD_eq (bs : List Byte) (j : Nat) : (bs.getD j 0).toNat = leNat bs / 256 ^ j % 256 := by
  rw [leNat_eq_inBase, inBase_digit (byte_digits bs)]
  exact (getD_map BitVec.toNat bs j 0).symm

/-! ## The number of a row -/

/-- The codes of a row as one number, element 0 lowest. -/
def Fmt.rowNat (f : Fmt) (codes : List Nat) : Nat := codes.foldr (fun q acc => q % 2 ^ f.width + acc * 2 ^ f.width) 0

theorem Fmt.pack_eq (f : Fmt) (codes : List Nat) :
    f.pack codes = leBytes (f.rowBytes codes.length) (f.rowNat codes) := rfl

theorem Fmt.rowNat_eq_inBase (f : Fmt) (codes : List Nat) :
    f.rowNat codes = inBase (2 ^ f.width) (codes.map (· % 2 ^ f.width)) := by
  induction codes with
  | nil => rfl
  | cons q qs ih =>
    rw [List.map_cons, inBase, ← ih, Nat.mul_comm]
    rfl

theorem code_digits (f : Fmt) (codes : List Nat) : ∀ d ∈ codes.map (· % 2 ^ f.width), d < 2 ^ f.width := by
  intro d hd
  obtain ⟨q, -, rfl⟩ := List.mem_map.mp hd
  exact Nat.mod_lt _ (Nat.two_pow_pos _)

/-- One element of the number of a row. -/
theorem Fmt.rowNat_digit (f : Fmt) (codes : List Nat) (i : Nat) :
    f.rowNat codes / 2 ^ (f.width * i) % 2 ^ f.width = codes.getD i 0 % 2 ^ f.width := by
  have hmap := getD_map (· % 2 ^ f.width) codes i 0
  rw [Nat.zero_mod] at hmap
  rw [rowNat_eq_inBase, Nat.pow_mul, inBase_digit (code_digits f codes), hmap]

/-- A window of `k + 1` elements is its first element below the window of the others. -/
theorem Fmt.rowNat_window (f : Fmt) (codes : List Nat) (i k : Nat) :
    f.rowNat codes / 2 ^ (f.width * i) % 2 ^ (f.width * (k + 1)) = codes.getD i 0 % 2 ^ f.width +
      2 ^ f.width * (f.rowNat codes / 2 ^ (f.width * (i + 1)) % 2 ^ (f.width * k)) := by
  rw [Nat.mul_succ f.width k, Nat.add_comm (f.width * k), Nat.pow_add, Nat.mod_mul, rowNat_digit, Nat.div_div_eq_div_mul,
    ← Nat.pow_add, ← Nat.mul_succ]

/-! ## The length of a row -/

theorem Fmt.rowBytes_of_width_six {f : Fmt} (hf : f.width = 6) (n : Nat) : f.rowBytes n = 3 * ((n + 3) / 4) := by
  rw [rowBytes, if_pos hf, ceilDiv, if_neg (by decide)]
  omega

theorem Fmt.rowBytes_of_width_ne_six {f : Fmt} (hf : f.width ≠ 6) (n : Nat) :
    f.rowBytes n = (f.width * n + 7) / 8 := by
  rw [rowBytes, if_neg hf, ceilDiv, if_neg (by decide), Nat.mul_comm]
  omega

theorem Fmt.rowBytes_of_width_four {f : Fmt} (hf : f.width = 4) (n : Nat) : f.rowBytes n = (n + 1) / 2 := by
  rw [rowBytes_of_width_ne_six (by omega), hf]
  omega

/-- The bytes of a row hold all its elements. -/
theorem Fmt.width_mul_le_rowBytes (f : Fmt) (n : Nat) : f.width * n ≤ 8 * f.rowBytes n := by
  by_cases hf : f.width = 6
  · rw [rowBytes_of_width_six hf, hf]
    omega
  · rw [rowBytes_of_width_ne_six hf]
    omega

theorem Fmt.leNat_pack (f : Fmt) (codes : List Nat) : leNat (f.pack codes) = f.rowNat codes := by
  have hlt : f.rowNat codes < 2 ^ (f.width * codes.length) := by
    have h := inBase_lt (code_digits f codes)
    rwa [← rowNat_eq_inBase, List.length_map, ← Nat.pow_mul] at h
  rw [pack_eq, leNat_leBytes, Nat.mod_eq_of_lt]
  calc f.rowNat codes < 2 ^ (f.width * codes.length) := hlt
    _ ≤ 2 ^ (8 * f.rowBytes codes.length) := Nat.pow_le_pow_right (by decide) (f.width_mul_le_rowBytes _)
    _ = 256 ^ f.rowBytes codes.length := Nat.pow_mul 2 8 _

/-! ## What a packed row holds -/

theorem Fmt.length_pack (f : Fmt) (codes : List Nat) : (f.pack codes).length = f.rowBytes codes.length := by
  rw [pack_eq, length_leBytes]

/-- A row of a 4-bit format: two elements to a byte. -/
theorem Fmt.pack_byte_of_width_four {f : Fmt} (hf : f.width = 4) (codes : List Nat) (j : Nat) :
    ((f.pack codes).getD j 0).toNat = codes.getD (2 * j) 0 % 2 ^ 4 + 2 ^ 4 * (codes.getD (2 * j + 1) 0 % 2 ^ 4) := by
  have h0 := f.rowNat_window codes (2 * j) 1
  have hpow : 256 ^ j = 2 ^ (4 * (2 * j)) := by rw [← Nat.mul_assoc, Nat.pow_mul]
  rw [hf] at h0
  rw [toNat_getD_eq, leNat_pack, hpow]
  exact h0.trans (by rw [Nat.mul_one, ← hf, rowNat_digit])

/-- A row of a 6-bit format: four elements to a word of three bytes. -/
theorem Fmt.pack_word_of_width_six {f : Fmt} (hf : f.width = 6) (codes : List Nat) (j : Nat) :
    leAt (f.pack codes) (3 * j) 3 = codes.getD (4 * j) 0 % 2 ^ 6 + 2 ^ 6 * (codes.getD (4 * j + 1) 0 % 2 ^ 6)
      + 2 ^ 12 * (codes.getD (4 * j + 2) 0 % 2 ^ 6) + 2 ^ 18 * (codes.getD (4 * j + 3) 0 % 2 ^ 6) := by
  have h0 := f.rowNat_window codes (4 * j) 3
  have h1 := f.rowNat_window codes (4 * j + 1) 2
  have h2 := f.rowNat_window codes (4 * j + 2) 1
  have h3 := f.rowNat_digit codes (4 * j + 3)
  have hpow : 256 ^ (3 * j) = 2 ^ (6 * (4 * j)) := by rw [← Nat.mul_assoc, Nat.pow_mul, Nat.pow_mul]
  simp only [hf, Nat.add_assoc, Nat.reduceAdd] at h0 h1 h2 h3
  rw [leAt_eq, leNat_pack, hpow]
  omega

/-- A window of at most `k` bits lies inside the lowest `k`. -/
theorem mod_two_pow_window {r w k : Nat} (h : r + w ≤ k) (x : Nat) :
    x % 2 ^ k / 2 ^ r % 2 ^ w = x / 2 ^ r % 2 ^ w := by
  have hk : 2 ^ k = 2 ^ r * 2 ^ (k - r) := by rw [← Nat.pow_add, Nat.add_sub_cancel' (by omega)]
  rw [hk, Nat.mod_mul_right_div_self, Nat.mod_mod_of_dvd _ (Nat.pow_dvd_pow 2 (by omega))]

/-- Elements are read back as they were packed, whatever the width: one lies within five bytes. -/
theorem Fmt.elemAt_pack (f : Fmt) (codes : List Nat) (i : Nat) :
    f.elemAt (f.pack codes) i = codes.getD i 0 % 2 ^ f.width := by
  have hspan : i * f.width % 8 + f.width ≤ 8 * 5 := by
    have hr := Nat.mod_lt (i * f.width) (show 0 < 8 by decide)
    have hw : f.width ≤ 32 := by cases f <;> decide
    omega
  have hbits : 256 ^ (i * f.width / 8) * 2 ^ (i * f.width % 8) = 2 ^ (f.width * i) := by
    rw [show 256 = 2 ^ 8 from rfl, ← Nat.pow_mul, ← Nat.pow_add, Nat.div_add_mod, Nat.mul_comm]
  rw [elemAt, leAt_eq, leNat_pack, show 256 ^ 5 = 2 ^ (8 * 5) from rfl, mod_two_pow_window hspan,
    Nat.div_div_eq_div_mul, hbits, rowNat_digit]

/-! ## The obligation -/

/-- Settles O60: the bytes of a row are a window each of the row's number, and so is every element. -/
theorem packedRows : Obligations.PackedRows := by
  unfold Obligations.PackedRows
  intro f codes c row
  refine ⟨fun hf => ?four, fun hf => ?six, fun i _ => f.elemAt_pack codes i⟩
  case four =>
    have hw : f.width = 4 := by obtain rfl | rfl := hf <;> rfl
    have hlen : row.length = (codes.length + 1) / 2 := (f.length_pack codes).trans (Fmt.rowBytes_of_width_four hw _)
    refine ⟨hlen, fun j _ => ?_⟩
    simp only [c, row, Fmt.pack_byte_of_width_four hw, hw]
  case six =>
    have hw : f.width = 6 := by obtain rfl | rfl := hf <;> rfl
    have hlen : row.length = 3 * ((codes.length + 3) / 4) := (f.length_pack codes).trans (Fmt.rowBytes_of_width_six hw _)
    refine ⟨hlen, fun j _ => ?_⟩
    simp only [c, row, Fmt.pack_word_of_width_six hw, hw]

end Sys2Proof.Machine
end

