-- ==== Sys2Proof/Proofs/StepCommands.lean ====
section
/-!
SUPPORT. The step commands (Table 15-11): what each one's own checks and effect answer when the checks pass, and from
that the command as a whole.
-/
namespace Sys2Proof.Machine

/-! ## The commands' own effect -/

theorem kStepBegin_of_accepted {h : CmdHdr} {st tCheck tCommit deadline : W64} {salt : W32} {gen : Byte} {b : State}
    (hn : stepBeginRefusal b h.notBefore.toNat st.toNat gen.toNat tCheck.toNat tCommit.toNat deadline.toNat = none) :
    kStepBegin h st salt gen tCheck tCommit deadline b = kDefer (stepBegun h salt gen tCheck tCommit deadline b) := by
  rw [kStepBegin, hn]

/-- A step is aborted while it computes, checks or is being aborted. -/
theorem kStepAbort_of_running {h : CmdHdr} {st : W64} {b : State}
    (hr : b.stp.rc.state = 1 ∨ b.stp.rc.state = 2 ∨ b.stp.rc.state = 5) (hst : st.toNat = b.stp.rc.step) :
    kStepAbort h st b = kOk 0 (abortStep false b) := by
  have h0 : b.stp.rc.state ≠ 0 := by omega
  simp only [kStepAbort, h0, hst, hr, if_false, if_true, ne_eq, not_true_eq_false]

theorem kStepQuery_of_fits {h : CmdHdr} {buf : Buf} {b : State} (hm : h.mctp = false)
    (hf : Fits b buf (stepRecordImage b.stp.rc ++ leBytes 4 (topStepState b) ++ leBytes 4 b.stp.endWord)) :
    let data := stepRecordImage b.stp.rc ++ leBytes 4 (topStepState b) ++ leBytes 4 b.stp.endWord
    kStepQuery h buf b = kOk data.length (hostWrite buf.addr.toNat data b) :=
  deliver_fits hm hf id _

theorem kTensorScale_of_valid {h : CmdHdr} {tid : W16} {margin hostScale : W32} {depth flags : Byte} {b : State}
    (hmargin : marginOk margin.toNat = true)
    (hscale : flag flags.toNat 0 = true → posNormal hostScale.toNat = true) (hdepth : depth.toNat ≤ 63) :
    kTensorScale h tid margin hostScale depth flags b = kOk 0 (setTensor b tid.toNat { tensorOf b tid.toNat with
      next := some (margin.toNat, hostScale.toNat, depth.toNat, flags.toNat % 8) }) := by
  have hs : (flag flags.toNat 0 && !posNormal hostScale.toNat) = false := by
    cases hfl : flag flags.toNat 0
    · rfl
    · rw [hscale hfl]; rfl
  simp only [kTensorScale, hmargin, hs, Nat.not_lt.mpr hdepth, Bool.not_true, Bool.false_eq_true, if_false]

/-- A step waiting for its resumption goes on to its commit. -/
theorem kStepResume_of_waiting {h : CmdHdr} {st : W64} {b : State} (hj : jobAborted b = false)
    (h7 : b.stp.rc.state = 7) (hst : st.toNat = b.stp.rc.step) (hr : b.stp.r ≠ 0) :
    kStepResume h st b = kDefer (
      let t := setStp (fun p => { p with resumeReply := some (replyTo h 0x0405 b), resumed := true, tCommit := 0 }) b
      joinCommit (writeRecord { t.stp.rc with state := 4 } t)) := by
  simp [kStepResume, hj, h7, hst, hr]

theorem kJobGroups_of_valid {h : CmdHdr} {b : State} (ha : stepActive b = false) (hr : leAt h.pb 0 4 ≠ 0)
    (hq : leAt h.pb 4 4 ≠ 0) (hmax : leAt h.pb 0 4 * leAt h.pb 4 4 ≤ 65535)
    (hown : leAt h.pb 8 4 < leAt h.pb 0 4 * leAt h.pb 4 4) :
    let ms := (List.range (leAt h.pb 0 4 * leAt h.pb 4 4)).map (fun i => leAt h.pb (64 + 2 * i) 2)
    ms.getD (leAt h.pb 8 4) 0xFFFF = ownFid b → (∀ m ∈ ms, m ≠ 0xFFFF ∧ (ms.filter (· = m)).length ≤ 1) →
    kJobGroups h b = kOk 0 { b with stp := { b.stp with
      r := leAt h.pb 0 4, q := leAt h.pb 4 4, own_ := leAt h.pb 8 4, members := ms } } := by
  intro ms hfid hms
  have hnone : ms.findIdx? (fun m => decide (m = 0xFFFF) || decide (1 < (ms.filter (· = m)).length)) = none := by
    rw [List.findIdx?_eq_none_iff]
    intro m hm
    obtain ⟨hne, hle⟩ := hms m hm
    simp only [hne, Nat.not_lt.mpr hle, decide_false, Bool.or_self]
  have hsite : ¬(leAt h.pb 0 4 * leAt h.pb 4 4 ≤ leAt h.pb 8 4 ∨ ms.getD (leAt h.pb 8 4) 0xFFFF ≠ ownFid b) :=
    not_or.mpr ⟨Nat.not_le.mpr hown, fun hne => hne hfid⟩
  simp only [kJobGroups]
  rw [if_neg (Bool.eq_false_iff.mp ha), if_neg (by omega), if_neg hq, if_neg hsite, hnone]

theorem kQueueLoad_of_valid {h : CmdHdr} {b : State} (ha : stepActive b = false)
    (hds : ∀ p ∈ queueDescs h.pb, queueDescBad b (queueDescs h.pb) p = false)
    (hslots : queueSlotsOk b (queueDescs h.pb) = true) :
    kQueueLoad h b = kOk 0 { b with stp := { b.stp with queues := (queueDescs h.pb).foldl (fun m p =>
      sput none m (field p.2 255 240) (some { desc := p.2, occ := 0, high := 0, fills := 0 })) [] } } := by
  have hnone : (queueDescs h.pb).find? (queueDescBad b (queueDescs h.pb)) = none :=
    List.find?_eq_none.mpr fun p hp => by rw [hds p hp]; exact Bool.false_ne_true
  simp only [kQueueLoad, ha, hnone, hslots, Bool.not_true, Bool.false_eq_true, if_false]

theorem kExpertTableLoad_of_valid {h : CmdHdr} {b : State} (ha : stepActive b = false) (h1 : 1 ≤ leAt h.pb 0 4)
    (hmax : leAt h.pb 0 4 ≤ 4096) :
    let es := (List.range (leAt h.pb 0 4)).map (fun i => leAt h.pb (64 + 4 * i) 4)
    (∀ e ∈ es, field e 31 16 ≠ 0xFFFF ∧ b.stp.members.contains (field e 31 16) = true ∧ field e 15 12 = 0
      ∧ (es.filter (· = e)).length ≤ 1) →
    kExpertTableLoad h b = kOk 0 { b with stp := { b.stp with expert := es } } := by
  intro es hes
  have hnone : es.findIdx? (fun e => decide (field e 31 16 = 0xFFFF) || !b.stp.members.contains (field e 31 16)
      || decide (field e 15 12 ≠ 0) || decide (1 < (es.filter (· = e)).length)) = none := by
    rw [List.findIdx?_eq_none_iff]
    intro e he
    obtain ⟨hne, hmem, hchk, hle⟩ := hes e he
    simp only [hne, hmem, hchk, Nat.not_lt.mpr hle, ne_eq, not_true_eq_false, decide_false, Bool.not_true, Bool.or_self]
  simp only [kExpertTableLoad]
  rw [if_neg (Bool.eq_false_iff.mp ha), if_neg (by omega), hnone]

/-! ## The obligation -/

/-- Settles O14: a ready command runs its own checks and effect on the state it finds, so each command's effect above is
what is answered. -/
theorem stepCommandsComplete : Obligations.StepCommandsComplete := by
  unfold Obligations.StepCommandsComplete
  refine ⟨?begin, ?abort, ?query, ?scale, ?resume, ?groups, ?queues, ?experts⟩
  case begin =>
    intro h st salt gen tCheck tCommit deadline s hr b hn
    exact congrArg Host.Outcome.next (submit_accepted hr rfl (kStepBegin_of_accepted hn))
  case abort =>
    intro h st s hr b hrun hst
    exact congrArg Host.Outcome.next (submit_ok hr (kStepAbort_of_running hrun hst))
  case query =>
    intro h buf s hr b data hf
    exact congrArg Host.Outcome.next (submit_ok hr (kStepQuery_of_fits hr.1 hf))
  case scale =>
    intro h tid margin hostScale depth flags s hr b hmargin hscale hdepth
    exact congrArg Host.Outcome.next (submit_ok hr (kTensorScale_of_valid hmargin hscale hdepth))
  case resume =>
    intro h st s hr b hj h7 hst hgroups
    exact congrArg Host.Outcome.next (submit_left hr rfl (kStepResume_of_waiting hj h7 hst hgroups))
  case groups =>
    intro h s hr b ha hr0 hq0 hmax hown hfid hms
    exact congrArg Host.Outcome.next (submit_ok hr (kJobGroups_of_valid ha hr0 hq0 hmax hown hfid hms))
  case queues =>
    intro h s hr b ds ha hds hslots
    exact congrArg Host.Outcome.next (submit_ok hr (kQueueLoad_of_valid ha hds hslots))
  case experts =>
    intro h s hr b es ha h1 hmax hes
    exact congrArg Host.Outcome.next (submit_ok hr (kExpertTableLoad_of_valid ha h1 hmax hes))

end Sys2Proof.Machine
end

