-- ==== Sys2Proof/Proofs/TelemetryCommands.lean ====
section
/-!
SUPPORT. The telemetry commands (Table 15-16): what each one delivers and clears when its result fits the buffer, and
from that the command as a whole.
-/
namespace Sys2Proof.Machine

/-! ## The commands' own effect -/

/-- The words of a page's snapshot. -/
def snapWords (m : Sparse Nat) : List Byte := (List.range 1024).flatMap (fun i => leBytes 4 (sget 0 m (4 * i)))

/-- The state `w` with a snapshot taken: its counters and read-to-clear registers are cleared (R471). -/
def snapTaken (m : Sparse Nat × State) (w : State) : State :=
  { w with ctr := m.2.ctr, regs := m.2.regs, host := { w.host with snap := m.1, snapDone := true } }

theorem kCountersRead_of_fits {h : CmdHdr} {block : Byte} {inst : W16} {buf : Buf} {name base pages : Nat} {b : State}
    (hm : h.mctp = false) (hblock : regBlocks[block.toNat]? = some (name, base, pages)) (hinst : inst.toNat < pages)
    (hbusy : b.host.snapBusy = false) (hf : Fits b buf (snapWords (snapPage (base / 0x4000 + inst.toNat) b).1)) :
    let m := snapPage (base / 0x4000 + inst.toNat) b
    kCountersRead h block inst buf b =
      kOk (snapWords m.1).length (snapTaken m (hostWrite buf.addr.toNat (snapWords m.1) b)) := by
  unfold kCountersRead
  rw [hblock]
  dsimp only
  rw [if_neg (Nat.not_le.mpr hinst), hbusy, if_neg Bool.false_ne_true]
  exact deliver_fits hm hf (snapTaken _) _

theorem kSlogRead_of_fits {h : CmdHdr} {clear : Byte} {buf : Buf} {b : State} (hm : h.mctp = false)
    (hf : Fits b buf ((b.slog.first ++ b.slog.ring).flatMap (leBytes 32))) :
    let rs := b.slog.first ++ b.slog.ring
    kSlogRead h clear buf b = kOk rs.length
      (let w := hostWrite buf.addr.toNat (rs.flatMap (leBytes 32)) b
       if clear.toNat = 1 then { w with slog := { w.slog with first := [], ring := [] } } else w) :=
  deliver_fits hm hf (fun w =>
    if clear.toNat = 1 then { w with slog := { w.slog with first := [], ring := [] } } else w) _

theorem kTensorRead_of_fits {h : CmdHdr} {first n : W16} {buf : Buf} {b : State} (hm : h.mctp = false) :
    let ids := ((List.range n.toNat).map (fun i => first.toNat + i)).filter (· < 65536)
    let data := ids.flatMap (fun i =>
      let t := tensorOf b i
      leBytes 16 (scaleRecord t) ++ leBytes 8 t.satCnt ++ leBytes 8 t.nfCnt ++ leBytes 8 t.crushCnt)
    Fits b buf data →
    kTensorRead h first n buf b = kOk data.length
      (ids.foldl (fun u i => setTensor u i { tensorOf u i with satCnt := 0, nfCnt := 0, crushCnt := 0 })
        (hostWrite buf.addr.toNat data b)) := by
  intro ids data hf
  exact deliver_fits hm hf
    (fun w => ids.foldl (fun u i => setTensor u i { tensorOf u i with satCnt := 0, nfCnt := 0, crushCnt := 0 }) w) _

/-- The statistics of one stage queue, as QUEUE_STATS delivers them. -/
def queueStatsRow (e : Nat × Option StageQueue) : List Byte :=
  match e.2 with
  | some q => leBytes 2 e.1 ++ leBytes 6 q.high ++ leBytes 8 q.fills
  | none => []

theorem queueStatsRow_eq : queueStatsRow =
    fun e => (e.2.map (fun q => leBytes 2 e.1 ++ leBytes 6 q.high ++ leBytes 8 q.fills)).getD [] := by
  funext ⟨k, q⟩
  cases q <;> rfl

/-- QUEUE_STATS clears the statistics of one stage queue. -/
def clearQueueStats (u : State) (e : Nat × Option StageQueue) : State :=
  match e.2 with
  | some q => setStageQueue e.1 { q with high := 0, fills := 0 } u
  | none => u

theorem clearQueueStats_eq : clearQueueStats =
    fun u e => (e.2.map (fun q => setStageQueue e.1 { q with high := 0, fills := 0 } u)).getD u := by
  funext u ⟨k, q⟩
  cases q <;> rfl

theorem kQueueStats_of_fits {h : CmdHdr} {first n : W16} {buf : Buf} {b : State} (hm : h.mctp = false) :
    let qs := b.stp.queues.filter (fun e => decide (first.toNat ≤ e.1) && decide (e.1 < first.toNat + n.toNat))
    let data := qs.flatMap queueStatsRow
    Fits b buf data →
    kQueueStats h first n buf b = kOk data.length (qs.foldl clearQueueStats (hostWrite buf.addr.toNat data b)) := by
  intro qs data hf
  exact deliver_fits hm hf (fun u => qs.foldl clearQueueStats u) _

theorem kSensorsRead_of_fits {h : CmdHdr} {buf : Buf} {b : State} (hm : h.mctp = false) (hf : Fits b buf (sensorData b)) :
    kSensorsRead h buf b = kOk (sensorData b).length (hostWrite buf.addr.toNat (sensorData b) b) :=
  deliver_fits hm hf id _

theorem kDiagRun_of_idle {h : CmdHdr} {test : W16} {param : W64} {b : State} (ha : stepActive b = false) :
    kDiagRun h test param b = kOk (free32 b).1 (free32 b).2 := by
  simp only [kDiagRun, ha, Bool.false_eq_true, if_false]

/-! ## The obligation -/

/-- Settles O20: a ready command runs its own checks and effect on the state it finds, so what each command above
delivers and clears is what is answered. -/
theorem telemetryCommandsComplete : Obligations.TelemetryCommandsComplete := by
  unfold Obligations.TelemetryCommandsComplete
  refine ⟨?counters, ?slog, ?tensors, ?queues, ?sensors, ?diag⟩
  case counters =>
    intro h block inst buf name base pages s hr b hblock hinst hbusy
    have hk := kCountersRead_of_fits (buf := buf) hr.1 hblock hinst hbusy
    -- what the snapshot holds plays no part
    generalize snapPage (base / 0x4000 + inst.toNat) b = m at hk ⊢
    exact fun hf => congrArg Host.Outcome.next (submit_ok hr (hk hf))
  case slog =>
    intro h clear buf s hr b rs hf
    exact congrArg Host.Outcome.next (submit_ok hr (kSlogRead_of_fits hr.1 hf))
  case tensors =>
    intro h first n buf s hr b ids data hf
    exact congrArg Host.Outcome.next (submit_ok hr (kTensorRead_of_fits hr.1 hf))
  case queues =>
    intro h first n buf s hr
    rw [← queueStatsRow_eq, ← clearQueueStats_eq]
    intro b qs data hf
    exact congrArg Host.Outcome.next (submit_ok hr (kQueueStats_of_fits hr.1 hf))
  case sensors =>
    intro h buf s hr b data hf
    exact congrArg Host.Outcome.next (submit_ok hr (kSensorsRead_of_fits hr.1 hf))
  case diag =>
    intro h test param s hr b ha
    exact congrArg Host.Outcome.next (submit_ok hr (kDiagRun_of_idle ha))

end Sys2Proof.Machine
end

