-- ==== Sys2Proof/Proofs/TileCommands.lean ====
section
/-!
SUPPORT. The tile commands (Table 15-9): what each one's own checks and effect answer when the checks pass, and from
that the command as a whole.
-/
namespace Sys2Proof.Machine

/-! ## PROGRAM_LOAD -/

/-- A load whose images are good and whose gather descriptors may be bound installs all of them (R101, R449). -/
theorem kProgramLoad_of_valid {h : CmdHdr} {t0 : Nat} {ts : List Nat} {parts : List LoadPart} {b u : State}
    (ha : stepActive b = false) (hdom : leAt h.pb 12 1 ≤ 11) (hl : leAt h.pb 16 4 % 64 = 0)
    (ht : maskBits 96 (leAt h.pb 0 12) = t0 :: ts)
    (hi : loadImages (leAt h.pb 16 4) (loadList h.pb) b = (.inr parts, u))
    (hg : gatherOk u (t0 / 24) t0 (loadGathers h.pb) = true) :
    kProgramLoad h b = kOk 0 (programInstall (leAt h.pb 12 1) (leAt h.pb 16 4) (t0 :: ts) parts (loadGathers h.pb) t0
      (placeImages (leAt h.pb 16 4) parts u)) := by
  simp only [kProgramLoad, ha, Nat.not_lt.mpr hdom, hl, ht, hi, hg, ne_eq, not_true_eq_false, Bool.not_true,
    Bool.false_eq_true, if_false]

/-- R496. A load that succeeds is measured. -/
theorem kProgramLoadMeasured_of_ok {h : CmdHdr} {b t : State} {d : Nat} (hk : kProgramLoad h b = kOk d t) :
    kProgramLoadMeasured h b = kOk d (measureImages (loadedImages h.pb b) t) := by
  rw [kProgramLoadMeasured, hk]
  rfl

/-! ## The other commands -/

theorem kTileUnfence_of_idle {h : CmdHdr} {mask : BitVec 96} {b : State} (ha : stepActive b = false) :
    let r := (maskBits 96 mask.toNat).foldl (fun (a : Nat × State) t =>
      (a.1 + bit (unfenceTile t a.2).1, (unfenceTile t a.2).2)) (0, b)
    kTileUnfence h mask b = kOk r.1 r.2 := by
  rw [kTileUnfence, ha]
  rfl

theorem kTileQuery_of_fits {h : CmdHdr} {mask : BitVec 96} {buf : Buf} {b : State} (hm : h.mctp = false) :
    let data := (maskBits 96 mask.toNat).flatMap (fun t => leBytes 4 (tilStatus b t) ++ leBytes 4 (tilFault b t))
    Fits b buf data →
    kTileQuery h mask buf b = kOk data.length (hostWrite buf.addr.toNat data b) := by
  intro data hf
  exact deliver_fits hm hf id _

/-! ## The obligation -/

/-- Settles O13: a ready command runs its own checks and effect on the state it finds, so each command's effect above is
what is answered. -/
theorem tileCommandsComplete : Obligations.TileCommandsComplete := by
  unfold Obligations.TileCommandsComplete
  refine ⟨?load, ?fence, ?unfence, ?query⟩
  case load =>
    intro h t0 ts parts u s hr b l ha hdom hl ht hi hg
    exact congrArg Host.Outcome.next
      (submit_ok hr (kProgramLoadMeasured_of_ok (kProgramLoad_of_valid ha hdom hl ht hi hg)))
  case fence =>
    intro h mask s hr b
    exact congrArg Host.Outcome.next (submit_ok hr (k := kTileFence h mask) rfl)
  case unfence =>
    intro h mask s hr b ha
    exact congrArg Host.Outcome.next (submit_ok hr (kTileUnfence_of_idle ha))
  case query =>
    intro h mask buf s hr b data hf
    exact congrArg Host.Outcome.next (submit_ok hr (kTileQuery_of_fits hr.1 hf))

end Sys2Proof.Machine
end

