-- ==== Sys2Proof/Proofs/TileMessages.lean ====
section
/-!
SUPPORT. Tokens and credits (chapter 4): what a message does at a tile's ejection port, at the control complex and at a
pier of the plinth, each case once.
-/
namespace Sys2Proof.Machine

/-! ## Arrival -/

/-- A message to a tile that has left the course network waits at the ejection port and is then taken. -/
theorem tileArrival_of_arrived {m : Msg} {a : Arrived} {s : State} (ha : arriveFrom m s = some a) (hn : m.ends.2 < 96) :
    tileArrival m s = tileMessage m.ends.2 a.know m (ejectWait m.ends.2 a.near a.s) := by
  unfold tileArrival
  rw [ha]
  exact if_pos hn

theorem Tile.isFenced_iff {ti : Tile} : ti.isFenced = true ↔ ti.mode = .fenced := decide_eq_true_iff

theorem Tile.isFenced_eq_false {ti : Tile} (h : ti.mode ≠ .fenced) : ti.isFenced = false := decide_eq_false h

/-! ## The ejection port -/

section Port
variable {t : Nat} {s : State} (know : List Nat) {token : W64}

/-- R115. A fenced tile drops whatever reaches it, and counts it. -/
theorem tileMessage_of_fenced (m : Msg) (hf : (tileOf s t).mode = .fenced) :
    tileMessage t know m s = bump s (cTil t 0x138) := if_pos (Tile.isFenced_iff.mpr hf)

variable (hm : (tileOf s t).mode ≠ .fenced)
include hm

theorem tileMessage_credit (src : Byte) {credit : W32} (hg : (tileOf s t).stale (flag credit.toNat 18) = false) :
    tileMessage t know (.credit src credit) s =
      applyCredit t (field credit.toNat 23 19) (field credit.toNat 15 0) know s := by
  simp [tileMessage, Tile.isFenced_eq_false hm, hg]

/-- A control token is taken as one, whatever its generation. -/
theorem tileMessage_control (hk : tokKind token = 2) : tileMessage t know (.token token) s = controlMessage t token s := by
  simp [tileMessage, Tile.isFenced_eq_false hm, hk]

theorem tileMessage_slot (hg : (tileOf s t).stale (tokGen token) = false) (h2 : tokKind token ≠ 2)
    (h3 : tokKind token ≠ 3) :
    tileMessage t know (.token token) s =
      applySlot t (tokSlot token) (tokKind token = 1) (tokValue token) know s := by
  simp [tileMessage, Tile.isFenced_eq_false hm, hg, h2, h3]

/-- R108, R109. A stale token, one of the reserved kind and a control token of a reserved code are discarded and counted;
a step-begin token is none of them. -/
theorem tileMessage_discarded (hb : ¬(tokKind token = 2 ∧ tokValue token = 1))
    (hd : (tileOf s t).stale (tokGen token) = true ∨ tokKind token = 3 ∨
      tokKind token = 2 ∧ tokValue token ≠ 2 ∧ tokValue token ≠ 3) :
    tileMessage t know (.token token) s = bump s (cTil t 0x130) := by
  by_cases h2 : tokKind token = 2
  · have h1 : tokValue token ≠ 1 := fun h => hb ⟨h2, h⟩
    rw [tileMessage_control know hm h2, controlMessage, if_neg h1]
    rcases hd with hs | h3 | ⟨-, hv2, hv3⟩
    · exact if_pos hs
    · omega
    · rw [if_neg hv2, if_neg hv3, ite_self]
  · have hd' : (tileOf s t).stale (tokGen token) = true ∨ tokKind token = 3 :=
      hd.imp_right fun h => h.resolve_right fun hc => h2 hc.1
    simp [tileMessage, Tile.isFenced_eq_false hm, h2, hd']

end Port

/-! ## Slots and pools -/

theorem applySlot_set (t slot v : Nat) (know : List Nat) (s : State) :
    applySlot t slot true v know s =
      setTile s t ({ tileOf s t with slots := sput 0 (tileOf s t).slots slot v }.learn slot know) := rfl

theorem applySlot_add (t slot v : Nat) (know : List Nat) (s : State) :
    let sum := sget 0 (tileOf s t).slots slot + v
    let u := setTile s t
      ({ tileOf s t with slots := sput 0 (tileOf s t).slots slot (min sum (2 ^ 32 - 1)) }.learn slot know)
    applySlot t slot false v know s = if 2 ^ 32 ≤ sum then bump u (cTil t 0x128) else u := by
  simp [applySlot, satAdd]

/-! ## Control tokens at a tile -/

section Control
variable {t : Nat} {token : W64} {s : State}

theorem controlMessage_begin (hv : tokValue token = 1) : controlMessage t token s = beginTile t (tokGen token) s := if_pos hv

variable (hg : (tileOf s t).stale (tokGen token) = false)
include hg

theorem controlMessage_abort (hv : tokValue token = 2) : controlMessage t token s = abortTile t s := by
  simp [controlMessage, hv, hg]

theorem controlMessage_fence (hv : tokValue token = 3) : controlMessage t token s = fenceTile t 6 0 s := by
  simp [controlMessage, hv, hg]

end Control

theorem beginTile_of_loaded {t : Nat} {gen : Bool} {p : Program} {s : State} (hp : (tileOf s t).prog = some p) :
    beginTile t gen s = settleCursors t (setTile s t { tileOf s t with
      slots := (List.range 64).foldl (fun m i => sput 0 m i (loadLe s (tileAddr t (p.off + 64 + 4 * i)) 4)) []
      pools := (List.range 32).foldl (fun m i => sput 0 m i (loadLe s (tileAddr t (p.off + 320 + 2 * i)) 2)) []
      know := [], mainCur := 0, deferCur := 0, gen := some gen, mode := .running, reported := false
      matrix := none, vector := none, move := none, send := none }) := by
  simp [beginTile, hp]

/-- A running task that an abort stops at its next boundary. -/
def stopTask (r : Option Running) : Option Running := r.map (fun x => { x with stopping := true })

theorem abortTile_of_active {t : Nat} {s : State} (hm : (tileOf s t).mode = .running ∨ (tileOf s t).mode = .aborting)
    (hp : (tileOf s t).prog.isSome = true) :
    abortTile t s = reportDone t (setTile s t { tileOf s t with
      mode := .aborting, matrix := stopTask (tileOf s t).matrix, vector := stopTask (tileOf s t).vector
      move := stopTask (tileOf s t).move, send := stopTask (tileOf s t).send }) := by
  have hnone : (tileOf s t).prog.isNone = false := by
    rw [Option.isNone_eq_false_iff]
    exact hp
  rcases hm with hm | hm <;> simp [abortTile, Tile.isFenced, hm, hnone] <;> rfl

/-! ## The control complex -/

theorem tileReport_of_current {token : W64} {code : Nat} {s : State} (hd : tokDest token = 0x6D) (hk : tokKind token = 2)
    (hg : tokGen token = genOf s) (hv : tokValue token = code) : tileReport token code s = true := by
  simp [tileReport, hd, hk, hg, hv]

section ControlComplex
variable {token : W64} {s t : State} (ha : arrive (.token token) s = some t) (hd : tokDest token = 0x6D)
include ha hd

theorem execNonfiniteSlotToken_raises (hs : tokSlot token = 1) (hk : tokKind token = 0) (hg : tokGen token = genOf t) :
    execNonfiniteSlotToken token s = .next (setStp (fun p => { p with nfSlot := satAdd 32 p.nfSlot (tokValue token) }) t) := by
  simp [execNonfiniteSlotToken, ha, hd, hs, hk, hg]

variable (hk : tokKind token = 2)
include hk

/-- A fence report counts whatever its generation (R114). -/
theorem execFencedToken_aborts (hv : tokValue token = 0x12) :
    execFencedToken token s =
      .next (fenceAborts (setStp (fun p => { p with done := sput false p.done (tokSrc token) true }) t)) := by
  simp [execFencedToken, ha, hd, hk, hv]

variable (hg : tokGen token = genOf t)
include hg

theorem execProgramDoneToken_notes (hv : tokValue token = 0x10) :
    execProgramDoneToken token s =
      .next (setStp (fun p => { p with done := sput false p.done (tokSrc token) true }) t) := by
  simp [execProgramDoneToken, ha, tileReport_of_current hd hk hg hv]

theorem execTaskFaultToken_raises (hv : tokValue token = 0x11) :
    execTaskFaultToken token s = .next (setStp (fun p => { p with nfSlot := satAdd 32 p.nfSlot 1 }) t) := by
  simp [execTaskFaultToken, ha, tileReport_of_current hd hk hg hv]

end ControlComplex

/-! ## The piers -/

section Piers
variable {token : W64} {g : Gather} {s t : State} (ha : arrive (.token token) s = some t) (hlo : 0x60 ≤ tokDest token)
  (hhi : tokDest token ≤ 0x63) (hg : gatherOf t (tokDest token - 0x60) (tokSlot token) = some g)
include ha hlo hhi hg

/-- R232. A present entry answers its acquire at once, an absent one starts its fill, and a waiting or filling one owes
its reply. -/
theorem execGatherAcquire_bound (hk : tokKind token = 0) :
    let p := tokDest token - 0x60
    let slot := tokSlot token
    let pinned := setGather p slot { g with pins := g.pins + 1, owed := g.owed + 1 } t
    execGatherAcquire token s = .next (
      if g.st = .present then gatherReply p g (setGather p slot { g with pins := g.pins + 1 } t)
      else if g.st = .absent then gatherStart p slot pinned
      else if g.st = .waiting then bump pinned (cPln p 0x340) else pinned) := by
  intro p slot pinned
  have hr : ¬(tokDest token < 0x60 ∨ 0x63 < tokDest token ∨ tokKind token ≠ 0) := by omega
  simp only [execGatherAcquire, ha, if_neg hr, hg]
  cases hs : g.st <;> simp [pinned, hs, p, slot]

theorem execGatherRelease_bound (hk : tokKind token = 1) (hv : tokValue token = 0) :
    let p := tokDest token - 0x60
    execGatherRelease token s = .next (gatherRetry p (setGather p (tokSlot token) { g with pins := g.pins - 1 } t)) := by
  have hr : ¬(tokDest token < 0x60 ∨ 0x63 < tokDest token ∨ tokKind token ≠ 1 ∨ tokValue token ≠ 0) := by omega
  simp only [execGatherRelease, ha, if_neg hr, hg]

end Piers

/-- R232. A fill writes the entry's pages, and sends every reply token that the entry owes. -/
theorem execGatherFillComplete_filling {pier : BitVec 2} {slot : BitVec 6} (data : List Byte) {g : Gather} {s : State}
    (hg : gatherOf s pier.toNat slot.toNat = some g) (hs : g.st = .filling) :
    let p := pier.toNat
    let u := writeTo .lintel 8 (pageAddrOf p (g.page / 64) (g.page % 64)) (data.take (0x10000 * gdPages g.desc)) s
    let v := setPier u p { pierOf u p with stamp := (pierOf u p).stamp + 1 }
    execGatherFillComplete pier slot data s = .next ((List.range g.owed).foldl (fun s _ => gatherReply p g s)
      (setGather p slot.toNat { g with
        st := .present, stamp := (pierOf u p).stamp + 1, evicted := false, owed := 0 } v)) := by
  simp [execGatherFillComplete, hg, hs]

/-! ## The obligations -/

/-- Settles O32: an ADD token or a credit is applied with saturation at the width of its slot or pool, and a SET token
replaces the slot. -/
theorem tokenArithmetic : Obligations.TokenArithmetic := by
  unfold Obligations.TokenArithmetic
  refine ⟨?add, ?set, ?credit⟩
  case add =>
    intro token a s n t ti sum ha hn hm hg hk
    have hslot := tileMessage_slot a.know hm hg (by omega) (by omega)
    rw [hk] at hslot
    exact congrArg Host.Outcome.next ((tileArrival_of_arrived ha hn).trans (hslot.trans (applySlot_add ..)))
  case set =>
    intro token a s n t ti ha hn hm hg hk
    have hslot := tileMessage_slot a.know hm hg (by omega) (by omega)
    rw [hk] at hslot
    exact congrArg Host.Outcome.next ((tileArrival_of_arrived ha hn).trans (hslot.trans (applySlot_set ..)))
  case credit =>
    intro src credit a s n pool t ti sum ha hn hm hg
    exact congrArg Host.Outcome.next ((tileArrival_of_arrived ha hn).trans (tileMessage_credit a.know hm src hg))

/-- Settles O36: each command takes the message off the network and applies it at the tile, the control complex or the
pier it names, where the cases above say what it does. -/
theorem tokenEvents : Obligations.TokenEvents := by
  unfold Obligations.TokenEvents
  refine ⟨?begin, ?abort, ?fence, ?dropped, ?discarded, ?nonfinite, ?reports, ?acquire, ?release, ?fill⟩
  case begin =>
    intro token p a s n t ti ha hn hm hk hv hp
    have hbegin : tileMessage n a.know (.token token) t = beginTile n (tokGen token) t :=
      (tileMessage_control a.know hm hk).trans (controlMessage_begin hv)
    exact congrArg Host.Outcome.next ((tileArrival_of_arrived ha hn).trans (hbegin.trans (beginTile_of_loaded hp)))
  case abort =>
    intro token a s n t ti stop ha hn hk hv hg hm hp
    have hne : ti.mode ≠ .fenced := by rcases hm with h | h <;> simp [h]
    have habort : tileMessage n a.know (.token token) t = abortTile n t :=
      (tileMessage_control a.know hne hk).trans (controlMessage_abort hg hv)
    exact congrArg Host.Outcome.next ((tileArrival_of_arrived ha hn).trans (habort.trans (abortTile_of_active hm hp)))
  case fence =>
    intro token a s n t ha hn hk hv hg hm
    have hfence : tileMessage n a.know (.token token) t = fenceTile n 6 0 t :=
      (tileMessage_control a.know hm hk).trans (controlMessage_fence hg hv)
    exact congrArg Host.Outcome.next ((tileArrival_of_arrived ha hn).trans hfence)
  case dropped =>
    intro token a s n t ha hn hf dropped
    have hdrop : Host.Outcome.next (tileArrival (.token token) s) = dropped :=
      congrArg Host.Outcome.next ((tileArrival_of_arrived ha hn).trans (tileMessage_of_fenced a.know _ hf))
    exact ⟨hdrop, hdrop, hdrop, hdrop⟩
  case discarded =>
    intro token a s n t control ha hn hm hb hd discarded
    have hdisc : Host.Outcome.next (tileArrival (.token token) s) = discarded :=
      congrArg Host.Outcome.next ((tileArrival_of_arrived ha hn).trans (tileMessage_discarded a.know hm hb hd))
    exact ⟨hdisc, hdisc, hdisc⟩
  case nonfinite =>
    intro token s t ha hd hs hk hg
    exact execNonfiniteSlotToken_raises ha hd hs hk hg
  case reports =>
    intro token s t ha hd hk hg
    exact ⟨execProgramDoneToken_notes ha hd hk hg, execTaskFaultToken_raises ha hd hk hg, execFencedToken_aborts ha hd hk⟩
  case acquire =>
    intro token g s t p slot ha hlo hhi hk hg
    exact execGatherAcquire_bound ha hlo hhi hg hk
  case release =>
    intro token g s t p ha hlo hhi hk hv hg
    exact execGatherRelease_bound ha hlo hhi hg hk hv
  case fill =>
    intro pier slot data g s p hg hs ho
    have hfill := execGatherFillComplete_filling data hg hs
    rw [ho] at hfill
    exact hfill

end Sys2Proof.Machine
end

