-- ==== Sys2Proof/Proofs/TileTasks.lean ====
section
/-!
SUPPORT. Tasks of a tile (chapter 4): the branches of the sequencer, how a task completes or stops, and what a fence
leaves of its tile.
-/
namespace Sys2Proof.Machine

/-! ## The sequencer -/

section Sequencer
variable {t : Nat} {s : State} (hm : (tileOf (settleCursors t s) t).mode = .running)
  (hp : (tileOf (settleCursors t s) t).prog.isSome = true)
include hm hp

/-- R105. A running tile with a program tries its main task, then its deferred one, and otherwise stalls or reports. -/
theorem sequencer_of_running :
    let u := settleCursors t s
    let ti := tileOf u t
    sequencer t s =
      if startable u t ti.mainCur then startTask t ti.mainCur true u
      else if deferEn u t && startable u t ti.deferCur then startTask t ti.deferCur false (bump u (cTil t 0x148))
      else if ti.allIdle && !cursorsDone u t then bump u (cTil t 0x150)
      else reportDone t u := by
  have hready : ¬((tileOf (settleCursors t s) t).mode ≠ .running ∨ (tileOf (settleCursors t s) t).prog.isNone = true) := by
    rintro (hne | hnone)
    · exact hne hm
    · rw [Option.isNone_iff_eq_none.mp hnone] at hp
      exact Bool.noConfusion hp
  exact if_neg hready

theorem sequencer_main (hs : startable (settleCursors t s) t (tileOf (settleCursors t s) t).mainCur = true) :
    sequencer t s = startTask t (tileOf (settleCursors t s) t).mainCur true (settleCursors t s) := by
  simp [sequencer_of_running hm hp, hs]

variable (hmain : startable (settleCursors t s) t (tileOf (settleCursors t s) t).mainCur = false)
include hmain

theorem sequencer_deferred (hd : deferEn (settleCursors t s) t = true)
    (hs : startable (settleCursors t s) t (tileOf (settleCursors t s) t).deferCur = true) :
    sequencer t s = startTask t (tileOf (settleCursors t s) t).deferCur false (bump (settleCursors t s) (cTil t 0x148)) := by
  simp [sequencer_of_running hm hp, hmain, hd, hs]

theorem sequencer_stalls (hd : deferEn (settleCursors t s) t = false)
    (hi : (tileOf (settleCursors t s) t).allIdle = true) (hc : cursorsDone (settleCursors t s) t = false) :
    sequencer t s = bump (settleCursors t s) (cTil t 0x150) := by
  simp [sequencer_of_running hm hp, hmain, hd, hi, hc]

end Sequencer

/-! ## Completion and stopping -/

/-- R106, R114. A task that no abort stops finishes with the outcome of its run, unless that run fenced the tile. -/
theorem completeTask_of_run {t : Nat} {e : Engine} {r : Running} {s u : State} {fault : Bool}
    (run : Nat → List Nat → State → Bool × State) (addr : Nat → Nat) (hr : (tileOf s t).engine e = some r)
    (hs : r.stopping = false) (hrun : run r.task r.know s = (fault, u)) :
    completeTask t e run addr s =
      if (tileOf u t).mode = .fenced then u else finishTask t r.task (some e) fault (addr r.task) r.know u := by
  simp [completeTask, hr, hs, hrun, Tile.isFenced]

/-- What an engine has carried out when it stops after `done` output blocks, rows or bytes (R113). -/
def stoppedRun (t : Nat) (engine : Engine) (r : Running) (done : Nat) (s : State) : Bool × State :=
  match engine with
  | .matrix => matrixRun t r.task done false r.know s
  | .vector => passRun t r.task done false r.know s
  | .move => moveRun t r.task (done / 64 * 64) s
  | .send => sendRun t r.task (done / 64 * 64) s

theorem execTaskStop_of_stopping {tile : BitVec 7} {engine : Engine} {r : Running} (done : W32) {s : State}
    (hr : (tileOf s tile.toNat).engine engine = some r) (hs : r.stopping = true) :
    let u := (stoppedRun tile.toNat engine r done.toNat s).2
    execTaskStop tile engine done s =
      .next (reportDone tile.toNat (setTile u tile.toNat ((tileOf u tile.toNat).setEngine engine none))) := by
  simp only [execTaskStop, hr, hs]
  cases engine <;> rfl

/-! ## Faults and limits -/

theorem execTileFaultDetect_fences {tile : BitVec 7} {cause : TileCause} (task : BitVec 13) (s : State)
    (ht : tile.toNat < 96) (hlo : 1 ≤ cause.code.toNat) (hhi : cause.code.toNat ≤ 5) :
    execTileFaultDetect tile cause task s = .next (fenceTile tile.toNat cause.code.toNat task.toNat
      (if cause.code.toNat = 4 then dropMessage cause.msg s else s)) :=
  congrArg Host.Outcome.next (if_pos ⟨ht, hlo, hhi⟩)

theorem execTaskLimitExpiry_fences {tile : BitVec 7} {engine : Engine} {r : Running} {s : State}
    (hr : (tileOf s tile.toNat).engine engine = some r) (hs : r.stopping = false) :
    let limit := field (getReg s (tilBase + 0x4000 * tile.toNat)) 31 16
    limit ≠ 0 → 4 * 65536 * limit ≤ 7 * (nsOf s - r.since) →
    execTaskLimitExpiry tile engine s = .next (fenceTile tile.toNat 3 r.task s) := by
  intro limit h0 hle
  simp [execTaskLimitExpiry, hr, hs, limit, h0, Nat.not_lt.mpr hle]

/-! ## What a fence leaves of its tile -/

/-- A message enters the course network and touches no tile. -/
@[simp] theorem tileOf_tileControl (t slot v : Nat) (s : State) (n : Nat) :
    tileOf (tileControl t slot v s) n = tileOf s n := rfl

/-- The sticky log touches no tile. -/
@[simp] theorem tileOf_slog (blk inst off addr task detail : Nat) (s : State) (n : Nat) :
    tileOf (slog blk inst off addr task detail s) n = tileOf s n := by
  unfold slog slogAdd slogPut
  split
  · rfl
  · split <;> rfl

/-- R114. The engines of the tile stop; it holds the cause, and the task where the cause has one. -/
theorem tileOf_fenceTile {t : Nat} {s : State} (cause task : Nat) (hm : (tileOf s t).mode ≠ .fenced) :
    tileOf (fenceTile t cause task s) t = { tileOf s t with
      mode := .fenced, cause := cause, faultTask := if cause = 4 ∨ cause = 6 then 0 else task
      matrix := none, vector := none, move := none, send := none } := by
  simp [fenceTile, Tile.isFenced, hm]

/-! ## The obligation -/

/-- Settles O37: each command is the branch of the sequencer, the completion, the stop or the fence stated above. -/
theorem taskEvents : Obligations.TaskEvents := by
  unfold Obligations.TaskEvents
  refine ⟨?start, ?matrix, ?vector, ?move, ?send, ?stop, ?fault, ?limit, ?fence⟩
  case start =>
    intro tile upsets s t u ti ht hm hp
    have hexec : exec (.taskStart ⟨tile, upsets⟩) s = .next (sequencer t (tileUpsets t upsets s)) :=
      congrArg Host.Outcome.next (if_pos ht)
    rw [hexec]
    exact ⟨fun hs => congrArg Host.Outcome.next (sequencer_main hm hp hs),
      fun hmain hd hs => congrArg Host.Outcome.next (sequencer_deferred hm hp hmain hd hs),
      fun hmain hd hi hc => congrArg Host.Outcome.next (sequencer_stalls hm hp hmain hd hi hc)⟩
  case matrix =>
    intro tile r fault s u t hr hs hrun
    exact congrArg Host.Outcome.next (completeTask_of_run (fun i know s => matrixRun t i noLimit true know s) _ hr hs hrun)
  case vector =>
    intro tile r fault s u t hr hs hrun
    exact congrArg Host.Outcome.next (completeTask_of_run (fun i know s => passRun t i noLimit true know s) _ hr hs hrun)
  case move =>
    intro tile r fault s u t hr hs hrun
    exact congrArg Host.Outcome.next (completeTask_of_run (fun i _ s => moveRun t i noLimit s)
      (fun i => field (taskOf s t i) 511 464) hr hs hrun)
  case send =>
    intro tile r fault s u t hr hs hrun
    exact congrArg Host.Outcome.next (completeTask_of_run (fun i _ s => sendRun t i noLimit s)
      (fun i => (sendBody (taskOf s t i)).src) hr hs hrun)
  case stop =>
    intro tile engine done r fault s u t hr hs hrun
    have hu : (stoppedRun t engine r done.toNat s).2 = u := by cases engine <;> exact congrArg Prod.snd hrun
    exact hu ▸ execTaskStop_of_stopping done hr hs
  case fault =>
    intro tile cause task msg s t ht hlo hhi
    refine (execTileFaultDetect_fences (cause := ⟨cause, msg⟩) task s ht hlo hhi).trans ?_
    cases msg with
    | none => simp only [dropMessage, ite_self]; rfl
    | some i => rfl
  case limit =>
    intro tile engine r s t limit hr hs h0 hle
    exact execTaskLimitExpiry_fences hr hs h0 hle
  case fence =>
    intro t cause task s ti held hm
    exact tileOf_fenceTile cause task hm

end Sys2Proof.Machine
end

