-- ==== Sys2Proof/Proofs/StepEvents.lean ====
section
/-!
SUPPORT. What advances a step (chapter 10): the check word, the decision, the deadline, the update, the commit and the
delta that may follow it, each through the branch of its command that is taken.
-/
namespace Sys2Proof.Machine

/-! ## The check word (R282, R283, R287) -/

/-- The check word that a module forms in a state whose reductions are finished, or in an aborted step. -/
def checkWord (aborted : Bool) (s : State) : CheckWord :=
  { s := decide (s.stp.nfSlot ≠ 0), f := checkF s, hard := (allShards s).any (fun p => shardHard s p.2.2), a := aborted
    first := if decide (s.stp.nfSlot ≠ 0) || aborted then s.stp.own_ else 0xFFFF
    norm := if aborted then Exact.zero else s.cbl.norm }

/-- The module goes to CHECKING with its word, and joins the check collective if it may. -/
def giveCheckWord (w : CheckWord) (s : State) : State :=
  let u := if w.s then bump s (cStep 4) else s
  tryCheck (setStp (fun p => { p with own := some w, localS := w.s }) (writeRecord { u.stp.rc with state := 2 } u))

theorem checkWord_running (s : State) :
    checkWord false s =
      { s := decide (s.stp.nfSlot ≠ 0), f := checkF s, hard := (allShards s).any (fun p => shardHard s p.2.2), a := false
        first := if decide (s.stp.nfSlot ≠ 0) then s.stp.own_ else 0xFFFF, norm := s.cbl.norm } := by
  simp only [checkWord, Bool.or_false, Bool.false_eq_true, if_false]

/-- R287. The word of an aborted step names the module itself and carries no norm. -/
theorem checkWord_aborted (s : State) :
    checkWord true s =
      { s := decide (s.stp.nfSlot ≠ 0), f := checkF s, hard := (allShards s).any (fun p => shardHard s p.2.2), a := true
        first := s.stp.own_, norm := Exact.zero } := by
  simp only [checkWord, Bool.or_true, if_true]

section Ready
variable {s : State} (hst : s.stp.rc.state = 1 ∨ s.stp.rc.state = 5) (ht : tilesDone s = true)
include hst ht

theorem execCheckWordReady_forms (hr : s.stp.aborted = true ∨ reductionsDone s = true) :
    let t := if s.stp.aborted then s else reduceAll s
    execCheckWordReady s = .next (giveCheckWord (checkWord s.stp.aborted t) t) := by
  have hred : (!s.stp.aborted && !reductionsDone s) = false := by rcases hr with h | h <;> simp [h]
  have hready : ¬(decide (s.stp.rc.state ≠ 1 ∧ s.stp.rc.state ≠ 5) || !tilesDone s ||
      !s.stp.aborted && !reductionsDone s) = true := by
    simp only [ht, hred, Bool.not_true, Bool.or_false, decide_eq_true_eq]
    omega
  exact congrArg Host.Outcome.next (if_neg hready)

theorem execCheckWordReady_running (ha : s.stp.aborted = false) (hr : reductionsDone s = true) :
    execCheckWordReady s = .next (giveCheckWord (checkWord false (reduceAll s)) (reduceAll s)) := by
  simpa [ha] using execCheckWordReady_forms hst ht (.inr hr)

/-- R287. An aborted step waits for no reduction. -/
theorem execCheckWordReady_aborted (ha : s.stp.aborted = true) :
    execCheckWordReady s = .next (giveCheckWord (checkWord true s) s) := by
  simpa [ha] using execCheckWordReady_forms hst ht (.inl ha)

end Ready

/-! ## The decision (R284, R285) -/

/-- What follows from the combined check word `c`: an abort, a skip for a non-finite value, or the outcome of Table 9-4. -/
def takeCheckWord (c : CheckWord) (absent : List Nat) (s : State) : State :=
  let n := c.norm.readSqrt
  let l := f32 (getReg s (cblBase + 4))
  let out := checkOutcome (field (getReg s cblBase) 31 30) c.f c.hard n l
  let t : State := { s with
    stp := { s.stp with comb := some c, chkRun := false, absent := absent }
    cbl := { s.cbl with normWord := to32 n, chkF := c.f, chkOver := !l.isZero && l.lt n } }
  if c.a then endStep 6 t
  else if c.s then endStep 5 t
  else
    let u : State := { t with cbl := { t.cbl with chkOut := out } }
    if out = 3 then endStep 3 u else decideUpdate out (if out = 2 then div32 l n else .one) u

theorem execCheckDecision_running {w : CheckWord} {s : State} (hw : s.stp.own = some w) (h2 : s.stp.rc.state = 2)
    (hrun : s.stp.chkRun = true) (f1 f2 hard a nf : Bool) (lane : CheckLane) (norm : BitVec 640) :
    execCheckDecision f1 f2 hard a lane nf norm s = .next (takeCheckWord {
      s := w.s || f1, f := w.f || f2, hard := w.hard || hard, a := w.a || a, first := min w.first lane.first.toNat
      norm := w.norm.add (ofExactWord { nf := nf, val := norm }) } (lane.absent.map BitVec.toNat) s) := by
  have hwaits : ¬(decide (s.stp.rc.state ≠ 2) || !s.stp.chkRun) = true := by simp [h2, hrun]
  rw [execCheckDecision, hw]
  exact congrArg Host.Outcome.next (if_neg hwaits)

/-! ## The deadline (R286) -/

theorem execDeadlineExpiry_reached {s : State} (h1 : s.stp.rc.state = 1) (h0 : 0 < s.stp.deadline)
    (hd : s.stp.deadline ≤ nsOf s) : execDeadlineExpiry s = .next (abortStep false (bump s (cStep 5))) := by
  simp [execDeadlineExpiry, h1, h0, hd]

/-! ## The update (R258, R259, R288) -/

section Start
variable {s : State} (h3 : s.stp.rc.state = 3) (hrun : s.stp.updRun = false) (hdone : s.stp.updDone = false)
include h3 hrun hdone

theorem execUpdateStart_free (hw : updateWaits s = (false, false, false)) :
    execUpdateStart s =
      .next ((loadedGroups s).foldl (fun u g => startSums g u) (setStp (fun p => { p with updRun := true }) s)) := by
  simp [execUpdateStart, h3, hrun, hdone, hw]

/-- R167. An update that waits for the staging of a delta alone counts this wait the first time. -/
theorem execUpdateStart_waitsForDelta (hw : updateWaits s = (true, false, false)) (hseen : s.stp.waitedDelta = false) :
    execUpdateStart s = .next (setStp (fun p => { p with waitedDelta := true }) (bump s (cStep 9))) := by
  simp [execUpdateStart, h3, hrun, hdone, hw, hseen]

end Start

theorem execUpdateComplete_finished {s : State} (h3 : s.stp.rc.state = 3) (hrun : s.stp.updRun = true)
    (hf : updateFinished s = true) :
    let t := setStp (fun p => { p with updRun := false, updDone := true }) (printSparse s)
    execUpdateComplete s = .next (tryCommit (writeRecord { t.stp.rc with state := 4 } t)) := by
  simp [execUpdateComplete, h3, hrun, hf]

/-! ## Joining the commit (R288, R363) -/

theorem tryCommit_eq (s : State) :
    tryCommit s =
      if s.stp.rc.state = 4 ∧ s.stp.comRun = false ∧ s.stp.tCommit ≤ nsOf s then joinCommit s else s := by
  simp [tryCommit, and_assoc]

theorem joinCommit_absent {s : State} (ha : s.stp.absent.contains s.stp.own_ = true) : joinCommit s = endStep 7 s :=
  if_pos ha

theorem joinCommit_present {s : State} (ha : s.stp.absent.contains s.stp.own_ = false) :
    let t := fixItems (setStp (fun p => { p with comRun := true }) s)
    joinCommit s = startSmall 1 (commitBytes t) (if t.stp.own_ = 0 then excludeAbsent t else t) :=
  if_neg (Bool.eq_false_iff.mp ha)

/-! ## The commit (R288, R289, R416) -/

/-- What the commit does with the items of the members present: the fingerprints, the tensors' records and the groups'
ratios, then the staged record and the re-base. -/
def commitItems (items : CommitItems) (s : State) : State :=
  let a := (allShards s).foldl (fun s p => comparePrint items p s) s
  let b := (commitTensors a items).foldl (fun s i => commitTensor items i s) a
  let c := (loadedGroups b).foldl (fun s g => watchGroup items g s) b
  let d := writeRecord { c.stp.rc with staged := true } c
  let todo := rebaseShards items d
  let e := todo.foldl (fun s p => rebaseShard p.1 p.2 s) d
  finishCommit (adoptStaged todo (setStp (fun p => { p with rebased := !todo.isEmpty }) e))

theorem presentItems_plumb (s : State) (items : CommitItems) : (presentItems s items).plumb = items.plumb := rfl

/-- A commit whose items show no difference of the plumb digests. -/
theorem execCommitCollectiveComplete_agreed {sent : CommitItems} {s : State} (h4 : s.stp.rc.state = 4)
    (hrun : s.stp.comRun = true) (hp : sent.plumb = false) :
    execCommitCollectiveComplete sent s = .next (commitItems (presentItems s sent) s) := by
  have hwaits : ¬(decide (s.stp.rc.state ≠ 4) || !s.stp.comRun) = true := by simp [h4, hrun]
  have hplumb : ¬(presentItems s sent).plumb = true := by rw [presentItems_plumb, hp]; exact Bool.false_ne_true
  rw [execCommitCollectiveComplete, if_neg hwaits]
  simp only [if_neg hplumb]
  rfl

theorem execDeltaFormationComplete_due {s : State} (hd : s.stp.deltaDue = true) :
    execDeltaFormationComplete s = .next (setStp (fun p => { p with deltaDue := false })
      { s with npx := { s.npx with encBooks := booksFrom s s.stp.rc.outer } }) := by
  simp [execDeltaFormationComplete, hd]

/-! ## The obligation -/

/-- Settles O38: in the state of the step that each event needs, its command takes the branch stated above. -/
theorem stepEvents : Obligations.StepEvents := by
  unfold Obligations.StepEvents
  refine ⟨?word, ?abortedWord, ?checkInstant, ?decision, ?deadline, ?start, ?wait, ?complete, ?commitInstant, ?absent,
    ?present, ?commit, ?delta⟩
  case word =>
    intro s hst ht ha hr
    have hword := execCheckWordReady_running hst ht ha hr
    rw [checkWord_running] at hword
    exact hword
  case abortedWord =>
    intro s hst ht ha
    have hword := execCheckWordReady_aborted hst ht ha
    rw [checkWord_aborted] at hword
    exact hword
  case checkInstant => exact fun s => rfl
  case decision =>
    intro f1 f2 hard a first nf norm absent w s hw h2 hrun
    exact execCheckDecision_running hw h2 hrun f1 f2 hard a nf ⟨first, absent⟩ norm
  case deadline => exact fun s h1 h0 hd => execDeadlineExpiry_reached h1 h0 hd
  case start => exact fun s h3 hrun hdone hw => execUpdateStart_free h3 hrun hdone hw
  case wait => exact fun s h3 hrun hdone hw hseen => execUpdateStart_waitsForDelta h3 hrun hdone hw hseen
  case complete => exact fun s h3 hrun hf => execUpdateComplete_finished h3 hrun hf
  case commitInstant => exact fun s => congrArg Host.Outcome.next (tryCommit_eq s)
  case absent => exact fun s ha => joinCommit_absent ha
  case present => exact fun s ha => joinCommit_present ha
  case commit => exact fun sent s h4 hrun hp => execCommitCollectiveComplete_agreed h4 hrun hp
  case delta => exact fun s hd => execDeltaFormationComplete_due hd

end Sys2Proof.Machine
end

