-- ==== Sys2Proof/Proofs/TreimEvents.lean ====
section
/-!
SUPPORT. What a Treim channel, the scrub and a pier's pool do in time (R185 to R189, R204, R208, R211, R225): the branch
that each event takes when its guards pass, and what a read of a line finds.
-/
namespace Sys2Proof.Machine

/-! ## A channel that takes part in traffic and is not held: measurement and the start of a retrain -/

section Working
variable {channel : BitVec 10} {s : State} (hr : (chanOf s channel.toNat).retraining = false)
  (hi : chanIdle s channel.toNat = false)
include hr hi

/-- R188. While its spare is free, the channel sweeps its next lane once an interval. -/
theorem execCalibrationInterval_sweeps (w h : Byte) :
    let g := channel.toNat
    let c := chanOf s g
    c.spareFor = 31 → c.calIvl ≠ calInterval s + 1 →
    execCalibrationInterval channel w h s = .next (eyeFound g c.calLane w.toNat h.toNat
      (setChan s g { c with calLane := (c.calLane + 1) % 19, calIvl := calInterval s + 1 })) := by
  intro g c hs hc
  exact congrArg Host.Outcome.next (if_neg (by simp [g, c, hs, hr, hi, hc]))

/-- R189. In its quiet period, a channel whose spare is in use measures one of the 32 points of its lane; that the eye is
taken at the last is the model's choice (log 57). -/
theorem execQuietSlot_measures (w h : Byte) :
    let g := channel.toNat
    let c := chanOf s g
    let lane := if c.calLane ≥ 18 ∨ c.calLane = c.erased then nextLane c.erased 17 else c.calLane
    let t := charge 14 (.channel g) 64 s
    c.spareFor ≠ 31 → (nsOf s / periodNs s + g) % quietEvery s = 0 →
    execQuietSlot channel w h s = .next (
      if c.calPoint < 31 then setChan t g { c with calLane := lane, calPoint := c.calPoint + 1 }
      else eyeFound g lane w.toNat h.toNat (setChan t g { c with calLane := nextLane c.erased lane, calPoint := 0 })) := by
  intro g c lane t hs hq
  have hmeasured : ¬(c.spareFor = 31 ∨ c.retraining ∨ chanIdle s g) := by simp [g, c, hs, hr, hi]
  exact congrArg Host.Outcome.next ((if_neg hmeasured).trans (if_neg fun h => h hq))

/-- R190. At a period boundary a due retrain starts, or waits for another of its brace group and counts that wait once. -/
theorem execRetrainStart_due {d : Nat} :
    let g := channel.toNat
    let c := chanOf s g
    c.due = some d → d ≤ nsOf s → nsOf s % periodNs s = 0 →
    execRetrainStart channel s = .next (
      if (List.range 16).any (fun i => (chanOf s (g / 16 * 16 + i)).retraining) then
        if c.waited then s else bump (setChan s g { c with waited := true }) (cTrm (g / 128) 0x130)
      else bump (setChan s g { c with retraining := true, due := none, weak := false, waited := false })
        (cTrm (g / 128) 0x128)) := by
  intro g c hd hle hb
  have hstarts : ¬(nsOf s % periodNs s ≠ 0 ∨ nsOf s < d ∨ c.retraining ∨ chanIdle s g) := by
    simp [g, c, hb, hle, hr, hi]
  simp only [execRetrainStart, g, c, hd, if_neg hstarts]

end Working

/-! ## The end of a retrain (R191, R192) -/

section Trained
variable {channel : BitVec 10} {lanes : List LaneEye} {tsv : List (BitVec 5)} {s t : State}
  (hr : (chanOf s channel.toNat).retraining = true)
include hr

theorem execRetrainComplete_lost (ht : trainChannel channel.toNat lanes tsv s = (true, t)) :
    let g := channel.toNat
    execRetrainComplete channel lanes tsv s =
      .next (loseChannel g (setChan t g { chanOf t g with retraining := false, refDefer := 0 })) := by
  simp [execRetrainComplete, hr, ht]

/-- The channel is released: the host is told of a lane newly erased, the deferred refresh is charged, and what the pool
has absorbed for the channel drains. -/
theorem execRetrainComplete_released (ht : trainChannel channel.toNat lanes tsv s = (false, t)) :
    let g := channel.toNat
    let c := chanOf s g
    let u := setChan t g { chanOf t g with retraining := false, refDefer := 0 }
    let v := charge 15 (.channel g) (2 * c.refDefer)
      (if c.erased = 31 ∧ (chanOf t g).erased ≠ 31 then postEvent 0x0002 g (5 * 4096 + g / 128) u else u)
    execRetrainComplete channel lanes tsv s = .next (
      poolDrain (g / 128 / 2) (fun e =>
        e.absorbed && (placeOf v (e.granule * 512)).any (fun q => q.1 * 128 + q.2.1 = g)) v) := by
  simp [execRetrainComplete, hr, ht]

end Trained

/-! ## The rebuild of a lost channel (R204) -/

/-- The state after the braced granules of channel `g` have been rebuilt into the reserve of its group. -/
def rebuiltChannel (g : Nat) (s : State) : State :=
  let k := g / 128
  let c := g % 128
  let mates := stripeMates s k c
  let n := bracedBelow s k c (2 ^ 20)
  let t := (List.zip (List.range mates.length) mates).foldl (fun t m =>
    charge 14 (.channel (k * 128 + m.2)) (8 * (n + (n + mates.length - 1 - m.1) / mates.length)) t) s
  let u := (brokenLines t k c).foldl (fun u a => poisonLine k a u) t
  setChan (bumpN u (cTrm k 0x110) (8 * n)) g { chanOf u g with rebuilt := true }

theorem execLostChannelRebuild_rebuilds {channel : BitVec 10} {s : State} :
    let g := channel.toNat
    let k := g / 128
    let c := g % 128
    chanLost s k c = true → (stackOf s k).mapx.testBit c = false → (chanOf s g).rebuilt = false →
    (∀ m ∈ stripeMates s k c, chanLost s k m = false) → mateHeld s k c = false →
    (stackOf s k).selfRefresh = false → (stackOf s k).stopped = false →
    execLostChannelRebuild channel s = .next (rebuiltChannel g s) := by
  intro g k c hl hm hb hmates hh hf hs
  have hgroup : (stripeMates s k c).any (chanLost s k) = false := by simpa using hmates
  exact congrArg Host.Outcome.next (if_neg (by simp [g, k, c, hl, hm, hb, hgroup, hh, hf, hs]))

/-! ## Refresh (R208, R192) -/

/-- Once in a period the channel's refresh commands are charged, or deferred and counted while a retrain holds it. -/
theorem execRefreshPeriod_due {channel : BitVec 10} {upsets : List Upset} {s : State} :
    let g := channel.toNat
    let k := g / 128
    let t := upsets.foldl (fun t u => treimUpset k (g % 128) u t) s
    let per := nsOf t / periodNs t + 1
    let c := { chanOf t g with refPer := per }
    let n := refreshCount t k
    (stackOf t k).selfRefresh = false → (chanOf t g).refPer ≠ per →
    execRefreshPeriod ⟨channel, upsets⟩ s = .next (
      if c.retraining then bumpN (setChan t g { c with refDefer := c.refDefer + n }) (cTrm k 0x158) n
      else charge 15 (.channel g) (2 * n) (setChan t g c)) := by
  intro g k t per c n hf hp
  have hdue : ¬((stackOf t k).selfRefresh || (chanOf t g).refPer = per) = true := by simp [hf, hp]
  exact congrArg Host.Outcome.next (if_neg hdue)

/-! ## The scrub (R211) -/

/-- The scrub has moved past the line at `a`, and counted it. -/
def scrubbedPast (k a : Nat) (s : State) : State :=
  let st := stackOf s k
  bump (setStack s k { (if a < st.scrub * 64 then { st with ceRows := [] } else st) with scrub := a / 64 + 1 })
    (cTrm k 0x170)

/-- The scrub reads the next line of its stack in the calibration class; a channel that is not lost shows its bit errors.
The ascending order of the lines is the model's choice (log 57). -/
theorem execPatrolScrub_reads {stack : BitVec 3} {a c q r x y z : Nat} {s : State} (error : List Byte) :
    let k := stack.toNat
    let st := stackOf s k
    let t := scrubbedPast k a s
    field (getReg s (trmBase + 0x4000)) 7 0 ≠ 0 → st.applied = true → st.selfRefresh = false → st.stopped = false →
    scrubFind s k 4096 (st.scrub * 64) = some a → placeOf s a = some (x, c, q) → servedBy s a = some (y, r, z) →
    execPatrolScrub stack error s = .next (fetchLine 14 false a k c q
      (if chanLost t k r then t else addUpset a (leAt (slice error 0 72) 0 72) t)).2 := by
  intro k st t h0 ha hf hs hfind hp hr
  have hscrubs : ¬(field (getReg s (trmBase + 0x4000)) 7 0 = 0 ∨ !st.applied ∨ st.selfRefresh ∨ st.stopped) := by
    simp [h0, ha, hf, hs]
  rw [execPatrolScrub, if_neg hscrubs]
  simp only [st, k] at hfind
  simp only [hfind, hp, hr]
  rfl

/-! ## What a read of a line finds (R182, R192, R199, R204, R205) -/

section Fetch
variable {a k c q : Nat} {s : State} (cls : Nat) (corbel : Bool) (hk : (stackOf s k).contentLost = false)
include hk

theorem fetchLine_of_present (hl : chanLost s k c = false) (hr : (chanOf s (k * 128 + c)).retraining = false) :
    fetchLine cls corbel a k c q s = readLine cls corbel k c q a s := by
  simp [fetchLine, hk, hl, hr]

section Lost
variable (hl : chanLost s k c = true)
include hl

theorem fetchLine_of_lost_unbraced (hb : regionBraced s (a / 2 ^ 30) = false) :
    fetchLine cls corbel a k c q s = readPoison k a s := by
  simp [-Nat.reducePow, fetchLine, hk, hl, hb]

variable (hb : regionBraced s (a / 2 ^ 30) = true)
include hb

theorem fetchLine_of_lost_braced (hc : chanRebuilt s k c = false) (hp : sget false s.poison (a / 64) = false)
    (hm : ∀ m ∈ stripeMates s k c, chanLost s k m = false) :
    fetchLine cls corbel a k c q s = rebuildLine cls corbel k c a s := by
  have hgroup : (stripeMates s k c).any (chanLost s k) = false := by simpa using hm
  simp [-Nat.reducePow, fetchLine, hk, hl, hb, hc, hp, hgroup]

theorem fetchLine_of_rebuilt (hc : chanRebuilt s k c = true) (hr : chanLost s k (reserveChan s k c q) = false) :
    fetchLine cls corbel a k c q s = readLine cls corbel k (reserveChan s k c q) (reserveRow s k c q) a s := by
  simp [-Nat.reducePow, fetchLine, hk, hl, hb, hc, hr]

end Lost

end Fetch

/-! ## The obligation -/

/-- Settles O45: under the guards of each event its command takes the branch stated above, and a read finds its line by
what is left of the channel. -/
theorem treimEvents : Obligations.TreimEvents := by
  unfold Obligations.TreimEvents
  refine ⟨?calibration, ?quiet, ?retrainStarts, ?retrainWaits, ?retrained, ?rebuild, ?refresh, ?scrub, ?pool, ?fetch⟩
  case calibration =>
    intro channel w h s g c hs hr hi hc
    exact execCalibrationInterval_sweeps hr hi w h hs hc
  case quiet =>
    intro channel w h s g c lane t hs hr hi hq
    have hquiet := execQuietSlot_measures hr hi w h hs hq
    exact ⟨fun hp => hquiet.trans (congrArg Host.Outcome.next (if_pos hp)),
      fun hp => hquiet.trans (congrArg Host.Outcome.next (if_neg (Nat.not_lt.mpr hp)))⟩
  case retrainStarts =>
    intro channel d s g c hd hle hb hr hi hfree
    have hnone : ¬(List.range 16).any (fun i => (chanOf s (g / 16 * 16 + i)).retraining) = true := by simpa using hfree
    exact (execRetrainStart_due hr hi hd hle hb).trans (congrArg Host.Outcome.next (if_neg hnone))
  case retrainWaits =>
    intro channel i d s g c hd hle hb hr hi hlt hbusy hw
    have hsome : (List.range 16).any (fun i => (chanOf s (g / 16 * 16 + i)).retraining) = true :=
      List.any_eq_true.mpr ⟨i, List.mem_range.mpr hlt, hbusy⟩
    exact (execRetrainStart_due hr hi hd hle hb).trans
      (congrArg Host.Outcome.next ((if_pos hsome).trans (if_neg (Bool.eq_false_iff.mp hw))))
  case retrained =>
    intro channel lanes tsv lost s t g c hr ht u
    constructor
    · rintro rfl
      exact execRetrainComplete_lost hr ht
    · rintro rfl
      exact execRetrainComplete_released hr ht
  case rebuild =>
    intro channel s g k c mates n hl hm hb hmates hh hf hs
    exact execLostChannelRebuild_rebuilds hl hm hb hmates hh hf hs
  case refresh =>
    intro channel upsets s g k t per c n hf hp
    have hdue := execRefreshPeriod_due hf hp
    exact ⟨fun hr => hdue.trans (congrArg Host.Outcome.next (if_pos hr)),
      fun hr => hdue.trans (congrArg Host.Outcome.next (if_neg (Bool.eq_false_iff.mp hr)))⟩
  case scrub =>
    intro stack error a c q r x y z s k st t u h0 ha hf hs hfind hp hr
    have hread := execPatrolScrub_reads error h0 ha hf hs hfind hp hr
    have hfetch {v w : State} (h : v = w) : (fetchLine 14 false a k c q v).2 = (fetchLine 14 false a k c q w).2 := by rw [h]
    exact ⟨fun hl => hread.trans (congrArg Host.Outcome.next (hfetch (if_neg (Bool.eq_false_iff.mp hl)))),
      fun hl => hread.trans (congrArg Host.Outcome.next (hfetch (if_pos hl)))⟩
  case pool => exact fun pier upsets s => rfl
  case fetch =>
    intro a k c q s hk
    exact ⟨fetchLine_of_present 14 false hk, fetchLine_of_lost_unbraced 14 false hk,
      fun hl hb => fetchLine_of_lost_braced 14 false hk hl hb, fun hl hb => fetchLine_of_rebuilt 14 false hk hl hb⟩

end Sys2Proof.Machine
end

