-- ==== Sys2Proof/Proofs/CorbelCommands.lean ====
section
/-!
SUPPORT. The commands of the corbel units (Table 15-8): what each one's own checks and effect answer when the checks
pass, and from that the command as a whole.
-/
namespace Sys2Proof.Machine

/-! ## Shards and groups (R254, R255, R263) -/

theorem kCorbelLoad_of_valid {h : CmdHdr} {b : State} (ha : stepActive b = false) (hi : leAt h.pb 1 1 ≤ 1)
    (hp : ¬(leAt h.pb 1 1 = 1 ∧ resumePending b = true))
    (hf : corbelLoadFail b (leAt h.pb 0 1) (loadGroups h.pb) (loadShards h.pb) = none) :
    kCorbelLoad h b = kOk 0 ((loadShards h.pb).foldl (fun s p => shardInstall (leAt h.pb 1 1) p.2 s)
      (corbelClear (leAt h.pb 0 1) (loadGroups h.pb) b)) := by
  simp only [kCorbelLoad]
  rw [if_neg (Bool.eq_false_iff.mp ha), if_neg (Nat.not_lt.mpr hi), if_neg hp, hf]

theorem kCorbelGroupSet_of_loaded {h : CmdHdr} {b : State} (h0 : leAt h.pb 0 1 = 0) (h1 : leAt h.pb 1 1 = 0)
    (h4 : leAt h.pb 4 4 = 0)
    (hg : ∀ g ∈ loadGroups h.pb, g.1 < 1024 ∧ (groupOf b (g.1 % 1024)).isSome = true) :
    kCorbelGroupSet h b = kOk 0
      ((loadGroups h.pb).foldl (fun s g => modGroup g.1 (fun r => { r with next := some g.2.2 }) s) b) := by
  have hnone : (loadGroups h.pb).find? (fun g => (groupOf b (g.1 % 1024)).isNone || decide (1024 ≤ g.1)) = none := by
    rw [List.find?_eq_none]
    intro g hmem
    obtain ⟨hlt, hsome⟩ := hg g hmem
    simp only [Option.isNone_eq_false_iff.mpr hsome, Nat.not_le.mpr hlt, decide_false, Bool.or_self, Bool.false_eq_true,
      not_false_eq_true]
  simp only [kCorbelGroupSet]
  rw [if_neg (not_not_intro h0), if_neg (not_not_intro h1), if_neg (not_not_intro h4), hnone]

theorem kCorbelUnfreeze_of_loaded {h : CmdHdr} {b : State} :
    let gs := (List.range (leAt h.pb 0 4)).map (fun i => leAt h.pb (64 + 2 * i) 2)
    (∀ g ∈ gs, g < 1024 ∧ (groupOf b g).isSome = true) →
    kCorbelUnfreeze h b = kOk 0 (gs.foldl (fun s g => modGroup g (fun r => { r with unfreeze := true }) s) b) := by
  intro gs hg
  have hnone : (List.zip (List.range gs.length) gs).find?
      (fun g => decide (1024 ≤ g.2) || (groupOf b g.2).isNone) = none := by
    rw [List.find?_eq_none]
    rintro ⟨i, g⟩ hmem
    obtain ⟨hlt, hsome⟩ := hg g (List.of_mem_zip hmem).2
    simp only [Option.isNone_eq_false_iff.mpr hsome, Nat.not_le.mpr hlt, decide_false, Bool.or_self, Bool.false_eq_true,
      not_false_eq_true]
  simp only [kCorbelUnfreeze]
  rw [hnone]

/-! ## Resumption (R267) -/

/-- Between steps, and while an interrupted step waits for it, a resumption that misses nothing is made. -/
theorem kCorbelResume_of_present {h : CmdHdr} {b : State} (hf : b.pwr.fenced = false)
    (hst : b.stp.rc.state = 0 ∨ b.stp.rc.state = 6) (hm : resumeMissing b = none) :
    kCorbelResume h b = resumeAnswer (resumeMemory b) := by
  have h7 : b.stp.rc.state ≠ 7 := by omega
  have ha : ¬stepActive b = true := by
    rw [stepActive, decide_eq_true_eq]
    omega
  rw [kCorbelResume, if_neg (Bool.eq_false_iff.mp hf), if_neg h7, if_neg ha, hm]

/-- Where no step was interrupted, the journal alone has been treated. -/
theorem resumeAnswer_between {rerun torn : Nat} {t : State} (h0 : t.stp.rc.state = 0) :
    resumeAnswer (rerun, torn, t) = kOk (min rerun 0xFFFF * 2 ^ 16 + min torn 0xFFFF)
      (setStp (fun p => { p with resumed := true }) t) := by
  have hne : t.stp.rc.state ≠ 6 := by omega
  exact if_pos hne

/-- An interrupted step is committed where it was staged, and otherwise is UPDATED at once or after the last of its
groups' sums. -/
theorem resumeAnswer_interrupted {rerun torn : Nat} {t : State} (h6 : t.stp.rc.state = 6) :
    let u := setStp (fun p => { p with resumed := true }) t
    resumeAnswer (rerun, torn, t) = kOk (min rerun 0xFFFF * 2 ^ 16 + min torn 0xFFFF)
      (if t.stp.rc.staged then finishCommit u
       else if unformedGroups u = [] ∨ t.stp.rc.decision = 0 then writeRecord { u.stp.rc with state := 7 } u
       else setStp (fun p => { p with updRun := true }) u) := by
  intro u
  have hrc : u.stp.rc = t.stp.rc := rfl
  rw [← hrc] at h6 ⊢
  simp only [resumeAnswer, h6, ne_eq, not_true_eq_false, if_false, Bool.or_eq_true, List.isEmpty_iff, decide_eq_true_eq, u]
  split
  · rfl
  · split <;> rfl

/-! ## The obligation -/

/-- Settles O12: a ready command runs its own checks and effect on the state it finds, so each command's effect above is
what is answered. -/
theorem corbelCommandsComplete : Obligations.CorbelCommandsComplete := by
  unfold Obligations.CorbelCommandsComplete
  refine ⟨?load, ?groupSet, ?between, ?interrupted, ?unfreeze⟩
  case load =>
    intro h s hr b init ha hi hp hf
    exact congrArg Host.Outcome.next (submit_ok hr (kCorbelLoad_of_valid ha hi hp hf))
  case groupSet =>
    intro h s hr b h0 h1 h4 hg
    exact congrArg Host.Outcome.next (submit_ok hr (kCorbelGroupSet_of_loaded h0 h1 h4 hg))
  case between =>
    intro h rerun torn t s hr b hf hst hm hres ht
    have hk := kCorbelResume_of_present (h := h) hf (.inl hst) hm
    rw [hres, resumeAnswer_between ht] at hk
    exact congrArg Host.Outcome.next (submit_ok hr hk)
  case interrupted =>
    intro h rerun torn t s hr b u hf hst hm hres ht
    have hk := kCorbelResume_of_present (h := h) hf (.inr hst) hm
    rw [hres, resumeAnswer_interrupted ht] at hk
    exact congrArg Host.Outcome.next (submit_ok hr hk)
  case unfreeze =>
    intro h s hr b gs hg
    exact congrArg Host.Outcome.next (submit_ok hr (kCorbelUnfreeze_of_loaded hg))

end Sys2Proof.Machine
end

