-- ==== Sys2Proof/Proofs/CorbelOperations.lean ====
section
/-!
SUPPORT. The memory-side operations of a corbel unit (Table 9-1): the word that an operation reads, and what each one
stores at the word's address from it.
-/
namespace Sys2Proof.Machine

/-! ## The word read -/

/-- An operation on an aligned address of a stack-local region acts on the bytes that its stack's unit reads there. -/
theorem memOp_of_local {a k : Nat} {s : State} (hk : corbelStack s a = some k) (n : Nat) (f : Nat → Nat → State → State) :
    memOp a n f s = f k (leNat (readDev (.corbel k) 8 a n s).1.data) (readDev (.corbel k) 8 a n s).2 := by
  rw [memOp, hk]

/-- The low half of an FP32 operand is the operand. -/
theorem lowF32_toNat (x : W32) : lowF32 x.toNat = f32 x.toNat := congrArg f32 (Nat.mod_eq_of_lt x.isLt)

/-! ## The sums -/

/-- Saturating at `-lim` and `lim` takes the nearer bound. -/
theorem saturate_eq_max_min {lim : Int} (hlim : 0 ≤ lim) (v : Int) :
    (if lim < v then lim else if v < -lim then -lim else v) = max (-lim) (min lim v) := by
  split
  · omega
  · split <;> omega

theorem addI64_eq (k a w x : Nat) (s : State) :
    let sum := signed 64 w + signed 64 x
    let sat := max (-(2 ^ 63 - 1)) (min (2 ^ 63 - 1) sum)
    addI64 k a w x s = writeTo (.corbel k) 8 a (leBytes 8 (unsigned 64 sat))
      (if sat = sum then s else bump s (cCbl k 0x150)) := by
  simp only [addI64, saturate_eq_max_min (lim := 2 ^ 63 - 1) (by decide)]
  rfl

theorem addF32_eq (k a w : Nat) (x : W32) (s : State) :
    let v := add32 (lowF32 w) (f32 x.toNat)
    addF32 k a w x.toNat s = writeTo (.corbel k) 8 a (leBytes 4 (to32 v))
      (if (lowF32 w).isFin && (f32 x.toNat).isFin && v.isInf then bump s (cCbl k 0x150) else s) := by
  simp only [addF32, lowF32_toNat]
  rfl

/-- An accumulator as it is stored: its NF flag in the header, its value above. -/
theorem corbelStore_word (k a : Nat) (e : Exact) (s : State) :
    corbelStore k a 88 e.word s = writeTo (.corbel k) 8 a (leBytes 88 (bit e.nf + 2 ^ 64 * e.val)) s := by
  rw [corbelStore, Exact.word, Nat.mul_comm]

/-! ## The obligation -/

/-- Settles O40: each command runs its operation on the word read, and each operation stores its result at the word's own
address. -/
theorem memorySideOperations : Obligations.MemorySideOperations := by
  unfold Obligations.MemorySideOperations
  intro addr k s
  dsimp only
  intro hk
  have hop := memOp_of_local hk
  refine ⟨?addI64, ?addF32, ?maxF32, ?minF32, ?or64, ?swap64, ?cas64, ?sqAdd, ?linAdd⟩
  case addI64 => exact fun x => congrArg Host.Outcome.next ((hop 8 _).trans (addI64_eq ..))
  case addF32 => exact fun x => congrArg Host.Outcome.next ((hop 8 _).trans (addF32_eq ..))
  case maxF32 => exact fun x => congrArg Host.Outcome.next (hop 8 _)
  case minF32 => exact fun x => congrArg Host.Outcome.next (hop 8 _)
  case or64 => exact fun x => congrArg Host.Outcome.next (hop 8 _)
  case swap64 => exact fun x => congrArg Host.Outcome.next (hop 8 _)
  case cas64 => exact fun c x => congrArg Host.Outcome.next (hop 8 _)
  case sqAdd => exact fun x => congrArg Host.Outcome.next ((hop 88 _).trans (corbelStore_word ..))
  case linAdd => exact fun x => congrArg Host.Outcome.next ((hop 88 _).trans (corbelStore_word ..))

end Sys2Proof.Machine
end

