-- ==== Sys2Proof/Proofs/StepBeginRefusals.lean ====
section
/-!
SUPPORT. The refusals of STEP_BEGIN (R279, R429, R453, R495), one lemma for each condition in the order of log 53: each
holds where none of the conditions before it does.
-/
namespace Sys2Proof.Machine

/-! ## The refusals in their order -/

section Refusals
variable {s : State} {nb step gen tCheck tCommit deadline : Nat}

theorem stepBeginRefusal_of_aborted (hj : jobAborted s = true) :
    stepBeginRefusal s nb step gen tCheck tCommit deadline = some (stJobAborted, 0) := if_pos hj

variable (hj : jobAborted s = false)
include hj

theorem stepBeginRefusal_of_fenced (hf : s.pwr.fenced = true) :
    stepBeginRefusal s nb step gen tCheck tCommit deadline = some (stThermal, 0) := by
  simp [stepBeginRefusal, hj, hf]

variable (hf : s.pwr.fenced = false)
include hf

theorem stepBeginRefusal_of_resumePending (hr : resumePending s = true) :
    stepBeginRefusal s nb step gen tCheck tCommit deadline = some (stResumePending, 0) := by
  simp [stepBeginRefusal, hj, hf, hr]

variable (hr : resumePending s = false)
include hr

theorem stepBeginRefusal_of_active (h0 : s.stp.rc.state ≠ 0) :
    stepBeginRefusal s nb step gen tCheck tCommit deadline = some (stBusy, 0) := by
  simp [stepBeginRefusal, hj, hf, hr, h0]

variable (h0 : s.stp.rc.state = 0)
include h0

theorem stepBeginRefusal_of_other_step (hs : step ≠ s.stp.rc.step) :
    stepBeginRefusal s nb step gen tCheck tCommit deadline = some (stStepMismatch, 0) := by
  simp [stepBeginRefusal, hj, hf, hr, h0, hs]

variable (hs : step = s.stp.rc.step)
include hs

theorem stepBeginRefusal_of_same_gen (hg : flag gen 0 = s.stp.rc.gen) :
    stepBeginRefusal s nb step gen tCheck tCommit deadline = some (stGenMismatch, 0) := by
  simp [stepBeginRefusal, hj, hf, hr, h0, hs, hg]

variable (hg : flag gen 0 ≠ s.stp.rc.gen)
include hg

theorem stepBeginRefusal_of_fenced_tile (ht : ∃ t ∈ programTiles s, (tileOf s t).isFenced = true) :
    stepBeginRefusal s nb step gen tCheck tCommit deadline = some (stFault, 0) := by
  have htiles : (programTiles s).any (fun t => (tileOf s t).isFenced) = true := List.any_eq_true.mpr ht
  simp [stepBeginRefusal, hj, hf, hr, h0, hs, hg, htiles]

/-- The step may begin where the module and its tiles are concerned: what is left to check is the configuration and the
instants of the command. -/
theorem stepBeginRefusal_of_idle (ht : ∀ t ∈ programTiles s, (tileOf s t).isFenced = false) :
    stepBeginRefusal s nb step gen tCheck tCommit deadline =
      if s.stp.r = 0 || !s.cfg.committed then some (stConfiguration, 0)
      else if !s.ck.items.isEmpty && ((slotKey s 16).isNone || (slotKey s 17).isNone) then some (stConfiguration, 0)
      else if 0 < tCheck ∧ tCheck ≤ nb then some (stParameter, 16)
      else if 0 < tCommit ∧ tCommit ≤ nb then some (stParameter, 24)
      else if 0 < deadline ∧ deadline ≤ tCheck then some (stParameter, 32)
      else none := by
  have htiles : (programTiles s).any (fun t => (tileOf s t).isFenced) = false := by simpa using ht
  simp [stepBeginRefusal, hj, hf, hr, h0, hs, hg, htiles]

variable (ht : ∀ t ∈ programTiles s, (tileOf s t).isFenced = false)
include ht

theorem stepBeginRefusal_of_unconfigured (hc : s.stp.r = 0 ∨ s.cfg.committed = false) :
    stepBeginRefusal s nb step gen tCheck tCommit deadline = some (stConfiguration, 0) := by
  rw [stepBeginRefusal_of_idle hj hf hr h0 hs hg ht, if_pos (by simpa using hc)]

variable (h1 : s.stp.r ≠ 0) (hc : s.cfg.committed = true)
include h1 hc

/-- A job with checkpoint items needs both checkpoint keys (R495). -/
theorem stepBeginRefusal_of_missing_key (hi : s.ck.items ≠ []) (hk : slotKey s 16 = none ∨ slotKey s 17 = none) :
    stepBeginRefusal s nb step gen tCheck tCommit deadline = some (stConfiguration, 0) := by
  rw [stepBeginRefusal_of_idle hj hf hr h0 hs hg ht, if_neg (by simp [h1, hc]), if_pos (by simpa [hi] using hk)]

/-- With its configuration and keys in place, only the instants of the command can refuse it. -/
theorem stepBeginRefusal_of_configured (hk : s.ck.items = [] ∨ slotKey s 16 ≠ none ∧ slotKey s 17 ≠ none) :
    stepBeginRefusal s nb step gen tCheck tCommit deadline =
      if 0 < tCheck ∧ tCheck ≤ nb then some (stParameter, 16)
      else if 0 < tCommit ∧ tCommit ≤ nb then some (stParameter, 24)
      else if 0 < deadline ∧ deadline ≤ tCheck then some (stParameter, 32)
      else none := by
  have hkeys : (!s.ck.items.isEmpty && ((slotKey s 16).isNone || (slotKey s 17).isNone)) = false := by
    rcases hk with hi | ⟨h16, h17⟩
    · simp [hi]
    · simp [Option.isNone_eq_false_iff.mpr (Option.isSome_iff_ne_none.mpr h16),
        Option.isNone_eq_false_iff.mpr (Option.isSome_iff_ne_none.mpr h17)]
  rw [stepBeginRefusal_of_idle hj hf hr h0 hs hg ht, if_neg (by simp [h1, hc]), if_neg (Bool.eq_false_iff.mp hkeys)]

end Refusals

theorem kStepBegin_of_refused {h : CmdHdr} {st tCheck tCommit deadline : W64} {salt : W32} {gen : Byte} {b : State}
    {status d : Nat}
    (hn : stepBeginRefusal b h.notBefore.toNat st.toNat gen.toNat tCheck.toNat tCommit.toNat deadline.toNat =
      some (status, d)) :
    kStepBegin h st salt gen tCheck tCommit deadline b = kFail status d b := by
  rw [kStepBegin, hn]

/-! ## The obligation -/

/-- Settles O8: a refusal is answered in the state that the command finds, and the conditions are read in the order of the
lemmas above. -/
theorem stepBeginRefusals : Obligations.StepBeginRefusals := by
  unfold Obligations.StepBeginRefusals
  intro h st salt gen tc tm dl s i b r refused hready
  have answer {status d : Nat}
      (hn : stepBeginRefusal b h.notBefore.toNat st.toNat gen.toNat tc.toNat tm.toNat dl.toNat = some (status, d)) :
      refused status d :=
    congrArg Host.Outcome.next (submit_fail hready (kStepBegin_of_refused (salt := salt) hn))
  refine ⟨fun hj => answer (stepBeginRefusal_of_aborted hj), fun hj hf => answer (stepBeginRefusal_of_fenced hj hf),
    fun hj hf => ⟨fun hr => answer (stepBeginRefusal_of_resumePending hj hf hr), fun hr =>
      ⟨fun h0 => answer (stepBeginRefusal_of_active hj hf hr h0), fun h0 =>
        ⟨fun hs => answer (stepBeginRefusal_of_other_step hj hf hr h0 hs), fun hs =>
          ⟨fun hg => answer (stepBeginRefusal_of_same_gen hj hf hr h0 hs hg), fun hg =>
            ⟨fun ht => answer (stepBeginRefusal_of_fenced_tile hj hf hr h0 hs hg ht), fun ht => ?_⟩⟩⟩⟩⟩⟩
  refine ⟨fun hc => answer (stepBeginRefusal_of_unconfigured hj hf hr h0 hs hg ht hc),
    fun h1 hc hi hk => answer (stepBeginRefusal_of_missing_key hj hf hr h0 hs hg ht h1 hc hi hk), fun h1 hc hk => ?_⟩
  have hinstants := stepBeginRefusal_of_configured (nb := h.notBefore.toNat) (tCheck := tc.toNat) (tCommit := tm.toNat)
    (deadline := dl.toNat) hj hf hr h0 hs hg ht h1 hc hk
  refine ⟨fun hp hle => answer (hinstants.trans (if_pos ⟨hp, hle⟩)), fun htc => ?_⟩
  have hcheck := hinstants.trans (if_neg (by omega))
  refine ⟨fun hp hle => answer (hcheck.trans (if_pos ⟨hp, hle⟩)), fun htm hp hle => ?_⟩
  exact answer (hcheck.trans ((if_neg (by omega)).trans (if_pos ⟨hp, hle⟩)))

end Sys2Proof.Machine
end

