-- ==== Sys2Proof/Proofs/StageQueues.lean ====
section
/-!
SUPPORT. The stage queues of a module (R294 to R299): what an arriving entry does at its consumer, and where a returned
credit goes.
-/
namespace Sys2Proof.Machine

/-! ## The bytes of an arrival -/

theorem slice_of_length {data : List Byte} {n : Nat} (hn : data.length = n) : slice data 0 n = data := by
  simp [slice, ← hn]

theorem length_slice (data : List Byte) (o n : Nat) : (slice data o n).length = n := by
  simp only [slice, List.length_append, List.length_replicate, List.length_take]
  omega

/-- An entry of `e` bytes at a multiple of `e` below `n * e` is one whole entry of a queue of `n`. -/
theorem aligned_entry_in_queue {e n off : Nat} (h0 : 0 < e) (halign : off % e = 0) (hoff : off < n * e) :
    off + e ≤ n * e ∧ off / e = (off + e - 1) / e ∧ (off + e) % e = 0 := by
  obtain ⟨k, rfl⟩ := Nat.dvd_of_mod_eq_zero halign
  have hk : k < n := Nat.lt_of_mul_lt_mul_right (a := e) (by rwa [Nat.mul_comm k])
  refine ⟨?_, ?_, by simp⟩
  · rw [← Nat.mul_succ, Nat.mul_comm]
    exact Nat.mul_le_mul_right _ hk
  · rw [Nat.mul_div_cancel_left k h0, Nat.add_sub_assoc h0, Nat.mul_add_div h0,
      Nat.div_eq_of_lt (Nat.sub_lt h0 Nat.one_pos), Nat.add_zero]

/-! ## An arrival at its consumer (R295, R297) -/

section Arrival
variable {h off : Nat} {data : List Byte} {q : StageQueue} {s : State} (hq : consumerQueue s h = some q)

theorem consumerQueue_of_own (hq : queueDesc s h = some q) (hown : field q.desc 215 200 = ownFid s) :
    consumerQueue s h = some q := by
  simp [consumerQueue, hq, hown]

include hq

theorem queueArrive_of_stale {gen : Bool} (hg : gen ≠ genOf s) : queueArrive h off gen data s = bump s (cStep 12) := by
  simp [queueArrive, hq, hg]

/-- R297. Bytes that do not lie inside one entry of the queue, or find it full, are discarded. -/
theorem queueArrive_of_misplaced
    (hb : sqBytes q.desc = 0 ∨ sqNent q.desc * sqBytes q.desc < off + data.length ∨
      off / sqBytes q.desc ≠ (off + data.length - 1) / sqBytes q.desc ∨ sqNent q.desc ≤ q.occ) :
    queueArrive h off (genOf s) data s = raiseNonfinite 0x6C (bump s (cStep 13)) := by
  simp only [queueArrive, hq, ne_eq, not_true_eq_false, if_false]
  exact if_pos hb

/-- The queue with one entry more. -/
def StageQueue.filled (q : StageQueue) : StageQueue :=
  { q with
    occ := q.occ + 1, high := max q.high (q.occ + 1)
    fills := if q.occ + 1 = sqNent q.desc then satAdd 48 q.fills 1 else q.fills }

/-- R295. A whole entry at a place of the queue is written there and counted, and its consumer told. -/
theorem queueArrive_of_entry (he : data.length = sqBytes q.desc) (h0 : 0 < sqBytes q.desc)
    (halign : off % sqBytes q.desc = 0) (hoff : off < sqNent q.desc * sqBytes q.desc) (hocc : q.occ < sqNent q.desc) :
    let u := writeTo .lintel 8 (sqBase q.desc + off) data s
    queueArrive h off (genOf s) data s =
      sendToken (field q.desc 181 174) (field q.desc 173 168) 0 0x6C (genOf u) 1 (setStageQueue h q.filled u) := by
  intro u
  obtain ⟨hfits, hsame, hwhole⟩ := aligned_entry_in_queue h0 halign hoff
  simp only [queueArrive, hq, he, ne_eq, not_true_eq_false, if_false]
  rw [if_neg (by omega), if_neg (not_not_intro hwhole)]
  rfl

end Arrival

section EntryArrival
variable {handle : W16} {offset len : W32} {data : List Byte} {q : StageQueue} {s : State}
  (hq : consumerQueue s handle.toNat = some q)
include hq

theorem execQueueEntryArrival_of_misaligned
    (hb : sqBytes q.desc = 0 ∨ offset.toNat % sqBytes q.desc ≠ 0) :
    execQueueEntryArrival handle offset len (genOf s) data s =
      .next (raiseNonfinite 0x6C (bump s (cStep 13))) := by
  have hbad : ((consumerQueue s handle.toNat).any fun q => decide (genOf s = genOf s) &&
      (decide (sqBytes q.desc = 0) || decide (offset.toNat % sqBytes q.desc ≠ 0))) = true := by
    simpa [hq] using hb
  exact congrArg Host.Outcome.next (if_pos hbad)

/-- An arrival of another generation, or at a multiple of ENTRY_BYTES, is left to the queue. -/
theorem execQueueEntryArrival_of_aligned {gen : Bool}
    (ha : gen = genOf s → sqBytes q.desc ≠ 0 ∧ offset.toNat % sqBytes q.desc = 0) :
    execQueueEntryArrival handle offset len gen data s =
      .next (queueArrive handle.toNat offset.toNat gen (slice data 0 len.toNat) s) := by
  have hgood : ¬((consumerQueue s handle.toNat).any fun q => decide (gen = genOf s) &&
      (decide (sqBytes q.desc = 0) || decide (offset.toNat % sqBytes q.desc ≠ 0))) = true := by
    simpa [hq] using ha
  exact congrArg Host.Outcome.next (if_neg hgood)

/-- R297. An arrival off a multiple of ENTRY_BYTES, beyond the queue or beyond its room is discarded. -/
theorem execQueueEntryArrival_discards (hlen : 0 < len.toNat)
    (hb : offset.toNat % sqBytes q.desc ≠ 0 ∨ sqNent q.desc * sqBytes q.desc ≤ offset.toNat ∨ sqNent q.desc < q.occ + 1) :
    execQueueEntryArrival handle offset len (genOf s) data s = .next (raiseNonfinite 0x6C (bump s (cStep 13))) := by
  by_cases hm : sqBytes q.desc = 0 ∨ offset.toNat % sqBytes q.desc ≠ 0
  · exact execQueueEntryArrival_of_misaligned hq hm
  · obtain ⟨h0, halign⟩ := not_or.mp hm
    rw [execQueueEntryArrival_of_aligned hq fun _ => ⟨h0, Decidable.not_not.mp halign⟩]
    refine congrArg Host.Outcome.next (queueArrive_of_misplaced hq ?_)
    rw [length_slice]
    omega

end EntryArrival

/-! ## A credit that returns (R295) -/

section CreditReturn
variable {src : Byte} {credit : W32} {s t : State} (ha : arrive (.credit src credit) s = some t)
  (hd : field credit.toNat 31 24 = 0x6C)
include ha hd

theorem execQueueCreditReturn_of_stale (hg : flag credit.toNat 18 ≠ genOf t) :
    execQueueCreditReturn src credit s = .next (bump t (cStep 12)) := by
  simp [execQueueCreditReturn, ha, hd, hg]

/-- The credit frees entries of the first queue of its route on this module, and goes on to a producer here. -/
theorem execQueueCreditReturn_frees {h : Nat} {q : StageQueue} (hg : flag credit.toNat 18 = genOf t)
    (hq : t.stp.queues.find? (fun e => e.2.any (fun q =>
      field q.desc 167 163 = field credit.toNat 23 19 && field q.desc 215 200 = ownFid t)) = some (h, some q))
    (hp : field q.desc 231 216 = ownFid t) :
    execQueueCreditReturn src credit s = .next (send (.credit 0x6C
      (creditWord (field q.desc 199 192) (field q.desc 191 187) (flag credit.toNat 18) (field credit.toNat 15 0)))
      (setStageQueue h { q with occ := q.occ - field credit.toNat 15 0 } t)) := by
  simp only [execQueueCreditReturn, ha, hd, hg, hq, hp, ne_eq, not_true_eq_false, if_false, if_true]

end CreditReturn

/-! ## The obligations -/

/-- Settles O34: the entry is off its place, or the queue finds it outside or finds itself full. -/
theorem queueArrivalsDiscarded : Obligations.QueueArrivalsDiscarded := by
  unfold Obligations.QueueArrivalsDiscarded
  intro handle offset len data q s entry nent hq hown hlen hb
  exact execQueueEntryArrival_discards (consumerQueue_of_own hq hown) hlen hb

/-- Settles O35: an entry at its place is taken, one of the other generation is counted, and a credit frees its entry. -/
theorem queueEvents : Obligations.QueueEvents := by
  unfold Obligations.QueueEvents
  refine ⟨?entry, ?staleEntry, ?credit, ?staleCredit⟩
  case entry =>
    rintro handle offset len gen data q s entry nent hq hown rfl hdata hlen h0 halign hoff hocc
    have hcq := consumerQueue_of_own hq hown
    have hleft := execQueueEntryArrival_of_aligned (len := len) (data := data) (gen := genOf s) hcq
      fun _ => ⟨Nat.ne_of_gt h0, halign⟩
    rw [slice_of_length hdata] at hleft
    exact hleft.trans <| congrArg Host.Outcome.next (queueArrive_of_entry hcq (hdata.trans hlen) h0 halign hoff hocc)
  case staleEntry =>
    intro handle offset len data q s hq hown
    have hcq := consumerQueue_of_own hq hown
    have hg : (!genOf s) ≠ genOf s := by cases genOf s <;> decide
    exact (execQueueEntryArrival_of_aligned hcq fun h => absurd h hg).trans
      (congrArg Host.Outcome.next (queueArrive_of_stale hcq hg))
  case credit =>
    intro src credit h q s t w ha hd hg hq hp
    exact execQueueCreditReturn_frees ha hd hg hq hp
  case staleCredit =>
    intro src credit s t ha hd hg
    exact execQueueCreditReturn_of_stale ha hd hg

end Sys2Proof.Machine
end

