-- ==== Sys2Proof/Proofs/LineTimeEvents.lean ====
section
/-!
SUPPORT. What line time does besides its timers (chapter 11): the branch that each event takes under its guards.
-/
namespace Sys2Proof.Machine

/-! ## The backup root (R309) -/

theorem execBackupRootTakeover_takes {s : State} (hr : timeRole s = 2) (hb : s.tm.backup0 = false)
    (hz : s.tm.zeroAt + 1000000000 ≤ nsOf s)
    (hp : ∀ p < 24, ¬((pathOf s p).state = 2 ∧ (pathOf s p).stratum = 0)) :
    execBackupRootTakeover s =
      .next (timeTree { enterHoldover s with tm := { (enterHoldover s).tm with backup0 := true } }) := by
  have hnone : (List.range 24).any (fun p =>
      decide ((pathOf s p).state = 2) && decide ((pathOf s p).stratum = 0)) = false := by
    simpa using hp
  exact congrArg Host.Outcome.next (if_neg (by simp [hr, hb, hz, hnone]))

/-! ## External references (R315, R316) -/

section Reference
variable {s : State} (hr : timeRole s = 1)
include hr

/-- R315. Line time follows the PTP time of the master on the port and domain that are set. -/
theorem execPtpMessageReceive_follows {port : BitVec 4} {domain : Byte} (ptp : BitVec 96) (hsrc : timeSource s = 1) :
    let want := if flag (ltuCfg s) 27 then 6 else 0
    port.toNat = want → portMode s want = 3 → inService s want = true →
    domain.toNat = field (getReg s (ltuBase + 4)) 31 24 →
    execPtpMessageReceive port domain ptp s = .next (
      let t : State := { s with tm := { s.tm with srcOk := true, ptpAt := nsOf s } }
      timeTree (correct ((ptp.toNat : Int) - (epochNs t * 65536 : Nat) - t.tm.now) t)) := by
  intro want hport hmode hserv hdom
  simp only [want] at hport hmode hserv
  exact congrArg Host.Outcome.next (if_neg (by simp [hr, hsrc, hport, hmode, hserv, hdom]))

theorem execPtpMasterLoss_lost (hsrc : timeSource s = 1) (hok : s.tm.srcOk = true)
    (hat : s.tm.ptpAt + 3000000000 ≤ nsOf s) :
    execPtpMasterLoss s = .next (enterHoldover (bump { s with tm := { s.tm with srcOk := false } } (cLtu 0x118))) :=
  congrArg Host.Outcome.next (if_neg (by simp [hr, hsrc, hok, hat]))

variable (hsrc : timeSource s = 2)
include hsrc

/-- R316. The first edge after TIME_EPOCH is the second that it named. -/
theorem execPpsInEdge_named {sec nb : Nat} (hname : s.tm.ppsName = some (sec, nb)) (hnb : nb ≤ nsOf s)
    (hsec : epochNs s ≤ sec * 1000000000) :
    execPpsInEdge s = .next (ppsAccept sec (sec * 1000000000 - epochNs s) s) := by
  simp [execPpsInEdge, hr, hsrc, hname, Nat.not_lt.mpr hnb, Nat.not_lt.mpr hsec]

/-- R316. A later edge is a second later where it lies within 1 µs of its place, and otherwise fails the reference. -/
theorem execPpsInEdge_next {t : Nat} (hname : s.tm.ppsName = none) (hnext : s.tm.ppsNext = some t) :
    execPpsInEdge s = .next (
      if 65536 * 1000 < ((t * 65536 : Nat) - (s.tm.now : Int)).natAbs then ppsFail (bump s (cLtu 0x118))
      else ppsAccept (s.tm.ppsSec + 1) t s) := by
  simp only [execPpsInEdge, hr, hsrc, hname, hnext]
  rfl

theorem execPpsEdgeMissing_missed {t : Nat} (hnext : s.tm.ppsNext = some t) (ht : t + 1000 < nsOf s) :
    execPpsEdgeMissing s = .next (ppsFail { s with tm := { s.tm with
      ppsNext := some (t + 1000000000), ppsSec := s.tm.ppsSec + 1 } }) := by
  simp [execPpsEdgeMissing, hr, hsrc, hnext, Nat.not_le.mpr ht]

end Reference

/-! ## The outgoing pulse (R317) -/

theorem execPpsOutPulse_pulses {s : State} (hen : flag (ltuCfg s) 3 = true) (hst : 2 ≤ s.tm.state)
    (hsec : nsOf s % 1000000000 = 0) :
    execPpsOutPulse s = .next (emit (.pin 25 false) (emit (.pin 25 true) s)) :=
  congrArg Host.Outcome.next (if_pos (by simp [hen, hst, hsec]))

/-! ## Exchanges (R311) -/

section Exchange
variable {path : BitVec 5} {s : State} (hdue : (pathOf s path.toNat).due ≤ nsOf s)
include hdue

theorem execTimeExchangeSend_native (hp : path.toNat < 12) (hn : portNative s path.toNat = true)
    (hs : inService s path.toNat = true) :
    let t := beginExchange path.toNat s
    execTimeExchangeSend path s = .next (sendTimeFrame path.toNat (portOf t path.toNat).peer
      (timeBody false t.tm.stratum false t.tm.now 0 0) t) := by
  have hnipen : decide (16 ≤ path.toNat) = false := decide_eq_false (by omega)
  simp [execTimeExchangeSend, Nat.not_lt.mpr hdue, hp, hn, hs, hnipen]

theorem execTimeExchangeSend_nipen (hlo : 16 ≤ path.toNat) (hhi : path.toNat < 24)
    (hp : (pathOf s path.toNat).partner.1 = true) :
    let t := beginExchange path.toNat s
    execTimeExchangeSend path s = .next (sendPacket 6 16 (timePartner t path.toNat) (wNow t) 0 0 1 0
      (timeBody true t.tm.stratum false t.tm.now 0 0) t) := by
  have hnative : ¬path.toNat < 12 := by omega
  simp [execTimeExchangeSend, Nat.not_lt.mpr hdue, hnative, hlo, hhi, hp]

end Exchange

/-! ## The budget period (R320, R323, R325) -/

theorem execBudgetPeriodBoundary_ends {s : State} (hp : nsOf s % periodNs s = 0)
    (hsteer : s.tm.steer.natAbs ≤ periodNs s * 65536 / 5000) :
    execBudgetPeriodBoundary s = .next (
      let t := applyPeriod (applyBudget s)
      let u := if (List.range 8).any (fun k => (stackOf t k).level = 2) then bump t (bgtBase + 0x508) else t
      (List.range 12).foldl (fun v p => portPeriod p v) { u with bud := { u.bud with use := [], lent := [] } }) := by
  simp only [execBudgetPeriodBoundary, hp, Nat.not_lt.mpr hsteer, ne_eq, not_true_eq_false, if_false]

/-! ## The obligation -/

/-- Settles O44: under the guards of each event its command takes the branch stated above. -/
theorem timeEvents : Obligations.TimeEvents := by
  unfold Obligations.TimeEvents
  refine ⟨?takeover, ?ptp, ?ptpLoss, ?firstEdge, ?laterEdge, ?missing, ?pulse, ?ref10m, ?exchange, ?period⟩
  case takeover => exact fun s hr hb hz hp => execBackupRootTakeover_takes hr hb hz hp
  case ptp =>
    intro port domain ptp s want hr hsrc hport hmode hserv hdom
    exact execPtpMessageReceive_follows hr ptp hsrc hport hmode hserv hdom
  case ptpLoss => exact fun s hr hsrc hok hat => execPtpMasterLoss_lost hr hsrc hok hat
  case firstEdge => exact fun sec nb s hr hsrc hname hnb hsec => execPpsInEdge_named hr hsrc hname hnb hsec
  case laterEdge =>
    intro t s hr hsrc hname hnext
    have hedge := execPpsInEdge_next hr hsrc hname hnext
    exact ⟨fun hin => hedge.trans (congrArg Host.Outcome.next (if_neg (Nat.not_lt.mpr hin))),
      fun hout => hedge.trans (congrArg Host.Outcome.next (if_pos hout))⟩
  case missing => exact fun t s hr hsrc hnext ht => execPpsEdgeMissing_missed hr hsrc hnext ht
  case pulse => exact fun s hen hst hsec => execPpsOutPulse_pulses hen hst hsec
  case ref10m => exact fun present s => rfl
  case exchange =>
    intro path s p t body hdue
    exact ⟨execTimeExchangeSend_native hdue, execTimeExchangeSend_nipen hdue⟩
  case period => exact fun s hp hsteer => execBudgetPeriodBoundary_ends hp hsteer

end Sys2Proof.Machine
end

