-- ==== Sys2Proof/Proofs/LineTimeCommands.lean ====
section
/-!
SUPPORT. The commands of line time and budgets (Table 15-15) and the line-time timers (R319): what each command's own
checks and effect answer when the checks pass, what a timer that is armed or looked at does, and from that the command
as a whole.
-/
namespace Sys2Proof.Machine

/-! ## A timer and line time (R319) -/

/-- An armed timer whose expiry is already past fires at once and is counted. -/
theorem timerArmed_past {n : Nat} {s : State} (harmed : flag (getReg s (tmrReg n)) 31 = true)
    (hpast : tmrExpiry s n < nsOf s) : timerArmed n s = fireTimer n (bump s (cLtu 0x130)) := by
  simp only [timerArmed, harmed, hpast, decide_true, Bool.and_self, if_true]

/-- A timer whose expiry is still to come waits. -/
theorem timerArmed_ahead {n : Nat} {s : State} (hahead : nsOf s ≤ tmrExpiry s n) : timerArmed n s = s := by
  simp only [timerArmed, Nat.not_lt.mpr hahead, decide_false, Bool.and_false, Bool.false_eq_true, if_false]

theorem execLineTimerExpiry_reached {timer : BitVec 3} {s : State}
    (harmed : flag (getReg s (tmrReg timer.toNat)) 31 = true) (hdue : tmrExpiry s timer.toNat ≤ nsOf s) :
    execLineTimerExpiry timer s = .next (fireTimer timer.toNat s) := by
  simp only [execLineTimerExpiry, harmed, hdue, decide_true, Bool.and_self, if_true]

theorem execLineTimerExpiry_early {timer : BitVec 3} {s : State} (hearly : nsOf s < tmrExpiry s timer.toNat) :
    execLineTimerExpiry timer s = .next s := by
  simp only [execLineTimerExpiry, Nat.not_le.mpr hearly, decide_false, Bool.and_false, Bool.false_eq_true, if_false]

/-! ## The registers that TIME_TIMER writes -/

/-- The state with a timer's expiry and control written; the control keeps its bits 31 to 17 (Table 11-11). -/
def timerSet (n ctl expiry : Nat) (s : State) : State :=
  setReg (setReg (setReg s (tmrReg n + 4) (expiry % 2 ^ 32)) (tmrReg n + 8) (expiry / 2 ^ 32)) (tmrReg n)
    (ctl / 2 ^ 17 * 2 ^ 17)

@[simp] theorem nsOf_timerSet (n ctl expiry : Nat) (s : State) : nsOf (timerSet n ctl expiry s) = nsOf s := rfl

@[simp] theorem genOf_bump_timerSet (n ctl expiry a : Nat) (s : State) :
    genOf (bump (timerSet n ctl expiry s) a) = genOf s := rfl

@[simp] theorem getReg_bump (s : State) (a b : Nat) : getReg (bump s a) b = getReg s b := rfl

@[simp] theorem getReg_timerSet (n ctl expiry : Nat) (s : State) :
    getReg (timerSet n ctl expiry s) (tmrReg n) = ctl / 2 ^ 17 * 2 ^ 17 := getReg_setReg_same _ _ _

/-- The two expiry registers together hold the expiry. -/
@[simp] theorem tmrExpiry_timerSet (n ctl expiry : Nat) (s : State) :
    tmrExpiry (timerSet n ctl expiry s) n = expiry := by
  have hlow : getReg (timerSet n ctl expiry s) (tmrReg n + 4) = expiry % 2 ^ 32 := by simp [timerSet, getReg_setReg]
  have hhigh : getReg (timerSet n ctl expiry s) (tmrReg n + 8) = expiry / 2 ^ 32 := by simp [timerSet, getReg_setReg]
  rw [tmrExpiry, hlow, hhigh, Nat.div_add_mod']

/-! ## The fields of a stored control -/

/-- Clearing the bits below `k` leaves those from `k` on. -/
theorem clearLow_shiftRight {k n : Nat} (hk : k ≤ n) (x : Nat) : (x / 2 ^ k * 2 ^ k) >>> n = x >>> n := by
  obtain ⟨m, rfl⟩ := Nat.exists_eq_add_of_le hk
  simp only [Nat.shiftRight_add, Nat.shiftRight_eq_div_pow x k, Nat.shiftRight_eq_div_pow (_ * _) k,
    Nat.mul_div_cancel _ (Nat.two_pow_pos k)]

theorem field_clearLow {k lo : Nat} (hk : k ≤ lo) (x hi : Nat) : field (x / 2 ^ k * 2 ^ k) hi lo = field x hi lo := by
  rw [field, field, clearLow_shiftRight hk]

theorem flag_clearLow {k i : Nat} (hk : k ≤ i) (x : Nat) : flag (x / 2 ^ k * 2 ^ k) i = flag x i := by
  rw [flag, flag, Nat.testBit, Nat.testBit, clearLow_shiftRight hk]

/-- What TIME_TIMER's writes do at a timer that its control arms: with the expiry already past it fires to the control's
DEST and SLOT, and it waits otherwise. -/
theorem timerArmed_timerSet {ctl : Nat} (harm : flag ctl 31 = true) (n expiry : Nat) (s : State) :
    timerArmed n (timerSet n ctl expiry s) =
      if expiry < nsOf s then
        sendToken (field ctl 30 23) (field ctl 22 17) 0 0x6E (genOf s) 1
          (setReg (bump (timerSet n ctl expiry s) (cLtu 0x130)) (tmrReg n) (putField (ctl / 2 ^ 17 * 2 ^ 17) 31 31 0))
      else timerSet n ctl expiry s := by
  have harmed : flag (getReg (timerSet n ctl expiry s) (tmrReg n)) 31 = true := by
    rw [getReg_timerSet, flag_clearLow (by omega), harm]
  split
  case isTrue hpast =>
    rw [timerArmed_past harmed (by simpa using hpast), fireTimer, getReg_bump, getReg_timerSet, genOf_bump_timerSet,
      field_clearLow (by omega), field_clearLow (by omega)]
  case isFalse hahead => exact timerArmed_ahead (by simpa using hahead)

/-! ## The commands' own effect -/

theorem kTimeEpoch_of_idle {h : CmdHdr} {epoch ppsSecond : W64} {b : State} (ha : stepActive b = false) :
    kTimeEpoch h epoch ppsSecond b = kOk 0 (
      let t := touchCfg (setReg (setReg b (ltuBase + 8) (epoch.toNat % 2 ^ 32)) (ltuBase + 0xC) (epoch.toNat / 2 ^ 32))
      if timeSource t ≠ 2 then t
      else { t with tm := { t.tm with
        ppsName := some (ppsSecond.toNat, h.notBefore.toNat), ppsNext := none, ppsMiss := 0 } }) := by
  simp only [kTimeEpoch, ha, Bool.false_eq_true, if_false]
  split <;> rfl

theorem kTimeQuery_of_fits {h : CmdHdr} {buf : Buf} {b : State} (hm : h.mctp = false) (hf : Fits b buf (timeRecord b)) :
    kTimeQuery h buf b = kOk (timeRecord b).length (hostWrite buf.addr.toNat (timeRecord b) b) :=
  deliver_fits hm hf id _

theorem kBudgetSet_of_valid {h : CmdHdr} {b : State} (hp : b.bud.pending = none)
    (hok : budgetOk (budgetWords h.pb) = true) :
    kBudgetSet h b = kDefer { b with bud := { b.bud with
      pending := some (budgetWords h.pb, leAt h.pb 0x200 3, h.notBefore.toNat, replyTo h 0x0803 b) } } := by
  simp only [kBudgetSet, hp, hok, Option.isSome_none, Bool.not_true, Bool.false_eq_true, if_false]

theorem kTimeTimer_of_valid {h : CmdHdr} {timer : Byte} {ctl : W32} {expiry : W64} {b : State} (hn : timer.toNat ≤ 7) :
    kTimeTimer h timer ctl expiry b =
      kOk 0 (timerArmed timer.toNat (timerSet timer.toNat ctl.toNat expiry.toNat b)) :=
  if_neg (Nat.not_lt.mpr hn)

theorem exec_timeTimer_of_ready {h : CmdHdr} {timer : Byte} {ctl : W32} {expiry : W64} {s : State}
    (hr : Ready h 0x0804 (.timeTimer h timer ctl expiry) s) (hn : timer.toNat ≤ 7) :
    exec (.timeTimer h timer ctl expiry) s = .next (replied h 0x0804 0 0 s
      (timerArmed timer.toNat (timerSet timer.toNat ctl.toNat expiry.toNat (begun h 0x0804 s)))) :=
  congrArg Host.Outcome.next (submit_ok hr (kTimeTimer_of_valid hn))

/-! ## The obligations -/

/-- Settles O18: a ready command runs its own checks and effect on the state it finds, so each command's effect above is
what is answered; BUDGET_SET is accepted and its answer left to the boundary. -/
theorem timeCommandsComplete : Obligations.TimeCommandsComplete := by
  unfold Obligations.TimeCommandsComplete
  refine ⟨?epoch, ?query, ?budget, ?timer, ?paths⟩
  case epoch =>
    intro h epoch ppsSecond s hr b t ha
    exact congrArg Host.Outcome.next (submit_ok hr (kTimeEpoch_of_idle ha))
  case query =>
    intro h buf s hr b data hf
    exact congrArg Host.Outcome.next (submit_ok hr (kTimeQuery_of_fits hr.1 hf))
  case budget =>
    intro h s hr b hp hok
    exact congrArg Host.Outcome.next (submit_accepted hr rfl (kBudgetSet_of_valid hp hok))
  case timer => exact fun h timer ctl expiry s hr hn => exec_timeTimer_of_ready hr hn
  case paths => exact fun h s hr => congrArg Host.Outcome.next (submit_ok hr rfl)

/-- Settles O33: at its expiry an armed timer fires and before it nothing happens; TIME_TIMER writes the timer's
registers, and what it has armed then fires at once exactly when the expiry is already past. -/
theorem timersFire : Obligations.TimersFire := by
  unfold Obligations.TimersFire
  refine ⟨?reached, ?early, ?armed⟩
  case reached => exact fun timer s harmed hdue => execLineTimerExpiry_reached harmed hdue
  case early => exact fun timer s _ hearly => execLineTimerExpiry_early hearly
  case armed =>
    intro h timer ctl expiry s hr hn harm
    have hset := timerArmed_timerSet harm timer.toNat expiry.toNat (begun h 0x0804 s)
    exact (exec_timeTimer_of_ready hr hn).trans
      (congrArg (fun t => Host.Outcome.next (replied h 0x0804 0 0 s t)) hset)

end Sys2Proof.Machine
end

