-- ==== Sys2Proof/Proofs/FabricCommands.lean ====
section
/-!
SUPPORT. The commands of the fabric and of collectives (Table 15-12): what each one's own checks and effect answer when
the checks pass, and from that the command as a whole.
-/
namespace Sys2Proof.Machine

/-! ## The fabric (R332, R338, R339, R555) -/

theorem kFabricConfig_of_valid {h : CmdHdr} {b : State} (ha : stepActive b = false)
    (hhop : field (leAt h.pb 0 4 / 16 * 16) 14 10 ≠ 0) (hrto : 4 ≤ field (leAt h.pb 0 4 / 16 * 16) 9 4)
    (harea : ckptAreaOk b (leAt h.pb 16 4) = true) : kFabricConfig h b = kOk 0 (fabricInstall h.pb b) := by
  simp only [kFabricConfig, ha, hhop, Nat.not_lt.mpr hrto, harea, or_self, Bool.not_true, Bool.false_eq_true, if_false]

theorem kFabricRouteLoad_of_valid {h : CmdHdr} {b : State} (hmax : leAt h.pb 0 2 + leAt h.pb 4 4 ≤ 65536)
    (hlen : 64 + 2 * leAt h.pb 4 4 ≤ h.pb.length) : kFabricRouteLoad h b = kOk 0 (routesInstall h.pb b) :=
  if_neg (not_or.mpr ⟨Nat.not_lt.mpr hmax, Nat.not_lt.mpr hlen⟩)

theorem kFabricQuery_of_fits {h : CmdHdr} {buf : Buf} {b : State} (hm : h.mctp = false) (hf : Fits b buf (fabricRecord b)) :
    kFabricQuery h buf b = kOk (fabricRecord b).length (hostWrite buf.addr.toNat (fabricRecord b) b) :=
  deliver_fits hm hf id _

/-! ## Handles (R352, R353, R355) -/

/-- A number that is no handle's and no queue's, of a valid description, becomes a handle while there is room. -/
theorem kCollSetup_of_valid {h : CmdHdr} {b : State} :
    let hd := leAt h.pb 0 64
    let c := collLists b hd h.pb
    1 ≤ hdHandle hd → hdHandle hd < 0xFFF0 → (stepActive b = true → hdTOff hd = 0xFFFFFFFF) →
    handleOf b (hdHandle hd) = none → queueDesc b (hdHandle hd) = none → collFault b c = none →
    b.fab.handles.length + b.stp.queues.length < 4096 →
    kCollSetup h b = kOk 0 (setHandle (hdHandle hd) (some c) b) := by
  intro hd c hlo hhi hbound hhandle hqueue hfault hroom
  have hnumber : ¬(hdHandle hd = 0 ∨ 0xFFF0 ≤ hdHandle hd) := by omega
  have hstep : ¬(stepActive b = true ∧ hdTOff hd ≠ 0xFFFFFFFF) := fun ⟨ha, hne⟩ => hne (hbound ha)
  have hfree : ¬((handleOf b (hdHandle hd)).isSome || (queueDesc b (hdHandle hd)).isSome) = true := by
    simp [hhandle, hqueue]
  simp only [kCollSetup]
  rw [if_neg hnumber, if_neg hstep, if_neg hfree, hfault]
  exact if_neg (Nat.not_le.mpr hroom)

theorem kCollFree_of_idle {h : CmdHdr} {handle : W16} {c : Handle} {b : State} (hc : handleOf b handle.toNat = some c)
    (hr : c.run = none) : kCollFree h handle b = kOk 0 (setHandle handle.toNat none b) := by
  simp only [kCollFree, hc, hr, Option.isSome_none, Bool.false_eq_true, if_false]

/-- A handle that runs on demand and is idle begins a run, with what came early held for it. -/
theorem kCollRun_of_idle {h : CmdHdr} {handle : W16} {c : Handle} {b : State} (hc : handleOf b handle.toNat = some c)
    (hoff : hdTOff c.header = 0xFFFFFFFF) (hr : c.run = none) :
    kCollRun h handle b = kDefer (setHandle handle.toNat (some { c with
      run := some { Run.begin h.notBefore.toNat (some (replyTo h 0x0505 b)) with held := c.early }
      early := [] }) b) := by
  simp only [kCollRun, hc, hoff, hr, ne_eq, not_true_eq_false, Option.isSome_none, Bool.false_eq_true, if_false]

theorem kCollQuery_of_fits {h : CmdHdr} {handle : W16} {buf : Buf} {c : Handle} {b : State} (hm : h.mctp = false)
    (hc : handleOf b handle.toNat = some c) (hf : Fits b buf (collRecord c)) :
    kCollQuery h handle buf b = kOk (collRecord c).length (hostWrite buf.addr.toNat (collRecord c) b) := by
  rw [kCollQuery, hc]
  exact deliver_fits hm hf id _

/-! ## The obligation -/

/-- Settles O15: a ready command runs its own checks and effect on the state it finds, so each command's effect above is
what is answered; COLL_RUN is accepted and its answer left to the run's completion. -/
theorem fabricCommandsComplete : Obligations.FabricCommandsComplete := by
  unfold Obligations.FabricCommandsComplete
  refine ⟨?config, ?routes, ?setup, ?free, ?run, ?query, ?collQuery⟩
  case config =>
    intro h s hr b cfg ha hhop hrto harea
    exact congrArg Host.Outcome.next (submit_ok hr (kFabricConfig_of_valid ha hhop hrto harea))
  case routes =>
    intro h s hr b hmax hlen
    exact congrArg Host.Outcome.next (submit_ok hr (kFabricRouteLoad_of_valid hmax hlen))
  case setup =>
    intro h s hr b hd c hlo hhi hbound hhandle hqueue hfault hroom
    exact congrArg Host.Outcome.next
      (submit_ok hr (kCollSetup_of_valid hlo hhi hbound hhandle hqueue hfault hroom))
  case free =>
    intro h handle c s hr b hc hidle
    exact congrArg Host.Outcome.next (submit_ok hr (kCollFree_of_idle hc hidle))
  case run =>
    intro h handle c s hr b hc hoff hidle
    exact congrArg Host.Outcome.next (submit_accepted hr rfl (kCollRun_of_idle hc hoff hidle))
  case query =>
    intro h buf s hr b data hf
    exact congrArg Host.Outcome.next (submit_ok hr (kFabricQuery_of_fits hr.1 hf))
  case collQuery =>
    intro h handle buf c s hr b data hc hf
    exact congrArg Host.Outcome.next (submit_ok hr (kCollQuery_of_fits hr.1 hc hf))

end Sys2Proof.Machine
end

