-- ==== Sys2Proof/Proofs/CommandRegisters.lean ====
section
/-!
SUPPORT. Writes of the registers that command the module (chapter 16): which requester and which lock a write needs, what
its field map leaves of the value, and the effect that then follows.
-/
namespace Sys2Proof.Machine

/-! ## Who may write (R465, R351, R437, R520) -/

/-- The qualifier of a register's row admits the requester (R465). -/
def RegDef.admits (d : RegDef) : Requester → Bool
  | .host => !d.cores
  | .core _ => !d.host

/-- What HIF_LOCK makes read-only: the DMA windows and itself (R437). -/
def hifLocks (a : Nat) : Bool := a = hifBase + 0x20 || (decide (hifBase + 0x40 ≤ a) && decide (a < hifBase + 0x100))

/-- What FAB_LOCK makes read-only: the filter, the ceilings and itself (R351). -/
def fabLocks (a : Nat) : Bool :=
  a = fabBase + 0x14 || (decide (fabBase + 0x4000 ≤ a) && decide (a < fabBase + 0xC000))
    || (decide (fabBase + 0xC000 ≤ a) && decide (a < colBase) && decide (a % 0x4000 = 4))

/-- What PWR_LOCK makes read-only: the power limit and itself (R520). -/
def pwrLocks (a : Nat) : Bool := a = pwrBase + 0xC || a = pwrBase + 0x10

/-- A lock that is set makes the register read-only. -/
def lockHolds (s : State) (a : Nat) : Bool :=
  (flag (getReg s (hifBase + 0x20)) 0 && hifLocks a) || (flag (getReg s (fabBase + 0x14)) 0 && fabLocks a)
    || (flag (getReg s (pwrBase + 0x10)) 0 && pwrLocks a)

/-- A write needs its row's qualifier and no lock. -/
theorem mayWrite_eq (s : State) (req : Requester) (d : RegDef) (a : Nat) :
    mayWrite s req d a = (d.admits req && !lockHolds s a) := by
  rw [lockHolds, Bool.not_or, Bool.not_or, ← Bool.and_assoc, ← Bool.and_assoc]
  cases req <;> rfl

theorem lockHolds_of_none {s : State} {a : Nat} (hh : (flag (getReg s (hifBase + 0x20)) 0 && hifLocks a) = false)
    (hf : (flag (getReg s (fabBase + 0x14)) 0 && fabLocks a) = false)
    (hp : (flag (getReg s (pwrBase + 0x10)) 0 && pwrLocks a) = false) : lockHolds s a = false := by
  rw [lockHolds, hh, hf, hp]
  rfl

/-- A register that no lock names is never locked. -/
theorem lockHolds_of_unlockable {a : Nat} (hh : hifLocks a = false) (hf : fabLocks a = false) (hp : pwrLocks a = false)
    (s : State) : lockHolds s a = false :=
  lockHolds_of_none (by rw [hh, Bool.and_false]) (by rw [hf, Bool.and_false]) (by rw [hp, Bool.and_false])

/-! ## What is stored (R466) -/

/-- A register without field rules takes its RW bits. -/
theorem acceptWrite_plain {a : Nat} (hr : fieldRules a = []) (d : RegDef) (old w : Nat) :
    acceptWrite d a old w = (w &&& d.rw, false) := by
  rw [acceptWrite, hr]
  rfl

/-- A register whose one ruled field holds a legal code takes its RW bits. -/
theorem acceptWrite_legal {a hi lo w : Nat} {d : RegDef} {ok : Nat → Bool} (hr : fieldRules a = [(hi, lo, ok)])
    (hok : ok (field (w &&& d.rw) hi lo) = true) (old : Nat) : acceptWrite d a old w = (w &&& d.rw, false) := by
  rw [acceptWrite, hr]
  exact if_pos hok

/-- A mask of the bits from `k` up to `n` clears the bits below `k`. -/
theorem and_highMask {n w : Nat} (hw : w < 2 ^ n) {k : Nat} (hk : k ≤ n) :
    w &&& (2 ^ n - 2 ^ k) = w / 2 ^ k * 2 ^ k := by
  have hmask : 2 ^ n - 2 ^ k = (2 ^ (n - k) - 1) * 2 ^ k := by
    rw [Nat.sub_mul, ← Nat.pow_add, Nat.sub_add_cancel hk, Nat.one_mul]
  refine Nat.eq_of_testBit_eq fun i => ?_
  rw [hmask, Nat.testBit_and, Nat.testBit_mul_two_pow, Nat.testBit_mul_two_pow, Nat.testBit_two_pow_sub_one,
    Nat.testBit_div_two_pow]
  by_cases hki : k ≤ i
  case neg => simp [hki]
  case pos =>
    rw [Nat.sub_add_cancel hki]
    by_cases hin : i < n
    · have : i - k < n - k := by omega
      simp [hki, this]
    · have : w.testBit i = false :=
        Nat.testBit_lt_two_pow (Nat.lt_of_lt_of_le hw (Nat.pow_le_pow_right (by omega) (by omega)))
      simp [this]

/-! ## A write through the page -/

section Page
variable {s : State} {a : Nat} {d : RegDef} (hp : powered s = true) (hd : regAt a = some d) (hc : d.cls = .rw)
include hp hd hc

/-- R465. A write by a requester that the row does not admit is ignored and counted. -/
theorem next_writePage_of_unadmitted {req : Requester} (hq : d.admits req = false) (w : Nat) :
    (.next (writePage req a w s) : Host.Outcome State Fault Refusal) = .next (bump s cWriteIgn) := by
  have hm : mayWrite s req d a = false := by rw [mayWrite_eq, hq, Bool.false_and]
  simp only [writePage, hp, hd, hc, storeRw, hm, Bool.not_true, Bool.not_false, Bool.false_eq_true, if_false, if_true]
  rfl

/-- An admitted write of a register under no lock, whose value is accepted, has the register's effect; one that the
configuration CRC covers marks a running pass. -/
theorem writePage_of_accepted {req : Requester} {w : Nat} (hq : d.admits req = true) (hl : lockHolds s a = false)
    (hv : acceptWrite d a (getReg s a) w = (w &&& d.rw, false)) :
    writePage req a w s = settle a (w &&& d.rw) (if d.crc then touchCfg s else s) := by
  have hm : mayWrite s req d a = true := by rw [mayWrite_eq, hq, hl]; rfl
  simp only [writePage, hp, hd, hc, storeRw, hm, hv, Bool.not_true, Bool.false_eq_true, if_false]

end Page

/-! ## The rows of the registers (Tables 12-11, 15-21, 16-5, 17-12, 17-14 and 18-10) -/

theorem regAt_topSnapCtl : regAt (topBase + 0x40) = some (rwCores (topBase + 0x40) 1 4 1 0x80000FFF 0) := by decide +kernel
theorem regAt_secExtCtl : regAt (secBase + 0x60) = some (rwCores (secBase + 0x60) 1 4 1 0x80000000 0) := by decide +kernel
theorem regAt_cipCfg : regAt cipBase = some { rwCrc cipBase 1 4 1 0xF8000000 0 with cores := true } := by decide +kernel
theorem regAt_cipRqTail : regAt (cipBase + 0xC) = some (rwCores (cipBase + 0xC) 1 4 1 0xFFF 0) := by decide +kernel
theorem regAt_hifJobctl : regAt (hifBase + 4) = some (rwHost (hifBase + 4) 1 4 1 0xC0000000 0) := by decide +kernel
theorem regAt_hifAqCfg : regAt (hifBase + 8) = some (rwHost (hifBase + 8) 1 4 1 0xFFFFFFF8 0) := by decide +kernel
theorem regAt_hifLock : regAt (hifBase + 0x20) = some (rwHost (hifBase + 0x20) 1 4 1 1 0) := by decide +kernel
theorem regAt_fabLock : regAt (fabBase + 0x14) = some (rwHost (fabBase + 0x14) 1 4 1 1 0) := by decide +kernel
theorem regAt_pwrLock : regAt (pwrBase + 0x10) = some (rwHost (pwrBase + 0x10) 1 4 1 1 0) := by decide +kernel

/-! ## Effects -/

/-- R471. A snapshot is taken unless one is busy. -/
theorem snapCtlWrite_go {v : Nat} (hgo : flag v 31 = true) (s : State) :
    snapCtlWrite v s = if s.host.snapBusy then bump s cWriteIgn
      else takeSnap (v % 2 ^ 12) (setReg s (topBase + 0x40) (v % 2 ^ 12)) := if_pos hgo

/-- GO and PAGE of what TOP_SNAP_CTL takes. -/
theorem snapCtl_fields (v : Nat) :
    flag ((2 ^ 31 + v % 2 ^ 31) &&& 0x80000FFF) 31 = true ∧ ((2 ^ 31 + v % 2 ^ 31) &&& 0x80000FFF) % 2 ^ 12 = v % 2 ^ 12 := by
  constructor
  · rw [flag, Nat.testBit_and, Nat.testBit_two_pow_add_eq, Nat.testBit_lt_two_pow (Nat.mod_lt _ (Nat.two_pow_pos 31))]
    decide
  · rw [Nat.and_mod_two_pow, show (0x80000FFF : Nat) % 2 ^ 12 = 2 ^ 12 - 1 from rfl, Nat.and_two_pow_sub_one_eq_mod]
    omega

/-- R496. With GO and no extension under way MR7 is extended. -/
theorem secExtWrite_go {v : Nat} (hgo : flag v 31 = true) (s : State) :
    secExtWrite v s = if s.sec.extBusy then s
      else extendMr7 ((List.range 8).flatMap (fun i => leBytes 4 (getReg s (secBase + 0x40 + 4 * i)))) s := by
  rw [secExtWrite, hgo]
  rfl

/-- R505. EN written 1 sets head and tail to 0. -/
theorem cipCfgWrite_enable {v : Nat} (hen : flag v 31 = true) (s : State) :
    cipCfgWrite v s = setReg (setReg (setReg s cipBase v) (cipBase + 0xC) 0) (cipBase + 0x10) 0 := if_pos hen

/-- R453. ABORTED stays set only where it was set and the write keeps it. -/
theorem settle_hifJobctl (v : Nat) (s : State) : settle (hifBase + 4) v s = setReg s (hifBase + 4)
    (v / 2 ^ 31 * 2 ^ 31 + bit (flag v 30 && flag (getReg s (hifBase + 4)) 30) * 2 ^ 30) := rfl

/-- R351, R437, R520. A lock register that its own lock leaves open takes LOCK. -/
theorem writePage_lock {s : State} {a : Nat} (hd : regAt a = some (rwHost a 1 4 1 1 0)) (hr : fieldRules a = [])
    (hs : ∀ v t, settle a v t = setReg t a v) (hl : lockHolds s a = false) (hp : powered s = true) (w : Nat) :
    writePage .host a w s = setReg s a (w % 2) := by
  rw [writePage_of_accepted hp hd rfl rfl hl (acceptWrite_plain hr _ _ _), hs]
  exact congrArg (setReg s a) (Nat.and_one_is_mod w)

/-! ## The commands -/

section Commands
variable {s : State} (hp : powered s = true)
include hp

theorem execTopSnapGo_core (n : BitVec 3) (value : W32) :
    execTopSnapGo (.core n) value s = .next (
      if s.host.snapBusy then bump s cWriteIgn
      else takeSnap (value.toNat % 2 ^ 12) (setReg s (topBase + 0x40) (value.toNat % 2 ^ 12))) := by
  obtain ⟨hgo, hpage⟩ := snapCtl_fields value.toNat
  have hw := writePage_of_accepted (req := .core n) (w := 2 ^ 31 + value.toNat % 2 ^ 31) hp regAt_topSnapCtl rfl rfl
    (lockHolds_of_unlockable rfl rfl rfl s) (acceptWrite_plain rfl _ _ _)
  have hs := snapCtlWrite_go hgo s
  rw [hpage] at hs
  exact congrArg Host.Outcome.next (hw.trans hs)

theorem execSecExtGo_core (n : BitVec 3) {value : W32} (hgo : flag value.toNat 31 = true) :
    execSecExtGo (.core n) value s = .next (if s.sec.extBusy then s
      else extendMr7 ((List.range 8).flatMap (fun i => leBytes 4 (getReg s (secBase + 0x40 + 4 * i)))) s) := by
  have hv : value.toNat &&& 0x80000000 = value.toNat / 2 ^ 31 * 2 ^ 31 := and_highMask value.isLt (k := 31) (by omega)
  have hw := writePage_of_accepted (req := .core n) (w := value.toNat) hp regAt_secExtCtl rfl rfl
    (lockHolds_of_unlockable rfl rfl rfl s) (acceptWrite_plain rfl _ _ _)
  have hs := secExtWrite_go (v := value.toNat &&& 0x80000000) (by rw [hv, flag_clearLow (by omega), hgo]) s
  exact congrArg Host.Outcome.next (hw.trans hs)

theorem execCipCfgWrite_core (n : BitVec 3) {value : W32} (hen : flag value.toNat 31 = true)
    (hlo : 4 ≤ field value.toNat 30 27) (hhi : field value.toNat 30 27 ≤ 12) :
    execCipCfgWrite (.core n) value s = .next (setReg (setReg (setReg (touchCfg s) cipBase (value.toNat / 2 ^ 27 * 2 ^ 27))
      (cipBase + 0xC) 0) (cipBase + 0x10) 0) := by
  have hv : value.toNat &&& 0xF8000000 = value.toNat / 2 ^ 27 * 2 ^ 27 := and_highMask value.isLt (k := 27) (by omega)
  have hf : field (value.toNat &&& 0xF8000000) 30 27 = field value.toNat 30 27 := by rw [hv, field_clearLow (by omega)]
  have hw := writePage_of_accepted (req := .core n) (w := value.toNat) hp regAt_cipCfg rfl rfl
    (lockHolds_of_unlockable rfl rfl rfl s) (acceptWrite_legal rfl (by simp [rwCrc, hf, hlo, hhi]) _)
  have hs := cipCfgWrite_enable (v := value.toNat &&& 0xF8000000) (by rw [hv, flag_clearLow (by omega), hen]) (touchCfg s)
  exact congrArg Host.Outcome.next (hw.trans (hs.trans (by rw [hv])))

theorem execCipRqTailWrite_core (n : BitVec 3) (value : W32) :
    execCipRqTailWrite (.core n) value s = .next (setReg s (cipBase + 0xC) (value.toNat % 2 ^ 12)) := by
  have hw := writePage_of_accepted (req := .core n) (w := value.toNat) hp regAt_cipRqTail rfl rfl
    (lockHolds_of_unlockable rfl rfl rfl s) (acceptWrite_plain rfl _ _ _)
  exact congrArg Host.Outcome.next <|
    hw.trans (congrArg (setReg s (cipBase + 0xC)) (Nat.and_two_pow_sub_one_eq_mod value.toNat 12))

theorem execHifAqCfgWrite_legal {value : W32} (hlo : 1 ≤ field value.toNat 23 19) (hhi : field value.toNat 23 19 ≤ 16) :
    execHifAqCfgWrite value s = .next (aqCfgWrite (value.toNat / 8 * 8) s) := by
  have hv : value.toNat &&& 0xFFFFFFF8 = value.toNat / 2 ^ 3 * 2 ^ 3 := and_highMask value.isLt (k := 3) (by omega)
  have hf : field (value.toNat &&& 0xFFFFFFF8) 23 19 = field value.toNat 23 19 := by rw [hv, field_clearLow (by omega)]
  have hw := writePage_of_accepted (req := .host) (w := value.toNat) hp regAt_hifAqCfg rfl rfl
    (lockHolds_of_unlockable rfl rfl rfl s) (acceptWrite_legal rfl (by simp [rwHost, rwCrc, hf, hlo, hhi]) _)
  exact congrArg Host.Outcome.next (hw.trans (congrArg (aqCfgWrite · s) hv))

theorem execHifJobctlWrite_host (value : W32) :
    execHifJobctlWrite .host value s = .next (setReg s (hifBase + 4) (value.toNat / 2 ^ 31 * 2 ^ 31
      + bit (flag value.toNat 30 && flag (getReg s (hifBase + 4)) 30) * 2 ^ 30)) := by
  have hv : value.toNat &&& 0xC0000000 = value.toNat / 2 ^ 30 * 2 ^ 30 := and_highMask value.isLt (k := 30) (by omega)
  have hhigh : (value.toNat &&& 0xC0000000) / 2 ^ 31 = value.toNat / 2 ^ 31 := by rw [hv]; omega
  have haborted : flag (value.toNat &&& 0xC0000000) 30 = flag value.toNat 30 := by rw [hv, flag_clearLow (by omega)]
  have hw := writePage_of_accepted (req := .host) (w := value.toNat) hp regAt_hifJobctl rfl rfl
    (lockHolds_of_unlockable rfl rfl rfl s) (acceptWrite_plain rfl _ _ _)
  have hs := settle_hifJobctl (value.toNat &&& 0xC0000000) s
  rw [hhigh, haborted] at hs
  exact congrArg Host.Outcome.next (hw.trans hs)

theorem execHifLockWrite_open (value : W32) (hl : flag (getReg s (hifBase + 0x20)) 0 = false) :
    execHifLockWrite .host value s = .next (setReg s (hifBase + 0x20) (value.toNat % 2)) :=
  congrArg Host.Outcome.next <| writePage_lock regAt_hifLock rfl (fun _ _ => rfl)
    (lockHolds_of_none (by rw [hl, Bool.false_and]) (Bool.and_false _) (Bool.and_false _)) hp _

theorem execFabLockWrite_open (value : W32) (hl : flag (getReg s (fabBase + 0x14)) 0 = false) :
    execFabLockWrite .host value s = .next (setReg s (fabBase + 0x14) (value.toNat % 2)) :=
  congrArg Host.Outcome.next <| writePage_lock regAt_fabLock rfl (fun _ _ => rfl)
    (lockHolds_of_none (Bool.and_false _) (by rw [hl, Bool.false_and]) (Bool.and_false _)) hp _

theorem execPwrLockWrite_open (value : W32) (hl : flag (getReg s (pwrBase + 0x10)) 0 = false) :
    execPwrLockWrite .host value s = .next (setReg s (pwrBase + 0x10) (value.toNat % 2)) :=
  congrArg Host.Outcome.next <| writePage_lock regAt_pwrLock rfl (fun _ _ => rfl)
    (lockHolds_of_none (Bool.and_false _) (Bool.and_false _) (by rw [hl, Bool.false_and])) hp _

end Commands

/-! ## The obligation -/

/-- Settles O28: the row of each register admits the requester named, its field map keeps the bits named, and what the
register does with them follows; a requester that the row does not admit is ignored and counted. -/
theorem commandRegisters : Obligations.CommandRegisters := by
  unfold Obligations.CommandRegisters
  refine ⟨?snap, ?snapBusy, ?snapDone, ?secExt, ?cipCfg, ?cipTail, ?aqCfg, ?jobctl, ?hifLock, ?fabLock, ?pwrLock,
    ?unadmitted⟩
  case snap =>
    intro n value s hp hb
    exact (execTopSnapGo_core hp n value).trans (congrArg Host.Outcome.next (if_neg (Bool.eq_false_iff.mp hb)))
  case snapBusy =>
    intro n value s hp hb
    exact (execTopSnapGo_core hp n value).trans (congrArg Host.Outcome.next (if_pos hb))
  case snapDone => exact fun s hb => congrArg Host.Outcome.next (if_pos hb)
  case secExt => exact fun value s hp hgo => execSecExtGo_core hp 0 hgo
  case cipCfg => exact fun n value s hp hen hlo hhi => execCipCfgWrite_core hp n hen hlo hhi
  case cipTail => exact fun n value s hp => execCipRqTailWrite_core hp n value
  case aqCfg => exact fun value s hp hlo hhi => execHifAqCfgWrite_legal hp hlo hhi
  case jobctl => exact fun value s hp => execHifJobctlWrite_host hp value
  case hifLock => exact fun value s hp hl => execHifLockWrite_open hp value hl
  case fabLock => exact fun value s hp hl => execFabLockWrite_open hp value hl
  case pwrLock => exact fun value s hp hl => execPwrLockWrite_open hp value hl
  case unadmitted =>
    intro n value s hp
    exact ⟨next_writePage_of_unadmitted hp regAt_hifJobctl rfl rfl _, next_writePage_of_unadmitted hp regAt_hifLock rfl rfl _,
      next_writePage_of_unadmitted hp regAt_fabLock rfl rfl _, next_writePage_of_unadmitted hp regAt_pwrLock rfl rfl _,
      next_writePage_of_unadmitted hp regAt_topSnapCtl rfl rfl _, next_writePage_of_unadmitted hp regAt_secExtCtl rfl rfl _,
      next_writePage_of_unadmitted hp regAt_cipCfg rfl rfl _, next_writePage_of_unadmitted hp regAt_cipRqTail rfl rfl _⟩

end Sys2Proof.Machine
end

