-- ==== Sys2Proof/Proofs/PortEvents.lean ====
section
/-!
SUPPORT. What happens at the ports and flows of the fabric without a command of the host (chapter 12, R334 and R344 to
R348): the branch that each event takes under its guards.
-/
namespace Sys2Proof.Machine

/-! ## Pauses (R348) -/

section Pause
variable {port : BitVec 4} {s : State}

theorem execPauseFrameReceive_honoured (enable : Byte) (times : List W16) :
    let p := port.toNat
    portMode s p = 2 → inService s p = true →
    execPauseFrameReceive port enable times s = .next (
      let t := bump s (cFab p 0x150)
      let o := portOf t p
      let on := enable.toNat &&& field (portCfg t p) 15 8
      let m := (maskBits 8 on).foldl (fun m q =>
        if (times.getD q 0).toNat = 0 then m &&& (255 ^^^ 2 ^ q) else m ||| 2 ^ q) o.paused
      pumpPort p (setPort t p { o with
        paused := m
        pause := (maskBits 8 (on &&& m)).foldl (fun l q => sput (0, 0) l q
          (if o.paused.testBit q then (sget (0, 0) o.pause q).1 else nsOf t, nsOf t + pauseNs t p (times.getD q 0).toNat))
          o.pause })) := by
  intro p hmode hserv
  exact congrArg Host.Outcome.next (if_neg (by simp [p, hmode, hserv]))

variable {prio : BitVec 3} (hpaused : (portOf s port.toNat).paused.testBit prio.toNat = true)
include hpaused

theorem execPauseTimeExpiry_over (hend : (sget (0, 0) (portOf s port.toNat).pause prio.toNat).2 ≤ nsOf s) :
    execPauseTimeExpiry port prio s = .next (pumpPort port.toNat (setPort s port.toNat { portOf s port.toNat with
      paused := (portOf s port.toNat).paused ^^^ 2 ^ prio.toNat })) :=
  congrArg Host.Outcome.next (if_neg (by simp [hpaused, hend]))

/-- A priority paused for longer than the watchdog allows takes its port down. -/
theorem execPauseWatchdogExpiry_fault (hserv : inService s port.toNat = true)
    (hwd : field (portCfg s port.toNat) 7 0 ≠ 0)
    (hlong : (sget (0, 0) (portOf s port.toNat).pause prio.toNat).1 + field (portCfg s port.toNat) 7 0 * 50000 ≤ nsOf s) :
    execPauseWatchdogExpiry port prio s = .next (excludeAllUnreachable
      (stayDown port.toNat (portDown port.toNat 5 (bump s (cFab port.toNat 0x158))))) :=
  congrArg Host.Outcome.next (if_neg (by simp [hpaused, hserv, hwd, hlong]))

end Pause

/-! ## Lanes and training (R334, R347) -/

section Lanes
variable {port : BitVec 4} {s : State}

/-- The port is a native one at full width that may run on half of its lanes. -/
def mayHalve (s : State) (p : Nat) : Prop :=
  (portOf s p).state = 2 ∧ portNative s p = true ∧ flag (portCfg s p) 29 = true

theorem mayHalve_iff (s : State) (p : Nat) :
    ((portOf s p).state = 2 && portNative s p && flag (portCfg s p) 29) = true ↔ mayHalve s p := by
  simp only [mayHalve, Bool.and_eq_true, decide_eq_true_eq, and_assoc]

/-- The half of the lanes without the failed one trains again. -/
theorem execLaneFail_halved {lane : BitVec 2} (hserv : inService s port.toNat = true)
    (hlane : (portOf s port.toNat).lanes.testBit lane.toNat = true) (hhalf : mayHalve s port.toNat) :
    execLaneFail port lane s = .next (
      let t := portDown port.toNat 1 (bump s (cFab port.toNat 0x168))
      excludeAllUnreachable (setPort t port.toNat { portOf t port.toNat with
        lanes := if lane.toNat < 2 then 12 else 3 })) := by
  have hlanes : ¬(!inService s port.toNat || !(portOf s port.toNat).lanes.testBit lane.toNat) = true := by
    simp [hserv, hlane]
  refine congrArg Host.Outcome.next ((if_neg hlanes).trans (congrArg excludeAllUnreachable ?_))
  exact if_pos ((mayHalve_iff s port.toNat).mpr hhalf)

/-- Any other port stays down. -/
theorem execLaneFail_down {lane : BitVec 2} (hserv : inService s port.toNat = true)
    (hlane : (portOf s port.toNat).lanes.testBit lane.toNat = true) (hhalf : ¬mayHalve s port.toNat) :
    execLaneFail port lane s = .next (
      let t := stayDown port.toNat (portDown port.toNat 0 (bump s (cFab port.toNat 0x168)))
      excludeAllUnreachable (setPort t port.toNat { portOf t port.toNat with lanes := 0 })) := by
  have hlanes : ¬(!inService s port.toNat || !(portOf s port.toNat).lanes.testBit lane.toNat) = true := by
    simp [hserv, hlane]
  refine congrArg Host.Outcome.next ((if_neg hlanes).trans (congrArg excludeAllUnreachable ?_))
  exact if_neg (mt (mayHalve_iff s port.toNat).mp hhalf)

/-- Four lanes that a port out of service may train: the port has main power, a mode, no critical heat and no fault, and
no lane fault has left it two lanes. -/
def mayTrain (s : State) (p : Nat) : Prop :=
  p < 12 ∧ portMode s p ≠ 0 ∧ s.pwr.stage = 5 ∧ (sget (0, 0) s.pwr.temps (9 + p)).2 ≠ 3 ∧ inService s p = false ∧
    (portOf s p).dead = false ∧ ((portOf s p).lanes = 0 ∨ (portOf s p).lanes = 15)

/-- Training on four lanes waits for the credits of a direct port's far end, and else puts the port in service. -/
theorem execPortTrainingComplete_full (hmay : mayTrain s port.toNat) (credits : Bool) (peer : W16) :
    let p := port.toNat
    let m := portMode s p
    execPortTrainingComplete port 15 credits peer s = .next (
      if m = 1 && !credits then setPort s p { portOf s p with state := 1, lanes := 15, since := nsOf s }
      else setPath p TimePath.init (forgivePort p (setPort s p { portOf s p with
        state := 2, lanes := 15, native := decide (m = 1), peer := if m = 1 then peer.toNat else 0xFFFF
        used := 0, owed := 0, capped := false }))) := by
  -- four lanes are no half of a port, so it trains as a whole
  obtain ⟨hp, hmode, hstage, htemp, hserv, hdead, hlanes⟩ := hmay
  simp only [execPortTrainingComplete]
  rw [if_neg (by obtain hl | hl := hlanes <;> simp [hmode, hstage, htemp, hserv, hdead, hl, Nat.not_le.mpr hp])]
  simp

theorem execLinkCreditTimeout_stays (hmode : portMode s port.toNat = 1) (hnative : (portOf s port.toNat).native = false)
    (hstate : (portOf s port.toNat).state = 1) (hlanes : (portOf s port.toNat).lanes ≠ 0)
    (hlong : (portOf s port.toNat).since + 1000000 ≤ nsOf s) :
    execLinkCreditTimeout port s = .next (bump
      (stayDown port.toNat (setPort s port.toNat { portOf s port.toNat with state := 0 })) (cFab port.toNat 0x170)) :=
  congrArg Host.Outcome.next (if_neg (by simp [hmode, hnative, hstate, hlanes, hlong]))

end Lanes

/-! ## Flows (R344, R345) -/

section Flows
variable {dst : W16} {prio : BitVec 3} {f : TxFlow} {s : State}

/-- The oldest frame has waited RTO µs: the frames go out again, on another port after two timeouts in a row, and after 16
the destination is unreachable. -/
theorem execRetransmitTimeout_due {u : Nat × Nat × List Byte} (hf : txFlow s dst.toNat prio.toNat = some f)
    (hu : f.unacked.head? = some u) (hlong : f.at' + field (getReg s fabBase) 9 4 * 1000 ≤ nsOf s) :
    let d := dst.toNat
    let q := prio.toNat
    let g := { f with touts := f.touts + 1, allTouts := f.allTouts + 1 }
    let t := setTx (bump s (cFab f.port 0x148)) d q (some g)
    execRetransmitTimeout dst prio s = .next (excludeAllUnreachable (
      if 16 ≤ g.allTouts then makeUnreachable d t
      else if 2 ≤ g.touts then repinFlow d q (setTx t d q (some { g with bad := g.bad ++ [g.port] }))
      else resendFrom d q u.1 t)) := by
  intro d q g t
  simp only [execRetransmitTimeout, hf]
  split
  next hnil => simp [hnil] at hu
  next v vs hcons =>
    obtain rfl : v = u := by simpa [hcons] using hu
    exact congrArg Host.Outcome.next (if_neg (Nat.not_lt.mpr hlong))

/-- A flow idle for 1 ms is closed at its far end, and goes at once unless it carried the frame that closes it. -/
theorem execFlowIdleTimeout_idle (hf : txFlow s dst.toNat prio.toNat = some f) (hidle : f.unacked = [])
    (hlong : f.at' + 1000000 ≤ nsOf s) :
    execFlowIdleTimeout dst prio s = .next (
      let t := sendCtrl dst.toNat 0 4 0 [BitVec.ofNat 8 prio.toNat] s
      if prio.toNat = 7 then
        ((txFlow t dst.toNat 7).map fun g => setTx t dst.toNat 7 (some { g with closing := true })).getD t
      else setTx t dst.toNat prio.toNat none) := by
  simp only [execFlowIdleTimeout, hf, hidle, Nat.not_lt.mpr hlong, List.isEmpty_nil, Bool.not_true, decide_false,
    Bool.or_self, Bool.false_eq_true, if_false]
  cases txFlow (sendCtrl dst.toNat 0 4 0 [BitVec.ofNat 8 prio.toNat] s) dst.toNat 7 <;> rfl

theorem execAckTimer_owed {src : W16} {r : RxFlow} (hr : rxFlow s src.toNat prio.toNat = some r) (hn : r.unackd ≠ 0) :
    execAckTimer src prio s = .next (sendAck src.toNat prio.toNat r.expect
      (setRx s src.toNat prio.toNat (some { r with unackd := 0 }))) := by
  simp only [execAckTimer, hr, hn, if_false]

end Flows

/-! ## Probes (R345) -/

section Probe
variable {dst : W16} {s : State}

/-- The state in which a probe of `d` goes out: the next one is due 1 ms later. -/
def probing (d : Nat) (s : State) : State :=
  { s with fab := { s.fab with probe := sput 0 s.fab.probe d (nsOf s + 1000000) } }

variable (hun : s.fab.unreach.contains dst.toNat = true) (hfilter : withheld s dst.toNat = false)
  (hdue : sget 0 s.fab.probe dst.toNat ≤ nsOf s)
include hun hfilter hdue

/-- Without a control flow to the destination a new frame goes out, where some port leads there. -/
theorem execUnreachableProbe_new (hnone : (txFlow (probing dst.toNat s) dst.toNat 7).map TxFlow.unacked = none)
    (hpin : (pinPort (probing dst.toNat s) dst.toNat 7 []).isSome = true) :
    execUnreachableProbe dst s = .next (sendFlow
      { kind := 7, prio := 7, last := false, dst := dst.toNat, handle := 0, addr := 0, seq := 0, fmt := 0, idx := 0 } 0
      [4, 0, 0, 0] (probing dst.toNat s)).2 := by
  rw [probing] at hnone hpin ⊢
  have hport := Option.isNone_eq_false_iff.mpr hpin
  simp only [execUnreachableProbe, hun, hfilter, Nat.not_lt.mpr hdue, hnone, hport, Bool.not_true, decide_false,
    Bool.or_self, Bool.false_eq_true, if_false]

/-- A control frame that still waits for its acknowledgement is sent again. -/
theorem execUnreachableProbe_again {f : TxFlow} {u : Nat × Nat × List Byte} {us : List (Nat × Nat × List Byte)}
    (hf : txFlow (probing dst.toNat s) dst.toNat 7 = some f) (hus : f.unacked = u :: us) :
    execUnreachableProbe dst s = .next (resendFrom dst.toNat 7 u.1 (probing dst.toNat s)) := by
  rw [probing] at hf ⊢
  simp only [execUnreachableProbe, hun, hfilter, Nat.not_lt.mpr hdue, hf, hus, Option.map_some, Bool.not_true,
    decide_false, Bool.or_self, Bool.false_eq_true, if_false]

end Probe

/-! ## The obligation -/

/-- Settles O48: under the guards of each event its command takes the branch stated above. -/
theorem portEvents : Obligations.PortEvents := by
  unfold Obligations.PortEvents
  refine ⟨?pause, ?pauseOver, ?watchdog, ?lane, ?training, ?credits, ?retransmit, ?idle, ?ack, ?probe⟩
  case pause => exact fun port enable times s hmode hserv => execPauseFrameReceive_honoured enable times hmode hserv
  case pauseOver => exact fun port prio s hpaused hend => execPauseTimeExpiry_over hpaused hend
  case watchdog =>
    exact fun port prio s hpaused hserv hwd hlong => execPauseWatchdogExpiry_fault hpaused hserv hwd hlong
  case lane =>
    intro port lane s p half hserv hlane
    exact ⟨execLaneFail_halved hserv hlane, execLaneFail_down hserv hlane⟩
  case training =>
    intro port credits peer s p m hp hmode hstage htemp hserv hdead hlanes
    have hfull := execPortTrainingComplete_full ⟨hp, hmode, hstage, htemp, hserv, hdead, hlanes⟩ credits peer
    constructor
    · intro hcredits
      have hgo : ¬(m = 1 && !credits) = true := by
        simpa using hcredits
      exact hfull.trans (congrArg Host.Outcome.next (if_neg hgo))
    · intro hm hcredits
      have hwait : (m = 1 && !credits) = true := by simp [hm, hcredits]
      exact hfull.trans (congrArg Host.Outcome.next (if_pos hwait))
  case credits =>
    exact fun port s hmode hnative hstate hlanes hlong =>
      execLinkCreditTimeout_stays hmode hnative hstate hlanes hlong
  case retransmit => exact fun dst prio f u s hf hu hlong => execRetransmitTimeout_due hf hu hlong
  case idle =>
    intro dst prio f s hf hidle hlong t
    have hclose := execFlowIdleTimeout_idle hf hidle hlong
    constructor
    · exact fun hq => hclose.trans (congrArg Host.Outcome.next (if_neg hq))
    · intro g hq hg
      have hflow : ((txFlow t dst.toNat 7).map fun g => setTx t dst.toNat 7 (some { g with closing := true })).getD t =
          setTx t dst.toNat 7 (some { g with closing := true }) := by rw [hg]; rfl
      exact hclose.trans (congrArg Host.Outcome.next ((if_pos hq).trans hflow))
  case ack => exact fun src prio r s hr hn => execAckTimer_owed hr hn
  case probe =>
    intro dst s d t hun hfilter hdue
    exact ⟨execUnreachableProbe_new hun hfilter hdue, fun f u us => execUnreachableProbe_again hun hfilter hdue⟩

end Sys2Proof.Machine
end

