-- ==== Sys2Proof/Proofs/CollectiveEvents.lean ====
section
/-!
SUPPORT. What a run of a collective does at its instants (chapter 12, R355 to R366): it starts, its part and its result
become complete, a member does not come, and a small collective waits no longer.
-/
namespace Sys2Proof.Machine

/-! ## A run of a handle -/

section Run
variable {handle : W16} {h : Handle} {r : Run} {s : State}

/-- The state in which the run `r` of a handle has started. -/
def runStarted (n : Nat) (r : Run) (s : State) : State :=
  setRun n (some { r with started := true, at' := nsOf s, held := [] }) s

/-- A hot module tells the other members that it is slow (R361). -/
def tellSlow (n : Nat) (h : Handle) (t : State) : State :=
  if slowMark t then (handleMembers t h).foldl (fun u fid =>
    if fid = ownFid u then u else sendCtrl fid n 2 (ownIndex t h) [] u) t
  else t

/-- R355, R361, R302. At its instant a fenced module withdraws from the run; any other says whether it is slow and sends
what waited, and then the routed rows. -/
theorem execCollectiveStart_due (routed : List (W16 × List Byte)) (hh : handleOf s handle.toNat = some h)
    (hr : h.run = some r) (hnew : r.started = false) (hat : r.at' ≤ nsOf s) :
    let n := handle.toNat
    let t := runStarted n r s
    execCollectiveStart ⟨handle, routed⟩ s = .next (
      if t.pwr.fenced then withdrawRun n h t
      else routeRows n h routed
        (r.held.foldl (fun u c => sendPieces n h (c.2.1.length + 1) c.1 c.2.1 c.2.2 u) (tellSlow n h t))) := by
  simp only [execCollectiveStart, hh, hr, hnew, Nat.not_lt.mpr hat, decide_false, Bool.or_self, Bool.false_eq_true,
    if_false]
  rfl

/-- R357. The owner of a part that waits for nobody has completed it, and sends it to every member of an all-reduce. -/
theorem execPartComplete_owned :
    let n := handle.toNat
    let t := excludeAllUnreachable s
    handleOf t n = some h → h.run = some r → r.own = false → r.started = true → ownIndex t h ≠ 0xFFFF →
    waitsFor t h r = [] →
    execPartComplete handle s = .next (
      let u := setRun n (some { r with own := true, got := r.got ++ [ownIndex t h] }) t
      if hdOp h.header = 3 then
        (handleMembers u h).foldl (fun s fid => if fid = ownFid s then s else sendResults n h fid s) u
      else u) := by
  intro n t hh hr hown hstarted hme hwait
  simp only [n, t] at hh hme hwait ⊢
  simp only [execPartComplete, hh, hr, hown, hstarted, hme, hwait, List.isEmpty_nil, Bool.not_true, decide_false,
    Bool.or_self, Bool.false_eq_true, if_false]

/-- A run that a COLL_RUN began is answered with the number of members that entered. -/
def answerRun (reply : Option ReplyTo) (entered : Nat) (t : State) : State :=
  match reply with
  | some w => postReply w true 0 entered t
  | none => t

/-- R355, R358. A complete run gives its completion token, keeps its lanes and answers a COLL_RUN. -/
theorem execCollectiveComplete_finished :
    let n := handle.toNat
    let t := excludeAllUnreachable s
    n ≠ 0xFFF3 → handleOf t n = some h → h.run = some r → r.started = true → resultComplete t h r = true →
    execCollectiveComplete handle s = .next (
      let ms := handleMembers t h
      let fids (l : List Nat) : List Nat := l.map (fun i => ms.getD i 0xFFFF)
      let entered := (List.range ms.length).filter (fun i => !r.excluded.contains i)
      let received := if hdOp h.header = 4 then (List.range ms.length).foldl (fun u i =>
          writeTo .lintel 8 (hdLocal h.header + ms.length * hdCap h.header + 4 * i) (leBytes 4 (sget 0 r.rcvd i)) u) t
        else t
      let u := setHandle n (some { h with
        run := none, lane := entered.foldl (fun a i => a + 2 ^ i) 0
        excl := fids r.excluded, slow := fids r.slow, mism := fids r.plumb }) received
      let v := sendToken (hdDoneEp h.header) (hdDoneSlot h.header) 0 0x6C (genOf u) 1 (bump u (cCol 0x100))
      answerRun r.reply entered.length v) := by
  intro n t hn hh hr hstarted hdone
  simp only [n, t] at hn hh hdone ⊢
  simp only [execCollectiveComplete, hn, hh, hr, hstarted, hdone, Bool.not_true, Bool.or_self, Bool.false_eq_true,
    if_false]
  rfl

/-- R359, R361. A member whose LAST the owner lacks after WAIT_MAX, or four times that for a slow one, is excluded. -/
theorem execWaitMaxExpiry_excludes {member : W16} (hh : handleOf s handle.toNat = some h) (hr : h.run = some r)
    (hmax : hdWaitMax h.header ≠ 0) (hown : r.own = false) (hstarted : r.started = true)
    (hlast : r.last.contains member.toNat = false)
    (hlong : r.at' + hdWaitMax h.header * 10000 * (if r.slow.contains member.toNat then 4 else 1) ≤ nsOf s)
    (hmem : member.toNat < (handleMembers s h).length) :
    execWaitMaxExpiry handle member s = .next (excludeMember handle.toNat member.toNat 1 s) := by
  simp only [execWaitMaxExpiry, hh, hr, hmax, hown, hstarted, hlast, Nat.not_lt.mpr hlong, Nat.not_le.mpr hmem,
    decide_false, Bool.not_true, Bool.or_self, Bool.false_eq_true, if_false]

end Run

/-- R395. Over handle 0xFFF3 every member has confirmed, and the re-base flag is raised. -/
theorem execCollectiveComplete_rebase {s : State} (hs : s.npx.staged ≠ []) :
    execCollectiveComplete 0xFFF3 s = .next { s with npx := { s.npx with flagged := true } } :=
  congrArg Host.Outcome.next (if_neg (mt List.isEmpty_iff.mp hs))

/-! ## Small collectives (R362, R363) -/

section Small
variable {handle : BitVec 2} {s : State} (hle : handle.toNat ≤ 2) (hrun : smallRuns s handle.toNat = true)
include hle hrun

/-- The coordinator of the attempt excludes the members missing after W, but those out of the commit already, and
publishes. -/
theorem execSmallCollWaitExpiry_publishes (missing : List W16) (hown : s.stp.own_ = sget 0 s.fab.attempt handle.toNat)
    (hw : smallWaited s handle.toNat 1 = true) :
    let n := handle.toNat
    execSmallCollWaitExpiry handle missing s = .next (emit (.collective (0xFFF0 + n) [])
      ((missing.map BitVec.toNat).eraseDups.foldl (fun t i =>
        if i = t.stp.own_ ∨ t.stp.members.length ≤ i ∨ n = 1 ∧ t.stp.absent.contains i then t
        else colEvent 1 (0xFFF0 + n) (t.stp.members.getD i 0xFFFF) (bump t (cCol 0x108))) s)) := by
  simp only [execSmallCollWaitExpiry, hrun, hown, hw, Nat.not_lt.mpr hle, decide_false, Bool.not_true, ne_eq,
    not_true_eq_false, Bool.or_self, Bool.false_eq_true, if_false, Bool.or_eq_true, Bool.and_eq_true, decide_eq_true_eq,
    or_assoc]

/-- Without a result after 2 × W, and with no further attempt, the check ends aborted and the commit is left. -/
theorem execCoordinatorTakeover_ends (hw : smallWaited s handle.toNat 2 = true)
    (hlast : min 3 (s.stp.members.length - 1) ≤ sget 0 s.fab.attempt handle.toNat) :
    execCoordinatorTakeover handle s =
      .next (if handle.toNat = 0 then endStep 6 s else if handle.toNat = 1 then endStep 7 s else s) := by
  simp only [execCoordinatorTakeover, hrun, hw, Nat.not_lt.mpr hle, hlast, decide_false, Bool.not_true, Bool.or_self,
    Bool.false_eq_true, if_false, if_true]
  obtain hn | hn | hn : handle.toNat = 0 ∨ handle.toNat = 1 ∨ handle.toNat = 2 := by omega
  all_goals rw [hn]; rfl

/-- The state in which the module turns to the next attempt. -/
def nextAttempt (n : Nat) (s : State) : State :=
  let k := sget 0 s.fab.attempt n
  colEvent 6 (0xFFF0 + n) (s.stp.members.getD (k + 1) 0xFFFF) (bump { s with fab := { s.fab with
    attempt := sput 0 s.fab.attempt n (k + 1), since := sput 0 s.fab.since n (nsOf s) } } (cCol 0x138))

/-- Otherwise the module gives its own word to the coordinator of the next attempt, and as that coordinator of the commit
leaves out the members that the check lacked. -/
theorem execCoordinatorTakeover_next (hw : smallWaited s handle.toNat 2 = true)
    (hmore : sget 0 s.fab.attempt handle.toNat < min 3 (s.stp.members.length - 1)) :
    let n := handle.toNat
    let t := nextAttempt n s
    execCoordinatorTakeover handle s = .next (emit (.collective (0xFFF0 + n)
        (if n = 0 then (t.stp.own.map checkBytes).getD [] else if n = 1 then commitBytes t else []))
      (if n = 1 ∧ t.stp.own_ = sget 0 s.fab.attempt n + 1 then excludeAbsent t else t)) := by
  simp only [execCoordinatorTakeover, hrun, hw, Nat.not_lt.mpr hle, Nat.not_le.mpr hmore, decide_false, Bool.not_true,
    Bool.or_self, Bool.false_eq_true, if_false]
  obtain hn | hn | hn : handle.toNat = 0 ∨ handle.toNat = 1 ∨ handle.toNat = 2 := by omega
  all_goals rw [hn]; rfl

end Small

/-! ## The obligation -/

/-- Settles O49: under the guards of each event its command takes the branch stated above. -/
theorem collectiveEvents : Obligations.CollectiveEvents := by
  unfold Obligations.CollectiveEvents
  refine ⟨?start, ?part, ?complete, ?rebase, ?wait, ?smallWait, ?takeover⟩
  case start =>
    intro handle routed h r s n t hh hr hnew hat
    have hstart := execCollectiveStart_due routed hh hr hnew hat
    exact ⟨fun hf => hstart.trans (congrArg Host.Outcome.next (if_pos hf)),
      fun hf => hstart.trans (congrArg Host.Outcome.next (if_neg (Bool.eq_false_iff.mp hf)))⟩
  case part =>
    exact fun handle h r s hh hr hown hstarted hme hwait => execPartComplete_owned hh hr hown hstarted hme hwait
  case complete =>
    exact fun handle h r s hn hh hr hstarted hdone => execCollectiveComplete_finished hn hh hr hstarted hdone
  case rebase => exact fun s hs => execCollectiveComplete_rebase hs
  case wait =>
    exact fun handle member h r s hh hr hmax hown hstarted hlast hlong hmem =>
      execWaitMaxExpiry_excludes hh hr hmax hown hstarted hlast hlong hmem
  case smallWait =>
    exact fun handle missing s hle hrun hown hw => execSmallCollWaitExpiry_publishes hle hrun missing hown hw
  case takeover =>
    intro handle s n k hle hrun hw
    exact ⟨execCoordinatorTakeover_ends hle hrun hw, execCoordinatorTakeover_next hle hrun hw⟩

end Sys2Proof.Machine
end

