-- ==== Sys2Proof/Proofs/ExchangeCommands.lean ====
section
/-!
SUPPORT. The commands of the exchange (Table 15-13): what each one's own checks and effect answer when the checks pass,
and from that the command as a whole.
-/
namespace Sys2Proof.Machine

/-! ## Configuration (R376, R390, R399) -/

theorem kExchConfig_of_valid {h : CmdHdr} {b : State} (ha : stepActive b = false) (hok : exchBad h.pb = none) :
    kExchConfig h b = kOk 0 (exchInstall h.pb b) := by
  simp only [kExchConfig, ha, hok, Bool.false_eq_true, if_false]

/-- A partner list that is not locked and has all its entries replaces the one before (R376). -/
theorem kExchPartners_of_valid {h : CmdHdr} {b : State} (hlock : flag (getReg b (fabBase + 0x14)) 0 = false)
    (ha : stepActive b = false) (hmax : leAt h.pb 0 4 ≤ 4096) (hlen : 64 + 32 * leAt h.pb 0 4 ≤ h.pb.length) :
    kExchPartners h b = kOk 0 (setNpx (fun x => { x with partners := (List.range (leAt h.pb 0 4)).map (fun i =>
      let e := slice h.pb (64 + 32 * i) 32
      { site := leAt e 0 1 % 64, replica := leAt e 2 2, fid := leAt e 4 2, addr := beAt e 16 16 }) }) b) := by
  simp only [kExchPartners, hlock, ha, Nat.not_lt.mpr hmax, Nat.not_lt.mpr hlen, or_self, Bool.false_eq_true, if_false]

theorem kExchWeights_of_valid {h : CmdHdr} {b : State} (ha : stepActive b = false) (hlo : 1 ≤ leAt h.pb 0 1)
    (hhi : leAt h.pb 0 1 ≤ 16) :
    kExchWeights h b = kOk 0 (setNpx (fun x => { x with
      weights := (List.range (leAt h.pb 0 1)).map (fun i => leAt h.pb (64 + 4 * i) 4) }) b) := by
  simp only [kExchWeights, ha, Nat.ne_of_gt hlo, Nat.not_lt.mpr hhi, or_self, Bool.false_eq_true, if_false]

/-! ## Joining, and what the exchange is asked for (R403, R404) -/

/-- A configured module that does not join already begins to join; the answer is left to the base's application. -/
theorem kExchJoin_of_idle {h : CmdHdr} {b : State} (hcfg : b.npx.configured = true) (hidle : b.npx.state ≠ 4) :
    kExchJoin h b = kDefer (joinBegun (replyTo h 0x0604 b) b) := by
  simp only [kExchJoin, hcfg, hidle, Bool.not_true, Bool.false_eq_true, if_false]

theorem kExchQuery_of_fits {h : CmdHdr} {buf : Buf} {b : State} (hm : h.mctp = false) (hf : Fits b buf (exchRecord b)) :
    kExchQuery h buf b = kOk (exchRecord b).length (hostWrite buf.addr.toNat (exchRecord b) b) :=
  deliver_fits hm hf id _

theorem kExchFetch_of_configured {h : CmdHdr} {b : State} (hcfg : b.npx.configured = true) :
    kExchFetch h b = kOk 0 (fullFetch b) := by
  simp only [kExchFetch, hcfg, Bool.not_true, Bool.false_eq_true, if_false]

/-! ## The obligation -/

/-- Settles O16: a ready command runs its own checks and effect on the state it finds, so each command's effect above is
what is answered; EXCH_JOIN is accepted and its answer left to the application of the base. -/
theorem exchangeCommandsComplete : Obligations.ExchangeCommandsComplete := by
  unfold Obligations.ExchangeCommandsComplete
  refine ⟨?config, ?partners, ?weights, ?join, ?query, ?fetch⟩
  case config =>
    intro h s hr b ha hok
    exact congrArg Host.Outcome.next (submit_ok hr (kExchConfig_of_valid ha hok))
  case partners =>
    intro h s hr b n hlock ha hmax hlen
    exact congrArg Host.Outcome.next (submit_ok hr (kExchPartners_of_valid hlock ha hmax hlen))
  case weights =>
    intro h s hr b n ha hlo hhi
    exact congrArg Host.Outcome.next (submit_ok hr (kExchWeights_of_valid ha hlo hhi))
  case join =>
    intro h s hr b hcfg hidle
    exact congrArg Host.Outcome.next (submit_accepted hr rfl (kExchJoin_of_idle hcfg hidle))
  case query =>
    intro h buf s hr b data hf
    exact congrArg Host.Outcome.next (submit_ok hr (kExchQuery_of_fits hr.1 hf))
  case fetch =>
    intro h s hr b hcfg
    exact congrArg Host.Outcome.next (submit_ok hr (kExchFetch_of_configured hcfg))

end Sys2Proof.Machine
end

