-- ==== Sys2Proof/Proofs/ExchangePackets.lean ====
section
/-!
SUPPORT. The packets of the exchange (R376, R381, R382): what a packet whose tag opens does, by the type in its header,
and a control message by its code (Table 13-4).
-/
namespace Sys2Proof.Machine

/-! ## A packet whose tag opens -/

/-- What an opened packet of header `h` and body `b` from the partner `d` at address `src` does, once it is counted: a
control message, a time message, or a fragment of an object. -/
def openedEffect (src : Nat) (d : Partner) (h : Nat) (b : List Byte) (t : State) : State :=
  if ehType h = 5 then rxControl d (ehSrcSite h) b t
  else if ehType h = 6 then
    ((timePathFrom t src).map fun q =>
      timeMessage true q b (fun r s => sendPacket 6 16 (timePartner s q) (wNow s) 0 0 1 0 r s) t).getD t
  else if t.npx.configured then rxFragment h b t else t

/-- The checks of R376, R381 and R382 let an opened packet through, and it is counted. -/
theorem receivePacket_opened {p src : Nat} {udp : List Byte} {d : Partner} {b : List Byte} {s : State}
    (ho : Opened p src udp d b s) :
    receivePacket p src udp s = openedEffect src d (beAt udp 0 32) b (bump s (cNpx 0x108)) := by
  obtain ⟨hport, hmode, hserv, hfind, hlo, hhi, hlen, ⟨key, hkey, hgcm⟩, hversion, hjob, hdst⟩ := ho
  have htype : ¬(ehType (beAt udp 0 32) = 0 ∨ 6 < ehType (beAt udp 0 32)) := by omega
  simp only [receivePacket, hmode, hserv, hfind, htype, hlen, hkey, hgcm, hversion, hjob, hdst, Option.isNone_some,
    Option.getD_some, ge_iff_le, Nat.not_le.mpr hport, ne_eq, not_true_eq_false, decide_false, Bool.not_true,
    Bool.or_self, or_self, Bool.false_eq_true, if_false]
  unfold openedEffect
  split
  next h5 => rw [if_pos h5]
  next h6 =>
    rw [if_neg (by omega), if_pos h6]
    cases timePathFrom (bump s (cNpx 0x108)) src <;> rfl
  next h5 h6 => rw [if_neg h5, if_neg h6]

/-! ## The effect by the packet's type -/

section Effect
variable {src : Nat} {d : Partner} {h : Nat} {b : List Byte} {t : State}

theorem openedEffect_fragment (hne5 : ehType h ≠ 5) (hne6 : ehType h ≠ 6) (hcfg : t.npx.configured = true) :
    openedEffect src d h b t = rxFragment h b t := by
  simp only [openedEffect, hne5, hne6, hcfg, if_true, if_false]

theorem openedEffect_control (h5 : ehType h = 5) : openedEffect src d h b t = rxControl d (ehSrcSite h) b t :=
  if_pos h5

theorem openedEffect_time {q : Nat} (h6 : ehType h = 6) (hpath : timePathFrom t src = some q) :
    openedEffect src d h b t =
      timeMessage true q b (fun r s => sendPacket 6 16 (timePartner s q) (wNow s) 0 0 1 0 r s) t := by
  simp only [openedEffect, h6, hpath, Option.map_some, Option.getD_some, Nat.reduceEqDiff, if_true, if_false]

end Effect

@[simp] theorem timePathFrom_bump (s : State) (a addr : Nat) : timePathFrom (bump s a) addr = timePathFrom s addr := rfl

/-! ## Control messages by their code (Table 13-4) -/

section Control
variable {d : Partner} {site : Nat} {b : List Byte} {s : State}

theorem rxControl_status (hc : beAt b 0 1 = 1) : rxControl d site b s = rxStatus d site b s := by
  simp only [rxControl, hc]

theorem rxControl_fetch (hc : beAt b 0 1 = 2) : rxControl d site b s = rxFetch d b s := by
  simp only [rxControl, hc]

theorem rxControl_rebase (hc : beAt b 0 1 = 3) : rxControl d site b s = decide5 site b (rxRebase b s) := by
  simp only [rxControl, hc]

theorem rxControl_candidate (hc : beAt b 0 1 = 4) : rxControl d site b s = rxCandidate d b s := by
  simp only [rxControl, hc]

theorem rxControl_vote (hc : beAt b 0 1 = 5) : rxControl d site b s = rxVote site b s := by
  simp only [rxControl, hc]

theorem rxControl_newhome (hc : beAt b 0 1 = 6) : rxControl d site b s = decide5 site b (takeNewhome b s) := by
  simp only [rxControl, hc]

theorem rxControl_alive (hc : beAt b 0 1 = 7) : rxControl d site b s = decide5 site b (takeAlive site b s) := by
  simp only [rxControl, hc]

end Control

/-! ## The obligation -/

/-- Settles O51: every receive command runs `receivePacket`, which gives an opened packet the effect of its type, and a
control message that of its code. -/
theorem exchangePackets : Obligations.ExchangePackets := by
  unfold Obligations.ExchangePackets
  intro port src udp d b s h t ho
  have hnext {u : State} (hu : openedEffect src.toNat d h b t = u) :
      (Host.Outcome.next (receivePacket port.toNat src.toNat udp s) : Host.Outcome State Fault Refusal) = .next u :=
    congrArg Host.Outcome.next ((receivePacket_opened ho).trans hu)
  refine ⟨?fragment, ?control, ?time⟩
  case fragment =>
    intro hcfg
    have hfrag (hlow : ehType h ≤ 4) : openedEffect src.toNat d h b t = rxFragment h b t :=
      openedEffect_fragment (by omega) (by omega) hcfg
    exact ⟨fun h1 => hnext (hfrag (by omega)), fun h2 => hnext (hfrag (by omega)),
      fun h3 => hnext (hfrag (by omega)), fun h4 => hnext (hfrag (by omega))⟩
  case control =>
    intro h5
    have hctrl {u : State} (hcode : rxControl d (ehSrcSite h) b t = u) : openedEffect src.toNat d h b t = u :=
      (openedEffect_control h5).trans hcode
    exact ⟨fun hc => hnext (hctrl (rxControl_status hc)), fun hc => hnext (hctrl (rxControl_fetch hc)),
      fun hc => hnext (hctrl (rxControl_rebase hc)), fun hc => hnext (hctrl (rxControl_candidate hc)),
      fun hc => hnext (hctrl (rxControl_vote hc)), fun hc => hnext (hctrl (rxControl_newhome hc)),
      fun hc => hnext (hctrl (rxControl_alive hc))⟩
  case time => exact fun q h6 hpath => hnext (openedEffect_time h6 ((timePathFrom_bump s _ _).trans hpath))

end Sys2Proof.Machine
end

