-- ==== Sys2Proof/Proofs/ExchangeWindows.lean ====
section
/-!
SUPPORT. What the exchange does in time (R377 to R400): a delta is encoded, windows open and close, publications and
deltas are sent, objects are dropped and a home is sought: the branch that each event takes under its guards.
-/
namespace Sys2Proof.Machine

/-! ## Encoding (R377) -/

/-- The segments of the staged errors encoded with `b`, and the state with their residuals in place. -/
def encodeStaged (b : Book) (s : State) : List Byte × State :=
  (allShards s).foldl (fun (acc : List Byte × State) p =>
    let o := outerOf acc.2 p.1 p.2.1
    let seg := encodeSegment b acc.2.free p.2.2.desc o.stage
    (acc.1 ++ seg.1, setOuter p.1 p.2.1 { o with efr := seg.2 } { acc.2 with free := acc.2.free + 1 })) ([], s)

/-- The module's own delta of outer step `u` with the segments `body`. -/
def stagedDelta (u nseg : Nat) (body : List Byte) (t : State) : OwnDelta :=
  { base := t.npx.version, outer := u, bytes := mkObject t 1 t.npx.epoch t.npx.version 0 u nseg 0 body
    sent := false, at' := 0, settled := false }

theorem execDeltaEncodeComplete_staged {b : Book} {s : State} (hcfg : s.npx.configured = true)
    (hdue : s.stp.deltaDue = false) (hnew : ∀ d, s.npx.delta = some d → d.outer ≠ s.stp.rc.outer)
    (hstage : (allShards s).all (fun p => (outerOf s p.1 p.2.1).stage.isEmpty) = false)
    (hbook : encodingBook s = some b) :
    execDeltaEncodeComplete s = .next (
      let e := encodeStaged b s
      trySendDelta (setNpx (fun n => { n with
        delta := some (stagedDelta s.stp.rc.outer (allShards s).length e.1 e.2) }) e.2)) := by
  simp only [execDeltaEncodeComplete, hcfg, hdue, hstage, hbook]
  cases hd : s.npx.delta with
  | none => rfl
  | some d =>
    simp only [hnew d hd, decide_false]
    rfl

/-! ## Windows open (R388, R403) -/

/-- The state in which the current window has opened; a module that is no home has waited one window more for
its home. -/
def windowOpened (s : State) : State :=
  setNpx (fun n => { n with
    window := wNow s + 1, isOpen := true, slack := n.slackNow.getD n.slack, slackNow := none
    silent := if isHome s then 0 else n.silent + 1 }) s

/-- An agent without a port, or whose key cannot send, counts it. -/
def unsendableCounted (t : State) : State :=
  let a := if (exchangePort t).isNone then bump t (cNpx 0x1A8) else t
  if txReady a then a else bump a (cCip 0x120)

section Opening
variable {s : State} (hcfg : s.npx.configured = true) (hper : wMs s 0 ≠ 0) (hopen : wAt s (wNow s) 1 ≤ nsOf s)
  (hnew : s.npx.window ≤ wNow s)
include hcfg hper hopen hnew

/-- The window that has begun opens, and only its agent speaks. -/
theorem execWindowOpen_due :
    execWindowOpen s = .next (
      if !isAgent (windowOpened s) (wNow s) then trySendDelta (windowOpened s)
      else
        let b := unsendableCounted (windowOpened s)
        trySendDelta (sendStatus (
          if decide (b.npx.state = 4) || (b.npx.fullNext && !b.npx.staged.any Pub.full) then
            tellSite b.npx.home (fetchBody 1 0 0) b
          else b))) :=
  congrArg Host.Outcome.next (if_neg (by simp [hcfg, hper, Nat.not_lt.mpr hopen, Nat.not_lt.mpr hnew]))

theorem execWindowOpen_member (ha : isAgent (windowOpened s) (wNow s) = false) :
    execWindowOpen s = .next (trySendDelta (windowOpened s)) :=
  (execWindowOpen_due hcfg hper hopen hnew).trans (congrArg Host.Outcome.next (if_pos (by simp [ha])))

/-- The agent asks for a base that is wanted (R403) and reports to the home (R386). -/
theorem execWindowOpen_agent (ha : isAgent (windowOpened s) (wNow s) = true) :
    execWindowOpen s = .next (
      let b := unsendableCounted (windowOpened s)
      let wanting := b.npx.state = 4 ∨ b.npx.fullNext ∧ ¬b.npx.staged.any Pub.full
      trySendDelta (sendStatus (if wanting then tellSite b.npx.home (fetchBody 1 0 0) b else b))) := by
  rw [execWindowOpen_due hcfg hper hopen hnew]
  simp only [ha, Bool.not_true, Bool.false_eq_true, if_false, Bool.or_eq_true, Bool.and_eq_true, decide_eq_true_eq,
    Bool.not_eq_true, Bool.not_eq_true']

end Opening

/-! ## Windows close (R389 to R394) -/

/-- The state in which the open window has closed. -/
def windowClosed (s : State) : State := setNpx (fun n => { n with isOpen := false }) s

/-- A home has looked at its lease at the close of window `w` (R394). -/
def leaseChecked (w : Nat) (t : State) : State :=
  setNpx (fun n => { n with state := if leaseHeld t w then 2 else 3, lease := leaseHeld t w }) t

/-- The home's word to the other sites, which a site that granted a later vote does not give (R401). -/
def tellAlive (v : State) : State :=
  if mayTalk v then decide5 (siteId v) (aliveBody v) (tellAll (aliveBody v) v) else v

/-- The deltas that the close of window `w` merges, and the state with the others answered (R390). -/
def classified (w : Nat) (u : State) : List HeldDelta × State :=
  (closingDeltas w u).foldl (classifyDelta (closingDeltas w u)) ([], u)

section Closing
variable {s : State} (hopen : s.npx.isOpen = true) (hclose : wAt s (s.npx.window - 1) 2 ≤ nsOf s)
include hopen hclose

theorem execWindowClose_site (hh : isHome (windowClosed s) = false) : execWindowClose s = .next (windowClosed s) := by
  rw [windowClosed] at hh
  simp only [execWindowClose, hopen, Nat.not_lt.mpr hclose, hh, Bool.not_true, Bool.not_false, decide_false,
    Bool.or_self, Bool.false_eq_true, if_false, if_true]
  rfl

variable (hh : isHome (windowClosed s) = true)
include hh

/-- At a home the agent of the window speaks or merges, as its lease holds. -/
theorem execWindowClose_home :
    let w := s.npx.window - 1
    let t := windowClosed s
    let u := leaseChecked w t
    execWindowClose s = .next (
      if !isAgent u w then u
      else if !leaseHeld t w then
        tellAlive (bump (if decide (t.npx.state = 2) then npxEvent 5 (siteId u) u else u) (cNpx 0x190))
      else if (classified w u).1.isEmpty then
        tellAlive (bump (spread 1 [0] (dropClosing w (classified w u).2)) (cNpx 0x188))
      else mergeClose w (classified w u).1 (classified w u).2) := by
  have hdue : ¬(!s.npx.isOpen || decide (nsOf s < wAt s (s.npx.window - 1) 2)) = true := by
    simp [hopen, Nat.not_lt.mpr hclose]
  have hhome : ¬(!isHome (windowClosed s)) = true := by simp [hh]
  exact congrArg Host.Outcome.next ((if_neg hdue).trans (if_neg hhome))

theorem execWindowClose_member :
    let w := s.npx.window - 1
    let u := leaseChecked w (windowClosed s)
    isAgent u w = false → execWindowClose s = .next u := by
  intro w u ha
  exact (execWindowClose_home hopen hclose hh).trans (congrArg Host.Outcome.next (if_pos (by simp [w, u, ha])))

/-- Without its lease the home only says that it is alive. -/
theorem execWindowClose_leaseLost :
    let w := s.npx.window - 1
    let t := windowClosed s
    let u := leaseChecked w t
    isAgent u w = true → leaseHeld t w = false → execWindowClose s =
      .next (tellAlive (bump (if t.npx.state = 2 then npxEvent 5 (siteId u) u else u) (cNpx 0x190))) := by
  intro w t u ha hheld
  rw [execWindowClose_home hopen hclose hh]
  simp only [w, t, u] at ha hheld ⊢
  simp only [ha, hheld, Bool.not_true, Bool.not_false, Bool.false_eq_true, if_false, if_true, decide_eq_true_eq]

/-- A close that merges nothing empties its merge buffers at every member. -/
theorem execWindowClose_empty :
    let w := s.npx.window - 1
    let t := windowClosed s
    let u := leaseChecked w t
    isAgent u w = true → leaseHeld t w = true → (classified w u).1 = [] → execWindowClose s =
      .next (tellAlive (bump (spread 1 [0] (dropClosing w (classified w u).2)) (cNpx 0x188))) := by
  intro w t u ha hheld hnone
  rw [execWindowClose_home hopen hclose hh]
  simp only [w, t, u] at ha hheld hnone ⊢
  simp only [ha, hheld, hnone, Bool.not_true, List.isEmpty_nil, Bool.false_eq_true, if_false, if_true]

theorem execWindowClose_merges :
    let w := s.npx.window - 1
    let t := windowClosed s
    let u := leaseChecked w t
    isAgent u w = true → leaseHeld t w = true → (classified w u).1 ≠ [] → execWindowClose s =
      .next (mergeClose w (classified w u).1 (classified w u).2) := by
  intro w t u ha hheld hsome
  rw [execWindowClose_home hopen hclose hh]
  simp only [w, t, u] at ha hheld hsome ⊢
  simp only [ha, hheld, List.isEmpty_eq_false_iff.mpr hsome, Bool.not_true, Bool.false_eq_true, if_false]

end Closing

/-! ## Sending and sending again (R378, R393) -/

/-- The publication `ob` has left the home's buffer and is retained. -/
def pubRetained (ob : List Byte) (s : State) : State :=
  setNpx (fun n =>
    let r := n.retained ++ [(ohNew (objHead ob), ob)]
    { n with pubOut := none, retained := r.drop (r.length - retainN s) }) s

theorem execPublicationSend_due {ob : List Byte} {s : State} (hout : s.npx.pubOut = some ob) (hh : isHome s = true)
    (hw : s.npx.window ≠ 0) (hat : wAt s (s.npx.window - 1) 3 ≤ nsOf s) :
    execPublicationSend s = .next (
      let t := pubRetained ob s
      if isAgent t (s.npx.window - 1) && mayTalk t then spread 2 ob (objectToAll 2 (ohOuter (objHead ob)) ob t)
      else t) := by
  simp only [execPublicationSend, hout]
  exact congrArg Host.Outcome.next (if_neg (by simp [hh, hw, Nat.not_lt.mpr hat]))

theorem execDeltaResend_unsettled {d : OwnDelta} {s : State} (hd : s.npx.delta = some d) (hsent : d.sent = true)
    (hset : d.settled = false) (hh : isHome s = false)
    (hlong : d.at' + field (npxCfg2 s) 7 0 * 1000000000 ≤ nsOf s) (hsend : maySend s = true)
    (htalk : mayTalk s = true) :
    execDeltaResend s = .next (sendStatus (deliverDelta d (bump s (cNpx 0x148)))) := by
  simp only [execDeltaResend, hd]
  exact congrArg Host.Outcome.next (if_neg (by simp [hsent, hset, hh, Nat.not_lt.mpr hlong, hsend, htalk]))

/-! ## Candidacy (R400) -/

/-- The home has been silent for FAIL_W plus rank windows, or a candidacy has lasted FAIL_W windows. -/
def candidacyDue (s : State) : Prop :=
  s.npx.state = 0 ∧ failW s + rankOf s ≤ s.npx.silent
    ∨ s.npx.state = 1 ∧ s.npx.candAt + failW s * wMs s 0 * 1000000 ≤ nsOf s

theorem candidacyDue_iff (s : State) :
    ((s.npx.state = 0 && decide (failW s + rankOf s ≤ s.npx.silent))
      || (s.npx.state = 1 && decide (s.npx.candAt + failW s * wMs s 0 * 1000000 ≤ nsOf s))) = true ↔
      candidacyDue s := by
  simp only [candidacyDue, Bool.or_eq_true, Bool.and_eq_true, decide_eq_true_eq]

/-- The module stands for the next epoch with its own vote. -/
def candidacyBegun (s : State) : State :=
  setNpx (fun n => { n with
    state := 1, voted := max n.epoch n.voted + 1, votes := [siteId s], candAt := nsOf s }) s

theorem execCandidacyTimeout_due {s : State} (hdue : candidacyDue s) (ha : isAgent s (wNow s) = true) :
    execCandidacyTimeout s = .next (
      let t := candidacyBegun s
      if majority t ≤ 1 then becomeHome t else decide5 (siteId t) (candidateBody t) (tellAll (candidateBody t) t)) :=
  congrArg Host.Outcome.next (if_neg (by rw [(candidacyDue_iff s).mpr hdue, ha]; decide))

end Sys2Proof.Machine
end

