-- ==== Sys2Proof/Proofs/ExchangeEvents.lean ====
section
/-!
SUPPORT. What the exchange does within its site (R168, R375, R376): a member takes up what its agent hands on, the
router is resolved, and the trainer trains a codebook again.
-/
namespace Sys2Proof.Machine

/-! ## What an agent hands on (R375) -/

/-- A member confirms what it has taken up. -/
def confirmed (t : State) : State := spread 0 (beBytes 2 (ownFid t)) t

/-- The merge buffers of a close, with their contributor entries (R391): the home's member forms the publication too. -/
def mergeTaken (data : List Byte) (s : State) : State :=
  let n := beAt data 0 1
  let entries := (List.range n).map (fun i => beAt data (1 + 16 * i) 16)
  let ms := ((allShards s).foldl (fun (acc : List (List Nat) × Nat) p =>
    (acc.1 ++ [(List.range (sdN p.2.2.desc)).map (fun e => leAt data (acc.2 + 4 * e) 4)], acc.2 + 4 * sdN p.2.2.desc))
    ([], 1 + 16 * n)).1
  let t := dropClosing (s.npx.window - 1) s
  if n = 0 then t
  else formPub entries ms (setNpx (fun x => { x with
    merged := x.merged ++ entries.map (fun e => (field e 127 120, field e 95 64)) }) t)

section Broadcast
variable {data : List Byte} {s : State} (hcfg : s.npx.configured = true)
include hcfg

/-- What a home merges, holds and hears of is nothing to the other sites. -/
theorem execExchBroadcastReceive_elsewhere (hh : isHome s = false) :
    ∀ k ∈ [1, 6, 7], execExchBroadcastReceive k data s = .next (confirmed s) := by
  intro k hk
  simp only [List.mem_cons, List.not_mem_nil, or_false] at hk
  obtain rfl | rfl | rfl := hk
  all_goals
    simp only [execExchBroadcastReceive, hcfg, hh]
    rfl

theorem execExchBroadcastReceive_buffers (hh : isHome s = true) :
    execExchBroadcastReceive 1 data s = .next (confirmed (mergeTaken data s)) := by
  simp only [execExchBroadcastReceive, hcfg, hh]
  rfl

theorem execExchBroadcastReceive_publication :
    execExchBroadcastReceive 2 data s = .next (confirmed (if isHome s then s else takePub data s)) :=
  congrArg Host.Outcome.next (if_neg (by simp [hcfg]))

theorem execExchBroadcastReceive_base :
    execExchBroadcastReceive 3 data s = .next (confirmed (takeBase (data.drop 4) (beAt data 0 4) s)) :=
  congrArg Host.Outcome.next (if_neg (by simp [hcfg]))

theorem execExchBroadcastReceive_codebook :
    execExchBroadcastReceive 4 data s = .next (confirmed (takeBook data s)) :=
  congrArg Host.Outcome.next (if_neg (by simp [hcfg]))

theorem execExchBroadcastReceive_decision :
    execExchBroadcastReceive 5 data s = .next (confirmed (memberDecision (beAt data 0 1) (data.drop 1) s)) :=
  congrArg Host.Outcome.next (if_neg (by simp [hcfg]))

theorem execExchBroadcastReceive_delta (hh : isHome s = true) :
    execExchBroadcastReceive 6 data s =
      .next (confirmed (addDelta (beAt data 0 1) (beAt data 1 8) (data.drop 9) s)) := by
  simp only [execExchBroadcastReceive, hcfg, hh]
  rfl

theorem execExchBroadcastReceive_heard (hh : isHome s = true) :
    execExchBroadcastReceive 7 data s = .next (confirmed (setHeard (beAt data 0 1) (beAt data 1 4) s)) := by
  simp only [execExchBroadcastReceive, hcfg, hh]
  rfl

end Broadcast

/-! ## The router (R376) -/

/-- The Neighbor Advertisement with checksum `c` by which port `p` answers for the module's own address. -/
def advertisement (p c : Nat) (s : State) : List Byte :=
  ([136, 0] : List Byte) ++ beBytes 2 c ++ beBytes 4 0x60000000 ++ beBytes 16 (ownAddr s) ++ ([2, 1] : List Byte)
    ++ etherMac s p

section Neighbor
variable {port : BitVec 4} {src : BitVec 128} {icmp : List Byte} {s : State} (hp : port.toNat < 12)
  (hmode : portMode s port.toNat = 3) (hserv : inService s port.toNat = true)
include hp hmode hserv

/-- Everything but the solicitations and advertisements of the router is filtered. -/
theorem execNeighborDiscovery_filtered
    (hother : src.toNat ≠ gateway s ∨ beAt icmp 0 1 ≠ 135 ∧ beAt icmp 0 1 ≠ 136) :
    execNeighborDiscovery port src icmp s = .next (bump s (cNpx 0x118)) := by
  simp only [execNeighborDiscovery, hmode, hserv, Nat.not_le.mpr hp, ne_eq, not_true_eq_false, decide_false,
    Bool.not_true, Bool.or_self, Bool.false_eq_true, if_false]
  by_cases hsrc : src.toNat = gateway s
  · obtain ⟨h135, h136⟩ := hother.resolve_left (not_not_intro hsrc)
    rw [if_neg (not_not_intro hsrc)]
    split
    next h => exact absurd h h135
    next h => exact absurd h h136
    next => rfl
  · rw [if_pos hsrc]

theorem execNeighborDiscovery_solicited (hsrc : src.toNat = gateway s) (htype : beAt icmp 0 1 = 135)
    (hown : beAt icmp 8 16 = ownAddr s) :
    let p := port.toNat
    execNeighborDiscovery port src icmp s = .next (etherSend p (slice icmp 26 6) 16
      (ip6 (ownAddr s) src.toNat 0 0 58 255
        (advertisement p (ip6Check (ownAddr s) src.toNat 58 (advertisement p 0 s)) s)) s) := by
  simp only [execNeighborDiscovery, hmode, hserv, hsrc, htype, hown, Nat.not_le.mpr hp, ne_eq, not_true_eq_false,
    decide_false, Bool.not_true, Bool.or_self, Bool.false_eq_true, if_false]
  rfl

/-- The router's advertisement resolves it, and the packets that waited for it go out. -/
theorem execNeighborDiscovery_resolved (hsrc : src.toNat = gateway s) (htype : beAt icmp 0 1 = 136)
    (hrouter : beAt icmp 8 16 = gateway s) :
    execNeighborDiscovery port src icmp s = .next (s.npx.waitNd.foldl (fun t w => routeOut w.1 11 w.2 t)
      (setNpx (fun n => { n with router := some (beAt icmp 26 6), waitNd := [] }) s)) := by
  simp only [execNeighborDiscovery, hmode, hserv, hsrc, htype, hrouter, Nat.not_le.mpr hp, ne_eq, not_true_eq_false,
    decide_false, Bool.not_true, Bool.or_self, Bool.false_eq_true, if_false]

end Neighbor

/-! ## Retraining (R168) -/

/-- The finite samples, in units of their rows' scales, that a family is trained on from the staged delta `d`. -/
def trainingSamples (fam : Nat) (d : OwnDelta) (s : State) : List (List FVal) :=
  let all := trainingVectors s d (decide (fam ≠ deltaFamily s))
  let stride := max 1 (ceilDiv all.length 65536)
  let sampled := ((List.zip (List.range all.length) all).filter (fun p => decide (p.1 % stride = 0))).map (fun p =>
    p.2.2.map (fun x => div32 x (f32 p.2.1)))
  sampled.filter (fun z => z.all FVal.isFin)

/-- The next version of the book `b` of a family, trained on `zs` at outer step `u` and effective two steps later. -/
def trainedBook (fam u : Nat) (b : Book) (zs : List (List FVal)) : Book :=
  let entries := (kmeans 8 b.vectors zs).flatMap (fun c => c.flatMap (fun x => leBytes 4 (to32 x)))
  let ver := if b.version = 65535 then 1 else b.version + 1
  { header := ver * 2 ^ 496 + fam * 2 ^ 492 + bit b.wide * 2 ^ 491 + (u + 2) % 2 ^ 32 * 2 ^ 448 + u % 2 ^ 32 * 2 ^ 416
      + zs.length % 2 ^ 32 * 2 ^ 384 + crc64 entries * 2 ^ 320
    entries := entries }

/-- The object in which a trainer publishes the book `nb`. -/
def bookObject (u : Nat) (nb : Book) (s : State) : List Byte :=
  mkObject s 4 s.npx.epoch 0 0 u 0 0 (leBytes 64 nb.header ++ nb.entries)

/-- The agent of the family's trainer site trains it at every 16th outer step, once, and publishes the new version. -/
theorem execCodebookRetrain_due {family : BitVec 4} {d : OwnDelta} {b : Book} {s : State} :
    let fam := family.toNat
    let u := s.stp.rc.outer
    s.npx.delta = some d → senderBook s fam u = some b → isHome s = true → (0 < s.stp.q → fam % s.stp.q = ownGroup s) →
    isAgent s (wNow s) = true → d.outer = u → u % 16 = 0 →
    (∀ c ∈ s.cbl.books, ¬(c.family = fam ∧ field c.header 447 416 = u ∧ 0 < u)) →
    execCodebookRetrain family s = .next (
      let nb := trainedBook fam u b (trainingSamples fam d s)
      spread 4 (bookObject u nb s) (objectToAll 4 u (bookObject u nb s) (keepBook nb s).1)) := by
  intro fam u hd hb hh hgroup ha houter hstep hbooks
  simp only [fam, u] at hb hgroup houter hstep hbooks ⊢
  have hnew : s.cbl.books.any (fun c => decide (c.family = family.toNat) &&
      decide (field c.header 447 416 = s.stp.rc.outer) && decide (0 < s.stp.rc.outer)) = false := by
    simpa [and_assoc] using hbooks
  simp only [execCodebookRetrain, hd, hb]
  exact congrArg Host.Outcome.next (if_neg (by simpa [hh, ha, houter, hstep, hnew] using hgroup))

/-! ## The obligation -/

/-- Settles O50: under the guards of each event its command takes the branch stated above. -/
theorem exchangeEvents : Obligations.ExchangeEvents := by
  unfold Obligations.ExchangeEvents
  refine ⟨?encode, ?opens, ?closes, ?publish, ?resend, ?expiry, ?candidacy, ?broadcast, ?neighbor, ?retrain⟩
  case encode => exact fun b s hcfg hdue hnew hstage hbook => execDeltaEncodeComplete_staged hcfg hdue hnew hstage hbook
  case opens =>
    intro s u hcfg hper hopen hnew t
    exact ⟨execWindowOpen_member hcfg hper hopen hnew, execWindowOpen_agent hcfg hper hopen hnew⟩
  case closes =>
    intro s w t held u alive taken hopen hclose
    exact ⟨execWindowClose_site hopen hclose, execWindowClose_member hopen hclose,
      execWindowClose_leaseLost hopen hclose, execWindowClose_empty hopen hclose, execWindowClose_merges hopen hclose⟩
  case publish => exact fun ob s hout hh hw hat => execPublicationSend_due hout hh hw hat
  case resend =>
    exact fun d s hd hsent hset hh hlong hsend htalk => execDeltaResend_unsettled hd hsent hset hh hlong hsend htalk
  case expiry => exact fun s => rfl
  case candidacy => exact fun s hdue ha => execCandidacyTimeout_due hdue ha
  case broadcast =>
    intro data s hcfg acked
    exact ⟨execExchBroadcastReceive_elsewhere hcfg, execExchBroadcastReceive_buffers hcfg,
      execExchBroadcastReceive_publication hcfg, execExchBroadcastReceive_base hcfg,
      execExchBroadcastReceive_codebook hcfg, execExchBroadcastReceive_decision hcfg,
      execExchBroadcastReceive_delta hcfg, execExchBroadcastReceive_heard hcfg⟩
  case neighbor =>
    intro port src icmp s p answer hp hmode hserv
    exact ⟨execNeighborDiscovery_filtered hp hmode hserv, execNeighborDiscovery_solicited hp hmode hserv,
      execNeighborDiscovery_resolved hp hmode hserv⟩
  case retrain => exact fun family d b s => execCodebookRetrain_due

end Sys2Proof.Machine
end

