-- ==== Sys2Proof/Proofs/Steps.lean ====
section
/-!
SUPPORT. Steps as such: every command answers a next state, a step takes exactly the front command, and the invariant
holds at reset and is kept.
-/
namespace Sys2Proof.Machine

theorem step_of_command {c : Instr} {rest : List Instr} {s : State} (hp : s.pending = c :: rest) :
    step s = exec c { s with pending := rest } := by
  rw [step, hp]

theorem step_of_idle {s : State} (hp : s.pending = []) : step s = .next (tick s) := by
  rw [step, hp]

/-- Every arm of the dispatch answers a next state, whatever branch it takes. -/
theorem exec_answers (i : Instr) (s : State) : ∃ t, exec i s = .next t := by
  cases i <;> exact ⟨_, rfl⟩

/-- A step keeps the canonical form of memory and leaves the queue without its front command. -/
theorem step_kept {s : State} (hm : Memory.wf s.mem = true) : KeptO s.pending.tail (step s) := by
  cases hp : s.pending with
  | nil =>
    rw [step_of_idle hp]
    exact tick_kept s ⟨hp, hm⟩
  | cons c rest =>
    rw [step_of_command hp]
    exact exec_kept c _ ⟨rfl, hm⟩

/-! ## The obligations -/

/-- Settles O1: both cases are those of `step`. -/
theorem stepRunsFrontCommand : Obligations.StepRunsFrontCommand := by
  unfold Obligations.StepRunsFrontCommand
  exact ⟨fun _ _ _ hp => step_of_command hp, fun _ hp => step_of_idle hp⟩

/-- Settles O2: line time runs on from every state, and every command answers a next state. -/
theorem stepAlwaysAnswers : Obligations.StepAlwaysAnswers := by
  unfold Obligations.StepAlwaysAnswers
  intro s
  cases hp : s.pending with
  | nil => exact ⟨_, step_of_idle hp⟩
  | cons c rest => rw [step_of_command hp]; exact exec_answers c _

/-- Settles O3: after reset no byte is listed and no command waits. -/
theorem resetInvariant : Obligations.ResetInvariant := by
  unfold Obligations.ResetInvariant Inv
  exact ⟨rfl, fun c hc => absurd hc List.not_mem_nil⟩

/-- Settles O4: what a step keeps leaves the waiting commands a part of those there were. -/
theorem stepKeepsInvariant : Obligations.StepKeepsInvariant := by
  unfold Obligations.StepKeepsInvariant
  intro s t ⟨hm, hw⟩ ht
  have hk := step_kept hm
  rw [ht] at hk
  obtain ⟨hp, hmem⟩ := hk
  exact ⟨⟨hmem, fun c hc => hw c (List.mem_of_mem_tail (hp ▸ hc))⟩, hp⟩

end Sys2Proof.Machine
end

