-- ==== Sys2Proof/Proofs/PacketFields.lean ====
section
/-!
SUPPORT. The fields of a packet: what a field of a concatenated byte string reads, and the byte string's fields as bit
fields of its number (R6, R8).
-/
namespace Sys2Proof.Machine

/-! ## Byte strings and their numbers -/

theorem leBytes_leNat (bs : List Byte) : leBytes bs.length (leNat bs) = bs := by
  induction bs with
  | nil => rfl
  | cons b bs ih =>
    have hb : b.toNat < 256 := b.isLt
    have hlow : BitVec.ofNat 8 (b.toNat + 256 * leNat bs) = b := by
      apply BitVec.eq_of_toNat_eq
      rw [BitVec.toNat_ofNat]
      omega
    have hhigh : (b.toNat + 256 * leNat bs) / 256 = leNat bs := by omega
    rw [List.length_cons, leBytes, leNat, hlow, hhigh, ih]

theorem leNat_lt (bs : List Byte) : leNat bs < 256 ^ bs.length := by
  rw [leNat_eq_inBase, ← List.length_map (f := BitVec.toNat)]
  exact inBase_lt (byte_digits bs)

theorem leNat_drop (bs : List Byte) (o : Nat) : leNat (bs.drop o) = leNat bs / 256 ^ o := by
  rw [leNat_eq_inBase, List.map_drop, inBase_drop (byte_digits bs), ← leNat_eq_inBase]

/-- The word of a byte string that fills it. -/
theorem toNat_ofNat_leNat {w : Nat} {bs : List Byte} (hw : w = 8 * bs.length) :
    (BitVec.ofNat w (leNat bs)).toNat = leNat bs := by
  have hlt : leNat bs < (2 ^ 8) ^ bs.length := leNat_lt bs
  rw [BitVec.toNat_ofNat, hw, Nat.pow_mul, Nat.mod_eq_of_lt hlt]

/-! ## Fields of byte strings -/

@[simp] theorem length_gap (n : Nat) : (gap n).length = n := List.length_replicate

theorem leAt_append_left {a : List Byte} {o n : Nat} (h : o + n ≤ a.length) (b : List Byte) :
    leAt (a ++ b) o n = leAt a o n := by
  have hdrop : (a ++ b).drop o = a.drop o ++ b := List.drop_append_of_le_length (by omega)
  have htake : (a.drop o ++ b).take n = (a.drop o).take n :=
    List.take_append_of_le_length (by rw [List.length_drop]; omega)
  rw [leAt, leAt, slice, slice, hdrop, htake]

theorem leAt_append_right {a : List Byte} {o : Nat} (h : a.length ≤ o) (b : List Byte) (n : Nat) :
    leAt (a ++ b) o n = leAt b (o - a.length) n := by
  have hdrop : (a ++ b).drop o = b.drop (o - a.length) := by
    rw [List.drop_append, List.drop_eq_nil_of_le h, List.nil_append]
  rw [leAt, leAt, slice, slice, hdrop]

theorem leAt_leBytes (n x : Nat) : leAt (leBytes n x) 0 n = x % 256 ^ n := by
  rw [leAt, slice_of_length (length_leBytes n x), leNat_leBytes]

theorem leAt_cons_zero (b : Byte) (bs : List Byte) : leAt (b :: bs) 0 1 = b.toNat := by
  have hb : b.toNat < 256 := b.isLt
  rw [leAt_eq, leNat]
  omega

theorem leAt_cons_skip {o : Nat} (h : 1 ≤ o) (b : Byte) (bs : List Byte) (n : Nat) :
    leAt (b :: bs) o n = leAt bs (o - 1) n :=
  leAt_append_right (a := [b]) h bs n

/-- A field within the front of a byte string. -/
theorem leAt_slice_front {m o n : Nat} (h : o + n ≤ m) (bs : List Byte) : leAt (slice bs 0 m) o n = leAt bs o n := by
  have hfront : leNat (slice bs 0 m) = leNat bs % 256 ^ m := by
    rw [← leAt, leAt_eq, Nat.pow_zero, Nat.div_one]
  obtain ⟨r, rfl⟩ : ∃ r, m = o + n + r := ⟨m - (o + n), by omega⟩
  rw [leAt_eq, leAt_eq, hfront, Nat.add_assoc, Nat.pow_add, Nat.mod_mul_right_div_self,
    Nat.mod_mod_of_dvd _ (Nat.pow_dvd_pow 256 (Nat.le_add_right n r))]

/-! ## Bit fields of the number -/

theorem field_leNat (bs : List Byte) {hi lo o n : Nat} (hlo : lo = 8 * o) (hhi : hi + 1 = 8 * (o + n)) :
    field (leNat bs) hi lo = leAt bs o n := by
  have hw : hi + 1 - lo = 8 * n := by omega
  rw [field, leAt_eq, hw, hlo, Nat.shiftRight_eq_div_pow, Nat.pow_mul, Nat.pow_mul]

theorem flag_leNat (bs : List Byte) {i o k : Nat} (hi : i = 8 * o + k) (hk : k < 8) :
    flag (leNat bs) i = flag (leAt bs o 1) k := by
  have h256 : (256 : Nat) ^ o = 2 ^ (8 * o) := (Nat.pow_mul 2 8 o).symm
  have h8 : (256 : Nat) ^ 1 = 2 ^ 8 := rfl
  rw [flag, flag, leAt_eq, h256, h8, Nat.testBit_mod_two_pow, Nat.testBit_div_two_pow, hi]
  simp [hk, Nat.add_comm]

/-! ## A sparse map written twice -/

theorem serase_sinsert {α : Type} (m : Sparse α) (a : Nat) (v : α) : serase (sinsert m a v) a = serase m a := by
  induction m with
  | nil => simp [sinsert, serase]
  | cons e m ih =>
    obtain ⟨k, w⟩ := e
    unfold sinsert
    split
    · simp [serase]
    · unfold serase at ih ⊢
      rw [List.filter_cons, List.filter_cons, ih]

theorem serase_serase {α : Type} (m : Sparse α) (a : Nat) : serase (serase m a) a = serase m a := by
  simp [serase]

/-- A later write to a key leaves nothing of an earlier one. -/
theorem sput_sput {α : Type} [DecidableEq α] (d : α) (m : Sparse α) (a : Nat) (v w : α) :
    sput d (sput d m a v) a w = sput d m a w := by
  have h : serase (sput d m a v) a = serase m a := by
    unfold sput
    split
    · exact serase_serase m a
    · rw [serase_sinsert, serase_serase]
  rw [sput, h, ← sput]

theorem setQueue_setQueue (s : State) (q : Nat) (v w : Queue) : setQueue (setQueue s q v) q w = setQueue s q w := by
  simp only [setQueue, sput_sput]

end Sys2Proof.Machine
end

