-- ==== Sys2Proof/Proofs/CommandPackets.lean ====
section
/-!
SUPPORT. Encoding and fetching of Kolelm commands: the packet that a host writes for a command spells that command, its
header and its parameter block (Table 15-3, R443), and a fetch takes up what the packet spells (R440).
-/
namespace Sys2Proof.Machine

/-! ## Commands as they arrive -/

/-- Every command of a queue arrives by the one path of Kolelm commands. -/
theorem exec_eq_submit {i : Instr} {h : CmdHdr} {op : Nat} (hc : cmdOf i = some (h, op)) (s : State) :
    exec i s = .next (submit h op (body i) i s) := by
  cases i <;> cases hc <;> rfl

theorem mayFetch_of_sqHead {s : State} {q n : Nat} (hf : mayFetch s q = true) :
    mayFetch (setQueue s q { queueOf s q with sqHead := n }) q = true := by
  unfold mayFetch at hf ⊢
  rw [queueOf_setQueue_same]
  exact hf

/-! ## Parameters -/

theorem wfInline_of_opPb {i : Instr} {h : CmdHdr} {op : Nat} (hc : cmdOf i = some (h, op)) (hw : i.wf = true)
    (ho : opPb op = some false) : h.wfInline = true := by
  cases i <;> cases hc <;> cases ho <;> exact hw

theorem wfPb_of_opPb {i : Instr} {h : CmdHdr} {op : Nat} (hc : cmdOf i = some (h, op)) (hw : i.wf = true)
    (ho : opPb op = some true) : h.wfPb = true := by
  cases i <;> cases hc <;> cases ho
  case replicaRepairNameSource.refl.refl => exact Laws.Opcode.of_action hw
  case replicaRepairCatchUp.refl.refl => exact Laws.Opcode.of_action hw
  all_goals exact hw

/-- Every opcode of a command is in the tables, and has 16 bits. -/
theorem opPb_of_cmd {i : Instr} {h : CmdHdr} {op : Nat} (hc : cmdOf i = some (h, op)) :
    (opPb op = some false ∨ opPb op = some true) ∧ op < 2 ^ 16 := by
  cases i <;> cases hc <;> decide

/-- A well-formed command has a parameter block, of whole 64 bytes, exactly where its opcode takes one; without one it
has no address of one. -/
theorem block_of_wf {i : Instr} {h : CmdHdr} {op : Nat} (hc : cmdOf i = some (h, op)) (hw : i.wf = true) :
    opPb op = some (!h.pb.isEmpty) ∧ 64 * (h.pb.length / 64 % 65536) = h.pb.length
      ∧ (h.pb.isEmpty = true → h.pbDev = false ∧ h.pbAddr = 0) := by
  obtain ⟨ho | ho, -⟩ := opPb_of_cmd hc
  · have hin := wfInline_of_opPb hc hw ho
    simp only [CmdHdr.wfInline, Bool.and_eq_true, Bool.not_eq_true', decide_eq_true_eq] at hin
    obtain ⟨⟨⟨-, hpb⟩, hdev⟩, haddr⟩ := hin
    have hnil : h.pb = [] := List.isEmpty_iff.mp hpb
    exact ⟨by rw [ho, hpb]; rfl, by rw [hnil]; rfl, fun _ => ⟨hdev, haddr⟩⟩
  · have hin := wfPb_of_opPb hc hw ho
    simp only [CmdHdr.wfPb, CmdHdr.wf, Bool.and_eq_true, Bool.not_eq_true', decide_eq_true_eq] at hin
    obtain ⟨⟨⟨h64, hmax⟩, -⟩, hpb⟩ := hin
    exact ⟨by rw [ho, hpb]; rfl, by omega, fun he => absurd he (by simp [hpb])⟩

theorem ofNat_toNat_mod {w k : Nat} (x : BitVec w) (h : 2 ^ w ≤ 256 ^ k) : BitVec.ofNat w (x.toNat % 256 ^ k) = x := by
  rw [Nat.mod_eq_of_lt (Nat.lt_of_lt_of_le x.isLt h), BitVec.ofNat_toNat, BitVec.setWidth_eq]

theorem leAt_field (k x : Nat) (bs : List Byte) : leAt (leBytes k x ++ bs) 0 k = x % 256 ^ k := by
  rw [leAt_append_left (by simp), leAt_leBytes]

theorem leAt_skip_field {k o : Nat} (h : k ≤ o) (x : Nat) (bs : List Byte) (n : Nat) :
    leAt (leBytes k x ++ bs) o n = leAt bs (o - k) n := by
  rw [leAt_append_right (by rwa [length_leBytes]), length_leBytes]

theorem leAt_skip_gap {k o : Nat} (h : k ≤ o) (bs : List Byte) (n : Nat) :
    leAt (gap k ++ bs) o n = leAt bs (o - k) n := by
  rw [leAt_append_right (by rwa [length_gap]), length_gap]

/-- The inline parameters of a command spell it: each lies where its table places it, at its full width. -/
theorem commandAt_inlineParams {i : Instr} {h : CmdHdr} {op : Nat} (hc : cmdOf i = some (h, op))
    (ho : opPb op = some false) : commandAt h op (slice (inlineParams i) 0 48) = some i := by
  cases i <;> cases hc <;> cases ho <;> (conv_lhs => whnf) <;>
    simp (disch := decide) only [leAt_slice_front, inlineParams, bufBytes, leAt_cons_zero, leAt_cons_skip,
      leAt_skip_field, leAt_skip_gap, leAt_field, leAt_leBytes, ofNat_toNat_mod, List.append_assoc, List.cons_append,
      List.nil_append, Nat.reduceSub, Nat.reduceAdd, BitVec.ofNat_toNat, BitVec.setWidth_eq]

theorem leAt_of_head {pb : List Byte} {a : Byte} (h : pb.head? = some a) : leAt pb 0 1 = a.toNat := by
  obtain ⟨bs, rfl⟩ := List.head?_eq_some_iff.mp h
  exact leAt_cons_zero a bs

theorem head_of_wfAction {h : CmdHdr} {a : Byte} (hw : h.wfAction a = true) : h.pb.head? = some a := by
  simp only [CmdHdr.wfAction, Bool.and_eq_true, decide_eq_true_eq] at hw
  exact hw.2

/-- A parameter block spells its command: its opcode alone, but for the action of REPLICA_REPAIR. -/
theorem commandAt_block {i : Instr} {h : CmdHdr} {op : Nat} (hc : cmdOf i = some (h, op)) (hw : i.wf = true)
    (ho : opPb op = some true) : commandAt h op h.pb = some i := by
  cases i <;> cases hc <;> cases ho
  case replicaRepairNameSource.refl.refl =>
    have ha : leAt h.pb 0 1 = 0 := leAt_of_head (head_of_wfAction hw)
    simp only [commandAt, ha]
  case replicaRepairCatchUp.refl.refl =>
    have ha : leAt h.pb 0 1 = 1 := leAt_of_head (head_of_wfAction hw)
    simp only [commandAt, ha]
  all_goals rfl

/-! ## The packet -/

@[simp] theorem length_packetHead (h : CmdHdr) (op : Nat) : (packetHead h op).length = 16 := by
  simp [packetHead]

@[simp] theorem length_paramArea (h : CmdHdr) (i : Instr) : (paramArea h i).length = 48 := length_slice _ 0 48

/-- The flag byte of a packet (Table 15-3). -/
def flagByte (h : CmdHdr) : Nat := 4 * bit (!h.pb.isEmpty) + 8 * bit h.pbDev + 16 * bit h.fence + 32 * bit h.quiet

theorem flags_of_bits (pb dev fence quiet : Bool) :
    let n := 4 * bit pb + 8 * bit dev + 16 * bit fence + 32 * bit quiet
    n < 64 ∧ n % 4 = 0 ∧ flag n 2 = pb ∧ flag n 3 = dev ∧ flag n 4 = fence ∧ flag n 5 = quiet := by
  cases pb <;> cases dev <;> cases fence <;> cases quiet <;> decide

/-- The header of a packet, field by field. -/
theorem packetHead_append (h : CmdHdr) (op : Nat) (area : List Byte) :
    packetHead h op ++ area = leBytes 2 op ++ (1 :: BitVec.ofNat 8 (flagByte h) :: (leBytes 2 h.tag.toNat ++
      (leBytes 2 (h.pb.length / 64) ++ (leBytes 8 h.notBefore.toNat ++ area)))) := by
  simp only [packetHead, flagByte, List.append_assoc, List.cons_append, List.nil_append]

section Packet
variable {h : CmdHdr} {op : Nat} {i : Instr}

/-- A packet is the number of its 64 bytes. -/
theorem packetOf_toNat : (packetOf h op i).toNat = leNat (packetHead h op ++ paramArea h i) :=
  toNat_ofNat_leNat (by rw [List.length_append, length_packetHead, length_paramArea])

theorem packet_op (ho : op < 2 ^ 16) : field (packetOf h op i).toNat 15 0 = op := by
  rw [packetOf_toNat, field_leNat _ (o := 0) (n := 2) rfl rfl, packetHead_append, leAt_field]
  exact Nat.mod_eq_of_lt ho

theorem packet_version : field (packetOf h op i).toNat 23 16 = 1 := by
  rw [packetOf_toNat, field_leNat _ (o := 2) (n := 1) rfl rfl, packetHead_append]
  simp (disch := decide) only [leAt_skip_field, Nat.reduceSub, leAt_cons_zero]
  rfl

theorem packet_flagByte : leAt (packetHead h op ++ paramArea h i) 3 1 = flagByte h := by
  have hlt : flagByte h < 64 := (flags_of_bits _ _ _ _).1
  rw [packetHead_append]
  simp (disch := decide) only [leAt_skip_field, leAt_cons_skip, Nat.reduceSub, leAt_cons_zero]
  rw [BitVec.toNat_ofNat]
  omega

theorem packet_tag : field (packetOf h op i).toNat 47 32 = h.tag.toNat % 256 ^ 2 := by
  rw [packetOf_toNat, field_leNat _ (o := 4) (n := 2) rfl rfl, packetHead_append]
  simp (disch := decide) only [leAt_skip_field, leAt_cons_skip, Nat.reduceSub, leAt_field]

theorem packet_pbLen : field (packetOf h op i).toNat 63 48 = h.pb.length / 64 % 65536 := by
  rw [packetOf_toNat, field_leNat _ (o := 6) (n := 2) rfl rfl, packetHead_append]
  simp (disch := decide) only [leAt_skip_field, leAt_cons_skip, Nat.reduceSub, leAt_field, Nat.reducePow]

theorem packet_notBefore : field (packetOf h op i).toNat 127 64 = h.notBefore.toNat % 256 ^ 8 := by
  rw [packetOf_toNat, field_leNat _ (o := 8) (n := 8) rfl rfl, packetHead_append]
  simp (disch := decide) only [leAt_skip_field, leAt_cons_skip, Nat.reduceSub, leAt_field]

theorem packet_flags :
    field (packetOf h op i).toNat 31 30 = 0 ∧ field (packetOf h op i).toNat 25 24 = 0
      ∧ flag (packetOf h op i).toNat 26 = !h.pb.isEmpty ∧ flag (packetOf h op i).toNat 27 = h.pbDev
      ∧ flag (packetOf h op i).toNat 28 = h.fence ∧ flag (packetOf h op i).toNat 29 = h.quiet := by
  obtain ⟨hlt, hlow, h2, h3, h4, h5⟩ := flags_of_bits (!h.pb.isEmpty) h.pbDev h.fence h.quiet
  have hbyte : field (packetOf h op i).toNat 31 24 = flagByte h := by
    rw [packetOf_toNat, field_leNat _ (o := 3) (n := 1) rfl rfl, packet_flagByte]
  have hflag : ∀ k < 8, flag (packetOf h op i).toNat (24 + k) = flag (flagByte h) k := by
    intro k hk
    rw [packetOf_toNat, flag_leNat _ (o := 3) rfl hk, packet_flagByte]
  simp only [field, Nat.shiftRight_eq_div_pow] at hbyte ⊢
  unfold flagByte at hbyte hflag
  exact ⟨by omega, by omega, (hflag 2 (by decide)).trans h2, (hflag 3 (by decide)).trans h3,
    (hflag 4 (by decide)).trans h4, (hflag 5 (by decide)).trans h5⟩

/-- Bytes 16 to 63 of a packet. -/
theorem packet_area : leBytes 48 ((packetOf h op i).toNat / 2 ^ 128) = paramArea h i := by
  have hdrop : (packetHead h op ++ paramArea h i).drop 16 = paramArea h i := by
    rw [← length_packetHead h op, List.drop_left]
  have h128 : (2 : Nat) ^ 128 = 256 ^ 16 := by norm_num
  rw [packetOf_toNat, h128, ← leNat_drop, hdrop, ← length_paramArea h i, leBytes_leNat]

/-- The address of a parameter block, and the reserved bytes behind it. -/
theorem packet_block (hpb : h.pb.isEmpty = false) :
    field (packetOf h op i).toNat 191 128 = h.pbAddr.toNat ∧ field (packetOf h op i).toNat 511 192 = 0 := by
  have harea : ∀ o n, o + n ≤ 48 → leAt (packetHead h op ++ paramArea h i) (16 + o) n
      = leAt (leBytes 8 h.pbAddr.toNat) o n := by
    intro o n hon
    rw [leAt_append_right (by rw [length_packetHead]; omega), length_packetHead, Nat.add_sub_cancel_left, paramArea,
      leAt_slice_front hon, hpb]
    rfl
  have haddr : h.pbAddr.toNat < 256 ^ 8 := h.pbAddr.isLt
  constructor
  · rw [packetOf_toNat, field_leNat _ (o := 16) (n := 8) rfl rfl, harea 0 8 (by decide), leAt_leBytes]
    exact Nat.mod_eq_of_lt haddr
  · rw [packetOf_toNat, field_leNat _ (o := 24) (n := 40) rfl rfl, harea 8 40 (by decide), leAt_eq, leNat_leBytes,
      Nat.div_eq_of_lt (Nat.mod_lt _ (by decide)), Nat.zero_mod]

/-! ## Fetching it -/

/-- The header that a fetch reads is the one that was written. -/
theorem packetHeader_packetOf (hm : h.mctp = false) (hnone : h.pb.isEmpty = true → h.pbDev = false ∧ h.pbAddr = 0) :
    packetHeader h.queue false (packetOf h op i).toNat h.pb h.hostData = h := by
  obtain ⟨-, -, h26, h27, h28, h29⟩ := packet_flags (h := h) (op := op) (i := i)
  have hdev : (!h.pb.isEmpty && h.pbDev) = h.pbDev := by
    cases hpb : h.pb.isEmpty
    · rfl
    · rw [(hnone hpb).1]; rfl
  have haddr : (if !h.pb.isEmpty then BitVec.ofNat 64 (field (packetOf h op i).toNat 191 128) else 0) = h.pbAddr := by
    cases hpb : h.pb.isEmpty
    · rw [(packet_block hpb).1, BitVec.ofNat_toNat, BitVec.setWidth_eq]; rfl
    · exact (hnone hpb).2.symm
  rw [packetHeader, h26, h27, h28, h29, packet_tag, packet_notBefore, ofNat_toNat_mod _ (by decide),
    ofNat_toNat_mod _ (by decide), hdev, haddr, ← hm]

/-- A packet as a host writes it passes steps 1 to 4 of R443. -/
theorem packetError_packetOf (s : State) (ho : op < 2 ^ 16) (hopPb : opPb op = some (!h.pb.isEmpty))
    (hlen : 64 * (h.pb.length / 64 % 65536) = h.pb.length) (hneed : h.pb ≠ [] → pbNeed s op h.pb ≤ h.pb.length) :
    packetError s (packetOf h op i).toNat h.pb = none := by
  obtain ⟨hres, hlow, h26, -⟩ := packet_flags (h := h) (op := op) (i := i)
  cases hpb : h.pb.isEmpty
  · have hne : h.pb ≠ [] := fun he => by rw [he] at hpb; cases hpb
    have hpos : h.pb.length / 64 % 65536 ≠ 0 := fun h0 => hne (List.length_eq_zero_iff.mp (by rw [← hlen, h0]))
    have hfit := hneed hne
    simp [packetError, packet_version, packet_op ho, hopPb, hres, hlow, h26, (packet_block hpb).2, packet_pbLen, hpb,
      hpos, hlen, hfit]
  · simp [packetError, packet_version, packet_op ho, hopPb, hres, hlow, h26, hpb]

/-- The parameters that a fetch finds spell the command: those of the packet, or those of its block. -/
theorem commandAt_packetOf (hw : i.wf = true) (hc : cmdOf i = some (h, op)) :
    commandAt h op (if !h.pb.isEmpty then h.pb else leBytes 48 ((packetOf h op i).toNat / 2 ^ 128)) = some i := by
  obtain ⟨hopPb, -, -⟩ := block_of_wf hc hw
  rw [packet_area, paramArea]
  cases hpb : h.pb.isEmpty
  · exact commandAt_block hc hw (by rw [hopPb, hpb]; rfl)
  · exact commandAt_inlineParams hc (by rw [hopPb, hpb]; rfl)

/-- A fetched packet is taken up as the command it was written for. -/
theorem takePacket_packetOf {s : State} (hw : i.wf = true) (hc : cmdOf i = some (h, op)) (hm : h.mctp = false)
    (hfar : tooFar s h = false)
    (hblock : h.pb ≠ [] → pbNeed s op h.pb ≤ h.pb.length ∧
      (if h.pbDev then pbDevOk s h.pbAddr.toNat h.pb.length = true ∧ bytesAt s h.pbAddr.toNat h.pb.length = h.pb
       else dmaOk s h.pbAddr.toNat h.pb.length = true)) :
    takePacket h.queue (packetOf h op i) h.pb h.hostData s = enqueue h op (body i) i s := by
  obtain ⟨hopPb, hlen, hnone⟩ := block_of_wf hc hw
  obtain ⟨-, ho⟩ := opPb_of_cmd hc
  obtain ⟨-, -, h26, h27, -⟩ := packet_flags (h := h) (op := op) (i := i)
  have herr := packetError_packetOf (i := i) s ho hopPb hlen fun hne => (hblock hne).1
  have hhdr := packetHeader_packetOf (op := op) (i := i) hm hnone
  have hcmd := commandAt_packetOf hw hc
  unfold takePacket
  simp only [h26, h27, packet_op ho, packet_pbLen, hlen]
  cases hpb : h.pb.isEmpty
  case true =>
    rw [List.isEmpty_iff.mp hpb] at herr hhdr
    simp only [hpb, Bool.not_true, Bool.not_false, Bool.false_and, Bool.false_eq_true, if_true, if_false, herr, hhdr,
      hfar] at hcmd ⊢
    rw [hcmd]
  case false =>
    obtain ⟨-, hat⟩ := hblock fun he => by rw [he] at hpb; cases hpb
    cases hdev : h.pbDev <;>
      simp only [hdev, Bool.false_eq_true, if_true, if_false] at hat <;>
      simp only [hpb, hat, slice_of_length, (packet_block hpb).1, Bool.not_true, Bool.not_false, Bool.and_false,
        Bool.and_true, Bool.false_and, Bool.false_eq_true, if_true, if_false, herr, hhdr, hfar] at hcmd ⊢ <;>
      rw [hcmd]

end Packet

/-! ## The obligation -/

/-- Settles O5: a fetch that its queue allows takes up the packet at the head of the ring, which spells the command; the
command itself arrives by the same path. -/
theorem fetchedPacketRunsItsCommand : Obligations.FetchedPacketRunsItsCommand := by
  unfold Obligations.FetchedPacketRunsItsCommand
  intro i h op s q v s0 s1 hw hc hm hf hne hdma hfar hblock
  have hs1 : setQueue s q { v with sqHead := (v.sqHead + 1) % 2 ^ v.log2, unposted := v.unposted + 1 } = s1 := by
    simp only [s1, s0, arrived, queueOf_setQueue_same, setQueue_setQueue, q, v]
  have hfetch : exec (.commandFetch h.queue (packetOf h op i) h.pb h.hostData) s
      = .next (takePacket h.queue (packetOf h op i) h.pb h.hostData s1) := by
    show execCommandFetch h.queue (packetOf h op i) h.pb h.hostData s = _
    rw [← hs1]
    simp only [q, v] at hf hne hdma ⊢
    simp only [execCommandFetch, hf, hne, hdma, decide_false, Bool.not_true, Bool.or_self, Bool.false_eq_true, if_false]
  rw [hfetch, takePacket_packetOf hw hc hm hfar hblock, exec_eq_submit hc, submit_fetched _ hm (mayFetch_of_sqHead hf)]

end Sys2Proof.Machine
end

