-- ==== Sys2Proof/Proofs/CommandRefusals.lean ====
section
/-!
SUPPORT. Refusals: what the module as a whole refuses is answered at once (R413, R490, R516), and a command that its own
checks refuse leaves what it found but for counters (R443).
-/
namespace Sys2Proof.Machine

/-! ## Refusals by the module -/

/-- A command with nothing in front of it begins as soon as it arrives. -/
theorem submit_begins {h : CmdHdr} {op : Nat} {i : Instr} {s : State} (k : State → KRes) (hm : h.mctp = false)
    (hf : mayFetch s h.queue.toNat = true) (ht : tooFar (arrived h s) h = false)
    (hw : (queueOf s h.queue.toNat).waiting = []) (hq : queueReady (arrived h s) h op = true) :
    submit h op k i s = beginCmd h op k i (arrived h s) := by
  have hw' : (queueOf (arrived h s) h.queue.toNat).waiting = [] := by
    rw [arrived, queueOf_setQueue_same]
    exact hw
  rw [submit_fetched k hm hf, enqueue_ready k ht hw' hq]

theorem beginCmd_refused {h : CmdHdr} {op : Nat} {i : Instr} {s : State} {st : Nat} (k : State → KRes)
    (hr : refusal op i s = some st) : beginCmd h op k i s = postReply (replyTo h op s) false st 0 s := by
  rw [beginCmd, hr]

/-- Settles O7: a command with nothing in front of it begins at once, and is answered with the refusal of the module. -/
theorem moduleRefusals : Obligations.ModuleRefusals := by
  unfold Obligations.ModuleRefusals
  intro i h op s a refused hc hm hf ht hw hq
  have hanswer : ∀ st, refusal op i a = some st → refused st := fun st hr => by
    simp only [refused]
    rw [exec_eq_submit hc, submit_begins _ hm hf ht hw hq, beginCmd_refused _ hr]
  have hfatal : a.host.fatal = s.host.fatal := rfl
  have hrec : a.sec.recovery = s.sec.recovery := rfl
  have hpwr : a.pwr.state = s.pwr.state := rfl
  refine ⟨fun h1 => hanswer _ ?_, fun h1 h2 h3 h4 h5 => hanswer _ ?_, fun h1 h2 h3 h4 => hanswer _ ?_⟩
  · simp [refusal, hfatal, h1]
  · simp [refusal, hfatal, hrec, h1, h2, h3, h4, h5]
  · simp [refusal, hfatal, hrec, hpwr, h1, h2, h3, h4]

/-! ## Refusals by a command's own checks -/

/-- An answer other than SUCCESS, INTEGRITY and POISON is given at once, and leaves the state `b` but for counters. -/
def KRes.Refuses (b : State) (k : KRes) : Prop :=
  k.status ≠ 0 → k.status ≠ stIntegrity → k.status ≠ stPoison → k.deferred = false ∧ ∃ c, k.s = { b with ctr := c }

section
variable {b t : State} {st d : Nat}

@[simp] theorem refuses_kOk : (kOk d t).Refuses b := fun h => absurd rfl h

@[simp] theorem refuses_kDefer : (kDefer t).Refuses b := fun h => absurd rfl h

@[simp] theorem refuses_kFail : (kFail st d b).Refuses b := fun _ _ _ => ⟨rfl, b.ctr, rfl⟩

@[simp] theorem refuses_kFail_bump (a : Nat) : (kFail st d (bump b a)).Refuses b :=
  fun _ _ _ => ⟨rfl, (bump b a).ctr, rfl⟩

@[simp] theorem refuses_integrity : (kFail stIntegrity d t).Refuses b := fun _ h => absurd rfl h

@[simp] theorem refuses_poison : (kFail stPoison d t).Refuses b := fun _ _ h => absurd rfl h

@[simp] theorem refuses_dmaRefuse : (dmaRefuse b).Refuses b := refuses_kFail_bump _

@[simp] theorem refuses_ite {c : Prop} [Decidable c] {k l : KRes} :
    (if c then k else l).Refuses b ↔ (c → k.Refuses b) ∧ (¬ c → l.Refuses b) := by
  split <;> simp [*]

@[simp] theorem refuses_moveDone : (moveDone d t).Refuses b := by simp [moveDone]

@[simp] theorem refuses_restoreFailed : (restoreFailed t).Refuses b := refuses_integrity

@[simp] theorem refuses_resumeAnswer (e : Nat × Nat × State) : (resumeAnswer e).Refuses b := by simp [resumeAnswer]

@[simp] theorem refuses_deliver (h : CmdHdr) (buf : Buf) (data : List Byte) (clear : State → State) :
    (deliver h buf data clear d b).Refuses b := by simp [deliver]

@[simp] theorem refuses_withBuf {h : CmdHdr} {buf : Buf} {k : KRes} (hk : k.Refuses b) :
    (withBuf h buf b k).Refuses b := by simp [withBuf, hk]

end

/-! ## Management commands (Table 15-7) -/

theorem kIdentify_refuses {h : CmdHdr} {buf : Buf} {b : State} : (kIdentify h buf b).Refuses b := by
  simp [kIdentify]

theorem kQueueCreate_refuses {h : CmdHdr} {qid vector coalN coalUs log2Depth : Byte} {sq cq : W64} {b : State} :
    (kQueueCreate h qid vector coalN coalUs log2Depth sq cq b).Refuses b := by
  simp [kQueueCreate]

theorem kQueueDelete_refuses {h : CmdHdr} {qid : Byte} {b : State} : (kQueueDelete h qid b).Refuses b := by
  simp [kQueueDelete]

theorem kJobStatus_refuses {h : CmdHdr} {buf : Buf} {b : State} : (kJobStatus h buf b).Refuses b := by
  simp [kJobStatus]

theorem kEventRingSet_refuses {h : CmdHdr} {ring : W64} {log2Depth vector : Byte} {b : State} :
    (kEventRingSet h ring log2Depth vector b).Refuses b := by
  simp [kEventRingSet]

theorem kJobSeedSet_refuses {h : CmdHdr} {seed : W64} {b : State} : (kJobSeedSet h seed b).Refuses b := by
  simp [kJobSeedSet]

theorem kModuleReset_refuses {h : CmdHdr} {confirm : W32} {b : State} : (kModuleReset h confirm b).Refuses b := by
  simp [kModuleReset]

theorem kModuleBedEnter_refuses {h : CmdHdr} {b : State} : (kModuleBedEnter h b).Refuses b := by
  simp [kModuleBedEnter]

theorem kModuleBedLeave_refuses {h : CmdHdr} {b : State} : (kModuleBedLeave h b).Refuses b := by
  simp [kModuleBedLeave]

/-- An image that does not verify is no refusal of the command: it is in its slot. -/
theorem kFwUpdate_refuses {h : CmdHdr} {b : State} (hsec : (kFwUpdate h b).status ≠ stSecurity) :
    (kFwUpdate h b).Refuses b := by
  unfold kFwUpdate at hsec ⊢
  simp only [refuses_ite, refuses_kFail, refuses_dmaRefuse, implies_true, true_and]
  intro hbusy hlen hdma
  simp only [hbusy, hlen, hdma, if_false] at hsec
  refine ⟨fun _ => refuses_kOk, fun hbad => absurd ?_ hsec⟩
  rw [if_neg hbad]
  rfl

/-! ## Memory commands (Table 15-8) -/

theorem kMemToHost_refuses {h : CmdHdr} {dev host len : W64} {b : State} : (kMemToHost h dev host len b).Refuses b := by
  simp [kMemToHost]

theorem kMemFromHost_refuses {h : CmdHdr} {host dev len : W64} {b : State} :
    (kMemFromHost h host dev len b).Refuses b := by
  simp [kMemFromHost]

theorem kMemCopy_refuses {h : CmdHdr} {src dst len : W64} {b : State} : (kMemCopy h src dst len b).Refuses b := by
  simp [kMemCopy]

theorem kMemFill_refuses {h : CmdHdr} {dst len pattern : W64} {b : State} :
    (kMemFill h dst len pattern b).Refuses b := by
  simp [kMemFill]

theorem applyFresh_refuses (restore : Bool) (b : State) : (applyFresh restore b).Refuses b := by
  refine refuses_ite.mpr ⟨fun _ => refuses_kFail, fun _ => ?_⟩
  cases hp : placement (dropLost b) with
  | inl d => simp only [hp, refuses_kFail]
  | inr p => simp only [hp]; exact refuses_kOk

theorem kTreimMapApplyJobStart_refuses {h : CmdHdr} {b : State} : (kTreimMapApplyJobStart h b).Refuses b := by
  exact applyFresh_refuses false b

theorem kTreimMapApplyRestore_refuses {h : CmdHdr} {b : State} : (kTreimMapApplyRestore h b).Refuses b := by
  exact applyFresh_refuses true b

theorem kTreimMapApplyResume_refuses {h : CmdHdr} {b : State} : (kTreimMapApplyResume h b).Refuses b := by
  simp only [kTreimMapApplyResume, refuses_ite, refuses_kFail, implies_true, true_and]
  intros
  split <;> simp

theorem kTreimRetrain_refuses {h : CmdHdr} {channel : W16} {b : State} : (kTreimRetrain h channel b).Refuses b := by
  simp [kTreimRetrain]

theorem kPlinthApply_refuses {h : CmdHdr} {pierMask : Byte} {b : State} : (kPlinthApply h pierMask b).Refuses b := by
  simp [kPlinthApply]

theorem kPlinthAlloc_refuses {h : CmdHdr} {pier domain pages shared : Byte} {b : State} :
    (kPlinthAlloc h pier domain pages shared b).Refuses b := by
  simp [kPlinthAlloc]

theorem kPlinthFree_refuses {h : CmdHdr} {pier region first pages : Byte} {b : State} :
    (kPlinthFree h pier region first pages b).Refuses b := by
  simp [kPlinthFree]

theorem kPlinthQuota_refuses {h : CmdHdr} {pierMask domain : Byte} {quota : W16} {b : State} :
    (kPlinthQuota h pierMask domain quota b).Refuses b := by
  simp [kPlinthQuota]

theorem kCorbelLoad_refuses {h : CmdHdr} {b : State} : (kCorbelLoad h b).Refuses b := by
  simp only [kCorbelLoad, refuses_ite, refuses_kFail, implies_true, true_and]
  intros
  split <;> simp

theorem kCorbelGroupSet_refuses {h : CmdHdr} {b : State} : (kCorbelGroupSet h b).Refuses b := by
  simp only [kCorbelGroupSet, refuses_ite, refuses_kFail, implies_true, true_and]
  intros
  split <;> simp

theorem kCorbelResume_refuses {h : CmdHdr} {b : State} : (kCorbelResume h b).Refuses b := by
  simp only [kCorbelResume, refuses_ite, refuses_kFail, implies_true, true_and]
  intros
  split <;> simp

theorem kCorbelUnfreeze_refuses {h : CmdHdr} {b : State} : (kCorbelUnfreeze h b).Refuses b := by
  simp only [kCorbelUnfreeze]
  split <;> simp

/-! ## Tile and step commands (Tables 15-9 and 15-11) -/

theorem kTileFence_refuses {h : CmdHdr} {mask : BitVec 96} {b : State} : (kTileFence h mask b).Refuses b := by
  simp [kTileFence]

theorem kTileUnfence_refuses {h : CmdHdr} {mask : BitVec 96} {b : State} : (kTileUnfence h mask b).Refuses b := by
  simp [kTileUnfence]

theorem kTileQuery_refuses {h : CmdHdr} {mask : BitVec 96} {buf : Buf} {b : State} :
    (kTileQuery h mask buf b).Refuses b := by
  simp [kTileQuery]

theorem kStepBegin_refuses {h : CmdHdr} {step : W64} {salt : W32} {gen : Byte} {tCheck tCommit deadline : W64}
    {b : State} :
    (kStepBegin h step salt gen tCheck tCommit deadline b).Refuses b := by
  unfold kStepBegin
  split <;> simp

theorem kStepAbort_refuses {h : CmdHdr} {step : W64} {b : State} : (kStepAbort h step b).Refuses b := by
  simp [kStepAbort]

theorem kStepQuery_refuses {h : CmdHdr} {buf : Buf} {b : State} : (kStepQuery h buf b).Refuses b := by
  simp [kStepQuery]

theorem kTensorScale_refuses {h : CmdHdr} {tid : W16} {margin hostScale : W32} {depth flags : Byte} {b : State} :
    (kTensorScale h tid margin hostScale depth flags b).Refuses b := by
  simp [kTensorScale]

theorem kStepResume_refuses {h : CmdHdr} {step : W64} {b : State} : (kStepResume h step b).Refuses b := by
  simp [kStepResume]

theorem kJobGroups_refuses {h : CmdHdr} {b : State} : (kJobGroups h b).Refuses b := by
  simp only [kJobGroups, refuses_ite, refuses_kFail, implies_true, true_and]
  intros
  split <;> simp

theorem kQueueLoad_refuses {h : CmdHdr} {b : State} : (kQueueLoad h b).Refuses b := by
  simp only [kQueueLoad, refuses_ite, refuses_kFail, implies_true, true_and]
  intros
  split <;> simp

theorem kExpertTableLoad_refuses {h : CmdHdr} {b : State} : (kExpertTableLoad h b).Refuses b := by
  simp only [kExpertTableLoad, refuses_ite, refuses_kFail, implies_true, true_and]
  intros
  split <;> simp

/-! ## Fabric and exchange commands (Tables 15-12 and 15-13) -/

theorem kFabricConfig_refuses {h : CmdHdr} {b : State} : (kFabricConfig h b).Refuses b := by
  simp [kFabricConfig]

theorem kFabricRouteLoad_refuses {h : CmdHdr} {b : State} : (kFabricRouteLoad h b).Refuses b := by
  simp [kFabricRouteLoad]

theorem kCollSetup_refuses {h : CmdHdr} {b : State} : (kCollSetup h b).Refuses b := by
  simp only [kCollSetup, refuses_ite, refuses_kFail, implies_true, true_and]
  intros
  split <;> simp

theorem kCollFree_refuses {h : CmdHdr} {handle : W16} {b : State} : (kCollFree h handle b).Refuses b := by
  unfold kCollFree
  split <;> simp

theorem kCollRun_refuses {h : CmdHdr} {handle : W16} {b : State} : (kCollRun h handle b).Refuses b := by
  unfold kCollRun
  split <;> simp

theorem kFabricQuery_refuses {h : CmdHdr} {buf : Buf} {b : State} : (kFabricQuery h buf b).Refuses b := by
  simp [kFabricQuery]

theorem kCollQuery_refuses {h : CmdHdr} {handle : W16} {buf : Buf} {b : State} :
    (kCollQuery h handle buf b).Refuses b := by
  refine refuses_withBuf ?_
  split <;> simp

theorem kExchConfig_refuses {h : CmdHdr} {b : State} : (kExchConfig h b).Refuses b := by
  simp only [kExchConfig, refuses_ite, refuses_kFail, implies_true, true_and]
  intros
  split <;> simp

theorem kExchPartners_refuses {h : CmdHdr} {b : State} : (kExchPartners h b).Refuses b := by
  simp [kExchPartners]

theorem kExchWeights_refuses {h : CmdHdr} {b : State} : (kExchWeights h b).Refuses b := by
  simp [kExchWeights]

theorem kExchJoin_refuses {h : CmdHdr} {b : State} : (kExchJoin h b).Refuses b := by
  simp [kExchJoin]

theorem kExchQuery_refuses {h : CmdHdr} {buf : Buf} {b : State} : (kExchQuery h buf b).Refuses b := by
  simp [kExchQuery]

theorem kExchFetch_refuses {h : CmdHdr} {b : State} : (kExchFetch h b).Refuses b := by
  simp [kExchFetch]

/-! ## Checkpoint and time commands (Tables 15-14 and 15-15) -/

theorem kCkptConfig_refuses {h : CmdHdr} {b : State} : (kCkptConfig h b).Refuses b := by
  simp only [kCkptConfig, refuses_ite, refuses_kFail, implies_true, true_and]
  intros
  split <;> simp

theorem kCkptQuery_refuses {h : CmdHdr} {buf : Buf} {b : State} : (kCkptQuery h buf b).Refuses b := by
  simp [kCkptQuery]

theorem kCkptRestore_refuses {h : CmdHdr} {outer : W32} {b : State} : (kCkptRestore h outer b).Refuses b := by
  simp only [kCkptRestore, refuses_ite, refuses_kFail, implies_true, true_and]
  intros
  split <;> simp

theorem kReplicaRepairNameSource_refuses {h : CmdHdr} {b : State} : (kReplicaRepairNameSource h b).Refuses b := by
  simp only [kReplicaRepairNameSource, refuses_ite, refuses_kFail, implies_true, true_and]
  intros
  split <;> simp

theorem kReplicaRepairCatchUp_refuses {h : CmdHdr} {b : State} : (kReplicaRepairCatchUp h b).Refuses b := by
  simp only [kReplicaRepairCatchUp, refuses_ite, refuses_kFail, implies_true, true_and]
  intros
  split
  · simp
  · split <;> simp

theorem kTimeEpoch_refuses {h : CmdHdr} {epoch ppsSecond : W64} {b : State} :
    (kTimeEpoch h epoch ppsSecond b).Refuses b := by
  simp [kTimeEpoch]

theorem kTimeQuery_refuses {h : CmdHdr} {buf : Buf} {b : State} : (kTimeQuery h buf b).Refuses b := by
  simp [kTimeQuery]

theorem kBudgetSet_refuses {h : CmdHdr} {b : State} : (kBudgetSet h b).Refuses b := by
  simp [kBudgetSet]

theorem kTimeTimer_refuses {h : CmdHdr} {timer : Byte} {ctl : W32} {expiry : W64} {b : State} :
    (kTimeTimer h timer ctl expiry b).Refuses b := by
  simp [kTimeTimer]

theorem kTimePathSet_refuses {h : CmdHdr} {b : State} : (kTimePathSet h b).Refuses b := by
  simp [kTimePathSet]

/-! ## Security and telemetry commands (Table 15-16) -/

theorem kSecIdentity_refuses {h : CmdHdr} {buf : Buf} {b : State} : (kSecIdentity h buf b).Refuses b := by
  simp [kSecIdentity]

theorem kSecAttest_refuses {h : CmdHdr} {buf : Buf} {nonce : BitVec 256} {b : State} :
    (kSecAttest h buf nonce b).Refuses b := by
  simp [kSecAttest]

theorem kSecKeyLoad_refuses {h : CmdHdr} {b : State} : (kSecKeyLoad h b).Refuses b := by
  simp only [kSecKeyLoad, refuses_ite, refuses_kFail, implies_true, true_and]
  intros
  split <;> simp

theorem kSecKeyClear_refuses {h : CmdHdr} {slot : Byte} {b : State} : (kSecKeyClear h slot b).Refuses b := by
  simp [kSecKeyClear]

theorem kSecOwnerEnrol_refuses {h : CmdHdr} {b : State} : (kSecOwnerEnrol h b).Refuses b := by
  simp [kSecOwnerEnrol]

theorem kSecRollbackSet_refuses {h : CmdHdr} {b : State} : (kSecRollbackSet h b).Refuses b := by
  simp [kSecRollbackSet]

theorem kCountersRead_refuses {h : CmdHdr} {block : Byte} {inst : W16} {buf : Buf} {b : State} :
    (kCountersRead h block inst buf b).Refuses b := by
  refine refuses_withBuf ?_
  split
  · exact refuses_kFail
  · simp only [refuses_ite, refuses_kFail, refuses_deliver, implies_true, and_self]

theorem kSlogRead_refuses {h : CmdHdr} {clear : Byte} {buf : Buf} {b : State} :
    (kSlogRead h clear buf b).Refuses b := by
  simp [kSlogRead]

theorem kTensorRead_refuses {h : CmdHdr} {first n : W16} {buf : Buf} {b : State} :
    (kTensorRead h first n buf b).Refuses b := by
  simp [kTensorRead]

theorem kQueueStats_refuses {h : CmdHdr} {first n : W16} {buf : Buf} {b : State} :
    (kQueueStats h first n buf b).Refuses b := by
  simp [kQueueStats]

theorem kSensorsRead_refuses {h : CmdHdr} {buf : Buf} {b : State} : (kSensorsRead h buf b).Refuses b := by
  simp [kSensorsRead]

theorem kDiagRun_refuses {h : CmdHdr} {test : W16} {param : W64} {b : State} : (kDiagRun h test param b).Refuses b := by
  simp [kDiagRun]

/-! ## The obligation -/

theorem body_refuses {i : Instr} {h : CmdHdr} {op : Nat} {b : State} (hc : cmdOf i = some (h, op)) (hload : op ≠ 0x0301)
    (hfw : op = 0x0109 → (body i b).status ≠ stSecurity) : (body i b).Refuses b := by
  cases i <;> cases hc
  case programLoad.refl => exact absurd rfl hload
  case identify.refl => exact kIdentify_refuses
  case queueCreate.refl => exact kQueueCreate_refuses (h := h)
  case queueDelete.refl => exact kQueueDelete_refuses (h := h)
  case jobStatus.refl => exact kJobStatus_refuses
  case eventRingSet.refl => exact kEventRingSet_refuses (h := h)
  case jobSeedSet.refl => exact kJobSeedSet_refuses (h := h)
  case moduleReset.refl => exact kModuleReset_refuses
  case moduleBedEnter.refl => exact kModuleBedEnter_refuses (h := h)
  case moduleBedLeave.refl => exact kModuleBedLeave_refuses (h := h)
  case fwUpdate.refl => exact kFwUpdate_refuses (hfw rfl)
  case memToHost.refl => exact kMemToHost_refuses (h := h)
  case memFromHost.refl => exact kMemFromHost_refuses
  case memCopy.refl => exact kMemCopy_refuses (h := h)
  case memFill.refl => exact kMemFill_refuses (h := h)
  case treimMapApplyJobStart.refl => exact kTreimMapApplyJobStart_refuses (h := h)
  case treimMapApplyRestore.refl => exact kTreimMapApplyRestore_refuses (h := h)
  case treimMapApplyResume.refl => exact kTreimMapApplyResume_refuses (h := h)
  case treimRetrain.refl => exact kTreimRetrain_refuses
  case plinthApply.refl => exact kPlinthApply_refuses (h := h)
  case plinthAlloc.refl => exact kPlinthAlloc_refuses (h := h)
  case plinthFree.refl => exact kPlinthFree_refuses (h := h)
  case plinthQuota.refl => exact kPlinthQuota_refuses (h := h)
  case corbelLoad.refl => exact kCorbelLoad_refuses
  case corbelGroupSet.refl => exact kCorbelGroupSet_refuses
  case corbelResume.refl => exact kCorbelResume_refuses (h := h)
  case corbelUnfreeze.refl => exact kCorbelUnfreeze_refuses
  case tileFence.refl => exact kTileFence_refuses (h := h)
  case tileUnfence.refl => exact kTileUnfence_refuses (h := h)
  case tileQuery.refl => exact kTileQuery_refuses
  case stepBegin.refl => exact kStepBegin_refuses
  case stepAbort.refl => exact kStepAbort_refuses (h := h)
  case stepQuery.refl => exact kStepQuery_refuses
  case tensorScale.refl => exact kTensorScale_refuses (h := h)
  case stepResume.refl => exact kStepResume_refuses
  case jobGroups.refl => exact kJobGroups_refuses
  case queueLoad.refl => exact kQueueLoad_refuses
  case expertTableLoad.refl => exact kExpertTableLoad_refuses
  case fabricConfig.refl => exact kFabricConfig_refuses
  case fabricRouteLoad.refl => exact kFabricRouteLoad_refuses
  case collSetup.refl => exact kCollSetup_refuses
  case collFree.refl => exact kCollFree_refuses (h := h)
  case collRun.refl => exact kCollRun_refuses
  case fabricQuery.refl => exact kFabricQuery_refuses
  case collQuery.refl => exact kCollQuery_refuses
  case exchConfig.refl => exact kExchConfig_refuses
  case exchPartners.refl => exact kExchPartners_refuses
  case exchWeights.refl => exact kExchWeights_refuses
  case exchJoin.refl => exact kExchJoin_refuses
  case exchQuery.refl => exact kExchQuery_refuses
  case exchFetch.refl => exact kExchFetch_refuses (h := h)
  case ckptConfig.refl => exact kCkptConfig_refuses
  case ckptQuery.refl => exact kCkptQuery_refuses
  case ckptRestore.refl => exact kCkptRestore_refuses
  case replicaRepairNameSource.refl => exact kReplicaRepairNameSource_refuses
  case replicaRepairCatchUp.refl => exact kReplicaRepairCatchUp_refuses
  case timeEpoch.refl => exact kTimeEpoch_refuses
  case timeQuery.refl => exact kTimeQuery_refuses
  case budgetSet.refl => exact kBudgetSet_refuses
  case timeTimer.refl => exact kTimeTimer_refuses (h := h)
  case timePathSet.refl => exact kTimePathSet_refuses
  case secIdentity.refl => exact kSecIdentity_refuses
  case secAttest.refl => exact kSecAttest_refuses
  case secKeyLoad.refl => exact kSecKeyLoad_refuses
  case secKeyClear.refl => exact kSecKeyClear_refuses (h := h)
  case secOwnerEnrol.refl => exact kSecOwnerEnrol_refuses
  case secRollbackSet.refl => exact kSecRollbackSet_refuses
  case countersRead.refl => exact kCountersRead_refuses
  case slogRead.refl => exact kSlogRead_refuses
  case tensorRead.refl => exact kTensorRead_refuses
  case queueStats.refl => exact kQueueStats_refuses
  case sensorsRead.refl => exact kSensorsRead_refuses
  case diagRun.refl test param => exact kDiagRun_refuses (h := h) (test := test) (param := param)

/-- PROGRAM_LOAD is refused before its images are read, or for what it has read. -/
theorem kProgramLoad_refuses (h : CmdHdr) (b : State) :
    (kProgramLoad h b).Refuses b ∨ (kProgramLoad h b).Refuses (loadImages (leAt h.pb 16 4) (loadList h.pb) b).2 := by
  simp only [kProgramLoad]
  by_cases hguard : stepActive b = true ∨ 11 < leAt h.pb 12 1 ∨ leAt h.pb 16 4 % 64 ≠ 0
  · left
    obtain hg | hg | hg := hguard <;> simp [hg]
  · right
    simp only [not_or] at hguard
    obtain ⟨hstep, hdom, hlen⟩ := hguard
    simp only [hstep, hdom, hlen, if_false]
    cases maskBits 96 (leAt h.pb 0 12) with
    | nil => exact refuses_kOk
    | cons t0 ts =>
      rcases loadImages (leAt h.pb 16 4) (loadList h.pb) b with ⟨⟨st, d⟩ | parts, read⟩
      · exact refuses_kFail
      · simp

theorem kProgramLoadMeasured_of_refused {h : CmdHdr} {b : State} (hst : (kProgramLoadMeasured h b).status ≠ 0) :
    kProgramLoadMeasured h b = kProgramLoad h b := by
  simp only [kProgramLoadMeasured] at hst ⊢
  by_cases hok : (kProgramLoad h b).status ≠ 0
  · rw [if_pos hok]
  · rw [if_neg hok] at hst
    exact absurd hst hok

/-- Settles O6: what a refused command leaves is what it found or, for PROGRAM_LOAD, what it has read, but for counters;
its answer is then the reply of a ready command. -/
theorem refusedCommandsChangeNothing : Obligations.RefusedCommandsChangeNothing := by
  unfold Obligations.RefusedCommandsChangeNothing
  intro i h op s k hc hr hst hint hpoison hsec b read
  have hanswer : ∀ u, k.Refuses u → ∃ c, exec i s = .next (replied h op k.status k.detail s { u with ctr := c }) := by
    intro u hu
    obtain ⟨hdef, c, hk⟩ := hu hst hint hpoison
    refine ⟨c, ?_⟩
    rw [exec_eq_submit hc, submit_ready hr, ← hk]
    show Host.Outcome.next (conclude (replyTo h op (arrived h s)) op k) = _
    rw [conclude, hdef]
    rfl
  by_cases hload : op = 0x0301
  · have hkeq : k = kProgramLoad h b := by
      subst hload
      cases i <;> cases hc
      exact kProgramLoadMeasured_of_refused hst
    obtain hu | hu := kProgramLoad_refuses h b <;> rw [← hkeq] at hu
    · obtain ⟨c, hexec⟩ := hanswer b hu
      exact ⟨c, b, .inl rfl, hexec⟩
    · obtain ⟨c, hexec⟩ := hanswer read hu
      exact ⟨c, read, .inr ⟨hload, rfl⟩, hexec⟩
  · have hu : k.Refuses b := body_refuses hc hload fun hfw hs => hsec hs hfw
    obtain ⟨c, hexec⟩ := hanswer b hu
    exact ⟨c, b, .inl rfl, hexec⟩

end Sys2Proof.Machine
end

