-- ==== Sys2Proof/Proofs/MemoryMoves.lean ====
section
/-!
SUPPORT. The memory moves (Table 15-8, R448): what each one's own checks and effect answer when the checks pass, and
from that the command as a whole.
-/
namespace Sys2Proof.Machine

/-- A move that reads is answered with the count of the poisoned lines it met. -/
theorem moveDone_eq (poison : Nat) (t : State) :
    moveDone poison t = { s := t, status := if poison = 0 then 0 else 0x11, detail := poison, deferred := false } := by
  unfold moveDone
  split
  · next h0 => rw [h0]; rfl
  · rfl

theorem kMemToHost_of_valid {h : CmdHdr} {dev host len : W64} {b : State}
    (hdma : dmaOk b host.toNat len.toNat = true) (hlen : moveLenOk len.toNat = true)
    (hdev : moveRangeOk b true dev.toNat len.toNat = true) :
    let r := moveRead dev.toNat len.toNat b
    kMemToHost h dev host len b = moveDone r.1.poison (hostWrite host.toNat r.1.data r.2) := by
  simp only [kMemToHost, hdma, hlen, hdev, Bool.not_true, Bool.false_eq_true, if_false]

theorem kMemFromHost_of_valid {h : CmdHdr} {host dev len : W64} {b : State}
    (hdma : dmaOk b host.toNat len.toNat = true) (hlen : moveLenOk len.toNat = true)
    (hdev : moveRangeOk b false dev.toNat len.toNat = true)
    (hstep : (stepActive b && touchesStackLocal b dev.toNat len.toNat) = false) :
    kMemFromHost h host dev len b = kOk 0 (writeTo .host 12 dev.toNat (slice h.hostData 0 len.toNat) b) := by
  simp only [kMemFromHost, hdma, hlen, hdev, hstep, Bool.not_true, Bool.false_eq_true, if_false]

theorem kMemCopy_of_valid {h : CmdHdr} {src dst len : W64} {b : State} (hlen : moveLenOk len.toNat = true)
    (hsrc : moveRangeOk b true src.toNat len.toNat = true) (hdst : moveRangeOk b false dst.toNat len.toNat = true)
    (hstep : (stepActive b && touchesStackLocal b dst.toNat len.toNat) = false) :
    let r := moveRead src.toNat len.toNat b
    kMemCopy h src dst len b = moveDone r.1.poison (writeTo .host 12 dst.toNat r.1.data r.2) := by
  simp only [kMemCopy, hlen, hsrc, hdst, hstep, Bool.not_true, Bool.false_eq_true, if_false]

theorem kMemFill_of_valid {h : CmdHdr} {dst len pattern : W64} {b : State} (hlen : moveLenOk len.toNat = true)
    (hdst : moveRangeOk b false dst.toNat len.toNat = true)
    (hstep : (stepActive b && touchesStackLocal b dst.toNat len.toNat) = false) :
    kMemFill h dst len pattern b = kOk 0 (writeTo .host 12 dst.toNat
      (List.replicate (len.toNat / 8) (leBytes 8 pattern.toNat)).flatten b) := by
  simp only [kMemFill, hlen, hdst, hstep, Bool.not_true, Bool.false_eq_true, if_false]

/-! ## The obligation -/

/-- Settles O10: a ready command runs its own checks and effect on the state it finds, so each move's effect above is
what is answered. -/
theorem moveCommandsComplete : Obligations.MoveCommandsComplete := by
  unfold Obligations.MoveCommandsComplete
  refine ⟨?toHost, ?fromHost, ?copy, ?fill⟩
  case toHost =>
    intro h dev host len s hr b n hdma hlen hdev r
    exact congrArg Host.Outcome.next
      (submit_answered hr ((kMemToHost_of_valid hdma hlen hdev).trans (moveDone_eq _ _)))
  case fromHost =>
    intro h host dev len s hr b n hdma hlen hdev hstep
    exact congrArg Host.Outcome.next (submit_ok hr (kMemFromHost_of_valid hdma hlen hdev hstep))
  case copy =>
    intro h src dst len s hr b n hlen hsrc hdst hstep r
    exact congrArg Host.Outcome.next
      (submit_answered hr ((kMemCopy_of_valid hlen hsrc hdst hstep).trans (moveDone_eq _ _)))
  case fill =>
    intro h dst len pattern s hr b n hlen hdst hstep
    exact congrArg Host.Outcome.next (submit_ok hr (kMemFill_of_valid hlen hdst hstep))

end Sys2Proof.Machine
end

