-- ==== Sys2Proof/Proofs/ManagementCommands.lean ====
section
/-!
SUPPORT. The management commands (Table 15-7): what each one's own checks and effect answer when the checks pass, and
from that the command as a whole.
-/
namespace Sys2Proof.Machine

/-! ## Identity and status -/

theorem kIdentify_of_fits {h : CmdHdr} {buf : Buf} {b : State} (hm : h.mctp = false)
    (hf : Fits b buf (identityData (field b.pwr.straps 6 0))) :
    let data := identityData (field b.pwr.straps 6 0)
    kIdentify h buf b = kOk data.length (hostWrite buf.addr.toNat data b) :=
  deliver_fits hm hf id _

/-- The host's reading clears the discarded-reply log (R452). -/
theorem kJobStatus_of_fits {h : CmdHdr} {buf : Buf} {b : State} (hm : h.mctp = false)
    (hf : Fits b buf (jobStatusRecord (ltuStatus b) b ++ dropLogBytes b)) :
    let data := jobStatusRecord (ltuStatus b) b ++ dropLogBytes b
    let w := hostWrite buf.addr.toNat data b
    kJobStatus h buf b = kOk data.length { w with host := { w.host with dropLog := [] } } := by
  simp only [kJobStatus, hm, Bool.false_eq_true, if_false]
  exact deliver_fits hm hf _ _

/-! ## Queues and the event ring (R447) -/

theorem kQueueCreate_of_valid {h : CmdHdr} {qid vector coalN coalUs log2Depth : Byte} {sq cq : W64} {b : State}
    (hlo : 1 ≤ log2Depth.toNat) (hhi : log2Depth.toNat ≤ 16) (hq0 : 1 ≤ qid.toNat) (hq63 : qid.toNat ≤ 63)
    (hv : vector.toNat ≤ 127) (hsq : sq.toNat % 64 = 0) (hcq : cq.toNat % 16 = 0)
    (hsqDma : dmaOk b sq.toNat (64 * 2 ^ log2Depth.toNat) = true)
    (hcqDma : dmaOk b cq.toNat (16 * 2 ^ log2Depth.toNat) = true) (hfree : (queueOf b qid.toNat).enabled = false) :
    kQueueCreate h qid vector coalN coalUs log2Depth sq cq b = kOk 0
      (setQueue { b with host := { b.host with lives := b.host.lives + 1 } } qid.toNat
        { Queue.none with enabled := true, life := b.host.lives + 1, log2 := log2Depth.toNat, vector := vector.toNat
                          coalN := coalN.toNat, coalUs := coalUs.toNat, sq := sq.toNat, cq := cq.toNat }) := by
  simp only [kQueueCreate, Nat.ne_of_gt hlo, Nat.not_lt.mpr hhi, Nat.ne_of_gt hq0, Nat.not_lt.mpr hq63,
    Nat.not_lt.mpr hv, hsq, hcq, hsqDma, hcqDma, hfree, ne_eq, not_true_eq_false, or_self, Bool.not_true, Bool.or_self,
    Bool.false_eq_true, if_false]

/-- A queue with nothing fetched and nothing owed goes at once. -/
theorem kQueueDelete_of_idle {h : CmdHdr} {qid : Byte} {b : State} (hq0 : 1 ≤ qid.toNat) (hq63 : qid.toNat ≤ 63)
    (hen : (queueOf b qid.toNat).enabled = true) (hdef : (queueOf b qid.toNat).deferred = 0)
    (hw : (queueOf b qid.toNat).waiting = []) (hres : b.stp.resumeReply = none) :
    kQueueDelete h qid b = kOk 0 (setQueue b qid.toNat Queue.none) := by
  simp [kQueueDelete, Nat.ne_of_gt hq0, Nat.not_lt.mpr hq63, hen, hdef, hw, hres]

theorem kEventRingSet_of_valid {h : CmdHdr} {ring : W64} {log2Depth vector : Byte} {b : State}
    (hlo : 1 ≤ log2Depth.toNat) (hhi : log2Depth.toNat ≤ 16) (hv : vector.toNat ≤ 127) (hring : ring.toNat % 16 = 0)
    (hdma : dmaOk b ring.toNat (16 * 2 ^ log2Depth.toNat) = true) :
    kEventRingSet h ring log2Depth vector b = kOk 0 { b with host := { b.host with ring :=
      { set := true, addr := ring.toNat, log2 := log2Depth.toNat, vector := vector.toNat, head := 0, put := 0
        phase := true, used := 0, lost := 0 } } } := by
  simp only [kEventRingSet, Nat.ne_of_gt hlo, Nat.not_lt.mpr hhi, Nat.not_lt.mpr hv, hring, hdma, ne_eq,
    not_true_eq_false, or_self, Bool.not_true, Bool.false_eq_true, if_false]

theorem kJobSeedSet_of_idle {h : CmdHdr} {seed : W64} {b : State} (ha : stepActive b = false) :
    kJobSeedSet h seed b = kOk 0 { b with host := { b.host with jobSeed := seed.toNat } } := by
  simp only [kJobSeedSet, ha, Bool.false_eq_true, if_false]

/-! ## Resets, the bed and firmware -/

/-- The reply goes out before the reset begins. -/
theorem kModuleReset_of_confirmed {h : CmdHdr} {b : State} :
    kModuleReset h 0xC0DE0001 b = kDefer (moduleReset 8 (postReply (replyTo h 0x0107 b) false 0 0 b)) := rfl

theorem kModuleBedEnter_of_idle {h : CmdHdr} {b : State} (ha : stepActive b = false) (hr : resumePending b = false)
    (hp : b.pwr.state = 0) : kModuleBedEnter h b = kOk 0 (enterBed b) := by
  simp only [kModuleBedEnter, ha, hr, hp, ne_eq, not_true_eq_false, Bool.false_eq_true, if_false]

theorem kModuleBedLeave_of_bedded {h : CmdHdr} {b : State} (hp : b.pwr.state = 2) :
    kModuleBedLeave h b = kOk 0 (setPwr (fun p => { p with state := 3 }) b) := by
  simp [kModuleBedLeave, hp]

theorem kFwUpdate_of_verified {h : CmdHdr} {b t : State} {slot : Nat} (hbusy : b.host.fwBusy = false)
    (hlen : leAt h.pb 8 4 ≤ 96 * 2 ^ 20) (hdma : dmaOk b (leAt h.pb 0 8) (leAt h.pb 8 4) = true)
    (hin : installImage (slice h.hostData 0 (leAt h.pb 8 4)) (leAt h.pb 12 1 % 2 = 1) b = (t, slot, true)) :
    kFwUpdate h b = kOk slot t := by
  simp only [kFwUpdate, hbusy, Nat.not_lt.mpr hlen, hdma, hin, Bool.not_true, Bool.false_eq_true, if_true, if_false]

/-! ## The obligation -/

/-- Settles O9: a ready command runs its own checks and effect on the state it finds, so each command's effect above is
what is answered. -/
theorem managementCommandsComplete : Obligations.ManagementCommandsComplete := by
  unfold Obligations.ManagementCommandsComplete
  refine ⟨?identify, ?create, ?delete, ?status, ?ring, ?seed, ?reset, ?bed, ?leave, ?firmware⟩
  case identify =>
    intro h buf s hr b data hf
    exact congrArg Host.Outcome.next (submit_ok hr (kIdentify_of_fits hr.1 hf))
  case create =>
    intro h qid vector coalN coalUs log2Depth sq cq s hr b n hlo hhi hq0 hq63 hv hsq hcq hsqDma hcqDma hfree
    exact congrArg Host.Outcome.next
      (submit_ok hr (kQueueCreate_of_valid hlo hhi hq0 hq63 hv hsq hcq hsqDma hcqDma hfree))
  case delete =>
    intro h qid s hr b hq0 hq63 hen hdef hw hres
    exact congrArg Host.Outcome.next (submit_ok hr (kQueueDelete_of_idle hq0 hq63 hen hdef hw hres))
  case status =>
    intro h buf s hr b data hf
    exact congrArg Host.Outcome.next (submit_ok hr (kJobStatus_of_fits hr.1 hf))
  case ring =>
    intro h ring log2Depth vector s hr b n hlo hhi hv hring hdma
    exact congrArg Host.Outcome.next (submit_ok hr (kEventRingSet_of_valid hlo hhi hv hring hdma))
  case seed =>
    intro h seed s hr b ha
    exact congrArg Host.Outcome.next (submit_ok hr (kJobSeedSet_of_idle ha))
  case reset =>
    intro h s hr b
    exact congrArg Host.Outcome.next (submit_left hr rfl kModuleReset_of_confirmed)
  case bed =>
    intro h s hr b ha hres hp
    exact congrArg Host.Outcome.next (submit_ok hr (kModuleBedEnter_of_idle ha hres hp))
  case leave =>
    intro h s hr b hp
    exact congrArg Host.Outcome.next (submit_ok hr (kModuleBedLeave_of_bedded hp))
  case firmware =>
    intro h t slot s hr b len hbusy hlen hdma hin
    exact congrArg Host.Outcome.next (submit_ok hr (kFwUpdate_of_verified hbusy hlen hdma hin))

end Sys2Proof.Machine
end

