-- ==== Sys2Proof/Proofs/SecurityCommands.lean ====
section
/-!
SUPPORT. The commands of the security island (Table 15-16): what each one's own checks and effect answer when the checks
pass, and from that the command as a whole.
-/
namespace Sys2Proof.Machine

/-! ## Identity and attestation (R497) -/

theorem kSecIdentity_of_fits {h : CmdHdr} {buf : Buf} {b : State} (hm : h.mctp = false)
    (hf : Fits b buf (identityBundle b)) :
    kSecIdentity h buf b = kOk (identityBundle b).length (hostWrite buf.addr.toNat (identityBundle b) b) :=
  deliver_fits hm hf id _

/-- A report that is written is counted. -/
theorem kSecAttest_of_fits {h : CmdHdr} {buf : Buf} {nonce : BitVec 256} {b : State} (hm : h.mctp = false) :
    let body := attestBody b (leBytes 32 nonce.toNat)
    let data := body ++ slice (Config.sign 0 body) 0 2420
    Fits b buf data →
    kSecAttest h buf nonce b = kOk 2996 (bump (hostWrite buf.addr.toNat data b) (cSec 0x110)) :=
  fun hf => deliver_fits hm hf _ _

/-! ## Keys (R494, R495) -/

theorem kSecKeyLoad_of_opened {h : CmdHdr} {key : List Byte} {b : State}
    (hfree : slotInUse b (leAt h.pb 0 1) = false) (hlen : leAt h.pb 4 4 = 3604)
    (hopen : openBlob b (leAt h.pb 0 1) (leAt h.pb 1 1) (slice h.pb 64 3604) = some key) :
    kSecKeyLoad h b = kOk 0 (keyInstall (leAt h.pb 0 1) (leAt h.pb 1 1) key (slice h.pb 64 3604) b) := by
  simp only [kSecKeyLoad, hfree, hlen, hopen, Bool.and_false, Bool.false_eq_true, ne_eq, not_true_eq_false, if_false]

theorem kSecKeyClear_of_free {h : CmdHdr} {slot : Byte} {b : State} (hmax : slot.toNat ≤ 17)
    (hfree : slotInUse b slot.toNat = false) :
    kSecKeyClear h slot b = kOk 0 { b with sec := { b.sec with slots := sput none b.sec.slots slot.toNat none } } := by
  simp only [kSecKeyClear, Nat.not_lt.mpr hmax, hfree, Bool.false_eq_true, if_false]

/-! ## Ownership and rollback (R489, R492) -/

theorem kSecOwnerEnrol_of_verified {h : CmdHdr} {b : State} (ha : stepActive b = false)
    (hok : ownerOk b (leAt h.pb 0 4) (slice h.pb 64 3772) = true) :
    let r := slice h.pb 64 3772
    kSecOwnerEnrol h b = kOk 0 { b with sec := { b.sec with
      owner := if flag (leAt r 2 2) 1 then none else some r, rpaCnt := b.sec.rpaCnt + 1 } } := by
  simp only [kSecOwnerEnrol, ha, hok, Bool.not_true, Bool.false_eq_true, if_false]

theorem kSecRollbackSet_of_verified {h : CmdHdr} {b : State} (hok : rollbackOk b (slice h.pb 64 2456) = true) :
    kSecRollbackSet h b = kOk 0 { b with sec := { b.sec with
      minSvn := leAt (slice h.pb 64 2456) 32 2, rpaCnt := b.sec.rpaCnt + 1 } } := by
  simp only [kSecRollbackSet, hok, if_true]

/-! ## The obligation -/

/-- Settles O19: a ready command runs its own checks and effect on the state it finds, so each command's effect above is
what is answered. -/
theorem securityCommandsComplete : Obligations.SecurityCommandsComplete := by
  unfold Obligations.SecurityCommandsComplete
  refine ⟨?identity, ?attest, ?load, ?clear, ?enrol, ?rollback⟩
  case identity =>
    intro h buf s hr b data hf
    exact congrArg Host.Outcome.next (submit_ok hr (kSecIdentity_of_fits hr.1 hf))
  case attest =>
    intro h buf nonce s hr b body data hf
    exact congrArg Host.Outcome.next (submit_ok hr (kSecAttest_of_fits hr.1 hf))
  case load =>
    intro h key s hr b hfree hlen hopen
    exact congrArg Host.Outcome.next (submit_ok hr (kSecKeyLoad_of_opened hfree hlen hopen))
  case clear =>
    intro h slot s hr b hmax hfree
    exact congrArg Host.Outcome.next (submit_ok hr (kSecKeyClear_of_free hmax hfree))
  case enrol =>
    intro h s hr b r ha hok
    exact congrArg Host.Outcome.next (submit_ok hr (kSecOwnerEnrol_of_verified ha hok))
  case rollback =>
    intro h s hr b r hok
    exact congrArg Host.Outcome.next (submit_ok hr (kSecRollbackSet_of_verified hok))

end Sys2Proof.Machine
end

