-- ==== Sys2Proof/Proofs/PlacementCommands.lean ====
section
/-!
SUPPORT. The commands of the Treim memory and of the plinth memory (Table 15-8): what each one's own checks and effect
answer when the checks pass, and from that the command as a whole.
-/
namespace Sys2Proof.Machine

/-! ## The Treim memory -/

/-- A fresh placement zeroes the memory. -/
theorem kTreimMapApplyJobStart_of_placed {h : CmdHdr} {p : Placing} {b : State} (ha : stepActive b = false)
    (hp : placement (dropLost b) = .inr p) :
    let t := installPlacement p (zeroTreim (dropLost b))
    kTreimMapApplyJobStart h b = kOk 0 { t with cbl := { t.cbl with placed := 1 } } := by
  simp only [kTreimMapApplyJobStart, applyFresh, ha, hp, Bool.false_eq_true, if_false]

/-- A restore's placement does, and lifts the fence of the stacks that had lost their content. -/
theorem kTreimMapApplyRestore_of_placed {h : CmdHdr} {p : Placing} {b : State} (ha : stepActive b = false)
    (hp : placement (dropLost b) = .inr p) :
    let t := installPlacement p (zeroTreim (dropLost b))
    let lost := (List.range 8).foldl (fun a k => a + (if (stackOf t k).contentLost then 2 ^ k else 0)) 0
    let u := liftFence lost { t with stackTab := t.stackTab.map (fun q => (q.1, { q.2 with contentLost := false })) }
    kTreimMapApplyRestore h b = kOk 0 { u with cbl := { u.cbl with placed := 2 } } := by
  simp only [kTreimMapApplyRestore, applyFresh, ha, hp, Bool.false_eq_true, if_false, if_true]

theorem kTreimMapApplyResume_of_kept {h : CmdHdr} {p : Placing} {b : State} (ha : stepActive b = false)
    (hp : placement b = .inr p)
    (hkept : ∀ k ∈ List.range 8, (stackOf b k).contentLost = false ∧ loadLe b (fwAddr k 0) 8 = placementCrc b) :
    let t := installPlacement p b
    kTreimMapApplyResume h b = kOk 0 { t with cbl := { t.cbl with placed := 3 } } := by
  have hany : (List.range 8).any (fun k =>
      (stackOf b k).contentLost || decide (loadLe b (fwAddr k 0) 8 ≠ placementCrc b)) = false := by
    rw [List.any_eq_false]
    intro k hk
    obtain ⟨hlost, hcrc⟩ := hkept k hk
    simp [hlost, hcrc]
  simp only [kTreimMapApplyResume, ha, hp, hany, Bool.false_eq_true, if_false]

theorem kTreimRetrain_of_valid {h : CmdHdr} {channel : W16} {b : State} (hmax : channel.toNat ≤ 1023)
    (hlive : chanLost b (channel.toNat / 128) (channel.toNat % 128) = false) :
    kTreimRetrain h channel b = kOk 0 (requestRetrain channel.toNat (max (nsOf b) h.notBefore.toNat) b) := by
  simp only [kTreimRetrain, Nat.not_lt.mpr hmax, hlive, Bool.false_eq_true, if_false]

/-! ## The plinth memory -/

theorem kPlinthApply_of_valid {h : CmdHdr} {pierMask : Byte} {b : State} (hmax : pierMask.toNat ≤ 15)
    (ha : stepActive b = false) (hok : (maskBits 4 pierMask.toNat).any (applyRefused b) = false) :
    kPlinthApply h pierMask b = kOk 0 ((maskBits 4 pierMask.toNat).foldl (fun s p => applyModes p s) b) := by
  simp only [kPlinthApply, Nat.not_lt.mpr hmax, ha, hok, Bool.false_eq_true, if_false]

theorem kPlinthAlloc_of_room {h : CmdHdr} {pier domain pages shared : Byte} {b : State} (hp : pier.toNat ≤ 3)
    (hd : domain.toNat ≤ 11) (hlo : 1 ≤ pages.toNat) (hhi : pages.toNat ≤ 64) (hs : shared.toNat ≤ 1)
    (hquota : pageUse b pier.toNat domain.toNat + pages.toNat ≤ quotaOf b pier.toNat domain.toNat)
    (hroom : freeRuns b pier.toNat pages.toNat ≠ []) :
    let r := pickRun (freeRuns b pier.toNat pages.toNat) b
    kPlinthAlloc h pier domain pages shared b = kOk (r.1 / 64 * 2 ^ 8 + r.1 % 64)
      (takePages pier.toNat r.1 pages.toNat domain.toNat (shared.toNat = 1) r.2) := by
  have hne : (freeRuns b pier.toNat pages.toNat).isEmpty = false := by simpa using hroom
  simp only [kPlinthAlloc, Nat.not_lt.mpr hp, Nat.not_lt.mpr hd, Nat.ne_of_gt hlo, Nat.not_lt.mpr hhi,
    Nat.not_lt.mpr hs, Nat.not_lt.mpr hquota, hne, or_self, Bool.false_eq_true, if_false]

/-- A run that its domains hold and that no gather binds is freed. -/
theorem kPlinthFree_of_held {h : CmdHdr} {pier region first pages : Byte} {b : State} (hp : pier.toNat ≤ 3)
    (hr : region.toNat ≤ 46) (hlo : 1 ≤ pages.toNat) (hend : first.toNat + pages.toNat ≤ 64)
    (hheld : ∀ i ∈ List.range pages.toNat, 1 ≤ (pageHolder b pier.toNat region.toNat (first.toNat + i)).1
      ∧ (pageHolder b pier.toNat region.toNat (first.toNat + i)).1 ≤ 12)
    (hbound : runBound b pier.toNat (region.toNat * 64 + first.toNat) pages.toNat = false) :
    kPlinthFree h pier region first pages b
      = kOk 0 (freePages pier.toNat (region.toNat * 64 + first.toNat) pages.toNat b) := by
  have hfirst : ¬ 63 < first.toNat := by omega
  have hall : (List.range pages.toNat).all (fun i =>
      let h := (pageHolder b pier.toNat region.toNat (first.toNat + i)).1
      decide (1 ≤ h ∧ h ≤ 12)) = true := by
    rw [List.all_eq_true]
    exact fun i hi => decide_eq_true (hheld i hi)
  simp only [kPlinthFree, Nat.not_lt.mpr hp, Nat.not_lt.mpr hr, hfirst, Nat.ne_of_gt hlo, Nat.not_lt.mpr hend, hall,
    hbound, or_self, Bool.not_true, Bool.false_eq_true, if_false]

theorem kPlinthQuota_of_valid {h : CmdHdr} {pierMask domain : Byte} {quota : W16} {b : State}
    (hmax : pierMask.toNat ≤ 15) (hd : domain.toNat ≤ 14) (hq : quota.toNat ≤ 3072) :
    kPlinthQuota h pierMask domain quota b = kOk 0 ((maskBits 4 pierMask.toNat).foldl (fun s p =>
      setReg s (plnBase + 0x4000 * p + 0x100 + 4 * domain.toNat) quota.toNat) b) := by
  simp only [kPlinthQuota, Nat.not_lt.mpr hmax, Nat.not_lt.mpr hd, Nat.not_lt.mpr hq, if_false]

/-! ## The obligation -/

/-- Settles O11: a ready command runs its own checks and effect on the state it finds, so each command's effect above is
what is answered. -/
theorem placementCommandsComplete : Obligations.PlacementCommandsComplete := by
  unfold Obligations.PlacementCommandsComplete
  refine ⟨?jobStart, ?restore, ?resume, ?retrain, ?apply, ?alloc, ?free, ?quota⟩
  case jobStart =>
    intro h p s hr b ha hp
    have hk := kTreimMapApplyJobStart_of_placed (h := h) ha hp
    exact congrArg Host.Outcome.next (submit_ok (k := kTreimMapApplyJobStart h) hr hk)
  case restore =>
    intro h p s hr b ha hp
    have hk := kTreimMapApplyRestore_of_placed (h := h) ha hp
    exact congrArg Host.Outcome.next (submit_ok (k := kTreimMapApplyRestore h) hr hk)
  case resume =>
    intro h p s hr b ha hp hkept
    have hk := kTreimMapApplyResume_of_kept (h := h) ha hp hkept
    exact congrArg Host.Outcome.next (submit_ok (k := kTreimMapApplyResume h) hr hk)
  case retrain =>
    intro h channel s hr b g hmax hlive
    exact congrArg Host.Outcome.next (submit_ok hr (kTreimRetrain_of_valid hmax hlive))
  case apply =>
    intro h pierMask s hr b hmax ha hok
    exact congrArg Host.Outcome.next (submit_ok hr (kPlinthApply_of_valid hmax ha hok))
  case alloc =>
    intro h pier domain pages shared s hr b hp hd hlo hhi hs hquota hroom r
    exact congrArg Host.Outcome.next (submit_ok hr (kPlinthAlloc_of_room hp hd hlo hhi hs hquota hroom))
  case free =>
    intro h pier region first pages s hr b hp hreg hlo hend hheld hbound
    exact congrArg Host.Outcome.next (submit_ok hr (kPlinthFree_of_held hp hreg hlo hend hheld hbound))
  case quota =>
    intro h pierMask domain quota s hr b hmax hd hq
    exact congrArg Host.Outcome.next (submit_ok hr (kPlinthQuota_of_valid hmax hd hq))

end Sys2Proof.Machine
end

