-- ==== Sys2Proof/Proofs/CheckpointCommands.lean ====
section
/-!
SUPPORT. The commands of checkpoints and repairs (Table 15-14): what each one's own checks and effect answer when the
checks pass, and from that the command as a whole.
-/
namespace Sys2Proof.Machine

/-! ## Checkpoints (R422, R424, R426) -/

/-- The items of a checkpoint configuration, in its block's order. -/
def ckptItems (pb : List Byte) : List Nat := (List.range (leAt pb 0 2)).map (fun i => leAt pb (64 + 16 * i) 16)

/-- Items that cover every shard and the firmware records, and fit half the buddy's area, are taken up. -/
theorem kCkptConfig_of_valid {h : CmdHdr} {b : State} (ha : stepActive b = false) (hlo : 1 ≤ leAt h.pb 0 2)
    (hhi : leAt h.pb 0 2 ≤ 251) (hhold : leAt h.pb 2 2 ≤ 3600)
    (hitems : ∀ e ∈ ckptItems h.pb, 1 ≤ ciKind e ∧ ciKind e ≤ 5 ∧ ciSect e ≠ 0)
    (hshards : ∀ p ∈ allShards b, shardCovered (ckptItems h.pb) p.1 p.2.2.desc = true)
    (hfw : fwCovered b (ckptItems h.pb) = true) (hbuddy : b.fab.buddy = 1)
    (hspace : 4096 * slotSectors (ckptItems h.pb) ≤ b.fab.area / 2) :
    kCkptConfig h b = kOk (slotSectors (ckptItems h.pb)) { b with ck := { b.ck with
      items := assignFirst (ckptItems h.pb), holdS := leAt h.pb 2 2 } } := by
  have hnone : (ckptItems h.pb).findIdx? (fun e =>
      decide (ciKind e = 0) || decide (5 < ciKind e) || decide (ciSect e = 0)) = none := by
    rw [List.findIdx?_eq_none_iff]
    intro e he
    obtain ⟨hk1, hk5, hs⟩ := hitems e he
    simp [Nat.ne_of_gt hk1, Nat.not_lt.mpr hk5, hs]
  have hall : (allShards b).all (fun p => shardCovered (ckptItems h.pb) p.1 p.2.2.desc) = true :=
    List.all_eq_true.mpr hshards
  unfold ckptItems at *
  simp only [kCkptConfig, ha, Nat.ne_of_gt hlo, Nat.not_lt.mpr hhi, Nat.not_lt.mpr hhold, hnone, hall, hfw, hbuddy,
    Nat.not_lt.mpr hspace, or_self, ne_eq, not_true_eq_false, Bool.not_true, Bool.or_self, Bool.false_eq_true, if_false]

theorem kCkptQuery_of_fits {h : CmdHdr} {buf : Buf} {b : State} (hm : h.mctp = false) (hf : Fits b buf (ckptRecord b)) :
    kCkptQuery h buf b = kOk (ckptRecord b).length (hostWrite buf.addr.toNat (ckptRecord b) b) :=
  deliver_fits hm hf id _

/-- A slot of this job and module at the step asked for, that opens and whose fingerprints hold, is restored. -/
theorem kCkptRestore_of_good {h : CmdHdr} {outer : W32} {datas : List (Nat × List Byte)} {b : State}
    (ha : stepActive b = false) (hfence : b.pwr.fenced = false) (hver : field (leAt h.hostData 0 64) 511 504 = 1)
    (hjob : field (leAt h.hostData 0 64) 479 448 = jobId b) (hsrc : field (leAt h.hostData 0 64) 495 480 = ownFid b)
    (houter : field (leAt h.hostData 0 64) 447 416 = outer.toNat) (hopen : openSlot b h.hostData = some datas)
    (hprints : printsGood (slotRestored datas b) = true) :
    kCkptRestore h outer b = kOk 0 (restoreEnded (leAt h.hostData 0 64) (slotRestored datas b)) := by
  simp only [kCkptRestore, ha, hfence, hver, hjob, hsrc, houter, hopen, hprints, ne_eq, not_true_eq_false, or_self,
    Bool.false_eq_true, if_true, if_false]

/-! ## Repairs (R419, Table 14-4) -/

/-- A repair whose shards are all loaded finds them. -/
theorem repairList_found {h : CmdHdr} {b : State} (hl : ∀ p ∈ repairList h, (shardOf b p.1 p.2).isSome = true) :
    (repairList h).findIdx? (fun p => (shardOf b p.1 p.2).isNone) = none := by
  rw [List.findIdx?_eq_none_iff]
  intro p hp
  rw [← Option.not_isSome, hl p hp]
  rfl

theorem kReplicaRepairNameSource_of_valid {h : CmdHdr} {b : State} (ha : stepActive b = false)
    (hrep : leAt h.pb 2 2 < b.stp.r) (hl : ∀ p ∈ repairList h, (shardOf b p.1 p.2).isSome = true) :
    kReplicaRepairNameSource h b = kOk 0 { b with ck := { b.ck with
      named := (repairList h).foldl (fun m p => sput none m (shardKey p.1 p.2) (some (leAt h.pb 2 2))) b.ck.named } } := by
  simp only [kReplicaRepairNameSource, ha, Nat.not_le.mpr hrep, repairList_found hl, Bool.false_eq_true, if_false]

/-- The catch-up of a module whose step ended with outcome 0x7. -/
theorem kReplicaRepairCatchUp_of_missed {h : CmdHdr} {r : StepRec} {b : State} (ha : stepActive b = false)
    (h7 : b.stp.rc.outcome = 7) (hl : ∀ p ∈ repairList h, (shardOf b p.1 p.2).isSome = true) :
    let l := repairList h
    let blocks := (l.map (fun p => ((shardOf b p.1 p.2).map (fun sh => sdPrints sh.desc)).getD 0)).foldl (· + ·) 0
    let a := catchUpShards l h.hostData b
    readRecord (slice a.1 0 64) = some r →
    kReplicaRepairCatchUp h b
      = kOk blocks (bumpN (catchUpRecords l r (a.1.drop 64) a.2) (cFault 7) (blocks - l.length)) := by
  intro l blocks a hrec
  simp only [a, l] at hrec
  simp only [kReplicaRepairCatchUp, ha, h7, repairList_found hl, hrec, ne_eq, not_true_eq_false, Bool.false_eq_true,
    if_false, blocks, a, l]

/-! ## The obligation -/

/-- Settles O17: a ready command runs its own checks and effect on the state it finds, so each command's effect above is
what is answered. -/
theorem checkpointCommandsComplete : Obligations.CheckpointCommandsComplete := by
  unfold Obligations.CheckpointCommandsComplete
  refine ⟨?config, ?query, ?restore, ?source, ?catchUp⟩
  case config =>
    intro h s hr b n items ha hlo hhi hhold hitems hshards hfw hbuddy hspace
    have hk := kCkptConfig_of_valid (h := h) ha hlo hhi hhold hitems hshards hfw hbuddy hspace
    exact congrArg Host.Outcome.next (submit_ok (k := kCkptConfig h) hr hk)
  case query =>
    intro h buf s hr b data hf
    exact congrArg Host.Outcome.next (submit_ok hr (kCkptQuery_of_fits hr.1 hf))
  case restore =>
    intro h outer datas s hr b w ha hfence hver hjob hsrc houter hopen hprints
    have hk := kCkptRestore_of_good ha hfence hver hjob hsrc houter hopen hprints
    exact congrArg Host.Outcome.next (submit_ok (k := kCkptRestore h outer) hr hk)
  case source =>
    intro h s hr b rep l ha hrep hl
    have hk := kReplicaRepairNameSource_of_valid ha hrep hl
    exact congrArg Host.Outcome.next (submit_ok (k := kReplicaRepairNameSource h) hr hk)
  case catchUp =>
    intro h r s hr b l blocks a ha h7 hl hrec
    have hk := kReplicaRepairCatchUp_of_missed ha h7 hl hrec
    exact congrArg Host.Outcome.next (submit_ok (k := kReplicaRepairCatchUp h) hr hk)

end Sys2Proof.Machine
end

