-- ==== Sys2Proof/Proofs/CheckpointEvents.lean ====
section
/-!
SUPPORT. What a checkpoint copy and a repair do (R417 to R419, R422 to R426): each event in the state of the copy or
the repair that it needs.
-/
namespace Sys2Proof.Machine

/-! ## The copy (R424, R425) -/

theorem execCkptCopyComplete_acked {c : Copy} {s : State} (hc : s.ck.copy = some c) (hstage : c.stage = 1)
    (hrun : c.paused = false) (hack : (txFlow s (ckptTo s) 2).all (fun f => f.unacked.isEmpty) = true)
    (hreach : s.fab.unreach.contains (ckptTo s) = false) :
    let t := sendSector c.slot 0 (manifestSector s c) s
    execCkptCopyComplete s = .next (faultEvent 9 0 0 c.outer { t with ck := { t.ck with
      copy := none, there := sput none t.ck.there c.slot (some (c.outer, c.step, c.no)) } }) := by
  simp only [execCkptCopyComplete, hc, hstage, hrun, hack, hreach, ne_eq, not_true_eq_false, decide_false, Bool.not_true,
    Bool.or_self, Bool.false_eq_true, if_false]

section Pause
variable {c : Copy} {s : State} (hc : s.ck.copy = some c)
include hc

theorem execCkptPauseRetry_runs (hrun : c.paused = false) (hready : holderReady s = true) :
    execCkptPauseRetry s = .next s := by
  simp only [execCkptPauseRetry, hc, hrun, hready, Bool.not_false, if_true]

/-- A running copy whose holder is not ready pauses. -/
theorem execCkptPauseRetry_pauses (hrun : c.paused = false) (hready : holderReady s = false) :
    execCkptPauseRetry s = .next (faultEvent 10 0 0 0 { s with
      ck := { s.ck with copy := some { c with paused := true, check := nsOf s } } }) := by
  simp only [execCkptPauseRetry, hc, hrun, hready, pauseCopy, Bool.not_false, Bool.false_eq_true, if_true, if_false]

theorem execCkptPauseRetry_early (hpause : c.paused = true) (hearly : nsOf s < c.check + 1000000) :
    execCkptPauseRetry s = .next s := by
  simp only [execCkptPauseRetry, hc, hpause, hearly, Bool.not_true, Bool.false_eq_true, if_true, if_false]

/-- A paused copy asks its holder again. -/
theorem execCkptPauseRetry_asks (hpause : c.paused = true) (hdue : c.check + 1000000 ≤ nsOf s)
    (hready : holderReady s = false) :
    execCkptPauseRetry s = .next (askBuddy { s with ck := { s.ck with copy := some { c with check := nsOf s } } }) := by
  simp only [execCkptPauseRetry, hc, hpause, Nat.not_lt.mpr hdue, hready, Bool.not_true, Bool.not_false,
    Bool.false_eq_true, if_true, if_false]

/-- A paused copy that has sent nothing is sent once its holder is ready. -/
theorem execCkptPauseRetry_sends (hpause : c.paused = true) (hdue : c.check + 1000000 ≤ nsOf s)
    (hready : holderReady s = true) (hstage : c.stage = 0) : execCkptPauseRetry s = .next (sendCopy c s) := by
  simp only [execCkptPauseRetry, hc, hpause, Nat.not_lt.mpr hdue, hready, hstage, Bool.not_true, Bool.false_eq_true,
    if_true, if_false]

theorem execCkptPauseRetry_resumes (hpause : c.paused = true) (hdue : c.check + 1000000 ≤ nsOf s)
    (hready : holderReady s = true) (hstage : c.stage ≠ 0) :
    execCkptPauseRetry s = .next { s with ck := { s.ck with copy := some { c with paused := false } } } := by
  simp only [execCkptPauseRetry, hc, hpause, Nat.not_lt.mpr hdue, hready, hstage, Bool.not_true, Bool.false_eq_true,
    if_false]

/-- A copy that is not complete when its time is over is abandoned, and the host learns of it. -/
theorem execCkptAbandon_due :
    let hold := if s.ck.holdS = 0 then 60 else s.ck.holdS
    c.start + hold * 1000000000 ≤ nsOf s →
    execCkptAbandon s = .next (postEvent 0x0013 c.outer 0
      (faultEvent 14 0 0 c.outer { s with ck := { s.ck with copy := none } })) := by
  intro hold hdue
  simp only [hold] at hdue
  simp only [execCkptAbandon, hc, Nat.not_lt.mpr hdue, if_false]

end Pause

/-! ## The repair (R417, R418) -/

/-- The fingerprint that this module holds of a block of a shard described by `d`. -/
def ownPrint (d : Nat) (t : State) (b : Nat) : Nat := loadLe t (sdFp d + 8 * b) 8

/-- The replica set's marks and fingerprints of a block, this module's first. -/
def memberPrints (me : Nat) (sh : Shard) (tables : List MemberTable) (t : State) (b : Nat) : List (Nat × Bool × Nat) :=
  (me, sh.eccMark, ownPrint sh.desc t b)
    :: tables.map (fun x => (x.replica.toNat, x.mark, (x.prints.getD b 0).toNat))

/-- A suspect block waits for the next begin, unless the host has named its source or a step runs. -/
def repairWaits (named : Option Nat) (t : State) (suspect : Bool) : Bool := suspect && named.isNone && !stepActive t

/-- A block is settled in `t`: all members agree, or this one holds its source's fingerprint. -/
def blockSettled (ms : Nat → List (Nat × Bool × Nat)) (d : Nat) (named : Option Nat) (v t : State) (b : Nat) : Bool :=
  (ms b).all (fun x => x.2.2 = ownPrint d t b)
    || (!repairWaits named v (blockSource (ms b) named).2.2
      && ((ms b).find? (fun x => x.1 = (blockSource (ms b) named).1)).all (fun x => x.2.2 = ownPrint d t b))

section Repair
variable {stack : BitVec 3} {shard : BitVec 11} {block : W16} {tables : List MemberTable} {data : RepairData}
  {sh : Shard} {s : State}

/-- A repair that is due notes a block that differs, takes it over from its source unless it waits, and ends with the
last block settled. -/
theorem execRepairComplete_due (hsh : shardOf s stack.toNat shard.toNat = some sh)
    (hrep : s.ck.repair.contains (stack.toNat, shard.toNat) = true) (htorn : sh.torn = false) (hinv : sh.invalid = false)
    (hm : block.toNat < sdPrints sh.desc) (hq : s.stp.q ≠ 0) :
    execRepairComplete stack shard block tables data s = .next (
      let k := stack.toNat
      let i := shard.toNat
      let m := block.toNat
      let ms := memberPrints (s.stp.own_ / s.stp.q) sh tables
      let named := sget none s.ck.named (shardKey k i)
      let source := blockSource (ms s m) named
      let differs := (ms s m).any (fun x => x.2.2 ≠ ownPrint sh.desc s m)
      let print := (((ms s m).find? (fun x => x.1 = source.1)).map (fun x => x.2.2)).getD (ownPrint sh.desc s m)
      let v := if !differs then s else if source.2.2 then markSuspect k i m s else faultEvent source.2.1 k i m s
      let t := if differs && !repairWaits named v source.2.2 && decide (print ≠ ownPrint sh.desc v m) then
          copyBlock k i sh.desc m print data v else v
      if (List.range (sdPrints sh.desc)).all (blockSettled (ms t) sh.desc named v t) then repairDone k i t else t) := by
  simp only [execRepairComplete, hsh, hrep, htorn, hinv, Nat.not_le.mpr hm, hq, Bool.not_true, decide_false, Bool.or_self,
    Bool.false_eq_true, if_false]
  rfl

end Repair

/-! ## The obligation -/

/-- Settles O52: in the state of the copy or the repair that each event needs, its command takes the branch stated
above. -/
theorem checkpointEvents : Obligations.CheckpointEvents := by
  unfold Obligations.CheckpointEvents
  refine ⟨?complete, ?pause, ?abandon, ?repair⟩
  case complete => exact fun c s hc hstage hrun hack hreach => execCkptCopyComplete_acked hc hstage hrun hack hreach
  case pause =>
    intro c s hc asked
    exact ⟨execCkptPauseRetry_runs hc, execCkptPauseRetry_pauses hc, execCkptPauseRetry_early hc,
      execCkptPauseRetry_asks hc, execCkptPauseRetry_sends hc, execCkptPauseRetry_resumes hc⟩
  case abandon => exact fun c s => execCkptAbandon_due
  case repair =>
    intro stack shard block tables data sh s k i m own members named source agree print waits ended noted hsh hrep htorn
      hinv hm hq
    have hdiff : (members s m).any (fun x => x.2.2 ≠ own s m) = !agree := by
      simp only [agree, List.not_all_eq_any_not, ne_eq, decide_not]
    have hexec (v : State) (hv : v = if agree then s else noted) :
        exec (.repairComplete stack shard block tables data) s = .next (ended v (
          if !agree && !waits v source.2.2 && decide (print ≠ own v m) then copyBlock k i sh.desc m print data v
          else v)) := by
      have hdue : execRepairComplete stack shard block tables data s = .next (
          let differs := (members s m).any (fun x => x.2.2 ≠ own s m)
          let v := if !differs then s else noted
          ended v (if differs && !waits v source.2.2 && decide (print ≠ own v m) then
            copyBlock k i sh.desc m print data v else v)) :=
        execRepairComplete_due hsh hrep htorn hinv hm hq
      simp only [hdiff, Bool.not_not] at hdue
      rw [hv]
      exact hdue
    refine ⟨fun ha => ?_, fun ha hw hp => ?_, fun ha hwp => ?_⟩
    · rw [hexec s (by rw [ha]; rfl), ha]
      rfl
    · rw [hexec noted (by rw [ha]; rfl), ha, hw, decide_eq_true hp]
      rfl
    · rw [hexec noted (by rw [ha]; rfl), ha]
      obtain hw | hp := hwp
      · rw [hw]
        rfl
      · rw [decide_eq_false (not_not.mpr hp), Bool.and_false]
        rfl

end Sys2Proof.Machine
end

