-- ==== Sys2Proof/Proofs/EventReports.lean ====
section
/-!
SUPPORT. What reporting leaves alone (R415, R438, R446, R452): counters, the sticky log, events, interrupts and
dropped replies touch the host interface, the counters, the log and what leaves the module, and nothing else of the
state.
-/
namespace Sys2Proof.Machine

/-- `t` differs from `s` only in what a report touches. -/
structure Reports (s t : State) : Prop where
  eq : t = { s with ctr := t.ctr, out := t.out, slog := t.slog, host := t.host }

theorem Reports.refl (s : State) : Reports s s := ⟨rfl⟩

theorem Reports.trans {s t u : State} (h : Reports s t) (h' : Reports t u) : Reports s u := by
  constructor
  rw [h'.eq, h.eq]

theorem Reports.foldl {β : Type} {f : State → β → State} (hf : ∀ s x, Reports s (f s x)) (l : List β) (s : State) :
    Reports s (l.foldl f s) := by
  induction l generalizing s with
  | nil => exact .refl s
  | cons x l ih => exact (hf s x).trans (ih _)

section Fields
variable {s t : State} (h : Reports s t)
include h

theorem Reports.pending : t.pending = s.pending := by rw [h.eq]
theorem Reports.mem : t.mem = s.mem := by rw [h.eq]
theorem Reports.regs : t.regs = s.regs := by rw [h.eq]
theorem Reports.cfg : t.cfg = s.cfg := by rw [h.eq]
theorem Reports.tm : t.tm = s.tm := by rw [h.eq]
theorem Reports.pwr : t.pwr = s.pwr := by rw [h.eq]

theorem Reports.getReg (a : Nat) : getReg t a = getReg s a := by
  unfold Machine.getReg
  rw [h.regs]

end Fields

/-! ## What reports -/

theorem reports_bump (s : State) (a : Nat) : Reports s (bump s a) := ⟨rfl⟩
theorem reports_emit (o : Output) (s : State) : Reports s (emit o s) := ⟨rfl⟩
theorem reports_host (s : State) (v : HostIf) : Reports s { s with host := v } := ⟨rfl⟩

theorem reports_slogPut (r : Nat) (s : State) : Reports s (slogPut r s) := by
  unfold slogPut
  split_ifs <;> exact ⟨rfl⟩

theorem reports_slog (blk inst off addr task detail : Nat) (s : State) :
    Reports s (slog blk inst off addr task detail s) := reports_slogPut _ s

theorem reports_signal (v : Nat) (s : State) : Reports s (signal v s) := by
  unfold signal
  split <;> exact ⟨rfl⟩

theorem reports_eventWrite (code detail source : Nat) (s : State) : Reports s (eventWrite code detail source s) :=
  ((reports_emit _ s).trans (reports_host _ _)).trans (reports_signal _ _)

theorem reports_postEvent (code detail source : Nat) (s : State) : Reports s (postEvent code detail source s) := by
  unfold postEvent
  dsimp only
  split_ifs
  · exact .refl s
  · exact reports_host s _
  · exact reports_bump s _
  · exact reports_eventWrite _ _ _ s
  · exact (reports_bump s _).trans (reports_host _ _)

theorem reports_dropReply (r : ReplyTo) (status detail : Nat) (s : State) : Reports s (dropReply r status detail s) := by
  unfold dropReply
  refine Reports.trans ?_ (reports_postEvent _ _ _ _)
  split
  · exact (reports_bump s _).trans (reports_host _ _)
  · exact ((reports_bump s _).trans (reports_bump _ _)).trans (reports_host _ _)

theorem reports_dropHeld (s : State) : Reports s (dropHeld s) := by
  unfold dropHeld
  refine Reports.trans ?emptied (Reports.foldl ?dropped _ _)
  case emptied => exact reports_host s _
  case dropped => exact fun t e => reports_dropReply e.1 e.2.1 e.2.2 t

end Sys2Proof.Machine
end

