-- ==== Sys2Proof/Proofs/PoolDrains.lean ====
section
/-!
SUPPORT. What the memory path leaves alone (R180 to R183, R194, R195, R235): a pool entry that is checked, merged and
written changes memory, its tables, budgets and counters, and nothing else of the state.
-/
namespace Sys2Proof.Machine

/-- `t` differs from `s` only in what an access of the memory path touches. -/
structure MemoryWork (s t : State) : Prop where
  eq : t = { s with
    mem := t.mem, poison := t.poison, upset := t.upset, ctr := t.ctr, slog := t.slog, piers := t.piers, chans := t.chans
    stackTab := t.stackTab, bud := t.bud, cbl := t.cbl }

namespace MemoryWork

theorem refl (s : State) : MemoryWork s s := ⟨rfl⟩

theorem trans {s t u : State} (h : MemoryWork s t) (h' : MemoryWork t u) : MemoryWork s u := by
  constructor
  rw [h'.eq, h.eq]

theorem foldl {β : Type} {f : State → β → State} (hf : ∀ s x, MemoryWork s (f s x)) (l : List β) (s : State) :
    MemoryWork s (l.foldl f s) := by
  induction l generalizing s with
  | nil => exact refl s
  | cons x l ih => exact (hf s x).trans (ih _)

theorem ite {c : Prop} [Decidable c] {s t u : State} (h : MemoryWork s t) (h' : MemoryWork s u) :
    MemoryWork s (if c then t else u) := by
  split
  · exact h
  · exact h'

theorem iteSnd {c : Prop} [Decidable c] {s : State} {p q : Fetched × State} (h : MemoryWork s p.2)
    (h' : MemoryWork s q.2) : MemoryWork s (if c then p else q).2 := by
  split
  · exact h
  · exact h'

theorem pending {s t : State} (h : MemoryWork s t) : t.pending = s.pending := by rw [h.eq]
theorem tm {s t : State} (h : MemoryWork s t) : t.tm = s.tm := by rw [h.eq]

end MemoryWork

/-! ## Leaves of the path -/

theorem work_bump (s : State) (a : Nat) : MemoryWork s (bump s a) := ⟨rfl⟩
theorem work_bumpN (s : State) (a n : Nat) : MemoryWork s (bumpN s a n) := ⟨rfl⟩
theorem work_setPier (s : State) (p : Nat) (v : Pier) : MemoryWork s (setPier s p v) := ⟨rfl⟩
theorem work_setChan (s : State) (g : Nat) (v : Channel) : MemoryWork s (setChan s g v) := ⟨rfl⟩
theorem work_setStack (s : State) (k : Nat) (v : Stack) : MemoryWork s (setStack s k v) := ⟨rfl⟩
theorem work_setPoison (s : State) (a : Nat) (p : Bool) : MemoryWork s (setPoison s a p) := ⟨rfl⟩
theorem work_clearUpset (a : Nat) (s : State) : MemoryWork s (clearUpset a s) := ⟨rfl⟩
theorem work_storeBytes (s : State) (a : Nat) (bs : List Byte) : MemoryWork s (storeBytes s a bs) := ⟨rfl⟩
theorem work_markEcc (a : Nat) (s : State) : MemoryWork s (markEcc a s) := ⟨rfl⟩

theorem work_slog (blk inst off addr task detail : Nat) (s : State) : MemoryWork s (slog blk inst off addr task detail s) := by
  unfold slog slogAdd slogPut
  split_ifs <;> exact ⟨rfl⟩

theorem work_charge (c : Nat) (r : Resource) (n : Nat) (s : State) : MemoryWork s (charge c r n s) := by
  unfold charge
  dsimp only
  split_ifs <;> exact ⟨rfl⟩

theorem work_poisonLine (k a : Nat) (s : State) : MemoryWork s (poisonLine k a s) :=
  (((work_clearUpset a s).trans (work_setPoison _ a true)).trans (work_bump _ _)).trans (work_storeBytes _ _ _)

theorem work_repairAdd (k row : Nat) (s : State) : MemoryWork s (repairAdd k row s) := by
  unfold repairAdd
  exact .ite (.refl s) (.ite (work_setStack s k _) (work_bump s _))

/-! ## A line read through the line code -/

theorem work_countPlnEcc (p a ce ue : Nat) (s : State) : MemoryWork s (countPlnEcc p a ce ue s) := by
  have hce : MemoryWork s (if ce = 0 then s else bumpN s (cPln p 0x348) ce) := .ite (.refl s) (work_bumpN s _ _)
  exact .ite hce ((hce.trans (work_bumpN _ _ _)).trans (work_slog _ _ _ _ _ _ _))

theorem work_countRebuild (cls : Nat) (corbel : Bool) (k c : Nat) (s : State) :
    MemoryWork s (countRebuild cls corbel k c s) :=
  (work_bump s _).trans (.foldl (fun s x => work_charge cls (chanRes corbel k x) 1 s) _ _)

theorem work_correctedLine (k c q a : Nat) (s : State) : MemoryWork s (correctedLine k c q a s) := by
  unfold correctedLine
  extract_lets t st row ls ls' u v g ch ms n w lim
  have hlisted : MemoryWork s v := by
    have hu : MemoryWork s u := (work_bump s _).trans (work_setStack t k _)
    exact .ite (hu.trans (work_repairAdd _ _ _)) hu
  have hcounted : MemoryWork s w := hlisted.trans (work_setChan v g _)
  exact .ite (hcounted.trans (work_setChan _ _ _)) hcounted

theorem work_rebuildLine (cls : Nat) (corbel : Bool) (k c a : Nat) (s : State) :
    MemoryWork s (rebuildLine cls corbel k c a s).2 := by
  have hmate : MemoryWork s (if mateHeld s k c then bump s (cTrm k 0x140) else s) := .ite (work_bump s _) (.refl s)
  exact .iteSnd (hmate.trans (work_countRebuild _ _ _ _ _)) (hmate.trans (work_poisonLine _ _ _))

theorem work_treatLine (cls : Nat) (corbel : Bool) (k c q a : Nat) (r : LineResult) (s : State) :
    MemoryWork s (treatLine cls corbel k c q a r s).2 := by
  cases r with
  | good => exact .refl s
  | corrected diff =>
    exact ((((work_correctedLine k c q _ s).trans (work_charge _ _ _ _)).trans (work_clearUpset _ _)).trans
      (work_storeBytes _ _ _)).trans (work_markEcc _ _)
  | poison => exact (work_bump s _).trans (work_markEcc _ _)
  | uncorrectable =>
    have hmark : MemoryWork s (markEcc a (repairAdd k (dramRow c q) (bump s (cTrm k 0x108)))) :=
      ((work_bump s _).trans (work_repairAdd _ _ _)).trans (work_markEcc _ _)
    unfold treatLine
    dsimp only
    split
    · refine .trans (hmark.trans (work_rebuildLine cls corbel k c a _)) ?_
      exact .ite ((work_clearUpset _ _).trans (work_charge _ _ _ _)) (.refl _)
    · exact hmark.trans (work_poisonLine _ _ _)

theorem work_readLine (cls : Nat) (corbel : Bool) (k c q a : Nat) (s : State) :
    MemoryWork s (readLine cls corbel k c q a s).2 :=
  (work_charge _ _ _ s).trans (work_treatLine _ _ _ _ _ _ _ _)

theorem work_readPoison (k a : Nat) (s : State) : MemoryWork s (readPoison k a s).2 :=
  (work_bump s _).trans (work_markEcc _ _)

theorem work_fetchLine (cls : Nat) (corbel : Bool) (a k c q : Nat) (s : State) :
    MemoryWork s (fetchLine cls corbel a k c q s).2 := by
  have hpoison := work_readPoison k a s
  have hlost : MemoryWork s (if !regionBraced s (a / 2 ^ 30) then readPoison k a s
      else if chanRebuilt s k c then
        if chanLost s k (reserveChan s k c q) then readPoison k a s
        else readLine cls corbel k (reserveChan s k c q) (reserveRow s k c q) a s
      else if sget false s.poison (a / 64) || (stripeMates s k c).any (chanLost s k) then readPoison k a s
      else rebuildLine cls corbel k c a s).2 :=
    .iteSnd hpoison (.iteSnd (.iteSnd hpoison (work_readLine _ _ _ _ _ _ s))
      (.iteSnd hpoison (work_rebuildLine _ _ _ _ _ s)))
  exact .iteSnd hpoison (.iteSnd hlost (.iteSnd
    (.iteSnd (work_countRebuild _ _ _ _ s) ((work_bump s _).trans (work_readLine _ _ _ _ _ _ _)))
    (work_readLine _ _ _ _ _ _ s)))

/-! ## A pool entry written to Treim -/

theorem work_settleLine (cls : Nat) (corbel held : Bool) (a m k c q : Nat) (s : State) :
    MemoryWork s (settleLine cls corbel held a m k c q s) := by
  unfold settleLine
  refine .ite (work_bump s _) ?_
  split
  next k' c' q' hplace =>
    extract_lets parity cleared new
    have hparity (t : State) : MemoryWork t (parity t) :=
      .ite (.trans (.ite (work_charge _ _ _ t) (.refl t)) (work_charge _ _ _ _)) (.refl t)
    have hwritten (t : State) : MemoryWork t (parity (charge cls (chanRes corbel k' c') 1 (clearUpset a t))) :=
      ((work_clearUpset a t).trans (work_charge _ _ _ _)).trans (hparity _)
    have hcleared : MemoryWork s cleared := .ite ((work_setPoison s _ _).trans (work_bump _ _)) (.refl s)
    have hread : MemoryWork s (if held then readLine cls corbel k' c' q' a s else fetchLine cls corbel a k c q s).2 :=
      .iteSnd (work_readLine _ _ _ _ _ _ s) (work_fetchLine _ _ _ _ _ _ s)
    refine .ite (hcleared.trans (hwritten _)) (.ite (work_bump s _) ?_)
    exact .ite hread (.trans (.trans hread (.ite (.refl _) (work_storeBytes _ _ _))) (hwritten _))

theorem work_poolSet (p g : Nat) (e : Option PoolEntry) (s : State) : MemoryWork s (poolSet p g e s) := work_setPier s p _

theorem work_poolCheck (p g : Nat) (s : State) : MemoryWork s (poolCheck p g s) := by
  unfold poolCheck
  split
  · exact .refl s
  · refine .ite (.refl s) ?_
    refine .trans (.trans (work_countPlnEcc _ _ _ _ s) (.foldl (fun s i => ?_) _ _)) (work_poolSet _ _ _ _)
    split
    · exact work_poisonLine _ _ s
    · exact .refl s

theorem work_settleEntry (e : PoolEntry) (s : State) : MemoryWork s (settleEntry e s) := by
  unfold settleEntry
  split
  · exact .refl s
  · exact .foldl (fun s i => .ite (.refl s) (work_settleLine _ _ _ _ _ _ _ _ s)) _ _

theorem work_releaseOne (p g : Nat) (s : State) : MemoryWork s (releaseOne p g s) := by
  refine (work_poolCheck p g s).trans ?_
  unfold releaseOne
  dsimp only
  split
  · exact .refl _
  · exact .ite (work_poolSet _ _ _ _) ((work_poolSet _ _ _ _).trans (work_settleEntry _ _))

theorem work_poolRelease (p g : Nat) (s : State) : MemoryWork s (poolRelease p g s) := by
  unfold poolRelease
  split
  · exact .refl s
  · split
    · exact work_releaseOne p g s
    · refine .trans (.trans ?_ (.foldl (fun s c => work_charge _ _ _ s) _ _)) (.foldl (fun s x => work_releaseOne _ _ s) _ _)
      exact .ite (work_bump s _) ((work_bump s _).trans (work_bump _ _))

theorem work_poolDrain (p : Nat) (sel : PoolEntry → Bool) (s : State) : MemoryWork s (poolDrain p sel s) :=
  .foldl (fun s (e : PoolEntry) => work_poolRelease p e.granule s) _ s

theorem work_stopRetrain (g : Nat) (s : State) : MemoryWork s (stopRetrain g s) := by
  unfold stopRetrain
  exact .ite ((work_setChan s g _).trans (work_charge _ _ _ _)) (.refl s)

end Sys2Proof.Machine
end

