-- ==== Sys2Proof/Proofs/RegisterWrites.lean ====
section
/-!
SUPPORT. Accesses of the register window (chapter 16): what a write through the page, or through its set, clear or
toggle address, leaves of a register of each class, and what an access at an address without a register does.
-/
namespace Sys2Proof.Machine

/-! ## Writes by class (R464 to R466) -/

section Writes
variable {s : State} {a : Nat} {d : RegDef} (hp : powered s = true) (hd : regAt a = some d)

/-- A register of a class that is never written, or a requester that may not write it. -/
def RegDef.unwritable (d : RegDef) (s : State) (req : Requester) (a : Nat) : Prop :=
  d.cls = .ro ∨ d.cls = .rs ∨ d.cls = .rc ∨ d.cls = .ctr ∨ mayWrite s req d a = false

theorem storeRw_of_mayWrite {req : Requester} (hm : mayWrite s req d a = true) (w : Nat) :
    storeRw req d a w s =
      let v := acceptWrite d a (getReg s a) w
      let t := if v.2 then bump s cWriteIgn else s
      settle a v.1 (if d.crc then { t with cfg := { t.cfg with dirty := t.cfg.dirty || t.cfg.running } } else t) := by
  simp only [storeRw, hm, Bool.not_true, Bool.false_eq_true, if_false]
  rfl

theorem storeRw_of_unwritable {req : Requester} (hm : mayWrite s req d a = false) (w : Nat) :
    storeRw req d a w s = bump s cWriteIgn := by
  simp only [storeRw, hm, Bool.not_false, if_true]
  rfl

theorem storeWo_of_mayWrite {req : Requester} (hm : mayWrite s req d a = true) (ha : a ≠ topBase + 0x28) (w : Nat) :
    storeWo req d a w s = setReg s a w := by
  simp only [storeWo, hm, ha, Bool.not_true, Bool.false_eq_true, if_false]

include hp hd

theorem writePage_rw (hc : d.cls = .rw) (req : Requester) (w : Nat) : writePage req a w s = storeRw req d a w s := by
  simp only [writePage, hp, hd, hc, Bool.not_true, Bool.false_eq_true, if_false]

theorem writePage_wo (hc : d.cls = .wo) (req : Requester) (w : Nat) : writePage req a w s = storeWo req d a w s := by
  simp only [writePage, hp, hd, hc, Bool.not_true, Bool.false_eq_true, if_false]

theorem writePage_of_unwritable {req : Requester} (h : d.unwritable s req a) (w : Nat) :
    writePage req a w s = bump s cWriteIgn := by
  unfold RegDef.unwritable at h
  cases hc : d.cls <;> simp only [hc, reduceCtorEq, false_or, true_or] at h
  case rw => rw [writePage_rw hp hd hc, storeRw_of_unwritable h]
  case wo => rw [writePage_wo hp hd hc, storeWo, h]; rfl
  all_goals
    simp only [writePage, hp, hd, hc, Bool.not_true, Bool.false_eq_true, if_false]
    rfl

theorem writeAlias_of_unwritable {req : Requester} (h : d.unwritable s req a ∨ d.cls = .wo) (kind w : Nat) :
    writeAlias req kind a w s = bump s cWriteIgn := by
  unfold RegDef.unwritable at h
  simp only [writeAlias, hp, hd, Bool.not_true, Bool.false_eq_true, if_false]
  cases hc : d.cls <;> simp only [hc, reduceCtorEq, false_or, or_false] at h
  case rw => exact storeRw_of_unwritable h _
  all_goals rfl

end Writes

/-! ## Alias writes (R468) -/

/-- Every row's RW bits lie in the register's 32 bits. -/
theorem regTable_rw_lt : ∀ d ∈ regTable, d.rw < 2 ^ 32 := by decide +kernel

theorem rw_lt_of_regAt {a : Nat} {d : RegDef} (hd : regAt a = some d) : d.rw < 2 ^ 32 :=
  regTable_rw_lt d (List.mem_of_find?_eq_some hd)

/-- A write depends only on the RW bits of its value. -/
theorem storeRw_congr {a w v : Nat} {d : RegDef} (h : w &&& d.rw = v &&& d.rw) (req : Requester) (s : State) :
    storeRw req d a w s = storeRw req d a v s := by
  have haccept (old : Nat) : acceptWrite d a old w = acceptWrite d a old v := by rw [acceptWrite, acceptWrite, h]
  simp only [storeRw, haccept]

/-- Taking its bits of `m` from `x` clears them. -/
theorem testBit_sub_and (x m i : Nat) : (x - (x &&& m)).testBit i = (x.testBit i && !m.testBit i) := by
  have hle : x &&& m ≤ x := Nat.and_le_left
  have hhalf : (x &&& m) / 2 = x / 2 &&& m / 2 := Nat.and_div_two
  have hodd : (x &&& m) % 2 = 1 ↔ x % 2 = 1 ∧ m % 2 = 1 := Nat.and_mod_two_eq_one
  induction i generalizing x m with
  | zero =>
    rw [Nat.testBit_zero, Nat.testBit_zero, Nat.testBit_zero, Bool.eq_iff_iff]
    simp only [Bool.and_eq_true, Bool.not_eq_true', decide_eq_true_eq, decide_eq_false_iff_not]
    omega
  | succ i ih =>
    rw [Nat.testBit_succ, Nat.testBit_succ, Nat.testBit_succ,
      ← ih (x / 2) (m / 2) Nat.and_le_left Nat.and_div_two Nat.and_mod_two_eq_one, ← hhalf]
    congr 1
    omega

/-- Of the value that a combining write forms, a write takes the new value's RW bits. -/
theorem combined_and_rw (x new rw : Nat) : ((x - (x &&& rw)) ||| (new &&& rw)) &&& rw = new &&& rw := by
  refine Nat.eq_of_testBit_eq fun i => ?_
  rw [Nat.testBit_and, Nat.testBit_or, testBit_sub_and, Nat.testBit_and]
  cases x.testBit i <;> cases new.testBit i <;> cases rw.testBit i <;> rfl

/-- What the aliases make of the register's value `x` and the value written: 1 set, 2 clear, 3 toggle. -/
def aliasValue (kind x w : Nat) : Nat := if kind = 1 then x ||| w else if kind = 2 then x - (x &&& w) else x ^^^ w

/-- The value written through the page that a combining write stands for: the RW bits of `new`, the others of `x`. -/
def combinedBits (x rw new : W32) : W32 := (x &&& ~~~rw) ||| (new &&& rw)

/-- Of the combined value a write takes the new value's RW bits. -/
theorem combinedBits_and_rw (x rw new : W32) : combinedBits x rw new &&& rw = new &&& rw := by
  ext i hi
  simp only [combinedBits, BitVec.getElem_and, BitVec.getElem_or, BitVec.getElem_not]
  cases new[i] <;> cases x[i] <;> cases rw[i] <;> rfl

/-- Only the lower 32 bits of a value matter to the RW bits of a register. -/
theorem and_rw_congr {v w rw : Nat} (hrw : rw < 2 ^ 32) (h : v % 2 ^ 32 = w % 2 ^ 32) : v &&& rw = w &&& rw := by
  have hcut (n : Nat) : n &&& rw = n % 2 ^ 32 &&& rw := by
    rw [← Nat.mod_eq_of_lt (Nat.and_lt_two_pow n hrw), Nat.and_mod_two_pow, Nat.mod_eq_of_lt hrw]
  rw [hcut v, hcut w, h]

section Combining
variable {s : State} {a : Nat} {d : RegDef} (hd : regAt a = some d) (hc : d.cls = .rw)
include hd hc

/-- R468. A write through one of the aliases is the write through the page of the combined value. -/
theorem writeAlias_eq_writePage {kind w : Nat} {new : W32} (hnew : aliasValue kind (getReg s a) w % 2 ^ 32 = new.toNat)
    (req : Requester) :
    writeAlias req kind a w s =
      writePage req a (combinedBits (BitVec.ofNat 32 (getReg s a)) (BitVec.ofNat 32 d.rw) new).toNat s := by
  cases hp : powered s
  case false => simp only [writeAlias, writePage, hp, Bool.not_false, if_true]
  case true =>
    have hrw := rw_lt_of_regAt hd
    have hpage := congrArg BitVec.toNat (combinedBits_and_rw (BitVec.ofNat 32 (getReg s a)) (BitVec.ofNat 32 d.rw) new)
    rw [BitVec.toNat_and, BitVec.toNat_and, BitVec.toNat_ofNat, Nat.mod_eq_of_lt hrw] at hpage
    rw [writePage_rw hp hd hc]
    simp only [writeAlias, hp, hd, hc, Bool.not_true, Bool.false_eq_true, if_false]
    refine storeRw_congr ?_ req s
    rw [hpage, combined_and_rw]
    exact and_rw_congr hrw (hnew.trans (Nat.mod_eq_of_lt new.isLt).symm)

end Combining

theorem aliasValue_set (x : Nat) (w : W32) : aliasValue 1 x w.toNat % 2 ^ 32 = (BitVec.ofNat 32 x ||| w).toNat := by
  rw [BitVec.toNat_or, BitVec.toNat_ofNat, aliasValue, if_pos rfl, Nat.or_mod_two_pow, Nat.mod_eq_of_lt w.isLt]

theorem aliasValue_toggle (x : Nat) (w : W32) : aliasValue 3 x w.toNat % 2 ^ 32 = (BitVec.ofNat 32 x ^^^ w).toNat := by
  rw [BitVec.toNat_xor, BitVec.toNat_ofNat, aliasValue, if_neg (by decide), if_neg (by decide), Nat.xor_mod_two_pow,
    Nat.mod_eq_of_lt w.isLt]

theorem aliasValue_clear (x : Nat) (w : W32) : aliasValue 2 x w.toNat % 2 ^ 32 = (BitVec.ofNat 32 x &&& ~~~w).toNat := by
  refine Nat.eq_of_testBit_eq fun i => ?_
  rw [aliasValue, if_neg (by decide), if_pos rfl, Nat.testBit_mod_two_pow, testBit_sub_and, BitVec.toNat_and,
    Nat.testBit_and, BitVec.toNat_ofNat, Nat.testBit_mod_two_pow, BitVec.testBit_toNat, BitVec.testBit_toNat,
    BitVec.getLsbD_not]
  cases decide (i < 32) <;> simp

/-- HIF_JOBCTL.ABORTED as a toggle leaves it: clear, whether it was set or not (R453, R468). -/
theorem toggle_aborted (x : Nat) : (flag ((BitVec.ofNat 32 x ^^^ 0x40000000#32).toNat) 30 && flag x 30) = false := by
  rw [flag, flag, BitVec.testBit_toNat, BitVec.getLsbD_xor, BitVec.getLsbD_ofNat]
  cases x.testBit 30 <;> rfl

/-- ABORTED of the value that HIF_JOBCTL is given. -/
theorem flag_aborted (v : Nat) (b : Bool) : flag (v / 2 ^ 31 * 2 ^ 31 + bit b * 2 ^ 30) 30 = b := by
  rw [flag, Nat.testBit_eq_decide_div_mod_eq]
  cases b
  · exact decide_eq_false (by rw [bit, if_neg Bool.false_ne_true]; omega)
  · exact decide_eq_true (by rw [bit, if_pos rfl]; omega)

/-- A toggle of HIF_JOBCTL.ABORTED by the host clears it and never sets it. -/
theorem flag_jobctl_toggled {s : State} (hp : powered s = true) :
    flag (getReg (writeAlias .host 3 (hifBase + 4) (0x40000000#32).toNat s) (hifBase + 4)) 30 = false := by
  have hpage := congrArg BitVec.toNat (combinedBits_and_rw (BitVec.ofNat 32 (getReg s (hifBase + 4))) 0xC0000000
    (BitVec.ofNat 32 (getReg s (hifBase + 4)) ^^^ 0x40000000#32))
  rw [writeAlias_eq_writePage regAt_hifJobctl rfl (aliasValue_toggle _ 0x40000000#32),
    writePage_of_accepted hp regAt_hifJobctl rfl rfl (lockHolds_of_unlockable rfl rfl rfl s) (acceptWrite_plain rfl _ _ _),
    settle_hifJobctl, getReg_setReg_same, flag_aborted]
  rw [BitVec.toNat_and, BitVec.toNat_and] at hpage
  have hrw : flag ((BitVec.ofNat 32 (getReg s (hifBase + 4)) ^^^ 0x40000000#32).toNat &&& 0xC0000000) 30 =
      flag (BitVec.ofNat 32 (getReg s (hifBase + 4)) ^^^ 0x40000000#32).toNat 30 := by
    rw [flag, Nat.testBit_and, show (0xC0000000 : Nat).testBit 30 = true from rfl, Bool.and_true]
    rfl
  exact (congrArg (fun v => flag v 30 && flag (getReg s (hifBase + 4)) 30) hpage).trans
    ((congrArg (· && flag (getReg s (hifBase + 4)) 30) hrw).trans (toggle_aborted _))

/-! ## Addresses without a register (R462) -/

theorem slogPut_out (r : Nat) (s : State) : (slogPut r s).out = s.out := by
  unfold slogPut
  split_ifs <;> rfl

/-- A record changes no counter but that of the records lost. -/
theorem counter_slogPut {b : Nat} (hb : cSlogOvwr ≠ b) (r : Nat) (s : State) : counter (slogPut r s) b = counter s b := by
  unfold slogPut
  split_ifs
  · rfl
  · rfl
  · exact (counter_bumpN _ _ _ _).trans (if_neg hb)

section Unmapped
variable {s : State} {a : Nat} (hp : powered s = true) (hd : regAt a = none)
include hd

theorem readRegister_unmapped (req : Requester) (viaAlias : Bool) :
    readRegister req viaAlias a s = (0, countUnmapped (0x00A000000000 + a) s) := by
  rw [readRegister, hd]

include hp

theorem writePage_unmapped (req : Requester) (w : Nat) : writePage req a w s = countUnmapped (0x00A000000000 + a) s := by
  simp only [writePage, hp, hd, Bool.not_true, Bool.false_eq_true, if_false]

theorem writeAlias_unmapped (req : Requester) (kind w : Nat) :
    writeAlias req kind a w s = countUnmapped (0x00A000000000 + a) s := by
  simp only [writeAlias, hp, hd, Bool.not_true, Bool.false_eq_true, if_false]

end Unmapped

/-! ## The obligations -/

/-- Settles O25: what the page and the aliases do to a register of each class, by whether its row and the locks admit
the requester. -/
theorem registerWrites : Obligations.RegisterWrites := by
  unfold Obligations.RegisterWrites
  refine ⟨?written, ?unwritable, ?writeOnly⟩
  case written =>
    intro req addr value d s a w hp hd hc hm
    exact congrArg Host.Outcome.next ((writePage_rw hp hd hc req _).trans (storeRw_of_mayWrite hm _))
  case unwritable =>
    intro req addr value d s a hp hd h
    exact ⟨congrArg Host.Outcome.next (writePage_of_unwritable hp hd h _),
      congrArg Host.Outcome.next (writeAlias_of_unwritable hp hd (.inl h) 1 _),
      congrArg Host.Outcome.next (writeAlias_of_unwritable hp hd (.inl h) 2 _),
      congrArg Host.Outcome.next (writeAlias_of_unwritable hp hd (.inl h) 3 _)⟩
  case writeOnly =>
    intro req addr value d s a hp hd hc
    refine ⟨congrArg Host.Outcome.next (writeAlias_of_unwritable (req := req) hp hd (.inr hc) 1 _),
      congrArg Host.Outcome.next (writeAlias_of_unwritable (req := req) hp hd (.inr hc) 2 _),
      congrArg Host.Outcome.next (writeAlias_of_unwritable (req := req) hp hd (.inr hc) 3 _), fun hm ha => ?_⟩
    exact congrArg Host.Outcome.next ((writePage_wo hp hd hc req _).trans (storeWo_of_mayWrite hm ha _))

/-- Settles O26: what the aliases make of a register and the value combined for the page agree on the register's RW
bits, and a write depends on no others. -/
theorem aliasWritesCombine : Obligations.AliasWritesCombine := by
  unfold Obligations.AliasWritesCombine
  refine ⟨?combined, ?written, ?aborted⟩
  case combined =>
    intro req addr value d s x rw combined hd hc
    exact ⟨congrArg Host.Outcome.next (writeAlias_eq_writePage hd hc (aliasValue_set _ value) req),
      congrArg Host.Outcome.next (writeAlias_eq_writePage hd hc (aliasValue_clear _ value) req),
      congrArg Host.Outcome.next (writeAlias_eq_writePage hd hc (aliasValue_toggle _ value) req)⟩
  case written =>
    intro req addr value d s a x rw written hp hd hc hm
    have hpage (new : W32) : writePage req a (combinedBits x rw new).toNat s = written new :=
      (writePage_rw hp hd hc req _).trans (storeRw_of_mayWrite hm _)
    exact ⟨congrArg Host.Outcome.next ((writeAlias_eq_writePage hd hc (aliasValue_set _ value) req).trans (hpage _)),
      congrArg Host.Outcome.next ((writeAlias_eq_writePage hd hc (aliasValue_clear _ value) req).trans (hpage _)),
      congrArg Host.Outcome.next ((writeAlias_eq_writePage hd hc (aliasValue_toggle _ value) req).trans (hpage _))⟩
  case aborted =>
    intro addr s ha hp
    exact ⟨_, rfl, by rw [ha]; exact flag_jobctl_toggled hp⟩

/-- Settles O27: without a row a read answers 0 and a write is dropped, and each access is counted and logged. -/
theorem unmappedRegisters : Obligations.UnmappedRegisters := by
  unfold Obligations.UnmappedRegisters
  refine ⟨?access, ?counted⟩
  case access =>
    intro req addr value s u hp hd
    have hread (viaAlias : Bool) : readCmd req viaAlias addr.toNat s = emit (.readValue req addr.toNat 0) u := by
      rw [readCmd_powered hp, readRegister_unmapped hd]
    exact ⟨congrArg Host.Outcome.next (hread _), congrArg Host.Outcome.next (hread _),
      congrArg Host.Outcome.next (hread _), congrArg Host.Outcome.next (hread _),
      congrArg Host.Outcome.next (writePage_unmapped hp hd req _),
      congrArg Host.Outcome.next (writeAlias_unmapped hp hd req 1 _),
      congrArg Host.Outcome.next (writeAlias_unmapped hp hd req 2 _),
      congrArg Host.Outcome.next (writeAlias_unmapped hp hd req 3 _)⟩
  case counted =>
    intro a s
    exact ⟨(counter_slogPut (by decide) _ _).trans (counter_bump_same s cUnmapped), (reports_slogPut _ _).regs,
      (reports_slogPut _ _).mem, slogPut_out _ _⟩

end Sys2Proof.Machine
end

