-- ==== Sys2Proof/Proofs/ConfigurationPasses.lean ====
section
/-!
SUPPORT. The reference of the configuration CRC, its commits and its passes (R473 to R476), and the power limit
(R520): what a write of each of their registers does.
-/
namespace Sys2Proof.Machine

/-! ## The registers' rows (Tables 16-5 and 18-10) -/

theorem regAt_topCfgRef (hi : Bool) : regAt (topBase + (if hi then 0x24 else 0x20)) =
    some (rwHost (topBase + 0x20) 1 4 2 0xFFFFFFFF 0) := by
  cases hi <;> decide +kernel

theorem regAt_topCfgCommit : regAt (topBase + 0x28) = some { rowOf .wo (topBase + 0x28) 1 4 1 0 with host := true } := by
  decide +kernel

theorem regAt_pwrLimit : regAt (pwrBase + 0xC) = some (rwHost (pwrBase + 0xC) 1 4 1 0xFFF00000 0x96000000) := by
  decide +kernel

/-! ## The reference and its commits (R475) -/

theorem execCfgRefWrite_host {s : State} (hp : powered s = true) (hi : Bool) (value : W32) :
    execCfgRefWrite .host hi value s = .next (
      let t := setReg s (topBase + (if hi then 0x24 else 0x20)) value.toNat
      { t with cfg := { t.cfg with committed := false, adopt := false } }) := by
  have hv : value.toNat &&& 0xFFFFFFFF = value.toNat :=
    (Nat.and_two_pow_sub_one_eq_mod value.toNat 32).trans (Nat.mod_eq_of_lt value.isLt)
  cases hi with
  | false =>
    have hw := writePage_of_accepted (req := .host) (w := value.toNat) hp (regAt_topCfgRef false) rfl rfl
      (lockHolds_of_unlockable rfl rfl rfl s) (acceptWrite_plain rfl _ _ _)
    exact congrArg Host.Outcome.next (hw.trans (congrArg (fun v => settle (topBase + 0x20) v s) hv))
  | true =>
    have hw := writePage_of_accepted (req := .host) (w := value.toNat) hp (regAt_topCfgRef true) rfl rfl
      (lockHolds_of_unlockable rfl rfl rfl s) (acceptWrite_plain rfl _ _ _)
    exact congrArg Host.Outcome.next (hw.trans (congrArg (fun v => settle (topBase + 0x24) v s) hv))

/-- A host's write of TOP_CFG_COMMIT, which no lock covers. -/
theorem writePage_cfgCommit {s : State} (hp : powered s = true) (w : Nat) :
    writePage .host (topBase + 0x28) w s = commitWrite w s := by
  have hm : mayWrite s .host { rowOf .wo (topBase + 0x28) 1 4 1 0 with host := true } (topBase + 0x28) = true := by
    rw [mayWrite_eq, lockHolds_of_unlockable rfl rfl rfl]
    rfl
  rw [writePage_wo hp regAt_topCfgCommit rfl]
  simp only [storeWo, hm, Bool.not_true, Bool.false_eq_true, if_false, if_true]

/-- What a commit leaves of the configuration state. -/
theorem cfgCommit_cfg (s : State) : (cfgCommit s).cfg =
    { s.cfg with committed := true, mismatch := false, seen := false, adopt := false, beganAfter := false } := by
  simp only [cfgCommit, extendMr7]
  split <;> rfl

/-! ## Passes (R476) -/

section Pass
variable {s : State}

theorem execCfgCrcPassStart_due (hp : powered s = true) (hr : s.cfg.running = false) (hns : nsOf s % 64000 = 0) :
    execCfgCrcPassStart s = .next { s with cfg := { s.cfg with
      running := true, dirty := false, beganAfter := s.cfg.committed || s.cfg.adopt } } := by
  simp only [execCfgCrcPassStart, hp, hr, hns, ne_eq, not_true, decide_false, Bool.not_true, Bool.or_false,
    Bool.false_eq_true, if_false]

theorem execCfgCrcPassEnd_dirty (hr : s.cfg.running = true) (hd : s.cfg.dirty = true) :
    execCfgCrcPassEnd s = .next (bump { s with cfg := { s.cfg with running := false, dirty := false } } cCfgDirty) := by
  simp only [execCfgCrcPassEnd, hr, hd, Bool.not_true, Bool.false_eq_true, if_false, if_true]

/-- The state once a clean pass has loaded the CRC of every block. -/
def passLoaded (s : State) : State :=
  let blocks := (List.range 15).map (cfgBytes s)
  { s with cfg := { s.cfg with
    running := false, dirty := false, crc := crc64 blocks.flatten
    bcrc := blocks.map (fun b => if b.isEmpty then 0 else crc64 b), passSeq := (s.cfg.passSeq + 1) % 2 ^ 16 } }

theorem execCfgCrcPassEnd_clean (hr : s.cfg.running = true) (hd : s.cfg.dirty = false) :
    execCfgCrcPassEnd s = .next (
      let crc := crc64 ((List.range 15).map (cfgBytes s)).flatten
      if s.cfg.beganAfter && s.cfg.adopt then
        cfgCommit (setReg (setReg (passLoaded s) (topBase + 0x20) (crc % 2 ^ 32)) (topBase + 0x24) (crc / 2 ^ 32))
      else if s.cfg.beganAfter && s.cfg.committed then compareCfg crc s.cfg.bcrc (passLoaded s)
      else passLoaded s) := by
  have hblocks : (List.range 15).map (cfgBytes { s with cfg := { s.cfg with running := false, dirty := false } }) =
      (List.range 15).map (cfgBytes s) := rfl
  simp only [execCfgCrcPassEnd, hr, hd, Bool.not_true, Bool.false_eq_true, if_false]
  rcases Bool.eq_false_or_eq_true s.cfg.beganAfter with hb | hb
  · have hcond (b : Bool) : (s.cfg.beganAfter && b) = b := by rw [hb, Bool.true_and]
    rw [hcond, hcond]
    exact congrArg Host.Outcome.next (if_neg (by rw [hb]; decide))
  · have hcond (b : Bool) : (s.cfg.beganAfter && b) = false := by rw [hb, Bool.false_and]
    rw [hcond, hcond]
    exact congrArg Host.Outcome.next (if_pos (by rw [hb]; decide))

end Pass

section Compare
variable {crc : Nat} {s : State}

theorem compareCfg_equal (h : crc = getReg s (topBase + 0x24) * 2 ^ 32 + getReg s (topBase + 0x20)) (old : List Nat) :
    compareCfg crc old s = { s with cfg := { s.cfg with mismatch := false } } := if_pos h

theorem compareCfg_again (h : crc ≠ getReg s (topBase + 0x24) * 2 ^ 32 + getReg s (topBase + 0x20))
    (hm : s.cfg.mismatch = true) (old : List Nat) :
    compareCfg crc old s = bump { s with cfg := { s.cfg with mismatch := true, seen := true } } cCfgMismatch :=
  (if_neg h).trans (if_pos hm)

theorem compareCfg_cfg (h : crc ≠ getReg s (topBase + 0x24) * 2 ^ 32 + getReg s (topBase + 0x20)) (old : List Nat) :
    (compareCfg crc old s).cfg = { s.cfg with mismatch := true, seen := true } := by
  rw [compareCfg, if_neg h]
  dsimp only
  split
  · rfl
  · exact ((reports_postEvent _ _ _ _).trans (reports_slog _ _ _ _ _ _ _)).cfg

end Compare

/-! ## The power limit (R520) -/

/-- A value of PWR_LIMIT out of its range leaves LIMIT as it was. -/
theorem acceptWrite_pwrLimit (old : Nat) (w : W32) : acceptWrite (rwHost (pwrBase + 0xC) 1 4 1 0xFFF00000 0x96000000)
    (pwrBase + 0xC) old w.toNat =
      if 1000 ≤ field w.toNat 31 20 ∧ field w.toNat 31 20 ≤ 2400 then (w.toNat / 2 ^ 20 * 2 ^ 20, false)
      else (putField (w.toNat / 2 ^ 20 * 2 ^ 20) 31 20 (field old 31 20), true) := by
  have hv : w.toNat &&& 0xFFF00000 = w.toNat / 2 ^ 20 * 2 ^ 20 := and_highMask w.isLt (k := 20) (by omega)
  have hf : field (w.toNat / 2 ^ 20 * 2 ^ 20) 31 20 = field w.toNat 31 20 := field_clearLow (Nat.le_refl 20) _ _
  have hrules : fieldRules (pwrBase + 0xC) = [(31, 20, fun v => decide (1000 ≤ v) && decide (v ≤ 2400))] := rfl
  simp only [acceptWrite, hrules, List.foldl_cons, List.foldl_nil, rwHost, rwCrc, hv, hf, Bool.and_eq_true,
    decide_eq_true_eq]

section PowerLimit
variable {s : State} (hp : powered s = true)
include hp

/-- A write of PWR_LIMIT by the host with the lock clear. -/
theorem execPwrLimitWrite_open (value : W32) (hl : flag (getReg s (pwrBase + 0x10)) 0 = false) :
    execPwrLimitWrite .host value s = .next (
      if 1000 ≤ field value.toNat 31 20 ∧ field value.toNat 31 20 ≤ 2400 then
        setReg s (pwrBase + 0xC) (value.toNat / 2 ^ 20 * 2 ^ 20)
      else setReg (bump s cWriteIgn) (pwrBase + 0xC) (putField (value.toNat / 2 ^ 20 * 2 ^ 20) 31 20
        (field (getReg s (pwrBase + 0xC)) 31 20))) := by
  have hopen : lockHolds s (pwrBase + 0xC) = false :=
    lockHolds_of_none (Bool.and_false _) (Bool.and_false _) (by rw [hl, Bool.false_and])
  have hm : mayWrite s .host (rwHost (pwrBase + 0xC) 1 4 1 0xFFF00000 0x96000000) (pwrBase + 0xC) = true := by
    rw [mayWrite_eq, hopen]
    rfl
  have hw := (writePage_rw hp regAt_pwrLimit rfl .host value.toNat).trans (storeRw_of_mayWrite hm _)
  rw [acceptWrite_pwrLimit] at hw
  refine congrArg Host.Outcome.next (hw.trans ?_)
  by_cases hr : 1000 ≤ field value.toNat 31 20 ∧ field value.toNat 31 20 ≤ 2400
  · simp only [hr, and_self, if_true, if_false, Bool.false_eq_true]
    rfl
  · simp only [hr, if_true, if_false]
    rfl

theorem execPwrLimitWrite_locked (value : W32) (hl : flag (getReg s (pwrBase + 0x10)) 0 = true) :
    execPwrLimitWrite .host value s = .next (bump s cWriteIgn) := by
  have hlocked : lockHolds s (pwrBase + 0xC) = true := by
    rw [lockHolds, hl, show pwrLocks (pwrBase + 0xC) = true from rfl, Bool.true_and, Bool.or_true]
  have hm : mayWrite s .host (rwHost (pwrBase + 0xC) 1 4 1 0xFFF00000 0x96000000) (pwrBase + 0xC) = false := by
    rw [mayWrite_eq, hlocked, Bool.not_true, Bool.and_false]
  exact congrArg Host.Outcome.next
    ((writePage_rw hp regAt_pwrLimit rfl .host value.toNat).trans (storeRw_of_unwritable hm _))

end PowerLimit

/-! ## The obligations -/

/-- Settles O30: each write and each end of a pass by the state it finds. -/
theorem configurationCommits : Obligations.ConfigurationCommits := by
  unfold Obligations.ConfigurationCommits
  refine ⟨?reference, ?compare, ?committed, ?adopt, ?start, ?dirty, ?clean, ?equal, ?unequal⟩
  case reference =>
    rintro _ hi value s hp rfl
    exact execCfgRefWrite_host hp hi value
  case compare => exact fun s hp => congrArg Host.Outcome.next (writePage_cfgCommit hp 0xC0F10000)
  case committed => exact cfgCommit_cfg
  case adopt => exact fun s hp => congrArg Host.Outcome.next (writePage_cfgCommit hp 0xC0F10001)
  case start => exact fun s hp hr hns => execCfgCrcPassStart_due hp hr hns
  case dirty => exact fun s hr hd => execCfgCrcPassEnd_dirty hr hd
  case clean => exact fun s hr hd => execCfgCrcPassEnd_clean hr hd
  case equal => exact fun crc old s h => compareCfg_equal h old
  case unequal => exact fun crc old s h => ⟨compareCfg_cfg h old, fun hm => compareCfg_again h hm old⟩

end Sys2Proof.Machine
end

