-- ==== Sys2Proof/Proofs/Resets.lean ====
section
/-!
SUPPORT. What the resets leave (R451, R478, R506 to R515, R520, R539): registers at their reset values but for the
strapped port modes, the configuration CRC at its start, and line time running on.
-/
namespace Sys2Proof.Machine

/-! ## Registers -/

/-- With nothing stored a register reads its reset value. -/
theorem getReg_of_nil {s : State} (h : s.regs = []) (a : Nat) : getReg s a = regReset a := by
  rw [getReg, h, sget, Nat.zero_xor]

/-- The straps reach the port registers alone. -/
structure OnlyRegs (s t : State) : Prop where
  eq : t = { s with regs := t.regs }

theorem OnlyRegs.foldl {β : Type} {f : State → β → State} (hf : ∀ s x, OnlyRegs s (f s x)) (l : List β) (s : State) :
    OnlyRegs s (l.foldl f s) := by
  induction l generalizing s with
  | nil => exact ⟨rfl⟩
  | cons x l ih =>
    constructor
    rw [List.foldl_cons, (ih (f s x)).eq, (hf s x).eq]

theorem onlyRegs_applyStraps (s : State) : OnlyRegs s (applyStraps s) := .foldl (fun _ _ => ⟨rfl⟩) _ s

theorem getReg_setRegField_other {a b : Nat} (h : a ≠ b) (s : State) (hi lo v : Nat) :
    getReg (setRegField s a hi lo v) b = getReg s b := by
  rw [setRegField, getReg_setReg, if_neg h]

/-- A register outside the ports is as before the straps. -/
theorem getReg_applyStraps {a : Nat} (h : ∀ p < 12, fabBase + 0xC000 + 0x4000 * p ≠ a) (s : State) :
    getReg (applyStraps s) a = getReg s a := by
  have hfold : ∀ (l : List Nat) (t : State), (∀ p ∈ l, p < 12) → getReg (l.foldl (fun s p =>
      setRegField s (fabBase + 0xC000 + 0x4000 * p) 31 30
        (if p < 6 then field s.pwr.straps 8 7 else field s.pwr.straps 10 9)) t) a = getReg t a := by
    intro l
    induction l with
    | nil => exact fun t _ => rfl
    | cons p l ih =>
      intro t hl
      rw [List.foldl_cons, ih _ fun q hq => hl q (List.mem_cons_of_mem _ hq),
        getReg_setRegField_other (h p (hl p List.mem_cons_self))]
  exact hfold _ s fun p hp => List.mem_range.mp hp

/-- Reset values of the registers that the configuration and the power limit rest on. -/
theorem regReset_topCfgRef (hi : Bool) : regReset (topBase + (if hi then 0x24 else 0x20)) = 0 := by
  rw [regReset, regAt_topCfgRef]
  rfl

theorem regReset_pwrLimit : field (regReset (pwrBase + 0xC)) 31 20 = 2400 := by
  rw [regReset, regAt_pwrLimit]
  rfl

theorem regReset_pwrLock : regReset (pwrBase + 0x10) = 0 := by
  rw [regReset, regAt_pwrLock]
  rfl

/-! ## Work that ends at a reset -/

/-- The queue of commands and line time are as they were. -/
structure SameClock (s t : State) : Prop where
  pending : t.pending = s.pending
  now : t.tm.now = s.tm.now

namespace SameClock

theorem trans {s t u : State} (h : SameClock s t) (h' : SameClock t u) : SameClock s u :=
  ⟨h'.pending.trans h.pending, h'.now.trans h.now⟩

theorem of_reports {s t : State} (h : Reports s t) : SameClock s t := ⟨h.pending, congrArg TimeSt.now h.tm⟩

theorem of_work {s t : State} (h : MemoryWork s t) : SameClock s t := ⟨h.pending, congrArg TimeSt.now h.tm⟩

end SameClock

theorem sameClock_bump (s : State) (a : Nat) : SameClock s (bump s a) := ⟨rfl, rfl⟩

theorem sameClock_enterHoldover (s : State) : SameClock s (enterHoldover s) := by
  unfold enterHoldover
  split
  · refine SameClock.trans ?held (.of_reports (reports_postEvent _ _ _ _))
    exact ⟨rfl, rfl⟩
  · exact ⟨rfl, rfl⟩

/-! ## A module reset (R508 to R512) -/

/-- What a module reset leaves of a module's state, up to the straps of the ports (Table 18-3). -/
structure ModuleLost (cause : Nat) (s t : State) : Prop where
  regs : t.regs = []
  cfg : t.cfg = CfgCrc.init
  stage : t.pwr.stage = 3
  training : t.pwr.training = cause
  state : t.pwr.state = 0
  tiles : t.tiles = []
  course : t.course = []
  queues : t.host.queues = []
  clock : SameClock s t

theorem moduleReset_lost {s : State} (hp : powered s = true) (cause : Nat) :
    ∃ t, moduleReset cause s = applyStraps t ∧ ModuleLost cause s t := by
  rw [moduleReset, if_neg (by rw [hp]; decide)]
  extract_lets s₁ s₂ s₃ s₄ s₅
  have hretrains : MemoryWork s s₁ := .foldl (fun t (e : Nat × Channel) => work_stopRetrain e.1 t) _ s
  have hpools : MemoryWork s₁ s₂ := .foldl (fun t p => work_poolDrain p _ t) _ s₁
  have hports : MemoryWork s₂ s₃ := .foldl (fun t p => .ite (work_bump t _) (.refl t)) _ s₂
  have hheld : SameClock s₃ s₄ :=
    ((SameClock.of_reports (reports_dropHeld s₃)).trans (sameClock_enterHoldover _)).trans (sameClock_bump _ _)
  have hclock : SameClock s s₄ := (SameClock.of_work ((hretrains.trans hpools).trans hports)).trans hheld
  clear_value s₄
  exact ⟨_, rfl, rfl, rfl, rfl, rfl, rfl, rfl, rfl, rfl, hclock.pending, hclock.now⟩

/-- A register outside the ports is at its reset value after a module reset. -/
theorem getReg_moduleReset {s : State} (hp : powered s = true) (cause : Nat) {a : Nat}
    (ha : ∀ p < 12, fabBase + 0xC000 + 0x4000 * p ≠ a) : getReg (moduleReset cause s) a = regReset a := by
  obtain ⟨t, ht, hlost⟩ := moduleReset_lost hp cause
  rw [ht, getReg_applyStraps ha, getReg_of_nil hlost.regs]

theorem moduleReset_cfg {s : State} (hp : powered s = true) (cause : Nat) :
    (moduleReset cause s).cfg = CfgCrc.init := by
  obtain ⟨t, ht, hlost⟩ := moduleReset_lost hp cause
  rw [ht, (onlyRegs_applyStraps t).eq]
  exact hlost.cfg

/-! ## A cold reset (R506) -/

theorem coldState_lost (s : State) : ∃ t, coldState s = applyStraps t ∧ t.regs = [] ∧ t.cfg = CfgCrc.init := by
  have hstacks (l : List Nat) (t : State) :
      (l.foldl (fun b k => setStack b k { Stack.init with spares := (stackOf s k).spares }) t).regs = t.regs ∧
      (l.foldl (fun b k => setStack b k { Stack.init with spares := (stackOf s k).spares }) t).cfg = t.cfg := by
    induction l generalizing t with
    | nil => exact ⟨rfl, rfl⟩
    | cons k l ih => exact ih _
  exact ⟨_, rfl, (hstacks _ _).1, (hstacks _ _).2⟩

theorem getReg_coldState {a : Nat} (ha : ∀ p < 12, fabBase + 0xC000 + 0x4000 * p ≠ a) (s : State) :
    getReg (coldState s) a = regReset a := by
  obtain ⟨t, ht, hregs, -⟩ := coldState_lost s
  rw [ht, getReg_applyStraps ha, getReg_of_nil hregs]

theorem coldState_cfg (s : State) : (coldState s).cfg = CfgCrc.init := by
  obtain ⟨t, ht, -, hcfg⟩ := coldState_lost s
  rw [ht, (onlyRegs_applyStraps t).eq]
  exact hcfg

/-- A change that reaches the power state and what leaves the module, and nothing else. -/
structure OnlyPower (s t : State) : Prop where
  eq : t = { s with pwr := t.pwr, out := t.out }

theorem OnlyPower.trans {s t u : State} (h : OnlyPower s t) (h' : OnlyPower t u) : OnlyPower s u := by
  constructor
  rw [h'.eq, h.eq]

theorem OnlyPower.regs {s t : State} (h : OnlyPower s t) : t.regs = s.regs := by rw [h.eq]
theorem OnlyPower.cfg {s t : State} (h : OnlyPower s t) : t.cfg = s.cfg := by rw [h.eq]

theorem onlyPower_setPwr (f : Pwr → Pwr) (s : State) : OnlyPower s (setPwr f s) := ⟨rfl⟩

theorem onlyPower_updateFault (s : State) : OnlyPower s (updateFault s) := by
  unfold updateFault raiseAlert
  split_ifs <;> exact ⟨rfl⟩

/-- The state that COLD_RST_L leaves: a cold reset, with the trip before it still in FAULT_L (R538). -/
def coldRestarted (s : State) : State :=
  updateFault (setPwr (fun p => { p with tripped := s.pwr.tripped, fault := s.pwr.fault }) (coldReset 2 s))

theorem execColdRstLAssert_good {s : State} (haux : s.pwr.auxOk = true) :
    execColdRstLAssert s = .next (coldRestarted s) := by
  have hlow : ¬ (!s.pwr.auxOk) = true := by rw [haux]; decide
  exact congrArg Host.Outcome.next (if_neg hlow)

theorem onlyPower_coldRestarted (s : State) : OnlyPower (coldState s) (coldRestarted s) :=
  ((onlyPower_setPwr _ _).trans (onlyPower_setPwr _ _)).trans (onlyPower_updateFault _)

theorem getReg_coldRestarted {a : Nat} (ha : ∀ p < 12, fabBase + 0xC000 + 0x4000 * p ≠ a) (s : State) :
    getReg (coldRestarted s) a = regReset a := by
  rw [getReg, (onlyPower_coldRestarted s).regs]
  exact getReg_coldState ha s

/-! ## A host-interface reset (R451) -/

theorem hostInterfaceReset_regs (linkDown : Bool) (s : State) :
    (hostInterfaceReset linkDown s).regs = sfilter s.regs (fun a => !hifCleared a) :=
  congrArg (fun m => sfilter m (fun a => !hifCleared a)) (reports_dropHeld s).regs

/-- A register outside the host interface is as before its reset. -/
theorem getReg_hostInterfaceReset {a : Nat} (ha : hifCleared a = false) (linkDown : Bool) (s : State) :
    getReg (hostInterfaceReset linkDown s) a = getReg s a := by
  rw [getReg, getReg, hostInterfaceReset_regs, sget_sfilter, ha]
  rfl

theorem hostInterfaceReset_cfg (linkDown : Bool) (s : State) : (hostInterfaceReset linkDown s).cfg = s.cfg :=
  (reports_dropHeld s).cfg

/-! ## The obligations -/

/-- Settles O31: the resets clear the state of the CRC and every register outside the ports, and the host interface's
own reset clears none outside it. -/
theorem configurationResets : Obligations.ConfigurationResets := by
  unfold Obligations.ConfigurationResets
  refine ⟨?moduleReset, ?coldReset, ?hostReset⟩
  case moduleReset =>
    intro s hp
    have hcfg := moduleReset_cfg hp 9
    refine ⟨_, rfl, ?_, ?_, ?_⟩
    · exact (getReg_moduleReset hp 9 (by decide)).trans (regReset_topCfgRef false)
    · exact (getReg_moduleReset hp 9 (by decide)).trans (regReset_topCfgRef true)
    · rw [resumeMissing, hcfg]
      exact ⟨rfl, rfl, rfl, rfl, rfl, rfl, rfl, rfl⟩
  case coldReset =>
    intro s haux
    have hcfg : (coldRestarted s).cfg = CfgCrc.init := (onlyPower_coldRestarted s).cfg.trans (coldState_cfg s)
    refine ⟨_, execColdRstLAssert_good haux, ?_, ?_, ?_⟩
    · exact (getReg_coldRestarted (by decide) s).trans (regReset_topCfgRef false)
    · exact (getReg_coldRestarted (by decide) s).trans (regReset_topCfgRef true)
    · rw [resumeMissing, hcfg]
      exact ⟨rfl, rfl, rfl, rfl, rfl, rfl, rfl, rfl⟩
  case hostReset =>
    intro s
    exact ⟨_, rfl, hostInterfaceReset_cfg true s, getReg_hostInterfaceReset rfl true s,
      getReg_hostInterfaceReset rfl true s⟩

/-- Settles O29: the row of PWR_LIMIT and its field rule say what a write leaves, the lock and the row's qualifier who
may write, and both resets return the register and its lock to their reset values. -/
theorem powerLimitRegister : Obligations.PowerLimitRegister := by
  unfold Obligations.PowerLimitRegister
  refine ⟨?afterReset, ?openLock, ?locked, ?core, ?moduleReset, ?coldReset⟩
  case afterReset => rw [getReg_of_nil rfl, regReset_pwrLimit]
  case openLock => exact fun value s hp hl => execPwrLimitWrite_open hp value hl
  case locked => exact fun value s hp hl => execPwrLimitWrite_locked hp value hl
  case core => exact fun n value s hp => next_writePage_of_unadmitted hp regAt_pwrLimit rfl rfl _
  case moduleReset =>
    intro s hp
    refine ⟨_, rfl, (getReg_moduleReset hp 9 (by decide)).trans regReset_pwrLock, ?_⟩
    exact (congrArg (field · 31 20) (getReg_moduleReset hp 9 (by decide))).trans regReset_pwrLimit
  case coldReset =>
    intro s haux
    refine ⟨_, execColdRstLAssert_good haux, (getReg_coldRestarted (by decide) s).trans regReset_pwrLock, ?_⟩
    exact (congrArg (field · 31 20) (getReg_coldRestarted (by decide) s)).trans regReset_pwrLimit

/-- Settles O57: with nothing stored every register reads the reset value of its row, and the rest of the state after
reset is empty. -/
theorem resetState : Obligations.ResetState := by
  unfold Obligations.ResetState
  have hreg (a : Nat) : getReg State.reset a = regReset a := getReg_of_nil rfl a
  simp only [hreg]
  refine ⟨?table, ?ltu, ?fabric, ?treim, ?corbel, ?collective, ?exchange, ?port, regReset_pwrLimit, fun a => rfl,
    rfl, rfl, rfl, rfl, rfl⟩
  case table =>
    intro a d hd
    rw [regReset, hd]
  case ltu => decide +kernel
  case fabric => decide +kernel
  case treim => decide +kernel
  case corbel => decide +kernel
  case collective => decide +kernel
  case exchange => decide +kernel
  case port => decide +kernel

end Sys2Proof.Machine
end

