-- ==== Sys2Proof/Proofs/PowerSequences.lean ====
section
/-!
SUPPORT. The contacts, the supplies and the steps of a power-up (R506, R513, R514, R523, R532, R538, R539): each event
where its conditions hold.
-/
namespace Sys2Proof.Machine

/-! ## Supplies -/

theorem execAuxPowerOn_off {s : State} (haux : s.pwr.auxOk = false) (straps : BitVec 9) :
    execAuxPowerOn straps s = .next (coldReset 1 { s with pwr := { s.pwr with
      auxOk := true, auxAt := 0, straps := strapWord straps.toNat } }) := by
  have hoff : ¬ s.pwr.auxOk = true := by rw [haux]; decide
  exact congrArg Host.Outcome.next (if_neg hoff)

theorem execAuxSupplyLow_good {s : State} (haux : s.pwr.auxOk = true) :
    execAuxSupplyLow s = .next (setPwr (fun p => { p with auxOk := false, stage := 0 }) (coldState s)) := by
  have hgood : ¬ (!s.pwr.auxOk) = true := by rw [haux]; decide
  exact congrArg Host.Outcome.next (if_neg hgood)

/-! ## Contacts -/

/-- PERST# deasserted: the link trains where main power is good and it is not up. -/
theorem execPerstDeassert_eq (s : State) : execPerstDeassert s = .next { s with
    pwr := { s.pwr with perst := false }
    host := { s.host with training := s.host.training || (powered s && !s.host.linkUp) } } := by
  cases ht : powered s && !s.host.linkUp
  · have hstay : ¬ (powered s && !s.host.linkUp) = true := by rw [ht]; decide
    refine congrArg Host.Outcome.next ((if_neg hstay).trans ?_)
    rw [Bool.or_false]
    rfl
  · refine congrArg Host.Outcome.next ((if_pos ht).trans ?_)
    rw [Bool.or_true]
    rfl

/-! ## The steps of a power-up (Table 18-6) -/

theorem execMainPowerRamp_due {s : State} (hstage : s.pwr.stage = 1) (haux : s.pwr.auxOk = true)
    (hprsnt : s.pwr.prsnt = true) (hen : s.pwr.pwrEn = true) (hmain : s.pwr.mainOk = true)
    (hauxAt : s.pwr.auxAt + 20000000 ≤ nsOf s) (hprsntAt : s.pwr.prsntAt + 10000000 ≤ nsOf s)
    (henAt : s.pwr.enAt + 10000000 ≤ nsOf s) :
    execMainPowerRamp s = .next { s with pwr := { s.pwr with stage := 2 } } := by
  have hramp : mayRamp s = true := by
    simp only [mayRamp, haux, hprsnt, hen, hmain, hauxAt, hprsntAt, henAt, decide_true, Bool.and_self]
  have hdue : (s.pwr.stage = 1 && mayRamp s) = true := by rw [hramp, hstage]; rfl
  exact congrArg Host.Outcome.next (if_pos hdue)

theorem execRailsGood_ramped {s : State} (hstage : s.pwr.stage = 2) : execRailsGood s = .next { s with
    pwr := { s.pwr with stage := 3 }, host := { s.host with training := !s.pwr.perst } } :=
  congrArg Host.Outcome.next (if_neg (not_not.mpr hstage))

theorem execIslandBootComplete_booting {s : State} (hstage : s.pwr.stage = 3) (puf : Bool) (bits : W16) :
    execIslandBootComplete puf bits s = .next (updateFault (setPwr (fun p => { p with stage := 4 }) (bootIsland (
      if s.pwr.training = 1 ∨ s.pwr.training = 2 then
        bumpN { s with sec := { s.sec with pufOk := puf } } (cSec 0x118) bits.toNat
      else s)))) := by
  have hcold : (if decide (s.pwr.training = 1 ∨ s.pwr.training = 2) = true then
      bumpN { s with sec := { s.sec with pufOk := puf } } (cSec 0x118) bits.toNat else s) =
      if s.pwr.training = 1 ∨ s.pwr.training = 2 then
        bumpN { s with sec := { s.sec with pufOk := puf } } (cSec 0x118) bits.toNat else s := by
    simp only [decide_eq_true_eq]
  refine congrArg Host.Outcome.next ((if_neg (not_not.mpr hstage)).trans ?_)
  exact congrArg (fun t => updateFault (setPwr (fun p => { p with stage := 4 }) (bootIsland t))) hcold

section Training
variable {s : State} (report : TrainingReport)

theorem execTreimTrainingComplete_powerUp (hstage : s.pwr.stage = 4) :
    execTreimTrainingComplete report s = .next (startUp report.channels report.selfTest.toNat s) :=
  congrArg Host.Outcome.next (if_pos hstage)

theorem execTreimTrainingComplete_leavingBed (hstage : s.pwr.stage = 5) (hstate : s.pwr.state = 3)
    (hfence : s.pwr.fenced = false) :
    execTreimTrainingComplete report s = .next (setPwr (fun p => { p with state := 0 })
      (wakeStacks (report.channels.foldl (fun s r => trainOne r s) s))) := by
  have hup : ¬ s.pwr.stage = 4 := by rw [hstage]; decide
  have hleave : (s.pwr.stage = 5 && s.pwr.state = 3 && !s.pwr.fenced) = true := by rw [hstage, hstate, hfence]; rfl
  exact congrArg Host.Outcome.next ((if_neg hup).trans (if_pos hleave))

end Training

/-! ## The obligation -/

/-- What MRST_L leaves of a powered module. -/
theorem moduleReset_state {s : State} (hp : powered s = true) (cause : Nat) :
    let t := moduleReset cause s
    t.pwr.stage = 3 ∧ t.pwr.training = cause ∧ t.pwr.state = 0 ∧ t.tiles = [] ∧ t.course = [] ∧ t.host.queues = [] ∧
      t.tm.now = s.tm.now ∧ t.pending = s.pending := by
  obtain ⟨t, ht, hlost⟩ := moduleReset_lost hp cause
  rw [ht, (onlyRegs_applyStraps t).eq]
  exact ⟨hlost.stage, hlost.training, hlost.state, hlost.tiles, hlost.course, hlost.queues, hlost.clock.now,
    hlost.clock.pending⟩

/-- Settles O41: each contact, supply and step of the power-up by the state it finds. -/
theorem resetEvents : Obligations.ResetEvents := by
  unfold Obligations.ResetEvents
  refine ⟨?auxOn, ?coldReset, ?auxLow, ?unpowered, ?moduleReset, ?perst, ?perstOff, ?contacts, ?locate, ?ramp, ?rails,
    ?island, ?training⟩
  case auxOn => exact fun straps s haux => execAuxPowerOn_off haux straps
  case coldReset => exact fun s haux => execColdRstLAssert_good haux
  case auxLow => exact fun s haux => execAuxSupplyLow_good haux
  case unpowered =>
    intro s hp
    have hoff : (!powered s) = true := by rw [hp]; rfl
    exact congrArg Host.Outcome.next (if_pos hoff)
  case moduleReset => exact fun s hp => ⟨_, rfl, moduleReset_state hp 9⟩
  case perst => exact fun s => rfl
  case perstOff => exact execPerstDeassert_eq
  case contacts => exact fun s => ⟨rfl, rfl, rfl, rfl, rfl, rfl⟩
  case locate => exact fun asserted s => rfl
  case ramp =>
    exact fun s hstage haux hprsnt hen hmain hauxAt hprsntAt henAt =>
      execMainPowerRamp_due hstage haux hprsnt hen hmain hauxAt hprsntAt henAt
  case rails => exact fun s hstage => execRailsGood_ramped hstage
  case island => exact fun puf bits s hstage => execIslandBootComplete_booting hstage puf bits
  case training =>
    exact fun results test s => ⟨execTreimTrainingComplete_powerUp ⟨results, test⟩,
      execTreimTrainingComplete_leavingBed ⟨results, test⟩⟩

end Sys2Proof.Machine
end

