-- ==== Sys2Proof/Proofs/HostLink.lean ====
section
/-!
SUPPORT. The link of the host (R433 to R435, R451, R453 to R455, R514, R517): function resets, training, the two
windows and the power states of the function.
-/
namespace Sys2Proof.Machine

/-! ## Resets and training -/

/-- A function reset leaves HIF_JOBCTL, which says whether it aborts the job. -/
theorem flag_jobctl_afterReset (s : State) (i : Nat) :
    flag (getReg (bump (hostInterfaceReset false s) (cHif 0x130)) (hifBase + 4)) i = flag (getReg s (hifBase + 4)) i :=
  congrArg (flag · i) (getReg_hostInterfaceReset rfl false s)

theorem execFlr_keeping {s : State} (hj : flag (getReg s (hifBase + 4)) 31 = false) :
    execFlr s = .next (bump (hostInterfaceReset false s) (cHif 0x130)) := by
  rw [← flag_jobctl_afterReset] at hj
  exact congrArg Host.Outcome.next (if_neg (Bool.eq_false_iff.mp hj))

theorem execFlr_aborting {s : State} (hj : flag (getReg s (hifBase + 4)) 31 = true) :
    execFlr s = .next (abortStep false
      (setRegField (bump (hostInterfaceReset false s) (cHif 0x130)) (hifBase + 4) 30 30 1)) := by
  rw [← flag_jobctl_afterReset] at hj
  exact congrArg Host.Outcome.next (if_pos hj)

theorem execHostLinkUp_trained {speed : BitVec 2} {width : BitVec 5} {s : State} (hspeed : speed.toNat ≠ 3)
    (hwidth : width.toNat = 8 ∨ width.toNat = 16 ∧ s.pwr.straps.testBit 11 = true) (hstage : 3 ≤ s.pwr.stage)
    (hperst : s.pwr.perst = false) (flit : Bool) :
    execHostLinkUp speed width flit s = .next { s with host := { s.host with
      linkUp := true, training := false, speed := speed.toNat, width := width.toNat
      flit := flit || decide (speed.toNat = 2) } } := by
  refine congrArg Host.Outcome.next (if_neg ?_)
  rintro (h | ⟨h8, h16⟩ | h | h)
  · exact hspeed h
  · obtain hw | ⟨hw, hfull⟩ := hwidth
    · exact h8 hw
    · exact h16.elim (· hw) (· hfull)
  · omega
  · exact Bool.noConfusion (hperst.symm.trans h)

/-! ## Windows -/

theorem execApertureAccess_inLine {offset : BitVec 30} {len : BitVec 7} (hpos : 1 ≤ len.toNat)
    (hline : offset.toNat % 64 + len.toNat ≤ 64) (write : Bool) (data : List Byte) (s : State) :
    execApertureAccess offset write len data s = .next (
      if write then writeTo .host 12 (0x008000000000 + offset.toNat) (slice data 0 len.toNat) s
      else
        let r := readDev .host 12 (0x008000000000 + offset.toNat) len.toNat s
        emit (.apertureRead r.1.data (decide (0 < r.1.poison))) r.2) := by
  refine congrArg Host.Outcome.next (if_neg ?_)
  rintro (h | h | h)
  · omega
  · omega
  · omega

/-! ## Power states of the function (R517) -/

section D3hot
variable {s : State}

theorem execPciPmD3hot_staying (hd : s.host.d3hot = false) (hp : powered s = true)
    (hstay : flag (getReg s (pwrBase + 8)) 31 = false ∨ s.pwr.state ≠ 0) :
    execPciPmD3hot s = .next (bump { s with host := { s.host with d3hot := true } } (cPwr 0x130)) := by
  have hin : ¬ (s.host.d3hot || !powered s) = true := by rw [hd, hp]; decide
  have hstay' : (!flag (getReg s (pwrBase + 8)) 31 || s.pwr.state ≠ 0) = true := by
    obtain h | h := hstay
    · rw [h]
      rfl
    · rw [decide_eq_true h, Bool.or_true]
  exact congrArg Host.Outcome.next ((if_neg hin).trans (if_pos hstay'))

theorem execPciPmD3hot_bedding (hd : s.host.d3hot = false) (hstage : s.pwr.stage = 5)
    (hbed : flag (getReg s (pwrBase + 8)) 31 = true) (hstate : s.pwr.state = 0) (hidle : s.stp.rc.state = 0) :
    execPciPmD3hot s = .next (enterBed (bump { s with host := { s.host with d3hot := true } } (cPwr 0x130))) := by
  have hp : powered s = true := by rw [powered, hstage]; rfl
  have hin : ¬ (s.host.d3hot || !powered s) = true := by rw [hd, hp]; decide
  have hgo : ¬ (!flag (getReg s (pwrBase + 8)) 31 || s.pwr.state ≠ 0) = true := by rw [hbed, hstate]; decide
  have hnow : (s.stp.rc.state = 0 && s.pwr.stage = 5) = true := by rw [hidle, hstage]; rfl
  exact congrArg Host.Outcome.next ((if_neg hin).trans ((if_neg hgo).trans (if_pos hnow)))

theorem execD3hotBedStart_idle (hd : s.host.d3hot = true) (hwait : s.host.bedWait = true)
    (hbed : flag (getReg s (pwrBase + 8)) 31 = true) (hidle : s.stp.rc.state = 0) (hstate : s.pwr.state = 0)
    (hstage : s.pwr.stage = 5) :
    execD3hotBedStart s = .next (enterBed { s with host := { s.host with bedWait := false } }) := by
  have hgo : (s.host.d3hot && s.host.bedWait && flag (getReg s (pwrBase + 8)) 31 && s.stp.rc.state = 0
      && s.pwr.state = 0 && s.pwr.stage = 5) = true := by
    rw [hd, hwait, hbed, hidle, hstate, hstage]
    rfl
  exact congrArg Host.Outcome.next (if_pos hgo)

/-- Back to D0 with nothing waiting: bedded is left. -/
theorem execPciPmD0_quiet (hd : s.host.d3hot = true) (hheld : s.host.held = []) (hevents : s.host.heldEvents = []) :
    execPciPmD0 s = .next { s with
      host := { s.host with d3hot := false, bedWait := false }
      pwr := { s.pwr with state := if s.pwr.state = 1 ∨ s.pwr.state = 2 then 3 else s.pwr.state } } := by
  have hin : ¬ (!s.host.d3hot) = true := by rw [hd]; decide
  rw [execPciPmD0, if_neg hin, hheld, hevents]
  dsimp only [List.foldl_nil]
  by_cases hbed : s.pwr.state = 1 ∨ s.pwr.state = 2
  · simp only [hbed, if_true, setPwr, hheld, hevents]
  · simp only [hbed, if_false, hheld, hevents]

end D3hot

/-! ## The obligation -/

/-- Settles O22: each event of the link by the state it finds. -/
theorem hostLinkEvents : Obligations.HostLinkEvents := by
  unfold Obligations.HostLinkEvents
  refine ⟨?reset, ?flr, ?flrAbort, ?removal, ?linkUp, ?aperture, ?badAccess, ?staying, ?bedding, ?d0, ?bedStart⟩
  case reset => exact fun s => rfl
  case flr => exact fun s hj => execFlr_keeping hj
  case flrAbort => exact fun s hj => execFlr_aborting hj
  case removal => exact fun s => rfl
  case linkUp =>
    exact fun speed width flit s hspeed hwidth hstage hperst =>
      execHostLinkUp_trained hspeed hwidth hstage hperst flit
  case aperture => exact fun offset write len data s hpos hline => execApertureAccess_inLine hpos hline write data s
  case badAccess => exact fun offset len s => ⟨rfl, rfl⟩
  case staying => exact fun s hd hp hstay => execPciPmD3hot_staying hd hp hstay
  case bedding => exact fun s hd hstage hbed hstate hidle => execPciPmD3hot_bedding hd hstage hbed hstate hidle
  case d0 => exact fun s hd hheld hevents => execPciPmD0_quiet hd hheld hevents
  case bedStart =>
    exact fun s hd hwait hbed hidle hstate hstage => execD3hotBedStart_idle hd hwait hbed hidle hstate hstage

end Sys2Proof.Machine
end

