-- ==== Sys2Proof/Proofs/HostQueues.lean ====
section
/-!
SUPPORT. The queues of the host interface (R318, R438 to R440, R446): what a fetch, a command whose time has come, a
doorbell and a coalesced interrupt do where their conditions hold.
-/
namespace Sys2Proof.Machine

/-! ## Fetching and beginning -/

theorem execCommandFetch_ready {queue : BitVec 6} {s : State} (hf : mayFetch s queue.toNat = true)
    (hnew : (queueOf s queue.toNat).sqHead ≠ (queueOf s queue.toNat).sqTail)
    (hdma : dmaOk s ((queueOf s queue.toNat).sq + 64 * (queueOf s queue.toNat).sqHead) 64 = true)
    (packet : W512) (pb hostData : List Byte) :
    execCommandFetch queue packet pb hostData s = .next (
      let v := queueOf s queue.toNat
      takePacket queue packet pb hostData
        (setQueue s queue.toNat { v with sqHead := (v.sqHead + 1) % 2 ^ v.log2, unposted := v.unposted + 1 })) := by
  simp only [execCommandFetch, hf, hnew, hdma, decide_false, Bool.not_true, Bool.or_self, Bool.false_eq_true, if_false]

/-- One waiting command whose time has come begins. -/
theorem pumpQueue_one {q : Nat} {c : Instr} {h : CmdHdr} {op : Nat} {s : State} (hw : (queueOf s q).waiting = [c])
    (hc : cmdOf c = some (h, op)) (hr : queueReady s h op = true) (hd : s.host.d3hot = false) :
    pumpQueue q 1 s = beginCmd h op (body c) c (setQueue s q { queueOf s q with waiting := [] }) := by
  simp only [pumpQueue, hw, hc, hr, hd, Bool.not_false, Bool.and_self, if_true]

theorem execCommandNotBeforeDue_one {queue : BitVec 6} {c : Instr} {h : CmdHdr} {op : Nat} {s : State}
    (hstage : s.pwr.stage = 5) (horphans : s.host.orphans = []) (hw : (queueOf s queue.toNat).waiting = [c])
    (hc : cmdOf c = some (h, op)) (hr : queueReady s h op = true) (hd : s.host.d3hot = false) :
    execCommandNotBeforeDue queue s = .next (beginCmd h op (body c) c
      (setQueue s queue.toNat { queueOf s queue.toNat with waiting := [] })) := by
  rw [← pumpQueue_one hw hc hr hd]
  simp only [execCommandNotBeforeDue, hstage, ne_eq, not_true, if_false, horphans, pumpOrphans, hw, List.length_singleton]

/-! ## Doorbells -/

section Doorbells
variable {queue : BitVec 6} {value : W32} {s : State} (hen : (queueOf s queue.toNat).enabled = true)
  (herr : (queueOf s queue.toNat).err = false)
include hen herr

theorem execSqTailDoorbell_within (hv : value.toNat < 2 ^ (queueOf s queue.toNat).log2) :
    execSqTailDoorbell queue value s =
      .next (setQueue s queue.toNat { queueOf s queue.toNat with sqTail := value.toNat }) := by
  simp only [execSqTailDoorbell, hen, herr, Nat.not_le.mpr hv, Bool.not_true, Bool.or_self, Bool.false_eq_true, if_false]

theorem execSqTailDoorbell_beyond (hv : 2 ^ (queueOf s queue.toNat).log2 ≤ value.toNat) :
    execSqTailDoorbell queue value s = .next (queueError queue.toNat s) := by
  simp only [execSqTailDoorbell, hen, herr, hv, Bool.not_true, Bool.or_self, Bool.false_eq_true, if_false, if_true]

theorem execCqHeadDoorbell_within (hv : value.toNat < 2 ^ (queueOf s queue.toNat).log2)
    (hused : (value.toNat + 2 ^ (queueOf s queue.toNat).log2 - (queueOf s queue.toNat).cqHead)
      % 2 ^ (queueOf s queue.toNat).log2 ≤ (queueOf s queue.toNat).used) :
    execCqHeadDoorbell queue value s = .next (
      let v := queueOf s queue.toNat
      let released := (value.toNat + 2 ^ v.log2 - v.cqHead) % 2 ^ v.log2
      setQueue s queue.toNat { v with
        cqHead := value.toNat, used := v.used - released, unsignalled := min v.unsignalled (v.used - released) }) := by
  simp only [execCqHeadDoorbell, hen, herr, Nat.not_le.mpr hv, Nat.not_lt.mpr hused, or_self, Bool.not_true, Bool.or_self,
    Bool.false_eq_true, if_false]

theorem execCqHeadDoorbell_beyond (hv : 2 ^ (queueOf s queue.toNat).log2 ≤ value.toNat) :
    execCqHeadDoorbell queue value s = .next (queueError queue.toNat s) := by
  simp only [execCqHeadDoorbell, hen, herr, hv, true_or, Bool.not_true, Bool.or_self, Bool.false_eq_true, if_false, if_true]

end Doorbells

theorem execEvHeadDoorbell_within {value : W32} {s : State} (hset : s.host.ring.set = true)
    (hv : value.toNat < 2 ^ s.host.ring.log2) :
    execEvHeadDoorbell value s = .next (
      let r := s.host.ring
      let released := (value.toNat + 2 ^ r.log2 - r.head) % 2 ^ r.log2
      eventSpace { s with host := { s.host with ring := { r with head := value.toNat, used := r.used - released } } }) := by
  simp only [execEvHeadDoorbell, hset, Nat.not_le.mpr hv, decide_false, Bool.not_true, Bool.or_self, Bool.false_eq_true,
    if_false]

/-! ## Coalesced interrupts (R438) -/

theorem execMsixCoalesceTimeout_due {queue : BitVec 6} {s : State} (hen : (queueOf s queue.toNat).enabled = true)
    (hd : s.host.d3hot = false) (hpending : 0 < (queueOf s queue.toNat).unsignalled)
    (hsince : (queueOf s queue.toNat).since + (queueOf s queue.toNat).coalUs * 1000 ≤ nsOf s) :
    execMsixCoalesceTimeout queue s = .next (signal (queueOf s queue.toNat).vector
      (setQueue s queue.toNat { queueOf s queue.toNat with unsignalled := 0 })) := by
  simp only [execMsixCoalesceTimeout, hen, hd, hpending, hsince, decide_true, Bool.not_false, Bool.and_self, if_true]

/-! ## The obligation -/

/-- Settles O21: each event of a queue by the state of the queue or ring it finds. -/
theorem hostQueueEvents : Obligations.HostQueueEvents := by
  unfold Obligations.HostQueueEvents
  refine ⟨?fetch, ?due, ?sqTail, ?cqHead, ?beyond, ?evHead, ?coalesced⟩
  case fetch =>
    intro queue packet pb hostData s v hf hnew hdma
    exact execCommandFetch_ready hf hnew hdma packet pb hostData
  case due =>
    intro queue h op c s hstage horphans hw hc hr hd
    exact execCommandNotBeforeDue_one hstage horphans hw hc hr hd
  case sqTail => exact fun queue value s hen herr hv => execSqTailDoorbell_within hen herr hv
  case cqHead => exact fun queue value s hen herr hv hused => execCqHeadDoorbell_within hen herr hv hused
  case beyond =>
    exact fun queue value s hen herr hv =>
      ⟨execSqTailDoorbell_beyond hen herr hv, execCqHeadDoorbell_beyond hen herr hv⟩
  case evHead => exact fun value s hset hv => execEvHeadDoorbell_within hset hv
  case coalesced => exact fun queue s hen hd hpending hsince => execMsixCoalesceTimeout_due hen hd hpending hsince

end Sys2Proof.Machine
end

