-- ==== Sys2Proof/Proofs/CipherRequests.lean ====
section
/-!
SUPPORT. The cipher engine's ring (R499 to R502, R505): the request at its head is taken up by the event of its
operation, and its end is reported.
-/
namespace Sys2Proof.Machine

/-- The descriptor at the head of the ring. -/
def headRequest (s : State) : CipReq := cipReq (loadLe s (cipEntry s (cipHead s)) 64)

/-- The state once the request at the head has been taken up: its status counted where it is an error, the head moved
on, and the request in flight. -/
def requestTaken (s : State) : State :=
  let taken := runRequest (headRequest s) s
  let t := if 2 ≤ taken.1 && !(taken.1 = 4 && (headRequest s).op = 7) then bump taken.2 (cCip 0x110) else taken.2
  let u := setReg t (cipBase + 0x10) ((cipHead s + 1) % cipDepth t)
  { u with sec := { u.sec with inflight := u.sec.inflight ++ [(cipHead s, taken.1)] } }

/-- R500. The engine takes the request at the head of an enabled ring up if it is of the operation. -/
theorem takeRequest_head {p x : Nat} {s : State} (hen : flag (getReg s cipBase) 31 = true) (hnew : cipHead s ≠ cipTail s)
    (hring : classify (cipEntry s (cipHead s)) = .plinth p 47 x) :
    takeRequest (headRequest s).op s = requestTaken s := by
  rw [takeRequest, if_neg]
  · rfl
  · simp only [hen, hring, hnew, headRequest, decide_true, decide_false, Bool.not_true, Bool.or_false, Bool.true_or]
    exact Bool.false_ne_true

/-- R500. The end of a request in flight is written to its descriptor and told by a token. -/
theorem execCipRequestDone_inflight {index : BitVec 12} {r : Nat × Nat} {s : State}
    (hr : s.sec.inflight.find? (fun r => decide (r.1 = index.toNat)) = some r) :
    execCipRequestDone index s = .next (
      let w := loadLe s (cipEntry s r.1) 64
      let t : State := { s with sec := { s.sec with inflight := s.sec.inflight.erase r } }
      let u := bump (writeTo .lintel 13 (cipEntry s r.1 + 12) (leBytes 2 r.2) t) (cCip 0x100)
      sendToken (field w 127 120) (field w 119 114) 0 0x6D (genOf u) 1 u) := by
  rw [execCipRequestDone, hr]

/-- Settles O53: each operation's event takes the request at the head up, and the report of its end finds it in
flight. -/
theorem cipherEvents : Obligations.CipherEvents := by
  unfold Obligations.CipherEvents
  refine ⟨?taken, ?done⟩
  case taken =>
    intro p x op s i q taken t u v hen hnew hring hop
    have htake : takeRequest op s = v := hop ▸ takeRequest_head hen hnew hring
    refine ⟨?_, ?_, ?_, ?_, ?_, ?_, ?_⟩
    all_goals
      rintro rfl
      exact congrArg Host.Outcome.next htake
  case done => exact fun index r s hr => execCipRequestDone_inflight hr

end Sys2Proof.Machine
end

