-- ==== Sys2Proof/Proofs/ManagementBus.lean ====
section
/-!
SUPPORT. The management controller on its bus (R456, R540, R541): transactions, MCTP control, PLDM, commands in
vendor-defined messages and the alert.
-/
namespace Sys2Proof.Machine

/-! ## Transactions (R540) -/

section Smbus
variable {bytes : List Byte} {s : State} (haux : s.pwr.auxOk = true)
  (haddr : leAt bytes 0 1 = 2 * field s.pwr.straps 6 0)
include haux haddr

/-- The transaction is for this module. -/
theorem smbusAddressed : ¬ (!s.pwr.auxOk || decide (leAt bytes 0 1 ≠ 2 * field s.pwr.straps 6 0)) = true := by
  rw [haux, decide_eq_false (not_not.mpr haddr)]
  decide

theorem execSmbusTransaction_bad (hbad : bytes.length < 9 ∨ leAt bytes 1 1 ≠ 0x0F ∨ leAt bytes 2 1 + 4 ≠ bytes.length ∨
    smbusPec (bytes.take (bytes.length - 1)) ≠ leAt bytes (bytes.length - 1) 1) :
    execSmbusTransaction bytes s = .next (bump s (mgtBase + 0x118)) := by
  exact congrArg Host.Outcome.next ((if_neg (smbusAddressed haux haddr)).trans (if_pos hbad))

theorem execSmbusTransaction_good (hlen : 9 ≤ bytes.length) (hcode : leAt bytes 1 1 = 0x0F)
    (hcount : leAt bytes 2 1 + 4 = bytes.length)
    (hpec : smbusPec (bytes.take (bytes.length - 1)) = leAt bytes (bytes.length - 1) 1) :
    execSmbusTransaction bytes s =
      .next (mctpPacket (leAt bytes 7 1) ((bytes.take (bytes.length - 1)).drop 8) s) := by
  refine congrArg Host.Outcome.next ((if_neg (smbusAddressed haux haddr)).trans (if_neg ?_))
  rintro (h | h | h | h)
  · omega
  · exact h hcode
  · exact h hcount
  · exact h hpec

end Smbus

/-! ## MCTP control messages (R456) -/

section Control
variable {msg : List Byte} {s : State} (hlen : 5 ≤ msg.length) (hrq : 128 ≤ leAt msg 1 1)
include hlen hrq

/-- A request is long enough and marked as one. -/
theorem controlRequest : ¬ (msg.length < 3 || decide (leAt msg 1 1 < 128)) = true := by
  rw [decide_eq_false (by omega : ¬ msg.length < 3), decide_eq_false (by omega : ¬ leAt msg 1 1 < 128)]
  decide

theorem mctpControl_setEid (hcmd : leAt msg 2 1 = 1) (hlo : 1 ≤ leAt msg 4 1) (hhi : leAt msg 4 1 ≤ 254) :
    mctpControl msg s = controlAnswer msg 0 ([0] ++ leBytes 1 (leAt msg 4 1) ++ [0])
      { s with pwr := { s.pwr with eid := leAt msg 4 1 } } := by
  have hlong : ¬ msg.length < 5 := by omega
  have heid : ¬ (leAt msg 4 1 = 0 ∨ leAt msg 4 1 = 255) := by omega
  rw [mctpControl, if_neg (controlRequest hlen hrq), hcmd]
  exact (if_neg hlong).trans (if_neg heid)

theorem mctpControl_getEid (hcmd : leAt msg 2 1 = 2) :
    mctpControl msg s = controlAnswer msg 0 (leBytes 1 s.pwr.eid ++ [0, 0]) s := by
  rw [mctpControl, if_neg (controlRequest hlen hrq), hcmd]
  rfl

theorem mctpControl_types (hcmd : leAt msg 2 1 = 5) : mctpControl msg s = controlAnswer msg 0 [2, 1, 0x7E] s := by
  rw [mctpControl, if_neg (controlRequest hlen hrq), hcmd]
  rfl

end Control

theorem execMctpControlMessage_powered {s : State} (haux : s.pwr.auxOk = true) (msg : List Byte) :
    execMctpControlMessage msg s = .next (mctpControl msg s) := congrArg Host.Outcome.next (if_pos haux)

/-! ## PLDM -/

theorem pldmRequest_taken {ty : Nat} {msg : List Byte} {s : State} (haux : s.pwr.auxOk = true)
    (hrec : ty = 5 ∨ s.sec.recovery = false) (hlen : 4 ≤ msg.length) (hrq : 128 ≤ leAt msg 1 1)
    (hty : leAt msg 2 1 % 64 = ty) : pldmRequest ty msg s = true := by
  have hopen : (decide (ty = 5) || !s.sec.recovery) = true := by
    obtain h | h := hrec
    · rw [decide_eq_true h, Bool.true_or]
    · rw [h, Bool.not_false, Bool.or_true]
  simp only [pldmRequest, haux, hopen, hlen, hrq, hty, decide_true, Bool.and_self]

/-- Sensor 1 is the input power. -/
theorem pldmMonitoring_inputPower {msg : List Byte} (hcmd : leAt msg 3 1 = 0x11) (hsensor : leAt msg 4 2 = 1) (s : State) :
    pldmMonitoring msg s = pldmAnswer msg 0 ([2, 0, 0, 1, 1, 1] ++ leBytes 2 (pwrInput s / 2 ^ 16)) s := by
  rw [pldmMonitoring, hcmd, hsensor]
  rfl

/-! ## Vendor-defined commands and the alert -/

theorem vendorCommand_taken {c : Instr} {packet : W512} {s : State} (haux : s.pwr.auxOk = true)
    (hcheck : packetError s packet.toNat [] = none)
    (hat : commandAt (packetHeader 0 true packet.toNat [] []) (field packet.toNat 15 0)
      (leBytes 48 (packet.toNat / 2 ^ 128)) = some c) :
    vendorCommand 0x1F6B packet s =
      mctpSubmit (packetHeader 0 true packet.toNat [] []) (field packet.toNat 15 0) (body c) c s := by
  have hours : ¬ (!s.pwr.auxOk || decide ((0x1F6B : W16).toNat ≠ 0x1F6B)) = true := by rw [haux]; decide
  rw [vendorCommand, if_neg hours, hcheck, hat]

theorem execSmbusAlertResponse_raised {s : State} (haux : s.pwr.auxOk = true) (hal : s.pwr.alert = true) :
    let a : Byte := BitVec.ofNat 8 (2 * field s.pwr.straps 6 0)
    execSmbusAlertResponse s = .next (emit (.pin 20 true)
      (emit (.smbus [a, BitVec.ofNat 8 (smbusPec [0x19, a])]) { s with pwr := { s.pwr with alert := false } })) := by
  have hgo : ¬ (!s.pwr.auxOk || !s.pwr.alert) = true := by rw [haux, hal]; decide
  exact congrArg Host.Outcome.next (if_neg hgo)

/-! ## The obligation -/

/-- Settles O43: each message by what its checks find. -/
theorem managementMessages : Obligations.ManagementMessages := by
  unfold Obligations.ManagementMessages
  refine ⟨?transaction, ?control, ?pldm, ?power, ?firmware, ?vendor, ?alert⟩
  case transaction =>
    intro bytes s n haux haddr
    exact ⟨fun hbad => execSmbusTransaction_bad haux haddr hbad,
      fun hlen hcode hcount hpec => execSmbusTransaction_good haux haddr hlen hcode hcount hpec⟩
  case control =>
    intro msg s haux hlen hrq
    have hexec := execMctpControlMessage_powered haux msg
    exact ⟨fun hcmd hlo hhi => hexec.trans (congrArg Host.Outcome.next (mctpControl_setEid hlen hrq hcmd hlo hhi)),
      fun hcmd => hexec.trans (congrArg Host.Outcome.next (mctpControl_getEid hlen hrq hcmd)),
      fun hcmd => hexec.trans (congrArg Host.Outcome.next (mctpControl_types hlen hrq hcmd))⟩
  case pldm =>
    intro msg s haux hrec hlen hrq
    have htaken {ty : Nat} (hty : leAt msg 2 1 % 64 = ty) : pldmRequest ty msg s = true :=
      pldmRequest_taken haux (.inr hrec) (by omega) hrq hty
    exact ⟨fun hty => congrArg Host.Outcome.next (if_pos (htaken hty)),
      fun hty => congrArg Host.Outcome.next (if_pos (htaken hty)),
      fun hty => congrArg Host.Outcome.next (if_pos (htaken hty))⟩
  case power => exact fun msg s hcmd hsensor => pldmMonitoring_inputPower hcmd hsensor s
  case firmware =>
    intro msg image s haux hlen hrq hty
    exact congrArg Host.Outcome.next (if_pos (pldmRequest_taken haux (.inl rfl) hlen hrq hty))
  case vendor =>
    rintro h op c packet s rfl rfl haux hcheck hat
    exact congrArg Host.Outcome.next (vendorCommand_taken haux hcheck hat)
  case alert => exact fun s haux hal => execSmbusAlertResponse_raised haux hal

end Sys2Proof.Machine
end

