-- ==== Sys2Proof/Proofs/PowerEvents.lean ====
section
/-!
SUPPORT. Power, temperature and the control cores (R207, R411 to R415, R516, R519, R521, R522): samples and reports of
a powered module, and what they stop.
-/
namespace Sys2Proof.Machine

/-- A powered module passes the guard of a sample. -/
theorem not_unpowered {s : State} (hp : powered s = true) : ¬ (!powered s) = true := by rw [hp]; decide

/-! ## Self-refresh -/

theorem execSelfRefreshEntry_bedding {s : State} (hstate : s.pwr.state = 1) (stack : BitVec 3) :
    execSelfRefreshEntry stack s = .next (
      let t := poolDrainStack stack.toNat s
      let u := setStack t stack.toNat { stackOf t stack.toNat with selfRefresh := true }
      if (List.range 8).all (fun k => (stackOf u k).selfRefresh) then setPwr (fun p => { p with state := 2 }) u else u) :=
  congrArg Host.Outcome.next (if_neg (not_not.mpr hstate))

theorem execStackStopComplete_stopping {stack : BitVec 3} {s : State} (hstop : (stackOf s stack.toNat).stopping = true) :
    execStackStopComplete stack s = .next (
      let t := poolDrainStack stack.toNat s
      setStack t stack.toNat { stackOf t stack.toNat with stopping := false, stopped := true, selfRefresh := true }) := by
  have hgo : ¬ (!(stackOf s stack.toNat).stopping) = true := by rw [hstop]; decide
  exact congrArg Host.Outcome.next (if_neg hgo)

/-! ## The limiter (R519) -/

/-- The state with one more sample of the input. -/
def sampled (watts : W16) (volt : Byte) (s : State) : State :=
  { s with pwr := { s.pwr with
    samples := (watts.toNat :: s.pwr.samples).take 1000, sinceUp := s.pwr.sinceUp + 1, volt := volt.toNat } }

theorem execPowerSample_powered {s : State} (hp : powered s = true) (watts : W16) (volt : Byte) :
    execPowerSample watts volt s = .next (
      let t := sampled watts volt s
      let sum := t.pwr.samples.foldl (· + ·) 0
      if t.pwr.samples.length = 1000 ∧ (s.pwr.k = 8 ∧ 1100 * powerLimit s < sum ∨ 2640000 < sum) then mainLoss 3 0 t
      else limiterStep t) :=
  congrArg Host.Outcome.next (if_neg (not_unpowered hp))

/-! ## Temperatures (R207, R521, R522) -/

section DieTemp
variable {die : BitVec 5} {s : State} (hp : powered s = true) (hdie : die.toNat ≤ 20)
  (hfit : die.toNat < 9 ∨ Config.variantLE = false)
include hp hdie hfit

/-- The die is fitted to a powered module. -/
theorem dieFitted :
    ¬ (!powered s || decide (20 < die.toNat) || (decide (9 ≤ die.toNat) && Config.variantLE)) = true := by
  have hfitted : (decide (9 ≤ die.toNat) && Config.variantLE) = false := by
    obtain h | h := hfit
    · rw [decide_eq_false (Nat.not_le.mpr h), Bool.false_and]
    · rw [h, Bool.and_false]
  rw [hp, hfitted, decide_eq_false (Nat.not_lt.mpr hdie)]
  decide

theorem execDieTempSample_trips {temp : W16} (hd : die.toNat < 9) (htrip : 16 * 120 ≤ temp.toInt) :
    execDieTempSample die temp s = .next (mainLoss 4 die.toNat { s with pwr := { s.pwr with
      temps := sput (0, 0) s.pwr.temps die.toNat
        (temp.toNat, dieNext die.toNat (dieLevel s die.toNat) temp.toInt) } }) :=
  congrArg Host.Outcome.next ((if_neg (dieFitted hp hdie hfit)).trans (if_pos ⟨hd, htrip⟩))

theorem execDieTempSample_levels {temp : W16} (hstay : 9 ≤ die.toNat ∨ temp.toInt < 16 * 120) :
    execDieTempSample die temp s = .next (
      let d := die.toNat
      let l := dieNext d (dieLevel s d) temp.toInt
      let t : State := { s with pwr := { s.pwr with temps := sput (0, 0) s.pwr.temps d (temp.toNat, l) } }
      let u := if dieLevel s d < l then bump t (cPwr 0x110) else t
      dieChange d (dieLevel s d) l (setClock (if thermalCap s < thermalCap u then bump u (cPwr 0x108) else u))) := by
  have hno : ¬ (die.toNat < 9 ∧ 16 * 120 ≤ temp.toInt) := by omega
  exact congrArg Host.Outcome.next ((if_neg (dieFitted hp hdie hfit)).trans (if_neg hno))

end DieTemp

/-- The highest temperature of a stack's dies once one of them has reported. -/
def stackHottest (st : Stack) (die : BitVec 4) (temp : W16) : Int :=
  let ts := (List.range 16).map (fun i => (BitVec.ofNat 16 (sget 0 (sput 0 st.dieTemp die.toNat temp.toNat) i)).toInt)
  ts.foldl max (ts.headD 0)

/-- A report that leaves the stack's level as it was records the temperature; only the trip may follow. -/
theorem execStackTempReport_sameLevel {stack : BitVec 3} {die : BitVec 4} {temp : W16} {s : State} (hp : powered s = true)
    (hlevel : nextLevel 85 95 105 90 (stackOf s stack.toNat).level (stackHottest (stackOf s stack.toNat) die temp) =
      (stackOf s stack.toNat).level) :
    execStackTempReport stack die temp s = .next (
      let st := stackOf s stack.toNat
      stackTrip stack.toNat (stackHottest st die temp) (setStack s stack.toNat { st with
        dieTemp := sput 0 st.dieTemp die.toNat temp.toNat, temp := (BitVec.ofInt 16 (stackHottest st die temp)).toNat
        level := st.level })) := by
  rw [stackHottest] at hlevel
  simp only [execStackTempReport, not_unpowered hp, if_false, hlevel, Nat.lt_irrefl, ne_eq, not_true, and_not_self]
  rfl

/-! ## The mirror of the sticky log (R415) -/

theorem execStickyLogMirror_due {s : State} (hdue : s.slog.mirrored + 1000000 ≤ nsOf s) :
    execStickyLogMirror s = .next ((List.range 8).foldl (fun t k =>
      if !(stackOf t k).applied || (stackOf t k).stopped then t
      else fwWrite k 0x03000000 ((List.range 256).flatMap (fun i => leBytes 32 ((slogRecords s).getD (256 * k + i) 0))) t)
      { s with slog := { s.slog with mirrored := nsOf s } }) :=
  congrArg Host.Outcome.next (if_neg (Nat.not_lt.mpr hdue))

/-! ## The obligation -/

/-- Settles O42: each event of power, temperature and the cores by the state it finds. -/
theorem powerEvents : Obligations.PowerEvents := by
  unfold Obligations.PowerEvents
  refine ⟨?selfRefresh, ?sample, ?die, ?stack, ?stopped, ?core, ?mirror⟩
  case selfRefresh => exact fun stack s hstate => execSelfRefreshEntry_bedding hstate stack
  case sample =>
    intro watts volt s hp t sum trips
    have hsample := execPowerSample_powered hp watts volt
    exact ⟨fun htrips => hsample.trans (congrArg Host.Outcome.next (if_pos htrips)),
      fun hstays => hsample.trans (congrArg Host.Outcome.next (if_neg hstays))⟩
  case die =>
    intro die temp s d hp hdie hfit l t
    exact ⟨fun hd htrip => execDieTempSample_trips hp hdie hfit hd htrip,
      fun hstay => execDieTempSample_levels hp hdie hfit hstay⟩
  case stack =>
    intro stack die temp s k st dies ts hot hp hlevel
    exact execStackTempReport_sameLevel hp hlevel
  case stopped => exact fun stack s hstop => execStackStopComplete_stopping hstop
  case core => exact fun core s => ⟨rfl, rfl⟩
  case mirror => exact fun s hdue => execStickyLogMirror_due hdue

end Sys2Proof.Machine
end

