-- ==== Sys2Proof/Proofs/UpdateEvents.lean ====
section
/-!
SUPPORT. What the update does (chapter 9): a block begins in a journal slot, its write groups end one after another, and
the combined sums of a group end its factors, each through the branch of its command that is taken.
-/
namespace Sys2Proof.Machine

/-! ## A weight block starts (R264, R269) -/

section Start
variable {stack : BitVec 3} {shard : BitVec 11} {block : W32} {sh : Shard} {s : State}

/-- WEIGHT_BLOCK_START for a block that no guard of the command holds back. -/
theorem execWeightBlockStart_eligible (hsh : shardOf s stack.toNat shard.toNat = some sh) (hrun : s.stp.updRun = true)
    (h3 : s.stp.rc.state = 3) (hb : block.toNat < sdBlocks sh.desc) (hu : sget false sh.updated block.toNat = false)
    (hf : s.cbl.flight = []) (hsums : sumsReady s sh.desc = true)
    (hlow : lowerStarted s stack.toNat shard.toNat sh block.toNat = true)
    (hstop : (stackOf s stack.toNat).stopped = false) :
    execWeightBlockStart stack shard block s = .next (
      if sh.torn then markUpdated stack.toNat shard.toNat block.toNat s
      else if !blockDue s sh.desc block.toNat then leaveBlock stack.toNat shard.toNat sh.desc block.toNat s
      else
        let r := readBlock stack.toNat sh.desc block.toNat true s
        if r.1 then startFlight stack.toNat shard.toNat sh.desc block.toNat r.2
        else leaveBlock stack.toNat shard.toNat sh.desc block.toNat (markInvalid stack.toNat shard.toNat r.2)) := by
  have hfree : ¬(!s.stp.updRun || decide (s.stp.rc.state ≠ 3) || decide (sdBlocks sh.desc ≤ block.toNat) ||
      sget false sh.updated block.toNat ||
      s.cbl.flight.any (fun f => decide (f.stack = stack.toNat) && decide (f.shard = shard.toNat) &&
        decide (f.block = block.toNat)) ||
      decide (8 ≤ (s.cbl.flight.filter (fun f => decide (f.stack = stack.toNat) &&
        decide (f.unit = block.toNat % 16))).length) ||
      !sumsReady s sh.desc || !lowerStarted s stack.toNat shard.toNat sh block.toNat ||
      (stackOf s stack.toNat).stopped) = true := by
    simp [hrun, h3, hb, hu, hf, hsums, hlow, hstop]
  rw [execWeightBlockStart, hsh]
  exact congrArg Host.Outcome.next (if_neg hfree)

/-- A unit with a free journal slot takes one of them for the block. -/
theorem startFlight_takesFreeSlot {k i d b : Nat} (h : freeSlots s k (b % 16) ≠ []) :
    ∃ j ∈ freeSlots s k (b % 16), startFlight k i d b s =
      let t := journalBlock k i d b j { s with free := s.free + 1 }
      { t with cbl := { t.cbl with flight := t.cbl.flight ++
        [{ stack := k, unit := b % 16, slot := j, shard := i, block := b, phase := 1 }] } } := by
  have hlt : (free32 s).1 % (freeSlots s k (b % 16)).length < (freeSlots s k (b % 16)).length :=
    Nat.mod_lt _ (List.length_pos_iff.mpr h)
  refine ⟨(freeSlots s k (b % 16)).getD ((free32 s).1 % (freeSlots s k (b % 16)).length) 0, ?_, ?_⟩
  · rw [List.getD_eq_getElem _ _ hlt]
    exact List.getElem_mem hlt
  · exact if_neg (by simpa using h)

end Start

/-! ## A write group completes (R264, R267, R269) -/

section Complete
variable {stack : BitVec 3} {shard : BitVec 11} {block : W32} {f : Flight} {sh : Shard} {s : State}

/-- The block's flight goes to phase `p`. -/
def flightPhase (f : Flight) (p : Nat) (s : State) : State :=
  { s with cbl := { s.cbl with flight := s.cbl.flight.map (fun x => if x = f then { x with phase := p } else x) } }

/-- The block's flight ends. -/
def flightEnds (f : Flight) (s : State) : State :=
  { s with cbl := { s.cbl with flight := s.cbl.flight.filter (· ≠ f) } }

/-- R269. The flight of a block that cannot be read any more ends with the block left as it is. -/
def flightLeft (k i b : Nat) (sh : Shard) (f : Flight) (s : State) : State :=
  flightEnds f (leaveBlock k i sh.desc b (markInvalid k i (retireEntry k f.unit f.slot s)))

/-- WRITE_GROUP_COMPLETE for a block in flight. -/
theorem execWriteGroupComplete_flying (hsh : shardOf s stack.toNat shard.toNat = some sh)
    (hf : s.cbl.flight.find? (fun f => decide (f.stack = stack.toNat) && decide (f.shard = shard.toNat) &&
      decide (f.block = block.toNat)) = some f) :
    execWriteGroupComplete stack shard block s = .next (
      if s.stp.rc.state ≠ 3 then flightEnds f s
      else if f.phase = 3 then flightEnds f (markUpdated stack.toNat shard.toNat block.toNat
        (bump (retireEntry stack.toNat f.unit f.slot s) (cCbl stack.toNat 0x160)))
      else
        let r := readBlock stack.toNat sh.desc block.toNat false s
        if f.phase = 1 then
          if r.1 then flightPhase f 2 (groupM stack.toNat shard.toNat sh.desc block.toNat f.unit f.slot r.2)
          else flightLeft stack.toNat shard.toNat block.toNat sh f r.2
        else if r.1 then flightPhase f 3 (groupW stack.toNat shard.toNat sh.desc block.toNat f.unit f.slot r.2)
        else flightLeft stack.toNat shard.toNat block.toNat sh f
          (restoreMoments stack.toNat sh.desc block.toNat f.unit f.slot r.2)) := by
  rw [execWriteGroupComplete]
  simp only [hf, hsh]
  rfl

variable (hsh : shardOf s stack.toNat shard.toNat = some sh)
  (hf : s.cbl.flight.find? (fun f => decide (f.stack = stack.toNat) && decide (f.shard = shard.toNat) &&
    decide (f.block = block.toNat)) = some f)
include hsh hf

theorem execWriteGroupComplete_aborted (hst : s.stp.rc.state ≠ 3) :
    execWriteGroupComplete stack shard block s = .next (flightEnds f s) := by
  rw [execWriteGroupComplete_flying hsh hf, if_pos hst]

theorem execWriteGroupComplete_moments (hst : s.stp.rc.state = 3) (hp : f.phase = 1) :
    let r := readBlock stack.toNat sh.desc block.toNat false s
    execWriteGroupComplete stack shard block s = .next (
      if r.1 then flightPhase f 2 (groupM stack.toNat shard.toNat sh.desc block.toNat f.unit f.slot r.2)
      else flightLeft stack.toNat shard.toNat block.toNat sh f r.2) := by
  have h3 : f.phase ≠ 3 := by omega
  rw [execWriteGroupComplete_flying hsh hf, if_neg (not_not_intro hst), if_neg h3]
  exact congrArg Host.Outcome.next (if_pos hp)

theorem execWriteGroupComplete_weights (hst : s.stp.rc.state = 3) (hp : f.phase = 2) :
    let r := readBlock stack.toNat sh.desc block.toNat false s
    execWriteGroupComplete stack shard block s = .next (
      if r.1 then flightPhase f 3 (groupW stack.toNat shard.toNat sh.desc block.toNat f.unit f.slot r.2)
      else flightLeft stack.toNat shard.toNat block.toNat sh f
        (restoreMoments stack.toNat sh.desc block.toNat f.unit f.slot r.2)) := by
  have h1 : f.phase ≠ 1 := by omega
  have h3 : f.phase ≠ 3 := by omega
  rw [execWriteGroupComplete_flying hsh hf, if_neg (not_not_intro hst), if_neg h3]
  exact congrArg Host.Outcome.next (if_neg h1)

theorem execWriteGroupComplete_done (hst : s.stp.rc.state = 3) (hp : f.phase = 3) :
    execWriteGroupComplete stack shard block s = .next (flightEnds f (markUpdated stack.toNat shard.toNat block.toNat
      (bump (retireEntry stack.toNat f.unit f.slot s) (cCbl stack.toNat 0x160)))) := by
  rw [execWriteGroupComplete_flying hsh hf, if_neg (not_not_intro hst), if_pos hp]

end Complete

/-! ## The sums of a group (R253, R258, R259) -/

section Sums
variable {g : Nat} {sums : GroupSums} {s : State}

theorem takeSums_lamb (h : groupOpt s g = 6) :
    let own := sget (Exact.zero, Exact.zero) s.cbl.lamb g
    takeSums g sums s =
      sumsFormed g (trustRatio (own.1.add (ofExactWord sums.u2)) (own.2.add (ofExactWord sums.w2))) .zero s := by
  simp only [takeSums, h, if_true]

theorem takeSums_adafactorFirst (h : groupOpt s g = 5) (hrow : sget none s.cbl.adaRow g = none) :
    takeSums g sums s = adaForm g sums s := by
  simp [takeSums, h, hrow]

theorem takeSums_adafactorSecond {rs : Exact} (h : groupOpt s g = 5) (hrow : sget none s.cbl.adaRow g = some rs) :
    takeSums g sums s = sumsFormed g .zero
      (div32 (rs.add (ofExactWord sums.rs)).read (rnd32 (.ofNat (adaGroupRows s g sums.rows.toNat)))) s := by
  simp [takeSums, h, hrow]

end Sums

theorem execGroupSumsComplete_due {group : BitVec 10} {sums : GroupSums} {s : State} (hrun : s.stp.updRun = true)
    (hst : s.stp.rc.state = 3 ∨ s.stp.rc.state = 6) (hsum : sget false s.cbl.sums group.toNat = false)
    (hfr : grFrozen (groupRaw s group.toNat) = false) :
    execGroupSumsComplete group sums s = .next (resumeGroup group.toNat (takeSums group.toNat sums s)) := by
  have hdue : ¬(!s.stp.updRun || decide (s.stp.rc.state ≠ 3 ∧ s.stp.rc.state ≠ 6) || sget false s.cbl.sums group.toNat ||
      grFrozen (groupRaw s group.toNat)) = true := by
    simp only [hrun, hsum, hfr, Bool.not_true, Bool.or_false, Bool.false_or, decide_eq_true_eq]
    omega
  exact congrArg Host.Outcome.next (if_neg hdue)

/-! ## The obligation -/

/-- Settles O39: in the state of the update that each event needs, its command takes the branch stated above. -/
theorem updateEvents : Obligations.UpdateEvents := by
  unfold Obligations.UpdateEvents
  refine ⟨?grid, ?start, ?complete, ?sums⟩
  case grid => exact fun stack shard block gen contrib s => rfl
  case start =>
    intro stack shard block sh s k i b u r hsh hrun h3 hb hu hf hsums hlow hstop
    have hex := execWeightBlockStart_eligible hsh hrun h3 hb hu hf hsums hlow hstop
    refine ⟨fun ht => ?torn, fun ht hd => ?notDue, fun ht hd hr => ?unread, fun ht hd hr hj => ?starts⟩
    case torn => exact hex.trans (congrArg Host.Outcome.next (if_pos ht))
    case notDue =>
      rw [ht, hd] at hex
      exact hex
    case unread =>
      rw [ht, hd] at hex
      exact hex.trans (congrArg Host.Outcome.next (if_neg (ne_true_of_eq_false hr)))
    case starts =>
      obtain ⟨j, hmem, hstart⟩ := startFlight_takesFreeSlot (i := i) (d := sh.desc) hj
      rw [ht, hd] at hex
      exact ⟨j, hmem, (hex.trans (congrArg Host.Outcome.next (if_pos hr))).trans (congrArg Host.Outcome.next hstart)⟩
  case complete =>
    intro stack shard block f sh s k i b r inPhase ended left hsh hf
    have hphase : inPhase = flightPhase f := rfl
    have hended : ended = flightEnds f := rfl
    have hleft : left = flightLeft k i b sh f := rfl
    rw [hphase, hended, hleft]
    exact ⟨execWriteGroupComplete_aborted hsh hf, execWriteGroupComplete_moments hsh hf,
      execWriteGroupComplete_weights hsh hf, execWriteGroupComplete_done hsh hf⟩
  case sums =>
    intro group sums s g tb formed hrun hst hsum hfr
    have hformed : ∀ tr rm, formed tr rm s = sumsFormed g tr rm s := fun _ _ => rfl
    have hex := execGroupSumsComplete_due (sums := sums) hrun hst hsum hfr
    refine ⟨fun h => ?lamb, fun h hrow => ?first, fun rs h hrow => ?second⟩
    case lamb =>
      rw [takeSums_lamb h] at hex
      simp only [hformed]
      exact hex
    case first =>
      rw [takeSums_adafactorFirst h hrow] at hex
      exact hex
    case second =>
      rw [takeSums_adafactorSecond h hrow] at hex
      simp only [hformed]
      exact hex

end Sys2Proof.Machine
end

