-- ==== Sys2Proof/Proofs/FrameEvents.lean ====
section
/-!
SUPPORT. What the native frames of the fabric do (R336, R344): a frame that passes the checks is counted and goes to the
action of its kind, and one that its flow expects moves the flow on first.
-/
namespace Sys2Proof.Machine

/-! ## A frame that is taken (R336) -/

theorem parseFrame_bump (s : State) (a p : Nat) (frame : List Byte) : parseFrame (bump s a) p frame = parseFrame s p frame :=
  rfl

theorem parseFrame_form {s : State} {p : Nat} {frame : List Byte} {f : RxFrame} (h : parseFrame s p frame = some f) :
    { f with form := none } = f := by
  unfold parseFrame at h
  simp only [ite_eq_iff, reduceCtorEq, and_false, false_or, Option.some.injEq] at h
  rw [← h.2]

section Taken
variable {p : Nat} {frame : List Byte} {f : RxFrame} {s : State} (h : Taken p frame f s)
include h

/-- A taken frame for this module goes past steps 1 to 5. -/
theorem receiveForm_taken (form : Option Contribution) :
    receiveForm p frame form s = rxOwn p { f with form := form } (counted p f s) := by
  obtain ⟨hserv, hnat, hfcs, hparse, he2e, hver, hkind, hkind', hlen, hjob, hsrc, hdst⟩ := h
  have hport : ¬(!inService s p || !portNative s p) = true := by simp [hserv, hnat]
  have hform : ¬(nhVersion f.hdr ≠ 1 || nhKind f.hdr = 0 || decide (8 < nhKind f.hdr) ||
      nhLen f.hdr ≠ f.payload.length) = true := by
    simp only [hver, hlen, ne_eq, not_true_eq_false, decide_false, Bool.false_or, Bool.or_false, Bool.or_eq_true,
      decide_eq_true_eq]
    omega
  have hown : ¬(ownFid s ≠ 0xFFFF && decide (nhSrc f.hdr = ownFid s)) = true := by
    simp only [Bool.and_eq_true, decide_eq_true_eq]
    exact fun ho => hsrc.elim ho.1 (fun hne => hne ho.2)
  have hhere : (nhDst f.hdr = ownFid s || nhDst f.hdr = 0xFFFF : Bool) = true := by simpa using hdst
  unfold receiveForm
  rw [if_neg hport]
  simp only [parseFrame_bump, hparse, hfcs, Option.map_some]
  rw [if_neg (by simp), if_neg (not_not_intro he2e), if_neg hform]
  exact ((if_neg (not_not_intro hjob)).trans (if_neg hown)).trans (if_pos hhere)

theorem receiveFrame_taken : receiveFrame p frame s = rxOwn p f (counted p f s) := by
  have hparse : parseFrame s p frame = some f := h.2.2.2.1
  have hrx := receiveForm_taken h none
  rw [parseFrame_form hparse] at hrx
  exact hrx

end Taken

/-! ## A frame that its flow expects (R344) -/

section Expected
variable {p : Nat} {f : RxFrame} {r : RxFlow} {s : State} (h : Expected f r s)
include h

theorem rxSequence_expected (form : Option Contribution) :
    rxSequence p { f with form := form } s = rxTarget p { f with form := form } (advanced f r s) := by
  obtain ⟨-, hflow, hseq⟩ := h
  unfold rxSequence
  simp only [hflow, hseq, if_true]
  unfold advanced
  simp only [hseq]

/-- A sequenced frame of kind 1, 2, 3, 4 or 7 acts by its kind after its flow has moved on. -/
theorem rxOwn_expected (form : Option Contribution) (h5 : nhKind f.hdr ≠ 5) (h6 : nhKind f.hdr ≠ 6)
    (h8 : nhKind f.hdr ≠ 8) :
    rxOwn p { f with form := form } s = rxTarget p { f with form := form } (advanced f r s) := by
  have hbcast : ¬decide (nhDst f.hdr = 0xFFFF) = true := by simpa using h.1
  rw [← rxSequence_expected h]
  unfold rxOwn
  split
  · exact absurd ‹_› h5
  · exact absurd ‹_› h6
  · exact absurd ‹_› h8
  all_goals exact if_neg hbcast

end Expected

section Sequenced
variable {p : Nat} {frame : List Byte} {f : RxFrame} {r : RxFlow} {s : State} (h : Taken p frame f s)
  (hr : Expected f r (counted p f s)) (h5 : nhKind f.hdr ≠ 5) (h6 : nhKind f.hdr ≠ 6) (h8 : nhKind f.hdr ≠ 8)
include h hr h5 h6 h8

theorem receiveForm_expected (form : Option Contribution) :
    receiveForm p frame form s = rxTarget p { f with form := form } (advanced f r (counted p f s)) := by
  rw [receiveForm_taken h, rxOwn_expected hr form h5 h6 h8]

theorem receiveFrame_expected : receiveFrame p frame s = rxTarget p f (advanced f r (counted p f s)) := by
  have hparse : parseFrame s p frame = some f := h.2.2.2.1
  have hrx := receiveForm_expected h hr h5 h6 h8 none
  rw [parseFrame_form hparse] at hrx
  exact hrx

end Sequenced

/-! ## What the kinds do (R336, Table 12-4) -/

section Kinds
variable {p : Nat} {f : RxFrame} {s : State}

theorem rxTarget_write (hk : nhKind f.hdr = 1) : rxTarget p f s = rxWrite p f s := by simp only [rxTarget, hk]

theorem rxTarget_contrib (hk : nhKind f.hdr = 2) (hn : nhHandle f.hdr < 0xFFF0)
    (hq : consumerQueue s (nhHandle f.hdr) = none) {h : Handle} (hh : handleOf s (nhHandle f.hdr) = some h) :
    rxTarget p f s = rxContrib p (nhHandle f.hdr) h f s := by
  simp only [rxTarget, hk, hq, hh, if_neg (Nat.not_le.mpr hn)]

theorem rxTarget_queueEntry (hk : nhKind f.hdr = 2) (hn : nhHandle f.hdr < 0xFFF0)
    (hq : (consumerQueue s (nhHandle f.hdr)).isSome) :
    rxTarget p f s = queueArrive (nhHandle f.hdr) (nhAddr f.hdr) (nhGen f.hdr) f.payload s := by
  obtain ⟨q, hq⟩ := Option.isSome_iff_exists.mp hq
  simp only [rxTarget, hk, hq, if_neg (Nat.not_le.mpr hn)]

theorem rxTarget_result (hk : nhKind f.hdr = 3) (hn : nhHandle f.hdr < 0xFFF0) {h : Handle}
    (hh : handleOf s (nhHandle f.hdr) = some h) : rxTarget p f s = rxResult p (nhHandle f.hdr) h f s := by
  simp only [rxTarget, hk, hh, if_neg (Nat.not_le.mpr hn)]

theorem rxTarget_credit (hk : nhKind f.hdr = 4) : rxTarget p f s = rxCredit p f s := by simp only [rxTarget, hk]

theorem rxTarget_ctrl (hk : nhKind f.hdr = 7) : rxTarget p f s = rxCtrl p f s := by simp only [rxTarget, hk]

theorem rxOwn_ack (hk : nhKind f.hdr = 5) :
    rxOwn p f s = ackFlow (nhSrc f.hdr) (nhIdx f.hdr % 8) (nhSeq f.hdr) s := by simp only [rxOwn, hk]

theorem rxOwn_nack (hk : nhKind f.hdr = 6) :
    rxOwn p f s = if nhLast f.hdr then restartFlow (nhSrc f.hdr) (nhIdx f.hdr % 8) s
      else resendFrom (nhSrc f.hdr) (nhIdx f.hdr % 8) (nhSeq f.hdr)
        (ackFlow (nhSrc f.hdr) (nhIdx f.hdr % 8) (nhSeq f.hdr) s) := by simp only [rxOwn, hk]

theorem rxOwn_time (hk : nhKind f.hdr = 8) :
    rxOwn p f s = timeMessage false p f.payload (sendTimeFrame p (nhSrc f.hdr)) s := by simp only [rxOwn, hk]

end Kinds

/-! ## The obligation -/

/-- The kinds of frames that belong to a flow are expected; each acts by its kind once its flow has moved on. -/
theorem frameEvents_expected (port : BitVec 4) (frame : List Byte) (f : RxFrame) (s : State)
    (ht : Taken port.toNat frame f s) (r : RxFlow) (hr : Expected f r (counted port.toNat f s)) :
    let p := port.toNat
    let u := advanced f r (counted p f s)
    (nhKind f.hdr = 1 → receiveFrame p frame s = rxWrite p f u) ∧
    (∀ form h, nhKind f.hdr = 2 → nhHandle f.hdr < 0xFFF0 → consumerQueue u (nhHandle f.hdr) = none →
      handleOf u (nhHandle f.hdr) = some h →
      receiveForm p frame form s = rxContrib p (nhHandle f.hdr) h { f with form := form } u) ∧
    (∀ form q, nhKind f.hdr = 2 → nhHandle f.hdr < 0xFFF0 → consumerQueue u (nhHandle f.hdr) = some q →
      receiveForm p frame form s = queueArrive (nhHandle f.hdr) (nhAddr f.hdr) (nhGen f.hdr) f.payload u) ∧
    (∀ h, nhKind f.hdr = 3 → nhHandle f.hdr < 0xFFF0 → handleOf u (nhHandle f.hdr) = some h →
      receiveFrame p frame s = rxResult p (nhHandle f.hdr) h f u) ∧
    (nhKind f.hdr = 4 → receiveFrame p frame s = rxCredit p f u) ∧
    (nhKind f.hdr = 7 → receiveFrame p frame s = rxCtrl p f u) := by
  intro p u
  have hframe (k : Nat) (hk : nhKind f.hdr = k) (h5 : k ≠ 5) (h6 : k ≠ 6) (h8 : k ≠ 8) :
      receiveFrame p frame s = rxTarget p f u := by
    subst hk; exact receiveFrame_expected ht hr h5 h6 h8
  have hform (form : Option Contribution) (hk : nhKind f.hdr = 2) :
      receiveForm p frame form s = rxTarget p { f with form := form } u :=
    receiveForm_expected ht hr (by omega) (by omega) (by omega) form
  refine ⟨fun hk => ?write, fun form h hk hn hq hh => ?contrib, fun form q hk hn hq => ?entry,
    fun h hk hn hh => ?result, fun hk => ?credit, fun hk => ?ctrl⟩
  case write => rw [hframe 1 hk (by decide) (by decide) (by decide), rxTarget_write hk]
  case contrib => rw [hform form hk, rxTarget_contrib (f := { f with form := form }) hk hn hq hh]
  case entry => rw [hform form hk, rxTarget_queueEntry (f := { f with form := form }) hk hn (by rw [hq]; rfl)]
  case result => rw [hframe 3 hk (by decide) (by decide) (by decide), rxTarget_result hk hn hh]
  case credit => rw [hframe 4 hk (by decide) (by decide) (by decide), rxTarget_credit hk]
  case ctrl => rw [hframe 7 hk (by decide) (by decide) (by decide), rxTarget_ctrl hk]

/-- The frames of no flow act as soon as they are taken. -/
theorem frameEvents_unsequenced (port : BitVec 4) (frame : List Byte) (f : RxFrame) (s : State)
    (ht : Taken port.toNat frame f s) :
    let p := port.toNat
    let t := counted p f s
    (nhKind f.hdr = 5 → receiveFrame p frame s = ackFlow (nhSrc f.hdr) (nhIdx f.hdr % 8) (nhSeq f.hdr) t) ∧
    (nhKind f.hdr = 6 → nhLast f.hdr = true → receiveFrame p frame s = restartFlow (nhSrc f.hdr) (nhIdx f.hdr % 8) t) ∧
    (nhKind f.hdr = 6 → nhLast f.hdr = false → receiveFrame p frame s =
      resendFrom (nhSrc f.hdr) (nhIdx f.hdr % 8) (nhSeq f.hdr)
        (ackFlow (nhSrc f.hdr) (nhIdx f.hdr % 8) (nhSeq f.hdr) t)) ∧
    (nhKind f.hdr = 8 → receiveFrame p frame s = timeMessage false p f.payload (sendTimeFrame p (nhSrc f.hdr)) t) := by
  intro p t
  refine ⟨fun hk => ?ack, fun hk hl => ?restart, fun hk hl => ?resend, fun hk => ?time⟩
  case ack => rw [receiveFrame_taken ht, rxOwn_ack hk]
  case restart => rw [receiveFrame_taken ht, rxOwn_nack hk, if_pos hl]
  case resend => rw [receiveFrame_taken ht, rxOwn_nack hk, hl]; rfl
  case time => rw [receiveFrame_taken ht, rxOwn_time hk]

theorem rxCtrl_code {p : Nat} {f : RxFrame} {s : State} {c : Nat} (hc : leAt f.payload 0 1 = c) :
    (c = 1 ∨ c = 2 ∨ c = 3 → rxCtrl p f s = rxRunCtrl p c f s) ∧ (c = 4 → rxCtrl p f s = rxFlowClose f s) ∧
      (c = 5 → rxCtrl p f s = rxBuddy f s) := by
  unfold rxCtrl
  rw [hc]
  refine ⟨?_, ?_, ?_⟩
  · rintro (rfl | rfl | rfl) <;> rfl
  · rintro rfl; rfl
  · rintro rfl; rfl

/-- Settles O46: every command of a received frame is `receiveForm`, which a taken frame leaves by its kind, a frame of a
flow after the flow has moved on. -/
theorem frameEvents : Obligations.FrameEvents := by
  unfold Obligations.FrameEvents
  intro port frame f s p t ht
  have hnext {a b : State} (h : a = b) : (Host.Outcome.next a : Host.Outcome State Fault Refusal) = .next b :=
    congrArg Host.Outcome.next h
  refine ⟨fun r hr => ?_, ?_⟩
  · obtain ⟨hwrite, hcontrib, hentry, hresult, hcredit, hctrl⟩ := frameEvents_expected port frame f s ht r hr
    refine ⟨fun hk => hnext (hwrite hk), fun form h hk hn hq hh => hnext (hcontrib form h hk hn hq hh),
      fun form q hk hn hq => hnext (hentry form q hk hn hq), fun h hk hn hh => hnext (hresult h hk hn hh),
      fun hk => hnext (hcredit hk), fun hk hc => ?exclude, fun hk hc => ?slow, fun hk hc => ?lost,
      fun hk hc => ?close, fun hk hc => ?buddy⟩
    case exclude => exact hnext ((hctrl hk).trans ((rxCtrl_code hc).1 (.inl rfl)))
    case slow => exact hnext ((hctrl hk).trans ((rxCtrl_code hc).1 (.inr (.inl rfl))))
    case lost => exact hnext ((hctrl hk).trans ((rxCtrl_code hc).1 (.inr (.inr rfl))))
    case close => exact hnext ((hctrl hk).trans ((rxCtrl_code hc).2.1 rfl))
    case buddy => exact hnext ((hctrl hk).trans ((rxCtrl_code hc).2.2 rfl))
  · obtain ⟨hack, hrestart, hresend, htime⟩ := frameEvents_unsequenced port frame f s ht
    exact ⟨fun hk => hnext (hack hk), fun hk hl => hnext (hrestart hk hl), fun hk hl => hnext (hresend hk hl),
      fun hk => hnext (htime hk)⟩

end Sys2Proof.Machine
end

