-- ==== Sys2Proof/Proofs/Within.lean ====
section
/-!
SUPPORT. What a function of the model leaves alone (R30): `Within ps s t` says that `t` differs from `s` at most in the
parts `ps` of the state. Each function has one lemma that names the parts it may change.
-/

-- Many short proofs: elaborated in turn, so that they do not wait in a thread each for the kernel's check.
set_option Elab.async false

namespace Sys2Proof.Machine

/-- The parts of the state. -/
inductive Part where
  | pending | mem | poison | upset | openBlk | regs | ctr | latch | glatch | course | out | free | slog | host | cfg
  | tiles | tensors | chans | stackTab | piers | rmap | bud | cbl | stp | tm | fab | npx | ck | sec | pwr
  deriving DecidableEq

/-- A part is the same in both states. -/
def Part.Same (s t : State) : Part → Prop
  | .pending => t.pending = s.pending
  | .mem => t.mem = s.mem
  | .poison => t.poison = s.poison
  | .upset => t.upset = s.upset
  | .openBlk => t.openBlk = s.openBlk
  | .regs => t.regs = s.regs
  | .ctr => t.ctr = s.ctr
  | .latch => t.latch = s.latch
  | .glatch => t.glatch = s.glatch
  | .course => t.course = s.course
  | .out => t.out = s.out
  | .free => t.free = s.free
  | .slog => t.slog = s.slog
  | .host => t.host = s.host
  | .cfg => t.cfg = s.cfg
  | .tiles => t.tiles = s.tiles
  | .tensors => t.tensors = s.tensors
  | .chans => t.chans = s.chans
  | .stackTab => t.stackTab = s.stackTab
  | .piers => t.piers = s.piers
  | .rmap => t.rmap = s.rmap
  | .bud => t.bud = s.bud
  | .cbl => t.cbl = s.cbl
  | .stp => t.stp = s.stp
  | .tm => t.tm = s.tm
  | .fab => t.fab = s.fab
  | .npx => t.npx = s.npx
  | .ck => t.ck = s.ck
  | .sec => t.sec = s.sec
  | .pwr => t.pwr = s.pwr

/-- `t` differs from `s` at most in the parts `ps`. -/
def Within (ps : List Part) (s t : State) : Prop := ∀ p : Part, p ∉ ps → p.Same s t

/-- The state `s` with the parts `ps` of `t`. -/
def overlay (ps : List Part) (s t : State) : State where
  pending := if .pending ∈ ps then t.pending else s.pending
  mem := if .mem ∈ ps then t.mem else s.mem
  poison := if .poison ∈ ps then t.poison else s.poison
  upset := if .upset ∈ ps then t.upset else s.upset
  openBlk := if .openBlk ∈ ps then t.openBlk else s.openBlk
  regs := if .regs ∈ ps then t.regs else s.regs
  ctr := if .ctr ∈ ps then t.ctr else s.ctr
  latch := if .latch ∈ ps then t.latch else s.latch
  glatch := if .glatch ∈ ps then t.glatch else s.glatch
  course := if .course ∈ ps then t.course else s.course
  out := if .out ∈ ps then t.out else s.out
  free := if .free ∈ ps then t.free else s.free
  slog := if .slog ∈ ps then t.slog else s.slog
  host := if .host ∈ ps then t.host else s.host
  cfg := if .cfg ∈ ps then t.cfg else s.cfg
  tiles := if .tiles ∈ ps then t.tiles else s.tiles
  tensors := if .tensors ∈ ps then t.tensors else s.tensors
  chans := if .chans ∈ ps then t.chans else s.chans
  stackTab := if .stackTab ∈ ps then t.stackTab else s.stackTab
  piers := if .piers ∈ ps then t.piers else s.piers
  rmap := if .rmap ∈ ps then t.rmap else s.rmap
  bud := if .bud ∈ ps then t.bud else s.bud
  cbl := if .cbl ∈ ps then t.cbl else s.cbl
  stp := if .stp ∈ ps then t.stp else s.stp
  tm := if .tm ∈ ps then t.tm else s.tm
  fab := if .fab ∈ ps then t.fab else s.fab
  npx := if .npx ∈ ps then t.npx else s.npx
  ck := if .ck ∈ ps then t.ck else s.ck
  sec := if .sec ∈ ps then t.sec else s.sec
  pwr := if .pwr ∈ ps then t.pwr else s.pwr

/-- What an access to a line of Treim may change: the line, its tables, counters and budget, and the mark of R268. -/
abbrev lineParts : List Part := [.mem, .poison, .upset, .ctr, .chans, .stackTab, .bud, .cbl]

/-- What the memory path may change: besides a line's parts the pools and caches of the piers and the sticky log. -/
abbrev memoryParts : List Part := [.mem, .poison, .upset, .ctr, .slog, .chans, .stackTab, .piers, .bud, .cbl]

/-- What a read at any device address may change: besides the memory path a tile that it fences. -/
abbrev accessParts : List Part :=
  [.mem, .poison, .upset, .ctr, .course, .free, .slog, .tiles, .chans, .stackTab, .piers, .bud, .cbl]

/-- What sending a frame of the fabric may change, where its flow fails too. -/
abbrev frameParts : List Part := [.ctr, .course, .out, .slog, .bud, .fab, .ck]

/-! ## The relation -/

theorem Part.Same.refl (s : State) (p : Part) : p.Same s s := by cases p <;> rfl

theorem Part.Same.trans {s t u : State} {p : Part} (h : p.Same s t) (h' : p.Same t u) : p.Same s u := by
  cases p <;> exact Eq.trans h' h

section Relation
variable {ps qs : List Part} {s₀ s t u : State}

theorem Within.rfl : Within ps s s := fun p _ => .refl s p

theorem Within.trans (h : Within ps s t) (h' : Within ps t u) : Within ps s u :=
  fun p hp => (h p hp).trans (h' p hp)

theorem Within.mono (h : Within qs s t) (hp : qs ⊆ ps) : Within ps s t := fun p hn => h p (fun hq => hn (hp hq))

/-- A step that changes the parts `qs` alone. -/
theorem Within.step (h : Within ps s₀ s) (hp : qs ⊆ ps) (h' : Within qs s t) : Within ps s₀ t := h.trans (h'.mono hp)

/-- What differs in the parts `ps` alone is `s` with these parts. -/
theorem Within.eq (h : Within ps s t) : t = overlay ps s t := by
  have hpart {α : Type} {p : Part} {a b : α} (hs : p.Same s t → a = b) : a = if p ∈ ps then a else b := by
    split
    · rfl
    · exact hs (h p ‹_›)
  cases s; cases t
  rw [overlay, State.mk.injEq]
  and_intros <;> exact hpart id

theorem within_overlay : Within ps s (overlay ps s t) := by
  intro p hp
  cases p <;> exact if_neg hp

theorem Within.of_eq (e : t = overlay ps s t) : Within ps s t := by
  rw [e]
  exact within_overlay

/-- Several parts written at once. -/
theorem Within.update (h : Within ps s₀ s) (e : t = overlay ps s t := by rfl) : Within ps s₀ t := h.trans (.of_eq e)

end Relation

/-! ## One part written -/

section Parts
variable {ps : List Part} {s₀ s : State} (h : Within ps s₀ s)
include h

theorem Within.mem {v : List Host.Cell} (hp : [.mem] ⊆ ps := by decide) : Within ps s₀ { s with mem := v } :=
  h.step hp (.of_eq (.refl _))
theorem Within.poison {v : Sparse Bool} (hp : [.poison] ⊆ ps := by decide) : Within ps s₀ { s with poison := v } :=
  h.step hp (.of_eq (.refl _))
theorem Within.upset {v : Sparse Nat} (hp : [.upset] ⊆ ps := by decide) : Within ps s₀ { s with upset := v } :=
  h.step hp (.of_eq (.refl _))
theorem Within.openBlk {v : Sparse (List (Nat × FVal))} (hp : [.openBlk] ⊆ ps := by decide) :
    Within ps s₀ { s with openBlk := v } :=
  h.step hp (.of_eq (.refl _))
theorem Within.regs {v : Sparse Nat} (hp : [.regs] ⊆ ps := by decide) : Within ps s₀ { s with regs := v } :=
  h.step hp (.of_eq (.refl _))
theorem Within.ctr {v : Sparse Nat} (hp : [.ctr] ⊆ ps := by decide) : Within ps s₀ { s with ctr := v } :=
  h.step hp (.of_eq (.refl _))
theorem Within.latch {v : Sparse Nat} (hp : [.latch] ⊆ ps := by decide) : Within ps s₀ { s with latch := v } :=
  h.step hp (.of_eq (.refl _))
theorem Within.glatch {v : Sparse Nat} (hp : [.glatch] ⊆ ps := by decide) : Within ps s₀ { s with glatch := v } :=
  h.step hp (.of_eq (.refl _))
theorem Within.course {v : List Flying} (hp : [.course] ⊆ ps := by decide) : Within ps s₀ { s with course := v } :=
  h.step hp (.of_eq (.refl _))
theorem Within.out {v : List Output} (hp : [.out] ⊆ ps := by decide) : Within ps s₀ { s with out := v } :=
  h.step hp (.of_eq (.refl _))
theorem Within.free {v : Nat} (hp : [.free] ⊆ ps := by decide) : Within ps s₀ { s with free := v } :=
  h.step hp (.of_eq (.refl _))
theorem Within.slog {v : StickyLog} (hp : [.slog] ⊆ ps := by decide) : Within ps s₀ { s with slog := v } :=
  h.step hp (.of_eq (.refl _))
theorem Within.host {v : HostIf} (hp : [.host] ⊆ ps := by decide) : Within ps s₀ { s with host := v } :=
  h.step hp (.of_eq (.refl _))
theorem Within.cfg {v : CfgCrc} (hp : [.cfg] ⊆ ps := by decide) : Within ps s₀ { s with cfg := v } :=
  h.step hp (.of_eq (.refl _))
theorem Within.tiles {v : Sparse Tile} (hp : [.tiles] ⊆ ps := by decide) : Within ps s₀ { s with tiles := v } :=
  h.step hp (.of_eq (.refl _))
theorem Within.tensors {v : Sparse Tensor} (hp : [.tensors] ⊆ ps := by decide) :
    Within ps s₀ { s with tensors := v } :=
  h.step hp (.of_eq (.refl _))
theorem Within.chans {v : Sparse Channel} (hp : [.chans] ⊆ ps := by decide) : Within ps s₀ { s with chans := v } :=
  h.step hp (.of_eq (.refl _))
theorem Within.stackTab {v : Sparse Stack} (hp : [.stackTab] ⊆ ps := by decide) :
    Within ps s₀ { s with stackTab := v } :=
  h.step hp (.of_eq (.refl _))
theorem Within.piers {v : Sparse Pier} (hp : [.piers] ⊆ ps := by decide) : Within ps s₀ { s with piers := v } :=
  h.step hp (.of_eq (.refl _))
theorem Within.rmap {v : Sparse Nat} (hp : [.rmap] ⊆ ps := by decide) : Within ps s₀ { s with rmap := v } :=
  h.step hp (.of_eq (.refl _))
theorem Within.bud {v : Budget} (hp : [.bud] ⊆ ps := by decide) : Within ps s₀ { s with bud := v } :=
  h.step hp (.of_eq (.refl _))
theorem Within.cbl {v : Corbel} (hp : [.cbl] ⊆ ps := by decide) : Within ps s₀ { s with cbl := v } :=
  h.step hp (.of_eq (.refl _))
theorem Within.stp {v : StepCtl} (hp : [.stp] ⊆ ps := by decide) : Within ps s₀ { s with stp := v } :=
  h.step hp (.of_eq (.refl _))
theorem Within.tm {v : TimeSt} (hp : [.tm] ⊆ ps := by decide) : Within ps s₀ { s with tm := v } :=
  h.step hp (.of_eq (.refl _))
theorem Within.fab {v : Fabric} (hp : [.fab] ⊆ ps := by decide) : Within ps s₀ { s with fab := v } :=
  h.step hp (.of_eq (.refl _))
theorem Within.npx {v : Npx} (hp : [.npx] ⊆ ps := by decide) : Within ps s₀ { s with npx := v } :=
  h.step hp (.of_eq (.refl _))
theorem Within.ck {v : Ckpt} (hp : [.ck] ⊆ ps := by decide) : Within ps s₀ { s with ck := v } :=
  h.step hp (.of_eq (.refl _))
theorem Within.sec {v : Sec} (hp : [.sec] ⊆ ps := by decide) : Within ps s₀ { s with sec := v } :=
  h.step hp (.of_eq (.refl _))
theorem Within.pwr {v : Pwr} (hp : [.pwr] ⊆ ps := by decide) : Within ps s₀ { s with pwr := v } :=
  h.step hp (.of_eq (.refl _))

end Parts

/-! ## Branches and repetition -/

section Control
variable {ps : List Part} {s₀ s t : State}

theorem Within.ite {c : Prop} [Decidable c] (hs : Within ps s₀ s) (ht : Within ps s₀ t) :
    Within ps s₀ (if c then s else t) := by
  split
  · exact hs
  · exact ht

theorem Within.iteSnd {α : Type} {c : Prop} [Decidable c] {a b : α × State} (ha : Within ps s₀ a.2)
    (hb : Within ps s₀ b.2) : Within ps s₀ (if c then a else b).2 := by
  split
  · exact ha
  · exact hb

theorem Within.pair {α : Type} {a : α} (h : Within ps s₀ s) : Within ps s₀ (a, s).2 := h

theorem Within.snd {α : Type} {q : α × State} {a : α} (e : q = (a, s)) (h : Within ps s₀ q.2) : Within ps s₀ s := by
  rw [e] at h
  exact h

theorem Within.iteFst {α : Type} {c : Prop} [Decidable c] {a b : State × α} (ha : Within ps s₀ a.1)
    (hb : Within ps s₀ b.1) : Within ps s₀ (if c then a else b).1 := by
  split
  · exact ha
  · exact hb

theorem Within.iteRes {c : Prop} [Decidable c] {a b : KRes} (ha : Within ps s₀ a.s) (hb : Within ps s₀ b.s) :
    Within ps s₀ (if c then a else b).s := by
  split
  · exact ha
  · exact hb

theorem Within.foldl {β : Type} {f : State → β → State} {l : List β} (hf : ∀ t x, Within ps t (f t x))
    (h : Within ps s₀ s) : Within ps s₀ (l.foldl f s) := by
  induction l generalizing s with
  | nil => exact h
  | cons x l ih => exact ih (h.trans (hf s x))

theorem Within.foldlSnd {α β : Type} {f : α × State → β → α × State} {l : List β} {a : α × State}
    (hf : ∀ t x, Within ps t.2 (f t x).2) (h : Within ps s₀ a.2) : Within ps s₀ (l.foldl f a).2 := by
  induction l generalizing a with
  | nil => exact h
  | cons x l ih => exact ih (h.trans (hf a x))

end Control

end Sys2Proof.Machine
end

