-- ==== Sys2Proof/Proofs/WithinReports.lean ====
section
/-!
SUPPORT. What the functions that read and write single parts, report and reply may change.
-/

-- Many short proofs: elaborated in turn, so that they do not wait in a thread each for the kernel's check.
set_option Elab.async false

namespace Sys2Proof.Machine

variable {ps : List Part} {s₀ s : State}

/-! ## The state's own operations and reports -/

theorem within_setReg {a v : Nat} (hs : Within ps s₀ s) (hp : [.regs] ⊆ ps := by decide) :
    Within ps s₀ (setReg s a v) := hs.regs hp

theorem within_bumpN {a n : Nat} (hs : Within ps s₀ s) (hp : [.ctr] ⊆ ps := by decide) : Within ps s₀ (bumpN s a n) :=
  hs.ctr hp

theorem within_bump {a : Nat} (hs : Within ps s₀ s) (hp : [.ctr] ⊆ ps := by decide) : Within ps s₀ (bump s a) :=
  within_bumpN hs hp

theorem within_free32 (hs : Within ps s₀ s) (hp : [.free] ⊆ ps := by decide) : Within ps s₀ (free32 s).2 := hs.free hp

theorem within_emit {o : Output} (hs : Within ps s₀ s) (hp : [.out] ⊆ ps := by decide) : Within ps s₀ (emit o s) :=
  hs.out hp

theorem within_slogPut {r : Nat} (hs : Within ps s₀ s) (hp : [.ctr, .slog] ⊆ ps := by decide) :
    Within ps s₀ (slogPut r s) := by
  refine hs.step hp ?_
  unfold slogPut
  exact .ite (.slog .rfl) (.ite (.slog .rfl) (within_bump (.slog .rfl)))

theorem within_slogAdd {blk inst off addr fid task detail : Nat} (hs : Within ps s₀ s)
    (hp : [.ctr, .slog] ⊆ ps := by decide) : Within ps s₀ (slogAdd blk inst off addr fid task detail s) :=
  within_slogPut hs hp

theorem within_slog {blk inst off addr task detail : Nat} (hs : Within ps s₀ s)
    (hp : [.ctr, .slog] ⊆ ps := by decide) : Within ps s₀ (slog blk inst off addr task detail s) :=
  within_slogAdd hs hp

theorem within_faultEvent {i inst task detail : Nat} (hs : Within ps s₀ s) (hp : [.ctr, .slog] ⊆ ps := by decide) :
    Within ps s₀ (faultEvent i inst task detail s) := by
  refine hs.step hp ?_
  unfold faultEvent
  exact within_slog (within_bump .rfl)

theorem within_pauseCopy {lost : Bool} (hs : Within ps s₀ s) (hp : [.ctr, .slog, .ck] ⊆ ps := by decide) :
    Within ps s₀ (pauseCopy lost s) := by
  refine hs.step hp ?_
  unfold pauseCopy
  split
  · exact .ite .rfl (within_faultEvent (.ck .rfl))
  · exact .rfl

theorem within_hostWrite {addr : Nat} {data : List Byte} (hs : Within ps s₀ s) (hp : [.out] ⊆ ps := by decide) :
    Within ps s₀ (hostWrite addr data s) := within_emit hs hp

theorem within_signal {v : Nat} (hs : Within ps s₀ s) (hp : [.out, .host] ⊆ ps := by decide) :
    Within ps s₀ (signal v s) := by
  refine hs.step hp ?_
  unfold signal
  exact .ite (.host .rfl) (within_emit .rfl)

theorem within_setQueue {q : Nat} {v : Queue} (hs : Within ps s₀ s) (hp : [.host] ⊆ ps := by decide) :
    Within ps s₀ (setQueue s q v) := hs.host hp

theorem within_eventWrite {code detail source : Nat} (hs : Within ps s₀ s) (hp : [.out, .host] ⊆ ps := by decide) :
    Within ps s₀ (eventWrite code detail source s) := by
  refine hs.step hp ?_
  unfold eventWrite
  exact within_signal (.host (within_hostWrite .rfl))

theorem within_postEvent {code detail source : Nat} (hs : Within ps s₀ s)
    (hp : [.ctr, .out, .host] ⊆ ps := by decide) : Within ps s₀ (postEvent code detail source s) := by
  refine hs.step hp ?_
  unfold postEvent
  exact .ite
    .rfl
    (.ite (.ite (.host .rfl) (within_bump .rfl)) (.ite (within_eventWrite .rfl) (.host (within_bump .rfl))))

theorem within_eventSpace (hs : Within ps s₀ s) (hp : [.out, .host] ⊆ ps := by decide) :
    Within ps s₀ (eventSpace s) := by
  refine hs.step hp ?_
  unfold eventSpace
  exact .ite (.host (within_eventWrite .rfl)) .rfl

theorem within_dropReply {r : ReplyTo} {status detail : Nat} (hs : Within ps s₀ s)
    (hp : [.ctr, .out, .host] ⊆ ps := by decide) : Within ps s₀ (dropReply r status detail s) := by
  refine hs.step hp ?_
  unfold dropReply
  exact within_postEvent (.host (.ite (within_bump .rfl) (within_bump (within_bump .rfl))))

theorem within_writeReply {r : ReplyTo} {status detail : Nat} (hs : Within ps s₀ s)
    (hp : [.ctr, .out, .host] ⊆ ps := by decide) : Within ps s₀ (writeReply r status detail s) := by
  refine hs.step hp ?_
  unfold writeReply
  exact .ite
    (within_dropReply (within_bump .rfl))
    (.ite (within_signal (within_setQueue (within_hostWrite .rfl))) (within_setQueue (within_hostWrite .rfl)))

theorem within_answered {r : ReplyTo} {deferred : Bool} (hs : Within ps s₀ s) (hp : [.host] ⊆ ps := by decide) :
    Within ps s₀ (answered r deferred s) := by
  refine hs.step hp ?_
  unfold answered
  exact .ite (within_setQueue .rfl) .rfl

theorem within_postReply {r : ReplyTo} {deferred : Bool} {status detail : Nat} (hs : Within ps s₀ s)
    (hp : [.ctr, .out, .host] ⊆ ps := by decide) : Within ps s₀ (postReply r deferred status detail s) := by
  refine hs.step hp ?_
  unfold postReply
  extract_lets s₁
  have hs₁ : Within [.ctr, .out, .host] s s₁ := within_answered (within_bump .rfl)
  exact .ite (within_emit hs₁) (.ite hs₁ (.ite (within_dropReply hs₁) (.ite (.host hs₁) (within_writeReply hs₁))))

theorem within_raiseAlert (hs : Within ps s₀ s) (hp : [.out, .pwr] ⊆ ps := by decide) :
    Within ps s₀ (raiseAlert s) := by
  refine hs.step hp ?_
  unfold raiseAlert
  exact .ite .rfl (within_emit (.pwr .rfl))

theorem within_updateFault (hs : Within ps s₀ s) (hp : [.out, .pwr] ⊆ ps := by decide) :
    Within ps s₀ (updateFault s) := by
  refine hs.step hp ?_
  unfold updateFault
  exact .ite .rfl (within_raiseAlert (within_emit (.pwr .rfl)))

theorem within_sendKnow {know : List Nat} {m : Msg} (hs : Within ps s₀ s) (hp : [.course] ⊆ ps := by decide) :
    Within ps s₀ (sendKnow know m s) := hs.course hp

theorem within_send {m : Msg} (hs : Within ps s₀ s) (hp : [.course] ⊆ ps := by decide) : Within ps s₀ (send m s) :=
  within_sendKnow hs hp

theorem within_sendToken {dest slot kind src : Nat} {gen : Bool} {value : Nat} (hs : Within ps s₀ s)
    (hp : [.course] ⊆ ps := by decide) : Within ps s₀ (sendToken dest slot kind src gen value s) := within_send hs hp

theorem within_arriveFrom {m : Msg} {a : Arrived} (ha : arriveFrom m s = some a) (hs : Within ps s₀ s)
    (hp : [.course] ⊆ ps := by decide) : Within ps s₀ a.s := by
  unfold arriveFrom at ha
  split at ha
  · cases ha; exact hs
  · split at ha
    · cases ha
    · cases ha; exact hs.course hp

theorem within_arrive {m : Msg} {t : State} (ht : arrive m s = some t) (hs : Within ps s₀ s)
    (hp : [.course] ⊆ ps := by decide) : Within ps s₀ t := by
  obtain ⟨a, ha, rfl⟩ := Option.map_eq_some_iff.mp ht
  exact within_arriveFrom ha hs hp

theorem within_setTile {t : Nat} {v : Tile} (hs : Within ps s₀ s) (hp : [.tiles] ⊆ ps := by decide) :
    Within ps s₀ (setTile s t v) := hs.tiles hp

theorem within_setTensor {tid : Nat} {v : Tensor} (hs : Within ps s₀ s) (hp : [.tensors] ⊆ ps := by decide) :
    Within ps s₀ (setTensor s tid v) := hs.tensors hp

theorem within_setStack {k : Nat} {v : Stack} (hs : Within ps s₀ s) (hp : [.stackTab] ⊆ ps := by decide) :
    Within ps s₀ (setStack s k v) := hs.stackTab hp

theorem within_setChan {g : Nat} {v : Channel} (hs : Within ps s₀ s) (hp : [.chans] ⊆ ps := by decide) :
    Within ps s₀ (setChan s g v) := hs.chans hp

theorem within_setPier {p : Nat} {v : Pier} (hs : Within ps s₀ s) (hp : [.piers] ⊆ ps := by decide) :
    Within ps s₀ (setPier s p v) := hs.piers hp

theorem within_tileControl {t slot v : Nat} (hs : Within ps s₀ s) (hp : [.course] ⊆ ps := by decide) :
    Within ps s₀ (tileControl t slot v s) := within_sendToken hs hp

theorem within_fenceTile {t cause task : Nat} (hs : Within ps s₀ s)
    (hp : [.ctr, .course, .slog, .tiles] ⊆ ps := by decide) : Within ps s₀ (fenceTile t cause task s) := by
  refine hs.step hp ?_
  unfold fenceTile
  exact .ite .rfl (within_tileControl (within_slog (within_setTile .rfl)))

theorem within_raiseNonfinite {src : Nat} (hs : Within ps s₀ s) (hp : [.course] ⊆ ps := by decide) :
    Within ps s₀ (raiseNonfinite src s) := within_sendToken hs hp

/-! ## Queues, replies and results -/

theorem within_kOk {detail : Nat} (hs : Within ps s₀ s) (hp : [] ⊆ ps := by decide) :
    Within ps s₀ (kOk detail s).s := by
  refine hs.step hp ?_
  unfold kOk
  exact .rfl

theorem within_kFail {status detail : Nat} (hs : Within ps s₀ s) (hp : [] ⊆ ps := by decide) :
    Within ps s₀ (kFail status detail s).s := by
  refine hs.step hp ?_
  unfold kFail
  exact .rfl

theorem within_kDefer (hs : Within ps s₀ s) (hp : [] ⊆ ps := by decide) : Within ps s₀ (kDefer s).s := by
  refine hs.step hp ?_
  unfold kDefer
  exact .rfl

theorem within_dmaRefuse (hs : Within ps s₀ s) (hp : [.ctr] ⊆ ps := by decide) : Within ps s₀ (dmaRefuse s).s := by
  refine hs.step hp ?_
  unfold dmaRefuse
  exact within_kFail (within_bump .rfl)

theorem within_withBuf {h : CmdHdr} {buf : Buf} {k : KRes} (hk : Within ps s₀ k.s) (hs : Within ps s₀ s)
    (hp : [.ctr] ⊆ ps := by decide) : Within ps s₀ (withBuf h buf s k).s := .iteRes hk (within_dmaRefuse hs hp)

theorem within_deliver {h : CmdHdr} {buf : Buf} {data : List Byte} {clear : State → State} {detail : Nat}
    (hc : ∀ t, Within ps t (clear t)) (hs : Within ps s₀ s) (hp : [.out] ⊆ ps := by decide) :
    Within ps s₀ (deliver h buf data clear detail s).s :=
  .iteRes ((within_emit hs hp).trans (hc _)) (.iteRes hs ((within_hostWrite hs hp).trans (hc _)))

theorem within_queueError {q : Nat} (hs : Within ps s₀ s) (hp : [.ctr, .out, .host] ⊆ ps := by decide) :
    Within ps s₀ (queueError q s) := by
  refine hs.step hp ?_
  unfold queueError
  exact within_postEvent (within_bump (within_setQueue .rfl))

theorem within_dropHeld (hs : Within ps s₀ s) (hp : [.ctr, .out, .host] ⊆ ps := by decide) :
    Within ps s₀ (dropHeld s) := by
  refine hs.step hp ?_
  unfold dropHeld
  exact .foldl (fun _ _ => within_dropReply .rfl) (.host .rfl)

theorem within_hostInterfaceReset {linkDown : Bool} (hs : Within ps s₀ s)
    (hp : [.regs, .ctr, .out, .host] ⊆ ps := by decide) : Within ps s₀ (hostInterfaceReset linkDown s) :=
  hs.step hp (.update (s := bump (dropHeld s) (cHif 0x128)) (within_bump (within_dropHeld .rfl)))

theorem within_kQueueCreate {_h : CmdHdr} {qid vector coalN coalUs log2Depth : Byte} {sq cq : W64}
    (hs : Within ps s₀ s) (hp : [.ctr, .host] ⊆ ps := by decide) :
    Within ps s₀ (kQueueCreate _h qid vector coalN coalUs log2Depth sq cq s).s := by
  refine hs.step hp ?_
  unfold kQueueCreate
  exact .iteRes
    (within_kFail .rfl)
    (.iteRes
      (within_dmaRefuse .rfl)
      (.iteRes
        (within_kFail .rfl)
        (.iteRes
          (within_kFail .rfl)
          (.iteRes
            (within_kFail .rfl)
            (.iteRes (within_kFail .rfl) (.iteRes (within_kFail .rfl) (within_kOk (within_setQueue (.host .rfl)))))))))

theorem within_kEventRingSet {_h : CmdHdr} {ring : W64} {log2Depth vector : Byte} (hs : Within ps s₀ s)
    (hp : [.ctr, .host] ⊆ ps := by decide) : Within ps s₀ (kEventRingSet _h ring log2Depth vector s).s := by
  refine hs.step hp ?_
  unfold kEventRingSet
  exact .iteRes
    (within_kFail .rfl)
    (.iteRes
      (within_dmaRefuse .rfl)
      (.iteRes (within_kFail .rfl) (.iteRes (within_kFail .rfl) (within_kOk (.host .rfl)))))

theorem within_kJobSeedSet {_h : CmdHdr} {seed : W64} (hs : Within ps s₀ s) (hp : [.host] ⊆ ps := by decide) :
    Within ps s₀ (kJobSeedSet _h seed s).s := by
  refine hs.step hp ?_
  unfold kJobSeedSet
  exact .iteRes (within_kFail .rfl) (within_kOk (.host .rfl))

end Sys2Proof.Machine
end

