-- ==== Sys2Proof/Proofs/WithinMemory.lean ====
section
/-!
SUPPORT. What the memory path may change: line code, pools, caches, and reads and writes at device addresses.
-/

-- Many short proofs: elaborated in turn, so that they do not wait in a thread each for the kernel's check.
set_option Elab.async false

namespace Sys2Proof.Machine

variable {ps : List Part} {s₀ s : State}

/-! ## Bytes and budgets -/

theorem within_storeBytes {a : Nat} {bs : List Byte} (hs : Within ps s₀ s) (hp : [.mem] ⊆ ps := by decide) :
    Within ps s₀ (storeBytes s a bs) := hs.mem hp

theorem within_setPoison {a : Nat} {p : Bool} (hs : Within ps s₀ s) (hp : [.poison] ⊆ ps := by decide) :
    Within ps s₀ (setPoison s a p) := hs.poison hp

theorem within_charge {c : Nat} {r : Resource} {n : Nat} (hs : Within ps s₀ s) (hp : [.ctr, .bud] ⊆ ps := by decide) :
    Within ps s₀ (charge c r n s) := by
  refine hs.step hp ?_
  unfold charge
  refine .ite .rfl ?_
  extract_lets key used lent
  dsimp -zeta only
  extract_lets own lend s₁ s₂
  have hs₁ : Within [.ctr, .bud] s s₁ := .bud .rfl
  have hs₂ : Within [.ctr, .bud] s s₂ := .ite hs₁ (within_bumpN hs₁)
  exact .ite (within_bump hs₂) hs₂

theorem within_countUnmapped {a : Nat} (hs : Within ps s₀ s) (hp : [.ctr, .slog] ⊆ ps := by decide) :
    Within ps s₀ (countUnmapped a s) := by
  refine hs.step hp ?_
  unfold countUnmapped
  exact within_slog (within_bump .rfl)

/-! ## Lines -/

theorem within_markEcc {a : Nat} (hs : Within ps s₀ s) (hp : [.cbl] ⊆ ps := by decide) : Within ps s₀ (markEcc a s) :=
  hs.cbl hp

theorem within_repairAdd {k row : Nat} (hs : Within ps s₀ s) (hp : [.ctr, .stackTab] ⊆ ps := by decide) :
    Within ps s₀ (repairAdd k row s) := by
  refine hs.step hp ?_
  unfold repairAdd
  exact .ite .rfl (.ite (within_setStack .rfl) (within_bump .rfl))

theorem within_requestRetrain {g ns : Nat} (hs : Within ps s₀ s) (hp : [.chans] ⊆ ps := by decide) :
    Within ps s₀ (requestRetrain g ns s) := within_setChan hs hp

theorem within_correctedLine {k c q a : Nat} (hs : Within ps s₀ s)
    (hp : [.ctr, .chans, .stackTab] ⊆ ps := by decide) : Within ps s₀ (correctedLine k c q a s) := by
  refine hs.step hp ?_
  unfold correctedLine
  extract_lets s₁ st row ls ls₁ s₂ s₃ g ch ms n s₄ lim
  have hs₁ : Within [.ctr, .chans, .stackTab] s s₁ := within_bump .rfl
  have hs₂ : Within [.ctr, .chans, .stackTab] s s₂ := within_setStack hs₁
  have hs₃ : Within [.ctr, .chans, .stackTab] s s₃ := .ite (within_repairAdd hs₂) hs₂
  have hs₄ : Within [.ctr, .chans, .stackTab] s s₄ := within_setChan hs₃
  exact .ite (within_requestRetrain hs₄) hs₄

theorem within_clearUpset {a : Nat} (hs : Within ps s₀ s) (hp : [.upset] ⊆ ps := by decide) :
    Within ps s₀ (clearUpset a s) := hs.upset hp

theorem within_addUpset {a bits : Nat} (hs : Within ps s₀ s) (hp : [.upset] ⊆ ps := by decide) :
    Within ps s₀ (addUpset a bits s) := hs.upset hp

theorem within_poisonLine {k a : Nat} (hs : Within ps s₀ s) (hp : [.mem, .poison, .upset, .ctr] ⊆ ps := by decide) :
    Within ps s₀ (poisonLine k a s) := by
  refine hs.step hp ?_
  unfold poisonLine
  exact within_storeBytes (within_bump (within_setPoison (within_clearUpset .rfl)))

theorem within_countRebuild {cls : Nat} {corbel : Bool} {k c : Nat} (hs : Within ps s₀ s)
    (hp : [.ctr, .bud] ⊆ ps := by decide) : Within ps s₀ (countRebuild cls corbel k c s) := by
  refine hs.step hp ?_
  unfold countRebuild
  exact .foldl (fun _ _ => within_charge .rfl) (within_bump .rfl)

theorem within_rebuildLine {cls : Nat} {corbel : Bool} {k c a : Nat} (hs : Within ps s₀ s)
    (hp : [.mem, .poison, .upset, .ctr, .bud] ⊆ ps := by decide) :
    Within ps s₀ (rebuildLine cls corbel k c a s).2 := by
  refine hs.step hp ?_
  unfold rebuildLine
  exact .iteSnd
    (within_countRebuild (.ite (within_bump .rfl) .rfl))
    (within_poisonLine (.ite (within_bump .rfl) .rfl))

theorem within_treatLine {cls : Nat} {corbel : Bool} {k c q a : Nat} {r : LineResult} (hs : Within ps s₀ s)
    (hp : lineParts ⊆ ps := by decide) : Within ps s₀ (treatLine cls corbel k c q a r s).2 := by
  refine hs.step hp ?_
  unfold treatLine
  split
  · exact .rfl
  · exact within_markEcc (within_storeBytes (within_clearUpset (within_charge (within_correctedLine .rfl))))
  · exact within_markEcc (within_bump .rfl)
  · exact .iteSnd
      (.ite
        (within_charge (within_clearUpset (within_rebuildLine (within_markEcc (within_repairAdd (within_bump .rfl))))))
        (within_rebuildLine (within_markEcc (within_repairAdd (within_bump .rfl)))))
      (within_poisonLine (within_markEcc (within_repairAdd (within_bump .rfl))))

theorem within_readLine {cls : Nat} {corbel : Bool} {k c q a : Nat} (hs : Within ps s₀ s)
    (hp : lineParts ⊆ ps := by decide) : Within ps s₀ (readLine cls corbel k c q a s).2 := by
  refine hs.step hp ?_
  unfold readLine
  exact within_treatLine (within_charge .rfl)

theorem within_readPoison {k a : Nat} (hs : Within ps s₀ s) (hp : [.ctr, .cbl] ⊆ ps := by decide) :
    Within ps s₀ (readPoison k a s).2 := by
  refine hs.step hp ?_
  unfold readPoison
  exact within_markEcc (within_bump .rfl)

theorem within_fetchLine {cls : Nat} {corbel : Bool} {a k c q : Nat} (hs : Within ps s₀ s)
    (hp : lineParts ⊆ ps := by decide) : Within ps s₀ (fetchLine cls corbel a k c q s).2 := by
  refine hs.step hp ?_
  unfold fetchLine
  exact .iteSnd
    (within_readPoison .rfl)
    (.iteSnd
      (.iteSnd
        (within_readPoison .rfl)
        (.iteSnd
          (.iteSnd (within_readPoison .rfl) (within_readLine .rfl))
          (.iteSnd (within_readPoison .rfl) (within_rebuildLine .rfl))))
      (.iteSnd (.iteSnd (within_countRebuild .rfl) (within_readLine (within_bump .rfl))) (within_readLine .rfl)))

/-! ## Pools, caches and device addresses -/

theorem within_countPlnEcc {p a ce ue : Nat} (hs : Within ps s₀ s) (hp : [.ctr, .slog] ⊆ ps := by decide) :
    Within ps s₀ (countPlnEcc p a ce ue s) := by
  refine hs.step hp ?_
  unfold countPlnEcc
  exact .ite (.ite .rfl (within_bumpN .rfl)) (within_slog (within_bumpN (.ite .rfl (within_bumpN .rfl))))

theorem within_gatherDrop {p r g : Nat} (hs : Within ps s₀ s) (hp : [.piers] ⊆ ps := by decide) :
    Within ps s₀ (gatherDrop p r g s) := by
  refine hs.step hp ?_
  unfold gatherDrop
  dsimp only
  split
  · exact within_setPier .rfl
  · exact .rfl

theorem within_readScratch {p r g a n : Nat} (hs : Within ps s₀ s)
    (hp : [.upset, .ctr, .slog, .piers] ⊆ ps := by decide) : Within ps s₀ (readScratch p r g a n s).2 := by
  refine hs.step hp ?_
  unfold readScratch
  exact .iteSnd
    .rfl
    (.iteSnd (within_countPlnEcc (.upset .rfl)) (within_gatherDrop (within_countPlnEcc (.upset .rfl))))

theorem within_readTileMem {t off a n : Nat} (hs : Within ps s₀ s)
    (hp : [.upset, .ctr, .course, .slog, .tiles] ⊆ ps := by decide) : Within ps s₀ (readTileMem t off a n s).2 := by
  refine hs.step hp ?_
  unfold readTileMem
  exact .iteSnd
    .rfl
    (.iteSnd
      (.ite (.upset .rfl) (within_bumpN (.upset .rfl)))
      (within_fenceTile (.ite (.upset .rfl) (within_bumpN (.upset .rfl)))))

theorem within_writeSram {a n : Nat} (hs : Within ps s₀ s) (hp : [.upset] ⊆ ps := by decide) :
    Within ps s₀ (writeSram a n s) := by
  refine hs.step hp ?_
  unfold writeSram
  exact .ite .rfl (.upset .rfl)

theorem within_poolSet {p g : Nat} {e : Option PoolEntry} (hs : Within ps s₀ s) (hp : [.piers] ⊆ ps := by decide) :
    Within ps s₀ (poolSet p g e s) := within_setPier hs hp

theorem within_poolCheck {p g : Nat} (hs : Within ps s₀ s)
    (hp : [.mem, .poison, .upset, .ctr, .slog, .piers] ⊆ ps := by decide) : Within ps s₀ (poolCheck p g s) := by
  refine hs.step hp ?_
  unfold poolCheck
  split
  · exact .rfl
  · refine .ite .rfl (within_poolSet (.foldl (fun _ _ => ?_) (within_countPlnEcc .rfl)))
    split
    · exact within_poisonLine .rfl
    · exact .rfl

theorem within_settleLine {cls : Nat} {corbel held : Bool} {a m k c q : Nat} (hs : Within ps s₀ s)
    (hp : lineParts ⊆ ps := by decide) : Within ps s₀ (settleLine cls corbel held a m k c q s) := by
  refine hs.step hp ?_
  unfold settleLine
  refine .ite (within_bump .rfl) ?_
  split
  next k' c' q' hplace =>
    extract_lets parity cleared new
    have hparity (t : State) : Within lineParts t (parity t) :=
      .ite (within_charge (.ite (within_charge .rfl) .rfl)) .rfl
    have hcleared : Within lineParts s cleared := .ite (within_bump (within_setPoison .rfl)) .rfl
    have hread : Within lineParts s
        (if held then readLine cls corbel k' c' q' a s else fetchLine cls corbel a k c q s).2 :=
      .iteSnd (within_readLine .rfl) (within_fetchLine .rfl)
    refine .ite (.trans (within_charge (within_clearUpset hcleared)) (hparity _)) (.ite (within_bump .rfl) ?_)
    exact .ite hread (.trans (within_charge (within_clearUpset (.ite hread (within_storeBytes hread)))) (hparity _))

theorem within_settleEntry {e : PoolEntry} (hs : Within ps s₀ s) (hp : lineParts ⊆ ps := by decide) :
    Within ps s₀ (settleEntry e s) := by
  refine hs.step hp ?_
  unfold settleEntry
  split
  · exact .rfl
  · exact .foldl (fun _ _ => .ite .rfl (within_settleLine .rfl)) .rfl

theorem within_releaseOne {p g : Nat} (hs : Within ps s₀ s) (hp : memoryParts ⊆ ps := by decide) :
    Within ps s₀ (releaseOne p g s) := by
  refine hs.step hp ?_
  unfold releaseOne
  dsimp only
  split
  · exact within_poolCheck .rfl
  · exact .ite
      (within_poolSet (within_poolCheck .rfl))
      (within_settleEntry (within_poolSet (within_poolCheck .rfl)))

theorem within_poolRelease {p g : Nat} (hs : Within ps s₀ s) (hp : memoryParts ⊆ ps := by decide) :
    Within ps s₀ (poolRelease p g s) := by
  refine hs.step hp ?_
  unfold poolRelease
  split
  · exact .rfl
  · split
    · exact within_releaseOne .rfl
    · exact .foldl
        (fun _ _ => within_releaseOne .rfl)
        (.foldl (fun _ _ => within_charge .rfl) (.ite (within_bump .rfl) (within_bump (within_bump .rfl))))

theorem within_poolFullStripe {p g : Nat} (hs : Within ps s₀ s) (hp : memoryParts ⊆ ps := by decide) :
    Within ps s₀ (poolFullStripe p g s) := by
  refine hs.step hp ?_
  unfold poolFullStripe
  split
  · exact .rfl
  · exact .ite (within_poolRelease .rfl) .rfl

theorem within_poolShed {p f : Nat} (hs : Within ps s₀ s) (hp : memoryParts ⊆ ps := by decide) :
    Within ps s₀ (poolShed p f s) := by
  refine hs.step hp ?_
  induction f generalizing s s₀ with
  | zero => exact .rfl
  | succ f ih =>
    refine .ite .rfl ?_
    split
    · exact .trans (within_poolRelease .rfl) (ih .rfl)
    · exact .rfl

theorem within_poolPut {cls a n k c q : Nat} (hs : Within ps s₀ s) (hp : memoryParts ⊆ ps := by decide) :
    Within ps s₀ (poolPut cls a n k c q s) := by
  refine hs.step hp ?_
  unfold poolPut
  dsimp only
  split
  · exact within_poolShed (within_poolFullStripe (within_poolSet (.ite
      (.ite (within_bump .rfl) (within_bump .rfl))
      .rfl)))
  · exact .ite
      (within_settleLine (within_bump .rfl))
      (within_poolShed (within_poolFullStripe (within_setPier (.ite (within_bump .rfl) .rfl))))

theorem within_poolDrain {p : Nat} {sel : PoolEntry → Bool} (hs : Within ps s₀ s)
    (hp : memoryParts ⊆ ps := by decide) : Within ps s₀ (poolDrain p sel s) := by
  refine hs.step hp ?_
  unfold poolDrain
  exact .foldl (fun _ _ => within_poolRelease .rfl) .rfl

theorem within_poolDrainStack {k : Nat} (hs : Within ps s₀ s) (hp : memoryParts ⊆ ps := by decide) :
    Within ps s₀ (poolDrainStack k s) := within_poolDrain hs hp

theorem within_cacheFill {p l : Nat} (hs : Within ps s₀ s) (hp : [.free, .piers] ⊆ ps := by decide) :
    Within ps s₀ (cacheFill p l s) := by
  refine hs.step hp ?_
  unfold cacheFill
  exact .ite (within_setPier .rfl) (within_setPier (within_free32 .rfl))

theorem within_cacheDrop {p l : Nat} (hs : Within ps s₀ s) (hp : [.piers] ⊆ ps := by decide) :
    Within ps s₀ (cacheDrop p l s) := within_setPier hs hp

theorem within_cacheClear {p : Nat} (hs : Within ps s₀ s) (hp : [.piers] ⊆ ps := by decide) :
    Within ps s₀ (cacheClear p s) := by
  refine hs.step hp ?_
  unfold cacheClear
  exact .ite .rfl (within_setPier .rfl)

theorem within_cacheWrite {p a n : Nat} (hs : Within ps s₀ s) (hp : [.piers] ⊆ ps := by decide) :
    Within ps s₀ (cacheWrite p a n s) := by
  refine hs.step hp ?_
  unfold cacheWrite
  dsimp only
  split
  · exact .rfl
  · exact .ite .rfl (within_setPier .rfl)

theorem within_cacheFetch {p cls a k c q : Nat} (hs : Within ps s₀ s)
    (hp : lineParts.append [.free, .piers] ⊆ ps := by decide) :
    Within ps s₀ (cacheFetch p cls a k c q s).2 := by
  refine hs.step hp ?_
  unfold cacheFetch
  exact .ite (within_cacheFill (within_fetchLine .rfl)) (within_fetchLine .rfl)

theorem within_cacheRead {p cls a n k c q : Nat} (hs : Within ps s₀ s)
    (hp : memoryParts.append [.free] ⊆ ps := by decide) :
    Within ps s₀ (cacheRead p cls a n k c q s).2 := by
  refine hs.step hp ?_
  unfold cacheRead
  refine .iteSnd (within_fetchLine .rfl) ?_
  split
  · exact within_cacheFetch (within_bump .rfl)
  · exact .iteSnd
      (.ite (within_countPlnEcc (within_bump .rfl)) (within_setPier (within_countPlnEcc (within_bump .rfl))))
      (within_cacheFetch (within_cacheDrop (within_countPlnEcc (within_bump .rfl))))

theorem within_readPiece {corbel : Bool} {cls a n : Nat} {unit : Bool} (hs : Within ps s₀ s)
    (hp : accessParts ⊆ ps := by decide) : Within ps s₀ (readPiece corbel cls a n unit s).2 := by
  refine hs.step hp ?_
  unfold readPiece
  split
  · split
    · exact .rfl
    · exact .iteSnd
        (within_fetchLine .rfl)
        (.iteSnd
          (.ite (within_charge (within_poolCheck .rfl)) (within_poolCheck .rfl))
          (.iteSnd
            (within_cacheRead (.ite (within_charge (within_poolCheck .rfl)) (within_poolCheck .rfl)))
            (within_fetchLine (.ite (within_charge (within_poolCheck .rfl)) (within_poolCheck .rfl)))))
  · exact within_readScratch (.ite (within_charge .rfl) .rfl)
  · exact within_readTileMem .rfl
  · exact .rfl

theorem within_readPieces {ag : Agent} {cls a n : Nat} (hs : Within ps s₀ s) (hp : accessParts ⊆ ps := by decide) :
    Within ps s₀ (readPieces ag cls a n s).2 := by
  refine hs.step hp ?_
  unfold readPieces
  exact .foldlSnd (fun _ _ => .iteSnd .rfl (within_readPiece .rfl)) .rfl

theorem within_readDev {ag : Agent} {cls a n : Nat} (hs : Within ps s₀ s) (hp : accessParts ⊆ ps := by decide) :
    Within ps s₀ (readDev ag cls a n s).2 := by
  refine hs.step hp ?_
  unfold readDev
  extract_lets bad
  have hread : Within accessParts s (readPieces ag cls a n s).2 := within_readPieces .rfl
  cases bad with
  | nil => exact hread
  | cons l ls => exact within_countUnmapped hread

theorem within_writePiece {corbel : Bool} {cls a : Nat} {bs : List Byte} {unit : Bool} (hs : Within ps s₀ s)
    (hp : memoryParts ⊆ ps := by decide) : Within ps s₀ (writePiece corbel cls a bs unit s) := by
  refine hs.step hp ?_
  unfold writePiece
  extract_lets s₁
  have hs₁ : Within memoryParts s s₁ := within_storeBytes .rfl
  split
  · split
    · exact hs₁
    · exact .ite
        (within_settleLine hs₁)
        (.ite
          (within_poolPut (.ite (within_cacheWrite (.ite (within_charge hs₁) hs₁)) (.ite (within_charge hs₁) hs₁)))
          (within_settleLine (.ite
            (within_cacheWrite (.ite (within_charge hs₁) hs₁))
            (.ite (within_charge hs₁) hs₁))))
  · exact within_writeSram (.ite (within_charge hs₁) hs₁)
  · exact within_writeSram hs₁
  · exact hs₁

theorem within_writeDev {ag : Agent} {cls a : Nat} {bs : List Byte} (hs : Within ps s₀ s)
    (hp : memoryParts ⊆ ps := by decide) : Within ps s₀ (writeDev ag cls a bs s).2 := by
  refine hs.step hp ?_
  unfold writeDev
  dsimp only
  split
  · exact .foldl (fun _ _ => within_writePiece .rfl) .rfl
  · exact within_countUnmapped (.foldl (fun _ _ => within_writePiece .rfl) .rfl)

theorem within_writeTo {ag : Agent} {cls a : Nat} {bs : List Byte} (hs : Within ps s₀ s)
    (hp : memoryParts ⊆ ps := by decide) : Within ps s₀ (writeTo ag cls a bs s) := within_writeDev hs hp

theorem within_fwWrite {k off : Nat} {bs : List Byte} (hs : Within ps s₀ s) (hp : memoryParts ⊆ ps := by decide) :
    Within ps s₀ (fwWrite k off bs s) := by
  refine hs.step hp ?_
  unfold fwWrite
  exact .ite (within_writeTo .rfl) (within_storeBytes .rfl)

theorem within_touch {ag : Agent} {cls a n : Nat} (hs : Within ps s₀ s) (hp : accessParts ⊆ ps := by decide) :
    Within ps s₀ (touch ag cls a n s).2 := within_readDev hs hp

end Sys2Proof.Machine
end

