-- ==== Sys2Proof/Proofs/WithinTiles.lean ====
section
/-!
SUPPORT. What the tiles, the piers and the Treim channels may change.
-/

-- Many short proofs: elaborated in turn, so that they do not wait in a thread each for the kernel's check.
set_option Elab.async false

namespace Sys2Proof.Machine

variable {ps : List Part} {s₀ s : State}

/-! ## Tiles -/

theorem within_applySlot {t slot : Nat} {set : Bool} {v : Nat} {know : List Nat} (hs : Within ps s₀ s)
    (hp : [.ctr, .tiles] ⊆ ps := by decide) : Within ps s₀ (applySlot t slot set v know s) := by
  refine hs.step hp ?_
  unfold applySlot
  exact .ite (within_bump (within_setTile .rfl)) (within_setTile .rfl)

theorem within_applyCredit {t pool n : Nat} {know : List Nat} (hs : Within ps s₀ s)
    (hp : [.ctr, .tiles] ⊆ ps := by decide) : Within ps s₀ (applyCredit t pool n know s) := by
  refine hs.step hp ?_
  unfold applyCredit
  exact .ite (within_bump (within_setTile .rfl)) (within_setTile .rfl)

theorem within_settleCursors {t : Nat} (hs : Within ps s₀ s) (hp : [.tiles] ⊆ ps := by decide) :
    Within ps s₀ (settleCursors t s) := by
  refine hs.step hp ?_
  unfold settleCursors
  exact .ite (within_setTile .rfl) (within_setTile .rfl)

theorem within_reportDone {t : Nat} (hs : Within ps s₀ s) (hp : [.course, .tiles] ⊆ ps := by decide) :
    Within ps s₀ (reportDone t s) := by
  refine hs.step hp ?_
  unfold reportDone
  exact .ite .rfl (.ite (within_tileControl (within_setTile .rfl)) .rfl)

theorem within_emitToken {t w hi : Nat} {know : List Nat} (hs : Within ps s₀ s) (hp : [.course] ⊆ ps := by decide) :
    Within ps s₀ (emitToken t w hi know s) := by
  refine hs.step hp ?_
  unfold emitToken
  exact .ite (within_sendKnow .rfl) .rfl

theorem within_returnCredits {t w : Nat} {know : List Nat} (hs : Within ps s₀ s) (hp : [.course] ⊆ ps := by decide) :
    Within ps s₀ (returnCredits t w know s) := by
  refine hs.step hp ?_
  unfold returnCredits
  exact .ite (within_sendKnow .rfl) .rfl

theorem within_finishTask {t i : Nat} {e : Option Engine} {fault : Bool} {addr : Nat} {know : List Nat}
    (hs : Within ps s₀ s) (hp : [.ctr, .course, .slog, .tiles] ⊆ ps := by decide) :
    Within ps s₀ (finishTask t i e fault addr know s) := by
  refine hs.step hp ?_
  unfold finishTask
  extract_lets w ti s₁ s₂ s₃ know₁
  have hs₁ : Within [.ctr, .course, .slog, .tiles] s s₁ := by
    cases e with
    | none => exact .rfl
    | some en => exact within_setTile .rfl
  have hs₂ : Within [.ctr, .course, .slog, .tiles] s s₂ := within_bump hs₁
  have hs₃ : Within [.ctr, .course, .slog, .tiles] s s₃ := .ite
    (within_tileControl (within_slog (within_bump hs₂)))
    hs₂
  exact within_reportDone (within_returnCredits (within_emitToken (within_emitToken hs₃)))

theorem within_startTask {t i : Nat} {main : Bool} (hs : Within ps s₀ s)
    (hp : [.ctr, .course, .slog, .tiles] ⊆ ps := by decide) : Within ps s₀ (startTask t i main s) := by
  refine hs.step hp ?_
  unfold startTask
  extract_lets w ti know ti₁ ti₂ ti₃ ti₄ ti₅ s₁
  have hs₁ : Within [.ctr, .course, .slog, .tiles] s s₁ := within_settleCursors (within_setTile .rfl)
  split
  · exact hs₁
  · exact within_finishTask hs₁

theorem within_sequencer {t : Nat} (hs : Within ps s₀ s) (hp : [.ctr, .course, .slog, .tiles] ⊆ ps := by decide) :
    Within ps s₀ (sequencer t s) := by
  refine hs.step hp ?_
  unfold sequencer
  extract_lets s₁ ti
  have hs₁ : Within [.ctr, .course, .slog, .tiles] s s₁ := within_settleCursors .rfl
  exact .ite
    hs₁
    (.ite
      (within_startTask hs₁)
      (.ite (within_startTask (within_bump hs₁)) (.ite (within_bump hs₁) (within_reportDone hs₁))))

theorem within_abortTile {t : Nat} (hs : Within ps s₀ s) (hp : [.course, .tiles] ⊆ ps := by decide) :
    Within ps s₀ (abortTile t s) := by
  refine hs.step hp ?_
  unfold abortTile
  exact .ite .rfl (within_reportDone (within_setTile .rfl))

theorem within_beginTile {t : Nat} {gen : Bool} (hs : Within ps s₀ s) (hp : [.tiles] ⊆ ps := by decide) :
    Within ps s₀ (beginTile t gen s) := by
  refine hs.step hp ?_
  unfold beginTile
  dsimp only
  split
  · exact .rfl
  · exact within_settleCursors (within_setTile .rfl)

theorem within_controlMessage {t : Nat} {w : W64} (hs : Within ps s₀ s)
    (hp : [.ctr, .course, .slog, .tiles] ⊆ ps := by decide) : Within ps s₀ (controlMessage t w s) := by
  refine hs.step hp ?_
  unfold controlMessage
  exact .ite
    (within_beginTile .rfl)
    (.ite (within_bump .rfl) (.ite (within_abortTile .rfl) (.ite (within_fenceTile .rfl) (within_bump .rfl))))

theorem within_tileMessage {t : Nat} {know : List Nat} {m : Msg} (hs : Within ps s₀ s)
    (hp : [.ctr, .course, .slog, .tiles] ⊆ ps := by decide) : Within ps s₀ (tileMessage t know m s) := by
  refine hs.step hp ?_
  unfold tileMessage
  refine .ite (within_bump .rfl) ?_
  split
  · exact .ite (within_bump .rfl) (within_applyCredit .rfl)
  · exact .ite (within_controlMessage .rfl) (.ite (within_bump .rfl) (within_applySlot .rfl))

theorem within_ejectWait {t near : Nat} (hs : Within ps s₀ s) (hp : [.ctr, .free] ⊆ ps := by decide) :
    Within ps s₀ (ejectWait t near s) := by
  refine hs.step hp ?_
  unfold ejectWait
  exact .ite .rfl (within_bumpN (within_free32 .rfl))

theorem within_tileArrival {m : Msg} (hs : Within ps s₀ s)
    (hp : [.ctr, .course, .free, .slog, .tiles] ⊆ ps := by decide) : Within ps s₀ (tileArrival m s) := by
  refine hs.step hp ?_
  unfold tileArrival
  split
  · exact .rfl
  next a ha =>
    have harr : Within [.ctr, .course, .free, .slog, .tiles] s a.s := within_arriveFrom ha .rfl
    exact .ite (within_tileMessage (within_ejectWait harr)) harr

theorem within_tileUpsets {t : Nat} {us : List Upset} (hs : Within ps s₀ s) (hp : [.upset] ⊆ ps := by decide) :
    Within ps s₀ (tileUpsets t us s) := by
  refine hs.step hp ?_
  unfold tileUpsets
  refine .foldl (fun _ _ => ?_) .rfl
  split
  · exact .ite (within_addUpset .rfl) .rfl
  · exact .rfl

theorem within_dropMessage {n : Option (BitVec 16)} (hs : Within ps s₀ s) (hp : [.course] ⊆ ps := by decide) :
    Within ps s₀ (dropMessage n s) := by
  refine hs.step hp ?_
  unfold dropMessage
  split
  · exact .rfl
  · exact .course .rfl

/-! ## Programs and fences -/

theorem within_unbindTile {tile : Nat} (hs : Within ps s₀ s) (hp : [.piers] ⊆ ps := by decide) :
    Within ps s₀ (unbindTile tile s) := hs.piers hp

theorem within_kTileFence {_h : CmdHdr} {mask : BitVec 96} (hs : Within ps s₀ s) (hp : [.course] ⊆ ps := by decide) :
    Within ps s₀ (kTileFence _h mask s).s := by
  refine hs.step hp ?_
  unfold kTileFence
  exact within_kOk (.foldl (fun _ _ => within_sendToken .rfl) .rfl)

theorem within_clearTile {t : Nat} (hs : Within ps s₀ s) (hp : [.mem, .upset, .tiles, .piers] ⊆ ps := by decide) :
    Within ps s₀ (clearTile t s) := by
  refine hs.step hp ?_
  unfold clearTile
  exact within_setTile (within_unbindTile (.update .rfl))

theorem within_unfenceTile {t : Nat} (hs : Within ps s₀ s)
    (hp : [.mem, .upset, .free, .tiles, .piers] ⊆ ps := by decide) : Within ps s₀ (unfenceTile t s).2 := by
  refine hs.step hp ?_
  unfold unfenceTile
  exact .iteSnd .rfl (.iteSnd (within_free32 .rfl) (within_clearTile (within_free32 .rfl)))

theorem within_kTileUnfence {_h : CmdHdr} {mask : BitVec 96} (hs : Within ps s₀ s)
    (hp : [.mem, .upset, .free, .tiles, .piers] ⊆ ps := by decide) : Within ps s₀ (kTileUnfence _h mask s).s := by
  refine hs.step hp ?_
  unfold kTileUnfence
  exact .iteRes (within_kFail .rfl) (within_kOk (.foldlSnd (fun _ _ => within_unfenceTile .rfl) .rfl))

theorem within_kTileQuery {h : CmdHdr} {mask : BitVec 96} {buf : Buf} (hs : Within ps s₀ s)
    (hp : [.ctr, .out] ⊆ ps := by decide) : Within ps s₀ (kTileQuery h mask buf s).s := by
  refine hs.step hp ?_
  unfold kTileQuery
  exact within_withBuf (within_deliver (fun _ => .rfl) .rfl) .rfl

/-! ## Pages of the piers -/

theorem within_zeroPages {p first n : Nat} (hs : Within ps s₀ s) (hp : [.mem, .upset] ⊆ ps := by decide) :
    Within ps s₀ (zeroPages p first n s) := by
  refine hs.step hp ?_
  unfold zeroPages
  exact .update .rfl

theorem within_takePages {p first n d : Nat} {shared : Bool} (hs : Within ps s₀ s)
    (hp : [.mem, .upset, .piers] ⊆ ps := by decide) : Within ps s₀ (takePages p first n d shared s) := by
  refine hs.step hp ?_
  unfold takePages
  exact within_setPier (within_zeroPages .rfl)

theorem within_freePages {p first n : Nat} (hs : Within ps s₀ s) (hp : [.piers] ⊆ ps := by decide) :
    Within ps s₀ (freePages p first n s) := within_setPier hs hp

theorem within_pickRun {runs : List Nat} (hs : Within ps s₀ s) (hp : [.free] ⊆ ps := by decide) :
    Within ps s₀ (pickRun runs s).2 := within_free32 hs hp

theorem within_kPlinthAlloc {_h : CmdHdr} {pier domain pages shared : Byte} (hs : Within ps s₀ s)
    (hp : [.mem, .upset, .ctr, .free, .piers] ⊆ ps := by decide) :
    Within ps s₀ (kPlinthAlloc _h pier domain pages shared s).s := by
  refine hs.step hp ?_
  unfold kPlinthAlloc
  dsimp only
  exact .iteRes
    (within_kFail .rfl)
    (.iteRes
      (within_kFail .rfl)
      (.iteRes
        (within_kFail .rfl)
        (.iteRes
          (within_kFail .rfl)
          (.iteRes
            (within_kFail (within_bump .rfl))
            (.iteRes (within_kFail .rfl) (within_kOk (within_takePages (within_pickRun .rfl))))))))

theorem within_kPlinthFree {_h : CmdHdr} {pier region first pages : Byte} (hs : Within ps s₀ s)
    (hp : [.piers] ⊆ ps := by decide) : Within ps s₀ (kPlinthFree _h pier region first pages s).s := by
  refine hs.step hp ?_
  unfold kPlinthFree
  exact .iteRes
    (within_kFail .rfl)
    (.iteRes
      (within_kFail .rfl)
      (.iteRes
        (within_kFail .rfl)
        (.iteRes
          (within_kFail .rfl)
          (.iteRes (within_kFail .rfl) (.iteRes (within_kFail .rfl) (within_kOk (within_freePages .rfl)))))))

theorem within_kPlinthQuota {_h : CmdHdr} {pierMask domain : Byte} {quota : W16} (hs : Within ps s₀ s)
    (hp : [.regs] ⊆ ps := by decide) : Within ps s₀ (kPlinthQuota _h pierMask domain quota s).s := by
  refine hs.step hp ?_
  unfold kPlinthQuota
  exact .iteRes
    (within_kFail .rfl)
    (.iteRes
      (within_kFail .rfl)
      (.iteRes (within_kFail .rfl) (within_kOk (.foldl (fun _ _ => within_setReg .rfl) .rfl))))

theorem within_applyModes {p : Nat} (hs : Within ps s₀ s) (hp : memoryParts ⊆ ps := by decide) :
    Within ps s₀ (applyModes p s) := by
  refine hs.step hp ?_
  unfold applyModes
  exact within_setPier (within_cacheClear (within_poolDrain .rfl))

theorem within_kPlinthApply {_h : CmdHdr} {pierMask : Byte} (hs : Within ps s₀ s)
    (hp : memoryParts ⊆ ps := by decide) : Within ps s₀ (kPlinthApply _h pierMask s).s := by
  refine hs.step hp ?_
  unfold kPlinthApply
  exact .iteRes
    (within_kFail .rfl)
    (.iteRes
      (within_kFail .rfl)
      (.iteRes (within_kFail .rfl) (within_kOk (.foldl (fun _ _ => within_applyModes .rfl) .rfl))))

theorem within_plinthUpset {p : Nat} {u : Upset} (hs : Within ps s₀ s) (hp : [.upset, .piers] ⊆ ps := by decide) :
    Within ps s₀ (plinthUpset p u s) := by
  refine hs.step hp ?_
  unfold plinthUpset
  refine .ite ?_ ?_
  · split
    · exact .rfl
    · exact within_poolSet .rfl
  · split
    · exact .ite (within_addUpset .rfl) .rfl
    · dsimp only
      split
      · exact .rfl
      · exact within_setPier .rfl
    · exact .rfl

/-! ## Channels -/

theorem within_installPlacement {p : Placing} (hs : Within ps s₀ s)
    (hp : memoryParts.append [.rmap] ⊆ ps := by decide) :
    Within ps s₀ (installPlacement p s) := by
  refine hs.step hp ?_
  unfold installPlacement
  exact .foldl
    (fun _ _ => within_fwWrite .rfl)
    (.foldl (fun _ _ => within_setStack .rfl) (.foldl (fun _ _ => within_cacheClear .rfl) (.rmap .rfl)))

theorem within_kTreimMapApplyResume {_h : CmdHdr} (hs : Within ps s₀ s)
    (hp : memoryParts.append [.rmap] ⊆ ps := by decide) :
    Within ps s₀ (kTreimMapApplyResume _h s).s := by
  refine hs.step hp ?_
  unfold kTreimMapApplyResume
  refine .iteRes (within_kFail .rfl) ?_
  split
  · exact within_kFail .rfl
  · exact .iteRes (within_kFail .rfl) (within_kOk (.cbl (within_installPlacement .rfl)))

theorem within_kTreimRetrain {h : CmdHdr} {channel : W16} (hs : Within ps s₀ s) (hp : [.chans] ⊆ ps := by decide) :
    Within ps s₀ (kTreimRetrain h channel s).s := by
  refine hs.step hp ?_
  unfold kTreimRetrain
  exact .iteRes (within_kFail .rfl) (.iteRes (within_kFail .rfl) (within_kOk (within_requestRetrain .rfl)))

theorem within_trainChannel {g : Nat} {lanes : List LaneEye} {tsv : List (BitVec 5)} (hs : Within ps s₀ s)
    (hp : [.ctr, .chans] ⊆ ps := by decide) : Within ps s₀ (trainChannel g lanes tsv s).2 := by
  refine hs.step hp ?_
  unfold trainChannel
  exact within_bumpN (within_setChan .rfl)

theorem within_loseChannel {g : Nat} (hs : Within ps s₀ s)
    (hp : lineParts.append [.out, .host, .piers] ⊆ ps := by decide) :
    Within ps s₀ (loseChannel g s) := by
  refine hs.step hp ?_
  unfold loseChannel
  exact .foldl
    (fun _ _ => within_settleEntry (within_poolSet .rfl))
    (within_postEvent (within_bumpN (within_setStack .rfl)))

theorem within_eyeFound {g lane w h : Nat} (hs : Within ps s₀ s) (hp : [.chans] ⊆ ps := by decide) :
    Within ps s₀ (eyeFound g lane w h s) := by
  refine hs.step hp ?_
  unfold eyeFound
  exact .ite (within_requestRetrain (within_setChan .rfl)) (within_setChan .rfl)

theorem within_treimUpset {k c : Nat} {u : Upset} (hs : Within ps s₀ s) (hp : [.upset] ⊆ ps := by decide) :
    Within ps s₀ (treimUpset k c u s) := by
  refine hs.step hp ?_
  unfold treimUpset
  exact .ite (within_addUpset .rfl) .rfl

end Sys2Proof.Machine
end

