-- ==== Sys2Proof/Proofs/WithinUpdate.lean ====
section
/-!
SUPPORT. What the corbel units and the update may change.
-/

-- Many short proofs: elaborated in turn, so that they do not wait in a thread each for the kernel's check.
set_option Elab.async false

namespace Sys2Proof.Machine

variable {ps : List Part} {s₀ s : State}

/-! ## Shards -/

theorem within_corbelStore {k a n v : Nat} (hs : Within ps s₀ s) (hp : memoryParts ⊆ ps := by decide) :
    Within ps s₀ (corbelStore k a n v s) := within_writeTo hs hp

theorem within_setShard {k i : Nat} {sh : Shard} (hs : Within ps s₀ s) (hp : [.cbl] ⊆ ps := by decide) :
    Within ps s₀ (setShard k i sh s) := hs.cbl hp

theorem within_modGroup {g : Nat} {f : GroupRec → GroupRec} (hs : Within ps s₀ s) (hp : [.cbl] ⊆ ps := by decide) :
    Within ps s₀ (modGroup g f s) := hs.cbl hp

theorem within_cblEvent {k ev shard group : Nat} (hs : Within ps s₀ s) (hp : [.regs] ⊆ ps := by decide) :
    Within ps s₀ (cblEvent k ev shard group s) := by
  refine hs.step hp ?_
  unfold cblEvent
  exact .ite .rfl (within_setReg .rfl)

theorem within_markInvalid {k i : Nat} (hs : Within ps s₀ s)
    (hp : [.regs, .ctr, .out, .host, .cbl] ⊆ ps := by decide) : Within ps s₀ (markInvalid k i s) := by
  refine hs.step hp ?_
  unfold markInvalid
  split
  · exact .rfl
  · exact within_cblEvent (within_postEvent (within_setShard (within_bump .rfl)))

theorem within_readAccs {k cls : Nat} {p : GradPart} (hs : Within ps s₀ s) (hp : accessParts ⊆ ps := by decide) :
    Within ps s₀ (readAccs k cls p s) := by
  refine hs.step hp ?_
  unfold readAccs
  split
  · exact .rfl
  · exact .ite .rfl (.ite (within_corbelStore (within_bump (within_touch .rfl))) (within_touch .rfl))

theorem within_reduceBlock {k i b : Nat} (hs : Within ps s₀ s) (hp : accessParts ⊆ ps := by decide) :
    Within ps s₀ (reduceBlock k i b s) := by
  refine hs.step hp ?_
  unfold reduceBlock
  split
  · exact .rfl
  · exact .ite .rfl (within_setShard (.cbl (.foldl (fun _ _ => within_readAccs .rfl) .rfl)))

/-! ## The update -/

theorem within_startSmall {h : Nat} {data : List Byte} (hs : Within ps s₀ s) (hp : [.out, .fab] ⊆ ps := by decide) :
    Within ps s₀ (startSmall h data s) := by
  refine hs.step hp ?_
  unfold startSmall
  exact within_emit (.fab .rfl)

theorem within_writeRecord {r : StepRec} (hs : Within ps s₀ s)
    (hp : memoryParts.append [.stp] ⊆ ps := by decide) :
    Within ps s₀ (writeRecord r s) := by
  refine hs.step hp ?_
  unfold writeRecord
  exact .foldl (fun _ _ => within_fwWrite .rfl) (.stp .rfl)

theorem within_watchRatio {g : Nat} {old new : List Nat} (hs : Within ps s₀ s) (hp : [.cbl] ⊆ ps := by decide) :
    Within ps s₀ (watchRatio g old new s) := hs.cbl hp

theorem within_readBlock {k d b : Nat} {moments : Bool} (hs : Within ps s₀ s) (hp : accessParts ⊆ ps := by decide) :
    Within ps s₀ (readBlock k d b moments s).2 := by
  refine hs.step hp ?_
  unfold readBlock
  extract_lets n look t row rows r₁ r₂ r₃ r₄ r₅ s₁
  have hlook {use : Bool} {a len : Nat} {r : Bool × State} (hr : Within accessParts s r.2) :
      Within accessParts s (look use a len r).2 := .iteSnd (within_touch hr) hr
  have hread : Within accessParts s r₅.2 := hlook (hlook (hlook (hlook (hlook .rfl))))
  exact .foldl (fun _ _ => within_readAccs .rfl) hread

theorem within_markUpdated {k i b : Nat} (hs : Within ps s₀ s) (hp : [.cbl] ⊆ ps := by decide) :
    Within ps s₀ (markUpdated k i b s) := by
  refine hs.step hp ?_
  unfold markUpdated
  split
  · exact within_setShard .rfl
  · exact .rfl

theorem within_leaveBlock {k i d b : Nat} (hs : Within ps s₀ s) (hp : [.cbl] ⊆ ps := by decide) :
    Within ps s₀ (leaveBlock k i d b s) := by
  refine hs.step hp ?_
  unfold leaveBlock
  exact within_markUpdated (within_watchRatio .rfl)

theorem within_sweepA {α : Type} {g : Nat} {f : State → Nat → Nat → α → α} {a : α} (hs : Within ps s₀ s)
    (hp : accessParts.append [.regs, .out, .host] ⊆ ps := by decide) :
    Within ps s₀ (sweepA g f a s).2 := by
  refine hs.step hp ?_
  unfold sweepA
  exact .foldlSnd
    (fun _ _ =>
      .foldlSnd
        (fun _ _ =>
          .iteSnd
            .rfl
            (.iteSnd (within_readBlock .rfl) (within_leaveBlock (within_markInvalid (within_readBlock .rfl)))))
        .rfl)
    .rfl

theorem within_startSums {g : Nat} (hs : Within ps s₀ s)
    (hp : accessParts.append [.regs, .out, .host, .fab] ⊆ ps := by decide) :
    Within ps s₀ (startSums g s) := by
  refine hs.step hp ?_
  unfold startSums
  exact .ite
    .rfl
    (.ite
      (within_startSmall (.cbl (within_sweepA .rfl)))
      (.ite (within_startSmall (.cbl (within_sweepA .rfl))) .rfl))

theorem within_setOuter {k i : Nat} {o : OuterShard} (hs : Within ps s₀ s) (hp : [.cbl] ⊆ ps := by decide) :
    Within ps s₀ (setOuter k i o s) := hs.cbl hp

theorem within_kCorbelGroupSet {h : CmdHdr} (hs : Within ps s₀ s) (hp : [.cbl] ⊆ ps := by decide) :
    Within ps s₀ (kCorbelGroupSet h s).s := by
  refine hs.step hp ?_
  unfold kCorbelGroupSet
  refine .iteRes (within_kFail .rfl) (.iteRes (within_kFail .rfl) (.iteRes (within_kFail .rfl) ?_))
  split
  · exact within_kFail .rfl
  · exact within_kOk (.foldl (fun _ _ => within_modGroup .rfl) .rfl)

theorem within_kCorbelUnfreeze {h : CmdHdr} (hs : Within ps s₀ s) (hp : [.cbl] ⊆ ps := by decide) :
    Within ps s₀ (kCorbelUnfreeze h s).s := by
  refine hs.step hp ?_
  unfold kCorbelUnfreeze
  dsimp only
  split
  · exact within_kFail .rfl
  · exact within_kOk (.foldl (fun _ _ => within_modGroup .rfl) .rfl)

end Sys2Proof.Machine
end

