-- ==== Sys2Proof/Proofs/WithinFabric.lean ====
section
/-!
SUPPORT. What the fabric, the collectives and the gather entries may change.
-/

-- Many short proofs: elaborated in turn, so that they do not wait in a thread each for the kernel's check.
set_option Elab.async false

namespace Sys2Proof.Machine

variable {ps : List Part} {s₀ s : State}

/-! ## Ports, flows and frames -/

theorem within_setPort {p : Nat} {v : Port} (hs : Within ps s₀ s) (hp : [.fab] ⊆ ps := by decide) :
    Within ps s₀ (setPort s p v) := hs.fab hp

theorem within_putOnWire {p prio cls : Nat} {frame : List Byte} (hs : Within ps s₀ s)
    (hp : [.ctr, .out, .bud, .fab] ⊆ ps := by decide) : Within ps s₀ (putOnWire p prio cls frame s) := by
  refine hs.step hp ?_
  unfold putOnWire
  exact within_emit (.ite (within_bump (within_setPort .rfl)) (within_charge (within_bump (within_setPort .rfl))))

theorem within_ceilReached {p n : Nat} (hs : Within ps s₀ s) (hp : [.ctr, .fab] ⊆ ps := by decide) :
    Within ps s₀ (ceilReached s p n) := by
  refine hs.step hp ?_
  unfold ceilReached
  exact .ite (within_bump (within_setPort .rfl)) .rfl

theorem within_transmit {p prio cls : Nat} {frame : List Byte} (hs : Within ps s₀ s)
    (hp : [.ctr, .out, .bud, .fab] ⊆ ps := by decide) : Within ps s₀ (transmit p prio cls frame s) := by
  refine hs.step hp ?_
  unfold transmit
  exact .ite (within_putOnWire .rfl) (within_setPort (within_ceilReached .rfl))

theorem within_pumpPort {p : Nat} (hs : Within ps s₀ s) (hp : [.ctr, .out, .bud, .fab] ⊆ ps := by decide) :
    Within ps s₀ (pumpPort p s) := by
  refine hs.step hp ?_
  unfold pumpPort
  exact .foldl (fun _ _ => within_transmit .rfl) (within_setPort .rfl)

theorem within_portPeriod {p : Nat} (hs : Within ps s₀ s) (hp : [.ctr, .out, .bud, .fab] ⊆ ps := by decide) :
    Within ps s₀ (portPeriod p s) := by
  refine hs.step hp ?_
  unfold portPeriod
  exact within_pumpPort (within_setPort .rfl)

theorem within_setTx {dst prio : Nat} {f : Option TxFlow} (hs : Within ps s₀ s) (hp : [.fab] ⊆ ps := by decide) :
    Within ps s₀ (setTx s dst prio f) := hs.fab hp

theorem within_setRx {src prio : Nat} {f : Option RxFlow} (hs : Within ps s₀ s) (hp : [.fab] ⊆ ps := by decide) :
    Within ps s₀ (setRx s src prio f) := hs.fab hp

theorem within_lossLog {off fid : Nat} (hs : Within ps s₀ s) (hp : [.ctr, .slog] ⊆ ps := by decide) :
    Within ps s₀ (lossLog off fid s) := within_slogAdd hs hp

theorem within_makeUnreachable {dst : Nat} (hs : Within ps s₀ s)
    (hp : [.ctr, .course, .slog, .fab, .ck] ⊆ ps := by decide) : Within ps s₀ (makeUnreachable dst s) := by
  refine hs.step hp ?_
  unfold makeUnreachable
  refine .ite .rfl ?_
  extract_lets lost writes s₁ f s₂ s₃
  have hs₁ : Within [.ctr, .course, .slog, .fab, .ck] s s₁ := within_bumpN .rfl
  have hs₂ : Within [.ctr, .course, .slog, .fab, .ck] s s₂ := .fab (s := s₁) hs₁
  have hs₃ : Within [.ctr, .course, .slog, .fab, .ck] s s₃ := .ite (within_lossLog (within_raiseNonfinite hs₂)) hs₂
  exact .ite (within_pauseCopy hs₃) hs₃

theorem within_sendLoose {kind dst seq : Nat} {last : Bool} {idx : Nat} {payload : List Byte} (hs : Within ps s₀ s)
    (hp : [.ctr, .out, .bud, .fab] ⊆ ps := by decide) : Within ps s₀ (sendLoose kind dst seq last idx payload s) := by
  refine hs.step hp ?_
  unfold sendLoose
  refine .ite (within_bump .rfl) ?_
  split
  · exact .rfl
  · exact within_transmit .rfl

theorem within_sendAck {dst prio seq : Nat} (hs : Within ps s₀ s) (hp : [.ctr, .out, .bud, .fab] ⊆ ps := by decide) :
    Within ps s₀ (sendAck dst prio seq s) := within_sendLoose hs hp

theorem within_sendFlow {h : Head} {cls : Nat} {payload : List Byte} (hs : Within ps s₀ s)
    (hp : frameParts ⊆ ps := by decide) :
    Within ps s₀ (sendFlow h cls payload s).2 := by
  refine hs.step hp ?_
  unfold sendFlow
  extract_lets f?
  cases f? with
  | none => exact .pair (within_bump (within_makeUnreachable .rfl))
  | some f => exact .pair (within_transmit (within_setTx .rfl))

theorem within_sendFrame {h : Head} {cls : Nat} {payload : List Byte} (hs : Within ps s₀ s)
    (hp : frameParts ⊆ ps := by decide) :
    Within ps s₀ (sendFrame h cls payload s).2 := by
  refine hs.step hp ?_
  unfold sendFrame
  exact .iteSnd (within_lossLog (within_bump .rfl)) (.iteSnd
    (.pair (.foldl (fun _ _ => .ite (within_transmit .rfl) .rfl) .rfl))
    (.iteSnd (within_bump .rfl) (within_sendFlow .rfl)))

theorem within_sendCtrl {dst handle code idx : Nat} {params : List Byte} (hs : Within ps s₀ s)
    (hp : frameParts ⊆ ps := by decide) :
    Within ps s₀ (sendCtrl dst handle code idx params s) := within_sendFrame hs hp

theorem within_resendFrom {dst prio seq : Nat} (hs : Within ps s₀ s)
    (hp : [.ctr, .out, .bud, .fab] ⊆ ps := by decide) : Within ps s₀ (resendFrom dst prio seq s) := by
  refine hs.step hp ?_
  unfold resendFrom
  split
  · exact .rfl
  · exact .foldl (fun _ _ => within_transmit (within_bump .rfl)) (within_setTx .rfl)

theorem within_repinFlow {dst prio : Nat} (hs : Within ps s₀ s)
    (hp : frameParts ⊆ ps := by decide) : Within ps s₀ (repinFlow dst prio s) := by
  refine hs.step hp ?_
  unfold repinFlow
  split
  · exact .rfl
  · split
    · exact within_makeUnreachable .rfl
    · split
      · exact within_setTx .rfl
      · exact within_resendFrom (within_setTx .rfl)

theorem within_movePortFlows {p : Nat} (hs : Within ps s₀ s)
    (hp : frameParts ⊆ ps := by decide) : Within ps s₀ (movePortFlows p s) := by
  refine hs.step hp ?_
  unfold movePortFlows
  refine .foldl (fun _ _ => ?_) .rfl
  split
  · exact .ite (within_repinFlow .rfl) .rfl
  · exact .rfl

theorem within_forgivePort {p : Nat} (hs : Within ps s₀ s) (hp : [.fab] ⊆ ps := by decide) :
    Within ps s₀ (forgivePort p s) := hs.fab hp

theorem within_portDown {p st : Nat} (hs : Within ps s₀ s)
    (hp : frameParts ⊆ ps := by decide) : Within ps s₀ (portDown p st s) := by
  refine hs.step hp ?_
  unfold portDown
  exact .ite (within_movePortFlows (within_bump (within_setPort .rfl))) (within_setPort .rfl)

/-! ## Collectives and stage queues -/

theorem within_setHandle {n : Nat} {h : Option Handle} (hs : Within ps s₀ s) (hp : [.fab] ⊆ ps := by decide) :
    Within ps s₀ (setHandle n h s) := hs.fab hp

theorem within_setRun {n : Nat} {r : Option Run} (hs : Within ps s₀ s) (hp : [.fab] ⊆ ps := by decide) :
    Within ps s₀ (setRun n r s) := by
  refine hs.step hp ?_
  unfold setRun
  split
  · exact within_setHandle .rfl
  · exact .rfl

theorem within_colEvent {ev handle fid : Nat} (hs : Within ps s₀ s) (hp : [.regs] ⊆ ps := by decide) :
    Within ps s₀ (colEvent ev handle fid s) := by
  refine hs.step hp ?_
  unfold colEvent
  exact .ite .rfl (within_setReg (within_setReg .rfl))

theorem within_setStageQueue {h : Nat} {q : StageQueue} (hs : Within ps s₀ s) (hp : [.stp] ⊆ ps := by decide) :
    Within ps s₀ (setStageQueue h q s) := hs.stp hp

theorem within_excludeMember {hn i ev : Nat} (hs : Within ps s₀ s) (hp : [.regs, .ctr, .fab] ⊆ ps := by decide) :
    Within ps s₀ (excludeMember hn i ev s) := by
  refine hs.step hp ?_
  unfold excludeMember
  split
  · split
    · exact .ite .rfl (within_colEvent (within_bump (within_setRun .rfl)))
    · exact .rfl
  · exact .rfl

theorem within_excludeUnreachable {fid : Nat} (hs : Within ps s₀ s) (hp : [.regs, .ctr, .fab] ⊆ ps := by decide) :
    Within ps s₀ (excludeUnreachable fid s) := by
  refine hs.step hp ?_
  unfold excludeUnreachable
  refine .foldl (fun _ _ => ?_) .rfl
  split
  · exact within_excludeMember .rfl
  · exact .rfl

theorem within_excludeAllUnreachable (hs : Within ps s₀ s) (hp : [.regs, .ctr, .fab] ⊆ ps := by decide) :
    Within ps s₀ (excludeAllUnreachable s) := by
  refine hs.step hp ?_
  unfold excludeAllUnreachable
  exact .foldl (fun _ _ => within_excludeUnreachable .rfl) .rfl

theorem within_sendResults {hn : Nat} {h : Handle} {dst : Nat} (hs : Within ps s₀ s)
    (hp : accessParts.append [.out, .fab, .ck] ⊆ ps := by decide) :
    Within ps s₀ (sendResults hn h dst s) := by
  refine hs.step hp ?_
  unfold sendResults
  refine .ite
    (.foldl (fun _ _ => within_sendFrame (.foldl (fun _ _ => ?_) .rfl)) .rfl)
    (.foldlSnd (fun _ _ => within_sendFrame .rfl) (within_readDev .rfl))
  split
  · split
    · exact .foldl (fun _ _ => within_sendFrame .rfl) (within_readAccs .rfl)
    · exact .rfl
  · exact .rfl

theorem within_kCollSetup {h : CmdHdr} (hs : Within ps s₀ s) (hp : [.fab] ⊆ ps := by decide) :
    Within ps s₀ (kCollSetup h s).s := by
  refine hs.step hp ?_
  unfold kCollSetup
  refine .iteRes (within_kFail .rfl) (.iteRes (within_kFail .rfl) (.iteRes (within_kFail .rfl) ?_))
  split
  · exact within_kFail .rfl
  · exact .iteRes (within_kFail .rfl) (within_kOk (within_setHandle .rfl))

theorem within_kCollFree {_h : CmdHdr} {handle : W16} (hs : Within ps s₀ s) (hp : [.fab] ⊆ ps := by decide) :
    Within ps s₀ (kCollFree _h handle s).s := by
  refine hs.step hp ?_
  unfold kCollFree
  split
  · exact within_kFail .rfl
  · exact .iteRes (within_kFail .rfl) (within_kOk (within_setHandle .rfl))

theorem within_kCollRun {h : CmdHdr} {handle : W16} (hs : Within ps s₀ s) (hp : [.fab] ⊆ ps := by decide) :
    Within ps s₀ (kCollRun h handle s).s := by
  refine hs.step hp ?_
  unfold kCollRun
  split
  · exact within_kFail .rfl
  · exact .iteRes (within_kFail .rfl) (.iteRes (within_kFail .rfl) (within_kDefer (within_setHandle .rfl)))

theorem within_kCollQuery {h : CmdHdr} {handle : W16} {buf : Buf} (hs : Within ps s₀ s)
    (hp : [.ctr, .out] ⊆ ps := by decide) : Within ps s₀ (kCollQuery h handle buf s).s := by
  refine hs.step hp ?_
  unfold kCollQuery
  refine within_withBuf ?_ .rfl
  split
  · exact within_kFail .rfl
  · exact within_deliver (fun _ => .rfl) .rfl

theorem within_kQueueLoad {h : CmdHdr} (hs : Within ps s₀ s) (hp : [.stp] ⊆ ps := by decide) :
    Within ps s₀ (kQueueLoad h s).s := by
  refine hs.step hp ?_
  unfold kQueueLoad
  refine .iteRes (within_kFail .rfl) ?_
  split
  · exact within_kFail .rfl
  · exact .iteRes (within_kFail .rfl) (within_kOk (.stp .rfl))

theorem within_kQueueStats {h : CmdHdr} {first n : W16} {buf : Buf} (hs : Within ps s₀ s)
    (hp : [.ctr, .out, .stp] ⊆ ps := by decide) : Within ps s₀ (kQueueStats h first n buf s).s := by
  refine hs.step hp ?_
  unfold kQueueStats
  refine within_withBuf (within_deliver (fun _ => .foldl (fun _ _ => ?_) .rfl) .rfl) .rfl
  split
  · exact within_setStageQueue .rfl
  · exact .rfl

theorem within_kExpertTableLoad {h : CmdHdr} (hs : Within ps s₀ s) (hp : [.stp] ⊆ ps := by decide) :
    Within ps s₀ (kExpertTableLoad h s).s := by
  refine hs.step hp ?_
  unfold kExpertTableLoad
  refine .iteRes (within_kFail .rfl) (.iteRes (within_kFail .rfl) ?_)
  split
  · exact within_kFail .rfl
  · exact within_kOk (.stp .rfl)

theorem within_kJobGroups {h : CmdHdr} (hs : Within ps s₀ s) (hp : [.stp] ⊆ ps := by decide) :
    Within ps s₀ (kJobGroups h s).s := by
  refine hs.step hp ?_
  unfold kJobGroups
  refine .iteRes
    (within_kFail .rfl)
    (.iteRes (within_kFail .rfl) (.iteRes (within_kFail .rfl) (.iteRes (within_kFail .rfl) ?_)))
  split
  · exact within_kFail .rfl
  · exact within_kOk (.stp .rfl)

/-! ## Gather entries -/

theorem within_setGather {p slot : Nat} {g : Gather} (hs : Within ps s₀ s) (hp : [.piers] ⊆ ps := by decide) :
    Within ps s₀ (setGather p slot g s) := within_setPier hs hp

theorem within_gatherEvict {p n f : Nat} (hs : Within ps s₀ s) (hp : [.ctr, .piers] ⊆ ps := by decide) :
    Within ps s₀ (gatherEvict p n f s) := by
  refine hs.step hp ?_
  induction f generalizing s s₀ with
  | zero => exact .rfl
  | succ f ih =>
    refine .ite .rfl ?_
    split
    · exact .rfl
    · exact .trans (within_bump (within_setGather (within_freePages .rfl))) (ih .rfl)

theorem within_gatherRun {hn : Nat} (hs : Within ps s₀ s) (hp : [.out, .fab] ⊆ ps := by decide) :
    Within ps s₀ (gatherRun hn s) := by
  refine hs.step hp ?_
  unfold gatherRun
  dsimp only
  split
  · exact within_emit .rfl
  · exact .ite (within_emit .rfl) (within_setHandle (within_emit .rfl))

theorem within_gatherStart {p slot : Nat} (hs : Within ps s₀ s)
    (hp : [.mem, .upset, .ctr, .out, .free, .piers, .fab] ⊆ ps := by decide) :
    Within ps s₀ (gatherStart p slot s) := by
  refine hs.step hp ?_
  unfold gatherStart
  split
  · exact .rfl
  next g =>
    extract_lets n s₁
    have hevict : Within [.mem, .upset, .ctr, .out, .free, .piers, .fab] s s₁ := within_gatherEvict .rfl
    clear_value s₁
    refine .ite ?_ (.ite hevict (within_bump (within_setGather hevict)))
    split
    next first t hrun =>
      have htaken : Within [.mem, .upset, .ctr, .out, .free, .piers, .fab] s t := .snd hrun (within_pickRun hevict)
      exact within_gatherRun (.ite (within_bump (within_setGather (within_takePages htaken)))
        (within_setGather (within_takePages htaken)))

theorem within_gatherReply {p : Nat} {g : Gather} (hs : Within ps s₀ s) (hp : [.course] ⊆ ps := by decide) :
    Within ps s₀ (gatherReply p g s) := within_sendToken hs hp

theorem within_gatherRetry {p : Nat} (hs : Within ps s₀ s)
    (hp : [.mem, .upset, .ctr, .out, .free, .piers, .fab] ⊆ ps := by decide) : Within ps s₀ (gatherRetry p s) := by
  refine hs.step hp ?_
  unfold gatherRetry
  refine .foldl (fun _ _ => ?_) .rfl
  split
  · exact .ite (within_gatherStart .rfl) .rfl
  · exact .rfl

/-! ## Ports out of service -/

theorem within_stayDown {p : Nat} (hs : Within ps s₀ s) (hp : [.fab] ⊆ ps := by decide) :
    Within ps s₀ (stayDown p s) := within_setPort hs hp

theorem within_kFabricQuery {h : CmdHdr} {buf : Buf} (hs : Within ps s₀ s) (hp : [.ctr, .out] ⊆ ps := by decide) :
    Within ps s₀ (kFabricQuery h buf s).s := by
  refine hs.step hp ?_
  unfold kFabricQuery
  exact within_withBuf (within_deliver (fun _ => .rfl) .rfl) .rfl

end Sys2Proof.Machine
end

