-- ==== Sys2Proof/Proofs/WithinStep.lean ====
section
/-!
SUPPORT. What checkpoints, step control and line time may change.
-/

-- Many short proofs: elaborated in turn, so that they do not wait in a thread each for the kernel's check.
set_option Elab.async false

namespace Sys2Proof.Machine

variable {ps : List Part} {s₀ s : State}

/-! ## Checkpoints and repair -/

theorem within_npxEvent {ev site : Nat} (hs : Within ps s₀ s) (hp : [.regs] ⊆ ps := by decide) :
    Within ps s₀ (npxEvent ev site s) := by
  refine hs.step hp ?_
  unfold npxEvent
  exact .ite .rfl (within_setReg .rfl)

theorem within_sendSector {j k : Nat} {data : List Byte} (hs : Within ps s₀ s)
    (hp : frameParts ⊆ ps := by decide) : Within ps s₀ (sendSector j k data s) :=
  within_sendFrame hs hp

theorem within_kCkptConfig {h : CmdHdr} (hs : Within ps s₀ s) (hp : [.ck] ⊆ ps := by decide) :
    Within ps s₀ (kCkptConfig h s).s := by
  refine hs.step hp ?_
  unfold kCkptConfig
  refine .iteRes (within_kFail .rfl) (.iteRes (within_kFail .rfl) (.iteRes (within_kFail .rfl) ?_))
  split
  · exact within_kFail .rfl
  · exact .iteRes
      (within_kFail .rfl)
      (.iteRes (within_kFail .rfl) (.iteRes (within_kFail .rfl) (within_kOk (.ck .rfl))))

theorem within_kCkptQuery {h : CmdHdr} {buf : Buf} (hs : Within ps s₀ s) (hp : [.ctr, .out] ⊆ ps := by decide) :
    Within ps s₀ (kCkptQuery h buf s).s := by
  refine hs.step hp ?_
  unfold kCkptQuery
  exact within_withBuf (within_deliver (fun _ => .rfl) .rfl) .rfl

theorem within_kReplicaRepairNameSource {h : CmdHdr} (hs : Within ps s₀ s) (hp : [.ck] ⊆ ps := by decide) :
    Within ps s₀ (kReplicaRepairNameSource h s).s := by
  refine hs.step hp ?_
  unfold kReplicaRepairNameSource
  refine .iteRes (within_kFail .rfl) (.iteRes (within_kFail .rfl) ?_)
  split
  · exact within_kFail .rfl
  · exact within_kOk (.ck .rfl)

/-! ## Step control -/

theorem within_setStp {f : StepCtl → StepCtl} (hs : Within ps s₀ s) (hp : [.stp] ⊆ ps := by decide) :
    Within ps s₀ (setStp f s) := hs.stp hp

theorem within_postStepEnd {outcome : Nat} (hs : Within ps s₀ s) (hp : [.ctr, .out, .host, .stp] ⊆ ps := by decide) :
    Within ps s₀ (postStepEnd outcome s) := by
  refine hs.step hp ?_
  unfold postStepEnd
  refine within_setStp ?_
  split
  · refine within_postReply ?_
    split
    · exact within_postReply .rfl
    · exact .rfl
  · split
    · exact within_postReply .rfl
    · exact .rfl

theorem within_discardSeeds (hs : Within ps s₀ s) (hp : [.tiles, .tensors, .cbl] ⊆ ps := by decide) :
    Within ps s₀ (discardSeeds s) := by
  refine hs.step hp ?_
  unfold discardSeeds
  exact .update .rfl

theorem within_sendAborts (hs : Within ps s₀ s) (hp : [.course] ⊆ ps := by decide) : Within ps s₀ (sendAborts s) := by
  refine hs.step hp ?_
  unfold sendAborts
  exact .foldl (fun _ _ => within_sendToken .rfl) .rfl

theorem within_endStep {outcome : Nat} (hs : Within ps s₀ s)
    (hp : memoryParts.append [.course, .out, .host, .tiles, .tensors, .stp] ⊆ ps := by decide) :
    Within ps s₀ (endStep outcome s) := by
  refine hs.step hp ?_
  unfold endStep
  exact within_postStepEnd
    (within_bump (within_setStp (within_writeRecord (within_discardSeeds (within_sendAborts .rfl)))))

theorem within_kStepQuery {h : CmdHdr} {buf : Buf} (hs : Within ps s₀ s) (hp : [.ctr, .out] ⊆ ps := by decide) :
    Within ps s₀ (kStepQuery h buf s).s := by
  refine hs.step hp ?_
  unfold kStepQuery
  exact within_withBuf (within_deliver (fun _ => .rfl) .rfl) .rfl

theorem within_kTensorScale {_h : CmdHdr} {tid : W16} {margin hostScale : W32} {depth flags : Byte}
    (hs : Within ps s₀ s) (hp : [.tensors] ⊆ ps := by decide) :
    Within ps s₀ (kTensorScale _h tid margin hostScale depth flags s).s := by
  refine hs.step hp ?_
  unfold kTensorScale
  exact .iteRes
    (within_kFail .rfl)
    (.iteRes (within_kFail .rfl) (.iteRes (within_kFail .rfl) (within_kOk (within_setTensor .rfl))))

theorem within_kTensorRead {h : CmdHdr} {first n : W16} {buf : Buf} (hs : Within ps s₀ s)
    (hp : [.ctr, .out, .tensors] ⊆ ps := by decide) : Within ps s₀ (kTensorRead h first n buf s).s := by
  refine hs.step hp ?_
  unfold kTensorRead
  exact within_withBuf (within_deliver (fun _ => .foldl (fun _ _ => within_setTensor .rfl) .rfl) .rfl) .rfl

theorem within_tryCheck (hs : Within ps s₀ s) (hp : [.out, .stp, .fab] ⊆ ps := by decide) :
    Within ps s₀ (tryCheck s) := by
  refine hs.step hp ?_
  unfold tryCheck
  split
  · exact .ite (within_startSmall (within_setStp .rfl)) .rfl
  · exact .rfl

theorem within_reduceAll (hs : Within ps s₀ s) (hp : accessParts ⊆ ps := by decide) : Within ps s₀ (reduceAll s) := by
  refine hs.step hp ?_
  unfold reduceAll
  exact .foldl (fun _ _ => .foldl (fun _ _ => within_reduceBlock .rfl) .rfl) .rfl

theorem within_collectRows (hs : Within ps s₀ s) (hp : accessParts ⊆ ps := by decide) :
    Within ps s₀ (collectRows s).2 := by
  refine hs.step hp ?_
  unfold collectRows
  exact .foldlSnd (fun _ _ => within_readDev .rfl) .rfl

theorem within_fixItems (hs : Within ps s₀ s)
    (hp : accessParts.append [.stp] ⊆ ps := by decide) :
    Within ps s₀ (fixItems s) := by
  refine hs.step hp ?_
  unfold fixItems
  exact within_setStp (within_collectRows .rfl)

theorem within_excludeAbsent (hs : Within ps s₀ s) (hp : [.regs, .ctr] ⊆ ps := by decide) :
    Within ps s₀ (excludeAbsent s) := by
  refine hs.step hp ?_
  unfold excludeAbsent
  exact .foldl (fun _ _ => .ite .rfl (within_colEvent (within_bump .rfl))) .rfl

theorem within_joinCommit (hs : Within ps s₀ s)
    (hp : accessParts.append [.regs, .out, .host, .tensors, .stp, .fab] ⊆ ps := by decide) :
    Within ps s₀ (joinCommit s) := by
  refine hs.step hp ?_
  unfold joinCommit
  exact .ite
    (within_endStep .rfl)
    (within_startSmall (.ite
      (within_excludeAbsent (within_fixItems (within_setStp .rfl)))
      (within_fixItems (within_setStp .rfl))))

theorem within_tryCommit (hs : Within ps s₀ s)
    (hp : accessParts.append [.regs, .out, .host, .tensors, .stp, .fab] ⊆ ps := by decide) :
    Within ps s₀ (tryCommit s) := by
  refine hs.step hp ?_
  unfold tryCommit
  exact .ite (within_joinCommit .rfl) .rfl

theorem within_kStepResume {h : CmdHdr} {step : W64} (hs : Within ps s₀ s)
    (hp : accessParts.append [.regs, .out, .host, .tensors, .stp, .fab] ⊆ ps := by decide) :
    Within ps s₀ (kStepResume h step s).s := by
  refine hs.step hp ?_
  unfold kStepResume
  exact .iteRes
    (within_kFail .rfl)
    (.iteRes
      (within_kFail .rfl)
      (.iteRes
        (within_kFail .rfl)
        (.iteRes
          (within_kFail .rfl)
          (.iteRes
            (within_kFail .rfl)
            (within_kDefer (within_joinCommit (within_writeRecord (within_setStp .rfl))))))))

/-! ## Line time and budgets -/

theorem within_touchCfg (hs : Within ps s₀ s) (hp : [.cfg] ⊆ ps := by decide) : Within ps s₀ (touchCfg s) := hs.cfg hp

theorem within_setPath {p : Nat} {v : TimePath} (hs : Within ps s₀ s) (hp : [.tm] ⊆ ps := by decide) :
    Within ps s₀ (setPath p v s) := hs.tm hp

theorem within_enterHoldover (hs : Within ps s₀ s) (hp : [.ctr, .out, .host, .tm] ⊆ ps := by decide) :
    Within ps s₀ (enterHoldover s) := by
  refine hs.step hp ?_
  unfold enterHoldover
  exact .ite (within_postEvent (within_bump (.tm .rfl))) .rfl

theorem within_correct {off : ℤ} (hs : Within ps s₀ s) (hp : [.tm] ⊆ ps := by decide) :
    Within ps s₀ (correct off s) := by
  refine hs.step hp ?_
  unfold correct
  exact .ite (.tm .rfl) (.ite .rfl (.tm .rfl))

theorem within_timeTree (hs : Within ps s₀ s) (hp : [.ctr, .out, .host, .tm] ⊆ ps := by decide) :
    Within ps s₀ (timeTree s) := by
  refine hs.step hp ?_
  unfold timeTree
  refine .ite (.tm (.ite .rfl (within_bump .rfl))) (.ite (.tm .rfl) ?_)
  split
  · exact .ite (within_enterHoldover .rfl) (within_bump (.tm (within_enterHoldover .rfl)))
  · exact .tm (.ite .rfl (within_bump .rfl))

theorem within_followParent (hs : Within ps s₀ s) (hp : [.ctr, .out, .host, .tm] ⊆ ps := by decide) :
    Within ps s₀ (followParent s) := by
  refine hs.step hp ?_
  unfold followParent
  exact .ite (within_timeTree .rfl) (within_correct (within_timeTree .rfl))

theorem within_beginExchange {p : Nat} (hs : Within ps s₀ s) (hp : [.ctr, .out, .host, .tm] ⊆ ps := by decide) :
    Within ps s₀ (beginExchange p s) := by
  refine hs.step hp ?_
  unfold beginExchange
  exact .ite (within_followParent (within_setPath .rfl)) (within_setPath .rfl)

theorem within_sendTimeFrame {p dst : Nat} {body : List Byte} (hs : Within ps s₀ s)
    (hp : [.ctr, .out, .bud, .fab] ⊆ ps := by decide) : Within ps s₀ (sendTimeFrame p dst body s) :=
  within_transmit hs hp

theorem within_ppsFail (hs : Within ps s₀ s) (hp : [.ctr, .out, .host, .tm] ⊆ ps := by decide) :
    Within ps s₀ (ppsFail s) := by
  refine hs.step hp ?_
  unfold ppsFail
  exact .ite (.tm .rfl) (within_enterHoldover (.tm (.tm .rfl)))

theorem within_ppsAccept {sec at' : Nat} (hs : Within ps s₀ s) (hp : [.ctr, .out, .host, .tm] ⊆ ps := by decide) :
    Within ps s₀ (ppsAccept sec at' s) := by
  refine hs.step hp ?_
  unfold ppsAccept
  exact within_timeTree (within_correct (.tm .rfl))

theorem within_fireTimer {n : Nat} (hs : Within ps s₀ s) (hp : [.regs, .course] ⊆ ps := by decide) :
    Within ps s₀ (fireTimer n s) := by
  refine hs.step hp ?_
  unfold fireTimer
  exact within_sendToken (within_setReg .rfl)

theorem within_timerArmed {n : Nat} (hs : Within ps s₀ s) (hp : [.regs, .ctr, .course] ⊆ ps := by decide) :
    Within ps s₀ (timerArmed n s) := by
  refine hs.step hp ?_
  unfold timerArmed
  exact .ite (within_fireTimer (within_bump .rfl)) .rfl

theorem within_kTimeTimer {_h : CmdHdr} {timer : Byte} {ctl : W32} {expiry : W64} (hs : Within ps s₀ s)
    (hp : [.regs, .ctr, .course] ⊆ ps := by decide) : Within ps s₀ (kTimeTimer _h timer ctl expiry s).s := by
  refine hs.step hp ?_
  unfold kTimeTimer
  exact .iteRes
    (within_kFail .rfl)
    (within_kOk (within_timerArmed (within_setReg (within_setReg (within_setReg .rfl)))))

theorem within_kTimeEpoch {h : CmdHdr} {epoch ppsSecond : W64} (hs : Within ps s₀ s)
    (hp : [.regs, .cfg, .tm] ⊆ ps := by decide) : Within ps s₀ (kTimeEpoch h epoch ppsSecond s).s := by
  refine hs.step hp ?_
  unfold kTimeEpoch
  exact .iteRes
    (within_kFail .rfl)
    (.iteRes
      (within_kOk (within_touchCfg (within_setReg (within_setReg .rfl))))
      (within_kOk (.tm (within_touchCfg (within_setReg (within_setReg .rfl))))))

theorem within_kTimeQuery {h : CmdHdr} {buf : Buf} (hs : Within ps s₀ s) (hp : [.ctr, .out] ⊆ ps := by decide) :
    Within ps s₀ (kTimeQuery h buf s).s := by
  refine hs.step hp ?_
  unfold kTimeQuery
  exact within_withBuf (within_deliver (fun _ => .rfl) .rfl) .rfl

theorem within_pathsInstall {pb : List Byte} (hs : Within ps s₀ s) (hp : [.ctr, .out, .host, .tm] ⊆ ps := by decide) :
    Within ps s₀ (pathsInstall pb s) := by
  refine hs.step hp ?_
  unfold pathsInstall
  exact within_followParent (.foldl (fun _ _ => within_setPath .rfl) .rfl)

theorem within_kTimePathSet {h : CmdHdr} (hs : Within ps s₀ s) (hp : [.ctr, .out, .host, .tm] ⊆ ps := by decide) :
    Within ps s₀ (kTimePathSet h s).s := by
  refine hs.step hp ?_
  unfold kTimePathSet
  exact within_kOk (within_pathsInstall .rfl)

theorem within_kBudgetSet {h : CmdHdr} (hs : Within ps s₀ s) (hp : [.ctr, .bud] ⊆ ps := by decide) :
    Within ps s₀ (kBudgetSet h s).s := by
  refine hs.step hp ?_
  unfold kBudgetSet
  exact .iteRes
    (within_kFail (within_bump .rfl))
    (.iteRes (within_kFail (within_bump .rfl)) (within_kDefer (.bud .rfl)))

theorem within_installShares {ws : List Nat} {prof : Nat} (hs : Within ps s₀ s) (hp : [.regs] ⊆ ps := by decide) :
    Within ps s₀ (installShares ws prof s) := by
  refine hs.step hp ?_
  unfold installShares
  exact within_setReg (.foldl (fun _ _ => within_setReg .rfl) .rfl)

theorem within_applyBudget (hs : Within ps s₀ s) (hp : [.regs, .ctr, .out, .host, .bud] ⊆ ps := by decide) :
    Within ps s₀ (applyBudget s) := by
  refine hs.step hp ?_
  unfold applyBudget
  split
  · exact .rfl
  · exact .ite .rfl (within_postReply (within_installShares (.bud .rfl)))

theorem within_applyPeriod (hs : Within ps s₀ s) (hp : [.bud] ⊆ ps := by decide) : Within ps s₀ (applyPeriod s) := by
  refine hs.step hp ?_
  unfold applyPeriod
  split
  · exact .rfl
  · exact .ite .rfl (.bud .rfl)

end Sys2Proof.Machine
end

