-- ==== Sys2Proof/Proofs/WithinExchange.lean ====
section
/-!
SUPPORT. What the security island and the exchange may change.
-/

-- Many short proofs: elaborated in turn, so that they do not wait in a thread each for the kernel's check.
set_option Elab.async false

namespace Sys2Proof.Machine

variable {ps : List Part} {s₀ s : State}

/-! ## The security island -/

theorem within_bootIsland (hs : Within ps s₀ s) (hp : [.ctr, .sec] ⊆ ps := by decide) :
    Within ps s₀ (bootIsland s) := by
  refine hs.step hp ?_
  unfold bootIsland
  exact .sec (within_bumpN .rfl)

theorem within_installImage {im : List Byte} {activate : Bool} (hs : Within ps s₀ s)
    (hp : [.ctr, .sec] ⊆ ps := by decide) : Within ps s₀ (installImage im activate s).1 := by
  refine hs.step hp ?_
  unfold installImage
  exact .iteFst
    (within_bump (.ite (.sec .rfl) (.sec .rfl)))
    (.iteFst (.sec (.ite (.sec .rfl) (.sec .rfl))) (.ite (.sec .rfl) (.sec .rfl)))

theorem within_kFwUpdate {h : CmdHdr} (hs : Within ps s₀ s) (hp : [.ctr, .sec] ⊆ ps := by decide) :
    Within ps s₀ (kFwUpdate h s).s := by
  refine hs.step hp ?_
  unfold kFwUpdate
  exact .iteRes
    (within_kFail .rfl)
    (.iteRes
      (within_kFail .rfl)
      (.iteRes
        (within_dmaRefuse .rfl)
        (.iteRes (within_kOk (within_installImage .rfl)) (within_kFail (within_installImage .rfl)))))

theorem within_kSecOwnerEnrol {h : CmdHdr} (hs : Within ps s₀ s) (hp : [.sec] ⊆ ps := by decide) :
    Within ps s₀ (kSecOwnerEnrol h s).s := by
  refine hs.step hp ?_
  unfold kSecOwnerEnrol
  exact .iteRes (within_kFail .rfl) (.iteRes (within_kFail .rfl) (within_kOk (.sec .rfl)))

theorem within_kSecRollbackSet {h : CmdHdr} (hs : Within ps s₀ s) (hp : [.sec] ⊆ ps := by decide) :
    Within ps s₀ (kSecRollbackSet h s).s := by
  refine hs.step hp ?_
  unfold kSecRollbackSet
  exact .iteRes (within_kOk (.sec .rfl)) (within_kFail .rfl)

theorem within_keyInstall {slot kind : Nat} {key blob : List Byte} (hs : Within ps s₀ s)
    (hp : [.ctr, .npx, .ck, .sec] ⊆ ps := by decide) : Within ps s₀ (keyInstall slot kind key blob s) := by
  refine hs.step hp ?_
  unfold keyInstall
  exact .ite (.npx (within_bump (.sec .rfl))) (.ck (within_bump (.sec .rfl)))

theorem within_kSecKeyLoad {h : CmdHdr} (hs : Within ps s₀ s) (hp : [.ctr, .npx, .ck, .sec] ⊆ ps := by decide) :
    Within ps s₀ (kSecKeyLoad h s).s := by
  refine hs.step hp ?_
  unfold kSecKeyLoad
  refine .iteRes (within_kFail .rfl) (.iteRes (within_kFail .rfl) ?_)
  split
  · exact within_kFail (within_bump .rfl)
  · exact within_kOk (within_keyInstall .rfl)

theorem within_kSecKeyClear {_h : CmdHdr} {slot : Byte} (hs : Within ps s₀ s) (hp : [.sec] ⊆ ps := by decide) :
    Within ps s₀ (kSecKeyClear _h slot s).s := by
  refine hs.step hp ?_
  unfold kSecKeyClear
  exact .iteRes (within_kFail .rfl) (.iteRes (within_kFail .rfl) (within_kOk (.sec .rfl)))

theorem within_kSecIdentity {h : CmdHdr} {buf : Buf} (hs : Within ps s₀ s) (hp : [.ctr, .out] ⊆ ps := by decide) :
    Within ps s₀ (kSecIdentity h buf s).s := by
  refine hs.step hp ?_
  unfold kSecIdentity
  exact within_withBuf (within_deliver (fun _ => .rfl) .rfl) .rfl

theorem within_kSecAttest {h : CmdHdr} {buf : Buf} {nonce : BitVec 256} (hs : Within ps s₀ s)
    (hp : [.ctr, .out] ⊆ ps := by decide) : Within ps s₀ (kSecAttest h buf nonce s).s := by
  refine hs.step hp ?_
  unfold kSecAttest
  exact within_withBuf (within_deliver (fun _ => within_bump .rfl) .rfl) .rfl

/-! ## Packets -/

theorem within_setNpx {f : Npx → Npx} (hs : Within ps s₀ s) (hp : [.npx] ⊆ ps := by decide) :
    Within ps s₀ (setNpx f s) := hs.npx hp

theorem within_etherSend {p : Nat} {mac : List Byte} {cls : Nat} {packet : List Byte} (hs : Within ps s₀ s)
    (hp : [.ctr, .out, .bud, .fab] ⊆ ps := by decide) : Within ps s₀ (etherSend p mac cls packet s) :=
  within_transmit hs hp

theorem within_solicit {p : Nat} (hs : Within ps s₀ s) (hp : [.ctr, .out, .bud, .fab] ⊆ ps := by decide) :
    Within ps s₀ (solicit p s) := within_etherSend hs hp

theorem within_routeOut {p cls : Nat} {packet : List Byte} (hs : Within ps s₀ s)
    (hp : [.ctr, .out, .bud, .fab, .npx] ⊆ ps := by decide) : Within ps s₀ (routeOut p cls packet s) := by
  refine hs.step hp ?_
  unfold routeOut
  split
  · exact within_etherSend .rfl
  · exact within_setNpx (within_solicit .rfl)

theorem within_sendPacket {typ cls : Nat} {d : Partner} {outer egrp frag nd npar : Nat} {body : List Byte}
    (hs : Within ps s₀ s) (hp : [.ctr, .out, .bud, .fab, .npx] ⊆ ps := by decide) :
    Within ps s₀ (sendPacket typ cls d outer egrp frag nd npar body s) := by
  refine hs.step hp ?_
  unfold sendPacket
  refine .ite .rfl ?_
  split
  · exact .rfl
  · exact within_routeOut (within_bump (within_setNpx .rfl))

theorem within_sendObject {typ : Nat} {d : Partner} {outer : Nat} {object : List Byte} (hs : Within ps s₀ s)
    (hp : [.ctr, .out, .bud, .fab, .npx] ⊆ ps := by decide) : Within ps s₀ (sendObject typ d outer object s) := by
  refine hs.step hp ?_
  unfold sendObject
  exact .foldl (fun _ _ => .foldl (fun _ _ => within_sendPacket .rfl) .rfl) .rfl

/-! ## Windows, deltas and homes -/

theorem within_restage (hs : Within ps s₀ s) (hp : [.cbl] ⊆ ps := by decide) : Within ps s₀ (restage s) := by
  refine hs.step hp ?_
  unfold restage
  exact .foldl (fun _ _ => within_setOuter .rfl) .rfl

theorem within_spread {kind : Nat} {data : List Byte} (hs : Within ps s₀ s) (hp : [.out] ⊆ ps := by decide) :
    Within ps s₀ (spread kind data s) := within_emit hs hp

theorem within_tell {d : Partner} {body : List Byte} (hs : Within ps s₀ s)
    (hp : [.ctr, .out, .bud, .fab, .npx] ⊆ ps := by decide) : Within ps s₀ (tell d body s) := within_sendPacket hs hp

theorem within_tellSite {t : Nat} {body : List Byte} (hs : Within ps s₀ s)
    (hp : [.ctr, .out, .bud, .fab, .npx] ⊆ ps := by decide) : Within ps s₀ (tellSite t body s) := by
  refine hs.step hp ?_
  unfold tellSite
  split
  · exact within_tell .rfl
  · exact .rfl

theorem within_tellAll {body : List Byte} (hs : Within ps s₀ s)
    (hp : [.ctr, .out, .bud, .fab, .npx] ⊆ ps := by decide) : Within ps s₀ (tellAll body s) := by
  refine hs.step hp ?_
  unfold tellAll
  exact .foldl (fun _ _ => .ite .rfl (within_tellSite .rfl)) .rfl

theorem within_objectToAll {typ outer : Nat} {ob : List Byte} (hs : Within ps s₀ s)
    (hp : [.ctr, .out, .bud, .fab, .npx] ⊆ ps := by decide) : Within ps s₀ (objectToAll typ outer ob s) := by
  refine hs.step hp ?_
  unfold objectToAll
  refine .foldl (fun _ _ => .ite .rfl ?_) .rfl
  split
  · exact within_sendObject .rfl
  · exact .rfl

theorem within_request {t : Nat} {body : List Byte} (hs : Within ps s₀ s)
    (hp : [.ctr, .out, .bud, .fab, .npx] ⊆ ps := by decide) : Within ps s₀ (request t body s) := by
  refine hs.step hp ?_
  unfold request
  exact .ite (within_tellSite .rfl) .rfl

theorem within_decide5 {site : Nat} {body : List Byte} (hs : Within ps s₀ s) (hp : [.out] ⊆ ps := by decide) :
    Within ps s₀ (decide5 site body s) := within_spread hs hp

theorem within_setHeard {site w : Nat} (hs : Within ps s₀ s) (hp : [.npx] ⊆ ps := by decide) :
    Within ps s₀ (setHeard site w s) := within_setNpx hs hp

theorem within_heardFrom {site : Nat} (hs : Within ps s₀ s) (hp : [.out, .npx] ⊆ ps := by decide) :
    Within ps s₀ (heardFrom site s) := by
  refine hs.step hp ?_
  unfold heardFrom
  exact .ite .rfl (within_spread (within_setHeard .rfl))

theorem within_askBase (hs : Within ps s₀ s) (hp : [.regs, .ctr, .out, .bud, .fab, .npx] ⊆ ps := by decide) :
    Within ps s₀ (askBase s) := by
  refine hs.step hp ?_
  unfold askBase
  exact .ite (within_tellSite (within_npxEvent (within_bump .rfl))) .rfl

theorem within_fullFetch (hs : Within ps s₀ s) (hp : [.regs, .ctr, .out, .bud, .fab, .npx] ⊆ ps := by decide) :
    Within ps s₀ (fullFetch s) := by
  refine hs.step hp ?_
  unfold fullFetch
  exact within_askBase (within_setNpx .rfl)

theorem within_pubFailed {v : Nat} (hs : Within ps s₀ s)
    (hp : [.regs, .ctr, .out, .bud, .fab, .npx] ⊆ ps := by decide) : Within ps s₀ (pubFailed v s) := by
  refine hs.step hp ?_
  unfold pubFailed
  exact .ite (within_fullFetch .rfl) (within_request (within_setNpx .rfl))

theorem within_startHome {e : Nat} (hs : Within ps s₀ s) (hp : [.cbl, .npx] ⊆ ps := by decide) :
    Within ps s₀ (startHome e s) := by
  refine hs.step hp ?_
  unfold startHome
  exact within_restage (within_setNpx .rfl)

theorem within_becomeHome (hs : Within ps s₀ s) (hp : [.regs, .ctr, .out, .bud, .cbl, .fab, .npx] ⊆ ps := by decide) :
    Within ps s₀ (becomeHome s) := by
  refine hs.step hp ?_
  unfold becomeHome
  exact within_decide5 (within_tellAll (within_npxEvent (within_bump (.foldl
    (fun _ _ => within_heardFrom .rfl)
    (within_startHome .rfl)))))

theorem within_keepBook {b : Book} (hs : Within ps s₀ s) (hp : [.ctr, .cbl] ⊆ ps := by decide) :
    Within ps s₀ (keepBook b s).1 := by
  refine hs.step hp ?_
  unfold keepBook
  refine .iteFst (within_bump .rfl) ?_
  split
  · exact .iteFst .rfl (within_bump .rfl)
  · exact .cbl .rfl

theorem within_receiveBook {b : Book} (hs : Within ps s₀ s)
    (hp : [.ctr, .out, .bud, .cbl, .fab, .npx] ⊆ ps := by decide) : Within ps s₀ (receiveBook b s) := by
  refine hs.step hp ?_
  unfold receiveBook
  exact .ite (within_keepBook .rfl) (within_request (within_keepBook .rfl))

theorem within_addDelta {site at' : Nat} {ob : List Byte} (hs : Within ps s₀ s) (hp : [.npx] ⊆ ps := by decide) :
    Within ps s₀ (addDelta site at' ob s) := by
  refine hs.step hp ?_
  unfold addDelta
  exact .ite .rfl (within_setNpx .rfl)

theorem within_holdDelta {site : Nat} {ob : List Byte} (hs : Within ps s₀ s)
    (hp : [.ctr, .out, .npx] ⊆ ps := by decide) : Within ps s₀ (holdDelta site ob s) := by
  refine hs.step hp ?_
  unfold holdDelta
  exact within_spread (within_addDelta (.ite
    (within_heardFrom (.ite (within_bump .rfl) .rfl))
    (.ite (within_bump .rfl) .rfl)))

theorem within_deliverDelta {d : OwnDelta} (hs : Within ps s₀ s)
    (hp : [.ctr, .out, .bud, .fab, .npx] ⊆ ps := by decide) : Within ps s₀ (deliverDelta d s) := by
  refine hs.step hp ?_
  unfold deliverDelta
  refine .ite (within_setNpx (within_holdDelta .rfl)) ?_
  split
  · exact .ite (within_sendObject (within_setNpx .rfl)) .rfl
  · exact .rfl

theorem within_trySendDelta (hs : Within ps s₀ s) (hp : [.ctr, .out, .bud, .fab, .npx] ⊆ ps := by decide) :
    Within ps s₀ (trySendDelta s) := by
  refine hs.step hp ?_
  unfold trySendDelta
  split
  · exact .ite (within_deliverDelta .rfl) .rfl
  · exact .rfl

theorem within_sendStatus (hs : Within ps s₀ s) (hp : [.ctr, .out, .bud, .fab, .npx] ⊆ ps := by decide) :
    Within ps s₀ (sendStatus s) := by
  refine hs.step hp ?_
  unfold sendStatus
  exact .ite .rfl (.ite (within_tellSite .rfl) .rfl)

theorem within_exchInstall {pb : List Byte} (hs : Within ps s₀ s)
    (hp : [.regs, .ctr, .out, .cfg, .bud, .cbl, .fab, .npx] ⊆ ps := by decide) : Within ps s₀ (exchInstall pb s) := by
  refine hs.step hp ?_
  unfold exchInstall
  exact .foldl
    (fun _ _ => within_receiveBook .rfl)
    (within_touchCfg (within_setNpx (.foldl (fun _ _ => within_setReg .rfl) .rfl)))

theorem within_kExchConfig {h : CmdHdr} (hs : Within ps s₀ s)
    (hp : [.regs, .ctr, .out, .cfg, .bud, .cbl, .fab, .npx] ⊆ ps := by decide) :
    Within ps s₀ (kExchConfig h s).s := by
  refine hs.step hp ?_
  unfold kExchConfig
  refine .iteRes (within_kFail .rfl) ?_
  split
  · exact within_kFail .rfl
  · exact within_kOk (within_exchInstall .rfl)

theorem within_kExchPartners {h : CmdHdr} (hs : Within ps s₀ s) (hp : [.npx] ⊆ ps := by decide) :
    Within ps s₀ (kExchPartners h s).s := by
  refine hs.step hp ?_
  unfold kExchPartners
  exact .iteRes
    (within_kFail .rfl)
    (.iteRes (within_kFail .rfl) (.iteRes (within_kFail .rfl) (within_kOk (within_setNpx .rfl))))

theorem within_kExchWeights {h : CmdHdr} (hs : Within ps s₀ s) (hp : [.npx] ⊆ ps := by decide) :
    Within ps s₀ (kExchWeights h s).s := by
  refine hs.step hp ?_
  unfold kExchWeights
  exact .iteRes (within_kFail .rfl) (.iteRes (within_kFail .rfl) (within_kOk (within_setNpx .rfl)))

theorem within_kExchQuery {h : CmdHdr} {buf : Buf} (hs : Within ps s₀ s) (hp : [.ctr, .out] ⊆ ps := by decide) :
    Within ps s₀ (kExchQuery h buf s).s := by
  refine hs.step hp ?_
  unfold kExchQuery
  exact within_withBuf (within_deliver (fun _ => .rfl) .rfl) .rfl

end Sys2Proof.Machine
end

