-- ==== Sys2Proof/Proofs/WithinCommands.lean ====
section
/-!
SUPPORT. What power, management and the path of a Kolelm command may change.
-/

-- Many short proofs: elaborated in turn, so that they do not wait in a thread each for the kernel's check.
set_option Elab.async false

namespace Sys2Proof.Machine

variable {ps : List Part} {s₀ s : State}

/-! ## Power -/

theorem within_setPwr {f : Pwr → Pwr} (hs : Within ps s₀ s) (hp : [.pwr] ⊆ ps := by decide) :
    Within ps s₀ (setPwr f s) := hs.pwr hp

theorem within_retireCore {c : Nat} (hs : Within ps s₀ s)
    (hp : [.ctr, .out, .free, .host, .ck, .pwr] ⊆ ps := by decide) : Within ps s₀ (retireCore c s) := by
  refine hs.step hp ?_
  unfold retireCore
  exact .ite (within_updateFault (within_postEvent (.host (within_free32 (.ck .rfl))))) (.ck .rfl)

theorem within_loseTiles (hs : Within ps s₀ s) (hp : [.mem, .tiles, .piers] ⊆ ps := by decide) :
    Within ps s₀ (loseTiles s) := by
  have hunbound : Within [.mem, .tiles, .piers] s ((List.range 96).foldl (fun s t => unbindTile t s) s) :=
    .foldl (fun _ _ => within_unbindTile .rfl) .rfl
  have hemptied (t : State) {m : List Host.Cell} : Within [.mem, .tiles, .piers] t { t with tiles := [], mem := m } :=
    .update .rfl
  exact hs.step hp (hunbound.trans (hemptied _))

theorem within_enterBed (hs : Within ps s₀ s) (hp : [.mem, .ctr, .tiles, .piers, .pwr] ⊆ ps := by decide) :
    Within ps s₀ (enterBed s) := by
  refine hs.step hp ?_
  unfold enterBed
  exact within_bump (within_setPwr (within_loseTiles .rfl))

theorem within_kModuleBedEnter {_h : CmdHdr} (hs : Within ps s₀ s)
    (hp : [.mem, .ctr, .tiles, .piers, .pwr] ⊆ ps := by decide) : Within ps s₀ (kModuleBedEnter _h s).s := by
  refine hs.step hp ?_
  unfold kModuleBedEnter
  exact .iteRes
    (within_kFail .rfl)
    (.iteRes (within_kFail .rfl) (.iteRes (within_kFail .rfl) (within_kOk (within_enterBed .rfl))))

theorem within_kModuleBedLeave {_h : CmdHdr} (hs : Within ps s₀ s) (hp : [.pwr] ⊆ ps := by decide) :
    Within ps s₀ (kModuleBedLeave _h s).s := by
  refine hs.step hp ?_
  unfold kModuleBedLeave
  exact .iteRes (within_kFail .rfl) (.iteRes (within_kOk (within_setPwr .rfl)) (within_kOk .rfl))

theorem within_coreFail {c : Nat} (hs : Within ps s₀ s)
    (hp : [.ctr, .out, .free, .slog, .host, .ck, .pwr] ⊆ ps := by decide) : Within ps s₀ (coreFail c s) := by
  refine hs.step hp ?_
  unfold coreFail
  exact .ite .rfl (within_retireCore (within_postEvent (within_faultEvent .rfl)))

/-! ## Management messages -/

theorem within_mctpAnswer {bs : List Byte} (hs : Within ps s₀ s) (hp : [.out] ⊆ ps := by decide) :
    Within ps s₀ (mctpAnswer bs s) := within_emit hs hp

theorem within_controlAnswer {m : List Byte} {cc : Nat} {data : List Byte} (hs : Within ps s₀ s)
    (hp : [.out] ⊆ ps := by decide) : Within ps s₀ (controlAnswer m cc data s) := within_mctpAnswer hs hp

theorem within_mctpControl {m : List Byte} (hs : Within ps s₀ s) (hp : [.out, .pwr] ⊆ ps := by decide) :
    Within ps s₀ (mctpControl m s) := by
  refine hs.step hp ?_
  unfold mctpControl
  refine .ite .rfl ?_
  split
  · exact .ite
      (within_controlAnswer .rfl)
      (.ite (within_controlAnswer .rfl) (within_controlAnswer (within_setPwr .rfl)))
  · exact within_controlAnswer .rfl
  · exact within_controlAnswer .rfl
  · exact within_controlAnswer .rfl
  · exact within_controlAnswer .rfl

theorem within_pldmAnswer {m : List Byte} {cc : Nat} {data : List Byte} (hs : Within ps s₀ s)
    (hp : [.out] ⊆ ps := by decide) : Within ps s₀ (pldmAnswer m cc data s) := within_mctpAnswer hs hp

theorem within_pldmBase {m : List Byte} (hs : Within ps s₀ s) (hp : [.out, .pwr] ⊆ ps := by decide) :
    Within ps s₀ (pldmBase m s) := by
  refine hs.step hp ?_
  unfold pldmBase
  split
  · exact .ite (within_pldmAnswer .rfl) (.ite (within_pldmAnswer .rfl) (within_pldmAnswer (within_setPwr .rfl)))
  · exact within_pldmAnswer .rfl
  · exact within_pldmAnswer .rfl
  · exact within_pldmAnswer .rfl
  · exact within_pldmAnswer .rfl

theorem within_pldmMonitoring {m : List Byte} (hs : Within ps s₀ s) (hp : [.out] ⊆ ps := by decide) :
    Within ps s₀ (pldmMonitoring m s) := by
  refine hs.step hp ?_
  unfold pldmMonitoring
  split
  · dsimp only
    split
    · exact within_pldmAnswer .rfl
    · exact within_pldmAnswer .rfl
  · exact .ite (within_pldmAnswer .rfl) (within_pldmAnswer .rfl)
  · exact within_pldmAnswer .rfl

theorem within_pldmFru {m : List Byte} (hs : Within ps s₀ s) (hp : [.out] ⊆ ps := by decide) :
    Within ps s₀ (pldmFru m s) := by
  refine hs.step hp ?_
  unfold pldmFru
  split
  · exact within_pldmAnswer .rfl
  · exact within_pldmAnswer .rfl
  · exact within_pldmAnswer .rfl

theorem within_pldmFirmware {m image : List Byte} (hs : Within ps s₀ s)
    (hp : [.ctr, .out, .sec, .pwr] ⊆ ps := by decide) : Within ps s₀ (pldmFirmware m image s) := by
  refine hs.step hp ?_
  unfold pldmFirmware
  split
  · exact within_pldmAnswer .rfl
  · exact within_pldmAnswer .rfl
  · exact .ite (within_pldmAnswer .rfl) (within_pldmAnswer (within_setPwr .rfl))
  · exact .ite (within_pldmAnswer (within_setPwr .rfl)) (within_pldmAnswer .rfl)
  · exact .ite
      (within_pldmAnswer .rfl)
      (.ite (within_pldmAnswer .rfl) (within_pldmAnswer (within_setPwr (within_installImage .rfl))))
  · split
    · exact within_pldmAnswer .rfl
    · exact within_pldmAnswer (within_setPwr (.sec .rfl))
  · exact within_pldmAnswer .rfl
  · exact .ite (within_pldmAnswer .rfl) (within_pldmAnswer (within_setPwr (within_setPwr .rfl)))
  · exact .ite (within_pldmAnswer .rfl) (within_pldmAnswer (within_setPwr .rfl))
  · exact within_pldmAnswer .rfl

/-! ## Registers and snapshots -/

theorem within_readRegister {req : Requester} {viaAlias : Bool} {a : Nat} (hs : Within ps s₀ s)
    (hp : [.regs, .ctr, .latch, .glatch, .slog] ⊆ ps := by decide) :
    Within ps s₀ (readRegister req viaAlias a s).2 := by
  refine hs.step hp ?_
  unfold readRegister
  split
  · exact within_countUnmapped .rfl
  · exact .iteSnd
      (.iteSnd (.ite (.latch .rfl) (.ctr (.latch .rfl))) .rfl)
      (.iteSnd
        .rfl
        (.iteSnd
          .rfl
          (.ite
            (.ite
              (within_setReg (within_setReg (.glatch .rfl)))
              (.ite (.glatch (.glatch .rfl)) (within_setReg (.glatch .rfl))))
            (.glatch .rfl))))

theorem within_readCmd {req : Requester} {viaAlias : Bool} {addr : Nat} (hs : Within ps s₀ s)
    (hp : [.regs, .ctr, .latch, .glatch, .out, .slog] ⊆ ps := by decide) :
    Within ps s₀ (readCmd req viaAlias addr s) := by
  refine hs.step hp ?_
  unfold readCmd
  exact .ite .rfl (within_emit (within_readRegister .rfl))

/-! ## Commands of the host -/

theorem within_kIdentify {h : CmdHdr} {buf : Buf} (hs : Within ps s₀ s) (hp : [.ctr, .out] ⊆ ps := by decide) :
    Within ps s₀ (kIdentify h buf s).s := by
  refine hs.step hp ?_
  unfold kIdentify
  exact within_withBuf (within_deliver (fun _ => .rfl) .rfl) .rfl

theorem within_kJobStatus {h : CmdHdr} {buf : Buf} (hs : Within ps s₀ s)
    (hp : [.ctr, .out, .host] ⊆ ps := by decide) : Within ps s₀ (kJobStatus h buf s).s := by
  refine hs.step hp ?_
  unfold kJobStatus
  exact within_withBuf (within_deliver (fun _ => .ite .rfl (.host .rfl)) .rfl) .rfl

theorem within_kCountersRead {h : CmdHdr} {block : Byte} {inst : W16} {buf : Buf} (hs : Within ps s₀ s)
    (hp : [.regs, .ctr, .out, .host] ⊆ ps := by decide) : Within ps s₀ (kCountersRead h block inst buf s).s := by
  refine hs.step hp ?_
  unfold kCountersRead
  refine within_withBuf ?_ .rfl
  split
  · exact within_kFail .rfl
  · refine .iteRes (within_kFail .rfl) (.iteRes (within_kFail .rfl) ?_)
    split
    exact within_deliver (fun _ => .update .rfl) .rfl

theorem within_kSlogRead {h : CmdHdr} {clear : Byte} {buf : Buf} (hs : Within ps s₀ s)
    (hp : [.ctr, .out, .slog] ⊆ ps := by decide) : Within ps s₀ (kSlogRead h clear buf s).s := by
  refine hs.step hp ?_
  unfold kSlogRead
  exact within_withBuf (within_deliver (fun _ => .ite (.slog .rfl) .rfl) .rfl) .rfl

theorem within_kSensorsRead {h : CmdHdr} {buf : Buf} (hs : Within ps s₀ s) (hp : [.ctr, .out] ⊆ ps := by decide) :
    Within ps s₀ (kSensorsRead h buf s).s := by
  refine hs.step hp ?_
  unfold kSensorsRead
  exact within_withBuf (within_deliver (fun _ => .rfl) .rfl) .rfl

theorem within_kDiagRun {_h : CmdHdr} {_test : W16} {_param : W64} (hs : Within ps s₀ s)
    (hp : [.free] ⊆ ps := by decide) : Within ps s₀ (kDiagRun _h _test _param s).s := by
  refine hs.step hp ?_
  unfold kDiagRun
  exact .iteRes (within_kFail .rfl) (within_kOk (within_free32 .rfl))

theorem within_countLate {h : CmdHdr} {op : Nat} (hs : Within ps s₀ s) (hp : [.ctr] ⊆ ps := by decide) :
    Within ps s₀ (countLate h op s) := by
  refine hs.step hp ?_
  unfold countLate
  exact .ite (within_bump .rfl) .rfl

theorem within_conclude {r : ReplyTo} {op : Nat} {k : KRes} (hk : Within ps s₀ k.s)
    (hp : [.ctr, .out, .host] ⊆ ps := by decide) : Within ps s₀ (conclude r op k) :=
  .ite (hk.step hp (within_postReply .rfl)) (.ite (hk.step hp (within_setQueue .rfl)) hk)

/-- The path of a command adds the counters, what leaves the module and the host interface to what the command's own
effect changes. -/
theorem within_beginCmd {h : CmdHdr} {op : Nat} {k : State → KRes} {i : Instr} (hk : ∀ t, Within ps t (k t).s)
    (hs : Within ps s₀ s) (hp : [.ctr, .out, .host] ⊆ ps := by decide) : Within ps s₀ (beginCmd h op k i s) := by
  unfold beginCmd
  split
  · exact hs.step hp (within_postReply .rfl)
  · exact within_conclude ((hs.step hp (within_countLate .rfl)).trans (hk _)) hp

theorem within_badCmd {h : CmdHdr} {op st detail : Nat} (hs : Within ps s₀ s)
    (hp : [.ctr, .out, .host] ⊆ ps := by decide) : Within ps s₀ (badCmd h op st detail s) := by
  refine hs.step hp ?_
  unfold badCmd
  exact within_postReply (within_bump .rfl)

theorem within_enqueue {h : CmdHdr} {op : Nat} {k : State → KRes} {i : Instr} (hk : ∀ t, Within ps t (k t).s)
    (hs : Within ps s₀ s) (hp : [.ctr, .out, .host] ⊆ ps := by decide) : Within ps s₀ (enqueue h op k i s) :=
  .ite (hs.step hp (within_badCmd .rfl)) (.ite (within_beginCmd hk hs hp) (hs.step hp (within_setQueue .rfl)))

theorem within_mctpReply {h : CmdHdr} {st detail : Nat} {data : List Byte} (hs : Within ps s₀ s)
    (hp : [.ctr, .out] ⊆ ps := by decide) : Within ps s₀ (mctpReply h st detail data s) := by
  refine hs.step hp ?_
  unfold mctpReply
  exact within_emit (within_bump .rfl)

theorem within_mctpBegin {h : CmdHdr} {op : Nat} {k : State → KRes} (hk : ∀ t, Within ps t (k t).s)
    (hs : Within ps s₀ s) (hp : [.ctr, .out, .host] ⊆ ps := by decide) : Within ps s₀ (mctpBegin h op k s) := by
  have hrun : Within ps s₀ (k (countLate h op s)).s := (hs.step hp (within_countLate .rfl)).trans (hk _)
  unfold mctpBegin
  refine .ite (hs.step hp (within_mctpReply .rfl)) (.ite (hs.step hp (within_mctpReply .rfl))
    (.ite (hs.step hp (within_mctpReply .rfl)) ?_))
  dsimp only
  split
  · exact .ite (hrun.step hp (within_mctpReply (.out .rfl))) (hrun.step hp (within_mctpReply .rfl))
  · exact hrun.step hp (within_mctpReply .rfl)

theorem within_mctpSubmit {h : CmdHdr} {op : Nat} {k : State → KRes} {i : Instr} (hk : ∀ t, Within ps t (k t).s)
    (hs : Within ps s₀ s) (hp : [.ctr, .out, .host] ⊆ ps := by decide) : Within ps s₀ (mctpSubmit h op k i s) := by
  have hcount : Within ps s₀ (bump s (cHif 0x150)) := hs.step hp (within_bump .rfl)
  exact .ite hs (.ite (hcount.step hp (within_mctpReply (within_bump .rfl)))
    (.ite (within_mctpBegin hk hcount hp) (hcount.step hp (.host .rfl))))

theorem within_submit {h : CmdHdr} {op : Nat} {k : State → KRes} {i : Instr} (hk : ∀ t, Within ps t (k t).s)
    (hs : Within ps s₀ s) (hp : [.ctr, .out, .host] ⊆ ps := by decide) : Within ps s₀ (submit h op k i s) :=
  .ite (within_mctpSubmit hk hs hp) (.ite hs (within_enqueue hk (hs.step hp (within_setQueue .rfl)) hp))

end Sys2Proof.Machine
end

