-- ==== Sys2Proof/Proofs/CommandFrames.lean ====
section
/-!
SUPPORT. What the Kolelm commands leave alone (R30): the path of a command and its own effect.
-/

-- Many short proofs: elaborated in turn, so that they do not wait in a thread each for the kernel's check.
set_option Elab.async false

namespace Sys2Proof.Machine

variable {ps : List Part} {s₀ s t : State}

/-- The next state, if there is one, differs from `s` at most in the parts `ps`. -/
def WithinNext (ps : List Part) (s : State) : Host.Outcome State Fault Refusal → Prop
  | .next t => Within ps s t
  | _ => True

theorem WithinNext.eq {o : Host.Outcome State Fault Refusal} (h : WithinNext ps s o) (ho : o = .next t) :
    t = overlay ps s t := by
  subst ho
  exact Within.eq h


theorem within_command (ps : List Part) {c : CmdHdr} {op : Nat} {k : State → KRes} {i : Instr}
    (hk : ∀ t, Within ps t (k t).s) (hp : [.ctr, .out, .host] ⊆ ps := by decide) :
    WithinNext ps s (.next (submit c op k i s)) := within_submit hk .rfl hp

/-- Settles O54: a command's path adds counters, what leaves the module and the host interface to the parts that its
own effect may change. -/
theorem commandFrames : Obligations.CommandFrames := by
  unfold Obligations.CommandFrames
  intro i s t hx
  cases i with
  | identify => exact (within_command [.ctr, .out, .host] fun _ => within_kIdentify .rfl).eq hx
  | queueCreate => exact (within_command [.ctr, .out, .host] fun _ => within_kQueueCreate .rfl).eq hx
  | jobStatus => exact (within_command [.ctr, .out, .host] fun _ => within_kJobStatus .rfl).eq hx
  | eventRingSet => exact (within_command [.ctr, .out, .host] fun _ => within_kEventRingSet .rfl).eq hx
  | jobSeedSet => exact (within_command [.ctr, .out, .host] fun _ => within_kJobSeedSet .rfl).eq hx
  | stepQuery => exact (within_command [.ctr, .out, .host] fun _ => within_kStepQuery .rfl).eq hx
  | fabricQuery => exact (within_command [.ctr, .out, .host] fun _ => within_kFabricQuery .rfl).eq hx
  | collQuery => exact (within_command [.ctr, .out, .host] fun _ => within_kCollQuery .rfl).eq hx
  | exchQuery => exact (within_command [.ctr, .out, .host] fun _ => within_kExchQuery .rfl).eq hx
  | timeQuery => exact (within_command [.ctr, .out, .host] fun _ => within_kTimeQuery .rfl).eq hx
  | secIdentity => exact (within_command [.ctr, .out, .host] fun _ => within_kSecIdentity .rfl).eq hx
  | secAttest => exact (within_command [.ctr, .out, .host] fun _ => within_kSecAttest .rfl).eq hx
  | sensorsRead => exact (within_command [.ctr, .out, .host] fun _ => within_kSensorsRead .rfl).eq hx
  | moduleBedLeave => exact (within_command [.ctr, .out, .host, .pwr] fun _ => within_kModuleBedLeave .rfl).eq hx
  | fwUpdate => exact (within_command [.ctr, .out, .host, .sec] fun _ => within_kFwUpdate .rfl).eq hx
  | secKeyClear => exact (within_command [.ctr, .out, .host, .sec] fun _ => within_kSecKeyClear .rfl).eq hx
  | secOwnerEnrol => exact (within_command [.ctr, .out, .host, .sec] fun _ => within_kSecOwnerEnrol .rfl).eq hx
  | secRollbackSet => exact (within_command [.ctr, .out, .host, .sec] fun _ => within_kSecRollbackSet .rfl).eq hx
  | treimRetrain => exact (within_command [.ctr, .out, .host, .chans] fun _ => within_kTreimRetrain .rfl).eq hx
  | plinthFree => exact (within_command [.ctr, .out, .host, .piers] fun _ => within_kPlinthFree .rfl).eq hx
  | plinthQuota => exact (within_command [.regs, .ctr, .out, .host] fun _ => within_kPlinthQuota .rfl).eq hx
  | countersRead => exact (within_command [.regs, .ctr, .out, .host] fun _ => within_kCountersRead .rfl).eq hx
  | corbelGroupSet => exact (within_command [.ctr, .out, .host, .cbl] fun _ => within_kCorbelGroupSet .rfl).eq hx
  | corbelUnfreeze => exact (within_command [.ctr, .out, .host, .cbl] fun _ => within_kCorbelUnfreeze .rfl).eq hx
  | tileFence => exact (within_command [.ctr, .course, .out, .host] fun _ => within_kTileFence .rfl).eq hx
  | tileQuery => exact (within_command [.ctr, .course, .out, .host] fun _ => within_kTileQuery .rfl).eq hx
  | tensorScale => exact (within_command [.ctr, .out, .host, .tensors] fun _ => within_kTensorScale .rfl).eq hx
  | tensorRead => exact (within_command [.ctr, .out, .host, .tensors] fun _ => within_kTensorRead .rfl).eq hx
  | jobGroups => exact (within_command [.ctr, .out, .host, .stp] fun _ => within_kJobGroups .rfl).eq hx
  | queueLoad => exact (within_command [.ctr, .out, .host, .stp] fun _ => within_kQueueLoad .rfl).eq hx
  | expertTableLoad => exact (within_command [.ctr, .out, .host, .stp] fun _ => within_kExpertTableLoad .rfl).eq hx
  | queueStats => exact (within_command [.ctr, .out, .host, .stp] fun _ => within_kQueueStats .rfl).eq hx
  | collSetup => exact (within_command [.ctr, .out, .host, .fab] fun _ => within_kCollSetup .rfl).eq hx
  | collFree => exact (within_command [.ctr, .out, .host, .fab] fun _ => within_kCollFree .rfl).eq hx
  | collRun => exact (within_command [.ctr, .out, .host, .fab] fun _ => within_kCollRun .rfl).eq hx
  | exchPartners => exact (within_command [.ctr, .out, .host, .npx] fun _ => within_kExchPartners .rfl).eq hx
  | exchWeights => exact (within_command [.ctr, .out, .host, .npx] fun _ => within_kExchWeights .rfl).eq hx
  | ckptConfig => exact (within_command [.ctr, .out, .host, .ck] fun _ => within_kCkptConfig .rfl).eq hx
  | replicaRepairNameSource =>
    exact (within_command [.ctr, .out, .host, .ck] fun _ => within_kReplicaRepairNameSource .rfl).eq hx
  | ckptQuery => exact (within_command [.ctr, .out, .host, .stackTab] fun _ => within_kCkptQuery .rfl).eq hx
  | budgetSet => exact (within_command [.ctr, .out, .host, .bud] fun _ => within_kBudgetSet .rfl).eq hx
  | timePathSet => exact (within_command [.ctr, .out, .host, .tm] fun _ => within_kTimePathSet .rfl).eq hx
  | slogRead => exact (within_command [.ctr, .out, .slog, .host] fun _ => within_kSlogRead .rfl).eq hx
  | diagRun => exact (within_command [.ctr, .out, .free, .host] fun _ => within_kDiagRun .rfl).eq hx
  | timeTimer => exact (within_command [.regs, .ctr, .course, .out, .host] fun _ => within_kTimeTimer .rfl).eq hx
  | timeEpoch => exact (within_command [.regs, .ctr, .out, .host, .cfg, .tm] fun _ => within_kTimeEpoch .rfl).eq hx
  | secKeyLoad => exact (within_command [.ctr, .out, .host, .npx, .ck, .sec] fun _ => within_kSecKeyLoad .rfl).eq hx
  | moduleBedEnter =>
    exact (within_command [.mem, .ctr, .out, .host, .tiles, .piers, .pwr] fun _ => within_kModuleBedEnter .rfl).eq hx
  | plinthAlloc =>
    exact (within_command [.mem, .upset, .ctr, .out, .free, .host, .piers] fun _ => within_kPlinthAlloc .rfl).eq hx
  | tileUnfence =>
    exact (within_command [.mem, .upset, .ctr, .out, .free, .host, .tiles, .piers] fun _ => within_kTileUnfence .rfl).eq hx
  | exchConfig =>
    exact (within_command [.regs, .ctr, .out, .host, .cfg, .bud, .cbl, .fab, .npx] fun _ => within_kExchConfig .rfl).eq hx
  | plinthApply => exact (within_command (memoryParts.append [.out, .host]) fun _ => within_kPlinthApply .rfl).eq hx
  | treimMapApplyResume =>
    exact (within_command (memoryParts.append [.out, .host, .rmap]) fun _ => within_kTreimMapApplyResume .rfl).eq hx
  | stepResume =>
    exact (within_command (accessParts.append [.regs, .out, .host, .tensors, .stp, .fab]) fun _ => within_kStepResume .rfl).eq hx
  | _ => trivial

end Sys2Proof.Machine
end

