-- ==== Sys2Proof/Proofs/HostFrames.lean ====
section
/-!
SUPPORT. What the events of the host interface, the registers, and of power and management leave alone (R30).
-/

-- Many short proofs: elaborated in turn, so that they do not wait in a thread each for the kernel's check.
set_option Elab.async false

namespace Sys2Proof.Machine

variable {s : State}

theorem within_execHostLinkUp {speed : BitVec 2} {width : BitVec 5} {flit : Bool} :
    WithinNext [.host] s (execHostLinkUp speed width flit s) :=
  .ite .rfl (.host .rfl)

theorem within_execSnapshotComplete : WithinNext [.host] s (execSnapshotComplete s) :=
  .ite (.host .rfl) .rfl

theorem within_execCfgCrcPassStart : WithinNext [.cfg] s (execCfgCrcPassStart s) :=
  .ite .rfl (.cfg .rfl)

theorem within_execPwrEnLAssert : WithinNext [.pwr] s (execPwrEnLAssert s) :=
  within_setPwr .rfl

theorem within_execPrsntLAssert : WithinNext [.pwr] s (execPrsntLAssert s) :=
  within_setPwr .rfl

theorem within_execMainPowerRamp : WithinNext [.pwr] s (execMainPowerRamp s) :=
  .ite (within_setPwr .rfl) .rfl

theorem within_execLocateLChange {asserted : Bool} : WithinNext [.pwr] s (execLocateLChange asserted s) :=
  within_setPwr .rfl

theorem within_execMainInputReturn : WithinNext [.pwr] s (execMainInputReturn s) :=
  within_setPwr .rfl

theorem within_execPldmMonitoringMessage {msg : List Byte} : WithinNext [.out] s (execPldmMonitoringMessage msg s) :=
  .ite (within_pldmMonitoring .rfl) .rfl

theorem within_execPldmFruMessage {msg : List Byte} : WithinNext [.out] s (execPldmFruMessage msg s) :=
  .ite (within_pldmFru .rfl) .rfl

theorem within_execPpsOutPulse : WithinNext [.out] s (execPpsOutPulse s) :=
  .ite (within_emit (within_emit .rfl)) .rfl

theorem within_execRef10mChange {present : Bool} : WithinNext [.tm] s (execRef10mChange present s) :=
  .tm .rfl

theorem within_execEvHeadDoorbell {value : W32} : WithinNext [.out, .host] s (execEvHeadDoorbell value s) :=
  .ite .rfl (within_eventSpace (.host .rfl))

theorem within_execMsixCoalesceTimeout {queue : BitVec 6} :
    WithinNext [.out, .host] s (execMsixCoalesceTimeout queue s) :=
  .ite (within_signal (within_setQueue .rfl)) .rfl

theorem within_execRegWindowBadAccess {offset : BitVec 26} {write : Bool} {_len : Byte} :
    WithinNext [.ctr, .out] s (execRegWindowBadAccess offset write _len s) :=
  .ite (within_bump .rfl) (within_emit (within_bump .rfl))

theorem within_execRailsGood : WithinNext [.host, .pwr] s (execRailsGood s) :=
  .ite .rfl (within_setPwr (.host .rfl))

theorem within_execPerstDeassert : WithinNext [.host, .pwr] s (execPerstDeassert s) :=
  .ite (.host (within_setPwr .rfl)) (within_setPwr .rfl)

theorem within_execMctpControlMessage {msg : List Byte} : WithinNext [.out, .pwr] s (execMctpControlMessage msg s) :=
  .ite (within_mctpControl .rfl) .rfl

theorem within_execSmbusAlertResponse : WithinNext [.out, .pwr] s (execSmbusAlertResponse s) :=
  .ite .rfl (within_emit (within_emit (within_setPwr .rfl)))

theorem within_execPldmBaseMessage {msg : List Byte} : WithinNext [.out, .pwr] s (execPldmBaseMessage msg s) :=
  .ite (within_pldmBase .rfl) .rfl

theorem within_execSqTailDoorbell {queue : BitVec 6} {value : W32} :
    WithinNext [.ctr, .out, .host] s (execSqTailDoorbell queue value s) :=
  .ite .rfl (.ite (within_queueError .rfl) (within_setQueue .rfl))

theorem within_execCqHeadDoorbell {queue : BitVec 6} {value : W32} :
    WithinNext [.ctr, .out, .host] s (execCqHeadDoorbell queue value s) :=
  .ite .rfl (.ite (within_queueError .rfl) (within_setQueue .rfl))

theorem within_execHostIfReset : WithinNext [.regs, .ctr, .out, .host] s (execHostIfReset s) :=
  within_hostInterfaceReset .rfl

theorem within_execSurpriseRemoval : WithinNext [.regs, .ctr, .out, .host] s (execSurpriseRemoval s) :=
  .host (within_hostInterfaceReset .rfl)

theorem within_execPciPmD0 : WithinNext [.ctr, .out, .host, .pwr] s (execPciPmD0 s) := by
  unfold execPciPmD0
  refine .ite .rfl ?_
  extract_lets replies events v s₁ s₂ s₃
  have hs₁ : Within [.ctr, .out, .host, .pwr] s s₁ := .host .rfl
  have hs₂ : Within [.ctr, .out, .host, .pwr] s s₂ := .foldl
    (fun _ _ => .ite (within_writeReply .rfl) (within_dropReply .rfl))
    hs₁
  have hs₃ : Within [.ctr, .out, .host, .pwr] s s₃ := .foldl (fun _ _ => within_postEvent .rfl) hs₂
  exact .ite (within_setPwr hs₃) hs₃

theorem within_execIslandBootComplete {puf : Bool} {bits : W16} :
    WithinNext [.ctr, .out, .sec, .pwr] s (execIslandBootComplete puf bits s) :=
  .ite .rfl (within_updateFault (within_setPwr (within_bootIsland (.ite (within_bumpN (.sec .rfl)) .rfl))))

theorem within_execPldmFwUpdateMessage {msg image : List Byte} :
    WithinNext [.ctr, .out, .sec, .pwr] s (execPldmFwUpdateMessage msg image s) :=
  .ite (within_pldmFirmware .rfl) .rfl

theorem within_execPpsInEdge : WithinNext [.ctr, .out, .host, .tm] s (execPpsInEdge s) := by
  unfold execPpsInEdge
  refine .ite .rfl ?_
  split
  · exact .ite .rfl (within_ppsAccept .rfl)
  · exact .ite (within_ppsFail (within_bump .rfl)) (within_ppsAccept .rfl)
  · exact .rfl

theorem within_execPpsEdgeMissing : WithinNext [.ctr, .out, .host, .tm] s (execPpsEdgeMissing s) := by
  unfold execPpsEdgeMissing
  split
  · exact .ite .rfl (within_ppsFail (.tm .rfl))
  · exact .rfl

theorem within_execPerstAssert : WithinNext [.regs, .ctr, .out, .host, .pwr] s (execPerstAssert s) :=
  .ite (.host (within_hostInterfaceReset (within_setPwr .rfl))) (within_setPwr .rfl)

theorem within_execPciPmD3hot : WithinNext [.mem, .ctr, .host, .tiles, .piers, .pwr] s (execPciPmD3hot s) := by
  unfold execPciPmD3hot
  refine .ite .rfl ?_
  extract_lets v s₁
  have hs₁ : Within [.mem, .ctr, .host, .tiles, .piers, .pwr] s s₁ := within_bump (.host .rfl)
  exact .ite hs₁ (.ite (within_enterBed hs₁) (.host hs₁))

theorem within_execD3hotBedStart : WithinNext [.mem, .ctr, .host, .tiles, .piers, .pwr] s (execD3hotBedStart s) :=
  .ite (within_enterBed (.host .rfl)) .rfl

theorem within_execCounterLowRead {req : Requester} {addr : BitVec 26} :
    WithinNext [.regs, .ctr, .latch, .glatch, .course, .out, .slog] s (execCounterLowRead req addr s) :=
  within_readCmd .rfl

theorem within_execCounterLowPeek {req : Requester} {addr : BitVec 26} :
    WithinNext [.regs, .ctr, .latch, .glatch, .course, .out, .slog] s (execCounterLowPeek req addr s) :=
  within_readCmd .rfl

theorem within_execLatchedLowRead {req : Requester} {addr : BitVec 26} :
    WithinNext [.regs, .ctr, .latch, .glatch, .course, .out, .slog] s (execLatchedLowRead req addr s) :=
  within_readCmd .rfl

theorem within_execRcEventRead {req : Requester} {addr : BitVec 26} :
    WithinNext [.regs, .ctr, .latch, .glatch, .course, .out, .slog] s (execRcEventRead req addr s) :=
  within_readCmd .rfl

theorem within_execStackStopComplete {stack : BitVec 3} :
    WithinNext memoryParts s (execStackStopComplete stack s) :=
  .ite .rfl (within_setStack (within_poolDrainStack .rfl))

theorem within_execSelfRefreshEntry {stack : BitVec 3} :
    WithinNext (memoryParts.append [.pwr]) s (execSelfRefreshEntry stack s) :=
  .ite
    .rfl
    (.ite
      (within_setPwr (within_setStack (within_poolDrainStack .rfl)))
      (within_setStack (within_poolDrainStack .rfl)))

/-- Settles O55: each event's command changes at most the parts that the lemma about it names. -/
theorem hostFrames : Obligations.HostFrames := by
  unfold Obligations.HostFrames
  intro i s t hx
  cases i with
  | hostLinkUp => exact within_execHostLinkUp.eq hx
  | snapshotComplete => exact within_execSnapshotComplete.eq hx
  | cfgCrcPassStart => exact within_execCfgCrcPassStart.eq hx
  | pwrEnLAssert => exact within_execPwrEnLAssert.eq hx
  | prsntLAssert => exact within_execPrsntLAssert.eq hx
  | mainPowerRamp => exact within_execMainPowerRamp.eq hx
  | locateLChange => exact within_execLocateLChange.eq hx
  | mainInputReturn => exact within_execMainInputReturn.eq hx
  | pldmMonitoringMessage => exact within_execPldmMonitoringMessage.eq hx
  | pldmFruMessage => exact within_execPldmFruMessage.eq hx
  | ppsOutPulse => exact within_execPpsOutPulse.eq hx
  | ref10mChange => exact within_execRef10mChange.eq hx
  | evHeadDoorbell => exact within_execEvHeadDoorbell.eq hx
  | msixCoalesceTimeout => exact within_execMsixCoalesceTimeout.eq hx
  | regWindowBadAccess offset write len => exact (within_execRegWindowBadAccess (_len := len)).eq hx
  | railsGood => exact within_execRailsGood.eq hx
  | perstDeassert => exact within_execPerstDeassert.eq hx
  | mctpControlMessage => exact within_execMctpControlMessage.eq hx
  | smbusAlertResponse => exact within_execSmbusAlertResponse.eq hx
  | pldmBaseMessage => exact within_execPldmBaseMessage.eq hx
  | sqTailDoorbell => exact within_execSqTailDoorbell.eq hx
  | cqHeadDoorbell => exact within_execCqHeadDoorbell.eq hx
  | hostIfReset => exact within_execHostIfReset.eq hx
  | surpriseRemoval => exact within_execSurpriseRemoval.eq hx
  | pciPmD0 => exact within_execPciPmD0.eq hx
  | islandBootComplete => exact within_execIslandBootComplete.eq hx
  | pldmFwUpdateMessage => exact within_execPldmFwUpdateMessage.eq hx
  | ppsInEdge => exact within_execPpsInEdge.eq hx
  | ppsEdgeMissing => exact within_execPpsEdgeMissing.eq hx
  | perstAssert => exact within_execPerstAssert.eq hx
  | pciPmD3hot => exact within_execPciPmD3hot.eq hx
  | d3hotBedStart => exact within_execD3hotBedStart.eq hx
  | counterLowRead => exact within_execCounterLowRead.eq hx
  | counterLowPeek => exact within_execCounterLowPeek.eq hx
  | latchedLowRead => exact within_execLatchedLowRead.eq hx
  | rcEventRead => exact within_execRcEventRead.eq hx
  | stackStopComplete => exact within_execStackStopComplete.eq hx
  | selfRefreshEntry => exact within_execSelfRefreshEntry.eq hx
  | _ => trivial

end Sys2Proof.Machine
end

