-- ==== Sys2Proof/Proofs/EventFrames.lean ====
section
/-!
SUPPORT. What the events of tiles, the step, memory, line time, the fabric, the exchange, checkpoints and the cipher
engine leave alone (R30).
-/

-- Many short proofs: elaborated in turn, so that they do not wait in a thread each for the kernel's check.
set_option Elab.async false

namespace Sys2Proof.Machine

variable {s : State}

/-- What the start of the update may change. -/
abbrev updateUse : List Part := accessParts.append [.regs, .out, .host, .stp, .fab]

/-- What the end of a retraining may change. -/
abbrev retrainUse : List Part := memoryParts.append [.out, .host]

theorem within_execCalibrationInterval {channel : BitVec 10} {eyeW eyeH : Byte} :
    WithinNext [.chans] s (execCalibrationInterval channel eyeW eyeH s) :=
  .ite .rfl (within_eyeFound (within_setChan .rfl))

theorem within_execNonfiniteSlotToken {token : W64} : WithinNext [.course, .stp] s (execNonfiniteSlotToken token s) := by
  unfold execNonfiniteSlotToken
  split
  next t ht =>
    have harr : Within [.course, .stp] s t := within_arrive ht .rfl
    exact .ite harr (within_setStp harr)
  · exact Within.rfl

theorem within_execProgramDoneToken {token : W64} : WithinNext [.course, .stp] s (execProgramDoneToken token s) := by
  unfold execProgramDoneToken
  split
  next t ht =>
    have harr : Within [.course, .stp] s t := within_arrive ht .rfl
    exact .ite (within_setStp harr) harr
  · exact Within.rfl

theorem within_execTaskFaultToken {token : W64} : WithinNext [.course, .stp] s (execTaskFaultToken token s) := by
  unfold execTaskFaultToken
  split
  next t ht =>
    have harr : Within [.course, .stp] s t := within_arrive ht .rfl
    exact .ite (within_setStp harr) harr
  · exact Within.rfl

theorem within_execDeltaFormationComplete : WithinNext [.stp, .npx] s (execDeltaFormationComplete s) :=
  .ite .rfl (within_setStp (.npx .rfl))

theorem within_execRetrainStart {channel : BitVec 10} : WithinNext [.ctr, .chans] s (execRetrainStart channel s) := by
  unfold execRetrainStart
  dsimp only
  split
  · exact .rfl
  · exact .ite .rfl (.ite (.ite .rfl (within_bump (within_setChan .rfl))) (within_bump (within_setChan .rfl)))

theorem within_execLineTimerExpiry {timer : BitVec 3} : WithinNext [.regs, .course] s (execLineTimerExpiry timer s) :=
  .ite (within_fireTimer .rfl) .rfl

theorem within_execPortTrainingComplete {port lanes : BitVec 4} {credits : Bool} {peer : W16} :
    WithinNext [.tm, .fab] s (execPortTrainingComplete port lanes credits peer s) :=
  .ite .rfl (.ite (within_setPort .rfl) (within_setPath (within_forgivePort (within_setPort .rfl))))

theorem within_execLinkCreditTimeout {port : BitVec 4} : WithinNext [.ctr, .fab] s (execLinkCreditTimeout port s) :=
  .ite .rfl (within_bump (within_stayDown (within_setPort .rfl)))

theorem within_execTCheckInstant : WithinNext [.out, .stp, .fab] s (execTCheckInstant s) :=
  within_tryCheck .rfl

theorem within_execQuietSlot {channel : BitVec 10} {eyeW eyeH : Byte} :
    WithinNext [.ctr, .chans, .bud] s (execQuietSlot channel eyeW eyeH s) :=
  .ite
    .rfl
    (.ite .rfl (.ite (within_setChan (within_charge .rfl)) (within_eyeFound (within_setChan (within_charge .rfl)))))

theorem within_execWaitMaxExpiry {handle member : W16} :
    WithinNext [.regs, .ctr, .fab] s (execWaitMaxExpiry handle member s) := by
  unfold execWaitMaxExpiry
  split
  · exact .rfl
  · split
    · exact .rfl
    · exact .ite .rfl (within_excludeMember .rfl)

theorem within_execSmallCollWaitExpiry {handle : BitVec 2} {missing : List W16} :
    WithinNext [.regs, .ctr, .out] s (execSmallCollWaitExpiry handle missing s) :=
  .ite .rfl (within_emit (.foldl (fun _ _ => .ite .rfl (within_colEvent (within_bump .rfl))) .rfl))

theorem within_execTileFaultDetect {tile : BitVec 7} {cause : TileCause} {task : BitVec 13} :
    WithinNext [.ctr, .course, .slog, .tiles] s (execTileFaultDetect tile cause task s) :=
  .ite (within_fenceTile (.ite (within_dropMessage .rfl) .rfl)) .rfl

theorem within_execTaskLimitExpiry {tile : BitVec 7} {engine : Engine} :
    WithinNext [.ctr, .course, .slog, .tiles] s (execTaskLimitExpiry tile engine s) := by
  unfold execTaskLimitExpiry
  dsimp only
  split
  · exact .ite .rfl (within_fenceTile .rfl)
  · exact .rfl

theorem within_execBackupRootTakeover : WithinNext [.ctr, .out, .host, .tm] s (execBackupRootTakeover s) :=
  .ite .rfl (within_timeTree (.tm (within_enterHoldover .rfl)))

theorem within_execPtpMessageReceive {port : BitVec 4} {domain : Byte} {ptp : BitVec 96} :
    WithinNext [.ctr, .out, .host, .tm] s (execPtpMessageReceive port domain ptp s) :=
  .ite .rfl (within_timeTree (within_correct (.tm .rfl)))

theorem within_execPtpMasterLoss : WithinNext [.ctr, .out, .host, .tm] s (execPtpMasterLoss s) :=
  .ite .rfl (within_enterHoldover (within_bump (.tm .rfl)))

theorem within_execPauseFrameReceive {port : BitVec 4} {enable : Byte} {times : List W16} :
    WithinNext [.ctr, .out, .bud, .fab] s (execPauseFrameReceive port enable times s) :=
  .ite .rfl (within_pumpPort (within_setPort (within_bump .rfl)))

theorem within_execAckTimer {src : W16} {prio : BitVec 3} :
    WithinNext [.ctr, .out, .bud, .fab] s (execAckTimer src prio s) := by
  unfold execAckTimer
  split
  · exact .ite .rfl (within_sendAck (within_setRx .rfl))
  · exact .rfl

theorem within_execPauseTimeExpiry {port : BitVec 4} {prio : BitVec 3} :
    WithinNext [.ctr, .out, .bud, .fab] s (execPauseTimeExpiry port prio s) :=
  .ite .rfl (within_pumpPort (within_setPort .rfl))

theorem within_execTokenArrival {token : W64} :
    WithinNext [.ctr, .course, .free, .slog, .tiles] s (execTokenArrival token s) :=
  within_tileArrival .rfl

theorem within_execCreditArrival {src : Byte} {credit : W32} :
    WithinNext [.ctr, .course, .free, .slog, .tiles] s (execCreditArrival src credit s) :=
  within_tileArrival .rfl

theorem within_execStepBeginToken {token : W64} :
    WithinNext [.ctr, .course, .free, .slog, .tiles] s (execStepBeginToken token s) :=
  within_tileArrival .rfl

theorem within_execAbortToken {token : W64} :
    WithinNext [.ctr, .course, .free, .slog, .tiles] s (execAbortToken token s) :=
  within_tileArrival .rfl

theorem within_execFenceToken {token : W64} :
    WithinNext [.ctr, .course, .free, .slog, .tiles] s (execFenceToken token s) :=
  within_tileArrival .rfl

theorem within_execTaskStart {visit : TileVisit} :
    WithinNext [.upset, .ctr, .course, .slog, .tiles] s (execTaskStart visit s) :=
  .ite (within_sequencer (within_tileUpsets .rfl)) .rfl

theorem within_execRefreshPeriod {visit : ChannelVisit} :
    WithinNext [.upset, .ctr, .chans, .stackTab, .bud] s (execRefreshPeriod visit s) := by
  unfold execRefreshPeriod
  extract_lets g k s₁ c n per
  have hs₁ : Within [.upset, .ctr, .chans, .stackTab, .bud] s s₁ := .foldl (fun _ _ => within_treimUpset .rfl) .rfl
  refine .ite hs₁ ?_
  extract_lets
  exact .ite (within_bumpN (within_setChan hs₁)) (within_charge (within_setChan hs₁))

theorem within_execWindowOpen : WithinNext [.ctr, .out, .bud, .fab, .npx] s (execWindowOpen s) := by
  unfold execWindowOpen
  extract_lets u s₁ s₂ s₃ wanting s₄
  have hs₁ : Within [.ctr, .out, .bud, .fab, .npx] s s₁ := within_setNpx .rfl
  have hs₂ : Within [.ctr, .out, .bud, .fab, .npx] s s₂ := .ite (within_bump hs₁) hs₁
  have hs₃ : Within [.ctr, .out, .bud, .fab, .npx] s s₃ := .ite hs₂ (within_bump hs₂)
  have hs₄ : Within [.ctr, .out, .bud, .fab, .npx] s s₄ := .ite (within_tellSite hs₃) hs₃
  exact .ite .rfl (.ite (within_trySendDelta hs₁) (within_trySendDelta (within_sendStatus hs₄)))

theorem within_execPublicationSend : WithinNext [.ctr, .out, .bud, .fab, .npx] s (execPublicationSend s) := by
  unfold execPublicationSend
  split
  · exact .rfl
  · exact .ite .rfl (.ite (within_spread (within_objectToAll (within_setNpx .rfl))) (within_setNpx .rfl))

theorem within_execDeltaResend : WithinNext [.ctr, .out, .bud, .fab, .npx] s (execDeltaResend s) := by
  unfold execDeltaResend
  split
  · exact .rfl
  · exact .ite .rfl (within_sendStatus (within_deliverDelta (within_bump .rfl)))

theorem within_execNeighborDiscovery {port : BitVec 4} {src : BitVec 128} {icmp : List Byte} :
    WithinNext [.ctr, .out, .bud, .fab, .npx] s (execNeighborDiscovery port src icmp s) := by
  unfold execNeighborDiscovery
  refine .ite .rfl (.ite (within_bump .rfl) ?_)
  split
  · exact .ite .rfl (within_etherSend .rfl)
  · exact .ite .rfl (.foldl (fun _ _ => within_routeOut .rfl) (within_setNpx .rfl))
  · exact within_bump .rfl

theorem within_execCkptAbandon : WithinNext [.ctr, .out, .slog, .host, .ck] s (execCkptAbandon s) := by
  unfold execCkptAbandon
  split
  · exact .rfl
  · exact .ite .rfl (within_postEvent (within_faultEvent (.ck .rfl)))

theorem within_execBudgetPeriodBoundary :
    WithinNext [.regs, .ctr, .out, .host, .bud, .fab] s (execBudgetPeriodBoundary s) := by
  unfold execBudgetPeriodBoundary
  refine .ite .rfl ?_
  extract_lets p s₁ s₂ s₃ b s₄
  have hs₁ : Within [.regs, .ctr, .out, .host, .bud, .fab] s s₁ := .ite (within_bump .rfl) .rfl
  have hs₂ : Within [.regs, .ctr, .out, .host, .bud, .fab] s s₂ := within_applyPeriod (within_applyBudget hs₁)
  have hs₃ : Within [.regs, .ctr, .out, .host, .bud, .fab] s s₃ := .ite (within_bump hs₂) hs₂
  have hs₄ : Within [.regs, .ctr, .out, .host, .bud, .fab] s s₄ := .bud (s := s₃) hs₃
  exact .foldl (fun _ _ => within_portPeriod .rfl) hs₄

theorem within_execObjectHoldExpiry : WithinNext [.regs, .ctr, .out, .bud, .fab, .npx] s (execObjectHoldExpiry s) :=
  .ite (within_pubFailed (within_setNpx (within_bumpN .rfl))) (within_setNpx (within_bumpN .rfl))

theorem within_execCodebookRetrain {family : BitVec 4} :
    WithinNext [.ctr, .out, .bud, .cbl, .fab, .npx] s (execCodebookRetrain family s) := by
  unfold execCodebookRetrain
  dsimp only
  split
  · exact .ite .rfl (within_spread (within_objectToAll (within_keepBook .rfl)))
  · exact .rfl

theorem within_execDeltaEncodeComplete :
    WithinNext [.ctr, .out, .free, .bud, .cbl, .fab, .npx] s (execDeltaEncodeComplete s) := by
  unfold execDeltaEncodeComplete
  refine .ite .rfl ?_
  split
  · exact .rfl
  · exact within_trySendDelta (within_setNpx (.foldlSnd (fun _ _ => within_setOuter (.free .rfl)) .rfl))

theorem within_execLostChannelRebuild {channel : BitVec 10} :
    WithinNext [.mem, .poison, .upset, .ctr, .chans, .stackTab, .bud] s (execLostChannelRebuild channel s) :=
  .ite
    .rfl
    (within_setChan (within_bumpN (.foldl
      (fun _ _ => within_poisonLine .rfl)
      (.foldl (fun _ _ => within_charge .rfl) .rfl))))

theorem within_execTimeExchangeSend {path : BitVec 5} :
    WithinNext [.ctr, .out, .host, .bud, .tm, .fab, .npx] s (execTimeExchangeSend path s) :=
  .ite
    .rfl
    (.ite
      (.ite .rfl (within_sendTimeFrame (within_beginExchange .rfl)))
      (.ite (within_sendPacket (within_beginExchange .rfl)) .rfl))

theorem within_execFlowIdleTimeout {dst : W16} {prio : BitVec 3} :
    WithinNext frameParts s (execFlowIdleTimeout dst prio s) := by
  unfold execFlowIdleTimeout
  dsimp only
  split
  · exact Within.rfl
  · refine .ite .rfl (.ite ?_ (within_setTx (within_sendCtrl .rfl)))
    split
    · exact within_setTx (within_sendCtrl .rfl)
    · exact within_sendCtrl .rfl

theorem within_execUnreachableProbe {dst : W16} :
    WithinNext frameParts s (execUnreachableProbe dst s) := by
  unfold execUnreachableProbe
  refine .ite .rfl ?_
  dsimp only
  split
  · exact within_resendFrom (.fab .rfl)
  · exact .ite (.fab .rfl) (within_sendFlow (.fab .rfl))

theorem within_execCkptCopyComplete :
    WithinNext frameParts s (execCkptCopyComplete s) := by
  unfold execCkptCopyComplete
  split
  · exact .rfl
  · exact .ite .rfl (within_faultEvent (.ck (within_sendSector .rfl)))

theorem within_execCandidacyTimeout :
    WithinNext [.regs, .ctr, .out, .bud, .cbl, .fab, .npx] s (execCandidacyTimeout s) :=
  .ite .rfl (.ite (within_becomeHome (within_setNpx .rfl)) (within_decide5 (within_tellAll (within_setNpx .rfl))))

theorem within_execCoreWatchdogTimeout {core : BitVec 3} :
    WithinNext [.ctr, .out, .free, .slog, .host, .ck, .pwr] s (execCoreWatchdogTimeout core s) :=
  within_coreFail .rfl

theorem within_execCoreEccFault {core : BitVec 3} :
    WithinNext [.ctr, .out, .free, .slog, .host, .ck, .pwr] s (execCoreEccFault core s) :=
  within_coreFail .rfl

theorem within_execGatherAcquire {token : W64} :
    WithinNext [.mem, .upset, .ctr, .course, .out, .free, .piers, .fab] s
      (execGatherAcquire token s) := by
  unfold execGatherAcquire
  dsimp only
  split
  · exact Within.rfl
  next t ht =>
    have harr : Within [.mem, .upset, .ctr, .course, .out, .free, .piers, .fab] s t := within_arrive ht .rfl
    refine .ite harr ?_
    split
    · exact harr
    · split
      · exact within_gatherReply (within_setGather harr)
      · exact within_gatherStart (within_setGather harr)
      · exact .ite (within_bump (within_setGather harr)) (within_setGather harr)

theorem within_execGatherRelease {token : W64} :
    WithinNext [.mem, .upset, .ctr, .course, .out, .free, .piers, .fab] s
      (execGatherRelease token s) := by
  unfold execGatherRelease
  dsimp only
  split
  · exact Within.rfl
  next t ht =>
    have harr : Within [.mem, .upset, .ctr, .course, .out, .free, .piers, .fab] s t := within_arrive ht .rfl
    refine .ite harr ?_
    split
    · exact harr
    · exact within_gatherRetry (within_setGather harr)

theorem within_execQueueCreditReturn {src : Byte} {credit : W32} :
    WithinNext (frameParts.append [.stp]) s
      (execQueueCreditReturn src credit s) := by
  unfold execQueueCreditReturn
  split
  · exact Within.rfl
  next t ht =>
    have harr : Within (frameParts.append [.stp]) s t :=
      within_arrive ht .rfl
    refine .ite harr (.ite (within_bump harr) ?_)
    dsimp only
    split
    · exact .ite (within_send (within_setStageQueue harr)) (within_sendFrame (within_setStageQueue harr))
    · exact harr

theorem within_execPatrolScrub {stack : BitVec 3} {error : List Byte} :
    WithinNext lineParts s (execPatrolScrub stack error s) := by
  unfold execPatrolScrub
  refine .ite .rfl ?_
  split
  · exact .rfl
  · split
    · exact within_fetchLine (.ite
        (within_bump (within_setStack .rfl))
        (within_addUpset (within_bump (within_setStack .rfl))))
    · exact .rfl

theorem within_execPauseWatchdogExpiry {port : BitVec 4} {prio : BitVec 3} :
    WithinNext (frameParts.append [.regs]) s (execPauseWatchdogExpiry port prio s) :=
  .ite .rfl (within_excludeAllUnreachable (within_stayDown (within_portDown (within_bump .rfl))))

theorem within_execLaneFail {port : BitVec 4} {lane : BitVec 2} :
    WithinNext (frameParts.append [.regs]) s (execLaneFail port lane s) :=
  .ite
    .rfl
    (within_excludeAllUnreachable (.ite
      (within_setPort (within_portDown (within_bump .rfl)))
      (within_setPort (within_stayDown (within_portDown (within_bump .rfl))))))

theorem within_execRetransmitTimeout {dst : W16} {prio : BitVec 3} :
    WithinNext (frameParts.append [.regs]) s (execRetransmitTimeout dst prio s) := by
  unfold execRetransmitTimeout
  dsimp only
  split
  · exact Within.rfl
  · split
    · exact Within.rfl
    · exact .ite
        .rfl
        (within_excludeAllUnreachable (.ite
          (within_makeUnreachable (within_setTx (within_bump .rfl)))
          (.ite
            (within_repinFlow (within_setTx (within_setTx (within_bump .rfl))))
            (within_resendFrom (within_setTx (within_bump .rfl))))))

theorem within_execPoolAgeRelease {visit : PierVisit} :
    WithinNext memoryParts s (execPoolAgeRelease visit s) :=
  within_poolDrain (.foldl (fun _ _ => within_plinthUpset .rfl) .rfl)

theorem within_execStickyLogMirror :
    WithinNext memoryParts s (execStickyLogMirror s) :=
  .ite .rfl (.foldl (fun _ _ => .ite .rfl (within_fwWrite .rfl)) (.slog .rfl))

theorem within_execGatherFillComplete {pier : BitVec 2} {slot : BitVec 6} {data : List Byte} :
    WithinNext (memoryParts.append [.course]) s (execGatherFillComplete pier slot data s) := by
  unfold execGatherFillComplete
  dsimp only
  split
  · exact .rfl
  · exact .ite
      .rfl
      (.foldl (fun _ _ => within_gatherReply .rfl) (within_setGather (within_setPier (within_writeTo .rfl))))

theorem within_execRetrainComplete {channel : BitVec 10} {lanes : List LaneEye} {tsvFailed : List (BitVec 5)} :
    WithinNext retrainUse s (execRetrainComplete channel lanes tsvFailed s) := by
  unfold execRetrainComplete
  extract_lets g k c
  refine .ite .rfl ?_
  split
  next ok t htrain =>
    have ht : Within retrainUse s t := .snd htrain (within_trainChannel .rfl)
    extract_lets c' s₁
    have hs₁ : Within retrainUse s s₁ := within_setChan ht
    refine .ite (within_loseChannel hs₁) ?_
    exact within_poolDrain (within_charge (.ite (within_postEvent hs₁) hs₁))

theorem within_execCheckWordReady :
    WithinNext (accessParts.append [.out, .stp, .fab]) s (execCheckWordReady s) :=
  .ite
    .rfl
    (within_tryCheck (within_setStp (within_writeRecord (.ite
      (within_bump (.ite .rfl (within_reduceAll .rfl)))
      (.ite .rfl (within_reduceAll .rfl))))))

theorem within_execPartComplete {handle : W16} :
    WithinNext (accessParts.append [.regs, .out, .fab, .ck]) s0 (execPartComplete handle s0) := by
  unfold execPartComplete
  extract_lets s hn
  have hs0 : Within (accessParts.append [.regs, .out, .fab, .ck]) s0 s := within_excludeAllUnreachable .rfl
  split
  · exact hs0
  · split
    · exact hs0
    · exact .ite
        hs0
        (.ite (.foldl (fun _ _ => .ite .rfl (within_sendResults .rfl)) (within_setRun hs0)) (within_setRun hs0))

theorem within_execUpdateStart : WithinNext updateUse s (execUpdateStart s) := by
  have hd (t : State) : Within updateUse t (setStp (fun p => { p with waitedDelta := true }) (bump t (cStep 9))) :=
    within_setStp (within_bump .rfl)
  have hc (t : State) : Within updateUse t (setStp (fun p => { p with waitedCkpt := true }) (bump t (cStep 10))) :=
    within_setStp (within_bump .rfl)
  have hr (t : State) : Within updateUse t (setStp (fun p => { p with waitedRepair :=
    true }) (faultEvent 8 0 0 0 t)) :=
    within_setStp (within_faultEvent .rfl)
  unfold execUpdateStart
  refine .ite .rfl ?_
  split
  next d c r hw =>
    extract_lets once s₁ s₂ s₃
    have hs₁ : Within updateUse s s₁ := .ite (hd s) .rfl
    have hs₂ : Within updateUse s s₂ := .ite (hs₁.trans (hc s₁)) hs₁
    have hs₃ : Within updateUse s s₃ := .ite (hs₂.trans (hr s₂)) hs₂
    exact .ite hs₃ (.foldl (fun _ _ => within_startSums .rfl) (within_setStp hs₃))

theorem within_execTCommitInstant :
    WithinNext (accessParts.append [.regs, .out, .host, .tensors, .stp, .fab]) s (execTCommitInstant s) :=
  within_tryCommit .rfl

/-- Settles O56: each event's command changes at most the parts that the lemma about it names. -/
theorem eventFrames : Obligations.EventFrames := by
  unfold Obligations.EventFrames
  intro i s t hx
  cases i with
  | calibrationInterval => exact within_execCalibrationInterval.eq hx
  | nonfiniteSlotToken => exact within_execNonfiniteSlotToken.eq hx
  | programDoneToken => exact within_execProgramDoneToken.eq hx
  | taskFaultToken => exact within_execTaskFaultToken.eq hx
  | deltaFormationComplete => exact within_execDeltaFormationComplete.eq hx
  | retrainStart => exact within_execRetrainStart.eq hx
  | lineTimerExpiry => exact within_execLineTimerExpiry.eq hx
  | portTrainingComplete => exact within_execPortTrainingComplete.eq hx
  | linkCreditTimeout => exact within_execLinkCreditTimeout.eq hx
  | tCheckInstant => exact within_execTCheckInstant.eq hx
  | quietSlot => exact within_execQuietSlot.eq hx
  | waitMaxExpiry => exact within_execWaitMaxExpiry.eq hx
  | smallCollWaitExpiry => exact within_execSmallCollWaitExpiry.eq hx
  | tileFaultDetect => exact within_execTileFaultDetect.eq hx
  | taskLimitExpiry => exact within_execTaskLimitExpiry.eq hx
  | backupRootTakeover => exact within_execBackupRootTakeover.eq hx
  | ptpMessageReceive => exact within_execPtpMessageReceive.eq hx
  | ptpMasterLoss => exact within_execPtpMasterLoss.eq hx
  | pauseFrameReceive => exact within_execPauseFrameReceive.eq hx
  | ackTimer => exact within_execAckTimer.eq hx
  | pauseTimeExpiry => exact within_execPauseTimeExpiry.eq hx
  | tokenArrival => exact within_execTokenArrival.eq hx
  | creditArrival => exact within_execCreditArrival.eq hx
  | stepBeginToken => exact within_execStepBeginToken.eq hx
  | abortToken => exact within_execAbortToken.eq hx
  | fenceToken => exact within_execFenceToken.eq hx
  | taskStart => exact within_execTaskStart.eq hx
  | refreshPeriod => exact within_execRefreshPeriod.eq hx
  | windowOpen => exact within_execWindowOpen.eq hx
  | publicationSend => exact within_execPublicationSend.eq hx
  | deltaResend => exact within_execDeltaResend.eq hx
  | neighborDiscovery => exact within_execNeighborDiscovery.eq hx
  | ckptAbandon => exact within_execCkptAbandon.eq hx
  | budgetPeriodBoundary => exact within_execBudgetPeriodBoundary.eq hx
  | objectHoldExpiry => exact within_execObjectHoldExpiry.eq hx
  | codebookRetrain => exact within_execCodebookRetrain.eq hx
  | deltaEncodeComplete => exact within_execDeltaEncodeComplete.eq hx
  | lostChannelRebuild => exact within_execLostChannelRebuild.eq hx
  | timeExchangeSend => exact within_execTimeExchangeSend.eq hx
  | flowIdleTimeout => exact within_execFlowIdleTimeout.eq hx
  | unreachableProbe => exact within_execUnreachableProbe.eq hx
  | ckptCopyComplete => exact within_execCkptCopyComplete.eq hx
  | candidacyTimeout => exact within_execCandidacyTimeout.eq hx
  | coreWatchdogTimeout => exact within_execCoreWatchdogTimeout.eq hx
  | coreEccFault => exact within_execCoreEccFault.eq hx
  | gatherAcquire => exact within_execGatherAcquire.eq hx
  | gatherRelease => exact within_execGatherRelease.eq hx
  | queueCreditReturn => exact within_execQueueCreditReturn.eq hx
  | patrolScrub => exact within_execPatrolScrub.eq hx
  | pauseWatchdogExpiry => exact within_execPauseWatchdogExpiry.eq hx
  | laneFail => exact within_execLaneFail.eq hx
  | retransmitTimeout => exact within_execRetransmitTimeout.eq hx
  | poolAgeRelease => exact within_execPoolAgeRelease.eq hx
  | stickyLogMirror => exact within_execStickyLogMirror.eq hx
  | gatherFillComplete => exact within_execGatherFillComplete.eq hx
  | retrainComplete => exact within_execRetrainComplete.eq hx
  | checkWordReady => exact within_execCheckWordReady.eq hx
  | partComplete => exact within_execPartComplete.eq hx
  | updateStart => exact within_execUpdateStart.eq hx
  | tCommitInstant => exact within_execTCommitInstant.eq hx
  | _ => trivial

end Sys2Proof.Machine
end

