-- ==== Sys2Proof/Proofs/MemoryStores.lean ====
section
/-!
SUPPORT. Which bytes of device memory a write changes (R22, R182, R228 to R231): with no bit errors standing, no access
corrects or poisons a line, so reads and pools change no byte and a write changes those it names.
-/

-- Many short proofs: elaborated in turn, so that they do not wait in a thread each for the kernel's check.
set_option Elab.async false

namespace Sys2Proof.Machine

/-- From `s` to `t` no byte of device memory changes outside `n` bytes from `a`, and no bit errors stand in `t`. -/
structure StoredIn (a n : Nat) (s t : State) : Prop where
  clean : Clean t
  outside : ∀ b, b < a ∨ a + n ≤ b → byteAt t b = byteAt s b

variable {a n : Nat} {s₀ s t : State}

/-! ## The relation -/

theorem StoredIn.refl (h : Clean s) : StoredIn a n s s := ⟨h, fun _ _ => rfl⟩

/-- The state that a command answers is its next one. -/
theorem StoredIn.next (h : StoredIn a n s₀ s) (ht : (.next s : Host.Outcome State Fault Refusal) = .next t) :
    StoredIn a n s₀ t :=
  Host.Outcome.next.inj ht ▸ h

/-- A range of no bytes leaves every byte. -/
theorem StoredIn.bytes (h : StoredIn 0 0 s t) (b : Nat) : byteAt t b = byteAt s b := h.outside b (by omega)

/-- What leaves memory, bit errors and piers alone stores nothing. -/
theorem StoredIn.within {ps : List Part} (hs : StoredIn a n s₀ s) (h : Within ps s t)
    (hp : Part.mem ∉ ps ∧ Part.upset ∉ ps ∧ Part.piers ∉ ps := by decide) : StoredIn a n s₀ t := by
  obtain ⟨hmem, hupset, hpiers⟩ := hp
  have hm : t.mem = s.mem := h .mem hmem
  have hu : t.upset = s.upset := h .upset hupset
  have hr : t.piers = s.piers := h .piers hpiers
  refine ⟨⟨hu.trans hs.clean.1, fun p => ?_⟩, fun b hb => ?_⟩
  · rw [pierOf, hr]
    exact hs.clean.2 p
  · rw [byteAt, hm]
    exact hs.outside b hb

theorem StoredIn.ite {c : Prop} [Decidable c] (hs : StoredIn a n s₀ s) (ht : StoredIn a n s₀ t) :
    StoredIn a n s₀ (if c then s else t) := by
  split
  · exact hs
  · exact ht

theorem StoredIn.iteSnd {α : Type} {c : Prop} [Decidable c] {x y : α × State} (hx : StoredIn a n s₀ x.2)
    (hy : StoredIn a n s₀ y.2) : StoredIn a n s₀ (if c then x else y).2 := by
  split
  · exact hx
  · exact hy

theorem StoredIn.iteRes {c : Prop} [Decidable c] {x y : KRes} (hx : StoredIn a n s₀ x.s)
    (hy : StoredIn a n s₀ y.s) : StoredIn a n s₀ (if c then x else y).s := by
  split
  · exact hx
  · exact hy

theorem StoredIn.foldl {β : Type} {f : State → β → State} {l : List β} (h : StoredIn a n s₀ s)
    (hf : ∀ x ∈ l, ∀ t, StoredIn a n s₀ t → StoredIn a n s₀ (f t x)) : StoredIn a n s₀ (l.foldl f s) :=
  List.foldlRecOn l f h fun t ht x hx => hf x hx t ht

/-! ## What one access writes -/

theorem storedIn_storeBytes {c : Nat} {bs : List Byte} (hs : StoredIn a n s₀ s) (ha : a ≤ c)
    (hn : c + bs.length ≤ a + n) : StoredIn a n s₀ (storeBytes s c bs) := by
  refine ⟨hs.clean, fun b hb => ?_⟩
  rw [byteAt_storeBytes, if_neg (by omega)]
  exact hs.outside b hb

/-- Clearing a line's bit errors leaves an empty table of them empty. -/
theorem storedIn_clearUpset {c : Nat} (hs : StoredIn a n s₀ s) : StoredIn a n s₀ (clearUpset c s) := by
  refine ⟨⟨?_, hs.clean.2⟩, hs.outside⟩
  simp [clearUpset, hs.clean.1, sput, serase]

theorem storedIn_setPier {p : Nat} {v : Pier} (hs : StoredIn a n s₀ s)
    (hv : v.pool.all (fun e => e.errs.isEmpty) = true) : StoredIn a n s₀ (setPier s p v) := by
  refine ⟨⟨hs.clean.1, fun u => ?_⟩, hs.outside⟩
  rw [pierOf_setPier]
  split
  · exact hv
  · exact hs.clean.2 u

theorem storedIn_poolSet {p g : Nat} {e : Option PoolEntry} (hs : StoredIn a n s₀ s)
    (he : ∀ x, e = some x → x.errs.isEmpty = true) : StoredIn a n s₀ (poolSet p g e s) := by
  refine storedIn_setPier hs (List.all_eq_true.mpr fun x hx => ?_)
  obtain ⟨y, hy, hxy⟩ := List.mem_filterMap.mp hx
  split at hxy
  · exact he x hxy
  · rw [← Option.some.inj hxy]
    exact List.all_eq_true.mp (hs.clean.2 p) y hy

theorem storedIn_bump {c : Nat} (hs : StoredIn a n s₀ s) : StoredIn a n s₀ (bump s c) :=
  hs.within (within_bump (ps := [.ctr]) .rfl)

theorem storedIn_charge {cls m : Nat} {r : Resource} (hs : StoredIn a n s₀ s) : StoredIn a n s₀ (charge cls r m s) :=
  hs.within (within_charge (ps := [.ctr, .bud]) .rfl)

/-! ## With no bit errors standing -/

section NoErrors
variable (hc : Clean s)
include hc

theorem errs_poolEntry {p g : Nat} {e : PoolEntry} (he : poolEntry s p g = some e) : e.errs.isEmpty = true :=
  List.all_eq_true.mp (hc.2 p) e (List.mem_of_find?_eq_some he)

theorem poolCheck_of_clean (p g : Nat) : poolCheck p g s = s := by
  unfold poolCheck
  split
  · rfl
  · next e he => rw [if_pos (errs_poolEntry hc he)]

theorem decodeAt_of_clean (k c l : Nat) :
    decodeAt s k c l = if sget false s.poison (l / 64) then .poison else .good := by
  simp [decodeAt, hc.1, sget]

/-- A line whose stripe lost no other channel is rebuilt. -/
theorem rebuildLine_of_clean {cls : Nat} {corbel : Bool} {k c l : Nat}
    (hlost : (stripeMates s k c).any (chanLost s k) = false) :
    rebuildLine cls corbel k c l s =
      (.rebuilt, countRebuild cls corbel k c (if mateHeld s k c then bump s (cTrm k 0x140) else s)) := by
  have hbad (u : State) (hu : u.upset = []) : mateBad u k c l = false := by simp [mateBad, hu]
  have hre : rebuildable (if mateHeld s k c then bump s (cTrm k 0x140) else s) k c l = true := by
    split
    · rw [rebuildable, hbad (bump s _) hc.1, Bool.not_false, Bool.and_true, Bool.not_eq_true']
      exact hlost
    · rw [rebuildable, hbad s hc.1, hlost]
      rfl
  unfold rebuildLine
  dsimp only
  rw [if_pos hre]

theorem secded_of_clean (l : Nat) (ws : List Nat) : secded (sget 0 s.upset l) ws = (0, 0, 0) := by
  rw [hc.1]
  rfl

end NoErrors

/-! ## Lines -/

theorem storedIn_readLine {cls : Nat} {corbel : Bool} {k c q l : Nat} (hs : StoredIn a n s₀ s) :
    StoredIn a n s₀ (readLine cls corbel k c q l s).2 := by
  have hcharged : StoredIn a n s₀ (charge cls (chanRes corbel k c) 1 s) := storedIn_charge hs
  rw [readLine, decodeAt_of_clean hs.clean]
  split
  · exact hcharged.within (ps := [.ctr, .cbl]) (within_markEcc (within_bump .rfl))
  · exact hcharged

theorem storedIn_readPoison {k l : Nat} (hs : StoredIn a n s₀ s) : StoredIn a n s₀ (readPoison k l s).2 :=
  hs.within (within_readPoison (ps := [.ctr, .cbl]) .rfl)

theorem storedIn_countRebuild {cls : Nat} {corbel : Bool} {k c : Nat} (hs : StoredIn a n s₀ s) :
    StoredIn a n s₀ (countRebuild cls corbel k c s) := hs.within (within_countRebuild (ps := [.ctr, .bud]) .rfl)

theorem storedIn_fetchLine {cls : Nat} {corbel : Bool} {l k c q : Nat} (hs : StoredIn a n s₀ s) :
    StoredIn a n s₀ (fetchLine cls corbel l k c q s).2 := by
  have hrebuild (hgone : ¬(sget false s.poison (l / 64) || (stripeMates s k c).any (chanLost s k)) = true) :
      StoredIn a n s₀ (rebuildLine cls corbel k c l s).2 := by
    rw [rebuildLine_of_clean hs.clean (Bool.or_eq_false_iff.mp (Bool.not_eq_true _ ▸ hgone)).2]
    exact storedIn_countRebuild (.ite (storedIn_bump hs) hs)
  unfold fetchLine
  refine .iteSnd (storedIn_readPoison hs) (.iteSnd (.iteSnd (storedIn_readPoison hs) (.iteSnd
    (.iteSnd (storedIn_readPoison hs) (storedIn_readLine hs)) ?_))
    (.iteSnd (.iteSnd (storedIn_countRebuild hs) (storedIn_readLine (storedIn_bump hs))) (storedIn_readLine hs)))
  split
  · exact storedIn_readPoison hs
  · next hgone => exact hrebuild hgone

/-- A line that reaches Treim leaves every byte: what stands in memory already holds the bytes its mask names. -/
theorem storedIn_settleLine {cls : Nat} {corbel held : Bool} {l m k c q : Nat} (hs : StoredIn a n s₀ s) :
    StoredIn a n s₀ (settleLine cls corbel held l m k c q s) := by
  unfold settleLine
  refine .ite (storedIn_bump hs) ?_
  split
  next k' c' q' hplace =>
    extract_lets parity cleared new
    have hparity {t : State} (ht : StoredIn a n s₀ t) : StoredIn a n s₀ (parity t) :=
      .ite (storedIn_charge (.ite (storedIn_charge ht) ht)) ht
    have hwritten {t : State} (ht : StoredIn a n s₀ t) :
        StoredIn a n s₀ (parity (charge cls (chanRes corbel k' c') 1 (clearUpset l t))) :=
      hparity (storedIn_charge (storedIn_clearUpset ht))
    have hcleared : StoredIn a n s₀ cleared :=
      .ite (storedIn_bump (hs.within (within_setPoison (ps := [.poison]) .rfl))) hs
    refine .ite (hwritten hcleared) (.ite (storedIn_bump hs) ?_)
    have hread {a n : Nat} {s₀ : State} (hs : StoredIn a n s₀ s) : StoredIn a n s₀
        (if held then readLine cls corbel k' c' q' l s else fetchLine cls corbel l k c q s).2 :=
      .iteSnd (storedIn_readLine hs) (storedIn_fetchLine hs)
    split
    next f t hft =>
      rw [hft] at hread
      have hnow : bytesAt t l 64 = new :=
        List.map_congr_left fun i _ => (hread (.refl hs.clean) : StoredIn 0 0 s t).bytes (l + i)
      dsimp only
      rw [if_pos hnow]
      exact .ite (hread hs) (hwritten (hread hs))

/-! ## The pool -/

theorem storedIn_settleEntry {e : PoolEntry} (hs : StoredIn a n s₀ s) : StoredIn a n s₀ (settleEntry e s) := by
  unfold settleEntry
  split
  · exact hs
  · exact .foldl hs fun _ _ _ ht => .ite ht (storedIn_settleLine ht)

theorem storedIn_releaseOne {p g : Nat} (hs : StoredIn a n s₀ s) : StoredIn a n s₀ (releaseOne p g s) := by
  rw [releaseOne, poolCheck_of_clean hs.clean]
  split
  · exact hs
  · next e he =>
    refine .ite (storedIn_poolSet hs fun x hx => ?_) (storedIn_settleEntry (storedIn_poolSet hs fun x hx => ?_))
    · have herrs : e.errs.isEmpty = true := errs_poolEntry hs.clean he
      rw [← Option.some.inj hx]
      exact herrs
    · cases hx

theorem storedIn_poolRelease {p g : Nat} (hs : StoredIn a n s₀ s) : StoredIn a n s₀ (poolRelease p g s) := by
  unfold poolRelease
  split
  · exact hs
  · split
    · exact storedIn_releaseOne hs
    · exact .foldl
        (.foldl (.ite (storedIn_bump hs) (storedIn_bump (storedIn_bump hs))) fun _ _ _ ht => storedIn_charge ht)
        fun _ _ _ ht => storedIn_releaseOne ht

theorem storedIn_poolFullStripe {p g : Nat} (hs : StoredIn a n s₀ s) : StoredIn a n s₀ (poolFullStripe p g s) := by
  unfold poolFullStripe
  split
  · exact hs
  · exact .ite (storedIn_poolRelease hs) hs

theorem storedIn_poolShed {p f : Nat} (hs : StoredIn a n s₀ s) : StoredIn a n s₀ (poolShed p f s) := by
  induction f generalizing s with
  | zero => exact hs
  | succ f ih =>
    refine .ite hs ?_
    split
    · exact ih (storedIn_poolRelease hs)
    · exact hs

theorem storedIn_poolPut {cls c m k ch q : Nat} (hs : StoredIn a n s₀ s) :
    StoredIn a n s₀ (poolPut cls c m k ch q s) := by
  unfold poolPut
  dsimp only
  split
  · next e he =>
    refine storedIn_poolShed (storedIn_poolFullStripe (storedIn_poolSet
      (.ite (.ite (storedIn_bump hs) (storedIn_bump hs)) hs) fun x hx => ?_))
    have herrs : e.errs.isEmpty = true := errs_poolEntry hs.clean he
    rw [← Option.some.inj hx]
    exact herrs
  · have hadded {t : State} (ht : StoredIn a n s₀ t) {e : PoolEntry} (he : e.errs.isEmpty = true) :
        StoredIn a n s₀ (setPier t (k / 2) { pierOf t (k / 2) with pool := (pierOf t (k / 2)).pool ++ [e] }) :=
      storedIn_setPier ht (by simpa [List.all_append, he] using ht.clean.2 (k / 2))
    exact .ite (storedIn_settleLine (storedIn_bump hs))
      (storedIn_poolShed (storedIn_poolFullStripe (hadded (.ite (storedIn_bump hs) hs) rfl)))

/-! ## The cache -/

/-- What a pier holds beside its pool. -/
theorem storedIn_setPier_samePool {p : Nat} {v : Pier} (hs : StoredIn a n s₀ s) (hv : v.pool = (pierOf s p).pool) :
    StoredIn a n s₀ (setPier s p v) := storedIn_setPier hs (by rw [hv]; exact hs.clean.2 p)

theorem storedIn_cacheFill {p l : Nat} (hs : StoredIn a n s₀ s) : StoredIn a n s₀ (cacheFill p l s) :=
  .ite (storedIn_setPier_samePool hs rfl)
    (storedIn_setPier_samePool (hs.within (within_free32 (ps := [.free]) .rfl)) rfl)

theorem storedIn_cacheWrite {p c m : Nat} (hs : StoredIn a n s₀ s) : StoredIn a n s₀ (cacheWrite p c m s) := by
  unfold cacheWrite
  dsimp only
  split
  · exact hs
  · exact .ite hs (storedIn_setPier_samePool hs rfl)

theorem storedIn_cacheFetch {p cls l k c q : Nat} (hs : StoredIn a n s₀ s) :
    StoredIn a n s₀ (cacheFetch p cls l k c q s).2 :=
  .ite (storedIn_cacheFill (storedIn_fetchLine hs)) (storedIn_fetchLine hs)

theorem storedIn_cacheRead {p cls l m k c q : Nat} (hs : StoredIn a n s₀ s) :
    StoredIn a n s₀ (cacheRead p cls l m k c q s).2 := by
  have hcounted {i ce ue : Nat} : StoredIn a n s₀ (countPlnEcc p l ce ue (bump s i)) :=
    hs.within (within_countPlnEcc (ps := [.ctr, .slog]) (within_bump .rfl))
  unfold cacheRead
  refine .iteSnd (storedIn_fetchLine hs) ?_
  split
  · exact storedIn_cacheFetch (storedIn_bump hs)
  · exact .iteSnd (.ite hcounted (storedIn_setPier_samePool hcounted rfl))
      (storedIn_cacheFetch (storedIn_setPier_samePool hcounted rfl))

/-! ## Reads -/

theorem storedIn_readScratch {p r g c m : Nat} (hs : StoredIn a n s₀ s) :
    StoredIn a n s₀ (readScratch p r g c m s).2 := by
  rw [readScratch, secded_of_clean hs.clean]
  exact hs

theorem storedIn_readTileMem {u off c m : Nat} (hs : StoredIn a n s₀ s) :
    StoredIn a n s₀ (readTileMem u off c m s).2 := by
  rw [readTileMem, secded_of_clean hs.clean]
  exact hs

theorem storedIn_readPiece {corbel : Bool} {cls c m : Nat} {unit : Bool} (hs : StoredIn a n s₀ s) :
    StoredIn a n s₀ (readPiece corbel cls c m unit s).2 := by
  unfold readPiece
  split
  · split
    · exact hs
    · dsimp only
      rw [poolCheck_of_clean hs.clean]
      have hunit {c : Prop} [Decidable c] {r : Resource} : StoredIn a n s₀ (if c then charge cls r 1 s else s) :=
        .ite (storedIn_charge hs) hs
      exact .iteSnd (storedIn_fetchLine hs)
        (.iteSnd hunit (.iteSnd (storedIn_cacheRead hunit) (storedIn_fetchLine hunit)))
  · exact storedIn_readScratch (.ite (storedIn_charge hs) hs)
  · exact storedIn_readTileMem hs
  · exact hs

theorem storedIn_readPieces {ag : Agent} {cls c m : Nat} (hs : StoredIn a n s₀ s) :
    StoredIn a n s₀ (readPieces ag cls c m s).2 := by
  unfold readPieces
  exact List.foldlRecOn (motive := fun r : List Nat × State => StoredIn a n s₀ r.2) _ _ hs
    fun _ hr _ _ => .iteSnd hr (storedIn_readPiece hr)

theorem storedIn_countUnmapped {c : Nat} (hs : StoredIn a n s₀ s) : StoredIn a n s₀ (countUnmapped c s) :=
  hs.within (within_countUnmapped (ps := [.ctr, .slog]) .rfl)

theorem storedIn_readDev {ag : Agent} {cls c m : Nat} (hs : StoredIn a n s₀ s) :
    StoredIn a n s₀ (readDev ag cls c m s).2 := by
  unfold readDev
  extract_lets bad
  cases bad with
  | nil => exact storedIn_readPieces hs
  | cons l ls => exact storedIn_countUnmapped (storedIn_readPieces hs)

/-! ## Writes -/

theorem storedIn_writePiece {corbel : Bool} {cls c : Nat} {bs : List Byte} {unit : Bool} (hs : StoredIn a n s₀ s)
    (ha : a ≤ c) (hn : c + bs.length ≤ a + n) : StoredIn a n s₀ (writePiece corbel cls c bs unit s) := by
  unfold writePiece
  extract_lets s₁
  have hs₁ : StoredIn a n s₀ s₁ := storedIn_storeBytes hs ha hn
  have hunit {c : Prop} [Decidable c] {r : Resource} : StoredIn a n s₀ (if c then charge cls r 1 s₁ else s₁) :=
    .ite (storedIn_charge hs₁) hs₁
  have hsram {t : State} (ht : StoredIn a n s₀ t) : StoredIn a n s₀ (writeSram c bs.length t) := by
    rw [writeSram, ht.clean.1]
    exact ht
  split
  · split
    · exact hs₁
    · exact .ite (storedIn_settleLine hs₁)
        (.ite (storedIn_poolPut (.ite (storedIn_cacheWrite hunit) hunit))
          (storedIn_settleLine (.ite (storedIn_cacheWrite hunit) hunit)))
  · exact hsram hunit
  · exact hsram hs₁
  · exact hs₁

theorem chunksAux_bound {m f i : Nat} {bs c : List Byte} (h : (chunksAux m f bs)[i]? = some c) :
    m * i < bs.length ∧ m * i + c.length ≤ bs.length := by
  induction f generalizing bs i with
  | zero => simp [chunksAux] at h
  | succ f ih =>
    cases bs with
    | nil => simp [chunksAux] at h
    | cons b bs =>
      cases i with
      | zero =>
        obtain rfl : (b :: bs).take m = c := by simpa [chunksAux] using h
        simp
      | succ i =>
        obtain ⟨hstart, hend⟩ := ih (bs := (b :: bs).drop m) (i := i) (by simpa [chunksAux] using h)
        rw [List.length_drop] at hstart hend
        rw [Nat.mul_succ]
        omega

/-- The pieces of a write lie in its range. -/
theorem linePieces_bound {c : Nat} {bs : List Byte} {p : Nat × List Byte} (hp : p ∈ linePieces c bs) :
    c ≤ p.1 ∧ p.1 + p.2.length ≤ c + bs.length := by
  rcases List.mem_append.mp hp with hfirst | hrest
  · split at hfirst
    · cases hfirst
    · obtain rfl := List.mem_singleton.mp hfirst
      simp
  · obtain ⟨⟨i, x⟩, hx, rfl⟩ := List.mem_map.mp hrest
    obtain ⟨j, hj⟩ := List.mem_iff_getElem?.mp hx
    rw [List.getElem?_zip_eq_some] at hj
    obtain ⟨hji, hjx⟩ := hj
    obtain rfl : j = i := by
      rw [List.getElem?_eq_some_iff] at hji
      obtain ⟨hj, hget⟩ := hji
      simpa using hget
    obtain ⟨hstart, hend⟩ := chunksAux_bound (c := x) hjx
    rw [List.length_drop] at hstart hend
    dsimp only
    omega

theorem storedIn_writeTo {ag : Agent} {cls c : Nat} {bs : List Byte} (hs : StoredIn a n s₀ s) (ha : a ≤ c)
    (hn : c + bs.length ≤ a + n) : StoredIn a n s₀ (writeTo ag cls c bs s) := by
  have hpieces : StoredIn a n s₀ (((linePieces c bs).filter (fun p => mayAccess s ag p.1)).foldl (fun s p =>
      writePiece ag.isCorbel cls p.1 p.2 (decide (p.1 = c) || decide (p.1 % 128 = 0)) s) s) := by
    refine .foldl hs fun p hp t ht => ?_
    obtain ⟨hlow, hhigh⟩ := linePieces_bound (List.mem_of_mem_filter hp)
    exact storedIn_writePiece ht (by omega) (by omega)
  unfold writeTo writeDev
  dsimp only
  split
  · exact hpieces
  · exact storedIn_countUnmapped hpieces

end Sys2Proof.Machine
end

