-- ==== Sys2Proof/Proofs/MemoryOutsideTheStore.lean ====
section
/-!
SUPPORT. The bytes that memory-side operations, memory moves and the aperture change (R240, R241, R435, R448).
-/
namespace Sys2Proof.Machine

variable {a n : Nat} {s₀ s t : State}

/-! ## Memory-side operations -/

theorem storedIn_memOp {c m : Nat} {f : Nat → Nat → State → State} (hc : Clean s)
    (hf : ∀ k w t, StoredIn a n s t → StoredIn a n s (f k w t)) : StoredIn a n s (memOp c m f s) := by
  unfold memOp
  split
  · exact storedIn_countUnmapped (.refl hc)
  · exact hf _ _ _ (storedIn_readDev (.refl hc))

theorem storedIn_corbelStore {k m v : Nat} (hs : StoredIn a n s₀ s) (hm : m ≤ n) :
    StoredIn a n s₀ (corbelStore k a m v s) :=
  storedIn_writeTo hs (Nat.le_refl a) (by rw [length_leBytes]; omega)

theorem storedIn_emit {o : Output} (hs : StoredIn a n s₀ s) : StoredIn a n s₀ (emit o s) :=
  hs.within (within_emit (ps := [.out]) .rfl)

/-! ## The path of a command -/

section Path
variable {h : CmdHdr} {op : Nat} {k : State → KRes} {i : Instr}

theorem storedIn_conclude {r : ReplyTo} {x : KRes} (hx : StoredIn a n s₀ x.s) : StoredIn a n s₀ (conclude r op x) :=
  .ite (hx.within (ps := [.ctr, .out, .host]) (within_postReply .rfl))
    (.ite (hx.within (ps := [.host]) (within_setQueue .rfl)) hx)

variable (hk : ∀ t, StoredIn a n s₀ t → StoredIn a n s₀ (k t).s) (hs : StoredIn a n s₀ s)
include hk hs

theorem storedIn_beginCmd : StoredIn a n s₀ (beginCmd h op k i s) := by
  unfold beginCmd
  split
  · exact hs.within (ps := [.ctr, .out, .host]) (within_postReply .rfl)
  · exact storedIn_conclude (hk _ (hs.within (ps := [.ctr]) (within_countLate .rfl)))

theorem storedIn_enqueue : StoredIn a n s₀ (enqueue h op k i s) :=
  .ite (hs.within (ps := [.ctr, .out, .host]) (within_badCmd .rfl))
    (.ite (storedIn_beginCmd hk hs) (hs.within (ps := [.host]) (within_setQueue .rfl)))

theorem storedIn_mctpBegin : StoredIn a n s₀ (mctpBegin h op k s) := by
  have hreply {st detail : Nat} {data : List Byte} {t : State} (ht : StoredIn a n s₀ t) :
      StoredIn a n s₀ (mctpReply h st detail data t) := ht.within (ps := [.ctr, .out]) (within_mctpReply .rfl)
  have hrun : StoredIn a n s₀ (k (countLate h op s)).s := hk _ (hs.within (ps := [.ctr]) (within_countLate .rfl))
  unfold mctpBegin
  refine .ite (hreply hs) (.ite (hreply hs) (.ite (hreply hs) ?_))
  dsimp only
  split
  · exact .ite (hreply (hrun.within (ps := [.out]) (.out .rfl))) (hreply hrun)
  · exact hreply hrun

theorem storedIn_mctpSubmit : StoredIn a n s₀ (mctpSubmit h op k i s) := by
  have hcount : StoredIn a n s₀ (bump s (cHif 0x150)) := storedIn_bump hs
  exact .ite hs (.ite (hcount.within (ps := [.ctr, .out]) (within_mctpReply (within_bump .rfl)))
    (.ite (storedIn_mctpBegin hk hcount) (hcount.within (ps := [.host]) (.host .rfl))))

theorem storedIn_submit : StoredIn a n s₀ (submit h op k i s) :=
  .ite (storedIn_mctpSubmit hk hs)
    (.ite hs (storedIn_enqueue hk (hs.within (ps := [.host]) (within_setQueue .rfl))))

end Path

/-! ## Memory moves -/

theorem length_layOver (c base : Nat) (rec' raw : List Byte) : (layOver c base rec' raw).length = raw.length := by
  unfold layOver
  split
  · rfl
  · simp

theorem length_fwShown (c : Nat) (raw : List Byte) : (fwShown s c raw).length = raw.length := by
  unfold fwShown
  split
  · rfl
  · rw [length_layOver, length_layOver]

theorem length_readDev {ag : Agent} {cls c m : Nat} : (readDev ag cls c m s).1.data.length = m := by
  unfold readDev
  dsimp only
  split <;> simp [bytesAt]

theorem length_moveRead {c m : Nat} : (moveRead c m s).1.data.length = m := by
  unfold moveRead
  dsimp only
  split
  · rw [length_fwShown, length_readDev]
  · exact length_readDev

theorem storedIn_moveDone {poison : Nat} (hs : StoredIn a n s₀ s) : StoredIn a n s₀ (moveDone poison s).s :=
  .iteRes hs hs

theorem storedIn_kMemToHost {h : CmdHdr} {dev host len : W64} (hs : StoredIn a n s₀ s) :
    StoredIn a n s₀ (kMemToHost h dev host len s).s :=
  .iteRes (storedIn_bump hs) (.iteRes hs (.iteRes hs (storedIn_moveDone (storedIn_emit (storedIn_readDev hs)))))

theorem storedIn_kMemFromHost {h : CmdHdr} {host dev len : W64} (hs : StoredIn dev.toNat len.toNat s₀ s) :
    StoredIn dev.toNat len.toNat s₀ (kMemFromHost h host dev len s).s :=
  .iteRes (storedIn_bump hs) (.iteRes hs (.iteRes hs (.iteRes hs
    (storedIn_writeTo hs (Nat.le_refl _) (by rw [length_slice])))))

theorem storedIn_kMemCopy {h : CmdHdr} {src dst len : W64} (hs : StoredIn dst.toNat len.toNat s₀ s) :
    StoredIn dst.toNat len.toNat s₀ (kMemCopy h src dst len s).s := by
  have hmoved : StoredIn dst.toNat len.toNat s₀ (writeTo .host 12 dst.toNat (moveRead src.toNat len.toNat s).1.data
      (moveRead src.toNat len.toNat s).2) :=
    storedIn_writeTo (storedIn_readDev hs) (Nat.le_refl _) (by rw [length_moveRead])
  exact .iteRes hs (.iteRes hs (.iteRes hs (.iteRes hs (storedIn_moveDone hmoved))))

theorem storedIn_kMemFill {h : CmdHdr} {dst len pattern : W64} (hs : StoredIn dst.toNat len.toNat s₀ s) :
    StoredIn dst.toNat len.toNat s₀ (kMemFill h dst len pattern s).s := by
  refine .iteRes hs (.iteRes hs (.iteRes hs (storedIn_writeTo hs (Nat.le_refl _) ?_)))
  have hlen : ((List.replicate (len.toNat / 8) (leBytes 8 pattern.toNat)).flatten).length = len.toNat / 8 * 8 := by
    simp
  omega

/-! ## The aperture -/

theorem storedIn_execApertureAccess {o : BitVec 30} {write : Bool} {len : BitVec 7} {data : List Byte}
    (hc : Clean s) (ht : execApertureAccess o write len data s = .next t) :
    StoredIn (0x008000000000 + o.toNat) (if write then len.toNat else 0) s t := by
  refine .next ?_ ht
  refine .ite (.ite (.refl hc) (storedIn_emit (.refl hc))) ?_
  cases write with
  | true => exact storedIn_writeTo (.refl hc) (Nat.le_refl _) (by rw [length_slice]; exact Nat.le_refl _)
  | false => exact storedIn_emit (storedIn_readDev (.refl hc))

/-- Settles O58: with no bit errors standing, `StoredIn` holds of each write, operation, move and aperture access for
the range it names. -/
theorem memoryOutsideTheStore : Obligations.MemoryOutsideTheStore := by
  unfold Obligations.MemoryOutsideTheStore
  refine ⟨fun ag cls a bs s b hc hb => (storedIn_writeTo (.refl hc) (Nat.le_refl a) (Nat.le_refl _)).outside b hb,
    fun i s t hc ht => ?_⟩
  have hword {a n : Nat} {f : Nat → Nat → State → State} (hf : ∀ k w u, StoredIn a n s u → StoredIn a n s (f k w u))
      {m : Nat} (hnext : (.next (memOp a m f s) : Host.Outcome State Fault Refusal) = .next t) : StoredIn a n s t :=
    (storedIn_memOp hc hf).next hnext
  cases i with
  | addI64 =>
    exact (hword (fun _ _ _ h => storedIn_corbelStore (.ite h (storedIn_bump h)) (Nat.le_refl _)) ht).outside
  | addF32 =>
    exact (hword (fun _ _ _ h => storedIn_corbelStore (.ite (storedIn_bump h) h) (Nat.le_refl _)) ht).outside
  | maxF32 | minF32 | or64 | sqAdd | linAdd =>
    exact (hword (fun _ _ _ h => storedIn_corbelStore h (Nat.le_refl _)) ht).outside
  | swap64 => exact (hword (fun _ _ _ h => storedIn_emit (storedIn_corbelStore h (Nat.le_refl _))) ht).outside
  | cas64 => exact (hword (fun _ _ _ h => storedIn_emit (.ite (storedIn_corbelStore h (Nat.le_refl _)) h)) ht).outside
  | memToHost => exact ((storedIn_submit (fun _ h => storedIn_kMemToHost h) (.refl hc)).next ht).bytes
  | memFromHost => exact ((storedIn_submit (fun _ h => storedIn_kMemFromHost h) (.refl hc)).next ht).outside
  | memCopy => exact ((storedIn_submit (fun _ h => storedIn_kMemCopy h) (.refl hc)).next ht).outside
  | memFill => exact ((storedIn_submit (fun _ h => storedIn_kMemFill h) (.refl hc)).next ht).outside
  | apertureAccess => exact (storedIn_execApertureAccess hc ht).outside
  | _ => trivial

end Sys2Proof.Machine
end
